-- ==== Sys2Proof/Word.lean ====
section
/-! DEFINITION. The words the JX5120 model is written in: bytes, 32-bit register words (R5), byte strings and
sparse maps. -/

set_option Elab.async false

namespace Sys2Proof

/-- One byte. -/
abbrev Byte := BitVec 8

/-- One 32-bit register word (R5). -/
abbrev Word := BitVec 32

/-- A byte string, first byte first. -/
abbrev Bytes := List Byte

/-- A sparse map from numbers: pairs of key and value in rising order of key. A key that is not listed holds the
default value of the type. -/
abbrev Map (α : Type) := List (Nat × α)

end Sys2Proof
end

