-- ==== Sys2Proof/Machine/Map.lean ====
section
/-! DEFINITION. Operations on sparse maps and lists that every unit of the model shares. -/

set_option Elab.async false

namespace Sys2Proof.Machine

/-- The value listed for key `k`, if any. -/
def mfind {α : Type} : Map α → Nat → Option α
  | [], _ => none
  | (k', v) :: t, k => if k' = k then some v else mfind t k

/-- The value of key `k`: the listed one, else the default of the type. -/
def mget {α : Type} [Inhabited α] (m : Map α) (k : Nat) : α :=
  (mfind m k).getD default

/-- Write `v` at key `k`, keeping the keys in rising order. -/
def mput {α : Type} : Map α → Nat → α → Map α
  | [], k, v => [(k, v)]
  | (k', v') :: t, k, v =>
    if k < k' then (k, v) :: (k', v') :: t
    else if k = k' then (k, v) :: t
    else (k', v') :: mput t k v

/-- Change the value of key `k` by `f`. -/
def mupd {α : Type} [Inhabited α] (m : Map α) (k : Nat) (f : α → α) : Map α :=
  mput m k (f (mget m k))

/-- Remove key `k`. -/
def mdel {α : Type} (m : Map α) (k : Nat) : Map α :=
  m.filter (fun p => p.1 != k)

/-- The listed keys, in order. -/
def mkeys {α : Type} (m : Map α) : List Nat := m.map (·.1)

/-- Apply `f` to every listed value, with its key. -/
def mmap {α : Type} (m : Map α) (f : Nat → α → α) : Map α := m.map (fun p => (p.1, f p.1 p.2))

/-- Number of list entries that satisfy `p`. -/
def countIf {α : Type} (l : List α) (p : α → Bool) : Nat := (l.filter p).length

/-- Add `n` to a counter that saturates at `cap`. -/
def satAdd (cap a n : Nat) : Nat := min cap (a + n)

/-- Sum of a list of numbers. -/
def sumNat (l : List Nat) : Nat := l.foldl (· + ·) 0

/-- Ceiling of `a / b`. -/
def ceilDiv (a b : Nat) : Nat := (a + b - 1) / b

/-- `a` rounded up to a multiple of `b`. -/
def roundUp (a b : Nat) : Nat := ceilDiv a b * b

/-- The value `v` held between `lo` and `hi`. -/
def clampInt (lo hi v : Int) : Int := max lo (min hi v)

/-- The first element of `l` with the least key under `key`, ties to the earlier element. -/
def minByNat {α : Type} (key : α → Nat) : List α → Option α
  | [] => none
  | a :: t =>
    match minByNat key t with
    | none => some a
    | some b => if key b < key a then some b else some a

/-- Insert into a list kept in rising order by a comparison `le`, after equal elements. -/
def insertBy {α : Type} (le : α → α → Bool) (x : α) : List α → List α
  | [] => [x]
  | y :: t => if le y x then y :: insertBy le x t else x :: y :: t

/-- Stable sort by insertion. -/
def sortBy {α : Type} (le : α → α → Bool) (l : List α) : List α :=
  l.foldl (fun acc x => insertBy le x acc) []

/-- Replace the elements of `l` that satisfy `p` by their image under `f`. -/
def updWhere {α : Type} (l : List α) (p : α → Bool) (f : α → α) : List α :=
  l.map (fun x => if p x then f x else x)

/-- Bits `[hi:lo]` of a register word, as a number. -/
def wbits (w : Word) (hi lo : Nat) : Nat := w.toNat / 2 ^ lo % 2 ^ (hi - lo + 1)

/-- One bit of a register word. -/
def wbit (w : Word) (i : Nat) : Bool := w.getLsbD i

/-- A register word with field value `v` placed at bit `lo`. -/
def wfield (v lo : Nat) : Word := BitVec.ofNat 32 (v * 2 ^ lo)

/-- The word 1 or 0 of a flag at bit `i`. -/
def wflag (b : Bool) (i : Nat) : Word := if b then BitVec.ofNat 32 (2 ^ i) else 0

end Sys2Proof.Machine
end

