-- ==== Sys2Proof/Machine/Bytes.lean ====
section
/-! DEFINITION. Byte order (R3), CRC-32 (R30), CRC-32C (R126, R291, R377) and SHAKE256 (R33, R35). -/

set_option Elab.async false

namespace Sys2Proof.Machine

/-- Byte `i` of a byte string; zero beyond its end. -/
def byteAt (b : Bytes) (i : Nat) : Nat := (b.getD i 0).toNat

/-- `n` bytes from offset `off`. -/
def slice (b : Bytes) (off n : Nat) : Bytes := (b.drop off).take n

/-- Little-endian value of a byte string (R3). -/
def leVal : Bytes → Nat
  | [] => 0
  | b :: t => b.toNat + 256 * leVal t

/-- Big-endian value of a byte string (network byte order). -/
def beVal (b : Bytes) : Nat := b.foldl (fun a x => a * 256 + x.toNat) 0

/-- The `n`-byte little-endian field at offset `off` (R3). -/
def leAt (b : Bytes) (off n : Nat) : Nat := leVal (slice b off n)

/-- The `n`-byte big-endian field at offset `off`. -/
def beAt (b : Bytes) (off n : Nat) : Nat := beVal (slice b off n)

def le16 (b : Bytes) (off : Nat) : Nat := leAt b off 2
def le32 (b : Bytes) (off : Nat) : Nat := leAt b off 4
def le64 (b : Bytes) (off : Nat) : Nat := leAt b off 8

/-- `v` as a two's-complement number of `w` bits. -/
def toSigned (w v : Nat) : Int := if v % 2 ^ w < 2 ^ (w - 1) then (v % 2 ^ w : Nat) else (v % 2 ^ w : Nat) - (2 : Int) ^ w

/-- The two's-complement code of `v` in `w` bits. -/
def ofSigned (w : Nat) (v : Int) : Nat := (v % (2 : Int) ^ w).toNat

/-- `n` bytes of `v`, least significant first (R3). -/
def toLe : Nat → Nat → Bytes
  | 0, _ => []
  | n + 1, v => BitVec.ofNat 8 v :: toLe n (v / 256)

/-- `n` bytes of `v`, most significant first. -/
def toBe (n v : Nat) : Bytes := (toLe n v).reverse

/-- `n` zero bytes. -/
def zeros (n : Nat) : Bytes := List.replicate n 0

/-- A byte string padded with zeros to `n` bytes, or cut to them. -/
def padTo (n : Nat) (b : Bytes) : Bytes := (b ++ zeros (n - b.length)).take n

/-- `b` with the bytes from `off` replaced by `v`; bytes beyond the end of `b` are dropped. -/
def setBytes (b : Bytes) (off : Nat) (v : Bytes) : Bytes :=
  b.take off ++ v.take (b.length - off) ++ b.drop (off + v.length)

/-- Every byte from `off` for `n` bytes is zero. -/
def allZero (b : Bytes) (off n : Nat) : Bool := (slice b off n).all (· == 0)

/-- The ASCII bytes of a text. -/
def ascii (s : String) : Bytes := s.toList.map (fun c => BitVec.ofNat 8 c.toNat)

/-! ### Cyclic redundancy checks, bit-reflected -/

/-- Eight steps of a reflected CRC with polynomial `poly`. -/
def crcShift (poly : Nat) : Nat → Nat → Nat
  | 0, c => c
  | k + 1, c => crcShift poly k (if c % 2 = 1 then (c / 2).xor poly else c / 2)

/-- Reflected 32-bit CRC with initial value and final complement of all ones. -/
def crcReflected (poly : Nat) (b : Bytes) : Nat :=
  (b.foldl (fun c x => crcShift poly 8 (c.xor x.toNat)) 0xFFFFFFFF).xor 0xFFFFFFFF

/-- CRC-32 with the IEEE 802.3 polynomial (R30). -/
def crc32 (b : Bytes) : Nat := crcReflected 0xEDB88320 b

/-- CRC-32C (Castagnoli) (R126, R250, R291, R377, R402). -/
def crc32c (b : Bytes) : Nat := crcReflected 0x82F63B78 b

/-- CRC-32 of MPEG-2 sections, most significant bit first, over a whole section; zero when it agrees (R123). -/
def crcMpeg (b : Bytes) : Nat :=
  b.foldl (fun c x =>
    (List.range 8).foldl (fun c _ => if c / 2 ^ 31 % 2 = 1 then ((c * 2) % 2 ^ 32).xor 0x04C11DB7 else (c * 2) % 2 ^ 32)
      (c.xor (x.toNat * 2 ^ 24))) 0xFFFFFFFF

/-! ### SHAKE256 of NIST FIPS 202 -/

/-- Rotate a 64-bit lane left. -/
def rotl64 (v n : Nat) : Nat := ((v <<< (n % 64)) ||| (v >>> (64 - n % 64))) % 2 ^ 64

/-- Rotation offsets of the lanes, index x + 5 y. -/
def keccakRho : List Nat :=
  [0, 1, 62, 28, 27, 36, 44, 6, 55, 20, 3, 10, 43, 25, 39, 41, 45, 15, 21, 8, 18, 2, 61, 56, 14]

/-- Round constants. -/
def keccakRc : List Nat :=
  [0x0000000000000001, 0x0000000000008082, 0x800000000000808A, 0x8000000080008000, 0x000000000000808B,
   0x0000000080000001, 0x8000000080008081, 0x8000000000008009, 0x000000000000008A, 0x0000000000000088,
   0x0000000080008009, 0x000000008000000A] ++
  [0x000000008000808B, 0x800000000000008B, 0x8000000000008089, 0x8000000000008003, 0x8000000000008002,
   0x8000000000000080, 0x000000000000800A, 0x800000008000000A, 0x8000000080008081, 0x8000000000008080,
   0x0000000080000001, 0x8000000080008008]

/-- One round of Keccak-f[1600] on 25 lanes, lane index x + 5 y. -/
def keccakRound (a : List Nat) (rc : Nat) : List Nat :=
  let ln (l : List Nat) (i : Nat) := l.getD i 0
  let c := (List.range 5).map (fun x => (List.range 5).foldl (fun v y => v.xor (ln a (x + 5 * y))) 0)
  let d := (List.range 5).map (fun x => (ln c ((x + 4) % 5)).xor (rotl64 (ln c ((x + 1) % 5)) 1))
  let t := (List.range 25).map (fun i => (ln a i).xor (ln d (i % 5)))
  let b := (List.range 25).map (fun i =>
    let x := i % 5
    let y := i / 5
    let sx := (x + 3 * y) % 5
    rotl64 (ln t (sx + 5 * x)) (ln keccakRho (sx + 5 * x)))
  let e := (List.range 25).map (fun i =>
    let x := i % 5
    let y := i / 5
    (ln b i).xor (((2 ^ 64 - 1).xor (ln b ((x + 1) % 5 + 5 * y))) &&& (ln b ((x + 2) % 5 + 5 * y))))
  ((ln e 0).xor rc) :: e.drop 1

/-- The permutation Keccak-f[1600]. -/
def keccakF (a : List Nat) : List Nat := keccakRc.foldl keccakRound a

/-- Absorb one 136-byte block. -/
def keccakAbsorb (a : List Nat) (blk : Bytes) : List Nat :=
  keccakF ((List.range 25).map (fun i => (a.getD i 0).xor (leAt blk (8 * i) 8)))

/-- Cut a byte string into blocks of `n` bytes, `fuel` at most. -/
def blocksOf (n : Nat) : Nat → Bytes → List Bytes
  | 0, _ => []
  | fuel + 1, b => if b.isEmpty then [] else b.take n :: blocksOf n fuel (b.drop n)

/-- Squeeze `k` blocks. -/
def keccakSqueeze : Nat → List Nat → Bytes
  | 0, _ => []
  | k + 1, a => (a.take 17).flatMap (toLe 8) ++ keccakSqueeze k (keccakF a)

/-- Message padding of SHAKE256 (suffix 1111, pad10*1) to a multiple of 136 bytes. -/
def shakePad (m : Bytes) : Bytes :=
  let n := 136 - m.length % 136
  if n = 1 then m ++ [0x9F] else m ++ [0x1F] ++ zeros (n - 2) ++ [0x80]

/-- SHAKE256 with an output of `out` bytes. -/
def shake256 (m : Bytes) (out : Nat) : Bytes :=
  let p := shakePad m
  let a := (blocksOf 136 (p.length / 136) p).foldl keccakAbsorb (List.replicate 25 0)
  (keccakSqueeze (ceilDiv out 136) a).take out

/-- The 64-byte SHAKE256 digest the device takes of a container, key or entry. -/
def digest64 (m : Bytes) : Bytes := shake256 m 64

end Sys2Proof.Machine
end

