-- ==== Sys2Proof/Machine/Fp.lean ====
section
/-! DEFINITION. Number formats (R86, R166), conversions (R167), stochastic rounding (R168) and the correctly rounded
FP32 operations of the vector unit (R158). A value is held exactly as sign, significand and exponent; every named
rounding is to nearest, ties to even. -/

set_option Elab.async false

namespace Sys2Proof.Machine

/-- A real, infinite or NaN value: `fin s m e` stands for (-1)^s times m times 2^e. -/
inductive Fl where
  | nan
  | inf (neg : Bool)
  | fin (neg : Bool) (m : Nat) (e : Int)
  deriving DecidableEq, Repr, Inhabited

/-- A binary floating-point format of R166. -/
structure FFmt where
  /-- exponent bits -/
  eb : Nat
  /-- mantissa bits -/
  mb : Nat
  /-- exponent bias -/
  bias : Nat
  /-- code of the largest finite magnitude -/
  maxCode : Nat
  /-- canonical NaN code -/
  nanCode : Nat
  /-- the format has infinities -/
  hasInf : Bool
  deriving DecidableEq, Repr

def fmtE4M3 : FFmt := ⟨4, 3, 7, 0x7E, 0x7F, false⟩
def fmtE5M2 : FFmt := ⟨5, 2, 15, 0x7B, 0x7E, true⟩
def fmtFP16 : FFmt := ⟨5, 10, 15, 0x7BFF, 0x7E00, true⟩
def fmtBF16 : FFmt := ⟨8, 7, 127, 0x7F7F, 0x7FC0, true⟩
def fmtFP32 : FFmt := ⟨8, 23, 127, 0x7F7FFFFF, 0x7FC00000, true⟩

/-- Bit length of a natural number. -/
def bitLen (n : Nat) : Nat := if n = 0 then 0 else Nat.log2 n + 1

/-- The value of a code of a floating-point format (R166). -/
def flDecode (f : FFmt) (c : Nat) : Fl :=
  let w := f.eb + f.mb
  let neg := c / 2 ^ w % 2 = 1
  let a := c % 2 ^ w
  let e := a / 2 ^ f.mb
  let m := a % 2 ^ f.mb
  if a > f.maxCode then
    if f.hasInf && m = 0 then .inf neg else .nan
  else if e = 0 then .fin neg m (1 - (f.bias : Int) - f.mb)
  else .fin neg (m + 2 ^ f.mb) ((e : Int) - f.bias - f.mb)

/-- Magnitude code of `m * 2^e` rounded to nearest, ties to even, in format `f`, without a range limit. -/
def roundCode (f : FFmt) (m : Nat) (e : Int) : Nat :=
  if m = 0 then 0 else
  let top : Int := (bitLen m : Int) - 1 + e
  let q : Int := max (top - f.mb) (1 - (f.bias : Int) - f.mb)
  let mant :=
    if q ≤ e then m * 2 ^ (e - q).toNat
    else
      let s := (q - e).toNat
      let hi := m / 2 ^ s
      let lo := m % 2 ^ s
      let half := 2 ^ (s - 1)
      if lo > half || (lo = half && hi % 2 = 1) then hi + 1 else hi
  ((q + f.mb + f.bias - 1).toNat) * 2 ^ f.mb + mant

/-- Sign bit of a format. -/
def signBit (f : FFmt) (neg : Bool) : Nat := if neg then 2 ^ (f.eb + f.mb) else 0

/-- The code of an arithmetic result: beyond the range it is infinity (R169), NaN is canonical (R166). -/
def flEncode (f : FFmt) : Fl → Nat
  | .nan => f.nanCode
  | .inf s => signBit f s + (if f.hasInf then (2 ^ f.eb - 1) * 2 ^ f.mb else f.maxCode)
  | .fin s m e =>
    let c := roundCode f m e
    signBit f s + (if c > f.maxCode then (if f.hasInf then (2 ^ f.eb - 1) * 2 ^ f.mb else f.maxCode) else c)

/-- The value rounded once to FP32 (`rne_fp32`). -/
def rnd32 (x : Fl) : Fl := flDecode fmtFP32 (flEncode fmtFP32 x)

/-- FP32 value of a 32-bit code. -/
def f32 (c : Nat) : Fl := flDecode fmtFP32 (c % 2 ^ 32)

/-- FP32 code of a value. -/
def f32Code (x : Fl) : Nat := flEncode fmtFP32 x

/-- An integer as an exact value. -/
def flInt (i : Int) : Fl := .fin (i < 0) i.natAbs 0

/-- The power of two `2^e`. -/
def flPow2 (e : Int) : Fl := .fin false 1 e

def flZero : Fl := .fin false 0 0
def flOne : Fl := .fin false 1 0

def flNeg : Fl → Fl
  | .nan => .nan
  | .inf s => .inf (!s)
  | .fin s m e => .fin (!s) m e

def flAbs : Fl → Fl
  | .nan => .nan
  | .inf _ => .inf false
  | .fin _ m e => .fin false m e

def flIsFinite : Fl → Bool
  | .fin _ _ _ => true
  | _ => false

def flIsNan : Fl → Bool
  | .nan => true
  | _ => false

def flIsInf : Fl → Bool
  | .inf _ => true
  | _ => false

def flIsZero : Fl → Bool
  | .fin _ m _ => m = 0
  | _ => false

/-- Signed significand. -/
def smant (s : Bool) (m : Nat) : Int := if s then -(m : Int) else m

/-- Exact sum. Equal and opposite values give +0.0, two negative zeros give -0.0. -/
def addX : Fl → Fl → Fl
  | .nan, _ => .nan
  | _, .nan => .nan
  | .inf a, .inf b => if a = b then .inf a else .nan
  | .inf a, _ => .inf a
  | _, .inf b => .inf b
  | .fin a m e, .fin b n g =>
    let q := min e g
    let v := smant a m * (2 : Int) ^ (e - q).toNat + smant b n * (2 : Int) ^ (g - q).toNat
    if v = 0 then .fin (a && b) 0 0 else .fin (v < 0) v.natAbs q

/-- Exact product. -/
def mulX : Fl → Fl → Fl
  | .nan, _ => .nan
  | _, .nan => .nan
  | .inf a, .inf b => .inf (a != b)
  | .inf a, .fin b n _ => if n = 0 then .nan else .inf (a != b)
  | .fin a m _, .inf b => if m = 0 then .nan else .inf (a != b)
  | .fin a m e, .fin b n g => .fin (a != b) (m * n) (e + g)

def fadd (x y : Fl) : Fl := rnd32 (addX x y)
def fsub (x y : Fl) : Fl := rnd32 (addX x (flNeg y))
def fmul (x y : Fl) : Fl := rnd32 (mulX x y)

/-- a times b plus c with one rounding (R158). -/
def ffma (a b c : Fl) : Fl := rnd32 (addX (mulX a b) c)

/-- Exact comparison of two finite values as a difference. -/
def finCmp (a : Bool) (m : Nat) (e : Int) (b : Bool) (n : Nat) (g : Int) : Int :=
  let q := min e g
  smant a m * (2 : Int) ^ (e - q).toNat - smant b n * (2 : Int) ^ (g - q).toNat

/-- x below y; false where either is NaN. -/
def flLt : Fl → Fl → Bool
  | .nan, _ => false
  | _, .nan => false
  | .inf a, .inf b => a && !b
  | .inf a, .fin _ _ _ => a
  | .fin _ _ _, .inf b => !b
  | .fin a m e, .fin b n g => finCmp a m e b n g < 0

/-- x equal to y in value; false where either is NaN. -/
def flEq : Fl → Fl → Bool
  | .inf a, .inf b => a = b
  | .fin a m e, .fin b n g => finCmp a m e b n g = 0
  | _, _ => false

def flLe (x y : Fl) : Bool := flLt x y || flEq x y

/-- Sign of a value; a zero keeps its own sign. -/
def flSign : Fl → Bool
  | .nan => false
  | .inf s => s
  | .fin s _ _ => s

/-- MIN of R158: NaN when either is NaN, -0 below +0. -/
def fmin (x y : Fl) : Fl :=
  if flIsNan x || flIsNan y then .nan
  else if flLt x y then x else if flLt y x then y
  else if flSign x then x else y

/-- MAX of R158: NaN when either is NaN, -0 below +0. -/
def fmax (x y : Fl) : Fl :=
  if flIsNan x || flIsNan y then .nan
  else if flLt x y then y else if flLt y x then x
  else if flSign x then y else x

/-- Correctly rounded quotient (R158, DIV and RCP), with the IEEE 754 special cases. -/
def fdiv : Fl → Fl → Fl
  | .nan, _ => .nan
  | _, .nan => .nan
  | .inf _, .inf _ => .nan
  | .inf a, .fin b _ _ => .inf (a != b)
  | .fin a _ _, .inf b => .fin (a != b) 0 0
  | .fin a m e, .fin b n g =>
    if n = 0 then (if m = 0 then .nan else .inf (a != b))
    else
      let k := bitLen n + 40
      let q := m * 2 ^ k / n
      let r := m * 2 ^ k % n
      rnd32 (.fin (a != b) (2 * q + (if r = 0 then 0 else 1)) (e - g - k - 1))

/-- RCP: the correctly rounded reciprocal (R158). -/
def frcp (x : Fl) : Fl := fdiv flOne x

/-- Integer square root by descending bits, `fuel` bits at most. -/
def isqrtBits (n : Nat) : Nat → Nat → Nat
  | 0, r => r
  | k + 1, r => if (r + 2 ^ k) * (r + 2 ^ k) ≤ n then isqrtBits n k (r + 2 ^ k) else isqrtBits n k r

def isqrt (n : Nat) : Nat := isqrtBits n (bitLen n / 2 + 1) 0

/-- SQRT: correctly rounded square root (R158). -/
def fsqrt : Fl → Fl
  | .nan => .nan
  | .inf s => if s then .nan else .inf false
  | .fin s m e =>
    if m = 0 then .fin s 0 0 else if s then .nan else
    let e' := if e % 2 = 0 then e else e - 1
    let m' := if e % 2 = 0 then m else 2 * m
    let n := m' * 2 ^ 80
    let r := isqrt n
    rnd32 (.fin false (2 * r + (if r * r = n then 0 else 1)) (e' / 2 - 40 - 1))

/-- RSQRT: correctly rounded 1 over the square root (R158). -/
def frsqrt : Fl → Fl
  | .nan => .nan
  | .inf s => if s then .nan else flZero
  | .fin s m e =>
    if m = 0 then .inf s else if s then .nan else
    let e' := if e % 2 = 0 then e else e - 1
    let m' := if e % 2 = 0 then m else 2 * m
    -- 1/sqrt(m' 2^e') = sqrt(2^(2k) / m') 2^(-k - e'/2)
    let k := bitLen m' + 60
    let n := 2 ^ (2 * k) / m'
    let r := isqrt n
    let exact := r * r = n && 2 ^ (2 * k) % m' = 0
    rnd32 (.fin false (2 * r + (if exact then 0 else 1)) (-(e' / 2) - k - 1))

/-- floor of a finite value; 0 for others. -/
def flFloor : Fl → Int
  | .fin s m e => if 0 ≤ e then smant s m * (2 : Int) ^ e.toNat else Int.fdiv (smant s m) ((2 : Int) ^ (-e).toNat)
  | _ => 0

/-- Nearest integer, ties to even; 0 for NaN and infinity. -/
def flRoundEven (x : Fl) : Int :=
  match x with
  | .fin s m e =>
    if 0 ≤ e then smant s m * (2 : Int) ^ e.toNat
    else
      let k := (-e).toNat
      let hi := m / 2 ^ k
      let lo := m % 2 ^ k
      let r := if 2 * lo > 2 ^ k || (2 * lo = 2 ^ k && hi % 2 = 1) then hi + 1 else hi
      smant s r
  | _ => 0

/-- An integer rounded once to FP32 (R167, R184). -/
def fofInt (i : Int) : Fl := rnd32 (flInt i)

/-- Exact sum of a list. -/
def sumX (l : List Fl) : Fl := l.foldl addX flZero

/-! ### Functions with irrational values, by fixed-point bounds wide enough for every FP32 result -/

/-- Fraction bits of the fixed-point work. -/
def fixP : Nat := 256

/-- ln 2 in `fixP` fraction bits. -/
def ln2Fix : Nat := (List.range 320).foldl (fun a k => a + 2 ^ fixP / ((k + 1) * 2 ^ (k + 1))) 0

/-- e^x for x below 1 in `fixP` fraction bits, by its power series. -/
def expFix (x : Nat) : Nat :=
  ((List.range 80).foldl (fun (p : Nat × Nat) k => (p.1 + p.2, p.2 * x / 2 ^ fixP / (k + 1))) (0, 2 ^ fixP)).1

/-- EXP2 of R158 (a detail DEDUCED, log 48). -/
def fexp2 : Fl → Fl
  | .nan => .nan
  | .inf s => if s then flZero else .inf false
  | .fin s m e =>
    let x : Fl := .fin s m e
    if m = 0 then flOne
    else if flLe (flInt 128) x then .inf false
    else if flLt x (flInt (-151)) then flZero
    else
      let n := flFloor x
      let sh := (-e).toNat
      let frac : Nat := if 0 ≤ e then 0 else (smant s m - n * (2 : Int) ^ sh).toNat
      if frac = 0 then rnd32 (flPow2 n)
      else
        let ff := frac * 2 ^ fixP / 2 ^ sh
        let r := expFix (ff * ln2Fix / 2 ^ fixP)
        rnd32 (.fin false (2 * r + 1) (n - fixP - 1))

/-- Fraction bits of log2 of `y` in [1, 2), `y` in 400 fraction bits, `k` bits, most significant first. -/
def log2Frac : Nat → Nat → Nat → Nat
  | 0, _, acc => acc
  | k + 1, y, acc =>
    let z := y * y / 2 ^ 400
    if z ≥ 2 ^ 401 then log2Frac k (z / 2) (2 * acc + 1) else log2Frac k z (2 * acc)

/-- LOG2 of R158 (a detail DEDUCED, log 48). -/
def flog2 : Fl → Fl
  | .nan => .nan
  | .inf s => if s then .nan else .inf false
  | .fin s m e =>
    if m = 0 then .inf true else if s then .nan else
    let bl := bitLen m
    let k : Int := (bl : Int) - 1 + e
    if m = 2 ^ (bl - 1) then rnd32 (flInt k)
    else
      let y := if bl ≤ 401 then m * 2 ^ (401 - bl) else m / 2 ^ (bl - 401)
      let f := log2Frac 200 y 0
      let v : Int := (k * (2 : Int) ^ 200 + f) * 2 + 1
      rnd32 (.fin (v < 0) v.natAbs (-201))

/-- arctan(1/n) in `fixP` fraction bits. -/
def atanInvFix (n : Nat) : Int :=
  (List.range 200).foldl (fun a k =>
    let t : Int := (2 ^ fixP / n ^ (2 * k + 1) / (2 * k + 1) : Nat)
    if k % 2 = 0 then a + t else a - t) 0

/-- pi in `fixP` fraction bits. -/
def piFix : Int := 16 * atanInvFix 5 - 4 * atanInvFix 239

/-- sin of a fixed-point angle. -/
def sinFix (x : Int) : Int :=
  ((List.range 60).foldl (fun (p : Int × Int) (k : Nat) =>
    (p.1 + p.2, -(p.2 * x / (2 : Int) ^ fixP * x / (2 : Int) ^ fixP / (((2 * k + 2) * (2 * k + 3) : Nat) : Int)))) (0, x)).1

/-- sin(pi num / den) in `fixP` fraction bits (a detail DEDUCED, log 48). -/
def sinPi (num : Int) (den : Nat) : Int := sinFix (piFix * (num % (2 * den)) / den)

/-- The twiddle C[j] = bf(cos(2 pi j / 64)) of R203, as a value. -/
def twiddleC (j : Nat) : Fl :=
  let v := sinPi (j % 64 + 16) 32
  if j % 32 = 16 then flZero else flDecode fmtBF16 (flEncode fmtBF16 (.fin (v < 0) v.natAbs (-(fixP : Int))))

/-- The twiddle S[j] = bf(sin(2 pi j / 64)) of R203. -/
def twiddleS (j : Nat) : Fl :=
  let v := sinPi (j % 64) 32
  if j % 32 = 0 then flZero else flDecode fmtBF16 (flEncode fmtBF16 (.fin (v < 0) v.natAbs (-(fixP : Int))))

/-! ### Tensor formats of R86 and conversions of R167 -/

/-- The floating-point format of a format code of R86, if it is one. -/
def fltFmt : Nat → Option FFmt
  | 6 => some fmtE4M3
  | 7 => some fmtE5M2
  | 8 => some fmtFP16
  | 9 => some fmtBF16
  | 10 => some fmtFP32
  | _ => none

/-- Bits of an element of a format code of R86; 0 for an unknown code. -/
def fmtBits : Nat → Nat
  | 1 => 4
  | 2 => 8
  | 3 => 8
  | 4 => 16
  | 5 => 32
  | 6 => 8
  | 7 => 8
  | 8 => 16
  | 9 => 16
  | 10 => 32
  | _ => 0

/-- Least code value of an integer format (R166, R178). -/
def fmtMin : Nat → Int
  | 1 => -8
  | 2 => -128
  | 4 => -32768
  | 5 => -2147483648
  | 6 => -448
  | 7 => -57344
  | _ => 0

/-- Greatest code value of an integer format, or largest finite value of an FP8 format (R178). -/
def fmtMax : Nat → Int
  | 1 => 7
  | 2 => 127
  | 3 => 255
  | 4 => 32767
  | 5 => 2147483647
  | 6 => 448
  | 7 => 57344
  | _ => 0

/-- The integer a stored code of an integer format stands for. -/
def codeInt (fmt c : Nat) : Int :=
  if fmt = 3 then (c % 256 : Nat) else toSigned (fmtBits fmt) c

/-- The stored code of an integer value. -/
def intCode (fmt : Nat) (v : Int) : Nat := ofSigned (fmtBits fmt) v

/-- The value of a stored code of any format, before any scale (R99, R167): exact, but INT32 rounds to FP32. -/
def codeVal (fmt c : Nat) : Fl :=
  match fltFmt fmt with
  | some f => flDecode f c
  | none => if fmt = 5 then fofInt (codeInt 5 c) else flInt (codeInt fmt c)

/-- Result of a conversion: the code, and whether it counts as saturated or as non-finite (R167). -/
structure Conv where
  code : Nat
  sat : Bool
  nonfin : Bool
  deriving DecidableEq, Repr, Inhabited

/-- Conversion to a floating-point destination (R167). -/
def convFloat (f : FFmt) : Fl → Conv
  | .nan => ⟨f.nanCode, false, true⟩
  | .inf s =>
    if f.hasInf then ⟨signBit f s + (2 ^ f.eb - 1) * 2 ^ f.mb, false, true⟩
    else ⟨signBit f s + f.maxCode, true, false⟩
  | .fin s m e =>
    let c := roundCode f m e
    if c > f.maxCode then ⟨signBit f s + f.maxCode, true, false⟩ else ⟨signBit f s + c, false, false⟩

/-- Conversion to any format of R86, rounding to nearest, ties to even (R167). -/
def convTo (fmt : Nat) (x : Fl) : Conv :=
  match fltFmt fmt with
  | some f => convFloat f x
  | none =>
    match x with
    | .nan => ⟨0, false, true⟩
    | .inf s => ⟨intCode fmt (if s then fmtMin fmt else fmtMax fmt), true, false⟩
    | x =>
      let i := flRoundEven x
      let v := clampInt (fmtMin fmt) (fmtMax fmt) i
      ⟨intCode fmt v, i != v, false⟩

/-- BF16 value of a value, with the saturation of R167 (the bf() of R203). -/
def bfVal (x : Fl) : Fl := flDecode fmtBF16 (convFloat fmtBF16 x).code

/-- SR(n) of R168 on an exact value, with draw `u` of n bits. -/
def roundSr (f : FFmt) (x : Fl) (n u : Nat) : Conv :=
  match x with
  | .fin s m e =>
    if m = 0 then ⟨signBit f s, false, false⟩ else
    let top : Int := (bitLen m : Int) - 1 + e
    let q : Int := max (top - f.mb) (1 - (f.bias : Int) - f.mb)
    if q ≤ e then convFloat f x
    else
      let sh := (q - e).toNat
      let hi := m / 2 ^ sh
      let lo := m % 2 ^ sh
      let base := ((q + f.mb + f.bias - 1).toNat) * 2 ^ f.mb + hi
      if lo = 0 then convFloat f x
      else
        -- the neighbours of x in rising order: for a negative x the one of greater magnitude is lo
        let up :=
          if s then !(u < (2 ^ sh - lo) * 2 ^ n / 2 ^ sh)
          else u < lo * 2 ^ n / 2 ^ sh
        let c := if up then base + 1 else base
        if c > f.maxCode then ⟨signBit f s + f.maxCode, true, false⟩ else ⟨signBit f s + c, false, false⟩
  | x => convFloat f x

/-- SR(n) with the alternation of R265: an odd step or index rounds the negated value and negates back. -/
def roundSrAlt (f : FFmt) (x : Fl) (n u : Nat) (odd : Bool) : Conv :=
  if odd then
    let c := roundSr f (flNeg x) n u
    let w := 2 ^ (f.eb + f.mb)
    { c with code := if c.code % w > f.maxCode && !(f.hasInf && c.code % 2 ^ f.mb = 0) then c.code
                     else if c.code < w then c.code + w else c.code - w }
  else roundSr f x n u

/-! ### Reductions of R169 -/

/-- One group sum: exact, rounded once; a zero without NaN or infinity gives +0.0. -/
def groupSum (l : List Fl) : Fl :=
  match sumX l with
  | .fin s m e => if m = 0 then flZero else rnd32 (.fin s m e)
  | x => x

/-- `fp_reduce` of R169: groups of 32 in ascending order; `fuel` is at least the number of groups. -/
def fpReduceGo : Nat → Fl → List Fl → Fl
  | 0, acc, _ => acc
  | fuel + 1, acc, l =>
    if l.isEmpty then acc else fpReduceGo fuel (fadd acc (groupSum (l.take 32))) (l.drop 32)

def fpReduce (init : Fl) (prod : List Fl) : Fl := fpReduceGo (prod.length / 32 + 1) init prod

end Sys2Proof.Machine
end

