-- ==== Sys2Proof/Machine/Types.lean ====
section
/-! DEFINITION. The plain data that commands carry: what a host, the network, a pin, a codec or a fault brings to
the device from outside. -/

set_option Elab.async false

namespace Sys2Proof.Machine

/-- Who reads a register: a function of a host port (port 0 HPA, 1 HPB; function 0 to 3), or the SMBus port MP (R437). -/
inductive Acc where
  | host (port fn : Nat)
  | mp
  deriving DecidableEq, Repr, Inhabited

/-- How a read of host memory that the device issued fails (R38, R380): Unsupported Request or Completer Abort, poisoned
data, or a completion timeout. -/
inductive ReadFail where
  | refused
  | poisoned
  | timedOut
  deriving DecidableEq, Repr, Inhabited

/-- Result of one read of host memory that the device issued: the bytes, or one of the failures of cause 0x22 (R38). -/
inductive HostRead where
  | data (b : Bytes)
  | failed (why : ReadFail)
  deriving DecidableEq, Repr, Inhabited

/-- Outcome of reading one protected word or burst (R164, R240, R337). -/
inductive Ecc where
  | clean
  | corrected
  | uncorrectable
  deriving DecidableEq, Repr, Inhabited

/-- The header fields of a coded picture that R134 to R142 use. The coded syntax itself is that of the codec's own
standard, which the manual does not restate, so the parser's reading of it comes with the command. -/
structure PicHdr where
  /-- a sequence header precedes or comes with the picture -/
  hasSeq : Bool
  /-- profile, numbered in the order in which R134 lists the profiles of the codec, from 1; 0 for any other -/
  profile : Nat
  /-- ten times the level (MPEG-2: 4 for High level and below, 5 above) -/
  level : Nat
  /-- high tier -/
  highTier : Bool
  /-- chroma: 0 monochrome, 1 4:2:0, 2 4:2:2, 3 4:4:4 -/
  chroma : Nat
  bitDepth : Nat
  cropW : Nat
  cropH : Nat
  codedW : Nat
  codedH : Nat
  /-- the access unit is a random access point of R138 -/
  rap : Bool
  /-- a leading picture of the last IRAP picture of HEVC or VVC (R138) -/
  leading : Bool
  /-- the sequence uses an extension, a tool or more than one operating point, which R134 lists as not supported -/
  extension : Bool
  /-- bytes of its parse-ahead index entry (R142) -/
  indexBytes : Nat
  deriving DecidableEq, Repr, Inhabited

/-- A decoded picture's samples, cropped: what an engine reconstructs from the access unit under its codec's standard. -/
structure PicData where
  w : Nat
  h : Nat
  codedW : Nat
  codedH : Nat
  bitDepth : Nat
  mono : Bool
  /-- limited range (R148) -/
  limited : Bool
  /-- source matrix: 0 unspecified, 1 BT.601, 2 BT.709, 3 BT.2020 non-constant luminance (R148) -/
  matrix : Nat
  /-- chroma sample location type, 0 to 5 (R147) -/
  chromaLoc : Nat
  /-- PQ or HLG transfer (R148) -/
  hdr : Bool
  /-- luma samples in raster order -/
  y : List Nat
  cb : List Nat
  cr : List Nat
  deriving DecidableEq, Repr, Inhabited

/-- What reconstruction of one picture ended with (R146, R150). -/
structure PicOut where
  /-- the frame; or, where `second` is there or the field is unpaired, the field that holds its first rows -/
  data : PicData
  /-- the other field of the frame, which is woven with the first (R134) -/
  second : Option PicData
  /-- coding blocks in the picture -/
  blocks : Nat
  /-- coding blocks concealed as damaged or unparseable -/
  damaged : Nat
  /-- coding blocks concealed as not decoded when the picture was abandoned -/
  abandoned : Nat
  /-- coding blocks whose inter prediction reads the concealment source for an absent reference -/
  absentRef : Nat
  /-- a field without its pair (R134) -/
  unpaired : Bool
  /-- rectangles of luma samples that the blocks not decoded cover: x, y, width, height (R146) -/
  fill : List (Nat × Nat × Nat × Nat)
  /-- access-unit numbers of earlier pictures in the codec's output order, latest first (R146) -/
  earlier : List Nat
  /-- access-unit numbers that the codec's output order releases now, in order (R150) -/
  release : List Nat
  /-- access-unit numbers that are no longer references -/
  unref : List Nat
  deriving DecidableEq, Repr, Inhabited

/-- One detection row of the detector's output, FP32 codes (R100). -/
structure DetRow where
  x0 : Nat
  y0 : Nat
  x1 : Nat
  y1 : Nat
  score : Nat
  cls : Nat
  deriving DecidableEq, Repr, Inhabited

/-- A range of device-internal addresses. -/
structure Range where
  addr : Nat
  len : Nat
  deriving DecidableEq, Repr, Inhabited

/-- A wait for a count of a semaphore: block, semaphore number, count (R172). -/
structure SemRef where
  block : Nat
  sem : Nat
  n : Nat
  deriving DecidableEq, Repr, Inhabited

/-- A command that a mapper core writes into a cell queue (R161, R225, R312). -/
structure CellCmd where
  /-- issue unit: 0 array, 1 vector, 2 mover -/
  unit : Nat
  /-- execution context the command belongs to -/
  ctx : Nat
  /-- work-list entry that it works on (R221) -/
  entry : Nat
  /-- layer record of the context's graph -/
  layer : Nat
  /-- picture of the batch, 0 to 7 -/
  picture : Nat
  /-- first output channel and count of the tile -/
  ch : Nat
  chN : Nat
  /-- first output row of the tile, and count of its rows in the row group -/
  row : Nat
  rowN : Nat
  /-- first output column and count -/
  col : Nat
  colN : Nat
  /-- region cycles of issue, at most 384 (R312) -/
  cycles : Nat
  /-- formats of its operand pair (R98, R162) -/
  pair : Nat × Nat
  reads : List Range
  writes : List Range
  /-- a DFT, pointwise or kernel-spectrum pass of a frequency-domain CONV (R162, R359) -/
  dft : Bool
  /-- last command of its tile: its completion commits the tile (R188) -/
  last : Bool
  deriving DecidableEq, Repr, Inhabited

/-- A DRAM request (R327 to R332). -/
structure DramReq where
  /-- NoC router that injects it, row by row: 0 to 3 are N0 to N3, 4 to 11 RG0 to RG7, 12 to 15 S0 to S3 (R16) -/
  router : Nat
  addr : Nat
  salt : Nat
  write : Bool
  /-- bytes written, one per bit of `mask`; at most 32 from the burst's start -/
  data : Bytes
  /-- byte mask of a write: the offsets within the burst that are written -/
  mask : List Nat
  /-- latency-critical virtual channel -/
  lc : Bool
  /-- partition charged, 0 to 7, or 8 for the device's own requesters -/
  part : Nat
  /-- execution context whose job makes the request, if one does: its class and its partition are the request's -/
  ctx : Option Nat
  /-- Chrysalis traffic, which always travels in profile (R307) -/
  inProfile : Bool
  deriving DecidableEq, Repr, Inhabited

/-- An event of the Telemetry Unit, without its times (R406). -/
structure EvSpec where
  /-- unit number u (R405) -/
  unit : Nat
  /-- event number, kind[7:0] -/
  num : Nat
  /-- class: 1 alarm, 2 log, 3 trace -/
  cls : Nat
  /-- partition 0 to 7, or 0xFF for device-wide -/
  part : Nat
  slot : Nat
  arg : Nat
  deriving DecidableEq, Repr, Inhabited

/-- Access to a context record (R240). -/
inductive RecAccess where
  | read
  | write (gen : Nat) (data : Bytes)
  deriving DecidableEq, Repr, Inhabited

/-- What holds poisoned data that a requester received (R398). -/
inductive PoisonKind where
  | activation (cell : Nat)
  | weights (cell : Nat) (graph : Nat)
  | reference (slot : Nat)
  | ingress (slot : Nat)
  | context (index : Nat)
  | staging (slot : Nat)
  | descriptor (pool firstBuf : Nat)
  deriving DecidableEq, Repr, Inhabited

/-- What a BPM request came from: a partition 0 to 7, or 8 for the device's own requesters (R341). -/
abbrev Requester := Nat

/-- One region rail and other-rail measurement of R361, in 1/16 W. -/
structure RailSample where
  regions : List Nat
  other : Nat
  deriving DecidableEq, Repr, Inhabited

end Sys2Proof.Machine
end

