-- ==== Sys2Proof/Syntax.lean ====
section
/-! DEFINITION. The commands of the JX5120: one constructor for each row of the spec's table of operations and
events. Operands carry what comes from outside the device: registers written, frames received, host memory read,
measurements, and the moment at which a timer runs out or a unit finishes. Ports: 0 HPA, 1 HPB. Network ports:
0 NP0, 1 NP1. -/

set_option Elab.async false

namespace Sys2Proof

open Machine

inductive Instr where
  -- registers
  | misalignedAccess (acc : Acc) (bar off size : Nat) (write : Bool)
  | registerWrite (port fn bar off : Nat) (value : Word)
  | counterLowRead (acc : Acc) (bar off : Nat)
  | stoppedWindowAccess (port fn region off : Nat) (write : Bool)
  -- start-up
  | porAssert
  | porDeassert (hpSplit : Bool) (smbAddr : Nat)
  | phaseFuseEnd
  | phaseDramEnd (stack0 stack1 : Bool)
  | phaseFlashEnd
  | phaseVerifyEnd
  | phaseCheckEnd
  | phaseLoadEnd
  | phaseSelftestEnd (cells lineStores regionStores : List Nat)
  | phasePortsEnd
  | phaseTimeout
  | configRequest (port fn reg : Nat) (write : Option Word)
  | barMemoryRead (port fn bar off : Nat)
  -- tunables
  | tuneWrite (port fn : Nat) (andRead : Bool)
  | tuneRead (port fn : Nat)
  | tuneComplete (port fn : Nat)
  -- Moult
  | moultGo (andAbort : Bool)
  | moultAbort
  | moultFetchEnd (r : HostRead)
  | moultVerifyEnd
  | moultCheckEnd
  | moultStageEnd
  | moultSwitchTimeout (slot : Nat)
  -- flash
  | flashProgram
  | flashSelect
  | flashEraseDone
  | flashHostReadDone (r : HostRead)
  | flashPageProgramDone (statusError : Bool)
  | flashReadbackDone
  | flashOpTimeout
  | xspiDqsTimeout
  -- network ingest
  | ethLinkUp (np : Nat)
  | ethLinkDown (np : Nat)
  | frameReceive (np : Nat) (frame : Bytes)
  | queryResponseTimer (np : Nat)
  | unsolicitedReportTimer (np slot : Nat)
  | controlRateWindow (np : Nat)
  | nextHopTimeout (np hop : Nat)
  | bucketRefill
  | sourceLockTimeout (slot : Nat)
  | rtpGapTimeout (slot : Nat)
  | rtpJumpTimeout (slot : Nat)
  | pmtWaitTimeout (slot : Nat)
  -- host injection
  | injEnable (port fn : Nat)
  | injEnableDone (port fn : Nat)
  | injDisable (port fn : Nat)
  | injPoll (port fn : Nat)
  | injTrailerTimeout (port fn : Nat)
  | injHeaderTimeout (port fn : Nat)
  | injConsumerWrite (port fn : Nat)
  | alignmentTimeout (slot au : Nat)
  -- decode
  | parseAhead (slot : Nat) (hdr : PicHdr)
  | decodeSwitch (engine cycles bands : Nat) (damage : Bool)
  | blockCycleLimit (engine cycles : Nat)
  | pictureBudgetExceeded (engine cycles : Nat) (atSlice : Bool)
  | pictureDecoded (engine cycles : Nat) (out : PicOut)
  | resamplePicture (rs : Nat)
  | resampleDone (rs : Nat)
  | batchTimeout (batch : Nat)
  -- scheduling and the mapper
  | batchAdmit (part : Nat)
  | invocationRunnable (batch model : Nat)
  | invocationResident (region batch model : Nat)
  | stripeClaim (ctx block : Nat)
  | semaphoreSignal (block sem n : Nat)
  | semaphoreWait (block sem cell t : Nat)
  | semaphoreReset (block sem : Nat)
  | waitRetry (block sem cell t : Nat)
  | commandWrite (cell : Nat) (cmd : CellCmd)
  | commandIssue (cell unit : Nat)
  | commandComplete (cell unit : Nat)
  | cellEccError (cell : Nat) (ecc : Ecc)
  | residueMismatch (cell : Nat)
  | cellSelftestReturn (cell : Nat) (pass : Bool)
  | mapperWatchdog (block : Nat)
  | blockRestart (block : Nat)
  | regionFault (region cause : Nat)
  | weightPrefetch (ctx layer : Nat)
  | spillWaveStart (ctx picture : Nat)
  -- contexts
  | contextRecordAccess (index : Nat) (acc : RecAccess) (ecc : Ecc)
  | trackPicture (slot : Nat)
  | chrysalisCapture (ctx : Nat)
  | chrysalisRestore (ctx block : Nat) (bodyOk : Bool)
  | eviction (block : Nat)
  | residencyWaitTimeout (block : Nat)
  -- adaptation
  | adapterStepStart (slot : Nat)
  | adapterStepCommit (slot : Nat)
  -- search and TDS
  | searchStart (slot : Nat)
  | searchCommit (slot : Nat)
  | codebookUpdate (slot : Nat)
  | recordEncode (slot : Nat)
  | recordEmit (slot : Nat)
  -- rings and interrupts
  | ringConsumerRead (port fn ring : Nat) (r : HostRead)
  | ringHoldTimeout (port fn ring : Nat)
  | ringIrqDelay (port fn ring : Nat)
  | ringBind (port fn : Nat)
  | ringUnbind (port fn : Nat)
  | irqStatusClear (port fn : Nat) (value sets : Word)
  | intaChange (port : Nat)
  | regulatorUpdate
  | counterPush (region : Nat)
  -- DRAM and BPM
  | dramRequest (req : DramReq) (ecc : Ecc)
  | poisonedDataReceive (kind : PoisonKind)
  | refreshDue (pc bank : Nat)
  | bankIdleTimeout (pc bank : Nat)
  | patrolRead (pc : Nat) (ecc : Ecc)
  | imbalanceWindow
  | bpmAllocate (who : Requester) (pool : Nat)
  | bpmFree (who : Requester) (addr : Nat)
  | bpmShare (who : Requester) (addr owners : Nat)
  | bpmZeroIdle (pool : Nat)
  -- power
  | tokenGrant
  | powerSample (r : RailSample)
  | vfChoice
  | vfTransitionEnd (region : Nat)
  | pgoodTimeout (region : Nat)
  | pgoodLow (region : Nat)
  | regionPark (region : Nat)
  | regionWake (region : Nat)
  | wakeComplete (region : Nat)
  | parkHoldWrite (port : Nat) (value : Word)
  | pwrbrkAssert
  | pwrbrkRelease
  | thermInAssert
  | thermInRelease
  | tempSensorRead (region : Nat) (tj : Int) (uncore : Int)
  | chatterWindow (transitions : List Nat)
  | inputStuck (input : Nat)
  | inputStuckRelease (input : Nat)
  -- resets and PCIe power
  | flr (port fn : Nat)
  | flrComplete (port fn : Nat)
  | hotReset (port : Nat)
  | dlDown (port : Nat)
  | perstAssert (port : Nat)
  | perstDeassert (port : Nat)
  | pcieLinkUp (port rate width : Nat)
  | dStateChange (port fn dstate : Nat)
  | pmeTurnOff (port : Nat)
  | pmeSignal (port fn : Nat)
  | pmeRepeat (port fn : Nat)
  -- faults and telemetry
  | unitFault (unit index : Nat)
  | controllerRestart (unit : Nat)
  | controllerResume (unit : Nat)
  | eventStage (ev : EvSpec)
  | traceExponentTick (path : Nat)
  | telemetryPacketSend
  | summaryTimer
  | mpIdentify
  | mpSetPointer (value : Nat) (pecOk : Bool)
  | mpReadRegisters
  | mpReadEvents
  | mpRemoveEvents (m : Nat) (pecOk : Bool)
  | mpAlertResponse
  | smbusClockTimeout
  -- keys and attestation
  | keyGo
  | keyBurnDone (readBackOk : Bool)
  | attGo (port fn : Nat)
  | attSignStart
  | attSignDone
  | barMemoryWrite (port fn off : Nat) (data : Bytes) (poisoned : Bool)
  | arrayCreditRefill (region : Nat) (issuing : List Nat)
  | keyReadDone (r : HostRead)
  | regionStoreEccError (region addr : Nat)
  | nocLinkCrcError (router : Nat)
  | blockRestartDone (block : Nat)
  | unitRestartDone (unit : Nat)
  deriving DecidableEq, Repr

end Sys2Proof
end

