-- ==== Sys2Proof/Config.lean ====
section
/-! DEFINITION. What an implementation fixes and what the manual leaves open: the values no rule states, as constants
without a body. Nothing can be proved about a value of any of them. -/

set_option Elab.async false

namespace Sys2Proof.Config

/-- Random and other values that the manual leaves open, drawn in order (log 5). -/
opaque freeValue : Nat → BitVec 64

/-- Number of the logs of a unit: the manual gives none but that it lies below 0x80 (R406, log 9). -/
opaque logNumber : Nat → BitVec 7

/-- Salt of an interleave group as the BPM builds the pools, before any raise of the epoch: not given (R328, log 6). -/
opaque initialSalt : Nat → BitVec 16

/-- Keys whose order says which elements of the second input of ELTWISE op 9 hold the scale and the shift of each channel:
channels, element. The manual gives no layout for it (R96, log 11). -/
opaque scaleKey : Nat → Nat → BitVec 64

/-- Keys whose order says which sample each output channel of a SLICE fold takes: channels, block, sample. The manual
gives no channel order (R96, log 11). -/
opaque foldKey : Nat → Nat → Nat → BitVec 64

/-- Code at a folded position beyond the picture, by format: not given (R96, log 11). -/
opaque foldPad : Nat → BitVec 32

/-- Sample of a concealed block where the concealment source has another size or bit depth and so no co-located sample:
plane, column, row (R146, log 14). -/
opaque concealSample : Nat → Nat → Nat → BitVec 10

/-- Real value that a model reads where the previous working picture does not exist: the first picture of a slot, or one
whose predecessor was discarded: element index (R100, log 16). -/
opaque absentPicture : Nat → BitVec 32

/-- Detector output that the temporal model reads where the stream has no detector, but for its score column: element
index (R100, log 16). -/
opaque noDetector : Nat → BitVec 32

/-- Token feature that the search reads where its fourth input has more elements than the temporal model's output: element
index (R100, log 16). -/
opaque absentToken : Nat → BitVec 32

/-- What a field of a ledger entry holds before the stage from which it is valid: slot, access unit, writes of the entry,
offset of the field (R402, log 8). -/
opaque ledgerField : Nat → Nat → Nat → Nat → BitVec 32

/-- The code of the state of a claimed entry in the Claim section of a Chrysalis body (R251, log 17). -/
opaque claimState : BitVec 32

/-- Bytes of the NoC packet that carries a halo or hand-off signal: not given (R307, log 23). -/
opaque signalBytes : BitVec 8

/-- The bounds lo and hi that a Chrysalis body holds for a channel without a finite element: twice the channel, and one
more (R187, R251, log 17). -/
opaque absentBound : Nat → BitVec 32

/-- The 32 bytes that randomize the signature of a report: the manual does not say whether signing is randomized, by
the report's body (R425, log 7). -/
opaque signRandom : Bytes → BitVec 256

/-- TTL or hop limit of a telemetry packet: not given (R410, log 13). -/
opaque telemetryHop : BitVec 8

/-- Configuration-space registers whose contents the manual does not give (the Vendor ID, subsystem and capability fields
among them): port, function, offset (R371, log 21). -/
opaque configSpace : Nat → Nat → Nat → BitVec 32

end Sys2Proof.Config
end

