-- ==== Sys2Proof/Machine/State.lean ====
section
/-! DEFINITION. The state of the JX5120: every register, queue, counter, mode and pin the spec gives it, as plain
data. Every substructure's `default` is its reset value unless `State.reset` says otherwise; a `default` of a number is
0, of a flag is false, of a list is empty and of an optional value is absent. -/

set_option Elab.async false

namespace Sys2Proof.Machine

/-- Why the machine stops. No command of the manual stops the device: R57 promises that it does not. -/
inductive Fault where
  /-- No command stops the device (R57), so no meaning raises this: it only gives the type a member. Safe. -/
  | unreachable
  deriving DecidableEq, Repr

/-- Why a command has no meaning. -/
inductive Refusal where
  /-- Raised by an arm of `exec` whose command has no meaning yet; the string is the row's mnemonic. Safe. -/
  | notModelled (mnemonic : String)
  deriving DecidableEq, Repr

/-- What the device sends out. There is no form for a decoded, scaled, enhanced or reconstructed pixel (R1). -/
inductive Out where
  /-- completion of a read with data -/
  | readData (acc : Acc) (bar off : Nat) (data : Word)
  /-- completion of a BAR2 read with bytes -/
  | readBytes (port fn off : Nat) (data : Bytes)
  /-- completion of a write (configuration writes only; a memory write is posted) -/
  | writeDone (port fn : Nat)
  /-- Unsupported Request completion (R384, R388) -/
  | unsupported (port fn : Nat)
  /-- Request Retry Status completion (R26, R388) -/
  | retry (port fn : Nat)
  /-- completion of a configuration read -/
  | configData (port fn reg : Nat) (data : Word)
  /-- Memory Write to host memory with the function's Requester ID (R391) -/
  | hostWrite (port fn addr : Nat) (data : Bytes)
  /-- Memory Read request to host memory (R391) -/
  | hostRead (port fn addr len : Nat)
  /-- UDP datagram sent on a network port: a TDS packet (R299) or a telemetry packet (R410); the Don't Fragment flag is
  IPv4's, the flow label IPv6's -/
  | udp (np dst srcPort dstPort hop dscp ipId : Nat) (df : Bool) (ecn flow : Nat) (payload : Bytes)
  /-- ARP reply or Neighbor Advertisement for the port's address to `dst` (R114) -/
  | neighborReply (np dst : Nat)
  /-- echo reply to `dst` (R114) -/
  | echoReply (np dst : Nat) (payload : Bytes)
  /-- ARP request or Neighbor Solicitation for a next hop (R114) -/
  | neighborRequest (np hop : Nat)
  /-- IGMP or MLD report: group, source mode include, sources, version (R115) -/
  | membership (np group : Nat) (incl : Bool) (sources : List Nat) (version : Nat) (stateChange : Bool)
  /-- IGMPv3 or MLDv2 state-change report that blocks sources of a group still joined (R115) -/
  | membershipBlock (np group : Nat) (sources : List Nat)
  /-- Assert_INTA or Deassert_INTA (R375) -/
  | inta (port : Nat) (assert : Bool)
  /-- PM_PME message (R386) -/
  | pmPme (port fn : Nat)
  /-- PME_TO_Ack message (R384) -/
  | pmeToAck (port : Nat)
  /-- SMBus block returned by MP (R414) -/
  | smbBlock (data : Bytes)
  /-- SMBus acknowledge or NACK of a command (R414, R415) -/
  | smbAck (ok : Bool)
  /-- MP's answer to the Alert Response Address (R413) -/
  | smbAlertAddress (addr : Nat)
  deriving DecidableEq, Repr

/-! ### Configuration -/

/-- The sections of a configuration, as carried: the running one, or the one a Moult would give (R61, R83). -/
structure Sections where
  streams : List Bytes
  groups : List Bytes
  partitions : List Bytes
  pools : List Bytes
  network : List Bytes
  pac : Bytes
  telemetry : Bytes
  tunables : List Bytes
  graphs : Map Bytes
  codebooks : Map Bytes
  /-- how often a GRAPH or CODEBOOK section has been put in place: type × 65,536 + instance (R49, R84) -/
  vers : Map Nat
  /-- DRAM address of each graph's placement, by its number (R326) -/
  placed : Map Nat
  deriving DecidableEq, Repr, Inhabited

/-- One owner-key slot of the fuses: 64-byte hash and two 8-bit markers (R417). -/
structure FuseSlot where
  hash : Bytes
  programmed : Nat
  revoked : Nat
  deriving DecidableEq, Repr, Inhabited

/-- A tunable command in progress: what is left to do (1 write, 2 read, 3 write then read, 0 nothing), parameter, value,
and its result (R45). -/
structure TuneCmd where
  kind : Nat
  param : Nat
  value : Word
  result : Nat
  deriving DecidableEq, Repr, Inhabited

/-- Start-up and configuration state of the SCU (R25 to R41). -/
structure Scu where
  /-- AON_BOOT_STATUS fields (R40) -/
  phase : Nat
  cause : Nat
  bank : Nat
  keySlot : Nat
  stack0 : Bool
  stack1 : Bool
  cellsFencedAtBoot : Nat
  /-- AON_BOOT_TIME.time (R41) -/
  bootTime : Nat
  /-- the copy of the active bank's container in the staging area, with its digest (R32) -/
  staging : Option Bytes
  stagingDigest : Bytes
  /-- running configuration kept in the SCU's own storage (R37); none before LOAD and in Held -/
  cfg : Option Sections
  /-- M0, Mk and k of R35 (mCur is Mk) -/
  m0 : Bytes
  mCur : Bytes
  moultSeq : Nat
  /-- a controller self-restart is in progress (R399) -/
  restarting : Bool
  deriving DecidableEq, Repr, Inhabited

/-- Moult state (R47 to R52). -/
structure Moult where
  /-- MOULT_STATUS.state and .cause -/
  state : Nat
  cause : Nat
  /-- the container as read, and the configuration that would result -/
  container : Bytes
  /-- state of the slot it names, read at the start of VERIFY (R421) -/
  keyState : Nat
  next : Option Sections
  /-- commit instant, AON_TIME -/
  commitAt : Nat
  /-- affected streams that have not switched (R48) -/
  waiting : List Nat
  /-- runs that CHECK placed for the slots to be added: slot and first record (R238), and slots still to be added -/
  plan : Map Nat
  /-- buffers that STAGE reserved for the slots to be added: slot; partition × 16 + pool and count of each (R47) -/
  resv : Map (List (Nat × Nat))
  adds : List Nat
  /-- earlier configurations that frames, batches or streams still run under, by Moult sequence number (R48) -/
  olds : Map Sections
  deriving DecidableEq, Repr, Inhabited

/-- Flash programming (R54, R56, R453). -/
structure Flash where
  state : Nat
  cause : Nat
  progress : Nat
  /-- bank that the operation programs or selects -/
  target : Nat
  /-- the image read from host memory; absent until it has been read -/
  image : Option Bytes
  /-- bytes programmed so far -/
  done : Nat
  /-- the two banks, 64 MiB each: bytes that differ from the erased value -/
  cells : List Host.Cell
  deriving DecidableEq, Repr, Inhabited

/-- Key command (R418 to R422). -/
structure Key where
  state : Nat
  result : Nat
  /-- the command being burnt, saved in ECC-protected state (R420): target slot, op, new hash -/
  target : Nat
  op : Nat
  newHash : Bytes
  deriving DecidableEq, Repr, Inhabited

/-- One function's attestation request (R424, R427). -/
structure Att where
  state : Nat
  cause : Nat
  deriving DecidableEq, Repr, Inhabited

/-- The shared signer: queue of functions (port × 4 + function), oldest first, and the body captured for the one in
signing (R424). -/
structure Signer where
  queue : List Nat
  signing : Option Nat
  body : Bytes
  deriving DecidableEq, Repr, Inhabited

/-! ### Host ports -/

/-- A unit held in DX staging for a ring (R380). -/
structure HeldUnit where
  data : Bytes
  since : Nat
  /-- frame whose stage 0x9 waits for it (R403), if it is a frame record -/
  frame : Option Nat
  deriving DecidableEq, Repr, Inhabited

/-- One record ring of a function (R377 to R383). -/
structure Ring where
  baseLo : Word
  baseHi : Word
  consLo : Word
  consHi : Word
  cfg : Word
  /-- values in effect since bind: base, consumer address, size_log2, irq_count, irq_delay, events -/
  base : Nat
  cons : Nat
  log2 : Nat
  irqCount : Nat
  irqDelay : Nat
  events : Bool
  bound : Bool
  error : Bool
  cause : Nat
  gen : Nat
  /-- r, records written since bind -/
  prod : Nat
  /-- records consumed as last read -/
  consumed : Nat
  /-- interval before the next consumer read, in µs; 0 when none is due -/
  backoff : Nat
  drops : Nat
  /-- units and bytes dropped since the last record written (R380) -/
  lostUnits : Nat
  lostBytes : Nat
  held : List HeldUnit
  /-- records written since the interrupt bit was last set, and when the first was (R381) -/
  irqRecords : Nat
  irqFirst : Nat
  deriving DecidableEq, Repr, Inhabited

/-- Host injection of one function (R125 to R129). -/
structure Inj where
  enabled : Bool
  desync : Bool
  noBacking : Bool
  /-- zeroing in progress (R129) -/
  zeroing : Bool
  rdOffset : Nat
  seq : Nat
  torn : Nat
  gen : Nat
  log2 : Nat
  cons : Nat
  /-- bytes of the ring that differ from zero -/
  bytes : List Host.Cell
  /-- buffers that back the ring: BPM addresses -/
  backing : List Nat
  /-- bytes consumed since the consumer record was last written (R128), and whether a write is due -/
  sinceWrite : Nat
  writeDue : Bool
  /-- a valid header has been seen whose trailer is not yet valid, at this time (R127) -/
  trailerSince : Option Nat
  /-- a header with the expected seq and magic whose CRC fails, seen at this time (R127) -/
  headerSince : Option Nat
  /-- polling every 20 µs (R127) -/
  slowPoll : Bool
  lastNew : Nat
  deriving DecidableEq, Repr, Inhabited

/-- One physical function of a host port. -/
structure Fn where
  /-- Command register bits and power state (R371 to R386) -/
  memEnable : Bool
  bme : Bool
  intDisable : Bool
  dstate : Nat
  pmeEn : Bool
  pmeStatus : Bool
  /-- configuration registers written by configuration requests, by register offset (R26, R373) -/
  config : Map Word
  /-- a reset of the function is in progress (R388) -/
  resetting : Bool
  /-- FN_IRQ_STATUS and FN_IRQ_MASK (R376) -/
  irqStatus : Word
  irqMask : Word
  /-- plain RW registers of BAR0, by offset (R432) -/
  regs : Map Word
  /-- holding registers of R10, by BAR and offset of the high word: bar × 2^24 + offset -/
  hold : Map Word
  rings : Map Ring
  inj : Inj
  /-- TUNE_STATUS (R44) -/
  tuneResult : Nat
  tuneCmd : Option TuneCmd
  att : Att
  /-- plain RW selectors of BAR4 kept for PF0 of the port (R437), by offset -/
  regs4 : Map Word
  deriving DecidableEq, Repr, Inhabited

/-- One host port (R370, R384, R440). -/
structure HostPort where
  /-- filtered PERSTx_N active -/
  perst : Bool
  /-- link: 0 down, 1 L0, 2 L1, 3 L2/L3 Ready -/
  link : Nat
  rate : Nat
  width : Nat
  /-- link training may start (R26) -/
  training : Bool
  /-- INTA virtual wire as last sent (R375) -/
  inta : Bool
  /-- WAKE_x_N driven (R386) -/
  wake : Bool
  /-- hold bits of the port's copy of AON_PARK_HOLD (R437) -/
  hold : Nat
  /-- a reset of the whole port is in progress (R389) -/
  resetting : Bool
  /-- counters of R440 -/
  ctr : Map Nat
  deriving DecidableEq, Repr, Inhabited

/-! ### Ingest -/

/-- An RTP packet held by the Stream Parser (R122). -/
structure RtpPkt where
  ext : Int
  ts : Nat
  marker : Bool
  payload : Bytes
  /-- the whole UDP payload, which is what the ingress buffers take (R119) -/
  raw : Bytes
  deriving DecidableEq, Repr, Inhabited

/-- The access unit a stream is gathering (R119, R123). -/
structure OpenAu where
  data : Bytes
  damaged : Bool
  /-- larger than burst_bytes: its data is discarded (R119) -/
  oversize : Bool
  /-- source timestamp and whether known -/
  ts : Nat
  /-- reference time, absent while unmapped (R130) -/
  ref : Option Nat
  /-- extended RTP timestamp of its packets -/
  rtp : Option Int
  /-- timeline segment in which it opened -/
  seg : Nat
  /-- 4 KiB buffers taken, BPM addresses -/
  bufs : List Nat
  /-- start of the PES packet while its header is still incomplete (R123) -/
  pes : Option Bytes
  deriving DecidableEq, Repr, Inhabited

/-- Transport-stream state of a stream (R123, R124). -/
structure TsState where
  pmtPid : Option Nat
  /-- program that the PMT PID carries -/
  program : Nat
  videoPid : Option Nat
  pcrPid : Option Nat
  streamType : Nat
  cc : Option Nat
  /-- section bytes being gathered, by PID -/
  sect : Map Bytes
  /-- last PCR, extended, with the AON_TIME of its arrival -/
  pcr : Option Int
  pcrAt : Nat
  /-- the previous PTS, extended, and the difference of the previous two -/
  pts : Option Int
  /-- the PTS from which the next is extended, across timeline restarts (R130) -/
  ptsBase : Option Int
  ptsStep : Int
  /-- one log of missing PAT or PMT has been made since the wait began -/
  pmtLogged : Bool
  /-- when the last scrambled-packet log was made, plus 1 -/
  scrambleLog : Nat
  deriving DecidableEq, Repr, Inhabited

/-- Ingest state of one stream slot. -/
structure Ingest where
  locked : Bool
  lockAddr : Nat
  lockPort : Nat
  ssrc : Option Nat
  silent : Bool
  /-- the lock has been released and the next accepted source restarts the timeline (R117) -/
  relock : Bool
  segment : Nat
  tokens : Nat
  lastAccept : Nat
  /-- next expected RTP sequence number, extended (R122) -/
  rtpNext : Option Int
  rtpHeld : List RtpPkt
  /-- highest extended sequence number seen -/
  rtpHigh : Int
  jumper : Option RtpPkt
  /-- extended RTP timestamp last seen -/
  rtpTs : Option Int
  /-- a fragmented unit is in progress (R122) -/
  inFrag : Bool
  /-- Sender Report pair: extended RTP timestamp and NTP time (R130), and the pair whose mapping a later report has moved,
  after the RTP timestamp below which it still maps (R124) -/
  sr : Option (Int × Nat)
  srOld : Option (Int × Int × Nat)
  /-- extended RTP timestamp from which a moved mapping restarts the timeline (R124) -/
  srMoved : Option Int
  /-- transport 2: the most recent map(rtp) − PCR offset (R130) -/
  offset : Option Nat
  ts : TsState
  au : Option OpenAu
  /-- the next access unit to open is damaged (R122) -/
  nextDamaged : Bool
  /-- greatest reference time of an access unit closed in the present timeline (R132) -/
  topRef : Option Nat
  /-- unsolicited second report pending (R115) -/
  report2 : Bool
  /-- the datagram in hand has been refused a buffer (R119) -/
  noBuffer : Bool
  ctr : Map Nat
  deriving DecidableEq, Repr, Inhabited

/-! ### Decode, records and search of one stream -/

/-- The picture in reconstruction on a stream (R141, R144, R145): its frame, the decode cycles used, its budget, and
whether it has been abandoned. -/
structure CurPic where
  frame : Nat
  cycles : Nat
  budget : Nat
  abandoned : Bool
  /-- a reference burst read for it was poisoned (R398) -/
  poisoned : Bool
  deriving DecidableEq, Repr, Inhabited

/-- Decode state of one stream slot (R135 to R150). -/
structure Decode where
  engine : Option Nat
  /-- virtual time V (R137), and whether the stream was ready at the engine's last switch point -/
  vtime : Rat
  ready : Bool
  /-- closed access units awaiting decode, oldest first -/
  queue : List Nat
  /-- access units closed since one was discarded at the queue limit, not yet seen to be random access points (R138) -/
  limbo : List Nat
  /-- random access points that end a discard, by access unit, and its reason: 1 the queue limit, 2 a new timeline, 3 a
  fenced engine. Leading pictures after one are discarded too (R138) -/
  skipLeading : List (Nat × Nat)
  /-- discarding under R139: no random access point of the timeline yet -/
  waitingRap : Bool
  /-- the access unit discarded at the queue limit: later ones are discarded up to a random access point (R138) -/
  limitAu : Option Nat
  /-- the access unit refused last: later ones are discarded up to a sequence header that passes (R139) -/
  refusedAu : Option Nat
  /-- its engine was fenced: access units are discarded up to a random access point (R397) -/
  resumeRap : Bool
  /-- waiting for frame storage (R141) -/
  stalled : Bool
  /-- timeline segment plus 1 whose random access point has been begun, and of the picture last begun -/
  segParsed : Nat
  segBegun : Nat
  /-- running average A; 0 before the first picture of a timeline (R144) -/
  avg : Nat
  /-- frames indexed by parse-ahead, oldest first (R142) -/
  index : List Nat
  cur : Option CurPic
  /-- next picture number (R150) -/
  picNum : Nat
  /-- KiB charged against frame_quota (R140) -/
  charge : Nat
  /-- saved state kept in DRAM (R136): BPM address -/
  stateBuf : Option Nat
  /-- AON_TIME plus 1 of the last log of R136 or R139 -/
  lastLog : Nat
  /-- the one log of R148 and of R149 has been made -/
  hdrLogged : Bool
  cropLogged : Bool
  ctr : Map Nat
  deriving DecidableEq, Repr, Inhabited

/-- Symbols of one tile (R284, R298). -/
structure Tile where
  covered : Bool
  skip : Bool
  token : Nat
  gain : Nat
  eyespot : Nat
  /-- for each in-between frame: v0x, v0y, v1x, v1y, w -/
  mvs : List (List Int)
  /-- final D of the tile -/
  dist : Nat
  fusion : Bool
  deriving DecidableEq, Repr, Inhabited

/-- A codebook update that waits for its pictures to be searched (R289): step, last picture, apply_from. -/
structure CbPending where
  step : Nat
  last : Nat
  applyFrom : Nat
  /-- quantised proposals of the covered tiles of the last picture, in descending order of D; absent until that picture
  has been searched -/
  cands : Option (List Bytes)
  deriving DecidableEq, Repr, Inhabited

/-- The codebook that frames of an earlier configuration still use, after a Moult has brought the stream another (R48, R49,
R290). -/
structure CbOld where
  /-- configuration that brought the new codebook -/
  seq : Nat
  kern0 : List Bytes
  kern1 : List Bytes
  probs : List Nat
  /-- generation, its copy, the picture from which it applies, and whether it was formed by an update -/
  gen : Nat
  copy : Nat
  apply : Nat
  formed : Bool
  fullDue : Bool
  partialDue : List (Nat × Nat × List (Nat × Bytes))
  deriving DecidableEq, Repr, Inhabited

/-- Adapter steps of a stream (R271): usable pictures gathered and not yet trained on, of which the first
update_interval belong to the open step, and whether that step's job runs. -/
structure AdpStep where
  pictures : List Nat
  running : Bool
  deriving DecidableEq, Repr, Inhabited

/-- Figures of one channel, or of one tensor (R187). -/
structure Figures where
  count : Nat
  clipped : Nat
  nonfinite : Nat
  /-- least and greatest finite value, FP32 codes; absent when no finite element -/
  lo : Option Nat
  hi : Option Nat
  cmin : Int
  cmax : Int
  deriving DecidableEq, Repr, Inhabited

/-- One entry of a quantization table (R179, R181). -/
structure QEntry where
  zero : Int
  const : Bool
  scaleCode : Nat
  deriving DecidableEq, Repr, Inhabited

/-- A quantization table: FP16 tensor scale code and its entries (R179). -/
structure QTable where
  scale : Nat
  entries : List QEntry
  deriving DecidableEq, Repr, Inhabited

/-- One stream slot. -/
structure Stream where
  live : Bool
  /-- its function is being reset: it becomes live when the reset completes (R49, R388) -/
  pausedByReset : Bool
  ing : Ingest
  dec : Decode
  /-- Moult sequence number of the configuration the stream runs under (R48) -/
  cfgSeq : Nat
  /-- run of context records: first index, count, generation (R238) -/
  base : Nat
  count : Nat
  gen : Nat
  /-- key and value ring buffers (R242): BPM addresses -/
  kvRing : List Nat
  /-- derived tables, by graph × 65,536 + tensor (R192, R193) -/
  qtabs : Map QTable
  /-- the same for graphs that a Moult has replaced, while pictures of the earlier configuration last (R194) -/
  qtabsOld : Map QTable
  /-- figures of the picture in inference, by graph × 65,536 + tensor, one per channel (R187) -/
  figs : Map (List Figures)
  /-- kernel copies 0 and 1, probabilities and use counts (R288) -/
  kern0 : List Bytes
  kern1 : List Bytes
  probs : List Nat
  uses : Map Nat
  cbPending : List CbPending
  /-- an update has been formed, so that the copy that is not current holds the generation before (R289) -/
  cbFormed : Bool
  /-- a full codebook update is due before the next record (R290) -/
  fullDue : Bool
  /-- partial updates that wait to be sent: from and to generation, and unit entries (R290, R302) -/
  partialDue : List (Nat × Nat × List (Nat × Bytes))
  /-- codebooks before it that frames in flight still use, oldest first (R290) -/
  cbOld : List CbOld
  adp : Option AdpStep
  /-- simulated luma of the last picture searched, its width and height, and its picture number (R286) -/
  prevS : List Nat
  prevW : Nat
  prevH : Nat
  prevPic : Nat
  /-- pictures marked absent (R23) -/
  absent : List Nat
  /-- timeline segment, plus 1, that the key and value ring and the tracks belong to (R245) -/
  histSeg : Nat
  /-- partition-scope parameters as written for this stream; the planned value where absent (R82) -/
  tun : Map Int
  /-- adapter training in force, as of the last batch closed in its partition (R43) -/
  train : Bool
  /-- counters: QNT, SWO, CTX, ADP, TDS (R195, R211, R257, R277, R303) -/
  qnt : Map Nat
  swo : Map Nat
  ctxc : Map Nat
  adpc : Map Nat
  tds : Map Nat
  deriving DecidableEq, Repr, Inhabited

/-- One frame in flight (R21, R402): an access unit from its close to its end. -/
structure Frame where
  slot : Nat
  au : Nat
  picture : Option Nat
  cfgSeq : Nat
  segment : Nat
  /-- bytes of the access unit, and its ingress buffers -/
  data : Bytes
  bufs : List Nat
  damaged : Bool
  srcTs : Nat
  ref : Option Nat
  closedAt : Nat
  /-- in-between frames, decode-budget multiple and side-stream target in force at its close (R43) -/
  interp : Nat
  budgetMul : Nat
  rate : Nat
  /-- random access point, as its header says -/
  hdr : Option PicHdr
  pic : Option PicData
  /-- working picture: width, height, three planes of codes (R149) -/
  work : Option (Nat × Nat × List Nat)
  down : Option (Nat × Nat × List Nat)
  bands : List Nat
  /-- bands of the picture's simulated luma (R286), and the buffer of its working picture: BPM addresses -/
  sBands : List Nat
  workBuf : Option Nat
  isRef : Bool
  resampled : Bool
  /-- released to resampling and not yet taken -/
  released : Bool
  /-- alignment: decision made, and the frames chosen as references (R132) -/
  aligned : Bool
  refs : List (Nat × Nat)
  share : Nat
  concealCause : Nat
  batch : Option Nat
  dets : List DetRow
  trackEntries : Bytes
  tiles : List Tile
  tracked : Bool
  searched : Bool
  /-- its search has been allowed to start, and its wait has been counted (R286) -/
  searching : Bool
  searchHeld : Bool
  /-- it has no searched predecessor, so that M is 0 (R286); codebook generation and kernel copy it uses (R289) -/
  noPrev : Bool
  cbGen : Nat
  cbCopy : Nat
  /-- outputs of its models, FP32 codes by element, by model × 16 + output number (R100) -/
  outs : Map (List Nat)
  /-- quantised proposals of its covered tiles, in descending order of D, on a training stream (R289) -/
  props : List Bytes
  bestBits : Nat
  bound : Bool
  capped : Bool
  quantFlag : Bool
  unit : Option Bytes
  /-- ledger entry (R402) -/
  stage : Nat
  flags : Nat
  dcause : Nat
  models : Nat
  slices : Nat
  covered : Nat
  tileCount : Nat
  unitSeq : Nat
  writes : Nat
  /-- DX destinations still to be served before stage 0x9 (R403) -/
  emitWait : Bool
  deriving DecidableEq, Repr, Inhabited

/-- One network port (R110 to R116). -/
structure NetPort where
  link : Bool
  /-- control responses in the present 1 s window (R116) -/
  responses : Nat
  /-- queries that await a report: group, 0 for a general query, and the sources it names (R115) -/
  queries : List (Nat × List Nat)
  /-- AON_TIME until which a querier of an older version counts as present, for IPv4 and for IPv6 (R115) -/
  oldUntil4 : Nat
  oldUntil6 : Nat
  /-- resolved next hops with the AON_TIME at which each last answered, and packets waiting by next hop: TDS (slot plus 1)
  or telemetry (0) -/
  hops : Map Nat
  waiting : Map (List (Nat × Out))
  ipId : Nat
  ctr : Map Nat
  deriving DecidableEq, Repr, Inhabited

/-! ### Batches, contexts and the fabric -/

/-- A batch (R151, R308 to R310). -/
structure Batch where
  part : Nat
  /-- batch sequence number within the partition (R250) -/
  seq : Nat
  models : List Nat
  instar : Nat
  cfgSeq : Nat
  /-- frames, in batch order; none for a withdrawn one -/
  members : List (Option Nat)
  since : Nat
  closed : Bool
  closedAt : Nat
  /-- admitted region, and admission order -/
  region : Option Nat
  order : Nat
  /-- five invocations: 0 waiting, 1 runnable, 2 resident, 3 committed, 4 skipped (R310) -/
  inv : List Nat
  /-- its first invocation has started (R309) -/
  started : Bool
  /-- AON time at which an invocation last became runnable, by model (R318) -/
  runAt : Map Nat
  deriving DecidableEq, Repr, Inhabited

/-- A work-list entry's claim (R222, R229). -/
structure Claim where
  entry : Nat
  block : Nat
  sem : Nat
  /-- halo rows in place that have been signalled to the stripe above -/
  halo : Nat
  /-- the stripe has read its last halo row, and has released the stripe below (R222) -/
  freed : Bool
  /-- hand-off rows signalled as produced, and as released, by hand-off of the phase (R224) -/
  made : Map Nat
  taken : Map Nat
  /-- its stall for a halo area not yet released has been counted -/
  stalled : Bool
  done : Bool
  deriving DecidableEq, Repr, Inhabited

/-- One tile of a row group: its number, its rows in the row group, its columns and its channels (R212, R226). -/
structure GridTile where
  j : Nat
  row : Nat
  rowN : Nat
  col : Nat
  colN : Nat
  ch : Nat
  chN : Nat
  deriving DecidableEq, Repr, Inhabited

/-- A row group that a block has issued (R216, R225, R226). -/
structure RowGroup where
  layer : Nat
  row : Nat
  rows : Nat
  /-- unfenced cells for which its tiles were shaped -/
  cells : Nat
  /-- its tiles that have not committed -/
  tiles : List GridTile
  /-- recovery work (R228) -/
  recov : Bool
  /-- its tiles that have not committed are to be issued again (R230, R253) -/
  again : Bool
  deriving DecidableEq, Repr, Inhabited

/-- Where one block stands in a stripe: its sweeps over the layers of its group (R216). -/
structure Sweep where
  /-- place of the layer visited next among the layers of the block -/
  pos : Nat
  /-- row group being written into the cells, with the tiles still to be written, and commands written of the first -/
  open_ : Option RowGroup
  next : Nat
  /-- first row of each layer that no row group issued has covered; the stripe's first where absent -/
  rows : Map Nat
  /-- row groups issued of which tiles have not committed, oldest first -/
  out : List RowGroup
  /-- the stripe is replayed from its first row group (R230) -/
  redo : Bool
  deriving DecidableEq, Repr, Inhabited

/-- An execution context (R250, R304). -/
structure Ctx where
  /-- 1 inference batch, 2 adapter step, 3 self-test -/
  kind : Nat
  cls : Nat
  part : Nat
  batch : Nat
  model : Nat
  graph : Nat
  instar : Nat
  cfgSeq : Nat
  /-- stream of an adapter step -/
  slot : Nat
  region : Nat
  /-- blocks of its workers and the slot held in each, empty while swapped out (R172) -/
  slots : List (Nat × Nat)
  /-- the state exists only as a Chrysalis: execution record index, BPM address and length of the body (R250) -/
  chrysalis : Option (Nat × Nat × Nat)
  work : Nat
  claims : List Claim
  /-- blocks of its placement for which the work list was made (R218, R221) -/
  blocks : Nat
  /-- line-store bytes of an adapter step, its gradient windows among them (R273, R311) -/
  demand : Nat
  /-- sweeps by entry × 32 + block -/
  sweeps : Map Sweep
  /-- by picture × 4,096 + phase, the entry whose worker runs the layers outside stacks that end the phase (R221) -/
  tails : Map Nat
  duplicates : Nat
  noCheck : Bool
  /-- entries that were claimed before the context's region was lost: claiming them again counts as duplicates (R396) -/
  prior : Nat
  stripes : Nat
  phases : Nat
  /-- committed codes, by picture × 65,536 + tensor, then element (R188). Number 0xFFFF stands for the base tiles that
  DSEARCH has searched -/
  tens : Map (Map Nat)
  /-- figures of the pictures' tensors, by picture × 65,536 + tensor, one per channel (R187) -/
  figs : Map (List Figures)
  /-- tables in force for each picture, by picture × 65,536 + tensor (R192) -/
  tabs : Map QTable
  /-- adapter in force for each picture: the stream's seed, and its master weights as FP32 codes (R108, R275) -/
  adps : Map (Nat × List Nat)
  /-- the first entry has been claimed: tables and history are settled -/
  begun : Bool
  /-- pictures whose every output has committed -/
  done : List Nat
  /-- kinds of hold counted once: 1 tables (R192), 2 adapter step (R275), 3 search order (R286) -/
  held : List Nat
  /-- tiles that a third failure leaves uncommitted: layer, picture, row, column, channel (R394) -/
  lost : List (List Nat)
  inherited : Bool
  /-- waiting for residency since (R318) -/
  waitSince : Nat
  captures : Nat
  evictions : Nat
  /-- replays per cause: (tile key, times) (R394) -/
  replays : List (List Nat × Nat)
  spill : Bool
  /-- the entry in spill mode × 4,096 + waves of it started (R215), and the DRAM buffers that hold tensors between its waves:
  tensor, address, and whether the tensor has been written there -/
  wave : Nat
  spillBufs : List (Nat × Nat × Bool)
  /-- unfenced cells of the first block from which it was captured (R255), and the blocks in their order -/
  capCells : Nat
  capBlocks : List Nat
  deriving DecidableEq, Repr, Inhabited

/-- A queued or running command of a cell. -/
structure QCmd where
  cmd : CellCmd
  /-- holds an energy token, of the grant or overdrawn (R360) -/
  token : Bool
  /-- cell-order number: older commands have lower numbers -/
  seq : Nat
  /-- its WAITs that are not satisfied yet -/
  waits : List SemRef
  /-- region cycles of dispatch wait so far (R314, R324) -/
  waited : Nat
  deriving DecidableEq, Repr, Inhabited

/-- One cell (R159 to R164). -/
structure Cell where
  fenced : Bool
  /-- fenced until POR_N (R395) -/
  stuck : Bool
  /-- AON_TIME plus 1 of the last fencing -/
  fencedAt : Nat
  queue : List QCmd
  /-- running command of the array, vector unit and mover -/
  running : Map QCmd
  seq : Nat
  corrected : Nat
  /-- weight plane that the array computes with, and the one that it loads (R155) -/
  plane : Bytes
  planeNext : Bytes
  deriving DecidableEq, Repr, Inhabited

/-- One halo semaphore (R172, R173). -/
structure Sem where
  count : Nat
  /-- waiting cell and threshold -/
  waiters : List (Nat × Nat)
  deriving DecidableEq, Repr, Inhabited

/-- One block (R172). -/
structure Block where
  fenced : Bool
  restarting : Bool
  /-- times of the last faults, newest first (R393) -/
  faults : List Nat
  sems : Map Sem
  /-- resident context of each of 8 slots -/
  slots : Map Nat
  /-- AON_TIME plus 1 of the last command written by the mapper core -/
  lastWrite : Nat
  deriving DecidableEq, Repr, Inhabited

/-- A transition of a region (R443): 1 raise, 2 lowering, 3 wake. -/
structure Trans where
  kind : Nat
  /-- point before and after -/
  from_ : Nat
  dest : Nat
  /-- AON_TIME of the last change of VSEL -/
  vselAt : Nat
  deriving DecidableEq, Repr, Inhabited

/-- One region (R355 to R369). -/
structure Region where
  /-- awake: its clock runs. A region that is not awake and not waking is parked. -/
  awake : Bool
  waking : Bool
  fenced : Bool
  /-- a wake was asked for while PWRBRK_N was active (R365) -/
  wakeDeferred : Bool
  /-- point in force, VSEL code, point chosen by the PAC -/
  vp : Nat
  vsel : Nat
  target : Nat
  trans : Option Trans
  /-- filtered RGn_PGOOD -/
  pgood : Bool
  grant : Nat
  held : Nat
  overdraw : Nat
  /-- consecutive intervals with overdraw (R361) -/
  overStreak : Nat
  duty : Nat
  /-- remainder of the duty grant, in 1/1000 token (R362) -/
  dutyAcc : Nat
  tj : Int
  tempHold : Bool
  /-- region cycles that latency-critical commands have waited for a token (R369) -/
  tokWait : Nat
  /-- AON time at which the region last had work (R357) -/
  busyAt : Nat
  /-- array credit of each partition, 1/1,024 cell-cycle (R306) -/
  credit : Map Int
  /-- DRAM and NoC buckets of each partition (R307): tokens in 1/10,000 byte, refill rate in bytes per 100 µs, which is
  in 1/10,000 byte per AON cycle, and bytes requested since the rates were last set -/
  dramTok : Map Nat
  nocTok : Map Nat
  dramRate : Map Nat
  nocRate : Map Nat
  dramReq : Map Nat
  nocReq : Map Nat
  /-- queued invocations of the region controller: batch × 8 + model, in order -/
  queue : List Nat
  /-- graph of the teacher last run, plus 1 (R308) -/
  lastTeacher : Nat
  /-- times of block restarts, newest first (R393) -/
  restarts : List Nat
  /-- weight planes prefetched into the shadow: context, layer (R231) -/
  shadow : List (Nat × Nat)
  /-- counts not yet pushed: partition × 128 + index × 8 + V/F point (R323) -/
  counts : Map Nat
  /-- rail power of the last 1 ms, newest first, and averaged, 1/16 W -/
  samples : List Nat
  railPower : Nat
  deriving DecidableEq, Repr, Inhabited

/-- One partition (R71, R304 to R324). -/
structure Part where
  demoted : Bool
  /-- sequence number of the next batch (R250) -/
  batchSeq : Nat
  /-- closed batches in closing order, not yet admitted -/
  queue : List Nat
  /-- SCH counters: index × 8 + vp (R324) -/
  sch : Map Nat
  /-- MAP counters as pushed at the end of a batch, and what has been counted since (R233) -/
  map : Map Nat
  mapNew : Map Nat
  /-- CTX partition counters (R257) -/
  ctxc : Map Nat
  /-- BPM counters: pool × 16 + index (R347) -/
  bpm : Map Nat
  /-- values most recently written by tunable commands under the present declarations (R82) -/
  tuned : Map Int
  deriving DecidableEq, Repr, Inhabited

/-! ### Memory -/

/-- A DRAM request in a pseudo-channel's queue. -/
structure QReq where
  req : DramReq
  /-- what the ECC of the burst will show when a read of it is served -/
  ecc : Ecc
  bank : Nat
  row : Nat
  /-- byte address within the pseudo-channel of the burst -/
  burst : Nat
  /-- AON time at which it entered, and its number in order of acceptance -/
  since : Nat
  seq : Nat
  deriving DecidableEq, Repr, Inhabited

/-- One bank's open row and timer (R331). -/
structure Bank where
  /-- open row plus 1; 0 when closed -/
  openRow : Nat
  /-- T_b in DMC cycles; 0 stands for 96, its value at Imago entry -/
  tb : Nat
  /-- row plus 1 that the timer closed, and when -/
  closedRow : Nat
  closedAt : Nat
  /-- AON time of the last activate plus 1 (R334) -/
  actAt : Nat
  deriving DecidableEq, Repr, Inhabited

/-- One pseudo-channel scheduler (R329 to R338). -/
structure Pc where
  queue : List QReq
  /-- requests that wait in their requesters for a credit, oldest first (R329) -/
  waiting : List (DramReq × Ecc)
  draining : Bool
  banks : Map Bank
  patrolNext : Nat
  /-- bursts served, and AON cycles with 48 or more entries, in the present window (R338) -/
  served : Nat
  busy : Nat
  ctr : Map Nat
  deriving DecidableEq, Repr, Inhabited

/-- Last answer to a router: address, bytes, and whether poisoned; no bytes and poisoned for an error response. -/
structure DramResp where
  addr : Nat
  data : Bytes
  poisoned : Bool
  deriving DecidableEq, Repr, Inhabited

/-- DRAM, its controllers and the imbalance monitor. -/
structure Dram where
  /-- address-scrambling key, drawn at each POR_N (R328) -/
  key : Nat
  /-- bytes that differ from the value an unwritten byte reads as, by physical place (pseudo-channel, then byte) -/
  mem : List Host.Cell
  pcs : Map Pc
  seq : Nat
  resp : Map DramResp
  /-- salt epoch, streak, last hot pseudo-channel (R339, R348) -/
  epoch : Nat
  streak : Nat
  hotPc : Nat
  /-- windows since the last raise; raises in succession; AON time of the last raise plus 1 -/
  sinceRaise : Nat
  raises : Nat
  raisedAt : Nat
  ueAddr : Nat
  deriving DecidableEq, Repr, Inhabited

/-- Buffer Pool Manager (R341 to R348). Buffers are named by device address. -/
structure Bpm where
  /-- descriptor word of each buffer that is not as phase LOAD left it: free and never owned -/
  desc : Map Word
  /-- requester (0 to 7, or 8 for the device) to whose quota an allocated buffer is charged -/
  charged : Map Nat
  /-- freed buffers of a pool, most recently freed first -/
  freed : Map (List Nat)
  /-- buffers zeroed since they were freed -/
  zeroed : List Nat
  /-- never-owned buffers taken from a pool so far, in ascending order -/
  fresh : Map Nat
  /-- salt epoch and salt of an interleave group that has been salted since POR_N (R328, R339) -/
  groupSalt : Map (Nat × Nat)
  /-- pools whose warning is raised (R344) -/
  warn : List Nat
  /-- corrected errors of a buffer since POR_N (R337) -/
  corrected : Map Nat
  /-- allocated buffers to be quarantined when their last owner frees them (R345) -/
  pendingQuar : List Nat
  /-- answer to the last allocation request: address and salt, absent for a refusal -/
  answer : Option (Nat × Nat)
  deriving DecidableEq, Repr, Inhabited

/-- Context Store (R239, R240): the records, and the lines of the cache with their recency. -/
structure CtxStore where
  /-- records that are not all zero -/
  recs : Map Bytes
  /-- for each set, its lines, most recently used first: record index and dirty -/
  sets : Map (List (Nat × Bool))
  corrected : Nat
  /-- execution records in use -/
  exec : List Nat
  deriving DecidableEq, Repr, Inhabited

/-! ### Power, telemetry and management -/

/-- PAC (R355 to R369, R438). -/
structure Pac where
  restarting : Bool
  /-- samples of the last 1 ms, newest first, 1/16 W; their average; uncore average; scale in 1/4,096 -/
  samples : List Nat
  uncoreSamples : List Nat
  power : Nat
  uncore : Nat
  scale : Nat
  /-- regions rise by one point per 100 µs after a release (R365, R366) -/
  riseLimit : Bool
  ctr : Map Nat
  /-- admission order number -/
  order : Nat
  deriving DecidableEq, Repr, Inhabited

/-- A watched discrete input (R363, R364): PWRBRK_N, THERM_IN_N, PERSTA_N, PERSTB_N, POR_N are 0 to 4. -/
structure InputPin where
  active : Bool
  chatter : Bool
  stuck : Bool
  activeSince : Nat
  /-- released since the last summary, after having been stuck -/
  releasedStuck : Bool
  deriving DecidableEq, Repr, Inhabited

/-- One alarm-table entry (R412). -/
structure Alarm where
  kind : Nat
  count : Nat
  first : Nat
  last : Nat
  deriving DecidableEq, Repr, Inhabited

/-- Always-on status block (R434). -/
structure Aon where
  inputs : Map InputPin
  alarms : List Alarm
  /-- AON_RESET and AON_RESTART counters -/
  hpaResets : Nat
  hpbResets : Nat
  flrs : Nat
  pacRestarts : Nat
  scuRestarts : Nat
  tuRestarts : Nat
  unitRestarts : Nat
  /-- sampled straps (R449) -/
  split : Bool
  smbAddr : Nat
  /-- THERM_TRIP_N asserted (R450) -/
  thermTrip : Bool
  deriving DecidableEq, Repr, Inhabited

/-- A staged event (R406). -/
structure Ev where
  spec : EvSpec
  cls : Nat
  count : Nat
  first : Nat
  last : Nat
  deriving DecidableEq, Repr, Inhabited

/-- One delivery path's staging queue (R408, R409). Paths: 0 Ethernet, 1 SMBus, 2 + 4 port + fn for events rings. -/
structure Path where
  staged : List Ev
  k : Nat
  /-- occurrences of each trace kind -/
  occ : Map Nat
  lostLogs : Nat
  lostTraces : Nat
  /-- logs and traces dropped since the last packet (R410) -/
  lost : Nat
  /-- whole ms below a quarter full since k last moved -/
  msLow : Nat
  ctr : Map Nat
  deriving DecidableEq, Repr, Inhabited

/-- Telemetry Unit (R405 to R411, R439) and MP (R413 to R415). -/
structure Tu where
  restarting : Bool
  paths : Map Path
  ethSeq : Nat
  /-- MP: offset pointer, events returned by the last 0x04, alarms not acknowledged -/
  mpPtr : Nat
  mpLast : Nat
  mpAlert : Bool
  /-- MP's own selectors and holding registers -/
  mpHold : Map Word
  deriving DecidableEq, Repr, Inhabited

/-- Decode engine (R137). -/
structure Engine where
  fenced : Bool
  /-- stream switched in -/
  cur : Option Nat
  /-- cycles since the switch-in -/
  run : Nat
  deriving DecidableEq, Repr, Inhabited

/-- Resampler. -/
structure Resampler where
  fenced : Bool
  /-- frame being resampled -/
  cur : Option Nat
  deriving DecidableEq, Repr, Inhabited

/-- The whole device. -/
structure State where
  /-- AON cycles since POR_N deassertion (AON_TIME) -/
  now : Nat
  /-- POR_N filtered active -/
  por : Bool
  scu : Scu
  fuses : Map FuseSlot
  /-- fused identity seed and the identity public key derived in phase DRAM (R423) -/
  idSeed : Bytes
  idKey : Bytes
  grade : Nat
  stepping : Nat
  moult : Moult
  flash : Flash
  key : Key
  signer : Signer
  /-- functions by port × 4 + function -/
  fns : Map Fn
  ports : Map HostPort
  nps : Map NetPort
  streams : Map Stream
  frames : Map Frame
  nextFrame : Nat
  engines : Map Engine
  resamplers : Map Resampler
  /-- released pictures in order of release -/
  relq : List Nat
  batches : Map Batch
  nextBatch : Nat
  ctxs : Map Ctx
  nextCtx : Nat
  parts : Map Part
  regions : Map Region
  blocks : Map Block
  cells : Map Cell
  dram : Dram
  bpm : Bpm
  store : CtxStore
  pac : Pac
  aon : Aon
  tu : Tu
  /-- single-instance units in a restart (R397), by unit number -/
  unitsDown : List Nat
  /-- device-scope tunables written: parameter to value (R82) -/
  devTuned : Map Int
  /-- bytes of region stores, line stores and cell buffers that are not zero, by distance from 0xF000_0000_0000 (R429) -/
  sram : List Host.Cell
  /-- what the device has sent, newest first -/
  out : List Out
  /-- register accesses that wait for a controller's self-restart to end, oldest first (R44, R400, R433) -/
  waits : List Instr
  /-- MODEL'S OWN: index of the next free value (log 5) -/
  freeIx : Nat
  /-- commands that wait, first in, first out -/
  pending : List Instr
  deriving DecidableEq, Repr

/-- The device right after power-on, POR_N asserted: every field as the registers' Reset columns give it. Every
region is parked, every counter and queue is empty, and nothing is pending (a detail DESIGN CHOICE, log 22). -/
def State.reset : State where
  now := 0
  por := true
  scu := default
  fuses := []
  idSeed := []
  idKey := []
  grade := 0
  stepping := 0
  moult := default
  flash := default
  key := default
  signer := default
  fns := []
  ports := []
  nps := []
  streams := []
  frames := []
  nextFrame := 0
  engines := []
  resamplers := []
  relq := []
  batches := []
  nextBatch := 0
  ctxs := []
  nextCtx := 0
  parts := []
  regions := []
  blocks := []
  cells := []
  dram := default
  bpm := default
  store := default
  pac := default
  aon := default
  tu := default
  unitsDown := []
  devTuned := []
  sram := []
  out := []
  waits := []
  freeIx := 0
  pending := []

end Sys2Proof.Machine
end

