-- ==== Sys2Proof/Machine/Cfg.lean ====
section
/-! DEFINITION. Fields of the configuration's sections, by the offsets of R66 to R82. A section is held as the bytes
the container carried (R61); every multi-byte field is little-endian (R3) but IP addresses, which are in network byte
order. -/

set_option Elab.async false

namespace Sys2Proof.Machine

/-! ### Stream entries (R67) -/

def seSlot (e : Bytes) : Nat := le16 e 0x00
def sePart (e : Bytes) : Nat := byteAt e 0x02
def seSource (e : Bytes) : Nat := byteAt e 0x03
def seCodec (e : Bytes) : Nat := byteAt e 0x04
def seDepth (e : Bytes) : Nat := byteAt e 0x05
def seTransport (e : Bytes) : Nat := byteAt e 0x06
def seAdapter (e : Bytes) : Bool := byteAt e 0x07 % 2 = 1
def seDetector (e : Bytes) : Bool := byteAt e 0x07 / 2 % 2 = 1
def seMaxW (e : Bytes) : Nat := le16 e 0x08
def seMaxH (e : Bytes) : Nat := le16 e 0x0A
def seMaxRate (e : Bytes) : Nat := le16 e 0x0C
def seInterp (e : Bytes) : Nat := byteAt e 0x0E
/-- Cycle-budget multiple; 0 means 8. -/
def seBudget (e : Bytes) : Nat := if byteAt e 0x0F = 0 then 8 else byteAt e 0x0F
def seBitrate (e : Bytes) : Nat := le32 e 0x10
def seBurst (e : Bytes) : Nat := le32 e 0x14
def seQuota (e : Bytes) : Nat := le32 e 0x18
def seCtxRecords (e : Bytes) : Nat := le32 e 0x1C
/-- Graph instance of model `m`: 0 teacher, 1 motion, 2 detector, 3 temporal, 4 search; 0xFF for none. -/
def seModel (e : Bytes) (m : Nat) : Nat := byteAt e (0x20 + m)
def seCodebook (e : Bytes) : Nat := byteAt e 0x25
def seAddr (e : Bytes) : Nat := beAt e 0x28 16
def seUdpPort (e : Bytes) : Nat := le16 e 0x38
def seProgram (e : Bytes) : Nat := le16 e 0x3A
def seRtpPt (e : Bytes) : Nat := byteAt e 0x3C
def seJoin (e : Bytes) : Nat := byteAt e 0x3D
def seSsm (e : Bytes) : Nat := beAt e 0x40 16
def seDest (e : Bytes) : Nat := byteAt e 0x50
def seTdsPort (e : Bytes) : Nat := byteAt e 0x51
def seTdsPt (e : Bytes) : Nat := byteAt e 0x52
def seRing (e : Bytes) : Nat := byteAt e 0x53
def seTdsUdp (e : Bytes) : Nat := le16 e 0x54
def seTdsRate (e : Bytes) : Nat := le16 e 0x56
def seTdsAddr (e : Bytes) : Nat := beAt e 0x58 16
def seHop (e : Bytes) : Nat := byteAt e 0x68
def seDscp (e : Bytes) : Nat := byteAt e 0x69
/-- RTP SSRC of the side-stream; 0 selects 0x4A58_0000 plus slot. -/
def seSsrc (e : Bytes) : Nat := if le32 e 0x6C = 0 then 0x4A580000 + seSlot e else le32 e 0x6C
/-- The stream takes its data from a network port. -/
def seNet (e : Bytes) : Bool := seSource e < 2

/-! ### Fusion groups (R70) -/

def fgId (g : Bytes) : Nat := byteAt g 0
def fgCount (g : Bytes) : Nat := byteAt g 1
def fgWindow (g : Bytes) : Nat := le16 g 2
def fgMembers (g : Bytes) : List Nat := (List.range (fgCount g)).map (fun i => le16 g (4 + 2 * i))
def fgEmit (g : Bytes) : Nat := byteAt g 0xC

/-! ### Partitions (R71) -/

def peId (p : Bytes) : Nat := byteAt p 0
def pePort (p : Bytes) : Nat := byteAt p 1
def peFn (p : Bytes) : Nat := byteAt p 2
def peClass (p : Bytes) : Nat := byteAt p 3
def pePinned (p : Bytes) : Bool := byteAt p 4 = 1
def peMask (p : Bytes) : Nat := byteAt p 5
/-- A weight of 0 is taken as 1 and one above 1,024 as 1,024 (R72). -/
def weightOf (v : Nat) : Nat := if v = 0 then 1 else min v 1024
def peDramW (p : Bytes) : Nat := weightOf (le16 p 0x08)
def peNocW (p : Bytes) : Nat := weightOf (le16 p 0x0A)
def peArrayW (p : Bytes) : Nat := weightOf (le16 p 0x0C)
def peMaxStreams (p : Bytes) : Nat := le16 p 0x10
def peCtxQuota (p : Bytes) : Nat := le32 p 0x14
def pePoolQuota (p : Bytes) (k : Nat) : Nat := le32 p (0x18 + 4 * k)

/-! ### Pools (R74) -/

def poLog2 (p : Bytes) : Nat := byteAt p 0
def poWarn (p : Bytes) : Nat := le16 p 2
def poCount (p : Bytes) : Nat := le32 p 4
def poReserve (p : Bytes) : Nat := le32 p 8
def poSize (p : Bytes) : Nat := 2 ^ poLog2 p

/-! ### Network ports (R76) -/

def neEnabled (n : Bytes) : Bool := byteAt n 0 = 1
def neMtu (n : Bytes) : Nat := le16 n 2
def neVlan (n : Bytes) : Nat := le16 n 4
def nePcp (n : Bytes) : Nat := byteAt n 6
def neV4 (n : Bytes) : Bool := byteAt n 7 % 2 = 1
def neV6 (n : Bytes) : Bool := byteAt n 7 / 2 % 2 = 1
def neEcho (n : Bytes) : Bool := byteAt n 7 / 4 % 2 = 1
def neMac (n : Bytes) : Nat := beAt n 8 6
def neAddr4 (n : Bytes) : Nat := beAt n 0x10 4
def nePre4 (n : Bytes) : Nat := byteAt n 0x14
def neGw4 (n : Bytes) : Nat := beAt n 0x18 4
def neAddr6 (n : Bytes) : Nat := beAt n 0x20 16
def nePre6 (n : Bytes) : Nat := byteAt n 0x30
def neGw6 (n : Bytes) : Nat := beAt n 0x40 16

/-- IPv4-mapped IPv6 form of an IPv4 address (R67). -/
def v4mapped (a : Nat) : Nat := 0xFFFF * 2 ^ 32 + a % 2 ^ 32
/-- The address is IPv4-mapped. -/
def isV4 (a : Nat) : Bool := a / 2 ^ 32 = 0xFFFF
/-- Multicast: IPv4 224.0.0.0/4 or IPv6 ff00::/8 (R77). -/
def isMcast (a : Nat) : Bool := if isV4 a then a / 2 ^ 28 % 16 = 0xE else a / 2 ^ 120 % 256 = 0xFF

/-! ### PAC policy (R78) and telemetry (R79) -/

def ppCap (p : Bytes) : Nat := le16 p 0
def ppParkIdle (p : Bytes) : Nat := le32 p 4
def ppVpMax (p : Bytes) (r : Nat) : Nat := byteAt p (8 + r)
def ppVpMin (p : Bytes) (r : Nat) : Nat := byteAt p (0x10 + r)
def ppParkMask (p : Bytes) : Nat := byteAt p 0x18

def tePaths (t : Bytes) : Nat := byteAt t 0
def teEthPort (t : Bytes) : Nat := byteAt t 1
def teDscp (t : Bytes) : Nat := byteAt t 2
def teKMin (t : Bytes) : Nat := byteAt t 3
def teSummaryMs (t : Bytes) : Nat := le16 t 4
def teUdpPort (t : Bytes) : Nat := le16 t 6
def teCollector (t : Bytes) : Nat := beAt t 8 16
def teLogMask (t : Bytes) : Nat := le32 t 0x18
def teTraceMask (t : Bytes) : Nat := le32 t 0x1C

/-! ### Tunable declarations (R80) -/

def tuId (t : Bytes) : Nat := le16 t 0
def tuScope (t : Bytes) : Nat := byteAt t 2
def tuApply (t : Bytes) : Nat := byteAt t 3
def tuPart (t : Bytes) : Nat := byteAt t 4
def tuMin (t : Bytes) : Int := toSigned 32 (le32 t 8)
def tuMax (t : Bytes) : Int := toSigned 32 (le32 t 0xC)
def tuDefault (t : Bytes) : Int := toSigned 32 (le32 t 0x10)

/-! ### Lookups in a configuration -/

/-- Key of a GRAPH or CODEBOOK section among the versions. -/
def verKey (ty inst : Nat) : Nat := ty * 65536 + inst

/-- The stream entry of a slot. -/
def cfgStream (c : Sections) (slot : Nat) : Option Bytes := c.streams.find? (fun e => seSlot e == slot)

/-- The partition entry of a partition number. -/
def cfgPart (c : Sections) (p : Nat) : Option Bytes := c.partitions.find? (fun e => peId e == p)

/-- The partition entry of a function. -/
def cfgPartOfFn (c : Sections) (port fn : Nat) : Option Bytes :=
  c.partitions.find? (fun e => pePort e == port && peFn e == fn)

/-- The pool entry of a pool number. -/
def cfgPool (c : Sections) (k : Nat) : Bytes := c.pools.getD k []

/-- The network entry of a port. -/
def cfgNet (c : Sections) (np : Nat) : Bytes := c.network.getD np []

/-- Functions of a port: those that PARTITIONS names (R72). -/
def cfgFns (c : Sections) (port : Nat) : List Nat :=
  (c.partitions.filter (fun e => pePort e == port)).map peFn

/-- The fusion group that a slot is a member of. -/
def cfgGroup (c : Sections) (slot : Nat) : Option Bytes := c.groups.find? (fun g => (fgMembers g).contains slot)

/-- Index of a slot in its group. -/
def fgIndex (g : Bytes) (slot : Nat) : Nat := (fgMembers g).idxOf slot

/-- The slot emits records: it is in no group, or its bit of emit_mask is set (R70). -/
def cfgEmits (c : Sections) (slot : Nat) : Bool :=
  match cfgGroup c slot with
  | none => true
  | some g => fgEmit g / 2 ^ fgIndex g slot % 2 = 1

/-- The declaration of a parameter for a partition; device scope first (R81). -/
def cfgTunable (c : Sections) (id part : Nat) : Option Bytes :=
  c.tunables.find? (fun t => tuId t == id && (tuScope t == 0 || tuPart t == part))

/-- The running configuration, empty before LOAD and in Held (R37, R39). -/
def State.run (s : State) : Sections :=
  s.scu.cfg.getD ⟨[], [], [], [], [], [], [], [], [], [], [], []⟩

/-- A configuration is running: the device is in Imago or past LOAD. -/
def State.hasCfg (s : State) : Bool := s.scu.cfg.isSome

/-- The configuration that Moult sequence number `seq` names: an earlier one while it lasts, else the running one
(R48). -/
def State.cfgOf (s : State) (seq : Nat) : Sections := (mfind s.moult.olds seq).getD s.run

/-- The configuration a stream slot runs under. -/
def State.cfgAt (s : State) (slot : Nat) : Sections := s.cfgOf (mget s.streams slot).cfgSeq

/-- The stream entry under which a slot runs; empty when it has none. -/
def State.se (s : State) (slot : Nat) : Bytes := (cfgStream (s.cfgAt slot) slot).getD []

/-- The partition entry of a partition under the running configuration. -/
def State.pe (s : State) (p : Nat) : Bytes := (cfgPart s.run p).getD []

/-- A device-scope parameter: the value written, else the base value of its section (R81, R82). -/
def devParam (s : State) (id : Nat) : Nat :=
  match mfind s.devTuned id with
  | some v => v.toNat
  | none =>
    if id = 1 then ppCap s.run.pac
    else if id = 2 then ppParkIdle s.run.pac
    else teKMin s.run.telemetry

end Sys2Proof.Machine
end

