-- ==== Sys2Proof/Machine/Ops.lean ====
section
/-! DEFINITION. The named operations over the device's state that every unit shares: reading and writing one function,
port, stream, frame, cell, block or region; sending something out; setting an interrupt cause; counting. -/

set_option Elab.async false

namespace Sys2Proof.Machine

/-- The outcome of a command that completes. -/
abbrev done (s : State) : Host.Outcome State Fault Refusal := .next s

/-! ### Access to one unit -/

/-- Index of function `fn` of port `port`. -/
def fnIx (port fn : Nat) : Nat := port * 4 + fn

def State.fn (s : State) (port fn : Nat) : Fn := mget s.fns (fnIx port fn)
def State.updFn (s : State) (port fn : Nat) (f : Fn → Fn) : State := { s with fns := mupd s.fns (fnIx port fn) f }
def State.port (s : State) (p : Nat) : HostPort := mget s.ports p
def State.updPort (s : State) (p : Nat) (f : HostPort → HostPort) : State := { s with ports := mupd s.ports p f }
def State.np (s : State) (n : Nat) : NetPort := mget s.nps n
def State.updNp (s : State) (n : Nat) (f : NetPort → NetPort) : State := { s with nps := mupd s.nps n f }
def State.stream (s : State) (i : Nat) : Stream := mget s.streams i
def State.updStream (s : State) (i : Nat) (f : Stream → Stream) : State := { s with streams := mupd s.streams i f }
def State.updIng (s : State) (i : Nat) (f : Ingest → Ingest) : State :=
  s.updStream i (fun x => { x with ing := f x.ing })
def State.updDec (s : State) (i : Nat) (f : Decode → Decode) : State :=
  s.updStream i (fun x => { x with dec := f x.dec })
def State.frame (s : State) (i : Nat) : Frame := mget s.frames i
/-- Change a frame that is in flight; nothing where there is none. -/
def State.updFrame (s : State) (i : Nat) (f : Frame → Frame) : State :=
  { s with frames := s.frames.map (fun p => if p.1 = i then (p.1, f p.2) else p) }
def State.part (s : State) (i : Nat) : Part := mget s.parts i
def State.updPart (s : State) (i : Nat) (f : Part → Part) : State := { s with parts := mupd s.parts i f }
def State.region (s : State) (i : Nat) : Region := mget s.regions i
def State.updRegion (s : State) (i : Nat) (f : Region → Region) : State := { s with regions := mupd s.regions i f }
def State.block (s : State) (i : Nat) : Block := mget s.blocks i
def State.updBlock (s : State) (i : Nat) (f : Block → Block) : State := { s with blocks := mupd s.blocks i f }
def State.cell (s : State) (i : Nat) : Cell := mget s.cells i
def State.updCell (s : State) (i : Nat) (f : Cell → Cell) : State := { s with cells := mupd s.cells i f }
def State.updCtx (s : State) (i : Nat) (f : Ctx → Ctx) : State :=
  { s with ctxs := s.ctxs.map (fun p => if p.1 = i then (p.1, f p.2) else p) }
def State.updBatch (s : State) (i : Nat) (f : Batch → Batch) : State :=
  { s with batches := s.batches.map (fun p => if p.1 = i then (p.1, f p.2) else p) }
def State.path (s : State) (i : Nat) : Path := mget s.tu.paths i
def State.updPath (s : State) (i : Nat) (f : Path → Path) : State :=
  { s with tu := { s.tu with paths := mupd s.tu.paths i f } }

/-! ### Membership of cells, blocks and regions (R13) -/

def blockOfCell (c : Nat) : Nat := c / 8
def regionOfBlock (b : Nat) : Nat := b / 4
def regionOfCell (c : Nat) : Nat := c / 32
def cellsOfBlock (b : Nat) : List Nat := (List.range 8).map (fun i => 8 * b + i)
def blocksOfRegion (r : Nat) : List Nat := (List.range 4).map (fun i => 4 * r + i)

/-! ### Output, counters and free values -/

/-- Send something out. -/
def emit (o : Out) (s : State) : State := { s with out := o :: s.out }

/-- Add `n` to counter `k` of a list of 64-bit counters, which saturate (R57). -/
def bump (m : Map Nat) (k n : Nat) : Map Nat := mupd m k (fun v => satAdd (2 ^ 64 - 1) v n)

/-- Count in a port block (R440). -/
def hpCount (s : State) (port k n : Nat) : State := s.updPort port (fun p => { p with ctr := bump p.ctr k n })

/-- Take the next free value of `w` bits (log 5). -/
def freeBits (w : Nat) (s : State) : Nat × State :=
  ((Config.freeValue s.freeIx).toNat % 2 ^ w, { s with freeIx := s.freeIx + 1 })

/-- Count for a partition in a region: it reaches the scheduling counters at the next push (R323, R324). -/
def rgnCount (s : State) (r p k vp n : Nat) : State :=
  s.updRegion r (fun x => { x with counts := bump x.counts (p * 128 + k * 8 + vp) n })

/-- Charge `n` bytes of a partition's request to the buckets of a region's router; answers whether both held enough. -/
def chargeBuckets (s : State) (r p n : Nat) : Bool × State :=
  let x := s.region r
  let need := n * 10000
  let ok := decide (need ≤ mget x.dramTok p) && decide (need ≤ mget x.nocTok p)
  (ok, s.updRegion r (fun x => { x with
    dramTok := mupd x.dramTok p (· - need), nocTok := mupd x.nocTok p (· - need),
    dramReq := mupd x.dramReq p (· + n), nocReq := mupd x.nocReq p (· + n) }))

/-- Charge Chrysalis traffic of a partition in a region: it always travels in profile (R307). Its bytes are counted in SCH
counter `k`, 10 read or 11 written (R323, R324). -/
def chargeBody (s : State) (r p k n : Nat) : State := rgnCount (chargeBuckets s r p n).2 r p k 0 n

/-- Charge a signal that leaves a region to its partition's NoC bucket; it always travels in profile (R174, R307). The bytes
of a signal are free (log 23). -/
def chargeSignal (s : State) (src dst p : Nat) : State :=
  if src = dst then s
  else
    let n := Config.signalBytes.toNat
    s.updRegion src (fun x => { x with nocTok := mupd x.nocTok p (· - n * 10000), nocReq := mupd x.nocReq p (· + n) })

/-- Push a region's counts to the partitions' scheduling counters (R323). -/
def pushCounts (s : State) (r : Nat) : State :=
  let s' := (s.region r).counts.foldl
    (fun s q => s.updPart (q.1 / 128) (fun p => { p with sch := bump p.sch (q.1 % 128) q.2 })) s
  s'.updRegion r (fun x => { x with counts := [] })

/-! ### Phases, ports and functions -/

def phaseImago : Nat := 9
def phaseHeld : Nat := 0xE
def State.imago (s : State) : Bool := s.scu.phase == phaseImago
def State.held (s : State) : Bool := s.scu.phase == phaseHeld

/-- A single-instance unit is in its restart (R397) (a detail DEDUCED, log 47). -/
def unitDown (s : State) (u : Nat) : Bool := s.unitsDown.contains u

/-- A host port is present: HPA always, HPB with HP_SPLIT high (R370). -/
def portPresent (s : State) (p : Nat) : Bool := p == 0 || (p == 1 && s.aon.split)

/-- A function exists on a port: the ones PARTITIONS names, in Held PF0 alone (R39, R371, R72). -/
def fnPresent (s : State) (port fn : Nat) : Bool :=
  portPresent s port && (if s.held then fn == 0 else s.imago && (cfgFns s.run port).contains fn)

/-- A function takes a memory access: it exists, its memory space is enabled, it is in D0 and no reset of it is in
progress (R384, R388; the Memory Space Enable bit as in the PCI Express Base Specification, log 21). -/
def fnTakes (s : State) (port fn : Nat) : Bool :=
  let f := s.fn port fn
  fnPresent s port fn && f.memEnable && f.dstate == 0 && !f.resetting

/-- A register access waits for its controller's self-restart to end (R44, R400). -/
def waitAccess (c : Instr) (s : State) : State := { s with waits := s.waits ++ [c] }

/-- A function may issue requests (R372, R380, R388). -/
def canIssue (f : Fn) : Bool := f.bme && f.dstate == 0 && !f.resetting

/-- A failed read counts in its port block: completion timeouts, and poisoned TLPs received (R440). -/
def readCount (s : State) (port fn : Nat) (r : HostRead) : State :=
  match r with
  | .failed .timedOut => if canIssue (s.fn port fn) then hpCount s port 4 1 else s
  | .failed .poisoned => if canIssue (s.fn port fn) then hpCount s port 5 1 else s
  | _ => s

/-- Owner (port, function) of a partition. -/
def fnOfPart (s : State) (p : Nat) : Option (Nat × Nat) := (cfgPart s.run p).map (fun e => (pePort e, peFn e))

/-- Partition of a function. -/
def partOfFn (s : State) (port fn : Nat) : Option Nat := (cfgPartOfFn s.run port fn).map peId

/-- A plain register of BAR0. -/
def freg (f : Fn) (off : Nat) : Word := mget f.regs off

/-! ### Interrupt causes (R376) -/

def irqAlarm : Nat := 16
def irqInject : Nat := 17
def irqRingError : Nat := 18
def irqMoult : Nat := 19
def irqFlash : Nat := 20
def irqCommand : Nat := 21

/-- Set one cause bit of FN_IRQ_STATUS. -/
def raiseIrq (s : State) (port fn bit : Nat) : State :=
  s.updFn port fn (fun f => { f with irqStatus := f.irqStatus ||| wflag true bit })

/-- FN_IRQ_STATUS & FN_IRQ_MASK is nonzero. -/
def irqCause (f : Fn) : Bool := f.irqStatus &&& f.irqMask != 0

/-- The function's interrupt is pending (R375). -/
def irqPending (f : Fn) : Bool := irqCause f && !f.intDisable

/-! ### Memory kept as sorted cells (flash, DRAM, injection rings) -/

/-- Value of a cell; `unl` is what an unlisted address reads as. -/
def cellRead (unl : Byte) : List Host.Cell → Nat → Byte
  | [], _ => unl
  | (k, v) :: t, a => if k = a then v else cellRead unl t a

/-- Write one byte, keeping addresses rising and no cell equal to `unl`. -/
def cellWrite (unl : Byte) : List Host.Cell → Nat → Byte → List Host.Cell
  | [], a, b => if b = unl then [] else [(a, b)]
  | (k, v) :: t, a, b =>
    if a < k then (if b = unl then (k, v) :: t else (a, b) :: (k, v) :: t)
    else if a = k then (if b = unl then t else (a, b) :: t)
    else (k, v) :: cellWrite unl t a b

/-- Write bytes from address `a` upward. -/
def cellWriteBytes (unl : Byte) : List Host.Cell → Nat → Bytes → List Host.Cell
  | m, _, [] => m
  | m, a, b :: t => cellWriteBytes unl (cellWrite unl m a b) (a + 1) t

/-- Remove the cells of a range: every byte of it reads as `unl` again. -/
def cellClear (m : List Host.Cell) (a n : Nat) : List Host.Cell :=
  m.filter (fun p => p.1 < a || a + n ≤ p.1)

/-- Read `n` bytes from address `a`. -/
def cellReadBytes (unl : Byte) (m : List Host.Cell) (a n : Nat) : Bytes :=
  (List.range n).map (fun i => cellRead unl m (a + i))

/-- The canonical form of a memory: addresses strictly rising from `lo`, no cell equal to the unlisted value. -/
def cellsFrom (unl : Byte) : Nat → List Host.Cell → Bool
  | _, [] => true
  | lo, (k, v) :: t => decide (lo ≤ k) && (v != unl) && cellsFrom unl (k + 1) t

/-- The canonical form. -/
abbrev cellsWf (unl : Byte) (m : List Host.Cell) : Bool := cellsFrom unl 0 m

/-- What an erased flash byte reads as (log 3). -/
def flashErased : Byte := 0xFF
/-- What a DRAM byte that nothing has written reads as (log 4). -/
def dramUnwritten : Byte := 0

end Sys2Proof.Machine
end

