-- ==== Sys2Proof/Machine/Rings.lean ====
section
/-! DEFINITION. The per-frame ledger (R401 to R404) and the record rings (R377 to R383): what every unit that ends a
frame or delivers a unit shares. -/

set_option Elab.async false

namespace Sys2Proof.Machine

/-! ### Ledger -/

/-- Configuration of a frame, stream entry and owner (port, function) of its partition. -/
def frameCfg (s : State) (f : Frame) : Sections := s.cfgOf f.cfgSeq
def frameSe (s : State) (f : Frame) : Bytes := (cfgStream (frameCfg s f) f.slot).getD []
def frameOwner (s : State) (f : Frame) : Option (Nat × Nat) := fnOfPart s (sePart (frameSe s f))

/-- The 32 bytes of a ledger entry (R402). A field before the stage from which it is valid holds a free value (log 8). -/
def ledgerBytes (f : Frame) : Bytes :=
  let early (off : Nat) : Nat := (Config.ledgerField f.slot f.au f.writes off).toNat
  let b := toLe 4 f.au ++ toLe 4 (if 4 ≤ f.stage then f.picture.getD 0xFFFFFFFF else 0xFFFFFFFF) ++
    toLe 2 f.slot ++ toLe 1 f.stage ++ toLe 1 f.flags ++ toLe 1 f.dcause ++ toLe 1 f.models ++ toLe 2 f.slices ++
    toLe 4 (if 7 ≤ f.stage then f.covered else early 0x10) ++ toLe 4 (if 4 ≤ f.stage then f.tileCount else early 0x14) ++
    toLe 2 (if 8 ≤ f.stage then f.unitSeq else early 0x18) ++ toLe 2 f.writes
  b ++ toLe 4 (crc32c b)

/-- Byte offset of an entry in the ledger area (R402). -/
def ledgerOffset (f : Frame) : Nat := (f.slot * 64 + f.au % 64) * 32

def offLedgerLo : Nat := 0x0FD200
def offLedgerHi : Nat := 0x0FD204

/-- Host address of the ledger area of a function. -/
def ledgerBase (f : Fn) : Nat := wbits (freg f offLedgerLo) 31 20 * 2 ^ 20 + (freg f offLedgerHi).toNat * 2 ^ 32

/-- Write the whole ledger entry of a frame, where its function's ledger is enabled and it may issue (R401, R403)
(a detail DESIGN CHOICE, log 8). -/
def ledgerWrite (s : State) (fid : Nat) : State :=
  match mfind s.frames fid with
  | none => s
  | some f =>
    match frameOwner s f with
    | none => s
    | some (port, fn) =>
      let fu := s.fn port fn
      if wbit (freg fu offLedgerLo) 0 && canIssue fu then
        let f' := { f with writes := (f.writes + 1) % 2 ^ 16 }
        emit (.hostWrite port fn (ledgerBase fu + ledgerOffset f) (ledgerBytes f')) (s.updFrame fid (fun _ => f'))
      else s

/-- A frame whose life is over: discarded, emitted, or at stage 0x4 as a non-emitting fusion member (R403). -/
def frameEnded (f : Frame) : Bool := f.flags % 2 == 1 || 9 ≤ f.stage || (f.flags / 32 % 2 == 1 && 4 ≤ f.stage)

/-- Advance a frame's stage and write its entry; a stage never decreases (R21, R403). -/
def frameStage (s : State) (fid st : Nat) : State :=
  ledgerWrite (s.updFrame fid (fun f => { f with stage := max f.stage st })) fid

/-- Every destination has been served: stage 0x9 (R403). -/
def frameServed (s : State) (fid : Nat) : State :=
  frameStage (s.updFrame fid (fun f => { f with emitWait := false })) fid 9

/-! ### Record rings -/

def State.ring (s : State) (port fn r : Nat) : Ring := mget (s.fn port fn).rings r
def State.updRing (s : State) (port fn r : Nat) (g : Ring → Ring) : State :=
  s.updFn port fn (fun f => { f with rings := mupd f.rings r g })

/-- Records of a ring (R377). -/
def ringSize (r : Ring) : Nat := 2 ^ r.log2
/-- Records free, by the consumed count last read (R379). -/
def ringFree (r : Ring) : Nat := ringSize r - (r.prod - r.consumed)
/-- Records that a unit of `n` bytes takes (R377). -/
def unitRecords (n : Nat) : Nat := ceilDiv n 52

/-- One 64-byte record with number `k` (R377). -/
def ringRecord (log2 k type fill : Nat) (data : Bytes) : Bytes :=
  let head := padTo 52 data
  let tail := toLe 4 k ++ toLe 1 type ++ toLe 1 fill ++ [0] ++ toLe 1 (1 - k / 2 ^ log2 % 2)
  head ++ toLe 4 (crc32c (head ++ tail)) ++ tail

/-- irq_count, with 0 read as 1 (R381). -/
def ringIrqCount (r : Ring) : Nat := if r.irqCount = 0 then 1 else r.irqCount

/-- Write one record at the producer position, as one aligned Memory Write, and count it for moderation
(R378, R381). -/
def ringPut (s : State) (port fn ring type fill : Nat) (data : Bytes) : State :=
  let r := s.ring port fn ring
  let s := emit (.hostWrite port fn (r.base + 64 * (r.prod % ringSize r)) (ringRecord r.log2 r.prod type fill data)) s
  let n := r.irqRecords + 1
  if ringIrqCount r ≤ n then
    raiseIrq (s.updRing port fn ring (fun r => { r with prod := r.prod + 1, irqRecords := 0, irqFirst := 0 })) port fn ring
  else
    s.updRing port fn ring (fun r =>
      { r with prod := r.prod + 1, irqRecords := n, irqFirst := if r.irqRecords = 0 then s.now + 1 else r.irqFirst })

/-- Write the records of a unit in ascending order; the first has type `ty`, the rest type 2 (R377). -/
def ringPutChunks (port fn ring : Nat) : List Bytes → Nat → State → State
  | [], _, s => s
  | c :: t, ty, s => ringPutChunks port fn ring t 2 (ringPut s port fn ring ty c.length c)

/-- The gap marker that comes before the next unit after a loss (R380). -/
def ringGap (s : State) (port fn ring : Nat) : State :=
  let r := s.ring port fn ring
  if r.lostUnits = 0 then s
  else
    ringPut (s.updRing port fn ring (fun r => { r with lostUnits := 0, lostBytes := 0 })) port fn ring 4 8
      (toLe 4 r.lostUnits ++ toLe 4 r.lostBytes)

/-- Write a unit: gap marker if due, then its records. -/
def ringWriteUnit (s : State) (port fn ring : Nat) (data : Bytes) : State :=
  ringPutChunks port fn ring (blocksOf 52 (unitRecords data.length) data) 1 (ringGap s port fn ring)

/-- Count one dropped unit: RING_DROP, and the next gap marker while the ring runs (R380). -/
def ringDropUnit (s : State) (port fn ring bytes : Nat) : State :=
  s.updRing port fn ring (fun r =>
    { r with drops := satAdd (2 ^ 64 - 1) r.drops 1,
             lostUnits := if r.bound then r.lostUnits + 1 else r.lostUnits,
             lostBytes := if r.bound then r.lostBytes + bytes else r.lostBytes })

/-- The frame a unit belonged to has been handed over. -/
def heldServed (s : State) (u : HeldUnit) : State :=
  match u.frame with
  | none => s
  | some fid => frameServed s fid

/-- Records needed before a unit of `n` bytes can be written: its own, and a gap marker if one is due. -/
def ringNeeds (r : Ring) (n : Nat) : Nat := unitRecords n + (if r.lostUnits = 0 then 0 else 1)

/-- The ring can take a unit of `n` bytes now. -/
def ringTakes (f : Fn) (r : Ring) (n : Nat) : Bool := canIssue f && decide (ringNeeds r n ≤ ringFree r)

/-- Write as many held units as the ring has room for, oldest first (R379, R380); `fuel` is the number held. -/
def ringDrain (port fn ring : Nat) : Nat → State → State
  | 0, s => s
  | fuel + 1, s =>
    let r := s.ring port fn ring
    match r.held with
    | [] => s
    | u :: t =>
      if ringTakes (s.fn port fn) r u.data.length then
        let s := ringWriteUnit (s.updRing port fn ring (fun r => { r with held := t })) port fn ring u.data
        ringDrain port fn ring fuel (heldServed s u)
      else s

/-- Space is wanted and none is known: a consumer read is due (R379). -/
def ringWant (s : State) (port fn ring : Nat) : State :=
  s.updRing port fn ring (fun r => { r with backoff := if r.backoff = 0 then 1 else r.backoff })

/-- Drop the oldest held unit whole (R380). -/
def ringDropOldest (s : State) (port fn ring : Nat) : State :=
  match (s.ring port fn ring).held with
  | [] => s
  | u :: t =>
    heldServed (ringDropUnit (s.updRing port fn ring (fun r => { r with held := t })) port fn ring u.data.length) u

/-- What became of a unit given to a ring. -/
inductive RingGiven where
  /-- written, or dropped: its destination has been served -/
  | served
  /-- dropped as larger than half the ring: served, and logged -/
  | tooLarge
  /-- held in DX staging -/
  | held
  deriving DecidableEq, Repr

/-- Deliver a unit to a ring (R380). The unit's frame is advanced here only where the unit had to wait; a unit that
is served at once is reported so. -/
def ringUnit (s : State) (port fn ring : Nat) (data : Bytes) (frame : Option Nat) : RingGiven × State :=
  let r := s.ring port fn ring
  if !r.bound then (.served, ringDropUnit s port fn ring data.length)
  else if 2 ^ (r.log2 - 1) < unitRecords data.length then (.tooLarge, ringDropUnit s port fn ring data.length)
  else if r.held.isEmpty && ringTakes (s.fn port fn) r data.length then (.served, ringWriteUnit s port fn ring data)
  else
    let s := s.updRing port fn ring (fun r => { r with held := r.held ++ [⟨data, s.now, frame⟩] })
    let s := ringWant s port fn ring
    (.held, if 64 < r.held.length + 1 then ringDropOldest s port fn ring else s)

/-- Every unit held for a ring is dropped and counted (R380). -/
def ringDropHeld (port fn ring : Nat) : List HeldUnit → State → State
  | [], s => s
  | u :: t, s => ringDropHeld port fn ring t (heldServed (ringDropUnit s port fn ring u.data.length) u)

/-- Stop a ring: unbound, with its held units dropped (R380). -/
def ringStop (s : State) (port fn ring : Nat) (error : Bool) (cause : Nat) : State :=
  let h := (s.ring port fn ring).held
  let s := s.updRing port fn ring (fun r =>
    { r with bound := false, error := error, cause := cause, held := [], backoff := 0, irqRecords := 0, irqFirst := 0,
             lostUnits := 0, lostBytes := 0 })
  ringDropHeld port fn ring h s

/-- The ring of a function that carries the partition's events (R383). -/
def eventRing (f : Fn) : Option Nat := (f.rings.find? (fun p => p.2.bound && p.2.events)).map (·.1)

/-- Write one event as a record of type 3 when the ring has room and holds no unit before it; answers whether it was
written (R377, R408). -/
def ringEvent (s : State) (port fn ring : Nat) (data : Bytes) : Bool × State :=
  let r := s.ring port fn ring
  if r.bound && r.held.isEmpty && ringTakes (s.fn port fn) r 32 then
    (true, ringPut (ringGap s port fn ring) port fn ring 3 32 data)
  else (false, ringWant s port fn ring)

end Sys2Proof.Machine
end

