-- ==== Sys2Proof/Machine/Tele.lean ====
section
/-! DEFINITION. Events (R405 to R411): what every unit calls to raise an alarm, a log or a trace; the staging queues of
the delivery paths; the alarm table (R412). -/

set_option Elab.async false

namespace Sys2Proof.Machine

/-! ### Unit numbers (R405) -/

def uIngress : Nat := 0
def uParser : Nat := 1
def uDe : Nat := 2
def uRs : Nat := 3
def uCtx : Nat := 4
def uDx : Nat := 5
def uBpm : Nat := 6
def uDmc : Nat := 7
def uPac : Nat := 9
def uScu : Nat := 10
def uTu : Nat := 11
def uHp : Nat := 12
def uMp : Nat := 14
def uAon : Nat := 15
def uRg : Nat := 16

/-- kind: unit in bits [15:8], number in bits [7:0] (R406). -/
def evKind (e : EvSpec) : Nat := e.unit % 256 * 256 + e.num % 256

/-- The 32 bytes of an event (R406). -/
def evBytes (e : Ev) : Bytes :=
  toLe 2 (evKind e.spec) ++ toLe 1 e.cls ++ toLe 1 e.spec.part ++ toLe 2 e.spec.slot ++ toLe 2 (min e.count 65535) ++
    toLe 8 e.first ++ toLe 8 e.last ++ toLe 8 e.spec.arg

/-! ### Staging queues (R408, R409) -/

/-- Staging capacity of a path: 0 Ethernet, 1 SMBus, 2 + 4 port + function the events rings (R408, R439). -/
def pathCap (p : Nat) : Nat := if p = 0 then 4096 else 256

def isAlarmEv (e : Ev) : Bool := e.cls == 1 || e.cls == 4

/-- Alarms queue ahead of logs and traces (R409). -/
def queueEv (l : List Ev) (e : Ev) : List Ev :=
  if isAlarmEv e then l.takeWhile isAlarmEv ++ e :: l.dropWhile isAlarmEv else l ++ [e]

/-- Remove the oldest staged log, if any. -/
def dropOldestLog : List Ev → Option (List Ev)
  | [] => none
  | e :: t => if e.cls = 2 then some t else (dropOldestLog t).map (e :: ·)

def pathCount (q : Path) (k n : Nat) : Path := { q with ctr := bump q.ctr k n }

/-- Count dropped logs. -/
def pathLoseLogs (q : Path) (n : Nat) : Path :=
  pathCount { q with lostLogs := q.lostLogs + n, lost := min (2 ^ 32 - 1) (q.lost + n) } 4 n
/-- Count dropped traces. -/
def pathLoseTraces (q : Path) (n : Nat) : Path :=
  pathCount { q with lostTraces := q.lostTraces + n, lost := min (2 ^ 32 - 1) (q.lost + n) } 5 n

/-- Stage an event that fits (a detail DEDUCED, log 46). -/
def pathPut (q : Path) (e : Ev) : Path := pathCount { q with staged := queueEv q.staged e } 0 1

/-- Stage a log: at 75 % and above it replaces the oldest staged log (R409). -/
def pathLog (cap : Nat) (q : Path) (e : Ev) : Path :=
  if 4 * q.staged.length < 3 * cap then pathPut q e
  else
    match dropOldestLog q.staged with
    | some l => pathLoseLogs (pathPut { q with staged := l } e) 1
    | none => pathLoseLogs q 1

/-- Stage a trace: sampled at 1 in 2^k below 50 %, dropped from there on (R409) (a detail DEDUCED, log 46). -/
def pathTrace (cap : Nat) (q : Path) (e : Ev) : Path :=
  let kind := evKind e.spec
  let n := mget q.occ kind + 1
  let q := { q with occ := mput q.occ kind n }
  if cap ≤ 2 * q.staged.length then pathLoseTraces q 1
  else if n % 2 ^ q.k = 0 then pathPut q e
  else pathCount q 6 1

/-- Merge an alarm into an equal kind: one class-4 event with the count, first and last of both (R409). The slot,
partition and arg stay those of the event merged into (log 10). -/
def mergeEv (a e : Ev) : Ev :=
  { a with cls := 4, count := a.count + e.count, first := min a.first e.first, last := max a.last e.last }

/-- Merge `e` into the staged alarm of its kind, if one is staged (a detail DEDUCED, log 10). -/
def mergeInto (e : Ev) : List Ev → Option (List Ev)
  | [] => none
  | a :: t =>
    if isAlarmEv a && evKind a.spec == evKind e.spec then some (mergeEv a e :: t)
    else (mergeInto e t).map (a :: ·)

/-- Coalesce every alarm kind of a queue (R409). -/
def coalesceAll (l : List Ev) : List Ev :=
  l.foldl (fun acc e => if isAlarmEv e then (mergeInto e acc).getD (acc ++ [e]) else acc ++ [e]) []

/-- Stage an alarm: in the last 25 %, and coalesced by kind when the queue is full (R409) (a detail DEDUCED, log 10). -/
def pathAlarm (cap : Nat) (q : Path) (e : Ev) : Path :=
  if q.staged.length < cap then pathCount (pathPut q e) 2 1
  else
    let l := coalesceAll q.staged
    match mergeInto e l with
    | some l' => pathCount { q with staged := l' } 3 1
    | none =>
      if l.length < cap then pathCount (pathCount (pathPut { q with staged := l } { e with cls := 4 }) 3 1) 2 1
      else
        match dropOldestLog l with
        | some l' => pathLoseLogs (pathCount (pathPut { q with staged := l' } { e with cls := 4 }) 3 1) 1
        | none => q

/-- Stage an event by its class: 2 and 5 as logs, 3 as a trace, 1 and 4 as an alarm. -/
def pathStage (cap : Nat) (q : Path) (e : Ev) : Path :=
  if isAlarmEv e then pathAlarm cap q e
  else if e.cls = 3 then pathTrace cap q e
  else pathLog cap q e

/-- Deliver staged events of a function's events ring while the ring takes them (R408); `fuel` is the fill. -/
def drainEvents (port fn : Nat) : Nat → State → State
  | 0, s => s
  | fuel + 1, s =>
    match eventRing (s.fn port fn), (s.path (2 + fnIx port fn)).staged with
    | some r, e :: t =>
      let w := ringEvent s port fn r (evBytes e)
      if w.1 then
        drainEvents port fn fuel (w.2.updPath (2 + fnIx port fn) (fun q => pathCount { q with staged := t } 1 1))
      else w.2
    | _, _ => s

/-- Deliver what an events ring can take (a detail DEDUCED, log 43). -/
def pumpEvents (s : State) (port fn : Nat) : State :=
  drainEvents port fn (s.path (2 + fnIx port fn)).staged.length s

/-! ### Where an event goes (R408) -/

/-- Functions that receive an event: the partition's own, or PF0 of each present port when it is device-wide. -/
def evTargets (s : State) (part : Nat) : List (Nat × Nat) :=
  if part = 0xFF then ((List.range 2).filter (fun p => fnPresent s p 0)).map (fun p => (p, 0))
  else (fnOfPart s part).toList

/-- The policy stages an event of this unit and class at all (R79, R408). -/
def evSelected (s : State) (e : EvSpec) : Bool :=
  if e.cls = 2 then teLogMask s.run.telemetry / 2 ^ e.unit % 2 == 1
  else if e.cls = 3 then teTraceMask s.run.telemetry / 2 ^ e.unit % 2 == 1
  else true

/-- A path is enabled: by TELEMETRY.paths, and for a ring, with a ring bound that carries events (R408, R439). -/
def pathEnabled (s : State) (p : Nat) : Bool :=
  let paths := if s.hasCfg then tePaths s.run.telemetry else 0
  if p = 0 then paths / 2 % 2 == 1
  else if p = 1 then paths / 4 % 2 == 1
  else paths % 2 == 1 && (eventRing (mget s.fns (p - 2))).isSome

/-- Paths that carry an event of a class to these targets. -/
def evPaths (s : State) (cls part : Nat) : List Nat :=
  ((if cls = 3 then [0] else [0, 1]) ++ (evTargets s part).map (fun (t : Nat × Nat) => 2 + fnIx t.1 t.2)).filter (pathEnabled s)

/-- Enter an alarm in the alarm table (R408, R412). -/
def tableAlarm (l : List Alarm) (kind now : Nat) : List Alarm :=
  if l.any (fun a => a.kind == kind) then
    l.map (fun a => if a.kind = kind then { a with count := satAdd (2 ^ 32 - 1) a.count 1, last := now } else a)
  else l ++ [⟨kind, 1, now, now⟩]

/-- Stage an event on one path. While the TU restarts, logs and traces are lost and counted, and alarms are kept for
the resend (R400). -/
def stageOn (s : State) (e : Ev) (p : Nat) : State :=
  let s := s.updPath p (fun q =>
    if s.tu.restarting then
      (if isAlarmEv e then { q with staged := queueEv q.staged e }
       else if e.cls = 3 then pathLoseTraces q 1 else pathLoseLogs q 1)
    else pathStage (pathCap p) q e)
  let s := if p = 1 && isAlarmEv e then { s with tu := { s.tu with mpAlert := true } } else s
  if 2 ≤ p && !s.tu.restarting then pumpEvents s ((p - 2) / 4) ((p - 2) % 4) else s

/-- Set FN_IRQ_STATUS.alarm of the owner, or of PF0 on each present port (R408). -/
def alarmIrqs : List (Nat × Nat) → State → State
  | [], s => s
  | t :: l, s => alarmIrqs l (raiseIrq s t.1 t.2 irqAlarm)

def stageOnAll (e : Ev) : List Nat → State → State
  | [], s => s
  | p :: l, s => stageOnAll e l (stageOn s e p)

/-- Raise an event (R406 to R409). -/
def raiseEv (s : State) (e : EvSpec) : State :=
  let s :=
    if e.cls = 1 then
      let s := { s with aon := { s.aon with alarms := tableAlarm s.aon.alarms (evKind e) s.now } }
      alarmIrqs (evTargets s e.part) s
    else s
  if s.hasCfg && evSelected s e then stageOnAll ⟨e, e.cls, 1, s.now, s.now⟩ (evPaths s e.cls e.part) s else s

/-- Raise an event whose kind-specific argument the manual does not give: a free value (log 9). -/
def raiseOpen (s : State) (unit num cls part slot : Nat) : State :=
  raiseEv { s with freeIx := s.freeIx + 1 } ⟨unit, num, cls, part, slot, (Config.freeValue s.freeIx).toNat⟩

/-- Raise a device-wide alarm of a unit. -/
def raiseAlarm (s : State) (unit num : Nat) : State := raiseOpen s unit num 1 0xFF 0xFFFF

/-- Raise an alarm of a partition. -/
def raiseAlarmOf (s : State) (unit num part : Nat) : State := raiseOpen s unit num 1 part 0xFFFF

/-- Number of a unit's logs: below 0x80, and otherwise not given (R406, log 9). -/
def logNum (unit : Nat) : Nat := (Config.logNumber unit).toNat

/-- Raise a device-wide log of a unit (a detail DESIGN CHOICE, log 9). -/
def raiseLog (s : State) (unit : Nat) : State := raiseOpen s unit (logNum unit) 2 0xFF 0xFFFF

/-- Raise a log of a partition, with the slot it concerns (a detail DESIGN CHOICE, log 9). -/
def raiseLogOf (s : State) (unit part slot : Nat) : State := raiseOpen s unit (logNum unit) 2 part slot

/-- Deliver a unit to a ring, with the log of a unit larger than half the ring (R380). -/
def ringDeliver (s : State) (port fn ring : Nat) (data : Bytes) (frame : Option Nat) : Bool × State :=
  match ringUnit s port fn ring data frame with
  | (.served, s) => (true, s)
  | (.tooLarge, s) => (true, raiseLogOf s uDx ((partOfFn s port fn).getD 0xFF) 0xFFFF)
  | (.held, s) => (false, s)

end Sys2Proof.Machine
end

