-- ==== Sys2Proof/Machine/Bpm.lean ====
section
/-! DEFINITION. DRAM layout (R326), interleaving (R327, R328) and the Buffer Pool Manager (R341 to R348). -/

set_option Elab.async false

namespace Sys2Proof.Machine

/-! ### Layout (R326) -/

/-- Number of pools. -/
def poolCount : Nat := 16

/-- Bytes of the buffers of pool `k`. -/
def poolBytes (c : Sections) (k : Nat) : Nat :=
  if poCount (cfgPool c k) = 0 then 0 else poCount (cfgPool c k) * poSize (cfgPool c k)

/-- Start of the pools: after the context records and the staging area. -/
def poolsStart : Nat := 0x24000000

/-- Device address of the first buffer of pool `k`: pools lie in descending buffer size. -/
def poolBase (c : Sections) (k : Nat) : Nat :=
  poolsStart + sumNat ((List.range poolCount).map (fun j => if k < j then poolBytes c j else 0))

/-- End of the pools. -/
def poolsEnd (c : Sections) : Nat := poolsStart + sumNat ((List.range poolCount).map (poolBytes c))

/-- Bytes of the descriptor area of pool `k`. -/
def descBytes (c : Sections) (k : Nat) : Nat := ceilDiv (4 * poCount (cfgPool c k)) 4096 * 4096

/-- Pool that holds a device address, if any. -/
def poolOfAddr (c : Sections) (a : Nat) : Option Nat :=
  (List.range poolCount).find? (fun k => poolBase c k ≤ a && a < poolBase c k + poolBytes c k)

/-- Start of the buffer that holds a device address. -/
def bufferOf (c : Sections) (a : Nat) : Option Nat :=
  (poolOfAddr c a).map (fun k => poolBase c k + (a - poolBase c k) / poSize (cfgPool c k) * poSize (cfgPool c k))

/-- Stacks in service (R28): stack numbers in order. -/
def stacksUp (s : State) : List Nat := (if s.scu.stack0 then [0] else []) ++ (if s.scu.stack1 then [1] else [])

/-- n_log2 of R327: 6 with two stacks, 5 with one. -/
def nLog2 (s : State) : Nat := if s.scu.stack0 && s.scu.stack1 then 6 else 5

/-- Bytes of DRAM in service. -/
def dramBytes (s : State) : Nat := (stacksUp s).length * (24 * 2 ^ 30)

/-- Interleave group of a device address. -/
def groupOf (s : State) (a : Nat) : Nat := a / 2 ^ (8 + nLog2 s)

/-! ### Interleaving (R327) -/

def mixM1 : Nat := 0x9E3779B97F4A7C15
def mixM2 : Nat := 0xBF58476D1CE4E5B9

/-- mix of R327: 6 bits. -/
def mix (hi salt key : Nat) : Nat :=
  let x := (hi.xor (salt * 2 ^ 40)).xor key % 2 ^ 64
  let x := x * mixM1 % 2 ^ 64
  let x := x.xor (x / 2 ^ 29)
  let x := x * mixM2 % 2 ^ 64
  x / 2 ^ 58

/-- Where an address lies: pseudo-channel within the stacks in service, bank, row, byte in page (R327). -/
structure Place where
  pc : Nat
  bank : Nat
  row : Nat
  byte : Nat
  deriving DecidableEq, Repr

/-- locate of R327. -/
def locate (a salt key n : Nat) : Place :=
  let g := a / 256
  let hi := g / 2 ^ n
  let rb := hi / 4
  ⟨g.xor (mix hi salt key) % 2 ^ n, rb % 48, rb / 48, hi % 4 * 256 + a % 256⟩

/-- The device address of byte `off` of local granule `hi` of pseudo-channel `pc`: the inverse of `locate`. -/
def unlocate (pc hi off salt key n : Nat) : Nat := (hi * 2 ^ n + pc.xor (mix hi salt key) % 2 ^ n) * 256 + off

/-- Number of a pseudo-channel in the device: stack × 32 + pseudo-channel within the stack (R325). -/
def pcNumber (s : State) (pc : Nat) : Nat :=
  if s.scu.stack0 && s.scu.stack1 then pc else if s.scu.stack1 then 32 + pc else pc

/-- Physical cell of a place. -/
def placeCell (p : Place) : Nat := ((p.pc * 48 + p.bank) * 16384 + p.row) * 1024 + p.byte

/-- Physical cell of a device address under a salt. -/
def cellOfAddr (s : State) (a salt : Nat) : Nat := placeCell (locate a salt s.dram.key (nLog2 s))

/-- a detail DESIGN CHOICE, log 4. -/
def dramRead (s : State) (a salt n : Nat) : Bytes :=
  (List.range n).map (fun i => cellRead dramUnwritten s.dram.mem (cellOfAddr s (a + i) salt))

/-- Write bytes at device addresses from `a`. -/
def dramWrite (s : State) (a salt : Nat) : Bytes → State
  | [] => s
  | b :: t =>
    dramWrite { s with dram := { s.dram with mem := cellWrite dramUnwritten s.dram.mem (cellOfAddr s a salt) b } }
      (a + 1) salt t

/-- Zero `n` granules of 256 bytes from `a` (R342). -/
def dramZero (s : State) (a salt : Nat) : Nat → State
  | 0 => s
  | n + 1 =>
    dramZero { s with dram := { s.dram with mem := cellClear s.dram.mem (cellOfAddr s a salt) 256 } } (a + 256) salt n

/-! ### Descriptors (R341) -/

/-- Salt of a group: the one drawn last, else the one the pools were built with (a detail DESIGN CHOICE, log 6). -/
def groupSaltOf (s : State) (g : Nat) : Nat :=
  match mfind s.bpm.groupSalt g with
  | some p => p.2
  | none => (Config.initialSalt g).toNat

/-- Descriptor word: state, owners, last, salt. -/
def descWord (st owners last salt : Nat) : Word := wfield st 30 ||| wfield owners 21 ||| wfield last 17 ||| wfield salt 0

/-- Descriptor of the buffer at `a`. -/
def descOf (s : State) (a : Nat) : Word :=
  (mfind s.bpm.desc a).getD (descWord 0 0 15 (groupSaltOf s (groupOf s a)))

def dState (d : Word) : Nat := wbits d 31 30
def dOwners (d : Word) : Nat := wbits d 29 21
def dLast (d : Word) : Nat := wbits d 20 17
def dSalt (d : Word) : Nat := wbits d 15 0

def setDesc (s : State) (a : Nat) (d : Word) : State := { s with bpm := { s.bpm with desc := mput s.bpm.desc a d } }

/-- Salt that an access to an address uses: its buffer's, or 0 outside the pools (R328). -/
def saltOf (s : State) (a : Nat) : Nat :=
  match bufferOf s.run a with
  | none => 0
  | some b => dSalt (descOf s b)

/-! ### Counts of a pool -/

/-- Buffers of pool `k` whose descriptor satisfies `p`, of those not as at LOAD. -/
def poolCountIf (s : State) (k : Nat) (p : Word → Bool) : Nat :=
  countIf s.bpm.desc (fun e => poolOfAddr s.run e.1 == some k && p e.2)

/-- Buffers in state 3. -/
def poolQuar (s : State) (k : Nat) : Nat := poolCountIf s k (fun d => dState d == 3)

/-- Free buffers. -/
def poolFree (s : State) (k : Nat) : Nat := poCount (cfgPool s.run k) - poolCountIf s k (fun d => dState d != 0)

/-- Buffers charged to a requester. -/
def poolUsed (s : State) (who k : Nat) : Nat :=
  countIf s.bpm.charged (fun e => e.2 == who && poolOfAddr s.run e.1 == some k)

/-- Buffers held by a partition, shared ones included (R436). -/
def poolHeld (s : State) (p k : Nat) : Nat := poolCountIf s k (fun d => dOwners d / 2 ^ p % 2 == 1)

/-- Free buffers whose last owner is a partition and that are not yet zeroed (R436). -/
def poolUnzeroed (s : State) (k : Nat) : List Nat :=
  (mget s.bpm.freed k).filter (fun a => dLast (descOf s a) < 8 && !s.bpm.zeroed.contains a)

/-- pool_quota of a partition. -/
def quotaOf (s : State) (p k : Nat) : Nat := pePoolQuota (s.pe p) k

/-- Buffers that the partitions' unused quotas claim (R343). -/
def quotaClaims (s : State) (k : Nat) : Nat :=
  sumNat (s.run.partitions.map (fun e => pePoolQuota e k - poolUsed s (peId e) k))

/-- Count in one of R347's counters of a partition; the device's own requesters have none. -/
def bpmCount (s : State) (who k i : Nat) : State :=
  if who < 8 then s.updPart who (fun p => { p with bpm := bump p.bpm (k * 16 + i) 1 }) else s

/-! ### Warnings (R344) -/

/-- Raise or clear a pool's warning by its free buffers. -/
def poolWarn (s : State) (k : Nat) : State :=
  let e := cfgPool s.run k
  let free := poolFree s k
  if s.bpm.warn.contains k then
    if poWarn e * poCount e + 8 * poCount e ≤ free * 1024 then
      { s with bpm := { s.bpm with warn := s.bpm.warn.filter (· != k) } }
    else s
  else if free * 1024 < poWarn e * poCount e then
    raiseLog { s with bpm := { s.bpm with warn := s.bpm.warn ++ [k] } } uBpm
  else s

/-- Any pool's warning is raised. -/
def anyWarn (s : State) : Bool := !s.bpm.warn.isEmpty

/-! ### Allocation (R342, R343) -/

/-- First never-owned buffer of a pool from index `i`: one without a descriptor of its own; `fuel` bounds the search
(a detail DEDUCED, log 44). -/
def freshFrom (s : State) (k i : Nat) : Nat → Option Nat
  | 0 => none
  | fuel + 1 =>
    if poCount (cfgPool s.run k) ≤ i then none
    else
      let a := poolBase s.run k + i * poSize (cfgPool s.run k)
      if (mfind s.bpm.desc a).isNone then some a else freshFrom s k (i + 1) fuel

/-- The buffer that an allocation takes, and whether it must be zeroed first (R342) (a detail DEDUCED, log 44). -/
def chooseBuffer (s : State) (who k : Nat) : Option (Nat × Bool) :=
  let fr := mget s.bpm.freed k
  match fr.find? (fun a => dLast (descOf s a) == who) with
  | some a => some (a, false)
  | none =>
    match freshFrom s k (mget s.bpm.fresh k) (s.bpm.desc.length + 1) with
    | some a => some (a, false)
    | none =>
      match fr.find? (fun a => s.bpm.zeroed.contains a) with
      | some a => some (a, false)
      | none => fr.head?.map (fun a => (a, true))

/-- Every buffer of a group is free. -/
def groupFree (s : State) (g : Nat) : Bool :=
  s.bpm.desc.all (fun e => !(groupOf s e.1 == g && dState e.2 != 0))

/-- Salt of the group from which a buffer is allocated: drawn afresh where the epoch has risen since the group was
salted and every buffer of it is free (R328, R339) (a detail DESIGN CHOICE, log 5). -/
def saltGroup (s : State) (g : Nat) : Nat × State :=
  let ep := ((mfind s.bpm.groupSalt g).map (·.1)).getD 0
  if ep != s.dram.epoch && groupFree s g then
    let (v, s) := freeBits 16 s
    (v, { s with bpm := { s.bpm with groupSalt := mput s.bpm.groupSalt g (s.dram.epoch, v) } })
  else (groupSaltOf s g, s)

/-- Buffers of pool `k` that STAGE reserved of a partition's quota for slots still to be added (R47)
(a detail DEDUCED, log 32). -/
def poolReserved (s : State) (who k : Nat) : Nat := sumNat (s.moult.resv.map (fun p => mget p.2 (who * 16 + k)))

/-- Allocation is within the requester's quota, less what a Moult has reserved of it, or the device's reserve
(R47, R343, R346). -/
def allocWithin (s : State) (who k : Nat) : Bool :=
  if who < 8 then poolUsed s who k + poolReserved s who k < quotaOf s who k
  else poolUsed s 8 k < poReserve (cfgPool s.run k) || quotaClaims s k < poolFree s k

/-- Refuse an allocation, counting in counter `i`. -/
def allocRefuse (s : State) (who k i : Nat) : State :=
  bpmCount { s with bpm := { s.bpm with answer := none } } who k i

/-- Allocate a buffer of pool `k` for a requester: its address, or nothing when refused (R342, R343, R346). A buffer whose group
takes a new salt is zeroed too, since it would else hold bytes of its group's other owners (a detail DEDUCED, log 44). -/
def bpmAlloc (s : State) (who k : Nat) : Option Nat × State :=
  if !allocWithin s who k then (none, allocRefuse s who k 2)
  else
    match chooseBuffer s who k with
    | none => (none, allocRefuse s who k 3)
    | some (a, zero) =>
      let old := groupSaltOf s (groupOf s a)
      let (salt, s) := saltGroup s (groupOf s a)
      let s := if zero || salt != old then bpmCount (dramZero s a salt (poSize (cfgPool s.run k) / 256)) who k 6 else s
      let size := poSize (cfgPool s.run k)
      let i := (a - poolBase s.run k) / size
      let s := setDesc s a (descWord 1 (2 ^ who) (dLast (descOf s a)) salt)
      let s := { s with bpm := { s.bpm with
        charged := mput s.bpm.charged a who
        freed := mupd s.bpm.freed k (·.filter (· != a))
        zeroed := s.bpm.zeroed.filter (· != a)
        fresh := mupd s.bpm.fresh k (fun n => if n ≤ i && (mget s.bpm.freed k).all (· != a) then i + 1 else n)
        answer := some (a, salt) } }
      (some a, poolWarn (bpmCount s who k 0) k)

/-! ### Quarantine, free and share (R345, R346) -/

/-- Put a buffer into quarantine: at once when it is free, else when its last owner frees it (R345). -/
def quarantine (s : State) (a : Nat) : State :=
  let d := descOf s a
  match poolOfAddr s.run a with
  | none => s
  | some k =>
    if dState d = 3 then s
    else if dState d = 0 then
      let s := setDesc s a (descWord 3 0 (dLast d) (dSalt d))
      let s := { s with bpm := { s.bpm with
        freed := mupd s.bpm.freed k (·.filter (· != a)), zeroed := s.bpm.zeroed.filter (· != a) } }
      poolWarn s k
    else if s.bpm.pendingQuar.contains a then s
    else { s with bpm := { s.bpm with pendingQuar := s.bpm.pendingQuar ++ [a] } }

/-- Clear one owner's bit; the buffer returns to its pool, or enters quarantine, when none remains (R345). -/
def clearOwner (s : State) (who a k : Nat) : State :=
  let d := descOf s a
  let owners := dOwners d - (if dOwners d / 2 ^ who % 2 = 1 then 2 ^ who else 0)
  if owners ≠ 0 then setDesc s a (descWord (dState d) owners (dLast d) (dSalt d))
  else
    let s := { s with bpm := { s.bpm with charged := mdel s.bpm.charged a } }
    if s.bpm.pendingQuar.contains a then
      let s := setDesc s a (descWord 3 0 who (dSalt d))
      poolWarn { s with bpm := { s.bpm with pendingQuar := s.bpm.pendingQuar.filter (· != a) } } k
    else
      let s := setDesc s a (descWord 0 0 who (dSalt d))
      let s := { s with bpm := { s.bpm with freed := mupd s.bpm.freed k (a :: ·) } }
      poolWarn (bpmCount s who k 1) k

/-- A partition named in an event of a requester: device-wide for the device's own. -/
def whoPart (who : Nat) : Nat := if who < 8 then who else 0xFF

/-- The address is a buffer's start: its pool. -/
def bufferStart (s : State) (a : Nat) : Option Nat :=
  if bufferOf s.run a = some a then poolOfAddr s.run a else none

/-- Free a buffer (R345, R346). -/
def bpmRelease (s : State) (who a : Nat) : State :=
  match bufferStart s a with
  | none => raiseLogOf (bpmCount s who ((poolOfAddr s.run a).getD 0) 5) uBpm (whoPart who) 0xFFFF
  | some k =>
    let d := descOf s a
    if dState d = 0 then raiseLogOf (bpmCount s who k 4) uBpm (whoPart who) 0xFFFF
    else if dOwners d / 2 ^ who % 2 = 0 then raiseLogOf (bpmCount s who k 5) uBpm (whoPart who) 0xFFFF
    else clearOwner s who a k

/-- Share a buffer with further owners (R345, R346). -/
def bpmShareOp (s : State) (who a owners : Nat) : State :=
  match bufferStart s a with
  | none => raiseLogOf (bpmCount s who ((poolOfAddr s.run a).getD 0) 5) uBpm (whoPart who) 0xFFFF
  | some k =>
    let d := descOf s a
    if dOwners d / 2 ^ who % 2 = 0 || dState d = 0 then
      raiseLogOf (bpmCount s who k 5) uBpm (whoPart who) 0xFFFF
    else setDesc s a (descWord 2 ((dOwners d ||| owners) % 512) (dLast d) (dSalt d))

/-- Free a list of buffers of one requester. -/
def releaseAll (who : Nat) : List Nat → State → State
  | [], s => s
  | a :: t, s => releaseAll who t (bpmRelease s who a)

/-- Clear a partition's bit in every descriptor (R346, R388 step 4). -/
def clearPartition (p : Nat) : List Nat → State → State
  | [], s => s
  | a :: t, s =>
    let s :=
      match poolOfAddr s.run a with
      | none => s
      | some k => if dOwners (descOf s a) / 2 ^ p % 2 = 1 then clearOwner s p a k else s
    clearPartition p t s

/-- The smallest pool with nonzero count that holds `n` bytes in one buffer. -/
def smallestPool (c : Sections) (n : Nat) : Option Nat :=
  (List.range poolCount).find? (fun k => poCount (cfgPool c k) != 0 && n ≤ poSize (cfgPool c k))

/-- The largest pool with nonzero count. -/
def largestPool (c : Sections) : Option Nat :=
  ((List.range poolCount).reverse).find? (fun k => poCount (cfgPool c k) != 0)

/-- Allocate `n` buffers of a pool for a requester: the addresses got, all or as many as there were. -/
def allocMany (who k : Nat) : Nat → State → List Nat × State
  | 0, s => ([], s)
  | n + 1, s =>
    match bpmAlloc s who k with
    | (none, s) => ([], s)
    | (some a, s) =>
      let r := allocMany who k n s
      (a :: r.1, r.2)

/-! ### Commands -/

/-- BPM_ALLOCATE (R342, R343, R346): the answer is left in the BPM's answer register. -/
def execBpmAllocate (who : Requester) (pool : Nat) (s : State) : Host.Outcome State Fault Refusal :=
  done (bpmAlloc s who pool).2

/-- BPM_SHARE (R345, R346). -/
def execBpmShare (who : Requester) (addr owners : Nat) (s : State) : Host.Outcome State Fault Refusal :=
  done (bpmShareOp s who addr owners)

/-- BPM_ZERO_IDLE (R342): the fill engine zeroes one free buffer of the pool whose last owner is a partition
(a detail DEDUCED, log 44). -/
def execBpmZeroIdle (pool : Nat) (s : State) : Host.Outcome State Fault Refusal :=
  match poolUnzeroed s pool with
  | [] => done s
  | a :: _ =>
    let s := dramZero s a (dSalt (descOf s a)) (poSize (cfgPool s.run pool) / 256)
    done { s with bpm := { s.bpm with zeroed := s.bpm.zeroed ++ [a] } }

end Sys2Proof.Machine
end

