-- ==== Sys2Proof/Machine/Graph.lean ====
section
/-! DEFINITION. Reading a graph image: header, tensors, layers, stacks, Instars, blobs and the adaptation head
(R85 to R105), and the shapes that R88 gives. -/

set_option Elab.async false

namespace Sys2Proof.Machine

/-! ### Header (R85) -/

def gRole (g : Bytes) : Nat := byteAt g 6
def gHasAdapt (g : Bytes) : Bool := byteAt g 7 % 2 = 1
def gTensors (g : Bytes) : Nat := le16 g 8
def gLayers (g : Bytes) : Nat := le16 g 0xA
def gStacks (g : Bytes) : Nat := le16 g 0xC
def gInstars (g : Bytes) : Nat := byteAt g 0xE
def gBlobs (g : Bytes) : Nat := le16 g 0x10
def gTables (g : Bytes) : Nat := le16 g 0x12
/-- Default clip threshold; 0 means 64. -/
def gClip (g : Bytes) : Nat := if le16 g 0x14 = 0 then 64 else le16 g 0x14

/-! ### Tensor descriptors (R87) -/

def gTensor (g : Bytes) (i : Nat) : Bytes := slice g (le32 g 0x18 + 32 * i) 32
def tKind (t : Bytes) : Nat := byteAt t 2
def tFmt (t : Bytes) : Nat := byteAt t 3
def tChannels (t : Bytes) : Nat := le16 t 4
def tAbs (t : Bytes) : Bool := byteAt t 6 = 1
def tHNum (t : Bytes) : Nat := le16 t 8
def tHDen (t : Bytes) : Nat := le16 t 0xA
def tWNum (t : Bytes) : Nat := le16 t 0xC
def tWDen (t : Bytes) : Nat := le16 t 0xE
def tQblob (t : Bytes) : Nat := le16 t 0x10
def tPerChannel (t : Bytes) : Bool := byteAt t 0x12 = 1
def tHad (t : Bytes) : Nat := byteAt t 0x13
def tTag (t : Bytes) : Nat := le16 t 0x14
def tClip (g t : Bytes) : Nat := if le16 t 0x16 = 0 then gClip g else le16 t 0x16
def tBlob (t : Bytes) : Nat := le16 t 0x18

/-- Height of a tensor where the working height is `h` (R88). -/
def tH (t : Bytes) (h : Nat) : Nat := if tAbs t then tHNum t else ceilDiv (h * tHNum t) (tHDen t)
/-- Width of a tensor where the working width is `w` (R88). -/
def tW (t : Bytes) (w : Nat) : Nat := if tAbs t then tWNum t else ceilDiv (w * tWNum t) (tWDen t)

/-- The tensor has a quantization table: its format is an integer format of at most 16 bits, or FP8 (R178). -/
def quantized (fmt : Nat) : Bool := fmt = 1 || fmt = 2 || fmt = 3 || fmt = 4 || fmt = 6 || fmt = 7

/-- Entries of a tensor's table (R181). -/
def tEntries (t : Bytes) : Nat := if tPerChannel t then tChannels t else 1

/-- A re-derivable tensor: quantized, of kind 1, 4 or 5 (R187). -/
def rederivable (t : Bytes) : Bool := quantized (tFmt t) && (tKind t = 1 || tKind t = 4 || tKind t = 5)

/-! ### Layers (R95, R96) -/

def gLayer (g : Bytes) (i : Nat) : Bytes := slice g (le32 g 0x1C + 64 * i) 64
def lOp (l : Bytes) : Nat := byteAt l 0
def lStack (l : Bytes) : Nat := le16 l 2
def lIn (l : Bytes) (i : Nat) : Nat := le16 l (4 + 2 * i)
def lOut (l : Bytes) : Nat := le16 l 0xC
def lTarget (l : Bytes) : Bool := le16 l 0xE % 2 = 1
/-- Parameter field `j`: unsigned 16 bits (R95). -/
def lP (l : Bytes) (j : Nat) : Nat := le16 l (0x10 + 2 * j)
/-- An FP32 parameter in fields `j` and `j + 1`, low half first. -/
def lF (l : Bytes) (j : Nat) : Nat := lP l j + 65536 * lP l (j + 1)
/-- Inputs of a layer in order; unused slots are 0xFFFF. -/
def lInputs (l : Bytes) : List Nat := ((List.range 4).map (lIn l)).filter (· != 0xFFFF)

def opConv : Nat := 1
def opPool : Nat := 2
def opResample : Nat := 3
def opWarp : Nat := 4
def opCorr : Nat := 5
def opMatmul : Nat := 6
def opAttention : Nat := 7
def opEltwise : Nat := 8
def opTable : Nat := 9
def opHadamard : Nat := 0xA
def opReduce : Nat := 0xB
def opConcat : Nat := 0xC
def opSlice : Nat := 0xD
def opDsearch : Nat := 0xE

/-- CONV parameters in order (R96). -/
def cvKh (l : Bytes) : Nat := lP l 0
def cvKw (l : Bytes) : Nat := lP l 1
def cvSh (l : Bytes) : Nat := lP l 2
def cvSw (l : Bytes) : Nat := lP l 3
def cvDh (l : Bytes) : Nat := lP l 4
def cvDw (l : Bytes) : Nat := lP l 5
def cvPt (l : Bytes) : Nat := lP l 6
def cvPb (l : Bytes) : Nat := lP l 7
def cvPl (l : Bytes) : Nat := lP l 8
def cvPr (l : Bytes) : Nat := lP l 9
def cvGroups (l : Bytes) : Nat := lP l 10
def cvPadMode (l : Bytes) : Nat := lP l 11

/-- The CONV runs direct (R97). -/
def convDirect (l : Bytes) : Bool := cvKh l ≤ 7 && cvKw l ≤ 7

/-- POOL: mode, kh, kw, sh, sw, four pads in the order top, bottom, left, right. -/
def plMode (l : Bytes) : Nat := lP l 0
def plKh (l : Bytes) : Nat := lP l 1
def plKw (l : Bytes) : Nat := lP l 2
def plSh (l : Bytes) : Nat := lP l 3
def plSw (l : Bytes) : Nat := lP l 4
def plPt (l : Bytes) : Nat := lP l 5
def plPb (l : Bytes) : Nat := lP l 6
def plPl (l : Bytes) : Nat := lP l 7
def plPr (l : Bytes) : Nat := lP l 8

/-- Extended size of a filter dimension (R202). -/
def extSize (k : Nat) : Nat := if k = 8 then 9 else k
/-- Step of tiles along an axis. -/
def fftStep (k s : Nat) : Nat := (65 - extSize k) - (65 - extSize k) % s

/-- Size of a windowed output along one axis (R96); 0 where the window does not fit. -/
def convOut (n padA padB k d s : Nat) : Nat :=
  if n + padA + padB < (k - 1) * d + 1 then 0 else (n + padA + padB - (k - 1) * d - 1) / s + 1

/-! ### Stacks, Instars, blobs, tables, adaptation head -/

def gStack (g : Bytes) (i : Nat) : Bytes := slice g (le32 g 0x20 + 16 * i) 16
def skFirst (k : Bytes) : Nat := le16 k 2
def skLast (k : Bytes) : Nat := le16 k 4
def gInstar (g : Bytes) (i : Nat) : Bytes := slice g (le32 g 0x24 + 16 * i) 16
def isHeight (r : Bytes) : Nat := le16 r 2
def isWidth (r : Bytes) : Nat := le16 r 4
def gBlob (g : Bytes) (i : Nat) : Bytes := slice g (le32 g 0x28 + 16 * i) 16
def blOffset (b : Bytes) : Nat := le32 b 0
def blStored (b : Bytes) : Nat := le32 b 4
def blLength (b : Bytes) : Nat := le32 b 8
def blEncoding (b : Bytes) : Nat := byteAt b 0xC
def gTable (g : Bytes) (i : Nat) : Bytes := slice g (le32 g 0x2C + 288 * i) 288
def gAdapt (g : Bytes) : Bytes := slice g (le32 g 0x30) 64

def adCount (a : Bytes) : Nat := byteAt a 0
def adGradFmt (a : Bytes) : Nat := byteAt a 2
def adDown (a : Bytes) : Nat := byteAt a 3
def adTarget (a : Bytes) (i : Nat) : Nat := le16 a (4 + 2 * i)
def adTargets (a : Bytes) : List Nat := (List.range (adCount a)).map (adTarget a)
def adRate (a : Bytes) : Nat := le32 a 0x14
def adTemporal (a : Bytes) : Nat := le32 a 0x18
def adInterval (a : Bytes) : Nat := le16 a 0x1C

/-! ### Blob decoding (R94) -/

/-- Bytes of the bitmap of a zero-unit blob of `n` decoded bytes. -/
def zuBitmap (n : Nat) : Nat := roundUp (ceilDiv (ceilDiv n 256) 8) 16

/-- Length of unit `i` of `n` decoded bytes. -/
def zuUnit (n i : Nat) : Nat := min 256 (n - 256 * i)

/-- Unit `i` is present in a bitmap. -/
def zuPresent (bm : Bytes) (i : Nat) : Bool := byteAt bm (i / 8) / 2 ^ (i % 8) % 2 = 1

/-- Decode the units of a zero-unit blob. -/
def zuDecode (bm : Bytes) (n : Nat) : Nat → Nat → Bytes → Bytes
  | 0, _, _ => []
  | k + 1, i, rest =>
    if zuPresent bm i then rest.take (zuUnit n i) ++ zuDecode bm n k (i + 1) (rest.drop (zuUnit n i))
    else zeros (zuUnit n i) ++ zuDecode bm n k (i + 1) rest

/-- The decoded bytes of a blob. -/
def blobData (g : Bytes) (i : Nat) : Bytes :=
  let b := gBlob g i
  let st := slice g (blOffset b) (blStored b)
  if blEncoding b = 0 then st
  else
    let m := zuBitmap (blLength b)
    zuDecode (st.take m) (blLength b) (ceilDiv (blLength b) 256) 0 (st.drop m)

/-! ### Codes packed in bytes (R86) -/

/-- Code `i` of a packed run of codes of `bits` bits: INT4 two to a byte, the lower index in bits [3:0]. -/
def packedCode (b : Bytes) (bits i : Nat) : Nat :=
  if bits = 4 then byteAt b (i / 2) / (if i % 2 = 0 then 1 else 16) % 16
  else leAt b (i * (bits / 8)) (bits / 8)

/-- Bytes of `n` codes of `bits` bits. -/
def packedBytes (n bits : Nat) : Nat := ceilDiv (n * bits) 8

/-! ### Lookups -/

/-- Graph image of an instance. -/
def cfgGraph (c : Sections) (i : Nat) : Option Bytes := mfind c.graphs i

/-- Graph image of a stream's model `m`; none where the stream has no such model. -/
def streamGraph (c : Sections) (e : Bytes) (m : Nat) : Option Bytes := cfgGraph c (seModel e m)

/-- Layers of a graph in record order. -/
def gLayerList (g : Bytes) : List Bytes := (List.range (gLayers g)).map (gLayer g)
/-- Tensors of a graph in order. -/
def gTensorList (g : Bytes) : List Bytes := (List.range (gTensors g)).map (gTensor g)
/-- Tensor numbers of a kind, in descriptor order. -/
def tensorsOfKind (g : Bytes) (k : Nat) : List Nat := (List.range (gTensors g)).filter (fun i => tKind (gTensor g i) = k)
/-- Index of the layer that produces a tensor. -/
def producerOf (g : Bytes) (t : Nat) : Option Nat := (List.range (gLayers g)).find? (fun i => lOut (gLayer g i) = t)
/-- Layers that read a tensor. -/
def readersOf (g : Bytes) (t : Nat) : List Nat :=
  (List.range (gLayers g)).filter (fun i => (lInputs (gLayer g i)).contains t)

/-- The caching layer: an ATTENTION with cache_frames above 0 (R241). -/
def cachingLayer (g : Bytes) : Option Nat :=
  (List.range (gLayers g)).find? (fun i => lOp (gLayer g i) = opAttention && 0 < lP (gLayer g i) 2)

/-- cache_frames of a graph's caching layer, 0 without one. -/
def cacheFrames (g : Bytes) : Nat :=
  match cachingLayer g with
  | none => 0
  | some i => lP (gLayer g i) 2

/-- Bytes E of one ring entry (R242): tokens × (channels of K + channels of V) × bits / 8, rounded up to 64. -/
def ringEntryBytes (g : Bytes) : Nat :=
  match cachingLayer g with
  | none => 0
  | some i =>
    let l := gLayer g i
    let k := gTensor g (lIn l 1)
    let v := gTensor g (lIn l 2)
    roundUp (packedBytes (lP l 3 * (tChannels k + tChannels v)) (fmtBits (tFmt k))) 64

/-- First Instar that holds a working picture; the last where none does (R92). -/
def instarFor (g : Bytes) (h w : Nat) : Nat :=
  ((List.range (gInstars g)).find? (fun i => h ≤ isHeight (gInstar g i) && w ≤ isWidth (gInstar g i))).getD
    (gInstars g - 1)

/-! ### Adapter parameters (R105, R268) -/

/-- Rows and columns of a tensor read as a matrix: (H·W) rows by C columns (R96). -/
def matRows (t : Bytes) (h w : Nat) : Nat := tH t h * tW t w

/-- Reduction length K of a MATMUL layer at a working size. -/
def mmK (g l : Bytes) (h w : Nat) : Nat :=
  let a := gTensor g (lIn l 0)
  if lP l 0 = 1 then matRows a h w else tChannels a

/-- Count of output columns N of a MATMUL layer at a working size. -/
def mmN (g l : Bytes) (h w : Nat) : Nat :=
  let b := gTensor g (lIn l 1)
  if lP l 1 = 1 then matRows b h w else tChannels b

/-- Parameters of A of a target: 8 × K of R105. -/
def targetA (g : Bytes) (i h w : Nat) : Nat :=
  let l := gLayer g i
  if lOp l = opConv then 8 * (tChannels (gTensor g (lIn l 0)) * cvKh l * cvKw l / cvGroups l) else 8 * mmK g l h w

/-- Parameters of B of a target. -/
def targetB (g : Bytes) (i h w : Nat) : Nat :=
  let l := gLayer g i
  if lOp l = opConv then 8 * tChannels (gTensor g (lOut l)) else 8 * mmN g l h w

/-- Adapter parameter count P of a teacher (R105), at its first Instar. -/
def adapterParams (g : Bytes) : Nat :=
  if gHasAdapt g then
    let h := isHeight (gInstar g 0)
    let w := isWidth (gInstar g 0)
    sumNat ((adTargets (gAdapt g)).map (fun i => targetA g i h w + targetB g i h w))
  else 0

/-! ### Context records of a stream (R235, R237) -/

/-- Bytes of the derived tables of one graph: 16 + 4n for each re-derivable tensor (R193). -/
def graphTableBytes (g : Bytes) : Nat :=
  sumNat ((gTensorList g).map (fun t => if rederivable t then 16 + 4 * tEntries t else 0))

/-- Bytes Qb of a stream's derived tables over its graphs. -/
def streamTableBytes (c : Sections) (e : Bytes) : Nat :=
  sumNat ((List.range 5).map (fun m => match streamGraph c e m with
    | none => 0
    | some g => graphTableBytes g))

/-- cache_frames C of a stream's temporal model. -/
def streamCache (c : Sections) (e : Bytes) : Nat :=
  match streamGraph c e 3 with
  | none => 0
  | some g => cacheFrames g

/-- Cache pointer records. -/
def ptrRecords (c : Sections) (e : Bytes) : Nat :=
  if streamCache c e = 0 then 0 else ceilDiv (streamCache c e + 1) 8

/-- Quantization records. -/
def quantRecords (c : Sections) (e : Bytes) : Nat := ceilDiv (streamTableBytes c e) 240

/-- Adapter parameter count of a stream. -/
def streamParams (c : Sections) (e : Bytes) : Nat :=
  match streamGraph c e 0 with
  | none => 0
  | some g => adapterParams g

/-- Adapter head and data records; only with flags bit 0. -/
def adapterRecords (c : Sections) (e : Bytes) : Nat :=
  if seAdapter e then 1 + 2 * ceilDiv (streamParams c e) 60 else 0

/-- Records of a run that are not track records. -/
def fixedRecords (c : Sections) (e : Bytes) : Nat := 1 + ptrRecords c e + quantRecords c e + adapterRecords c e

/-- Minimum ctx_records of a stream (R237). -/
def minRecords (c : Sections) (e : Bytes) : Nat := fixedRecords c e + (if seDetector e then 16 else 0)

/-- Track records of a stream's run. -/
def trackRecords (c : Sections) (e : Bytes) : Nat := seCtxRecords e - fixedRecords c e

/-- Ordinals at which each part of a run starts (R235). -/
def ordPtr : Nat := 1
def ordQuant (c : Sections) (e : Bytes) : Nat := 1 + ptrRecords c e
def ordHead (c : Sections) (e : Bytes) : Nat := ordQuant c e + quantRecords c e
def ordTrack (c : Sections) (e : Bytes) : Nat := fixedRecords c e

end Sys2Proof.Machine
end

