-- ==== Sys2Proof/Machine/Quant.lean ====
section
/-! DEFINITION. Quantization tables and codes (R178 to R186), statistics (R187, R188) and re-derivation (R189 to
R193). -/

set_option Elab.async false

namespace Sys2Proof.Machine

/-! ### Tables (R179, R181) -/

/-- Table entry from its 32-bit word. -/
def qentryOf (fmt v : Nat) : QEntry :=
  let z : Int := if fmt = 6 || fmt = 7 then (v / 2 ^ 16 % 256 : Nat) else toSigned 16 (v / 2 ^ 16)
  ⟨z, v / 2 ^ 8 % 2 = 1, v % 256⟩

/-- Word of a table entry (R181). -/
def qentryWord (e : QEntry) : Nat := ofSigned 16 e.zero * 2 ^ 16 + (if e.const then 256 else 0) + e.scaleCode % 256

/-- Table from a quantization blob (R181). -/
def qtableOf (b : Bytes) : QTable :=
  let fmt := byteAt b 2
  ⟨le16 b 0, (List.range (le16 b 4)).map (fun i => qentryOf fmt (le32 b (16 + 4 * i)))⟩

/-- Bytes of a table as a blob or in a quantization record (R181, R193). -/
def qtableBytes (t : Bytes) (q : QTable) : Bytes :=
  toLe 2 q.scale ++ toLe 1 (tFmt t) ++ toLe 1 (if tPerChannel t then 1 else 0) ++ toLe 2 q.entries.length ++ zeros 10 ++
    q.entries.flatMap (fun e => toLe 4 (qentryWord e))

/-- Scale s of an entry with code `c` under tensor scale `s16` (R179): exact in FP32. -/
def scaleVal (s16 c : Nat) : Fl :=
  mulX (flDecode fmtFP16 s16) (.fin false (16 + c % 16) (-((c / 16 % 16 : Nat) : Int) - 5))

/-- Entry that channel `c` uses. -/
def qentryFor (q : QTable) (c : Nat) : QEntry := q.entries.getD (if q.entries.length = 1 then 0 else c) default

def qScale (q : QTable) (c : Nat) : Fl := scaleVal q.scale (qentryFor q c).scaleCode
/-- r = rne_fp32(1 / s) (R179). -/
def qRecip (q : QTable) (c : Nat) : Fl := frcp (qScale q c)

/-! ### Quantize and dequantize (R180, R185, R191) -/

/-- The format is FP8. -/
def isFp8 (fmt : Nat) : Bool := fmt = 6 || fmt = 7

/-- quantize of R180: the code, and whether the element is clipped. -/
def quantize (x r : Fl) (z : Int) (fmt : Nat) : Nat × Bool :=
  let y := fmul x r
  if isFp8 fmt then
    let c := convTo fmt y
    (c.code, !flIsFinite x || c.sat)
  else
    let i := match y with
      | .nan => 0
      | .inf n => if n then -(2 ^ 62 : Int) else 2 ^ 62
      | y => clampInt (-(2 ^ 62)) (2 ^ 62) (flRoundEven y)
    let q := clampInt (fmtMin fmt) (fmtMax fmt) (i + z)
    (intCode fmt q, !flIsFinite x || q != i + z)

/-- Real value of a constant entry: S times z (R191) (a detail DEDUCED, log 12). -/
def constVal (fmt : Nat) (q : QTable) (e : QEntry) : Fl :=
  let z := if isFp8 fmt then codeVal fmt e.zero.toNat else flInt e.zero
  fmul (flDecode fmtFP16 q.scale) z

/-- Write one element of a quantized tensor: its code, and whether it counts as clipped (R180, R191). -/
def qWrite (fmt : Nat) (q : QTable) (c : Nat) (x : Fl) : Nat × Bool :=
  let e := qentryFor q c
  if e.const then
    let d := addX x (flNeg (constVal fmt q e))
    let half := mulX (flDecode fmtFP16 q.scale) (flPow2 (-1))
    (if isFp8 fmt then e.zero.toNat % 256 else intCode fmt e.zero, !flIsFinite x || flLt half (flAbs d))
  else quantize x (qRecip q c) e.zero fmt

/-- Read one element of a quantized tensor on the vector unit (R185, R191). -/
def qRead (fmt : Nat) (q : QTable) (c code : Nat) : Fl :=
  let e := qentryFor q c
  if e.const then constVal fmt q e
  else if isFp8 fmt then fmul (qScale q c) (codeVal fmt code)
  else fmul (qScale q c) (flInt (codeInt fmt code - e.zero))

/-! ### Rotation (R186) -/

/-- Parity of the bits of a number, `fuel` bits. -/
def oddBits : Nat → Nat → Bool
  | 0, _ => false
  | k + 1, n => (n % 2 == 1) != oddBits k (n / 2)

/-- 2^(−h/2) rounded to FP32. -/
def hadFactor (h : Nat) : Fl :=
  if h % 2 = 0 then flPow2 (-((h / 2 : Nat) : Int)) else fsqrt (flPow2 (-(h : Int)))

/-- rotate of R186 on a run of 2^h channels. -/
def rotateRun (v : List Fl) (h : Nat) : List Fl :=
  let n := 2 ^ h
  (List.range n).map (fun i =>
    let s := fpReduce flZero ((List.range n).map (fun j =>
      let x := v.getD j flZero
      if oddBits 16 (Nat.land i j) then flNeg x else x))
    fmul s (hadFactor h))

/-- Rotate every run of 2^h channels; `fuel` is the number of runs. -/
def rotateAll (h : Nat) : Nat → List Fl → List Fl
  | 0, _ => []
  | k + 1, v => rotateRun (v.take (2 ^ h)) h ++ rotateAll h k (v.drop (2 ^ h))

/-- Rotate the channels of one position where the tensor is rotated. -/
def rotateChannels (h : Nat) (v : List Fl) : List Fl := if h = 0 then v else rotateAll h (v.length / 2 ^ h) v

/-! ### Figures (R187) -/

def figZero : Figures := ⟨0, 0, 0, none, none, 0, 0⟩

/-- Least of two optional FP32 values, as codes. -/
def loMin (a : Option Nat) (x : Nat) : Option Nat :=
  match a with
  | none => some x
  | some y => some (if flLt (f32 x) (f32 y) then x else y)

def hiMax (a : Option Nat) (x : Nat) : Option Nat :=
  match a with
  | none => some x
  | some y => some (if flLt (f32 y) (f32 x) then x else y)

/-- Size of a written code for cmin and cmax: its value, or for FP8 its magnitude, which of an infinity is above every
finite one. -/
def codeMag (fmt code : Nat) : Int :=
  if isFp8 fmt then (if flIsInf (codeVal fmt code) then 2 ^ 16 else flFloor (flAbs (codeVal fmt code))) else codeInt fmt code

/-- Count one written element: its value, its code, and whether it is clipped or saturated, and not finite (R167, R187). -/
def figAdd (fmt : Nat) (f : Figures) (x : Fl) (code : Nat) (clipped nonfin : Bool) : Figures :=
  let m := codeMag fmt code
  let fin := flIsFinite x
  { count := f.count + 1
    clipped := f.clipped + (if clipped then 1 else 0)
    nonfinite := f.nonfinite + (if nonfin then 1 else 0)
    lo := if fin then loMin f.lo (f32Code x) else f.lo
    hi := if fin then hiMax f.hi (f32Code x) else f.hi
    cmin := if f.count = 0 then m else min f.cmin m
    cmax := if f.count = 0 then m else max f.cmax m }

/-- Merge the figures of a tile into a picture's (R188). -/
def figMerge (a b : Figures) : Figures :=
  { count := a.count + b.count
    clipped := a.clipped + b.clipped
    nonfinite := a.nonfinite + b.nonfinite
    lo := match b.lo with
      | none => a.lo
      | some x => loMin a.lo x
    hi := match b.hi with
      | none => a.hi
      | some x => hiMax a.hi x
    cmin := if a.count = 0 then b.cmin else if b.count = 0 then a.cmin else min a.cmin b.cmin
    cmax := if a.count = 0 then b.cmax else if b.count = 0 then a.cmax else max a.cmax b.cmax }

/-- Merge two lists of per-channel figures. -/
def figsMerge : List Figures → List Figures → List Figures
  | [], b => b
  | a, [] => a
  | x :: a, y :: b => figMerge x y :: figsMerge a b

/-! ### Re-derivation (R189 to R191) -/

/-- Span D of R178. -/
def fmtSpan (fmt : Nat) : Int :=
  if fmt = 1 then 15 else if fmt = 4 then 65535 else if fmt = 6 then 448 else if fmt = 7 then 57344 else 255

/-- FP32 1.125 divided by an integer, rounded. -/
def headroom (d : Int) : Fl := fdiv (.fin false 9 (-3)) (flInt d)

/-- The clip test of R189. -/
def clipTest (theta : Nat) (f : Figures) : Bool := theta * f.count < f.clipped * 65536

/-- The underuse tests of R189. -/
def underuse (fmt : Nat) (f : Figures) : Bool :=
  if isFp8 fmt then 16 * f.cmax < fmtSpan fmt else 16 * (f.cmax - f.cmin) < fmtMax fmt - fmtMin fmt

/-- An entry needs re-derivation from its figures. -/
def needsRederive (fmt theta : Nat) (e : QEntry) (f : Figures) : Bool :=
  if f.lo.isNone then false
  else if e.const then clipTest theta f
  else clipTest theta f || underuse fmt f

/-- required of R189. -/
def reqScale (lo hi : Fl) (fmt : Nat) (sym : Bool) : Fl :=
  if sym || isFp8 fmt then
    let m := fmax (flAbs lo) (flAbs hi)
    fmul m (headroom (if isFp8 fmt then fmtSpan fmt else fmtMax fmt))
  else
    let lo2 := if flLt lo flZero then lo else flZero
    let hi2 := if flLt flZero hi then hi else flZero
    fmul (fsub hi2 lo2) (headroom (fmtSpan fmt))

/-- Value v divided by 2^k, exactly. -/
def shiftDown (v : Fl) (k : Int) : Fl := mulX v (flPow2 (-k))

/-- const_code of R191 before its clamp, as an exact integer, or an FP8 magnitude (a detail DEDUCED, log 48). -/
def constCodeRaw (v : Fl) (k : Int) : Int := flRoundEven (shiftDown v k)

/-- The constant fits tensor scale 2^k (pick_k of R189). -/
def constFits (v : Fl) (k : Int) (fmt : Nat) : Bool :=
  if isFp8 fmt then !(convTo fmt (shiftDown v k)).sat
  else fmtMin fmt ≤ constCodeRaw v k && constCodeRaw v k ≤ fmtMax fmt

/-- pick_k of R189: candidates −14 to 15 (a detail DEDUCED, log 48). -/
def pickK (reqs consts : List Fl) (fmt : Nat) : Int :=
  (((List.range 30).map (fun (i : Nat) => (i : Int) - 14)).find? (fun k =>
    reqs.all (fun t => flLe t (mulX (.fin false 31 (-5)) (flPow2 k))) && consts.all (fun v => constFits v k fmt))).getD 15

/-- Exponent of scale_code: the first `e` below 15 at which the next step no longer holds. -/
def scaleExp (t : Fl) : Nat → Nat → Nat
  | 0, e => e
  | fuel + 1, e =>
    if e < 15 && flLe t (mulX (.fin false 31 (-5)) (flPow2 (-((e : Int) + 1)))) then scaleExp t fuel (e + 1) else e

/-- Ceiling of an exact value. -/
def flCeil (x : Fl) : Int := -(flFloor (flNeg x))

/-- scale_code of R189 for required scale `t` under S = 2^k. -/
def scaleCode (treq : Fl) (k : Int) : Nat :=
  let t := shiftDown treq k
  if flIsInf t then 0x0F
  else if flLe t (flPow2 (-16)) then 0xF0
  else
    let e := scaleExp t 15 0
    let f := clampInt 0 15 (flCeil (mulX t (flPow2 ((e : Int) + 5))) - 16)
    e * 16 + f.toNat

/-- Exact quotient x / s rounded half to even; `s` is positive. -/
def roundQuot (x s : Fl) : Int :=
  match x, s with
  | .fin a m e, .fin _ n g =>
    let q := min e g
    let num := m * 2 ^ (e - q).toNat
    let den := n * 2 ^ (g - q).toNat
    let hi := num / den
    let lo := num % den
    smant a (if 2 * lo > den || (2 * lo = den && hi % 2 = 1) then hi + 1 else hi)
  | _, _ => 0

/-- zero_point of R189. -/
def zeroPoint (lo s : Fl) (fmt : Nat) (sym : Bool) : Int :=
  if sym || isFp8 fmt then 0
  else
    let l := if flLt lo flZero then flNeg lo else flZero
    clampInt (fmtMin fmt) (fmtMax fmt) (fmtMin fmt + roundQuot l s)

/-- FP16 code of 2^k for k from −14 to 15. -/
def fp16Pow2 (k : Int) : Nat := ((k + 15).toNat) * 1024

/-- The figures show one finite value: a constant channel (R191). -/
def isConstant (f : Figures) : Bool :=
  match f.lo, f.hi with
  | some a, some b => flEq (f32 a) (f32 b) && 0 < f.count
  | _, _ => false

/-- What the new table takes for one entry. -/
inductive NewEntry where
  /-- constant at a value -/
  | const (v : Fl)
  /-- derived from a required scale, with lo -/
  | derived (t lo : Fl)
  /-- kept: required scale in the form of its current scale, and its zero point -/
  | kept (t : Fl) (z : Int)
  deriving DecidableEq, Repr

/-- The whole table derived afresh from one picture's figures, where some entry needs it (R189, R191). -/
def deriveTable (fmt theta : Nat) (sym : Bool) (q : QTable) (fs : List Figures) : Option QTable :=
  let ix := List.range q.entries.length
  let ent (i : Nat) : QEntry := q.entries.getD i default
  let fig (i : Nat) : Figures := fs.getD i figZero
  if !(ix.any (fun i => needsRederive fmt theta (ent i) (fig i))) then none
  else
    let new := ix.map (fun i =>
      let f := fig i
      match f.lo, f.hi with
      | some a, some b =>
        if isConstant f then NewEntry.const (f32 a) else .derived (reqScale (f32 a) (f32 b) fmt sym) (f32 a)
      | _, _ => if (ent i).const then .const (constVal fmt q (ent i)) else .kept (scaleVal q.scale (ent i).scaleCode) (ent i).zero)
    let reqs := new.filterMap (fun n => match n with
      | .const _ => none
      | .derived t _ => some t
      | .kept t _ => some t)
    let consts := new.filterMap (fun n => match n with
      | .const v => some v
      | _ => none)
    let k := pickK reqs consts fmt
    let s16 := fp16Pow2 k
    some ⟨s16, new.map (fun n => match n with
      | .const v =>
        let z : Int := if isFp8 fmt then ((convTo fmt (shiftDown v k)).code : Nat)
          else clampInt (fmtMin fmt) (fmtMax fmt) (constCodeRaw v k)
        ⟨z, true, 0xF0⟩
      | .derived t lo =>
        let c := scaleCode t k
        ⟨zeroPoint lo (scaleVal s16 c) fmt sym, false, c⟩
      | .kept t z => ⟨z, false, scaleCode t k⟩)⟩

/-- A tensor is symmetric (R183). -/
def symmetric (g : Bytes) (t : Nat) : Bool :=
  tKind (gTensor g t) = 2 ||
    (gLayerList g).any (fun l =>
      (lOp l = opMatmul && lIn l 1 = t) || (lOp l = opCorr && lIn l 1 = t) ||
        (lOp l = opAttention && (lIn l 1 = t || lIn l 2 = t)))

/-! ### A stream's tables (R193) -/

/-- Key of a graph's tensor in a stream's tables and figures. -/
def tensorKey (graph t : Nat) : Nat := graph * 65536 + t

/-- The image's own table of a tensor. -/
def imageTable (g : Bytes) (t : Nat) : QTable := qtableOf (blobData g (tQblob (gTensor g t)))

/-- The table that a stream's next picture uses for a tensor: derived, else the image's. -/
def streamTable (st : Stream) (g : Bytes) (graph t : Nat) : QTable :=
  (mfind st.qtabs (tensorKey graph t)).getD (imageTable g t)

/-- Re-derivable tensors of a graph. -/
def rederivables (g : Bytes) : List Nat := (List.range (gTensors g)).filter (fun i => rederivable (gTensor g i))

/-- Copies of the image's tables for one graph. -/
def imageTables (g : Bytes) (graph : Nat) : Map QTable :=
  (rederivables g).map (fun t => (tensorKey graph t, imageTable g t))

end Sys2Proof.Machine
end

