-- ==== Sys2Proof/Machine/Rng.lean ====
section
/-! DEFINITION. The counter-based generator (R258 to R262), stochastic rounding's draws (R265), drop-out (R266) and
categorical draws (R267). -/

set_option Elab.async false

namespace Sys2Proof.Machine

def rngA : List Nat := [7, 11, 13, 19, 21, 7, 11, 13, 19, 21]
def rngB : List Nat := [16, 8, 24, 12, 20, 16, 8, 24, 12, 20]

/-- Rotate a 32-bit word left. -/
def rotl32 (v n : Nat) : Nat := ((v * 2 ^ n) % 2 ^ 32) ||| (v / 2 ^ (32 - n))

/-- Sum modulo 2^32. -/
def add32 (a b : Nat) : Nat := (a + b) % 2 ^ 32

/-- One round on four words. -/
def rngRound (a b : Nat) (x : Nat × Nat × Nat × Nat) : Nat × Nat × Nat × Nat :=
  let x0 := add32 x.1 x.2.1
  let x3 := rotl32 (x.2.2.2.xor x0) a
  let x2 := add32 x.2.2.1 x3
  let x1 := rotl32 (x.2.1.xor x2) b
  (x0, x1, x2, x3)

/-- Add the key words rotated by `j` places, and `n` to word 3. -/
def rngKey (k : Nat × Nat × Nat × Nat) (j n : Nat) (x : Nat × Nat × Nat × Nat) : Nat × Nat × Nat × Nat :=
  let w (i : Nat) : Nat := match (i + j) % 4 with
    | 0 => k.1
    | 1 => k.2.1
    | 2 => k.2.2.1
    | _ => k.2.2.2
  (add32 x.1 (w 0), add32 x.2.1 (w 1), add32 x.2.2.1 (w 2), add32 (add32 x.2.2.2 (w 3)) n)

/-- jx_generate of R259. -/
def jxGenerate (k c : Nat × Nat × Nat × Nat) : Nat × Nat × Nat × Nat :=
  let x := (List.range 10).foldl
    (fun x r =>
      let y := rngRound (rngA.getD r 0) (rngB.getD r 0) x
      if r = 4 then rngKey k 1 1 y else y)
    (rngKey k 0 0 c)
  rngKey k 2 2 x

/-- Key of R258 from seed, tag and purpose. -/
def rngKeyOf (seed tag purpose : Nat) : Nat × Nat × Nat × Nat :=
  let k0 := seed % 2 ^ 32
  let k1 := seed / 2 ^ 32 % 2 ^ 32
  let k2 := tag % 2 ^ 16 + purpose % 256 * 2 ^ 16
  (k0, k1, k2, ((k0.xor k1).xor k2).xor 0x9E3779B9)

/-- The 32-bit word of the element with logical index `i` (R258, R260). -/
def rngWord (seed tag purpose step i : Nat) : Nat :=
  let block := i % 2 ^ 48 / 4
  let y := jxGenerate (rngKeyOf seed tag purpose)
    (block % 2 ^ 32, block / 2 ^ 32 % 2 ^ 14, step % 2 ^ 32, step / 2 ^ 32 % 2 ^ 32)
  match i % 4 with
  | 0 => y.1
  | 1 => y.2.1
  | 2 => y.2.2.1
  | _ => y.2.2.2

/-- The top `n` bits of a word (R260). -/
def rngTop (n word : Nat) : Nat := word / 2 ^ (32 - n)

/-- Element index of R262. -/
def elemIndex (f y x w c cn : Nat) : Nat := f * 2 ^ 40 + ((y * w + x) * cn + c)

/-- The factor of a kept element under drop-out: rne_fp32(8/7) (R266). -/
def dropFactor : Fl := f32 0x3F924925

/-- Drop-out of one element: +0.0 when dropped, otherwise scaled (R266). -/
def dropOut (seed tag step i : Nat) (x : Fl) : Fl :=
  if rngTop 3 (rngWord seed tag 2 step i) = 0 then flZero else fmul x dropFactor

/-- LOG2E of R244. -/
def log2e : Fl := f32 0x3FB8AA3B

/-- Index of the first element equal in value to `m`. -/
def firstEq (m : Fl) : List Fl → Nat → Nat
  | [], _ => 0
  | v :: t, i => if flEq v m then i else firstEq m t (i + 1)

/-- First index whose running sum of weights passes the target. -/
def pickWeight (target : Nat) : List Nat → Nat → Nat → Nat
  | [], i, _ => i - 1
  | w :: t, i, acc => if target < acc + w then i else pickWeight target t (i + 1) (acc + w)

/-- A categorical draw (R267): the index, and whether no score was finite. -/
def catDraw (s : List Fl) (tau : Fl) (word : Nat) : Nat × Bool :=
  let s := s.map (fun v => if flIsNan v then .inf true else v)
  let mx := s.foldl fmax (s.headD (.inf true))
  if !flIsFinite mx then (0, true)
  else if !(flIsFinite tau && flLt flZero tau) then (firstEq mx s 0, false)
  else
    let t := fdiv log2e tau
    let w := s.map (fun v => (flRoundEven (fmul (fexp2 (fmul (fsub v mx) t)) (flInt 65535))).toNat)
    (pickWeight (word * sumNat w / 2 ^ 32) w 0 0, false)

end Sys2Proof.Machine
end

