-- ==== Sys2Proof/Machine/CtxStore.lean ====
section
/-! DEFINITION. Context records and the Context Store (R234 to R240), the key and value ring (R242, R243), assignment of
runs (R238) and the counters of R257. -/

set_option Elab.async false

namespace Sys2Proof.Machine

/-! ### Records -/

/-- Highest index below which stream runs lie; the rest are execution records (R237). -/
def runLimit : Nat := 2093056
def execRecords : Nat := 4096

def recRead (s : State) (i : Nat) : Bytes := (mfind s.store.recs i).getD (zeros 256)

/-- Put a record's bytes; a record of zeros is not listed. -/
def recPut (s : State) (i : Nat) (b : Bytes) : State :=
  let b := padTo 256 b
  { s with store := { s.store with
      recs := if allZero b 0 256 then mdel s.store.recs i else mput s.store.recs i b } }

/-- Header of R234. -/
def recHeader (ty slot gen ord seq part : Nat) : Bytes :=
  toLe 1 ty ++ toLe 1 1 ++ toLe 2 slot ++ toLe 2 gen ++ toLe 2 ord ++ toLe 4 seq ++ toLe 1 part ++ zeros 3

def rhType (b : Bytes) : Nat := byteAt b 0
def rhSlot (b : Bytes) : Nat := le16 b 2
def rhGen (b : Bytes) : Nat := le16 b 4
def rhOrd (b : Bytes) : Nat := le16 b 6
def rhPart (b : Bytes) : Nat := byteAt b 0xC

/-- A record with the given payload at 0x10, as a write of it leaves it: seq raised. -/
def recStamp (old payload : Bytes) : Bytes :=
  let b := padTo 256 (old.take 16 ++ payload)
  setBytes b 8 (toLe 4 ((le32 old 8 + 1) % 2 ^ 32))

/-! ### Cache (R239) -/

/-- Dirty lines that leave the cache are written back to their records' places in DRAM (R239, R326). -/
def writeBack (s : State) (l : List (Nat × Bool)) : State :=
  l.foldl (fun s p => if p.2 then dramWrite s (256 * p.1) 0 (recRead s p.1) else s) s

/-- Touch a line: most recently used first, at most 16 ways; the least recently used leaves. Answers a hit
(a detail DEDUCED, log 40). -/
def cacheTouch (s : State) (i : Nat) (dirty : Bool) : Bool × State :=
  let set := i % 8192
  let ways := mget s.store.sets set
  match ways.find? (fun p => p.1 == i) with
  | some p =>
    (true, { s with store := { s.store with
      sets := mput s.store.sets set ((i, p.2 || dirty) :: ways.filter (fun p => p.1 != i)) } })
  | none =>
    let l := (i, dirty) :: ways
    (false, writeBack { s with store := { s.store with sets := mput s.store.sets set (l.take 16) } } (l.drop 16))

/-- Count in a stream counter of R257; an execution record is of no slot. -/
def ctxCount (s : State) (slot k n : Nat) : State :=
  if slot < 512 then s.updStream slot (fun x => { x with ctxc := bump x.ctxc k n }) else s

/-- Count in a partition counter of R257. -/
def ctxPartCount (s : State) (p k n : Nat) : State := s.updPart p (fun x => { x with ctxc := bump x.ctxc k n })

/-- One record read through its home port: counted, with the miss. -/
def storeRead (s : State) (slot i : Nat) : State :=
  let (hit, s) := cacheTouch s i false
  let s := ctxCount s slot 0 1
  if hit then s else ctxCount s slot 2 1

/-- Reads of several records of a stream. -/
def storeReads (s : State) (slot : Nat) (l : List Nat) : State := l.foldl (fun s i => storeRead s slot i) s

/-- Write a record with its header, as an assignment or a capture makes it: the line is allocated without a read. -/
def storeNew (s : State) (i : Nat) (b : Bytes) : State := recPut (cacheTouch s i true).2 i b

/-- One record write through its home port. -/
def storeWrite (s : State) (slot i : Nat) (payload : Bytes) : State :=
  let (_, s) := cacheTouch s i true
  ctxCount (recPut s i (recStamp (recRead s i) payload)) slot 1 1

/-! ### Fields of a stream's records -/

/-- Record index of an ordinal of a stream's run. -/
def recIx (s : State) (slot ord : Nat) : Nat := (s.stream slot).base + ord

/-- Little-endian field of a stream's record. -/
def recGet (s : State) (slot ord off n : Nat) : Nat := leAt (recRead s (recIx s slot ord)) off n

/-- Write fields of one record: it is read, and written whole with the new fields; offset and bytes of each
(a detail DEDUCED, log 40). -/
def recSet (s : State) (slot ord : Nat) (fs : List (Nat × Bytes)) : State :=
  let i := recIx s slot ord
  let s := storeRead s slot i
  let b := fs.foldl (fun b f => setBytes b f.1 f.2) (recRead s i)
  storeWrite s slot i (b.drop 16)

/-- Field of the stream record (R236, R301). -/
def srGet (s : State) (slot off n : Nat) : Nat := recGet s slot 0 off n

def srLastPicture : Nat := 0x10
def srSegment : Nat := 0x14
def srCacheCount : Nat := 0x16
def srCacheNext : Nat := 0x17
def srSeed : Nat := 0x18
def srNextTrack : Nat := 0x20
def srLive : Nat := 0x24
def srCapacity : Nat := 0x26
def srQtableGen : Nat := 0x28
def srFlags : Nat := 0x2C
def srMask : Nat := 0x40
def srLambda : Nat := 0x80
def srCbGen : Nat := 0x84
def srSinceFull : Nat := 0x86
def srUnitSeq : Nat := 0x88
def srRtpSeq : Nat := 0x8A
def srLastSearched : Nat := 0x8C
def srCbAddr : Nat := 0x90
def srCbApply : Nat := 0x98
def srCbCopy : Nat := 0x9C
def srTdsFlags : Nat := 0x9D
def srLastBits : Nat := 0xA0

/-- Number of ring slots: C + 1, or none (R242). -/
def ringSlots (c : Sections) (e : Bytes) : Nat := if streamCache c e = 0 then 0 else streamCache c e + 1

/-- Entry of ring slot `r` (R242): 24 bytes. -/
def ptrEntry (addr pic sk sv st : Nat) : Bytes :=
  toLe 8 addr ++ toLe 4 pic ++ toLe 4 sk ++ toLe 4 sv ++ toLe 1 st ++ zeros 3

/-! Offsets of the adapter head's fields (R235, R270). -/
def hdStep : Nat := 0x10
def hdGen : Nat := 0x1C
def hdFlags : Nat := 0x1D
def hdFrames : Nat := 0x1E
def hdFirst : Nat := 0x20
def hdTrained : Nat := 0x24
def hdApply : Nat := 0x28
def hdLoss : Nat := 0x2C

def ptrOrd (r : Nat) : Nat := ordPtr + r / 8
def ptrOff (r : Nat) : Nat := 0x10 + 24 * (r % 8)

/-- Buffer, state, picture and scales of ring slot `r`. -/
def ptrAddr (s : State) (slot r : Nat) : Nat := recGet s slot (ptrOrd r) (ptrOff r) 8
def ptrState (s : State) (slot r : Nat) : Nat := recGet s slot (ptrOrd r) (ptrOff r + 0x14) 1
def ptrPicture (s : State) (slot r : Nat) : Nat := recGet s slot (ptrOrd r) (ptrOff r + 8) 4
def ptrScaleK (s : State) (slot r : Nat) : Nat := recGet s slot (ptrOrd r) (ptrOff r + 0xC) 4
def ptrScaleV (s : State) (slot r : Nat) : Nat := recGet s slot (ptrOrd r) (ptrOff r + 0x10) 4

/-- Write the state byte of ring slot `r`. -/
def ptrSetState (s : State) (slot r st : Nat) : State := recSet s slot (ptrOrd r) [(ptrOff r + 0x14, toLe 1 st)]

/-- Set every ring slot of a stream empty. -/
def ringEmpty (slot : Nat) : List Nat → State → State
  | [], s => s
  | r :: t, s => ringEmpty slot t (ptrSetState s slot r 0)

/-- Ring slots of a stream under its configuration. -/
def slotsOf (s : State) (slot : Nat) : List Nat := List.range (ringSlots (s.cfgAt slot) (s.se slot))

/-- Key frames of picture `n`: ring slots in ascending picture (R243). -/
def keySlots (s : State) (slot n : Nat) : List Nat :=
  let c := streamCache (s.cfgAt slot) (s.se slot)
  let dist (r : Nat) : Nat := (n + 2 ^ 32 - ptrPicture s slot r) % 2 ^ 32
  let ok := (slotsOf s slot).filter (fun r => ptrState s slot r = 2 && 1 ≤ dist r && dist r ≤ c)
  sortBy (fun a b => decide (dist b ≤ dist a)) ok

/-! ### Assignment of a run (R238) -/

/-- Seed of R263. -/
def streamSeed (e : Bytes) : Nat := leVal ((digest64 e).take 8)

/-- DSEARCH's lambda parameter of the stream's search graph, FP32. -/
def searchLambda (c : Sections) (e : Bytes) : Nat :=
  match streamGraph c e 4 with
  | none => 0
  | some g => match (gLayerList g).find? (fun l => lOp l = opDsearch) with
    | none => 0
    | some l => lF l 1

/-- shortlist parameter of DSEARCH. -/
def searchShortlist (c : Sections) (e : Bytes) : Nat :=
  match streamGraph c e 4 with
  | none => 0
  | some g => match (gLayerList g).find? (fun l => lOp l = opDsearch) with
    | none => 0
    | some l => lP l 0

/-- The derived-table bytes of a stream: image tables of every re-derivable tensor, in graph and tensor order. -/
def imageTableBytes (c : Sections) (e : Bytes) : Bytes :=
  (List.range 5).flatMap (fun m => match streamGraph c e m with
    | none => []
    | some g => (rederivables g).flatMap (fun t => qtableBytes (gTensor g t) (imageTable g t)))

/-- Image tables of every graph of a stream, as derived tables start (R193). -/
def imageTablesOf (c : Sections) (e : Bytes) : Map QTable :=
  ((List.range 5).flatMap (fun m => match streamGraph c e m with
    | none => []
    | some g => imageTables g (seModel e m))).foldl (fun m p => mput m p.1 p.2) []

/-- Payload of the stream record at assignment. -/
def streamPayload (c : Sections) (e : Bytes) (cbAddr : Nat) : Bytes :=
  let b := zeros 256
  let b := setBytes b srSeed (toLe 8 (streamSeed e))
  let b := setBytes b srNextTrack (toLe 4 1)
  let b := setBytes b srCapacity (toLe 2 (trackRecords c e))
  let b := setBytes b srLambda (toLe 4 (searchLambda c e))
  let b := setBytes b srCbAddr (toLe 8 cbAddr)
  b.drop 16

/-- Payload of adapter head with step 0 (R235, R270). -/
def headPayload (p : Nat) : Bytes := padTo 240 (zeros 8 ++ toLe 4 p)

/-- Payload of the record with ordinal `o` at assignment, and its type. -/
def initialRecord (c : Sections) (e : Bytes) (ring : List Nat) (cbAddr o : Nat) : Nat × Bytes :=
  if o = 0 then (1, streamPayload c e cbAddr)
  else if o < ordQuant c e then
    let rs := (List.range 8).map (fun i => 8 * (o - 1) + i)
    (5, rs.flatMap (fun r => if r < ringSlots c e then ptrEntry (ring.getD r 0) 0 0 0 0 else zeros 24))
  else if o < ordHead c e then (6, slice (imageTableBytes c e) (240 * (o - ordQuant c e)) 240)
  else if seAdapter e && o = ordHead c e then (3, headPayload (streamParams c e))
  else if o < ordTrack c e then (4, [])
  else (2, [])

/-- Write the records of a run from ordinal `o`, `n` of them. -/
def writeRun (c : Sections) (e : Bytes) (ring : List Nat) (cbAddr base gen : Nat) : Nat → Nat → State → State
  | 0, _, s => s
  | n + 1, o, s =>
    let r := initialRecord c e ring cbAddr o
    writeRun c e ring cbAddr base gen n (o + 1)
      (storeNew s (base + o) (recHeader r.1 (seSlot e) gen o 1 (sePart e) ++ r.2))

/-- Configuration `a` comes before configuration `b`. -/
def seqBefore (a b : Nat) : Bool := a != b && decide ((b + 2 ^ 32 - a) % 2 ^ 32 < 2 ^ 31)

/-- The codebook that a frame of configuration `seq` uses, where it is not the one in force (R48, R290). -/
def oldCodebook (x : Stream) (seq : Nat) : Option CbOld := x.cbOld.find? (fun o => seqBefore seq o.seq)

/-- Kernels and probabilities of a codebook section (R287). -/
def cbKernels (b : Bytes) : List Bytes := (List.range 1024).map (fun i => slice b (0x40 + 32 * i) 25)
def cbProbs (b : Bytes) : List Nat := (List.range 1152).map (fun i => le16 b (0x8040 + 2 * i))

/-- The codebook section that a stream names. -/
def streamCodebook (c : Sections) (e : Bytes) : Bytes := (mfind c.codebooks (seCodebook e)).getD []

/-- Generation of a run that is assigned anew to a slot: above the slot's and above every record's, whichever slot held it, so
that a write-back from before is dropped (R234, R238, R240). -/
def runGen (s : State) (slot : Nat) : Nat :=
  let st := s.stream slot
  (((List.range st.count).foldl (fun a i => max a (rhGen (recRead s (st.base + i)))) st.gen) + 1) % 2 ^ 16

/-- Reinitialise a stream's run as at assignment: gen raised, records rewritten, derived tables back to the image's, and
the codebook with its generation (R238, R240, R388 step 5). -/
def reinitRun (s : State) (slot : Nat) : State :=
  let c := s.cfgAt slot
  let e := s.se slot
  let st := s.stream slot
  let gen := runGen s slot
  let cbAddr := leAt (recRead s st.base) srCbAddr 8
  let b := streamCodebook c e
  let s := s.updStream slot (fun x => { x with
    gen := gen, qtabs := imageTablesOf c e, adp := none, kern0 := cbKernels b, kern1 := cbKernels b,
    uses := [], cbPending := [], cbFormed := false, fullDue := true, partialDue := [], cbOld := [] })
  writeRun c e st.kvRing cbAddr st.base gen st.count 0 s

/-- Lowest free range of `n` records below the limit, given the runs in use as (base, count) in rising order
(R238). -/
def lowestRange (n : Nat) : Nat → List (Nat × Nat) → Option Nat
  | at_, [] => if at_ + n ≤ runLimit then some at_ else none
  | at_, (b, k) :: t => if at_ + n ≤ b then some at_ else lowestRange n (max at_ (b + k)) t

/-- Runs in use, in rising order. -/
def runsInUse (s : State) : List (Nat × Nat) :=
  sortBy (fun a b => decide (a.1 ≤ b.1)) ((s.streams.filter (fun p => 0 < p.2.count)).map (fun p => (p.2.base, p.2.count)))

/-- Take a run for a stream slot. -/
def takeRun (s : State) (slot : Nat) : State :=
  let n := seCtxRecords (s.se slot)
  match lowestRange n 0 (runsInUse s) with
  | none => s
  | some b => s.updStream slot (fun x => { x with base := b, count := n })

/-! ### Tracks (R247) -/

/-- Track ordinals of a run: live ones by track_mask. -/
def trackLive (s : State) (slot i : Nat) : Bool :=
  byteAt (recRead s (recIx s slot 0)) (srMask + i / 8) / 2 ^ (i % 8) % 2 = 1

def trackCapacity (s : State) (slot : Nat) : Nat := srGet s slot srCapacity 2

/-- Write track_mask and live_tracks for a list of live ordinals. -/
def setLive (s : State) (slot : Nat) (live : List Nat) : State :=
  let mask := live.foldl (fun a i => a + 2 ^ i) 0
  recSet s slot 0 [(srMask, toLe 32 mask), (srLive, toLe 2 live.length)]

/-- Live track ordinals in order. -/
def liveTracks (s : State) (slot : Nat) : List Nat := (List.range (trackCapacity s slot)).filter (trackLive s slot)

/-- Free one track record. -/
def freeTrack (s : State) (slot i : Nat) : State :=
  let c := s.cfgAt slot
  let e := s.se slot
  let s := storeWrite s slot (recIx s slot (ordTrack c e + i)) (zeros 240)
  ctxCount (setLive s slot ((liveTracks s slot).filter (· != i))) slot 6 1

def freeTracks (slot : Nat) : List Nat → State → State
  | [], s => s
  | i :: t, s => freeTracks slot t (freeTrack s slot i)

/-- First picture of a new timeline segment: every ring slot empty, every track freed (R245). -/
def newSegment (s : State) (slot : Nat) : State :=
  let s := ringEmpty slot (slotsOf s slot) s
  let s := recSet s slot 0 [(srCacheCount, toLe 1 0), (srCacheNext, toLe 1 0)]
  freeTracks slot (liveTracks s slot) s

/-! ### Faults of records (R240) -/

/-- Adapter reset: both generations zero, step 0, open step discarded (R49, R240, R276). -/
def adapterReset (s : State) (slot : Nat) : State :=
  let c := s.cfgAt slot
  let e := s.se slot
  if seAdapter e then
    let open_ := (s.stream slot).adp.isSome
    let s := s.updStream slot (fun x =>
      { x with adp := none, adpc := if open_ then bump x.adpc 2 1 else x.adpc })
    let s := storeWrite s slot (recIx s slot (ordHead c e)) (headPayload (streamParams c e))
    (List.range (2 * ceilDiv (streamParams c e) 60)).foldl
      (fun s i => storeWrite s slot (recIx s slot (ordHead c e + 1 + i)) (zeros 240)) s
  else s

/-- Restore the image's tables of a stream (R240). -/
def restoreTables (s : State) (slot : Nat) : State :=
  let c := s.cfgAt slot
  let e := s.se slot
  let b := imageTableBytes c e
  let s := s.updStream slot (fun x => { x with qtabs := imageTablesOf c e })
  (List.range (quantRecords c e)).foldl
    (fun s i => storeWrite s slot (recIx s slot (ordQuant c e + i)) (slice b (240 * i) 240)) s

end Sys2Proof.Machine
end

