-- ==== Sys2Proof/Machine/Tracker.lean ====
section
/-! DEFINITION. The tracker (R246 to R248) and the detection and track entries of a record (R294, R295). -/

set_option Elab.async false

namespace Sys2Proof.Machine

/-! ### Constants (R246), FP32 -/

/-- 0.3, 0.5 and 0.3 as FP32 codes. -/
def candScore : Fl := f32 0x3E99999A
def birthScore : Fl := f32 0x3F000000
/-- a detail DEDUCED, log 41. -/
def matchIou : Fl := f32 0x3E99999A
def confirmHits : Nat := 3
def tentativeGap : Nat := 2
def confirmedGap : Nat := 30

/-! ### Detection rows -/

/-- A class value that is an integer from 0 to 255. -/
def detClass (c : Nat) : Option Nat :=
  match f32 c with
  | .fin s m e =>
    let x : Fl := .fin s m e
    let k := flFloor x
    if flEq (flInt k) x && decide (0 ≤ k) && decide (k ≤ 255) then some k.toNat else none
  | _ => none

/-- Every value of a row is finite. -/
def detFinite (d : DetRow) : Bool :=
  [d.x0, d.y0, d.x1, d.y1, d.score, d.cls].all (fun c => flIsFinite (f32 c))

/-- The box has x0 < x1 and y0 < y1. -/
def detBoxOk (d : DetRow) : Bool := flLt (f32 d.x0) (f32 d.x1) && flLt (f32 d.y0) (f32 d.y1)

/-- A candidate row (R248). -/
def detCandidate (d : DetRow) : Bool :=
  detFinite d && flLe candScore (f32 d.score) && detBoxOk d && (detClass d.cls).isSome

/-- A discarded row that counts as malformed (R248). -/
def detMalformed (d : DetRow) : Bool :=
  !flIsFinite (f32 d.score) ||
    (flLe candScore (f32 d.score) && (!detFinite d || !detBoxOk d || (detClass d.cls).isNone))

/-- Candidate rows with their row numbers, in row order; at most 256 rows are read. -/
def candidates (ds : List DetRow) : List (Nat × DetRow) :=
  ((ds.take 256).zipIdx.map (fun p => (p.2, p.1))).filter (fun p => detCandidate p.2)

/-! ### Track records (R247) -/

/-- A track record's payload. -/
structure Track where
  id : Nat
  state : Nat
  cls : Nat
  hits : Nat
  first : Nat
  last : Nat
  box : List Nat
  vx : Nat
  vy : Nat
  score : Nat
  deriving DecidableEq, Repr, Inhabited

def trackOf (b : Bytes) : Track where
  id := le32 b 0x10
  state := byteAt b 0x14
  cls := byteAt b 0x15
  hits := le16 b 0x16
  first := le32 b 0x18
  last := le32 b 0x1C
  box := (List.range 4).map (fun i => le32 b (0x20 + 4 * i))
  vx := le32 b 0x30
  vy := le32 b 0x34
  score := le32 b 0x38

def trackBytes (t : Track) : Bytes :=
  padTo 240 (toLe 4 t.id ++ toLe 1 t.state ++ toLe 1 t.cls ++ toLe 2 t.hits ++ toLe 4 t.first ++ toLe 4 t.last ++
    t.box.flatMap (toLe 4) ++ toLe 4 t.vx ++ toLe 4 t.vy ++ toLe 4 t.score)

/-- Record index of track ordinal `i`. -/
def trackIx (s : State) (slot i : Nat) : Nat := recIx s slot (ordTrack (s.cfgAt slot) (s.se slot) + i)

def trackAt (s : State) (slot i : Nat) : Track := trackOf (recRead s (trackIx s slot i))

/-- Pictures from `b` to `a`, modulo 2^32. -/
def picGap (a b : Nat) : Nat := (a + 2 ^ 32 - b % 2 ^ 32) % 2 ^ 32

/-- Predicted box of a track at picture `n` (R248). -/
def trackPred (n : Nat) (t : Track) : List Fl :=
  let g := fofInt (picGap n t.last)
  let c (i : Nat) : Fl := f32 (t.box.getD i 0)
  [ffma (f32 t.vx) g (c 0), ffma (f32 t.vy) g (c 1), ffma (f32 t.vx) g (c 2), ffma (f32 t.vy) g (c 3)]

/-- iou of R248. -/
def iou (a b : List Fl) : Fl :=
  let g (l : List Fl) (i : Nat) : Fl := l.getD i flZero
  let w := fmax flZero (fsub (fmin (g a 2) (g b 2)) (fmax (g a 0) (g b 0)))
  let h := fmax flZero (fsub (fmin (g a 3) (g b 3)) (fmax (g a 1) (g b 1)))
  let i := fmul w h
  let ua := fmul (fsub (g a 2) (g a 0)) (fsub (g a 3) (g a 1))
  let ub := fmul (fsub (g b 2) (g b 0)) (fsub (g b 3) (g b 1))
  fdiv i (fsub (fadd ua ub) i)

def detBox (d : DetRow) : List Fl := [f32 d.x0, f32 d.y0, f32 d.x1, f32 d.y1]

/-- A pair considered for matching: IoU, track ordinal, row. -/
structure TPair where
  v : Fl
  o : Nat
  r : Nat

/-- Order of pairs: IoU down, then ordinal, then row. -/
def pairLe (a b : TPair) : Bool :=
  if flLt b.v a.v then true else if flLt a.v b.v then false
  else if a.o = b.o then decide (a.r ≤ b.r) else decide (a.o < b.o)

/-- Pairs of the same class with IoU of at least 0.3. -/
def trackPairs (n : Nat) (ts : List (Nat × Track)) (ds : List (Nat × DetRow)) : List TPair :=
  ts.flatMap (fun t => ds.filterMap (fun d =>
    if detClass d.2.cls = some t.2.cls then
      let v := iou (trackPred n t.2) (detBox d.2)
      if flLe matchIou v then some ⟨v, t.1, d.1⟩ else none
    else none))

/-- Greedy choice: ordinal and row of each match. -/
def greedy : List TPair → List (Nat × Nat) → List (Nat × Nat)
  | [], acc => acc
  | p :: t, acc =>
    if acc.any (fun m => m.1 == p.o || m.2 == p.r) then greedy t acc else greedy t (acc ++ [(p.o, p.r)])

/-- Velocity of one axis after a match (R248). -/
def matchVel (v lo hi lo' hi' g : Fl) : Fl :=
  let half := f32 0x3F000000
  let c := fmul (fadd lo hi) half
  let c' := fmul (fadd lo' hi') half
  fadd (fmul half v) (fmul half (fdiv (fsub c' c) g))

/-- match of R248. -/
def matchTrack (n : Nat) (t : Track) (d : DetRow) : Track :=
  let g := fofInt (picGap n t.last)
  let b (i : Nat) : Fl := f32 (t.box.getD i 0)
  let hits := min 65535 (t.hits + 1)
  { t with
    vx := f32Code (matchVel (f32 t.vx) (b 0) (b 2) (f32 d.x0) (f32 d.x1) g)
    vy := f32Code (matchVel (f32 t.vy) (b 1) (b 3) (f32 d.y0) (f32 d.y1) g)
    box := [d.x0, d.y0, d.x1, d.y1]
    score := d.score
    last := n
    hits := hits
    state := if t.state = 1 && confirmHits ≤ hits then 2 else t.state }

/-- A track born from a row (R248). -/
def birthTrack (id n : Nat) (d : DetRow) : Track :=
  { id := id, state := 1, cls := (detClass d.cls).getD 0, hits := 1, first := n, last := n,
    box := [d.x0, d.y0, d.x1, d.y1], vx := 0, vy := 0, score := d.score }

/-- Write matched tracks. -/
def writeMatches (slot n : Nat) (ds : List (Nat × DetRow)) : List (Nat × Nat) → State → State
  | [], s => s
  | (o, r) :: t, s =>
    match mfind ds r with
    | none => writeMatches slot n ds t s
    | some d =>
      writeMatches slot n ds t (storeWrite s slot (trackIx s slot o) (trackBytes (matchTrack n (trackAt s slot o) d)))

/-- Identifier after `i`; 0 is skipped. -/
def nextTrackId (i : Nat) : Nat := if (i + 1) % 2 ^ 32 = 0 then 1 else (i + 1) % 2 ^ 32

/-- Births, in descending score then row: each takes the lowest free record, or is dropped and counted. -/
def births (slot n : Nat) : List (Nat × DetRow) → State → State
  | [], s => s
  | (_, d) :: t, s =>
    match (List.range (trackCapacity s slot)).find? (fun i => !trackLive s slot i) with
    | none => births slot n t (ctxCount s slot 7 1)
    | some o =>
      let id := srGet s slot srNextTrack 4
      let live := liveTracks s slot
      let s := storeWrite s slot (trackIx s slot o) (trackBytes (birthTrack id n d))
      let s := setLive s slot (sortBy (fun a b => decide (a ≤ b)) (o :: live))
      let s := recSet s slot 0 [(srNextTrack, toLe 4 (nextTrackId id))]
      births slot n t (ctxCount s slot 5 1)

/-- Rows to be born: unmatched candidates with score of at least 0.5, score down, then row. -/
def birthRows (ds : List (Nat × DetRow)) (ms : List (Nat × Nat)) : List (Nat × DetRow) :=
  let free := ds.filter (fun d => !(ms.any (fun m => m.2 == d.1)) && flLe birthScore (f32 d.2.score))
  sortBy (fun a b => if flLt (f32 b.2.score) (f32 a.2.score) then true
    else if flLt (f32 a.2.score) (f32 b.2.score) then false else decide (a.1 ≤ b.1)) free

/-- The track has been missed for too long (R246). -/
def trackOver (n : Nat) (t : Track) : Bool :=
  decide ((if t.state = 1 then tentativeGap else confirmedGap) < picGap n t.last)

/-- The tracker on one picture (R248). -/
def runTracker (s : State) (slot n : Nat) (rows : List DetRow) : State :=
  let s := ctxCount s slot 8 (countIf (rows.take 256) detMalformed)
  let ds := candidates rows
  let ts := (liveTracks s slot).map (fun i => (i, trackAt s slot i))
  let ms := greedy (sortBy pairLe (trackPairs n ts ds)) []
  let s := writeMatches slot n ds ms s
  let s := births slot n (birthRows ds ms) s
  freeTracks slot ((liveTracks s slot).filter (fun i => trackOver n (trackAt s slot i))) s

/-! ### Entries of the record (R294, R295) -/

/-- round_half_even of a value, held between `lo` and `hi`; a NaN takes `lo`. -/
def roundClamp (lo hi : Int) (x : Fl) : Int :=
  match x with
  | .nan => lo
  | .inf neg => if neg then lo else hi
  | x => clampInt lo hi (flRoundEven x)

/-- Factor k × base / working, rounded to FP32. -/
def baseScale (k base work : Nat) : Fl := rnd32 (fdiv (fofInt (k * base)) (fofInt work))

/-- Quarter base pixels of a working coordinate, 0 to 65,535 (R294). -/
def quarterPix (v : Nat) (base work : Nat) : Nat :=
  (roundClamp 0 65535 (fmul (f32 v) (baseScale 4 base work))).toNat

/-- Box of four quarter-pixel coordinates. -/
def boxBytes (b : List Nat) (w h ww hw : Nat) : Bytes :=
  toLe 2 (quarterPix (b.getD 0 0) w ww) ++ toLe 2 (quarterPix (b.getD 1 0) h hw) ++
    toLe 2 (quarterPix (b.getD 2 0) w ww) ++ toLe 2 (quarterPix (b.getD 3 0) h hw)

/-- One detection entry (R294). -/
def detEntry (d : DetRow) (w h ww hw : Nat) : Bytes :=
  boxBytes [d.x0, d.y0, d.x1, d.y1] w h ww hw ++ toLe 1 ((detClass d.cls).getD 0) ++
    toLe 1 (roundClamp 0 255 (mulX (fofInt 255) (f32 d.score))).toNat ++ toLe 2 0

/-- Velocity in 1/16 base pixel per picture (R295). -/
def velField (v base work : Nat) : Nat :=
  ofSigned 16 (roundClamp (-32768) 32767 (fmul (f32 v) (baseScale 16 base work)))

/-- One track entry (R295). -/
def trackEntry (t : Track) (w h ww hw : Nat) : Bytes :=
  toLe 4 t.id ++ boxBytes t.box w h ww hw ++ toLe 2 (velField t.vx w ww) ++ toLe 2 (velField t.vy h hw) ++
    toLe 1 t.cls ++ toLe 1 t.state ++ toLe 2 t.hits

/-! ### TRACK_PICTURE -/

/-- Invocations that a frame's stream has, as bits 0 to 3 of the ledger's models field. -/
def inferMask (e : Bytes) : Nat :=
  sumNat ((List.range 4).map (fun m => if seModel e m = 0xFF then 0 else 2 ^ m))

/-- A frame's teacher, motion, detector and temporal invocations have committed. -/
def framInferred (e : Bytes) (f : Frame) : Bool := (f.models % 16) &&& inferMask e == inferMask e

/-- Picture `a` comes before picture `b`, modulo 2^32. -/
def picBefore (a b : Nat) : Bool := a != b && decide (picGap b a < 2 ^ 31)

/-- The frame of a slot with the earliest picture number that satisfies `p`. -/
def firstPicture (s : State) (slot : Nat) (p : Frame → Bool) : Option Nat :=
  let fs := s.frames.filter (fun q => q.2.slot == slot && q.2.picture.isSome && p q.2)
  match fs with
  | [] => none
  | q :: t =>
    some ((t.foldl (fun (b : Nat × Frame) x =>
      if picBefore (x.2.picture.getD 0) (b.2.picture.getD 0) then x else b) q).1)

/-- A frame still to be tracked: in inference, not discarded and not ended. -/
def awaitsTracker (f : Frame) : Bool := !f.tracked && !frameEnded f && f.stage < 6

/-- Working size of a frame. -/
def workSize (f : Frame) : Nat × Nat :=
  match f.work with
  | some (w, h, _) => (w, h)
  | none => (1, 1)

/-- Size of a frame's base picture. -/
def baseSize (f : Frame) : Nat × Nat :=
  match f.pic with
  | some p => (p.w, p.h)
  | none => (0, 0)

/-- Run the tracker on a stream's next picture: its frame, and the state after (R245, R248). -/
def trackNext (s : State) (slot : Nat) : Option Nat × State :=
  match firstPicture s slot awaitsTracker with
  | none => (none, s)
  | some fid =>
    let f := s.frame fid
    if f.stage = 5 && framInferred (frameSe s f) f then
      let n := f.picture.getD 0
      let s := storeReads s slot (recIx s slot 0 :: (liveTracks s slot).map (trackIx s slot))
      let s := runTracker s slot n f.dets
      let (ww, hw) := workSize f
      let (w, h) := baseSize f
      let entries := (liveTracks s slot).flatMap (fun i => trackEntry (trackAt s slot i) w h ww hw)
      let s := recSet s slot 0
        [(srLastPicture, toLe 4 n), (srSegment, toLe 2 f.segment), (srFlags, toLe 4 1)]
      (some fid, frameStage (s.updFrame fid (fun f => { f with tracked := true, trackEntries := entries })) fid 6)
    else (none, s)

end Sys2Proof.Machine
end

