-- ==== Sys2Proof/Machine/Life.lean ====
section
/-! DEFINITION. The life of a stream and of its frames (R21 to R24): assignment of an engine (R135, R136), of a run and of
buffers (R238, R242, R288); discarding a frame; freeing what a picture holds (R141, R286); removing a stream. -/

set_option Elab.async false

namespace Sys2Proof.Machine

/-! ### Sizes -/

/-- Bytes of one band of a picture (R140): coded width, bit depth, monochrome. -/
def bandBytes (codedW depth : Nat) (mono : Bool) : Nat :=
  let pitch := ceilDiv (codedW * (if depth = 8 then 1 else 2)) 256 * 256
  (if mono then 64 else 96) * pitch

/-- Bands of a picture (R140). -/
def bandCount (codedH : Nat) : Nat := ceilDiv codedH 64

/-- KiB that a band of a pool charges. -/
def bandKib (c : Sections) (k : Nat) : Nat := poSize (cfgPool c k) / 1024

/-- KiB charged by the buffer at an address. -/
def bufKib (s : State) (a : Nat) : Nat :=
  match poolOfAddr s.run a with
  | none => 0
  | some k => bandKib s.run k

/-- Bytes of a codebook buffer (R288). -/
def codebookBytes : Nat := 71936

/-- Partition charged for a slot's buffers. -/
def slotPart (s : State) (slot : Nat) : Nat := sePart (s.se slot)

/-- Configuration under which a frame runs, and its stream entry. -/
def frameBpmPart (s : State) (f : Frame) : Nat := sePart (frameSe s f)

/-! ### Decode engines (R135, R136) -/

def engineIds : List Nat := List.range 8

/-- Planned luma rate of a stream, in hundredths (R135). -/
def plannedRate (e : Bytes) : Nat := seMaxW e * seMaxH e * seMaxRate e

/-- Slots held by an engine, in order. -/
def engineSlots (s : State) (g : Nat) : List Nat :=
  (s.streams.filter (fun p => p.2.dec.engine == some g)).map (·.1)

/-- Sum of planned rates of an engine. -/
def engineLoad (s : State) (g : Nat) : Nat := sumNat ((engineSlots s g).map (fun i => plannedRate (s.se i)))

/-- Unfenced engine of least load among those with fewer than `cap` streams. -/
def engineFor (s : State) (cap : Nat) : Option Nat :=
  minByNat (engineLoad s)
    (engineIds.filter (fun g => !(mget s.engines g).fenced && decide ((engineSlots s g).length < cap)))

/-- Put a stream on an engine; beyond 64 streams its state takes a buffer of the device, without which it stays
unassigned (R136). -/
def engineTake (s : State) (slot g : Nat) : State :=
  let put (s : State) (b : Option Nat) : State := s.updDec slot (fun d => { d with engine := some g, stateBuf := b })
  if (engineSlots s g).length < 64 then put s none
  else
    match smallestPool s.run 8192 with
    | none => s
    | some k =>
      match bpmAlloc s 8 k with
      | (some a, s) => put s (some a)
      | (none, s) => s

/-- Assign one unassigned stream: fewer than 64 streams first (R135), then fewer than 128 (R136). -/
def engineAssign (s : State) (slot : Nat) : State :=
  if (s.stream slot).dec.engine.isSome then s
  else
    match engineFor s 64 with
    | some g => engineTake s slot g
    | none =>
      match engineFor s 128 with
      | some g => engineTake s slot g
      | none => s

/-- Unassigned live streams are assigned in slot order (R136). -/
def engineAssignAll : List Nat → State → State
  | [], s => s
  | i :: t, s => engineAssignAll t (if (s.stream i).live then engineAssign s i else s)

/-- BPM_FREE (R345, R346). A buffer that becomes free may be one that an unassigned stream's state waits for (R136)
(a detail DEDUCED, log 36). -/
def execBpmFree (who : Requester) (addr : Nat) (s : State) : Host.Outcome State Fault Refusal :=
  done (engineAssignAll (mkeys s.streams) (bpmRelease s who addr))

/-- Take a stream off its engine: its saved state's buffer is freed. -/
def engineDrop (s : State) (slot : Nat) : State :=
  let d := (s.stream slot).dec
  let s := match d.stateBuf with
    | none => s
    | some a => bpmRelease s 8 a
  let s := match d.engine with
    | none => s
    | some g => { s with engines := mupd s.engines g (fun e =>
        if e.cur = some slot then { e with cur := none, run := 0 } else e) }
  s.updDec slot (fun d => { d with engine := none, stateBuf := none })

/-! ### Buffers and run of a stream -/

/-- Entry size E of a stream's ring (R242). -/
def streamEntryBytes (c : Sections) (e : Bytes) : Nat :=
  match streamGraph c e 3 with
  | none => 0
  | some g => ringEntryBytes g

/-- Take the C + 1 ring buffers of a stream (R242). -/
def takeRing (s : State) (slot : Nat) : State :=
  let c := s.cfgAt slot
  let e := s.se slot
  match smallestPool c (streamEntryBytes c e) with
  | none => s
  | some k =>
    let (bufs, s) := allocMany (sePart e) k (ringSlots c e) s
    s.updStream slot (fun x => { x with kvRing := bufs })

/-- Address of the codebook buffer, taken from the partition's quota (R288). -/
def takeCodebook (s : State) (slot : Nat) : Option Nat × State :=
  match smallestPool (s.cfgAt slot) codebookBytes with
  | none => (none, s)
  | some k => bpmAlloc s (slotPart s slot) k

/-- Assign a slot: engine, ring and codebook buffers, and a run of records (R135, R238, R242, R288). -/
def streamAssign (s : State) (slot : Nat) : State :=
  let s := engineAssign s slot
  let st := s.stream slot
  let s := if st.kvRing.isEmpty then takeRing s slot else s
  let have_ := 0 < st.count && leAt (recRead s st.base) srCbAddr 8 ≠ 0
  let (cb, s) := if have_ then (some (leAt (recRead s st.base) srCbAddr 8), s) else takeCodebook s slot
  let s := if st.count = 0 then takeRun s slot else s
  let c := s.cfgAt slot
  let e := s.se slot
  let st := s.stream slot
  let gen := runGen s slot
  let s := s.updStream slot (fun x =>
    { x with gen := gen, qtabs := imageTablesOf c e, adp := none, histSeg := 0 })
  writeRun c e st.kvRing (cb.getD 0) st.base gen st.count 0 s

/-- Depth of a stream's token bucket, in 1/100 bit (R118). -/
def bucketDepth (e : Bytes) : Nat := seBurst e * 800

/-- State of a slot that has just become live: counters zero, bucket full, picture and access-unit counts from 0, both
kernel copies those of the codebook, a full codebook update due (R118, R133, R150, R153, R288, R290). Tunable values stay
(R388). -/
def freshStream (c : Sections) (e : Bytes) (x : Stream) (seq now : Nat) : Stream :=
  let b := streamCodebook c e
  { (default : Stream) with
    live := true
    ing := { (default : Ingest) with tokens := bucketDepth e, lastAccept := now }
    dec := { (default : Decode) with engine := x.dec.engine, stateBuf := x.dec.stateBuf }
    cfgSeq := seq
    base := x.base
    count := x.count
    gen := x.gen
    kvRing := x.kvRing
    qtabs := x.qtabs
    kern0 := cbKernels b
    kern1 := cbKernels b
    probs := cbProbs b
    fullDue := true
    tun := x.tun
    train := seAdapter e && (match mfind x.tun 0x12 with
      | none => true
      | some v => v == 1) }

/-- A partition-scope parameter of a stream: the value written, else its planned value (R82). -/
def tunVal (s : State) (slot id base : Nat) : Nat :=
  match mfind (s.stream slot).tun id with
  | some v => v.toNat
  | none => base

/-- Planned values of the partition-scope parameters of a stream. -/
def tunPlanned (e : Bytes) (id : Nat) : Nat :=
  if id = 0x10 then seInterp e
  else if id = 0x11 then seBudget e
  else if id = 0x12 then (if seAdapter e then 1 else 0)
  else seTdsRate e

/-- Current value of a partition-scope parameter at a stream. -/
def tunCurrent (s : State) (slot id : Nat) : Nat := tunVal s slot id (tunPlanned (s.se slot) id)

/-- In-between frames in force at a stream: none without a motion model (R82). -/
def streamInterp (s : State) (slot : Nat) : Nat := if seModel (s.se slot) 1 = 0xFF then 0 else tunCurrent s slot 0x10

/-- A slot becomes live. -/
def streamGoLive (s : State) (slot : Nat) : State :=
  let s := streamAssign s slot
  let c := s.cfgAt slot
  let e := s.se slot
  s.updStream slot (fun x => freshStream c e x x.cfgSeq s.now)

/-! ### Batches that lose a picture (R152) -/

/-- A batch holds a valid picture. -/
def batchHasFrame (b : Batch) : Bool := b.members.any (·.isSome)

/-- Remove a batch from every queue. -/
def batchDrop (s : State) (b : Nat) : State :=
  match mfind s.batches b with
  | none => s
  | some x =>
    let s := { s with batches := mdel s.batches b }
    let s := s.updPart x.part (fun p => { p with queue := p.queue.filter (· != b) })
    { s with regions := mmap s.regions (fun _ r => { r with queue := r.queue.filter (fun q => q / 8 != b) }) }

/-- Withdraw a frame from the batch it is in (R152). -/
def batchWithdraw (s : State) (fid b : Nat) : State :=
  let s := s.updBatch b (fun x => { x with members := x.members.map (fun m => if m = some fid then none else m) })
  match mfind s.batches b with
  | none => s
  | some x => if batchHasFrame x || x.started then s else batchDrop s b

/-! ### What a picture holds -/

/-- Free the bands of a picture, and lower the stream's charge (R140, R141). -/
def freeBands (s : State) (fid : Nat) : State :=
  let f := s.frame fid
  let bs := f.bands ++ f.sBands
  let kib := sumNat (bs.map (bufKib s))
  let s := releaseAll (frameBpmPart s f) bs s
  let s := s.updFrame fid (fun f => { f with bands := [], sBands := [] })
  s.updDec f.slot (fun d => { d with charge := d.charge - kib })

/-- Free a picture's working picture. -/
def freeWork (s : State) (fid : Nat) : State :=
  let f := s.frame fid
  let s := match f.workBuf with
    | none => s
    | some a => bpmRelease s (frameBpmPart s f) a
  s.updFrame fid (fun f => { f with workBuf := none, work := none, down := none })

/-- Free the ingress buffers of a frame's access unit. -/
def freeIngress (s : State) (fid : Nat) : State :=
  let f := s.frame fid
  releaseAll (frameBpmPart s f) f.bufs (s.updFrame fid (fun f => { f with bufs := [], data := [] }))

/-- The search of the stream's next picture has committed, or that picture has been discarded (R286). -/
def nextSearched (s : State) (f : Frame) : Bool :=
  let st := s.stream f.slot
  let n := f.picture.getD 0
  let flags := srGet s f.slot srTdsFlags 1
  let last := srGet s f.slot srLastSearched 4
  (flags % 2 == 1 && picBefore n last) || st.absent.contains ((n + 1) % 2 ^ 32)

/-- An emitting frame of the group can still choose the picture of a non-emitting member (R132, R141). A later frame
of the emitting member is taken to have no earlier reference time than the last one closed (a detail DEDUCED, log 34). -/
def stillChoosable (s : State) (fid : Nat) (f : Frame) : Bool :=
  let c := frameCfg s f
  match cfgGroup c f.slot, f.ref with
  | some g, some t =>
    let win := fgWindow g * 2 ^ 32 / 1000
    (fgMembers g).any (fun m =>
      m != f.slot && cfgEmits c m &&
        (s.frames.any (fun p => p.2.slot == m && !frameEnded p.2 && !p.2.searched &&
            (!p.2.aligned || p.2.refs.any (fun r => r.2 == fid))) ||
          (match (s.stream m).ing.topRef with
            | none => (s.stream f.slot).ing.segment == f.segment
            | some top =>
              decide (top ≤ t + win) && (s.stream f.slot).ing.segment == f.segment &&
                !(s.frames.any (fun p => p.2.slot == f.slot && p.2.segment == f.segment &&
                    (match p.2.ref with
                      | none => false
                      | some t2 => decide (t < t2) && decide (t2 ≤ top)))))))
  | _, _ => false

/-- A frame of a non-emitting fusion member. -/
def refOnly (s : State) (f : Frame) : Bool := !cfgEmits (frameCfg s f) f.slot

/-- A picture's bands may be freed (R141, R286). -/
def bandsFree (s : State) (fid : Nat) (f : Frame) : Bool :=
  !f.isRef &&
    (if f.flags % 2 = 1 then true
     else if refOnly s f then f.resampled && !stillChoosable s fid f
     else f.resampled && f.searched && nextSearched s f)

/-- Nothing of a frame is needed any more. -/
def frameDone (f : Frame) : Bool := frameEnded f && f.bands.isEmpty && f.sBands.isEmpty && !f.isRef && f.workBuf.isNone

/-- A training stream keeps a picture's working pictures while a step may still read them: the picture, or the present
one that follows it, is gathered or may yet be (R271, R272). -/
def adpKeeps (s : State) (fid : Nat) (f : Frame) : Bool :=
  let st := s.stream f.slot
  let gathered := match st.adp with
    | none => []
    | some a => a.pictures
  let n := f.picture.getD 0
  let later := s.frames.filter (fun p => p.2.slot == f.slot && p.2.flags % 2 == 0 && (match p.2.picture with
    | none => false
    | some m => picBefore n m))
  let next := minByNat (fun p => picGap (p.2.picture.getD 0) n) later
  st.train && f.down.isSome && f.flags % 2 == 0 &&
    (gathered.contains fid || (match next with
      | none => true
      | some p => gathered.contains p.1 || (decide (p.2.stage < 6) && !frameEnded p.2)))

/-- Free what one frame of a list need not hold any longer. -/
def sweepFrames : List Nat → State → State
  | [], s => s
  | i :: t, s =>
    let f := s.frame i
    let s := if !(f.bands.isEmpty && f.sBands.isEmpty) && bandsFree s i f then freeBands s i else s
    let s := if f.workBuf.isSome && frameEnded f && bandsFree s i f && !adpKeeps s i f then freeWork s i else s
    sweepFrames t s

/-- An earlier configuration is still in use: by a stream that has not switched, a frame or a batch. -/
def cfgInUse (s : State) (seq : Nat) : Bool :=
  s.moult.state == 5 || s.streams.any (fun p => p.2.live && p.2.cfgSeq == seq) ||
    s.frames.any (fun p => p.2.cfgSeq == seq && !frameEnded p.2) ||
    s.batches.any (fun p => p.2.cfgSeq == seq) || s.ctxs.any (fun p => p.2.cfgSeq == seq)

/-- Earlier configurations that nothing uses any more are freed: their weights, tables and quotas (R48)
(a detail DEDUCED, log 32). -/
def freeOldCfg (s : State) : State :=
  { s with moult := { s.moult with olds := s.moult.olds.filter (fun p => cfgInUse s p.1) } }

/-- Frames of a slot. -/
def slotFrames (s : State) (slot : Nat) : List Nat := (s.frames.filter (fun p => p.2.slot == slot)).map (·.1)

/-- Free what the frames of a slot need not hold, and forget the frames whose life is over. -/
def sweepSlot (s : State) (slot : Nat) : State :=
  let s := sweepFrames (slotFrames s slot) s
  let adp := match (s.stream slot).adp with
    | none => []
    | some a => a.pictures
  let s := freeOldCfg s
  { s with frames := s.frames.filter (fun p => !(p.2.slot == slot && frameDone p.2 && !adp.contains p.1)) }

/-- Sweep the slots of a list. -/
def sweepSlots : List Nat → State → State
  | [], s => s
  | i :: t, s => sweepSlots t (sweepSlot s i)

/-- Slots of the fusion group that a slot is a member of, and the slot itself. -/
def groupSlots (s : State) (slot : Nat) : List Nat :=
  match cfgGroup (s.cfgAt slot) slot with
  | none => [slot]
  | some g => slot :: (fgMembers g).filter (· != slot)

/-! ### Discarding a frame (R24) -/

/-- The ring slot of a picture marked absent returns to empty, whether it was being written or had committed: it has no entry
(R243, R245). -/
def ringAbort (slot n : Nat) : List Nat → State → State
  | [], s => s
  | r :: t, s =>
    ringAbort slot n t
      (if ptrPicture s slot r ≠ n then s
      else if ptrState s slot r = 1 then ptrSetState s slot r 0
      else if ptrState s slot r = 2 then
        recSet (ptrSetState s slot r 0) slot 0 [(srCacheCount, toLe 1 (srGet s slot srCacheCount 1 - 1))]
      else s)

/-- Take a frame out of every queue that can hold it. -/
def frameUnqueue (s : State) (fid : Nat) : State :=
  let f := s.frame fid
  let s := s.updDec f.slot (fun d =>
    { d with queue := d.queue.filter (· != fid), index := d.index.filter (· != fid), limbo := d.limbo.filter (· != fid),
             cur := match d.cur with
               | none => none
               | some c => if c.frame = fid then none else some c })
  { s with relq := s.relq.filter (· != fid),
           resamplers := mmap s.resamplers (fun _ r => if r.cur = some fid then { r with cur := none } else r) }

/-- A picture that the adapter of a training stream passes over is counted (R271, R277). -/
def passOver (s : State) (slot : Nat) : State :=
  s.updStream slot (fun x => { x with adpc := if x.train then bump x.adpc 4 1 else x.adpc })

/-- Mark a frame's picture absent, where it has one and has not reached stage 0x6 (R23). -/
def markAbsent (s : State) (fid : Nat) : State :=
  let f := s.frame fid
  match f.picture with
  | none => s
  | some n =>
    if f.stage < 6 then
      let s := s.updStream f.slot (fun x => { x with absent := x.absent ++ [n] })
      let s := passOver s f.slot
      ringAbort f.slot n (slotsOf s f.slot) s
    else s

/-- Units of a frame that wait for a ring are discarded with it (R24, R302). -/
def purgeHeld (s : State) (fid : Nat) : State :=
  { s with fns := mmap s.fns (fun _ f => { f with rings := mmap f.rings (fun _ r =>
      { r with held := r.held.filter (fun u => u.frame != some fid) }) }) }

/-- Discard a frame with a ledger cause: its entry shows it, its buffers return, its picture is marked absent, and its
place in a batch becomes padding (R24, R152, R402). A frame whose life is over stays as it is. -/
def discardFrame (s : State) (fid cause : Nat) : State :=
  match mfind s.frames fid with
  | none => s
  | some f =>
    if frameEnded f then s
    else
      let s := markAbsent s fid
      let s := s.updFrame fid (fun f =>
        { f with flags := f.flags ||| 1, dcause := cause, released := false, unit := none, emitWait := false })
      let s := ledgerWrite s fid
      let s := purgeHeld (frameUnqueue s fid) fid
      let s := match f.batch with
        | none => s
        | some b => batchWithdraw s fid b
      let s := freeWork (freeIngress s fid) fid
      sweepSlots (groupSlots s f.slot) s

/-- Discard every frame of a list. -/
def discardFrames (cause : Nat) : List Nat → State → State
  | [], s => s
  | i :: t, s => discardFrames cause t (discardFrame s i cause)

/-- The frames of a removed stream: discarded where in flight, and their buffers returned whether they are references
or not (R24, R141). -/
def dropFrames (s : State) (slot cause : Nat) : State :=
  let ids := slotFrames s slot
  let s := discardFrames cause ids s
  let s := { s with frames := s.frames.map (fun p =>
    if p.2.slot = slot then (p.1, { p.2 with isRef := false, resampled := true }) else p) }
  let s := ids.foldl (fun s i => if (mfind s.frames i).isSome then freeWork (freeBands s i) i else s) s
  { s with frames := s.frames.filter (fun p => p.2.slot != slot) }

/-! ### Access units that await decode (R136, R138, R143) -/

/-- Count in one of R153's counters. -/
def decCount (s : State) (slot k n : Nat) : State := s.updDec slot (fun d => { d with ctr := bump d.ctr k n })

/-- Discard every index entry after the last committed picture; the access units are parsed again (R143). Counted. -/
def rollback (s : State) (slot : Nat) : State :=
  let q := (s.stream slot).dec.queue
  let s := { s with frames := mmap s.frames (fun i f => if q.contains i then { f with hdr := none } else f) }
  decCount (s.updDec slot (fun d => { d with index := [] })) slot 7 1

/-- One log per stream in each 1 s: AON_TIME of the last one plus 1 is kept (R136, R139). -/
def decLog (s : State) (slot : Nat) : State :=
  let d := (s.stream slot).dec
  if d.lastLog = 0 || 100000000 ≤ s.now + 1 - d.lastLog then
    raiseLogOf (s.updDec slot (fun d => { d with lastLog := s.now + 1 })) uDe (slotPart s slot) slot
  else s

/-- Access units a stream may hold undecoded (R138). -/
def auLimit : Nat := 16

/-- A closed access unit of a stream joins its queue. The 17th is discarded, and those after it wait to be seen to be
random access points (R138) (a detail DEDUCED, log 36). -/
def auHold (slot : Nat) (s : State) (fid : Nat) : State :=
  let d := (s.stream slot).dec
  if d.limitAu.isSome then s.updDec slot (fun d => { d with limbo := d.limbo ++ [fid] })
  else if auLimit ≤ d.queue.length then
    let au := (s.frame fid).au
    decCount (discardFrame (s.updDec slot (fun d => { d with limitAu := some au })) fid 3) slot 4 1
  else s.updDec slot (fun d => { d with queue := d.queue ++ [fid] })

/-- Ingress buffers of the access unit a slot is gathering are freed. -/
def dropOpenAu (s : State) (slot : Nat) : State :=
  match (s.stream slot).ing.au with
  | none => s
  | some a => releaseAll (slotPart s slot) a.bufs (s.updIng slot (fun g => { g with au := none }))

/-- A querier of an older version of a group's protocol is present on a port (R115). -/
def mcastOld (s : State) (np group : Nat) : Bool :=
  decide (s.now < (if isV4 group then (s.np np).oldUntil4 else (s.np np).oldUntil6))

/-- Version of the membership protocol in use on a port for a group: IGMPv3 or MLDv2, and the older one where a
querier of an older version is present (R115). -/
def mcastVersion (s : State) (np group : Nat) : Nat :=
  match isV4 group, mcastOld s np group with
  | true, false => 3
  | true, true => 2
  | false, false => 2
  | false, true => 1

/-- An IPv4 packet that a port sends takes the port's next Identification (R299) (a detail DEDUCED, log 34). -/
def useIpId (s : State) (np dst : Nat) : State :=
  if isV4 dst then s.updNp np (fun p => { p with ipId := (p.ipId + 1) % 2 ^ 16 }) else s

/-- A live stream of a port that joins a group. -/
def joinsGroup (s : State) (np group : Nat) (e : Bytes) : Bool :=
  (s.stream (seSlot e)).live && seSource e == np && seJoin e != 0 && seAddr e == group

/-- The state-change report of a stream that leaves its group (R115): the filter of the port's group changes to what the
other live streams of the port still join. With none left the port leaves the group; where the last stream without a
source list goes, the sources that stay are included; a source that no stream names any longer is blocked, which the
older protocols cannot express (a detail DEDUCED, log 34). -/
def leaveGroup (s : State) (slot : Nat) : State :=
  let e := s.se slot
  let np := seSource e
  let g := seAddr e
  let others := (s.streams.filter (fun p => p.1 != slot && joinsGroup s np g (s.se p.1))).map (fun p => s.se p.1)
  let srcs := ((others.filter (fun o => seJoin o == 2)).map seSsm).foldl (fun l a => if l.contains a then l else l ++ [a]) []
  if !(s.stream slot).live || !seNet e || seJoin e = 0 || !(s.np np).link then s
  else if others.isEmpty then emit (.membership np g true [] (mcastVersion s np g) true) (useIpId s np g)
  else if others.any (fun o => seJoin o == 1) || mcastOld s np g then s
  else if seJoin e = 1 then emit (.membership np g true srcs (mcastVersion s np g) true) (useIpId s np g)
  else if srcs.contains (seSsm e) then s
  else emit (.membershipBlock np g [seSsm e]) (useIpId s np g)

/-! ### Alignment (R132) -/

/-- A reference time is available (ING_STATE.mapped). -/
def ingMapped (e : Bytes) (g : Ingest) : Bool :=
  if seTransport e = 1 then g.sr.isSome
  else if seTransport e = 2 then g.sr.isSome && g.offset.isSome && g.ts.videoPid.isSome
  else if seTransport e = 3 then g.ts.videoPid.isSome
  else true

/-- T − t is at most window_ms. -/
def inWindow (g : Bytes) (T t : Nat) : Bool := t ≤ T && (T - t) * 1000 ≤ fgWindow g * 2 ^ 32

/-- The access unit of member `m` with the largest reference time up to `T` in its current timeline. Alignment restarts
where the group is redefined: only access units closed under the group as it stands count (R84). -/
def alignPick (s : State) (g : Bytes) (m T : Nat) : Option (Nat × Nat) :=
  let seg := (s.stream m).ing.segment
  let c := s.frames.filterMap (fun p =>
    match p.2.ref with
    | some t => if p.2.slot = m && p.2.segment = seg && t ≤ T && p.2.flags % 2 = 0 &&
        cfgGroup (frameCfg s p.2) m = some g then some (p.1, t) else none
    | none => none)
  c.foldl (fun (b : Option (Nat × Nat)) (x : Nat × Nat) =>
    match b with
    | none => some x
    | some y => if y.2 ≤ x.2 then some x else some y) none

/-- References of a frame: (member, frame) for each other member that has one (a detail DEDUCED, log 34). -/
def alignRefs (s : State) (g : Bytes) (slot T : Nat) : List (Nat × Nat) :=
  ((fgMembers g).filter (· != slot)).filterMap (fun m =>
    match alignPick s g m T with
    | none => none
    | some (fid, t) => if inWindow g T t then some (m, fid) else none)

/-- Members of transport 3 whose PMTs name different PCR PIDs (R131). -/
def pcrDiffers (s : State) (g : Bytes) : Bool :=
  let pids := ((fgMembers g).filter (fun m => seTransport (s.se m) = 3)).filterMap (fun m => (s.stream m).ing.ts.pcrPid)
  pids.any (fun p => some p != pids.head?)

/-- Make a frame's alignment decision: stage 0x2 (R21, R132). Members whose PCR PIDs differ take no reference
(R131). -/
def alignDecide (s : State) (fid : Nat) : State :=
  let f := s.frame fid
  let refs := match cfgGroup (frameCfg s f) f.slot, f.ref with
    | some g, some T =>
      if cfgEmits (frameCfg s f) f.slot && !pcrDiffers s g then alignRefs s g f.slot T else []
    | _, _ => []
  frameStage (s.updFrame fid (fun f => { f with aligned := true, refs := refs })) fid 2

/-- Every other member has closed a later unit, or is silent or unmapped. -/
def alignReady (s : State) (g : Bytes) (slot T : Nat) : Bool :=
  (fgMembers g).all (fun m =>
    m == slot ||
      (let i := (s.stream m).ing
       !(s.stream m).live || i.silent || !ingMapped (s.se m) i ||
         (match i.topRef with
          | none => false
          | some t => decide (T < t))))

/-- Decide a frame's alignment where nothing more is waited for. -/
def alignTry (s : State) (fid : Nat) : State :=
  let f := s.frame fid
  if f.aligned || frameEnded f then s
  else
    match cfgGroup (frameCfg s f) f.slot, f.ref with
    | some g, some T =>
      if !cfgEmits (frameCfg s f) f.slot || alignReady s g f.slot T then alignDecide s fid else s
    | _, _ => alignDecide s fid

/-- Try every frame of a list. -/
def alignTries : List Nat → State → State
  | [], s => s
  | i :: t, s => alignTries t (alignTry s i)

/-- Try the undecided frames of every member of a slot's group. -/
def alignGroup (s : State) (slot : Nat) : State :=
  alignTries ((groupSlots s slot).flatMap (slotFrames s)) s

/-- Count in a partition's mapper counters; the count is pushed to the register at the end of a batch (R233). -/
def mapCount (s : State) (p k n : Nat) : State := s.updPart p (fun x => { x with mapNew := bump x.mapNew k n })

/-- Weight planes that were prefetched for a context are discarded (R231). -/
def shadowDrop (s : State) (cx : Nat) : State :=
  let n := sumNat (s.regions.map (fun r => countIf r.2.shadow (fun q => q.1 == cx)))
  mapCount { s with regions := mmap s.regions (fun _ r => { r with shadow := r.shadow.filter (fun q => q.1 != cx) }) }
    (mget s.ctxs cx).part 5 n

/-- A stream drop discards the planes prefetched for the invocations that hold a picture of it (R231). -/
def shadowDropStream (s : State) (slot : Nat) : State :=
  ((s.ctxs.filter (fun c => c.2.kind == 1 && (mget s.batches c.2.batch).members.any (fun m => match m with
    | none => false
    | some fid => (s.frame fid).slot == slot))).map (·.1)).foldl shadowDrop s

/-- Stream slot in a unit's header (R291). -/
def unitSlot (u : HeldUnit) : Nat := le16 u.data 8

/-- Units of a stream that have not been emitted are discarded with it: those staged for rings, codebook units among them, and
packets that wait for a next hop (R302). -/
def purgeSlot (s : State) (slot : Nat) : State :=
  { s with
    fns := mmap s.fns (fun _ f => { f with rings := mmap f.rings (fun _ r => { r with held := r.held.filter (fun u => unitSlot u != slot) }) })
    nps := mmap s.nps (fun _ p => { p with waiting := mmap p.waiting (fun _ l => l.filter (fun w => w.1 != slot + 1)) }) }

/-- A stream leaves: frames discarded, buffers returned, run released, engine freed (R24, R49, R238). -/
def streamRemove (s : State) (slot cause : Nat) : State :=
  let part := slotPart s slot
  let members := groupSlots s slot
  let s := shadowDropStream (leaveGroup s slot) slot
  let s := purgeSlot (dropFrames s slot cause) slot
  let s := dropOpenAu s slot
  let st := s.stream slot
  let s := releaseAll part st.kvRing s
  let cb := leAt (recRead s st.base) srCbAddr 8
  let s := if 0 < st.count && cb ≠ 0 then bpmRelease s part cb else s
  let s := engineDrop s slot
  let s := { s with streams := mput s.streams slot { (default : Stream) with gen := st.gen } }
  alignTries (members.flatMap (slotFrames s)) (engineAssignAll (mkeys s.streams) s)

end Sys2Proof.Machine
end

