-- ==== Sys2Proof/Machine/Switch.lean ====
section
/-! DEFINITION. Streams that become live or change configuration: group membership (R115), the switch of a stream at a
Moult (R48, R49, R84, R458) and the end of a Moult (R35, R47). -/

set_option Elab.async false

namespace Sys2Proof.Machine

/-! ### Membership reports (R115) -/

/-- Source list of a stream's group membership: its one source for join 2, none for join 1. -/
def joinSources (e : Bytes) : List Nat := if seJoin e = 2 then [seSsm e] else []

/-- Report a stream's group: INCLUDE its source for join 2, EXCLUDE none for join 1; under an older version the group
alone. -/
def reportGroup (s : State) (e : Bytes) (stateChange : Bool) : State :=
  let np := seSource e
  let old := mcastOld s np (seAddr e)
  emit (.membership np (seAddr e) (seJoin e = 2 && !old) (if old then [] else joinSources e)
    (mcastVersion s np (seAddr e)) stateChange) (useIpId s np (seAddr e))

/-- First of the two unsolicited reports of a stream that joins a group, on a port with link. -/
def joinReport (s : State) (slot : Nat) : State :=
  let e := s.se slot
  if (s.stream slot).live && seNet e && seJoin e ≠ 0 && (s.np (seSource e)).link then
    (reportGroup s e true).updIng slot (fun g => { g with report2 := true })
  else s

/-! ### Adding a stream -/

/-- A stream that takes host-injected data is live only while its function's injection ring is enabled (R27). -/
def injReady (s : State) (slot : Nat) : Bool :=
  let e := s.se slot
  if seSource e = 2 then
    match fnOfPart s (sePart e) with
    | none => false
    | some (port, fn) => (s.fn port fn).inj.enabled
  else true

/-- The function that owns a slot is being reset. -/
def ownerResetting (s : State) (slot : Nat) : Bool :=
  match fnOfPart s (slotPart s slot) with
  | none => false
  | some (port, fn) => (s.fn port fn).resetting

/-- Add a stream under configuration `seq`: it becomes live, unless its function is under reset or its injection ring
is not enabled (R27, R49). -/
def streamAdd (s : State) (slot seq : Nat) : State :=
  let s := s.updStream slot (fun x => { x with cfgSeq := seq })
  if ownerResetting s slot then s.updStream slot (fun x => { x with pausedByReset := true })
  else if injReady s slot then joinReport (streamGoLive s slot) slot
  else streamAssign s slot

/-! ### Derived tables in the records (R193) -/

/-- The table of a tensor for pictures under configuration `seq`: that of the earlier graph where a Moult has replaced
it (R194). -/
def tableFor (s : State) (slot seq : Nat) (g : Bytes) (graph t : Nat) : QTable :=
  let st := s.stream slot
  let k := tensorKey graph t
  if seq = st.cfgSeq then streamTable st g graph t
  else
    match mfind st.qtabsOld k with
    | some q => q
    | none => streamTable st g graph t

/-- The derived-table bytes of a stream as they stand. -/
def tableBytesOf (s : State) (slot : Nat) : Bytes :=
  let c := s.cfgAt slot
  let e := s.se slot
  (List.range 5).flatMap (fun m => match streamGraph c e m with
    | none => []
    | some g => (rederivables g).flatMap (fun t =>
        qtableBytes (gTensor g t) (streamTable (s.stream slot) g (seModel e m) t)))

/-- Write those quantization records that differ from the tables as they stand. -/
def writeTables (s : State) (slot : Nat) : State :=
  let c := s.cfgAt slot
  let e := s.se slot
  let b := tableBytesOf s slot
  (List.range (quantRecords c e)).foldl (fun s i =>
    let ix := recIx s slot (ordQuant c e + i)
    let p := padTo 240 (slice b (240 * i) 240)
    if (recRead s ix).drop 16 = p then s else storeWrite s slot ix p) s

/-! ### Switch of a stream (R84) -/

/-- What a slot's switch does. -/
inductive SwitchKind where
  | untouched
  | continues
  | readded
  | removed
  | added
  deriving DecidableEq, Repr

/-- Offsets of a stream entry that may differ while the stream continues (R84). -/
def softOffset (i : Nat) : Bool :=
  i = 0x07 || i = 0x0E || i = 0x0F || (0x18 ≤ i && i ≤ 0x1B) || (0x20 ≤ i && i ≤ 0x25) || (0x50 ≤ i && i ≤ 0x6F)

/-- A section of a type and number is the same in two configurations: no operation has put another in its place. One put
in its place counts as another though its bytes be the same (a detail DESIGN CHOICE, log 20). -/
def sameVersion (c0 c1 : Sections) (ty inst : Nat) : Bool := mget c0.vers (verKey ty inst) == mget c1.vers (verKey ty inst)

/-- A model of a stream differs between two configurations: it names another graph, or that graph has been replaced
(R49, R84). -/
def modelChanged (c0 : Sections) (e0 : Bytes) (c1 : Sections) (e1 : Bytes) (m : Nat) : Bool :=
  seModel e0 m != seModel e1 m || !sameVersion c0 c1 0x10 (seModel e1 m)

/-- The codebook of a stream differs between two configurations (R49, R84). -/
def codebookChanged (c0 : Sections) (e0 : Bytes) (c1 : Sections) (e1 : Bytes) : Bool :=
  seCodebook e0 != seCodebook e1 || !sameVersion c0 c1 0x11 (seCodebook e1)

/-- What of a slot's fusion group restarts its alignment when it changes: membership, window and emit_mask (R84). -/
def groupTerms (c : Sections) (slot : Nat) : Option (List Nat × Nat × Nat) :=
  (cfgGroup c slot).map (fun g => (fgMembers g, fgWindow g, fgEmit g))

/-- How slot `slot` fares between two configurations (R84). -/
def switchKind (c0 c1 : Sections) (slot : Nat) : SwitchKind :=
  match cfgStream c0 slot, cfgStream c1 slot with
  | none, none => .untouched
  | some _, none => .removed
  | none, some _ => .added
  | some e0, some e1 =>
    if (List.range 128).any (fun i => e0.getD i 0 != e1.getD i 0 && !softOffset i) then .readded
    else if e0 ≠ e1 || (List.range 5).any (modelChanged c0 e0 c1 e1) || codebookChanged c0 e0 c1 e1 ||
        groupTerms c0 slot != groupTerms c1 slot then .continues
    else .untouched

/-- A count of R235 differs for a stream between two configurations (R458). -/
def layoutChanged (c0 : Sections) (e0 : Bytes) (c1 : Sections) (e1 : Bytes) : Bool :=
  streamCache c0 e0 != streamCache c1 e1 || streamTableBytes c0 e0 != streamTableBytes c1 e1 ||
    adapterRecords c0 e0 != adapterRecords c1 e1 || streamParams c0 e0 != streamParams c1 e1

/-- The ring takes new buffers, and every slot of it is empty. -/
def rebuildRing (s : State) (slot : Nat) : State :=
  let s := takeRing (releaseAll (slotPart s slot) (s.stream slot).kvRing (s.updStream slot (fun x => { x with kvRing := [] }))) slot
  let ring := (s.stream slot).kvRing
  let s := (slotsOf s slot).foldl (fun s r =>
    recSet s slot (ptrOrd r) [(ptrOff r, ptrEntry (ring.getD r 0) 0 0 0 0)]) s
  recSet s slot 0 [(srCacheCount, toLe 1 0), (srCacheNext, toLe 1 0)]

/-- Rebuild a continuing stream's run under its new configuration (R458); `ts` are the payloads of its live tracks and
`sr` its stream record. The slot already runs under the new configuration, with every table the image's
(a detail DEDUCED, log 32). -/
def rebuildRun (s : State) (slot : Nat) (sr : Bytes) (ts : List Bytes) : State :=
  let part := slotPart s slot
  let old := (s.stream slot).kvRing
  let s := releaseAll part old (s.updStream slot (fun x => { x with kvRing := [] }))
  let s := takeRing s slot
  let c := s.cfgAt slot
  let e := s.se slot
  let st := s.stream slot
  let s := writeRun c e st.kvRing (leAt sr srCbAddr 8) st.base st.gen st.count 0 s
  let cap := trackRecords c e
  let keep := ts.take cap
  let sr := setBytes (setBytes sr srCacheCount (toLe 1 0)) srCacheNext (toLe 1 0)
  let sr := setBytes (setBytes sr srCapacity (toLe 2 cap)) srLive (toLe 2 keep.length)
  let sr := setBytes sr srMask (toLe 32 (2 ^ keep.length - 1))
  let s := s.updStream slot (fun x => { x with qtabs := imageTablesOf c e })
  let s := storeWrite (recPut s st.base sr) slot st.base (sr.drop 16)
  let s := keep.zipIdx.foldl (fun s p => storeWrite s slot (trackIx s slot p.2) p.1) s
  ctxCount s slot 6 (ts.length - keep.length)

/-- Derived tables of the graphs that the switch replaces go back to the image's; pictures of the earlier
configuration keep theirs. Where the run is rebuilt every table goes back (R193, R194, R458). -/
def switchTables (s : State) (slot : Nat) (c0 : Sections) (e0 : Bytes) : State :=
  let c := s.cfgAt slot
  let e := s.se slot
  let st := s.stream slot
  let changed := (List.range 5).filter (modelChanged c0 e0 c e)
  let oldKeys := if layoutChanged c0 e0 c e then (List.range 5).map (seModel e0) else changed.map (seModel e0)
  let new := changed.flatMap (fun m => match streamGraph c e m with
    | none => []
    | some g => imageTables g (seModel e m))
  let kept := st.qtabs.filter (fun p => !oldKeys.contains (p.1 / 65536))
  s.updStream slot (fun x => { x with
    qtabsOld := st.qtabs.filter (fun p => oldKeys.contains (p.1 / 65536))
    qtabs := new.foldl (fun m p => mput m p.1 p.2) kept })

/-- The codebook in force, as frames of configurations before the present one go on to use it. -/
def cbNow (s : State) (slot : Nat) : CbOld :=
  let x := s.stream slot
  { seq := x.cfgSeq, kern0 := x.kern0, kern1 := x.kern1, probs := x.probs, gen := srGet s slot srCbGen 2
    copy := srGet s slot srCbCopy 1, apply := srGet s slot srCbApply 4, formed := x.cbFormed
    fullDue := x.fullDue, partialDue := x.partialDue }

/-- The stream's new codebook: both copies, generation 0, no update pending, a full update due before its first record; frames
in flight keep the one before (R48, R49, R288, R290) (a detail DEDUCED, log 32). -/
def switchCodebook (s : State) (slot : Nat) : State :=
  let b := streamCodebook (s.cfgAt slot) (s.se slot)
  let s := s.updStream slot (fun x => { x with
    cbOld := (x.cbOld.filter (fun o => s.frames.any (fun p => p.2.slot == slot && seqBefore p.2.cfgSeq o.seq))) ++ [cbNow s slot]
    kern0 := cbKernels b, kern1 := cbKernels b, probs := cbProbs b, uses := [], cbPending := [],
    cbFormed := false, fullDue := true, partialDue := [] })
  let fl := srGet s slot srTdsFlags 1
  recSet s slot 0 [(srCbGen, toLe 2 0), (srCbCopy, toLe 1 0), (srTdsFlags, toLe 1 (fl % 2))]

/-- A stream that continues takes its new values (R49, R84, R143, R458). -/
def switchContinue (s : State) (slot seq : Nat) : State :=
  let c0 := s.cfgAt slot
  let e0 := s.se slot
  let sr := recRead s (s.stream slot).base
  let ts := (liveTracks s slot).map (fun i => (recRead s (trackIx s slot i)).drop 16)
  let s := s.updStream slot (fun x => { x with cfgSeq := seq })
  let c := s.cfgAt slot
  let e := s.se slot
  let s := switchTables s slot c0 e0
  let rebuilt := layoutChanged c0 e0 c e
  let s := if rebuilt then rebuildRun s slot sr ts
    else if streamEntryBytes c0 e0 != streamEntryBytes c e then rebuildRing (writeTables s slot) slot
    else writeTables s slot
  let s := if rebuilt || modelChanged c0 e0 c e 0 then adapterReset s slot else s
  let s := if codebookChanged c0 e0 c e then switchCodebook s slot else s
  let s := if groupTerms c0 slot = groupTerms c slot then s else s.updIng slot (fun g => { g with topRef := none })
  rollback s slot

/-! ### End of a Moult (R35, R47) -/

/-- The buffers that STAGE reserved for a slot are its own to take. -/
def resvRelease (s : State) (slot : Nat) : State := { s with moult := { s.moult with resv := mdel s.moult.resv slot } }

/-- Add a stream with the run that CHECK placed for it (R238) and the buffers that STAGE reserved (R47); `none` while a
stream that has not switched holds part of that run (a detail DEDUCED, log 32). -/
def moultAdd (s : State) (slot seq : Nat) : Option State :=
  let s := resvRelease s slot
  match mfind s.moult.plan slot with
  | none => some (streamAdd s slot seq)
  | some b =>
    let n := seCtxRecords ((cfgStream s.run slot).getD [])
    if (runsInUse s).any (fun r => decide (b < r.1 + r.2) && decide (r.1 < b + n)) then none
    else some (streamAdd (recPut (s.updStream slot (fun x => { x with base := b, count := n })) b (zeros 256)) slot seq)

/-- Add the slots of a list; those whose run is not free yet stay to be added. -/
def moultAdds (seq : Nat) : List Nat → State → State
  | [], s => s
  | i :: t, s =>
    moultAdds seq t (match moultAdd s i seq with
      | none => s
      | some s => { s with moult := { s.moult with adds := s.moult.adds.filter (· != i) } })

/-- Every affected stream has switched: the Moult is applied, after any self-restart of the SCU (R400). -/
def moultFinish (s : State) : State :=
  if s.moult.state = 5 && s.moult.waiting.isEmpty && s.moult.adds.isEmpty && !s.scu.restarting then
    let m := digest64 (s.scu.mCur ++ digest64 s.moult.container)
    let s := { s with
      scu := { s.scu with moultSeq := (s.scu.moultSeq + 1) % 2 ^ 32, mCur := m }
      moult := { s.moult with state := 6, cause := 0, container := [], next := none, plan := [], resv := [] } }
    freeOldCfg (raiseIrq s 0 0 irqMoult)
  else s

/-- Sequence number that names the configuration a Moult in COMMIT has brought. -/
def moultSeqNew (s : State) : Nat := (s.scu.moultSeq + 1) % 2 ^ 32

/-- A slot joins those to be added. -/
def moultLater (s : State) (slot : Nat) : State := { s with moult := { s.moult with adds := s.moult.adds ++ [slot] } }

/-- Switch one stream, add those whose run this frees, and end the Moult where nothing is left (R48, R84, R238)
(a detail DEDUCED, log 32). -/
def switchStream (s : State) (slot : Nat) : State :=
  let c0 := s.cfgAt slot
  let seq := moultSeqNew s
  let s := match switchKind c0 s.run slot with
    | .removed => streamRemove s slot 1
    | .readded => moultLater (streamRemove s slot 1) slot
    | .continues => switchContinue s slot seq
    | .added => moultLater s slot
    | .untouched => s.updStream slot (fun x => { x with cfgSeq := seq })
  let s := { s with moult := { s.moult with waiting := s.moult.waiting.filter (· != slot) } }
  moultFinish (moultAdds seq s.moult.adds s)

/-- The switch of a slot discards the access unit that triggers it (R48, R84). -/
def switchDiscards (s : State) (slot : Nat) : Bool :=
  match switchKind (s.cfgAt slot) s.run slot with
  | .removed => true
  | .readded => true
  | _ => false

end Sys2Proof.Machine
end

