-- ==== Sys2Proof/Machine/Net.lean ====
section
/-! DEFINITION. Ethernet frames as received (R112, steps 1 to 7) and datagrams as sent (R114, R299, R410). -/

set_option Elab.async false

namespace Sys2Proof.Machine

/-! ### Sending -/

/-- Count `n` in port counter `k` (R133). -/
def npCount (s : State) (np k n : Nat) : State := s.updNp np (fun p => { p with ctr := bump p.ctr k n })

/-- Next hop of a destination: the destination itself on link, else the gateway of its family (R76). -/
def nextHop (s : State) (np dst : Nat) : Nat :=
  let n := cfgNet s.run np
  if isV4 dst then
    let k := 32 - nePre4 n
    if dst % 2 ^ 32 / 2 ^ k = neAddr4 n / 2 ^ k then dst else v4mapped (neGw4 n)
  else
    let k := 128 - nePre6 n
    if dst / 2 ^ k = neAddr6 n / 2 ^ k then dst else neGw6 n

/-- Put a datagram on the wire: an IPv4 packet has Don't Fragment set and takes the port's next Identification; ECN and
the IPv6 flow label are 0 (R299). -/
def putUdp (s : State) (o : Out) : State :=
  match o with
  | .udp np dst sp dp hop dscp _ _ _ _ pay =>
    if isV4 dst then
      emit (.udp np dst sp dp hop dscp (s.np np).ipId true 0 0 pay) (s.updNp np (fun p => { p with ipId := (p.ipId + 1) % 2 ^ 16 }))
    else emit (.udp np dst sp dp hop dscp 0 false 0 0 pay) s
  | o => emit o s

/-- How long a next hop that has answered counts as reachable, then as one to be delayed over, then as one to be probed,
in AON cycles: RFC 4861's 30 s, 5 s and three probes of 1 s (R114) (a detail PRESUMED, log 13). -/
def hopReachable : Nat := 3000000000
def hopDelay : Nat := 3500000000
def hopProbe : Nat := 3800000000

/-- Time since a next hop last answered; none where it is not known, or its probes went unanswered (R114). -/
def hopAge (s : State) (np hop : Nat) : Option Nat :=
  match mfind (s.np np).hops hop with
  | none => none
  | some t => if s.now - t < hopProbe then some (s.now - t) else none

/-- Send a datagram: at once to a group or a resolved next hop, else when the hop answers (R114). `who` is the slot
plus 1 of a stream, or 0 for telemetry. A port without link sends nothing. -/
def sendUdp (s : State) (np dst who : Nat) (o : Out) : State :=
  let hop := nextHop s np dst
  if !(s.np np).link then s
  else if isMcast dst then putUdp s o
  else if let some age := hopAge s np hop then
    putUdp (if age < hopDelay then s else emit (.neighborRequest np hop) s) o
  else
    let first := (mget (s.np np).waiting hop).isEmpty
    let s := s.updNp np (fun p => { p with waiting := mupd p.waiting hop (· ++ [(who, o)]) })
    if first then emit (.neighborRequest np hop) s else s

/-- Send a list of datagrams. -/
def putAll : List (Nat × Out) → State → State
  | [], s => s
  | o :: t, s => putAll t (putUdp s o.2)

/-- A next hop has answered: what waited for it is sent. An answer that nothing asked for is ignored (R114)
(a detail PRESUMED, log 13). -/
def hopResolved (s : State) (np hop : Nat) : State :=
  let w := mget (s.np np).waiting hop
  if w.isEmpty && (mfind (s.np np).hops hop).isNone then s
  else putAll w (s.updNp np (fun p => { p with hops := mput p.hops hop s.now, waiting := mdel p.waiting hop }))

/-- The logs and traces of a telemetry packet that is dropped are counted as dropped on the Ethernet path (R409, R410):
the classes of its events, 32 bytes each after a header of 16. -/
def telemetryDropped (s : State) (o : Out) : State :=
  match o with
  | .udp _ _ _ _ _ _ _ _ _ _ pay =>
    let cls := (List.range ((pay.length - 16) / 32)).map (fun i => byteAt pay (16 + 32 * i + 2))
    s.updPath 0 (fun q => pathLoseTraces (pathLoseLogs q (countIf cls (fun c => c == 2 || c == 5))) (countIf cls (· == 3)))
  | _ => s

/-- Count the packets dropped for an unresolved next hop: those of a stream in counter 8 of R303, those of telemetry by
the events they carry (R114, R302) (a detail DEDUCED, log 13). -/
def hopDropped : List (Nat × Out) → State → State
  | [], s => s
  | (w, o) :: t, s =>
    hopDropped t
      (if w = 0 then telemetryDropped s o
       else s.updStream (w - 1) (fun x => { x with tds := bump x.tds 8 1 }))

/-- NEXT_HOP_TIMEOUT (R114) (a detail DEDUCED, log 13). -/
def execNextHopTimeout (np hop : Nat) (s : State) : Host.Outcome State Fault Refusal :=
  let w := mget (s.np np).waiting hop
  done (hopDropped w (s.updNp np (fun p => { p with waiting := mdel p.waiting hop })))

/-! ### One's-complement checksums -/

/-- Sum of 16-bit big-endian words; an odd last byte is the high byte of a word. -/
def ocSum : Bytes → Nat
  | [] => 0
  | [a] => a.toNat * 256
  | a :: b :: t => a.toNat * 256 + b.toNat + ocSum t

/-- The sum folded to 16 bits. -/
def ocFold (n : Nat) : Nat := if n = 0 then 0 else (n - 1) % 65535 + 1

/-- A covered range with its checksum field sums to all ones. -/
def ocOk (n : Nat) : Bool := ocFold n = 65535

/-! ### Parsing a received frame -/

/-- An IP packet: addresses in the IPv4-mapped form of R67. -/
structure IpPkt where
  src : Nat
  dst : Nat
  proto : Nat
  hop : Nat
  payload : Bytes
  deriving DecidableEq, Repr

/-- What the nine checks find, up to step 7. -/
inductive Rx where
  | drop (counter : Nat)
  | arp (b : Bytes)
  | control (p : IpPkt)
  | udp (src dst sport dport : Nat) (payload : Bytes)
  deriving DecidableEq, Repr

/-- IPv4 options are Router Alert, End of Option List and No Operation only. -/
def v4OptionsOk : Nat → Bytes → Bool
  | 0, _ => true
  | _, [] => true
  | fuel + 1, b :: t =>
    if b = 0 then t.all (fun x => x == 0 || x == 1)
    else if b = 1 then v4OptionsOk fuel t
    else if b = 148 then byteAt (b :: t) 1 = 4 && 4 ≤ t.length + 1 && v4OptionsOk fuel ((b :: t).drop 4)
    else false

/-- Hop-by-Hop options: Router Alert, Pad1 and PadN; answers whether a Router Alert is among them, none when
another option is, or one does not end within the header; `fuel` is the length. -/
def hbhOptions : Nat → Bytes → Option Bool
  | 0, _ => some false
  | _, [] => some false
  | fuel + 1, b :: t =>
    if b = 0 then hbhOptions fuel t
    else if b = 1 then
      if t.length < 1 + byteAt t 0 || t.isEmpty then none else hbhOptions fuel (t.drop (1 + byteAt t 0))
    else if b = 5 then
      if byteAt t 0 = 2 && 3 ≤ t.length then (hbhOptions fuel (t.drop 3)).map (fun _ => true) else none
    else none

/-- Pseudo-header sum of the transport checksums. -/
def pseudoSum (p : IpPkt) (len : Nat) : Nat :=
  if isV4 p.dst then ocSum (toBe 4 (p.src % 2 ^ 32) ++ toBe 4 (p.dst % 2 ^ 32)) + p.proto + len
  else ocSum (toBe 16 p.src ++ toBe 16 p.dst) + p.proto + len % 65536 + len / 65536

/-- Steps 6 and 7 of R112. -/
def rxTransport (p : IpPkt) : Rx :=
  let v4 := isV4 p.dst
  if p.proto = 17 then
    let b := p.payload
    let len := beAt b 4 2
    if b.length < 8 || len < 8 || b.length < len then .drop 6
    else
      let sum := beAt b 6 2
      if sum = 0 && !v4 then .drop 6
      else if sum ≠ 0 && !ocOk (pseudoSum p len + ocSum (b.take len)) then .drop 6
      else .udp p.src p.dst (beAt b 0 2) (beAt b 2 2) (slice b 8 (len - 8))
  else if (v4 && (p.proto = 1 || p.proto = 2)) || (!v4 && p.proto = 58) then .control p
  else .drop 10

/-- Steps 4 to 7 for IPv4. -/
def rxV4 (b : Bytes) : Rx :=
  let ihl := byteAt b 0 % 16 * 4
  let total := beAt b 2 2
  if b.length < 20 || byteAt b 0 / 16 ≠ 4 || ihl < 20 || total < ihl || b.length < total ||
      !ocOk (ocSum (b.take ihl)) || !v4OptionsOk 40 (slice b 20 (ihl - 20)) then .drop 4
  else if beAt b 6 2 % 16384 ≠ 0 then .drop 5
  else rxTransport ⟨v4mapped (beAt b 12 4), v4mapped (beAt b 16 4), byteAt b 9, byteAt b 8, slice b ihl (total - ihl)⟩

/-- Extension headers of IPv6 other than Hop-by-Hop and Fragment. -/
def v6Extension (n : Nat) : Bool :=
  n = 43 || n = 50 || n = 51 || n = 60 || n = 135 || n = 139 || n = 140 || n = 253 || n = 254 || n = 0

/-- What follows the IPv6 header and, where there is one, the Hop-by-Hop header. -/
def rxV6Next (src dst hop next : Nat) (pay : Bytes) : Rx :=
  if next = 44 then .drop 5
  else if v6Extension next then .drop 4
  else rxTransport ⟨src, dst, next, hop, pay⟩

/-- Steps 4 to 7 for IPv6. -/
def rxV6 (b : Bytes) : Rx :=
  let len := beAt b 4 2
  let pay := slice b 40 len
  if b.length < 40 || byteAt b 0 / 16 ≠ 6 || b.length < 40 + len then .drop 4
  else
    let src := beAt b 8 16
    let dst := beAt b 24 16
    if byteAt b 6 = 0 then
      let hl := (byteAt pay 1 + 1) * 8
      if pay.length < hl then .drop 4
      else if hbhOptions hl (slice pay 2 (hl - 2)) = some true then rxV6Next src dst (byteAt b 7) (byteAt pay 0) (pay.drop hl)
      else .drop 4
    else rxV6Next src dst (byteAt b 7) (byteAt b 6) pay

/-- Steps 1 to 7 of R112 on a frame with its FCS, on a port with network entry `n` (a detail DEDUCED, log 34). -/
def rxFrame (n frame : Bytes) : Rx :=
  let body := frame.take (frame.length - 4)
  if frame.length < 18 || crc32 body ≠ le32 frame (frame.length - 4) then .drop 1
  else if neMtu n + 22 < frame.length then .drop 2
  else
    let tagged := beAt body 12 2 = 0x8100
    let vid := beAt body 14 2 % 4096
    let vlanOk := if neVlan n = 0 then !tagged || vid = 0 else tagged && vid = neVlan n
    if !vlanOk then .drop 3
    else
      let off := if tagged then 16 else 12
      let et := beAt body off 2
      let pay := body.drop (off + 2)
      if et = 0x0800 && neV4 n then rxV4 pay
      else if et = 0x86DD && neV6 n then rxV6 pay
      else if et = 0x0806 && neV4 n then .arp pay
      else .drop 10

/-! ### Control traffic (R114 to R116) -/

/-- Responses that a port may make in one 1 s interval (R116). -/
def controlLimit : Nat := 1000

/-- Answer a control request within the rate limit (R116). -/
def controlAnswer (s : State) (np : Nat) (act : State → State) : State :=
  if (s.np np).responses < controlLimit then
    act (npCount (s.updNp np (fun p => { p with responses := p.responses + 1 })) np 8 1)
  else npCount s np 9 1

/-- An ARP packet: a request for the port's address is answered, a reply resolves a hop (R114). -/
def rxArp (s : State) (np : Nat) (b : Bytes) : State :=
  let n := cfgNet s.run np
  if b.length < 28 || beAt b 0 2 ≠ 1 || beAt b 2 2 ≠ 0x0800 then s
  else if beAt b 6 2 = 1 && beAt b 24 4 = neAddr4 n then
    controlAnswer s np (fun s => emit (.neighborReply np (v4mapped (beAt b 14 4))) s)
  else if beAt b 6 2 = 2 && beAt b 24 4 = neAddr4 n then hopResolved s np (v4mapped (beAt b 14 4))
  else s

/-- Older Version Querier Present Timeout of RFC 3376 and RFC 3810: two query intervals of 125 s and a response interval
of 10 s, in AON cycles (R115) (a detail PRESUMED, log 13). -/
def oldQuerierTime : Nat := 26000000000

/-- Schedule the report that answers a membership query for `group`, 0 for a general one, and the sources it names
(R115). A query of an older version holds the port to that version of its family for the timeout of the RFC
(a detail DEDUCED, log 34). -/
def membershipQuery (s : State) (np group : Nat) (v4 : Bool) (sources : List Nat) (old : Bool) : State :=
  controlAnswer s np (fun s => s.updNp np (fun p => { p with
    oldUntil4 := if old && v4 then s.now + oldQuerierTime else p.oldUntil4
    oldUntil6 := if old && !v4 then s.now + oldQuerierTime else p.oldUntil6
    queries := p.queries ++ [(group, sources)] }))

/-- Sources that a query of the newer version names: `n` bytes each, counted at `cnt` and standing from `off`. -/
def querySources (b : Bytes) (cnt off n : Nat) : List Nat :=
  (List.range (min (beAt b cnt 2) ((b.length - off) / n))).map (fun i =>
    if n = 4 then v4mapped (beAt b (off + 4 * i) 4) else beAt b (off + 16 * i) 16)

/-- Options of a Neighbor Discovery message all have a length. -/
def ndOptionsOk : Nat → Bytes → Bool
  | 0, _ => true
  | _, [] => true
  | fuel + 1, b => byteAt b 1 ≠ 0 && decide (8 * byteAt b 1 ≤ b.length) && ndOptionsOk fuel (b.drop (8 * byteAt b 1))

/-- A Neighbor Solicitation or Advertisement passes the validity checks of RFC 4861 (R114) (a detail PRESUMED, log 13). -/
def ndValid (p : IpPkt) : Bool :=
  let b := p.payload
  p.hop = 255 && byteAt b 1 = 0 && decide (24 ≤ b.length) && !isMcast (beAt b 8 16) && ndOptionsOk b.length (b.drop 24) &&
    (if byteAt b 0 = 135 then p.src ≠ 0 || (isMcast p.dst && byteAt (b.drop 24) 0 ≠ 1)
     else !isMcast p.dst || byteAt b 4 / 64 % 2 = 0)

/-- ICMP, IGMP and ICMPv6 messages that the port answers; every other one is ignored (R114, R115)
(a detail DEDUCED, log 34). -/
def rxControl (s : State) (np : Nat) (p : IpPkt) : State :=
  let n := cfgNet s.run np
  let b := p.payload
  let own4 := p.dst = v4mapped (neAddr4 n)
  let own6 := p.dst = neAddr6 n
  if p.proto = 1 then
    if byteAt b 0 = 8 && own4 && neEcho n && ocOk (ocSum b) then
      controlAnswer s np (fun s => emit (.echoReply np p.src (b.drop 4)) (useIpId s np p.src))
    else s
  else if p.proto = 2 then
    if byteAt b 0 = 0x11 && ocOk (ocSum b) then
      membershipQuery s np (if beAt b 4 4 = 0 then 0 else v4mapped (beAt b 4 4)) true (querySources b 10 12 4) (b.length < 12)
    else s
  else if !ocOk (pseudoSum p b.length + ocSum b) then s
  else if byteAt b 0 = 128 && own6 && neEcho n then
    controlAnswer s np (fun s => emit (.echoReply np p.src (b.drop 4)) s)
  else if byteAt b 0 = 135 && ndValid p && beAt b 8 16 = neAddr6 n then
    controlAnswer s np (fun s => emit (.neighborReply np p.src) s)
  else if byteAt b 0 = 136 && ndValid p then hopResolved s np (beAt b 8 16)
  else if byteAt b 0 = 130 then membershipQuery s np (beAt b 8 16) false (querySources b 26 28 16) (b.length < 28)
  else s

/-- Live streams of a port that join a group; of every group for 0. -/
def joinedSlots (s : State) (np group : Nat) : List Nat :=
  (s.streams.filter (fun p =>
    let e := s.se p.1
    p.2.live && seNet e && seSource e == np && seJoin e != 0 && (group == 0 || seAddr e == group))).map (·.1)

/-- One report for each distinct membership among slots. -/
def reportSlots (stateChange : Bool) : List Nat → List (Nat × Nat × Nat) → State → State
  | [], _, s => s
  | i :: t, seen, s =>
    let e := s.se i
    let k := (seAddr e, seJoin e, seSsm e)
    if seen.contains k then reportSlots stateChange t seen s
    else reportSlots stateChange t (k :: seen) (reportGroup s e stateChange)

/-- Answer a group-and-source query of the newer version: the sources it names that the port accepts for the group,
all of them where a stream has no source list; none, and no report, where it accepts none of them (R115)
(a detail PRESUMED, log 13). -/
def reportSources (s : State) (np group : Nat) (sources slots : List Nat) : State :=
  let all := slots.any (fun i => seJoin (s.se i) == 1)
  let l := sources.filter (fun a => all || slots.any (fun i => seSsm (s.se i) == a))
  if slots.isEmpty || l.isEmpty then s
  else emit (.membership np group true l (mcastVersion s np group) false) (useIpId s np group)

/-- QUERY_RESPONSE_TIMER (R115): the delay of the port's oldest query has run out. -/
def execQueryResponseTimer (np : Nat) (s : State) : Host.Outcome State Fault Refusal :=
  match (s.np np).queries with
  | [] => done s
  | g :: t =>
    let s := s.updNp np (fun p => { p with queries := t })
    let slots := joinedSlots s np g.1
    if g.2.isEmpty || mcastOld s np g.1 then done (reportSlots false slots [] s)
    else done (reportSources s np g.1 g.2 slots)

/-- UNSOLICITED_REPORT_TIMER (R115): 1 s after the first unsolicited report of a stream. -/
def execUnsolicitedReportTimer (np slot : Nat) (s : State) : Host.Outcome State Fault Refusal :=
  let e := s.se slot
  if (s.stream slot).ing.report2 && (s.stream slot).live && seSource e = np && (s.np np).link then
    done (reportGroup (s.updIng slot (fun g => { g with report2 := false })) e true)
  else done (s.updIng slot (fun g => { g with report2 := false }))

/-- CONTROL_RATE_WINDOW (R116): the next 1 s interval starts. -/
def execControlRateWindow (np : Nat) (s : State) : Host.Outcome State Fault Refusal :=
  done (s.updNp np (fun p => { p with responses := 0 }))

/-- First reports of the streams of a port. -/
def joinReports : List Nat → State → State
  | [], s => s
  | i :: t, s => joinReports t (joinReport s i)

/-- ETH_LINK_UP (R27, R110, R115): a port comes up only after Imago entry has released it, and where it is enabled. -/
def execEthLinkUp (np : Nat) (s : State) : Host.Outcome State Fault Refusal :=
  if s.imago && neEnabled (cfgNet s.run np) && !(s.np np).link then
    done (joinReports (joinedSlots s np 0) (s.updNp np (fun p => { p with link := true })))
  else done s

/-- ETH_LINK_DOWN (R57): the port loses its link; its streams stay live. -/
def execEthLinkDown (np : Nat) (s : State) : Host.Outcome State Fault Refusal :=
  done (s.updNp np (fun p => { p with link := false, queries := [], oldUntil4 := 0, oldUntil6 := 0, hops := [], waiting := [] }))

end Sys2Proof.Machine
end

