-- ==== Sys2Proof/Machine/Ingest.lean ====
section
/-! DEFINITION. Network ingest (R116 to R124), reference time (R130), access units (R119, R123, R138) and fusion-group
alignment (R132). -/

set_option Elab.async false

namespace Sys2Proof.Machine

/-- Count `n` in stream counter `k` (R133). -/
def ingCount (s : State) (slot k n : Nat) : State := s.updIng slot (fun g => { g with ctr := bump g.ctr k n })

/-! ### Reference time (R130) -/

/-- to_ntp: ticks of `hz` to units of 2^−32 s, rounded half up. -/
def toNtp (ticks hz : Nat) : Nat := ((ticks * 2 ^ 32 + hz / 2) / hz) % 2 ^ 64

/-- ref_time of R130. -/
def refTime (ext srExt : Int) (srNtp : Nat) : Nat :=
  let d := ext - srExt
  let q := ((d.natAbs * 2 ^ 32 + 45000) / 90000 : Nat)
  (((srNtp : Int) + (if 0 ≤ d then (q : Int) else -(q : Int))) % 2 ^ 64).toNat

/-- extend of R130, for a value of `w` bits. -/
def extendTo (w : Nat) (prev : Int) (v : Nat) : Int :=
  let d : Int := ((v : Int) - prev) % (2 : Int) ^ w
  prev + (if d < (2 : Int) ^ (w - 1) then d else d - (2 : Int) ^ w)

/-- Extended value of a first or later timestamp. -/
def extendOpt (w : Nat) (prev : Option Int) (v : Nat) : Int :=
  match prev with
  | none => (v : Int)
  | some p => extendTo w p v

/-- map(rtp): through the last Sender Report, and through the one before it for timestamps earlier than a report that
moved the mapping (R124, R130). -/
def mapRtp (g : Ingest) (ext : Int) : Option Nat :=
  match g.sr with
  | none => none
  | some (e, n) =>
    match g.srOld with
    | some (from_, e0, n0) => if ext < from_ then some (refTime ext e0 n0) else some (refTime ext e n)
    | none => some (refTime ext e n)

/-! ### Timelines (R117, R122, R124) -/

/-- Restart a stream's timeline; what parse-ahead has indexed is parsed again (R143). -/
def timelineRestart (s : State) (slot : Nat) : State :=
  let s := s.updIng slot (fun g => { g with
    segment := min 65535 (g.segment + 1), topRef := none, srMoved := none,
    ts := { g.ts with pts := none, ptsStep := 0, pmtLogged := false } })
  ingCount (rollback s slot) slot 11 1

/-- Damage the open access unit, or the next one to open (R122). -/
def auDamage (s : State) (slot : Nat) : State :=
  s.updIng slot (fun g => match g.au with
    | some a => { g with au := some { a with damaged := true } }
    | none => { g with nextDamaged := true })

/-! ### Alignment (R132) -/

/-- ALIGNMENT_TIMEOUT (R132): min(40 ms, window_ms) after the access unit closed. -/
def execAlignmentTimeout (slot au : Nat) (s : State) : Host.Outcome State Fault Refusal :=
  match s.frames.find? (fun p => p.2.slot == slot && p.2.au == au) with
  | none => done s
  | some (fid, f) => if f.aligned || frameEnded f then done s else done (alignDecide s fid)

/-! ### Access units (R119, R123, R138) -/

/-- Pool of 4 KiB buffers. -/
def ingressPool (c : Sections) : Option Nat :=
  (List.range poolCount).find? (fun k => poLog2 (cfgPool c k) = 12 && 0 < poCount (cfgPool c k))

/-- Buffers still to be taken for an access unit that grows to `len` bytes. -/
def auNeeds (a : OpenAu) (len : Nat) : Nat := ceilDiv len 4096 - a.bufs.length

/-- Room for `n` more bytes of a stream: nothing where there is, else the state in which the refused request was
counted. -/
def auRefused (s : State) (slot n : Nat) : Option State :=
  let a := (s.stream slot).ing.au.getD default
  if a.oversize then none
  else
    let need := if seBurst (s.se slot) < a.data.length + n then 0 else auNeeds a (a.data.length + n)
    if need = 0 then none
    else
      match ingressPool s.run with
      | none => some s
      | some k =>
        let (got, s') := allocMany (slotPart s slot) k need s
        if got.length = need then none else some (releaseAll (slotPart s slot) got s')

/-- Open an access unit where none is open. -/
def auOpen (s : State) (slot ts : Nat) (rtp : Option Int) (ref : Option Nat) : State :=
  s.updIng slot (fun g => match g.au with
    | some _ => g
    | none => { g with
        au := some { (default : OpenAu) with damaged := g.nextDamaged, ts := ts, rtp := rtp, ref := ref, seg := g.segment }
        nextDamaged := false })

/-- A datagram is refused a buffer: it is counted once, what is left of it is discarded, and its access unit is damaged
(R119). -/
def auNoBuffer (s : State) (slot : Nat) : State :=
  let s := auDamage s slot
  if (s.stream slot).ing.noBuffer then s
  else ingCount (s.updIng slot (fun g => { g with noBuffer := true })) slot 10 1

/-- Append bytes of the datagram in hand to the open access unit: buffers are taken as it grows; one larger than
burst_bytes is discarded before the buffer that would exceed it, and a datagram that is refused a buffer is discarded
(R119). -/
def auAppend (s : State) (slot : Nat) (b : Bytes) : State :=
  match (s.stream slot).ing.au with
  | none => s
  | some a =>
    if a.oversize then s
    else if (s.stream slot).ing.noBuffer then auDamage s slot
    else if seBurst (s.se slot) < a.data.length + b.length then
      releaseAll (slotPart s slot) a.bufs
        (s.updIng slot (fun g => { g with au := some { a with oversize := true, data := [], bufs := [] } }))
    else
      let need := auNeeds a (a.data.length + b.length)
      let (got, s) := match ingressPool s.run with
        | none => ([], s)
        | some k => allocMany (slotPart s slot) k need s
      if got.length = need then
        s.updIng slot (fun g => { g with au := some { a with data := a.data ++ b, bufs := a.bufs ++ got } })
      else auNoBuffer (releaseAll (slotPart s slot) got s) slot

/-- A new datagram or packet is in hand. -/
def dgramNew (s : State) (slot : Nat) : State := s.updIng slot (fun g => { g with noBuffer := false })

/-- Queue a closed access unit for decode, or discard it (R136, R138). A stream without an engine tries for one first
(a detail DEDUCED, log 36). -/
def auQueue (s : State) (slot fid : Nat) : State :=
  let s := if (s.stream slot).dec.engine.isNone then engineAssignAll (mkeys s.streams) s else s
  if (s.stream slot).dec.engine.isNone then decLog (decCount (discardFrame s fid 3) slot 4 1) slot
  else auHold slot s fid

/-- The frame of an access unit as it closes. -/
def auFrame (s : State) (slot n : Nat) (a : OpenAu) : Frame :=
  { (default : Frame) with
    slot := slot, au := n % 2 ^ 32, cfgSeq := (s.stream slot).cfgSeq, segment := a.seg, data := a.data, bufs := a.bufs,
    damaged := a.damaged || a.oversize, srcTs := a.ts, ref := a.ref, closedAt := s.now, interp := streamInterp s slot,
    budgetMul := tunCurrent s slot 0x11, rate := tunCurrent s slot 0x13 }

/-- Enter a frame: its number, and the state with it. -/
def addFrame (s : State) (f : Frame) : Nat × State :=
  (s.nextFrame, { s with frames := mput s.frames s.nextFrame f, nextFrame := s.nextFrame + 1 })

/-- A member has closed an access unit with this reference time. -/
def noteRef (s : State) (slot seg : Nat) (ref : Option Nat) : State :=
  match ref with
  | none => s
  | some t => s.updIng slot (fun g =>
      if g.segment = seg then { g with topRef := some (max t (g.topRef.getD 0)) } else g)

/-- Flags of a frame at its close: reference only for a non-emitting fusion member (R402). -/
def refOnlyFlag (s : State) (f : Frame) : Frame := if refOnly s f then { f with flags := f.flags ||| 32 } else f

/-- Close the open access unit: it is counted, takes its number and ledger entry, switches the stream where a Moult
waits for it, and is queued for decode or discarded (R48, R119, R123, R402). -/
def auClose (s : State) (slot : Nat) : State :=
  match (s.stream slot).ing.au with
  | none => s
  | some a =>
    let n := mget (s.stream slot).ing.ctr 8
    let s := ingCount (s.updIng slot (fun g => { g with au := none })) slot 8 1
    let s := if a.damaged || a.oversize then ingCount s slot 9 1 else s
    let waits := s.moult.state = 5 && s.moult.waiting.contains slot
    if waits && switchDiscards s slot then
      let (fid, s) := addFrame s (auFrame s slot n a)
      switchStream (discardFrame s fid 1) slot
    else
      let s := if waits then switchStream s slot else s
      let (fid, s) := addFrame s (refOnlyFlag s (auFrame s slot n a))
      if a.oversize then alignGroup (noteRef (discardFrame s fid 7) slot a.seg a.ref) slot
      else
        let s := noteRef (frameStage s fid 1) slot a.seg a.ref
        let s := auQueue s slot fid
        alignGroup s slot

/-! ### RTP (R120 to R122) -/

/-- A received RTP packet. -/
structure RtpHdr where
  seq : Nat
  ts : Nat
  marker : Bool
  ssrc : Nat
  payload : Bytes

/-- Parse an RTP packet: version 2, the required payload type, padding, CSRC list and extension (R120). -/
def rtpParse (pt : Nat) (b : Bytes) : Option RtpHdr :=
  let cc := byteAt b 0 % 16
  let off := 12 + 4 * cc
  let ext := byteAt b 0 / 16 % 2 = 1
  let off := if ext then off + 4 + 4 * beAt b (off + 2) 2 else off
  let pad := if byteAt b 0 / 32 % 2 = 1 then byteAt b (b.length - 1) else 0
  let padOk := byteAt b 0 / 32 % 2 = 0 || 1 ≤ pad
  if b.length < 12 || byteAt b 0 / 64 ≠ 2 || byteAt b 1 % 128 ≠ pt || b.length < off + pad || !padOk then none
  else
    some ⟨beAt b 2 2, beAt b 4 4, byteAt b 1 ≥ 128, beAt b 8 4, slice b off (b.length - off - pad)⟩

/-- An unsigned LEB128 value and the bytes after it; none where it does not end within 8 bytes. -/
def leb128 : Nat → Nat → Bytes → Option (Nat × Bytes)
  | 0, _, _ => none
  | _, _, [] => none
  | fuel + 1, sh, b :: t =>
    if b.toNat < 128 then some (b.toNat * 2 ^ sh, t)
    else (leb128 fuel (sh + 7) t).map (fun r => (b.toNat % 128 * 2 ^ sh + r.1, r.2))

/-- OBU elements of an AV1 payload after its aggregation header: `w` of them, the last without a length; any number with
lengths for 0. None where a length runs past the end; `fuel` is the length of the payload. -/
def av1Elements : Nat → Nat → Bytes → Option (List Bytes)
  | _, 1, b => some [b]
  | 0, _, _ => some []
  | _, 0, [] => some []
  | fuel + 1, w, b =>
    match leb128 8 0 b with
    | none => none
    | some (n, t) => if t.length < n then none else (av1Elements fuel (w - 1) (t.drop n)).map (t.take n :: ·)

/-- An OBU carries the extension that names a layer above the first: a stream of more than one spatial or temporal layer
(R121) (a detail DEDUCED, log 34). -/
def obuLayered (o : Bytes) : Bool := byteAt o 0 / 4 % 2 = 1 && byteAt o 1 / 8 ≠ 0

/-- A payload of AV1 is supported: its elements are whole, and none that starts an OBU belongs to a scalable stream. -/
def av1Ok (b : Bytes) : Bool :=
  match av1Elements b.length (byteAt b 0 / 16 % 4) (b.drop 1) with
  | none => false
  | some es => ((if 128 ≤ byteAt b 0 then es.drop 1 else es).all (fun o => !obuLayered o))

/-- Start and end of a fragmented unit in a native payload; both for a whole one, none for an unsupported type
(R121). -/
def payloadKind (codec : Nat) (b : Bytes) : Option (Bool × Bool) :=
  if codec = 2 then
    let t := byteAt b 0 % 32
    if b.isEmpty then none
    else if 1 ≤ t && t ≤ 24 then some (true, true)
    else if t = 28 && 2 ≤ b.length then some (128 ≤ byteAt b 1, byteAt b 1 / 64 % 2 = 1)
    else none
  else if codec = 3 then
    let t := byteAt b 0 / 2 % 64
    if b.length < 2 then none
    else if t ≤ 48 then some (true, true)
    else if t = 49 && 3 ≤ b.length then some (128 ≤ byteAt b 2, byteAt b 2 / 64 % 2 = 1)
    else none
  else if codec = 4 then
    if b.isEmpty || !av1Ok b then none else some (byteAt b 0 < 128, byteAt b 0 / 64 % 2 = 0)
  else none

/-! ### Transport streams (R123, R124) -/

/-- The TS packets of a payload: 1 to 48 of 188 bytes, each with sync byte 0x47. -/
def tsSplit (b : Bytes) : Option (List Bytes) :=
  let n := b.length / 188
  let ps := (List.range n).map (fun i => slice b (188 * i) 188)
  if b.length % 188 ≠ 0 || n = 0 || 48 < n || ps.any (fun p => byteAt p 0 ≠ 0x47) then none else some ps

def tpPid (p : Bytes) : Nat := beAt p 1 2 % 8192
def tpTei (p : Bytes) : Bool := 128 ≤ byteAt p 1
def tpStart (p : Bytes) : Bool := byteAt p 1 / 64 % 2 = 1
def tpScrambled (p : Bytes) : Bool := byteAt p 3 / 64 ≠ 0
def tpHasAf (p : Bytes) : Bool := byteAt p 3 / 32 % 2 = 1
def tpHasPay (p : Bytes) : Bool := byteAt p 3 / 16 % 2 = 1
def tpCc (p : Bytes) : Nat := byteAt p 3 % 16
/-- Length of the adaptation field with its length byte; it is malformed above 184. -/
def tpAfLen (p : Bytes) : Nat := if tpHasAf p then byteAt p 4 + 1 else 0
def tpDisc (p : Bytes) : Bool := tpHasAf p && 0 < byteAt p 4 && 128 ≤ byteAt p 5
/-- PCR in 27 MHz ticks: base × 300 plus extension. -/
def tpPcr (p : Bytes) : Option Nat :=
  if tpHasAf p && 7 ≤ byteAt p 4 && byteAt p 5 / 16 % 2 = 1 then
    some (beAt p 6 6 / 2 ^ 15 * 300 + beAt p 6 6 % 512)
  else none
def tpPayload (p : Bytes) : Bytes := p.drop (4 + tpAfLen p)

/-- Program and PMT PID that a PAT section gives for a program; 0 takes the first. -/
def patFind (sec : Bytes) (program : Nat) : Option (Nat × Nat) :=
  let k := (sec.length - 12) / 4
  ((List.range k).map (fun i => (beAt sec (8 + 4 * i) 2, beAt sec (10 + 4 * i) 2 % 8192))).find?
    (fun p => if program = 0 then p.1 != 0 else p.1 == program)

/-- stream_type of a codec (R123). -/
def codecType (codec : Nat) : Nat :=
  if codec = 1 then 0x02 else if codec = 2 then 0x1B else if codec = 3 then 0x24 else if codec = 4 then 0x06 else 0x33

/-- A descriptor loop holds the registration descriptor "AV01". -/
def hasAv01 : Nat → Bytes → Bool
  | 0, _ => false
  | fuel + 1, d =>
    if d.length < 2 then false
    else if byteAt d 0 = 5 && 4 ≤ byteAt d 1 && slice d 2 4 == [0x41, 0x56, 0x30, 0x31] then true
    else hasAv01 fuel (d.drop (2 + byteAt d 1))

/-- First elementary stream of a PMT that matches the codec: its PID. -/
def pmtFind (codec : Nat) : Nat → Bytes → Option Nat
  | 0, _ => none
  | fuel + 1, b =>
    if b.length < 5 then none
    else
      let el := beAt b 3 2 % 4096
      if byteAt b 0 = codecType codec && (codec ≠ 4 || hasAv01 el (slice b 5 el)) then some (beAt b 1 2 % 8192)
      else pmtFind codec fuel (b.drop (5 + el))

/-- A PMT section of a program: PCR PID and video PID. -/
def pmtParse (sec : Bytes) (program codec : Nat) : Option (Nat × Option Nat) :=
  if byteAt sec 0 ≠ 2 || beAt sec 3 2 ≠ program then none
  else
    let pil := beAt sec 10 2 % 4096
    some (beAt sec 8 2 % 8192, pmtFind codec sec.length (slice sec (12 + pil) (sec.length - 16 - pil)))

/-- A section is complete: its bytes. -/
def sectWhole (b : Bytes) : Option Bytes :=
  let n := 3 + beAt b 1 2 % 4096
  if b.length < 3 || b.length < n then none else some (b.take n)

/-- A PAT names the program's PMT. -/
def onPat (s : State) (slot : Nat) (sec : Bytes) : State :=
  if byteAt sec 0 ≠ 0 then s
  else
    match patFind sec (seProgram (s.se slot)) with
    | none => s
    | some (prog, pid) => s.updIng slot (fun g => { g with ts := { g.ts with pmtPid := some pid, program := prog } })

/-- A PMT of the program: a changed video PID restarts the timeline (R124). -/
def onPmt (s : State) (slot : Nat) (sec : Bytes) : State :=
  let t := (s.stream slot).ing.ts
  match pmtParse sec t.program (seCodec (s.se slot)) with
  | none => s
  | some (pcr, vid) =>
    let s := if t.videoPid.isSome && t.videoPid ≠ vid then
        raiseLogOf (timelineRestart s slot) uParser (slotPart s slot) slot
      else s
    let differed (s : State) : Bool := match cfgGroup (s.cfgAt slot) slot with
      | none => false
      | some g => pcrDiffers s g
    let before := differed s
    let s := s.updIng slot (fun g => { g with ts := { g.ts with
      pcrPid := if pcr = 0x1FFF then none else some pcr
      videoPid := vid
      streamType := if vid.isSome then codecType (seCodec (s.se slot)) else 0
      cc := if g.ts.videoPid = vid then g.ts.cc else none } })
    let s := if differed s && !before then raiseLogOf s uParser (slotPart s slot) slot else s
    if vid.isNone then alignGroup s slot else s

/-- A whole section with a correct CRC-32 (R123). -/
def onSection (s : State) (slot pid : Nat) (sec : Bytes) : State :=
  if sec.length < 12 || crcMpeg sec ≠ 0 then s
  else if pid = 0 then onPat s slot sec
  else onPmt s slot sec

/-- Bytes that follow in a section being gathered; a whole section is handled, and stuffing ends the gathering. -/
def sectGather (slot pid : Nat) : Nat → Bytes → State → State
  | 0, _, s => s
  | fuel + 1, b, s =>
    match sectWhole b with
    | none => s.updIng slot (fun g => { g with ts := { g.ts with sect := mput g.ts.sect pid b } })
    | some sec =>
      let s := onSection s slot pid sec
      let rest := b.drop sec.length
      if rest.isEmpty || byteAt rest 0 = 0xFF then
        s.updIng slot (fun g => { g with ts := { g.ts with sect := mdel g.ts.sect pid } })
      else sectGather slot pid fuel rest s

/-- A packet that carries sections. -/
def onPsi (s : State) (slot pid : Nat) (p : Bytes) : State :=
  let b := tpPayload p
  if !tpHasPay p || 184 < tpAfLen p then s
  else if tpStart p then
    let k := byteAt b 0
    let prev := (mfind (s.stream slot).ing.ts.sect pid).map (· ++ slice b 1 k)
    let s := match prev with
      | none => s
      | some x => sectGather slot pid 64 x s
    sectGather slot pid 64 (b.drop (1 + k)) s
  else
    match mfind (s.stream slot).ing.ts.sect pid with
    | none => s
    | some x => sectGather slot pid 64 (x ++ b) s

/-- PCR of one packet: a jump of more than 100 ms from its extrapolation restarts the timeline; transport 2 takes its
offset (R124, R130). -/
def onPcr (s : State) (slot : Nat) (pcr : Nat) (disc : Bool) (rtp : Option Int) : State :=
  let wrap : Nat := 2 ^ 33 * 300
  let t := (s.stream slot).ing.ts
  let ext : Int := match t.pcr with
    | none => pcr
    | some p =>
      let d := ((pcr : Int) - p) % wrap
      if d < wrap / 2 then p + d else p + d - wrap
  let jump := match t.pcr with
    | none => false
    | some p =>
      let want := ((p + ((s.now - t.pcrAt) * 27 / 100 : Nat)) % (wrap : Int)).toNat
      let d := (pcr + wrap - want) % wrap
      !disc && decide (2700000 < min d (wrap - d))
  let s := if jump then timelineRestart s slot else s
  s.updIng slot (fun g =>
    let off := match rtp with
      | none => g.offset
      | some e => match mapRtp g e with
        | none => g.offset
        | some m => some ((m + 2 ^ 64 - toNtp (ext % 2 ^ 64).toNat 27000000) % 2 ^ 64)
    { g with ts := { g.ts with pcr := some ext, pcrAt := s.now }, offset := off })

/-- PTS of a PES header, 33 bits, where it has one. -/
def pesPts (b : Bytes) : Option Nat :=
  if 14 ≤ b.length && beAt b 0 3 = 1 && 128 ≤ byteAt b 7 then
    some (byteAt b 9 / 2 % 8 * 2 ^ 30 + beAt b 10 2 / 2 * 2 ^ 15 + beAt b 12 2 / 2)
  else none

/-- The bytes gathered so far do not settle whether a PES header has a PTS, and which. -/
def pesShort (b : Bytes) : Bool := b.length < 14 && (b.length < 8 || 128 ≤ byteAt b 7)

/-- Timestamp and reference time of an access unit with this PTS (R123, R130). -/
def ptsTake (s : State) (slot : Nat) (pts : Option Nat) : Option Int × Option Nat × State :=
  let g := (s.stream slot).ing
  let base : Option Int := match g.ts.pcr with
    | some p => some (p / 300)
    | none => g.ts.ptsBase
  let ext : Option Int := match pts with
    | some v => some (extendOpt 33 base v)
    | none => g.ts.pts.map (· + g.ts.ptsStep)
  match ext with
  | none => (none, none, s)
  | some x =>
    let step := match g.ts.pts with
      | none => 0
      | some p => x - p
    let s := s.updIng slot (fun g => { g with ts := { g.ts with pts := some x, ptsStep := step, ptsBase := some x } })
    let n := (x % 2 ^ 64).toNat
    let ref := if seTransport (s.se slot) = 3 then some (toNtp n 90000)
      else if g.sr.isSome then g.offset.map (fun o => (toNtp n 90000 + o) % 2 ^ 64) else none
    (some x, ref, s)

/-- The open access unit takes the timestamp that the bytes `b` of its PES header give. -/
def pesStamp (s : State) (slot : Nat) (b : Bytes) : State :=
  let (ext, ref, s) := ptsTake s slot (pesPts b)
  s.updIng slot (fun g => { g with au := g.au.map (fun a =>
    { a with ts := ((ext.getD 0) % 2 ^ 33).toNat, ref := ref, pes := none }) })

/-- More of the header of the open access unit's PES packet: the timestamp is taken as soon as it is settled (R123). -/
def pesMore (s : State) (slot : Nat) (b : Bytes) : State :=
  match (s.stream slot).ing.au.bind (·.pes) with
  | none => s
  | some h =>
    if pesShort (h ++ b) then s.updIng slot (fun g => { g with au := g.au.map (fun a => { a with pes := some (h ++ b) }) })
    else pesStamp s slot (h ++ b)

/-- Close the access unit of the PES packet that ends, its header settled as far as it came. -/
def pesClose (s : State) (slot : Nat) : State :=
  auClose (match (s.stream slot).ing.au.bind (·.pes) with
    | none => s
    | some h => pesStamp s slot h) slot

/-- A packet of the video PID that is not lost, repeated or scrambled. -/
def onVideo (s : State) (slot : Nat) (p : Bytes) : State :=
  if tpStart p then
    let s := auOpen (pesClose s slot) slot 0 none none
    let s := s.updIng slot (fun g => { g with au := g.au.map (fun a => { a with pes := some [] }) })
    auAppend (pesMore s slot (tpPayload p)) slot p
  else auAppend (pesMore s slot (tpPayload p)) slot p

/-- Continuity of the video PID: lost packets are counted, a repeated counter is discarded (R124). -/
def onContinuity (s : State) (slot : Nat) (p : Bytes) (disc : Bool) : Bool × State :=
  match (s.stream slot).ing.ts.cc with
  | none => (true, s)
  | some c =>
    if disc then (true, s)
    else if tpCc p = c then (false, ingCount s slot 6 1)
    else
      let miss := (tpCc p + 16 - c - 1) % 16
      if miss = 0 then (true, s) else (true, auDamage (ingCount s slot 5 miss) slot)

/-- A scrambled packet: its data is discarded, with one log per stream per 1 s; one that starts a PES packet closes the
access unit before it (R123, R124) (a detail DEDUCED, log 34). -/
def onScrambled (s : State) (slot : Nat) (start : Bool) : State :=
  let s := ingCount s slot 3 1
  let s := if start then pesClose s slot else if (s.stream slot).ing.au.isSome then auDamage s slot else s
  let l := (s.stream slot).ing.ts.scrambleLog
  if l = 0 || 100000000 ≤ s.now + 1 - l then
    raiseLogOf (s.updIng slot (fun g => { g with ts := { g.ts with scrambleLog := s.now + 1 } })) uParser
      (slotPart s slot) slot
  else s

/-- The stream keeps packets of a PID: its PAT, PMT, video and PCR. -/
def tsKeeps (t : TsState) (pid : Nat) : Bool :=
  pid == 0 || t.pmtPid == some pid || t.videoPid == some pid || t.pcrPid == some pid

/-- One TS packet of a stream. -/
def onTsPacket (s : State) (slot : Nat) (rtp : Option Int) (p : Bytes) : State :=
  let t := (s.stream slot).ing.ts
  let pid := tpPid p
  if !tsKeeps t pid then s
  else if tpTei p then
    let s := auDamage (ingCount s slot 5 1) slot
    if t.videoPid = some pid && tpHasPay p && t.cc.map (fun c => (c + 1) % 16) = some (tpCc p) then
      s.updIng slot (fun g => { g with ts := { g.ts with cc := some (tpCc p) } })
    else s
  else if pid = 0 || t.pmtPid = some pid then onPsi s slot pid p
  else if 184 < tpAfLen p then auDamage (ingCount s slot 3 1) slot
  else
    let s := if tpDisc p then timelineRestart s slot else s
    let s := match tpPcr p with
      | some c => if t.pcrPid = some pid then onPcr s slot c (tpDisc p) rtp else s
      | none => s
    if t.videoPid ≠ some pid || !tpHasPay p then s
    else
      let (ok, s) := onContinuity s slot p (tpDisc p)
      if !ok then s
      else
        let s := s.updIng slot (fun g => { g with ts := { g.ts with cc := some (tpCc p) } })
        if tpScrambled p then onScrambled s slot (tpStart p) else onVideo s slot p

/-- The TS packets of one payload, in order; a slot that a switch removed takes no more. -/
def onTsPackets (slot : Nat) (rtp : Option Int) : List Bytes → State → State
  | [], s => s
  | p :: t, s => if (s.stream slot).live then onTsPackets slot rtp t (onTsPacket s slot rtp p) else s

/-- A payload of TS packets; one of the wrong form is lost (R124). -/
def onTs (s : State) (slot : Nat) (rtp : Option Int) (b : Bytes) : State :=
  match tsSplit b with
  | none => auDamage (ingCount s slot 3 1) slot
  | some ps => onTsPackets slot rtp ps s

/-- TS packets that a stream keeps of a payload. -/
def tsKept (t : TsState) (b : Bytes) : Nat :=
  match tsSplit b with
  | none => 0
  | some ps => countIf ps (fun p => tsKeeps t (tpPid p))

/-! ### Ordering (R122) -/

/-- An access unit closes: a fragmented unit in progress ends with it (R122). -/
def rtpClose (s : State) (slot : Nat) : State := auClose (s.updIng slot (fun g => { g with inFrag := false })) slot

/-- The payload of an RTP packet joins its access unit, or is discarded (R121, R122). -/
def rtpPayload (s : State) (slot : Nat) (ext : Int) (k : RtpPkt) : State :=
  match payloadKind (seCodec (s.se slot)) k.payload with
  | none => ingCount s slot 3 1
  | some (start, stop) =>
    if !start && !(s.stream slot).ing.inFrag then auDamage s slot
    else
      let s := s.updIng slot (fun g => { g with inFrag := !stop })
      auAppend (auOpen s slot (ext % 2 ^ 32).toNat (some ext) (mapRtp (s.stream slot).ing ext)) slot k.raw

/-- The timeline restarts at the RTP timestamp from which a Sender Report has moved the mapping (R124). -/
def srRestart (s : State) (slot : Nat) (ext : Int) : State :=
  match (s.stream slot).ing.srMoved with
  | none => s
  | some e => if e ≤ ext then timelineRestart s slot else s

/-- An RTP packet in its place in the sequence: an access unit closes at the first packet with another RTP timestamp, and
at the marker bit, whatever the packet carries (R122). -/
def rtpDeliver (s : State) (slot : Nat) (k : RtpPkt) : State :=
  let ext := extendOpt 32 (s.stream slot).ing.rtpTs k.ts
  let s := dgramNew (s.updIng slot (fun g => { g with rtpTs := some ext })) slot
  if seTransport (s.se slot) = 2 then onTs (srRestart s slot ext) slot (some ext) k.payload
  else
    let other := match (s.stream slot).ing.au with
      | none => false
      | some a => a.rtp ≠ some ext
    let s := if other then rtpClose s slot else s
    let s := srRestart s slot ext
    if !(s.stream slot).live then s
    else
      let s := rtpPayload s slot ext k
      if k.marker then rtpClose s slot else s

/-- Deliver the packets that follow without a gap; `fuel` bounds them. -/
def rtpDrain (slot : Nat) : Nat → State → State
  | 0, s => s
  | fuel + 1, s =>
    let g := (s.stream slot).ing
    match g.rtpHeld, g.rtpNext with
    | k :: t, some n =>
      if k.ext = n && (s.stream slot).live then
        rtpDrain slot fuel (rtpDeliver (s.updIng slot (fun g => { g with rtpHeld := t, rtpNext := some (n + 1) })) slot k)
      else s
    | _, _ => s

/-- Take the packets missing before the first held one as lost (R122). -/
def rtpSkip (s : State) (slot : Nat) : State :=
  let g := (s.stream slot).ing
  match g.rtpHeld, g.rtpNext with
  | k :: _, some n =>
    let s := auDamage (ingCount s slot 5 (k.ext - n).toNat) slot
    let s := s.updIng slot (fun g => { g with inFrag := false })
    rtpDrain slot g.rtpHeld.length (s.updIng slot (fun g => { g with rtpNext := some k.ext }))
  | _, _ => s

/-- Skip every gap before the packets held; `fuel` bounds them. -/
def rtpFlush (slot : Nat) : Nat → State → State
  | 0, s => s
  | fuel + 1, s => if (s.stream slot).ing.rtpHeld.isEmpty then s else rtpFlush slot fuel (rtpSkip s slot)

/-- Packets held behind a gap (R122). -/
def rtpWindow : Nat := 64

/-- Place a packet whose sequence number does not jump. -/
def rtpTake (s : State) (slot : Nat) (k : RtpPkt) : State :=
  let g := (s.stream slot).ing
  if decide (k.ext < g.rtpNext.getD k.ext) || g.rtpHeld.any (fun x => x.ext == k.ext) then ingCount s slot 6 1
  else
    let s := if k.ext < g.rtpHigh then ingCount s slot 7 1 else s
    let s := s.updIng slot (fun g => { g with
      rtpHigh := max g.rtpHigh k.ext
      rtpNext := some (g.rtpNext.getD k.ext)
      rtpHeld := insertBy (fun a b => decide (a.ext ≤ b.ext)) k g.rtpHeld })
    let s := rtpDrain slot ((s.stream slot).ing.rtpHeld.length) s
    if rtpWindow ≤ (s.stream slot).ing.rtpHeld.length then rtpSkip s slot else s

/-- A packet follows the one that jumped: the sequence has restarted (R122). -/
def rtpRestart (s : State) (slot : Nat) (j : RtpPkt) : State :=
  let s := rtpFlush slot (s.stream slot).ing.rtpHeld.length s
  let s := timelineRestart s slot
  let s := s.updIng slot (fun g => { g with inFrag := false, rtpNext := some j.ext, rtpHigh := j.ext })
  rtpTake s slot j

/-- Order an RTP packet (R122). -/
def rtpOrder (s : State) (slot : Nat) (h : RtpHdr) (raw : Bytes) : State :=
  let s := match (s.stream slot).ing.jumper with
    | none => s
    | some j =>
      let s := s.updIng slot (fun g => { g with jumper := none })
      if (h.seq : Int) % 2 ^ 16 = (j.ext + 1) % 2 ^ 16 then rtpRestart s slot j else ingCount s slot 3 1
  let g := (s.stream slot).ing
  let ext : Int := match g.rtpNext with
    | none => (h.seq : Int)
    | some _ => extendTo 16 g.rtpHigh h.seq
  let k : RtpPkt := ⟨ext, h.ts, h.marker, h.payload, raw⟩
  let jumps := match g.rtpNext with
    | none => false
    | some n => decide (3000 < (ext - n).natAbs)
  if jumps then s.updIng slot (fun g => { g with jumper := some k })
  else if g.rtpNext.isNone then rtpTake (s.updIng slot (fun g => { g with rtpHigh := ext })) slot k
  else rtpTake s slot k

/-- RTP_GAP_TIMEOUT (R122): 10 ms since the first packet after the gap. -/
def execRtpGapTimeout (slot : Nat) (s : State) : Host.Outcome State Fault Refusal := done (rtpSkip s slot)

/-- RTP_JUMP_TIMEOUT (R122): no packet within 10 ms of the one that jumped. -/
def execRtpJumpTimeout (slot : Nat) (s : State) : Host.Outcome State Fault Refusal :=
  if (s.stream slot).ing.jumper.isSome then
    done (ingCount (s.updIng slot (fun g => { g with jumper := none })) slot 3 1)
  else done s

/-! ### RTCP (R120, R124) -/

/-- The Sender Reports of a compound packet, each what follows its header; none where the packet is malformed. `first`
holds for the first part, which is a report and has no padding. -/
def rtcpReports : Nat → Bool → Bytes → Option (List Bytes)
  | 0, _, _ => some []
  | fuel + 1, first, b =>
    if b.isEmpty then some []
    else
      let n := 4 * (beAt b 2 2 + 1)
      if b.length < 4 || byteAt b 0 / 64 ≠ 2 || b.length < n ||
          (first && ((byteAt b 1 ≠ 200 && byteAt b 1 ≠ 201) || byteAt b 0 / 32 % 2 = 1)) then none
      else
        (rtcpReports fuel false (b.drop n)).map (fun l => if byteAt b 1 = 200 && 28 ≤ n then slice b 4 (n - 4) :: l else l)

/-- Signed difference of two 64-bit times is more than 10 ms. -/
def movedFar (a b : Nat) : Bool :=
  let d := (a + 2 ^ 64 - b) % 2 ^ 64
  decide (2 ^ 32 < min d (2 ^ 64 - d) * 100)

/-- Take one Sender Report: that of the locked SSRC, no older than the last one taken. One that moves the mapping
restarts the timeline from its RTP timestamp onwards (R120, R124, R130). -/
def senderReport (s : State) (slot : Nat) (r : Bytes) : State :=
  let g := (s.stream slot).ing
  let ntp := beAt r 4 8
  let older := match g.sr with
    | none => false
    | some (_, n) => decide (ntp < n)
  if g.ssrc ≠ some (beAt r 0 4) || older then s
  else
    let ext := extendOpt 32 g.rtpTs (beAt r 12 4)
    let moved := match g.sr, g.rtpTs with
      | some _, some cur => movedFar (refTime cur ext ntp) ((mapRtp g cur).getD 0)
      | _, _ => false
    let now_ := match g.rtpTs with
      | none => true
      | some cur => decide (ext ≤ cur)
    let s := if moved && now_ then timelineRestart s slot else s
    s.updIng slot (fun g' => { g' with
      sr := some (ext, ntp)
      srOld := if moved then g.sr.map (fun p => (ext, p)) else g'.srOld
      srMoved := if moved && !now_ then some ext else g'.srMoved })

def senderReports (slot : Nat) : List Bytes → State → State
  | [], s => s
  | r :: t, s => senderReports slot t (senderReport s slot r)

/-- An RTCP packet: a malformed one is ignored (R120, R124). -/
def onRtcp (s : State) (slot : Nat) (b : Bytes) : State :=
  senderReports slot ((rtcpReports (b.length / 4 + 1) true b).getD []) s

/-! ### Source lock, policing and admission (R116 to R119) -/

/-- A datagram to `dst` and `dport` on a port matches a stream; true where as its RTCP port. -/
def streamMatches (s : State) (np dst dport slot : Nat) : Option Bool :=
  let e := s.se slot
  if !(s.stream slot).live || !seNet e || seSource e ≠ np || seAddr e ≠ dst then none
  else if seUdpPort e = dport then some false
  else if (seTransport e = 1 || seTransport e = 2) && seUdpPort e + 1 = dport then some true
  else none

/-- The source of a datagram is accepted (R117); nothing for RTCP before the first lock. -/
def sourceOk (e : Bytes) (g : Ingest) (src sport : Nat) (rtcp onNext : Bool) (ssrc : Option Nat) : Option Bool :=
  if rtcp && !g.locked then none
  else
    let addr := if seJoin e = 2 then src == seSsm e && (!rtcp || onNext || sport == g.lockPort)
      else if !g.locked then true
      else src == g.lockAddr && ((rtcp && onNext) || sport == g.lockPort)
    let id := match ssrc, g.ssrc with
      | some a, some b => a == b
      | _, _ => true
    some (addr && (rtcp || id))

/-- Forget what a stream learned of its former source (R117) (a detail DEDUCED, log 34). -/
def sourceReset (s : State) (slot : Nat) : State :=
  let s := dropOpenAu s slot
  let s := s.updIng slot (fun g => { g with
    rtpNext := none, rtpHeld := [], jumper := none, rtpTs := none, inFrag := false, sr := none, srOld := none, srMoved := none,
    offset := none, ts := { (default : TsState) with scrambleLog := g.ts.scrambleLog }, nextDamaged := false })
  alignGroup (timelineRestart s slot) slot

/-- The source of an accepted datagram is locked; one that follows a released lock restarts the timeline (R117). -/
def sourceLock (s : State) (slot src sport : Nat) (ssrc : Option Nat) : State :=
  let g := (s.stream slot).ing
  let s := if !g.locked && g.relock then
      raiseLogOf (sourceReset s slot) uIngress (slotPart s slot) slot
    else s
  s.updIng slot (fun g => { g with
    locked := true, silent := false, relock := false, lastAccept := s.now
    lockAddr := if g.locked then g.lockAddr else src
    lockPort := if g.locked then g.lockPort else sport
    ssrc := match g.ssrc with
      | some x => some x
      | none => ssrc })

/-- Take `units` from a stream's bucket where it holds them (R118) (a detail DEDUCED, log 34). -/
def police (s : State) (slot units : Nat) : Bool × State :=
  if units ≤ (s.stream slot).ing.tokens then (true, s.updIng slot (fun g => { g with tokens := g.tokens - units }))
  else (false, ingCount s slot 2 1)

/-- SSRC of a payload that has an RTP header. -/
def rtpSsrc (b : Bytes) : Option Nat := if 12 ≤ b.length && byteAt b 0 / 64 = 2 then some (beAt b 8 4) else none

/-- Bytes of TS packets that a stream keeps of a datagram. -/
def keptBytes (s : State) (slot : Nat) (b : Bytes) : Nat :=
  let e := s.se slot
  let t := (s.stream slot).ing.ts
  if seTransport e = 3 then 188 * tsKept t b
  else
    match rtpParse (seRtpPt e) b with
    | none => 0
    | some h => 188 * tsKept t h.payload

/-- An admitted datagram reaches the Stream Parser; one that comes during its restart is lost (R397). -/
def parserTake (s : State) (slot : Nat) (b : Bytes) (rtcp : Bool) : State :=
  let e := s.se slot
  if unitDown s uParser then auDamage s slot
  else if rtcp then onRtcp s slot b
  else if seTransport e = 3 then onTs s slot none b
  else
    match rtpParse (seRtpPt e) b with
    | none => ingCount s slot 3 1
    | some h => rtpOrder s slot h b

/-- Offer a datagram to one matching stream: source, policing, buffers, lock, parser (R117 to R119). -/
def datagramOffer (s : State) (slot src sport : Nat) (b : Bytes) (onNext shared : Bool) : State :=
  let e := s.se slot
  let rtpT := seTransport e = 1 || seTransport e = 2
  let rtcp := onNext || (rtpT && 200 ≤ byteAt b 1 && byteAt b 1 ≤ 204)
  let ssrc := if rtpT && !rtcp then rtpSsrc b else none
  match sourceOk e (s.stream slot).ing src sport rtcp onNext ssrc with
  | none => s
  | some false => ingCount s slot 4 1
  | some true =>
    let isTs := seTransport e ≠ 1 && !rtcp
    let kept := if isTs then keptBytes s slot b else 0
    let (ok, s) := police (dgramNew s slot) slot ((if shared then kept else b.length) * 800)
    if !ok then auDamage s slot
    else
      match auRefused s slot (if rtcp then 0 else if isTs then kept else b.length) with
      | some s => auDamage (ingCount s slot 10 1) slot
      | none =>
        let s := ingCount (ingCount s slot 0 1) slot 1 b.length
        let s := if rtcp then s else sourceLock s slot src sport ssrc
        parserTake s slot b rtcp

/-- Offer a datagram to each stream of a list. -/
def datagramOffers (src sport : Nat) (b : Bytes) (shared : Bool) : List (Nat × Bool) → State → State
  | [], s => s
  | p :: t, s =>
    datagramOffers src sport b shared t
      (if (s.stream p.1).live then datagramOffer s p.1 src sport b p.2 shared else s)

/-- Steps 8 and 9 of R112 for a UDP datagram. -/
def rxUdp (s : State) (np src dst sport dport : Nat) (b : Bytes) : State :=
  let ms := (mkeys s.streams).filterMap (fun i => (streamMatches s np dst dport i).map (fun r => (i, r)))
  if ms.isEmpty then npCount s np 7 1
  else datagramOffers src sport b (decide (1 < ms.length)) ms s

/-- FRAME_RECEIVE (R112): the nine checks, in order. A port without link receives nothing, nor does any
port while the Ingress Unit restarts (R397). -/
def execFrameReceive (np : Nat) (frame : Bytes) (s : State) : Host.Outcome State Fault Refusal :=
  if !s.imago || !(s.np np).link || unitDown s uIngress then done s
  else
    let s := npCount s np 0 1
    match rxFrame (cfgNet s.run np) frame with
    | .drop k => done (npCount s np k 1)
    | .arp b => done (rxArp s np b)
    | .control p => done (rxControl s np p)
    | .udp src dst sport dport b => done (rxUdp s np src dst sport dport b)

/-- SOURCE_LOCK_TIMEOUT (R117, R124): 2 s without an accepted datagram of the locked source. -/
def execSourceLockTimeout (slot : Nat) (s : State) : Host.Outcome State Fault Refusal :=
  let g := (s.stream slot).ing
  if (s.stream slot).live && (g.locked || g.ssrc.isSome) then
    let s := s.updIng slot (fun g => { g with locked := false, ssrc := none, silent := true, relock := true })
    done (alignGroup (raiseLogOf s uIngress (slotPart s slot) slot) slot)
  else done s

/-- PMT_WAIT_TIMEOUT (R124): 2 s without a PAT or PMT of the program: one log. -/
def execPmtWaitTimeout (slot : Nat) (s : State) : Host.Outcome State Fault Refusal :=
  let e := s.se slot
  let t := (s.stream slot).ing.ts
  if (s.stream slot).live && (seTransport e = 2 || seTransport e = 3) && t.videoPid.isNone && !t.pmtLogged then
    done (raiseLogOf (s.updIng slot (fun g => { g with ts := { g.ts with pmtLogged := true } })) uParser (slotPart s slot)
      slot)
  else done s

/-- BUCKET_REFILL (R118): every 10 µs each live stream's bucket gains max_bitrate units, up to its depth. -/
def execBucketRefill (s : State) : Host.Outcome State Fault Refusal :=
  done { s with streams := mmap s.streams (fun i x =>
    if x.live then
      let e := s.se i
      { x with ing := { x.ing with tokens := min (bucketDepth e) (x.ing.tokens + seBitrate e) } }
    else x) }

end Sys2Proof.Machine
end

