-- ==== Sys2Proof/Machine/Sampler.lean ====
section
/-! DEFINITION. The resamplers' arithmetic: the scaling filter (R147), chroma to 4:4:4, colour conversion and the working
format (R148), and the concealment fill (R146). -/

set_option Elab.async false

namespace Sys2Proof.Machine

/-- One plane: width, height, samples in raster order. -/
structure PicPlane where
  w : Nat
  h : Nat
  px : List Int
  deriving DecidableEq, Repr, Inhabited

/-- Sample at a position; beyond the edge the edge sample is replicated (R147). -/
def PicPlane.at (p : PicPlane) (x y : Int) : Int :=
  p.px.getD ((clampInt 0 ((p.h : Int) - 1) y).toNat * p.w + (clampInt 0 ((p.w : Int) - 1) x).toNat) 0

/-- PicPlane of a list of samples. -/
def picPlaneOf (w h : Nat) (l : List Nat) : PicPlane := ⟨w, h, l.map (fun (v : Nat) => (v : Int))⟩

/-! ### Filter (R147) -/

/-- sinc of num / den, in `fixP` fraction bits: sin(πx) / (πx), 1 at 0. -/
def sincFix (num : Int) (den : Nat) : Int :=
  if num = 0 then (2 : Int) ^ fixP else sinPi num den * (2 : Int) ^ fixP * den / (piFix * num)

/-- Coefficient before adjustment of the tap at offset a / 64 for ratio n / d. -/
def tapCoef (n d : Nat) (a : Int) : Int :=
  let s1 := if d ≤ n then sincFix a 64 else sincFix (a * n) (64 * d)
  let v := s1 * sincFix a 256 / (2 : Int) ^ fixP
  (v * 256 + (2 : Int) ^ (fixP - 1)) / (2 : Int) ^ fixP

/-- The eight coefficients of a phase: taps floor(p) − 3 to floor(p) + 4; the fourth makes the sum 256. -/
def tapCoefs (n d phase : Nat) : List Int :=
  let c := (List.range 8).map (fun (k : Nat) => tapCoef n d (64 * ((k : Int) - 3) - phase))
  let rest := c.zipIdx.foldl (fun a p => if p.2 = 3 then a else a + p.1) 0
  c.zipIdx.map (fun p => if p.2 = 3 then 256 - rest else p.1)

/-- Coefficients of all 64 phases. -/
def tapTable (n d : Nat) : List (List Int) := (List.range 64).map (tapCoefs n d)

/-- Source position of output index `x` at ratio n / d, with 16 fraction bits. -/
def tapPos (n d x : Nat) : Int := (((2 * x + 1) * d * 65536 : Nat) : Int) / ((2 * n : Nat) : Int) - 32768

/-- Weighted sum of eight samples from position `i`, before its shift. -/
def tapSum (cs : List Int) (f : Int → Int) (i : Int) : Int :=
  cs.zipIdx.foldl (fun a p => a + p.1 * f (i + (p.2 : Int))) 0

/-- One filtered sample along an axis: (Σ + 128) >> 8. -/
def tapOut (tab : List (List Int)) (pos : Int) (f : Int → Int) : Int :=
  (tapSum (tab.getD ((pos % 65536).toNat / 1024) []) f (pos / 65536 - 3) + 128) / 256

/-- Horizontal pass: clamped to ±2^(bd+1). -/
def hPass (tab : List (List Int)) (pos : Nat → Int) (w bd : Nat) (p : PicPlane) : PicPlane :=
  ⟨w, p.h, (List.range p.h).flatMap (fun (y : Nat) => (List.range w).map (fun (x : Nat) =>
    clampInt (-((2 : Int) ^ (bd + 1))) ((2 : Int) ^ (bd + 1)) (tapOut tab (pos x) (fun i => p.at i y))))⟩

/-- Vertical pass: clamped to the sample range. -/
def vPass (tab : List (List Int)) (pos : Nat → Int) (h bd : Nat) (p : PicPlane) : PicPlane :=
  ⟨p.w, h, (List.range h).flatMap (fun (y : Nat) => (List.range p.w).map (fun (x : Nat) =>
    clampInt 0 ((2 : Int) ^ bd - 1) (tapOut tab (pos y) (fun i => p.at x i))))⟩

/-- Scale of one picture: ratio n / d of each axis, and the output size. -/
structure Scale where
  nx : Nat
  dx : Nat
  ny : Nat
  dy : Nat
  w : Nat
  h : Nat
  deriving DecidableEq, Repr, Inhabited

/-- Scale one plane; a ratio of 1 on both axes leaves it as it is. -/
def scalePlane (c : Scale) (bd : Nat) (p : PicPlane) : PicPlane :=
  if c.nx = c.dx && c.ny = c.dy then p
  else vPass (tapTable c.ny c.dy) (tapPos c.ny c.dy) c.h bd (hPass (tapTable c.nx c.dx) (tapPos c.nx c.dx) c.w bd p)

/-! ### Chroma to 4:4:4 -/

/-- Distance, in 1/65,536 chroma sample, by which a chroma sample lies right of and below its luma sample: location
types 0 to 5 as the codecs number them (PRESUMED, log 15). -/
def chromaOff (loc : Nat) : Nat × Nat :=
  match loc with
  | 1 => (16384, 16384)
  | 2 => (0, 0)
  | 3 => (16384, 0)
  | 4 => (0, 32768)
  | 5 => (16384, 32768)
  | _ => (0, 16384)

/-- Bring a 4:2:0 chroma plane to the luma's size, at ratio 2. -/
def chromaUp (w h bd loc : Nat) (p : PicPlane) : PicPlane :=
  let tab := tapTable 2 1
  let o := chromaOff loc
  let pos (off : Nat) (x : Nat) : Int := ((x * 32768 : Nat) : Int) - off
  vPass tab (pos o.2) h bd (hPass tab (pos o.1) w bd p)

/-- Three planes of a decoded picture at 4:4:4; a monochrome one takes mid-scale chroma (R134). -/
def planes444 (p : PicData) : List PicPlane :=
  let mid : PicPlane := ⟨p.w, p.h, List.replicate (p.w * p.h) ((2 : Int) ^ (p.bitDepth - 1))⟩
  let cw := (p.w + 1) / 2
  let ch := (p.h + 1) / 2
  let y := picPlaneOf p.w p.h p.y
  if p.mono then [y, mid, mid]
  else [y, chromaUp p.w p.h p.bitDepth p.chromaLoc (picPlaneOf cw ch p.cb),
        chromaUp p.w p.h p.bitDepth p.chromaLoc (picPlaneOf cw ch p.cr)]

/-! ### Colour conversion (R148) -/

/-- Kr and Kb of a source matrix: 1 BT.601, 2 BT.709, 3 BT.2020 non-constant luminance. -/
def lumaWeights (m : Nat) : Rat × Rat :=
  if m = 1 then (299 / 1000, 114 / 1000) else if m = 3 then (2627 / 10000, 593 / 10000) else (2126 / 10000, 722 / 10000)

/-- Source matrix of a picture: where unspecified, BT.601 to a coded height of 576 and BT.709 above. -/
def sourceMatrix (p : PicData) : Nat :=
  if p.matrix = 0 then (if p.codedH ≤ 576 then 1 else 2) else p.matrix

/-- Rows of the conversion from full-range Y'CbCr of a matrix to that of BT.709. -/
def colourRows (m : Nat) : List (List Rat) :=
  let s := lumaWeights m
  let d := lumaWeights 2
  let kg := 1 - s.1 - s.2
  let r : List Rat := [1, 0, 2 * (1 - s.1)]
  let b : List Rat := [1, 2 * (1 - s.2), 0]
  let g : List Rat := [1, -(2 * s.2 * (1 - s.2) / kg), -(2 * s.1 * (1 - s.1) / kg)]
  let at_ (l : List Rat) (i : Nat) : Rat := l.getD i 0
  let y (i : Nat) : Rat := d.1 * at_ r i + (1 - d.1 - d.2) * at_ g i + d.2 * at_ b i
  let row (f : Nat → Rat) : List Rat := (List.range 3).map f
  [row y, row (fun i => (at_ b i - y i) / (2 * (1 - d.2))), row (fun i => (at_ r i - y i) / (2 * (1 - d.1)))]

/-- Round a rational half up. -/
def roundHalfUp (q : Rat) : Int := (q + 1 / 2).floor

/-- Coefficients in units of 2^−14, with the expansion of a limited range. -/
def colourCoefs (p : PicData) : List (List Int) :=
  let top : Rat := ((2 ^ p.bitDepth - 1 : Nat) : Rat)
  let unit : Rat := ((2 ^ (p.bitDepth - 8) : Nat) : Rat)
  let sc (j : Nat) : Rat := if p.limited then (if j = 0 then top / (219 * unit) else top / (224 * unit)) else 1
  (colourRows (sourceMatrix p)).map (fun r => r.zipIdx.map (fun q => roundHalfUp (q.1 * sc q.2 * 16384)))

/-- One converted sample: row of coefficients, offset of the result, and the three centred source samples. -/
def colourOne (bd : Nat) (r : List Int) (off a b c : Int) : Int :=
  clampInt 0 ((2 : Int) ^ bd - 1) (off + (r.getD 0 0 * a + r.getD 1 0 * b + r.getD 2 0 * c + 8192) / 16384)

/-- Convert three planes to full-range Y'CbCr of BT.709. -/
def colourPlanes (p : PicData) (ps : List PicPlane) : List PicPlane :=
  let bd := p.bitDepth
  let mid : Int := (2 : Int) ^ (bd - 1)
  let low : Int := if p.limited then 16 * (2 : Int) ^ (bd - 8) else 0
  let y := ps.getD 0 default
  let cb := ps.getD 1 default
  let cr := ps.getD 2 default
  let cs := colourCoefs p
  let conv (i : Nat) : PicPlane :=
    ⟨y.w, y.h, ((y.px.zip cb.px).zip cr.px).map (fun q =>
      colourOne bd (cs.getD i []) (if i = 0 then 0 else mid) (q.1.1 - low) (q.1.2 - mid) (q.2 - mid))⟩
  [conv 0, conv 1, conv 2]

/-! ### Working format (R148) -/

/-- The quotient n / d as a value precise enough for every format. -/
def ratFl (n : Int) (d : Nat) : Fl :=
  let q := n.natAbs * 2 ^ 80 / d
  let r := n.natAbs * 2 ^ 80 % d
  .fin (n < 0) (2 * q + (if r = 0 then 0 else 1)) (-81)

/-- Code of one sample in the working format: UINT8, or a fraction of full scale in FP16 or BF16. -/
def workCode (fmt bd : Nat) (chroma : Bool) (v : Int) : Nat :=
  if fmt = 3 then (if bd = 8 then v.toNat else min 255 ((v.toNat + 2) / 4))
  else
    let top : Nat := 2 ^ bd - 1
    if chroma then
      let x := ratFl (v - (2 : Int) ^ (bd - 1)) top
      let half : Fl := .fin false 1 (-1)
      (convTo fmt (if flLt x (flNeg half) then flNeg half else if flLt half x then half else x)).code
    else (convTo fmt (ratFl v top)).code

/-- Codes of three planes, plane after plane. -/
def workCodes (fmt bd : Nat) (ps : List PicPlane) : List Nat :=
  ps.zipIdx.flatMap (fun p => p.1.px.map (workCode fmt bd (p.2 != 0)))

/-- A rectangle of a plane. -/
def cropPlane (x y w h : Nat) (p : PicPlane) : PicPlane :=
  ⟨w, h, (List.range h).flatMap (fun (j : Nat) => (List.range w).map (fun (i : Nat) => p.at ((x + i : Nat) : Int) ((y + j : Nat) : Int)))⟩

/-! ### Working size (R149) -/

/-- How a picture reaches its working size: its scale, and the rectangle kept of the scaled picture. -/
structure WorkPlan where
  scale : Scale
  x : Nat
  y : Nat
  w : Nat
  h : Nat
  cropped : Bool
  deriving DecidableEq, Repr, Inhabited

/-- Round down to even. -/
def evenDown (n : Nat) : Nat := n / 2 * 2

/-- Working picture of a decoded picture of w × h for a last Instar of wl × hl. -/
def workPlan (w h wl hl : Nat) : WorkPlan :=
  if h ≤ hl && w ≤ wl then ⟨⟨1, 1, 1, 1, w, h⟩, 0, 0, w, h, false⟩
  else
    -- s = min(hl / h, wl / w) as a fraction
    let n := if hl * w ≤ wl * h then hl else wl
    let d := if hl * w ≤ wl * h then h else w
    if d ≤ 4 * n then
      let ow := evenDown (w * n / d)
      let oh := evenDown (h * n / d)
      ⟨⟨n, d, n, d, ow, oh⟩, 0, 0, ow, oh, false⟩
    else
      let ow := w / 4
      let oh := h / 4
      let cw := min ow wl
      let ch := min oh hl
      ⟨⟨1, 4, 1, 4, ow, oh⟩, evenDown ((ow - cw) / 2), evenDown ((oh - ch) / 2), cw, ch, true⟩

/-- Working planes of a picture, full-range BT.709 samples at the source's bit depth. -/
def workPlanes (p : PicData) (k : WorkPlan) : List PicPlane :=
  let ps := (planes444 p).map (scalePlane k.scale p.bitDepth)
  let ps := if k.cropped then ps.map (cropPlane k.x k.y k.w k.h) else ps
  colourPlanes p ps

/-- The second picture for the adapter: the working picture at 1 / `f` (R149) (a detail DEDUCED, log 36). -/
def downPlanes (bd f : Nat) (ps : List PicPlane) : List PicPlane :=
  ps.map (fun p => scalePlane ⟨1, f, 1, f, ceilDiv p.w f, ceilDiv p.h f⟩ bd p)

/-- Both ratios from a reference picture to the emitting member's working size lie from 1/4 to 8 (R149). -/
def refInRange (p : PicData) (w h : Nat) : Bool :=
  decide (p.w ≤ 4 * w) && decide (w ≤ 8 * p.w) && decide (p.h ≤ 4 * h) && decide (h ≤ 8 * p.h)

/-- Working codes of a reference picture at the emitting member's working size. -/
def refCodes (p : PicData) (fmt w h : Nat) : List Nat :=
  workCodes fmt p.bitDepth (workPlanes p ⟨⟨w, p.w, h, p.h, w, h⟩, 0, 0, w, h, false⟩)

/-! ### Concealment (R146) -/

/-- A luma position lies in one of the rectangles. -/
def inFill (rs : List (Nat × Nat × Nat × Nat)) (x y : Nat) : Bool :=
  rs.any (fun r => decide (r.1 ≤ x) && decide (x < r.1 + r.2.2.1) && decide (r.2.1 ≤ y) && decide (y < r.2.1 + r.2.2.2))

/-- Sample that fills a concealed position: co-located in the source, or mid-scale without one
(a detail DESIGN CHOICE, log 14). -/
def fillSample (p : PicData) (src : Option PicData) (plane x y w : Nat) : Nat :=
  match src with
  | none => 2 ^ (p.bitDepth - 1)
  | some q =>
    if q.w = p.w && q.h = p.h && q.bitDepth = p.bitDepth then
      (if plane = 0 then q.y else if plane = 1 then q.cb else q.cr).getD (y * w + x) (2 ^ (p.bitDepth - 1))
    else (Config.concealSample plane x y).toNat % 2 ^ p.bitDepth

/-- Fill one plane; `k` is 1 for luma and 2 for chroma at 4:2:0. -/
def fillPlane (p : PicData) (src : Option PicData) (rs : List (Nat × Nat × Nat × Nat)) (plane k : Nat) (l : List Nat) :
    List Nat :=
  let w := (p.w + k - 1) / k
  l.zipIdx.map (fun v =>
    let x := v.2 % w
    let y := v.2 / w
    if inFill rs (k * x) (k * y) then fillSample p src plane x y w else v.1)

/-- A picture with its concealed blocks filled from the concealment source (a detail DESIGN CHOICE, log 14). -/
def concealFill (p : PicData) (src : Option PicData) (rs : List (Nat × Nat × Nat × Nat)) : PicData :=
  if rs.isEmpty then p
  else { p with y := fillPlane p src rs 0 1 p.y, cb := fillPlane p src rs 1 2 p.cb, cr := fillPlane p src rs 2 2 p.cr }

end Sys2Proof.Machine
end

