-- ==== Sys2Proof/Machine/Decoder.lean ====
section
/-! DEFINITION. Decode, resampling and batching (R134 to R152): parse-ahead and its checks, time sharing of an engine,
frame storage, budget and concealment, release in output order, resampling, and the batch gatherers. -/

set_option Elab.async false

namespace Sys2Proof.Machine

/-! ### Checks of a header (R134, R139) -/

/-- A sequence header declares what R134 supports, and no more than the stream's bit depth. -/
def seqSupported (e : Bytes) (h : PicHdr) : Bool :=
  let d8 := h.bitDepth == 8
  let d10 := h.bitDepth == 8 || h.bitDepth == 10
  let prof (n : Nat) : Bool := decide (1 ≤ h.profile) && decide (h.profile ≤ n)
  let fits :=
    match seCodec e with
    | 1 => prof 2 && decide (h.level ≤ 4) && h.chroma == 1 && d8 && !h.highTier
    | 2 => prof 4 && decide (h.level ≤ 52) && decide (h.chroma ≤ 1) && d10 && !h.highTier
    | 3 => prof 3 && decide (h.level ≤ 61) && h.chroma == 1 && d10
    | 4 => prof 1 && decide (h.level ≤ 60) && decide (h.chroma ≤ 1) && d10 && !h.highTier
    | 5 => prof 2 && decide (h.level ≤ 51) && decide (h.chroma ≤ 1) && d10 && !h.highTier
    | _ => false
  fits && !h.extension && decide (h.bitDepth ≤ seDepth e)

/-- The sizes of a picture pass R139. -/
def sizePasses (e : Bytes) (h : PicHdr) : Bool :=
  decide (h.cropW ≤ seMaxW e) && decide (h.cropH ≤ seMaxH e) && decide (h.codedW ≤ h.cropW + 128) &&
    decide (h.codedH ≤ h.cropH + 128) && decide (h.cropW ≤ h.codedW) && decide (h.cropH ≤ h.codedH) &&
    decide (16 ≤ h.cropW) && decide (16 ≤ h.cropH)

/-- The header passes: its sequence, where one comes with it, and its sizes. -/
def hdrPasses (e : Bytes) (h : PicHdr) : Bool := (!h.hasSeq || seqSupported e h) && sizePasses e h

/-! ### Parse-ahead (R138, R139, R142, R143) -/

def parseDepth : Nat := 4
def indexLimit : Nat := 4096

/-- The access unit that parse-ahead would take next: of those past the queue limit, the oldest (R138); else none while
parse-ahead is 4 ahead, or stopped at a picture whose index is too large. -/
def parseNext (s : State) (slot : Nat) : Option Nat :=
  let d := (s.stream slot).dec
  match d.limbo with
  | fid :: _ => some fid
  | [] =>
    if parseDepth ≤ d.index.length then none
    else
      match d.queue.find? (fun i => !d.index.contains i) with
      | none => none
      | some fid =>
        match (s.frame fid).hdr with
        | none => some fid
        | some h => if indexLimit < h.indexBytes then none else some fid

/-- Discard an access unit before reconstruction: ledger cause, counter (a detail DEDUCED, log 36). -/
def auDiscard (s : State) (slot fid cause ctr : Nat) : State := decCount (discardFrame s fid cause) slot ctr 1

/-- What the checks make of an access unit. -/
inductive ParseVerdict where
  /-- refused sequence or size: counters 5 and 6 -/
  | refuse
  /-- discarded until a sequence header passes -/
  | afterRefused
  /-- discarded until a random access point of the timeline -/
  | beforeRap
  /-- discarded until a random access point after its engine was fenced -/
  | afterFence
  /-- a leading picture of the random access point that ended a discard, with that discard's reason -/
  | leading (reason : Nat)
  | pass
  deriving DecidableEq, Repr

/-- Access unit `a` comes after `b`. -/
def auAfter (a b : Nat) : Bool := picBefore b a

/-- The checks of R138, R139 and R397 on the oldest access unit that awaits decode, under the parse state committed so
far (a detail DEDUCED, log 36). -/
def parseVerdict (e : Bytes) (d : Decode) (f : Frame) (h : PicHdr) : ParseVerdict :=
  if (h.hasSeq || d.refusedAu.isNone) && !hdrPasses e h then .refuse
  else if d.refusedAu.isSome && !h.hasSeq then .afterRefused
  else if d.segParsed ≠ f.segment + 1 && !h.rap then .beforeRap
  else if d.resumeRap && !h.rap then .afterFence
  else
    match if h.leading then d.skipLeading.find? (fun p => auAfter f.au p.1) else none with
    | some p => .leading p.2
    | none => .pass

/-- Discard an access unit as its verdict says. -/
def parseApply (s : State) (slot fid : Nat) : ParseVerdict → State
  | .refuse =>
    let au := (s.frame fid).au
    let s := s.updDec slot (fun d => { d with refusedAu := some au })
    decLog (decCount (auDiscard s slot fid 5 6) slot 5 1) slot
  | .afterRefused => auDiscard s slot fid 5 6
  | .beforeRap => auDiscard (s.updDec slot (fun d => { d with waitingRap := true })) slot fid 5 6
  | .afterFence => discardFrame s fid 6
  | .leading r => if r = 1 then auDiscard s slot fid 3 4 else if r = 2 then auDiscard s slot fid 5 6 else discardFrame s fid 6
  | .pass => s

/-- What the checks make of the oldest access unit that awaits decode, once its header is known. -/
def headVerdict (s : State) (slot : Nat) : Option (Nat × ParseVerdict) :=
  match (s.stream slot).dec.queue with
  | [] => none
  | fid :: _ =>
    match (s.frame fid).hdr with
    | none => none
    | some h => some (fid, parseVerdict (s.se slot) (s.stream slot).dec (s.frame fid) h)

/-- The oldest access unit that awaits decode passes the checks, and its alignment is decided (R24, R139). -/
def headReady (s : State) (slot : Nat) : Bool :=
  match headVerdict s slot with
  | some (fid, .pass) => (s.frame fid).aligned
  | _ => false

/-- Discard the access units at the head of a stream's queue that do not pass, up to `n` (a detail DEDUCED, log 36). -/
def parseSettle (slot : Nat) : Nat → State → State
  | 0, s => s
  | n + 1, s =>
    match headVerdict s slot with
    | none => s
    | some (_, .pass) => s
    | some (fid, v) => parseSettle slot n (parseApply s slot fid v)

/-- An access unit past the queue limit has been parsed: a random access point that finds fewer than 16 held ends the
discard and joins the queue, with those closed after it; any other is discarded (R138). -/
def limboParse (s : State) (slot fid : Nat) (h : PicHdr) : State :=
  let d := (s.stream slot).dec
  if h.rap && decide (d.queue.length < auLimit) then
    let au := (s.frame fid).au
    let s := s.updDec slot (fun d => { d with
      limitAu := none, limbo := [], skipLeading := d.skipLeading ++ [(au, 1)] })
    d.limbo.foldl (auHold slot) s
  else auDiscard s slot fid 3 4

/-- PARSE_AHEAD (R142): the front end indexes the next closed access unit of a stream. Parsing changes no visible state;
an access unit that does not pass R139 is discarded when its turn to be decoded comes (a detail DEDUCED, log 36). -/
def execParseAhead (slot : Nat) (hdr : PicHdr) (s : State) : Host.Outcome State Fault Refusal :=
  match parseNext s slot with
  | none => done (parseSettle slot auLimit s)
  | some fid =>
    if (s.stream slot).dec.limbo.contains fid then done (parseSettle slot auLimit (limboParse s slot fid hdr))
    else
      let s := s.updFrame fid (fun f => { f with hdr := some hdr })
      let s := s.updDec slot (fun d => { d with index := if indexLimit < hdr.indexBytes then d.index else d.index ++ [fid] })
      done (parseSettle slot auLimit s)

/-! ### Frame storage (R140, R141) -/

/-- Pool of a picture's bands. -/
def bandPool (s : State) (slot : Nat) (h : PicHdr) : Option Nat :=
  smallestPool (s.cfgAt slot) (bandBytes h.codedW h.bitDepth (h.chroma = 0))

/-- The stream's charge includes a picture held only until it is resampled, or, for one that emits, until its search
(R141, R286). -/
def heldForResample (s : State) (slot fid : Nat) : Bool :=
  s.frames.any (fun p => p.2.slot == slot && p.1 != fid && !p.2.bands.isEmpty && !p.2.isRef &&
    (!p.2.resampled || !refOnly s p.2))

/-- What became of a request for bands. -/
inductive BandTake where
  | taken
  | waits
  | oversize
  deriving DecidableEq, Repr

/-- Take one band for a picture. -/
def takeBand (s : State) (slot fid : Nat) : BandTake × State :=
  let h := (s.frame fid).hdr.getD default
  match bandPool s slot h with
  | none => (.oversize, s)
  | some k =>
    let kib := bandKib (s.cfgAt slot) k
    if seQuota (s.se slot) < (s.stream slot).dec.charge + kib then
      (if heldForResample s slot fid then .waits else .oversize, s)
    else
      match bpmAlloc s (slotPart s slot) k with
      | (none, s) => (.waits, s)
      | (some a, s) =>
        let s := s.updFrame fid (fun f => { f with bands := f.bands ++ [a] })
        (.taken, decCount (s.updDec slot (fun d => { d with charge := d.charge + kib, stalled := false })) slot 9 1)

/-- Take `n` bands, stopping at the first that is not to be had. -/
def takeBands (slot fid : Nat) : Nat → State → BandTake × State
  | 0, s => (.taken, s)
  | n + 1, s =>
    match takeBand s slot fid with
    | (.taken, s) => takeBands slot fid n s
    | r => r

/-- Drop the picture in reconstruction as oversize (R141). -/
def dropOversize (s : State) (slot fid : Nat) : State :=
  let s := decCount (discardFrame s fid 4) slot 3 1
  let s := { s with frames := s.frames.map (fun p => if p.1 = fid then (p.1, { p.2 with isRef := false }) else p) }
  let s := if (mfind s.frames fid).isSome then freeBands s fid else s
  rollback (raiseLogOf (sweepSlot s slot) uDe (slotPart s slot) slot) slot

/-- Reconstruction writes into `n` more bands: a wait is counted, an oversize picture is dropped. Answers whether the
picture goes on. -/
def reachBands (s : State) (slot fid n : Nat) : Bool × State :=
  match takeBands slot fid n s with
  | (.taken, s) => (true, s)
  | (.waits, s) =>
    if (s.stream slot).dec.stalled then (false, s)
    else (false, decCount (s.updDec slot (fun d => { d with stalled := true })) slot 10 1)
  | (.oversize, s) => (false, dropOversize (s.updDec slot (fun d => { d with stalled := false })) slot fid)

/-- Whether the next band of the picture in reconstruction could be had, or would show it oversize: the wait is
over. -/
def waitOver (s : State) (slot fid : Nat) : Bool :=
  match bandPool s slot ((s.frame fid).hdr.getD default) with
  | none => true
  | some k =>
    if seQuota (s.se slot) < (s.stream slot).dec.charge + bandKib (s.cfgAt slot) k then !heldForResample s slot fid
    else allocWithin s (slotPart s slot) k && (chooseBuffer s (slotPart s slot) k).isSome

/-! ### Time sharing (R137) -/

/-- Weight L of a stream, in luma samples per second. -/
def weightL (s : State) (slot : Nat) : Rat := (plannedRate (s.se slot) : Rat) / 100

/-- A stream is served `c` decode cycles by its engine. -/
def serve (s : State) (slot c : Nat) : State :=
  let l := weightL s slot
  decCount (s.updDec slot (fun d => { d with
    vtime := d.vtime + (if l = 0 then 0 else (c : Rat) / l)
    cur := d.cur.map (fun x => { x with cycles := x.cycles + c }) })) slot 8 c

/-- A stream is ready: its picture in reconstruction can go on, or its next access unit is parsed and aligned
(a detail DEDUCED, log 36). -/
def decReady (s : State) (slot : Nat) : Bool :=
  let st := s.stream slot
  st.live &&
    match st.dec.cur with
    | some c => !st.dec.stalled || waitOver s slot c.frame
    | none => headReady s slot

/-- Least virtual time of a list of streams, none for none. -/
def leastV (s : State) : List Nat → Option Rat
  | [] => none
  | i :: t =>
    match leastV s t with
    | none => some (s.stream i).dec.vtime
    | some v => some (if (s.stream i).dec.vtime ≤ v then (s.stream i).dec.vtime else v)

/-- The stream of least virtual time, ties to the lower slot (the list is in slot order). -/
def leastSlot (s : State) (l : List Nat) : Option Nat :=
  match leastV s l with
  | none => none
  | some v => l.find? (fun i => (s.stream i).dec.vtime == v)

/-- Note which streams are ready; one that becomes ready takes the greater of its own V and the least V of the streams
that were. -/
def noteReady (v : Option Rat) : List Nat → State → State
  | [], s => s
  | i :: t, s =>
    let r := decReady s i
    noteReady v t (s.updDec i (fun d => { d with
      ready := r
      vtime := match v with
        | some x => if r && !d.ready && decide (d.vtime < x) then x else d.vtime
        | none => d.vtime }))

/-- Cycles to move 8 KiB of saved state at 16 bytes per cycle (R136) (a detail DEDUCED, log 40). -/
def stateMove : Nat := 512

/-- Cycles that a switch to another stream costs in moves of saved state, charged to the incoming one
(a detail DEDUCED, log 40). -/
def switchCost (s : State) (out : Option Nat) (slot : Nat) : Nat :=
  let c (i : Nat) : Nat := if (s.stream i).dec.stateBuf.isSome then stateMove else 0
  match out with
  | none => c slot
  | some o => if o = slot then 0 else c o + c slot

/-- Nominal cycles of a picture: luma samples / 1.25, rounded up (R144). -/
def nominalCycles (h : PicHdr) : Nat := ceilDiv (4 * (h.codedW * h.codedH)) 5

/-- Budget of a picture (R144). -/
def pictureBudget (m a n : Nat) : Nat := min (2 ^ 32 - 1) (m * max a n)

/-- Random access points whose leading pictures are discarded, once a picture's parse state commits: the picture itself
where it ends a discard; those whose leading pictures it comes after go. -/
def skipNext (d : Decode) (f : Frame) (h : PicHdr) : List (Nat × Nat) :=
  let l := d.skipLeading.filter (fun p => h.leading || !auAfter f.au p.1)
  if d.resumeRap then l ++ [(f.au, 3)] else if d.segParsed ≠ f.segment + 1 then l ++ [(f.au, 2)] else l

/-- The parse state of a picture whose reconstruction begins commits (R142). -/
def parseCommit (d : Decode) (f : Frame) : Decode :=
  { d with
    skipLeading := skipNext d f (f.hdr.getD default), refusedAu := none, waitingRap := false, resumeRap := false,
    segParsed := f.segment + 1 }

/-- Begin reconstruction of a stream's next picture: its parse state commits (R142, R144), under which the access units
behind it are judged. -/
def beginPicture (s : State) (slot : Nat) : State :=
  match (s.stream slot).dec.queue with
  | [] => s
  | fid :: rest =>
    let f := s.frame fid
    let n := nominalCycles (f.hdr.getD default)
    parseSettle slot auLimit (s.updDec slot (fun d =>
      let a := if d.segBegun = f.segment + 1 then d.avg else n
      { parseCommit d f with
        queue := rest, index := d.index.filter (· != fid), avg := a, segBegun := f.segment + 1,
        cur := some ⟨fid, 0, pictureBudget f.budgetMul a n, false, false⟩ }))

/-- Note which streams of an engine are ready: one that became ready since the engine was last served takes its virtual
time now, before any other stream is charged (R137). -/
def engineNote (s : State) (g : Nat) : State :=
  let slots := engineSlots s g
  noteReady (leastV s (slots.filter (fun i => (s.stream i).dec.ready && decReady s i))) slots s

/-- Serve the ready stream of least virtual time, beginning its next picture where it has none in reconstruction. -/
def switchIn (s : State) (g : Nat) : State :=
  let slots := engineSlots s g
  let s := engineNote s g
  let out := (mget s.engines g).cur
  match leastSlot s (slots.filter (fun i => (s.stream i).dec.ready)) with
  | none => { s with engines := mupd s.engines g (fun e => { e with cur := none, run := 0 }) }
  | some slot =>
    let cost := switchCost s out slot
    let s := if cost = 0 then s else
      let l := weightL s slot
      s.updDec slot (fun d => { d with vtime := d.vtime + (if l = 0 then 0 else (cost : Rat) / l) })
    let s := { s with engines := mupd s.engines g (fun e => { e with cur := some slot, run := 0 }) }
    if (s.stream slot).dec.cur.isNone then beginPicture s slot else s

/-- The stream switched in on an unfenced engine. -/
def engineCur (s : State) (g : Nat) : Option Nat :=
  if (mget s.engines g).fenced then none else (mget s.engines g).cur

/-- The stream switched in on an engine is served: its readiness and that of the others is settled before it is charged
(R137). -/
def engineServe (s : State) (g slot c : Nat) : State :=
  let s := serve (engineNote s g) slot c
  { s with engines := mupd s.engines g (fun e => { e with run := e.run + c }) }

/-- Decode cycles after which the end of any macroblock, CTU or superblock is a switch point (R137). -/
def switchRun : Nat := 20000

/-- The engine stands at a switch point: no stream is switched in, or its picture has ended, has been abandoned or waits
for storage, or it has run 20,000 decode cycles since it was switched in (R137, R141). -/
def atSwitchPoint (s : State) (g : Nat) : Bool :=
  match engineCur s g with
  | none => true
  | some slot =>
    match (s.stream slot).dec.cur with
    | none => true
    | some c => c.abandoned || (s.stream slot).dec.stalled || decide (switchRun ≤ (mget s.engines g).run)

/-- The stream switched in has run `cycles` more decode cycles and written into `bands` further bands; damage that differs
from what parse-ahead assumed rolls it back (R143). -/
def engineRun (s : State) (g cycles bands : Nat) (damage : Bool) : State :=
  match engineCur s g with
  | none => s
  | some slot =>
    let s := engineServe s g slot cycles
    let s := match (s.stream slot).dec.cur with
      | none => s
      | some c => (reachBands s slot c.frame bands).2
    if damage then rollback s slot else s

/-- DECODE_SWITCH (R137): an engine reaches the end of a macroblock, CTU or superblock, or of a picture, and switches
where that is a switch point. -/
def execDecodeSwitch (engine cycles bands : Nat) (damage : Bool) (s : State) : Host.Outcome State Fault Refusal :=
  if (mget s.engines engine).fenced then done s
  else
    let s := engineRun s engine cycles bands damage
    done (if atSwitchPoint s engine then switchIn s engine else s)

/-! ### Budget (R145) and block limit (R137) -/

/-- Abandon the picture in reconstruction, once; it passes on in concealed form when it ends (R145). -/
def abandonPicture (s : State) (slot : Nat) : State :=
  match (s.stream slot).dec.cur with
  | none => s
  | some c =>
    if c.abandoned then s
    else
      decCount (s.updDec slot (fun d => { d with cur := some { c with abandoned := true } })) slot 2 1

/-- The cycles of a picture stop it: at B at the start of a slice or tile, at 5B/4 anywhere (R145). -/
def budgetStops (c : CurPic) (atSlice : Bool) : Bool :=
  (atSlice && decide (c.budget ≤ c.cycles)) || decide (5 * c.budget ≤ 4 * c.cycles)

/-- PICTURE_BUDGET_EXCEEDED (R145): after `cycles` more, at the start of a slice or tile or at the end of a coding
block. -/
def execPictureBudgetExceeded (engine cycles : Nat) (atSlice : Bool) (s : State) : Host.Outcome State Fault Refusal :=
  match engineCur s engine with
  | none => done s
  | some slot =>
    let s := engineServe s engine slot cycles
    match (s.stream slot).dec.cur with
    | none => done s
    | some c => if budgetStops c atSlice then done (abandonPicture s slot) else done s

/-- BLOCK_CYCLE_LIMIT (R137): a coding block has used 40,000 decode cycles, which counts at once as exceeding the
picture's budget. -/
def execBlockCycleLimit (engine cycles : Nat) (s : State) : Host.Outcome State Fault Refusal :=
  match engineCur s engine with
  | none => done s
  | some slot => done (abandonPicture (engineServe s engine slot cycles) slot)

/-! ### A picture's end (R144, R146, R150) -/

/-- Blocks of a picture that count as concealed. -/
def concealedBlocks (o : PicOut) : Nat := o.damaged + o.abandoned + o.absentRef

/-- Share of a concealment tag: ceil(256 × concealed / total). -/
def concealShare (o : PicOut) : Nat := if o.blocks = 0 then 0 else min 256 (ceilDiv (256 * concealedBlocks o) o.blocks)

/-- Cause of a concealment tag: the lowest code of those that apply, 0 for none (a detail DEDUCED, log 36). -/
def concealCode (o : PicOut) : Nat :=
  if 0 < o.damaged then 1 else if 0 < o.abandoned then 2 else if 0 < o.absentRef then 3 else if o.unpaired then 4 else 0

/-- The running average after a picture of `c` cycles. -/
def nextAvg (a c : Nat) : Nat := ((a : Int) + ((c : Int) - a).tdiv 16).toNat % 2 ^ 32

/-- The frame of a slot and access unit that is still in flight. -/
def frameOfAu (s : State) (slot au : Nat) : Option Nat :=
  (s.frames.find? (fun p => p.2.slot == slot && p.2.au == au && p.2.pic.isSome)).map (·.1)

/-- The concealment source: the latest earlier picture that the stream still holds. -/
def concealSource (s : State) (slot : Nat) : List Nat → Option PicData
  | [] => none
  | au :: t =>
    match frameOfAu s slot au with
    | none => concealSource s slot t
    | some fid => if (s.frame fid).bands.isEmpty then concealSource s slot t else (s.frame fid).pic

/-- Pictures that are no longer references. -/
def dropRefs (slot : Nat) : List Nat → State → State
  | [], s => s
  | au :: t, s =>
    dropRefs slot t { s with frames := s.frames.map (fun p =>
      if p.2.slot = slot && p.2.au = au then (p.1, { p.2 with isRef := false }) else p) }

/-- Release pictures to resampling in output order: each takes the next picture number (R150). -/
def releasePics (slot : Nat) : List Nat → State → State
  | [], s => s
  | au :: t, s =>
    match frameOfAu s slot au with
    | none => releasePics slot t s
    | some fid =>
      let f := s.frame fid
      if f.picture.isSome || frameEnded f then releasePics slot t s
      else
        let n := (s.stream slot).dec.picNum
        let s := s.updFrame fid (fun f => { f with picture := some n, released := true })
        let s := decCount (s.updDec slot (fun d => { d with picNum := (n + 1) % 2 ^ 32 })) slot 0 1
        releasePics slot t { s with relq := s.relq ++ [fid] }

/-- What a picture ended with: of a damaged access unit, and where a poisoned reference burst was read, at least one
block is concealed as damaged; of an abandoned picture, at least one as not decoded (R139, R145, R398)
(a detail DEDUCED, log 36). -/
def endOut (damaged abandoned : Bool) (o : PicOut) : PicOut :=
  { o with
    damaged := if damaged then max 1 o.damaged else o.damaged
    abandoned := if abandoned then max 1 o.abandoned else o.abandoned }

/-! ### Interlaced content (R134) -/

/-- Rows of two fields, one of each in turn; `w` samples to a row. -/
def weaveRows (w : Nat) : Nat → List Nat → List Nat → List Nat
  | 0, _, _ => []
  | n + 1, a, b => a.take w ++ b.take w ++ weaveRows w n (a.drop w) (b.drop w)

/-- Two fields woven together: the first holds the first row. -/
def weaveFields (a b : PicData) : PicData :=
  let cw := (a.w + 1) / 2
  let ch := (a.h + 1) / 2
  { a with
    h := 2 * a.h, y := weaveRows a.w a.h a.y b.y, cb := weaveRows cw ch a.cb b.cb, cr := weaveRows cw ch a.cr b.cr }

/-- The frame that reconstruction ends with: its fields woven, or a field without its pair line-doubled (R134). -/
def frameOut (o : PicOut) : PicData :=
  match o.second with
  | some b => weaveFields o.data b
  | none => if o.unpaired then weaveFields o.data o.data else o.data

/-- Commit a reconstructed picture of `c` cycles (a detail DEDUCED, log 36). -/
def commitPicture (s : State) (slot fid c : Nat) (o : PicOut) : State :=
  let cause := concealCode o
  let pic := concealFill (frameOut o) (concealSource s slot o.earlier) o.fill
  let s := s.updFrame fid (fun f => { f with
    pic := some pic, share := concealShare o, concealCause := cause, isRef := true,
    flags := if cause = 0 then f.flags else f.flags ||| 16 })
  let s := s.updDec slot (fun d => { d with avg := nextAvg d.avg c, cur := none, stalled := false })
  let s := if cause = 0 then s else rollback (decCount s slot 1 1) slot
  let s := frameStage (freeIngress s fid) fid 3
  let s := releasePics slot o.release (dropRefs slot o.unref s)
  sweepSlots (groupSlots s slot) s

/-- PICTURE_DECODED (R150): reconstruction of the engine's picture ends after `cycles` more. -/
def execPictureDecoded (engine cycles : Nat) (out : PicOut) (s : State) : Host.Outcome State Fault Refusal :=
  match engineCur s engine with
  | none => done s
  | some slot =>
    let s := engineServe s engine slot cycles
    match (s.stream slot).dec.cur with
    | none => done s
    | some c =>
      let f := s.frame c.frame
      let need := bandCount ((f.hdr.getD default).codedH) - f.bands.length
      match reachBands s slot c.frame need with
      | (false, s) => done s
      | (true, s) => done (commitPicture s slot c.frame c.cycles
        (endOut (f.damaged || c.poisoned) c.abandoned out))

/-! ### Resampling (R147 to R150) -/

/-- The partition of a frame is latency-critical. -/
def frameUrgent (s : State) (fid : Nat) : Bool :=
  let f := s.frame fid
  match cfgPart (frameCfg s f) (sePart (frameSe s f)) with
  | none => false
  | some p => peClass p == 0

/-- The released picture that a resampler takes next: latency-critical partitions first, in order of release. -/
def nextRelease (s : State) : Option Nat :=
  match s.relq.find? (frameUrgent s) with
  | some i => some i
  | none => s.relq.head?

/-- The teacher's graph of a frame. -/
def frameTeacher (s : State) (f : Frame) : Bytes := (streamGraph (frameCfg s f) (frameSe s f) 0).getD []

/-- Working format: that of the teacher's picture input (R148). -/
def workFmt (g : Bytes) : Nat :=
  match tensorsOfKind g 0 with
  | [] => 3
  | t :: _ => tFmt (gTensor g t)

/-- Size of the teacher's last Instar. -/
def lastInstar (g : Bytes) : Nat × Nat :=
  let r := gInstar g (gInstars g - 1)
  (isWidth r, isHeight r)

/-- Bytes of a working picture in its format. -/
def workBytes (fmt w h : Nat) : Nat := packedBytes (3 * w * h) (fmtBits fmt)

/-- Working picture, and the adapter's second picture, of a frame. -/
def workOf (g e : Bytes) (p : PicData) : (Nat × Nat × List Nat) × Option (Nat × Nat × List Nat) × Bool :=
  let (wl, hl) := lastInstar g
  let k := workPlan p.w p.h wl hl
  let ps := workPlanes p k
  let fmt := workFmt g
  let d := adDown (gAdapt g)
  let down := if seAdapter e && gHasAdapt g && d ≠ 0 then
      some (ceilDiv k.w d, ceilDiv k.h d, workCodes fmt p.bitDepth (downPlanes p.bitDepth d ps))
    else none
  ((k.w, k.h, workCodes fmt p.bitDepth ps), down, k.cropped)

/-- One log for each stream of a PQ or HLG source, and of a cropped working picture (R148, R149). -/
def resampleLogs (s : State) (slot : Nat) (hdr cropped : Bool) : State :=
  let d := (s.stream slot).dec
  let s := if hdr && !d.hdrLogged then
      raiseLogOf (s.updDec slot (fun d => { d with hdrLogged := true })) uRs (slotPart s slot) slot
    else s
  if cropped && !d.cropLogged then
    raiseLogOf (s.updDec slot (fun d => { d with cropLogged := true })) uRs (slotPart s slot) slot
  else s

/-- A resampler takes a frame. -/
def resampTake (s : State) (rs fid : Nat) : State :=
  { s with relq := s.relq.filter (· != fid),
           resamplers := mupd s.resamplers rs (fun r => { r with cur := some fid }) }

/-- Write the working picture of an emitting frame, in a buffer of its own; where none is to be had the picture waits
as it is. -/
def resampWork (s : State) (rs fid : Nat) : State :=
  let f := s.frame fid
  let g := frameTeacher s f
  let p := f.pic.getD default
  let (wk, down, cropped) := workOf g (frameSe s f) p
  match smallestPool s.run (workBytes (workFmt g) wk.1 wk.2.1) with
  | none => s
  | some k =>
    match bpmAlloc s (frameBpmPart s f) k with
    | (none, s) => s
    | (some a, s) =>
      let s := s.updFrame fid (fun f => { f with work := some wk, down := down, workBuf := some a, released := false })
      resampTake (resampleLogs s f.slot p.hdr cropped) rs fid

/-- RESAMPLE_PICTURE (R147 to R150): a free resampler takes the next released picture. A non-emitting fusion member's
picture is kept for its group, and scaled to an emitting member's working size where one takes it (R149). -/
def execResamplePicture (rs : Nat) (s : State) : Host.Outcome State Fault Refusal :=
  let r := mget s.resamplers rs
  if r.fenced || r.cur.isSome || 4 ≤ rs then done s
  else
    match nextRelease s with
    | none => done s
    | some fid =>
      if refOnly s (s.frame fid) then
        done (resampTake (s.updFrame fid (fun f => { f with released := false })) rs fid)
      else done (resampWork s rs fid)

/-! ### Batches (R151, R152) -/

/-- Batch size. -/
def batchSize : Nat := 8

/-- Members padded to 8 (a detail DEDUCED, log 37). -/
def padMembers (l : List (Option Nat)) : List (Option Nat) := l ++ List.replicate (batchSize - l.length) none

/-- The open step of a slot is discarded: the head shows it, and counter 2 counts it (R270, R276, R277). -/
def stepDiscard (s : State) (slot : Nat) : State :=
  let s := s.updStream slot (fun x => { x with adp := none, adpc := bump x.adpc 2 1 })
  recSet s slot (ordHead (s.cfgAt slot) (s.se slot)) [(hdFlags, toLe 1 2), (hdFrames, toLe 1 0), (hdFirst, toLe 4 0)]

/-- Adapter training in force becomes what the tunable says, at a stream of the partition (R43, R276). -/
def trainRefresh (s : State) (slot : Nat) : State :=
  let on := seAdapter (s.se slot) && tunCurrent s slot 0x12 == 1
  let s := s.updStream slot (fun x => { x with train := on })
  if !on && (s.stream slot).adp.isSome then stepDiscard s slot else s

/-- Live slots of a partition. -/
def partSlots (s : State) (p : Nat) : List Nat :=
  (s.streams.filter (fun q => q.2.live && slotPart s q.1 == p)).map (·.1)

/-- Stage 0x5 for each valid member. -/
def stageMembers : List (Option Nat) → State → State
  | [], s => s
  | none :: t, s => stageMembers t s
  | some i :: t, s => stageMembers t (frameStage s i 5)

/-- Close an open batch: it passes to its partition's queue, padded to 8; one without a valid picture is discarded
(a detail DEDUCED, log 37). -/
def batchClose (s : State) (b : Nat) : State :=
  match mfind s.batches b with
  | none => s
  | some x =>
    if x.closed then s
    else if !batchHasFrame x then { s with batches := mdel s.batches b }
    else
      let seq := (s.part x.part).batchSeq
      let s := s.updBatch b (fun y => { y with closed := true, closedAt := s.now, members := padMembers y.members, seq := seq })
      let s := s.updPart x.part (fun p => { p with batchSeq := (seq + 1) % 2 ^ 32, queue := p.queue ++ [b] })
      let s := (partSlots s x.part).foldl trainRefresh s
      stageMembers (padMembers x.members) s

/-- Key of a frame's batch: partition, graph instances, Instar and configuration. -/
def batchKey (s : State) (f : Frame) : Nat × List Nat × Nat × Nat :=
  let e := frameSe s f
  let (w, h) := workSize f
  (sePart e, (List.range 5).map (seModel e), instarFor (frameTeacher s f) h w, f.cfgSeq)

/-- The open batch of a key. -/
def openBatch (s : State) (k : Nat × List Nat × Nat × Nat) : Option Nat :=
  (s.batches.find? (fun p => !p.2.closed && (p.2.part, p.2.models, p.2.instar, p.2.cfgSeq) == k)).map (·.1)

/-- Open a batch that holds one picture. -/
def batchOpen (s : State) (k : Nat × List Nat × Nat × Nat) (fid : Nat) : State :=
  let b : Batch := { (default : Batch) with
    part := k.1, models := k.2.1, instar := k.2.2.1, cfgSeq := k.2.2.2, members := [some fid], since := s.now,
    inv := List.replicate 5 0 }
  { s with batches := mput s.batches s.nextBatch b, nextBatch := s.nextBatch + 1 }

/-- The batch holds a picture of a slot. -/
def batchHasSlot (s : State) (b : Batch) (slot : Nat) : Bool :=
  b.members.any (fun m => match m with
    | none => false
    | some i => (s.frame i).slot == slot)

/-- A picture joins the open batch of its key. A batch emptied by withdrawals restarts its wait. -/
def batchJoin (s : State) (fid : Nat) : State :=
  let f := s.frame fid
  let k := batchKey s f
  let fresh (s : State) : State :=
    let n := s.nextBatch
    (batchOpen s k fid).updFrame fid (fun f => { f with batch := some n })
  match openBatch s k with
  | none => fresh s
  | some b =>
    match mfind s.batches b with
    | none => fresh s
    | some x =>
      if batchHasSlot s x f.slot then fresh (batchClose s b)
      else
        let s := s.updBatch b (fun x => { x with members := x.members ++ [some fid] })
        let s := s.updFrame fid (fun f => { f with batch := some b })
        if batchSize ≤ x.members.length + 1 then batchClose s b else s

/-- Tiles of a base picture (R278). -/
def tileTotal (w h : Nat) : Nat := ceilDiv w 16 * ceilDiv h 16

/-- RESAMPLE_DONE (R150, R151): the resampler's picture is complete. -/
def execResampleDone (rs : Nat) (s : State) : Host.Outcome State Fault Refusal :=
  match (mget s.resamplers rs).cur with
  | none => done s
  | some fid =>
    let s := { s with resamplers := mupd s.resamplers rs (fun r => { r with cur := none }) }
    let f := s.frame fid
    let (w, h) := baseSize f
    let s := s.updFrame fid (fun f => { f with resampled := true, tileCount := tileTotal w h })
    let s := frameStage s fid 4
    let s := if refOnly s f then s else batchJoin s fid
    done (sweepSlots (groupSlots s f.slot) s)

/-- BATCH_TIMEOUT (R151): the oldest picture of an open batch has waited 1 ms, or 10 ms for a best-effort partition
(a detail DESIGN CHOICE, log 23). -/
def execBatchTimeout (batch : Nat) (s : State) : Host.Outcome State Fault Refusal := done (batchClose s batch)

end Sys2Proof.Machine
end

