-- ==== Sys2Proof/Machine/Mapper.lean ====
section
/-! DEFINITION. The mapper's plan of a graph at a size: windows and demands (R102, R103), phases and groups (R213), the
reach of a row and the delay of a reader (R217), stripes, ownership and halo (R218 to R220), tile shapes and issue cycles
(R156, R199, R204, R209, R225), and the bound of a Chrysalis body (R254). -/

set_option Elab.async false

namespace Sys2Proof.Machine

/-- A graph at a size: the Instar's, or a picture's own. -/
structure Plan where
  g : Bytes
  h : Nat
  w : Nat
  deriving DecidableEq, Repr, Inhabited

def Plan.hOf (p : Plan) (t : Nat) : Nat := tH (gTensor p.g t) p.h
def Plan.wOf (p : Plan) (t : Nat) : Nat := tW (gTensor p.g t) p.w
def Plan.cOf (p : Plan) (t : Nat) : Nat := tChannels (gTensor p.g t)
def Plan.bits (p : Plan) (t : Nat) : Nat := fmtBits (tFmt (gTensor p.g t))
def Plan.kind (p : Plan) (t : Nat) : Nat := tKind (gTensor p.g t)

/-- Output rows of a layer; those of DSEARCH are rows of tiles of the working picture. -/
def Plan.outH (p : Plan) (l : Bytes) : Nat := if lOut l = 0xFFFF then ceilDiv p.h 16 else p.hOf (lOut l)
def Plan.outW (p : Plan) (l : Bytes) : Nat := if lOut l = 0xFFFF then ceilDiv p.w 16 else p.wOf (lOut l)
def Plan.outC (p : Plan) (l : Bytes) : Nat := if lOut l = 0xFFFF then 32 else p.cOf (lOut l)

/-- rb(t): bytes of one row of a tensor, rounded up to 64 (R102). -/
def rowBytes (p : Plan) (t : Nat) : Nat := roundUp (packedBytes (p.wOf t * p.cOf t) (p.bits t)) 64

/-- Bytes of a whole tensor of one picture. -/
def tensorBytes (p : Plan) (t : Nat) : Nat := packedBytes (p.hOf t * p.wOf t * p.cOf t) (p.bits t)

/-- Inputs of a layer that stream by rows: model inputs and row-streamed tensors (R102). -/
def rowInputs (p : Plan) (l : Bytes) : List Nat := (lInputs l).filter (fun t => p.kind t = 0 || p.kind t = 4)

/-- span(c) of R102 for input `t`. -/
def spanOf (l : Bytes) (t : Nat) : Nat :=
  let o := lOp l
  if o = opConv then (if convDirect l then (cvKh l - 1) * cvDh l + 8 * cvSh l else 128)
  else if o = opPool then (plKh l - 1) + 8 * plSh l
  else if o = opResample then ceilDiv (8 * lP l 2) (lP l 1) + 3
  else if o = opWarp && lIn l 0 = t then 2 * lP l 1 + 11
  else if o = opCorr && lIn l 1 = t then 2 * lP l 0 + 8
  else 8

/-- reach of R217: the first (`lo`) or last row of input `t` that output row `y` reads. -/
def reachRow (l : Bytes) (t : Nat) (y : Int) (lo : Bool) : Int :=
  let o := lOp l
  if o = opConv then
    let r := y * cvSh l - cvPt l
    if lo then r else r + ((cvKh l - 1) * cvDh l : Nat)
  else if o = opPool then
    let r := y * plSh l - plPt l
    if lo then r else r + (plKh l - 1 : Nat)
  else if o = opResample then
    let i0 := ((2 * y + 1) * lP l 2 - lP l 1).fdiv (2 * lP l 1 : Nat)
    if lo then i0 - 1 else i0 + 2
  else if o = opWarp && lIn l 0 = t then (if lo then y - lP l 1 - 1 else y + lP l 1 + 2)
  else if o = opCorr && lIn l 1 = t then (if lo then y - lP l 0 else y + lP l 0)
  else if o = opSlice && lP l 0 = 1 then
    (if lo then y * lP l 4 else y * lP l 4 + lP l 4 - 1)
  else if o = opSlice && lP l 0 = 2 then y.fdiv (lP l 4)
  else y

/-! ### Stacks, phases and groups -/

/-- Layer indexes of a stack. -/
def stackLayers (g : Bytes) (k : Nat) : List Nat :=
  let s := gStack g k
  (List.range (gLayers g)).filter (fun i => skFirst s ≤ i && i ≤ skLast s)

/-- Tensors that the layers of a list read by rows, each once, in order. -/
def readTensors (p : Plan) : List Nat → List Nat → List Nat
  | [], acc => acc
  | i :: t, acc => readTensors p t ((rowInputs p (gLayer p.g i)).foldl (fun a u => if a.contains u then a else a ++ [u]) acc)

/-- Value of a row bound kept by tensor. -/
def boundOf (m : List (Nat × Int)) (t : Nat) : Int := ((m.find? (fun x => x.1 == t)).map (·.2)).getD 0

/-- Change, or enter, a bound. -/
def boundPut (m : List (Nat × Int)) (t : Nat) (v : Int) : List (Nat × Int) :=
  if m.any (fun x => x.1 == t) then m.map (fun x => if x.1 = t then (t, v) else x) else m ++ [(t, v)]

/-- The pass of delay over the inputs of one layer: newest rows, and rows taken by (tensor, layer). -/
def delayInputs (l : Bytes) (li : Nat) (y : Int) :
    List Nat → List (Nat × Int) × List (Nat × Nat × Int) → List (Nat × Int) × List (Nat × Nat × Int)
  | [], x => x
  | u :: t, (newest, taken) =>
    let r := reachRow l u y false
    let have_ := newest.any (fun x => x.1 == u)
    let v := if have_ then max (boundOf newest u) r else r
    delayInputs l li y t (boundPut newest u v, taken ++ [(u, li, r)])

/-- The pass of delay over the layers of a stack, last first. -/
def delayLayers (p : Plan) : List Nat → List (Nat × Int) × List (Nat × Nat × Int) → List (Nat × Int) × List (Nat × Nat × Int)
  | [], x => x
  | i :: t, x =>
    let l := gLayer p.g i
    delayLayers p t (delayInputs l i (boundOf x.1 (lOut l)) (rowInputs p l) x)

/-- Outputs of a stack that are read outside it, or that leave the model. -/
def stackSinks (p : Plan) (stack : List Nat) : List Nat :=
  (stack.map (fun i => lOut (gLayer p.g i))).filter (fun t =>
    p.kind t = 1 || (List.range (gLayers p.g)).any (fun i => !stack.contains i && (lInputs (gLayer p.g i)).contains t))

/-- delay(t, c) of R217. -/
def delayOf (p : Plan) (stack : List Nat) (t c : Nat) : Int :=
  let x := delayLayers p stack.reverse ((stackSinks p stack).map (fun t => (t, 0)), [])
  boundOf x.1 t - ((x.2.find? (fun y => y.1 == t && y.2.1 == c)).map (·.2.2)).getD 0

/-- rows(t) of R102 in a stack. -/
def windowRows (p : Plan) (stack : List Nat) (t : Nat) : Nat :=
  let rd := stack.filter (fun i => (rowInputs p (gLayer p.g i)).contains t)
  let d (c : Nat) : Nat := if rd.length ≤ 1 then 0 else (delayOf p stack t c).toNat
  rd.foldl (fun a c => max a (spanOf (gLayer p.g c) t + d c)) 0

/-- Line-store demand of a stack (R102). -/
def lineDemand (p : Plan) (stack : List Nat) : Nat :=
  sumNat ((readTensors p stack []).map (fun t => windowRows p stack t * rowBytes p t))

/-- Line-store bytes for windows and for halo rows; region-store bytes for hand-off and frame tensors (R213). -/
def lsWindows : Nat := 3670016
def haloArea : Nat := 524288
def handoffArea : Nat := 6291456

/-- One phase: its stacks, and the layers outside stacks that end it. -/
structure Phase where
  stackIds : List Nat
  tail : List Nat
  deriving DecidableEq, Repr, Inhabited

/-- Split the layers from index `i` into phases. -/
def phasesFrom (g : Bytes) : List Nat → Phase → List Phase
  | [], cur => [cur]
  | i :: t, cur =>
    let k := lStack (gLayer g i)
    if k = 0xFFFF then phasesFrom g t { cur with tail := cur.tail ++ [i] }
    else if cur.tail.isEmpty then
      phasesFrom g t (if cur.stackIds.contains k then cur else { cur with stackIds := cur.stackIds ++ [k] })
    else cur :: phasesFrom g t ⟨[k], []⟩

/-- The phases of a graph, in order. -/
def phasesOf (g : Bytes) : List Phase := phasesFrom g (List.range (gLayers g)) ⟨[], []⟩

/-- plan_groups of R213: groups of stacks. -/
def planGroupsGo (p : Plan) : List Nat → List Nat → Nat → List (List Nat)
  | [], cur, _ => [cur]
  | k :: t, cur, used =>
    let d := lineDemand p (stackLayers p.g k)
    if !cur.isEmpty && lsWindows < used + d then cur :: planGroupsGo p t [k] d
    else planGroupsGo p t (cur ++ [k]) (used + d)

def planGroups (p : Plan) (ph : Phase) : List (List Nat) := planGroupsGo p ph.stackIds [] 0

/-- Line-store demand of a group. -/
def groupDemand (p : Plan) (grp : List Nat) : Nat := sumNat (grp.map (fun k => lineDemand p (stackLayers p.g k)))

/-- Stack that produces a tensor, if a stack does. -/
def stackOf (g : Bytes) (t : Nat) : Option Nat :=
  match producerOf g t with
  | none => none
  | some i => if lStack (gLayer g i) = 0xFFFF then none else some (lStack (gLayer g i))

/-- Hand-off tensors: (tensor, reading stack), produced in one stack and read in a later one (R101). A tensor that several
later stacks read is charged once for each (R103) (a detail DESIGN CHOICE, log 20). -/
def handoffs (p : Plan) : List (Nat × Nat) :=
  ((List.range (gTensors p.g)).filter (fun t => p.kind t = 4)).flatMap (fun t =>
    match stackOf p.g t with
    | none => []
    | some k => ((List.range (gStacks p.g)).filter (fun j =>
        j != k && (stackLayers p.g j).any (fun i => (lInputs (gLayer p.g i)).contains t))).map (fun j => (t, j)))

/-- Region-store bytes of a hand-off tensor in its reading stack (R103). -/
def handoffBytes (p : Plan) (x : Nat × Nat) : Nat := (windowRows p (stackLayers p.g x.2) x.1 + 8) * rowBytes p x.1

/-- Bytes of the kind-5 tensors of one picture. -/
def frameTensorBytes (p : Plan) : Nat := sumNat ((tensorsOfKind p.g 5).map (tensorBytes p))

/-- Region-store demand of a graph (R103). -/
def regionDemand (p : Plan) : Nat := sumNat ((handoffs p).map (handoffBytes p)) + frameTensorBytes p

/-- Hand-off bytes between the groups of a phase. -/
def groupHandoff (p : Plan) (grps : List (List Nat)) : Nat :=
  sumNat (((handoffs p).filter (fun x => match stackOf p.g x.1 with
    | none => false
    | some k => grps.any (fun a => a.contains k && !a.contains x.2) && grps.any (fun a => a.contains x.2))).map (handoffBytes p))

/-- plan_workers of R213. -/
def planWorkers (groups blocks handoff frame : Nat) : Nat :=
  if blocks < groups then 0
  else if groups ≤ 1 then blocks
  else max 1 (min (blocks / groups) (if handoff = 0 then blocks else (handoffArea - frame) / handoff))

/-! ### Stripes, ownership and halo (R218 to R220) -/

/-- Layers of a phase's stacks, in record order. -/
def phaseLayers (g : Bytes) (ph : Phase) : List Nat := ph.stackIds.flatMap (stackLayers g)

/-- The phase's last stacked layer. -/
def phaseRef (g : Bytes) (ph : Phase) : Bytes := gLayer g ((phaseLayers g ph).getLastD 0)

/-- Tensors of a phase that are read outside it, or that leave the model. -/
def phaseSinks (p : Plan) (ph : Phase) : List Nat :=
  let ls := phaseLayers p.g ph
  (ls.map (fun i => lOut (gLayer p.g i))).filter (fun t =>
    p.kind t = 1 || (readersOf p.g t).any (fun i => !ls.contains i) || (readersOf p.g t).isEmpty)

/-- ownership of R219: first row owned of each tensor by the stripe that starts at reference row `b`. -/
def ownership (p : Plan) (ph : Phase) (b : Nat) : List (Nat × Int) :=
  let href := p.outH (phaseRef p.g ph)
  let start : List (Nat × Int) := (phaseSinks p ph).map (fun t =>
    (t, ((b * (if t = 0xFFFF then href else p.hOf t) / href : Nat) : Int)))
  (phaseLayers p.g ph).reverse.foldl (fun m i =>
    let l := gLayer p.g i
    (rowInputs p l).foldl (fun m t =>
      let r := reachRow l t (boundOf m (lOut l)) true
      boundPut m t (if m.any (fun x => x.1 == t) then min (boundOf m t) r else r)) m) start

/-- halo_rows of R220 for a tensor produced in the phase. -/
def haloRows (p : Plan) (ph : Phase) (b t : Nat) : Nat :=
  let m := ownership p ph b
  let rd := (readersOf p.g t).filter (fun i => (phaseLayers p.g ph).contains i)
  match rd with
  | [] => 0
  | _ =>
    let hi := rd.foldl (fun (a : Int) i => max a (reachRow (gLayer p.g i) t (boundOf m (lOut (gLayer p.g i)) - 1) false)) (-1)
    (min hi ((p.hOf t : Int) - 1) - max (boundOf m t) 0 + 1).toNat

/-- Halo bytes at a boundary for the tensors that a group produces. -/
def groupHalo (p : Plan) (ph : Phase) (grp : List Nat) (b : Nat) : Nat :=
  sumNat ((grp.flatMap (stackLayers p.g)).map (fun i =>
    let t := lOut (gLayer p.g i)
    if t = 0xFFFF then 0 else haloRows p ph b t * rowBytes p t))

/-- halo_bytes of R218: the largest sum over the blocks of a worker at any boundary of stripes of `hs` rows. -/
def haloBytes (p : Plan) (ph : Phase) (hs : Nat) : Nat :=
  let ho := p.outH (phaseRef p.g ph)
  let bs := (List.range (ceilDiv ho hs)).map (fun i => i * hs)
  (planGroups p ph).foldl (fun a grp => (bs.drop 1).foldl (fun a b => max a (groupHalo p ph grp b)) a) 0

/-- The phase holds a frequency-domain CONV. -/
def hasFreqConv (g : Bytes) (ph : Phase) : Bool :=
  (phaseLayers g ph).any (fun i => lOp (gLayer g i) = opConv && !convDirect (gLayer g i))

/-- stripes_per_picture of R218: count and height. -/
def stripesPerPicture (p : Plan) (ph : Phase) (workers : Nat) : Nat × Nat :=
  let ho := p.outH (phaseRef p.g ph)
  if workers ≤ 1 || hasFreqConv p.g ph || ph.stackIds.isEmpty then (1, ho)
  else
    let hs := 8 * ceilDiv ho (8 * workers)
    if hs < 64 || haloArea < haloBytes p ph hs then (1, ho) else (ceilDiv ho hs, hs)

/-- Workers and groups of a phase on `n` blocks; no worker where the phase spills (R213, R215). -/
def phaseWorkers (p : Plan) (n : Nat) (ph : Phase) : Nat × Nat :=
  let grps := planGroups p ph
  (planWorkers grps.length n (groupHandoff p grps) (frameTensorBytes p), grps.length)

/-- Stripes of a picture in a phase, and their height, on `n` blocks (R218); a phase that spills runs each picture as one
stripe (R215). -/
def phaseStripes (p : Plan) (n : Nat) (ph : Phase) : Nat × Nat := stripesPerPicture p ph (phaseWorkers p n ph).1

/-! ### Tile shapes and issue cycles -/

/-- K of R154 by the formats of the operand pair. -/
def kOf (fa fw : Nat) : Nat :=
  if fa = 1 && fw = 1 then 64 else if fa = 4 || fa = 8 || fa = 9 then 8 else 32

/-- Gp of R199: groups packed in one plane, 0 where the layer does not pack. -/
def packedGroups (p : Plan) (l : Bytes) : Nat :=
  let k := kOf (tFmt (gTensor p.g (lIn l 0))) (tFmt (gTensor p.g (lIn l 1)))
  let cg := p.cOf (lIn l 0) / cvGroups l
  let cog := p.outC l / cvGroups l
  if cvGroups l ≤ 1 || k < cg || 32 < cog then 0 else min (cvGroups l) (min (k / cg) (32 / cog))

/-- Channel count C of choose_tile: for packed groups, 32 for each pass (R225). -/
def tileChannels (p : Plan) (l : Bytes) : Nat :=
  if lOp l = opConv && 0 < packedGroups p l then
    ceilDiv (p.outC l) (packedGroups p l * (p.outC l / cvGroups l)) * 32
  else p.outC l

/-- Elements of the vector unit per region cycle, by the slowest operation of a layer: the division of an average, the
table, or another (R158) (a detail DEDUCED, log 41). -/
def vectorRate (l : Bytes) : Nat :=
  let o := lOp l
  if (o = opPool && plMode l ≠ 0) || (o = opReduce && lP l 0 = 1) then 4 else if o = opTable then 16 else 32

/-- cyc(n): region cycles of one pass of `n` pixels (R156, R199, R209, R158). -/
def passCycles (p : Plan) (l : Bytes) (n : Nat) : Nat :=
  let o := lOp l
  let fa := tFmt (gTensor p.g (lIn l 0))
  let fw := tFmt (gTensor p.g (lIn l 1))
  if o = opConv then
    let steps := if 0 < packedGroups p l then 1 else ceilDiv (p.cOf (lIn l 0) / cvGroups l) (kOf fa fw)
    n * (cvKh l * cvKw l) * steps + 24
  else if o = opMatmul then n * ceilDiv (mmK p.g l p.h p.w) (kOf fa fw) + 24
  else if o = opAttention then
    n * (lP l 3 * (lP l 2 + 1)) * ceilDiv (lP l 1) (kOf fa fw) / 16 + 24
  else if o = opCorr then
    let d := 2 * lP l 0 / lP l 1 + 1
    ceilDiv n 32 * (d * ceilDiv (p.cOf (lIn l 0)) (kOf fa fw) * (32 + 2 * lP l 0) + 24)
  else ceilDiv (n * 32) (vectorRate l)

/-- One candidate of choose_tile: its key and its shape. -/
structure TileShape where
  time : Nat
  issue : Nat
  tc : Nat
  tw : Nat
  tr : Nat
  deriving DecidableEq, Repr, Inhabited

/-- Order of the keys of choose_tile; larger shapes first among equals. -/
def TileShape.before (a b : TileShape) : Bool :=
  if a.time ≠ b.time then a.time < b.time
  else if a.issue ≠ b.issue then a.issue < b.issue
  else if a.tc ≠ b.tc then b.tc < a.tc
  else if a.tw ≠ b.tw then b.tw < a.tw
  else b.tr < a.tr

/-- The candidates of choose_tile, in its order. -/
def tileCandidates (c wo r cells : Nat) (cyc : Nat → Nat) : List TileShape :=
  [128, 64, 32].flatMap (fun tc => [256, 128, 64, 32].flatMap (fun tw => [8, 4, 2, 1].map (fun tr =>
    let px := tw * tr
    let tile := tc / 32 * ceilDiv px 256 * cyc (min px 256)
    let n := ceilDiv c tc * ceilDiv wo tw * ceilDiv r tr
    ⟨ceilDiv n cells * tile, n * tile, tc, tw, tr⟩)))

/-- choose_tile of R225 (a detail DEDUCED, log 41). -/
def chooseTile (c wo r cells : Nat) (cyc : Nat → Nat) : TileShape :=
  (tileCandidates c wo r cells cyc).tail.foldl (fun b x => if x.before b then x else b)
    ((tileCandidates c wo r cells cyc).headD default)

/-- The tile shape of a row group of `r` rows of a layer on a block of `cells` cells; a frequency-domain CONV takes its
64 × 64 tiles. -/
def layerTile (p : Plan) (l : Bytes) (r cells : Nat) : TileShape :=
  if lOp l = opConv && !convDirect l then ⟨0, 0, p.outC l, 64, 64⟩
  else chooseTile (tileChannels p l) (p.outW l) r (max cells 1) (passCycles p l)

/-- Tiles of a frequency-domain CONV down and across (R202). -/
def freqTilesH (p : Plan) (l : Bytes) : Nat := ceilDiv (p.outH l) (fftStep (cvKh l) (cvSh l) / cvSh l)
def freqTilesW (p : Plan) (l : Bytes) : Nat := ceilDiv (p.outW l) (fftStep (cvKw l) (cvSw l) / cvSw l)

/-- Tiles that share a computation of the kernel spectra: those of one tile row that go to one of `cells` cells, at most
8 (R225). -/
def freqShare (p : Plan) (l : Bytes) (cells : Nat) : Nat := max 1 (min 8 (freqTilesW p l / max cells 1))

/-- Issue cycles of one tile of a frequency-domain CONV (R204). -/
def freqTileCycles (p : Plan) (l : Bytes) (cells : Nat) : Nat :=
  let ci := p.cOf (lIn l 0)
  let co := p.outC l
  6144 * ci + 64 * ci * co / cvGroups l + 6144 * co + 6144 * ci * co / cvGroups l / freqShare p l cells

/-- Issue cycles of one layer on one picture at the Instar, on a block of 8 cells. -/
def layerIssue (p : Plan) (l : Bytes) : Nat :=
  if lOp l = opConv && !convDirect l then freqTilesH p l * freqTilesW p l * freqTileCycles p l 8
  else ceilDiv (p.outH l) 8 * (layerTile p l 8 8).issue

/-- Issue cycles of a graph on one batch of 8 pictures. -/
def graphIssue (p : Plan) : Nat := 8 * sumNat ((gLayerList p.g).map (layerIssue p))

/-! ### The tiles of a row group and their commands (R212, R225, R226, R312) -/

/-- A frequency-domain CONV. -/
def freqConv (l : Bytes) : Bool := lOp l = opConv && !convDirect l

/-- Rows of a full row group: 8, or those of one tile of a frequency-domain CONV (R202, R212)
(a detail DEDUCED, log 37). -/
def groupRows (l : Bytes) : Nat := if freqConv l then max 1 (fftStep (cvKh l) (cvSh l) / cvSh l) else 8

/-- Output channels of one pass: those of the packed groups of R199, or 32. -/
def passChans (p : Plan) (l : Bytes) : Nat :=
  if lOp l = opConv && 0 < packedGroups p l then packedGroups p l * (p.outC l / cvGroups l) else 32

/-- Output channels, columns and rows of a tile of a row group of `r` rows on `cells` cells. -/
def tileShape (p : Plan) (l : Bytes) (r cells : Nat) : Nat × Nat × Nat :=
  if freqConv l then (p.outC l, max 1 (fftStep (cvKw l) (cvSw l) / cvSw l), groupRows l)
  else
    let t := layerTile p l r cells
    (t.tc / 32 * passChans p l, t.tw, t.tr)

/-- The tiles of the row group of `r` rows from row `r0`: the channel varies fastest, then the column, then the row
(R226). Rows beyond the row group are masked (R227). -/
def tileGrid (p : Plan) (l : Bytes) (r0 r cells : Nat) : List GridTile :=
  let (tc, tw, tr) := tileShape p l r cells
  let nc := ceilDiv (p.outC l) tc
  let nw := ceilDiv (p.outW l) tw
  (List.range (ceilDiv r tr * nw * nc)).map (fun j =>
    let i := j / nc / nw
    ⟨j, r0 + i * tr, min tr (r - i * tr), j / nc % nw * tw, tw, j % nc * tc, tc⟩)

/-- The layer's passes run on the array. -/
def onArray (l : Bytes) : Bool := lOp l = opConv || lOp l = opMatmul || lOp l = opAttention || lOp l = opCorr

/-- Region cycles that one weight plane takes in a pass of `px` pixels (R156, R209). -/
def planeRun (l : Bytes) (px : Nat) : Nat := if lOp l = opCorr then 32 + 2 * lP l 0 else px

/-- Most region cycles of one command (R312). -/
def cmdMax : Nat := 384

/-- What a tile's passes are cut into: passes, indivisible steps of each (weight planes, or cycles), and region cycles of
one step. -/
def tileSteps (p : Plan) (l : Bytes) (r cells : Nat) : Nat × Nat × Nat :=
  if freqConv l then (1, freqTileCycles p l cells, 1)
  else
    let t := layerTile p l r cells
    let px := min (t.tw * t.tr) 256
    let passes := t.tc / 32 * ceilDiv (t.tw * t.tr) 256
    if onArray l then (passes, max 1 (ceilDiv (passCycles p l px - 24) (planeRun l px)), planeRun l px)
    else (passes, passCycles p l px, 1)

/-- Steps of one command: as many as fit in 384 region cycles, and at least one. -/
def stepsEach (run : Nat) : Nat := max 1 (cmdMax / max run 1)

/-- Commands of one tile (R225, R312). -/
def tileCmds (p : Plan) (l : Bytes) (r cells : Nat) : Nat :=
  let (passes, n, run) := tileSteps p l r cells
  passes * ceilDiv n (stepsEach run)

/-- Region cycles of command `k` of a tile: whole weight planes of one pass. -/
def cmdCycles (p : Plan) (l : Bytes) (r cells k : Nat) : Nat :=
  let (_, n, run) := tileSteps p l r cells
  let each := stepsEach run
  min each (n - k % ceilDiv n each * each) * run

/-- Operand pair of a command of a layer's tile: of ATTENTION the scores' pair first, and that of the weighted sum in the
second half (R98, R243) (a detail DEDUCED, log 38). -/
def cmdPair (p : Plan) (l : Bytes) (cmds k : Nat) : Nat × Nat :=
  let f (i : Nat) : Nat := tFmt (gTensor p.g (lIn l i))
  if !onArray l then (0, 0)
  else if freqConv l then (9, 9)
  else if lOp l = opAttention && decide (cmds ≤ 2 * k) then (if f 1 ≤ 5 then 3 else f 2, f 2)
  else (f 0, f 1)

/-! ### The work list (R221) -/

/-- n_s of a work list for a number of usable blocks: the largest of its phases' counts; an entry past its phase's
count has no rows (a detail DEDUCED, log 37). -/
def workStripes (p : Plan) (blocks : Nat) : Nat := (phasesOf p.g).foldl (fun a ph => max a (phaseStripes p blocks ph).1) 1

/-- Entries of the work list of one batch. -/
def workEntries (p : Plan) (blocks : Nat) : Nat := 8 * (phasesOf p.g).length * workStripes p blocks

/-- Picture, phase and stripe of entry `v`. -/
def entryOf (phases ns v : Nat) : Nat × Nat × Nat := (v / ns / phases, v / ns % phases, ns - 1 - v % ns)

/-- A phase needs more groups than there are usable blocks: spill mode (R215). -/
def phaseSpills (p : Plan) (blocks : Nat) (ph : Phase) : Bool := decide (blocks < (planGroups p ph).length)

/-! ### Chrysalis bodies (R254) -/

/-- Figures sections of a phase: 48 bytes a channel of each re-derivable tensor it produces. -/
def figureBytes (p : Plan) (ph : Phase) : Nat × Nat :=
  let ts := ((phaseLayers p.g ph ++ ph.tail).map (fun i => lOut (gLayer p.g i))).filter (fun t =>
    t != 0xFFFF && rederivable (gTensor p.g t))
  (ts.length, sumNat (ts.map (fun t => 48 * tEntries (gTensor p.g t))))

/-- Committed-mask bytes of a layer's row group. -/
def progressBytes (p : Plan) (l : Bytes) : Nat := roundUp (ceilDiv (groupRows l * ceilDiv (p.outW l) 32 * ceilDiv (p.outC l) 32) 8) 4

/-- Largest body of a context of a phase. -/
def phaseBody (p : Plan) (ph : Phase) : Nat :=
  let grps := planGroups p ph
  let ls := phaseLayers p.g ph
  let wins := (readTensors p ls []).length
  let halo := ls.length
  let figs := figureBytes p ph
  let sections := wins + 2 * halo + ls.length + 1 + figs.1 + 1
  grps.foldl (fun a g => max a (groupDemand p g)) 0 + haloArea + groupHandoff p grps + 31 * sections +
    sumNat (ls.map (fun i => progressBytes p (gLayer p.g i))) + 8 + figs.2

/-- Largest Chrysalis body of a graph over its Instars. -/
def graphBody (g : Bytes) : Nat :=
  (List.range (gInstars g)).foldl (fun a i =>
    let r := gInstar g i
    (phasesOf g).foldl (fun a ph => max a (phaseBody ⟨g, isHeight r, isWidth r⟩ ph)) a) 0

/-- Largest Chrysalis body of a configuration (R254, R343). -/
def largestBody (c : Sections) : Nat := c.graphs.foldl (fun a p => max a (graphBody p.2)) 0

end Sys2Proof.Machine
end

