-- ==== Sys2Proof/Machine/Operands.lean ====
section
/-! DEFINITION. Operands of layers: how a layer reads an element of a tensor, on the array as a code (R184) and on the
vector unit as an FP32 value (R99, R185), and how it writes one (R167, R180, R186). -/

set_option Elab.async false

namespace Sys2Proof.Machine

/-- One key frame of the cache: scales, tokens, and codes of K and V by token and channel (R242, R243). -/
structure KvFrame where
  sk : Fl
  sv : Fl
  tokens : Nat
  k : Nat → Nat → Nat
  v : Nat → Nat → Nat

/-- The adapter of a stream as a picture uses it (R268, R269): seed and FP32 masters by parameter index. -/
structure AdpUse where
  seed : Nat
  master : Nat → Nat

/-- What a layer of one picture computes from: the graph, the picture's working size, the table of each tensor, the
stored code of each tensor's element, the key frames and the adapter. -/
structure OpEnv where
  g : Bytes
  h : Nat
  w : Nat
  tab : Nat → QTable
  code : Nat → Nat → Nat
  frames : List KvFrame
  adapter : Option AdpUse

/-- Extent of a tensor for the picture (R196). -/
def OpEnv.hOf (e : OpEnv) (t : Nat) : Nat := tH (gTensor e.g t) e.h
def OpEnv.wOf (e : OpEnv) (t : Nat) : Nat := tW (gTensor e.g t) e.w
def OpEnv.cOf (e : OpEnv) (t : Nat) : Nat := tChannels (gTensor e.g t)
def OpEnv.fmt (e : OpEnv) (t : Nat) : Nat := tFmt (gTensor e.g t)

/-- The tensor is read-only data of the image. -/
def isData (k : Nat) : Bool := k = 2 || k = 3 || k = 7

/-- Stored code of element (y, x, c); weights, biases and constants come from the image. -/
def OpEnv.at (e : OpEnv) (t y x c : Nat) : Nat := e.code t ((y * e.wOf t + x) * e.cOf t + c)

/-- Code of an element of a data blob by its index. -/
def dataCode (g : Bytes) (t i : Nat) : Nat := packedCode (blobData g (tBlob (gTensor g t))) (fmtBits (tFmt (gTensor g t))) i

/-- Value of one element before rotation is undone (R185, R99). -/
def OpEnv.stored (e : OpEnv) (t y x c : Nat) : Fl :=
  if quantized (e.fmt t) then qRead (e.fmt t) (e.tab t) c (e.at t y x c) else codeVal (e.fmt t) (e.at t y x c)

/-- Value of one element on the vector unit: a rotated tensor is rotated a second time (R186). -/
def OpEnv.val (e : OpEnv) (t y x c : Nat) : Fl :=
  let h := tHad (gTensor e.g t)
  if h = 0 then e.stored t y x c
  else
    let base := c / 2 ^ h * 2 ^ h
    (rotateRun ((List.range (2 ^ h)).map (fun j => e.stored t y x (base + j))) h).getD (c - base) flZero

/-- Values of all channels at one position. -/
def OpEnv.pix (e : OpEnv) (t y x : Nat) : List Fl := (List.range (e.cOf t)).map (e.val t y x)

/-- Real value of an array operand as the frequency domain and the adapter read it: before rotation is undone. -/
def OpEnv.real (e : OpEnv) (t y x c : Nat) : Fl := e.stored t y x c

/-- What a layer produces for one element: a value to be written, or a code that is moved (R99). -/
inductive OutVal where
  | real (x : Fl)
  | code (c : Nat)
  deriving DecidableEq, Repr, Inhabited

/-- One written element: its code, and what it adds to the figures (R187). -/
structure Written where
  code : Nat
  x : Fl
  /-- clipped (R180), or saturated where there is no table (R167) -/
  clipped : Bool
  /-- counts as non-finite (R167, R187) -/
  nonfin : Bool
  deriving DecidableEq, Repr, Inhabited

/-- Write the values of all channels of one position of tensor `t` (R167, R180, R186, R187). A code that is moved stands
for the real value that it is read as. -/
def OpEnv.write (e : OpEnv) (t : Nat) (vs : List OutVal) : List Written :=
  let fmt := e.fmt t
  let xs := rotateChannels (tHad (gTensor e.g t)) (vs.map (fun v => match v with
    | .real x => x
    | .code _ => flZero))
  (List.range vs.length).map (fun c =>
    match vs.getD c (.code 0) with
    | .code k =>
      let x := if quantized fmt then qRead fmt (e.tab t) c k else codeVal fmt k
      ⟨k, x, false, !flIsFinite x⟩
    | .real _ =>
      let x := xs.getD c flZero
      if quantized fmt then
        let q := qWrite fmt (e.tab t) c x
        ⟨q.1, x, q.2, !flIsFinite x⟩
      else
        let k := convTo fmt x
        ⟨k.code, x, k.sat, k.nonfin⟩)

end Sys2Proof.Machine
end

