-- ==== Sys2Proof/Machine/Operators.lean ====
section
/-! DEFINITION. The arithmetic of the operators of R96: array layers (R169, R170, R184, R198 to R203, R208), the
vector unit's (R171, R205 to R207), attention (R244) and the adapter path (R268, R269). -/

set_option Elab.async false

namespace Sys2Proof.Machine

/-! ### Array arithmetic -/

/-- The operands are integer codes. -/
def isIntFmt (fmt : Nat) : Bool := fmt ≤ 5

/-- A position along an axis: the index inside, or nothing outside [0, n). -/
def inside (n : Nat) (i : Int) : Option Nat := if 0 ≤ i && i < n then some i.toNat else none

/-- Clamp an index to [0, n − 1]. -/
def clampIx (n : Nat) (i : Int) : Nat := (clampInt 0 ((n : Int) - 1) i).toNat

/-- array_output of R184 (a detail DEDUCED, log 48). -/
def arrayOutput (acc wsum za : Int) (p beta : Fl) : Fl := ffma (fofInt (acc - za * wsum)) p beta

/-- Scale at which the array takes the codes of an operand: a constant one stands for S times z (R191)
(a detail DEDUCED, log 12). -/
def arrayScale (q : QTable) (c : Nat) : Fl :=
  if (qentryFor q c).const then flDecode fmtFP16 q.scale else qScale q c

/-- beta_o of R184 for an INT32 bias code (a detail DEDUCED, log 12). -/
def betaOf (bias : Int) (sa0 sw : Fl) : Fl := fmul (fofInt bias) (fmul sa0 sw)

/-- Contribution of the weights of a constant activation at the constant's value (R191, log 12). -/
def betaConst (e : OpEnv) (t : Nat) (sw : Fl) (wsum : Int) : Fl :=
  let ent := qentryFor (e.tab t) 0
  if ent.const then fmul (constVal (e.fmt t) (e.tab t) ent) (fmul sw (fofInt wsum)) else flZero

/-- Code at a padded tap with pad_mode 0 (R197). -/
def padCode (e : OpEnv) (t : Nat) : Nat :=
  if isIntFmt (e.fmt t) then intCode (e.fmt t) (qentryFor (e.tab t) 0).zero else 0

/-- Code that a CONV tap reads at (iy, ix) of channel c (R197). -/
def tapCode (e : OpEnv) (t padMode : Nat) (iy ix : Int) (c : Nat) : Nat :=
  match inside (e.hOf t) iy, inside (e.wOf t) ix with
  | some y, some x => e.at t y x c
  | _, _ =>
    if padMode = 1 then e.at t (clampIx (e.hOf t) iy) (clampIx (e.wOf t) ix) c else padCode e t

/-- Real value of a CONV tap (R197, R202). -/
def tapReal (e : OpEnv) (t padMode : Nat) (iy ix : Int) (c : Nat) : Fl :=
  match inside (e.hOf t) iy, inside (e.wOf t) ix with
  | some y, some x => e.real t y x c
  | _, _ => if padMode = 1 then e.real t (clampIx (e.hOf t) iy) (clampIx (e.wOf t) ix) c else flZero

/-- Taps of a CONV in ascending tap order: ky × kw + kx. -/
def convTaps (l : Bytes) : List (Nat × Nat) :=
  (List.range (cvKh l * cvKw l)).map (fun t => (t / cvKw l, t % cvKw l))

/-- Weight code (o, ci, ky, kx) of a CONV: blobs hold them in that index order. -/
def convWeight (e : OpEnv) (l : Bytes) (cg o ci ky kx : Nat) : Nat :=
  dataCode e.g (lIn l 1) (((o * cg + ci) * cvKh l + ky) * cvKw l + kx)

/-- Scale of output channel o's weights. -/
def weightScale (e : OpEnv) (t o : Nat) : Fl := qScale (imageTable e.g t) o

/-- Bias code of output channel o, if the layer has a bias. -/
def biasCode (e : OpEnv) (t o : Nat) : Option Nat := if t = 0xFFFF then none else some (dataCode e.g t o)

/-- Pad a run of products to whole groups of 32 with exact zeros (R170). -/
def padGroup (l : List Fl) : List Fl := l ++ List.replicate (roundUp l.length 32 - l.length) flZero

/-- Output channel o of a direct CONV at (oy, ox) (R184, R198). -/
def convDirectOut (e : OpEnv) (l : Bytes) (oy ox o : Nat) : Fl :=
  let ti := lIn l 0
  let tw := lIn l 1
  let cin := e.cOf ti
  let cg := cin / cvGroups l
  let cog := e.cOf (lOut l) / cvGroups l
  let grp := o / cog
  let pos (ky kx : Nat) : Int × Int :=
    ((oy * cvSh l + ky * cvDh l : Nat) - (cvPt l : Int), (ox * cvSw l + kx * cvDw l : Nat) - (cvPl l : Int))
  let fw := e.fmt tw
  if isIntFmt (e.fmt ti) then
    let terms := (convTaps l).flatMap (fun t => (List.range cg).map (fun ci =>
      let p := pos t.1 t.2
      (codeInt fw (convWeight e l cg o ci t.1 t.2),
       codeInt (e.fmt ti) (tapCode e ti (cvPadMode l) p.1 p.2 (grp * cg + ci)))))
    let acc := terms.foldl (fun a t => a + t.1 * t.2) (0 : Int)
    let wsum := terms.foldl (fun a t => a + t.1) (0 : Int)
    let sw := weightScale e tw o
    let beta := match biasCode e (lIn l 2) o with
      | none => flZero
      | some b => betaOf (codeInt 5 b) (qScale (imageTable e.g ti) 0) sw
    let beta := if (qentryFor (e.tab ti) 0).const then fadd beta (betaConst e ti sw wsum) else beta
    arrayOutput acc wsum (qentryFor (e.tab ti) 0).zero (fmul (qScale (e.tab ti) 0) sw) beta
  else
    let prods := (convTaps l).flatMap (fun t =>
      let p := pos t.1 t.2
      padGroup ((List.range cg).map (fun ci =>
        mulX (codeVal fw (convWeight e l cg o ci t.1 t.2))
          (codeVal (e.fmt ti) (tapCode e ti (cvPadMode l) p.1 p.2 (grp * cg + ci))))))
    let init := match biasCode e (lIn l 2) o with
      | none => flZero
      | some b => codeVal (e.fmt (lIn l 2)) b
    fpReduce init prods

/-! ### Degenerate dilation (R200) -/

/-- The inequalities of R200 along one axis whose kernel size exceeds 1. -/
def degenAxis (k d s pad n no : Nat) : Bool :=
  let c := (k - 1) / 2
  let first : Int := (c * d : Nat) - (pad : Int)
  let last : Int := ((no - 1) * s + c * d : Nat) - (pad : Int)
  k = 1 || (decide (0 ≤ first) && decide (last ≤ (n : Int) - 1) && decide (last - d < 0) && decide ((n : Int) ≤ first + d))

/-- Every weight of a layer is finite. -/
def weightsFinite (e : OpEnv) (l : Bytes) : Bool :=
  let t := lIn l 1
  isIntFmt (e.fmt t) ||
    (List.range (e.cOf (lOut l) * (e.cOf (lIn l 0) / cvGroups l) * cvKh l * cvKw l)).all
      (fun i => flIsFinite (codeVal (e.fmt t) (dataCode e.g t i)))

/-- A direct CONV is degenerate for the picture (R200). -/
def convDegenerate (e : OpEnv) (l : Bytes) : Bool :=
  let ti := lIn l 0
  convDirect l && cvPadMode l = 0 && cvKh l % 2 = 1 && cvKw l % 2 = 1 && !(cvKh l = 1 && cvKw l = 1) &&
    weightsFinite e l &&
    degenAxis (cvKh l) (cvDh l) (cvSh l) (cvPt l) (e.hOf ti) (e.hOf (lOut l)) &&
    degenAxis (cvKw l) (cvDw l) (cvSw l) (cvPl l) (e.wOf ti) (e.wOf (lOut l))

/-! ### Frequency domain (R202, R203) -/

/-- A complex plane of 64 rows of 64 (re, im). -/
abbrev Plane := List (List (Fl × Fl))

/-- cdot of R203: FP32 (re, im) of a dot product, reduced under R169. -/
def cdot (a b : List (Fl × Fl)) : Fl × Fl :=
  let z := a.zip b
  (fpReduce flZero (z.map (fun p => mulX p.1.1 p.2.1) ++ z.map (fun p => flNeg (mulX p.1.2 p.2.2))),
   fpReduce flZero (z.map (fun p => mulX p.1.1 p.2.2) ++ z.map (fun p => mulX p.1.2 p.2.1)))

def bfC (p : Fl × Fl) : Fl × Fl := (bfVal p.1, bfVal p.2)

/-- Twiddle e^(± 2 pi i a b / 64). -/
def twiddle (inv : Bool) (a b : Nat) : Fl × Fl :=
  let s := twiddleS (a * b % 64)
  (twiddleC (a * b % 64), if inv then s else flNeg s)

/-- dft2 of R203: rows first, rounded to BF16, then columns in FP32. -/
def dft2 (x : Plane) (inv : Bool) : Plane :=
  let r64 := List.range 64
  let y := x.map (fun row => r64.map (fun v => bfC (cdot row (r64.map (fun a => twiddle inv a v)))))
  let col (v : Nat) : List (Fl × Fl) := y.map (fun row => row.getD v (flZero, flZero))
  let cols := r64.map (fun v => r64.map (fun u => cdot (col v) (r64.map (fun a => twiddle inv a u))))
  r64.map (fun u => r64.map (fun v => (cols.getD v []).getD u (flZero, flZero)))

def bfPlane (p : Plane) : Plane := p.map (·.map bfC)

/-- Input tile of channel `c` whose first row and column are at (ry, rx). -/
def fftInput (e : OpEnv) (l : Bytes) (ry rx : Int) (c : Nat) : Plane :=
  (List.range 64).map (fun (i : Nat) => (List.range 64).map (fun (j : Nat) =>
    (bfVal (tapReal e (lIn l 0) (cvPadMode l) (ry + i) (rx + j) c), flZero)))

/-- Real weight (o, ci, ky, kx), rounded to BF16; the added tap is zero (R202, R203). -/
def fftWeight (e : OpEnv) (l : Bytes) (cg o ci ky kx : Nat) : Fl :=
  if cvKh l ≤ ky || cvKw l ≤ kx then flZero
  else
    let t := lIn l 1
    let c := convWeight e l cg o ci ky kx
    bfVal (if quantized (e.fmt t) then qRead (e.fmt t) (imageTable e.g t) o c else codeVal (e.fmt t) c)

/-- The placed kernel of a correlation: w[ky][kx] at ((−ky) mod 64, (−kx) mod 64). -/
def fftKernel (e : OpEnv) (l : Bytes) (cg o ci : Nat) : Plane :=
  (List.range 64).map (fun i => (List.range 64).map (fun j =>
    let ky := (64 - i) % 64
    let kx := (64 - j) % 64
    (if ky < extSize (cvKh l) && kx < extSize (cvKw l) then fftWeight e l cg o ci ky kx else flZero, flZero)))

/-- Output channel o of a frequency-domain CONV at (oy, ox): through the tile that yields it (R202, R203). -/
def convFftOut (e : OpEnv) (l : Bytes) (oy ox o : Nat) : Fl :=
  let dY := fftStep (cvKh l) (cvSh l)
  let dX := fftStep (cvKw l) (cvSw l)
  let jy := oy * cvSh l / dY
  let jx := ox * cvSw l / dX
  let cg := e.cOf (lIn l 0) / cvGroups l
  let cog := e.cOf (lOut l) / cvGroups l
  let grp := o / cog
  let xs := (List.range cg).map (fun ci =>
    bfPlane (dft2 (fftInput e l ((jy * dY : Nat) - (cvPt l : Int)) ((jx * dX : Nat) - (cvPl l : Int)) (grp * cg + ci)) false))
  let ks := (List.range cg).map (fun ci => bfPlane (dft2 (fftKernel e l cg o ci) false))
  let bin (p : Plane) (u v : Nat) : Fl × Fl := (p.getD u []).getD v (flZero, flZero)
  let pr := (List.range 64).map (fun u => (List.range 64).map (fun v =>
    bfC (cdot (xs.map (fun p => bin p u v)) (ks.map (fun p => bin p u v)))))
  let y := dft2 pr true
  let r := (bin y (oy * cvSh l - jy * dY) (ox * cvSw l - jx * dX)).1
  let beta := match biasCode e (lIn l 2) o with
    | none => flZero
    | some b =>
      if isIntFmt (e.fmt (lIn l 2)) then
        betaOf (codeInt 5 b) (qScale (imageTable e.g (lIn l 0)) 0) (weightScale e (lIn l 1) o)
      else codeVal (e.fmt (lIn l 2)) b
  fadd (fmul r (flPow2 (-12))) beta

/-! ### The adapter path (R268, R269) -/

/-- Ordinal of a layer among the targets of the adaptation head. -/
def targetOrdinal (g : Bytes) (li : Nat) : Option Nat :=
  if gHasAdapt g && (adTargets (gAdapt g)).contains li then some ((adTargets (gAdapt g)).idxOf li) else none

/-- First parameter index of target `k`. -/
def targetBase (g : Bytes) (k : Nat) : Nat :=
  let h := isHeight (gInstar g 0)
  let w := isWidth (gInstar g 0)
  sumNat (((adTargets (gAdapt g)).take k).map (fun i => targetA g i h w + targetB g i h w))

/-- Effective weight of A with parameter index `j`, rounded to BF16 (R269); `f` is F. -/
def effA (a : AdpUse) (ord j f : Nat) : Fl :=
  let s := toSigned 32 (rngWord a.seed ord 4 0 j)
  let a0 := fmul (rnd32 (.fin (s < 0) s.natAbs (-31))) (frsqrt (flInt f))
  bfVal (fadd (f32 (a.master j)) a0)

/-- Effective weight of B, rounded to BF16. -/
def effB (a : AdpUse) (j : Nat) : Fl := bfVal (f32 (a.master j))

/-- h of A: 8 values, rounded to BF16, at one output position of a CONV target. -/
def adpConvH (e : OpEnv) (a : AdpUse) (l : Bytes) (ord base oy ox : Nat) : List Fl :=
  let ti := lIn l 0
  let cg := e.cOf ti / cvGroups l
  let f := cg * cvKh l * cvKw l
  (List.range 8).map (fun r =>
    let grp := r % cvGroups l
    bfVal (fpReduce flZero ((convTaps l).flatMap (fun t =>
      padGroup ((List.range cg).map (fun ci =>
        mulX (effA a ord (base + ((r * cg + ci) * cvKh l + t.1) * cvKw l + t.2) f)
          (bfVal (tapReal e ti (cvPadMode l) ((oy * cvSh l + t.1 * cvDh l : Nat) - (cvPt l : Int))
            ((ox * cvSw l + t.2 * cvDw l : Nat) - (cvPl l : Int)) (grp * cg + ci)))))))))

/-- Output of B for output channel o from h. -/
def adpB (a : AdpUse) (h : List Fl) (base o : Nat) : Fl :=
  fpReduce flZero ((List.range 8).map (fun r => mulX (effB a (base + o * 8 + r)) (h.getD r flZero)))

/-! ### MATMUL (R96, R170, R184) -/

/-- Element (r, c) of a tensor read as a matrix, as (y, x, channel). -/
def matAt (e : OpEnv) (t r c : Nat) : Nat := e.at t (r / e.wOf t) (r % e.wOf t) c

/-- Code of A(i, k) and B(k, j) under the transposition flags. -/
def mmA (e : OpEnv) (l : Bytes) (i k : Nat) : Nat := if lP l 0 = 1 then matAt e (lIn l 0) k i else matAt e (lIn l 0) i k
def mmB (e : OpEnv) (l : Bytes) (k j : Nat) : Nat := if lP l 1 = 1 then matAt e (lIn l 1) j k else matAt e (lIn l 1) k j

/-- Real value of A(i, k) for the adapter. -/
def mmAReal (e : OpEnv) (l : Bytes) (i k : Nat) : Fl :=
  let t := lIn l 0
  let r := if lP l 0 = 1 then k else i
  let c := if lP l 0 = 1 then i else k
  e.real t (r / e.wOf t) (r % e.wOf t) c

/-- Element (i, j) of a MATMUL. -/
def matmulOut (e : OpEnv) (l : Bytes) (i j : Nat) : Fl :=
  let ta := lIn l 0
  let tb := lIn l 1
  let n := mmK e.g l e.h e.w
  if isIntFmt (e.fmt ta) then
    let terms := (List.range n).map (fun k => (codeInt (e.fmt ta) (mmA e l i k), codeInt (e.fmt tb) (mmB e l k j)))
    let acc := terms.foldl (fun a t => a + t.1 * t.2) (0 : Int)
    let wsum := terms.foldl (fun a t => a + t.2) (0 : Int)
    let sw := arrayScale (e.tab tb) j
    let beta := match biasCode e (lIn l 2) j with
      | none => flZero
      | some b => betaOf (codeInt 5 b) (qScale (imageTable e.g ta) 0) sw
    let beta := if (qentryFor (e.tab ta) 0).const then fadd beta (betaConst e ta sw wsum) else beta
    arrayOutput acc wsum (qentryFor (e.tab ta) 0).zero (fmul (qScale (e.tab ta) 0) sw) beta
  else
    let init := match biasCode e (lIn l 2) j with
      | none => flZero
      | some b => codeVal (e.fmt (lIn l 2)) b
    fpReduce init ((List.range n).map (fun k => mulX (codeVal (e.fmt ta) (mmA e l i k)) (codeVal (e.fmt tb) (mmB e l k j))))

/-- h of A for row i of a MATMUL target. -/
def adpMatH (e : OpEnv) (a : AdpUse) (l : Bytes) (ord base i : Nat) : List Fl :=
  let n := mmK e.g l e.h e.w
  (List.range 8).map (fun r =>
    bfVal (fpReduce flZero ((List.range n).map (fun k =>
      mulX (effA a ord (base + r * n + k) n) (bfVal (mmAReal e l i k))))))

/-! ### CORR (R208) -/

/-- One displacement of CORR (R191, R208). -/
def corrOut (e : OpEnv) (l : Bytes) (y x ch : Nat) : Fl :=
  let t1 := lIn l 0
  let t2 := lIn l 1
  let maxD := lP l 0
  let step := lP l 1
  let n := 2 * maxD / step + 1
  let dy : Int := (ch / n * step : Nat) - (maxD : Int)
  let dx : Int := (ch % n * step : Nat) - (maxD : Int)
  let cs := List.range (e.cOf t1)
  let second (c : Nat) : Nat :=
    match inside (e.hOf t2) (y + dy), inside (e.wOf t2) (x + dx) with
    | some yy, some xx => e.at t2 yy xx c
    | _, _ => 0
  if isIntFmt (e.fmt t1) then
    let terms := cs.map (fun c => (codeInt (e.fmt t1) (e.at t1 y x c), codeInt (e.fmt t2) (second c)))
    let wsum := terms.foldl (fun a t => a + t.2) (0 : Int)
    let s2 := arrayScale (e.tab t2) 0
    arrayOutput (terms.foldl (fun a t => a + t.1 * t.2) 0) wsum (qentryFor (e.tab t1) 0).zero
      (fmul (qScale (e.tab t1) 0) s2) (betaConst e t1 s2 wsum)
  else
    fpReduce flZero (cs.map (fun c => mulX (codeVal (e.fmt t1) (e.at t1 y x c)) (codeVal (e.fmt t2) (second c))))

/-! ### Vector unit: POOL, RESAMPLE, WARP (R205 to R207) -/

def poolOut (e : OpEnv) (l : Bytes) (oy ox c : Nat) : Fl :=
  let t := lIn l 0
  let taps := (List.range (plKh l * plKw l)).filterMap (fun k =>
    let iy : Int := (oy * plSh l + k / plKw l : Nat) - (plPt l : Int)
    let ix : Int := (ox * plSw l + k % plKw l : Nat) - (plPl l : Int)
    match inside (e.hOf t) iy, inside (e.wOf t) ix with
    | some y, some x => some (k, e.val t y x c)
    | _, _ => none)
  let vs := taps.map (·.2)
  if plMode l = 0 then vs.tail.foldl fmax (vs.headD .nan)
  else
    let all := (List.range (plKh l * plKw l)).map (fun k => ((taps.find? (fun p => p.1 = k)).map (·.2)).getD flZero)
    fdiv (fpReduce flZero all) (flInt (if plMode l = 1 then plKh l * plKw l else vs.length))

/-- keys of R206: cubic weights. -/
def cubicKeys (f : Fl) : List Fl :=
  let half : Fl := .fin false 1 (-1)
  let c15 : Fl := .fin false 3 (-1)
  let c25 : Fl := .fin false 5 (-1)
  let two : Fl := flInt 2
  [fmul (ffma (ffma (flNeg half) f flOne) f (flNeg half)) f,
   ffma (fmul (ffma c15 f (flNeg c25)) f) f flOne,
   fmul (ffma (ffma (flNeg c15) f two) f half) f,
   fmul (fmul (ffma half f (flNeg half)) f) f]

/-- resample_1d of R206 on an axis of `n` samples read by `v`. -/
def resample1d (v : Nat → Fl) (n x num den mode : Nat) : Fl :=
  let cl (i : Int) : Fl := v (clampIx n i)
  let t : Int := ((2 * x + 1) * den : Nat)
  if mode = 0 then cl (t / (2 * num : Nat))
  else
    let i0 := (t - num) / (2 * num : Nat)
    let f := fdiv (flInt (t - num - 2 * num * i0)) (flInt (2 * num : Nat))
    if mode = 1 then ffma f (fsub (cl (i0 + 1)) (cl i0)) (cl i0)
    else
      let w := cubicKeys f
      fpReduce flZero ((List.range 4).map (fun (j : Nat) => mulX (w.getD j flZero) (cl (i0 - 1 + j))))

def resampleOut (e : OpEnv) (l : Bytes) (oy ox c : Nat) : Fl :=
  let t := lIn l 0
  let mode := lP l 0
  let row (y : Nat) : Fl := resample1d (fun x => e.val t y x c) (e.wOf t) ox (lP l 3) (lP l 4) mode
  resample1d row (e.hOf t) oy (lP l 1) (lP l 2) mode

/-- Flow value before its clamp, and whether it is finite (R207). -/
def flowVal (e : OpEnv) (l : Bytes) (y x k : Nat) : Fl :=
  let t := lIn l 1
  if e.fmt t = 4 then mulX (flInt (codeInt 4 (e.at t y x k))) (flPow2 (-(lP l 2 : Int))) else codeVal (e.fmt t) (e.at t y x k)

/-- Flow as used: a non-finite value becomes 0, and a value beyond max_disp is clamped. -/
def flowUse (d : Nat) (v : Fl) : Fl :=
  if !flIsFinite v then flZero
  else if flLt (flInt d) v then flInt d
  else if flLt v (flInt (-(d : Int))) then flInt (-(d : Int))
  else v

/-- Bilinear or bicubic sample of a plane read by `s` at (px, py) (R207). -/
def warpSample (s : Int → Int → Fl) (px py : Fl) (mode : Nat) : Fl :=
  let i0 := flFloor px
  let j0 := flFloor py
  let fx := fsub px (flInt i0)
  let fy := fsub py (flInt j0)
  if mode = 1 then
    let h (j : Int) : Fl := ffma fx (fsub (s j (i0 + 1)) (s j i0)) (s j i0)
    ffma fy (fsub (h (j0 + 1)) (h j0)) (h j0)
  else
    let kx := cubicKeys fx
    let ky := cubicKeys fy
    let h (j : Int) : Fl := fpReduce flZero ((List.range 4).map (fun (t : Nat) => mulX (kx.getD t flZero) (s j (i0 - 1 + t))))
    fpReduce flZero ((List.range 4).map (fun (t : Nat) => mulX (ky.getD t flZero) (h (j0 - 1 + t))))

def warpOut (e : OpEnv) (l : Bytes) (y x c : Nat) : Fl :=
  let t := lIn l 0
  let d := lP l 1
  let px := fadd (flInt x) (flowUse d (flowVal e l y x 0))
  let py := fadd (flInt y) (flowUse d (flowVal e l y x 1))
  warpSample (fun j i => e.val t (clampIx (e.hOf t) j) (clampIx (e.wOf t) i) c) px py (lP l 0)

/-! ### ATTENTION (R244) -/

/-- A stored K, V or Q code as the array takes it, exact. -/
def kvVal (fmt c : Nat) : Fl := if isIntFmt fmt then flInt (codeInt fmt c) else codeVal fmt c

/-- The key frames that a query attends: the cache, then the picture itself (R243). -/
def attFrames (e : OpEnv) (l : Bytes) : List KvFrame :=
  let tk := lIn l 1
  let tv := lIn l 2
  let scale (t : Nat) : Fl := if quantized (e.fmt t) then arrayScale (e.tab t) 0 else flOne
  e.frames ++ [⟨scale tk, scale tv, e.hOf tk * e.wOf tk, fun j c => matAt e tk j c, fun j c => matAt e tv j c⟩]

/-- One query token and head: head_dim outputs (R191, R244). -/
def attend (e : OpEnv) (l : Bytes) (tok head : Nat) : List Fl :=
  let tq := lIn l 0
  let fk := e.fmt (lIn l 1)
  let fv := e.fmt (lIn l 2)
  let hd := lP l 1
  let ds := (List.range hd).map (fun d => head * hd + d)
  let frames := attFrames e l
  let c := frsqrt (flInt hd)
  let qs := if quantized (e.fmt tq) then qScale (e.tab tq) 0 else flOne
  let qz : Int := if isIntFmt (e.fmt tq) then (qentryFor (e.tab tq) 0).zero else 0
  let q (d : Nat) : Nat := matAt e tq tok d
  let int := isIntFmt fk
  let s := frames.flatMap (fun f =>
    let p := fmul (fmul qs f.sk) c
    (List.range f.tokens).map (fun j =>
      if int then
        let wk := ds.foldl (fun a d => a + codeInt fk (f.k j d)) (0 : Int)
        let a := ds.foldl (fun a d => a + codeInt (e.fmt tq) (q d) * codeInt fk (f.k j d)) (0 : Int) - qz * wk
        if (qentryFor (e.tab tq) 0).const then fmul (betaConst e tq f.sk wk) c else fmul (fofInt a) p
      else
        fmul (fpReduce flZero (ds.map (fun d => mulX (kvVal (e.fmt tq) (q d)) (kvVal fk (f.k j d))))) p))
  let m := s.tail.foldl fmax (s.headD .nan)
  let ex := s.map (fun x => fexp2 (fmul (fsub x m) log2e))
  if int then
    let u : List Int := ex.map (fun x => ((quantize x (flInt 255) 0 3).1 : Nat))
    let total := u.foldl (· + ·) (0 : Int)
    let acc := frames.foldl (fun (st : List Fl × Nat) f =>
      let us := (u.drop st.2).take f.tokens
      (ds.zip st.1 |>.map (fun p =>
        let a := (List.range f.tokens).foldl (fun a j => a + us.getD j 0 * codeInt fv (f.v j p.1)) (0 : Int)
        fadd p.2 (fmul (fofInt a) f.sv)), st.2 + f.tokens)) (List.replicate hd flZero, 0)
    acc.1.map (fun x => fdiv x (fofInt total))
  else
    let u := ex.map (fun x => codeVal fv (convTo fv x).code)
    let total := fpReduce flZero u
    let acc := frames.foldl (fun (st : List Fl × Nat) f =>
      let us := (u.drop st.2).take f.tokens
      (ds.zip st.1 |>.map (fun p =>
        let a := fpReduce flZero ((List.range f.tokens).map (fun j => mulX (us.getD j flZero) (kvVal fv (f.v j p.1))))
        fadd p.2 (fmul a f.sv)), st.2 + f.tokens)) (List.replicate hd flZero, 0)
    acc.1.map (fun x => fdiv x total)

/-! ### ELTWISE, TABLE_ACT, REDUCE -/

/-- Second operand of ELTWISE at (y, x, c) under its broadcast bits. -/
def eltB (e : OpEnv) (l : Bytes) (y x c : Nat) : Fl :=
  let b := lP l 1
  e.val (lIn l 1) (if b / 2 % 2 = 1 then 0 else y) (if b / 4 % 2 = 1 then 0 else x) (if b % 2 = 1 then 0 else c)

/-- Elements of the second input of ELTWISE op 9 that hold the scale and the shift of channel `c` of `n`: two for each
channel, in an order that is not given (R96) (a detail DESIGN CHOICE, log 11). -/
def scaleOrder (n : Nat) : List Nat :=
  sortBy (fun i j => decide ((Config.scaleKey n i).toNat ≤ (Config.scaleKey n j).toNat)) (List.range (2 * n))
def scaleIx (c n : Nat) : Nat := (scaleOrder n).getD (2 * c) 0
def shiftIx (c n : Nat) : Nat := (scaleOrder n).getD (2 * c + 1) 0

/-- Element of a tensor by its index. -/
def OpEnv.valIx (e : OpEnv) (t i : Nat) : Fl :=
  let c := e.cOf t
  e.val t (i / c / e.wOf t) (i / c % e.wOf t) (i % c)

/-- a detail DESIGN CHOICE, log 11. -/
def eltOut (e : OpEnv) (l : Bytes) (y x c : Nat) : Fl :=
  let a := e.val (lIn l 0) y x c
  match lP l 0 with
  | 0 => fadd a (eltB e l y x c)
  | 1 => fsub a (eltB e l y x c)
  | 2 => fmul a (eltB e l y x c)
  | 3 => fmax a (eltB e l y x c)
  | 4 => fmin a (eltB e l y x c)
  | 5 => flAbs a
  | 6 => flNeg a
  | 7 => fmin (fmax a (f32 (lF l 2))) (f32 (lF l 4))
  | 9 =>
    let n := e.cOf (lIn l 0)
    ffma a (e.valIx (lIn l 1) (scaleIx c n)) (e.valIx (lIn l 1) (shiftIx c n))
  | _ => a

/-- Fields of an activation table (R104). -/
def taLo (t : Bytes) : Fl := f32 (le32 t 0)
def taHi (t : Bytes) : Fl := f32 (le32 t 4)
def taKnot (t : Bytes) (i : Nat) : Fl := f32 (le32 t (8 + 4 * i))
def taSlopeLo (t : Bytes) : Fl := f32 (le32 t 0x10C)
def taSlopeHi (t : Bytes) : Fl := f32 (le32 t 0x110)
def taQ (t : Bytes) : Fl := fdiv (flInt 64) (fsub (taHi t) (taLo t))

/-- Segment of an input inside [lo, hi], and its fraction (R171). -/
def taSegment (t : Bytes) (x : Fl) : Nat × Fl :=
  let u := fmin (fmax (fmul (fsub x (taLo t)) (taQ t)) flZero) (flInt 64)
  let i := min (flFloor u).toNat 63
  (i, fsub u (flInt i))

/-- table_act of R171. -/
def tableAct (t : Bytes) (x : Fl) : Fl :=
  if flIsNan x then .nan
  else if flLt x (taLo t) then
    if flIsInf x then
      (if flIsZero (taSlopeLo t) then taKnot t 0 else .inf (flLt flZero (taSlopeLo t)))
    else ffma (taSlopeLo t) (fsub x (taLo t)) (taKnot t 0)
  else if flLt (taHi t) x then
    if flIsInf x then
      (if flIsZero (taSlopeHi t) then taKnot t 64 else .inf (!(flLt flZero (taSlopeHi t))))
    else ffma (taSlopeHi t) (fsub x (taHi t)) (taKnot t 64)
  else
    let s := taSegment t x
    ffma s.2 (fsub (taKnot t (s.1 + 1)) (taKnot t s.1)) (taKnot t s.1)

/-- Reduction of a list of values by op: 0 sum, 1 mean, 2 max, 3 min, under the groups of 32. -/
def reduceList (op : Nat) (vs : List Fl) : Fl :=
  if op ≤ 1 then fpReduce flZero vs
  else if op = 2 then vs.tail.foldl fmax (vs.headD .nan)
  else vs.tail.foldl fmin (vs.headD .nan)

/-- REDUCE output at (y, x, c): channels first, then each row, then rows in ascending y (R170)
(a detail DEDUCED, log 48). -/
def reduceOut (e : OpEnv) (l : Bytes) (y x c : Nat) : Fl :=
  let t := lIn l 0
  let op := lP l 0
  let ax := lP l 1
  let overC := ax % 2 = 1
  let overH := ax / 2 % 2 = 1
  let overW := ax / 4 % 2 = 1
  let chans (yy xx : Nat) : Fl :=
    if overC then reduceList op ((List.range (e.cOf t)).map (fun k => e.val t yy xx k)) else e.val t yy xx c
  let row (yy : Nat) : Fl :=
    if overW then reduceList op ((List.range (e.wOf t)).map (chans yy))
    else if overH then reduceList op [chans yy x] else chans yy x
  let rows : List Fl := if overH then (List.range (e.hOf t)).map row else [row y]
  let v :=
    if !overH then rows.headD .nan
    else if op ≤ 1 then rows.foldl fadd flZero
    else reduceList op rows
  if op = 1 then
    let n := (if overC then e.cOf t else 1) * (if overH then e.hOf t else 1) * (if overW then e.wOf t else 1)
    fdiv v (flInt n)
  else v

/-! ### Data movement: CONCAT and SLICE -/

/-- Source (tensor, channel) of an output channel of a CONCAT. -/
def concatSource (e : OpEnv) : List Nat → Nat → Nat × Nat
  | [], c => (0xFFFF, c)
  | t :: ts, c => if c < e.cOf t then (t, c) else concatSource e ts (c - e.cOf t)

/-- Samples of a fold of block `b` on `k` channels, (dy × b + dx) × k + c, in the order in which its output channels take
them: some order of all of them, each once (R96) (a detail DESIGN CHOICE, log 11). -/
def foldOrder (k b : Nat) : List Nat :=
  sortBy (fun i j => decide ((Config.foldKey k b i).toNat ≤ (Config.foldKey k b j).toNat)) (List.range (k * b * b))

/-- Code of a position that may lie beyond the picture (a detail DESIGN CHOICE, log 11). -/
def foldCode (e : OpEnv) (t y x c : Nat) : Nat :=
  if y < e.hOf t && x < e.wOf t then e.at t y x c else (Config.foldPad (e.fmt t)).toNat % 2 ^ fmtBits (e.fmt t)

/-- a detail DEDUCED, log 48. -/
def sliceOut (e : OpEnv) (l : Bytes) (y x c : Nat) : Nat :=
  let t := lIn l 0
  match lP l 0 with
  | 0 => e.at t y x (lP l 1 + c * lP l 3)
  | 1 =>
    let b := lP l 4
    let k := e.cOf t
    let src := (foldOrder k b).getD c 0
    foldCode e t (y * b + src / k / b) (x * b + src / k % b) (src % k)
  | _ =>
    let b := lP l 4
    let k := e.cOf (lOut l)
    let want := (y % b * b + x % b) * k + c
    e.at t (y / b) (x / b) ((foldOrder k b).idxOf want)

/-! ### One layer at one position -/

/-- FP32 values, or moved codes, of every output channel of layer `li` at (y, x). -/
def layerPix (e : OpEnv) (li y x : Nat) : List OutVal :=
  let l := gLayer e.g li
  let n := e.cOf (lOut l)
  let ch := List.range n
  let adp : Option (AdpUse × Nat × Nat) :=
    match e.adapter, targetOrdinal e.g li with
    | some a, some o => some (a, o, targetBase e.g o)
    | _, _ => none
  match lOp l with
  | 1 =>
    let out (o : Nat) : Fl := if convDirect l then convDirectOut e l y x o else convFftOut e l y x o
    match adp with
    | none => ch.map (fun o => .real (out o))
    | some (a, ord, base) =>
      let h := adpConvH e a l ord base y x
      let bB := base + 8 * (e.cOf (lIn l 0) / cvGroups l * cvKh l * cvKw l)
      ch.map (fun o => .real (fadd (out o) (adpB a h bB o)))
  | 2 => ch.map (fun c => .real (poolOut e l y x c))
  | 3 => ch.map (fun c => .real (resampleOut e l y x c))
  | 4 => ch.map (fun c => .real (warpOut e l y x c))
  | 5 => ch.map (fun c => .real (corrOut e l y x c))
  | 6 =>
    let i := y * e.wOf (lOut l) + x
    match adp with
    | none => ch.map (fun j => .real (matmulOut e l i j))
    | some (a, ord, base) =>
      let h := adpMatH e a l ord base i
      let bB := base + 8 * mmK e.g l e.h e.w
      ch.map (fun j => .real (fadd (matmulOut e l i j) (adpB a h bB j)))
  | 7 => (List.range (lP l 0)).flatMap (fun hh => (attend e l (y * e.wOf (lOut l) + x) hh).map OutVal.real)
  | 8 => ch.map (fun c => .real (eltOut e l y x c))
  | 9 => ch.map (fun c => .real (tableAct (gTable e.g (lP l 0)) (e.val (lIn l 0) y x c)))
  | 10 => (rotateChannels (lP l 0) (e.pix (lIn l 0) y x)).map OutVal.real
  | 11 => ch.map (fun c => .real (reduceOut e l y x c))
  | 12 => ch.map (fun c =>
      let s := concatSource e (lInputs l) c
      .code (e.at s.1 y x s.2))
  | 13 => ch.map (fun c => .code (sliceOut e l y x c))
  | _ => []

/-- The codes that layer `li` writes at (y, x), with what each adds to the figures. -/
def layerWrite (e : OpEnv) (li y x : Nat) : List Written := e.write (lOut (gLayer e.g li)) (layerPix e li y x)

end Sys2Proof.Machine
end

