-- ==== Sys2Proof/Machine/GraphCheck.lean ====
section
/-! DEFINITION. The checks of a GRAPH section (R85 to R105 and the rules that add to them) and of a CODEBOOK section
(R287). Each check answers a rejection cause of R38, or 0 where it passes. -/

set_option Elab.async false

namespace Sys2Proof.Machine

/-- Run checks in order and answer the first cause (R64). -/
def firstCause : List (Unit → Nat) → Nat
  | [] => 0
  | f :: t => if f () = 0 then firstCause t else f ()

/-- A cause where a condition fails. -/
def need (cause : Nat) (ok : Bool) : Nat := if ok then 0 else cause

/-- `lo ≤ v ≤ hi`. -/
def inR (lo hi v : Nat) : Bool := decide (lo ≤ v) && decide (v ≤ hi)

/-- No value occurs twice. -/
def distinct : List Nat → Bool
  | [] => true
  | a :: t => !t.contains a && distinct t

/-- Ranges (start, end) do not overlap. -/
def disjoint : List (Nat × Nat) → Bool
  | [] => true
  | a :: t => t.all (fun b => decide (a.2 ≤ b.1) || decide (b.2 ≤ a.1) || decide (a.2 ≤ a.1) || decide (b.2 ≤ b.1)) && disjoint t

/-! ### Header and record areas (R85) -/

/-- An area of `n` records of `sz` bytes at `off` (a detail DEDUCED, log 31). -/
def areaOk (g : Bytes) (off n sz : Nat) : Bool := off % 16 = 0 && decide (off + n * sz ≤ g.length)

def graphHeaderOk (g : Bytes) : Bool :=
  decide (64 ≤ g.length) && le32 g 0 = 0x474B4C46 && le16 g 4 = 1 && inR 1 5 (gRole g) && byteAt g 7 < 2 &&
    inR 1 4096 (gTensors g) && inR 1 2048 (gLayers g) && inR 1 64 (gStacks g) && inR 1 8 (gInstars g) &&
    byteAt g 0xF = 0 && decide (gBlobs g ≤ 4096) && decide (gTables g ≤ 64) && allZero g 0x16 2 && allZero g 0x34 12 &&
    areaOk g (le32 g 0x18) (gTensors g) 32 && areaOk g (le32 g 0x1C) (gLayers g) 64 &&
    areaOk g (le32 g 0x20) (gStacks g) 16 && areaOk g (le32 g 0x24) (gInstars g) 16 &&
    areaOk g (le32 g 0x28) (gBlobs g) 16 &&
    (if gTables g = 0 then le32 g 0x2C = 0 else areaOk g (le32 g 0x2C) (gTables g) 288) &&
    (if gHasAdapt g then areaOk g (le32 g 0x30) 1 64 && gRole g = 1 else le32 g 0x30 = 0)

/-! ### Tensors (R86, R87) -/

/-- Formats a tensor of a kind may take: weights and biases are limited by R86. -/
def fmtForKind (kind fmt : Nat) : Bool :=
  if kind = 2 then [1, 2, 4, 6, 7, 8, 9].contains fmt
  else if kind = 3 then fmt = 5 || fmt = 10
  else true

/-- Shape of one dimension: relative, or absolute with a denominator of zero. -/
def dimOk (abs : Bool) (num den : Nat) : Bool :=
  if abs then decide (1 ≤ num) && den = 0 else inR 1 64 num && inR 1 64 den

/-- A tensor descriptor (R87). A channel count that is not a multiple of 2^hadamard_log2 is refused, as its blocks would
not be whole (a detail DESIGN CHOICE, log 20). -/
def tensorOk (g : Bytes) (i : Nat) : Bool :=
  let t := gTensor g i
  le16 t 0 = i && decide (tKind t ≤ 7) && inR 1 10 (tFmt t) && fmtForKind (tKind t) (tFmt t) && inR 1 8192 (tChannels t) &&
    byteAt t 6 < 2 && byteAt t 7 = 0 && dimOk (tAbs t) (tHNum t) (tHDen t) && dimOk (tAbs t) (tWNum t) (tWDen t) &&
    (if quantized (tFmt t) && tKind t ≠ 6 then decide (tQblob t < gBlobs g) else tQblob t = 0xFFFF) &&
    byteAt t 0x12 < 2 && decide (tHad t ≤ 8) && tChannels t % 2 ^ tHad t = 0 &&
    (if isReadOnly (tKind t) then decide (tBlob t < gBlobs g) else tBlob t = 0xFFFF) && allZero t 0x1A 6
where
  isReadOnly (k : Nat) : Bool := k = 2 || k = 3 || k = 7

/-- Elements of a tensor of one picture at a working size. -/
def tensorElems (t : Bytes) (h w : Nat) : Nat := tH t h * tW t w * tChannels t

/-! ### Instars (R91) -/

def instarOk (g : Bytes) (i : Nat) : Bool :=
  let r := gInstar g i
  let p := gInstar g (i - 1)
  byteAt r 0 = i && byteAt r 1 = 0 && inR 16 4352 (isHeight r) && isHeight r % 2 = 0 && inR 16 8192 (isWidth r) &&
    isWidth r % 2 = 0 && allZero r 6 10 && (i = 0 || (decide (isHeight p < isHeight r) && decide (isWidth p ≤ isWidth r)))

/-- Working sizes of the Instars. -/
def instarSizes (g : Bytes) : List (Nat × Nat) := (List.range (gInstars g)).map (fun i => (isHeight (gInstar g i), isWidth (gInstar g i)))

/-! ### Blobs (R93, R94, R181, R182) -/

/-- Stored length that a zero-unit blob must have. Bits of the bitmap past its last unit, and the bytes that pad it, may
hold anything and are not read (a detail DESIGN CHOICE, log 20). -/
def zuStored (st : Bytes) (n : Nat) : Nat :=
  zuBitmap n + sumNat ((List.range (ceilDiv n 256)).map (fun i => if zuPresent st i then zuUnit n i else 0))

def blobOk (g : Bytes) (i : Nat) : Bool :=
  let b := gBlob g i
  let st := slice g (blOffset b) (blStored b)
  decide (le32 g 0x28 + 16 * gBlobs g ≤ blOffset b) && decide (blOffset b + blStored b ≤ g.length) && blOffset b % 64 = 0 &&
    allZero b 0xD 3 &&
    (if blEncoding b = 0 then blStored b = blLength b
     else blEncoding b = 1 && decide (zuBitmap (blLength b) ≤ blStored b) && blStored b = zuStored st (blLength b))

/-- Range of a blob in the section. -/
def blobRange (g : Bytes) (i : Nat) : Nat × Nat := (blOffset (gBlob g i), blOffset (gBlob g i) + blStored (gBlob g i))

/-- Zero point of an entry that is not constant: within the code range, 0 for FP8 (R178). -/
def zeroOk (fmt : Nat) (z : Int) : Bool :=
  if isFp8 fmt then z == 0 else decide (fmtMin fmt ≤ z) && decide (z ≤ fmtMax fmt)

/-- One entry word of a quantization table (R181, R182). -/
def qentryOk (t : Bytes) (sym : Bool) (word : Nat) : Bool :=
  let const := word / 256 % 2 = 1
  let z := toSigned 16 (word / 65536)
  word / 512 % 128 = 0 &&
    (if const then word % 256 = 0xF0 && !([2, 3, 7].contains (tKind t)) &&
        (if isFp8 (tFmt t) then decide (word / 65536 < 256) else zeroOk (tFmt t) z)
     else zeroOk (tFmt t) z && (!sym || z == 0))

/-- The quantization blob of a tensor (R181 to R183). -/
def qblobOk (g : Bytes) (i : Nat) : Bool :=
  let t := gTensor g i
  let n := tEntries t
  let b := blobData g (tQblob t)
  blLength (gBlob g (tQblob t)) = 16 + 4 * n && inR 0x0400 0x7BFF (le16 b 0) && byteAt b 2 = tFmt t &&
    byteAt b 3 = byteAt t 0x12 && le16 b 4 = n && allZero b 6 10 &&
    (List.range n).all (fun k => qentryOk t (symmetric g i) (le32 b (16 + 4 * k)))

/-- Every blob that a tensor names has the bytes the tensor requires, at every Instar (R93). -/
def tensorBlobsOk (g : Bytes) (i : Nat) : Bool :=
  let t := gTensor g i
  (tQblob t = 0xFFFF || qblobOk g i) &&
    (tBlob t = 0xFFFF || (instarSizes g).all (fun s =>
      blLength (gBlob g (tBlob t)) = packedBytes (tensorElems t s.1 s.2) (fmtBits (tFmt t))))

/-! ### Layers (R95 to R99) -/

/-- Activation and second-operand formats pair on the array (R98). -/
def pairOk (a b : Nat) : Bool :=
  (a = 1 && b = 1) || ((a = 2 || a = 3) && (b = 2 || b = 1)) || ((a = 6 || a = 7) && (b = 6 || b = 7)) ||
    (a = 4 && (b = 4 || b = 2)) || (a = 8 && b = 8) || (a = 9 && b = 9)

/-- Kinds an activation input may have. -/
def isAct (k : Nat) : Bool := k = 0 || k = 1 || k = 4 || k = 5 || k = 7

/-- A layer of a graph at a working size, for its shape checks. -/
structure LayerAt where
  g : Bytes
  l : Bytes
  h : Nat
  w : Nat

def LayerAt.t (x : LayerAt) (i : Nat) : Bytes := gTensor x.g (lIn x.l i)
def LayerAt.has (x : LayerAt) (i : Nat) : Bool := lIn x.l i != 0xFFFF
def LayerAt.hi (x : LayerAt) (i : Nat) : Nat := tH (x.t i) x.h
def LayerAt.wi (x : LayerAt) (i : Nat) : Nat := tW (x.t i) x.w
def LayerAt.ci (x : LayerAt) (i : Nat) : Nat := tChannels (x.t i)
def LayerAt.fi (x : LayerAt) (i : Nat) : Nat := tFmt (x.t i)
def LayerAt.act (x : LayerAt) (i : Nat) : Bool := x.has i && isAct (tKind (x.t i))
def LayerAt.elems (x : LayerAt) (i : Nat) : Nat := x.hi i * x.wi i * x.ci i
/-- The output has this shape. -/
def LayerAt.out (x : LayerAt) (c h w : Nat) : Bool :=
  let t := gTensor x.g (lOut x.l)
  tChannels t = c && tH t x.h = h && tW t x.w = w && decide (1 ≤ h) && decide (1 ≤ w)
/-- An array's activation operand is quantized per tensor (R183). -/
def LayerAt.perTensor (x : LayerAt) (i : Nat) : Bool := !quantized (x.fi i) || !tPerChannel (x.t i)

/-- A bias input: absent, or kind 3 with one element for each output channel. Its format is not tied to the operand pair's
(R98) (a detail DESIGN CHOICE, log 20). -/
def LayerAt.bias (x : LayerAt) (n : Nat) : Bool := !x.has 2 || (tKind (x.t 2) = 3 && x.elems 2 = n)

/-- a detail DEDUCED, log 31. -/
def convOk (x : LayerAt) : Bool :=
  let l := x.l
  let co := tChannels (gTensor x.g (lOut l))
  inR 1 31 (cvKh l) && inR 1 31 (cvKw l) && inR 1 8 (cvSh l) && inR 1 8 (cvSw l) && inR 1 16 (cvDh l) && inR 1 16 (cvDw l) &&
    decide (cvPt l ≤ (cvKh l - 1) * cvDh l) && decide (cvPb l ≤ (cvKh l - 1) * cvDh l) &&
    decide (cvPl l ≤ (cvKw l - 1) * cvDw l) && decide (cvPr l ≤ (cvKw l - 1) * cvDw l) &&
    inR 1 8192 (cvGroups l) && x.ci 0 % cvGroups l = 0 && co % cvGroups l = 0 && cvPadMode l < 2 &&
    x.act 0 && x.has 1 && tKind (x.t 1) = 2 && x.perTensor 0 && pairOk (x.fi 0) (x.fi 1) &&
    x.elems 1 = co * (x.ci 0 / cvGroups l) * cvKh l * cvKw l && (!tPerChannel (x.t 1) || x.ci 1 = co) && x.bias co &&
    (convDirect l || (cvDh l = 1 && cvDw l = 1 && decide (cvSh l ≤ 2) && decide (cvSw l ≤ 2))) &&
    x.out co (convOut (x.hi 0) (cvPt l) (cvPb l) (cvKh l) (cvDh l) (cvSh l))
      (convOut (x.wi 0) (cvPl l) (cvPr l) (cvKw l) (cvDw l) (cvSw l))

def poolOk (x : LayerAt) : Bool :=
  let l := x.l
  decide (plMode l ≤ 2) && inR 1 8 (plKh l) && inR 1 8 (plKw l) && inR 1 8 (plSh l) && inR 1 8 (plSw l) &&
    decide (plPt l < plKh l) && decide (plPb l < plKh l) && decide (plPl l < plKw l) && decide (plPr l < plKw l) && x.act 0 &&
    x.out (x.ci 0) (convOut (x.hi 0) (plPt l) (plPb l) (plKh l) 1 (plSh l))
      (convOut (x.wi 0) (plPl l) (plPr l) (plKw l) 1 (plSw l))

/-- A RESAMPLE ratio: terms 1 to 16, from 1/8 to 8. -/
def ratioOk (n d : Nat) : Bool := inR 1 16 n && inR 1 16 d && decide (n ≤ 8 * d) && decide (d ≤ 8 * n)

def resampleOk (x : LayerAt) : Bool :=
  let l := x.l
  decide (lP l 0 ≤ 2) && ratioOk (lP l 1) (lP l 2) && ratioOk (lP l 3) (lP l 4) && x.act 0 &&
    x.out (x.ci 0) (ceilDiv (x.hi 0 * lP l 1) (lP l 2)) (ceilDiv (x.wi 0 * lP l 3) (lP l 4))

def warpOk (x : LayerAt) : Bool :=
  let l := x.l
  inR 1 2 (lP l 0) && inR 1 64 (lP l 1) && decide (lP l 2 ≤ 4) && x.act 0 && x.act 1 && x.ci 1 = 2 &&
    (x.fi 1 = 4 || (x.fi 1 = 8 && lP l 2 = 0)) && x.hi 1 = x.hi 0 && x.wi 1 = x.wi 0 && x.out (x.ci 0) (x.hi 0) (x.wi 0)

def corrOk (x : LayerAt) : Bool :=
  let l := x.l
  let n := 2 * lP l 0 / lP l 1 + 1
  inR 1 16 (lP l 0) && [1, 2, 4].contains (lP l 1) && lP l 0 % lP l 1 = 0 && x.act 0 && x.act 1 && x.hi 1 = x.hi 0 &&
    x.wi 1 = x.wi 0 && x.ci 1 = x.ci 0 && x.perTensor 0 && !tPerChannel (x.t 1) && pairOk (x.fi 0) (x.fi 1) &&
    x.out (n * n) (x.hi 0) (x.wi 0)

/-- MATMUL; a table of B's weights per channel is one per output channel, which holds without trans_b alone (R96, R183). A
is an activation; B is one, or weights (a detail DESIGN CHOICE, log 20). -/
def matmulOk (x : LayerAt) : Bool :=
  let l := x.l
  let ra := x.hi 0 * x.wi 0
  let rb := x.hi 1 * x.wi 1
  let m := if lP l 0 = 1 then x.ci 0 else ra
  let k := if lP l 0 = 1 then ra else x.ci 0
  let k' := if lP l 1 = 1 then x.ci 1 else rb
  let n := if lP l 1 = 1 then rb else x.ci 1
  let o := gTensor x.g (lOut l)
  lP l 0 < 2 && lP l 1 < 2 && x.act 0 && x.has 1 && (isAct (tKind (x.t 1)) || tKind (x.t 1) = 2) && x.perTensor 0 &&
    (if tKind (x.t 1) = 2 then !tPerChannel (x.t 1) || lP l 1 = 0 else x.perTensor 1) && pairOk (x.fi 0) (x.fi 1) && decide (ra ≤ 65535) && decide (rb ≤ 65535) && k = k' && x.bias n &&
    tH o x.h * tW o x.w = m && tChannels o = n && decide (1 ≤ m) && decide (m ≤ 65535)

/-- ATTENTION; the caching layer has the further rules of R241 (a detail DEDUCED, log 31). -/
def attentionOk (x : LayerAt) : Bool :=
  let l := x.l
  let same := x.ci 1 = x.ci 0 && x.ci 2 = x.ci 0 && x.hi 2 = x.hi 1 && x.wi 2 = x.wi 1
  let fv := x.fi 2
  [1, 2, 4, 8, 16].contains (lP l 0) && [16, 32, 64, 128].contains (lP l 1) && lP l 0 * lP l 1 = x.ci 0 &&
    decide (lP l 2 ≤ 64) && inR 1 8192 (lP l 3) && x.act 0 && x.act 1 && x.act 2 && (!x.has 3 || tKind (x.t 3) = 6) && same &&
    x.perTensor 0 && x.perTensor 1 && x.perTensor 2 && pairOk (x.fi 0) (x.fi 1) &&
    (if [6, 7, 8, 9].contains (x.fi 1) then [6, 7, 8, 9].contains fv else fv = 1 || fv = 2) &&
    x.out (x.ci 0) (x.hi 0) (x.wi 0) &&
    (lP l 2 = 0 ||
      (x.fi 1 = fv && [1, 2, 6, 7, 8, 9].contains (x.fi 1) && !tPerChannel (x.t 1) && !tPerChannel (x.t 2) &&
        lP l 3 = x.hi 1 * x.wi 1 && x.has 3 && x.fi 3 = x.fi 1 && x.ci 3 = x.ci 1 + x.ci 2 && x.hi 3 = x.hi 1 && x.wi 3 = x.wi 1))

/-- One axis of ELTWISE's second input: 1 under its broadcast bit, equal otherwise. -/
def bcastOk (bit : Bool) (b a : Nat) : Bool := if bit then b = 1 else b = a

/-- a detail DEDUCED, log 31. -/
def eltwiseOk (x : LayerAt) : Bool :=
  let l := x.l
  let o := lP l 0
  let b := lP l 1
  decide (o ≤ 9) && decide (b ≤ 7) && x.act 0 && x.out (x.ci 0) (x.hi 0) (x.wi 0) &&
    (if o ≤ 4 then x.act 1 && bcastOk (b % 2 = 1) (x.ci 1) (x.ci 0) && bcastOk (b / 2 % 2 = 1) (x.hi 1) (x.hi 0) &&
        bcastOk (b / 4 % 2 = 1) (x.wi 1) (x.wi 0)
     else if o = 9 then x.act 1 && x.elems 1 = 2 * x.ci 0 else !x.has 1)

def reduceOk (x : LayerAt) : Bool :=
  let ax := lP x.l 1
  let kind := tKind (gTensor x.g (lOut x.l))
  decide (lP x.l 0 ≤ 3) && inR 1 7 ax && x.act 0 && (ax < 2 || kind = 5) &&
    x.out (if ax % 2 = 1 then 1 else x.ci 0) (if ax / 2 % 2 = 1 then 1 else x.hi 0) (if ax / 4 % 2 = 1 then 1 else x.wi 0)

/-- Inputs and output of a layer that moves data share one format and one table (R99). -/
def movesOk (x : LayerAt) : Bool :=
  let o := gTensor x.g (lOut x.l)
  (List.range 4).all (fun i => !x.has i || (x.fi i = tFmt o && tQblob (x.t i) = tQblob o))

def concatOk (x : LayerAt) : Bool :=
  let n := (lInputs x.l).length
  decide (1 ≤ n) && (List.range 4).all (fun i => if i < n then x.act i && x.hi i = x.hi 0 && x.wi i = x.wi 0 else !x.has i) &&
    movesOk x && x.out (sumNat ((List.range n).map x.ci)) (x.hi 0) (x.wi 0)

/-- SLICE (R96). c_step has no range of its own: 0 repeats one channel. Mode 2 makes exactly H × b by W × b
(details DESIGN CHOICE, log 20). -/
def sliceOk (x : LayerAt) : Bool :=
  let l := x.l
  let b := lP l 4
  x.act 0 && movesOk x &&
    (if lP l 0 = 0 then
       decide (1 ≤ lP l 2) && decide (lP l 1 + (lP l 2 - 1) * lP l 3 < x.ci 0) && x.out (lP l 2) (x.hi 0) (x.wi 0)
     else if lP l 0 = 1 then inR 2 32 b && x.out (x.ci 0 * b * b) (ceilDiv (x.hi 0) b) (ceilDiv (x.wi 0) b)
     else lP l 0 = 2 && inR 2 32 b && x.ci 0 % (b * b) = 0 && x.out (x.ci 0 / (b * b)) (x.hi 0 * b) (x.wi 0 * b))

/-- DSEARCH's inputs (R282). -/
def dsearchOk (x : LayerAt) : Bool :=
  let full (i c : Nat) : Bool := x.act i && x.ci i = c && x.hi i = x.h && x.wi i = x.w
  inR 1 64 (lP x.l 0) && full 0 3 && full 1 3 && full 2 15 && x.act 3 && x.ci 3 = 1052 && x.hi 3 = ceilDiv x.h 16 &&
    x.wi 3 = ceilDiv x.w 16

/-- Input slots and parameter fields of each operator; the others are unused. A field that the operator has, but not in
the operation or mode at hand, may hold anything (a detail DESIGN CHOICE, log 20). -/
def opSlots (o : Nat) : Nat × Nat :=
  if o = opConv then (3, 12) else if o = opPool then (1, 9) else if o = opResample then (1, 5)
  else if o = opWarp then (2, 3) else if o = opCorr then (2, 2) else if o = opMatmul then (3, 2)
  else if o = opAttention then (4, 4) else if o = opEltwise then (2, 6) else if o = opTable then (1, 1)
  else if o = opHadamard then (1, 1) else if o = opReduce then (1, 2) else if o = opConcat then (4, 0)
  else if o = opSlice then (1, 5) else (4, 3)

/-- A layer's operator, operands, parameters and output shape at a working size (R88, R96 to R99)
(a detail DEDUCED, log 31). -/
def layerShapeOk (g l : Bytes) (s : Nat × Nat) : Bool :=
  let x : LayerAt := ⟨g, l, s.1, s.2⟩
  let o := lOp l
  if o = opConv then convOk x
  else if o = opPool then poolOk x
  else if o = opResample then resampleOk x
  else if o = opWarp then warpOk x
  else if o = opCorr then corrOk x
  else if o = opMatmul then matmulOk x
  else if o = opAttention then attentionOk x
  else if o = opEltwise then eltwiseOk x
  else if o = opTable then decide (lP l 0 < gTables g) && x.act 0 && x.out (x.ci 0) (x.hi 0) (x.wi 0)
  else if o = opHadamard then
    inR 1 8 (lP l 0) && x.act 0 && x.ci 0 % 2 ^ lP l 0 = 0 && x.out (x.ci 0) (x.hi 0) (x.wi 0)
  else if o = opReduce then reduceOk x
  else if o = opConcat then concatOk x
  else if o = opSlice then sliceOk x
  else if o = opDsearch then dsearchOk x
  else false

/-- An input is defined before layer `i`: data, a model input or state, or the output of an earlier layer (R95). -/
def inputDefined (g : Bytes) (i t : Nat) : Bool :=
  decide (t < gTensors g) && ([0, 2, 3, 6, 7].contains (tKind (gTensor g t)) || (List.range i).any (fun j => lOut (gLayer g j) = t))

/-- Fixed fields of a layer record (R95). -/
def layerRecordOk (g : Bytes) (i : Nat) : Bool :=
  let l := gLayer g i
  let sl := opSlots (lOp l)
  inR 1 14 (lOp l) && byteAt l 1 = 0 && (lStack l = 0xFFFF || decide (lStack l < gStacks g)) && le16 l 0xE < 2 &&
    (List.range 4).all (fun j => lIn l j = 0xFFFF || (decide (j < sl.1) && inputDefined g i (lIn l j))) &&
    allZero l (0x10 + 2 * sl.2) (48 - 2 * sl.2) &&
    (if lOp l = opDsearch then lOut l = 0xFFFF
     else decide (lOut l < gTensors g) && [1, 4, 5].contains (tKind (gTensor g (lOut l))))

/-- Each tensor of kind 1, 4 or 5 is the output of exactly one layer (R95). -/
def producersOk (g : Bytes) : Bool :=
  (List.range (gTensors g)).all (fun t =>
    !([1, 4, 5].contains (tKind (gTensor g t))) || countIf (gLayerList g) (fun l => lOut l = t) = 1)

/-! ### Stacks (R101) -/

def stackOk (g : Bytes) (k : Nat) : Bool :=
  let s := gStack g k
  le16 s 0 = k && allZero s 6 10 && decide (skFirst s ≤ skLast s) && decide (skLast s < gLayers g) &&
    (List.range (gLayers g)).all (fun i => (lStack (gLayer g i) = k) = (decide (skFirst s ≤ i) && decide (i ≤ skLast s)))

/-- Layers that must, and must not, belong to a stack (a detail DEDUCED, log 31). -/
def layerStackOk (g l : Bytes) : Bool :=
  let out := if lOut l = 0xFFFF then 0 else tKind (gTensor g (lOut l))
  let row := (lInputs l).any (fun t => tKind (gTensor g t) = 4)
  let fused := [1, 2, 3, 4, 5, 8, 9, 10, 12].contains (lOp l) && (row || out = 4)
  (out ≠ 5 || lStack l = 0xFFFF) && (!(row || fused) || lStack l ≠ 0xFFFF)

/-! ### Roles (R100) -/

/-- A tensor is a picture of the working size. -/
def isPicture (g : Bytes) (t c : Nat) : Bool :=
  let x := gTensor g t
  tChannels x = c && (instarSizes g).all (fun s => tH x s.1 = s.1 && tW x s.2 = s.2)

/-- The detector's output: 256 rows by 8 columns of FP32. -/
def isDetections (g : Bytes) (t : Nat) : Bool :=
  let x := gTensor g t
  tChannels x = 8 && tFmt x = 10 && (instarSizes g).all (fun s => tH x s.1 * tW x s.2 = 256)

/-- The temporal model's output: one row for each token of the caching layer, at every Instar (R100, R241). -/
def isTokens (g : Bytes) (t : Nat) : Bool :=
  let x := gTensor g t
  (gLayerList g).all (fun l => !(lOp l = opAttention && 0 < lP l 2) ||
    (instarSizes g).all (fun s => tH x s.1 * tW x s.2 = lP l 3))

/-- a detail DEDUCED, log 31. -/
def roleOk (g : Bytes) : Bool :=
  let ins := tensorsOfKind g 0
  let outs := tensorsOfKind g 1
  let i (k : Nat) : Nat := ins.getD k 0
  let o (k : Nat) : Nat := outs.getD k 0
  let det : Nat → Bool := isDetections g
  let ds := countIf (gLayerList g) (fun l => lOp l = opDsearch)
  let caching := countIf (gLayerList g) (fun l => lOp l = opAttention && 0 < lP l 2)
  let role := gRole g
  (if role = 5 then ds = 1 else ds = 0) && (if role = 4 then decide (caching ≤ 1) else caching = 0) &&
    (if role = 1 then ins.length = 1 && outs.length = 1 && isPicture g (i 0) 3 && isPicture g (o 0) 3 &&
        [3, 8, 9].contains (tFmt (gTensor g (i 0)))
     else if role = 2 then ins.length = 2 && outs.length = 2 && isPicture g (i 0) 3 && isPicture g (i 1) 3 &&
        isPicture g (o 0) 12 && (tFmt (gTensor g (o 0)) = 4 || tFmt (gTensor g (o 0)) = 8) && isPicture g (o 1) 3
     else if role = 3 then ins.length = 1 && outs.length = 1 && isPicture g (i 0) 3 && det (o 0)
     else if role = 4 then ins.length = 2 && outs.length = 1 && isPicture g (i 0) 3 && det (i 1) && isTokens g (o 0)
     else ins.length = 4 && outs.isEmpty && isPicture g (i 0) 3 && isPicture g (i 1) 3 && isPicture g (i 2) 15)

/-! ### Tables and adaptation head (R104, R105, R273) -/

def tableOk (g : Bytes) (i : Nat) : Bool :=
  let t := gTable g i
  (List.range 69).all (fun k => flIsFinite (f32 (le32 t (4 * k)))) && flLt (f32 (le32 t 0)) (f32 (le32 t 4)) && allZero t 0x114 12

/-- Operators through which gradients pass (R273). -/
def gradOk (l : Bytes) : Bool :=
  lOp l = opConv || lOp l = opMatmul || lOp l = opTable || (lOp l = opEltwise && [0, 1, 2, 8, 9].contains (lP l 0))

/-- First target of the adaptation head. -/
def firstTarget (g : Bytes) : Nat := (adTargets (gAdapt g)).foldl min (gLayers g)

/-- a detail DEDUCED, log 31. -/
def adaptOk (g : Bytes) : Bool :=
  let a := gAdapt g
  let ts := adTargets a
  let last := gStack g (gStacks g - 1)
  let params (s : Nat × Nat) : List (Nat × Nat) := ts.map (fun i => (targetA g i s.1 s.2, targetB g i s.1 s.2))
  if !gHasAdapt g then (gLayerList g).all (fun l => !lTarget l)
  else
    inR 1 8 (adCount a) && byteAt a 1 = 8 && [6, 7, 9].contains (adGradFmt a) && (adDown a = 2 || adDown a = 4) &&
      (List.range 8).all (fun i => if i < adCount a then decide (adTarget a i < gLayers g) else adTarget a i = 0xFFFF) &&
      distinct ts &&
      ts.all (fun i => (lOp (gLayer g i) = opConv || lOp (gLayer g i) = opMatmul) && decide (skFirst last ≤ i)) &&
      (List.range (gLayers g)).all (fun i => lTarget (gLayer g i) = ts.contains i) &&
      flLt flZero (f32 (adRate a)) && flLe (f32 (adRate a)) flOne && flLe flZero (f32 (adTemporal a)) &&
      flLe (f32 (adTemporal a)) (flInt 16) && inR 1 64 (adInterval a) && allZero a 0x1E 34 &&
      decide (adapterParams g ≤ 32768) && (instarSizes g).all (fun s => params s == params ((instarSizes g).headD (0, 0))) &&
      (List.range (gLayers g)).all (fun i => i < firstTarget g || gradOk (gLayer g i))

/-! ### One graph -/

/-- Every check of a graph image with cause 0x11. Areas come before what they hold, so that no check reads beyond the
section (a detail DEDUCED, log 31). -/
def graphValid (g : Bytes) : Bool :=
  graphHeaderOk g &&
    (List.range (gInstars g)).all (instarOk g) && (List.range (gTensors g)).all (tensorOk g) &&
    (List.range (gBlobs g)).all (blobOk g) && disjoint ((List.range (gBlobs g)).map (blobRange g)) &&
    (List.range (gLayers g)).all (layerRecordOk g) && producersOk g &&
    (instarSizes g).all (fun s => (gTensorList g).all (fun t => decide (tensorElems t s.1 s.2 < 2 ^ 40)) &&
      (gLayerList g).all (fun l => layerShapeOk g l s)) &&
    (List.range (gStacks g)).all (stackOk g) && (gLayerList g).all (layerStackOk g) && roleOk g &&
    (List.range (gTensors g)).all (tensorBlobsOk g) && (List.range (gTables g)).all (tableOk g) && adaptOk g &&
    decide (ringEntryBytes g ≤ 2 ^ 24)

/-- Nonzero tags of a graph (R90). -/
def graphTags (g : Bytes) : List Nat := ((gTensorList g).map tTag).filter (· != 0)

/-- Gradient windows of a stack (R273): one for each tensor that a layer from the first target on produces, and one of 8
rows for the 8 channels of h of each target. -/
def gradDemand (p : Plan) (stack : List Nat) : Nat :=
  if !gHasAdapt p.g then 0
  else
    let bits := if adGradFmt (gAdapt p.g) = 9 then 16 else 8
    sumNat ((stack.filter (fun i => firstTarget p.g ≤ i)).map (fun i =>
      let t := lOut (gLayer p.g i)
      roundUp (windowRows p stack t * packedBytes (p.wOf t * p.cOf t) bits) 64 +
        (if lTarget (gLayer p.g i) then roundUp (8 * packedBytes (p.wOf t * 8) bits) 64 else 0)))

/-- The graph fits at one working size (R102, R103, R214, R273). -/
def planFits (p : Plan) : Bool :=
  (List.range (gStacks p.g)).all (fun k =>
      decide (lineDemand p (stackLayers p.g k) + gradDemand p (stackLayers p.g k) ≤ lsWindows)) &&
    decide (regionDemand p ≤ handoffArea) && (phasesOf p.g).all (fun ph => decide ((planGroups p ph).length ≤ 4))

/-- Every check of a graph image with cause 0x12. -/
def graphFits (g : Bytes) : Bool := (instarSizes g).all (fun s => planFits ⟨g, s.1, s.2⟩)

/-- Buffers of the largest pool that the crossing tensors of a phase need when every group is a wave of its own, which is
the most that can cross (R215, R343). -/
def spillBuffers (p : Plan) (ph : Phase) (size : Nat) : Nat :=
  let grps := planGroups p ph
  let grpOf (k : Nat) : Nat := grps.findIdx (fun a => a.contains k)
  let cross := (handoffs p).filter (fun x => match stackOf p.g x.1 with
    | none => false
    | some k => ph.stackIds.contains k && ph.stackIds.contains x.2 && decide (grpOf k < grpOf x.2))
  sumNat ((cross.map (·.1)).eraseDups.map (fun t => ceilDiv (tensorBytes p t) size))

/-- The most spill buffers that a graph needs. -/
def graphSpill (g : Bytes) (size : Nat) : Nat :=
  (instarSizes g).foldl (fun a s => (phasesOf g).foldl (fun a ph => max a (spillBuffers ⟨g, s.1, s.2⟩ ph size)) a) 0

/-- Record bytes of a graph image (R106). -/
def recordBytes (g : Bytes) : Nat :=
  64 + 32 * gTensors g + 64 * gLayers g + 16 * gStacks g + 16 * gInstars g + 16 * gBlobs g + 288 * gTables g +
    (if gHasAdapt g then 64 else 0)

/-- DRAM placement of a graph image (R106) (a detail DEDUCED, log 31). -/
def graphPlacement (g : Bytes) : Nat :=
  roundUp (recordBytes g) 4096 +
    sumNat ((List.range (gBlobs g)).map (fun i => roundUp (blLength (gBlob g i)) 4096))

/-! ### Codebooks (R287) -/

/-- One kernel entry: 25 coefficients, then seven zero bytes; the centre is zero. -/
def kernelOk (b : Bytes) (e : Nat) : Bool :=
  byteAt b (0x40 + 32 * e + 12) = 0 && allZero b (0x40 + 32 * e + 25) 7

/-- The checks of a CODEBOOK section. -/
def codebookValid (b : Bytes) : Bool :=
  b.length = 35136 && le32 b 0 = 0x4B424446 && le16 b 4 = 1 && allZero b 6 58 && allZero b 0x40 25 &&
    (List.range 1024).all (kernelOk b) &&
    (List.range 1091).all (fun i => inR 1 4095 (le16 b (0x8040 + 2 * i))) && allZero b (0x8040 + 2 * 1091) (2 * 61)

end Sys2Proof.Machine
end

