-- ==== Sys2Proof/Machine/Slh.lean ====
section
/-! DEFINITION. SLH-DSA with SHAKE256 and 32-byte hashes, as NIST FIPS 205 gives it, in the pure form and the two
parameter sets that the manual names: 256s to verify (R63, R418) and 256f for the identity key (R423, R425)
(a detail PRESUMED, log 7). -/

set_option Elab.async false

namespace Sys2Proof.Machine

/-- A parameter set: height of a layer's tree, layers, height and number of the FORS trees. -/
structure Slh where
  hp : Nat
  d : Nat
  a : Nat
  k : Nat
  deriving DecidableEq, Repr

def slh256s : Slh := ⟨8, 8, 14, 22⟩
def slh256f : Slh := ⟨4, 17, 9, 35⟩

/-- Bytes of a hash, and of the whole signature. -/
def slhN : Nat := 32
def slhSigLen (p : Slh) : Nat := (1 + p.k * (1 + p.a) + p.hp * p.d + p.d * 67) * slhN

/-- The address of a hash: layer, tree, type and three words. -/
structure SlhAdrs where
  layer : Nat
  tree : Nat
  ty : Nat
  w1 : Nat
  w2 : Nat
  w3 : Nat
  deriving DecidableEq, Repr

def adrsBytes (x : SlhAdrs) : Bytes :=
  toBe 4 x.layer ++ toBe 12 x.tree ++ toBe 4 x.ty ++ toBe 4 x.w1 ++ toBe 4 x.w2 ++ toBe 4 x.w3

/-- F, H, T and PRF: the public seed, an address and a message. -/
def slhHash (pk : Bytes) (x : SlhAdrs) (m : Bytes) : Bytes := shake256 (pk ++ adrsBytes x ++ m) slhN

/-- Digit `i` of `b` bits of a byte string, the first digit highest. -/
def slhDigit (x : Bytes) (b i : Nat) : Nat := beVal x / 2 ^ (8 * x.length - b * (i + 1)) % 2 ^ b

/-- Piece `i` of `n` bytes of a string of hashes. -/
def slhPiece (x : Bytes) (i : Nat) : Bytes := slice x (slhN * i) slhN

/-! ### WOTS+ -/

/-- `n` steps of a hash chain from step `i`. -/
def wotsChain (pk : Bytes) (x : SlhAdrs) (i : Nat) : Nat → Bytes → Bytes
  | 0, b => b
  | n + 1, b => wotsChain pk x (i + 1) n (slhHash pk { x with w3 := i } b)

/-- The 67 digits of a message: 64 of it and 3 of their checksum. -/
def wotsDigits (m : Bytes) : List Nat :=
  let ds := (List.range 64).map (slhDigit m 4)
  let c := (ds.map (15 - ·)).foldl (· + ·) 0
  ds ++ [c / 256 % 16, c / 16 % 16, c % 16]

def wotsSecret (sk pk : Bytes) (x : SlhAdrs) (i : Nat) : Bytes := slhHash pk { x with ty := 5, w2 := i, w3 := 0 } sk

/-- The public key of the ends of 67 chains. -/
def wotsRoot (pk : Bytes) (x : SlhAdrs) (ends : List Bytes) : Bytes := slhHash pk { x with ty := 1, w2 := 0, w3 := 0 } (ends.flatMap id)

def wotsKey (sk pk : Bytes) (x : SlhAdrs) : Bytes :=
  wotsRoot pk x ((List.range 67).map (fun i => wotsChain pk { x with ty := 0, w2 := i } 0 15 (wotsSecret sk pk x i)))

def wotsSign (sk pk : Bytes) (x : SlhAdrs) (m : Bytes) : Bytes :=
  (wotsDigits m).zipIdx.flatMap (fun q => wotsChain pk { x with ty := 0, w2 := q.2 } 0 q.1 (wotsSecret sk pk x q.2))

def wotsFromSig (pk : Bytes) (x : SlhAdrs) (m sig : Bytes) : Bytes :=
  wotsRoot pk x ((wotsDigits m).zipIdx.map (fun q => wotsChain pk { x with ty := 0, w2 := q.2 } q.1 (15 - q.1) (slhPiece sig q.2)))

/-! ### Merkle trees -/

/-- Node `i` at height `z` of a tree whose leaf `j` is `leaf j`; `node` hashes two children at a height and index. -/
def merkle (leaf : Nat → Bytes) (node : Nat → Nat → Bytes → Bytes) : Nat → Nat → Bytes
  | 0, i => leaf i
  | z + 1, i => node (z + 1) i (merkle leaf node z (2 * i) ++ merkle leaf node z (2 * i + 1))

/-- Siblings on the path from leaf `i` up `h` levels. -/
def merklePath (leaf : Nat → Bytes) (node : Nat → Nat → Bytes → Bytes) (h i : Nat) : Bytes :=
  (List.range h).flatMap (fun j => merkle leaf node j ((i / 2 ^ j).xor 1))

/-- Root over a leaf's value and its path; `i` is the leaf's index and `j` the level reached. -/
def merkleUp (node : Nat → Nat → Bytes → Bytes) (path : Bytes) (i j : Nat) : Nat → Bytes → Bytes
  | 0, b => b
  | n + 1, b =>
    let q := slhPiece path j
    merkleUp node path i (j + 1) n (node (j + 1) (i / 2 ^ (j + 1)) (if i / 2 ^ j % 2 = 0 then b ++ q else q ++ b))

/-! ### XMSS and the hypertree -/

def xmssNode (pk : Bytes) (x : SlhAdrs) (z i : Nat) (m : Bytes) : Bytes := slhHash pk { x with ty := 2, w1 := 0, w2 := z, w3 := i } m

def xmssLeaf (sk pk : Bytes) (x : SlhAdrs) (i : Nat) : Bytes := wotsKey sk pk { x with w1 := i }

def xmssSign (p : Slh) (sk pk : Bytes) (x : SlhAdrs) (i : Nat) (m : Bytes) : Bytes :=
  wotsSign sk pk { x with w1 := i } m ++ merklePath (xmssLeaf sk pk x) (xmssNode pk x) p.hp i

def xmssFromSig (p : Slh) (pk : Bytes) (x : SlhAdrs) (i : Nat) (m sig : Bytes) : Bytes :=
  merkleUp (xmssNode pk x) (sig.drop (67 * slhN)) i 0 p.hp (wotsFromSig pk { x with w1 := i } m sig)

/-- Address of a layer's tree. -/
def slhTree (layer tree : Nat) : SlhAdrs := ⟨layer, tree, 0, 0, 0, 0⟩

/-- The layers of the hypertree from `j`: the signature of `m` by leaf `i` of tree `t`, then of each root in turn. -/
def hyperSign (p : Slh) (sk pk : Bytes) : Nat → Nat → Nat → Nat → Bytes → Bytes
  | 0, _, _, _, _ => []
  | n + 1, j, t, i, m =>
    let s := xmssSign p sk pk (slhTree j t) i m
    s ++ hyperSign p sk pk n (j + 1) (t / 2 ^ p.hp) (t % 2 ^ p.hp) (xmssFromSig p pk (slhTree j t) i m s)

/-- The root that a hypertree signature gives. -/
def hyperRoot (p : Slh) (pk : Bytes) : Nat → Nat → Nat → Nat → Bytes → Bytes → Bytes
  | 0, _, _, _, m, _ => m
  | n + 1, j, t, i, m, sig =>
    hyperRoot p pk n (j + 1) (t / 2 ^ p.hp) (t % 2 ^ p.hp) (xmssFromSig p pk (slhTree j t) i m sig) (sig.drop ((67 + p.hp) * slhN))

/-! ### FORS -/

/-- Address of the FORS trees under leaf `i` of tree `t`. -/
def forsTree (t i : Nat) : SlhAdrs := ⟨0, t, 3, i, 0, 0⟩

def forsNode (pk : Bytes) (x : SlhAdrs) (z i : Nat) (m : Bytes) : Bytes := slhHash pk { x with w2 := z, w3 := i } m
def forsSecret (sk pk : Bytes) (x : SlhAdrs) (i : Nat) : Bytes := slhHash pk { x with ty := 6, w3 := i } sk
def forsLeaf (sk pk : Bytes) (x : SlhAdrs) (i : Nat) : Bytes := forsNode pk x 0 i (forsSecret sk pk x i)

/-- Leaf index of FORS tree `i` for a message digest, among all trees. -/
def forsIndex (p : Slh) (md : Bytes) (i : Nat) : Nat := i * 2 ^ p.a + slhDigit md p.a i

def forsSign (p : Slh) (sk pk : Bytes) (x : SlhAdrs) (md : Bytes) : Bytes :=
  (List.range p.k).flatMap (fun i =>
    let n := forsIndex p md i
    forsSecret sk pk x n ++ merklePath (forsLeaf sk pk x) (forsNode pk x) p.a n)

def forsFromSig (p : Slh) (pk : Bytes) (x : SlhAdrs) (md sig : Bytes) : Bytes :=
  slhHash pk { x with ty := 4 } ((List.range p.k).flatMap (fun i =>
    let n := forsIndex p md i
    let q := slice sig (slhN * (1 + p.a) * i) (slhN * (1 + p.a))
    merkleUp (forsNode pk x) (q.drop slhN) n 0 p.a (forsNode pk x 0 n (q.take slhN))))

/-! ### Keys and signatures -/

/-- The message as the pure form signs it: its context string before it. -/
def slhMessage (ctx m : Bytes) : Bytes := toLe 1 0 ++ toLe 1 ctx.length ++ ctx ++ m

/-- Bytes of the FORS message, and bits of the tree index. -/
def slhMdLen (p : Slh) : Nat := ceilDiv (p.k * p.a) 8
def slhTreeBits (p : Slh) : Nat := p.hp * (p.d - 1)

/-- The message digest split up: FORS message, tree and leaf. -/
def slhSplit (p : Slh) (r key m : Bytes) : Bytes × Nat × Nat :=
  let nt := ceilDiv (slhTreeBits p) 8
  let nl := ceilDiv p.hp 8
  let dg := shake256 (r ++ key ++ m) (slhMdLen p + nt + nl)
  (dg.take (slhMdLen p), beAt dg (slhMdLen p) nt % 2 ^ slhTreeBits p, beAt dg (slhMdLen p + nt) nl % 2 ^ p.hp)

/-- The public key of three seeds: SK.seed, SK.prf, PK.seed (a detail PRESUMED, log 7). -/
def slhKeygen (p : Slh) (seeds : Bytes) : Bytes :=
  let sk := slhPiece seeds 0
  let pk := slhPiece seeds 2
  let x := slhTree (p.d - 1) 0
  pk ++ merkle (xmssLeaf sk pk x) (xmssNode pk x) p.hp 0

/-- The signature of a message under a context string, with the randomizer `rnd` (a detail PRESUMED, log 7). -/
def slhSign (p : Slh) (seeds rnd ctx m : Bytes) : Bytes :=
  let sk := slhPiece seeds 0
  let pk := slhPiece seeds 2
  let key := slhKeygen p seeds
  let m' := slhMessage ctx m
  let r := shake256 (slhPiece seeds 1 ++ rnd ++ m') slhN
  let (md, t, i) := slhSplit p r key m'
  let x := forsTree t i
  let fors := forsSign p sk pk x md
  r ++ fors ++ hyperSign p sk pk p.d 0 t i (forsFromSig p pk x md fors)

/-- The signature verifies under a 64-byte public key (a detail PRESUMED, log 7). -/
def slhVerify (p : Slh) (key ctx m sig : Bytes) : Bool :=
  let pk := key.take slhN
  let m' := slhMessage ctx m
  let (md, t, i) := slhSplit p (sig.take slhN) key m'
  let fors := slice sig slhN (slhN * p.k * (1 + p.a))
  sig.length = slhSigLen p && key.length = 2 * slhN &&
    hyperRoot p pk p.d 0 t i (forsFromSig p pk (forsTree t i) md fors) (sig.drop (slhN + fors.length)) == key.drop slhN

end Sys2Proof.Machine
end

