-- ==== Sys2Proof/Machine/ImageCheck.lean ====
section
/-! DEFINITION. The Folek container (R58 to R63), the order of checks (R64, R65), and the checks of every section of the
configuration that would result (R66 to R83, with R116, R131, R140, R148, R237, R238, R242, R288, R343 and R458). A check
answers a cause of R38, or 0. -/

set_option Elab.async false

namespace Sys2Proof.Machine

def sigBytes : Nat := 29792
def maxImage : Nat := 0x03FFF000
def maxMoult : Nat := 0x04000000

/-! ### Header (R58, R59) -/

def ctKeySlot (b : Bytes) : Nat := byteAt b 0xC
def ctCount (b : Bytes) : Nat := le16 b 0x10
def ctSigOff (b : Bytes) : Nat := le32 b 0x14
def ctOwnerKey (b : Bytes) : Bytes := slice b 0x20 64
def ctSeq (b : Bytes) : Nat := le32 b 0x60
def ctBase (b : Bytes) : Bytes := slice b 0x80 64

/-- Header fields of a container of `b.length` bytes read; cause 0x07. -/
def headerOk (b : Bytes) (moult : Bool) : Bool :=
  decide (0x100 ≤ b.length) && le32 b 0 = 0x434B4C46 && le16 b 4 = 1 && le16 b 6 = (if moult then 2 else 1) &&
    le32 b 8 = b.length && decide (ctKeySlot b ≤ 3) && allZero b 0xD 3 && allZero b 0x12 2 && allZero b 0x18 8 &&
    allZero b 0x64 28 && allZero b 0xC0 64 && ctSigOff b + sigBytes = b.length && ctSigOff b % 16 = 0 &&
    (moult || (ctSeq b = 0 && allZero b 0x80 64))

/-! ### Key slot and signature (R34, R63, R417) -/

/-- A fuse marker counts as set when 5 or more of its 8 bits are 1. -/
def markerSet (v : Nat) : Bool := decide (5 ≤ sumNat ((List.range 8).map (fun i => v / 2 ^ i % 2)))

/-- State of an owner-key slot, coded as in KEY_STATUS.slots: 0 empty, 1 programmed, 2 revoked, 3 spoiled (R417). -/
def slotState (f : FuseSlot) : Nat :=
  if markerSet f.programmed then (if markerSet f.revoked then 2 else 1)
  else if (padTo 64 f.hash).all (· == 0) && !markerSet f.revoked then 0
  else 3

/-- State of slot `i` now. -/
def keySlotState (s : State) (i : Nat) : Nat := slotState (mget s.fuses i)

/-- A key slot in state `st`, its key and the signature over the container (R34, R63, R64, R417)
(a detail PRESUMED, log 7). -/
def signatureCause (s : State) (st : Nat) (b : Bytes) (moult : Bool) : Nat :=
  firstCause
    [ fun _ => need 0x08 (st ≠ 0),
      fun _ => need 0x09 (st = 1),
      fun _ => need 0x0A (digest64 (ctOwnerKey b) == padTo 64 (mget s.fuses (ctKeySlot b)).hash),
      fun _ => need 0x0B (slhVerify slh256s (ctOwnerKey b) (ascii (if moult then "FOLEK-MOULT" else "FOLEK-IMAGE"))
        (b.take (ctSigOff b)) (b.drop (ctSigOff b))) ]

/-! ### Section table (R60 to R62) -/

/-- One entry of the section table. -/
structure SecEntry where
  ty : Nat
  op : Nat
  flags : Nat
  inst : Nat
  off : Nat
  len : Nat
  /-- reserved bits and bytes are zero -/
  clean : Bool
  deriving DecidableEq, Repr

def secEntry (b : Bytes) (i : Nat) : SecEntry :=
  let e := slice b (0x100 + 16 * i) 16
  ⟨le16 e 0, byteAt e 2, byteAt e 3, le16 e 4, le32 e 8, le32 e 0xC, byteAt e 3 < 2 && allZero e 6 2⟩

/-- Types of the singletons, and of all sections that have a type of R61. -/
def singletons : List Nat := [1, 3, 4, 5, 6, 7, 8]
def knownType (t : Nat) : Bool := singletons.contains t || t = 0x10 || t = 0x11

/-- Entries that the device does not skip. -/
def secEntries (b : Bytes) : List SecEntry :=
  ((List.range (ctCount b)).map (secEntry b)).filter (fun e => knownType e.ty || e.flags % 2 = 1)

/-- Bytes of an entry's section. -/
def secBytes (b : Bytes) (e : SecEntry) : Bytes := slice b e.off e.len

/-- Length that a singleton section must have: fixed, or derived from its own header (R62). -/
def singletonLen (t : Nat) (x : Bytes) : Nat :=
  if t = 1 then 16 + 128 * le16 x 0 + 16 * le16 x 2
  else if t = 3 then 16 + 96 * byteAt x 0
  else if t = 4 then 256
  else if t = 5 then 192
  else if t = 8 then 16 + 24 * le16 x 0
  else 32

/-- A section's own extent: bounds, alignment, and for a singleton its length (R61, R62, R66) (a detail DEDUCED, log 30). -/
def secExtentOk (b : Bytes) (e : SecEntry) : Bool :=
  let x := secBytes b e
  if e.op = 3 then e.len = 0
  else
    decide (0x100 + 16 * ctCount b ≤ e.off) && decide (e.off + e.len ≤ ctSigOff b) &&
      e.off % (if e.ty = 0x10 then 4096 else 64) = 0 &&
      (!singletons.contains e.ty ||
        (e.len = singletonLen e.ty x && decide ((if e.ty = 1 || e.ty = 3 || e.ty = 8 then 16 else 1) ≤ e.len))) &&
      (e.ty ≠ 1 || (le16 x 4 = 128 && le16 x 6 = 16 && allZero x 8 8))

/-- Operation of an entry against the base it applies to (R60, R83). -/
def secOpOk (base : Option Sections) (e : SecEntry) : Bool :=
  match base with
  | none => e.op = 0
  | some c =>
    if singletons.contains e.ty then e.op = 1
    else
      let there := if e.ty = 0x10 then (mfind c.graphs e.inst).isSome else (mfind c.codebooks e.inst).isSome
      if e.op = 2 then !there else (e.op = 1 || e.op = 3) && there

/-- Section of a type in a container. -/
def secOfType (b : Bytes) (t : Nat) : Option Bytes := ((secEntries b).find? (fun e => e.ty = t)).map (secBytes b)

/-- Entries of `n` bytes from offset `off`. -/
def recordsOf (x : Bytes) (off n count : Nat) : List Bytes := (List.range count).map (fun i => slice x (off + n * i) n)

/-- Apply one section to a configuration; a graph that goes or is replaced leaves its place in DRAM. -/
def applySection (b : Bytes) (c : Sections) (e : SecEntry) : Sections :=
  let x := secBytes b e
  if e.ty = 1 then
    { c with streams := recordsOf x 16 128 (le16 x 0), groups := recordsOf x (16 + 128 * le16 x 0) 16 (le16 x 2) }
  else if e.ty = 3 then { c with partitions := recordsOf x 16 96 (byteAt x 0) }
  else if e.ty = 4 then { c with pools := recordsOf x 0 16 16 }
  else if e.ty = 5 then { c with network := recordsOf x 0 96 2 }
  else if e.ty = 6 then { c with pac := x }
  else if e.ty = 7 then { c with telemetry := x }
  else if e.ty = 8 then { c with tunables := recordsOf x 16 24 (le16 x 0) }
  else if e.ty = 0x10 then
    { c with
      graphs := if e.op = 3 then mdel c.graphs e.inst else mput c.graphs e.inst x
      placed := mdel c.placed e.inst
      vers := mupd c.vers (verKey 0x10 e.inst) (· + 1) }
  else if e.ty = 0x11 then
    { c with
      codebooks := if e.op = 3 then mdel c.codebooks e.inst else mput c.codebooks e.inst x
      vers := mupd c.vers (verKey 0x11 e.inst) (· + 1) }
  else c

/-- The configuration with no section. -/
def noSections : Sections := ⟨[], [], [], [], [], [], [], [], [], [], [], []⟩

/-- The configuration that results: an image's own, or the base with a Moult's sections applied (R64, R83). -/
def resultOf (b : Bytes) (base : Option Sections) : Sections := (secEntries b).foldl (applySection b) (base.getD noSections)

/-- Step 5 of R64: cause 0x0C (a detail DEDUCED, log 30). The mandatory sections are asked of an image alone: a Moult may
leave no GRAPH where it leaves no stream (a detail DESIGN CHOICE, log 20). -/
def sectionTableOk (b : Bytes) (base : Option Sections) : Bool :=
  let es := secEntries b
  let types := es.map (·.ty)
  decide (ctCount b ≤ 64) && (base.isSome || decide (1 ≤ ctCount b)) && decide (0x100 + 16 * ctCount b ≤ ctSigOff b) &&
    es.all (fun e => knownType e.ty && e.clean && (if singletons.contains e.ty then e.inst = 0 else decide (e.inst ≤ 255)) &&
      secOpOk base e && secExtentOk b e) &&
    singletons.all (fun t => decide (types.count t ≤ 1)) &&
    distinct ((es.filter (fun e => !singletons.contains e.ty)).map (fun e => e.ty * 65536 + e.inst)) &&
    disjoint ((es.filter (fun e => e.op ≠ 3)).map (fun e => (e.off, e.off + e.len))) &&
    (base.isSome ||
      ([1, 3, 4, 5, 6, 7].all (fun t => types.contains t) && types.contains 0x10 &&
        (resultOf b none).streams.all (fun e => (mfind (resultOf b none).codebooks (seCodebook e)).isSome)))

/-! ### Fixed elements of a Moult (R46, R83, R341) -/

/-- What a Moult may not change of a partition: number, port, function, pinned, region_mask. -/
def partFixed (p : Bytes) : Nat × Nat × Nat × Nat × Nat := (peId p, pePort p, peFn p, byteAt p 4, peMask p)

/-- Step 6 of R64: cause 0x24. -/
def fixedOk (c0 c1 : Sections) : Bool :=
  c0.partitions.length = c1.partitions.length &&
    c1.partitions.all (fun p => c0.partitions.any (fun q => partFixed q == partFixed p)) &&
    c0.partitions.all (fun p => c1.partitions.any (fun q => partFixed q == partFixed p)) &&
    (List.range 16).all (fun k => poLog2 (cfgPool c0 k) = poLog2 (cfgPool c1 k) && poCount (cfgPool c0 k) = poCount (cfgPool c1 k))

/-! ### PARTITIONS (R71, R72) -/

def partEntryOk (p : Bytes) : Bool :=
  decide (peId p ≤ 7) && decide (pePort p ≤ 1) && decide (peFn p ≤ 3) && decide (peClass p ≤ 1) && byteAt p 4 < 2 &&
    (if pePinned p then peMask p ≠ 0 else peMask p = 0) && allZero p 6 2 && allZero p 0xE 2 && decide (peMaxStreams p ≤ 512) &&
    allZero p 0x12 2 && allZero p 0x58 8

/-- Functions of a port run from 0 upward without gaps. -/
def fnsOk (c : Sections) (port : Nat) : Bool :=
  let fs := cfgFns c port
  distinct fs && fs.all (fun f => decide (f < fs.length))

/-- Masks of pinned partitions. -/
def pinnedMasks (c : Sections) : List Nat := (c.partitions.filter pePinned).map peMask

/-- Step 7, PARTITIONS: cause 0x0E. `hpb` is false with HP_SPLIT low, when HPB is absent (R38, R72)
(a detail DEDUCED, log 30). -/
def partitionsOk (c : Sections) (sect : Option Bytes) (hpb : Bool) : Bool :=
  let masks := pinnedMasks c
  (match sect with
    | none => true
    | some x => allZero x 1 15) &&
    inR 1 8 c.partitions.length && c.partitions.all partEntryOk && distinct (c.partitions.map peId) &&
    fnsOk c 0 && fnsOk c 1 && (cfgFns c 0).contains 0 && (hpb || (cfgFns c 1).isEmpty) && decide (masks.length ≤ 2) &&
    (List.range 8).all (fun r => decide (countIf masks (fun m => m / 2 ^ r % 2 = 1) ≤ 1)) &&
    (List.range 8).any (fun r => masks.all (fun m => m / 2 ^ r % 2 = 0))

/-! ### POOLS (R74, R75, R343) -/

/-- Pools with nonzero count, in order. -/
def livePools (c : Sections) : List Nat := (List.range 16).filter (fun k => poCount (cfgPool c k) ≠ 0)

/-- Strictly rising. -/
def rising : List Nat → Bool
  | [] => true
  | [_] => true
  | a :: b :: t => decide (a < b) && rising (b :: t)

def poolOkAt (p : Bytes) : Bool :=
  inR 12 24 (poLog2 p) && byteAt p 1 = 0 && decide (poWarn p ≤ 1024) && decide (poCount p ≤ 16777216) && allZero p 0xC 4

/-- Minimum device reserve of pool `k` for DX and TU staging, and for Chrysalis bodies and spill buffers of the graphs
(R343); requirements that fall in one pool add up. -/
def reserveNeeded (c : Sections) (body spill k : Nat) : Nat :=
  (if smallestPool c 1 = some k then 512 + 64 else 0) + (if smallestPool c (512 * 1024) = some k then 8 else 0) +
    (if body ≠ 0 && smallestPool c body = some k then 32 else 0) +
    (if (livePools c).getLast? = some k then spill else 0)

/-- Reserves against the requirements of R343, and the pools they need. -/
def reservesOk (c : Sections) (body spill : Nat) : Bool :=
  (smallestPool c (512 * 1024)).isSome && (body = 0 || (smallestPool c body).isSome) &&
    (List.range 16).all (fun k => decide (reserveNeeded c body spill k ≤ poReserve (cfgPool c k)))

/-- Most spill buffers that a phase of a configuration needs (R343). -/
def largestSpill (c : Sections) : Nat :=
  match (livePools c).getLast? with
  | none => 0
  | some k => c.graphs.foldl (fun a p => max a (graphSpill p.2 (poSize (cfgPool c k)))) 0

/-- The configuration with those graphs alone that step 10 accepts: of another, no figure of R343 is defined. -/
def soundGraphs (c : Sections) : Sections :=
  { c with graphs := c.graphs.filter (fun p => graphValid p.2 && graphFits p.2) }

/-- Step 7, POOLS: causes 0x0F, with the reserves of R343, then 0x10 (a detail DEDUCED, log 30). -/
def poolsCause (c : Sections) : Nat :=
  firstCause
    [ fun _ => need 0x0F (c.pools.length = 16 && c.pools.all poolOkAt && rising ((livePools c).map (fun k => poLog2 (cfgPool c k))) &&
        reservesOk c (largestBody (soundGraphs c)) (largestSpill (soundGraphs c))),
      fun _ => need 0x10 ((List.range 16).all (fun k =>
        decide (poReserve (cfgPool c k) + sumNat (c.partitions.map (fun p => pePoolQuota p k)) ≤ poCount (cfgPool c k)))) ]

/-! ### NETWORK (R76, R77) -/

/-- Reserved bytes and bits of an entry. -/
def netReservedOk (n : Bytes) : Bool :=
  byteAt n 0 < 2 && byteAt n 7 < 8 && allZero n 0xE 2 && allZero n 0x15 3 && allZero n 0x1C 4 && allZero n 0x31 15 && allZero n 0x50 16

/-- An entry (R77): the fields of a disabled one are ignored, but for its reserved ones. -/
def netEntryOk (n : Bytes) : Bool :=
  netReservedOk n &&
    (!neEnabled n ||
      ((neV4 n || neV6 n) && byteAt n 1 < 2 && byteAt n 8 % 2 = 0 && neMac n ≠ 0 && inR 1280 9216 (neMtu n) &&
        decide (neVlan n ≤ 4094) && decide (nePcp n ≤ 7) && inR 1 32 (nePre4 n) && inR 1 128 (nePre6 n)))

/-- The family of an address is enabled on a port (R77). -/
def familyOn (n : Bytes) (a : Nat) : Bool := if isV4 a then neV4 n else neV6 n

/-- A unicast destination off-subnet needs a gateway of its family. -/
def routeOk (n : Bytes) (a : Nat) : Bool :=
  isMcast a ||
    (if isV4 a then
       neGw4 n ≠ 0 || a % 2 ^ 32 / 2 ^ (32 - nePre4 n) = neAddr4 n / 2 ^ (32 - nePre4 n)
     else neGw6 n ≠ 0 || a / 2 ^ (128 - nePre6 n) = neAddr6 n / 2 ^ (128 - nePre6 n))

/-- A port that something sends from to `a`: enabled, with the family and a route. -/
def sendOk (c : Sections) (np a : Nat) : Bool :=
  neEnabled (cfgNet c np) && familyOn (cfgNet c np) a && routeOk (cfgNet c np) a

/-- Step 8: cause 0x15, with the collector of TELEMETRY (a detail DEDUCED, log 30). -/
def networkOk (c : Sections) : Bool :=
  c.network.length = 2 && c.network.all netEntryOk &&
    (tePaths c.telemetry / 2 % 2 = 0 || decide (2 ≤ teEthPort c.telemetry) || sendOk c (teEthPort c.telemetry) (teCollector c.telemetry))

/-! ### STREAM_PLAN (R66 to R70, R73) -/

/-- Codec and transport pair (R68). -/
def pairingOk (codec tr : Nat) : Bool := inR 1 5 codec && (if tr = 1 then inR 2 4 codec else inR 2 4 tr)

/-- Picture-input format of a graph. -/
def pictureFmt (g : Bytes) : Nat := tFmt (gTensor g ((tensorsOfKind g 0).headD 0))

/-- Instar records of a graph. -/
def instarsOf (g : Bytes) : List Bytes := (List.range (gInstars g)).map (gInstar g)

/-- One entry of a model_set: absent where allowed, else a graph of the role (R67, R100), with the teacher's input format
and Instars (R148). -/
def modelOk (c : Sections) (e : Bytes) (m : Nat) : Bool :=
  if seModel e m = 0xFF then m = 2 || (m = 1 && seInterp e = 0)
  else
    match cfgGraph c (seModel e m), cfgGraph c (seModel e 0) with
    | some g, some t => gRole g = m + 1 && pictureFmt g = pictureFmt t && instarsOf g == instarsOf t
    | _, _ => false

/-- Fields of an entry whose cause is 0x0D. -/
def streamOk (c : Sections) (e : Bytes) : Bool :=
  decide (seSlot e ≤ 511) && (cfgPart c (sePart e)).isSome && decide (seSource e ≤ 2) &&
    (seDepth e = 8 || (seDepth e = 10 && seCodec e ≠ 1)) && pairingOk (seCodec e) (seTransport e) &&
    (seTransport e = 4) = (seSource e = 2) && byteAt e 7 < 4 && inR 16 8192 (seMaxW e) && seMaxW e % 2 = 0 &&
    inR 16 4352 (seMaxH e) && seMaxH e % 2 = 0 && inR 100 12000 (seMaxRate e) && decide (seInterp e ≤ 3) &&
    (byteAt e 0xF = 0 || inR 2 64 (byteAt e 0xF)) && inR 64 400000 (seBitrate e) && inR 16384 16777216 (seBurst e) &&
    (List.range 5).all (modelOk c e) && (mfind c.codebooks (seCodebook e)).isSome && allZero e 0x26 2 &&
    (if seTransport e = 1 || seTransport e = 2 then decide (seRtpPt e ≤ 127) else seRtpPt e = 0xFF) && allZero e 0x3E 2 &&
    inR 1 3 (seDest e) && decide (seRing e ≤ 15) && inR 64 20000 (seTdsRate e) && allZero e 0x6A 2 && allZero e 0x70 16

/-- Two entries of a shared TS set (R116). -/
def sharedTs (a b : Bytes) : Bool :=
  seTransport a = seTransport b && (seTransport a = 2 || seTransport a = 3) && seUdpPort a = seUdpPort b &&
    seJoin a = seJoin b && seSsm a = seSsm b && (seProgram a ≠ seProgram b || seCodec a ≠ seCodec b)

/-- Every pair of a list satisfies `p`. -/
def allPairs {α : Type} (p : α → α → Bool) : List α → Bool
  | [] => true
  | a :: t => t.all (p a) && allPairs p t

/-- Members of a group share one reference domain (R131). -/
def domainOk (es : List Bytes) : Bool :=
  if es.any (fun e => seTransport e = 3) then
    es.all (fun e => seTransport e = 3) &&
      allPairs (fun a b => seSource a = seSource b && seAddr a = seAddr b && sharedTs a b) es
  else true

/-- One fusion group (R70, R131). -/
def groupOk (c : Sections) (g : Bytes) : Bool :=
  let ms := fgMembers g
  let es := ms.filterMap (cfgStream c)
  decide (fgId g ≤ 127) && inR 2 4 (fgCount g) && inR 1 2000 (fgWindow g) && es.length = ms.length && distinct ms &&
    (List.range 4).all (fun i => decide (i < fgCount g) || le16 g (4 + 2 * i) = 0xFFFF) && fgEmit g ≠ 0 &&
    decide (fgEmit g < 2 ^ fgCount g) && allZero g 0xD 3 && es.all (fun e => sePart e = sePart (es.headD [])) && domainOk es

/-- Streams of a partition. -/
def partStreams (c : Sections) (p : Bytes) : List Bytes := c.streams.filter (fun e => sePart e = peId p)

/-- Cause 0x0D of the plan (a detail DEDUCED, log 30). -/
def planOk (c : Sections) : Bool :=
  decide (c.streams.length ≤ 512) && decide (c.groups.length ≤ 128) && c.streams.all (streamOk c) &&
    distinct (c.streams.map seSlot) && c.groups.all (groupOk c) && distinct (c.groups.map fgId) &&
    distinct (c.groups.flatMap fgMembers) &&
    c.partitions.all (fun p => decide ((partStreams c p).length ≤ peMaxStreams p))

/-- Bytes of a band for a stream's largest picture (R140). -/
def planBand (e : Bytes) : Nat := 96 * (ceilDiv (seMaxW e * (if seDepth e = 8 then 1 else 2)) 256 * 256)

/-- Bytes of one ring entry of a stream; 0 without a ring (R242). -/
def ringBytes (c : Sections) (e : Bytes) : Nat :=
  match streamGraph c e 3 with
  | none => 0
  | some g => ringEntryBytes g

/-- Bytes of a codebook buffer (R288). -/
def cbBufBytes : Nat := 71936

/-- Cause 0x0F of the plan (R67, R140, R242, R288). -/
def planBuffersOk (c : Sections) : Bool :=
  c.streams.all (fun e =>
    seQuota e % 128 = 0 && decide (256 ≤ seQuota e) && (smallestPool c (planBand e)).isSome &&
      (smallestPool c cbBufBytes).isSome &&
      (streamCache c e = 0 || decide (2 ^ 24 < ringBytes c e) || (smallestPool c (ringBytes c e)).isSome))

/-- Buffers that a partition's streams hold from becoming live, in pool `k`: rings and codebooks (R242, R288). -/
def partHolds (c : Sections) (p : Bytes) (k : Nat) : Nat :=
  sumNat ((partStreams c p).map (fun e =>
    (if streamCache c e ≠ 0 && smallestPool c (ringBytes c e) = some k then streamCache c e + 1 else 0) +
      (if smallestPool c cbBufBytes = some k then 1 else 0)))

/-- Cause 0x10 of the plan. -/
def planQuotasOk (c : Sections) : Bool :=
  c.partitions.all (fun p => (List.range 16).all (fun k => decide (partHolds c p k ≤ pePoolQuota p k)))

/-- An address that is not zero and not multicast. -/
def isUnicast (a : Nat) : Bool := !isMcast a && a ≠ 0 && a ≠ v4mapped 0

/-- The ingest side of an entry (R67, R77). -/
def ingestNetOk (c : Sections) (e : Bytes) : Bool :=
  let n := cfgNet c (seSource e)
  let a := seAddr e
  if seNet e then
    neEnabled n && familyOn n a && decide (1 ≤ seUdpPort e) && decide (seJoin e ≤ 2) &&
      (if seJoin e = 0 then a = (if isV4 a then v4mapped (neAddr4 n) else neAddr6 n) else isMcast a) &&
      (if seJoin e = 2 then isUnicast (seSsm e) else seSsm e = 0)
  else a = 0 && seUdpPort e = 0 && seJoin e = 0 && seSsm e = 0

/-- The side-stream's side of an entry (R67, R77). -/
def tdsNetOk (c : Sections) (e : Bytes) : Bool :=
  decide (seTdsPort e ≤ 1) && inR 96 127 (seTdsPt e) && inR 1 255 (seHop e) && decide (seDscp e ≤ 63) &&
    (seDest e / 2 % 2 = 0 || (decide (1 ≤ seTdsUdp e) && sendOk c (seTdsPort e) (seTdsAddr e)))

/-- UDP ports that a stream's datagrams may name (R116). -/
def matchPorts (e : Bytes) : List Nat :=
  if seTransport e = 1 || seTransport e = 2 then [seUdpPort e, seUdpPort e + 1] else [seUdpPort e]

/-- Two streams do not match one datagram but as members of a shared TS set (R116). -/
def matchOk (a b : Bytes) : Bool :=
  !(seNet a && seNet b && seSource a = seSource b && seAddr a = seAddr b &&
    (matchPorts a).any (fun p => (matchPorts b).contains p)) || sharedTs a b

/-- Cause 0x15 of the plan (a detail DEDUCED, log 30). -/
def planNetOk (c : Sections) : Bool :=
  c.streams.all (fun e => ingestNetOk c e && tdsNetOk c e) && allPairs matchOk c.streams

/-! ### Context demand (R73, R237, R238) -/

/-- Totals of context records: cause 0x13. -/
def ctxDemandOk (c : Sections) : Bool :=
  c.streams.all (fun e => decide (minRecords c e ≤ seCtxRecords e) && decide (seCtxRecords e ≤ fixedRecords c e + 256)) &&
    c.partitions.all (fun p => decide (sumNat ((partStreams c p).map seCtxRecords) ≤ peCtxQuota p)) &&
    decide (sumNat (c.partitions.map peCtxQuota) ≤ runLimit) && decide (sumNat (c.streams.map seCtxRecords) ≤ runLimit)

/-- Lowest free start of a run of `n` records among occupied ranges, in ascending order from `a`. -/
def freeStart (n : Nat) : List (Nat × Nat) → Nat → Nat
  | [], a => a
  | r :: t, a => if a + n ≤ r.1 then a else freeStart n t (max a (r.1 + r.2))

/-- Place the runs of a list of slots and lengths, each in the lowest range: first record by slot (R238). -/
def placeRuns : List (Nat × Nat) → List (Nat × Nat) → Option (Map Nat)
  | [], _ => some []
  | (slot, n) :: t, occ =>
    let a := freeStart n occ 0
    if runLimit < a + n then none
    else (placeRuns t (insertBy (fun (x y : Nat × Nat) => x.1 ≤ y.1) (a, n) occ)).map (fun m => mput m slot a)

/-- The entry of a slot continues, keeping its run (R84, R238). -/
def keepsRun (e0 e1 : Bytes) : Bool :=
  (List.range 128).all (fun i => e0.getD i 0 == e1.getD i 0 ||
    i = 0x07 || i = 0x0E || i = 0x0F || (0x18 ≤ i && i ≤ 0x1B) || (0x20 ≤ i && i ≤ 0x25) || (0x50 ≤ i && i ≤ 0x6F))

/-- Runs that a Moult places for the streams it adds, in slot order, beside those it leaves in place (R238)
(a detail DEDUCED, log 30). -/
def runPlan (s : State) (c : Sections) : Option (Map Nat) :=
  let kept := s.streams.filter (fun p => 0 < p.2.count && (match cfgStream s.run p.1, cfgStream c p.1 with
    | some e0, some e1 => keepsRun e0 e1
    | _, _ => false))
  let occ := sortBy (fun (x y : Nat × Nat) => x.1 ≤ y.1) (kept.map (fun p => (p.2.base, p.2.count)))
  let added := sortBy (fun (x y : Bytes) => seSlot x ≤ seSlot y)
    (c.streams.filter (fun e => !(kept.any (fun p => p.1 = seSlot e))))
  placeRuns (added.map (fun e => (seSlot e, seCtxRecords e))) occ

/-! ### Policies and tunables (R78 to R82) -/

/-- a detail DEDUCED, log 30. -/
def pacOk (p : Bytes) : Bool :=
  inR 40 150 (ppCap p) && allZero p 2 2 && inR 100 1000000 (ppParkIdle p) &&
    (List.range 8).all (fun r => decide (ppVpMin p r ≤ ppVpMax p r) && decide (ppVpMax p r ≤ 7)) && allZero p 0x19 7

/-- a detail DEDUCED, log 30. -/
def telemetryOk (t : Bytes) : Bool :=
  decide (tePaths t < 8) && decide (teEthPort t ≤ 1) && decide (teDscp t ≤ 63) && decide (teKMin t ≤ 15) &&
    inR 100 60000 (teSummaryMs t) && decide (1 ≤ teUdpPort t) && (tePaths t / 2 % 2 = 0 || isUnicast (teCollector t))

/-- Scope, apply point and limits of a parameter (R81). -/
def paramRow (id : Nat) : Option (Nat × Nat × Int × Int) :=
  if id = 1 then some (0, 0, 40, 150)
  else if id = 2 then some (0, 0, 100, 1000000)
  else if id = 3 then some (0, 0, 0, 15)
  else if id = 0x10 then some (1, 1, 0, 3)
  else if id = 0x11 then some (1, 1, 2, 64)
  else if id = 0x12 then some (1, 2, 0, 1)
  else if id = 0x13 then some (1, 1, 64, 20000)
  else none

/-- Base value of a device-scope parameter (R81). -/
def paramBase (c : Sections) (id : Nat) : Int :=
  if id = 1 then ppCap c.pac else if id = 2 then ppParkIdle c.pac else teKMin c.telemetry

def tunableOk (c : Sections) (t : Bytes) : Bool :=
  match paramRow (tuId t) with
  | none => false
  | some (scope, apply, lo, hi) =>
    tuScope t = scope && tuApply t = apply && allZero t 5 3 && allZero t 0x14 4 &&
      (if scope = 0 then tuPart t = 0xFF && tuDefault t == paramBase c (tuId t) else (cfgPart c (tuPart t)).isSome) &&
      decide (lo ≤ tuMin t) && decide (tuMax t ≤ hi) && decide (tuMin t ≤ tuDefault t) && decide (tuDefault t ≤ tuMax t)

/-- TUNABLES: cause 0x14 (a detail DEDUCED, log 30). -/
def tunablesOk (c : Sections) (sect : Option Bytes) : Bool :=
  (match sect with
    | none => true
    | some x => allZero x 2 14) &&
    decide (c.tunables.length ≤ 256) && c.tunables.all (tunableOk c) &&
    distinct (c.tunables.map (fun t => tuId t * 256 + tuPart t))

/-! ### The whole (R64, R65) -/

/-- Bytes of every pool: its buffers and its descriptor area (R65, R326) (a detail DEDUCED, log 31). -/
def poolsFootprint (c : Sections) : Nat :=
  sumNat ((livePools c).map (fun k => poCount (cfgPool c k) * poSize (cfgPool c k) + roundUp (4 * poCount (cfgPool c k)) 4096))

/-- DRAM footprint (R65). -/
def footprint (c : Sections) : Nat :=
  poolsFootprint c + sumNat (c.graphs.map (fun p => graphPlacement p.2)) + 512 * 2 ^ 20

/-- DRAM that a footprint may fill: the stacks in service less the staging area (R65). -/
def footprintLimit (inService : Nat) : Nat := inService * (24 * 2 ^ 30) - 64 * 2 ^ 20

/-- Step 10: 0x11 of graphs and codebooks, 0x12, then context demand (a detail DEDUCED, log 30). -/
def graphsCause (c : Sections) : Nat :=
  firstCause
    [ fun _ => need 0x11 (c.graphs.all (fun p => graphValid p.2) && distinct (c.graphs.flatMap (fun p => graphTags p.2)) &&
        c.codebooks.all (fun p => codebookValid p.2)),
      fun _ => need 0x12 (c.graphs.all (fun p => graphFits p.2)),
      fun _ => need 0x13 (ctxDemandOk c) ]

/-- Steps 7 to 11 of R64 on the configuration that would result; `b` is the container (a detail DEDUCED, log 30). -/
def contentsCause (b : Bytes) (c : Sections) (hpb : Bool) : Nat :=
  firstCause
    [ fun _ => need 0x0E (partitionsOk c (secOfType b 3) hpb),
      fun _ => poolsCause c,
      fun _ => need 0x15 (networkOk c),
      fun _ => need 0x0D (planOk c),
      fun _ => need 0x0F (planBuffersOk c),
      fun _ => need 0x10 (planQuotasOk c),
      fun _ => need 0x15 (planNetOk c),
      fun _ => graphsCause c,
      fun _ => need 0x16 (pacOk c.pac && telemetryOk c.telemetry),
      fun _ => need 0x14 (tunablesOk c (secOfType b 8)) ]

/-- Stacks in service. -/
def stackCount (s : State) : Nat := (if s.scu.stack0 then 1 else 0) + (if s.scu.stack1 then 1 else 0)

/-- Steps 2 and 3 for an image, as phase VERIFY and the flash pre-check apply them. -/
def imageVerifyCause (s : State) (b : Bytes) : Nat :=
  firstCause [ fun _ => need 0x07 (headerOk b false), fun _ => signatureCause s (keySlotState s (ctKeySlot b)) b false ]

/-- Steps 5 to 12 for an image, as phase CHECK and the flash pre-check apply them. -/
def imageCheckCause (s : State) (b : Bytes) : Nat :=
  firstCause
    [ fun _ => need 0x0C (sectionTableOk b none),
      fun _ => contentsCause b (resultOf b none) s.aon.split,
      fun _ => need 0x02 (footprint (resultOf b none) ≤ footprintLimit (stackCount s)) ]

/-- Steps 2 to 4 for a Moult, as its state VERIFY applies them, with the slot's state as read at its start (R421). -/
def moultVerifyCause (s : State) (b : Bytes) : Nat :=
  firstCause
    [ fun _ => need 0x07 (headerOk b true),
      fun _ => signatureCause s s.moult.keyState b true,
      fun _ => need 0x21 (ctBase b == padTo 64 s.scu.mCur),
      fun _ => need 0x20 (ctSeq b = (s.scu.moultSeq + 1) % 2 ^ 32) ]

/-- Steps 5 to 11 for a Moult, as its state CHECK applies them, with the placement of R238 (a detail DEDUCED, log 30). -/
def moultCheckCause (s : State) (b : Bytes) : Nat :=
  let c := resultOf b (some s.run)
  firstCause
    [ fun _ => need 0x0C (sectionTableOk b (some s.run)),
      fun _ => need 0x24 (fixedOk s.run c),
      fun _ => contentsCause b c s.aon.split,
      fun _ => need 0x13 ((runPlan s c).isSome) ]

/-- Every check of an image that applies at a flash pre-check, in the order of R64; step 1 has been made at the
command. -/
def precheckCause (s : State) (b : Bytes) : Nat :=
  firstCause [ fun _ => imageVerifyCause s b, fun _ => imageCheckCause s b ]

end Sys2Proof.Machine
end

