-- ==== Sys2Proof/Machine/Weights.lean ====
section
/-! DEFINITION. Graph placements in DRAM (R37, R47, R94, R106, R326): where each graph image lies, what the SCU keeps of it
and what the device reads back from DRAM when a layer takes its weights. -/

set_option Elab.async false

namespace Sys2Proof.Machine

/-! ### Parts of a graph image -/

/-- Blobs that hold read-only data, weights, biases and constants, and no quantization table. -/
def weightBlobs (g : Bytes) : List Nat :=
  (List.range (gBlobs g)).filter (fun i =>
    (gTensorList g).any (fun t => tBlob t = i) && !((gTensorList g).any (fun t => tQblob t = i)))

/-- Address of blob `i` of a graph placed at `base`: after its records, each blob on a 4 KiB boundary (R106). -/
def blobAddr (g : Bytes) (base i : Nat) : Nat :=
  base + roundUp (recordBytes g) 4096 + sumNat ((List.range i).map (fun j => roundUp (blLength (gBlob g j)) 4096))

/-- Units present in a zero-unit blob, in order: offset and length in the decoded bytes (R94). -/
def zuRuns (st : Bytes) (n : Nat) : List (Nat × Nat) :=
  ((List.range (ceilDiv n 256)).filter (zuPresent st)).map (fun i => (256 * i, zuUnit n i))

/-- Stored form of blob `i` of a graph whose decoded bytes are `d`: what its bitmap says is present. -/
def blobStore (g : Bytes) (i : Nat) (d : Bytes) : Bytes :=
  let b := gBlob g i
  if blEncoding b = 0 then padTo (blStored b) d
  else
    let st := slice g (blOffset b) (blStored b)
    st.take (zuBitmap (blLength b)) ++ (zuRuns st (blLength b)).flatMap (fun r => slice d r.1 r.2)

/-- A graph with the decoded bytes `d` in blob `i`. -/
def setBlob (g : Bytes) (i : Nat) (d : Bytes) : Bytes := setBytes g (blOffset (gBlob g i)) (blobStore g i d)

/-- What the SCU keeps of a graph: its sections, but not the weights (R37). -/
def keptGraph (g : Bytes) : Bytes := (weightBlobs g).foldl (fun b i => setBlob b i (zeros (blLength (gBlob b i)))) g

/-! ### Placement -/

/-- First address after the descriptor areas (R326). -/
def graphsStart (c : Sections) : Nat := poolsEnd c + sumNat ((livePools c).map (descBytes c))

/-- Write a graph's records and decoded blobs at its placement (R37, R94, R106). -/
def placeGraph (s : State) (g : Bytes) (base : Nat) : State :=
  (List.range (gBlobs g)).foldl (fun s i => dramWrite s (blobAddr g base i) 0 (blobData g i))
    (dramWrite s base 0 (g.take (recordBytes g)))

/-- Addresses of the graphs of an image: each in ascending instance, from the first free address (R326). -/
def imagePlaces : Nat → Map Bytes → Map Nat
  | _, [] => []
  | a, (i, g) :: t => mput (imagePlaces (a + graphPlacement g) t) i a

/-- Place the graphs of a list at their addresses. -/
def placeGraphs (at_ : Map Nat) : Map Bytes → State → State
  | [], s => s
  | (i, g) :: t, s => placeGraphs at_ t (placeGraph s g (mget at_ i))

/-- A configuration as the SCU keeps it, with its graphs at their places. -/
def storedConfig (c : Sections) (at_ : Map Nat) : Sections :=
  { c with graphs := mmap c.graphs (fun _ g => keptGraph g), placed := at_ }

/-- Ranges of DRAM that graphs of the running and of earlier configurations take, in ascending order. -/
def placedRanges (s : State) : List (Nat × Nat) :=
  let of (c : Sections) : List (Nat × Nat) := c.placed.map (fun q => (q.2, graphPlacement (mget c.graphs q.1)))
  sortBy (fun a b => decide (a.1 ≤ b.1)) (s.moult.olds.foldl (fun l o => l ++ (of o.2).filter (fun q => !l.contains q)) (of s.run))

/-- Addresses for a Moult's new graphs in free DRAM, each the lowest 4 KiB boundary at which it fits; none where one does
not (R47, R326) (a detail DESIGN CHOICE, log 32). -/
def stagePlaces (s : State) : List (Nat × Bytes) → List (Nat × Nat) → Option (Map Nat)
  | [], _ => some []
  | (i, g) :: t, occ =>
    let n := graphPlacement g
    let a := freeStart n occ (graphsStart s.run)
    if dramBytes s < a + n then none
    else (stagePlaces s t (insertBy (fun (x y : Nat × Nat) => x.1 ≤ y.1) (a, n) occ)).map (fun m => mput m i a)

/-! ### Reading back -/

/-- A graph of a configuration as its layers read it: its weights are those that DRAM holds. -/
def loadedGraph (s : State) (c : Sections) (k : Nat) : Bytes :=
  let g := mget c.graphs k
  match mfind c.placed k with
  | none => g
  | some base => (weightBlobs g).foldl (fun b i => setBlob b i (dramRead s (blobAddr g base i) 0 (blLength (gBlob g i)))) g

end Sys2Proof.Machine
end

