-- ==== Sys2Proof/Machine/Infer.lean ====
section
/-! DEFINITION. What an invocation computes: the operands of a picture's layers (R100, R242, R243, R268, R269), the
commit of a tile (R188, R210), the key and value entry of a picture (R245), re-derivation of tables (R189, R192, R193),
and what a context or a batch that ends gives up (R233, R310). -/

set_option Elab.async false

namespace Sys2Proof.Machine

/-! ### A context's graph and pictures -/

/-- Key of tensor `t` of picture `p` of a batch. -/
def picKey (p t : Nat) : Nat := p * 65536 + t

/-- Configuration and graph image of a context. -/
def ctxCfg (s : State) (x : Ctx) : Sections := s.cfgOf x.cfgSeq
def ctxGraph (s : State) (x : Ctx) : Bytes := (cfgGraph (ctxCfg s x) x.graph).getD []

/-- The same graph with the weights that DRAM holds for it. -/
def ctxWeights (s : State) (x : Ctx) : Bytes := loadedGraph s (ctxCfg s x) x.graph

/-- The Instar of a context, as a plan: graph and extent. -/
def ctxPlan (s : State) (x : Ctx) : Plan :=
  let g := ctxGraph s x
  let r := gInstar g x.instar
  ⟨g, isHeight r, isWidth r⟩

/-- Frame of picture `p` of a batch: absent for padding, and for a frame whose life is over (R24). -/
def batchMember (s : State) (b p : Nat) : Option Nat :=
  match mfind s.batches b with
  | none => none
  | some x =>
    match x.members.getD p none with
    | none => none
    | some fid =>
      match mfind s.frames fid with
      | none => none
      | some f => if f.flags % 2 = 1 then none else some fid

/-- Pictures of a batch that are valid, with their frames. -/
def batchFrames (s : State) (b : Nat) : List (Nat × Nat) :=
  (List.range batchSize).filterMap (fun p => (batchMember s b p).map (fun f => (p, f)))

/-! ### Inputs of the five models (R100) -/

/-- Code of a working picture: planar, row by row. -/
def picCode (wk : Nat × Nat × List Nat) (y x c : Nat) : Nat := wk.2.2.getD (c * wk.1 * wk.2.1 + y * wk.1 + x) 0

/-- A frame's working picture. -/
def frameWork (f : Frame) : Nat × Nat × List Nat := f.work.getD (0, 0, [])

/-- The frame of a stream that carries a picture number and has its working picture. -/
def framePic (s : State) (slot n : Nat) : Option Frame :=
  (s.frames.find? (fun p => p.2.slot == slot && p.2.picture == some n && p.2.work.isSome)).map (·.2)

/-- Picture number before `n` (R23). -/
def picPrev (n : Nat) : Nat := (n + 2 ^ 32 - 1) % 2 ^ 32

/-- A real value as a code of an input tensor: quantized with the image's table, or converted (R167, R180). -/
def realCode (g : Bytes) (t c : Nat) (x : Fl) : Nat :=
  let fmt := tFmt (gTensor g t)
  if quantized fmt then (qWrite fmt (imageTable g t) c x).1 else (convTo fmt x).code

/-- Element `i` of output `o` of model `m` of a frame, as FP32. -/
def outAt (f : Frame) (m o i : Nat) : Option Fl := (mfind f.outs (m * 16 + o)).map (fun l => f32 (l.getD i 0))

/-- Value of the previous working picture's element: free where there is none of the same extent (log 16). -/
def prevCode (s : State) (f : Frame) (bits y x c i : Nat) : Nat :=
  let wk := frameWork f
  match framePic s f.slot (picPrev (f.picture.getD 0)) with
  | some q =>
    if (frameWork q).1 = wk.1 && (frameWork q).2.1 = wk.2.1 then picCode (frameWork q) y x c
    else (Config.absentPicture i).toNat % 2 ^ bits
  | none => (Config.absentPicture i).toNat % 2 ^ bits

/-- Real value of the detector output: without a detector, a zero score, zero columns 6 and 7, and otherwise free
(R100, log 16). -/
def detVal (f : Frame) (i : Nat) : Fl :=
  match outAt f 2 0 i with
  | some v => v
  | none => if i % 8 = 4 || 6 ≤ i % 8 then flZero else f32 (Config.noDetector i).toNat

/-- Real value of the search's motion input: 12 channels of motion, then 3 of blend; +0.0 without a motion model. -/
def motionVal (f : Frame) (pix c : Nat) : Fl :=
  if c < 12 then (outAt f 1 0 (pix * 12 + c)).getD flZero else (outAt f 1 1 (pix * 3 + (c - 12))).getD flZero

/-- Real value of the search's token features: those of the temporal model, and free where its output has fewer elements
than the search's input, whose shape no rule ties to it (R100, log 16). -/
def tokenVal (f : Frame) (i : Nat) : Fl :=
  match (mfind f.outs 48).bind (fun l => l[i]?) with
  | some v => f32 v
  | none => f32 (Config.absentToken i).toNat

/-- Code of element `i` of input number `k` of model `m`, tensor `t`, for a frame (R100)
(a detail DESIGN CHOICE, log 16). -/
def inputCode (s : State) (f : Frame) (g : Bytes) (m k t i : Nat) : Nat :=
  let cn := tChannels (gTensor g t)
  let c := i % cn
  let w := (frameWork f).1
  let y := i / cn / w
  let x := i / cn % w
  let bits := fmtBits (tFmt (gTensor g t))
  match m, k with
  | _, 0 => picCode (frameWork f) y x c
  | 1, _ => prevCode s f bits y x c i
  | 3, _ => realCode g t c (detVal f i)
  | _, 1 => realCode g t c ((outAt f 0 0 i).getD flZero)
  | _, 2 => realCode g t c (motionVal f (i / cn) c)
  | _, _ => realCode g t c (tokenVal f i)

/-! ### Adapter in use (R235, R269, R275) -/

/-- Adapter data records of one generation. -/
def genRecords (c : Sections) (e : Bytes) : Nat := ceilDiv (streamParams c e) 60

/-- Master weight `j` of generation `gen` of a slot, an FP32 code. -/
def masterCode (s : State) (slot gen j : Nat) : Nat :=
  let c := s.cfgAt slot
  let e := s.se slot
  recGet s slot (ordHead c e + 1 + gen * genRecords c e + j / 60) (0x10 + 4 * (j % 60)) 4

/-- A field of the adapter head. -/
def headGet (s : State) (slot off n : Nat) : Nat := recGet s slot (ordHead (s.cfgAt slot) (s.se slot)) off n

/-- Generation that picture `n` uses (R275). -/
def genOf (s : State) (slot n : Nat) : Nat :=
  let cur := headGet s slot hdGen 1
  if picGap n (headGet s slot hdApply 4) < 2 ^ 31 then cur else 1 - cur

/-- The stream has adapter records. -/
def hasAdapter (s : State) (slot : Nat) : Bool := seAdapter (s.se slot) && 0 < streamParams (s.cfgAt slot) (s.se slot)

/-- Record indices of the adapter head and of one generation's data. -/
def adapterRecordsOf (s : State) (slot gen : Nat) : List Nat :=
  let c := s.cfgAt slot
  let o := ordHead c (s.se slot)
  recIx s slot o :: (List.range (genRecords c (s.se slot))).map (fun i => recIx s slot (o + 1 + gen * genRecords c (s.se slot) + i))

/-- The adapter of a slot as its picture `n` uses it: the stream's seed, and the master weights of its generation. -/
def adapterUse (s : State) (slot n : Nat) : Option (Nat × List Nat) :=
  if hasAdapter s slot then
    let gen := genOf s slot n
    some (srGet s slot srSeed 8, (List.range (streamParams (s.cfgAt slot) (s.se slot))).map (masterCode s slot gen))
  else none

/-! ### The environment of one picture -/

/-- Key frame held in ring slot `r`, as its buffer in DRAM holds it (R86, R242). -/
def ringFrame (s : State) (slot : Nat) (g : Bytes) (li r : Nat) : KvFrame :=
  let l := gLayer g li
  let ck := tChannels (gTensor g (lIn l 1))
  let cv := tChannels (gTensor g (lIn l 2))
  let bits := fmtBits (tFmt (gTensor g (lIn l 1)))
  let a := ptrAddr s slot r
  let d := dramRead s a (saltOf s a) (ceilDiv (lP l 3 * (ck + cv) * bits) 8)
  ⟨f32 (ptrScaleK s slot r), f32 (ptrScaleV s slot r), lP l 3,
    fun j c => packedCode d bits (j * (ck + cv) + c), fun j c => packedCode d bits (j * (ck + cv) + ck + c)⟩

/-- Key frames of a picture before its own (R243). -/
def pastFrames (s : State) (f : Frame) (g : Bytes) : List KvFrame :=
  match cachingLayer g with
  | none => []
  | some li => (keySlots s f.slot (f.picture.getD 0)).map (ringFrame s f.slot g li)

/-- Codes packed into bytes: four-bit codes two to a byte, the lower index in bits [3:0]. -/
def packCodes (bits : Nat) : List Nat → Bytes
  | [] => []
  | [a] => toLe (max 1 (bits / 8)) a
  | a :: b :: l => if bits = 4 then toLe 1 (a % 16 + 16 * (b % 16)) ++ packCodes bits l
      else toLe (bits / 8) a ++ packCodes bits (b :: l)

/-- Code of element `i` of a tensor of picture `p` as it has committed; a tensor spilled between waves is read back from
its DRAM buffer (R188, R215). -/
def heldCode (s : State) (x : Ctx) (g : Bytes) (p t i : Nat) : Nat :=
  match x.spillBufs.find? (fun b => b.1 == t && b.2.2) with
  | some b =>
    let bits := fmtBits (tFmt (gTensor g t))
    let a := b.2.1 + i * bits / 8
    if (entryOf (max x.phases 1) (max x.stripes 1) (x.wave / 4096)).1 = p then packedCode (dramRead s a (saltOf s a) (ceilDiv bits 8)) bits (i * bits % 8 / bits)
    else (mfind (mget x.tens (picKey p t)) i).getD 0
  | none => (mfind (mget x.tens (picKey p t)) i).getD 0

/-- What the layers of picture `p` of a context read, for its frame. -/
def ctxEnv (s : State) (x : Ctx) (p : Nat) (f : Frame) : OpEnv :=
  let g := ctxWeights s x
  let wk := frameWork f
  let ins := tensorsOfKind g 0
  { g := g
    h := wk.2.1
    w := wk.1
    tab := fun t => if rederivable (gTensor g t) then (mfind x.tabs (picKey p t)).getD (imageTable g t) else imageTable g t
    code := fun t i =>
      if isData (tKind (gTensor g t)) then dataCode g t i
      else if tKind (gTensor g t) = 0 then inputCode s f g x.model (ins.idxOf t) t i
      else heldCode s x g p t i
    frames := if x.model = 3 then pastFrames s f g else []
    adapter := (mfind x.adps p).map (fun a => ⟨a.1, fun j => a.2.getD j 0⟩) }

/-! ### Counters of the operators (R210, R211) -/

def swoCount (s : State) (slot k n : Nat) : State := s.updStream slot (fun x => { x with swo := bump x.swo k n })
def qntCount (s : State) (slot k n : Nat) : State := s.updStream slot (fun x => { x with qnt := bump x.qnt k n })

/-- A value saturates when it is rounded to BF16. -/
def bfSat (x : Fl × Fl) : Bool := (convTo 9 x.1).sat || (convTo 9 x.2).sat

/-- The row stage of dft2, before it is rounded. -/
def dftRows (x : Plane) (inv : Bool) : Plane :=
  let r64 := List.range 64
  x.map (fun row => r64.map (fun v => cdot row (r64.map (fun a => twiddle inv a v))))

def planeSat (p : Plane) : Bool := p.any (·.any bfSat)

/-- The frequency-domain tile (jy, jx) reads a non-finite value, or a stage of it saturates in BF16 (R210). -/
def fftTileBad (e : OpEnv) (l : Bytes) (jy jx : Nat) : Bool :=
  let dY := fftStep (cvKh l) (cvSh l)
  let dX := fftStep (cvKw l) (cvSw l)
  let xs := (List.range (e.cOf (lIn l 0))).map (fun c =>
    fftInput e l ((jy * dY : Nat) - (cvPt l : Int)) ((jx * dX : Nat) - (cvPl l : Int)) c)
  let cg := e.cOf (lIn l 0) / cvGroups l
  let cog := e.cOf (lOut l) / cvGroups l
  let spec (p : Plane) : Plane := dft2 p false
  let prod (o : Nat) : Plane :=
    let ps := (List.range cg).map (fun ci => bfPlane (spec (xs.getD (o / cog * cg + ci) [])))
    let ks := (List.range cg).map (fun ci => bfPlane (spec (fftKernel e l cg o ci)))
    (List.range 64).map (fun u => (List.range 64).map (fun v =>
      cdot (ps.map (fun p => (p.getD u []).getD v (flZero, flZero))) (ks.map (fun p => (p.getD u []).getD v (flZero, flZero)))))
  xs.any (fun p => p.any (·.any (fun v => !flIsFinite v.1))) ||
    xs.any (fun p => planeSat (dftRows p false) || planeSat (spec p)) ||
    (List.range (e.cOf (lOut l))).any (fun o =>
      (List.range cg).any (fun ci => planeSat (dftRows (fftKernel e l cg o ci) false) || planeSat (spec (fftKernel e l cg o ci))) ||
        planeSat (prod o) || planeSat (dftRows (bfPlane (prod o)) true))

/-- (y, x) is the first output of a frequency-domain tile. -/
def fftOrigin (l : Bytes) (y x : Nat) : Bool :=
  y * cvSh l % fftStep (cvKh l) (cvSh l) = 0 && x * cvSw l % fftStep (cvKw l) (cvSw l) = 0

/-- Count what R210 counts where element (y, x, 0) of a layer commits for the first time. -/
def countOperator (s : State) (slot : Nat) (e : OpEnv) (l : Bytes) (y x : Nat) : State :=
  if lOp l = opConv then
    let s := if y = 0 && x = 0 && convDegenerate e l then swoCount s slot 0 1 else s
    if !convDirect l && fftOrigin l y x then
      let jy := y * cvSh l / fftStep (cvKh l) (cvSh l)
      let jx := x * cvSw l / fftStep (cvKw l) (cvSw l)
      let s := swoCount s slot 1 1
      if fftTileBad e l jy jx then swoCount s slot 2 1 else s
    else s
  else if lOp l = opWarp then
    let vs := [flowVal e l y x 0, flowVal e l y x 1]
    let bad := countIf vs (fun v => !flIsFinite v)
    let far := countIf vs (fun v => flIsFinite v && flLt (flInt (lP l 1)) (flAbs v))
    swoCount (swoCount s slot 3 far) slot 4 bad
  else s

/-! ### Tiles (R188, R227) -/

/-- Positions of a command's tile that lie inside an extent. -/
def tilePositions (cmd : CellCmd) (h w : Nat) : List (Nat × Nat) :=
  (List.range cmd.rowN).flatMap (fun i => (List.range cmd.colN).filterMap (fun j =>
    if cmd.row + i < h && cmd.col + j < w then some (cmd.row + i, cmd.col + j) else none))

/-- Channels of a command's tile that the output has. -/
def tileChans (cmd : CellCmd) (c : Nat) : List Nat := (List.range cmd.chN).filterMap (fun i => if cmd.ch + i < c then some (cmd.ch + i) else none)

/-- Enter a written element in figures kept per channel or once. -/
def figsAdd (n fmt c : Nat) (wr : Written) (fs : List Figures) : List Figures :=
  let fs := if fs.isEmpty then List.replicate n figZero else fs
  fs.zipIdx.map (fun p => if p.2 = (if n = 1 then 0 else c) then figAdd fmt p.1 wr.x wr.code wr.clipped wr.nonfin else p.1)

/-- Commit element (y, x, c) of the output tensor where it has not committed before, with its figures: those of R187 of a
re-derivable tensor, and the counts of R167 of every other (a detail DEDUCED, log 48). -/
def commitElem (x : Ctx) (g : Bytes) (p t ix c : Nat) (wr : Written) : Ctx :=
  let vals := mget x.tens (picKey p t)
  if (mfind vals ix).isSome then x
  else
    let d := gTensor g t
    { x with
      tens := mput x.tens (picKey p t) (mput vals ix wr.code)
      figs := mupd x.figs (picKey p t) (figsAdd (tEntries d) (tFmt d) c wr) }

/-- Commit the elements of one position, and count them. -/
def commitPos (s : State) (cx p : Nat) (f : Frame) (e : OpEnv) (cmd : CellCmd) (y x : Nat) : State :=
  let l := gLayer e.g cmd.layer
  let t := lOut l
  let ws := layerWrite e cmd.layer y x
  let old := mget (mget s.ctxs cx).tens (picKey p t)
  let cs := tileChans cmd (e.cOf t)
  let ix (c : Nat) : Nat := (y * e.wOf t + x) * e.cOf t + c
  let fresh := cs.filter (fun c => (mfind old (ix c)).isNone)
  let w (c : Nat) : Written := ws.getD c default
  let s := if fresh.contains 0 then countOperator s f.slot e l y x else s
  let red := rederivable (gTensor e.g t)
  let s := if red then
      qntCount (qntCount s f.slot 3 (countIf fresh (fun c => (w c).clipped))) f.slot 4
        (countIf fresh (fun c => !flIsFinite (w c).x))
    else s
  s.updCtx cx (fun xc => fresh.foldl (fun xc c => commitElem xc e.g p t (ix c) c (w c)) xc)

/-- Number of base tiles of DSEARCH across a working picture. -/
def tilesAcross (w : Nat) : Nat := ceilDiv w 16

/-- Mark base tiles of DSEARCH as searched. -/
def commitSearch (s : State) (cx p : Nat) (f : Frame) (cmd : CellCmd) : State :=
  let wk := frameWork f
  let tw := tilesAcross wk.1
  s.updCtx cx (fun x => { x with tens := mupd x.tens (picKey p 0xFFFF) (fun m =>
    (tilePositions cmd (ceilDiv wk.2.1 16) tw).foldl (fun m q => mput m (q.1 * tw + q.2) 1) m) })

/-- The output of a layer has committed whole for a picture. -/
def layerDone (x : Ctx) (e : OpEnv) (p li : Nat) : Bool :=
  let t := lOut (gLayer e.g li)
  if t = 0xFFFF then decide (ceilDiv e.h 16 * tilesAcross e.w ≤ (mget x.tens (picKey p 0xFFFF)).length)
  else decide (e.hOf t * e.wOf t * e.cOf t ≤ (mget x.tens (picKey p t)).length)

/-- Every layer of a graph has committed for a picture. -/
def pictureDone (x : Ctx) (e : OpEnv) (p : Nat) : Bool := (List.range (gLayers e.g)).all (layerDone x e p)

/-! ### Re-derivation (R189, R192, R193) -/

/-- Put a derived table in force for the stream's next picture. -/
def applyTable (s : State) (f : Frame) (graph t : Nat) (q : QTable) : State :=
  let st := s.stream f.slot
  let s :=
    if f.cfgSeq = st.cfgSeq || (sameVersion (frameCfg s f) (s.cfgAt f.slot) 0x10 graph && (mfind st.qtabsOld (tensorKey graph t)).isNone) then
      let s := s.updStream f.slot (fun y => { y with qtabs := mput y.qtabs (tensorKey graph t) q })
      let s := recSet s f.slot 0 [(srQtableGen, toLe 4 (srGet s f.slot srQtableGen 4 + 1))]
      writeTables s f.slot
    else s.updStream f.slot (fun y => { y with qtabsOld := mput y.qtabsOld (tensorKey graph t) q })
  let s := qntCount s f.slot 1 1
  qntCount s f.slot 2 (countIf q.entries (·.const))

/-- The quantization flag of a frame (R193): counted once a frame. -/
def flagQuant (s : State) (fid : Nat) : State :=
  let f := s.frame fid
  if f.quantFlag then s else qntCount (s.updFrame fid (fun f => { f with quantFlag := true })) f.slot 0 1

/-- What follows when a re-derivable tensor's figures are complete (R189, R193). -/
def figuresDone (s : State) (x : Ctx) (p fid t : Nat) : State :=
  let g := ctxGraph s x
  let d := gTensor g t
  let q := (mfind x.tabs (picKey p t)).getD (imageTable g t)
  let fs := mget x.figs (picKey p t)
  let s := if fs.any (clipTest (tClip g d)) then flagQuant s fid else s
  match deriveTable (tFmt d) (tClip g d) (symmetric g t) q fs with
  | none => s
  | some q' => applyTable s (s.frame fid) x.graph t q'

/-! ### The key and value entry (R245) -/

/-- Ring slot that picture `n` writes: the one in state 1 with its number, else cache_next. -/
def ringSlotOf (s : State) (slot n : Nat) : Nat :=
  ((slotsOf s slot).find? (fun r => ptrState s slot r = 1 && ptrPicture s slot r = n)).getD (srGet s slot srCacheNext 1)

/-- The caching layer's first tile opens the entry in state 1. -/
def ringOpen (s : State) (f : Frame) : State :=
  let n := f.picture.getD 0
  let r := ringSlotOf s f.slot n
  if ptrState s f.slot r = 1 && ptrPicture s f.slot r = n then s
  else recSet s f.slot (ptrOrd r) [(ptrOff r + 8, toLe 4 n), (ptrOff r + 0x14, toLe 1 1)]

/-- Codes of an entry: each token's K, then its V. -/
def ringCodes (e : OpEnv) (l : Bytes) : List Nat :=
  let tk := lIn l 1
  let tv := lIn l 2
  (List.range (lP l 3)).flatMap (fun j =>
    (List.range (e.cOf tk)).map (matAt e tk j) ++ (List.range (e.cOf tv)).map (matAt e tv j))

/-- FP32 code of the scale that an entry records: 1.0 for FP16 and BF16 (R242). -/
def ringScale (e : OpEnv) (t : Nat) : Nat := f32Code (if quantized (e.fmt t) then arrayScale (e.tab t) 0 else flOne)

/-- Every tile of the caching layer has committed: the entry stands in its buffer, and commits (R242, R245). -/
def ringCommit (s : State) (f : Frame) (e : OpEnv) (li : Nat) : State :=
  let l := gLayer e.g li
  let slot := f.slot
  let n := f.picture.getD 0
  let r := ringSlotOf s slot n
  let a := ptrAddr s slot r
  let s := dramWrite s a (saltOf s a) (packCodes (fmtBits (e.fmt (lIn l 1))) (ringCodes e l))
  let s := recSet s slot (ptrOrd r)
    [(ptrOff r + 8, toLe 4 n), (ptrOff r + 0xC, toLe 4 (ringScale e (lIn l 1))),
     (ptrOff r + 0x10, toLe 4 (ringScale e (lIn l 2))), (ptrOff r + 0x14, toLe 1 2)]
  let c := lP l 2
  let s := recSet s slot 0
    [(srCacheNext, toLe 1 ((r + 1) % (c + 1))), (srCacheCount, toLe 1 (min c (srGet s slot srCacheCount 1 + 1)))]
  ctxCount s slot 3 1

/-! ### Commit of one tile -/

/-- Commit of a tile of a valid picture: the codes of its elements inside the extent, its figures and counts, and what
becomes complete by it. -/
def commitTileOf (s : State) (cx : Nat) (x : Ctx) (fid : Nat) (cmd : CellCmd) : State :=
  let f := s.frame fid
  let p := cmd.picture
  let e := ctxEnv s x p f
  let l := gLayer e.g cmd.layer
  if lOp l = opDsearch then commitSearch s cx p f cmd
  else
    let before := layerDone x e p cmd.layer
    let caches := x.model = 3 && cachingLayer e.g = some cmd.layer
    let s := if caches && !before then ringOpen s f else s
    let s := (tilePositions cmd (e.hOf (lOut l)) (e.wOf (lOut l))).foldl (fun s q => commitPos s cx p f e cmd q.1 q.2) s
    let x' := mget s.ctxs cx
    if !before && layerDone x' e p cmd.layer then
      let s := if rederivable (gTensor e.g (lOut l)) then figuresDone s x' p fid (lOut l) else s
      if caches then ringCommit s f (ctxEnv s x' p f) cmd.layer else s
    else s

/-- Commit of a tile at the end of its last command; a padding picture writes nothing (R24, R227)
(a detail DEDUCED, log 38). -/
def commitTile (s : State) (cx : Nat) (cmd : CellCmd) : State :=
  match mfind s.ctxs cx with
  | none => s
  | some x =>
    if x.kind ≠ 1 then s
    else
      match batchMember s x.batch cmd.picture with
      | none => s
      | some fid => commitTileOf s cx x fid cmd

/-! ### End of an invocation (R310) -/

/-- Number of the invocation's state in its batch. -/
def setInv (s : State) (b m v : Nat) : State :=
  s.updBatch b (fun x => { x with inv := x.inv.zipIdx.map (fun p => if p.2 = m then v else p.1) })

/-- A cell without the commands of a context. -/
def cellWithout (c : Cell) (cx : Nat) : Cell :=
  { c with queue := c.queue.filter (fun q => q.cmd.ctx != cx), running := c.running.filter (fun q => q.2.cmd.ctx != cx) }

/-- Tokens that the running commands of a context hold in a region. -/
def ctxTokens (s : State) (cx r : Nat) : Nat :=
  sumNat ((s.cells.filter (fun p => regionOfCell p.1 == r)).map (fun p =>
    countIf p.2.running (fun q => q.2.token && q.2.cmd.ctx == cx)))

/-- Withdraw what a context has in cells and blocks: its commands, with their tokens, and its semaphores (R322, R359). -/
def ctxWithdraw (s : State) (cx : Nat) : State :=
  let held := (mget s.ctxs cx).slots
  let s := shadowDrop s cx
  { s with
    regions := mmap s.regions (fun r x => { x with held := x.held - ctxTokens s cx r })
    cells := mmap s.cells (fun _ c => cellWithout c cx)
    blocks := mmap s.blocks (fun b x => { x with
      sems := x.sems.filter (fun q => !held.any (fun h => h.1 == b && h.2 == q.1 / 8)) }) }

/-- Free a context's Chrysalis: its body's buffer and its execution record (R250). -/
def freeChrysalis (s : State) (cx : Nat) : State :=
  match (mget s.ctxs cx).chrysalis with
  | none => s
  | some (ri, a, _) =>
    let s := storeNew (bpmRelease s 8 a) ri []
    { s with store := { s.store with exec := s.store.exec.filter (· != ri) } }

/-- Free a context: its spill buffers, its Chrysalis, its commands, its slots in its blocks, and the context itself. -/
def dropCtx (s : State) (cx : Nat) : State :=
  let s := ctxWithdraw (freeChrysalis (releaseAll 8 ((mget s.ctxs cx).spillBufs.map (·.2.1)) s) cx) cx
  { s with
    blocks := mmap s.blocks (fun _ b => { b with slots := b.slots.filter (fun p => p.2 != cx) })
    ctxs := mdel s.ctxs cx }

/-- The mapper pushes a partition's counts (R233). -/
def mapPush (s : State) (p : Nat) : State :=
  s.updPart p (fun x => { x with map := x.mapNew.foldl (fun m q => bump m q.1 q.2) x.map, mapNew := [] })

/-- A batch whose five invocations have committed or been skipped ends. -/
def batchEnd (s : State) (b : Nat) : State :=
  match mfind s.batches b with
  | none => s
  | some x => if x.inv.all (3 ≤ ·) then mapPush { s with batches := mdel s.batches b } x.part else s

end Sys2Proof.Machine
end

