-- ==== Sys2Proof/Machine/Fence.lean ====
section
/-! DEFINITION. Losing cells, blocks and regions (R321, R393 to R396): what a unit that is fenced gives up, and where its
work goes. -/

set_option Elab.async false

namespace Sys2Proof.Machine

/-! ### Partitions and regions (R72, R308, R320, R321) -/

/-- The partition is pinned and has not been demoted. -/
def pinnedNow (s : State) (p : Nat) : Bool := pePinned (s.pe p) && !(s.part p).demoted

/-- Partitions of the running configuration. -/
def partIds (s : State) : List Nat := s.run.partitions.map peId

/-- Regions that a pinned partition owns, in order. -/
def ownedRegions (s : State) (p : Nat) : List Nat := (List.range 8).filter (fun r => peMask (s.pe p) / 2 ^ r % 2 == 1)

/-- The region is owned by a pinned partition. -/
def regionOwned (s : State) (r : Nat) : Bool := (partIds s).any (fun p => pinnedNow s p && (ownedRegions s p).contains r)

/-- Alarm of the SCU: pinned partition demoted, or without regions (R407). -/
def alarmDemoted : Nat := 0x81
def alarmNoRegions : Nat := 0x82

/-- Demote the pinned partition with the higher number: its regions join the shared set (R321). -/
def demoteOne (s : State) : State :=
  match ((partIds s).filter (pinnedNow s)).foldl max 0, (partIds s).any (pinnedNow s) with
  | _, false => s
  | p, true =>
    let s := s.updPart p (fun x => { x with demoted := true })
    let s := { s with regions := mmap s.regions (fun _ r => { r with credit := mput r.credit p 0 }) }
    raiseAlarm s uScu alarmDemoted

/-- Some unfenced region is owned by no pinned partition. -/
def sharedLeft (s : State) : Bool := (List.range 8).any (fun r => !(s.region r).fenced && !regionOwned s r)

/-- Demote while no shared region is left; at most two partitions are pinned. -/
def demoteAsNeeded (s : State) : State :=
  let s := if sharedLeft s then s else demoteOne s
  if sharedLeft s then s else demoteOne s

/-! ### Cells and blocks -/

/-- Tokens that running commands of a cell hold. -/
def cellTokens (c : Cell) : Nat := countIf c.running (fun q => q.2.token)

/-- Withdraw everything queued and running in a cell; its tokens return (R359). -/
def cellFlush (s : State) (c : Nat) : State :=
  let n := cellTokens (s.cell c)
  let s := s.updRegion (regionOfCell c) (fun r => { r with held := r.held - n })
  s.updCell c (fun x => { x with queue := [], running := [] })

def cellsFlush : List Nat → State → State
  | [], s => s
  | c :: t, s => cellsFlush t (cellFlush s c)

/-- A block's cells are emptied and its semaphores zeroed. -/
def blockFlush (s : State) (b : Nat) : State :=
  cellsFlush (cellsOfBlock b) (s.updBlock b (fun x => { x with sems := [] }))

/-- The weight shadow of a region is discarded (R231). -/
def shadowDiscard (s : State) (r : Nat) : State :=
  let l := (s.region r).shadow
  let s := s.updRegion r (fun x => { x with shadow := [] })
  l.foldl (fun s q => match mfind s.ctxs q.1 with
    | none => s
    | some x => mapCount s x.part 5 1) s

/-- Blocks of a context. -/
def ctxBlocks (x : Ctx) : List Nat := x.slots.map (·.1)

/-- A usable block (R212). -/
def blockUsable (s : State) (b : Nat) : Bool :=
  !(s.block b).fenced && !(s.block b).restarting && (cellsOfBlock b).any (fun c => !(s.cell c).fenced)

/-- Frames of a context's batch show a ledger flag (R402, R403). -/
def flagFrames (s : State) (x : Ctx) (bit : Nat) : State :=
  (batchFrames s x.batch).foldl (fun s pf =>
    ledgerWrite (s.updFrame pf.2 (fun f => { f with flags := f.flags ||| bit })) pf.2) s

/-! ### Contexts and batches that lose their region (R396) -/

/-- A context whose on-chip state is lost: it runs again from its first row group; an adapter step starts over. -/
def ctxLose (s : State) (cx : Nat) : State :=
  match mfind s.ctxs cx with
  | none => s
  | some x =>
    if x.kind = 2 then
      dropCtx (s.updStream x.slot (fun st => { st with adp := st.adp.map (fun a => { a with running := false }) })) cx
    else if x.kind = 3 then dropCtx s cx
    else
      let s := { s with blocks := mmap s.blocks (fun _ b => { b with slots := b.slots.filter (fun p => p.2 != cx) }) }
      let s := releaseAll 8 (x.spillBufs.map (·.2.1)) s
      s.updCtx cx (fun x => { x with
        slots := [], work := 0, prior := max x.prior x.work, claims := [], sweeps := [], tails := [], wave := 0,
        spillBufs := [] })

def ctxsLose : List Nat → State → State
  | [], s => s
  | c :: t, s => ctxsLose t (ctxLose s c)

/-- Batch `b` comes before batch `a` in closing order. -/
def closedLe (s : State) (a b : Nat) : Bool := decide ((mget s.batches a).closedAt ≤ (mget s.batches b).closedAt)

/-- Return a batch to its partition's queue, in closing order; invocations that had not committed wait again. -/
def batchReturn (s : State) (b : Nat) : State :=
  match mfind s.batches b with
  | none => s
  | some x =>
    let s := s.updBatch b (fun x => { x with region := none, inv := x.inv.map (fun v => if v = 1 || v = 2 then 0 else v) })
    let s := s.updPart x.part (fun p => { p with queue := insertBy (closedLe s) b (p.queue.filter (· != b)) })
    (batchFrames s b).foldl (fun s pf =>
      ledgerWrite (s.updFrame pf.2 (fun f => { f with flags := f.flags ||| 8 })) pf.2) s

def batchesReturn : List Nat → State → State
  | [], s => s
  | b :: t, s => batchesReturn t (batchReturn s b)

/-- Batches that run in a region: admitted there, or with a context in one of its blocks. -/
def regionBatches (s : State) (r : Nat) : List Nat :=
  (s.batches.filter (fun p => p.2.region == some r ||
    s.ctxs.any (fun c => c.2.kind == 1 && c.2.batch == p.1 && (ctxBlocks c.2).any (fun b => regionOfBlock b == r)))).map (·.1)

/-- Contexts with state in a region. -/
def regionCtxs (s : State) (r : Nat) : List Nat :=
  (s.ctxs.filter (fun c => (ctxBlocks c.2).any (fun b => regionOfBlock b == r))).map (·.1)

/-- A pinned partition that has lost its last region (R320) (a detail DEDUCED, log 27). -/
def alarmIfBare (s : State) : List Nat → State
  | [] => s
  | p :: t =>
    alarmIfBare (if (ownedRegions s p).all (fun q => (s.region q).fenced) then raiseAlarm s uScu alarmNoRegions else s) t

/-- Fence a region: it parks as fenced, its work migrates, and partitions without a region are provided for (R320,
R321, R396, R407). -/
def regionFence (s : State) (r : Nat) : State :=
  if (s.region r).fenced then s
  else
    let bs := regionBatches s r
    let cs := regionCtxs s r
    let s := shadowDiscard s r
    let s := (blocksOfRegion r).foldl blockFlush s
    let s := batchesReturn bs (ctxsLose cs s)
    let s := s.updRegion r (fun x => { x with
      fenced := true, awake := false, waking := false, wakeDeferred := false, trans := none, queue := [], grant := 0,
      held := 0, overdraw := 0 })
    let s := raiseAlarm s (uRg + r) 0x82
    let s := alarmIfBare s ((partIds s).filter (fun p => pinnedNow s p && (ownedRegions s p).contains r))
    demoteAsNeeded s

/-- Every block of the region is fenced: so is the region (R395). -/
def regionCheck (s : State) (r : Nat) : State :=
  if (blocksOfRegion r).all (fun b => (s.block b).fenced) then regionFence s r else s

/-- Contexts with a slot in a block. -/
def blockCtxs (s : State) (b : Nat) : List Nat := (s.ctxs.filter (fun c => (ctxBlocks c.2).contains b)).map (·.1)

/-- An invocation is runnable and waits for residency in a region. -/
def queueInv (s : State) (r b m : Nat) : State :=
  let s := (setInv s b m 1).updBatch b (fun x => { x with runAt := mput x.runAt m s.now })
  s.updRegion r (fun y => { y with queue := y.queue.filter (· != b * 8 + m) ++ [b * 8 + m] })

/-- An invocation whose context lost its block waits for residency again; an adapter step starts over (R276). -/
def requeueCtx (s : State) (cx : Nat) : State :=
  match mfind s.ctxs cx with
  | none => s
  | some x =>
    if x.kind ≠ 1 then ctxLose s cx else
    queueInv s x.region x.batch x.model

/-- Fence a block: its contexts run again on the blocks that remain (R395). -/
def blockFence (s : State) (b : Nat) : State :=
  if (s.block b).fenced then s
  else
    let cs := blockCtxs s b
    let s := blockFlush s b
    let s := s.updBlock b (fun x => { x with fenced := true, restarting := false })
    let s := cs.foldl (fun s c => requeueCtx (ctxLose s c) c) s
    regionCheck (raiseAlarm s (uRg + regionOfBlock b) 0x81) (regionOfBlock b)

/-- Every cell of the block is fenced until POR_N: so is the block (R395). -/
def blockCheck (s : State) (b : Nat) : State :=
  if (cellsOfBlock b).all (fun c => (s.cell c).fenced && (s.cell c).stuck) then blockFence s b else s

/-- 24 hours in AON cycles. -/
def dayCycles : Nat := 24 * 3600 * 100000000

/-- Fence a cell: for good when it was fenced within the last 24 hours (R395). -/
def cellFence (s : State) (c : Nat) : State :=
  let x := s.cell c
  let again := x.stuck || (x.fencedAt ≠ 0 && s.now < x.fencedAt - 1 + dayCycles)
  let s := cellFlush s c
  let s := s.updCell c (fun x => { x with fenced := true, stuck := again, fencedAt := s.now + 1 })
  blockCheck (raiseAlarm s (uRg + regionOfCell c) 0x80) (blockOfCell c)

end Sys2Proof.Machine
end

