-- ==== Sys2Proof/Machine/Admission.lean ====
section
/-! DEFINITION. Scheduling (R304 to R321): effective classes and credits, admission of closed batches to regions, runnable
and resident invocations, and the holds of R192, R275 and R286. -/

set_option Elab.async false

namespace Sys2Proof.Machine

/-! ### V/F points and waking a region -/

/-- Region clock of a V/F point, in units of 50 MHz (R176, R355). -/
def clk50 (vp : Nat) : Nat := [12, 14, 16, 18, 20, 22, 24, 27].getD vp 12

/-- Count a per-region PAC counter (R438). -/
def pacCount (s : State) (k r n : Nat) : State := { s with pac := { s.pac with ctr := bump s.pac.ctr (100 + k * 8 + r) n } }

/-- Filtered level of an input, active: 0 PWRBRK_N, 1 THERM_IN_N. -/
def inputActive (s : State) (i : Nat) : Bool := (mget s.aon.inputs i).active
def pwrbrk (s : State) : Bool := inputActive s 0
def therm (s : State) : Bool := inputActive s 1

/-- vp_min in force. -/
def vpMin (s : State) (r : Nat) : Nat := if s.hasCfg then ppVpMin s.run.pac r else 0

/-- Start to wake a parked, unfenced region (R358): deferred while PWRBRK_N is active (R365); a rail that is out of
range when the wake starts fences the region (R443). -/
def wakeStart (s : State) (r : Nat) : State :=
  let x := s.region r
  if x.fenced || x.awake || x.waking then s
  else if pwrbrk s then s.updRegion r (fun x => { x with wakeDeferred := true })
  else if !x.pgood then regionFence s r
  else
    let v := vpMin s r
    let s := s.updRegion r (fun x => { x with
      waking := true, wakeDeferred := false, vsel := v, vp := v, target := v, trans := some ⟨3, v, v, s.now⟩ })
    pacCount s 1 r 1

/-! ### Effective class (R305, R306) -/

/-- The region keeps no credit: a pinned partition owns it. -/
def creditOf (s : State) (r p : Nat) : Int := if regionOwned s r then 0 else mget (s.region r).credit p

/-- A partition's work is latency-critical in a region. -/
def partCritical (s : State) (r p : Nat) : Bool := peClass (s.pe p) = 0 && decide (0 ≤ creditOf s r p)

/-- Effective class of a context in a region is latency-critical (R305). -/
def ctxCritical (s : State) (r : Nat) (x : Ctx) : Bool :=
  (x.cls = 0 && decide (0 ≤ creditOf s r x.part)) || x.inherited

/-! ### Admission (R308, R309, R321) -/

/-- Plan of a model of a batch at its Instar. -/
def batchPlan (s : State) (b : Batch) (m : Nat) : Plan :=
  let g := (cfgGraph (s.cfgOf b.cfgSeq) (b.models.getD m 0xFF)).getD []
  let r := gInstar g b.instar
  ⟨g, isHeight r, isWidth r⟩

/-- Loader-computed issue cycles of an invocation. -/
def invIssue (s : State) (b m : Nat) : Nat :=
  match mfind s.batches b with
  | none => 0
  | some x => graphIssue (batchPlan s x m)

/-- Issue cycles queued and resident in a region (R308). -/
def regionIssue (s : State) (r : Nat) : Nat :=
  sumNat ((s.region r).queue.map (fun q => invIssue s (q / 8) (q % 8))) +
    sumNat ((s.ctxs.filter (fun c => c.2.kind == 1 && c.2.region == r && !c.2.slots.isEmpty)).map
      (fun c => invIssue s c.2.batch c.2.model))

/-- The backlog of a region as a time: issue cycles over the clock, times the least common multiple of the clocks. -/
def backlog (s : State) (r : Nat) : Nat := regionIssue s r * (166320 / clk50 (s.region r).vp)

/-- 1 ms of backlog. -/
def backlogMs : Nat := 50000 * 166320

/-- The region may take a shared partition's batch. -/
def admissible (s : State) (r : Nat) : Bool := (s.region r).awake && !(s.region r).fenced && !regionOwned s r

/-- Regions that could take it after a wake. -/
def wakeable (s : State) (r : Nat) : Bool :=
  !(s.region r).awake && !(s.region r).waking && !(s.region r).fenced && !regionOwned s r

/-- The region a shared batch is admitted to: least backlog, then the one that last ran the batch's teacher, then the
lower number. -/
def chooseRegion (s : State) (b : Batch) : Option Nat :=
  minByNat (fun r => backlog s r * 2 + (if (s.region r).lastTeacher = b.models.getD 0 0xFF + 1 then 0 else 1))
    ((List.range 8).filter (admissible s))

/-- Wake the lowest-numbered parked region that could take work (a detail DEDUCED, log 37). -/
def wakeOne (s : State) : State :=
  match (List.range 8).find? (wakeable s) with
  | none => s
  | some r => wakeStart s r

/-- A batch's partition runs in its own regions: those not fenced. -/
def pinnedRegions (s : State) (p : Nat) : List Nat :=
  if pinnedNow s p then (ownedRegions s p).filter (fun r => !(s.region r).fenced) else []

/-- Region cycles and SCU cycles: the SCU clock is four times the AON clock (a detail DESIGN CHOICE, log 23). -/
def scuPerAon : Nat := 4

/-- Admit a batch to a region (R308, R324). -/
def admitTo (s : State) (b r : Nat) (x : Batch) : State :=
  let s := s.updBatch b (fun x => { x with region := some r, order := s.pac.order })
  let s := { s with pac := { s.pac with order := s.pac.order + 1, ctr := bump s.pac.ctr 0 1 } }
  s.updPart x.part (fun p => { p with
    queue := p.queue.filter (· != b)
    sch := bump (bump p.sch 0 1) 8 ((s.now - x.closedAt) * scuPerAon) })

/-- Admission of the oldest closed batch of a partition (R308, R344, R358, R400). -/
def admitNext (s : State) (part : Nat) : State :=
  match (s.part part).queue with
  | [] => s
  | b :: _ =>
    match mfind s.batches b with
    | none => s
    | some x =>
      if s.pac.restarting || (peClass (s.pe part) != 0 && anyWarn s) then s
      else
        match pinnedRegions s part with
        | r :: _ => admitTo s b r x
        | [] =>
          match chooseRegion s x with
          | none => wakeOne s
          | some r =>
            let s' := if backlogMs < backlog s r then wakeOne s else s
            admitTo s' b r x

/-- BATCH_ADMIT (R308) (a detail DEDUCED, log 37). -/
def execBatchAdmit (part : Nat) (s : State) : Host.Outcome State Fault Refusal := done (admitNext s part)

/-! ### Runnable invocations (R23, R286, R310) -/

/-- Invocation state of a batch's model. -/
def invOf (x : Batch) (m : Nat) : Nat := x.inv.getD m 4

/-- An invocation is over: committed, or skipped. -/
def invOver (x : Batch) (m : Nat) : Bool := 3 ≤ invOf x m

/-- The frame of a slot that carries a picture number and has not been discarded. -/
def liveFrameOf (s : State) (slot n : Nat) : Option Frame :=
  (s.frames.find? (fun p => p.2.slot == slot && p.2.picture == some n && p.2.flags % 2 == 0)).map (·.2)

/-- R23 allows the temporal model for a frame: its predecessor's entry has committed, or it has none. -/
def temporalAllowed (s : State) (f : Frame) : Bool :=
  match liveFrameOf s f.slot (picPrev (f.picture.getD 0)) with
  | none => true
  | some q => q.models / 8 % 2 == 1 ||
      (slotsOf s f.slot).any (fun r => ptrState s f.slot r == 2 && ptrPicture s f.slot r == q.picture.getD 0)

/-- A model of an admitted batch can become runnable now. -/
def invReady (s : State) (b m : Nat) (x : Batch) : Bool :=
  let fs := (batchFrames s b).map (fun pf => s.frame pf.2)
  match m with
  | 3 => invOver x 2 && fs.all (temporalAllowed s)
  | 4 => invOver x 0 && invOver x 1 && invOver x 3 && fs.all (·.searching)
  | _ => true

/-- An invocation becomes runnable, or is skipped (R310). -/
def makeRunnable (s : State) (b m : Nat) : State :=
  match mfind s.batches b with
  | none => s
  | some x =>
    match x.region with
    | none => s
    | some r =>
      if invOf x m ≠ 0 || 5 ≤ m then s
      else if x.models.getD m 0xFF = 0xFF then batchEnd (setInv s b m 4) b
      else if invReady s b m x then
        queueInv s r b m
      else s

/-- INVOCATION_RUNNABLE (R310) (a detail DEDUCED, log 37). -/
def execInvocationRunnable (batch model : Nat) (s : State) : Host.Outcome State Fault Refusal :=
  done (makeRunnable s batch model)

/-! ### Residency (R212, R213, R311) -/

/-- Usable blocks of a batch's placement set, in order (R212). -/
def placementBlocks (s : State) (b : Batch) : List Nat :=
  let rs := match pinnedRegions s b.part with
    | [] => b.region.toList
    | l => l
  ((rs.filter (fun r => (s.region r).awake)).flatMap blocksOfRegion).filter (blockUsable s)

/-- Count of blocks that an invocation's workers take, over its phases. -/
def blocksTaken (p : Plan) (n : Nat) : Nat :=
  (phasesOf p.g).foldl (fun a ph =>
    let w := phaseWorkers p n ph
    max a (if w.1 = 0 then n else w.1 * w.2)) 1

/-- Window bytes that an invocation takes in the `i`-th of its blocks: the largest demand of the groups placed there. -/
def windowDemand (p : Plan) (n i : Nat) : Nat :=
  (phasesOf p.g).foldl (fun a ph =>
    let grps := planGroups p ph
    if (phaseWorkers p n ph).1 = 0 then grps.foldl (fun a g => max a (groupDemand p g)) a
    else max a (groupDemand p (grps.getD (i % max grps.length 1) []))) 0

/-- Halo bytes that an invocation takes in each block. -/
def haloDemand (p : Plan) (n : Nat) : Nat :=
  (phasesOf p.g).foldl (fun a ph =>
    let st := phaseStripes p n ph
    if st.1 ≤ 1 then a else max a (haloBytes p ph st.2)) 0

/-- Window and halo bytes that a context takes in the `i`-th of its blocks: those of an adapter step include its gradient
windows (R311). -/
def ctxNeeds (s : State) (x : Ctx) (i : Nat) : Nat × Nat :=
  if x.kind = 1 then (windowDemand (ctxPlan s x) x.blocks i, haloDemand (ctxPlan s x) x.blocks) else (x.demand, 0)

/-- Window and halo bytes that a resident context holds in a block. -/
def ctxHolds (s : State) (b : Nat) (x : Ctx) : Nat × Nat := ctxNeeds s x ((ctxBlocks x).idxOf b)

/-- Line store that the resident contexts of a block hold. -/
def blockHolds (s : State) (b : Nat) : Nat × Nat :=
  (blockCtxs s b).foldl (fun a c =>
    let h := ctxHolds s b (mget s.ctxs c)
    (a.1 + h.1, a.2 + h.2)) (0, 0)

/-- Lowest free context slot of a block. -/
def freeSlot (s : State) (b : Nat) : Option Nat := (List.range 8).find? (fun k => (mfind (s.block b).slots k).isNone)

/-- A block has a slot, and line store for windows and halo rows of these bytes. -/
def blockRoom (s : State) (b : Nat) (need : Nat × Nat) : Bool :=
  let h := blockHolds s b
  (freeSlot s b).isSome && decide (h.1 + need.1 ≤ lsWindows) && decide (h.2 + need.2 ≤ haloArea)

/-- A block can take the `i`-th share of an invocation on `n` blocks. -/
def blockTakes (s : State) (p : Plan) (n i b : Nat) : Bool := blockRoom s b (windowDemand p n i, haloDemand p n)

/-- Place a context in the blocks of a list. -/
def placeCtx (cx : Nat) : List Nat → State → State
  | [], s => s
  | b :: t, s =>
    match freeSlot s b with
    | none => placeCtx cx t s
    | some k =>
      let s := s.updBlock b (fun x => { x with slots := mput x.slots k cx })
      placeCtx cx t (s.updCtx cx (fun x => { x with slots := x.slots ++ [(b, k)] }))

/-- A context of the self-test job in a region: best-effort, and of no partition (R304). -/
def selftestCtx (s : State) (r : Nat) : State :=
  { s with
    ctxs := mput s.ctxs s.nextCtx { (default : Ctx) with kind := 3, cls := 1, part := 8, graph := 0xFF, region := r }
    nextCtx := s.nextCtx + 1 }

/-- The self-test job of a block takes a context there, where a slot is free and it has none (R29, R304, R395). -/
def selftestPlace (s : State) (b : Nat) : State :=
  if (blockCtxs s b).any (fun c => (mget s.ctxs c).kind == 3) || (freeSlot s b).isNone then s
  else placeCtx s.nextCtx [b] (selftestCtx s (regionOfBlock b))

/-- The self-test job of a block ends when no cell of it awaits its test any more. -/
def selftestEnds (b : Nat) (s : State) : State :=
  if (cellsOfBlock b).any (fun c => (s.cell c).fenced && !(s.cell c).stuck) then s
  else ((blockCtxs s b).filter (fun c => (mget s.ctxs c).kind == 3)).foldl dropCtx s

/-- The context of an invocation, where one is already there (swapped out, or migrated). -/
def invCtx (s : State) (b m : Nat) : Option Nat :=
  (s.ctxs.find? (fun c => c.2.kind == 1 && c.2.batch == b && c.2.model == m)).map (·.1)

/-- A new context of an invocation. -/
def newCtx (s : State) (b m : Nat) (x : Batch) (r : Nat) : Nat × State :=
  let c : Ctx := { (default : Ctx) with
    kind := 1, cls := peClass (s.pe x.part), part := x.part, batch := b, model := m, graph := x.models.getD m 0xFF
    instar := x.instar, cfgSeq := x.cfgSeq, region := r, waitSince := s.now }
  (s.nextCtx, { s with ctxs := mput s.ctxs s.nextCtx c, nextCtx := s.nextCtx + 1 })

/-- Order in which a region's controller takes queued invocations: effective class, credit deficit, admission order,
model (R310). -/
def queueKey (s : State) (r q : Nat) : Nat :=
  let x := mget s.batches (q / 8)
  let inh := match invCtx s (q / 8) (q % 8) with
    | none => false
    | some c => (mget s.ctxs c).inherited
  let late := if partCritical s r x.part || inh then 0 else 1
  ((late * 2 ^ 50 + (-(creditOf s r x.part)).toNat) * 2 ^ 40 + x.order) * 8 + q % 8

/-- The next invocation of a region. -/
def queueHead (s : State) (r : Nat) : Option Nat := minByNat (queueKey s r) (s.region r).queue

/-- The first invocation of every earlier batch of the partition has started (R309). -/
def earlierStarted (s : State) (b : Nat) (x : Batch) : Bool :=
  !(s.batches.any (fun p => p.1 != b && p.2.part == x.part && p.2.closed && !p.2.started &&
    (decide (p.2.closedAt < x.closedAt) || (decide (p.2.closedAt = x.closedAt) && decide (p.1 < b)))))

/-- Make a context resident in blocks, and its invocation with it. -/
def settleIn (s : State) (r b m cx : Nat) (bl : List Nat) (p : Plan) : State :=
  let s := placeCtx cx bl s
  let n := bl.length
  let spill := (phasesOf p.g).any (fun ph => (phaseWorkers p n ph).1 = 0)
  let s := s.updCtx cx (fun x => { x with
    region := r, phases := (phasesOf p.g).length, stripes := workStripes p n, blocks := n, spill := spill })
  let s := setInv (s.updBatch b (fun x => { x with started := true })) b m 2
  let s := s.updRegion r (fun x => { x with queue := x.queue.filter (· != b * 8 + m) })
  if m = 0 then s.updRegion r (fun x => { x with lastTeacher := (mget s.ctxs cx).graph + 1 }) else s

/-- Make the region's next invocation resident where it is the one named, its blocks have room, and a pinned partition
runs nothing else there (R309, R311, R320). -/
def makeResident (s : State) (r b m : Nat) : State :=
  match mfind s.batches b with
  | none => s
  | some x =>
    let p := batchPlan s x m
    let all := placementBlocks s x
    let bl := all.take (blocksTaken p all.length)
    let busy := pinnedNow s x.part && s.ctxs.any (fun c => c.2.part == x.part && c.2.kind == 1 && !c.2.slots.isEmpty)
    if x.region = some r && queueHead s r = some (b * 8 + m) && earlierStarted s b x && !busy && !bl.isEmpty &&
        (bl.zipIdx.all (fun q => blockTakes s p bl.length q.2 q.1)) then
      match invCtx s b m with
      | some cx => if (mget s.ctxs cx).chrysalis.isSome then s else settleIn s r b m cx bl p
      | none =>
        let (cx, s) := newCtx s b m x r
        settleIn s r b m cx bl p
    else s

/-- INVOCATION_RESIDENT (R311) (a detail DEDUCED, log 37). -/
def execInvocationResident (region batch model : Nat) (s : State) : Host.Outcome State Fault Refusal :=
  done (makeResident s region batch model)

/-! ### Holds (R192, R275) -/

/-- The predecessor's figures for the model are still to come (R192). -/
def heldByTables (s : State) (m : Nat) (f : Frame) : Bool :=
  match liveFrameOf s f.slot (picPrev (f.picture.getD 0)) with
  | none => false
  | some q => q.models / 2 ^ m % 2 == 0 && !frameEnded q

/-- update_interval of a stream's teacher. -/
def adpInterval (s : State) (slot : Nat) : Nat :=
  match streamGraph (s.cfgAt slot) (s.se slot) 0 with
  | none => 0
  | some g => adInterval (gAdapt g)

/-- The picture must use a step that has not committed (R275): one whose last picture lies 2 I or more before it, or a
step that pictures still short of stage 0x6 may yet complete. -/
def heldByStep (s : State) (f : Frame) : Bool :=
  let slot := f.slot
  let n := f.picture.getD 0
  let i := adpInterval s slot
  let far (q : Nat) : Bool := picGap n q < 2 ^ 31 && 2 * i ≤ picGap n q
  hasAdapter s slot && (s.stream slot).train &&
    ((match (s.stream slot).adp with
      | none => false
      | some a => (List.range a.pictures.length).any (fun k =>
          (k + 1) % max i 1 == 0 && far ((s.frame (a.pictures.getD k 0)).picture.getD 0))) ||
      s.frames.any (fun p => p.2.slot == slot && !frameEnded p.2 && decide (p.2.stage < 6) &&
        (match p.2.picture with
          | none => false
          | some q => far q)))

/-- Kind of hold of a model on a batch: 0 none, 1 tables, 2 adapter step. -/
def holdKind (s : State) (x : Ctx) : Nat :=
  let fs := (batchFrames s x.batch).map (fun pf => s.frame pf.2)
  if !(rederivables (ctxGraph s x)).isEmpty && fs.any (heldByTables s x.model) then 1
  else if x.model = 0 && fs.any (heldByStep s) then 2
  else 0

/-- A picture waits for the stream's adapter step: it is counted, and the step inherits the class of the picture's
partition (R275, R277). -/
def holdForStep (s : State) (f : Frame) (cls : Nat) : State :=
  let s := s.updStream f.slot (fun x => { x with adpc := bump x.adpc 5 1 })
  { s with ctxs := mmap s.ctxs (fun _ c => if c.kind = 2 && c.slot = f.slot && cls = 0 then { c with inherited := true } else c) }

/-- Note a hold once. -/
def noteHold (s : State) (cx : Nat) (x : Ctx) (k : Nat) : State :=
  if x.held.contains k then s
  else
    let s := s.updCtx cx (fun x => { x with held := x.held ++ [k] })
    if k = 2 then
      (batchFrames s x.batch).foldl (fun s pf =>
        if heldByStep s (s.frame pf.2) then holdForStep s (s.frame pf.2) x.cls else s) s
    else s

/-! ### The first claim of an invocation -/

/-- Tables in force for a picture of the context (R192). -/
def snapTables (s : State) (x : Ctx) : Map QTable :=
  let g := ctxGraph s x
  (batchFrames s x.batch).foldl (fun m pf =>
    let f := s.frame pf.2
    (rederivables g).foldl (fun m t => mput m (picKey pf.1 t) (tableFor s f.slot f.cfgSeq g x.graph t)) m) []

/-- A picture's temporal model begins: a new timeline segment empties the ring and frees the tracks (R245), and window
places without an entry are counted (R257). -/
def beginTemporal (s : State) (f : Frame) : State :=
  let s := if (s.stream f.slot).histSeg ≠ f.segment + 1 then
      let first := (s.stream f.slot).histSeg = 0
      let s := if first then s else newSegment s f.slot
      s.updStream f.slot (fun x => { x with histSeg := f.segment + 1 })
    else s
  let c := streamCache (s.cfgAt f.slot) (s.se f.slot)
  ctxCount s f.slot 4 (c - (keySlots s f.slot (f.picture.getD 0)).length)

/-- Adapters in force for the pictures of the context: a later step does not change what its tiles compute (R108, R275). -/
def snapAdapters (s : State) (x : Ctx) : Map (Nat × List Nat) :=
  if x.model ≠ 0 then []
  else
    (batchFrames s x.batch).foldl (fun m pf =>
      let f := s.frame pf.2
      match adapterUse s f.slot (f.picture.getD 0) with
      | none => m
      | some a => mput m pf.1 a) []

/-- Records that an invocation reads as it starts: the stream record and the derived tables of each picture's slot, of a
backbone the adapter head and the generation in use, of a temporal model the cache pointers (R239)
(a detail DEDUCED, log 40). -/
def startRecords (s : State) (x : Ctx) (f : Frame) : List Nat :=
  let c := s.cfgAt f.slot
  let e := s.se f.slot
  let ix (o : Nat) : Nat := recIx s f.slot o
  ix 0 :: (List.range (quantRecords c e)).map (fun i => ix (ordQuant c e + i)) ++
    (if x.model = 3 then (List.range (ceilDiv (ringSlots c e) 8)).map (fun i => ix (ordPtr + i)) else []) ++
    (if x.model = 0 && hasAdapter s f.slot then adapterRecordsOf s f.slot (genOf s f.slot (f.picture.getD 0)) else [])

/-- An invocation starts its layers. -/
def beginCtx (s : State) (cx : Nat) (x : Ctx) : State :=
  if x.begun then s
  else
    let s := s.updCtx cx (fun y => { y with begun := true, tabs := snapTables s x, adps := snapAdapters s x })
    (batchFrames s x.batch).foldl (fun s pf =>
      let s := s.updFrame pf.2 (fun f => { f with slices := 0 })
      let s := storeReads s (s.frame pf.2).slot (startRecords s x (s.frame pf.2))
      if x.model = 3 then beginTemporal s (s.frame pf.2) else s) s

end Sys2Proof.Machine
end

