-- ==== Sys2Proof/Machine/Dram.lean ====
section
/-! DEFINITION. The DRAM controllers: credits, scheduling, page policy, ordering, ECC, patrol scrub and the imbalance
monitor (R329 to R339). -/

set_option Elab.async false

namespace Sys2Proof.Machine

def State.pc (s : State) (i : Nat) : Pc := mget s.dram.pcs i
def State.updPc (s : State) (i : Nat) (f : Pc → Pc) : State :=
  { s with dram := { s.dram with pcs := mupd s.dram.pcs i f } }

/-- Add to a counter of R348 of a pseudo-channel. -/
def pcCount (s : State) (pc i n : Nat) : State := s.updPc pc (fun p => { p with ctr := bump p.ctr i n })

/-- Unit that reports for a pseudo-channel: DMC0 or DMC1 (R328, R405). -/
def dmcUnit (pc : Nat) : Nat := uDmc + pc / 32

/-- T_b of a bank in DMC cycles; it starts at 96 (R331). -/
def bankTb (b : Bank) : Nat := if b.tb = 0 then 96 else b.tb

/-! ### ECC outcomes (R337) -/

/-- A corrected error: counted, and 16 within one buffer quarantine it. -/
def eccCorrected (s : State) (pc a : Nat) : State :=
  let s := pcCount s pc 4 1
  match bufferOf s.run a with
  | none => s
  | some b =>
    let n := mget s.bpm.corrected b + 1
    let s := { s with bpm := { s.bpm with corrected := mput s.bpm.corrected b n } }
    if n = 16 then raiseLog (quarantine s b) uBpm else s

/-- An uncorrectable error: counted, address recorded, log, and an alarm in a salt-0 area. -/
def eccUncorrectable (s : State) (pc a : Nat) : State :=
  let s := pcCount s pc 5 1
  let s := raiseLog { s with dram := { s.dram with ueAddr := a } } (dmcUnit pc)
  if (bufferOf s.run a).isNone then raiseAlarm s (dmcUnit pc) 0x80 else s

/-! ### Acceptance (R329, R332) -/

/-- Queue entry of a request. -/
def mkEntry (s : State) (r : DramReq) (ecc : Ecc) : QReq :=
  let p := locate (r.addr / 32 * 32) r.salt s.dram.key (nLog2 s)
  ⟨r, ecc, p.bank, p.row, (p.bank * 16384 + p.row) * 1024 + p.byte, s.now, s.dram.seq⟩

/-- Pseudo-channel of a request. -/
def reqPc (s : State) (r : DramReq) : Nat := pcNumber s (locate r.addr r.salt s.dram.key (nLog2 s)).pc

/-- A router may inject: it holds fewer than 4 entries of the queue, and a write finds fewer than 32 writes
(R329, R330). -/
def hasCredit (p : Pc) (r : DramReq) : Bool :=
  p.queue.length < 64 && countIf p.queue (fun q => q.req.router == r.router) < 4 &&
    (!r.write || countIf p.queue (fun q => q.req.write) < 32)

/-- The byte offsets within the burst that a write covers. -/
def reqMask (r : DramReq) : List Nat := r.mask.filter (· < 32)

/-- Merge masked bytes over the 32 bytes of a burst. -/
def mergeBurst (old data : Bytes) (mask : List Nat) : Bytes :=
  (List.range 32).map (fun i => if mask.contains i then data.getD i 0 else old.getD i 0)

/-- Answer a router. -/
def respond (s : State) (r : DramReq) (data : Bytes) (poisoned : Bool) : State :=
  { s with dram := { s.dram with resp := mput s.dram.resp r.router ⟨r.addr, data, poisoned⟩ } }

/-- Youngest queued write of a burst. -/
def queuedWrite (p : Pc) (burst : Nat) : Option QReq :=
  (p.queue.filter (fun q => q.req.write && q.burst == burst)).getLast?

/-- Merge a partial write into the queued entry with number `n`. -/
def mergeQueued (l : List QReq) (n : Nat) (r : DramReq) : List QReq :=
  l.map (fun q =>
    if q.seq = n then { q with req := { q.req with data := mergeBurst q.req.data r.data (reqMask r) } } else q)

/-- Put an entry at the end of a queue. -/
def enqueue (s : State) (pc : Nat) (q : QReq) : State :=
  let s := s.updPc pc (fun p => { p with queue := p.queue ++ [q] })
  { s with dram := { s.dram with seq := s.dram.seq + 1 } }

/-- A request enters its pseudo-channel's queue: a read is answered from the youngest matching queued write; a partial
write merges into an older queued write of its burst, or into the burst as the DMC reads it (R332). -/
def acceptReq (s : State) (r : DramReq) (ecc : Ecc) : State :=
  let pc := reqPc s r
  let e := mkEntry s r ecc
  match queuedWrite (s.pc pc) e.burst with
  | some w =>
    if !r.write then respond (pcCount s pc 6 1) r w.req.data false
    else if (reqMask r).length < 32 then
      s.updPc pc (fun p => { p with queue := mergeQueued p.queue w.seq r })
    else enqueue s pc e
  | none =>
    if r.write && (reqMask r).length < 32 then
      let old := dramRead s (r.addr / 32 * 32) r.salt 32
      let s := pcCount s pc 0 1
      match ecc with
      | .uncorrectable => eccUncorrectable s pc (r.addr / 32 * 32)
      | _ =>
        let s := if ecc = .corrected then eccCorrected s pc (r.addr / 32 * 32) else s
        enqueue s pc { e with req := { r with data := mergeBurst old r.data (reqMask r), mask := List.range 32 } }
    else enqueue s pc e

/-! ### Scheduling (R330, R331) -/

/-- The entry finds its row open. -/
def rowHit (p : Pc) (q : QReq) : Bool := (mget p.banks q.bank).openRow == q.row + 1

/-- Step of R330's order that a request takes: 2 to 5. A patrol read and a refresh do not stand in the queue. -/
def reqStep (now : Nat) (q : QReq) : Nat :=
  if 1024 ≤ 16 * (now - q.since) then 2
  else if !q.req.inProfile then 5
  else if q.req.lc then 3 else 4

/-- A request may be issued: no older request of its burst is queued; a write only while writes drain or once it has
waited 1,024 cycles; a row change only when no hit to the open row is queued, and activates of a bank 77 DMC cycles
apart (R330, R331, R332, R334). -/
def reqEligible (now : Nat) (p : Pc) (q : QReq) : Bool :=
  let b := mget p.banks q.bank
  !(p.queue.any (fun o => o.burst == q.burst && o.seq < q.seq)) &&
    (!q.req.write || p.draining || reqStep now q == 2) &&
    (rowHit p q ||
      ((b.openRow == 0 || !(p.queue.any (fun o => o.bank == q.bank && rowHit p o))) &&
        (b.actAt == 0 || 77 ≤ 16 * (now + 1 - b.actAt))))

/-- Order of choice: step, then row hits, then age. -/
def reqBefore (now : Nat) (p : Pc) (a b : QReq) : Bool :=
  let ka := (reqStep now a, if rowHit p a then 0 else 1, a.seq)
  let kb := (reqStep now b, if rowHit p b then 0 else 1, b.seq)
  ka.1 < kb.1 || (ka.1 == kb.1 && (ka.2.1 < kb.2.1 || (ka.2.1 == kb.2.1 && ka.2.2 < kb.2.2)))

/-- The request the scheduler issues next. -/
def chooseReq (now : Nat) (p : Pc) : Option QReq :=
  (p.queue.filter (reqEligible now p)).foldl
    (fun acc q => match acc with
      | none => some q
      | some b => if reqBefore now p q b then some q else some b) none

/-- Draining state from the queue: starts at 24 writes or with no read queued, stops at 8 (R330). With no read queued
it starts again, so an idle queue drains wholly. -/
def drainState (p : Pc) : Bool :=
  let w := countIf p.queue (fun q => q.req.write)
  let r := p.queue.length - w
  if w = 0 then false
  else if 24 ≤ w || r = 0 then true
  else if w ≤ 8 then false else p.draining

/-- Open the row a request needs, adapting T_b (R331). -/
def openBank (now row : Nat) (b : Bank) : Bank :=
  if b.openRow = row + 1 then b
  else
    let tb :=
      if b.openRow ≠ 0 then max 32 (bankTb b - 16)
      else if b.closedRow = row + 1 && 16 * (now - b.closedAt) ≤ 96 then min 480 (bankTb b + 32)
      else bankTb b
    { b with openRow := row + 1, tb := tb, closedRow := 0, actAt := now + 1 }

/-- Issue one request: activate if its row is not open, then read or write the burst. -/
def issueReq (s : State) (pc : Nat) (q : QReq) : State :=
  let hit := rowHit (s.pc pc) q
  let s := s.updPc pc (fun p =>
    { p with queue := p.queue.filter (fun o => o.seq != q.seq), banks := mupd p.banks q.bank (openBank s.now q.row),
             served := p.served + 1 })
  let s := pcCount s pc (if hit then 3 else 2) 1
  let a := q.req.addr / 32 * 32
  if q.req.write then dramWrite (pcCount s pc 1 1) a q.req.salt (q.req.data.take 32)
  else
    let s := pcCount s pc 0 1
    let data := dramRead s a q.req.salt 32
    match q.ecc with
    | .clean => respond s q.req data false
    | .corrected => eccCorrected (respond s q.req data false) pc a
    | .uncorrectable => eccUncorrectable (respond s q.req data true) pc a

/-- Up to `n` requests of one pseudo-channel: eight bursts pass in one AON cycle (R325). -/
def servePc (pc : Nat) : Nat → State → State
  | 0, s => s
  | n + 1, s =>
    let s := s.updPc pc (fun p => { p with draining := drainState p })
    match chooseReq s.now (s.pc pc) with
    | none => s
    | some q => servePc pc n (issueReq s pc q)

/-- Requests that waited in their requesters enter as credits return (R329). -/
def admitWaiting (pc : Nat) : List (DramReq × Ecc) → State → State
  | [], s => s
  | (r, e) :: t, s =>
    if hasCredit (s.pc pc) r then
      admitWaiting pc t (acceptReq (s.updPc pc (fun p => { p with waiting := p.waiting.drop 1 })) r e)
    else s

/-- One AON cycle of one pseudo-channel (a detail DESIGN CHOICE, log 1; a detail DEDUCED, log 44). -/
def tickPc (s : State) (pc : Nat) : State :=
  let s := s.updPc pc (fun p => { p with busy := if 48 ≤ p.queue.length then p.busy + 1 else p.busy })
  let s := servePc pc 8 s
  admitWaiting pc (s.pc pc).waiting s

def tickPcs : List Nat → State → State
  | [], s => s
  | p :: t, s => tickPcs t (tickPc s p)

/-- One AON cycle of every pseudo-channel scheduler (a detail DESIGN CHOICE, log 1). -/
def dramTick (s : State) : State := tickPcs (mkeys s.dram.pcs) s

/-! ### Commands -/

/-! ### Bandwidth regulators (R307) -/

/-- Depth of a bucket, in 1/10,000 byte. -/
def bucketFull : Nat := 65536 * 10000

/-- A request of a job goes by the job's effective class, and is charged to its partition (R307). -/
def classReq (s : State) (q : DramReq) : DramReq :=
  match q.ctx.bind (mfind s.ctxs) with
  | none => q
  | some x => if 4 ≤ q.router && q.router < 12 then { q with lc := ctxCritical s (q.router - 4) x, part := x.part } else q

/-- Profile of a request, with its bytes counted for its partition (R307, R324): a region router's request is in profile
where its buckets hold enough; Chrysalis traffic always is. -/
def profileReq (s : State) (q : DramReq) : DramReq × State :=
  let q := classReq s q
  if 4 ≤ q.router && q.router < 12 && q.part < 8 then
    let r := q.router - 4
    let c := chargeBuckets s r q.part 32
    let prof := q.inProfile || c.1
    let s := rgnCount c.2 r q.part (if q.write then 11 else 10) 0 32
    ({ q with inProfile := prof }, if prof then s else rgnCount s r q.part 12 0 32)
  else ({ q with inProfile := true }, s)

/-- One AON cycle of a region's buckets. -/
def refillRegion (r : Region) : Region :=
  let fill (tok rate : Map Nat) : Map Nat := rate.foldl (fun m q => mput m q.1 (min bucketFull (mget m q.1 + q.2))) tok
  { r with dramTok := fill r.dramTok r.dramRate, nocTok := fill r.nocTok r.nocRate }

/-- One AON cycle of every region's buckets (a detail DESIGN CHOICE, log 1). -/
def refillBuckets (s : State) : State := { s with regions := mmap s.regions (fun _ r => refillRegion r) }

/-- DRAM_REQUEST (R329 to R332, R337, R431): the request enters its queue under credit and is served by the
scheduler's order as AON cycles pass; an address beyond the stacks in service gets an error response. -/
def execDramRequest (req : DramReq) (ecc : Ecc) (s : State) : Host.Outcome State Fault Refusal :=
  if dramBytes s ≤ req.addr then done (raiseLog (respond s req [] true) (dmcUnit (32 * (stacksUp s).headD 0)))
  else
    let (req, s) := profileReq s req
    let pc := reqPc s req
    if hasCredit (s.pc pc) req && (s.pc pc).waiting.isEmpty then done (acceptReq s req ecc)
    else done (s.updPc pc (fun p => { p with waiting := p.waiting ++ [(req, ecc)] }))

/-- REFRESH_DUE (R330, R333): the refresh is the first eligible command; the bank's row is closed by it. -/
def execRefreshDue (pc bank : Nat) (s : State) : Host.Outcome State Fault Refusal :=
  done (pcCount (s.updPc pc (fun p => { p with banks := mupd p.banks bank (fun b => { b with openRow := 0 }) })) pc 9 1)

/-- BANK_IDLE_TIMEOUT (R331): the idle timer closes the bank's open row. -/
def execBankIdleTimeout (pc bank : Nat) (s : State) : Host.Outcome State Fault Refusal :=
  done (s.updPc pc (fun p => { p with banks := mupd p.banks bank (fun b =>
    if b.openRow = 0 then b else { b with openRow := 0, closedRow := b.openRow, closedAt := s.now }) }))

/-- Bursts of one pseudo-channel (R336). -/
def patrolBursts : Nat := 25165824

/-- Device address of a local burst of pseudo-channel `pc`: `n` is n_log2. -/
def patrolAddr (s : State) (pc burst : Nat) : Nat :=
  let n := nLog2 s
  let hi := burst / 8
  unlocate (pc % 2 ^ n) hi (burst % 8 * 32) (saltOf s (hi * 2 ^ n * 256)) s.dram.key n

/-- PATROL_READ (R336, R337): the scheduler reads its next burst. -/
def execPatrolRead (pc : Nat) (ecc : Ecc) (s : State) : Host.Outcome State Fault Refusal :=
  let a := patrolAddr s pc (s.pc pc).patrolNext
  let s := s.updPc pc (fun p => { p with patrolNext := (p.patrolNext + 1) % patrolBursts })
  let s := pcCount s pc 7 1
  match ecc with
  | .clean => done s
  | .corrected => done (eccCorrected s pc a)
  | .uncorrectable =>
    let s := eccUncorrectable s pc a
    match bufferOf s.run a with
    | none => done s
    | some b => done (quarantine s b)

/-- Pseudo-channels in service. -/
def pcsUp (s : State) : List Nat := (stacksUp s).flatMap (fun k => (List.range 32).map (fun i => 32 * k + i))

/-- A pseudo-channel is hot in the window: twice the mean bursts, and 48 entries for 50 µs (R338). -/
def pcHot (s : State) (pc : Nat) : Bool :=
  let total := sumNat ((pcsUp s).map (fun i => (s.pc i).served))
  2 * total ≤ (s.pc pc).served * (pcsUp s).length && 5000 ≤ (s.pc pc).busy

/-- Raise the salt epoch (R339). -/
def raiseEpoch (s : State) : State :=
  let d := s.dram
  let succ := d.raisedAt != 0 && s.now + 1 ≤ d.raisedAt + 100000000
  let n := if succ then d.raises + 1 else 0
  let s := { s with dram := { d with epoch := (d.epoch + 1) % 2 ^ 16, streak := 0, sinceRaise := 0,
                                     raises := if n = 8 then 0 else n, raisedAt := s.now + 1 } }
  let s := raiseLog s (dmcUnit d.hotPc)
  if n = 8 then raiseAlarm s (dmcUnit d.hotPc) 0x81 else s

/-- Count the window of every hot pseudo-channel (R348) (a detail DEDUCED, log 44). -/
def countHot : List Nat → State → State
  | [], s => s
  | p :: t, s => countHot t (pcCount s p 8 1)

/-- IMBALANCE_WINDOW (R338, R339): the end of a window of 100 µs. -/
def execImbalanceWindow (s : State) : Host.Outcome State Fault Refusal :=
  let hot := (pcsUp s).filter (pcHot s)
  let s := countHot hot s
  let d := s.dram
  let streak := if hot.isEmpty then 0 else min 255 (d.streak + 1)
  let s := { s with dram := { d with
    streak := streak, hotPc := hot.headD d.hotPc, sinceRaise := d.sinceRaise + 1,
    pcs := mmap d.pcs (fun _ p => { p with served := 0, busy := 0 }) } }
  if 64 ≤ streak && (s.dram.raisedAt == 0 || 1000 ≤ s.dram.sinceRaise) then done (raiseEpoch s) else done s

end Sys2Proof.Machine
end

