-- ==== Sys2Proof/Machine/Stripes.lean ====
section
/-! DEFINITION. A claimed stripe (R215 to R224): which of the context's blocks runs which layer, the rows that it owns, how
far each layer has come, what its row groups wait for, and the halo rows and hand-off rings that pass out of it. -/

set_option Elab.async false

namespace Sys2Proof.Machine

/-! ### The stripe of a claim -/

/-- A claimed work-list entry, with what its layers read. -/
structure Stripe where
  /-- the graph at the Instar -/
  p : Plan
  ph : Phase
  /-- number of the phase -/
  k : Nat
  pic : Nat
  /-- the picture's frame; none for a padding picture -/
  fid : Option Nat
  env : OpEnv
  /-- first reference row, and stripe height -/
  b : Nat
  hs : Nat
  /-- blocks of the context's placement, in the order of its groups, and their number -/
  bl : List Nat
  n : Nat
  claim : Claim

/-- What the layers of a padding picture read: it has the Instar's extent, and free values (log 16). -/
def padEnv (s : State) (x : Ctx) : OpEnv :=
  let p := ctxPlan s x
  { g := ctxWeights s x
    h := p.h
    w := p.w
    tab := imageTable p.g
    code := fun t i => if isData (tKind (gTensor p.g t)) then dataCode p.g t i
      else (Config.absentPicture i).toNat % 2 ^ p.bits t
    frames := []
    adapter := none }

/-- The stripe of a claim (R221). -/
def stripeOf (s : State) (x : Ctx) (c : Claim) : Stripe :=
  let p := ctxPlan s x
  let q := entryOf (max x.phases 1) (max x.stripes 1) c.entry
  let ph := (phasesOf p.g).getD q.2.1 default
  let hs := (phaseStripes p x.blocks ph).2
  let fid := batchMember s x.batch q.1
  let env := match fid with
    | some f => ctxEnv s x q.1 (s.frame f)
    | none => padEnv s x
  ⟨p, ph, q.2.1, q.1, fid, env, q.2.2 * hs, hs, ctxBlocks x, x.blocks, c⟩

/-- Claims of a context in the order of their entries. -/
def claimsInOrder (x : Ctx) : List Claim := sortBy (fun (a b : Claim) => decide (a.entry ≤ b.entry)) x.claims

/-- The open stripes of a context, in the order of their entries (a detail DEDUCED, log 17). -/
def openStripes (s : State) (x : Ctx) : List Stripe := ((claimsInOrder x).filter (fun c => !c.done)).map (stripeOf s x)

/-! ### Rows (R216, R219) -/

/-- Rows [first, end) of a layer's output that the stripe owns at the Instar's extent: all of them for a layer outside
stacks. -/
def Stripe.span (q : Stripe) (li : Nat) : Nat × Nat :=
  let l := gLayer q.p.g li
  let h := q.p.outH l
  if q.ph.tail.contains li then (0, h)
  else
    let ho := q.p.outH (phaseRef q.p.g q.ph)
    let first (b : Nat) : Nat := if b = 0 then 0 else if ho ≤ b then h else min h (boundOf (ownership q.p q.ph b) (lOut l)).toNat
    (first q.b, first (q.b + q.hs))

/-- Rows of a layer's output that the stripe owns and the picture has. -/
def Stripe.rows (q : Stripe) (li : Nat) : Nat × Nat :=
  let t := lOut (gLayer q.p.g li)
  let h := if t = 0xFFFF then ceilDiv q.env.h 16 else q.env.hOf t
  (min h (q.span li).1, min h (q.span li).2)

/-- Layer of the phase's stacks that produces a tensor. -/
def Stripe.producer (q : Stripe) (t : Nat) : Option Nat := (phaseLayers q.p.g q.ph).find? (fun i => lOut (gLayer q.p.g i) == t)

/-- Rows [first, end) of tensor `t` that `n` output rows of a layer from row `y` reach, within the tensor (R217). -/
def Stripe.reached (q : Stripe) (li t y n : Nat) : Nat × Nat :=
  let l := gLayer q.p.g li
  let h := q.p.hOf t
  (min h (reachRow l t y true).toNat, min h ((reachRow l t ((y + n : Nat) - 1) false) + 1).toNat)

/-! ### Groups, waves and blocks (R213, R215, R221) -/

def Stripe.groups (q : Stripe) : List (List Nat) := planGroups q.p q.ph

/-- The phase runs in spill mode. -/
def Stripe.spills (q : Stripe) : Bool := phaseSpills q.p q.n q.ph

/-- Number of the group that holds a stack. -/
def Stripe.groupOf (q : Stripe) (k : Nat) : Nat := q.groups.findIdx (·.contains k)

/-- Number of the group that a layer of the phase's stacks belongs to. -/
def Stripe.layerGroup (q : Stripe) (li : Nat) : Nat := q.groupOf (lStack (gLayer q.p.g li))

/-- Wave of a group: groups of one wave run together, on one block each. -/
def Stripe.waveOf (q : Stripe) (g : Nat) : Nat := if q.spills then g / max q.n 1 else 0

/-- Block of the worker that runs a group. -/
def Stripe.groupBlock (q : Stripe) (g : Nat) : Nat :=
  if q.spills then q.bl.getD (g % max q.n 1) q.claim.block
  else q.bl.getD (q.bl.idxOf q.claim.block + g) q.claim.block

/-- Block that runs a layer: its group's, or for a layer outside stacks the one that claimed the stripe. -/
def Stripe.layerBlock (q : Stripe) (li : Nat) : Nat :=
  if q.ph.tail.contains li then q.claim.block else q.groupBlock (q.layerGroup li)

/-- Blocks of the worker that runs the stripe. -/
def Stripe.workerBlocks (q : Stripe) : List Nat := ((List.range q.groups.length).map q.groupBlock).eraseDups

/-- Waves of the stripe's phase that have started: all of its groups where it does not spill. -/
def Stripe.wavesBegun (x : Ctx) (q : Stripe) : Nat :=
  if q.spills then (if x.wave / 4096 = q.claim.entry then x.wave % 4096 else 0) else 1

/-- Layers of the stacks that a block may run now, in record order. -/
def Stripe.layersAt (x : Ctx) (q : Stripe) (b : Nat) : List Nat :=
  (phaseLayers q.p.g q.ph).filter (fun li =>
    q.layerBlock li == b && q.waveOf (q.layerGroup li) + 1 == q.wavesBegun x)

/-! ### Progress (R216, R230) -/

/-- Key of a sweep. -/
def sweepKey (entry block : Nat) : Nat := entry * 32 + block

/-- The sweep in which a layer runs. -/
def Stripe.sweepOf (x : Ctx) (q : Stripe) (li : Nat) : Sweep := mget x.sweeps (sweepKey q.claim.entry (q.layerBlock li))

/-- First row of a layer that no row group issued has covered. -/
def Stripe.issued (x : Ctx) (q : Stripe) (li : Nat) : Nat := (mfind (q.sweepOf x li).rows li).getD (q.span li).1

/-- Row groups of a layer of which tiles have not committed. -/
def Stripe.pending (x : Ctx) (q : Stripe) (li : Nat) : List RowGroup := (q.sweepOf x li).out.filter (fun g => g.layer == li)

/-- First row of a layer that is not part of a row group committed whole, with all before it. -/
def Stripe.nextRow (x : Ctx) (q : Stripe) (li : Nat) : Nat := (q.pending x li).foldl (fun a g => min a g.row) (q.issued x li)

/-- A layer has committed its rows of the stripe. -/
def Stripe.layerOver (x : Ctx) (q : Stripe) (li : Nat) : Bool := decide ((q.span li).2 ≤ q.nextRow x li)

/-- The first incomplete row group of a layer in the stripe: the oldest one issued of which tiles have not committed, or
the next to be issued (R251). -/
def Stripe.openGroup (x : Ctx) (q : Stripe) (li : Nat) : Option (Nat × Nat) :=
  match q.pending x li with
  | g :: _ => some (g.row, g.rows)
  | [] =>
    let r := q.issued x li
    if r < (q.span li).2 then some (r, min (groupRows (gLayer q.p.g li)) ((q.span li).2 - r)) else none

/-- The stripe's layers in stacks have committed. -/
def Stripe.over (x : Ctx) (q : Stripe) : Bool := (phaseLayers q.p.g q.ph).all (q.layerOver x)

/-- Key of a picture's phase in `Ctx.tails`. -/
def tailKey (pic k : Nat) : Nat := pic * 4096 + k

/-- Claim of an entry. -/
def claimOf (x : Ctx) (v : Nat) : Option Claim := x.claims.find? (fun c => c.entry == v)

/-- The stripe whose worker runs the layers outside stacks that end a phase of a picture. -/
def tailStripe (s : State) (x : Ctx) (pic k : Nat) : Option Stripe :=
  match mfind x.tails (tailKey pic k) with
  | none => none
  | some v => (claimOf x v).map (stripeOf s x)

/-- A phase is complete for a picture: its stripes, and the layers outside stacks that end it (R221). -/
def phaseOver (s : State) (x : Ctx) (pic k : Nat) : Bool :=
  match tailStripe s x pic k with
  | none => false
  | some q => q.ph.tail.all (q.layerOver x)

/-- Layers outside stacks of a context that are under way or due, by picture and phase. -/
def tailsDue (s : State) (x : Ctx) : List (Nat × Nat) :=
  ((mkeys x.tails).map (fun k => (k / 4096, k % 4096))).filter (fun a => !phaseOver s x a.1 a.2)

/-- The layers outside stacks run for one picture at a time in a region: the first context there, and the first of its
pictures and phases (R221) (a detail DEDUCED, log 37). -/
def tailRuns (s : State) (cx : Nat) (x : Ctx) : Option (Nat × Nat) :=
  if s.ctxs.any (fun c => decide (c.1 < cx) && c.2.region == x.region && !c.2.slots.isEmpty && !(tailsDue s c.2).isEmpty) then none
  else (tailsDue s x).head?

/-! ### Halo rows (R220, R222) -/

/-- Halo rows that the stripe produces for the stripe above it: layer and row, in the order in which they are kept and
counted: by row group of each layer, then by layer, then by row (a detail DEDUCED, log 37). -/
def Stripe.haloOrder (q : Stripe) : List (Nat × Nat) :=
  if q.b = 0 then []
  else
    let rows := (phaseLayers q.p.g q.ph).map (fun li =>
      (li, (q.span li).1, min (haloRows q.p q.ph q.b (lOut (gLayer q.p.g li))) ((q.span li).2 - (q.span li).1)))
    let deep := rows.foldl (fun a r => max a (ceilDiv r.2.2 8)) 0
    (List.range deep).flatMap (fun k => rows.flatMap (fun r =>
      (List.range (min 8 (r.2.2 - 8 * k))).map (fun i => (r.1, r.2.1 + 8 * k + i))))

/-- Halo rows that the stripe produces. -/
def Stripe.haloTotal (q : Stripe) : Nat := q.haloOrder.length

/-- Halo rows in place: those before the first that has not committed. -/
def Stripe.haloReady (x : Ctx) (q : Stripe) : Nat := (q.haloOrder.takeWhile (fun r => decide (r.2 < q.nextRow x r.1))).length

/-- Ordinal of a halo row. -/
def Stripe.haloIx (q : Stripe) (li y : Nat) : Nat := q.haloOrder.idxOf (li, y)

/-- The stripe below: the entry before, of the same picture and phase. -/
def Stripe.below (s : State) (x : Ctx) (q : Stripe) : Option Stripe :=
  if q.claim.entry % max x.stripes 1 = 0 then none else (claimOf x (q.claim.entry - 1)).map (stripeOf s x)

/-- The stripe above has read the last halo row of a claim and released it (R222). -/
def haloFreed (x : Ctx) (c : Claim) : Bool := x.claims.any (fun d => d.entry == c.entry + 1 && d.freed)

/-- The claim's halo area and semaphore are still in use: it has halo rows to keep, which the stripe above has not
released. -/
def haloHeld (s : State) (x : Ctx) (c : Claim) : Bool := 0 < (stripeOf s x c).haloTotal && !haloFreed x c

/-- The stripe reads no halo row any more: every layer that reaches beyond its own rows has committed. -/
def Stripe.haloRead (x : Ctx) (q : Stripe) : Bool :=
  (phaseLayers q.p.g q.ph).all (fun li => q.layerOver x li || (rowInputs q.p (gLayer q.p.g li)).all (fun t =>
    match q.producer t with
    | none => true
    | some i => decide ((q.reached li t ((q.span li).2 - 1) 1).2 ≤ (q.span i).2)))

/-- The worker waits for its halo area: an earlier claim of its block holds it, and the stripe has halo rows to put there
(R222). -/
def Stripe.stalls (s : State) (x : Ctx) (q : Stripe) : Bool :=
  0 < q.haloTotal && x.claims.any (fun d => d.block == q.claim.block && decide (d.entry < q.claim.entry) && haloHeld s x d)

/-! ### Hand-off rings (R224) -/

/-- Hand-offs of the phase: tensors that pass between groups of one wave, with the stack that reads them. -/
def Stripe.handoffs (q : Stripe) : List (Nat × Nat) :=
  (Machine.handoffs q.p).filter (fun h => match stackOf q.p.g h.1 with
    | none => false
    | some k => q.ph.stackIds.contains k && q.ph.stackIds.contains h.2 && q.groupOf k != q.groupOf h.2 &&
        q.waveOf (q.groupOf k) == q.waveOf (q.groupOf h.2))

/-- Blocks that produce and that read a hand-off. -/
def Stripe.handoffBlocks (q : Stripe) (h : Nat × Nat) : Nat × Nat :=
  (q.groupBlock (q.groupOf ((stackOf q.p.g h.1).getD 0)), q.groupBlock (q.groupOf h.2))

/-- Slot of a context in a block. -/
def slotIn (x : Ctx) (b : Nat) : Nat := ((x.slots.find? (fun p => p.1 == b)).map (·.2)).getD 0

/-- Semaphores of hand-off number `i` of the phase: the produced count on the consumer's block, and the released count on
the producer's (a detail DEDUCED, log 37). -/
def Stripe.madeSem (x : Ctx) (q : Stripe) (h : Nat × Nat) (i : Nat) : Nat × Nat :=
  let b := (q.handoffBlocks h).2
  (b, 8 * slotIn x b + 2 + 2 * i % 6)
def Stripe.takenSem (x : Ctx) (q : Stripe) (h : Nat × Nat) (i : Nat) : Nat × Nat :=
  let b := (q.handoffBlocks h).1
  (b, 8 * slotIn x b + 2 + (2 * i + 1) % 6)

/-- Ring rows of a hand-off: rows(t) of its reading stack, and 8. -/
def Stripe.ringRows (q : Stripe) (h : Nat × Nat) : Nat := windowRows q.p (stackLayers q.p.g h.2) h.1 + 8

/-- Rows of a hand-off that have been produced in the stripe. -/
def Stripe.made (x : Ctx) (q : Stripe) (h : Nat × Nat) : Nat :=
  match q.producer h.1 with
  | none => 0
  | some i => q.nextRow x i - (q.span i).1

/-- Rows of a hand-off that have left the reach of the stack that reads them. -/
def Stripe.taken (x : Ctx) (q : Stripe) (h : Nat × Nat) : Nat :=
  match q.producer h.1 with
  | none => 0
  | some i =>
    let sp := q.span i
    let rd := (stackLayers q.p.g h.2).filter (fun li => (rowInputs q.p (gLayer q.p.g li)).contains h.1 && !q.layerOver x li)
    rd.foldl (fun a li => min a ((q.reached li h.1 (q.nextRow x li) 1).1 - sp.1)) (sp.2 - sp.1)

/-! ### What a row group waits for (R216, R222, R224) -/

/-- Layers of the phase's stacks that read a tensor by rows in the block where it is produced. -/
def Stripe.readersAt (q : Stripe) (t g : Nat) : List Nat :=
  (phaseLayers q.p.g q.ph).filter (fun li => q.layerGroup li == g && (rowInputs q.p (gLayer q.p.g li)).contains t)

/-- The rows that a row group reaches of one input are present in the block, or will be waited for by count. -/
def Stripe.inputReady (s : State) (x : Ctx) (q : Stripe) (li y n t : Nat) : Bool :=
  let tail := q.ph.tail.contains li
  if tail then
    match q.ph.tail.find? (fun i => lOut (gLayer q.p.g i) == t) with
    | none => true
    | some i => q.layerOver x i
  else
    match q.producer t with
    | none => true
    | some i =>
      let z := (q.reached li t y n).2
      let own := decide (min z (q.span i).2 ≤ q.nextRow x i)
      let below := decide (z ≤ (q.span i).2) || (q.below s x).isSome
      below && (own || q.layerGroup i != q.layerGroup li)

/-- The windows of the block's readers can take the rows up to `z` without overwriting a row still reached. -/
def Stripe.roomFor (x : Ctx) (q : Stripe) (li z : Nat) : Bool :=
  let t := lOut (gLayer q.p.g li)
  q.ph.tail.contains li || (q.readersAt t (q.layerGroup li)).all (fun c => q.layerOver x c ||
    decide (z ≤ (q.reached c t (q.nextRow x c) 1).1 + windowRows q.p (stackLayers q.p.g (lStack (gLayer q.p.g c))) t))

/-- A layer can issue the row group of `n` rows from its next row (R216). -/
def Stripe.fits (s : State) (x : Ctx) (q : Stripe) (li n : Nat) : Bool :=
  let y := q.issued x li
  (lInputs (gLayer q.p.g li)).all (q.inputReady s x li y n) && q.roomFor x li (y + n)

/-- The row group that a layer issues at a visit: as many rows, up to a full row group, as their inputs and their readers
allow (a detail DEDUCED, log 37). -/
def Stripe.fitRows (s : State) (x : Ctx) (q : Stripe) (li : Nat) : Option Nat :=
  let most := min (groupRows (gLayer q.p.g li)) ((q.span li).2 - q.issued x li)
  ((List.range most).reverse.map (· + 1)).find? (q.fits s x li)

/-- WAITs of the commands of a row group: for halo rows of the stripe below, for hand-off rows that it reads, and for the
room in the rings that it writes (R222, R224). -/
def Stripe.waits (s : State) (x : Ctx) (q : Stripe) (li y n : Nat) : List SemRef :=
  if q.ph.tail.contains li then []
  else
    let ins := rowInputs q.p (gLayer q.p.g li)
    let halo := ins.filterMap (fun t =>
      match q.producer t, q.below s x with
      | some i, some d =>
        let z := (q.reached li t y n).2
        if (q.span i).2 < z then some ⟨d.claim.block, d.claim.sem, d.haloIx i (z - 1) + 1⟩ else none
      | _, _ => none)
    let hs := q.handoffs.zipIdx
    let reads := (hs.filter (fun h => h.1.2 == lStack (gLayer q.p.g li) && ins.contains h.1.1)).filterMap (fun h =>
      (q.producer h.1.1).map (fun i =>
        let m := q.madeSem x h.1 h.2
        ⟨m.1, m.2, min (q.reached li h.1.1 y n).2 (q.span i).2 - (q.span i).1⟩))
    let writes := (hs.filter (fun h => h.1.1 == lOut (gLayer q.p.g li))).map (fun h =>
      let m := q.takenSem x h.1 h.2
      ⟨m.1, m.2, y + n - (q.span li).1 - q.ringRows h.1⟩)
    (halo ++ reads ++ writes).filter (fun w => w.n != 0)

/-- The rows that a row group reaches have committed, in its own stripe and in the one below: what its WAITs stand for
(R108, R313). -/
def Stripe.inputsPresent (s : State) (x : Ctx) (q : Stripe) (li y n : Nat) : Bool :=
  q.ph.tail.contains li || (rowInputs q.p (gLayer q.p.g li)).all (fun t =>
    match q.producer t with
    | none => true
    | some i =>
      let z := (q.reached li t y n).2
      decide (min z (q.span i).2 ≤ q.nextRow x i) && (decide (z ≤ (q.span i).2) ||
        (match q.below s x with
        | none => true
        | some d => decide (z ≤ d.nextRow x i))))

end Sys2Proof.Machine
end

