-- ==== Sys2Proof/Machine/Semaphores.lean ====
section
/-! DEFINITION. Semaphores of a block (R172 to R174, R222, R224, R317): signals, waits and the class that a waiting command
lends to the context that it waits on. -/

set_option Elab.async false

namespace Sys2Proof.Machine

/-- Waiters of one semaphore (R172). -/
def semWaiters : Nat := 8

/-- A WAIT names this semaphore. -/
def waitsOn (b n : Nat) (w : SemRef) : Bool := w.block == b && w.sem == n

/-- Release the command of a cell from its WAITs for counts of a semaphore that have been reached. -/
def releaseCell (b n count : Nat) (q : QCmd) : QCmd :=
  { q with waits := q.waits.filter (fun w => !(waitsOn b n w && decide (w.n ≤ count))) }

/-- The context whose slot a semaphore belongs to: slot k of a block has the semaphores 8 k to 8 k + 7 (R222); of a context
that is swapped out, the one whose open claim records it. -/
def semOwner (s : State) (b n : Nat) : Option Nat :=
  match mfind (s.block b).slots (n / 8) with
  | some cx => some cx
  | none => (s.ctxs.find? (fun c => c.2.claims.any (fun k => k.block == b && k.sem == n && !k.done))).map (·.1)

/-- The owner's inherited class ends where an awaited count has been reached (R317) (a detail DEDUCED, log 37). -/
def endInherit (s : State) (b n : Nat) : State :=
  match semOwner s b n with
  | none => s
  | some cx => s.updCtx cx (fun x => if x.kind = 2 then x else { x with inherited := false })

/-- Release every waiter whose threshold is reached. -/
def semRelease (s : State) (b n : Nat) : State :=
  let q := mget (s.block b).sems n
  let ready := q.waiters.filter (fun w => w.2 ≤ q.count)
  if ready.isEmpty then s
  else
    let s := s.updBlock b (fun x => { x with sems := mupd x.sems n (fun q => { q with waiters := q.waiters.filter (fun w => q.count < w.2) }) })
    let s := ready.foldl (fun s w => s.updCell w.1 (fun c => { c with queue := c.queue.map (releaseCell b n q.count) })) s
    endInherit s b n

/-- SIGNAL: add to a count, which holds at 0xFFFF (R173). -/
def semSignal (s : State) (b n k : Nat) : State :=
  let q := mget (s.block b).sems n
  let s := s.updBlock b (fun x => { x with sems := mupd x.sems n (fun q => { q with count := min 0xFFFF (q.count + k) }) })
  let s := if 0xFFFF < q.count + k then raiseLog s (uRg + regionOfBlock b) else s
  semRelease s b n

/-- Set a semaphore to 0; its waiters stay (R172). -/
def semReset (s : State) (b n : Nat) : State :=
  s.updBlock b (fun x => { x with sems := mupd x.sems n (fun q => { q with count := 0 }) })

/-- A latency-critical command waits on a producer of best-effort effective class, or one swapped out: the producer
inherits the class, and its partition counts it (R317). -/
def inherit (s : State) (b n c : Nat) : State :=
  let critical := (s.cell c).queue.any (fun q => q.waits.any (waitsOn b n) &&
    ctxCritical s (regionOfCell c) (mget s.ctxs q.cmd.ctx))
  match semOwner s b n with
  | none => s
  | some cx =>
    let x := mget s.ctxs cx
    if critical && !x.inherited && (x.slots.isEmpty || !ctxCritical s x.region x) then
      (s.updCtx cx (fun x => { x with inherited := true }))|> fun s => rgnCount s x.region x.part 9 0 1
    else s

/-- WAIT of a cell for a count: released at once where the count is there; otherwise the cell joins the waiters, where
fewer than eight wait (R172, R173). -/
def semWait (s : State) (b n c t : Nat) : State :=
  let q := mget (s.block b).sems n
  if t ≤ q.count then s.updCell c (fun x => { x with queue := x.queue.map (releaseCell b n q.count) })
  else
    let s := inherit s b n c
    if q.waiters.length < semWaiters && !q.waiters.contains (c, t) then
      s.updBlock b (fun x => { x with sems := mupd x.sems n (fun q => { q with waiters := q.waiters ++ [(c, t)] }) })
    else s

/-- SEMAPHORE_SIGNAL (R172, R173). -/
def execSemaphoreSignal (block sem n : Nat) (s : State) : Host.Outcome State Fault Refusal := done (semSignal s block sem n)

/-- SEMAPHORE_WAIT (R172, R173, R317). -/
def execSemaphoreWait (block sem cell t : Nat) (s : State) : Host.Outcome State Fault Refusal := done (semWait s block sem cell t)

/-- SEMAPHORE_RESET (R172). -/
def execSemaphoreReset (block sem : Nat) (s : State) : Host.Outcome State Fault Refusal := done (semReset s block sem)

/-- WAIT_RETRY (R173): a ninth waiter asks again. -/
def execWaitRetry (block sem cell t : Nat) (s : State) : Host.Outcome State Fault Refusal := done (semWait s block sem cell t)

end Sys2Proof.Machine
end

