-- ==== Sys2Proof/Machine/Mapping.lean ====
section
/-! DEFINITION. The mapper cores at work (R212 to R233): claims of work-list entries, the commands that a block's core
writes next, and what the commit of a tile brings: halo and hand-off counts, entries, phases and the invocation. -/

set_option Elab.async false

namespace Sys2Proof.Machine

/-! ### Claims (R173, R221, R222, R229) -/

/-- Entries of an invocation's work list. -/
def entryCount (x : Ctx) : Nat := batchSize * x.phases * x.stripes

/-- Phase of an entry, with the workers and groups that run it; a phase in spill mode has one worker of all the blocks. -/
def entryPhase (s : State) (x : Ctx) (v : Nat) : Phase × Nat × Nat :=
  let p := ctxPlan s x
  let ph := (phasesOf p.g).getD (entryOf (max x.phases 1) (max x.stripes 1) v).2.1 default
  let w := phaseWorkers p x.blocks ph
  (ph, if w.1 = 0 then (1, max x.blocks 1) else (w.1, max w.2 1))

/-- Blocks of the context, by index, that the worker of a claim takes. -/
def claimSpan (s : State) (x : Ctx) (c : Claim) : Nat × Nat :=
  let i := (ctxBlocks x).idxOf c.block
  (i, i + (entryPhase s x c.entry).2.2)

/-- A block leads a worker that may claim entry `v`: the first of its worker's blocks, none of which still runs an entry or
layers outside stacks (R213, R221) (a detail DEDUCED, log 37). -/
def mayClaim (s : State) (x : Ctx) (b v : Nat) : Bool :=
  let i := (ctxBlocks x).idxOf b
  let (_, w, g) := entryPhase s x v
  decide (entryCount x ≤ v) || (i % g == 0 && decide (i / g < w) &&
    !(x.claims.any (fun c =>
      let r := claimSpan s x c
      !c.done && decide (r.1 < i + g) && decide (i < r.2))) &&
    !((tailsDue s x).any (fun k => (tailStripe s x k.1 k.2).any (fun q =>
      decide (i ≤ (ctxBlocks x).idxOf q.claim.block) && decide ((ctxBlocks x).idxOf q.claim.block < i + g)))))

/-- Semaphore of a block that a claim records: the first of the slot's eight that neither a hand-off of the phase nor an
unreleased claim there uses (a detail DEDUCED, log 37). -/
def claimSem (s : State) (x : Ctx) (b v : Nat) : Nat :=
  let k := slotIn x b
  let q := stripeOf s x { (default : Claim) with entry := v, block := b }
  let hs := q.handoffs.zipIdx.flatMap (fun h => [(q.madeSem x h.1 h.2).2, (q.takenSem x h.1 h.2).2])
  let used := hs ++ (x.claims.filter (fun c => c.block == b && (!c.done || haloHeld s x c))).map (·.sem)
  (((List.range 8).map (8 * k + ·)).find? (fun n => !used.contains n)).getD (8 * k)

/-- Reset the hand-off semaphores of a stripe's worker (R224). -/
def handoffReset (s : State) (x : Ctx) (q : Stripe) : State :=
  q.handoffs.zipIdx.foldl (fun s h =>
    let m := q.madeSem x h.1 h.2
    let t := q.takenSem x h.1 h.2
    semReset (semReset s m.1 m.2) t.1 t.2) s

/-- Record a claim of entry `v` by block `b`, with a fresh semaphore; an entry already claimed is a duplicate, unless claim
checking has stopped (R173, R222, R229). -/
def claimRecord (s : State) (cx b v : Nat) (x : Ctx) : State :=
  let sem := claimSem s x b v
  let dup := !x.noCheck && (x.claims.any (fun c => c.entry == v) || decide (v < x.prior))
  let s := s.updCtx cx (fun x => { x with
    claims := x.claims.filter (fun c => c.entry != v) ++ [{ (default : Claim) with entry := v, block := b, sem := sem }]
    duplicates := x.duplicates + (if dup then 1 else 0) })
  let s := mapCount (mapCount s x.part 0 1) x.part 1 (if dup then 1 else 0)
  handoffReset (semReset s b sem) (mget s.ctxs cx) (stripeOf s (mget s.ctxs cx) { (default : Claim) with entry := v, block := b })

/-- The work counter's value beyond the claim table's 4,096 entries: one log, and claim checking stops (R173). -/
def claimLimit (s : State) (cx v : Nat) (x : Ctx) : State :=
  if 4096 ≤ v && !x.noCheck then
    raiseLogOf (s.updCtx cx (fun x => { x with noCheck := true })) (uRg + x.region) x.part 0xFFFF
  else s

/-- Claim the next entry for the worker led from block `b`; past the list's end there is none. -/
def claimNext (s : State) (cx b : Nat) (x : Ctx) : State :=
  let v := x.work
  let s := s.updCtx cx (fun x => { x with work := (v + 1) % 2 ^ 32 })
  let s := claimLimit s cx v x
  if entryCount x ≤ v then s else claimRecord s cx b v (mget s.ctxs cx)

/-- A phase in spill mode is counted once, at the first claim (R215, R233). -/
def countSpills (s : State) (x : Ctx) : State :=
  let p := ctxPlan s x
  mapCount s x.part 6 (countIf (phasesOf p.g) (phaseSpills p x.blocks))

/-! ### Entries and phases that complete (R221, R402, R403) -/

/-- The last of a picture's stripes of a phase to commit: its worker goes on with the layers outside stacks (R221). -/
def noteTail (s : State) (cx v : Nat) : State :=
  let x := mget s.ctxs cx
  let n := max x.stripes 1
  let q := entryOf (max x.phases 1) n v
  let key := tailKey q.1 q.2.1
  if (mfind x.tails key).isNone && (List.range n).all (fun j => x.claims.any (fun c => c.entry == v / n * n + j && c.done)) then
    s.updCtx cx (fun x => { x with tails := mput x.tails key v })
  else s

/-- Mark the entries of a context that have committed: the ledger shows each stripe of a picture (R402, R403). -/
def markEntries (cx : Nat) : List Claim → State → State
  | [], s => s
  | c :: t, s =>
    let x := mget s.ctxs cx
    let q := stripeOf s x c
    let s :=
      if c.done || !q.over x then s
      else
        let s := s.updCtx cx (fun x => { x with claims := x.claims.map (fun d => if d.entry = c.entry then { d with done := true } else d) })
        let s := match q.fid with
          | none => s
          | some fid => ledgerWrite (s.updFrame fid (fun f => { f with slices := f.slices + 1 })) fid
        noteTail s cx c.entry
    markEntries cx t s

/-- The spill buffers of a context return when the phase that they belong to completes for its picture (R215). -/
def spillSettle (s : State) (cx : Nat) : State :=
  let x := mget s.ctxs cx
  let q := entryOf (max x.phases 1) (max x.stripes 1) (x.wave / 4096)
  if x.spillBufs.isEmpty || !phaseOver s x q.1 q.2.1 then s
  else (releaseAll 8 (x.spillBufs.map (·.2.1)) s).updCtx cx (fun x => { x with spillBufs := [] })

/-! ### The end of an invocation (R310) -/

/-- Outputs of a picture as FP32 codes (R100). -/
def exportOuts (s : State) (x : Ctx) (pf : Nat × Nat) : State :=
  let f := s.frame pf.2
  let e := ctxEnv s x pf.1 f
  let outs := (tensorsOfKind e.g 1).zipIdx
  let one (t : Nat) : List Nat := (List.range (e.hOf t * e.wOf t * e.cOf t)).map (fun i => f32Code (e.valIx t i))
  let s := s.updFrame pf.2 (fun f => { f with outs := outs.foldl (fun m o => mput m (x.model * 16 + o.2) (one o.1)) f.outs })
  if x.model = 2 then
    let d := mget (s.frame pf.2).outs 32
    s.updFrame pf.2 (fun f => { f with dets := (List.range 256).map (fun r =>
      ⟨d.getD (8 * r) 0, d.getD (8 * r + 1) 0, d.getD (8 * r + 2) 0, d.getD (8 * r + 3) 0, d.getD (8 * r + 4) 0,
       d.getD (8 * r + 5) 0⟩) })
  else s

/-- Operands of DSEARCH as FP32 codes, and the base tiles of the working picture that it searched, kept until the
search commits (R282, R286): output numbers 1 to 3 and 4 of model 4. -/
def exportSearch (s : State) (x : Ctx) (pf : Nat × Nat) : State :=
  let e := ctxEnv s x pf.1 (s.frame pf.2)
  match (gLayerList e.g).find? (fun l => lOp l = opDsearch) with
  | none => s
  | some l =>
    let one (t : Nat) : List Nat := (List.range (e.hOf t * e.wOf t * e.cOf t)).map (fun i => f32Code (e.valIx t i))
    s.updFrame pf.2 (fun f => { f with
      outs := mput (mput (mput (mput f.outs 65 (one (lIn l 1))) 66 (one (lIn l 2))) 67 (one (lIn l 3))) 68
        (mkeys (mget x.tens (picKey pf.1 0xFFFF))) })

/-- Derivations skipped for a picture whose tiles did not all commit (R194). -/
def countSkipped (s : State) (x : Ctx) (pf : Nat × Nat) : State :=
  let f := s.frame pf.2
  let e := ctxEnv s x pf.1 f
  qntCount s f.slot 5 (countIf (List.range (gLayers e.g)) (fun li =>
    lOut (gLayer e.g li) != 0xFFFF && rederivable (gTensor e.g (lOut (gLayer e.g li))) && !layerDone x e pf.1 li))

/-- One picture's share of an invocation's commit: its model bit, outputs and ledger entry; a picture with tiles that a
third failure left uncommitted is discarded before stage 0x6, or covered in part by its search (R394). -/
def commitPictures (x : Ctx) : List (Nat × Nat) → State → State
  | [], s => s
  | pf :: t, s =>
    let e := ctxEnv s x pf.1 (s.frame pf.2)
    let s :=
      if pictureDone x e pf.1 then
        let s := if x.model = 4 then exportSearch s x pf else exportOuts s x pf
        ledgerWrite (s.updFrame pf.2 (fun f => { f with models := f.models ||| 2 ^ x.model, slices := 0 })) pf.2
      else
        let s := countSkipped s x pf
        if x.model = 4 then
          let s := exportSearch s x pf
          ledgerWrite (s.updFrame pf.2 (fun f => { f with models := f.models ||| 16, slices := 0 })) pf.2
        else discardFrame s pf.2 6
    commitPictures x t s

/-- A command of the context is queued or running in a cell. -/
def ctxBusy (s : State) (cx : Nat) : Bool :=
  s.cells.any (fun p => p.2.queue.any (fun q => q.cmd.ctx == cx) || p.2.running.any (fun q => q.2.cmd.ctx == cx))

/-- An invocation has run to its end: every entry is claimed and complete, the layers outside stacks of every picture are,
and nothing of it is queued. -/
def ctxFinished (s : State) (cx : Nat) (x : Ctx) : Bool :=
  x.begun && decide (entryCount x ≤ x.work) && x.claims.all (·.done) &&
    (List.range batchSize).all (fun pic => (List.range x.phases).all (phaseOver s x pic)) && !ctxBusy s cx

/-- Commit an invocation that has run to its end (R310, R324). -/
def ctxSettle (s : State) (cx : Nat) : State :=
  match mfind s.ctxs cx with
  | none => s
  | some x =>
    if x.kind = 1 && ctxFinished s cx x then
      let s := commitPictures x (batchFrames s x.batch) s
      let s := setInv (dropCtx s cx) x.batch x.model 3
      let s := rgnCount s x.region x.part 2 0 1
      batchEnd s x.batch
    else s

/-! ### Counts of halo and hand-off rows (R222, R224, R230) -/

/-- Change the claim of an entry. -/
def Ctx.updClaim (x : Ctx) (v : Nat) (f : Claim → Claim) : Ctx :=
  { x with claims := x.claims.map (fun c => if c.entry = v then f c else c) }

/-- SIGNAL the halo rows of a stripe that have come into place; rows counted before are not counted again (R230). -/
def signalHalo (s : State) (cx : Nat) (q : Stripe) : State :=
  let n := q.haloReady (mget s.ctxs cx)
  if q.claim.halo < n then
    semSignal (s.updCtx cx (fun x => x.updClaim q.claim.entry (fun c => { c with halo := n }))) q.claim.block q.claim.sem
      (n - q.claim.halo)
  else s

/-- After its last halo read a stripe releases the stripe below (R222). -/
def releaseBelow (s : State) (cx : Nat) (q : Stripe) : State :=
  let x := mget s.ctxs cx
  if q.claim.freed || !q.haloRead x then s
  else
    let s := s.updCtx cx (fun x => x.updClaim q.claim.entry (fun c => { c with freed := true }))
    match q.below s x with
    | none => s
    | some d =>
      if 0 < d.haloTotal then
        semSignal (chargeSignal s (regionOfBlock q.claim.block) (regionOfBlock d.claim.block) x.part) d.claim.block d.claim.sem 1
      else s

/-- SIGNAL the rows of the hand-offs that have been produced, and those that have left the reach of their readers. -/
def signalHandoffs (cx : Nat) (q : Stripe) : List ((Nat × Nat) × Nat) → State → State
  | [], s => s
  | (h, i) :: t, s =>
    let x := mget s.ctxs cx
    let made := q.made x h
    let taken := min made (q.taken x h)
    let m := q.madeSem x h i
    let k := q.takenSem x h i
    let s := semSignal (if mget q.claim.made i < made then chargeSignal s (regionOfBlock k.1) (regionOfBlock m.1) x.part else s)
      m.1 m.2 (made - mget q.claim.made i)
    let s := semSignal (if mget q.claim.taken i < taken then chargeSignal s (regionOfBlock m.1) (regionOfBlock k.1) x.part else s)
      k.1 k.2 (taken - mget q.claim.taken i)
    signalHandoffs cx q t (s.updCtx cx (fun x => x.updClaim q.claim.entry (fun c => { c with
      made := mupd c.made i (max made), taken := mupd c.taken i (max taken) })))

/-- What the progress of an entry brings: its counts, the entries and phases that complete, and the end of the
invocation. -/
def entryProgress (s : State) (cx v : Nat) : State :=
  match mfind s.ctxs cx with
  | none => s
  | some x =>
    match claimOf x v with
    | none => ctxSettle s cx
    | some c =>
      let q := stripeOf s x c
      let s := signalHandoffs cx q q.handoffs.zipIdx (releaseBelow (signalHalo s cx q) cx q)
      let s := markEntries cx (mget s.ctxs cx).claims s
      ctxSettle (spillSettle s cx) cx

/-- A tile of a row group has committed, or has been given up. -/
def groupLess (row col ch : Nat) (g : RowGroup) : RowGroup :=
  { g with tiles := g.tiles.filter (fun t => !(t.row == row && t.col == col && t.ch == ch)) }

/-- Take a command's tile out of the row groups still under way. -/
def tileCommitted (s : State) (m : CellCmd) (b : Nat) : State :=
  s.updCtx m.ctx (fun x => { x with sweeps := mupd x.sweeps (sweepKey m.entry b) (fun w => { w with
    out := (w.out.map (fun g => if g.layer = m.layer then groupLess m.row m.col m.ch g else g)).filter (fun g => !g.tiles.isEmpty) }) })

/-! ### What a mapper core writes next (R213, R216, R225 to R228, R313) -/

/-- Unfenced cells of a block, in ascending number. -/
def cellsLeft (s : State) (b : Nat) : List Nat := (cellsOfBlock b).filter (fun c => !(s.cell c).fenced)

/-- Rows, columns and channels of a layer's output for a picture: its own, or the Instar's for padding. -/
def Stripe.extent (q : Stripe) (li : Nat) : Nat × Nat :=
  let l := gLayer q.p.g li
  let p : Plan := ⟨q.p.g, q.env.h, q.env.w⟩
  (p.outH l, p.outW l)

/-- A tile lies wholly beyond the picture's extent (R227). -/
def Stripe.beyond (q : Stripe) (li : Nat) (t : GridTile) : Bool :=
  decide ((q.extent li).1 ≤ t.row) || decide ((q.extent li).2 ≤ t.col)

/-- The context's work is recovery as a whole: a self-test, or a migration (R228, R230). -/
def ctxRecovers (x : Ctx) : Bool := x.kind = 3 || 0 < x.prior

/-- A new row group of a layer. -/
def Stripe.newGroup (s : State) (x : Ctx) (q : Stripe) (b li n : Nat) : RowGroup :=
  let l := gLayer q.p.g li
  let y := q.issued x li
  let cells := (cellsLeft s b).length
  ⟨li, y, n, cells, tileGrid q.p l y n cells, ctxRecovers x || (q.sweepOf x li).redo, false⟩

/-- Layers that a block's core visits for a stripe: those of its group, or the layers outside stacks that it runs. -/
def Stripe.visits (s : State) (cx : Nat) (x : Ctx) (q : Stripe) (b : Nat) : List Nat :=
  if q.claim.done then
    (if q.claim.block = b && tailRuns s cx x = some (q.pic, q.k) && mfind x.tails (tailKey q.pic q.k) = some q.claim.entry
      then q.ph.tail else [])
  else if (q.k = 0 || phaseOver s x q.pic (q.k - 1)) && !q.stalls s x then q.layersAt x b
  else []

/-- The row group that the core is writing, or writes next: with the place of its layer among those visited. One that is to
be issued again comes first; then the layers are visited in record order from the place reached, one row group each. -/
def Stripe.nextGroup (s : State) (cx : Nat) (x : Ctx) (q : Stripe) (b : Nat) : Option (Nat × RowGroup) :=
  let w := mget x.sweeps (sweepKey q.claim.entry b)
  let ls := q.visits s cx x b
  match w.open_ with
  | some g => some (w.pos, g)
  | none =>
    match w.out.find? (·.again) with
    | some g => some (w.pos, { g with again := false, recov := true })
    | none =>
      ((List.range ls.length).map (fun i => (w.pos + i) % ls.length)).findSome? (fun i =>
        let li := ls.getD i 0
        (q.fitRows s x li).map (fun n => ((i + 1) % ls.length, q.newGroup s x b li n)))

/-- Tiles of a row group that are skipped: recovery work wholly beyond the picture's extent (R228). -/
def Stripe.skips (q : Stripe) (g : RowGroup) : List GridTile := if g.recov then g.tiles.filter (q.beyond g.layer) else []

/-- What a block's core writes next for a context: the stripe, the place among its layers, the row group whose commands are
written, and those of its tiles that are issued. -/
structure Turn where
  q : Stripe
  pos : Nat
  group : RowGroup
  tiles : List GridTile

/-- The stripe's turn in a block. -/
def Stripe.turn (s : State) (cx : Nat) (x : Ctx) (b : Nat) (q : Stripe) : Option Turn :=
  (q.nextGroup s cx x b).map (fun g => ⟨q, g.1, g.2, g.2.tiles.filter (fun t => !(q.skips g.2).contains t)⟩)

/-- The turn of a context in a block: its stripes in the order of their entries. -/
def ctxTurn (s : State) (cx b : Nat) : Option Turn :=
  match mfind s.ctxs cx with
  | none => none
  | some x =>
    if x.kind = 1 && (ctxBlocks x).contains b then
      (claimsInOrder x).findSome? (fun c => (stripeOf s x c).turn s cx x b)
    else none

/-- Number of the next command of the turn's first tile. -/
def Turn.cmd (t : Turn) (x : Ctx) (b : Nat) : Nat :=
  let w := mget x.sweeps (sweepKey t.q.claim.entry b)
  if w.open_.isSome then w.next else 0

/-- The cell that takes a tile: the j mod n-th unfenced one (R226). -/
def tileCell (s : State) (b : Nat) (t : GridTile) : Option Nat :=
  let cs := cellsLeft s b
  cs[t.j % max cs.length 1]?

/-- The command that is written next, and its cell; the ranges that it reads and writes are the core's choice. -/
def Turn.next (s : State) (cx b : Nat) (t : Turn) : Option (Nat × CellCmd) :=
  match t.tiles with
  | [] => none
  | a :: _ =>
    let l := gLayer t.q.p.g t.group.layer
    let n := tileCmds t.q.p l t.group.rows t.group.cells
    let k := t.cmd (mget s.ctxs cx) b
    (tileCell s b a).map (fun c => (c,
      { unit := if onArray l then 0 else 1, ctx := cx, entry := t.q.claim.entry, layer := t.group.layer, picture := t.q.pic
        ch := a.ch, chN := a.chN, row := a.row, rowN := a.rowN, col := a.col, colN := a.colN
        cycles := cmdCycles t.q.p l t.group.rows t.group.cells k, pair := cmdPair t.q.p l n k
        reads := [], writes := [], dft := freqConv l, last := decide (k + 1 = n) }))

/-- The sweep after a command of the turn has been written: past it, past the tile, past the row group. -/
def Turn.advance (t : Turn) (w : Sweep) (k : Nat) : Sweep :=
  let l := gLayer t.q.p.g t.group.layer
  let g := t.group
  let fresh := w.open_.isNone
  let known := w.out.any (fun o => o.layer == g.layer && o.row == g.row)
  let kept : RowGroup := { g with tiles := t.tiles }
  let w := if !fresh then w
    else if known then { w with out := w.out.map (fun o => if o.layer = g.layer && o.row = g.row then kept else o) }
    else { w with pos := t.pos, out := w.out ++ [kept], rows := mput w.rows g.layer (g.row + g.rows) }
  if k + 1 < tileCmds t.q.p l g.rows g.cells then { w with open_ := some kept, next := k + 1 }
  else
    match t.tiles.tail with
    | [] => { w with open_ := none, next := 0 }
    | r => { w with open_ := some { kept with tiles := r }, next := 0 }

/-- A row group of which every tile is skipped needs no command (R228). -/
def Turn.pass (t : Turn) (w : Sweep) : Sweep :=
  let g := t.group
  { w with pos := t.pos, rows := mupd w.rows g.layer (max (g.row + g.rows))
           out := w.out.filter (fun o => !(o.layer == g.layer && o.row == g.row)) }

end Sys2Proof.Machine
end

