-- ==== Sys2Proof/Machine/Sram.lean ====
section
/-! DEFINITION. On-chip memory (R155, R159, R161, R172, R175, R429, R430): cell buffers, line stores and region stores, and
what the commands of a cell read and write there. -/

set_option Elab.async false

namespace Sys2Proof.Machine

/-! ### Layout (R429, R430) -/

/-- First address of the on-chip units; a byte of `State.sram` is keyed by its distance from here. -/
def sramBase : Nat := 0xF00000000000

/-- Region store of a region, and its parts: weight shadow and context staging. -/
def regionStore (r : Nat) : Nat := 0xF00000000000 + r * 0x800000
def shadowArea (r : Nat) : Nat := regionStore r + 0x600000
def stagingArea (r : Nat) : Nat := regionStore r + 0x700000

/-- Line store of a block, and its halo area. -/
def lineStore (b : Nat) : Nat := 0xF00100000000 + b * 0x400000
def lineHalo (b : Nat) : Nat := lineStore b + 0x380000

/-- SRAM of a cell: weight buffer, partial-sum buffer and its column banks, operand buffer. -/
def cellSram (c : Nat) : Nat := 0xF00200000000 + c * 0x40000
def weightBuffer (c : Nat) : Nat := cellSram c
def columnBank (c k : Nat) : Nat := cellSram c + 0x20000 + k * 0x800
def operandBuffer (c : Nat) : Nat := cellSram c + 0x30000

/-- What an on-chip byte that nothing has written reads as; a wake zeroes all of them (R358)
(a detail DESIGN CHOICE, log 4). -/
def sramUnwritten : Byte := 0

/-- Read bytes of on-chip memory (a detail DESIGN CHOICE, log 4). -/
def sramRead (s : State) (a n : Nat) : Bytes := cellReadBytes sramUnwritten s.sram (a - sramBase) n

/-- Write bytes of on-chip memory. -/
def sramWrite (s : State) (a : Nat) (d : Bytes) : State := { s with sram := cellWriteBytes sramUnwritten s.sram (a - sramBase) d }

/-- Zero bytes of on-chip memory. -/
def sramZero (s : State) (a n : Nat) : State := { s with sram := cellClear s.sram (a - sramBase) n }

/-- Every buffer of a block and of its cells reads zero. -/
def blockZero (s : State) (b : Nat) : State :=
  (cellsOfBlock b).foldl (fun s c => sramZero s (cellSram c) 0x40000) (sramZero s (lineStore b) 0x400000)

/-- A wake writes zero to every cell buffer, line store and region store of its region (R358). -/
def regionZero (s : State) (r : Nat) : State := (blocksOfRegion r).foldl blockZero (sramZero s (regionStore r) 0x800000)

/-! ### Ranges of a command (R161, R175, R431) -/

/-- A range lies in the `n` bytes from `a`. -/
def Range.within (r : Range) (a n : Nat) : Bool := decide (a ≤ r.addr) && decide (r.addr + r.len ≤ a + n)

/-- A range lies in an on-chip unit that a command of cell `c` works on: its cell's buffers, its block's line store, and for
a mover command every line store of its region and the region store. -/
def Range.own (r : Range) (c unit : Nat) : Bool :=
  let g := regionOfCell c
  r.within (cellSram c) 0x40000 || r.within (lineStore (blockOfCell c)) 0x400000 ||
    (unit == 2 && ((blocksOfRegion g).any (fun b => r.within (lineStore b) 0x400000) || r.within (regionStore g) 0x800000))

/-- A mover reads DRAM, and halo rows of other regions. -/
def Range.readable (r : Range) (c unit : Nat) : Bool :=
  r.own c unit || (unit == 2 && (decide (r.addr + r.len ≤ 0xC00000000) ||
    (List.range 32).any (fun b => r.within (lineHalo b) 0x80000)))

/-- A mover writes DRAM only in the buffers that its context spills to (R215). -/
def Range.writable (s : State) (x : Ctx) (r : Range) (c unit : Nat) : Bool :=
  r.own c unit || (unit == 2 && x.spillBufs.any (fun b => match poolOfAddr s.run b.2.1 with
    | none => false
    | some k => !b.2.2 && r.within b.2.1 (poSize (cfgPool s.run k))))

/-- An address that a unit of the map does not serve, or a DRAM stack not in service (R429). -/
def addressUnassigned (s : State) (a : Nat) : Bool :=
  if a < 0x000C00000000 then decide (dramBytes s ≤ a)
  else !(decide (0xF00000000000 ≤ a ∧ a < 0xF00004000000) || decide (0xF00100000000 ≤ a ∧ a < 0xF00108000000) ||
    decide (0xF00200000000 ≤ a ∧ a < 0xF00204000000))

/-- A mapper core names only its own region's units; what no unit serves arises from a fault and is answered when the command
starts (R431) (a detail DEDUCED, log 38). -/
def cmdRangesOk (s : State) (x : Ctx) (c : Nat) (m : CellCmd) : Bool :=
  m.reads.all (fun r => addressUnassigned s r.addr || r.readable c m.unit) &&
    m.writes.all (fun r => addressUnassigned s r.addr || r.writable s x c m.unit)

/-- Bytes of a list of ranges. -/
def rangeBytes (l : List Range) : Nat := sumNat (l.map (·.len))

/-! ### Bytes moved -/

/-- Read device-internal addresses: DRAM, or on-chip memory. -/
def busRead (s : State) (a n : Nat) : Bytes := if a < sramBase then dramRead s a (saltOf s a) n else sramRead s a n

/-- Write device-internal addresses. -/
def busWrite (s : State) (a : Nat) (d : Bytes) : State := if a < sramBase then dramWrite s a (saltOf s a) d else sramWrite s a d

/-- Bytes of ranges, in order. -/
def rangesRead (s : State) (l : List Range) : Bytes := l.flatMap (fun r => busRead s r.addr r.len)

/-- Put bytes into ranges, in order. -/
def rangesWrite : List Range → Bytes → State → State
  | [], _, s => s
  | r :: t, d, s => rangesWrite t (d.drop r.len) (busWrite s r.addr (d.take r.len))

/-- Bytes that no rule gives (log 5). -/
def freeData (s : State) (n : Nat) : Bytes := (List.range n).map (fun i => (Config.freeValue (s.freeIx + i)).setWidth 8)

/-- Ranges take bytes that no rule gives: partial sums, whose places in the banks are the core's choice, results of a
command that does not end its tile, and what an aborted command has written (R155, R159, R164)
(a detail DEDUCED, log 38). -/
def rangesFree (l : List Range) (s : State) : State :=
  let n := rangeBytes l
  rangesWrite l (freeData s n) { s with freeIx := s.freeIx + n }

/-- Codes of the elements of a command's tile that lie in the picture, channel fastest, then column, then row. -/
def tileCodes (q : Stripe) (m : CellCmd) : List Nat :=
  let t := lOut (gLayer q.p.g m.layer)
  let h := q.env.hOf t
  let w := q.env.wOf t
  let c := q.env.cOf t
  (List.range (min m.rowN (h - m.row))).flatMap (fun y => (List.range (min m.colN (w - m.col))).flatMap (fun i =>
    (List.range (min m.chN (c - m.ch))).map (fun k => q.env.code t (((m.row + y) * w + m.col + i) * c + m.ch + k))))

/-- A command that ends its tile leaves the tile's codes in the ranges that it writes; of tiles of DSEARCH no tensor holds
them. -/
def writeTile (s : State) (m : CellCmd) : State :=
  match mfind s.ctxs m.ctx with
  | none => rangesFree m.writes s
  | some x =>
    match claimOf x m.entry with
    | none => rangesFree m.writes s
    | some c =>
      let q := stripeOf s x c
      let t := lOut (gLayer q.p.g m.layer)
      if t = 0xFFFF then rangesFree m.writes s else rangesWrite m.writes (packCodes (q.p.bits t) (tileCodes q m)) s

/-- What a completed command leaves in memory: a move, a tile, or values inside the tile's computation
(a detail DEDUCED, log 38). -/
def cmdStores (s : State) (m : CellCmd) : State :=
  if m.unit = 2 then rangesWrite m.writes (rangesRead s m.reads) s
  else if m.last then writeTile s m
  else rangesFree m.writes s

/-! ### Weight planes (R155) -/

/-- Planes that an array command reads from its cell's weight buffer, in order: 1,024 bytes each. -/
def cmdPlanes (s : State) (c : Nat) (m : CellCmd) : List Bytes :=
  let d := rangesRead s (m.reads.filter (fun r => r.within (weightBuffer c) 0x20000))
  (List.range (ceilDiv d.length 1024)).map (fun i => padTo 1024 (slice d (1024 * i) 1024))

/-- An array command starts: its first plane is loaded, and the next one after it. -/
def planesStart (s : State) (c : Nat) (m : CellCmd) : State :=
  match cmdPlanes s c m with
  | [] => s
  | a :: t => s.updCell c (fun x => { x with plane := a, planeNext := t.headD x.planeNext })

/-- It ends: the planes have swapped at each of its planes, so that the last one is in use and the one before it stands in
the other. -/
def planesEnd (s : State) (c : Nat) (m : CellCmd) : State :=
  match (cmdPlanes s c m).reverse with
  | a :: b :: _ => s.updCell c (fun x => { x with plane := a, planeNext := b })
  | _ => s

/-! ### Region store (R175) -/

/-- Weight bytes of a layer, as DRAM holds them. -/
def layerPlanes (s : State) (x : Ctx) (li : Nat) : Bytes :=
  let g := ctxGraph s x
  match mfind (ctxCfg s x).placed x.graph with
  | none => []
  | some base => ((lInputs (gLayer g li)).filter (fun t => t != 0xFFFF && tKind (gTensor g t) == 2)).flatMap (fun t =>
      let i := tBlob (gTensor g t)
      dramRead s (blobAddr g base i) 0 (min 0x100000 (blLength (gBlob g i))))

/-- Planes enter the weight shadow. -/
def shadowFill (s : State) (r : Nat) (d : Bytes) : State := sramWrite s (shadowArea r) (d.take 0x100000)

/-- A body passes through context staging, 1 MiB at a time; `n` bounds the pieces. -/
def stageBody (r : Nat) : Nat → Bytes → State → State
  | 0, _, s => s
  | n + 1, d, s => if d.isEmpty then s else stageBody r n (d.drop 0x100000) (sramWrite s (stagingArea r) (d.take 0x100000))

end Sys2Proof.Machine
end

