-- ==== Sys2Proof/Machine/Fabric.lean ====
section
/-! DEFINITION. Blocks and cells at work (R159 to R171, R215, R225 to R231, R306, R312 to R316, R359, R360): stripe claims,
cell queues, issue, tokens, completion, credit, prefetch and spill waves. -/

set_option Elab.async false

namespace Sys2Proof.Machine

/-! ### Claims (R221, R222, R229) -/

/-- STRIPE_CLAIM (R221, R222, R229): the mapper core of the block that leads a worker claims the next entry, unless the
batch is held. -/
def execStripeClaim (ctx block : Nat) (s : State) : Host.Outcome State Fault Refusal :=
  match mfind s.ctxs ctx with
  | none => done s
  | some x =>
    if x.kind = 1 && (ctxBlocks x).contains block && blockUsable s block && mayClaim s x block x.work then
      let k := if x.begun then 0 else holdKind s x
      if k ≠ 0 then done (noteHold s ctx x k)
      else
        let s := if x.begun then s else countSpills s x
        let s := beginCtx s ctx x
        done (entryProgress (claimNext s ctx block (mget s.ctxs ctx)) ctx x.work)
    else done s

/-! ### Cell queues (R161, R226, R228, R312, R313) -/

/-- Entries of a cell queue, and those that best-effort commands may hold. -/
def queueLen : Nat := 16
def queueBest : Nat := 12

/-- Effective class of a command in its cell is latency-critical. -/
def cmdCritical (s : State) (c : Nat) (m : CellCmd) : Bool := ctxCritical s (regionOfCell c) (mget s.ctxs m.ctx)

/-- Best-effort commands in a cell's queue. -/
def bestQueued (s : State) (c : Nat) : Nat := countIf (s.cell c).queue (fun q => !cmdCritical s c q.cmd)

/-- A cell's queue has an entry for a command (R313). -/
def queueRoom (s : State) (c : Nat) (m : CellCmd) : Bool :=
  decide ((s.cell c).queue.length < queueLen) && (cmdCritical s c m || decide (bestQueued s c < queueBest))

/-- Most bytes that a mover command moves (R312). -/
def moverMax : Nat := 24576

/-- A command within the bounds of its unit: array and vector commands issue for at most 384 region cycles, a mover command
moves at most 24,576 bytes at 64 bytes per region cycle, and as many as it reads (R161, R312). -/
def cmdBounded (m : CellCmd) : Bool :=
  if m.unit = 2 then
    decide (rangeBytes m.writes ≤ moverMax) && decide (rangeBytes m.reads = rangeBytes m.writes) &&
      decide (m.cycles = ceilDiv (rangeBytes m.writes) 64)
  else decide (m.cycles ≤ cmdMax)

/-- WAITs of a command that its semaphores' counts do not satisfy yet. -/
def openWaits (s : State) (l : List SemRef) : List SemRef :=
  l.filter (fun w => decide ((mget (s.block w.block).sems w.sem).count < w.n))

/-- WAITs that a command of an invocation carries (R222, R224). -/
def cmdWaits (s : State) (x : Ctx) (m : CellCmd) : List SemRef :=
  match claimOf x m.entry with
  | none => []
  | some c => (stripeOf s x c).waits s x m.layer m.row m.rowN

/-- Put a command into a cell's queue, and its WAITs to the semaphores that they name (R172, R173). -/
def queuePut (s : State) (c : Nat) (m : CellCmd) : State :=
  let ws := openWaits s (cmdWaits s (mget s.ctxs m.ctx) m)
  let s := s.updCell c (fun x => { x with queue := x.queue ++ [⟨m, false, x.seq, ws, 0⟩], seq := x.seq + 1 })
  let s := s.updBlock (blockOfCell c) (fun x => { x with lastWrite := s.now + 1 })
  ws.foldl (fun s w => semWait s w.block w.sem c w.n) s

/-- Change a sweep of a context. -/
def updSweep (s : State) (cx entry b : Nat) (f : Sweep → Sweep) : State :=
  s.updCtx cx (fun x => { x with sweeps := mupd x.sweeps (sweepKey entry b) f })

/-- Row groups of which every tile is skipped are passed over (R228); `fuel` bounds how many. -/
def passSkipped (cx b : Nat) : Nat → State → State
  | 0, s => s
  | fuel + 1, s =>
    match ctxTurn s cx b with
    | none => s
    | some t =>
      if t.tiles.isEmpty then
        let s := mapCount s (mget s.ctxs cx).part 3 t.group.tiles.length
        passSkipped cx b fuel (entryProgress (updSweep s cx t.q.claim.entry b t.pass) cx t.q.claim.entry)
      else s

/-- Row groups of one invocation are far fewer than this. -/
def passFuel : Nat := 65536

/-- Latency-critical contexts of a block are served first (R313): another one has a command that could be written. -/
def servedFirst (s : State) (cx b : Nat) : Bool :=
  let r := regionOfBlock b
  !ctxCritical s r (mget s.ctxs cx) && (blockCtxs s b).any (fun o => o != cx && ctxCritical s r (mget s.ctxs o) &&
    (match ctxTurn s o b with
    | none => false
    | some t => (t.next s o b).any (fun m => queueRoom s m.1 m.2)))

/-- A producer that waits for its halo area is counted once for the stripe (R222, R233). -/
def noteStalls (cx b : Nat) : List Claim → State → State
  | [], s => s
  | c :: t, s =>
    let x := mget s.ctxs cx
    let q := stripeOf s x c
    noteStalls cx b t (if !c.done && !c.stalled && q.workerBlocks.contains b && q.stalls s x then
      mapCount (s.updCtx cx (fun x => x.updClaim c.entry (fun c => { c with stalled := true }))) x.part 4 1 else s)

/-- A command beside those that end in the tile: moves of rows and planes, conversions, and the array commands of an
adapter's target, for a layer that the block visits in an entry under way (R161, R269, R312)
(a detail DEDUCED, log 38). -/
def sideCmd (s : State) (x : Ctx) (b : Nat) (m : CellCmd) : Bool :=
  match claimOf x m.entry with
  | none => false
  | some c =>
    let q := stripeOf s x c
    !m.last && !m.dft && m.picture == q.pic && q.workerBlocks.contains b &&
      (if c.done then q.ph.tail.contains m.layer else (q.layersAt x b).contains m.layer) &&
      (m.unit != 0 || (m.pair == (9, 9) && (targetOrdinal q.p.g m.layer).isSome))

/-- The command with the ranges left out, which its core chooses. -/
def cmdShape (m : CellCmd) : CellCmd := { m with reads := [], writes := [] }

/-- The slice of a context ends, and with it an inherited class; the WAITs still held on its semaphores raise it again
(R317) (a detail DEDUCED, log 37). -/
def sliceEnd (s : State) (cx : Nat) : State :=
  if (mget s.ctxs cx).inherited then
    let s := s.updCtx cx (fun x => { x with inherited := false })
    s.blocks.foldl (fun s b => b.2.sems.foldl (fun s n =>
      if semOwner s b.1 n.1 = some cx then n.2.waiters.foldl (fun s w => inherit s b.1 n.1 w.1) s else s) s) s
  else s

/-- A mapper core writes a command of an invocation: the one that is next under R216 and R225 to R228, for the cell that
R226 gives it, or one beside it (a detail DEDUCED, log 38). -/
def writeNext (s : State) (cx c : Nat) (m : CellCmd) : State :=
  let b := blockOfCell c
  let s := passSkipped cx b passFuel (noteStalls cx b (mget s.ctxs cx).claims s)
  match mfind s.ctxs cx with
  | none => s
  | some x =>
    match ctxTurn s cx b with
    | none => if sideCmd s x b m then queuePut s c m else s
    | some t =>
      if t.next s cx b = some (c, cmdShape m) then
        let k := t.cmd x b
        let w := mget x.sweeps (sweepKey t.q.claim.entry b)
        let fresh := w.open_.isNone
        let s := if fresh && !w.out.any (·.again) && decide (t.pos ≤ w.pos) then sliceEnd s cx else s
        let s := if fresh then mapCount s x.part 3 (t.group.tiles.length - t.tiles.length) else s
        queuePut (updSweep s cx t.q.claim.entry b (fun w => t.advance w k)) c m
      else if sideCmd s x b m then queuePut s c m else s

/-- A mapper core writes a command into a cell queue (R161, R312, R313); the self-test job writes into the cells that it tests
(R29, R395). -/
def queueWrite (s : State) (c : Nat) (m : CellCmd) : State :=
  match mfind s.ctxs m.ctx with
  | none => s
  | some x =>
    let b := blockOfCell c
    if (ctxBlocks x).contains b && queueRoom s c m && cmdBounded m && cmdRangesOk s x c m && !servedFirst s m.ctx b then
      if x.kind = 3 then (if (s.cell c).fenced || s.scu.phase = 7 then queuePut s c m else s)
      else if (s.cell c).fenced || !blockUsable s b then s
      else if x.kind = 1 then writeNext s m.ctx c m else queuePut s c m
    else s

/-- COMMAND_WRITE (R161, R226, R312, R313) (a detail DEDUCED, log 38). -/
def execCommandWrite (cell : Nat) (cmd : CellCmd) (s : State) : Host.Outcome State Fault Refusal := done (queueWrite s cell cmd)

/-! ### Issue (R161, R313, R316) -/

/-- Two ranges meet at a granularity of 64 bytes. -/
def rangesMeet (a b : Range) : Bool :=
  a.len != 0 && b.len != 0 && decide (a.addr / 64 ≤ (b.addr + b.len - 1) / 64) && decide (b.addr / 64 ≤ (a.addr + a.len - 1) / 64)

def anyMeet (a b : List Range) : Bool := a.any (fun x => b.any (rangesMeet x))

/-- An older command has an access that conflicts with a newer one. -/
def conflicts (old new : CellCmd) : Bool := anyMeet old.writes (new.reads ++ new.writes) || anyMeet old.reads new.writes

/-- Commands of a cell that are older than `q`. -/
def olderThan (c : Cell) (q : QCmd) : List QCmd := (c.queue ++ c.running.map (·.2)).filter (fun o => o.seq < q.seq)

/-- An operand pair at the INT8 rate or above (R162). -/
def fastPair (p : Nat × Nat) : Bool :=
  ((p.1 = 2 || p.1 = 3) && (p.2 = 1 || p.2 = 2)) || ((p.1 = 6 || p.1 = 7) && (p.2 = 6 || p.2 = 7)) || (p.1 = 1 && p.2 = 1)

/-- The command needs an energy token (R162, R359). -/
def needsToken (m : CellCmd) : Bool := m.unit = 0 && (m.dft || fastPair m.pair)

/-- Tokens of the grant that are free. -/
def freeTokens (r : Region) : Nat := r.grant - r.held

/-- Overdraw is enabled (R360, R365, R366). -/
def overdrawOn (s : State) : Bool := !pwrbrk s && !therm s

/-- How a command would take its token: none, of the grant, or overdrawn (R360). -/
inductive TokenGot where
  | refused
  | granted
  | overdrawn
  deriving DecidableEq, Repr

def tokenFor (s : State) (r : Nat) (critical : Bool) : TokenGot :=
  let x := s.region r
  if critical then
    if 0 < freeTokens x then .granted
    else if overdrawOn s && decide (x.overdraw < 32) then .overdrawn else .refused
  else if 2 < freeTokens x then .granted else .refused

/-- The inputs of a command of an invocation are present (R313). -/
def cmdInputs (s : State) (m : CellCmd) : Bool :=
  match mfind s.ctxs m.ctx with
  | none => true
  | some x =>
    match claimOf x m.entry with
    | none => true
    | some c => x.kind != 1 || (stripeOf s x c).inputsPresent s x m.layer m.row m.rowN

/-- A command is eligible but for its token: no WAIT is open, its inputs are present, and no older command of the cell
conflicts with it. -/
def readyToIssue (s : State) (c : Nat) (q : QCmd) : Bool :=
  q.waits.isEmpty && cmdInputs s q.cmd && !(olderThan (s.cell c) q).any (fun o => conflicts o.cmd q.cmd)

/-- A command is eligible (R313). -/
def eligible (s : State) (c : Nat) (q : QCmd) : Bool :=
  readyToIssue s c q && (!needsToken q.cmd || tokenFor s (regionOfCell c) (cmdCritical s c q.cmd) != .refused)

/-- The command that an idle issue unit starts: the oldest eligible one of the higher effective class (R313). -/
def nextIssue (s : State) (c u : Nat) : Option QCmd :=
  let l := (s.cell c).queue.filter (fun q => q.cmd.unit == u && eligible s c q)
  match l.find? (fun q => cmdCritical s c q.cmd) with
  | some q => some q
  | none => l.head?

/-- Jobs passed over by the start of `q`: of lower effective class, with an older eligible command in the cell (R316). -/
def passedOver (s : State) (c : Nat) (q : QCmd) : List Nat :=
  if cmdCritical s c q.cmd then
    (((s.cell c).queue.filter (fun o => o.seq < q.seq && o.cmd.ctx != q.cmd.ctx &&
      !cmdCritical s c o.cmd && eligible s c o)).map (·.cmd.ctx)).eraseDups
  else []

/-- Take the token of a command that needs one. -/
def takeToken (s : State) (c : Nat) (m : CellCmd) : State :=
  if needsToken m then
    let r := regionOfCell c
    match tokenFor s r (cmdCritical s c m) with
    | .overdrawn => s.updRegion r (fun x => { x with held := x.held + 1, overdraw := x.overdraw + 1 })
    | _ => s.updRegion r (fun x => { x with held := x.held + 1 })
  else s

/-- The tile of a command lies wholly beyond the picture's extent (R227). -/
def cmdBeyond (s : State) (x : Ctx) (m : CellCmd) : Bool :=
  match claimOf x m.entry with
  | none => false
  | some c =>
    let e := (stripeOf s x c).extent m.layer
    decide (e.1 ≤ m.row) || decide (e.2 ≤ m.col)

/-- Counts of a started command: issue cycles at the point in force, a fully masked tile, and the planes of the shadow
that it reads (R227, R231, R324). -/
def countIssue (s : State) (c : Nat) (m : CellCmd) : State :=
  match mfind s.ctxs m.ctx with
  | none => s
  | some x =>
    if x.kind = 3 then s else
    let r := regionOfCell c
    let vp := (s.region r).vp
    let s := if m.unit = 0 then rgnCount s r x.part 5 vp m.cycles
      else if m.unit = 1 then rgnCount s r x.part 6 vp m.cycles else s
    let s := if m.last && cmdBeyond s x m then mapCount s x.part 2 1 else s
    s.updRegion r (fun y => { y with shadow := y.shadow.filter (· != (m.ctx, m.layer)) })

/-- Region cycles within which a latency-critical command starts (R314). -/
def dispatchBound : Nat := 428

/-- Start a command on its unit (a detail DEDUCED, log 38). -/
def startCmd (s : State) (c : Nat) (q : QCmd) : State :=
  let s := (passedOver s c q).foldl (fun s cx => rgnCount s (regionOfCell c) (mget s.ctxs cx).part 7 0 1) s
  let s := if dispatchBound < q.waited then rgnCount s (regionOfCell c) (mget s.ctxs q.cmd.ctx).part 13 0 1 else s
  let tok := needsToken q.cmd
  let s := takeToken s c q.cmd
  let s := s.updCell c (fun x => { x with
    queue := x.queue.filter (fun o => o.seq != q.seq), running := mput x.running q.cmd.unit { q with token := tok } })
  countIssue (if q.cmd.unit = 0 then planesStart s c q.cmd else s) c q.cmd

/-! ### Completion (R188, R245, R315) -/

/-- A command leaves its unit, and its token returns. -/
def endRunning (s : State) (c u : Nat) (q : QCmd) : State :=
  let s := s.updCell c (fun x => { x with running := mdel x.running u })
  if q.token then s.updRegion (regionOfCell c) (fun r => { r with held := r.held - 1 }) else s

/-- A running command is aborted: what it has written of its results is anything (R164). -/
def abortCmd (s : State) (c u : Nat) (q : QCmd) : State := rangesFree q.cmd.writes (endRunning s c u q)

/-- What the end of a command brings: with a tile's last command, the commit of the tile, and what that completes; and the
bytes that it leaves in memory. -/
def finishCmd (s : State) (c : Nat) (m : CellCmd) : State :=
  let s := if m.unit = 0 then planesEnd s c m else s
  if m.last && (mget s.ctxs m.ctx).kind = 1 then
    entryProgress (tileCommitted (cmdStores (commitTile s m.ctx m) m) m (blockOfCell c)) m.ctx m.entry
  else ctxSettle (cmdStores s m) m.ctx

/-- COMMAND_COMPLETE (R188, R245, R315). -/
def execCommandComplete (cell unit : Nat) (s : State) : Host.Outcome State Fault Refusal :=
  match mfind (s.cell cell).running unit with
  | none => done s
  | some q => done (finishCmd (endRunning s cell unit q) cell q.cmd)

/-! ### Array credit (R306) -/

/-- The bound on a credit, in 1/1,024 cell-cycle. -/
def creditMax : Int := 67108864 * 1024

/-- Sum of array weights of all partitions. -/
def weightSum (s : State) : Nat := sumNat (s.run.partitions.map peArrayW)

/-- What a region cycle adds to a partition's credit. -/
def creditRefill (s : State) (p : Bytes) : Int := (32 * 1024 * peArrayW p / weightSum s : Nat)

/-- One region cycle of a partition's credit: the refill first, then a charge for each of its cells that issues. -/
def creditStep (s : State) (issuing : List Nat) (m : Map Int) (p : Bytes) : Map Int :=
  let v := clampInt (-creditMax) creditMax (mget m (peId p) + creditRefill s p)
  mput m (peId p) (clampInt (-creditMax) creditMax (v - 1024 * (countIf issuing (· == peId p) : Nat)))

/-- Partitions whose array commands issue in the cells of a region, one entry for each cell. -/
def issuingParts (s : State) (r : Nat) : List Nat :=
  (s.cells.filter (fun c => regionOfCell c.1 == r)).filterMap (fun c => (mfind c.2.running 0).map (fun q => (mget s.ctxs q.cmd.ctx).part))

/-- ARRAY_CREDIT_REFILL (R306): one region cycle; a pinned partition's region keeps no credit. The cells themselves tell which
commands issue, so what the command reports of them adds nothing. -/
def execArrayCreditRefill (region : Nat) (_issuing : List Nat) (s : State) : Host.Outcome State Fault Refusal :=
  if regionOwned s region || !(s.region region).awake then done s
  else done (s.updRegion region (fun r => { r with credit := s.run.partitions.foldl (creditStep s (issuingParts s region)) r.credit }))

/-! ### Prefetch and spill waves (R215, R231) -/

/-- A layer of the context runs in a block, and `layer` is the next in record order (R231). -/
def prefetchNext (s : State) (cx layer : Nat) (x : Ctx) : Bool :=
  let n := gLayers (ctxGraph s x)
  s.cells.any (fun c => c.2.running.any (fun q => q.2.cmd.ctx == cx && (q.2.cmd.layer + 1) % max n 1 == layer))

/-- WEIGHT_PREFETCH (R231): planes of the layer after one that runs enter the weight shadow; planes of the context that no
command has read were mispredicted, and are discarded. -/
def execWeightPrefetch (ctx layer : Nat) (s : State) : Host.Outcome State Fault Refusal :=
  match mfind s.ctxs ctx with
  | none => done s
  | some x =>
    if x.slots.isEmpty || !prefetchNext s ctx layer x then done s
    else
      let old := (s.region x.region).shadow.filter (fun q => q.1 == ctx && q.2 != layer)
      let s := mapCount s x.part 5 old.length
      let s := shadowFill s x.region (layerPlanes s x layer)
      done (s.updRegion x.region (fun r => { r with shadow := r.shadow.filter (fun q => q.1 != ctx) ++ [(ctx, layer)] }))

/-- Tensors that a wave of a stripe produces and a later wave reads. -/
def Stripe.waveOuts (q : Stripe) (k : Nat) : List Nat :=
  let ls := phaseLayers q.p.g q.ph
  ((ls.filter (fun i => q.waveOf (q.layerGroup i) == k)).map (fun i => lOut (gLayer q.p.g i))).filter (fun t =>
    t != 0xFFFF && ls.any (fun i => decide (k < q.waveOf (q.layerGroup i)) && (lInputs (gLayer q.p.g i)).contains t))

/-- DRAM buffers of the device reserve for the tensors that a wave spills (R215); none where one of them has no buffer. -/
def spillTake (p : Plan) (cx : Nat) : List Nat → State → Option State
  | [], s => some s
  | t :: l, s =>
    match smallestPool s.run (tensorBytes p t) with
    | none => none
    | some k =>
      match bpmAlloc s 8 k with
      | (none, _) => none
      | (some a, s) => spillTake p cx l (s.updCtx cx (fun x => { x with spillBufs := x.spillBufs ++ [(t, a, false)] }))

/-- A spilled tensor is written whole to its buffer. -/
def spillWrite (q : Stripe) (s : State) (t a : Nat) : State :=
  let n := q.env.hOf t * q.env.wOf t * q.env.cOf t
  dramWrite s a (saltOf s a) (packCodes (q.p.bits t) ((List.range n).map (q.env.code t)))

/-- The tensors of the waves that have ended are in DRAM. -/
def spillStore (q : Stripe) (cx : Nat) (s : State) : State :=
  let bufs := (mget s.ctxs cx).spillBufs
  let s := (bufs.filter (fun b => !b.2.2)).foldl (fun s b => spillWrite q s b.1 b.2.1) s
  s.updCtx cx (fun x => { x with spillBufs := x.spillBufs.map (fun b => (b.1, b.2.1, true)) })

/-- SPILL_WAVE_START (R215): the next wave of a picture starts when the wave before it has completed the picture; it waits
while a tensor that it spills has no buffer (a detail DEDUCED, log 37). -/
def execSpillWaveStart (ctx picture : Nat) (s : State) : Host.Outcome State Fault Refusal :=
  match mfind s.ctxs ctx with
  | none => done s
  | some x =>
    match (openStripes s x).find? (fun q => q.spills && q.pic == picture) with
    | none => done s
    | some q =>
      let k := q.wavesBegun x
      let ls := (phaseLayers q.p.g q.ph).filter (fun i => q.waveOf (q.layerGroup i) + 1 == k)
      if decide (k < ceilDiv q.groups.length (max q.n 1)) && ls.all (q.layerOver x) then
        let t := handoffReset (spillStore q ctx s) x q
        match spillTake q.p ctx (q.waveOuts k) t with
        | none => done s
        | some u => done (u.updCtx ctx (fun x => { x with wave := q.claim.entry * 4096 + k + 1 }))
      else done s

end Sys2Proof.Machine
end

