-- ==== Sys2Proof/Machine/Power.lean ====
section
/-! DEFINITION. Power and admission control (R353 to R369, R443, R450): V/F transitions, Pupae, energy tokens, the power
cap, board inputs and temperature; and the regions' pushes and refill rates (R307, R323). -/

set_option Elab.async false

namespace Sys2Proof.Machine

/-! ### Points in force (R356, R443) -/

/-- The region is held at VP3 or below, or all at VP0 by THERM_IN_N; vp_max of the policy otherwise (R366)
(a detail DEDUCED, log 45). -/
def vpMax (s : State) (r : Nat) : Nat :=
  if therm s || pwrbrk s then 0
  else
    let m := if s.hasCfg then ppVpMax s.run.pac r else 7
    if (s.region r).tempHold then min 3 m else m

/-- Start a raise: VSEL first (R356). A rail already out of range fences the region (R443). -/
def raiseStart (s : State) (r vq : Nat) : State :=
  let x := s.region r
  if !x.pgood then regionFence s r
  else s.updRegion r (fun x => { x with vsel := vq, trans := some ⟨1, x.vp, vq, s.now⟩ })

/-- Start a lowering: the clock first, then VSEL (R356). The point in force is the target from the first cycle of the
slew (a detail DEDUCED, log 45). -/
def lowerStart (s : State) (r vq : Nat) : State :=
  let x := s.region r
  if x.trans.isNone && !x.pgood then regionFence s r
  else
    pacCount (s.updRegion r (fun x => { x with vp := vq, vsel := vq, trans := some ⟨2, x.vp, vq, s.now⟩ })) 3 r
      (if x.vp = vq then 0 else 1)

/-- Bring a region to `to` or below at once, whatever it is doing: a raise in progress is abandoned (R365 to R367)
(a detail DEDUCED, log 45). -/
def forceLower (s : State) (r vq : Nat) : State :=
  let x := s.region r
  if x.fenced then s
  else if x.waking then
    if vq < x.vp then s.updRegion r (fun x => { x with vp := vq, vsel := vq, target := vq }) else s
  else if !x.awake then s
  else
    let s := s.updRegion r (fun x => { x with target := min x.target vq })
    match x.trans with
    | none => if vq < x.vp then lowerStart s r vq else s
    | some t => if t.kind = 1 then (if vq < t.dest then lowerStart s r (min x.vp vq) else s)
      else if vq < x.vp then lowerStart s r vq else s

/-- Bring every region to `to` or below. -/
def forceAll (vq : Nat) : List Nat → State → State
  | [], s => s
  | r :: t, s => forceAll vq t (forceLower s r vq)

/-- Move an awake region toward its target where no transition is in progress. -/
def followTarget (s : State) (r : Nat) : State :=
  let x := s.region r
  if !x.awake || x.fenced || x.trans.isSome || x.vp = x.target then s
  else if x.vp < x.target then raiseStart s r x.target
  else lowerStart s r x.target

/-- AON cycles of a transition's least duration and of its bound: 3 µs and 20 µs (a detail DESIGN CHOICE, log 23). -/
def transLeast : Nat := 300
def transBound : Nat := 2000

/-- A transition ends: a raise slews the clock to its point (R356, R443) (a detail DEDUCED, log 45). -/
def transEnd (s : State) (r : Nat) (t : Trans) : State :=
  let s := s.updRegion r (fun x => { x with trans := none, vp := if t.kind = 1 then t.dest else x.vp })
  if t.kind = 1 then pacCount s 3 r (if t.from_ = t.dest then 0 else 1) else s

/-- VF_TRANSITION_END (R443): the filtered PGOOD is high, at least 3 µs after the last change of VSEL. -/
def execVfTransitionEnd (region : Nat) (s : State) : Host.Outcome State Fault Refusal :=
  match (s.region region).trans with
  | none => done s
  | some t =>
    if s.now < t.vselAt + transLeast then done s
    else
      let s := transEnd (s.updRegion region (fun x => { x with pgood := true })) region t
      done (if s.pac.restarting then s else followTarget s region)

/-- PGOOD_TIMEOUT (R443): the filtered PGOOD is not high 20 µs after a change of VSEL: a raise is abandoned, and any
other transition fences the region. -/
def execPgoodTimeout (region : Nat) (s : State) : Host.Outcome State Fault Refusal :=
  let x := s.region region
  match x.trans with
  | none => done s
  | some t =>
    if x.pgood || s.now < t.vselAt + transBound then done s
    else if t.kind = 1 then
      done (raiseLog (s.updRegion region (fun x => { x with
        vsel := x.vp, target := x.vp, trans := some ⟨2, x.vp, x.vp, s.now⟩ })) (uRg + region))
    else done (regionFence s region)

/-- PGOOD_LOW (R443): the filtered PGOOD falls. Outside a transition it fences an awake region; on a Pupa it means
nothing, because the rail is gated (a detail DEDUCED, log 45). -/
def execPgoodLow (region : Nat) (s : State) : Host.Outcome State Fault Refusal :=
  let x := s.region region
  if !x.awake && !x.waking then done s
  else
    let s := s.updRegion region (fun x => { x with pgood := false })
    if x.trans.isSome then done s else done (regionFence s region)

/-! ### Pupae (R353, R354, R357, R358) -/

/-- The region's hold bit is set in a port's copy (R354, R437). -/
def holdBit (s : State) (r : Nat) : Bool := (List.range 2).any (fun p => (s.port p).hold / 2 ^ r % 2 == 1)

/-- The region has work: a resident context or a queued invocation (R357, R362). -/
def regionBusy (s : State) (r : Nat) : Bool := !(regionCtxs s r).isEmpty || !(s.region r).queue.isEmpty

/-- The region has had no work for park_idle_us (R357). -/
def idleOver (s : State) (r : Nat) : Bool := decide (100 * devParam s 2 ≤ s.now - (s.region r).busyAt)

/-- The region may be parked now, its idle time, which counts from Imago, having run out (R29, R357). -/
def parkAllowed (s : State) (r : Nat) : Bool :=
  s.imago && (s.region r).awake && !(s.region r).fenced && ppParkMask s.run.pac / 2 ^ r % 2 == 1 && !regionOwned s r && !holdBit s r &&
    !regionBusy s r && idleOver s r && !s.pac.restarting

/-- REGION_PARK (R357) (a detail DEDUCED, log 45). -/
def execRegionPark (region : Nat) (s : State) : Host.Outcome State Fault Refusal :=
  if parkAllowed s region then
    let s := shadowDiscard (pushCounts s region) region
    done (pacCount (s.updRegion region (fun x => { x with
      awake := false, trans := none, grant := 0, held := 0, overdraw := 0, overStreak := 0 })) 2 region 1)
  else done s

/-- A closed batch waits that the region should wake for: no region is eligible, or the least backlog exceeds 1 ms
(R358). -/
def wakeForBatch (s : State) (r : Nat) : Bool :=
  let ok := (List.range 8).filter (admissible s)
  wakeable s r &&
    (partIds s).any (fun p => (pinnedRegions s p).isEmpty && !(s.part p).queue.isEmpty) &&
    ok.all (fun q => decide (backlogMs < backlog s q))

/-- REGION_WAKE (R358). -/
def execRegionWake (region : Nat) (s : State) : Host.Outcome State Fault Refusal :=
  if !s.pac.restarting && (holdBit s region || wakeForBatch s region) then done (wakeStart s region) else done s

/-- What a wake leaves in the region's blocks and cells: nothing queued, semaphores and every buffer zero. -/
def wakeZero (s : State) (r : Nat) : State := regionZero ((blocksOfRegion r).foldl blockFlush s) r

/-- The region becomes awake: its storage is zero, its window opens, its wait counter is zero and its buckets are full
(R307, R358, R369) (a detail DEDUCED, log 44). -/
def wakeFinish (s : State) (r : Nat) : State :=
  let full : Map Nat := (List.range 8).map (fun p => (p, bucketFull))
  (wakeZero s r).updRegion r (fun x => { x with
    awake := true, waking := false, trans := none, busyAt := s.now, tokWait := 0, grant := if pwrbrk s then 2 else 0, held := 0
    overdraw := 0, overStreak := 0, dutyAcc := 0, shadow := [], dramTok := full, nocTok := full })

/-- WAKE_COMPLETE (R358): once the wake's transition has ended. -/
def execWakeComplete (region : Nat) (s : State) : Host.Outcome State Fault Refusal :=
  let x := s.region region
  let ended := match x.trans with
    | none => true
    | some t => x.pgood && decide (t.vselAt + transLeast ≤ s.now)
  if x.waking && ended then done (wakeFinish s region) else done s

/-- Wake the parked regions whose hold bit is set. -/
def wakeHeld : List Nat → State → State
  | [], s => s
  | r :: t, s => wakeHeld t (if holdBit s r then wakeStart s r else s)

/-- A write of AON_PARK_HOLD through a port's copy (R354). -/
def holdWrite (s : State) (port : Nat) (value : Word) : State :=
  let s := s.updPort port (fun p => { p with hold := wbits value 7 0 })
  if s.pac.restarting then s else wakeHeld (List.range 8) s

/-- PARK_HOLD_WRITE (R354), through BAR4 of PF0 of the port. -/
def execParkHoldWrite (port : Nat) (value : Word) (s : State) : Host.Outcome State Fault Refusal :=
  if fnTakes s port 0 then done (holdWrite s port value) else done s

/-! ### Energy tokens (R360, R361, R365) -/

/-- Grant of one interval, before overdraw is taken off: the reserve under PWRBRK_N, else 32 or the duty's share
(a detail DEDUCED, log 45). -/
def grantBase (s : State) (x : Region) : Nat × Nat :=
  if pwrbrk s then (2, x.dutyAcc)
  else if 1000 ≤ x.duty then (32, 0)
  else ((x.dutyAcc + 32 * x.duty) / 1000, (x.dutyAcc + 32 * x.duty) % 1000)

/-- One region's grant. -/
def grantRegion (s : State) (r : Nat) : State :=
  let x := s.region r
  if !x.awake || x.fenced then s
  else
    let g := grantBase s x
    let drawn := decide (0 < x.overdraw)
    let s := if drawn then pacCount s 4 r 1 else s
    s.updRegion r (fun x => { x with
      grant := g.1 - x.overdraw, dutyAcc := g.2, overdraw := 0, overStreak := if drawn then x.overStreak + 1 else 0 })

def grantAll : List Nat → State → State
  | [], s => s
  | r :: t, s => grantAll t (grantRegion s r)

/-- TOKEN_GRANT (R360): the next 10 µs interval. Grants hold their values during a PAC self-restart (R367). -/
def execTokenGrant (s : State) : Host.Outcome State Fault Refusal :=
  if s.pac.restarting then done s else done (grantAll (List.range 8) s)

/-! ### Power (R361, R362) -/

/-- Samples of 1 ms. -/
def sampleCount : Nat := 100

/-- The newest sample entered. -/
def addSample (v : Nat) (l : List Nat) : List Nat := (v :: l).take sampleCount

/-- Average of the samples held. -/
def sampleAvg (l : List Nat) : Nat := sumNat l / max l.length 1

/-- Enter one region's sample. -/
def sampleRegion (s : State) (r v : Nat) : State :=
  let l := addSample v (s.region r).samples
  s.updRegion r (fun x => { x with samples := l, railPower := sampleAvg l })

def sampleRegions : List (Nat × Nat) → State → State
  | [], s => s
  | (r, v) :: t, s => sampleRegions t (sampleRegion s r v)

/-- Lower the regions in which overdraw has recurred in 10 consecutive intervals by one point (R361)
(a detail DEDUCED, log 45). -/
def lowerOverdrawn : List Nat → State → State
  | [], s => s
  | r :: t, s =>
    let x := s.region r
    lowerOverdrawn t
      (if x.awake && decide (10 ≤ x.overStreak) then
        let s := pacCount (s.updRegion r (fun x => { x with overStreak := 0 })) 5 r 1
        if vpMin s r < x.vp then forceLower s r (x.vp - 1) else s
      else s)

/-- POWER_SAMPLE (R361): the rails are measured, and the averages follow. The ratio of measured to modelled power is a
free value: the manual does not give the modelled power of a mixed load (log 5). -/
def execPowerSample (r : RailSample) (s : State) : Host.Outcome State Fault Refusal :=
  if s.pac.restarting then done s
  else
    let s := sampleRegions ((List.range 8).map (fun i => (i, r.regions.getD i 0))) s
    let dev := addSample (sumNat (r.regions.take 8) + r.other) s.pac.samples
    let unc := addSample r.other s.pac.uncoreSamples
    let (scale, s) := freeBits 16 s
    let s := { s with pac := { s.pac with
      samples := dev, uncoreSamples := unc, power := sampleAvg dev, uncore := sampleAvg unc, scale := scale } }
    done (lowerOverdrawn (List.range 8) s)

/-- Hundredths as FP32. -/
def centi (n : Nat) : Fl := rnd32 (ratFl n 100)

/-- LEAK, DYN and TOTAL of R355, in W. -/
def leakW (vp : Nat) : Fl := centi ([65, 75, 85, 95, 105, 120, 135, 160].getD vp 65)
def dynW (vp : Nat) : Fl := centi ([287, 367, 457, 559, 672, 798, 960, 1240].getD vp 287)
def totalW (vp : Nat) : Fl := centi ([352, 442, 542, 654, 777, 918, 1095, 1400].getD vp 352)

/-- FP32 sum of a list in order. -/
def sumF (l : List Fl) : Fl := l.foldl fadd flZero

/-- One region of a choice: number, vp_min, vp_max and the point so far. -/
structure VfReg where
  n : Nat
  lo : Nat
  hi : Nat
  k : Nat
  deriving DecidableEq, Repr, Inhabited

/-- Cost of the points so far. -/
def vfCost (scale : Fl) (l : List VfReg) : Fl := fmul scale (sumF (l.map (fun r => totalW r.k)))

/-- Raise the lowest points first while the cost stays within `b`; `fuel` is above the points there are. -/
def vfRaise (scale b : Fl) : Nat → List VfReg → List VfReg
  | 0, l => l
  | fuel + 1, l =>
    match minByNat (fun r => r.k * 16 + r.n) (l.filter (fun r => r.k < r.hi)) with
    | none => l
    | some r =>
      let l' := l.map (fun q => if q.n = r.n then { q with k := q.k + 1 } else q)
      if flLt b (vfCost scale l') then l else vfRaise scale b fuel l'

/-- Point and duty of each region with work (R362): choose. Duty in 1/1,000. -/
def vfChoose (b scale : Fl) (l : List VfReg) : List (Nat × Nat × Nat) :=
  if flLt b (vfCost scale l) then
    let d := fdiv (fsub b (fmul scale (sumF (l.map (fun r => leakW r.k))))) (fmul scale (sumF (l.map (fun r => dynW r.k))))
    let d := fmin (fmax d flZero) flOne
    l.map (fun r => (r.n, r.k, (flFloor (mulX d (flInt 1000))).toNat))
  else (vfRaise scale b 64 l).map (fun r => (r.n, r.k, 1000))

/-- Budget of the regions with work. -/
def vfBudget (s : State) (scale : Fl) (idle : List Nat) (parked : Nat) : Fl :=
  fsub (fsub (fsub (fofInt (devParam s 1)) (mulX (flInt s.pac.uncore) (flPow2 (-4)))) (fmul (rnd32 (ratFl 1 10)) (flInt parked)))
    (fmul scale (sumF (idle.map (fun r => leakW (vpMin s r)))))

/-- A region's choice takes effect: at most one point up while rises are limited (R365, R366) (a detail DEDUCED, log 45). -/
def vfApply (s : State) (q : Nat × Nat × Nat) : State :=
  let x := s.region q.1
  let vq := if s.pac.riseLimit then min q.2.1 (x.vp + 1) else q.2.1
  followTarget (s.updRegion q.1 (fun x => { x with target := vq, duty := q.2.2 })) q.1

def vfApplyAll : List (Nat × Nat × Nat) → State → State
  | [], s => s
  | q :: t, s => vfApplyAll t (vfApply s q)

/-- VF_CHOICE (R362): points and duties of the awake regions. A region without work stands at vp_min. -/
def execVfChoice (s : State) : Host.Outcome State Fault Refusal :=
  if s.pac.restarting then done s
  else
    let up := (List.range 8).filter (fun r => (s.region r).awake && !(s.region r).fenced)
    let work := up.filter (regionBusy s)
    let idle := up.filter (fun r => !regionBusy s r)
    let parked := countIf (List.range 8) (fun r => !(s.region r).awake && !(s.region r).waking)
    let scale : Fl := mulX (flInt s.pac.scale) (flPow2 (-12))
    let regs := work.map (fun r => (⟨r, min (vpMin s r) (vpMax s r), vpMax s r, min (vpMin s r) (vpMax s r)⟩ : VfReg))
    let chosen := vfChoose (vfBudget s scale idle parked) scale regs ++
      idle.map (fun r => (r, min (vpMin s r) (vpMax s r), 1000))
    let limited := s.pac.riseLimit && chosen.any (fun q => decide ((s.region q.1).vp + 1 < q.2.1))
    let s := vfApplyAll chosen s
    done { s with pac := { s.pac with riseLimit := limited } }

/-! ### Bandwidth shares and pushes (R307, R323) -/

/-- Fraction `w` of `total` of a rate, in bytes per 100 µs. -/
def shareOf (rate w total : Nat) : Nat := rate * w / max total 1

/-- Refill rate of one region: its share by bytes requested, at least 1/64 of the device rate (a detail DEDUCED, log 44). -/
def regionRate (dev req total n : Nat) : Nat := max (dev / 64) (if total = 0 then dev / max n 1 else dev * req / total)

/-- Refill rates of one partition in every region. -/
def regulatePart (s : State) (p : Nat) : State :=
  let rs := (List.range 8).filter (fun r => s.ctxs.any (fun c => c.2.part == p && (ctxBlocks c.2).any (fun b => regionOfBlock b == r)))
  let dw := sumNat (s.run.partitions.map peDramW)
  let nw := sumNat (s.run.partitions.map peNocW)
  let dDev := shareOf 163840000 (peDramW (s.pe p)) dw
  let nDev := shareOf 40960000 (peNocW (s.pe p)) nw
  let dTot := sumNat (rs.map (fun r => mget (s.region r).dramReq p))
  let nTot := sumNat (rs.map (fun r => mget (s.region r).nocReq p))
  { s with regions := mmap s.regions (fun r x =>
      if rs.contains r then
        { x with dramRate := mput x.dramRate p (regionRate dDev (mget x.dramReq p) dTot rs.length)
                 nocRate := mput x.nocRate p (regionRate nDev (mget x.nocReq p) nTot rs.length) }
      else { x with dramRate := mput x.dramRate p 0, nocRate := mput x.nocRate p 0 }) }

/-- REGULATOR_UPDATE (R307): the refill rates of every region router, from the bytes of the last 100 µs. -/
def execRegulatorUpdate (s : State) : Host.Outcome State Fault Refusal :=
  if s.pac.restarting then done s
  else
    let s := (partIds s).foldl regulatePart s
    done { s with regions := mmap s.regions (fun _ x => { x with dramReq := [], nocReq := [] }) }

/-- COUNTER_PUSH (R323): an awake region pushes its counts. -/
def execCounterPush (region : Nat) (s : State) : Host.Outcome State Fault Refusal :=
  if (s.region region).awake then done (pushCounts s region) else done s

/-! ### Board inputs (R363 to R367) -/

def State.updInput (s : State) (i : Nat) (f : InputPin → InputPin) : State :=
  { s with aon := { s.aon with inputs := mupd s.aon.inputs i f } }

/-- An input's filtered level becomes active. -/
def inputRise (s : State) (i : Nat) : State :=
  s.updInput i (fun p => if p.active then p else { p with active := true, activeSince := s.now })

/-- An input's filtered level becomes inactive: its stuck flag clears, and the next summary reports the release. -/
def inputFall (s : State) (i : Nat) : State :=
  s.updInput i (fun p => { p with active := false, stuck := false, releasedStuck := p.releasedStuck || p.stuck })

/-- PWRBRK_ASSERT (R365). -/
def execPwrbrkAssert (s : State) : Host.Outcome State Fault Refusal :=
  let s := inputRise s 0
  let s := { s with regions := mmap s.regions (fun _ r => if r.awake && !r.fenced then { r with grant := 2 } else r) }
  done (forceAll 0 (List.range 8) s)

/-- Start the wakes that PWRBRK_N deferred: those for a hold bit still set, or that the PAC still asks for. -/
def wakeDeferred : List Nat → State → State
  | [], s => s
  | r :: t, s =>
    let want := (s.region r).wakeDeferred && (holdBit s r || wakeForBatch s r)
    let s := s.updRegion r (fun x => { x with wakeDeferred := false })
    wakeDeferred t (if want then wakeStart s r else s)

/-- PWRBRK_N is released: normal control resumes, at most one point up per 100 µs. -/
def pwrbrkFall (s : State) : State :=
  let s := inputFall s 0
  wakeDeferred (List.range 8) { s with pac := { s.pac with riseLimit := true } }

/-- PWRBRK_RELEASE (R365). -/
def execPwrbrkRelease (s : State) : Host.Outcome State Fault Refusal := if pwrbrk s then done (pwrbrkFall s) else done s

/-- THERM_IN_ASSERT (R366). -/
def execThermInAssert (s : State) : Host.Outcome State Fault Refusal := done (forceAll 0 (List.range 8) (inputRise s 1))

/-- THERM_IN_N is released. -/
def thermFall (s : State) : State :=
  let s := inputFall s 1
  { s with pac := { s.pac with riseLimit := true } }

/-- THERM_IN_RELEASE (R366). -/
def execThermInRelease (s : State) : Host.Outcome State Fault Refusal := if therm s then done (thermFall s) else done s

/-- Upper Tj limit of the grade, in 1/16 °C: 100 °C, or 105 °C for the extended grade (R2). -/
def tjLimit (s : State) : Int := if s.grade = 1 then 16 * 105 else 16 * 100

/-- TEMP_SENSOR_READ (R366, R450): a region above the grade's limit is held at VP3 or below until 5 °C below it; any
sensor at 125 °C asserts THERM_TRIP_N. -/
def execTempSensorRead (region : Nat) (tj : Int) (uncore : Int) (s : State) : Host.Outcome State Fault Refusal :=
  let x := s.region region
  let s := s.updRegion region (fun x => { x with tj := tj })
  let s := if 16 * 125 ≤ tj || 16 * 125 ≤ uncore then { s with aon := { s.aon with thermTrip := true } } else s
  if s.pac.restarting then done s
  else if tjLimit s < tj && !x.tempHold then
    let s := pacCount (s.updRegion region (fun x => { x with tempHold := true })) 8 region 1
    done (forceLower (raiseAlarm s (uRg + region) 0x83) region 3)
  else if tj ≤ tjLimit s - 16 * 5 then done (s.updRegion region (fun x => { x with tempHold := false }))
  else done s

/-- Alarm number of an input's chatter and stuck flag (R407). -/
def chatterAlarm (i : Nat) : Nat := [0x82, 0x83, 0x84, 0x84, 0x87].getD i 0x87
def stuckAlarm (i : Nat) : Nat := [0x80, 0x81, 0x85, 0x86].getD i 0x86

/-- The end of one input's 1 s window of transitions. -/
def chatterOne (s : State) (i n : Nat) : State :=
  let p := mget s.aon.inputs i
  let s := s.updInput i (fun p => { p with chatter := decide (1000 < n) })
  if 1000 < n && !p.chatter then raiseAlarm s uAon (chatterAlarm i) else s

def chatterAll : List (Nat × Nat) → State → State
  | [], s => s
  | (i, n) :: t, s => chatterAll t (chatterOne s i n)

/-- CHATTER_WINDOW (R364): transitions of PWRBRK_N, THERM_IN_N, PERSTA_N, PERSTB_N and POR_N in the window. -/
def execChatterWindow (transitions : List Nat) (s : State) : Host.Outcome State Fault Refusal :=
  done (chatterAll ((List.range 5).map (fun i => (i, transitions.getD i 0))) s)

/-- INPUT_STUCK (R364): an input has stayed active for 1 s. -/
def execInputStuck (input : Nat) (s : State) : Host.Outcome State Fault Refusal :=
  let p := mget s.aon.inputs input
  if p.active && !p.stuck && input < 4 then
    done (raiseAlarm (s.updInput input (fun p => { p with stuck := true })) uAon (stuckAlarm input))
  else done s

/-! ### Windows of stopped regions (R353) -/

/-- A request to a closed region window is discarded without a completion, counted and logged (R353, R440). -/
def windowDiscard (s : State) (port region : Nat) : State := raiseLog (hpCount s port 7 1) (uRg + region)

/-- STOPPED_WINDOW_ACCESS (R353): an access through BAR4 of PF0 of a port to the window of a region whose clock is
stopped. -/
def execStoppedWindowAccess (port fn region _off : Nat) (_write : Bool) (s : State) : Host.Outcome State Fault Refusal :=
  if (s.region region).awake || fn ≠ 0 || !fnTakes s port 0 then done s else done (windowDiscard s port region)

end Sys2Proof.Machine
end

