-- ==== Sys2Proof/Machine/Clock.lean ====
section
/-! DEFINITION. What one AON clock cycle does of itself, when no command waits (log 1). -/

set_option Elab.async false

namespace Sys2Proof.Machine

/-- PAC counters of AON cycles with an input held active (R438): number of the counter of PWRBRK_N and of
THERM_IN_N. -/
def pacPwrbrkCycles : Nat := 6
def pacThermCycles : Nat := 7

/-- Count one cycle of an active input (a detail DESIGN CHOICE, log 1). -/
def tickInput (s : State) (input ctr : Nat) : State :=
  if (mget s.aon.inputs input).active then { s with pac := { s.pac with ctr := bump s.pac.ctr ctr 1 } } else s

/-! ### Waits counted in region cycles (R314, R323, R324) -/

/-- Region cycles that fall into one AON cycle at a V/F point, counted from the time at which both clocks start a cycle
(a detail DESIGN CHOICE, log 1). -/
def regionCycles (now vp : Nat) : Nat := clk50 vp * (now + 1) / 2 - clk50 vp * now / 2

/-- Partitions whose invocations wait for residency in a region: those queued, and contexts that are swapped out. -/
def residencyParts (s : State) (r : Nat) : List Nat :=
  (s.region r).queue.map (fun q => (mget s.batches (q / 8)).part) ++
    (s.ctxs.filter (fun c => c.2.region == r && c.2.chrysalis.isSome)).map (·.2.part)

/-- A region counts the waits for residency of one AON cycle at its point in force (a detail DESIGN CHOICE, log 1). -/
def tickResidency (s : State) (r : Nat) : State :=
  let x := s.region r
  if x.awake then (residencyParts s r).foldl (fun s p => rgnCount s r p 3 x.vp (regionCycles s.now x.vp)) s else s

/-- A latency-critical command of a cell waits for its dispatch: nothing but its unit or its token holds it
(a detail DEDUCED, log 37). -/
def dispatchWaits (s : State) (c : Nat) (q : QCmd) : Bool := cmdCritical s c q.cmd && readyToIssue s c q

/-- It waits for a token (R360, R369). -/
def tokenWaits (s : State) (c : Nat) (q : QCmd) : Bool := needsToken q.cmd && tokenFor s (regionOfCell c) true == .refused

/-- A cell counts the dispatch waits of one AON cycle, and those for a token (a detail DESIGN CHOICE, log 1). -/
def tickDispatch (s : State) (c : Nat) : State :=
  let r := regionOfCell c
  let x := s.region r
  let n := regionCycles s.now x.vp
  let l := (s.cell c).queue.filter (dispatchWaits s c)
  if x.awake && !l.isEmpty then
    let s := l.foldl (fun s q => rgnCount s r (mget s.ctxs q.cmd.ctx).part 4 x.vp n) s
    let s := s.updRegion r (fun y => { y with tokWait := satAdd (2 ^ 64 - 1) y.tokWait (n * countIf l (tokenWaits s c)) })
    s.updCell c (fun y => { y with queue := y.queue.map (fun q => if l.any (fun o => o.seq == q.seq) then { q with waited := q.waited + n } else q) })
  else s

/-- Regions with work are not idle (R357). -/
def tickBusy (s : State) : State :=
  { s with regions := mmap s.regions (fun r x => if regionBusy s r then { x with busyAt := s.now } else x) }

/-- The waits and the work of every region and cell (a detail DESIGN CHOICE, log 1). -/
def tickWaits (s : State) : State :=
  let s := tickBusy s
  if s.imago then s.cells.foldl (fun s c => tickDispatch s c.1) ((List.range 8).foldl tickResidency s) else s

/-- One cycle of the AON clock: AON_TIME counts from the deassertion of POR_N (R41, R406), the active-input counters
count (R438), waits in regions are counted (R323), the bandwidth buckets fill (R307) and the DRAM queues are served (R330). Nothing happens while POR_N is asserted
(a detail DESIGN CHOICE, log 1). -/
def clockTick (s : State) : State :=
  if s.por then s
  else dramTick <| refillBuckets <| tickWaits (tickInput (tickInput { s with now := s.now + 1 } 0 pacPwrbrkCycles) 1 pacThermCycles)

end Sys2Proof.Machine
end

