-- ==== Sys2Proof/Machine/Adaptation.lean ====
section
/-! DEFINITION. Online adaptation (R266 to R277): gathering pictures, forward passes with drop-out, backward passes,
gradients, the update of the masters and its commit. -/

set_option Elab.async false

namespace Sys2Proof.Machine

/-! ### Gathering (R270, R271) -/

/-- Bound on the concealment share of a usable picture (R271). -/
def usableShare : Nat := 32

/-- Write the open step's fields of the adapter head (R270). -/
def headOpen (s : State) (slot : Nat) : State :=
  let i := adpInterval s slot
  let l := match (s.stream slot).adp with
    | none => []
    | some a => a.pictures
  let first := (s.frame (l.headD 0)).picture.getD 0
  let fl := headGet s slot hdFlags 1
  recSet s slot (ordHead (s.cfgAt slot) (s.se slot))
    [(hdFlags, toLe 1 (fl / 2 * 2 + (if l.isEmpty then 0 else 1))), (hdFrames, toLe 1 (min i l.length)),
     (hdFirst, toLe 4 (if l.isEmpty then 0 else first))]

/-- A picture that has reached stage 0x6 joins the open step, or is passed over (R271, R277). -/
def adpGather (s : State) (fid : Nat) : State :=
  let f := s.frame fid
  let slot := f.slot
  if hasAdapter s slot && (s.stream slot).train then
    if f.share ≤ usableShare then
      headOpen (s.updStream slot (fun x => { x with adp := match x.adp with
        | none => some ⟨[fid], false⟩
        | some a => some { a with pictures := a.pictures ++ [fid] } })) slot
    else passOver s slot
  else s

/-- TRACK_PICTURE (R245, R248, R271): the earliest picture of the slot that the tracker has not taken, once its
invocations have committed; its writes commit with stage 0x6, and an adapting stream gathers it. -/
def execTrackPicture (slot : Nat) (s : State) : Host.Outcome State Fault Refusal :=
  match trackNext s slot with
  | (none, s) => done s
  | (some fid, s) => done (adpGather s fid)

/-! ### Starting a step (R271) -/

/-- Line-store bytes of an adapter step in its block: the largest group demand with its gradient windows (R273, R311). -/
def stepDemand (p : Plan) : Nat :=
  let gb := if adGradFmt (gAdapt p.g) = 9 then 16 else 8
  let first := (adTargets (gAdapt p.g)).foldl min (gLayers p.g)
  let grad (k : Nat) : Nat := sumNat ((stackLayers p.g k).map (fun i =>
    if first ≤ i then
      let t := lOut (gLayer p.g i)
      windowRows p (stackLayers p.g k) t * roundUp (packedBytes (p.wOf t * p.cOf t) gb) 64
    else 0))
  (phasesOf p.g).foldl (fun a ph => (planGroups p ph).foldl (fun a g => max a (groupDemand p g + sumNat (g.map grad))) a) 0

/-- Line-store bytes of a step over pictures with the plans of a list. -/
def stepDemands (ps : List Plan) : Nat := ps.foldl (fun a p => max a (stepDemand p)) 0

/-- Block for an adapter step that needs `n` line-store bytes: in a shared awake region of least backlog, the lowest block
with a slot and room (a detail DEDUCED, log 41). -/
def stepBlock (s : State) (n : Nat) : Option Nat :=
  match minByNat (backlog s) ((List.range 8).filter (admissible s)) with
  | none => none
  | some r => ((blocksOfRegion r).filter (blockUsable s)).find? (fun b =>
      (freeSlot s b).isSome && decide ((blockHolds s b).1 + n ≤ lsWindows))

/-- Plan of a stream's teacher at the Instar of a frame. -/
def teacherPlan (s : State) (slot : Nat) (f : Frame) : Plan :=
  let g := (streamGraph (s.cfgAt slot) (s.se slot) 0).getD []
  let wk := frameWork f
  let r := gInstar g (instarFor g wk.2.1 wk.1)
  ⟨g, isHeight r, isWidth r⟩

/-- Start the job of a complete open step: a best-effort context of kind 2 (R250, R271). -/
def stepStart (s : State) (slot : Nat) : State :=
  match (s.stream slot).adp with
  | none => s
  | some a =>
    let i := adpInterval s slot
    if a.running || !(s.stream slot).train || i = 0 || a.pictures.length < i then s
    else
      let f := s.frame (a.pictures.headD 0)
      let p := teacherPlan s slot f
      let n := stepDemands ((a.pictures.take i).map (fun q => teacherPlan s slot (s.frame q)))
      match stepBlock s n with
      | none => s
      | some b =>
        let wk := frameWork f
        let late := s.ctxs.any (fun c => c.2.kind == 1 && c.2.model == 0 && c.2.held.contains 2 && c.2.cls == 0 &&
          (batchFrames s c.2.batch).any (fun pf => (s.frame pf.2).slot == slot && heldByStep s (s.frame pf.2)))
        let c : Ctx := { (default : Ctx) with
          kind := 2, cls := 1, part := slotPart s slot, graph := seModel (s.se slot) 0, slot := slot
          instar := instarFor p.g wk.2.1 wk.1, cfgSeq := (s.stream slot).cfgSeq, region := regionOfBlock b, phases := 1, stripes := 1
          demand := n, inherited := late }
        let s := storeReads s slot (adapterRecordsOf s slot (headGet s slot hdGen 1))
        let cx := s.nextCtx
        let s := { s with ctxs := mput s.ctxs cx c, nextCtx := cx + 1 }
        (placeCtx cx [b] s).updStream slot (fun x => { x with adp := some { a with running := true } })

/-- ADAPTER_STEP_START (R271). -/
def execAdapterStepStart (slot : Nat) (s : State) : Host.Outcome State Fault Refusal := done (stepStart s slot)

/-! ### Forward passes of a step (R266, R272) -/

/-- What a step's passes share: graph, size, tables in force, adapter, step number and gradient format. -/
structure StepEnv where
  g : Bytes
  h : Nat
  w : Nat
  tab : Nat → QTable
  adapter : AdpUse
  step : Nat
  gfmt : Nat

/-- Codes of the tensors computed so far. -/
abbrev Codes := Map (List Nat)

/-- Operands of a layer of a pass. -/
def StepEnv.op (e : StepEnv) (m : Codes) : OpEnv where
  g := e.g
  h := e.h
  w := e.w
  tab := e.tab
  code := fun t i => if isData (tKind (gTensor e.g t)) then dataCode e.g t i else (mget m t).getD i 0
  frames := []
  adapter := some e.adapter

/-- FP32 values that a layer produces at a position of tensor `t`: a moved code stands for the value that the vector unit
reads from it (R99, R186). -/
def outReals (e : StepEnv) (t : Nat) (vs : List OutVal) : List Fl :=
  let fmt := tFmt (gTensor e.g t)
  let moved := rotateChannels (tHad (gTensor e.g t)) (vs.zipIdx.map (fun p => match p.1 with
    | .real _ => flZero
    | .code k => if quantized fmt then qRead fmt (e.tab t) p.2 k else codeVal fmt k))
  vs.zipIdx.map (fun p => match p.1 with
    | .real x => x
    | .code _ => moved.getD p.2 flZero)

/-- An element of a tensor is dropped in a pass of frame ordinal `f` (R266): `i` is its place in the tensor. -/
def dropped (e : StepEnv) (f t i : Nat) : Bool :=
  rngTop 3 (rngWord e.adapter.seed (tTag (gTensor e.g t)) 2 e.step (f * 2 ^ 40 + i)) = 0

/-- Drop-out of the elements of a tensor with a nonzero tag (R266), on the values that the layer produces, with the
count of dropped ones. -/
def dropPix (e : StepEnv) (f t y x : Nat) (vs : List OutVal) : List OutVal × Nat :=
  let tag := tTag (gTensor e.g t)
  if tag = 0 then (vs, 0)
  else
    let ix (c : Nat) : Nat := elemIndex 0 y x (tW (gTensor e.g t) e.w) c (tChannels (gTensor e.g t))
    ((outReals e t vs).zipIdx.map (fun p => OutVal.real (dropOut e.adapter.seed tag e.step (f * 2 ^ 40 + ix p.2) p.1)),
      countIf (List.range vs.length) (fun c => dropped e f t (ix c)))

/-- Drop-out of a pass's model input, by element in order (R266). -/
def dropInput (e : StepEnv) (f t : Nat) (vs : List Fl) : List Fl × Nat :=
  let tag := tTag (gTensor e.g t)
  if tag = 0 then (vs, 0)
  else
    (vs.zipIdx.map (fun p => dropOut e.adapter.seed tag e.step (f * 2 ^ 40 + p.2) p.1),
      countIf (List.range vs.length) (dropped e f t))

/-- One layer of a pass over the whole picture: its codes, and elements dropped (a detail DEDUCED, log 41). -/
def passLayer (e : StepEnv) (f li : Nat) (m : Codes) : Codes × Nat :=
  let o := e.op m
  let t := lOut (gLayer e.g li)
  let pos := (List.range (o.hOf t)).flatMap (fun y => (List.range (o.wOf t)).map (fun x => (y, x)))
  let rs := pos.map (fun p =>
    let d := dropPix e f t p.1 p.2 (layerPix o li p.1 p.2)
    ((o.write t d.1).map (·.code), d.2))
  (mput m t (rs.flatMap (·.1)), sumNat (rs.map (·.2)))

/-- Input codes of a list of real values. -/
def inputCodes (g : Bytes) (vs : List Fl) : List Nat := vs.map (fun v => (convTo (workFmt g) v).code)

/-- A forward pass of the teacher on a picture given by its real input values (a detail DEDUCED, log 41). -/
def forward (e : StepEnv) (f : Nat) (input : List Fl) : Codes × Nat :=
  let t := (tensorsOfKind e.g 0).headD 0
  let d := dropInput e f t input
  (List.range (gLayers e.g)).foldl (fun (a : Codes × Nat) li =>
    let r := passLayer e f li a.1
    (r.1, a.2 + r.2)) ([(t, inputCodes e.g d.1)], d.2)

/-! ### U and P of a picture (R272) -/

/-- Real value of a working code under R148. -/
def workVal (fmt c : Nat) : Fl := codeVal fmt c

/-- U at (y, x, c): the downscaled picture brought back to the working size by bilinear RESAMPLE. -/
def upVal (fmt d : Nat) (down : Nat × Nat × List Nat) (y x c : Nat) : Fl :=
  let px (yy xx : Nat) : Fl := workVal fmt (picCode down yy xx c)
  resample1d (fun yy => resample1d (fun xx => px yy xx) down.1 x d 1 1) down.2.1 y d 1 1

/-- Positions (y, x, c) of a picture of three channels, in element order. -/
def picElems (h w : Nat) : List (Nat × Nat × Nat) :=
  (List.range h).flatMap (fun y => (List.range w).flatMap (fun x => (List.range 3).map (fun c => (y, x, c))))

/-- P and U of a frame, element by element. -/
def framePU (g : Bytes) (f : Frame) : List Fl × List Fl :=
  let fmt := workFmt g
  let wk := frameWork f
  let d := adDown (gAdapt g)
  let dn := f.down.getD (0, 0, [])
  let es := picElems wk.2.1 wk.1
  (es.map (fun q => workVal fmt (picCode wk q.1 q.2.1 q.2.2)), es.map (fun q => upVal fmt d dn q.1 q.2.1 q.2.2))

/-- Values of the teacher's output tensor. -/
def outVals (e : StepEnv) (m : Codes) : List Fl :=
  let o := e.op m
  let t := (tensorsOfKind e.g 1).headD 0
  (List.range (o.hOf t * o.wOf t * o.cOf t)).map (o.valIx t)

/-- The preceding present picture of the same timeline segment, with the extent that its elements are compared at
(a detail DESIGN CHOICE, log 41). -/
def prevPresent (s : State) (f : Frame) : Option Frame :=
  match minByNat (fun p => picGap (f.picture.getD 0) (p.2.picture.getD 0))
      (s.frames.filter (fun p => p.2.slot == f.slot && p.2.segment == f.segment && p.2.flags % 2 == 0 &&
        (match p.2.picture with
          | none => false
          | some m => picBefore m (f.picture.getD 0)))) with
  | none => none
  | some q =>
    let (w, h, _) := frameWork f
    let (qw, qh, _) := frameWork q.2
    if q.2.work.isSome && q.2.down.isSome && qw = w && qh = h then some q.2 else none

/-- The static mask at a position: channel 0 of P and of the preceding P differ by at most 1/64 of full range. -/
def staticAt (g : Bytes) (p q : Fl) : Bool :=
  let full := if workFmt g = 3 then flInt 255 else flOne
  flLe (flAbs (addX p (flNeg q))) (mulX full (flPow2 (-6)))

/-- Output gradient and loss terms of one element (R272) (a detail DEDUCED, log 41). -/
def lossElem (tw : Fl) (m : Bool) (t p u tp up : Fl) : Fl × Fl :=
  let e := fsub t p
  let base := fmul (flInt 2) e
  if m then
    let dd := fsub (fsub t u) (fsub tp up)
    (fadd base (fmul (fmul (flInt 2) tw) dd), fadd (fmul e e) (fmul tw (fmul dd dd)))
  else (base, fmul e e)

/-! ### Backward passes (R273) -/

/-- Gradients by tensor, as FP32 values by element, before their cast. -/
abbrev Grads := Map (List Fl)

/-- Add gradients of a tensor, element by element. -/
def gradAdd (m : Grads) (t : Nat) (g : List Fl) : Grads :=
  match mfind m t with
  | none => mput m t g
  | some o => mput m t ((o.zip g).map (fun p => fadd p.1 p.2))

/-- Cast one element of a gradient tensor to grad_format (R261, R265, R273) (a detail DEDUCED, log 18). -/
def castGrad (e : StepEnv) (tag i : Nat) (v : Fl) : Conv :=
  match fltFmt e.gfmt with
  | none => ⟨f32Code v, false, false⟩
  | some f =>
    if e.gfmt = 9 then convFloat f v
    else roundSrAlt f v 3 (rngTop 3 (rngWord e.adapter.seed tag 1 e.step i)) (i % 2 = 1)

/-- Cast a gradient tensor of frame ordinal `f`: its values, and the count of saturated ones. -/
def castGrads (e : StepEnv) (f tag : Nat) (vs : List Fl) : List Fl × Nat :=
  let cs := vs.zipIdx.map (fun p => castGrad e tag (f * 2 ^ 40 + p.2) p.1)
  (cs.map (fun c => codeVal e.gfmt c.code), countIf cs (·.sat))

/-- Round an activation or a weight to grad_format, to nearest (R273) (a detail DEDUCED, log 18). -/
def toGrad (e : StepEnv) (v : Fl) : Fl := codeVal e.gfmt (convTo e.gfmt v).code

/-- Output positions and taps of a CONV that read input position (y, x), in tap order. -/
def tapReaders (o : OpEnv) (l : Bytes) (t y x : Nat) : List (Nat × Nat × Nat × Nat) :=
  (convTaps l).flatMap (fun k => (List.range (o.hOf t)).flatMap (fun oy => (List.range (o.wOf t)).filterMap (fun ox =>
    let iy : Int := (oy * cvSh l + k.1 * cvDh l : Nat) - (cvPt l : Int)
    let ix : Int := (ox * cvSw l + k.2 * cvDw l : Nat) - (cvPl l : Int)
    let ti := lIn l 0
    let hit := if cvPadMode l = 1 then clampIx (o.hOf ti) iy = y && clampIx (o.wOf ti) ix = x
      else iy = (y : Int) && ix = (x : Int)
    if hit then some (k.1, k.2, oy, ox) else none)))

/-- Weight of a forward layer as flow T reads it: its real value in grad_format (log 18). -/
def convWeightVal (e : StepEnv) (l : Bytes) (cg o ci ky kx : Nat) : Fl :=
  let t := lIn l 1
  let c := convWeight (e.op []) l cg o ci ky kx
  toGrad e (if quantized (tFmt (gTensor e.g t)) then qRead (tFmt (gTensor e.g t)) (imageTable e.g t) o c else codeVal (tFmt (gTensor e.g t)) c)

/-- Gradient at (y, x, c) of a CONV's input through its own weights, flow T (R157, R170) (a detail DEDUCED, log 18). -/
def convGradIn (e : StepEnv) (o : OpEnv) (l : Bytes) (g : List Fl) (y x c : Nat) : Fl :=
  let t := lOut l
  let cg := o.cOf (lIn l 0) / cvGroups l
  let cog := o.cOf t / cvGroups l
  let grp := c / cg
  fpReduce flZero ((tapReaders o l t y x).flatMap (fun k =>
    padGroup ((List.range cog).map (fun co =>
      let ch := grp * cog + co
      mulX (convWeightVal e l cg ch (c % cg) k.1 k.2.1) (g.getD ((k.2.2.1 * o.wOf t + k.2.2.2) * o.cOf t + ch) flZero)))))

/-- Gradients of h at a position of a target: B read transposed (R157, R268). -/
def gradH (e : StepEnv) (o : OpEnv) (bB t : Nat) (g : List Fl) (pos : Nat) : List Fl :=
  (List.range 8).map (fun r => fpReduce flZero ((List.range (o.cOf t)).map (fun k =>
    mulX (toGrad e (effB e.adapter (bB + k * 8 + r))) (g.getD (pos * o.cOf t + k) flZero))))

/-- Positions of a tensor. -/
def posList (o : OpEnv) (t : Nat) : List (Nat × Nat) :=
  (List.range (o.hOf t)).flatMap (fun y => (List.range (o.wOf t)).map (fun x => (y, x)))

/-- The cast gradients of h over a target's output positions, under the tag of the target's output (log 18). -/
def gradHs (e : StepEnv) (o : OpEnv) (f bB t : Nat) (g : List Fl) : List Fl × Nat :=
  castGrads e f t ((List.range (o.hOf t * o.wOf t)).flatMap (fun p => gradH e o bB t g p))

/-- The row rule of R170 over positions: each row under R169, then rows added in turn. -/
def rowRule (h w : Nat) (prod : Nat → Nat → Fl) : Fl :=
  ((List.range h).map (fun y => fpReduce flZero ((List.range w).map (prod y)))).foldl fadd flZero

/-- First parameter of B of a target whose A starts at `base`. -/
def baseB (e : StepEnv) (l : Bytes) (base : Nat) : Nat :=
  let o := e.op []
  if lOp l = opConv then base + 8 * (o.cOf (lIn l 0) / cvGroups l * cvKh l * cvKw l) else base + 8 * mmK e.g l e.h e.w

/-- h of a target at an output position. -/
def targetH (e : StepEnv) (o : OpEnv) (l : Bytes) (ord base y x : Nat) : List Fl :=
  if lOp l = opConv then adpConvH o e.adapter l ord base y x
  else adpMatH o e.adapter l ord base (y * o.wOf (lOut l) + x)

/-- Input value that parameter (r, j) of A multiplies at output position (y, x). -/
def inputOfA (o : OpEnv) (l : Bytes) (r j y x : Nat) : Fl :=
  if lOp l = opConv then
    let cg := o.cOf (lIn l 0) / cvGroups l
    let kk := cvKh l * cvKw l
    let ci := j / kk
    let ky := j % kk / cvKw l
    let kx := j % cvKw l
    tapReal o (lIn l 0) (cvPadMode l) ((y * cvSh l + ky * cvDh l : Nat) - (cvPt l : Int))
      ((x * cvSw l + kx * cvDw l : Nat) - (cvPl l : Int)) (r % cvGroups l * cg + ci)
  else mmAReal o l (y * o.wOf (lOut l) + x) j

/-- Gradients of the parameters of a target from one picture: A in its order, then B (R268, R274). -/
def targetGrads (e : StepEnv) (o : OpEnv) (li ord : Nat) (g hs : List Fl) : List Fl :=
  let l := gLayer e.g li
  let t := lOut l
  let w := o.wOf t
  let base := targetBase e.g ord
  let nA := (baseB e l base - base) / 8
  let cn := o.cOf t
  (List.range (8 * nA)).map (fun q => rowRule (o.hOf t) w (fun y x =>
      mulX (toGrad e (inputOfA o l (q / nA) (q % nA) y x)) (hs.getD ((y * w + x) * 8 + q / nA) flZero))) ++
    (List.range (8 * cn)).map (fun q => rowRule (o.hOf t) w (fun y x =>
      mulX (toGrad e ((targetH e o l ord base y x).getD (q % 8) flZero)) (g.getD ((y * w + x) * cn + q / 8) flZero)))

/-- Gradient at an input element of a target through A, flow T. -/
def gradThroughA (e : StepEnv) (o : OpEnv) (l : Bytes) (ord base : Nat) (hs : List Fl) (y x c : Nat) : Fl :=
  let t := lOut l
  if lOp l = opConv then
    let cg := o.cOf (lIn l 0) / cvGroups l
    let f := cg * cvKh l * cvKw l
    fpReduce flZero ((tapReaders o l t y x).flatMap (fun k =>
      padGroup (((List.range 8).filter (fun r => r % cvGroups l = c / cg)).map (fun r =>
        mulX (toGrad e (effA e.adapter ord (base + ((r * cg + c % cg) * cvKh l + k.1) * cvKw l + k.2.1) f))
          (hs.getD ((k.2.2.1 * o.wOf t + k.2.2.2) * 8 + r) flZero)))))
  else
    let n := mmK e.g l e.h e.w
    let pos := y * o.wOf (lIn l 0) + x
    let i := if lP l 0 = 1 then c else pos
    let k := if lP l 0 = 1 then pos else c
    fpReduce flZero ((List.range 8).map (fun r => mulX (toGrad e (effA e.adapter ord (base + r * n + k) n)) (hs.getD (i * 8 + r) flZero)))

/-- Gradient of A or B of a MATMUL, flow T: dA = dC · B', dB = A' · dC. -/
def matmulGrad (e : StepEnv) (o : OpEnv) (l : Bytes) (g : List Fl) (first : Bool) (r c : Nat) : Fl :=
  let nn := mmN e.g l e.h e.w
  let kk := mmK e.g l e.h e.w
  let rows := o.hOf (lOut l) * o.wOf (lOut l)
  let b (k j : Nat) : Fl := toGrad e (o.real (lIn l 1) ((if lP l 1 = 1 then j else k) / o.wOf (lIn l 1))
    ((if lP l 1 = 1 then j else k) % o.wOf (lIn l 1)) (if lP l 1 = 1 then k else j))
  if first then
    let i := if lP l 0 = 1 then c else r
    let k := if lP l 0 = 1 then r else c
    fpReduce flZero ((List.range nn).map (fun j => mulX (b k j) (g.getD (i * nn + j) flZero)))
  else
    let k := if lP l 1 = 1 then c else r
    let j := if lP l 1 = 1 then r else c
    if kk ≤ k then flZero
    else fpReduce flZero ((List.range rows).map (fun i => mulX (toGrad e (mmAReal o l i k)) (g.getD (i * nn + j) flZero)))

/-- Slope of an activation table at a forward input (R171, R273). -/
def taSlope (t : Bytes) (x : Fl) : Fl :=
  if flIsNan x then .nan
  else if flLt x (taLo t) then taSlopeLo t
  else if flLt (taHi t) x then taSlopeHi t
  else
    let s := taSegment t x
    fmul (fsub (taKnot t (s.1 + 1)) (taKnot t s.1)) (taQ t)

/-- Gradient of ELTWISE with respect to its first or second operand at an output element (R273). -/
def eltGrad (o : OpEnv) (l : Bytes) (first : Bool) (y x c : Nat) (g : Fl) : Fl :=
  match lP l 0 with
  | 0 => g
  | 1 => if first then g else flNeg g
  | 2 => if first then fmul g (eltB o l y x c) else fmul g (o.val (lIn l 0) y x c)
  | 9 => if first then fmul g (o.valIx (lIn l 1) (scaleIx c (o.cOf (lIn l 0)))) else flZero
  | _ => g

/-- Gradient of element `i` of the second operand of ELTWISE scale-and-shift: the sum over the output elements that it
scales or shifts (R96, R273) (a detail DESIGN CHOICE, log 41). -/
def scaleGrad (o : OpEnv) (l : Bytes) (g : List Fl) (i : Nat) : Fl :=
  let t := lOut l
  let n := o.cOf t
  let terms (c : Nat) (v : Nat → Nat → Fl → Fl) : List Fl :=
    (List.range (o.hOf t)).flatMap (fun y => (List.range (o.wOf t)).map (fun x => v y x (g.getD ((y * o.wOf t + x) * n + c) flZero)))
  fpReduce flZero ((List.range n).flatMap (fun c =>
    (if scaleIx c n = i then terms c (fun y x d => fmul d (o.val (lIn l 0) y x c)) else []) ++
      (if shiftIx c n = i then terms c (fun _ _ d => d) else [])))

/-- Gradient of a second operand that is broadcast: the sum over the output elements that read it. -/
def eltGradB (o : OpEnv) (l : Bytes) (g : List Fl) (y x c : Nat) : Fl :=
  let b := lP l 1
  let t := lOut l
  let hs := if b / 2 % 2 = 1 then List.range (o.hOf t) else [y]
  let ws := if b / 4 % 2 = 1 then List.range (o.wOf t) else [x]
  let cs := if b % 2 = 1 then List.range (o.cOf t) else [c]
  fpReduce flZero (hs.flatMap (fun yy => ws.flatMap (fun xx => cs.map (fun cc =>
    eltGrad o l false yy xx cc (g.getD ((yy * o.wOf t + xx) * o.cOf t + cc) flZero)))))

/-- Gradient with respect to input `k` of a layer, over its elements in order. -/
def inputGrad (e : StepEnv) (o : OpEnv) (li k : Nat) (g hs : List Fl) : List Fl :=
  let l := gLayer e.g li
  let t := lIn l k
  let elems := (posList o t).flatMap (fun p => (List.range (o.cOf t)).map (fun c => (p.1, p.2, c)))
  elems.map (fun q =>
    let (y, x, c) := q
    if lOp l = opConv then
      let v := convGradIn e o l g y x c
      match targetOrdinal e.g li with
      | none => v
      | some ord => fadd v (gradThroughA e o l ord (targetBase e.g ord) hs y x c)
    else if lOp l = opMatmul then
      let v := matmulGrad e o l g (k = 0) (y * o.wOf t + x) c
      match targetOrdinal e.g li, k with
      | some ord, 0 => fadd v (gradThroughA e o l ord (targetBase e.g ord) hs y x c)
      | _, _ => v
    else if lOp l = opTable then
      fmul (g.getD ((y * o.wOf t + x) * o.cOf t + c) flZero) (taSlope (gTable e.g (lP l 0)) (o.val t y x c))
    else if k = 1 && lP l 0 = 9 then scaleGrad o l g ((y * o.wOf t + x) * o.cOf t + c)
    else if k = 0 then eltGrad o l true y x c (g.getD ((y * o.wOf t + x) * o.cOf t + c) flZero)
    else eltGradB o l g y x c)

/-- Drop-out's mask and factor on the gradient of a dropped tensor (R266). -/
def maskGrad (e : StepEnv) (f t : Nat) (vs : List Fl) : List Fl :=
  let tag := tTag (gTensor e.g t)
  if tag = 0 then vs
  else vs.zipIdx.map (fun p =>
    if dropped e f t p.2 then flZero else fmul p.1 dropFactor)

/-- State of a backward pass: gradients, parameter gradients by target, saturated casts. -/
abbrev Back := Grads × Map (List Fl) × Nat

/-- One layer of the backward pass. -/
def backLayer (e : StepEnv) (o : OpEnv) (f first li : Nat) (b : Back) : Back :=
  let l := gLayer e.g li
  let t := lOut l
  match mfind b.1 t with
  | none => b
  | some gr =>
    let (g, n) := castGrads e f t (maskGrad e f t gr)
    let tgt := targetOrdinal e.g li
    let (hs, nh) := match tgt with
      | none => ([], 0)
      | some ord => gradHs e o f (baseB e l (targetBase e.g ord)) t g
    let ps := match tgt with
      | none => b.2.1
      | some ord => mput b.2.1 ord (targetGrads e o li ord g hs)
    let ins := (List.range 2).filter (fun k =>
      lIn l k != 0xFFFF && !isData (tKind (gTensor e.g (lIn l k))) && tKind (gTensor e.g (lIn l k)) != 0)
    let grads := if li = first then b.1
      else ins.foldl (fun m k => gradAdd m (lIn l k) (inputGrad e o li k g hs)) b.1
    (grads, ps, b.2.2 + n + nh)

/-- The backward pass of one picture, from the output down to the first target. -/
def backward (e : StepEnv) (m : Codes) (f : Nat) (gout : List Fl) : Map (List Fl) × Nat :=
  let o := e.op m
  let first := (adTargets (gAdapt e.g)).foldl min (gLayers e.g)
  let r := ((List.range (gLayers e.g)).reverse.filter (fun li => first ≤ li)).foldl
    (fun b li => backLayer e o f first li b) ([((tensorsOfKind e.g 1).headD 0, gout)], [], 0)
  r.2

/-! ### One picture, and the step (R272, R274) -/

/-- Result of one picture: parameter gradients in parameter order, loss, elements dropped, casts saturated, elements E. -/
structure PicTrain where
  grads : List Fl
  loss : Fl
  dropped : Nat
  saturated : Nat
  count : Nat

/-- The step's environment for a picture of a slot: the picture's extent, masters of the current generation, tables in
force (a detail DEDUCED, log 41). -/
def stepEnv (s : State) (slot : Nat) (f : Frame) : StepEnv :=
  let g := loadedGraph s (s.cfgAt slot) (seModel (s.se slot) 0)
  let wk := frameWork f
  let gen := headGet s slot hdGen 1
  { g := g
    h := wk.2.1
    w := wk.1
    tab := fun t => if rederivable (gTensor g t) then streamTable (s.stream slot) g (seModel (s.se slot) 0) t else imageTable g t
    adapter := ⟨srGet s slot srSeed 8, fun j => masterCode s slot gen j⟩
    step := headGet s slot hdStep 8
    gfmt := adGradFmt (gAdapt g) }

/-- Train on one picture of a slot, of frame ordinal `k`, at its own extent. -/
def trainPicture (s : State) (slot k : Nat) (f : Frame) : PicTrain :=
  let e := stepEnv s slot f
  let (p, u) := framePU e.g f
  let (m, d1) := forward e k u
  let t := outVals e m
  let tw := f32 (adTemporal (gAdapt e.g))
  let ix := List.range t.length
  let (pairs, d2) := match prevPresent s f with
    | none => (ix.map (fun i => lossElem tw false (t.getD i flZero) (p.getD i flZero) flZero flZero flZero), 0)
    | some q =>
      let (pp, up) := framePU e.g q
      let (mp, d) := forward e k up
      let tp := outVals e mp
      (ix.map (fun i =>
        let j := i / 3 * 3
        lossElem tw (staticAt e.g (p.getD j flZero) (pp.getD j flZero)) (t.getD i flZero) (p.getD i flZero)
          (u.getD i flZero) (tp.getD i flZero) (up.getD i flZero)), d)
  let (ps, sat) := backward e m k (pairs.map (·.1))
  let loss := fdiv (fpReduce flZero (pairs.map (·.2))) (flInt t.length)
  ⟨(List.range (adCount (gAdapt e.g))).flatMap (fun o => mget ps o), loss, d1 + d2, sat, t.length⟩

/-- Sum lists of parameter gradients in ascending frame ordinal (R274). -/
def sumGrads : List (List Fl) → List Fl
  | [] => []
  | a :: t => t.foldl (fun x y => (x.zip y).map (fun p => fadd p.1 p.2)) a

/-- New master of parameter `j`: master − learning_rate × G, exactly, under SR(4) (R265, R274). -/
def newMaster (e : StepEnv) (lr : Fl) (j : Nat) (g : Fl) : Conv :=
  let x := addX (f32 (e.adapter.master j)) (flNeg (mulX lr g))
  roundSrAlt fmtFP32 x 4 (rngTop 4 (rngWord e.adapter.seed 0 0 e.step j)) (e.step % 2 = 1)

/-- Write the masters of one generation, record by record. -/
def writeMasters (slot gen : Nat) (s : State) (ms : List Nat) : State :=
  let c := s.cfgAt slot
  let e := s.se slot
  (List.range (genRecords c e)).foldl (fun s r =>
    storeWrite s slot (recIx s slot (ordHead c e + 1 + gen * genRecords c e + r))
      (padTo 240 (((ms.drop (60 * r)).take 60).flatMap (toLe 4)))) s

/-- Write the head fields of a step's end in one record write, with the open step's fields as the pictures left give. -/
def headEnd (s : State) (slot : Nat) (rest : List Nat) (fs : List (Nat × Bytes)) (bad : Bool) : State :=
  let i := adpInterval s slot
  let first := (s.frame (rest.headD 0)).picture.getD 0
  let fl := (if rest.isEmpty then 0 else 1) + (if bad then 2 else 0)
  recSet s slot (ordHead (s.cfgAt slot) (s.se slot))
    (fs ++ [(hdFlags, toLe 1 fl), (hdFrames, toLe 1 (min i rest.length)),
            (hdFirst, toLe 4 (if rest.isEmpty then 0 else first))])

/-- A picture still uses the generation that the step would write, or is still to come and will (R275). -/
def genInUse (s : State) (slot gen : Nat) : Bool :=
  genOf s slot (s.stream slot).dec.picNum == gen ||
    s.frames.any (fun p => p.2.slot == slot && p.2.flags % 2 == 0 && p.2.models % 2 == 0 && !frameEnded p.2 &&
      (match p.2.picture with
        | none => false
        | some n => genOf s slot n == gen))

/-- The contexts of a slot's adapter step end. -/
def stepCtxEnd (s : State) (slot : Nat) : State :=
  (s.ctxs.filter (fun c => c.2.kind == 2 && c.2.slot == slot)).foldl (fun s c => dropCtx s c.1) s

def adpCount (s : State) (slot k n : Nat) : State := s.updStream slot (fun x => { x with adpc := bump x.adpc k n })

/-- A codebook update will be formed from a step that commits (R289); bit 1 of the flags shows it (R301). Its candidates
are those of the step's last picture, which its search gives when it commits. -/
def cbExpect (s : State) (slot : Nat) (u : CbPending) : State :=
  let s := s.updStream slot (fun x => { x with cbPending := x.cbPending ++ [u] })
  recSet s slot 0 [(srTdsFlags, toLe 1 (srGet s slot srTdsFlags 1 ||| 2))]

/-- Commit a step (R274 to R277) (a detail DEDUCED, log 42). -/
def stepCommit (s : State) (slot : Nat) (a : AdpStep) : State :=
  let i := adpInterval s slot
  let now_ := a.pictures.take i
  let rest := a.pictures.drop i
  let e := stepEnv s slot (s.frame (now_.headD 0))
  let rs := now_.zipIdx.map (fun q => trainPicture s slot q.2 (s.frame q.1))
  let n := sumNat (rs.map (·.count))
  let gs := (sumGrads (rs.map (·.grads))).map (fun x => fdiv x (fofInt n))
  let ms := gs.zipIdx.map (fun q => newMaster e (f32 (adRate (gAdapt e.g))) q.2 q.1)
  let bad := gs.any (fun x => !flIsFinite x) || ms.any (fun c => c.sat || c.nonfin)
  let lastF := s.frame (now_.getLastD 0)
  let last := lastF.picture.getD 0
  let loss := fdiv ((rs.map (·.loss)).foldl fadd flZero) (flInt i)
  let gen := headGet s slot hdGen 1
  let step := headGet s slot hdStep 8
  let s := stepCtxEnd s slot
  let s := s.updStream slot (fun x => { x with adp := if rest.isEmpty then none else some ⟨rest, false⟩ })
  let s := adpCount (adpCount (adpCount s slot 3 i) slot 6 (sumNat (rs.map (·.saturated)))) slot 7 (sumNat (rs.map (·.dropped)))
  let s :=
    if bad then
      raiseLogOf (adpCount (headEnd s slot rest [(hdStep, toLe 8 (step + 1))] true) slot 2 1) uCtx (slotPart s slot) slot
    else
      let s := cbExpect s slot ⟨step, last, (last + 2 * i) % 2 ^ 32, if lastF.searched then some lastF.props else none⟩
      let s := writeMasters slot (1 - gen) s (ms.map (·.code))
      adpCount (headEnd s slot rest
        [(hdGen, toLe 1 (1 - gen)), (hdStep, toLe 8 (step + 1)), (hdTrained, toLe 4 last),
         (hdApply, toLe 4 ((last + 2 * i) % 2 ^ 32)), (hdLoss, toLe 4 (f32Code loss))] false) slot 1 1
  sweepSlot s slot

/-- ADAPTER_STEP_COMMIT (R274 to R276): the running step's passes are complete. It waits while a picture still uses the
generation that it would write; a step that has been discarded only ends its job. -/
def execAdapterStepCommit (slot : Nat) (s : State) : Host.Outcome State Fault Refusal :=
  match (s.stream slot).adp with
  | none => done (stepCtxEnd s slot)
  | some a =>
    if !a.running then done s
    else if genInUse s slot (1 - headGet s slot hdGen 1) then done s
    else done (stepCommit s slot a)

end Sys2Proof.Machine
end

