-- ==== Sys2Proof/Machine/Inject.lean ====
section
/-! DEFINITION. Host injection through BAR2 (R125 to R129). -/

set_option Elab.async false

namespace Sys2Proof.Machine

/-! ### Registers of R129 -/

def offInjCfg : Nat := 0x0FE100
def offInjStart : Nat := 0x0FE104
def offInjConsLo : Nat := 0x0FE108
def offInjConsHi : Nat := 0x0FE10C
def offInjCtrl : Nat := 0x0FE110
def offInjStatus : Nat := 0x0FE114

def State.inj (s : State) (port fn : Nat) : Inj := (s.fn port fn).inj
def State.updInj (s : State) (port fn : Nat) (g : Inj → Inj) : State :=
  s.updFn port fn (fun f => { f with inj := g f.inj })

/-- Bytes of the ring. -/
def injSize (i : Inj) : Nat := 2 ^ i.log2

/-- Source-2 streams of a function's partition. -/
def injSlots (s : State) (port fn : Nat) : List Nat :=
  match partOfFn s port fn with
  | none => []
  | some p => (s.run.streams.filter (fun e => sePart e == p && seSource e == 2)).map seSlot

/-! ### Enable and disable (R125, R129) -/

/-- The frames of a stream, its units that have not been emitted, the planes prefetched for it and the access unit it
gathers are discarded, with a ledger cause (R24, R231, R302, R402). -/
def streamDiscard (s : State) (slot cause : Nat) : State :=
  dropOpenAu (purgeSlot (dropFrames (shadowDropStream s slot) slot cause) slot) slot

/-- A host-injected stream is unbound: what it holds is discarded as for a removed stream (R24, R27)
(a detail DEDUCED, log 35). -/
def streamUnbind (s : State) (slot : Nat) : State :=
  if (s.stream slot).live then
    (streamDiscard s slot 1).updStream slot (fun x => { x with live := false })
  else s

def streamUnbinds : List Nat → State → State
  | [], s => s
  | i :: t, s => streamUnbinds t (streamUnbind s i)

/-- Stop scanning and free the backing; the enable count is kept (a detail DEDUCED, log 35). -/
def injStop (s : State) (port fn : Nat) : State :=
  let i := s.inj port fn
  let s := releaseAll ((partOfFn s port fn).getD 8) i.backing s
  s.updInj port fn (fun i => { (default : Inj) with gen := i.gen })

/-- Disable the ring: its streams are unbound (a detail DEDUCED, log 35). -/
def injDisable (s : State) (port fn : Nat) : State :=
  if (s.inj port fn).enabled || (s.inj port fn).zeroing then
    injStop (streamUnbinds (injSlots s port fn) s) port fn
  else s

/-- Largest pool whose buffers do not exceed `n` bytes (a detail DEDUCED, log 35). -/
def injPool (c : Sections) (n : Nat) : Option Nat :=
  ((List.range poolCount).filter (fun k => 0 < poCount (cfgPool c k) && poSize (cfgPool c k) ≤ n)).foldl
    (fun b k => match b with
      | none => some k
      | some j => if poSize (cfgPool c j) < poSize (cfgPool c k) then some k else some j) none

/-- An enable is refused. -/
def injRefuse (s : State) (port fn : Nat) : State := s.updInj port fn (fun i => { i with noBacking := true })

/-- Enable the ring: back it and start to zero it (R125, R129) (a detail DEDUCED, log 35). -/
def injEnable (s : State) (port fn : Nat) : State :=
  let s := injDisable s port fn
  let f := s.fn port fn
  let log2 := wbits (freg f offInjCfg) 4 0
  let cons := wbits (freg f offInjConsLo) 31 4 * 16 + (freg f offInjConsHi).toNat * 2 ^ 32
  if log2 < 20 || 28 < log2 || cons = 0 then injRefuse s port fn
  else
    match injPool s.run (2 ^ log2), partOfFn s port fn with
    | some k, some p =>
      let n := 2 ^ log2 / poSize (cfgPool s.run k)
      let (got, s) := allocMany p k n s
      if got.length = n then
        s.updInj port fn (fun i => { (default : Inj) with
          zeroing := true, backing := got, log2 := log2, cons := cons, gen := (i.gen + 1) % 2 ^ 32
          seq := (freg f offInjStart).toNat })
      else injRefuse (releaseAll p got s) port fn
    | _, _ => injRefuse s port fn

/-- The streams of an enabled ring become live (R27) (a detail DEDUCED, log 35). -/
def streamsGoLive : List Nat → State → State
  | [], s => s
  | i :: t, s =>
    streamsGoLive t (if (s.stream i).live || (s.stream i).pausedByReset then s else streamGoLive s i)

/-- INJ_ENABLE (R125, R129). -/
def execInjEnable (port fn : Nat) (s : State) : Host.Outcome State Fault Refusal :=
  if s.imago && fnTakes s port fn then done (injEnable s port fn) else done s

/-- INJ_ENABLE_DONE (R125): the ring is zeroed; scanning starts. -/
def execInjEnableDone (port fn : Nat) (s : State) : Host.Outcome State Fault Refusal :=
  if (s.inj port fn).zeroing then
    let s := s.updInj port fn (fun i => { i with zeroing := false, enabled := true, rdOffset := 0, lastNew := s.now })
    done (streamsGoLive (injSlots s port fn) s)
  else done s

/-- INJ_DISABLE (R129). -/
def execInjDisable (port fn : Nat) (s : State) : Host.Outcome State Fault Refusal :=
  if fnTakes s port fn then done (injDisable s port fn) else done s

/-! ### The consumer record (R128) -/

/-- Write the consumer record to host memory. -/
def injConsumer (s : State) (port fn : Nat) : State :=
  let i := s.inj port fn
  if i.writeDue && canIssue (s.fn port fn) then
    emit (.hostWrite port fn i.cons (toLe 4 i.rdOffset ++ toLe 4 i.seq ++ toLe 4 i.torn ++ toLe 4 i.gen))
      (s.updInj port fn (fun i => { i with writeDue := false, sinceWrite := 0 }))
  else s

/-- INJ_CONSUMER_WRITE (R128): within 20 µs of consuming a packet. -/
def execInjConsumerWrite (port fn : Nat) (s : State) : Host.Outcome State Fault Refusal := done (injConsumer s port fn)

/-- Advance over `n` bytes, or to offset 0 after a wrap packet: the sequence rises, and a consumer record is due, at
once after each 1 MiB. -/
def injAdvance (s : State) (port fn n : Nat) (wrap : Bool) : State :=
  let s := s.updInj port fn (fun i => { i with
    rdOffset := if wrap then 0 else (i.rdOffset + n) % injSize i
    seq := (i.seq + 1) % 2 ^ 32, sinceWrite := i.sinceWrite + n, writeDue := true
    trailerSince := none, headerSince := none, slowPoll := false, lastNew := s.now })
  if 2 ^ 20 ≤ (s.inj port fn).sinceWrite then injConsumer s port fn else s

/-! ### Packets (R126, R127) -/

def ipMagic : Nat := 0x5049584A
def ipTrailMagic : Nat := 0x4C494154
def ipLength (h : Bytes) : Nat := le32 h 8
def ipType (h : Bytes) : Nat := byteAt h 0xC
def ipFlags (h : Bytes) : Nat := byteAt h 0xD
def ipSlot (h : Bytes) : Nat := le16 h 0xE
def ipPayLen (h : Bytes) : Nat := le32 h 0x10
def ipPts (h : Bytes) : Nat := le64 h 0x18

/-- A header has the magic and the sequence number that the ring expects. -/
def injExpected (i : Inj) (h : Bytes) : Bool := le32 h 0 = ipMagic && le32 h 4 = i.seq

/-- Bytes of the ring. -/
def injBytes (i : Inj) (off n : Nat) : Bytes := cellReadBytes 0 i.bytes off n

/-- A header whose CRC is right has its fields in range (R126). -/
def injHeaderOk (i : Inj) (h : Bytes) : Bool :=
  let len := ipLength h
  allZero h 0x14 4 && allZero h 0x20 28 && ipFlags h < 8 &&
    ((ipType h == 2 && len == 64) ||
      (ipType h == 1 && len % 64 == 0 && decide (128 ≤ len) && decide (len ≤ 1048576) &&
        decide (i.rdOffset + len ≤ injSize i) && decide (ipPayLen h + 80 ≤ len)))

/-- The trailer of a data packet is valid. -/
def injTrailerOk (i : Inj) (h : Bytes) : Bool :=
  let t := injBytes i (i.rdOffset + ipLength h - 16) 16
  le32 t 0 == i.seq && le32 t 4 == ipTrailMagic && allZero t 0xC 4 &&
    le32 t 8 == crc32c (injBytes i (i.rdOffset + 64) (ipPayLen h))

/-- Stop consuming (R127). -/
def injDesync (s : State) (port fn : Nat) : State :=
  raiseLogOf (s.updInj port fn (fun i => { i with desync := true, trailerSince := none, headerSince := none })) uParser
    ((partOfFn s port fn).getD 0xFF) 0xFFFF

/-- Data of a valid packet reaches its stream: restart, start, bytes, end (R118, R119, R126). -/
def injDeliver (s : State) (slot : Nat) (h data : Bytes) : State :=
  let (ok, s) := police (dgramNew s slot) slot (data.length * 800)
  if !ok then auDamage s slot
  else
    let s := if ipFlags h / 4 % 2 = 1 then timelineRestart s slot else s
    let s := if ipFlags h % 2 = 1 then auClose s slot else s
    if !(s.stream slot).live then s
    else
      let s := if ipFlags h % 2 = 1 then auOpen s slot (ipPts h) none (some (ipPts h)) else s
      match auRefused s slot data.length with
      | some s => auDamage (ingCount s slot 10 1) slot
      | none =>
        let s := s.updIng slot (fun g => { g with lastAccept := s.now })
        let s := auAppend (ingCount (ingCount s slot 0 1) slot 1 data.length) slot data
        if ipFlags h / 2 % 2 = 1 then auClose s slot else s

/-- A whole packet is consumed. -/
def injConsume (s : State) (port fn : Nat) (h : Bytes) : State :=
  let i := s.inj port fn
  if ipType h = 2 then injAdvance s port fn 64 true
  else
    let data := injBytes i (i.rdOffset + 64) (ipPayLen h)
    let s :=
      if (injSlots s port fn).contains (ipSlot h) then
        (if (s.stream (ipSlot h)).live then injDeliver s (ipSlot h) h data else s)
      else raiseLogOf s uParser ((partOfFn s port fn).getD 0xFF) 0xFFFF
    injAdvance s port fn (ipLength h) false

/-- INJ_POLL (R127): look at the header at the read offset. -/
def execInjPoll (port fn : Nat) (s : State) : Host.Outcome State Fault Refusal :=
  let i := s.inj port fn
  if !i.enabled || i.desync || unitDown s uParser then done s
  else
    let h := injBytes i i.rdOffset 64
    if !injExpected i h then
      done (s.updInj port fn (fun i => { i with
        slowPoll := decide (10000 ≤ s.now - i.lastNew), headerSince := none, trailerSince := none }))
    else if le32 h 0x3C ≠ crc32c (h.take 0x3C) then
      done (s.updInj port fn (fun i => { i with
        slowPoll := false, lastNew := s.now, headerSince := some (i.headerSince.getD s.now), trailerSince := none }))
    else if !injHeaderOk i h then done (injDesync s port fn)
    else if ipType h = 2 || injTrailerOk i h then done (injConsume s port fn h)
    else done (s.updInj port fn (fun i => { i with
      slowPoll := false, lastNew := s.now, headerSince := none, trailerSince := some (i.trailerSince.getD s.now) }))

/-- INJ_TRAILER_TIMEOUT (R127): 1 ms since the header was first seen: the packet is torn. -/
def execInjTrailerTimeout (port fn : Nat) (s : State) : Host.Outcome State Fault Refusal :=
  let i := s.inj port fn
  let h := injBytes i i.rdOffset 64
  if !i.enabled || i.desync || i.trailerSince.isNone then done s
  else if !injExpected i h || le32 h 0x3C ≠ crc32c (h.take 0x3C) || !injHeaderOk i h then
    done (s.updInj port fn (fun i => { i with trailerSince := none }))
  else if ipType h = 1 && injTrailerOk i h then done (injConsume s port fn h)
  else
    let slot := ipSlot h
    let s := if (injSlots s port fn).contains slot then auDamage s slot else s
    let s := s.updInj port fn (fun i => { i with torn := satAdd (2 ^ 32 - 1) i.torn 1 })
    done (raiseLogOf (injAdvance s port fn (ipLength h) false) uParser ((partOfFn s port fn).getD 0xFF) 0xFFFF)

/-- INJ_HEADER_TIMEOUT (R127): hdr_crc has failed for 1 ms. -/
def execInjHeaderTimeout (port fn : Nat) (s : State) : Host.Outcome State Fault Refusal :=
  let i := s.inj port fn
  let h := injBytes i i.rdOffset 64
  if !i.enabled || i.desync || i.headerSince.isNone then done s
  else if !injExpected i h || le32 h 0x3C = crc32c (h.take 0x3C) then
    done (s.updInj port fn (fun i => { i with headerSince := none }))
  else done (injDesync s port fn)

end Sys2Proof.Machine
end

