-- ==== Sys2Proof/Machine/AonRegs.lean ====
section
/-! DEFINITION. The always-on status block (R40, R41, R368, R387, R412, R434, R435) and the 64-bit reads of R10. -/

set_option Elab.async false

namespace Sys2Proof.Machine

/-- A field `[hi:lo]` of a register with value `v`, cut to its width. -/
def fld (v hi lo : Nat) : Word := wfield (v % 2 ^ (hi - lo + 1)) lo

/-- A field that saturates at its width. -/
def fldSat (v hi lo : Nat) : Word := wfield (min v (2 ^ (hi - lo + 1) - 1)) lo

/-- A byte with bit `n` set where `p n` holds, for the eight regions. -/
def regionMask (p : Nat → Bool) : Nat := sumNat ((List.range 8).map (fun n => if p n then 2 ^ n else 0))

/-- Low and high words of a 64-bit value. -/
def loWord (v : Nat) : Word := BitVec.ofNat 32 v
def hiWord (v : Nat) : Word := BitVec.ofNat 32 (v / 2 ^ 32)

/-! ### Holding registers (R10, R437) -/

/-- Key of the high word at an offset of a BAR. -/
def holdKey (bar off : Nat) : Nat := bar * 2 ^ 24 + off

/-- What an accessor's holding register for a high word holds. -/
def heldWord (s : State) (acc : Acc) (bar off : Nat) : Word :=
  match acc with
  | .host port fn => mget (s.fn port fn).hold (holdKey bar off)
  | .mp => mget s.tu.mpHold (holdKey bar off)

/-- Copy a high word into an accessor's holding register. -/
def holdWord (s : State) (acc : Acc) (bar off : Nat) (w : Word) : State :=
  match acc with
  | .host port fn => s.updFn port fn (fun f => { f with hold := mput f.hold (holdKey bar off) w })
  | .mp => { s with tu := { s.tu with mpHold := mput s.tu.mpHold (holdKey bar off) w } }

/-! ### Fields -/

/-- A cell out of service: fenced, or of a fenced block or region (R40, R412). -/
def cellOut (s : State) (c : Nat) : Bool :=
  (s.cell c).fenced || (s.block (blockOfCell c)).fenced || (s.region (regionOfCell c)).fenced

def cellsOut (s : State) : Nat := countIf (List.range 256) (cellOut s)
def blocksOut (s : State) : Nat :=
  countIf (List.range 32) (fun b => (s.block b).fenced || (s.region (regionOfBlock b)).fenced)

/-- AON_CAPACITY (R412) (a detail DEDUCED, log 39). -/
def aonCapacity (s : State) : Word :=
  fld (cellsOut s) 31 23 ||| fld (blocksOut s) 22 17 ||| fld (countIf (List.range 8) (fun r => (s.region r).fenced)) 16 13 |||
    fld (countIf (List.range 8) (fun g => (mget s.engines g).fenced)) 12 9 |||
    fld (countIf (List.range 4) (fun r => (mget s.resamplers r).fenced)) 8 6

/-- AON_POWER (R368) (a detail DEDUCED, log 45). -/
def aonPower (s : State) : Word := fldSat s.pac.power 19 8 ||| fld (if s.hasCfg then devParam s 1 else 0) 7 0

/-- AON_BOOT_STATUS (R40). -/
def aonBoot (s : State) : Word :=
  fld s.scu.phase 31 28 ||| fld s.scu.cause 27 20 ||| fld s.scu.bank 19 19 ||| fld s.scu.keySlot 18 17 |||
    wflag s.scu.stack0 16 ||| wflag s.scu.stack1 15 ||| fld s.scu.cellsFencedAtBoot 14 6

/-- AON_RESET (R435). -/
def aonReset (s : State) : Word := fldSat s.aon.hpaResets 31 24 ||| fldSat s.aon.hpbResets 23 16 ||| fldSat s.aon.flrs 15 8

/-- AON_RESTART (R412). -/
def aonRestart (s : State) : Word :=
  fldSat s.aon.pacRestarts 31 24 ||| fldSat s.aon.scuRestarts 23 16 ||| fldSat s.aon.tuRestarts 15 8 |||
    fldSat s.aon.unitRestarts 7 0

/-- AON_PARK (R368) (a detail DEDUCED, log 39; a detail DEDUCED, log 45). -/
def aonPark (s : State) : Word :=
  fld (regionMask (fun n => (s.region n).waking)) 23 16 ||| fld (regionMask (fun n => (s.region n).fenced)) 15 8 |||
    fld (regionMask (fun n => (s.region n).fenced || (!(s.region n).awake && !(s.region n).waking))) 7 0

/-- AON_PARK_HOLD as an accessor reads it: its port's copy, or for MP the OR of the two (R437). -/
def aonHold (s : State) (acc : Acc) : Word :=
  let own (n : Nat) : Bool := match acc with
    | .host port _ => (s.port port).hold / 2 ^ n % 2 == 1
    | .mp => holdBit s n
  fld (regionMask (fun n => holdBit s n && (s.region n).awake)) 15 8 ||| fld (regionMask own) 7 0

/-- AON_VF (R368) (a detail DEDUCED, log 45). -/
def aonVf (s : State) : Word :=
  (List.range 8).foldl (fun w n =>
    let x := s.region n
    let slew := match x.trans with
      | none => false
      | some t => t.kind == 1 || t.kind == 2
    w ||| wflag slew (4 * n + 3) ||| wfield (x.vp % 8) (4 * n)) 0

/-- AON_INPUTS (R368). -/
def aonInputs (s : State) : Word :=
  let p (i : Nat) := mget s.aon.inputs i
  wflag ((p 4).chatter && !s.por) 10 ||| wflag (p 3).stuck 9 ||| wflag (p 2).stuck 8 ||| wflag ((p 2).chatter || (p 3).chatter) 7 |||
    wflag (p 1).chatter 6 ||| wflag (p 0).chatter 5 ||| wflag (p 1).stuck 4 ||| wflag (p 0).stuck 3 |||
    wflag (!overdrawOn s) 2 ||| wflag (therm s) 1 ||| wflag (pwrbrk s) 0

/-- The port's link is in L2/L3 Ready. -/
def portL23 (s : State) (p : Nat) : Bool := portPresent s p && (s.port p).link == 3

/-- The port's link is in L0 or L1. -/
def portUp (s : State) (p : Nat) : Bool := portPresent s p && ((s.port p).link == 1 || (s.port p).link == 2)

/-- Bit f: function f of the port is in D3hot. -/
def d3Mask (s : State) (p : Nat) : Nat :=
  sumNat ((List.range 4).map (fun f => if fnPresent s p f && (s.fn p f).dstate == 3 then 2 ^ f else 0))

/-- Every present port is in L2/L3 Ready (R385). -/
def d3coldOk (s : State) : Bool := ((List.range 2).filter (portPresent s)).all (portL23 s)

/-- AON_HOSTPM (R387). -/
def aonHostPm (s : State) : Word :=
  wflag (s.port 1).perst 15 ||| wflag (s.port 0).perst 14 ||| wflag s.aon.split 13 ||| wflag (portUp s 1) 12 |||
    wflag (portUp s 0) 11 ||| wflag (d3coldOk s) 10 ||| wflag (portL23 s 1) 9 ||| wflag (portL23 s 0) 8 |||
    fld (d3Mask s 1) 7 4 ||| fld (d3Mask s 0) 3 0

/-- A word of alarm entry `e` (R412). -/
def alarmWord (s : State) (e w : Nat) : Word :=
  match s.aon.alarms[e]? with
  | none => 0
  | some a =>
    if w = 0 then fld a.kind 15 0
    else if w = 4 then loWord a.count
    else if w = 8 then loWord a.first
    else if w = 0xC then hiWord a.first
    else if w = 0x10 then loWord a.last
    else if w = 0x14 then hiWord a.last
    else 0

/-- AON_ID (R412). -/
def aonId (s : State) : Word := wfield 0x5120 16 ||| fld s.stepping 15 8 ||| fld s.grade 0 0

/-- AON_BOOT_TIME: counts from zero at POR_N deassertion, and stops at entry to Imago or Held (R41). -/
def aonBootTime (s : State) : Nat := if s.imago || s.held then s.scu.bootTime else if s.por then 0 else s.now

/-- Current value of the register at an offset of the always-on status block; zero where none is assigned (R434). -/
def aonValue (s : State) (acc : Acc) (off : Nat) : Word :=
  if off = 0x0000 then aonId s
  else if off = 0x0008 then loWord s.now
  else if off = 0x000C then hiWord s.now
  else if off = 0x0010 then aonBoot s
  else if off = 0x0014 then loWord (aonBootTime s)
  else if off = 0x0018 then aonReset s
  else if off = 0x0040 then aonPark s
  else if off = 0x0044 then aonHold s acc
  else if off = 0x0048 then aonVf s
  else if off = 0x004C then aonInputs s
  else if off = 0x0050 then aonPower s
  else if off = 0x0060 then aonHostPm s
  else if off = 0x0070 then aonCapacity s
  else if off = 0x0074 then aonRestart s
  else if off = 0x0078 then fld s.aon.alarms.length 6 0
  else if 0x0400 ≤ off && off < 0x0C00 then alarmWord s ((off - 0x0400) / 32) ((off - 0x0400) % 32)
  else 0

/-- The low word of a 64-bit pair of the block. -/
def aonLow (off : Nat) : Bool :=
  off == 0x0008 || (decide (0x0400 ≤ off) && decide (off < 0x0C00) && (off % 32 == 8 || off % 32 == 0x10))

/-- Read one register of the block: a low word latches its high word, and a high word returns what was latched (R10). -/
def aonRead (s : State) (acc : Acc) (bar off : Nat) : Word × State :=
  if aonLow off then (aonValue s acc off, holdWord s acc bar (off + 4) (aonValue s acc (off + 4)))
  else if 4 ≤ off && aonLow (off - 4) then (heldWord s acc bar off, s)
  else (aonValue s acc off, s)

/-- Read `n` consecutive registers from an offset that wraps within the block's 0xC00 bytes (R414). -/
def aonReads (acc : Acc) : Nat → Nat → State → List Word × State
  | 0, _, s => ([], s)
  | n + 1, off, s =>
    let (w, s) := aonRead s acc 4 (off % 0xC00)
    let (ws, s) := aonReads acc n (off + 4) s
    (w :: ws, s)

end Sys2Proof.Machine
end

