-- ==== Sys2Proof/Machine/Keys.lean ====
section
/-! DEFINITION. Owner-key commands (R417 to R422), the identity key (R423) and attestation reports (R424 to R427). -/

set_option Elab.async false

namespace Sys2Proof.Machine

/-! ### Registers of PF0 of HPA that hold a host address -/

/-- A 4 KiB-aligned host address held in a low and a high register (a detail DEDUCED, log 25). -/
def hostAddr (f : Fn) (lo hi : Nat) : Nat := wbits (freg f lo) 31 12 * 4096 + (freg f hi).toNat * 2 ^ 32

/-- Read `len` bytes of host memory for PF0 of HPA, where it may issue requests (R372, R391) (a detail DEDUCED, log 25). -/
def hpaRead (s : State) (addr len : Nat) : State :=
  if canIssue (s.fn 0 0) then emit (.hostRead 0 0 addr len) s else s

/-- The `len` bytes of a host read of PF0 of HPA; absent when the read failed, or the function may not issue it
(a detail DEDUCED, log 25). -/
def hpaData (s : State) (r : HostRead) (len : Nat) : Option Bytes :=
  match r with
  | .data b => if canIssue (s.fn 0 0) then some (padTo len b) else none
  | .failed _ => none

/-! ### Key commands -/

def offKeyLo : Nat := 0x0FF300
def offKeyHi : Nat := 0x0FF304
def keyBytes : Nat := 30048

def kcOp (b : Bytes) : Nat := byteAt b 6
def kcTarget (b : Bytes) : Nat := byteAt b 7
def kcSigner (b : Bytes) : Nat := byteAt b 8
def kcDevice (b : Bytes) : Bytes := slice b 0x10 64
def kcKey (b : Bytes) : Bytes := slice b 0x50 64
def kcHash (b : Bytes) : Bytes := slice b 0x90 64

/-- A key command reads or burns (R422). -/
def keyBusy (s : State) : Bool := 1 ≤ s.key.state && s.key.state ≤ 3

/-- A key command ends in state `st`, and the cause of PF0 of HPA is set (R422). -/
def keyEnd (s : State) (st result : Nat) : State :=
  raiseIrq { s with key := { s.key with state := st, result := result } } 0 0 irqCommand

/-- KEY_GO (R419, R422): the command is read once. -/
def execKeyGo (s : State) : Host.Outcome State Fault Refusal :=
  if !fnTakes s 0 0 then done s
  else if s.scu.restarting then done (waitAccess .keyGo s)
  else if keyBusy s then done s
  else
    let s := { s with key := { s.key with state := 1, result := 0 } }
    done (hpaRead s (hostAddr (s.fn 0 0) offKeyLo offKeyHi) keyBytes)

/-- device_id (R423). -/
def deviceId (s : State) : Bytes := digest64 s.idKey

/-- Fields of a key command: check 0x01, which takes in the zero new_hash of op 2 (a detail DEDUCED, log 30). -/
def keyFieldsOk (b : Bytes) : Bool :=
  le32 b 0 = 0x504B4C46 && le16 b 4 = 1 && (kcOp b = 1 || kcOp b = 2) && kcTarget b ≤ 3 &&
    allZero b 9 7 && allZero b 0xD0 48 && (kcOp b = 1 || allZero b 0x90 64)

/-- The signer: check 0x03. -/
def keySignerOk (s : State) (b : Bytes) : Bool :=
  if kcSigner b = 0xFF then (List.range 4).all (fun i => keySlotState s i = 0) && kcOp b = 1 && kcTarget b = 0
  else kcSigner b ≤ 3 && keySlotState s (kcSigner b) = 1

/-- Hash that the signer's key must have: check 0x04. -/
def keySignerHash (s : State) (b : Bytes) : Bytes :=
  if kcSigner b = 0xFF then kcHash b else padTo 64 (mget s.fuses (kcSigner b)).hash

/-- The checks of R419 on a command read, in order: the first that fails, or 0 (a detail PRESUMED, log 7). -/
def keyCause (s : State) (b : Bytes) : Nat :=
  firstCause
    [ fun _ => need 0x01 (keyFieldsOk b),
      fun _ => need 0x02 (kcDevice b == deviceId s),
      fun _ => need 0x03 (keySignerOk s b),
      fun _ => need 0x04 (digest64 (kcKey b) == keySignerHash s b),
      fun _ => need 0x05 (slhVerify slh256s (kcKey b) (ascii "FOLEK-KEYOP") (b.take 0x100) (b.drop 0x100)),
      fun _ => need 0x06 (keySlotState s (kcTarget b) = (if kcOp b = 1 then 0 else 1)),
      fun _ => need 0x07 (kcOp b = 1 ||
        (List.range 4).any (fun i => i != kcTarget b && keySlotState s i == 1)) ]

/-- KEY_READ_DONE (R419, R420): the checks; the command that passes them is saved and burnt. -/
def execKeyReadDone (r : HostRead) (s : State) : Host.Outcome State Fault Refusal :=
  if s.key.state ≠ 1 then done s
  else
    match hpaData s r keyBytes with
    | none => done (keyEnd (readCount s 0 0 r) 5 0x08)
    | some b =>
      if keyCause s b = 0 then
        done { s with key := { s.key with state := 3, target := kcTarget b, op := kcOp b, newHash := kcHash b } }
      else done (keyEnd s 5 (keyCause s b))

/-- A hash burnt in full, and its marker. -/
def burnOk (k : Key) (f : FuseSlot) : FuseSlot :=
  if k.op = 1 then { f with hash := k.newHash, programmed := 0xFF } else { f with revoked := 0xFF }

/-- Fuse bits only ever go from 0 to 1: of the bits of `want`, those that `draw` names have been burnt
(a detail DESIGN CHOICE, log 5; a detail DEDUCED, log 29). -/
def partBurn (old want draw : Nat) : Nat := old ||| (want &&& draw)

/-- `n` bytes of which the fuses took a free part (log 5) (a detail DEDUCED, log 29). -/
def partHash : Nat → Bytes → State → Bytes × State
  | 0, _, s => ([], s)
  | n + 1, b, s =>
    let (d, s) := freeBits 8 s
    let (t, s) := partHash n (b.drop 1) s
    (BitVec.ofNat 8 (partBurn 0 (byteAt b 0) d) :: t, s)

/-- A burn whose read-back differs, or that a power loss met: a free part of the hash, not empty, without a marker, so
that the slot is spoiled; or a free part of the revoke marker (R420) (a detail DEDUCED, log 29). -/
def burnBad (s : State) : State :=
  let k := s.key
  if k.op = 1 then
    let (h, s) := partHash 64 k.newHash s
    let h := if h.all (· == 0) then k.newHash else h
    { s with fuses := mupd s.fuses k.target (fun f => { f with hash := h }) }
  else
    let (d, s) := freeBits 8 s
    { s with fuses := mupd s.fuses k.target (fun f => { f with revoked := partBurn f.revoked 0xFF d }) }

/-- KEY_BURN_DONE (R420, R422): the burn and its read-back are complete. A self-restart of the SCU delays it
(a detail DEDUCED, log 29). -/
def execKeyBurnDone (readBackOk : Bool) (s : State) : Host.Outcome State Fault Refusal :=
  if s.key.state ≠ 3 || s.scu.restarting then done s
  else if readBackOk then done (keyEnd { s with fuses := mupd s.fuses s.key.target (burnOk s.key) } 4 0)
  else done (keyEnd (burnBad s) 5 0x09)

/-- A power loss in the middle of a burn: in the hash it leaves the slot spoiled, in the marker a free part of its bits
(R420). Which of the two it meets is not given (a detail DEDUCED, log 29). -/
def burnLost (s : State) : State :=
  if s.key.state ≠ 3 then s
  else
    let k := s.key
    let (inHash, s) := freeBits 1 s
    if k.op = 1 && inHash = 0 then burnBad s
    else
      let (d, s) := freeBits 8 s
      { s with fuses := mupd s.fuses k.target (fun f =>
          if k.op = 1 then { f with hash := k.newHash, programmed := partBurn f.programmed 0xFF d }
          else { f with revoked := partBurn f.revoked 0xFF d }) }

/-- A key command that is not yet burning is aborted (R419). -/
def keyAbort (s : State) : State := if s.key.state = 1 then keyEnd s 5 0x0A else s

/-! ### Attestation -/

def offAttLo : Nat := 0x0FF400
def offAttHi : Nat := 0x0FF404
def offAttNonce : Nat := 0x0FF408

/-- A request is queued, signing or writing. -/
def attBusy (a : Att) : Bool := 1 ≤ a.state && a.state ≤ 3

/-- A request ends in state `st`, and the function's cause is set (R427). -/
def attEnd (s : State) (k st cause : Nat) : State :=
  raiseIrq (s.updFn (k / 4) (k % 4) (fun f => { f with att := { f.att with state := st, cause := cause } })) (k / 4) (k % 4) irqCommand

/-- ATT_GO (R424, R427). -/
def execAttGo (port fn : Nat) (s : State) : Host.Outcome State Fault Refusal :=
  if !fnTakes s port fn then done s
  else if s.scu.restarting then done (waitAccess (.attGo port fn) s)
  else if attBusy (s.fn port fn).att then done (s.updFn port fn (fun f => { f with att := { f.att with cause := 4 } }))
  else
    let s := s.updFn port fn (fun f => { f with att := { f.att with state := 1, cause := 0 } })
    done { s with signer := { s.signer with queue := s.signer.queue ++ [fnIx port fn] } }

/-- F of R426. -/
def fuseMeas (s : State) : Bytes :=
  digest64 ((List.range 4).flatMap (fun i => padTo 64 (mget s.fuses i).hash ++ toLe 1 (keySlotState s i)) ++ toLe 1 s.grade ++
    toLe 1 s.stepping)

/-- P of R426; zeros for a function that owns no partition (a detail DESIGN CHOICE, log 49). -/
def partMeas (s : State) (port fn : Nat) : Bytes :=
  match cfgPartOfFn s.run port fn with
  | none => zeros 64
  | some p =>
    let es := sortBy (fun a b => decide (seSlot a ≤ seSlot b)) (s.run.streams.filter (fun e => sePart e == peId p))
    digest64 (p ++ es.flatMap id)

/-- Seeds of the identity key (R423). -/
def idSeeds (s : State) : Bytes := shake256 (ascii "JARUX-IDENTITY" ++ padTo 64 s.idSeed) 96

/-- The 512-byte body of a report (R425) (a detail DESIGN CHOICE, log 49). -/
def attBody (s : State) (port fn : Nat) : Bytes :=
  let f := s.fn port fn
  toLe 4 0x54414B46 ++ toLe 2 1 ++ toLe 1 port ++ toLe 1 fn ++ toLe 1 (if s.held then 0xFF else (partOfFn s port fn).getD 0xFF) ++
    toLe 1 s.scu.keySlot ++ zeros 2 ++ toLe 4 (if s.held then 0 else s.scu.moultSeq) ++
    (List.range 8).flatMap (fun i => toLe 4 (freg f (offAttNonce + 4 * i)).toNat) ++ deviceId s ++ padTo 64 s.idKey ++
    (if s.held then zeros 64 else padTo 64 s.scu.m0) ++ (if s.held then zeros 64 else padTo 64 s.scu.mCur) ++ fuseMeas s ++
    (if s.held then zeros 64 else partMeas s port fn) ++ toLe 8 s.now ++ toLe 4 (aonCapacity s).toNat ++ toLe 4 (aonBoot s).toNat ++
    toLe 1 s.grade ++ toLe 1 s.stepping ++ zeros 62

/-- ATT_SIGN_START (R424): the oldest request is signed; every field of its report is captured now. -/
def execAttSignStart (s : State) : Host.Outcome State Fault Refusal :=
  match s.signer.signing, s.signer.queue with
  | none, k :: t =>
    if s.scu.restarting then done s
    else
      let body := attBody s (k / 4) (k % 4)
      let s := s.updFn (k / 4) (k % 4) (fun f => { f with att := { f.att with state := 2 } })
      done { s with signer := ⟨t, some k, body⟩ }
  | _, _ => done s

/-- Max_Payload_Size in effect: Device Control bits [7:5], at most 512 bytes (R370, log 21). -/
def maxPayload (f : Fn) : Nat := 128 * 2 ^ min 2 (wbits (mget f.config 0x78) 7 5)

/-- Write bytes to host memory in ascending address, `n` at a time (R427) (a detail DEDUCED, log 25). -/
def hostWrites (port fn : Nat) : List Bytes → Nat → State → State
  | [], _, s => s
  | b :: t, a, s => hostWrites port fn t (a + b.length) (emit (.hostWrite port fn a b) s)

/-- The report: the body and its signature (R425). -/
def attReport (s : State) (body : Bytes) : Bytes :=
  body ++ slhSign slh256f (idSeeds s) (toLe 32 (Config.signRandom body).toNat) (ascii "JARUX-ATTEST") body

/-- ATT_SIGN_DONE (R427): the report is written, where its function may issue requests (a detail PRESUMED, log 7). -/
def execAttSignDone (s : State) : Host.Outcome State Fault Refusal :=
  match s.signer.signing with
  | none => done s
  | some k =>
    let f := s.fn (k / 4) (k % 4)
    let rep := attReport s s.signer.body
    let s := { s with signer := { s.signer with signing := none, body := [] } }
    if canIssue f then
      let n := maxPayload f
      done (attEnd (hostWrites (k / 4) (k % 4) (blocksOf n (ceilDiv 50368 n) rep) (hostAddr f offAttLo offAttHi) s) k 4 0)
    else done (attEnd s k 5 1)

/-- A reset of a function ends its request (R427). -/
def attReset (s : State) (port fn : Nat) : State :=
  let k := fnIx port fn
  if attBusy (s.fn port fn).att then
    let g := s.signer
    let s := { s with signer := { g with
      queue := g.queue.filter (· != k)
      signing := if g.signing = some k then none else g.signing
      body := if g.signing = some k then [] else g.body } }
    s.updFn port fn (fun f => { f with att := { f.att with state := 5, cause := 2 } })
  else s

/-- A self-restart of the SCU fails every request (R400, R427). -/
def attFailAll : List Nat → State → State
  | [], s => s
  | k :: t, s => attFailAll t (if attBusy (mget s.fns k).att then attEnd s k 5 3 else s)

def attScuRestart (s : State) : State := { attFailAll (mkeys s.fns) s with signer := default }

end Sys2Proof.Machine
end

