-- ==== Sys2Proof/Machine/Startup.lean ====
section
/-! DEFINITION. POR_N and the start-up sequence (R25 to R37, R39 to R41, R449, R457). -/

set_option Elab.async false

namespace Sys2Proof.Machine

/-! ### POR_N (R449, R457) -/

/-- What the AON domain keeps while POR_N is asserted: everything but the straps and THERM_TRIP_N (R449, R450). -/
def aonUnderPor (a : Aon) : Aon := { a with split := false, smbAddr := 0, thermTrip := false }

/-- First flash address of a bank, and of the container in it. -/
def bankBase (b : Nat) : Nat := b * 0x04000000
def bankImage (b : Nat) : Nat := bankBase b + 0x1000

/-- The flash as POR_N leaves it: of a header sector whose erase is cut short no valid header remains (R55)
(a detail DEDUCED, log 28). -/
def flashCut (f : Flash) : Flash :=
  { (default : Flash) with cells := if f.state = 1 then cellClear f.cells (bankBase f.target) 0x1000 else f.cells }

/-- Every domain except AON is reset; the fuses and the flash keep what they hold. A burn or an erase in progress is cut
short (a detail DESIGN CHOICE, log 4; a detail DESIGN CHOICE, log 22). -/
def porReset (s : State) : State :=
  let s := burnLost s
  { State.reset with
    now := s.now
    fuses := s.fuses
    idSeed := s.idSeed
    grade := s.grade
    stepping := s.stepping
    flash := flashCut s.flash
    ports := s.ports.map (fun p => (p.1, { (default : HostPort) with perst := p.2.perst }))
    aon := aonUnderPor s.aon
    out := s.out
    freeIx := s.freeIx
    pending := s.pending }

/-- POR_ASSERT (R457). -/
def execPorAssert (s : State) : Host.Outcome State Fault Refusal := done (porReset s)

/-- Every rail is in range before POR_N is deasserted (R444) (a detail DEDUCED, log 27). -/
def railsUp : Map Region := (List.range 8).map (fun r => (r, { (default : Region) with pgood := true }))

/-- POR_DEASSERT (R25, R41, R328, R449): the straps are sampled, AON_TIME starts from 0 and phase FUSE begins
(a detail DESIGN CHOICE, log 5; a detail DEDUCED, log 27). -/
def execPorDeassert (hpSplit : Bool) (smbAddr : Nat) (s : State) : Host.Outcome State Fault Refusal :=
  if !s.por then done s
  else
    let (key, s) := freeBits 64 s
    done { s with
      now := 0, por := false
      scu := { s.scu with phase := 1 }
      dram := { s.dram with key := key }
      regions := railsUp
      aon := { s.aon with split := hpSplit, smbAddr := smbAddr % 4 } }

/-! ### Held (R39) -/

/-- A region parked as a Pupa. -/
def regionPupa (r : Region) : Region :=
  { r with awake := false, waking := false, wakeDeferred := false, trans := none, grant := 0, held := 0, overdraw := 0 }

/-- Entry to Held with a cause (R38, R39, R41) (a detail DEDUCED, log 27). -/
def heldEntry (s : State) (cause : Nat) : State :=
  { s with
    scu := { s.scu with phase := phaseHeld, cause := cause, bootTime := s.now, cfg := none, staging := none, stagingDigest := [] }
    regions := mmap s.regions (fun _ r => regionPupa r) }

/-- A phase ends: Held with its cause, or the next phase. -/
def phaseEnd (s : State) (cause next : Nat) : State :=
  if cause = 0 then { s with scu := { s.scu with phase := next } } else heldEntry s cause

/-! ### FUSE and DRAM (R25, R26, R28, R423) -/

/-- The always-on status block at the end of phase FUSE: the levels of the inputs and the straps stand
(a detail DEDUCED, log 27). -/
def aonInit (a : Aon) : Aon :=
  { (default : Aon) with
    inputs := mmap a.inputs (fun _ p => { (default : InputPin) with active := p.active })
    split := a.split
    smbAddr := a.smbAddr
    thermTrip := a.thermTrip }

/-- PHASE_FUSE_END (R25, R26, R434): the PCIe controllers of the present ports leave reset (a detail DEDUCED, log 27). -/
def execPhaseFuseEnd (s : State) : Host.Outcome State Fault Refusal :=
  if s.scu.phase ≠ 1 then done s
  else
    let s := { s with aon := aonInit s.aon }
    let ports := (List.range 2).map (fun p =>
      (p, { s.port p with training := portPresent s p && !(s.port p).perst }))
    done (phaseEnd { s with ports := ports } 0 2)

/-- PHASE_DRAM_END (R28, R423): the stacks that passed training and test, and the identity key
(a detail PRESUMED, log 7). -/
def execPhaseDramEnd (stack0 stack1 : Bool) (s : State) : Host.Outcome State Fault Refusal :=
  if s.scu.phase ≠ 2 then done s
  else
    let s := { s with
      scu := { s.scu with stack0 := stack0, stack1 := stack1 }
      idKey := slhKeygen slh256f (idSeeds s) }
    done (phaseEnd s (if stack0 || stack1 then 0 else 0x01) 3)

/-! ### FLASH (R30 to R33) -/

/-- The bank header as it stands in the flash. -/
def bankHeader (s : State) (b : Nat) : Bytes := cellReadBytes flashErased s.flash.cells (bankBase b) 128

def bhGeneration (h : Bytes) : Nat := le32 h 4
def bhLength (h : Bytes) : Nat := le32 h 8
def bhDigest (h : Bytes) : Bytes := slice h 0x10 64

/-- A header is valid (R30). -/
def bankHeaderOk (h : Bytes) : Bool := le32 h 0 = 0x42584A46 && crc32 (h.take 0x50) = le32 h 0x50 && bhLength h ≤ maxImage

/-- The active bank (R31). -/
def activeBank (s : State) : Option Nat :=
  let a := bankHeader s 0
  let b := bankHeader s 1
  match bankHeaderOk a, bankHeaderOk b with
  | true, true => some (if bhGeneration a < bhGeneration b then 1 else 0)
  | true, false => some 0
  | false, true => some 1
  | false, false => none

/-- PHASE_FLASH_END (R31 to R33): the active bank's container has been copied once. -/
def execPhaseFlashEnd (s : State) : Host.Outcome State Fault Refusal :=
  if s.scu.phase ≠ 3 then done s
  else
    match activeBank s with
    | none => done (heldEntry s 0x03)
    | some b =>
      let h := bankHeader s b
      let img := cellReadBytes flashErased s.flash.cells (bankImage b) (bhLength h)
      let s := { s with scu := { s.scu with bank := b, staging := some img, stagingDigest := digest64 img } }
      done (phaseEnd s (if digest64 img == bhDigest h then 0 else 0x06) 4)

/-! ### VERIFY, CHECK and LOAD (R34 to R37, R64) -/

/-- PHASE_VERIFY_END (R34, R35): on acceptance M0 is the digest of the copy. -/
def execPhaseVerifyEnd (s : State) : Host.Outcome State Fault Refusal :=
  if s.scu.phase ≠ 4 then done s
  else
    let b := s.scu.staging.getD []
    let c := imageVerifyCause s b
    let s := if headerOk b false then { s with scu := { s.scu with keySlot := ctKeySlot b } } else s
    let s := if c = 0 then
        { s with scu := { s.scu with m0 := s.scu.stagingDigest, mCur := s.scu.stagingDigest, moultSeq := 0 } }
      else s
    done (phaseEnd s c 5)

/-- PHASE_CHECK_END (R36, R64). -/
def execPhaseCheckEnd (s : State) : Host.Outcome State Fault Refusal :=
  if s.scu.phase ≠ 5 then done s else done (phaseEnd s (imageCheckCause s (s.scu.staging.getD [])) 6)

/-- A self-test wake: at VP0, whatever PWRBRK_N does (R29); a rail out of range fences the region (R443). -/
def selftestWake (s : State) (r : Nat) : State :=
  if (s.region r).fenced then s
  else if !(s.region r).pgood then regionFence s r
  else s.updRegion r (fun x => { x with waking := true, vsel := 0, vp := 0, target := 0, trans := some ⟨3, 0, 0, s.now⟩ })

def selftestWakes : List Nat → State → State
  | [], s => s
  | r :: t, s => selftestWakes t (selftestWake s r)

/-- What LOAD leaves of the staged image (R37, R326): its weights and tables at their DRAM locations, the rest of its
sections in the SCU's storage, and the staging area free. -/
def loadImage (s : State) : State :=
  let c := resultOf (s.scu.staging.getD []) none
  let at_ := imagePlaces (graphsStart c) c.graphs
  placeGraphs at_ c.graphs { s with scu := { s.scu with cfg := some (storedConfig c at_), staging := none, stagingDigest := [] } }

/-- PHASE_LOAD_END (R37): the image is loaded, the context records are zero and the pools are built; SELFTEST begins and
every region is woken. -/
def execPhaseLoadEnd (s : State) : Host.Outcome State Fault Refusal :=
  if s.scu.phase ≠ 6 then done s
  else
    let s := loadImage s
    let s := { s with
      scu := { s.scu with phase := 7 }
      store := default
      bpm := default
      parts := []
      devTuned := [] }
    done ((List.range 32).foldl selftestPlace (selftestWakes (List.range 8) s))

/-! ### SELFTEST (R29) -/

/-- Fence one failed cell until POR_N (a detail DEDUCED, log 27). -/
def selftestCell (s : State) (c : Nat) : State :=
  raiseAlarm (s.updCell c (fun x => { x with fenced := true, stuck := true, fencedAt := s.now + 1 })) (uRg + regionOfCell c) 0x80

def selftestCells : List Nat → State → State
  | [], s => s
  | c :: t, s => selftestCells t (if c < 256 && !(s.cell c).fenced then selftestCell s c else s)

/-- Blocks that SELFTEST fences: a failed line store, or eight failed cells. -/
def selftestBlocks (lines : List Nat) : List Nat → State → State
  | [], s => s
  | b :: t, s =>
    selftestBlocks lines t
      (if lines.contains b || (cellsOfBlock b).all (fun c => (s.cell c).fenced) then
        raiseAlarm (s.updBlock b (fun x => { x with fenced := true })) (uRg + regionOfBlock b) 0x81
      else s)

/-- A region left as a fenced Pupa (a detail DEDUCED, log 27). -/
def selftestRegion (s : State) (r : Nat) : State :=
  raiseAlarm (s.updRegion r (fun x => { regionPupa x with fenced := true })) (uRg + r) 0x82

/-- Regions that SELFTEST fences: a failed region store, or four fenced blocks. -/
def selftestRegions (stores : List Nat) : List Nat → State → State
  | [], s => s
  | r :: t, s =>
    selftestRegions stores t
      (if !(s.region r).fenced && (stores.contains r || (blocksOfRegion r).all (fun b => (s.block b).fenced)) then
        selftestRegion s r
      else s)

/-- Regions claimed by pinned partitions. -/
def claimedRegions (s : State) : Nat := countIf (List.range 8) (regionOwned s)
def healthyRegions (s : State) : Nat := countIf (List.range 8) (fun r => !(s.region r).fenced)

/-- Start the pinned partition with the higher number unpinned where the healthy regions are too few (R29)
(a detail DEDUCED, log 27). -/
def demoteAtStart (s : State) : State := if healthyRegions s < claimedRegions s + 1 then demoteOne s else s

/-- Every unfenced region ends its wake. -/
def wakeAll : List Nat → State → State
  | [], s => s
  | r :: t, s => wakeAll t (if (s.region r).fenced then s else wakeFinish s r)

/-- PHASE_SELFTEST_END (R29, R40): the cells, line stores and region stores that failed (a detail DEDUCED, log 27). -/
def execPhaseSelftestEnd (cells lineStores regionStores : List Nat) (s : State) : Host.Outcome State Fault Refusal :=
  if s.scu.phase ≠ 7 then done s
  else
    let s := selftestRegions regionStores (List.range 8) (selftestBlocks lineStores (List.range 32) (selftestCells cells s))
    let s := demoteAtStart (demoteAtStart s)
    let s := (partIds s).foldl (fun s p => if pinnedNow s p then alarmIfBare s [p] else s) s
    let s := wakeAll (List.range 8) s
    let s := ((s.ctxs.filter (fun c => c.2.kind == 3)).map (·.1)).foldl dropCtx s
    done { s with scu := { s.scu with phase := 8, cellsFencedAtBoot := cellsOut s } }

/-! ### PORTS and Imago (R27, R135, R238) -/

/-- Every slot of the plan in order. -/
def planOrder (c : Sections) : List Nat := sortBy (fun a b => decide (a ≤ b)) (c.streams.map seSlot)

/-- Add the streams of a list under configuration `seq`. -/
def addStreams (seq : Nat) : List Nat → State → State
  | [], s => s
  | i :: t, s => addStreams seq t (streamAdd s i seq)

/-- Imago entry (R27, R40, R41, R135, R238, R438, R439): the counters of the PAC, the partitions, the DMCs and the delivery
paths are zero, and the streams that need no host action are live. -/
def imagoEntry (s : State) : State :=
  let k := teKMin s.run.telemetry
  let s := { s with
    scu := { s.scu with phase := phaseImago, bootTime := s.now }
    pac := { s.pac with ctr := [] }
    regions := mmap s.regions (fun _ r => { r with counts := [], busyAt := s.now })
    parts := mmap s.parts (fun _ p => { p with sch := [], map := [], mapNew := [], ctxc := [], bpm := [] })
    dram := { s.dram with pcs := mmap s.dram.pcs (fun _ p => { p with ctr := [] }) }
    tu := { s.tu with paths := (List.range 10).map (fun p => (p, { s.path p with k := k, ctr := [] })) } }
  addStreams 0 (planOrder s.run) s

/-- PHASE_PORTS_END (R27): the functions and partitions exist and the device enters Imago. -/
def execPhasePortsEnd (s : State) : Host.Outcome State Fault Refusal :=
  if s.scu.phase ≠ 8 then done s else done (imagoEntry s)

/-- PHASE_TIMEOUT (R25): the phase in progress exceeds its bound (a detail DESIGN CHOICE, log 23). -/
def execPhaseTimeout (s : State) : Host.Outcome State Fault Refusal :=
  if 1 ≤ s.scu.phase && s.scu.phase ≤ 8 then done (heldEntry s 0x17) else done s

end Sys2Proof.Machine
end

