-- ==== Sys2Proof/Machine/Flash.lean ====
section
/-! DEFINITION. Writing the next image to the flash (R54 to R56, R390, R400, R452, R453). -/

set_option Elab.async false

namespace Sys2Proof.Machine

def offFlashLo : Nat := 0x0FF200
def offFlashHi : Nat := 0x0FF204
def offFlashLen : Nat := 0x0FF208
def offFlashCtrl : Nat := 0x0FF20C

/-- A programming operation is in progress: FLASH_STATUS.state 0x1 to 0x4 (R56). -/
def flashBusy (s : State) : Bool := 1 ≤ s.flash.state && s.flash.state ≤ 4

/-- FLASH_LEN.length. -/
def flashLen (s : State) : Nat := wbits (freg (s.fn 0 0) offFlashLen) 25 0

/-- Target bank: in Imago the bank not read at start-up, in Held the one that FLASH_CTRL.bank names (R54). -/
def flashTarget (s : State) : Nat := if s.held then wbits (freg (s.fn 0 0) offFlashCtrl) 2 2 else 1 - s.scu.bank

/-- FLASH_STATUS enters a state that sets the cause of PF0 of HPA (R376). -/
def flashEnter (s : State) (st cause : Nat) : State :=
  raiseIrq { s with flash := { s.flash with state := st, cause := cause } } 0 0 irqFlash

/-- The operation fails. -/
def flashFail (s : State) (cause : Nat) : State := flashEnter s 7 cause

/-- FLASH_CTRL.program (R54, R56): an over-long image fails at once; otherwise the erase of the target bank's header
sector begins (a detail DEDUCED, log 28). -/
def flashProgram (s : State) : State :=
  if flashBusy s then s
  else if maxImage < flashLen s then flashFail s 0x05
  else { s with flash := { s.flash with
    state := 1, cause := 0, progress := 0, target := flashTarget s, image := none, done := 0 } }

/-- FLASH_PROGRAM (R54, R56). -/
def execFlashProgram (s : State) : Host.Outcome State Fault Refusal :=
  if !fnTakes s 0 0 then done s
  else if s.scu.restarting then done (waitAccess .flashProgram s)
  else done (flashProgram s)

/-- FLASH_ERASE_DONE (R54, R453): the header sector is erased, and the image is read from host memory. The erases of the
image area go with the pages that need them (a detail PRESUMED, log 3; a detail DEDUCED, log 28). -/
def execFlashEraseDone (s : State) : Host.Outcome State Fault Refusal :=
  if s.flash.state ≠ 1 then done s
  else
    let s := { s with flash := { s.flash with
      state := 2, cells := cellClear s.flash.cells (bankBase s.flash.target) 4096 } }
    done (hpaRead s (hostAddr (s.fn 0 0) offFlashLo offFlashHi) (flashLen s))

/-- Programming continues with read-back once every byte is programmed (a detail DEDUCED, log 28). -/
def flashNext (s : State) : State :=
  match s.flash.image with
  | none => s
  | some b => if b.length ≤ s.flash.done then { s with flash := { s.flash with state := 3, progress := 0 } } else s

/-- FLASH_HOST_READ_DONE (R54): the image has been read once, or the read failed. -/
def execFlashHostReadDone (r : HostRead) (s : State) : Host.Outcome State Fault Refusal :=
  if s.flash.state ≠ 2 || s.flash.image.isSome then done s
  else
    match hpaData s r (flashLen s) with
    | none => done (flashFail (readCount s 0 0 r) 0x22)
    | some b => done (flashNext { s with flash := { s.flash with image := some b, done := 0 } })

/-- Progress in 1/256 of the length (R56). -/
def flashProgress (n len : Nat) : Nat := min 255 (256 * n / max len 1)

/-- The next 256-byte page of the image is in the flash (a detail DEDUCED, log 28). -/
def flashPage (s : State) (b : Bytes) : State :=
  let page := slice b s.flash.done 256
  let a := bankImage s.flash.target + s.flash.done
  let n := s.flash.done + page.length
  { s with flash := { s.flash with
      cells := cellWriteBytes flashErased (cellClear s.flash.cells a page.length) a page
      done := n
      progress := flashProgress n b.length } }

/-- FLASH_PAGE_PROGRAM_DONE (R453). -/
def execFlashPageProgramDone (statusError : Bool) (s : State) : Host.Outcome State Fault Refusal :=
  match s.flash.image with
  | none => done s
  | some b =>
    if s.flash.state ≠ 2 then done s
    else if statusError then done (flashFail s 0x30)
    else done (flashNext (flashPage s b))

/-- FLASH_READBACK_DONE (R38, R54): the digests agree and the pre-check passes, or the operation fails. -/
def execFlashReadbackDone (s : State) : Host.Outcome State Fault Refusal :=
  match s.flash.image with
  | none => done s
  | some b =>
    if s.flash.state ≠ 3 then done s
    else
      let back := cellReadBytes flashErased s.flash.cells (bankImage s.flash.target) b.length
      let s := { s with flash := { s.flash with progress := 255 } }
      if digest64 back != digest64 b then done (flashFail s 0x31)
      else if precheckCause s back ≠ 0 then done (flashFail s (precheckCause s back))
      else done (flashEnter s 5 0)

/-- FLASH_OP_TIMEOUT (R453): an erase or a page program exceeds its bound. -/
def execFlashOpTimeout (s : State) : Host.Outcome State Fault Refusal :=
  if s.flash.state = 1 || s.flash.state = 2 then done (flashFail s 0x30) else done s

/-- XSPI_DQS_TIMEOUT (R33, R452): the flash gives no data strobe (a detail DEDUCED, log 28). -/
def execXspiDqsTimeout (s : State) : Host.Outcome State Fault Refusal :=
  if s.scu.phase = 3 then done (heldEntry s 0x04)
  else if flashBusy s then done (flashFail s 0x04)
  else done s

/-- Generation of the header that a select writes (R54). -/
def nextGeneration (s : State) : Nat :=
  let gs := ((List.range 2).map (bankHeader s)).filter bankHeaderOk |>.map bhGeneration
  if gs.isEmpty then 1 else (gs.foldl max 0 + 1) % 2 ^ 32

/-- A bank header (R30). -/
def bankHeaderBytes (gen len : Nat) (digest : Bytes) : Bytes :=
  let h := toLe 4 0x42584A46 ++ toLe 4 gen ++ toLe 4 len ++ zeros 4 ++ padTo 64 digest
  h ++ toLe 4 (crc32 h) ++ zeros 44

/-- FLASH_CTRL.select (R54, R56) (a detail DEDUCED, log 28). In Held too it writes the bank that the program command
took, whatever FLASH_CTRL.bank holds since (a detail DESIGN CHOICE, log 20). -/
def flashSelect (s : State) : State :=
  match s.flash.image with
  | none => s
  | some b =>
    if s.flash.state ≠ 5 then s
    else
      let h := bankHeaderBytes (nextGeneration s) b.length (digest64 b)
      let a := bankBase s.flash.target
      flashEnter { s with flash := { s.flash with
        cells := cellWriteBytes flashErased (cellClear s.flash.cells a 128) a h } } 6 0

/-- FLASH_SELECT (R54, R56). -/
def execFlashSelect (s : State) : Host.Outcome State Fault Refusal :=
  if !fnTakes s 0 0 then done s
  else if s.scu.restarting then done (waitAccess .flashSelect s)
  else done (flashSelect s)

/-- A reset of HPA, or an FLR of its PF0, before the image has been read ends the operation (R390). -/
def flashReset (s : State) : State :=
  if (s.flash.state = 1 || s.flash.state = 2) && s.flash.image.isNone then flashFail s 0x22 else s

/-- A self-restart of the SCU ends the operation (R400). -/
def flashScuRestart (s : State) : State := if flashBusy s then flashFail s 0x30 else s

end Sys2Proof.Machine
end

