-- ==== Sys2Proof/Machine/Tune.lean ====
section
/-! DEFINITION. Tunable parameters (R42 to R45, R49, R80 to R82). -/

set_option Elab.async false

namespace Sys2Proof.Machine

def offTuneSel : Nat := 0x0FF010
def offTuneVal : Nat := 0x0FF014

/-- Result codes of R44. -/
def tuneDone : Nat := 0
def tuneUnknown : Nat := 1
def tuneNotOwner : Nat := 2
def tuneLow : Nat := 3
def tuneHigh : Nat := 4
def tuneBusy : Nat := 5

/-- The declaration that a function sees under an identifier: of device scope, or of its own partition. -/
def tuneDecl (s : State) (port fn id : Nat) : Option Bytes :=
  match partOfFn s port fn with
  | none => none
  | some p => cfgTunable s.run id p

/-- Slots of a partition in the running plan. -/
def planSlots (s : State) (p : Nat) : List Nat := (s.run.streams.filter (fun e => sePart e == p)).map seSlot

/-- Result of a write of `v` (R42, R44). -/
def tuneCheckWrite (port fn : Nat) (d : Bytes) (v : Int) : Nat :=
  if tuScope d = 0 && !(port == 0 && fn == 0) then tuneNotOwner
  else if v < tuMin d then tuneLow
  else if tuMax d < v then tuneHigh
  else tuneDone

/-- Result of a command as it is issued: kind 1 write, 2 read, 3 both (a detail DEDUCED, log 33). -/
def tuneCheck (s : State) (port fn kind id : Nat) (v : Int) : Nat :=
  if !s.imago then tuneUnknown
  else
    match tuneDecl s port fn id with
    | none => tuneUnknown
    | some d => if kind = 2 then tuneDone else tuneCheckWrite port fn d v

/-- Set a partition-scope parameter at every stream of a list. -/
def tuneStreams (id : Nat) (v : Int) : List Nat → State → State
  | [], s => s
  | i :: t, s => tuneStreams id v t (s.updStream i (fun x => { x with tun := mput x.tun id v }))

/-- A written value takes effect (R43, R82): a device-scope parameter at once, a partition-scope one at every stream of
the partition, whose access units and batches then take it as they close. -/
def tuneWriteValue (s : State) (port fn id : Nat) (v : Int) : State :=
  match tuneDecl s port fn id with
  | none => s
  | some d =>
    if tuScope d = 0 then { s with devTuned := mput s.devTuned id v }
    else
      let p := tuPart d
      tuneStreams id v (planSlots s p) (s.updPart p (fun x => { x with tuned := mput x.tuned id v }))

/-- Stream of a partition with the lowest slot number. -/
def lowestSlot (s : State) (p : Nat) : Option Nat := minByNat id (planSlots s p)

/-- Value that a read command returns (R82). -/
def tuneReadValue (s : State) (d : Bytes) : Int :=
  if tuScope d = 0 then (mfind s.devTuned (tuId d)).getD (devParam s (tuId d))
  else
    match mfind (s.part (tuPart d)).tuned (tuId d) with
    | some v => v
    | none =>
      match lowestSlot s (tuPart d) with
      | some i => tunPlanned ((cfgStream s.run i).getD []) (tuId d)
      | none => tuDefault d

/-- What is left of a command is carried out. -/
def tuneCarry (s : State) (port fn : Nat) (c : TuneCmd) : State :=
  if c.result ≠ tuneDone then s
  else
    let s := if c.kind % 2 = 1 then tuneWriteValue s port fn c.param (toSigned 32 c.value.toNat) else s
    if c.kind / 2 = 1 then
      match tuneDecl s port fn c.param with
      | none => s
      | some d => s.updFn port fn (fun f => { f with
          regs := mput f.regs offTuneVal (BitVec.ofNat 32 (ofSigned 32 (tuneReadValue s d))) })
    else s

/-- A command written to TUNE_CTRL: refused while one is in progress (R45), and without effect in Held (R39)
(a detail DEDUCED, log 33). While an accepted command is in progress TUNE_STATUS.result keeps the outcome of the one
before it (a detail DESIGN CHOICE, log 20). -/
def tuneIssue (s : State) (port fn kind : Nat) : State :=
  let f := s.fn port fn
  if kind = 0 then s
  else if f.tuneCmd.isSome then s.updFn port fn (fun f => { f with tuneResult := tuneBusy })
  else if s.held then s.updFn port fn (fun f => { f with tuneResult := tuneUnknown })
  else
    let id := wbits (freg f offTuneSel) 15 0
    let v := freg f offTuneVal
    let r := tuneCheck s port fn kind id (toSigned 32 v.toNat)
    s.updFn port fn (fun f => { f with tuneCmd := some ⟨kind, id, v, r⟩ })

/-- The command in progress completes: its own outcome is the result (a detail DEDUCED, log 33). -/
def tuneFinish (s : State) (port fn : Nat) : State :=
  match (s.fn port fn).tuneCmd with
  | none => s
  | some c => (tuneCarry s port fn c).updFn port fn (fun f => { f with tuneCmd := none, tuneResult := c.result })

/-- TUNE_WRITE (R43 to R45): write, or write and read, of the selected parameter. -/
def execTuneWrite (port fn : Nat) (andRead : Bool) (s : State) : Host.Outcome State Fault Refusal :=
  if !fnTakes s port fn then done s
  else if s.scu.restarting then done (waitAccess (.tuneWrite port fn andRead) s)
  else done (tuneIssue s port fn (if andRead then 3 else 1))

/-- TUNE_READ (R44, R45). -/
def execTuneRead (port fn : Nat) (s : State) : Host.Outcome State Fault Refusal :=
  if !fnTakes s port fn then done s
  else if s.scu.restarting then done (waitAccess (.tuneRead port fn) s)
  else done (tuneIssue s port fn 2)

/-- TUNE_COMMAND_COMPLETE (R43, R45). A command stays in progress through an SCU self-restart (R400). -/
def execTuneComplete (port fn : Nat) (s : State) : Host.Outcome State Fault Refusal :=
  if s.scu.restarting then done s else done (tuneFinish s port fn)

/-! ### Moult (R49, R51) -/

/-- Writes commanded before the commit instant apply under the old declarations; a read is left for completion
(a detail DEDUCED, log 33). -/
def tuneBeforeCommit (s : State) : List Nat → State
  | [] => s
  | k :: t =>
    let s := match (mget s.fns k).tuneCmd with
      | none => s
      | some c =>
        if c.kind % 2 = 1 then
          (tuneCarry s (k / 4) (k % 4) { c with kind := 1 }).updFn (k / 4) (k % 4) (fun f => { f with
            tuneCmd := some { c with kind := c.kind - 1 } })
        else s
    tuneBeforeCommit s t

/-- A value under a new declaration: kept within its range, else the default with a log (R49) (a detail DEDUCED, log 33). -/
def tuneRange (d : Bytes) (v : Int) : Int := if tuMin d ≤ v && v ≤ tuMax d then v else tuDefault d

/-- One device-scope parameter under a new configuration: kept or defaulted where both configurations declare it, and
otherwise its section's base value. -/
def retuneDevice (s : State) (old : Sections) (id : Nat) : State :=
  match cfgTunable old id 0xFF, cfgTunable s.run id 0xFF with
  | some d0, some d =>
    let v : Int := match mfind s.devTuned id with
      | some v => v
      | none => tuDefault d0
    let s := if tuneRange d v = v then s else raiseLog s uScu
    { s with devTuned := mput s.devTuned id (tuneRange d v) }
  | _, _ => { s with devTuned := mdel s.devTuned id }

/-- One stream's value of a partition-scope parameter under a changed declaration (a detail DEDUCED, log 33). -/
def retuneStream (id : Nat) (d : Option Bytes) (s : State) (i : Nat) : State :=
  match d with
  | none => s.updStream i (fun x => { x with tun := mdel x.tun id })
  | some d =>
    let v : Int := tunCurrent s i id
    if tuneRange d v = v then s else s.updStream i (fun x => { x with tun := mput x.tun id (tuneRange d v) })

/-- One partition-scope parameter of a partition under a new configuration. -/
def retunePart (s : State) (old : Sections) (p id : Nat) : State :=
  let d0 := cfgTunable old id p
  let d1 := cfgTunable s.run id p
  if d0 = d1 || d0.isNone then s
  else
    let slots := (mkeys s.streams).filter (fun i => slotPart s i == p)
    let moved := match d1 with
      | none => false
      | some d => slots.any (fun i => tuneRange d (tunCurrent s i id) != (tunCurrent s i id : Int))
    let s := slots.foldl (retuneStream id d1) s
    let s := s.updPart p (fun x => { x with tuned := mdel x.tuned id })
    if moved then raiseLogOf s uScu p 0xFFFF else s

/-- Every parameter under the configuration that has just committed, where `old` was the one before (R49)
(a detail DEDUCED, log 33). -/
def retune (s : State) (old : Sections) : State :=
  let s := [1, 2, 3].foldl (fun s id => retuneDevice s old id) s
  (s.run.partitions.map peId).foldl (fun s p => [0x10, 0x11, 0x12, 0x13].foldl (fun s id => retunePart s old p id) s) s

end Sys2Proof.Machine
end

