-- ==== Sys2Proof/Machine/Moult.lean ====
section
/-! DEFINITION. The Moult (R46 to R53, R64, R83, R84): a live, signed amendment to the running configuration. -/

set_option Elab.async false

namespace Sys2Proof.Machine

def offMoultLo : Nat := 0x0FF100
def offMoultHi : Nat := 0x0FF104
def offMoultLen : Nat := 0x0FF108

/-- A Moult is in progress: MOULT_STATUS.state 0x1 to 0x5 (R52). -/
def moultBusy (s : State) : Bool := 1 ≤ s.moult.state && s.moult.state ≤ 5

/-- A Moult that has not reached COMMIT (R50). -/
def moultEarly (s : State) : Bool := 1 ≤ s.moult.state && s.moult.state ≤ 4

/-- MOULT_LEN.length. -/
def moultLen (s : State) : Nat := wbits (freg (s.fn 0 0) offMoultLen) 26 0

/-- A Moult ends in REJECTED: what was staged for it is free again, and the cause of PF0 of HPA is set (R50, R52). -/
def moultReject (s : State) (cause : Nat) : State :=
  raiseIrq { s with moult := { s.moult with
    state := 7, cause := cause, container := [], keyState := 0, next := none, plan := [], resv := [] } } 0 0 irqMoult

/-- End a Moult before COMMIT with a cause. -/
def moultCut (s : State) (cause : Nat) : State := if moultEarly s then moultReject s cause else s

/-- MOULT_CTRL.go (R52). -/
def moultStart (s : State) : State :=
  if moultBusy s then s
  else if maxMoult < moultLen s then moultReject s 0x05
  else
    let s := { s with moult := { s.moult with state := 1, cause := 0 } }
    hpaRead s (hostAddr (s.fn 0 0) offMoultLo offMoultHi) (moultLen s)

/-- MOULT_GO (R39, R52): abort, where it is set in the same write, acts first. -/
def execMoultGo (andAbort : Bool) (s : State) : Host.Outcome State Fault Refusal :=
  if !fnTakes s 0 0 || s.held then done s
  else if s.scu.restarting then done (waitAccess (.moultGo andAbort) s)
  else done (moultStart (if andAbort then moultCut s 0x25 else s))

/-- MOULT_ABORT (R50, R52). -/
def execMoultAbort (s : State) : Host.Outcome State Fault Refusal :=
  if !fnTakes s 0 0 || s.held then done s
  else if s.scu.restarting then done (waitAccess .moultAbort s)
  else done (moultCut s 0x25)

/-- MOULT_FETCH_END (R47, R53, R421): the container has been read, and VERIFY starts by reading the slot's state. -/
def execMoultFetchEnd (r : HostRead) (s : State) : Host.Outcome State Fault Refusal :=
  if s.moult.state ≠ 1 then done s
  else
    match hpaData s r (moultLen s) with
    | none => done (moultReject (readCount s 0 0 r) 0x22)
    | some b => done { s with moult := { s.moult with state := 2, container := b, keyState := keySlotState s (ctKeySlot b) } }

/-- MOULT_VERIFY_END (R47, R64). -/
def execMoultVerifyEnd (s : State) : Host.Outcome State Fault Refusal :=
  if s.moult.state ≠ 2 then done s
  else
    let c := moultVerifyCause s s.moult.container
    if c = 0 then done { s with moult := { s.moult with state := 3 } } else done (moultReject s c)

/-- MOULT_CHECK_END (R47, R64, R238): the configuration that would result passes, and the runs of added streams are
placed. -/
def execMoultCheckEnd (s : State) : Host.Outcome State Fault Refusal :=
  if s.moult.state ≠ 3 then done s
  else
    let b := s.moult.container
    let c := moultCheckCause s b
    if c = 0 then
      let n := resultOf b (some s.run)
      done { s with moult := { s.moult with state := 4, next := some n, plan := (runPlan s n).getD [] } }
    else done (moultReject s c)

/-! ### STAGE and the commit instant (R47 to R49) -/

/-- Graphs of a configuration that no placement in DRAM holds yet: those that a Moult brings. -/
def newGraphs (c : Sections) : Map Bytes := c.graphs.filter (fun g => (mfind c.placed g.1).isNone)

/-- Buffers that a slot to be added takes when it becomes live, by partition × 16 + pool: its ring and its codebook
(R242, R288). -/
def slotTakes (c : Sections) (slot : Nat) : List (Nat × Nat) :=
  match cfgStream c slot with
  | none => []
  | some e =>
    let add (m : Map Nat) (k : Option Nat) (n : Nat) : Map Nat := match k with
      | none => m
      | some k => mupd m (sePart e * 16 + k) (· + n)
    add (add [] (if streamCache c e = 0 then none else smallestPool c (ringBytes c e)) (streamCache c e + 1))
      (smallestPool c cbBufBytes) 1

/-- Slots of two plans, in order. -/
def bothSlots (c0 c1 : Sections) : List Nat :=
  let a := c0.streams.map seSlot
  sortBy (fun x y => decide (x ≤ y)) (a ++ (c1.streams.map seSlot).filter (fun i => !a.contains i))

/-- Slots that switch at a frame boundary. -/
def affectedSlots (c0 c1 : Sections) : List Nat :=
  (bothSlots c0 c1).filter (fun i => match switchKind c0 c1 i with
    | .untouched => false
    | .added => false
    | _ => true)

/-- Slots that the new plan adds (a detail DEDUCED, log 32). -/
def addedSlots (c0 c1 : Sections) : List Nat :=
  (bothSlots c0 c1).filter (fun i => switchKind c0 c1 i == .added)

/-- Regions above the new vp_max are lowered at the commit instant (R367). -/
def lowerToMax : List Nat → State → State
  | [], s => s
  | r :: t, s => lowerToMax t (forceLower s r (vpMax s r))

/-- A port that the new settings disable goes down (R76) (a detail DEDUCED, log 32). -/
def portsFollow (s : State) : State :=
  { s with nps := mmap s.nps (fun i p => { p with link := p.link && neEnabled (cfgNet s.run i) }) }

/-- Open batches close as they are (R152). -/
def closeBatches (s : State) : State := (mkeys s.batches).foldl batchClose s

/-- The commit instant (R48): the configuration `new` runs; open batches of the old one close; affected streams still have to switch, added ones become
live (a detail DEDUCED, log 32). -/
def moultCommit (s : State) (new : Sections) : State :=
  let s := closeBatches (tuneBeforeCommit s (mkeys s.fns))
  let old := s.run
  let seq := moultSeqNew s
  let wait := affectedSlots old new
  let s := { s with
    scu := { s.scu with cfg := some new }
    moult := { s.moult with
      state := 5, cause := 0, next := none, commitAt := s.now, waiting := wait, adds := addedSlots old new
      olds := mput s.moult.olds s.scu.moultSeq old }
    streams := s.streams.map (fun p => if wait.contains p.1 then p else (p.1, { p.2 with cfgSeq := seq })) }
  let s := portsFollow (retune s old)
  let s := (List.range 8).foldl shadowDiscard s
  let s := lowerToMax (List.range 8) s
  moultFinish (moultAdds seq s.moult.adds s)

/-- What STAGE has done by its end (R47, R106): the new weights and tables lie at their places in DRAM, and the quotas of
added streams are reserved (a detail DEDUCED, log 32). -/
def moultStage (s : State) (n : Sections) (at_ : Map Nat) : State :=
  let s := placeGraphs at_ (newGraphs n) s
  { s with moult := { s.moult with resv := (addedSlots s.run n).map (fun i => (i, slotTakes n i)) } }

/-- The resulting configuration as the SCU keeps it, its new graphs at their places. -/
def stagedConfig (n : Sections) (at_ : Map Nat) : Sections :=
  storedConfig n (at_.foldl (fun m p => mput m p.1 p.2) n.placed)

/-- MOULT_STAGE_END (R47, R48, R65). -/
def execMoultStageEnd (s : State) : Host.Outcome State Fault Refusal :=
  match s.moult.next with
  | none => done s
  | some n =>
    if s.moult.state ≠ 4 then done s
    else
      match stagePlaces s (newGraphs n) (placedRanges s) with
      | none => done (moultReject s 0x23)
      | some at_ => done (moultCommit (moultStage s n at_) (stagedConfig n at_))

/-- MOULT_SWITCH_TIMEOUT (R48): 2 s after the commit instant a stream that has not switched does. -/
def execMoultSwitchTimeout (slot : Nat) (s : State) : Host.Outcome State Fault Refusal :=
  if s.moult.state = 5 && s.moult.waiting.contains slot then done (switchStream s slot) else done s

end Sys2Proof.Machine
end

