-- ==== Sys2Proof/Machine/HostPorts.lean ====
section
/-! DEFINITION. The host ports (R370 to R392): interrupts, record rings, resets, power states and configuration
requests. -/

set_option Elab.async false

namespace Sys2Proof.Machine

/-! ### Interrupts (R375, R376) -/

/-- The link carries messages: L0 or L1. -/
def linkUp (p : HostPort) : Bool := p.link == 1 || p.link == 2

/-- A port counts, as R440 numbers its counters. -/
def portCount (s : State) (port k : Nat) : State := hpCount s port k 1

/-- OR of the pending states of a port's functions. -/
def portPending (s : State) (port : Nat) : Bool :=
  (List.range 4).any (fun f => fnPresent s port f && irqPending (s.fn port f))

/-- Bring the INTA virtual wire to the OR of the pending states, where the link carries the message (R375)
(a detail DEDUCED, log 43). -/
def intaSync (s : State) (port : Nat) : State :=
  let want := portPending s port
  if want == (s.port port).inta || !linkUp (s.port port) then s
  else
    let s := emit (.inta port want) (s.updPort port (fun p => { p with inta := want }))
    if want then portCount s port 9 else s

/-- INTA_CHANGE (R375). -/
def execIntaChange (port : Nat) (s : State) : Host.Outcome State Fault Refusal := done (intaSync s port)

/-- Cause bits that a function has: moult and flash are those of PF0 of HPA alone (R376). -/
def irqBits (port fn : Nat) : Word := if port = 0 && fn = 0 then 0x3FFFFF else 0x27FFFF

/-- Write-1-to-clear of FN_IRQ_STATUS with the causes set in the same cycle: a set wins, and a reserved bit stays 0
(R7, R9, R376) (a detail DEDUCED, log 43). -/
def irqClear (s : State) (port fn : Nat) (value sets : Word) : State :=
  intaSync (s.updFn port fn (fun f => { f with
    irqStatus := (f.irqStatus &&& ~~~value) ||| (sets &&& irqBits port fn) })) port

/-- IRQ_STATUS_CLEAR (R9, R376). -/
def execIrqStatusClear (port fn : Nat) (value sets : Word) (s : State) : Host.Outcome State Fault Refusal :=
  done (irqClear s port fn (if fnTakes s port fn then value else 0) (if fnPresent s port fn then sets else 0))

/-! ### Record rings (R377 to R383) -/

def offRingSel : Nat := 0x0FD000

/-- Ring that RING_SEL selects. -/
def ringSel (f : Fn) : Nat := wbits (freg f offRingSel) 3 0

/-- Frames whose last unit has been served may free what they hold. -/
def sweepAll (s : State) : State := sweepSlots (mkeys s.streams) s

/-- After space or requests come back: write what is held, then the events that wait. -/
def ringServe (s : State) (port fn ring : Nat) : State :=
  let s := s.updRing port fn ring (fun r => { r with backoff := 0 })
  let s := ringDrain port fn ring (s.ring port fn ring).held.length s
  let s := if (s.ring port fn ring).held.isEmpty then s else ringWant s port fn ring
  sweepAll (pumpEvents s port fn)

/-- A ring stops with an error cause, which sets the function's ring_error (R376, R380). -/
def ringFail (s : State) (port fn ring cause : Nat) : State :=
  sweepAll (raiseIrq (ringStop s port fn ring true cause) port fn irqRingError)

/-- The interval doubles up to 1 ms (R379). -/
def ringBackoff (r : Ring) : Ring := { r with backoff := min 1000 (2 * r.backoff) }

/-- A consumer record: the count of records consumed, and the bind generation (R379, R380) (a detail DEDUCED, log 43). -/
def ringConsumer (s : State) (port fn ring : Nat) (b : Bytes) : State :=
  let r := s.ring port fn ring
  let behind := (r.prod % 2 ^ 32 + 2 ^ 32 - le32 b 0) % 2 ^ 32
  if byteAt b 4 ≠ r.gen then s.updRing port fn ring ringBackoff
  else if ringSize r < behind then ringFail s port fn ring 3
  else if r.consumed < r.prod - behind then
    ringServe (s.updRing port fn ring (fun x => { x with consumed := r.prod - behind })) port fn ring
  else s.updRing port fn ring ringBackoff

/-- RING_CONSUMER_READ (R379, R380): the consumer record that a ring needs is read. -/
def execRingConsumerRead (port fn ring : Nat) (r : HostRead) (s : State) : Host.Outcome State Fault Refusal :=
  let x := s.ring port fn ring
  if !x.bound || x.backoff = 0 || !canIssue (s.fn port fn) then done s
  else
    let s := emit (.hostRead port fn x.cons 8) s
    match r with
    | .failed _ => done (ringFail (readCount s port fn r) port fn ring 2)
    | .data b => done (ringConsumer s port fn ring (padTo 8 b))

/-- RING_HOLD_TIMEOUT (R380): the oldest held unit has waited 100 ms and is dropped whole. -/
def execRingHoldTimeout (port fn ring : Nat) (s : State) : Host.Outcome State Fault Refusal :=
  let s := ringDropOldest s port fn ring
  done (sweepAll (ringDrain port fn ring (s.ring port fn ring).held.length s))

/-- RING_IRQ_DELAY (R381): irq_delay has passed since the first record written after the bit was last set. -/
def execRingIrqDelay (port fn ring : Nat) (s : State) : Host.Outcome State Fault Refusal :=
  let r := s.ring port fn ring
  if r.bound && r.irqFirst ≠ 0 then
    done (raiseIrq (s.updRing port fn ring (fun r => { r with irqRecords := 0, irqFirst := 0 })) port fn ring)
  else done s

/-- Fields of the ring registers as written (R382). -/
def rgBase (r : Ring) : Nat := wbits r.baseLo 31 12 * 4096 + r.baseHi.toNat * 2 ^ 32
def rgCons (r : Ring) : Nat := wbits r.consLo 31 3 * 8 + r.consHi.toNat * 2 ^ 32
def rgLog2 (r : Ring) : Nat := wbits r.cfg 4 0
def rgEvents (r : Ring) : Bool := wbit r.cfg 5

/-- The configuration of a bind is valid (R383). -/
def ringBindOk (f : Fn) (ring : Nat) (r : Ring) : Bool :=
  12 ≤ rgLog2 r && rgLog2 r ≤ 20 && rgBase r % (64 * 2 ^ rgLog2 r) = 0 && rgCons r ≠ 0 &&
    !(rgEvents r && f.rings.any (fun p => p.1 != ring && p.2.bound && p.2.events))

/-- Stop a bound ring (R380, R382). -/
def ringUnbind (s : State) (port fn ring : Nat) : State :=
  if (s.ring port fn ring).bound then sweepAll (ringStop s port fn ring false 0) else s

/-- RING_CTRL.bind (R382, R383) (a detail DEDUCED, log 43). -/
def ringBind (s : State) (port fn ring : Nat) : State :=
  let s := ringUnbind s port fn ring
  let r := s.ring port fn ring
  if ringBindOk (s.fn port fn) ring r then
    let s := s.updRing port fn ring (fun r => { r with
      base := rgBase r, cons := rgCons r, log2 := rgLog2 r, irqCount := wbits r.cfg 19 8, irqDelay := wbits r.cfg 31 20
      events := rgEvents r, bound := true, error := false, cause := 0, gen := (r.gen + 1) % 256, prod := 0, consumed := 0
      backoff := 0, lostUnits := 0, lostBytes := 0, held := [], irqRecords := 0, irqFirst := 0 })
    pumpEvents s port fn
  else raiseIrq (s.updRing port fn ring (fun r => { r with error := true, cause := 1 })) port fn irqRingError

/-- RING_BIND (R382, R383), of the ring that RING_SEL selects. -/
def execRingBind (port fn : Nat) (s : State) : Host.Outcome State Fault Refusal :=
  if fnTakes s port fn then done (ringBind s port fn (ringSel (s.fn port fn))) else done s

/-- RING_UNBIND (R382), of the ring that RING_SEL selects. -/
def execRingUnbind (port fn : Nat) (s : State) : Host.Outcome State Fault Refusal :=
  if fnTakes s port fn then done (ringUnbind s port fn (ringSel (s.fn port fn))) else done s

/-- A function may issue requests again: its rings go on (R380, R384). -/
def fnResume (s : State) (port fn : Nat) : State :=
  (mkeys (s.fn port fn).rings).foldl (fun s r => if (s.ring port fn r).bound then ringServe s port fn r else s) s

/-! ### Resets (R388 to R390) -/

/-- An offset of BAR0 in the PCIe core domain whose register a function reset returns to its reset value (R388, R432)
(a detail PRESUMED, log 21). -/
def coreOffset (off : Nat) : Bool := (0x0FD000 ≤ off && off < 0x0FD300) || (0x0FE100 ≤ off && off < 0x0FE200)

/-- The registers of a function after a reset. The Max_Payload_Size field of Device Control and the PME bits are kept, as
the PCI Express Base Specification has it (log 21). -/
def fnReset (f : Fn) : Fn :=
  { f with
    memEnable := false, bme := false, intDisable := false, dstate := 0
    config := [(0x78, mget f.config 0x78 &&& 0xE0)]
    irqStatus := 0, irqMask := 0
    regs := f.regs.filter (fun p => !coreOffset p.1)
    hold := f.hold.filter (fun p => !coreOffset p.1)
    rings := [], inj := { (default : Inj) with gen := f.inj.gen } }

/-- A stream of a partition under reset: its run of records is zeroed, and it waits to be added again (R388). -/
def streamPause (s : State) (slot : Nat) : State :=
  let st := s.stream slot
  let s := if 0 < st.count then recPut s st.base (zeros 256) else s
  s.updStream slot (fun x => { x with live := false, pausedByReset := true, kvRing := [], adp := none })

/-- Slots that a partition has, in order. -/
def ownSlots (s : State) (p : Nat) : List Nat :=
  (mkeys s.streams).filter (fun i => !(s.se i).isEmpty && slotPart s i == p)

/-- Contexts and batches of a partition. -/
def partCtxs (s : State) (p : Nat) : List Nat := (s.ctxs.filter (fun c => c.2.part == p)).map (·.1)
def partBatches (s : State) (p : Nat) : List Nat := (s.batches.filter (fun b => b.2.part == p)).map (·.1)

/-- Every frame of a partition in flight is discarded, as for a removed stream, with ledger cause 2 (R24, R388 step 3,
R402, R416). -/
def partDiscard (s : State) (p : Nat) : State := (ownSlots s p).foldl (fun s i => streamDiscard s i 2) s

/-- The rest of steps 3 and 4 of R388 for a partition. -/
def partReset (s : State) (p : Nat) : State :=
  let s := (ownSlots s p).foldl streamPause s
  let s := (partCtxs s p).foldl dropCtx s
  let s := (partBatches s p).foldl batchDrop s
  clearPartition p (mkeys s.bpm.desc) s

/-- The partition that a function owns, if any. -/
def ownPart (s : State) (port fn : Nat) : List Nat := (partOfFn s port fn).toList

/-- Steps 1 to 6 of R388 for a function that is not already under reset; for PF0 of HPA, what R390 ends (R50, R419). The
ledger entries that show the discards go out before the function stops issuing requests (R402, R416) (a detail DEDUCED,
log 43). -/
def flrStart (s : State) (port fn : Nat) : State :=
  if !fnPresent s port fn || (s.fn port fn).resetting then s
  else
    let s := if port = 0 && fn = 0 then keyAbort (flashReset (moultCut s 0x25)) else s
    let s := attReset s port fn
    let ps := ownPart s port fn
    let s := (ps.foldl partDiscard s).updFn port fn (fun f => { f with resetting := true })
    (ps.foldl partReset (injDisable s port fn)).updFn port fn fnReset

/-- FLR (R388), of a function that no reset is already working on. -/
def execFlr (port fn : Nat) (s : State) : Host.Outcome State Fault Refusal :=
  if !fnPresent s port fn || (s.fn port fn).resetting then done s
  else
    let s := portCount { s with aon := { s.aon with flrs := satAdd 255 s.aon.flrs 1 } } port 3
    done (intaSync (flrStart s port fn) port)

/-- A stream is added again under the configuration it had (R49, R388 step 7). -/
def streamResume (s : State) (slot : Nat) : State :=
  if (s.stream slot).pausedByReset then
    streamAdd (s.updStream slot (fun x => { x with pausedByReset := false })) slot (s.stream slot).cfgSeq
  else s

/-- FLR_COMPLETE (R388, R389): step 7 of a function; a whole port's reset ends with that of its last function. -/
def execFlrComplete (port fn : Nat) (s : State) : Host.Outcome State Fault Refusal :=
  if !(s.fn port fn).resetting then done s
  else
    let s := s.updFn port fn (fun f => { f with resetting := false })
    let s := ((ownPart s port fn).flatMap (ownSlots s)).foldl streamResume s
    let more := (List.range 4).any (fun f => (s.fn port f).resetting)
    done (s.updPort port (fun p => { p with resetting := p.resetting && more }))

/-- Port through which a waiting access came; the requests of MOULT, FLASH and KEY come through HPA. -/
def waitPort (c : Instr) : Nat :=
  match c with
  | .tuneWrite port _ _ => port
  | .tuneRead port _ => port
  | .attGo port _ => port
  | .registerWrite port _ _ _ _ => port
  | .barMemoryRead port _ _ _ => port
  | .counterLowRead (.host port _) _ _ => port
  | _ => 0

/-- With the link of a port down, what it had asked of a controller is dropped, and no request of its functions leaves
(R389, R391) (a detail DEDUCED, log 26). -/
def portSilence (s : State) (port : Nat) : State :=
  { s with
    waits := s.waits.filter (fun c => waitPort c != port)
    fns := mmap s.fns (fun k f => if k / 4 = port then { f with bme := false } else f) }

/-- A reset of a port: its link goes down, and every function runs the steps of R388 at once (R389) (a detail DEDUCED,
log 43). -/
def portReset (s : State) (port : Nat) (train : Bool) : State :=
  let any := (List.range 4).any (fnPresent s port)
  let s := if port = 0 then { s with aon := { s.aon with hpaResets := satAdd 255 s.aon.hpaResets 1 } }
    else { s with aon := { s.aon with hpbResets := satAdd 255 s.aon.hpbResets 1 } }
  let s := s.updPort port (fun p => { p with
    link := 0, rate := 0, width := 0, training := train, inta := false, resetting := p.resetting || any })
  (List.range 4).foldl (fun s f => flrStart s port f) (portSilence s port)

/-- A port that a reset can act on: present, with POR_N inactive. -/
def portActive (s : State) (port : Nat) : Bool := portPresent s port && !s.por

/-- The PCIe controllers have left reset (R25). -/
def portReleased (s : State) : Bool := 2 ≤ s.scu.phase

/-- HOT_RESET (R389). -/
def execHotReset (port : Nat) (s : State) : Host.Outcome State Fault Refusal :=
  if portActive s port then done (portReset (portCount s port 1) port (portReleased s)) else done s

/-- DL_DOWN (R389). -/
def execDlDown (port : Nat) (s : State) : Host.Outcome State Fault Refusal :=
  if portActive s port then done (portReset (portCount s port 0) port (portReleased s)) else done s

/-- PERST_ASSERT (R386, R389, R457): WAKE_x_N is released; while POR_N is active there is no other effect. -/
def execPerstAssert (port : Nat) (s : State) : Host.Outcome State Fault Refusal :=
  if 2 ≤ port then done s
  else
    let was := (s.port port).perst
    let s := inputRise (s.updPort port (fun p => { p with perst := true, wake := false })) (2 + port)
    if was || !portActive s port then done s else done (portReset (portCount s port 2) port false)

/-- PERSTx_N is released: link training may start (R26, R389). -/
def perstFall (s : State) (port : Nat) : State :=
  let train := portActive s port && portReleased s
  inputFall (s.updPort port (fun p => { p with perst := false, training := train })) (2 + port)

/-- PERST_DEASSERT (R389). -/
def execPerstDeassert (port : Nat) (s : State) : Host.Outcome State Fault Refusal :=
  if 2 ≤ port || !(s.port port).perst then done s else done (perstFall s port)

/-- INPUT_STUCK_RELEASE (R364, R367): the release of a stuck input ends its effect and clears its flag. -/
def execInputStuckRelease (input : Nat) (s : State) : Host.Outcome State Fault Refusal :=
  if !(mget s.aon.inputs input).stuck then done s
  else if input = 0 then done (pwrbrkFall s)
  else if input = 1 then done (thermFall s)
  else done (perstFall s (input - 2))

/-- PCIE_LINK_UP (R26): the link trains to DL_Active. -/
def execPcieLinkUp (port rate width : Nat) (s : State) : Host.Outcome State Fault Refusal :=
  if portActive s port && (s.port port).training && !(s.port port).perst && (s.port port).link ≠ 3 then
    done (intaSync (s.updPort port (fun p => { p with link := 1, rate := rate, width := width })) port)
  else done s

/-! ### Power states (R384 to R387) -/

/-- Every function of the port is in D3hot. -/
def allD3 (s : State) (port : Nat) : Bool :=
  let fs := (List.range 4).filter (fnPresent s port)
  !fs.isEmpty && fs.all (fun f => (s.fn port f).dstate == 3)

/-- The link follows the functions' D-states: L1 with all of them in D3hot, L0 otherwise. -/
def linkFollow (s : State) (port : Nat) : State :=
  if linkUp (s.port port) then s.updPort port (fun p => { p with link := if allD3 s port then 2 else 1 }) else s

/-- A function moves to a D-state; D0 and D3hot are the ones it supports. -/
def dStateSet (s : State) (port fn d : Nat) : State :=
  if (d = 0 || d = 3) && d ≠ (s.fn port fn).dstate then
    let s := linkFollow (s.updFn port fn (fun f => { f with dstate := d })) port
    if d = 0 then fnResume s port fn else s
  else s

/-- A configuration request reaches the function (R26, R388, R389). -/
def configReady (s : State) (port fn : Nat) : Bool :=
  fnPresent s port fn && !(s.fn port fn).resetting && !(s.port port).resetting

/-- D_STATE_CHANGE (R384): a write of PMCSR. -/
def execDStateChange (port fn dstate : Nat) (s : State) : Host.Outcome State Fault Refusal :=
  if configReady s port fn then done (dStateSet s port fn dstate) else done s

/-- PME_TURN_OFF (R384): acknowledged; the link enters L2/L3 Ready only with every function in D3hot. -/
def execPmeTurnOff (port : Nat) (s : State) : Host.Outcome State Fault Refusal :=
  if portActive s port && linkUp (s.port port) then
    let s := emit (.pmeToAck port) s
    done (if allD3 s port then s.updPort port (fun p => { p with link := 3 }) else s)
  else done s

/-- Send PM_PME, from L0, or drive WAKE_x_N with the link in L2/L3 Ready (R386) (a detail DEDUCED, log 43). -/
def pmeSend (s : State) (port fn : Nat) : State :=
  if linkUp (s.port port) then
    portCount (emit (.pmPme port fn) (s.updPort port (fun p => { p with link := 1 }))) port 8
  else if (s.port port).link = 3 then s.updPort port (fun p => { p with wake := true })
  else s

/-- PME_SIGNAL (R386). -/
def execPmeSignal (port fn : Nat) (s : State) : Host.Outcome State Fault Refusal :=
  let f := s.fn port fn
  if fnPresent s port fn && f.dstate = 3 && f.pmeEn && !f.pmeStatus && irqCause f then
    done (pmeSend (s.updFn port fn (fun f => { f with pmeStatus := true })) port fn)
  else done s

/-- PME_REPEAT (R386): every 100 ms until PME_Status is cleared. -/
def execPmeRepeat (port fn : Nat) (s : State) : Host.Outcome State Fault Refusal :=
  if fnPresent s port fn && (s.fn port fn).pmeStatus then done (pmeSend s port fn) else done s

/-! ### Configuration requests (R26, R371, R373, R388). The places of the capabilities are the model's (log 21). -/

/-- Command and Status: the Interrupt Status bit shows the pending cause whatever Interrupt Disable holds (R375)
(a detail PRESUMED, log 21). -/
def cfgCommand (f : Fn) : Word :=
  wflag f.memEnable 1 ||| wflag f.bme 2 ||| wflag f.intDisable 10 ||| wflag (irqCause f) 19 ||| wflag true 20

/-- PMCSR (R384, R386) (a detail PRESUMED, log 21). -/
def cfgPmcsr (f : Fn) : Word := fld f.dstate 1 0 ||| wflag true 3 ||| wflag f.pmeEn 8 ||| wflag f.pmeStatus 15

/-- Mask of the writable address bits of a BAR register, and its fixed type bits; in Held a function presents no BAR2
(R39, R373). -/
def barMask (s : State) (fn reg : Nat) : Word × Word :=
  if reg = 0x10 then (0xFFF00000, 4)
  else if reg = 0x14 then (0xFFFFFFFF, 0)
  else if s.held && (reg = 0x18 || reg = 0x1C) then (0, 0)
  else if reg = 0x18 then (0xF0000000, 0xC)
  else if reg = 0x1C then (0xFFFFFFFF, 0)
  else if reg = 0x20 && fn = 0 then (0xFF000000, 4)
  else if reg = 0x24 && fn = 0 then (0xFFFFFFFF, 0)
  else (0, 0)

def isBar (reg : Nat) : Bool := 0x10 ≤ reg && reg ≤ 0x24

/-- A read of configuration space (a detail PRESUMED, log 21). -/
def configRead (s : State) (port fn reg : Nat) : Word :=
  let f := s.fn port fn
  let open_ := Config.configSpace port fn reg
  if reg = 0x00 then (open_ &&& 0xFFFF) ||| wfield (if fn = 0 then 0x5120 else 0x5121) 16
  else if reg = 0x04 then cfgCommand f
  else if reg = 0x08 then fld s.stepping 7 0 ||| wfield 0x120000 8
  else if isBar reg then (mget f.config reg &&& (barMask s fn reg).1) ||| (barMask s fn reg).2
  else if reg = 0x34 then 0x40
  else if reg = 0x3C then (mget f.config reg &&& 0xFF) ||| wfield 1 8
  else if reg = 0x40 then 0xC8037001
  else if reg = 0x44 then cfgPmcsr f
  else if reg = 0x78 then mget f.config reg &&& 0x70E0
  else if reg = 0x98 then mget f.config reg &&& 0x1F
  else open_

/-- A write of configuration space: Command, BARs, Interrupt Line, PMCSR, Device Control with its Initiate FLR bit, and
Device Control 2 (a detail PRESUMED, log 21). -/
def configWrite (s : State) (port fn reg : Nat) (v : Word) : State :=
  let keep (s : State) : State := s.updFn port fn (fun f => { f with config := mput f.config reg v })
  if reg = 0x04 then
    let was := (s.fn port fn).bme
    let s := s.updFn port fn (fun f => { f with memEnable := wbit v 1, bme := wbit v 2, intDisable := wbit v 10 })
    let s := if wbit v 2 && !was then fnResume s port fn else s
    intaSync s port
  else if reg = 0x44 then
    let s := s.updFn port fn (fun f => { f with pmeEn := wbit v 8, pmeStatus := f.pmeStatus && !wbit v 15 })
    dStateSet s port fn (wbits v 1 0)
  else if reg = 0x78 then
    let s := keep s
    if wbit v 15 then
      let s := portCount { s with aon := { s.aon with flrs := satAdd 255 s.aon.flrs 1 } } port 3
      intaSync (flrStart s port fn) port
    else s
  else if isBar reg || reg = 0x3C || reg = 0x98 then keep s
  else s

/-- An Unsupported Request completion, which the port counts (R440). -/
def unsupported (s : State) (port fn : Nat) : State := portCount (emit (.unsupported port fn) s) port 6

/-- CONFIG_REQUEST (R26, R388, R389). -/
def execConfigRequest (port fn reg : Nat) (write : Option Word) (s : State) : Host.Outcome State Fault Refusal :=
  if !portActive s port || !portReleased s then done s
  else if !(s.imago || s.held) || (fnPresent s port fn && !configReady s port fn) then done (emit (.retry port fn) s)
  else if !fnPresent s port fn then done (unsupported s port fn)
  else
    match write with
    | none => done (emit (.configData port fn reg (configRead s port fn reg)) s)
    | some v => done (emit (.writeDone port fn) (configWrite s port fn reg v))

end Sys2Proof.Machine
end

