-- ==== Sys2Proof/Machine/Client.lean ====
section
/-! DEFINITION. The client's arithmetic (R278 to R281), which the search simulates, and the payload's symbols, their
rate and the range coder (R284, R297, R298). -/

set_option Elab.async false

namespace Sys2Proof.Machine

/-! ### Base picture (R278) -/

/-- A sample of the base picture: 10-bit samples become 8-bit ones. -/
def baseSample (bd v : Nat) : Int := if bd = 8 then (v : Int) else ((min 255 ((v + 2) / 4) : Nat) : Int)

/-- Luma plane of the base picture. -/
def baseLuma (p : PicData) : PicPlane := ⟨p.w, p.h, p.y.map (baseSample p.bitDepth)⟩

/-- Chroma planes of the base picture; 128 throughout for a monochrome source. -/
def baseChroma (p : PicData) : PicPlane × PicPlane :=
  let w := (p.w + 1) / 2
  let h := (p.h + 1) / 2
  if p.mono then (⟨w, h, List.replicate (w * h) 128⟩, ⟨w, h, List.replicate (w * h) 128⟩)
  else (⟨w, h, p.cb.map (baseSample p.bitDepth)⟩, ⟨w, h, p.cr.map (baseSample p.bitDepth)⟩)

/-- Tiles across a picture of width `w`. -/
def tileCols (w : Nat) : Nat := ceilDiv w 16

/-- Pixels of tile `t` of a picture, in raster order. -/
def tilePix (w h t : Nat) : List (Nat × Nat) :=
  let tx := t % tileCols w
  let ty := t / tileCols w
  (List.range 16).flatMap (fun j => (List.range 16).filterMap (fun i =>
    if 16 * tx + i < w && 16 * ty + j < h then some (16 * tx + i, 16 * ty + j) else none))

/-! ### Sharpened frame (R279) -/

/-- Coefficient c[dy][dx] of a kernel of 25 INT8 bytes, dy and dx from 0 to 4. -/
def kernCoef (k : Bytes) (dy dx : Nat) : Int := toSigned 8 (byteAt k (5 * dy + dx))

/-- The weighted sum of differences of the 25 neighbours. -/
def kernSum (y : PicPlane) (k : Bytes) (px py : Nat) : Int :=
  let c := y.at px py
  (List.range 5).foldl (fun (a : Int) (dy : Nat) => (List.range 5).foldl (fun (a : Int) (dx : Nat) =>
    a + kernCoef k dy dx * (y.at ((px : Int) + dx - 2) ((py : Int) + dy - 2) - c)) a) 0

/-- Gain in effect under a tile's Eyespot. -/
def effGain (gain eye : Nat) : Nat := if eye = 0 || eye = 2 then gain else if eye = 1 then gain / 2 else 0

/-- The nine samples of the clamped 3 × 3 neighbourhood. -/
def nine (y : PicPlane) (px py : Nat) : List Int :=
  (List.range 3).flatMap (fun (j : Nat) => (List.range 3).map (fun (i : Nat) => y.at ((px : Int) + i - 1) ((py : Int) + j - 1)))

/-- One sharpened sample from the base sample, effective gain `g` and the sum `d`. -/
def sharpOne (v d : Int) (g : Nat) : Int := clampInt 0 255 (v + clampInt (-64) 64 (((g : Int) * d + 128) / 256))

/-- One sharpened sample. -/
def sharpAt (y : PicPlane) (k : Bytes) (gain eye px py : Nat) : Int :=
  let g := effGain gain eye
  let c := y.at px py
  if g = 0 then c
  else
    let v := sharpOne c (kernSum y k px py) g
    if eye = 2 then
      let n := nine y px py
      min (max v (n.foldl min c)) (n.foldl max c)
    else v

/-- The sharpened luma of a picture. -/
def sharpen (y : PicPlane) (tiles : List Tile) (kern : List Bytes) : PicPlane :=
  ⟨y.w, y.h, (List.range y.h).flatMap (fun py => (List.range y.w).map (fun px =>
    let t := tiles.getD (py / 16 * tileCols y.w + px / 16) default
    sharpAt y (kern.getD t.token []) t.gain t.eyespot px py))⟩

/-! ### In-between frames (R280, R281) -/

/-- samp of R280. -/
def samp (p : PicPlane) (x y : Nat) (vx vy : Int) (sh : Nat) : Int :=
  let n : Int := (2 : Int) ^ sh
  let px := (x : Int) * n + vx
  let py := (y : Int) * n + vy
  let ix := px / n
  let fx := px % n
  let iy := py / n
  let fy := py % n
  ((n - fx) * (n - fy) * p.at ix iy + fx * (n - fy) * p.at (ix + 1) iy + (n - fx) * fy * p.at ix (iy + 1) +
    fx * fy * p.at (ix + 1) (iy + 1) + n * n / 2) / (2 : Int) ^ (2 * sh)

/-- Component `i` of a tile's entry for one in-between frame: v0x, v0y, v1x, v1y, w. -/
def mvC (mv : List Int) (i : Nat) : Int := mv.getD i 0

/-- between of R280. -/
def between (p0 p1 : PicPlane) (x y : Nat) (mv : List Int) (sh : Nat) : Int :=
  ((16 - mvC mv 4) * samp p0 x y (mvC mv 0) (mvC mv 1) sh + mvC mv 4 * samp p1 x y (mvC mv 2) (mvC mv 3) sh + 8) / 16

/-- Blend weight of frame `m` of `M` where a tile is not covered. -/
def defaultW (m mm : Nat) : Nat := (32 * m + mm + 1) / (2 * mm + 2)

/-- Vectors of zero with the weights of R281. -/
def defaultMvs (mm : Nat) : List (List Int) :=
  (List.range mm).map (fun i => [0, 0, 0, 0, ((defaultW (i + 1) mm : Nat) : Int)])

/-- A tile that is not covered. -/
def uncoveredTile (mm : Nat) : Tile := ⟨false, false, 0, 0, 0, defaultMvs mm, 0, false⟩

/-- A covered skip tile. -/
def skipTile (mvs : List (List Int)) (dist : Nat) : Tile := ⟨true, true, 0, 0, 0, mvs, dist, false⟩

/-! ### Symbols (R298) -/

/-- One coded bit: its value, and its probability of a 0. -/
abbrev CodedBit := Bool × Nat

/-- Probability table indices. -/
def pSkip : Nat := 0
def pSame : Nat := 1
def pToken : Nat := 2
def pGain : Nat := 1025
def pEye : Nat := 1040
def pZero : Nat := 1043
def pMag : Nat := 1044
def pWeight : Nat := 1060
/-- Probability of the bits coded at p0 2,048. -/
def pHalf : Nat := 2048

/-- An n-bit tree value, most significant bit first. -/
def treeBits (probs : List Nat) (base v : Nat) : Nat → Nat → List CodedBit
  | 0, _ => []
  | n + 1, node =>
    let b := v / 2 ^ n % 2
    (b == 1, probs.getD (base + node - 1) 0) :: treeBits probs base v n (2 * node + b)

/-- A signed difference from its predictor. -/
def deltaBits (probs : List Nat) (d : Int) : List CodedBit :=
  if d = 0 then [(true, probs.getD pZero 0)]
  else
    let m1 := d.natAbs
    let k := bitLen m1 - 1
    let pre (i : Nat) : Nat := probs.getD (pMag + min i 15) 0
    [(false, probs.getD pZero 0), (decide (d < 0), pHalf)] ++ (List.range k).map (fun i => (true, pre i)) ++
      [(false, pre k)] ++ (List.range k).map (fun i => (m1 / 2 ^ (k - 1 - i) % 2 == 1, pHalf))

/-- Vector pair that predicts frame `m` of tile `t`. -/
def vecPred (cols : Nat) (tiles : List Tile) (t m : Nat) : List Int :=
  let at_ (i : Nat) : List Int := (((tiles.getD i default).mvs.getD m []) ++ [0, 0, 0, 0]).take 4
  if t % cols ≠ 0 && (tiles.getD (t - 1) default).covered then at_ (t - 1)
  else if cols ≤ t && (tiles.getD (t - cols) default).covered then at_ (t - cols)
  else [0, 0, 0, 0]

/-- Symbols of the vectors and weights of one tile. -/
def motionBits (probs : List Nat) (cols mm : Nat) (tiles : List Tile) (t : Nat) : List CodedBit :=
  (List.range mm).flatMap (fun m =>
    let mv := (tiles.getD t default).mvs.getD m []
    let p := vecPred cols tiles t m
    (List.range 4).flatMap (fun i => deltaBits probs (mvC mv i - mvC p i)) ++
      treeBits probs pWeight (mvC mv 4).toNat 5 1)

/-- Symbols of a tile's choice, given the last preceding non-skip token (a detail DEDUCED, log 42). -/
def choiceBits (probs : List Nat) (last : Option Nat) (x : Tile) : List CodedBit :=
  if x.skip then [(true, probs.getD pSkip 0)]
  else
    let same := last == some x.token
    [(false, probs.getD pSkip 0)] ++
      (match last with
        | none => []
        | some _ => [(same, probs.getD pSame 0)]) ++
      (if same then [] else treeBits probs pToken x.token 10 1) ++ treeBits probs pGain x.gain 4 1 ++
      treeBits probs pEye x.eyespot 2 1

/-- Symbols of the tiles from index `t`, in ascending order. -/
def tileBits (probs : List Nat) (cols mm : Nat) (tiles : List Tile) : List Tile → Nat → Option Nat → List CodedBit
  | [], _, _ => []
  | x :: r, t, last =>
    if x.covered then
      choiceBits probs last x ++ motionBits probs cols mm tiles t ++
        tileBits probs cols mm tiles r (t + 1) (if x.skip then last else some x.token)
    else tileBits probs cols mm tiles r (t + 1) last

/-- Symbols of a payload: the covered tiles in ascending index. -/
def payloadBits (probs : List Nat) (cols mm : Nat) (tiles : List Tile) : List CodedBit :=
  tileBits probs cols mm tiles tiles 0 none

/-! ### Rate (R284) -/

/-- c(p) of R284, in 1/256 bit. -/
def rateOf (p : Nat) : Nat :=
  (-(flFloor (flNeg (fmul (flInt 256) (fsub (flInt 12) (flog2 (fofInt p))))))).toNat

/-- Cost of one coded bit. -/
def bitCost (b : CodedBit) : Nat := rateOf (if b.1 then 4096 - b.2 else b.2)

/-- Cost of a list of coded bits. -/
def bitsCost (l : List CodedBit) : Nat := sumNat (l.map bitCost)

/-- B_est of R285, in 1/256 bit. -/
def estBits (probs : List Nat) (cols mm : Nat) (tiles : List Tile) : Nat := bitsCost (payloadBits probs cols mm tiles)

/-! ### Range coder (R297) -/

/-- State of the encoder; bytes are held newest first. -/
structure RangeEnc where
  low : Nat
  rng : Nat
  cache : Nat
  pend : Nat
  out : Bytes
  deriving DecidableEq, Repr, Inhabited

/-- The encoder at its start. -/
def encStart : RangeEnc := ⟨0, 0xFFFFFFFF, 0, 1, []⟩

/-- shift_low of R297. -/
def shiftLow (e : RangeEnc) : RangeEnc :=
  let e :=
    if e.low < 0xFF000000 || 2 ^ 32 ≤ e.low then
      let carry := e.low / 2 ^ 32
      let first : Bytes := if e.pend = 0 then [] else [BitVec.ofNat 8 (e.cache + carry)]
      let rest : Bytes := List.replicate (e.pend - 1) (BitVec.ofNat 8 (0xFF + carry))
      { e with out := rest ++ first ++ e.out, pend := 0, cache := e.low / 2 ^ 24 % 256 }
    else e
  { e with pend := e.pend + 1, low := e.low % 2 ^ 24 * 256 }

/-- Bring the range back to 2^24 and above; two rounds are enough for any probability. -/
def encNormal : Nat → RangeEnc → RangeEnc
  | 0, e => e
  | fuel + 1, e =>
    if e.rng < 2 ^ 24 then encNormal fuel (shiftLow { e with rng := e.rng * 256 % 2 ^ 32 }) else e

/-- enc_bit of R297. -/
def encBit (e : RangeEnc) (b : CodedBit) : RangeEnc :=
  let split := e.rng / 2 ^ 12 * b.2
  encNormal 4 (if b.1 then { e with low := e.low + split, rng := e.rng - split } else { e with rng := split })

/-- enc_finish of R297: the bytes in order. -/
def encFinish (e : RangeEnc) : Bytes := (shiftLow (shiftLow (shiftLow (shiftLow (shiftLow e))))).out.reverse

/-- Bytes of a coded payload. -/
def encodeBits (l : List CodedBit) : Bytes := encFinish (l.foldl encBit encStart)

/-- State of the decoder: what is left of the payload, after its first five bytes. -/
structure RangeDec where
  rng : Nat
  code : Nat
  rest : Bytes
  deriving DecidableEq, Repr, Inhabited

/-- The decoder at its start: the first byte is ignored, the next four are the code. -/
def decStart (b : Bytes) : RangeDec := ⟨0xFFFFFFFF, beVal (padTo 4 (b.drop 1)), b.drop 5⟩

/-- Bring the decoder's range back, taking payload bytes, and 0x00 beyond its end. -/
def decNormal : Nat → RangeDec → RangeDec
  | 0, d => d
  | fuel + 1, d =>
    if d.rng < 2 ^ 24 then
      decNormal fuel ⟨d.rng * 256 % 2 ^ 32, (d.code * 256 + byteAt d.rest 0) % 2 ^ 32, d.rest.drop 1⟩
    else d

/-- dec_bit of R297. -/
def decBit (d : RangeDec) (p0 : Nat) : Bool × RangeDec :=
  let split := d.rng / 2 ^ 12 * p0
  if d.code < split then (false, decNormal 4 { d with rng := split })
  else (true, decNormal 4 { d with rng := d.rng - split, code := d.code - split })

/-! ### Symbols as the client reads them (R298) -/

/-- `n` bits at p0 2,048, most significant first, below a leading value. -/
def decEven : Nat → Nat → RangeDec → Nat × RangeDec
  | 0, v, d => (v, d)
  | n + 1, v, d =>
    let (b, d) := decBit d pHalf
    decEven n (2 * v + b.toNat) d

/-- An n-bit tree value: its node at the end is 2^n + value. -/
def decTree (probs : List Nat) (base : Nat) : Nat → Nat → RangeDec → Nat × RangeDec
  | 0, node, d => (node, d)
  | n + 1, node, d =>
    let (b, d) := decBit d (probs.getD (base + node - 1) 0)
    decTree probs base n (2 * node + b.toNat) d

/-- Prefix bits of 1 before the first of 0; `fuel` is more than any difference has. -/
def decPrefix (probs : List Nat) : Nat → Nat → RangeDec → Nat × RangeDec
  | 0, k, d => (k, d)
  | fuel + 1, k, d =>
    let (b, d) := decBit d (probs.getD (pMag + min k 15) 0)
    if b then decPrefix probs fuel (k + 1) d else (k, d)

/-- A signed difference. -/
def decDelta (probs : List Nat) (d : RangeDec) : Int × RangeDec :=
  let (z, d) := decBit d (probs.getD pZero 0)
  if z then (0, d)
  else
    let (neg, d) := decBit d pHalf
    let (k, d) := decPrefix probs 64 0 d
    let (m1, d) := decEven k 1 d
    (if neg then -(m1 : Int) else m1, d)

/-- A blend weight: a decoded value above 16 is taken as 16. -/
def decWeight (probs : List Nat) (d : RangeDec) : Int × RangeDec :=
  let (n, d) := decTree probs pWeight 5 1 d
  (((min 16 (n - 32) : Nat) : Int), d)

/-- Vectors of one in-between frame, from their predictor. -/
def decVector (probs : List Nat) : List Int → RangeDec → List Int × RangeDec
  | [], d => ([], d)
  | p :: t, d =>
    let (v, d) := decDelta probs d
    let (r, d) := decVector probs t d
    ((p + v) :: r, d)

/-- Vectors and weights of the in-between frames of a list, for tile `t`; the tiles before it stand in `tiles`. -/
def decMotion (probs : List Nat) (cols : Nat) (tiles : List Tile) (t : Nat) : List Nat → RangeDec → List (List Int) × RangeDec
  | [], d => ([], d)
  | m :: l, d =>
    let (v, d) := decVector probs (vecPred cols tiles t m) d
    let (w, d) := decWeight probs d
    let (r, d) := decMotion probs cols tiles t l d
    ((v ++ [w]) :: r, d)

/-- Token, gain and Eyespot of a tile, and whether it is a skip tile. -/
def decChoice (probs : List Nat) (last : Option Nat) (d : RangeDec) : (Bool × Nat × Nat × Nat) × RangeDec :=
  let (skip, d) := decBit d (probs.getD pSkip 0)
  if skip then ((true, 0, 0, 0), d)
  else
    let (same, d) := match last with
      | none => (false, d)
      | some _ => decBit d (probs.getD pSame 0)
    let (tok, d) := if same then (last.getD 0, d) else
      let (n, d) := decTree probs pToken 10 1 d
      (n - 1024, d)
    let (g, d) := decTree probs pGain 4 1 d
    let (e, d) := decTree probs pEye 2 1 d
    ((false, tok, g - 16, e - 4), d)

/-- Tiles of a payload, for the covered ones of a list in ascending index; `tiles` holds those before. -/
def decTiles (probs : List Nat) (cols mm : Nat) : List Bool → List Tile → Option Nat → RangeDec → List Tile
  | [], tiles, _, _ => tiles
  | c :: r, tiles, last, d =>
    if c then
      let (x, d) := decChoice probs last d
      let (mv, d) := decMotion probs cols tiles tiles.length (List.range mm) d
      decTiles probs cols mm r (tiles ++ [⟨true, x.1, x.2.1, x.2.2.1, x.2.2.2, mv, 0, false⟩]) (if x.1 then last else some x.2.1) d
    else decTiles probs cols mm r (tiles ++ [uncoveredTile mm]) last d

/-- The tiles that a client reads from a payload (R297, R298). -/
def decodePayload (probs : List Nat) (cols mm : Nat) (covered : List Bool) (b : Bytes) : List Tile :=
  decTiles probs cols mm covered [] none (decStart b)

end Sys2Proof.Machine
end

