-- ==== Sys2Proof/Machine/Search.lean ====
section
/-! DEFINITION. The descriptor search (R282 to R286) and the update of the codebook (R289). -/

set_option Elab.async false

namespace Sys2Proof.Machine

/-! ### Operands of a search (R282) -/

/-- What the search of one picture reads: base luma, working size, DSEARCH's operands by their output numbers, codebook,
λ, shortlist, in-between frames, and the picture's own data. -/
structure SearchEnv where
  y : PicPlane
  ww : Nat
  hw : Nat
  pic : PicData
  target : List Nat
  motion : List Nat
  features : List Nat
  kern : List Bytes
  probs : List Nat
  lambda : Fl
  shortlist : Nat
  mm : Nat
  /-- luma targets of the fusion references, in the group's member order (R283) -/
  refs : List PicPlane
  /-- rectangle of base luma that the working picture shows: x, y, width, height (R149, R283) -/
  crop : Option (Nat × Nat × Nat × Nat)

/-- Working position of a base position along one axis. -/
def workPos (x work base : Nat) : Nat := min (x * work / base) (work - 1)

/-- Element of an operand given as FP32 codes. -/
def elemOf (l : List Nat) (i : Nat) : Fl := f32 (l.getD i 0)

/-- Feature `c` of base tile `t`, taken at its working tile. -/
def SearchEnv.feature (e : SearchEnv) (t c : Nat) : Fl :=
  let cols := tileCols e.y.w
  let fx := t % cols * e.ww / e.y.w
  let fy := t / cols * e.hw / e.y.h
  elemOf e.features ((fy * tilesAcross e.ww + fx) * 1052 + c)

/-- Motion input channel `c` at a base position (a detail DEDUCED, log 19). -/
def SearchEnv.flow (e : SearchEnv) (x y c : Nat) : Fl :=
  elemOf e.motion ((workPos y e.hw e.y.h * e.ww + workPos x e.ww e.y.w) * 15 + c)

/-! ### Target luma (R283) -/

/-- A rational constant rounded to FP32. -/
def ratConst (q : Rat) : Fl := rnd32 (ratFl q.num q.den)

/-- Luma of the source's matrix and range from a full-range BT.709 triple in FP32 (log 19). -/
def lumaTarget (p : PicData) (y cb cr : Fl) : Int :=
  let d := lumaWeights 2
  let kg := 1 - d.1 - d.2
  let r := fadd y (fmul (ratConst (2 * (1 - d.1))) cr)
  let b := fadd y (fmul (ratConst (2 * (1 - d.2))) cb)
  let g := fsub (fsub y (fmul (ratConst (2 * d.2 * (1 - d.2) / kg)) cb)) (fmul (ratConst (2 * d.1 * (1 - d.1) / kg)) cr)
  let s := lumaWeights (sourceMatrix p)
  let l := fadd (fadd (fmul (ratConst s.1) r) (fmul (ratConst (1 - s.1 - s.2)) g)) (fmul (ratConst s.2) b)
  roundClamp 0 255 (if p.limited then fadd (flInt 16) (fmul (flInt 219) l) else fmul (flInt 255) l)

/-- Luma plane of the base picture's size, from the three values at each working position. -/
def targetPlane (p : PicData) (w h ww hw : Nat) (v : Nat → Nat → Fl) : PicPlane :=
  ⟨w, h, (List.range h).flatMap (fun y => (List.range w).map (fun x =>
    let i := workPos y hw h * ww + workPos x ww w
    lumaTarget p (v i 0) (v i 1) (v i 2)))⟩

/-- Value of a working code with luma from 0 to 1 and chroma from −0.5 to 0.5 (R148). -/
def unitVal (fmt c code : Nat) : Fl :=
  if fmt = 3 then fdiv (flInt (if c = 0 then (code : Int) else (code : Int) - 128)) (flInt 255) else codeVal fmt code

/-- Yr of a fusion reference for a picture. -/
def refPlane (p r : PicData) (fmt ww hw : Nat) : PicPlane :=
  let cs := refCodes r fmt ww hw
  targetPlane p p.w p.h ww hw (fun i c => unitVal fmt c (cs.getD (c * ww * hw + i) 0))

/-- Sum over a tile of |Yr − Y| is at most 4 a pixel (a detail DEDUCED, log 42). -/
def refQualifies (y r : PicPlane) (t : Nat) : Bool :=
  let px := tilePix y.w y.h t
  decide (sumNat (px.map (fun q => (r.at q.1 q.2 - y.at q.1 q.2).natAbs)) ≤ 4 * px.length)

/-- The tile's centre lies inside the part of the picture that has a target. -/
def SearchEnv.hasTarget (e : SearchEnv) (t : Nat) : Bool :=
  match e.crop with
  | none => true
  | some (x, y, w, h) =>
    let cx := 16 * (t % tileCols e.y.w) + 8
    let cy := 16 * (t / tileCols e.y.w) + 8
    decide (x ≤ cx) && decide (cx < x + w) && decide (y ≤ cy) && decide (cy < y + h)

/-- Target of a tile, given Yt: Yt, or the first reference that qualifies; and whether it is a reference
(a detail DEDUCED, log 42). -/
def SearchEnv.tileTarget (e : SearchEnv) (yt : PicPlane) (t : Nat) : PicPlane × Bool :=
  match e.refs.find? (fun r => refQualifies e.y r t) with
  | some r => (r, true)
  | none => (yt, false)

/-! ### Choice of a tile (R284) -/

/-- J = D + λ × R in FP32. -/
def jCost (d r : Nat) (lambda : Fl) : Fl := fadd (fofInt d) (fmul lambda (fmul (fofInt r) (flPow2 (-8))))

/-- Sum of squared differences over pixels. -/
def sumSq (px : List (Nat × Nat)) (a b : Nat → Nat → Int) : Nat :=
  sumNat (px.map (fun q => (a q.1 q.2 - b q.1 q.2).natAbs ^ 2))

/-- A score as it orders: a NaN is below every other (log 19). -/
def scoreOf (x : Fl) : Fl := if flIsNan x then .inf true else x

/-- Eyespot of a tile: the highest of three scores where it is at least 0.0, ties to the lower code
(a detail DEDUCED, log 19). -/
def SearchEnv.eyeOf (e : SearchEnv) (t : Nat) : Nat :=
  let v (k : Nat) : Fl := scoreOf (e.feature t (1048 + k))
  let best := if flLt (v 1) (v 2) then 2 else 1
  let best := if flLt (v best) (v 3) then 3 else best
  if flLe flZero (v best) then best else 0

/-- Candidate tokens in index order: entry 0 and the shortlist of highest prior score, ties to the lower index. -/
def SearchEnv.tokens (e : SearchEnv) (t : Nat) : List Nat :=
  let ranked := sortBy (fun (a b : Nat × Fl) => flLe b.2 a.2)
    ((List.range 1023).map (fun i => (i + 1, scoreOf (e.feature t (i + 1)))))
  0 :: sortBy (fun a b => decide (a ≤ b)) ((ranked.take e.shortlist).map (·.1))

/-- One option of a tile: token, gain, D and R. -/
structure Option_ where
  token : Nat
  gain : Nat
  d : Nat
  r : Nat
  deriving DecidableEq, Repr, Inhabited

/-- What the choice of a tile needs: its Eyespot, the D and R of skip, and its options, tokens and gains rising. -/
structure TileInfo where
  eye : Nat
  d0 : Nat
  r0 : Nat
  opts : List Option_
  fusion : Bool
  deriving DecidableEq, Repr, Inhabited

/-- R of a token, gain and Eyespot: skip = 0, same = 0 and the three trees. -/
def optionRate (probs : List Nat) (token gain eye : Nat) : Nat :=
  bitsCost ([(false, probs.getD pSkip 0), (false, probs.getD pSame 0)] ++ treeBits probs pToken token 10 1 ++
    treeBits probs pGain gain 4 1 ++ treeBits probs pEye eye 2 1)

/-- Options of a tile against its target. -/
def SearchEnv.tileInfo (e : SearchEnv) (yt : PicPlane) (t : Nat) : TileInfo :=
  let tg := e.tileTarget yt t
  let px := tilePix e.y.w e.y.h t
  let eye := e.eyeOf t
  let tv (x y : Nat) : Int := tg.1.at x y
  { eye := eye
    d0 := sumSq px (fun x y => e.y.at x y) tv
    r0 := bitCost (true, e.probs.getD pSkip 0)
    opts := (e.tokens t).flatMap (fun k => (List.range 16).map (fun g =>
      ⟨k, g, sumSq px (fun x y => sharpAt e.y (e.kern.getD k []) g eye x y) tv, optionRate e.probs k g eye⟩))
    fusion := tg.2 }

/-- The first of least J, after `best`. -/
def leastJ (lambda : Fl) : List Option_ → Fl × Option Option_ → Fl × Option Option_
  | [], b => b
  | o :: r, b =>
    let j := jCost o.d o.r lambda
    leastJ lambda r (if flLt j b.1 then (j, some o) else b)

/-- The tile that an option, or skip, gives. -/
def tileFor (i : TileInfo) (mvs : List (List Int)) : Option Option_ → Tile
  | none => ⟨true, true, 0, 0, 0, mvs, i.d0, i.fusion⟩
  | some o => ⟨true, false, o.token, o.gain, i.eye, mvs, o.d, i.fusion⟩

/-- Choice of a tile: the least J; ties to skip, then the lower token, then the lower gain. -/
def bestTile (lambda : Fl) (i : TileInfo) (mvs : List (List Int)) : Tile :=
  tileFor i mvs (leastJ lambda i.opts (jCost i.d0 i.r0 lambda, none)).2

/-! ### Motion (R284, step 6) -/

/-- A network value as used: a value that is not finite is 0, as R207 has it (a detail DEDUCED, log 19). -/
def finiteOr0 (x : Fl) : Fl := if flIsFinite x then x else flZero

/-- Quarter-pixel component of a network flow. -/
def quarterVec (v : Fl) (base work : Nat) : Int := roundClamp (-512) 511 (fmul (finiteOr0 v) (baseScale 4 base work))

/-- In-between target of a pixel for frame `m`, from S(n−1) and the candidate S(n) (a detail DEDUCED, log 42). -/
def SearchEnv.betweenTarget (e : SearchEnv) (p0 p1 : PicPlane) (m x y : Nat) : Int :=
  let fl (k : Nat) : Fl := finiteOr0 (e.flow x y (4 * m + k))
  let b := finiteOr0 (e.flow x y (12 + m))
  let at_ (p : PicPlane) (k : Nat) : Int :=
    flRoundEven (warpSample (fun j i => flInt (p.at i j))
      (fadd (flInt x) (fmul (fl k) (baseScale 1 e.y.w e.ww)))
      (fadd (flInt y) (fmul (fl (k + 1)) (baseScale 1 e.y.h e.hw))) 1)
  clampInt 0 255 (flRoundEven (addX (mulX (addX flOne (flNeg b)) (flInt (at_ p0 0))) (mulX b (flInt (at_ p1 2)))))

/-- The first entry of least D. -/
def leastD : List (Nat × List Int) → Option (Nat × List Int)
  | [] => none
  | a :: r =>
    match leastD r with
    | none => some a
    | some b => if b.1 < a.1 then some b else some a

/-- Vectors and weight of frame `m` (from 0) for a tile: ties go to the network's pair, then to the lower weight. -/
def SearchEnv.motionOf (e : SearchEnv) (p0 p1 : PicPlane) (t m : Nat) : List Int :=
  let cx := 16 * (t % tileCols e.y.w) + 8
  let cy := 16 * (t / tileCols e.y.w) + 8
  let net := (List.range 4).map (fun k =>
    if k % 2 = 0 then quarterVec (e.flow cx cy (4 * m + k)) e.y.w e.ww else quarterVec (e.flow cx cy (4 * m + k)) e.y.h e.hw)
  let wn := roundClamp 0 16 (fmul (flInt 16) (finiteOr0 (e.flow cx cy (12 + m))))
  let ws := (List.range 17).filter (fun (w : Nat) => decide (wn - 2 ≤ (w : Int)) && decide ((w : Int) ≤ wn + 2))
  let px := tilePix e.y.w e.y.h t
  let tg := px.map (fun q => e.betweenTarget p0 p1 m q.1 q.2)
  let cands := [net, [0, 0, 0, 0]].flatMap (fun v => ws.map (fun (w : Nat) => v ++ [(w : Int)]))
  ((leastD (cands.map (fun mv =>
    (sumNat ((px.zip tg).map (fun q => (between p0 p1 q.1.1 q.1.2 mv 2 - q.2).natAbs ^ 2)), mv)))).getD (0, [])).2

/-! ### Binding and capping (R285) -/

/-- The option of each candidate token with least J at λ, gains rising. -/
def tokenBest (lambda : Fl) (i : TileInfo) (token : Nat) : Fl × Option Option_ :=
  match i.opts.filter (fun o => o.token = token) with
  | [] => (.nan, none)
  | o :: r => leastJ lambda r (jCost o.d o.r lambda, some o)

/-- The choice of a tile by a categorical draw at λb, and whether no score was finite. -/
def drawTile (lb : Fl) (seed n t : Nat) (i : TileInfo) (mvs : List (List Int)) : Tile × Bool :=
  let toks := (i.opts.map (·.token)).foldl (fun l k => if l.contains k then l else l ++ [k]) []
  let rows : List (Fl × Option Option_) := (jCost i.d0 i.r0 lb, none) :: toks.map (tokenBest lb i)
  let jmin := rows.foldl (fun a r => if flLt r.1 a then r.1 else a) (.inf false)
  let den := fmul (flInt 8) lb
  let draw := catDraw (rows.map (fun r => flNeg (fdiv (fsub r.1 jmin) den))) flOne (rngWord seed 0 3 n t)
  (tileFor i mvs (rows.getD draw.1 (.nan, none)).2, draw.2)

/-- Tiles from `cut` on recoded as skip with vectors equal to their predictors, in raster order. -/
def capFrom (e : SearchEnv) (infos : List (Option TileInfo)) (cut : Nat) (tiles : List Tile) : List Tile :=
  let cols := tileCols e.y.w
  (List.range tiles.length).foldl (fun ts t =>
    let x := ts.getD t default
    if t < cut || !x.covered then ts
    else
      let mvs := (List.range e.mm).map (fun m => vecPred cols ts t m ++ [mvC (x.mvs.getD m []) 4])
      let d := match infos.getD t none with
        | none => x.dist
        | some i => i.d0
      ts.set t { (skipTile mvs d) with fusion := x.fusion }) tiles

/-- Recode tiles from the last backward until B_est fits; `cut` tiles stay. -/
def capTiles (e : SearchEnv) (infos : List (Option TileInfo)) (cap : Nat) (tiles : List Tile) : Nat → List Tile
  | 0 => capFrom e infos 0 tiles
  | cut + 1 =>
    let ts := capFrom e infos (cut + 1) tiles
    if estBits e.probs (tileCols e.y.w) e.mm ts ≤ cap then ts else capTiles e infos cap tiles cut

/-- What the search of a picture chooses. -/
structure SearchOut where
  tiles : List Tile
  luma : PicPlane
  est : Nat
  bound : Bool
  capped : Bool
  draws : Nat
  badRows : Nat

/-- β of R285, in bits. -/
def recordBudget (rate maxRate : Nat) : Nat := rate * 100000 / maxRate

/-- The search of one picture: which tiles were searched, S(n−1), the seed and number of the draws, and β. -/
def runSearch (e : SearchEnv) (covered : Nat → Bool) (prev : PicPlane) (seed n beta : Nat) : SearchOut :=
  let cols := tileCols e.y.w
  let total := cols * ceilDiv e.y.h 16
  let yt := targetPlane e.pic e.y.w e.y.h e.ww e.hw (fun i c => elemOf e.target (3 * i + c))
  let infos : List (Option TileInfo) := (List.range total).map (fun t =>
    if covered t && e.hasTarget t then some (e.tileInfo yt t) else none)
  let dm := defaultMvs e.mm
  let first : List Tile := infos.zipIdx.map (fun q => match q.1 with
    | some i => bestTile e.lambda i dm
    | none => if covered q.2 then skipTile dm 0 else uncoveredTile e.mm)
  let s1 := sharpen e.y first e.kern
  let moved : List Tile := first.zipIdx.map (fun q =>
    if (infos.getD q.2 none).isSome then
      { q.1 with mvs := (List.range e.mm).map (fun m => e.motionOf prev s1 q.2 m) }
    else q.1)
  let bound := decide (320 * beta < estBits e.probs cols e.mm moved)
  let drawn : List (Tile × Bool) := moved.zipIdx.map (fun q => match infos.getD q.2 none with
    | some i => if bound then drawTile (fmul (flInt 4) e.lambda) seed n q.2 i q.1.mvs else (q.1, false)
    | none => (q.1, false))
  let tiles := drawn.map (·.1)
  let cap := 2048 * min (ceilDiv beta 2) 258048
  let capped := decide (cap < estBits e.probs cols e.mm tiles)
  let final := if capped then capTiles e infos cap tiles (total - 1) else tiles
  { tiles := final
    luma := sharpen e.y final e.kern
    est := estBits e.probs cols e.mm final
    bound := bound
    capped := capped
    draws := if bound then countIf infos (·.isSome) else 0
    badRows := countIf drawn (·.2) }

/-- λ after a search (R286) (a detail DEDUCED, log 42). -/
def nextLambda (lambda est beta : Nat) : Nat :=
  let e := fdiv (rnd32 (.fin (decide (est < 256 * beta)) ((est : Int) - 256 * beta).natAbs (-8))) (.fin false beta 0)
  let e := fmax (flInt (-1)) (fmin flOne e)
  f32Code (fmax (flPow2 (-8)) (fmin (flPow2 24) (fmul (f32 lambda) (fexp2 e))))

/-! ### Codebook generation of a picture (R289) -/

/-- Generation and kernel copy of picture `n`: the one before, until the picture from which the last update applies. -/
def cbChoice (g c apply : Nat) (formed : Bool) (n : Nat) : Nat × Nat :=
  if formed && !decide (picGap n apply < 2 ^ 31) then ((g + 2 ^ 16 - 1) % 2 ^ 16, 1 - c) else (g, c)

/-- Generation and kernel copy that picture `n` uses. -/
def cbUse (s : State) (slot n : Nat) : Nat × Nat :=
  cbChoice (srGet s slot srCbGen 2) (srGet s slot srCbCopy 1) (srGet s slot srCbApply 4) (s.stream slot).cbFormed n

/-- The same for a frame, which may be of a configuration before the codebook in force (R48, R290). -/
def cbUseOf (s : State) (f : Frame) : Nat × Nat :=
  let n := f.picture.getD 0
  match oldCodebook (s.stream f.slot) f.cfgSeq with
  | some o => cbChoice o.gen o.copy o.apply o.formed n
  | none => cbUse s f.slot n

/-- Kernel copy of a stream. -/
def kernCopy (x : Stream) (c : Nat) : List Bytes := if c = 0 then x.kern0 else x.kern1

/-- A stream with the codebook that a frame of configuration `seq` uses in the place of the one in force. -/
def cbStream (x : Stream) (seq : Nat) : Stream :=
  match oldCodebook x seq with
  | none => x
  | some o => { x with kern0 := o.kern0, kern1 := o.kern1, probs := o.probs, fullDue := o.fullDue, partialDue := o.partialDue }

/-- A picture must use an update that has not been formed. -/
def cbHeld (s : State) (slot n : Nat) : Bool :=
  (s.stream slot).cbPending.any (fun u => decide (picGap n u.applyFrom < 2 ^ 31))

/-! ### SEARCH_START (R286) -/

/-- The picture before has committed its search, is discarded, absent or there is none (R23, R286). -/
def prevSearched (s : State) (f : Frame) : Bool :=
  match liveFrameOf s f.slot (picPrev (f.picture.getD 0)) with
  | none => true
  | some q => q.searched

/-- A fusion reference of a frame that is still to be decoded and resampled. -/
def refWaits (s : State) (r : Nat × Nat) : Bool :=
  match mfind s.frames r.2 with
  | none => false
  | some q => q.flags % 2 == 0 && !q.resampled

/-- A fusion reference that exists, and whether it lies in the resampling range (R149). -/
def refState (s : State) (f : Frame) (r : Nat × Nat) : Bool × Bool :=
  match mfind s.frames r.2 with
  | none => (false, false)
  | some q =>
    match q.pic with
    | none => (false, false)
    | some p => if q.flags % 2 = 1 then (false, false) else (true, refInRange p (workSize f).1 (workSize f).2)

/-- SEARCH_START (R286): the stream's next picture may be searched (a detail DEDUCED, log 42). -/
def execSearchStart (slot : Nat) (s : State) : Host.Outcome State Fault Refusal :=
  match firstPicture s slot (fun f => f.stage = 6 && !f.searching && !frameEnded f) with
  | none => done s
  | some fid =>
    let f := s.frame fid
    let n := f.picture.getD 0
    if !prevSearched s f then
      if f.searchHeld then done s
      else done ((s.updFrame fid (fun f => { f with searchHeld := true })).updStream slot (fun x => { x with tds := bump x.tds 10 1 }))
    else if ((oldCodebook (s.stream slot) f.cfgSeq).isNone && cbHeld s slot n) || f.refs.any (refWaits s) then done s
    else
      let cb := cbUseOf s f
      let out := countIf f.refs (fun r => (refState s f r).1 && !(refState s f r).2)
      let s := decCount s slot 11 out
      done (s.updFrame fid (fun f => { f with
        searching := true, cbGen := cb.1, cbCopy := cb.2,
        refs := f.refs.filter (fun r => (refState s f r).1 && (refState s f r).2) }))

/-! ### SEARCH_COMMIT (R286) -/

/-- Rectangle of base luma that a cropped working picture shows: the crop at four times its size
(a detail DEDUCED, log 36). -/
def cropRect (g : Bytes) (p : PicData) : Option (Nat × Nat × Nat × Nat) :=
  let (wl, hl) := lastInstar g
  let k := workPlan p.w p.h wl hl
  if k.cropped then some (4 * k.x, 4 * k.y, 4 * k.w, 4 * k.h) else none

/-- The picture has a searched predecessor (R23, R286). -/
def hasPrev (s : State) (f : Frame) : Bool :=
  let x := s.stream f.slot
  !x.prevS.isEmpty && x.prevPic == picPrev (f.picture.getD 0) && !x.absent.contains (picPrev (f.picture.getD 0))

/-- Simulated luma of the stream's last searched picture (a detail DEDUCED, log 42). -/
def prevLuma (x : Stream) : PicPlane := picPlaneOf x.prevW x.prevH x.prevS

/-- What the search of a frame reads. -/
def searchEnv (s : State) (f : Frame) : SearchEnv :=
  let x := s.stream f.slot
  let p := f.pic.getD default
  let c := frameCfg s f
  let e := frameSe s f
  let (ww, hw) := workSize f
  { y := baseLuma p
    ww := ww
    hw := hw
    pic := p
    target := mget f.outs 65
    motion := mget f.outs 66
    features := mget f.outs 67
    kern := kernCopy (cbStream x f.cfgSeq) f.cbCopy
    probs := (cbStream x f.cfgSeq).probs
    lambda := f32 (srGet s f.slot srLambda 4)
    shortlist := searchShortlist c e
    mm := if hasPrev s f then f.interp else 0
    refs := f.refs.filterMap (fun r => ((mfind s.frames r.2).bind (·.pic)).map (fun q =>
      refPlane p q (workFmt (frameTeacher s f)) ww hw))
    crop := cropRect (frameTeacher s f) p }

/-- The base tile has been searched: its working tile has. -/
def tileSearched (f : Frame) (t : Nat) : Bool :=
  let (w, h) := baseSize f
  let (ww, hw) := workSize f
  let cols := tileCols w
  (mget f.outs 68).contains (t / cols * hw / h * tilesAcross ww + t % cols * ww / w)

/-- Bands for the simulated luma: as many as the picture has (R286). -/
def searchBands (s : State) (slot fid : Nat) : Bool × State :=
  let f := s.frame fid
  let r := reachBands s slot fid (f.bands.length - f.sBands.length)
  if (mfind r.2.frames fid).isSome then
    (r.1, r.2.updFrame fid (fun g => { g with bands := g.bands.take f.bands.length, sBands := f.sBands ++ g.bands.drop f.bands.length }))
  else r

/-- Quantised proposals of a picture's covered tiles, in descending order of D, ties to the lower index (R289)
(a detail DEDUCED, log 19). -/
def proposals (e : SearchEnv) (tiles : List Tile) : List Bytes :=
  let coef (t k : Nat) : Byte :=
    if k = 12 then 0
    else
      let v := fmul (e.feature t (1024 + k)) (flInt 64)
      BitVec.ofInt 8 (if flIsNan v then 0 else roundClamp (-127) 127 v)
  let order := sortBy (fun (a b : Nat × Nat) => decide (b.2 ≤ a.2))
    ((tiles.zipIdx.filter (fun q => q.1.covered)).map (fun q => (q.2, q.1.dist)))
  order.map (fun q => (List.range 25).map (coef q.1))

/-- Count the entries that tiles chose (R289). -/
def countUses (m : Map Nat) (tiles : List Tile) : Map Nat :=
  tiles.foldl (fun m t => if t.covered && !t.skip then mupd m t.token (· + 1) else m) m

/-- Commit a frame's search. -/
def searchDone (s : State) (slot fid : Nat) : State :=
  let f := s.frame fid
  let n := f.picture.getD 0
  let e := searchEnv s f
  let beta := recordBudget f.rate (seMaxRate (frameSe s f))
  let o := runSearch e (tileSearched f) (prevLuma (s.stream slot)) (srGet s slot srSeed 8) n beta
  let cov := countIf o.tiles (·.covered)
  let part := decide (cov < o.tiles.length)
  let s := recSet s slot 0
    [(srLambda, toLe 4 (nextLambda (srGet s slot srLambda 4) o.est beta)), (srLastSearched, toLe 4 n),
     (srTdsFlags, toLe 1 (srGet s slot srTdsFlags 1 ||| 1)), (srLastBits, toLe 4 (o.est / 256))]
  let noPrev := !hasPrev s f
  let props := if (s.stream slot).train then proposals e o.tiles else []
  let s := s.updFrame fid (fun f => { f with
    searched := true, tiles := o.tiles, props := props, bestBits := o.est, bound := o.bound, capped := o.capped, noPrev := noPrev,
    interp := e.mm, covered := cov, flags := if part then f.flags ||| 2 else f.flags })
  let s := s.updStream slot (fun x => { x with
    prevS := o.luma.px.map (·.toNat), prevW := e.y.w, prevH := e.y.h, prevPic := n
    uses := if (oldCodebook x f.cfgSeq).isNone then countUses x.uses o.tiles else x.uses
    tds := bump x.tds 11 (countIf o.tiles (·.fusion))
    adpc := bump (bump x.adpc 8 o.draws) 9 o.badRows
    cbPending := x.cbPending.map (fun u => if u.last = n then { u with cands := some props } else u) })
  sweepSlots (groupSlots s slot) (frameStage s fid 7)

/-- SEARCH_COMMIT (R286): the search invocation of the stream's next picture is complete. The picture waits where bands
for its simulated luma are not to be had. -/
def execSearchCommit (slot : Nat) (s : State) : Host.Outcome State Fault Refusal :=
  match firstPicture s slot (fun f => f.searching && !f.searched && !frameEnded f) with
  | none => done s
  | some fid =>
    if (s.frame fid).models / 16 % 2 = 0 then done s
    else
      let r := searchBands s slot fid
      if r.1 then done (searchDone r.2 slot fid) else done r.2

/-! ### CODEBOOK_UPDATE (R289) -/

/-- Entries from 1 to 1,023 of lowest use count, ties to the lower index. -/
def leastUsed (uses : Map Nat) : List Nat :=
  (sortBy (fun (a b : Nat × Nat) => decide (a.2 ≤ b.2))
    ((List.range 1023).map (fun i => (i + 1, mget uses (i + 1))))).map (·.1)

/-- A picture up to `last` has neither committed its search nor been discarded. -/
def searchesLeft (s : State) (slot last : Nat) : Bool :=
  s.frames.any (fun p => p.2.slot == slot && !p.2.searched && !frameEnded p.2 &&
    (match p.2.picture with
      | none => false
      | some m => m == last || picBefore m last))

/-- A picture still to be emitted, or to come, uses the copy that the update would overwrite: one before the apply_from
of the update formed last (a detail DEDUCED, log 42). -/
def copyInUse (s : State) (slot : Nat) : Bool :=
  let x := s.stream slot
  let a := srGet s slot srCbApply 4
  x.cbFormed &&
    (picBefore x.dec.picNum a ||
      s.frames.any (fun p => p.2.slot == slot && !frameEnded p.2 && (oldCodebook x p.2.cfgSeq).isNone &&
        (match p.2.picture with
          | none => false
          | some m => picBefore m a)))

/-- Form an update from its ordered candidates (a detail DEDUCED, log 42). -/
def cbForm (s : State) (slot : Nat) (u : CbPending) (cands : List Bytes) : State :=
  let x := s.stream slot
  let g := srGet s slot srCbGen 2
  let c := srGet s slot srCbCopy 1
  let cur := kernCopy x c
  let new := (cands.filter (fun k => !cur.contains k)).take 4
  let repl := (leastUsed x.uses).zip new
  let next := repl.foldl (fun ks r => ks.set r.1 r.2) cur
  let g' := (g + 1) % 2 ^ 16
  let s := recSet s slot 0 [(srCbGen, toLe 2 g'), (srCbCopy, toLe 1 (1 - c)), (srCbApply, toLe 4 u.applyFrom)]
  s.updStream slot (fun x => { x with
    kern0 := if c = 0 then x.kern0 else next
    kern1 := if c = 0 then next else x.kern1
    uses := [], cbFormed := true, partialDue := x.partialDue ++ [(g, g', repl)]
    tds := bump x.tds 7 repl.length })

/-- The first pending update leaves the list; bit 1 of the flags shows whether another waits (R301). -/
def cbDrop (s : State) (slot : Nat) : State :=
  let s := s.updStream slot (fun x => { x with cbPending := x.cbPending.tail })
  let fl := srGet s slot srTdsFlags 1
  recSet s slot 0 [(srTdsFlags, toLe 1 (fl % 2 + (if (s.stream slot).cbPending.isEmpty then 0 else 2)))]

/-- CODEBOOK_UPDATE (R289): the oldest pending update is formed where its pictures have been searched. Where its last
picture was discarded, or the adapter no longer trains, it is not formed. -/
def execCodebookUpdate (slot : Nat) (s : State) : Host.Outcome State Fault Refusal :=
  let x := s.stream slot
  let miss (s : State) : State := cbDrop (s.updStream slot (fun x => { x with tds := bump x.tds 7 1 })) slot
  match x.cbPending with
  | [] => done s
  | u :: _ =>
    if searchesLeft s slot u.last then done s
    else if !x.train then done (miss s)
    else
      match u.cands with
      | none => done (miss s)
      | some cs => if copyInUse s slot then done s else done (cbDrop (cbForm s slot u cs) slot)

end Sys2Proof.Machine
end

