-- ==== Sys2Proof/Machine/Telemetry.lean ====
section
/-! DEFINITION. The Telemetry Unit's own commands (R406, R409 to R411) and the SMBus management port (R413 to R415). -/

set_option Elab.async false

namespace Sys2Proof.Machine

/-- EVENT_STAGE (R406 to R409). -/
def execEventStage (ev : EvSpec) (s : State) : Host.Outcome State Fault Refusal := done (raiseEv s ev)

/-! ### Trace sampling (R409) -/

/-- trace_k_min in force. -/
def traceKMin (s : State) : Nat := if s.hasCfg then devParam s 3 else 0

/-- One millisecond of a path's exponent: up at a quarter full or more, down each 10 ms below it. -/
def traceTick (cap kmin : Nat) (q : Path) : Path :=
  if cap ≤ 4 * q.staged.length then { q with k := max kmin (min 15 (q.k + 1)), msLow := 0 }
  else if 10 ≤ q.msLow + 1 then { q with k := max kmin (q.k - 1), msLow := 0 }
  else { q with k := max kmin q.k, msLow := q.msLow + 1 }

/-- TRACE_EXPONENT_TICK (R409): 1 ms has passed on a path. -/
def execTraceExponentTick (path : Nat) (s : State) : Host.Outcome State Fault Refusal :=
  done (s.updPath path (traceTick (pathCap path) (traceKMin s)))

/-! ### Ethernet packets (R410) -/

/-- Payload of a telemetry packet: header and up to 38 events (a detail DEDUCED, log 46). -/
def telemetryPayload (seq lost : Nat) (l : List Ev) : Bytes :=
  toLe 4 0x4554584A ++ toLe 4 seq ++ toLe 1 l.length ++ toLe 1 1 ++ zeros 2 ++ toLe 4 (min lost (2 ^ 32 - 1)) ++
    l.flatMap evBytes

/-- TELEMETRY_PACKET_SEND (R410): up to 38 events leave the Ethernet path, in order. -/
def execTelemetryPacketSend (s : State) : Host.Outcome State Fault Refusal :=
  let q := s.path 0
  if !pathEnabled s 0 || s.tu.restarting || q.staged.isEmpty then done s
  else
    let t := s.run.telemetry
    let l := q.staged.take 38
    let seq := (s.tu.ethSeq + 1) % 2 ^ 32
    let o := Out.udp (teEthPort t) (teCollector t) (teUdpPort t) (teUdpPort t) Config.telemetryHop.toNat (teDscp t) 0 false 0 0
      (telemetryPayload seq q.lost l)
    let s := s.updPath 0 (fun q => pathCount (pathCount { q with staged := q.staged.drop 38, lost := 0 } 1 l.length) 8 1)
    done (sendUdp { s with tu := { s.tu with ethSeq := seq } } (teEthPort t) (teCollector t) 0 o)

/-! ### Summaries (R411) -/

/-- A summary event of unit 11. -/
def summaryEv (s : State) (num arg : Nat) : Ev := ⟨⟨uTu, num, 5, 0xFF, 0xFFFF, arg⟩, 5, 1, s.now, s.now⟩

/-- Milliseconds for which an input has been active. -/
def activeMs (s : State) (i : Nat) : Nat := (s.now - (mget s.aon.inputs i).activeSince) / 100000

/-- Stuck inputs, and stuck inputs released since the last summary. -/
def stuckInputs (s : State) : List Nat := (List.range 4).filter (fun i => (mget s.aon.inputs i).stuck)
def releasedInputs (s : State) : List Nat := (List.range 4).filter (fun i => (mget s.aon.inputs i).releasedStuck)

/-- One path's summary. The arg of a release is not given: a free value (log 9). -/
def summaryOf (s : State) (q : Path) : List Ev :=
  [summaryEv s 1 (q.lostLogs % 2 ^ 32 + q.lostTraces % 2 ^ 32 * 2 ^ 32), summaryEv s 2 (aonCapacity s).toNat,
    summaryEv s 3 (aonPower s).toNat] ++
    (stuckInputs s).map (fun i => summaryEv s 4 (i + activeMs s i * 256)) ++
    (releasedInputs s).map (fun i => summaryEv s 5 (Config.freeValue (s.freeIx + i)).toNat)

/-- Stage one path's summary (a detail DEDUCED, log 46). -/
def summaryPath (s : State) (p : Nat) : State :=
  let evs := summaryOf s (s.path p)
  let s := s.updPath p (fun q => pathCount q 7 1)
  evs.foldl (fun s e => stageOn s e p) s

def summaryPaths : List Nat → State → State
  | [], s => s
  | p :: t, s => summaryPaths t (summaryPath s p)

/-- SUMMARY_TIMER (R411): every enabled path stages one summary. -/
def execSummaryTimer (s : State) : Host.Outcome State Fault Refusal :=
  if !s.imago || s.tu.restarting then done s
  else
    let s := summaryPaths ((List.range 10).filter (pathEnabled s)) s
    done { s with freeIx := s.freeIx + 4, aon := { s.aon with inputs := mmap s.aon.inputs (fun _ p => { p with releasedStuck := false }) } }

/-! ### SMBus (R413 to R415, R454) -/

/-- MP answers from the end of phase FUSE (R454) (a detail DEDUCED, log 46). -/
def mpAnswers (s : State) : Bool := !s.por && s.scu.phase != 0 && s.scu.phase != 1

/-- MP takes a command: otherwise it NACKs its address. -/
def mpTakes (s : State) (f : State → State) : Host.Outcome State Fault Refusal :=
  if mpAnswers s then done (f s) else done (emit (.smbAck false) s)

/-- MP refuses a byte: NACK and a log. -/
def mpRefuse (s : State) : State := raiseLog (emit (.smbAck false) s) uMp

/-- MP_IDENTIFY: command 0x01. -/
def execMpIdentify (s : State) : Host.Outcome State Fault Refusal :=
  mpTakes s (fun s => emit (.smbBlock (toLe 4 (aonId s).toNat ++ toLe 1 s.run.partitions.length ++ toLe 1 s.scu.keySlot ++ zeros 2)) s)

/-- MP_SET_POINTER: command 0x02. -/
def execMpSetPointer (value : Nat) (pecOk : Bool) (s : State) : Host.Outcome State Fault Refusal :=
  mpTakes s (fun s =>
    if !pecOk || value % 4 != 0 || 0xC00 ≤ value then mpRefuse s
    else emit (.smbAck true) { s with tu := { s.tu with mpPtr := value } })

/-- MP_READ_REGISTERS: command 0x03. -/
def execMpReadRegisters (s : State) : Host.Outcome State Fault Refusal :=
  mpTakes s (fun s =>
    let (ws, s) := aonReads .mp 8 s.tu.mpPtr s
    emit (.smbBlock (ws.flatMap (fun w => toLe 4 w.toNat))) { s with tu := { s.tu with mpPtr := (s.tu.mpPtr + 32) % 0xC00 } })

/-- MP_READ_EVENTS: command 0x04 (a detail DEDUCED, log 46). -/
def execMpReadEvents (s : State) : Host.Outcome State Fault Refusal :=
  mpTakes s (fun s =>
    let q := s.path 1
    let l := q.staged.take 7
    emit (.smbBlock (toLe 1 l.length ++ toLe 1 (min 255 (q.staged.length / 2)) ++ l.flatMap evBytes))
      { s with tu := { s.tu with mpLast := l.length } })

/-- MP_REMOVE_EVENTS: command 0x05. A count outside 1 to 7 is refused as a 0x02 value out of range is
(a detail DEDUCED, log 46). -/
def execMpRemoveEvents (m : Nat) (pecOk : Bool) (s : State) : Host.Outcome State Fault Refusal :=
  mpTakes s (fun s =>
    if !pecOk || m = 0 || 7 < m then mpRefuse s
    else
      let n := min m s.tu.mpLast
      let l := (s.path 1).staged.drop n
      let s := s.updPath 1 (fun q => pathCount { q with staged := l } 1 n)
      emit (.smbAck true) { s with tu := { s.tu with mpLast := s.tu.mpLast - n, mpAlert := s.tu.mpAlert && l.any isAlarmEv } })

/-- MP's SMBus address (R413). -/
def mpAddress (s : State) : Nat := 0x58 + s.aon.smbAddr

/-- MP_ALERT_RESPONSE (R413): while SMB_ALERT_N is active MP answers with its address, which acknowledges
(a detail DEDUCED, log 46). -/
def execMpAlertResponse (s : State) : Host.Outcome State Fault Refusal :=
  if mpAnswers s && s.tu.mpAlert then done (emit (.smbAlertAddress (mpAddress s)) { s with tu := { s.tu with mpAlert := false } })
  else done s

/-- SMBUS_CLOCK_TIMEOUT (R415): the bus is released and the interface reset; pointer and queue are kept
(a detail DEDUCED, log 46). -/
def execSmbusClockTimeout (s : State) : Host.Outcome State Fault Refusal := done (raiseLog s uMp)

end Sys2Proof.Machine
end

