-- ==== Sys2Proof/Machine/Registers.lean ====
section
/-! DEFINITION. The register windows of BAR0 and BAR4 and the window of BAR2 (R5 to R10, R125, R429 to R440, and the
register tables of the other chapters). -/

set_option Elab.async false

namespace Sys2Proof.Machine

/-! ### Selectors -/

/-- Fields of a counter selector: slot in bits [25:16], counter in bits [3:0]. -/
def selHi (f : Fn) (off : Nat) : Nat := wbits (freg f off) 25 16
def selIx (f : Fn) (off : Nat) : Nat := wbits (freg f off) 3 0

/-- The slot is of the function's partition (R374). -/
def ownSlot (s : State) (port fn slot : Nat) : Bool :=
  match partOfFn s port fn with
  | none => false
  | some p => !(s.se slot).isEmpty && slotPart s slot == p

/-- A value of a slot of the function's own partition; zero for any other slot. -/
def slotVal (s : State) (port fn slot : Nat) (v : Nat) : Nat := if ownSlot s port fn slot then v else 0

/-- A value of the function's partition; zero where it has none. -/
def partVal (s : State) (port fn : Nat) (v : Nat → Nat) : Nat :=
  match partOfFn s port fn with
  | none => 0
  | some p => v p

/-! ### 64-bit counters of BAR0 -/

/-- ING_VAL (R133). -/
def ingVal (s : State) (port fn : Nat) : Nat :=
  let f := s.fn port fn
  let slot := selHi f 0x0FE000
  let k := selIx f 0x0FE000
  if 12 ≤ k then 0
  else if slot = 0x200 || slot = 0x201 then (if fn = 0 && k ≠ 11 then mget (s.np (slot - 0x200)).ctr k else 0)
  else slotVal s port fn slot (mget (s.stream slot).ing.ctr k)

/-- A per-slot counter of `n` that a selector at `off` names. -/
def slotCtr (s : State) (port fn off n : Nat) (c : Stream → Map Nat) : Nat :=
  let f := s.fn port fn
  if n ≤ selIx f off then 0
  else slotVal s port fn (selHi f off % 512) (mget (c (s.stream (selHi f off % 512))) (selIx f off))

/-- A field of a slot's adapter head; zero for a stream without adapter records (a detail DESIGN CHOICE, log 41). -/
def adpHead (s : State) (slot off n : Nat) : Nat :=
  if 0 < (s.stream slot).count && hasAdapter s slot then headGet s slot off n else 0

/-- ADP_VAL (R277): counter 0 is the step as it stands. -/
def adpVal (s : State) (port fn : Nat) : Nat :=
  let f := s.fn port fn
  let slot := selHi f 0x0FE700 % 512
  if selIx f 0x0FE700 = 0 then slotVal s port fn slot (adpHead s slot hdStep 8)
  else slotCtr s port fn 0x0FE700 10 (fun x => x.adpc)

/-- CTX_VAL (R257): the slot's counters, or with 0x200 those of the partition. -/
def ctxVal (s : State) (port fn : Nat) : Nat :=
  let f := s.fn port fn
  let slot := selHi f 0x0FE600
  let k := selIx f 0x0FE600
  if slot = 0x200 then
    partVal s port fn (fun p =>
      if k = 6 then countIf s.ctxs (fun c => c.2.part == p && c.2.chrysalis.isSome)
      else if k ≤ 5 || (9 ≤ k && k ≤ 11) || k = 13 then mget (s.part p).ctxc k else 0)
  else if k ≤ 10 then slotVal s port fn slot (mget (s.stream slot).ctxc k)
  else 0

/-- SCH_VAL (R324): counters 3 to 6 are kept for each V/F point. -/
def schVal (s : State) (port fn : Nat) : Nat :=
  let f := s.fn port fn
  let k := selIx f 0x0FE900
  let vp := if 3 ≤ k && k ≤ 6 then wbits (freg f 0x0FE900) 18 16 else 0
  if 14 ≤ k then 0 else partVal s port fn (fun p => mget (s.part p).sch (k * 8 + vp))

/-- BPM_VAL (R347). -/
def bpmVal (s : State) (port fn : Nat) : Nat :=
  let f := s.fn port fn
  let pool := wbits (freg f 0x0FEA00) 19 16
  let k := selIx f 0x0FEA00
  partVal s port fn (fun p =>
    if k = 7 then poolHeld s p pool
    else if k = 8 then quotaOf s p pool
    else if k ≤ 6 then mget (s.part p).bpm (pool * 16 + k)
    else 0)

/-- The 64-bit value whose low word lies at an offset of BAR0, if one does. -/
def bar0Pair (s : State) (port fn off : Nat) : Option Nat :=
  let f := s.fn port fn
  if off = 0x0FD024 then some (mget f.rings (ringSel f)).drops
  else if off = 0x0FE004 then some (ingVal s port fn)
  else if off = 0x0FE204 then some (slotCtr s port fn 0x0FE200 12 (fun x => x.dec.ctr))
  else if off = 0x0FE304 then some (slotCtr s port fn 0x0FE300 6 (fun x => x.qnt))
  else if off = 0x0FE404 then some (slotCtr s port fn 0x0FE400 5 (fun x => x.swo))
  else if off = 0x0FE504 then
    some (if 7 ≤ selIx f 0x0FE500 then 0 else partVal s port fn (fun p => mget (s.part p).map (selIx f 0x0FE500)))
  else if off = 0x0FE604 then some (ctxVal s port fn)
  else if off = 0x0FE704 then some (adpVal s port fn)
  else if off = 0x0FE804 then some (slotCtr s port fn 0x0FE800 12 (fun x => x.tds))
  else if off = 0x0FE904 then some (schVal s port fn)
  else if off = 0x0FEA04 then some (bpmVal s port fn)
  else none

/-! ### State registers of BAR0 -/

/-- ING_STATE (R133). -/
def ingState (s : State) (port fn : Nat) : Word :=
  let slot := selHi (s.fn port fn) 0x0FE000
  let st := s.stream slot
  if slot < 512 && ownSlot s port fn slot then
    wflag st.live 31 ||| wflag st.ing.locked 30 ||| wflag (ingMapped (s.se slot) st.ing) 29 ||| wflag st.ing.silent 28 |||
      fldSat st.ing.segment 15 0
  else 0

/-- Budget of the picture in reconstruction, or of the next one (R153). -/
def decBudget (s : State) (slot : Nat) : Nat :=
  let d := (s.stream slot).dec
  match d.cur, d.queue with
  | some c, _ => c.budget
  | none, [] => pictureBudget (tunCurrent s slot 0x11) d.avg d.avg
  | none, fid :: _ =>
    let f := s.frame fid
    let n := nominalCycles (f.hdr.getD default)
    pictureBudget f.budgetMul (if d.segBegun = f.segment + 1 then d.avg else n) n

/-- DEC_STATE, DEC_AVG and DEC_BUDGET (R153). -/
def decState (s : State) (port fn off : Nat) : Word :=
  let slot := selHi (s.fn port fn) 0x0FE200 % 512
  let st := s.stream slot
  let d := st.dec
  if !ownSlot s port fn slot then 0
  else if off = 0x0FE210 then loWord d.avg
  else if off = 0x0FE214 then loWord (decBudget s slot)
  else
    wflag (st.live && d.engine.isSome) 31 ||| fld (d.engine.getD 0) 30 28 |||
      wflag (d.waitingRap || d.limitAu.isSome || d.refusedAu.isSome) 27 ||| wflag d.refusedAu.isSome 26 |||
      wflag d.stalled 25 ||| fldSat d.queue.length 24 20

/-- CTX_BASE and CTX_COUNT (R257). -/
def ctxRun (s : State) (port fn : Nat) (count : Bool) : Word :=
  let slot := selHi (s.fn port fn) 0x0FE600
  if slot < 512 && ownSlot s port fn slot then
    fld (if count then (s.stream slot).count else (s.stream slot).base) 20 0
  else 0

/-- A field of a record of the selected slot: ADP_LOSS and TDS_LAMBDA (R277, R303). -/
def slotRec (s : State) (port fn sel : Nat) (v : Nat → Nat) : Word :=
  let slot := selHi (s.fn port fn) sel % 512
  if ownSlot s port fn slot && 0 < (s.stream slot).count then loWord (v slot) else 0

/-- SCH_PART (R324). -/
def schPart (s : State) (port fn : Nat) : Word :=
  match partOfFn s port fn with
  | none => 0
  | some p =>
    let e := s.pe p
    let pin := pinnedNow s p
    fld (peClass e) 31 31 ||| wflag pin 30 ||| (if pin then fld (peMask e) 23 16 else 0) |||
      fldSat (countIf s.ctxs (fun c => c.2.part == p && !c.2.slots.isEmpty)) 7 0

/-- SCH_CREDIT (R324): whole cell-cycles. -/
def schCredit (s : State) (port fn : Nat) : Word :=
  match partOfFn s port fn with
  | none => 0
  | some p => fld (ofSigned 28 (creditOf s (wbits (freg (s.fn port fn) 0x0FE900) 18 16) p / 1024)) 27 0

/-- FN_BOOT (R44). -/
def fnBoot (s : State) : Word := fld s.scu.phase 31 28 ||| fld s.scu.cause 27 20

/-- Ring registers of the selected ring (R382). -/
def ringReg (f : Fn) (off : Nat) : Word :=
  let r := mget f.rings (ringSel f)
  if off = 0x0FD004 then r.baseLo
  else if off = 0x0FD008 then r.baseHi
  else if off = 0x0FD00C then r.consLo
  else if off = 0x0FD010 then r.consHi
  else if off = 0x0FD014 then r.cfg
  else if off = 0x0FD01C then wflag r.bound 31 ||| wflag r.error 30 ||| fld r.cause 29 26 ||| fld r.gen 23 16
  else if off = 0x0FD020 then loWord r.prod
  else 0

/-- Registers of the SCU domain that only PF0 of HPA has (R52, R56, R422). -/
def hpaReg (s : State) (off : Nat) : Word :=
  if off = 0x0FF110 then fld s.moult.state 31 28 ||| fld s.moult.cause 27 20
  else if off = 0x0FF114 then loWord s.scu.moultSeq
  else if off = 0x0FF210 then
    fld s.flash.state 31 28 ||| fld s.flash.cause 27 20 ||| fld s.flash.progress 19 12 |||
      fld (if s.held && s.flash.state ≠ 0 then s.flash.target else flashTarget s) 0 0
  else if off = 0x0FF30C then
    fld s.key.state 31 28 ||| fld s.key.result 27 20 |||
      (List.range 4).foldl (fun w i => w ||| fld (keySlotState s i) (2 * i + 1) (2 * i)) 0
  else freg (s.fn 0 0) off

/-- An offset among the registers of PF0 of HPA alone. -/
def hpaOffset (off : Nat) : Bool := 0x0FF100 ≤ off && off < 0x0FF400

/-- Registers whose reads return what was written: those of `writeMask`. -/
def bar0Value (s : State) (port fn off : Nat) : Word :=
  let f := s.fn port fn
  if 0x0FD004 ≤ off && off ≤ 0x0FD020 then ringReg f off
  else if off = 0x0FD100 then f.irqStatus
  else if off = 0x0FD104 then f.irqMask
  else if off = 0x0FE00C then ingState s port fn
  else if off = 0x0FE114 then
    wflag f.inj.enabled 31 ||| wflag f.inj.desync 30 ||| wflag f.inj.noBacking 29 ||| fld f.inj.rdOffset 27 0
  else if off = 0x0FE20C || off = 0x0FE210 || off = 0x0FE214 then decState s port fn off
  else if off = 0x0FE60C then ctxRun s port fn false
  else if off = 0x0FE610 then ctxRun s port fn true
  else if off = 0x0FE70C then
    slotRec s port fn 0x0FE700 (fun i => adpHead s i hdLoss 4)
  else if off = 0x0FE80C then slotRec s port fn 0x0FE800 (fun i => srGet s i srLambda 4)
  else if off = 0x0FE90C then schPart s port fn
  else if off = 0x0FE910 then schCredit s port fn
  else if off = 0x0FF000 then fnBoot s
  else if off = 0x0FF01C then wflag f.tuneCmd.isSome 31 ||| fld f.tuneResult 7 0
  else if hpaOffset off then (if port = 0 && fn = 0 then hpaReg s off else 0)
  else if off = 0x0FF42C then fld f.att.state 31 28 ||| fld f.att.cause 27 20
  else if 0x0FF440 ≤ off && off < 0x0FF480 then loWord (leAt s.idKey (off - 0x0FF440) 4)
  else freg f off

/-! ### Registers of BAR4 (R433, R434, R436 to R440, R348, R369) -/

/-- A selector of the accessor's own copy (R437). -/
def sel4 (s : State) (port off : Nat) : Word := mget (s.fn port 0).regs4 off

/-- PAC_VAL (R438). -/
def pacVal (s : State) (port : Nat) : Nat :=
  let w := sel4 s port 0x120000
  let k := wbits w 3 0
  if k = 0 || k = 6 || k = 7 then mget s.pac.ctr k
  else if k ≤ 8 then mget s.pac.ctr (100 + k * 8 + wbits w 18 16)
  else 0

/-- TU_VAL (R439). -/
def tuVal (s : State) (port : Nat) : Nat :=
  let w := sel4 s port 0x130000
  let p := wbits w 19 16
  let k := wbits w 3 0
  if 10 ≤ p || 9 ≤ k then 0 else mget (s.path p).ctr k

/-- TU_PATH (R439) (a detail DEDUCED, log 43). -/
def tuPath (s : State) (p : Nat) : Word :=
  if 10 ≤ p then 0
  else
    let n := (s.path p).staged.length
    let on := if p < 2 then pathEnabled s p else (eventRing (mget s.fns (p - 2))).isSome
    wflag on 31 ||| wflag (pathCap p ≤ n) 30 ||| wflag (3 * pathCap p ≤ 4 * n) 29 ||| fld (s.path p).k 23 20 ||| fld n 12 0

/-- HP_VAL of a port block (R440). -/
def hpVal (s : State) (port block : Nat) : Nat :=
  let k := wbits (sel4 s port (0x140004 + 0x10000 * block)) 3 0
  if 11 ≤ k || !portPresent s block then 0 else mget (s.port block).ctr k

/-- HP_LINK (R440). -/
def hpLink (s : State) (p : Nat) : Word :=
  let x := s.port p
  let bits (g : Nat → Bool) : Nat := sumNat ((List.range 4).map (fun f => if g f then 2 ^ f else 0))
  fld x.rate 31 29 ||| fld x.width 28 24 ||| wflag (linkUp x) 23 ||| wflag (x.link == 2) 22 ||| wflag (x.link == 3) 21 |||
    fld (bits (fnPresent s p)) 15 12 ||| fld (bits (fun f => fnPresent s p f && (s.fn p f).bme)) 11 8

/-- DMC_VAL (R348). -/
def dmcVal (s : State) (port : Nat) : Nat :=
  let w := sel4 s port 0x110000
  let k := wbits w 3 0
  if 10 ≤ k then 0 else mget (mget s.dram.pcs (wbits w 21 16)).ctr k

/-- The 64-bit value whose low word lies at an offset of BAR4, if one does; the always-on block keeps its own. -/
def bar4Pair (s : State) (port off : Nat) : Option Nat :=
  if off = 0x110004 then some (dmcVal s port)
  else if off = 0x120004 then some (pacVal s port)
  else if off = 0x130004 then some (tuVal s port)
  else if off = 0x140008 then some (hpVal s port 0)
  else if off = 0x150008 then some (hpVal s port 1)
  else if 0x200000 ≤ off && off < 0x280000 && off % 0x10000 = 8 then some (s.region ((off - 0x200000) / 0x10000)).tokWait
  else none

/-- BPM registers of BAR4 (R348, R436). -/
def bpmReg (s : State) (port off : Nat) : Word :=
  let k := wbits (sel4 s port 0x100000) 3 0
  let c := cfgPool s.run k
  if off = 0x100004 then fld (poLog2 c) 31 27 ||| fld (poCount c) 24 0
  else if off = 0x100008 then wflag (s.bpm.warn.contains k) 31 ||| fld (poolFree s k) 24 0
  else if off = 0x10000C then fld (poolQuar s k) 24 0
  else if off = 0x100010 then fld (poolUsed s 8 k) 24 0
  else if off = 0x100014 then fld (poolUnzeroed s k).length 24 0
  else if off = 0x10001C then fld (poolHeld s (wbits (sel4 s port 0x100018) 2 0) k) 24 0
  else sel4 s port off

/-- PAC and TU registers of BAR4 (R438, R439). -/
def pacReg (s : State) (port off : Nat) : Word :=
  let n := wbits (sel4 s port 0x120000) 18 16
  let x := s.region n
  if off = 0x12000C then
    fld x.target 31 29 ||| fld (min (vpMin s n) (vpMax s n)) 28 26 ||| fld (vpMax s n) 25 23 ||| fld x.grant 22 17 ||| fld x.duty 16 7
  else if off = 0x120010 then fldSat x.railPower 15 0
  else if off = 0x120014 then fld s.pac.scale 31 16 ||| fldSat s.pac.uncore 15 0
  else if off = 0x13000C then tuPath s (wbits (sel4 s port 0x130000) 19 16)
  else if off = 0x130010 then loWord s.tu.ethSeq
  else sel4 s port off

/-- Registers of a region's window (R369). -/
def regionReg (s : State) (n off : Nat) : Word :=
  let x := s.region n
  if off = 0 then
    fld x.vp 31 29 ||| fldSat x.held 28 23 ||| fld x.grant 22 17 ||| fldSat x.overdraw 16 11 |||
      fld (countIf (List.range 32) (fun i => cellOut s (32 * n + i))) 10 5
  else if off = 4 then fld (ofSigned 16 x.tj) 15 0
  else 0

/-- The region whose window an offset of BAR4 lies in. -/
def windowOf (off : Nat) : Option Nat := if 0x200000 ≤ off && off < 0x280000 then some ((off - 0x200000) / 0x10000) else none

/-- Value of a register of BAR4 beyond the always-on block; zero where none is assigned. -/
def bar4Value (s : State) (port off : Nat) : Word :=
  if off < 0x100000 then 0
  else if off < 0x110000 then bpmReg s port off
  else if off = 0x11000C then fld s.dram.epoch 31 16 ||| fld s.dram.hotPc 13 8 ||| fldSat s.dram.streak 7 0
  else if off = 0x110010 then loWord s.dram.ueAddr
  else if off = 0x110014 then fld (s.dram.ueAddr / 2 ^ 32) 15 0
  else if off < 0x120000 then sel4 s port off
  else if off < 0x140000 then pacReg s port off
  else if off = 0x140000 then hpLink s 0
  else if off = 0x150000 then (if portPresent s 1 then hpLink s 1 else 0)
  else if off = 0x140004 || (off = 0x150004 && portPresent s 1) then sel4 s port off
  else match windowOf off with
    | some n => regionReg s n (off % 0x10000)
    | none => 0

/-! ### Reads (R8, R10) -/

/-- Read a register: the low word of a pair latches the high word for the accessor, and the high word returns what was
latched. -/
def pairRead (s : State) (acc : Acc) (bar off : Nat) (pair : Nat → Option Nat) (value : Nat → Word) : Word × State :=
  match pair off with
  | some v => (loWord v, holdWord s acc bar (off + 4) (hiWord v))
  | none => if 4 ≤ off && (pair (off - 4)).isSome then (heldWord s acc bar off, s) else (value off, s)

/-- Read one register of a BAR for a function. -/
def regRead (s : State) (port fn bar off : Nat) : Word × State :=
  if bar = 0 then pairRead s (.host port fn) 0 off (bar0Pair s port fn) (bar0Value s port fn)
  else if off < 0x0C00 then aonRead s (.host port fn) 4 off
  else pairRead s (.host port fn) 4 off (bar4Pair s port) (bar4Value s port)

/-- An offset of a range of BAR0 that the SCU's domain answers (R432). -/
def scuOffset (off : Nat) : Bool :=
  [(0x0FF000, 0x0FF020), (0x0FF100, 0x0FF118), (0x0FF200, 0x0FF214), (0x0FF300, 0x0FF310), (0x0FF400, 0x0FF480)].any
    (fun r => decide (r.1 ≤ off) && decide (off < r.2))

/-- A register access waits for a controller in its self-restart (R400, R432, R433) (a detail DEDUCED, log 26). -/
def mustWait (s : State) (bar off : Nat) : Bool :=
  (bar = 0 && s.scu.restarting && scuOffset off) ||
    (bar = 4 && s.pac.restarting && 0x120000 ≤ off && off < 0x130000) ||
    (bar = 4 && s.tu.restarting && 0x130000 ≤ off && off < 0x140000)

/-- The BAR exists for the function (R373) (a detail DEDUCED, log 26). -/
def barExists (s : State) (fn bar : Nat) : Bool := bar = 0 || (bar = 2 && s.imago) || (bar = 4 && fn = 0)

/-- A read of the injection window: four bytes of an enabled ring, else zero (R125). -/
def injRead (i : Inj) (off : Nat) : Bytes := if i.enabled then (List.range 4).map (fun j =>
    if off + j < injSize i then cellRead 0 i.bytes (off + j) else 0) else zeros 4

/-- A read of a present, enabled function's BAR, at a naturally aligned offset. -/
def barRead (s : State) (port fn bar off : Nat) : State :=
  if bar = 2 then emit (.readBytes port fn off (injRead (s.fn port fn).inj off)) s
  else
    match (if bar = 4 then windowOf off else none) with
    | some n =>
      if (s.region n).awake then
        let (w, s) := regRead s port fn bar off
        emit (.readData (.host port fn) bar off w) s
      else windowDiscard s port n
    | none =>
      let (w, s) := regRead s port fn bar off
      emit (.readData (.host port fn) bar off w) s

/-- A misaligned access is logged by the port it came through (R5, R405) (a detail DEDUCED, log 26). -/
def misalignedLog (s : State) (port : Nat) : State := raiseLog s (uHp + port)

/-- A misaligned read of a register: zero data and the log (R5). -/
def misalignedRead (s : State) (port fn bar off : Nat) : State :=
  misalignedLog (emit (.readData (.host port fn) bar off 0) s) port

/-- BAR_MEMORY_READ (R5, R8, R10, R125, R353, R384, R388). -/
def execBarMemoryRead (port fn bar off : Nat) (s : State) : Host.Outcome State Fault Refusal :=
  if !portActive s port then done s
  else if !fnTakes s port fn || !barExists s fn bar then done (unsupported s port fn)
  else if bar ≠ 2 && off % 4 ≠ 0 then done (misalignedRead s port fn bar off)
  else if mustWait s bar off then done (waitAccess (.barMemoryRead port fn bar off) s)
  else done (barRead s port fn bar off)

/-- COUNTER_LOW_READ (R5, R10): a read of the low word of a 64-bit value, by a function or by MP. -/
def execCounterLowRead (acc : Acc) (bar off : Nat) (s : State) : Host.Outcome State Fault Refusal :=
  match acc with
  | .host port fn =>
    if !portActive s port then done s
    else if !fnTakes s port fn || !barExists s fn bar then done (unsupported s port fn)
    else if bar ≠ 2 && off % 4 ≠ 0 then done (misalignedRead s port fn bar off)
    else if mustWait s bar off then done (waitAccess (.counterLowRead (.host port fn) bar off) s)
    else done (barRead s port fn bar off)
  | .mp =>
    if mpAnswers s && off < 0x0C00 then
      let (w, s) := aonRead s .mp 4 off
      done (emit (.readData .mp 4 off w) s)
    else done s

/-! ### Writes (R6, R7, R52, R56, R401, R422, R427, R432, R437) -/

/-- RW bits of a plain register of BAR0; zero where the offset has none. -/
def rwMask (off : Nat) : Word :=
  if off = 0x0FD000 then 0xF
  else if off = 0x0FD200 then 0xFFF00001
  else if off = 0x0FE000 || off = 0x0FE600 then 0x03FF000F
  else if off = 0x0FE100 then 0x1F
  else if off = 0x0FE108 then 0xFFFFFFF0
  else if [0x0FE200, 0x0FE300, 0x0FE400, 0x0FE700, 0x0FE800].contains off then 0x01FF000F
  else if off = 0x0FE500 then 0xF
  else if off = 0x0FE900 then 0x0007000F
  else if off = 0x0FEA00 then 0x000F000F
  else if off = 0x0FF010 then 0xFFFF
  else if off = 0x0FF108 then 0x07FFFFFF
  else if off = 0x0FF208 then 0x03FFFFFF
  else if off = 0x0FF20C then 0x4
  else if [0x0FF100, 0x0FF200, 0x0FF300, 0x0FF400].contains off then 0xFFFFF000
  else if [0x0FD204, 0x0FE104, 0x0FE10C, 0x0FF014, 0x0FF104, 0x0FF204, 0x0FF304, 0x0FF404].contains off then 0xFFFFFFFF
  else if 0x0FF408 ≤ off && off < 0x0FF428 && off % 4 = 0 then 0xFFFFFFFF
  else 0

/-- A write that its unit ignores while it is busy (R52, R56, R422, R427), or on a function without the register. -/
def writeIgnored (s : State) (port fn off : Nat) : Bool :=
  if hpaOffset off then
    !(port == 0 && fn == 0) || (off < 0x0FF200 && moultBusy s) || (0x0FF200 ≤ off && off < 0x0FF20C && flashBusy s) ||
      (0x0FF300 ≤ off && keyBusy s)
  else 0x0FF400 ≤ off && off < 0x0FF428 && attBusy (s.fn port fn).att

/-- RW bits of a write of LEDGER_LO and LEDGER_HI: the address stands while enable is 1 (R401). -/
def ledgerMask (f : Fn) (off : Nat) : Word :=
  if (off = 0x0FD200 || off = 0x0FD204) && wbit (freg f 0x0FD200) 0 then (if off = 0x0FD200 then 1 else 0) else 0xFFFFFFFF

/-- Write the RW bits of a plain register (R6, R7). -/
def plainWrite (s : State) (port fn off : Nat) (v : Word) : State :=
  let m := rwMask off &&& ledgerMask (s.fn port fn) off
  if writeIgnored s port fn off || m = 0 then s
  else s.updFn port fn (fun f => { f with regs := mput f.regs off ((freg f off &&& ~~~m) ||| (v &&& m)) })

/-- Write a register of the selected ring; it takes effect at the next bind (R382, R383). -/
def ringWrite (s : State) (port fn off : Nat) (v : Word) : State :=
  s.updRing port fn (ringSel (s.fn port fn)) (fun r =>
    if off = 0x0FD004 then { r with baseLo := v &&& 0xFFFFF000 }
    else if off = 0x0FD008 then { r with baseHi := v }
    else if off = 0x0FD00C then { r with consLo := v &&& 0xFFFFFFF8 }
    else if off = 0x0FD010 then { r with consHi := v }
    else { r with cfg := v &&& 0xFFFFFF3F })

/-- What a command in a control register does, as its own row of the table says (a detail DEDUCED, log 26). -/
def also (b : Bool) (f : State → Host.Outcome State Fault Refusal) (s : State) : State :=
  if b then (match f s with
    | .next s' => s'
    | _ => s)
  else s

/-- Write a register of BAR0. A control register's bits act as the rows of their own say; where one write sets several,
the bit that stops acts before the bit that starts (a detail DEDUCED, log 26). -/
def bar0Write (s : State) (port fn off : Nat) (v : Word) : State :=
  if 0x0FD004 ≤ off && off ≤ 0x0FD014 then ringWrite s port fn off v
  else if off = 0x0FD018 then also (wbit v 0) (execRingBind port fn) (also (wbit v 1) (execRingUnbind port fn) s)
  else if off = 0x0FD100 then irqClear s port fn v 0
  else if off = 0x0FD104 then intaSync (s.updFn port fn (fun f => { f with irqMask := v &&& 0x3FFFFF })) port
  else if off = 0x0FE110 then also (wbit v 0) (execInjEnable port fn) (also (wbit v 1) (execInjDisable port fn) s)
  else if off = 0x0FF018 then tuneIssue s port fn (wbits v 1 0 % 2 + wbits v 1 1 * 2)
  else if off = 0x0FF428 then also (wbit v 0) (execAttGo port fn) s
  else if hpaOffset off && !(port == 0 && fn == 0) then s
  else if off = 0x0FF10C then
    (if wbit v 0 then also true (execMoultGo (wbit v 1)) s else also (wbit v 1) execMoultAbort s)
  else if off = 0x0FF20C then
    also (wbit v 0) execFlashProgram (also (wbit v 1) execFlashSelect (plainWrite s port fn off v))
  else if off = 0x0FF308 then also (wbit v 0) execKeyGo s
  else plainWrite s port fn off v

/-- RW bits of a selector of BAR4 (R437). -/
def selMask (s : State) (off : Nat) : Word :=
  if off = 0x100000 || off = 0x140004 || (off = 0x150004 && portPresent s 1) then 0xF
  else if off = 0x100018 then 0x7
  else if off = 0x110000 then 0x003F000F
  else if off = 0x120000 then 0x0007000F
  else if off = 0x130000 then 0x000F000F
  else 0

/-- Write a register of BAR4: AON_PARK_HOLD, or a selector of the accessor's own copy (a detail DEDUCED, log 26). -/
def bar4Write (s : State) (port off : Nat) (v : Word) : State :=
  if off = 0x44 then holdWrite s port v
  else if selMask s off = 0 then s
  else s.updFn port 0 (fun f => { f with regs4 := mput f.regs4 off (v &&& selMask s off) })

/-- Four bytes, or as many of them as lie within an enabled ring, go to its backing (R125). -/
def injWriteBytes (s : State) (port fn off : Nat) (data : Bytes) : State :=
  if (s.inj port fn).enabled then
    s.updInj port fn (fun i => { i with bytes := cellWriteBytes 0 i.bytes off (data.take (injSize i - off)) })
  else s

/-- A write of a present, enabled function's BAR, at a naturally aligned offset. -/
def barWrite (s : State) (port fn bar off : Nat) (v : Word) : State :=
  if bar = 0 then bar0Write s port fn off v
  else if bar = 2 then injWriteBytes s port fn off (toLe 4 v.toNat)
  else
    match windowOf off with
    | some n => if (s.region n).awake then s else windowDiscard s port n
    | none => bar4Write s port off v

/-- REGISTER_WRITE (R5 to R8, R384, R388) (a detail DEDUCED, log 26). -/
def execRegisterWrite (port fn bar off : Nat) (value : Word) (s : State) : Host.Outcome State Fault Refusal :=
  if !portActive s port || !fnTakes s port fn || !barExists s fn bar then done s
  else if off % 4 ≠ 0 then done (misalignedLog s port)
  else if mustWait s bar off then done (waitAccess (.registerWrite port fn bar off value) s)
  else done (barWrite s port fn bar off value)

/-- MISALIGNED_REGISTER_ACCESS (R5): no effect, zero read data and a log. -/
def execMisalignedAccess (acc : Acc) (bar off size : Nat) (write : Bool) (s : State) : Host.Outcome State Fault Refusal :=
  match acc with
  | .mp => done s
  | .host port fn =>
    if !portActive s port || bar = 2 || (size = 4 && off % 4 = 0) then done s
    else if !fnTakes s port fn || !barExists s fn bar then done (if write then s else unsupported s port fn)
    else
      done (if write then misalignedLog s port else misalignedRead s port fn bar off)

/-- BAR_MEMORY_WRITE (R125, R384, R388, R390): a write of the injection window. -/
def execBarMemoryWrite (port fn off : Nat) (data : Bytes) (poisoned : Bool) (s : State) : Host.Outcome State Fault Refusal :=
  if !portActive s port || !fnTakes s port fn || !barExists s fn 2 then done s
  else if poisoned then done (portCount s port 5)
  else done (injWriteBytes s port fn off data)

end Sys2Proof.Machine
end

