-- ==== Sys2Proof/Machine/Controllers.lean ====
section
/-! DEFINITION. Self-restart of the PAC, the SCU and the TU (R399, R400). -/

set_option Elab.async false

namespace Sys2Proof.Machine

/-! ### What a restart loses -/

/-- The PAC loses the samples of its 1 ms averages; every register keeps its last value (R400, R438). -/
def pacRestart (s : State) : State :=
  { s with
    pac := { s.pac with restarting := true, samples := [], uncoreSamples := [] }
    regions := mmap s.regions (fun _ r => { r with samples := [] })
    aon := { s.aon with pacRestarts := satAdd 255 s.aon.pacRestarts 1 } }

/-- The SCU loses a Moult before COMMIT, a flash operation, a key command that is not burning, and every attestation
request (R50, R400, R419, R427). -/
def scuRestart (s : State) : State :=
  let s := { s with
    scu := { s.scu with restarting := true }
    aon := { s.aon with scuRestarts := satAdd 255 s.aon.scuRestarts 1 } }
  attScuRestart (keyAbort (flashScuRestart (moultCut s 0x26)))

/-- A path loses its staged logs, summaries and traces, which count as dropped. -/
def pathLose (q : Path) : Path :=
  let t := countIf q.staged (fun e => e.cls = 3)
  let l := countIf q.staged (fun e => e.cls = 2 || e.cls = 5)
  let q := { q with staged := q.staged.filter isAlarmEv }
  let q := if l = 0 then q else pathLoseLogs q l
  if t = 0 then q else pathLoseTraces q t

/-- The TU loses the logs and traces that it has staged (R400). -/
def tuRestart (s : State) : State :=
  { s with
    tu := { s.tu with restarting := true, paths := mmap s.tu.paths (fun _ q => pathLose q) }
    aon := { s.aon with tuRestarts := satAdd 255 s.aon.tuRestarts 1 } }

/-- CONTROLLER_RESTART (R399, R400): units 9 PAC, 10 SCU and 11 TU. -/
def execControllerRestart (unit : Nat) (s : State) : Host.Outcome State Fault Refusal :=
  if s.por then done s
  else if unit = uPac then done (raiseAlarm (pacRestart s) uPac 0x80)
  else if unit = uScu then done (raiseAlarm (scuRestart s) uScu 0x80)
  else if unit = uTu then done (raiseAlarm (tuRestart s) uTu 0x80)
  else done s

/-! ### What follows a restart -/

/-- A waiting access is performed: as its command would be now. -/
def performAccess (s : State) (c : Instr) : State :=
  let after (o : Host.Outcome State Fault Refusal) : State := match o with
    | .next t => t
    | _ => s
  match c with
  | .tuneWrite port fn b => after (execTuneWrite port fn b s)
  | .tuneRead port fn => after (execTuneRead port fn s)
  | .moultGo b => after (execMoultGo b s)
  | .moultAbort => after (execMoultAbort s)
  | .flashProgram => after (execFlashProgram s)
  | .flashSelect => after (execFlashSelect s)
  | .keyGo => after (execKeyGo s)
  | .attGo port fn => after (execAttGo port fn s)
  | .registerWrite port fn bar off v => after (execRegisterWrite port fn bar off v s)
  | .barMemoryRead port fn bar off => after (execBarMemoryRead port fn bar off s)
  | .counterLowRead acc bar off => after (execCounterLowRead acc bar off s)
  | _ => s

/-- Every waiting access is tried, in order of arrival; one whose controller still restarts waits on
(a detail DEDUCED, log 26). -/
def performWaits (s : State) : State := s.waits.foldl performAccess { s with waits := [] }

/-- The PAC resumes: regions go on to the points chosen, and the regions held awake are woken (R354, R400). -/
def pacResume (s : State) : State :=
  let s := { s with pac := { s.pac with restarting := false } }
  wakeHeld (List.range 8) ((List.range 8).foldl followTarget s)

/-- An undelivered alarm as it is re-sent: coalesced, with the count and times of its alarm-table entry (R400)
(a detail DEDUCED, log 10). -/
def resentAlarm (s : State) (e : Ev) : Ev :=
  match s.aon.alarms.find? (fun a => a.kind == evKind e.spec) with
  | none => { e with cls := 4 }
  | some a => { e with cls := 4, count := a.count, first := a.first, last := a.last }

/-- One event of each alarm kind of a queue, in order. -/
def firstOfKinds (l : List Ev) : List Ev :=
  l.foldl (fun acc e => if acc.any (fun a => evKind a.spec == evKind e.spec) then acc else acc ++ [e]) []

/-- Re-send a path's undelivered alarms. -/
def pathResend (s : State) (p : Nat) (q : Path) : Path :=
  let l := (firstOfKinds (q.staged.filter isAlarmEv)).map (resentAlarm s)
  l.foldl (fun q e => pathCount (pathAlarm (pathCap p) q e) 3 1) { q with staged := q.staged.filter (fun e => !isAlarmEv e) }

/-- The TU resumes (R400). -/
def tuResume (s : State) : State :=
  let s := { s with tu := { s.tu with restarting := false, paths := mmap s.tu.paths (fun p q => pathResend s p q) } }
  let s := if (s.path 1).staged.any isAlarmEv then { s with tu := { s.tu with mpAlert := true } } else s
  (List.range 8).foldl (fun s k => pumpEvents s (k / 4) (k % 4)) s

/-- CONTROLLER_RESUME (R399, R400): the controller goes on from its save area, and the accesses that waited for it are
performed. A Moult at or after COMMIT runs to DONE. -/
def execControllerResume (unit : Nat) (s : State) : Host.Outcome State Fault Refusal :=
  if unit = uPac && s.pac.restarting then done (performWaits (pacResume s))
  else if unit = uScu && s.scu.restarting then
    done (performWaits (moultFinish { s with scu := { s.scu with restarting := false } }))
  else if unit = uTu && s.tu.restarting then done (performWaits (tuResume s))
  else done s

end Sys2Proof.Machine
end

