-- ==== Sys2Proof/Machine/Dx.lean ====
section
/-! DEFINITION. The Descriptor Encoder: frame records and codebook units (R290 to R296), their carriage as RTP (R299) and
to the host ring (R300). -/

set_option Elab.async false

namespace Sys2Proof.Machine

/-! ### Units (R291, R296) -/

/-- A whole unit of a type: header, with the CRC-32C over the unit with its own field as zero, then the body. -/
def unitBytes (ty slot seq : Nat) (body : Bytes) : Bytes :=
  let head := toLe 2 0x5344 ++ toLe 1 ty ++ toLe 1 1 ++ toLe 4 (16 + body.length) ++ toLe 2 slot ++ toLe 2 seq
  head ++ toLe 4 (crc32c (head ++ zeros 4 ++ body)) ++ body

/-- Body of a full codebook unit. -/
def fullBody (gen : Nat) (kern : List Bytes) (probs : List Nat) : Bytes :=
  toLe 2 gen ++ zeros 14 ++ kern.flatMap (padTo 32) ++ probs.flatMap (toLe 2)

/-- Body of a partial codebook unit. -/
def partialBody (u : Nat × Nat × List (Nat × Bytes)) : Bytes :=
  toLe 2 u.1 ++ toLe 2 u.2.1 ++ toLe 2 u.2.2.length ++ zeros 10 ++
    u.2.2.flatMap (fun r => toLe 2 r.1 ++ padTo 25 r.2 ++ zeros 5)

/-! ### Records (R292 to R295) -/

/-- src_kind: 1 RTP timestamp, 2 33-bit PTS, 3 host pts. -/
def srcKind (e : Bytes) : Nat := if seTransport e = 1 then 1 else if seTransport e = 4 then 3 else 2

/-- The stream has no detector. -/
def detectorOff (e : Bytes) : Bool := !seDetector e || seModel e 2 == 0xFF

/-- Flags of a record. -/
def recordFlags (e : Bytes) (f : Frame) : Nat :=
  let bit (b : Bool) (i : Nat) : Nat := if b then 2 ^ i else 0
  bit (f.flags / 2 % 2 = 1) 0 + bit f.bound 1 + bit f.capped 2 + bit f.quantFlag 3 + bit (f.tiles.any (·.fusion)) 4 +
    bit f.noPrev 5 + bit (detectorOff e) 6 + bit f.ref.isNone 7

/-- Coverage mask of a PARTIAL record, padded with zeros to a multiple of 4 bytes (R293). -/
def coverMask (tiles : List Tile) : Bytes :=
  let n := ceilDiv tiles.length 8
  padTo (roundUp n 4) ((List.range n).map (fun i =>
    BitVec.ofNat 8 (sumNat ((List.range 8).map (fun j => if (tiles.getD (8 * i + j) default).covered then 2 ^ j else 0)))))

/-- Detection entries: one for each candidate row, in row order (R294). -/
def detEntries (f : Frame) : Bytes × Nat :=
  let (w, h) := baseSize f
  let (ww, hw) := workSize f
  let ds := candidates f.dets
  (ds.flatMap (fun d => detEntry d.2 w h ww hw), ds.length)

/-- Body of a frame record, with its payload. -/
def recordBody (e : Bytes) (probs : List Nat) (f : Frame) : Bytes × Nat :=
  let (w, h) := baseSize f
  let pay := encodeBits (payloadBits probs (tileCols w) f.interp f.tiles)
  let cover := if f.flags / 2 % 2 = 1 then coverMask f.tiles else []
  let dets := detEntries f
  (toLe 4 (f.picture.getD 0) ++ toLe 1 (srcKind e) ++ toLe 1 f.interp ++ toLe 2 f.cbGen ++ toLe 8 f.srcTs ++
    toLe 8 (f.ref.getD 0) ++ toLe 2 w ++ toLe 2 h ++ toLe 2 (recordFlags e f) ++ toLe 2 f.share ++
    toLe 1 f.concealCause ++ toLe 1 0 ++ toLe 2 dets.2 ++ toLe 2 (f.trackEntries.length / 20) ++ toLe 2 cover.length ++
    toLe 4 pay.length ++ toLe 4 0 ++ cover ++ dets.1 ++ f.trackEntries ++ pay, pay.length)

/-! ### Codebook units that come before a record (R290, R302) -/

/-- The record carries generation `g` or a later one. -/
def genReached (g carried : Nat) : Bool := decide ((carried + 2 ^ 16 - g) % 2 ^ 16 < 2 ^ 15)

/-- Codebook units due before a frame's record: type and body; and whether a full one is among them. -/
def codebookDue (s : State) (f : Frame) : List (Nat × Bytes) × Bool :=
  let x := cbStream (s.stream f.slot) f.cfgSeq
  if x.fullDue || 256 ≤ srGet s f.slot srSinceFull 2 then ([(2, fullBody f.cbGen (kernCopy x f.cbCopy) x.probs)], true)
  else ((x.partialDue.filter (fun u => genReached u.2.1 f.cbGen)).map (fun u => (3, partialBody u)), false)

/-! ### RECORD_ENCODE (R292, R297) -/

/-- A frame of a slot whose record has not been handed to its destinations. -/
def unsent (f : Frame) : Bool := !frameEnded f && !f.emitWait

/-- RECORD_ENCODE (R297): the stream's next picture in presentation order has been searched; its record is coded
(a detail DEDUCED, log 42). -/
def execRecordEncode (slot : Nat) (s : State) : Host.Outcome State Fault Refusal :=
  match firstPicture s slot unsent with
  | none => done s
  | some fid =>
    let f := s.frame fid
    if f.stage ≠ 7 || unitDown s uDx then done s
    else
      let seq := (srGet s slot srUnitSeq 2 + (codebookDue s f).1.length) % 2 ^ 16
      let body := (recordBody (frameSe s f) (cbStream (s.stream slot) f.cfgSeq).probs f).1
      done (frameStage (s.updFrame fid (fun f => { f with unit := some body, unitSeq := seq })) fid 8)

/-! ### Carriage (R299, R300) -/

/-- Bytes of unit that one packet holds. -/
def fragSize (mtu dst : Nat) : Nat := if isV4 dst then mtu - 44 else mtu - 64

/-- RTP payload type, sequence number, timestamp and SSRC, then the 4-byte header and the fragment. -/
def rtpPacket (e : Bytes) (rtpSeq ts kind unitSeq : Nat) (marker : Bool) (frag : Bytes) : Bytes :=
  toBe 1 0x80 ++ toBe 1 ((if marker then 128 else 0) + seTdsPt e % 128) ++ toBe 2 rtpSeq ++ toBe 4 ts ++ toBe 4 (seSsrc e) ++
    toBe 4 (kind * 2 ^ 30 + unitSeq) ++ frag

/-- RTP timestamp of a record. -/
def rtpStamp (e : Bytes) (f : Frame) : Nat :=
  if srcKind e = 3 then f.srcTs * 90000 / 2 ^ 32 % 2 ^ 32 else f.srcTs % 2 ^ 32

/-- Send the packets of a unit, numbered from `i` of `n`. -/
def sendFrags (e : Bytes) (slot ts seq n : Nat) : List Bytes → Nat → State → State
  | [], _, s => s
  | b :: t, i, s =>
    let kind := if n = 1 then 0 else if i = 0 then 1 else if i + 1 = n then 3 else 2
    let rs := srGet s slot srRtpSeq 2
    let p := rtpPacket e rs ts kind seq (i + 1 = n) b
    let s := recSet s slot 0 [(srRtpSeq, toLe 2 ((rs + 1) % 2 ^ 16))]
    sendFrags e slot ts seq n t (i + 1)
      (sendUdp s (seTdsPort e) (seTdsAddr e) (slot + 1)
        (.udp (seTdsPort e) (seTdsAddr e) (seTdsUdp e) (seTdsUdp e) (seHop e) (seDscp e) 0 false 0 0 p))

/-- Send a unit on the network. -/
def sendUnit (s : State) (e : Bytes) (slot ts seq : Nat) (u : Bytes) : State :=
  let k := fragSize (neMtu (cfgNet s.run (seTdsPort e))) (seTdsAddr e)
  let n := ceilDiv u.length k
  sendFrags e slot ts seq n (blocksOf k n u) 0 s

/-- Hand a unit to every destination of its stream, under the next unit sequence number; answers whether a ring has it
in staging. -/
def emitUnit (s : State) (f : Frame) (ty : Nat) (body : Bytes) (fid : Option Nat) : Bool × State :=
  let e := frameSe s f
  let slot := f.slot
  let seq := srGet s slot srUnitSeq 2
  let u := unitBytes ty slot seq body
  let s := recSet s slot 0 [(srUnitSeq, toLe 2 ((seq + 1) % 2 ^ 16))]
  let s := if seDest e / 2 % 2 = 1 then sendUnit s e slot (rtpStamp e f) seq u else s
  match seDest e % 2, frameOwner s f with
  | 1, some (port, fn) =>
    let r := ringDeliver s port fn (seRing e) u fid
    (!r.1, r.2)
  | _, _ => (false, s)

/-- Emit codebook units. -/
def emitCodebooks (f : Frame) : List (Nat × Bytes) → State → State
  | [], s => s
  | u :: t, s =>
    let s := (emitUnit s f u.1 u.2 none).2
    emitCodebooks f t (s.updStream f.slot (fun x => { x with tds := bump x.tds (if u.1 = 2 then 5 else 6) 1 }))

/-- Counters of an emitted record (R303). -/
def countRecord (f : Frame) (pay : Nat) (m : Map Nat) : Map Nat :=
  let bit (b : Bool) : Nat := if b then 1 else 0
  let m := bump (bump m 0 1) 1 (bit (f.flags / 2 % 2 = 1))
  let m := bump (bump m 2 (bit f.bound)) 3 (bit f.capped)
  bump (bump m 4 (countIf f.tiles (fun t => t.covered && t.skip))) 9 pay

/-- Updates sent before a frame's record are no longer due, of the codebook that the frame uses. -/
def cbSent (x : Stream) (f : Frame) (full : Bool) : Stream :=
  let due (d : Bool) : Bool := if full then false else d
  let left (l : List (Nat × Nat × List (Nat × Bytes))) := l.filter (fun u => !genReached u.2.1 f.cbGen)
  match oldCodebook x f.cfgSeq with
  | none => { x with fullDue := due x.fullDue, partialDue := left x.partialDue }
  | some o => { x with cbOld := x.cbOld.map (fun p =>
      if p.seq = o.seq then { p with fullDue := due p.fullDue, partialDue := left p.partialDue } else p) }

/-- Emit an encoded frame's record, after the codebook units due before it (a detail DEDUCED, log 42). -/
def emitRecord (s : State) (slot fid : Nat) (body : Bytes) : State :=
  let f := s.frame fid
  let (units, full) := codebookDue s f
  let s := emitCodebooks f units s
  let since := if full then 0 else srGet s slot srSinceFull 2
  let s := s.updStream slot (fun x => { cbSent x f full with
    tds := countRecord f (recordBody (frameSe s f) (cbStream x f.cfgSeq).probs f).2 x.tds })
  let s := recSet s slot 0 [(srSinceFull, toLe 2 (since + 1))]
  let seq := srGet s slot srUnitSeq 2
  let s := s.updFrame fid (fun f => { f with unitSeq := seq, emitWait := true, unit := none })
  let (held, s) := emitUnit s f 1 body (some fid)
  if held then s else frameServed s fid

/-- RECORD_EMIT (R299): the stream's next record in presentation order, preceded by any codebook unit due. -/
def execRecordEmit (slot : Nat) (s : State) : Host.Outcome State Fault Refusal :=
  match firstPicture s slot unsent with
  | none => done s
  | some fid =>
    match (s.frame fid).unit with
    | none => done s
    | some body => if unitDown s uDx then done s else done (sweepSlots (groupSlots s slot) (emitRecord s slot fid body))

end Sys2Proof.Machine
end

