-- ==== Sys2Proof/Machine/Chrysalis.lean ====
section
/-! DEFINITION. The body of a Chrysalis (R251): what a context saves of its windows, halo rows, hand-off rings, progress,
claims and figures, and what a restore reads of it (R253). -/

set_option Elab.async false

namespace Sys2Proof.Machine

/-! ### What a layer still reaches (R217) -/

/-- First row of tensor `t` that a layer still reaches, where it is not complete (R217). -/
def Stripe.needs (x : Ctx) (q : Stripe) (t li : Nat) : Option Nat :=
  (q.openGroup x li).map (fun g => (q.reached li t g.1 g.2).1)

/-- First row of `t` that the row group in progress of a layer does not reach. -/
def Stripe.reaches (x : Ctx) (q : Stripe) (t li : Nat) : Option Nat :=
  (q.openGroup x li).map (fun g => (q.reached li t g.1 g.2).2)

/-- Layers of a list that read a tensor by rows. -/
def Stripe.readersIn (q : Stripe) (t : Nat) (ls : List Nat) : List Nat := ls.filter (fun i => (rowInputs q.p (gLayer q.p.g i)).contains t)

/-- The least of a list of rows. -/
def leastOf : List Nat → Option Nat
  | [] => none
  | a :: l => some (l.foldl min a)

/-- Elements of one row of a layer's output; a base tile of DSEARCH is one. -/
def rowElems (e : OpEnv) (t : Nat) : Nat := if t = 0xFFFF then tilesAcross e.w else e.wOf t * e.cOf t

/-! ### Sections (R251) -/

/-- A section: its header, and its data padded to 16 bytes (a detail DEDUCED, log 17). -/
def bodySection (kind id first count : Nat) (data : Bytes) : Bytes :=
  toLe 2 kind ++ toLe 2 id ++ toLe 4 data.length ++ toLe 4 first ++ toLe 4 count ++ padTo (roundUp data.length 16) data

/-- One row of a tensor, rb(t) bytes (R102). -/
def Stripe.rowData (q : Stripe) (t y : Nat) : Bytes :=
  padTo (rowBytes q.p t) (packCodes (q.p.bits t) ((List.range (rowElems q.env t)).map (fun i => q.env.code t (y * rowElems q.env t + i))))

/-- Rows `lo` up to `hi` of a tensor, in order. -/
def Stripe.rowsData (q : Stripe) (t lo hi : Nat) : Bytes := (List.range (hi - lo)).flatMap (fun i => q.rowData t (lo + i))

/-- Rows of the largest window that a stack of the phase gives a tensor (R102). -/
def Stripe.windowMax (q : Stripe) (t : Nat) : Nat := q.ph.stackIds.foldl (fun a k => max a (windowRows q.p (stackLayers q.p.g k) t)) 0

/-- Rows of a tensor that its window holds: from the first row that a reader still reaches, up to the last that has
committed, or for a tensor that the phase does not produce up to the last that a row group in progress reaches; of rows that
the picture has. -/
def Stripe.window (x : Ctx) (q : Stripe) (t : Nat) : Nat × Nat :=
  let rd := q.readersIn t (phaseLayers q.p.g q.ph)
  match leastOf (rd.filterMap (q.needs x t)) with
  | none => (0, 0)
  | some lo =>
    let hi := min (q.env.hOf t) (match q.producer t with
      | some i => q.nextRow x i
      | none => (rd.filterMap (q.reaches x t)).foldl max 0)
    (max lo (hi - q.windowMax t), hi)

/-- Window section of a tensor (a detail DEDUCED, log 17). -/
def Stripe.windowSection (x : Ctx) (q : Stripe) (t : Nat) : Bytes :=
  let (lo, hi) := q.window x t
  if lo < hi then bodySection 1 t lo (hi - lo) (q.rowsData t lo hi) else []

/-- Halo section of a tensor: the rows in place for the stripe above, which it releases all at once (R222), and the counts
of the stripe's halo semaphore (a detail DEDUCED, log 17). -/
def Stripe.haloSection (x : Ctx) (q : Stripe) (t : Nat) : Bytes :=
  match q.producer t with
  | none => []
  | some i =>
    let lo := (q.span i).1
    let n := countIf q.haloOrder (fun r => r.1 == i)
    let freed := haloFreed x q.claim
    let k := if freed then 0 else min n (min (q.env.hOf t) (q.nextRow x i) - lo)
    if n = 0 then []
    else bodySection 2 t (if freed then q.haloTotal else q.haloIx i lo) k (q.rowsData t lo (lo + k) ++
      toLe 2 q.claim.halo ++ toLe 2 (if freed then q.haloTotal else 0))

/-- Hand-off sections of a tensor: one for each stack that reads it in another group of the wave (R224)
(a detail DEDUCED, log 17). -/
def Stripe.handoffSection (x : Ctx) (q : Stripe) (t : Nat) : Bytes :=
  match q.producer t with
  | none => []
  | some i => (q.handoffs.zipIdx.filter (fun h => h.1.1 == t)).flatMap (fun h =>
    let lo := (q.span i).1
    let hi := min (q.env.hOf t) (lo + mget q.claim.made h.2)
    let from_ := min hi (lo + mget q.claim.taken h.2)
    if q.layerOver x i && decide (hi ≤ from_) then []
    else bodySection 3 t from_ (hi - from_) (toLe 4 (mget q.claim.made h.2) ++ toLe 4 (mget q.claim.taken h.2) ++ q.rowsData t from_ hi))

/-- Bits, first to last, as bytes padded to 4. -/
def bitsBytes (l : List Bool) : Bytes := toLe (roundUp (ceilDiv l.length 8) 4) (l.foldr (fun b a => 2 * a + (if b then 1 else 0)) 0)

/-- A tile covers part of the unit of row `y`, 32-column block `j` and 32-channel block `k`. -/
def GridTile.covers (t : GridTile) (y j k : Nat) : Bool :=
  decide (t.row ≤ y ∧ y < t.row + t.rowN ∧ t.col < 32 * j + 32 ∧ 32 * j < t.col + t.colN ∧ t.ch < 32 * k + 32 ∧ 32 * k < t.ch + t.chN)

/-- Units of a row group of a layer, one bit each: row, 32-column block, 32-channel block, channel fastest. A unit has
committed when no tile that covers part of it is still to commit; of a row group not issued none has. -/
def progressMask (p : Plan) (l : Bytes) (r n : Nat) (g : Option RowGroup) : List Bool :=
  (List.range n).flatMap (fun i => (List.range (ceilDiv (p.outW l) 32)).flatMap (fun j => (List.range (ceilDiv (p.outC l) 32)).map (fun k =>
    match g with
    | none => false
    | some g => !(g.tiles.any (·.covers (r + i) j k)))))

/-- Progress section of a layer that is not complete in the stripe. -/
def Stripe.progressSection (x : Ctx) (q : Stripe) (li : Nat) : Bytes :=
  match q.openGroup x li with
  | none => []
  | some (r, n) => bodySection 4 li r n (bitsBytes (progressMask q.p (gLayer q.p.g li) r n (q.pending x li).head?))

/-- Layers whose progress a stripe carries: those of the phase's stacks, and, of the stripe that completed the phase, the
layers outside stacks (R221). -/
def Stripe.layers (x : Ctx) (q : Stripe) : List Nat :=
  if q.claim.done then (if mfind x.tails (tailKey q.pic q.k) = some q.claim.entry then q.ph.tail else [])
  else phaseLayers q.p.g q.ph

/-- Claim section: the entry's state, whose code no rule gives, and the stripe's done rows. -/
def Stripe.claimSection (x : Ctx) (q : Stripe) : Bytes :=
  let li := (phaseLayers q.p.g q.ph).getLastD 0
  bodySection 5 q.claim.entry q.b 0 (toLe 4 Config.claimState.toNat ++ toLe 4 (q.nextRow x li - (q.span li).1))

/-- A signed number as two's complement of 64 bits. -/
def twos64 (v : Int) : Nat := (v % (2 ^ 64 : Nat)).toNat

/-- Figures of one channel in the order of R187, 48 bytes: without a finite element, lo and hi are free. -/
def figureData (k : Nat) (f : Figures) : Bytes :=
  toLe 8 f.count ++ toLe 8 f.clipped ++ toLe 8 f.nonfinite ++ toLe 4 (f.lo.getD (Config.absentBound (2 * k)).toNat) ++
    toLe 4 (f.hi.getD (Config.absentBound (2 * k + 1)).toNat) ++ toLe 8 (twos64 f.cmin) ++ toLe 8 (twos64 f.cmax)

/-- Figures section of a tensor of a picture. -/
def figuresSection (x : Ctx) (g : Bytes) (pic t : Nat) : Bytes :=
  let fs := mget x.figs (picKey pic t)
  if rederivable (gTensor g t) && !fs.isEmpty then
    bodySection 6 t 0 fs.length (fs.zipIdx.flatMap (fun f => figureData f.2 f.1))
  else []

/-- Stripes that a Chrysalis saves, in the order of their entries: those under way, those whose halo rows the stripe above has
not released, and those whose worker runs the layers outside stacks. -/
def savedStripes (s : State) (x : Ctx) : List Stripe :=
  (claimsInOrder x).filterMap (fun c =>
    let q := stripeOf s x c
    let tail := mfind x.tails (tailKey q.pic q.k) = some c.entry && !phaseOver s x q.pic q.k
    if !c.done || haloHeld s x c || tail then some q else none)

/-- Progress of an adapter step: no layer's row group has committed before the step commits as a whole (R276)
(a detail DEDUCED, log 17). -/
def stepProgress (p : Plan) (li : Nat) : Bytes :=
  let l := gLayer p.g li
  let n := min (groupRows l) (p.outH l)
  bodySection 4 li 0 n (bitsBytes (progressMask p l 0 n none))

/-- The body of a context's Chrysalis (R251): sections in ascending kind, then ascending id, then in the order of the stripes'
entries (a detail DEDUCED, log 17). -/
def chrysalisBody (s : State) (x : Ctx) : Bytes :=
  let g := ctxGraph s x
  let ts := List.range (gTensors g)
  let ls := List.range (gLayers g)
  let stop := bodySection 0xFF 0 0 0 []
  if x.kind ≠ 1 then ls.flatMap (stepProgress (ctxPlan s x)) ++ stop
  else
    let qs := savedStripes s x
    let run := qs.filter (fun q => !q.claim.done)
    ts.flatMap (fun t => run.flatMap (fun q => q.windowSection x t)) ++
      ts.flatMap (fun t => qs.flatMap (fun q => q.haloSection x t)) ++
      ts.flatMap (fun t => run.flatMap (fun q => q.handoffSection x t)) ++
      ls.flatMap (fun i => qs.flatMap (fun q => if (q.layers x).contains i then q.progressSection x i else [])) ++
      qs.flatMap (fun q => q.claimSection x) ++
      ts.flatMap (fun t => ((qs.map (·.pic)).eraseDups).flatMap (fun p => figuresSection x g p t)) ++ stop

/-! ### Reading a body back (R251, R253) -/

/-- Sections of a body: kind, id, first, count, data; `fuel` bounds how many. -/
def bodySections : Nat → Bytes → List (Nat × Nat × Nat × Nat × Bytes)
  | 0, _ => []
  | fuel + 1, b =>
    let n := le32 b 4
    let s := (le16 b 0, le16 b 2, le32 b 8, le32 b 12, slice b 16 n)
    if b.length < 16 || s.1 = 0xFF then [] else s :: bodySections fuel (b.drop (16 + roundUp n 16))

/-- Progress sections of a layer in a body, in order: first row, rows, and committed mask as a number. -/
def progressOf (body : Bytes) (li : Nat) : List (Nat × Nat × Nat) :=
  ((bodySections body.length body).filter (fun s => s.1 == 4 && s.2.1 == li)).map (fun s => (s.2.2.1, s.2.2.2.1, leVal s.2.2.2.2))

/-- Tiles of the grid on `cells` cells that are not committed whole under a mask (R253). -/
def tilesLeft (p : Plan) (l : Bytes) (r n mask cells : Nat) : List GridTile :=
  let nw := ceilDiv (p.outW l) 32
  let nc := ceilDiv (p.outC l) 32
  (tileGrid p l r n cells).filter (fun t => (List.range n).any (fun i => (List.range nw).any (fun j => (List.range nc).any (fun k =>
    t.covers (r + i) j k && mask / 2 ^ ((i * nw + j) * nc + k) % 2 == 0))))

end Sys2Proof.Machine
end

