-- ==== Sys2Proof/Machine/Records.lean ====
section
/-! DEFINITION. Accesses to context records (R239, R240), and what an uncorrectable error in a record brings, a Chrysalis that
is lost among them (R255). -/

set_option Elab.async false

namespace Sys2Proof.Machine

/-- Discard a Chrysalis: its context runs its claimed entries again from their first row group, which counts them as
duplicates when they are claimed (R240, R255) (a detail DEDUCED, log 39). -/
def discardChrysalis (s : State) (cx : Nat) : State :=
  match mfind s.ctxs cx with
  | none => s
  | some x =>
    match x.chrysalis with
    | none => s
    | some _ =>
      let s := freeChrysalis s cx
      let s := s.updCtx cx (fun x => { x with chrysalis := none })
      let s := raiseLogOf (ctxPartCount s x.part 4 1) uCtx x.part 0xFFFF
      requeueCtx (ctxLose s cx) cx

/-- The context whose execution record has this index. -/
def ctxOfRecord (s : State) (i : Nat) : Option Nat :=
  (s.ctxs.find? (fun p => match p.2.chrysalis with
    | some c => c.1 == i
    | none => false)).map (·.1)

/-- Uncorrectable error in a record, by its type (R240) (a detail DEDUCED, log 40; a detail DEDUCED, log 42). -/
def recordError (s : State) (i : Nat) : State :=
  let b := recRead s i
  let slot := rhSlot b
  let part := rhPart b
  if runLimit ≤ i then
    match ctxOfRecord s i with
    | none => raiseLog s uCtx
    | some cx => discardChrysalis (ctxPartCount s (mget s.ctxs cx).part 10 1) cx
  else
    let s := ctxPartCount (ctxCount s slot 10 1) part 10 1
    match rhType b with
    | 1 => raiseOpen (reinitRun s slot) uCtx 0x80 1 part slot
    | 5 => raiseLogOf (recSet (ringEmpty slot (slotsOf s slot) s) slot 0 [(srCacheCount, toLe 1 0)]) uCtx part slot
    | 2 =>
      let o := rhOrd b - ordTrack (s.cfgAt slot) (s.se slot)
      raiseLogOf (if trackLive s slot o then freeTrack s slot o else s) uCtx part slot
    | 3 => raiseLogOf (adapterReset s slot) uCtx part slot
    | 4 => raiseLogOf (adapterReset s slot) uCtx part slot
    | 6 => raiseLogOf (restoreTables s slot) uCtx part slot
    | _ => s

/-- CONTEXT_RECORD_ACCESS (R239, R240): a record read, or a whole-record write whose gen the store checks. -/
def execContextRecordAccess (index : Nat) (acc : RecAccess) (ecc : Ecc) (s : State) :
    Host.Outcome State Fault Refusal :=
  let b := recRead s index
  let slot := rhSlot b
  match acc with
  | .read =>
    let s := storeRead s slot index
    match ecc with
    | .clean => done s
    | .corrected => done { s with store := { s.store with corrected := s.store.corrected + 1 } }
    | .uncorrectable => done (recordError s index)
  | .write gen data =>
    if gen % 2 ^ 16 ≠ rhGen b then done (ctxPartCount (ctxCount s slot 9 1) (rhPart b) 9 1)
    else done (storeWrite s slot index (padTo 240 data))

end Sys2Proof.Machine
end

