-- ==== Sys2Proof/Machine/FabricFault.lean ====
section
/-! DEFINITION. Faults of the fabric (R164, R230, R393 to R398), the Chrysalis (R249 to R255) and eviction (R318). -/

set_option Elab.async false

namespace Sys2Proof.Machine

/-! ### Replay (R230, R394) -/

/-- Key of a replay: the tile and the cause (a detail DEDUCED, log 38). -/
def replayKey (m : CellCmd) (cause : Nat) : List Nat := [m.layer, m.picture, m.row, m.col, m.ch, cause]

/-- Times that a tile has been replayed for one cause. -/
def replayTimes (x : Ctx) (k : List Nat) : Nat := ((x.replays.find? (fun r => r.1 == k)).map (·.2)).getD 0

/-- Replays allowed for one cause (R394). -/
def replayLimit : Nat := 2

/-- The tile is given up: its row group goes on without it, and a frame short of stage 0x6 is discarded with cause 6
(R394). -/
def giveUpTile (s : State) (b : Nat) (m : CellCmd) : State :=
  let x := mget s.ctxs m.ctx
  let s := s.updCtx m.ctx (fun x => { x with lost := x.lost ++ [[m.layer, m.picture, m.row, m.col, m.ch]] })
  let s := tileCommitted s m b
  match batchMember s x.batch m.picture with
  | none => s
  | some fid => if (s.frame fid).stage < 6 then discardFrame s fid 6 else s

/-- The command is one of a row group of a layer of an entry. -/
def ofGroup (cx entry : Nat) (g : RowGroup) (m : CellCmd) : Bool :=
  m.ctx == cx && m.entry == entry && m.layer == g.layer && decide (g.row ≤ m.row) && decide (m.row < g.row + g.rows)

/-- Commands of a cell's queue that are not of a row group. -/
def dropQueued (cx entry : Nat) (g : RowGroup) (c : Cell) : Cell :=
  { c with queue := c.queue.filter (fun q => !ofGroup cx entry g q.cmd) }

/-- Issue every tile of a command's row group again that has not committed: what is queued of it in the block is withdrawn
(R226, R230). -/
def reissueGroup (s : State) (b : Nat) (m : CellCmd) : State :=
  let w := mget (mget s.ctxs m.ctx).sweeps (sweepKey m.entry b)
  match w.out.find? (fun g => ofGroup m.ctx m.entry g m) with
  | none => s
  | some g =>
    let s := (cellsOfBlock b).foldl (fun s c => s.updCell c (dropQueued m.ctx m.entry g)) s
    updSweep s m.ctx m.entry b (fun w => { w with
      open_ := w.open_.filter (fun o => !(o.layer == g.layer && o.row == g.row))
      next := if w.open_.any (fun o => o.layer == g.layer && o.row == g.row) then 0 else w.next
      out := w.out.map (fun o => if o.layer = g.layer && o.row = g.row then { o with recov := true, again := true } else o) })

/-- The same for each command of a list. -/
def reissueAll (b : Nat) : List CellCmd → State → State
  | [], s => s
  | m :: t, s => reissueAll b t (if (mget s.ctxs m.ctx).kind = 1 then reissueGroup s b m else s)

/-- A failed command of block `b`: its row group is issued again, or after two replays for the cause its tile is given up
(R230, R394, R403) (a detail DEDUCED, log 38). -/
def replayCmd (s : State) (b : Nat) (m : CellCmd) (cause : Nat) : State :=
  match mfind s.ctxs m.ctx with
  | none => s
  | some x =>
    let k := replayKey m cause
    let n := replayTimes x k + 1
    let s := s.updCtx m.ctx (fun x => { x with replays := x.replays.filter (fun r => r.1 != k) ++ [(k, n)] })
    if replayLimit < n then entryProgress (reissueAll b [m] (giveUpTile s b m)) m.ctx m.entry
    else
      let s := reissueAll b [m] s
      match batchMember s x.batch m.picture with
      | none => s
      | some fid => ledgerWrite (s.updFrame fid (fun f => { f with flags := f.flags ||| 4 })) fid

/-- Abort what a cell runs, and replay it (a detail DEDUCED, log 39). -/
def abortRunning (s : State) (c cause : Nat) : State :=
  let l := (s.cell c).running.map (fun q => q.2.cmd)
  let n := cellTokens (s.cell c)
  let s := s.updRegion (regionOfCell c) (fun r => { r with held := r.held - n })
  let s := s.updCell c (fun x => { x with running := [] })
  let s := l.foldl (fun s m => rangesFree m.writes s) s
  l.foldl (fun s m => replayCmd s (blockOfCell c) m cause) s

/-- A cell's uncorrectable error or mismatch: its commands are aborted, the block fences it, and the row groups that had
commands there are issued over the cells that remain; planes prefetched for their contexts are discarded (R164, R230, R231,
R393) (a detail DEDUCED, log 39). -/
def cellFault (s : State) (c : Nat) : State :=
  if (s.cell c).fenced then s
  else
    let queued := (s.cell c).queue.map (·.cmd)
    let running := (s.cell c).running.map (fun q => q.2.cmd)
    let s := reissueAll (blockOfCell c) queued (abortRunning s c c)
    let s := ((queued ++ running).map (·.ctx)).eraseDups.foldl shadowDrop s
    selftestPlace (cellFence s c) (blockOfCell c)

/-! ### Requests that no unit answers (R429 to R431) -/

/-- A parked or fenced region answers no request. -/
def regionDeaf (s : State) (r : Nat) : Bool := !(s.region r).awake || (s.region r).fenced

/-- A request to a device-internal address gets an error response: it is unassigned, beyond the stacks in service, in a
region that is parked or fenced, or of a fenced block or cell (R429, R431) (a detail DEDUCED, log 38). -/
def addressFails (s : State) (a : Nat) : Bool :=
  let at_ (base : Nat) : Nat := a - base
  if a < 0x000C00000000 then decide (dramBytes s ≤ a)
  else if 0xF00000000000 ≤ a && a < 0xF00004000000 then regionDeaf s (at_ 0xF00000000000 / 0x800000)
  else if 0xF00100000000 ≤ a && a < 0xF00108000000 then
    let b := at_ 0xF00100000000 / 0x400000
    regionDeaf s (regionOfBlock b) || (s.block b).fenced
  else if 0xF00200000000 ≤ a && a < 0xF00204000000 then
    let c := at_ 0xF00200000000 / 0x40000
    regionDeaf s (regionOfCell c) || (s.block (blockOfCell c)).fenced || (s.cell c).fenced
  else true

/-- A range of requests meets an address that fails: its units are at least 0x40000 bytes (a detail DEDUCED, log 38). -/
def rangeFails (s : State) (r : Range) : Bool :=
  r.len != 0 && (addressFails s (r.addr + r.len - 1) ||
    (List.range (r.len / 0x40000 + 1)).any (fun i => addressFails s (min (r.addr + i * 0x40000) (r.addr + r.len - 1))))

/-- COMMAND_ISSUE (R161, R162, R313, R316, R360): an idle issue unit starts its next command. A command one of whose
requests gets an error response aborts and is reported to its block as for an uncorrectable error, with a log (R431)
(a detail DEDUCED, log 38). -/
def execCommandIssue (cell unit : Nat) (s : State) : Host.Outcome State Fault Refusal :=
  if (mfind (s.cell cell).running unit).isSome then done s
  else
    match nextIssue s cell unit with
    | none => done s
    | some q =>
      let s := startCmd s cell q
      if (q.cmd.reads ++ q.cmd.writes).any (rangeFails s) then
        done (raiseLog (cellFault s cell) (uRg + regionOfCell cell))
      else done s

/-! ### Errors of a cell -/

/-- CELL_ECC_ERROR (R164). -/
def execCellEccError (cell : Nat) (ecc : Ecc) (s : State) : Host.Outcome State Fault Refusal :=
  match ecc with
  | .clean => done s
  | .corrected => done (s.updCell cell (fun x => { x with corrected := x.corrected + 1 }))
  | .uncorrectable => done (cellFault s cell)

/-- RESIDUE_MISMATCH (R163, R164). -/
def execResidueMismatch (cell : Nat) (s : State) : Host.Outcome State Fault Refusal := done (cellFault s cell)

/-- A mapper core of the block is in the middle of a row group. -/
def midGroup (s : State) (b : Nat) : Bool := s.ctxs.any (fun c => c.2.sweeps.any (fun w => w.1 % 32 == b && w.2.open_.isSome))

/-- CELL_SELFTEST_RETURN (R395): a fenced cell that passes returns at a row-group boundary, unless it was fenced before in the
last 24 hours; the self-test job ends. -/
def execCellSelftestReturn (cell : Nat) (pass : Bool) (s : State) : Host.Outcome State Fault Refusal :=
  let x := s.cell cell
  if x.fenced && !x.stuck && pass && !(s.block (blockOfCell cell)).fenced && !midGroup s (blockOfCell cell) then
    done (selftestEnds (blockOfCell cell) (s.updCell cell (fun x => { x with fenced := false })))
  else if !pass then done (selftestEnds (blockOfCell cell) s)
  else done s

/-! ### Blocks and regions (R172, R393) -/

/-- 10 ms and 1 s in AON cycles. -/
def ms10 : Nat := 1000000
def second : Nat := 100000000

/-- The block has faulted again within 10 ms, three times in succession (R393). -/
def blockEscalates (s : State) (b : Nat) : Bool :=
  match (s.block b).faults with
  | a :: c :: d :: _ => decide (s.now - a ≤ ms10) && decide (a - c ≤ ms10) && decide (c - d ≤ ms10)
  | _ => false

/-- Restart a block: mapper core reset, line store and semaphores zeroed (R393). -/
def restartBlock (s : State) (b : Nat) : State :=
  let cs := blockCtxs s b
  let s := sramZero (blockFlush s b) (lineStore b) 0x400000
  let s := shadowDiscard s (regionOfBlock b)
  let s := s.updBlock b (fun x => { x with restarting := true, faults := (s.now :: x.faults).take 4 })
  let s := s.updRegion (regionOfBlock b) (fun r => { r with restarts := (s.now :: r.restarts.filter (fun t => s.now - t ≤ second)).take 8 })
  cs.foldl (fun s c => flagFrames s (mget s.ctxs c) 4) s

/-- A block fault (R393): the region restarts the block, fences it, or is itself fenced after 8 restarts within 1 s. -/
def blockFault (s : State) (b : Nat) : State :=
  if (s.block b).fenced then s
  else if blockEscalates s b then blockFence s b
  else
    let s := restartBlock s b
    let r := regionOfBlock b
    if 8 ≤ ((s.region r).restarts.filter (fun t => s.now - t ≤ second)).length then regionFence s r else s

/-- BLOCK_RESTART (R393). -/
def execBlockRestart (block : Nat) (s : State) : Host.Outcome State Fault Refusal := done (blockFault s block)

/-- AON cycles of 65,536 region cycles (a detail DESIGN CHOICE, log 23). -/
def watchCycles (s : State) (b : Nat) : Nat := 65536 * 2 / clk50 (s.region (regionOfBlock b)).vp

/-- Work is pending in a block: an entry under way there, or an adapter step that is resident. -/
def blockPending (s : State) (b : Nat) : Bool :=
  (blockCtxs s b).any (fun c =>
    let x := mget s.ctxs c
    x.kind == 2 || (x.kind == 1 && x.claims.any (fun k => !k.done && (stripeOf s x k).workerBlocks.contains b)))

/-- MAPPER_WATCHDOG (R172): work pending, and no command written for 65,536 region cycles. -/
def execMapperWatchdog (block : Nat) (s : State) : Host.Outcome State Fault Refusal :=
  if blockPending s block && decide ((s.block block).lastWrite - 1 + watchCycles s block ≤ s.now) then done (blockFault s block)
  else done s

/-- Entries that are claimed again for a restarted block: those that its workers have not completed, those whose halo rows
it kept and the stripe above has not released, and those above that had not released them (R230)
(a detail DEDUCED, log 39). -/
def reclaimed (s : State) (x : Ctx) (b : Nat) : List Nat :=
  let kept (c : Claim) : Bool := haloHeld s x c && (stripeOf s x c).workerBlocks.contains b
  ((claimsInOrder x).filter (fun c =>
    (!c.done && (stripeOf s x c).workerBlocks.contains b) || kept c ||
      ((0 < c.entry && !c.freed && c.entry % max x.stripes 1 != 0) && (claimOf x (c.entry - 1)).any kept))).map (·.entry)

/-- Claim an entry again, from its first row group: a duplicate. The entry records the block and a fresh semaphore, which
starts at the halo rows counted at the fault; what is queued for it is withdrawn (R229, R230). -/
def reclaimEntry (cx : Nat) : List Nat → State → State
  | [], s => s
  | v :: t, s =>
    let x := mget s.ctxs cx
    let c := (claimOf x v).getD default
    let q := stripeOf s x c
    let s := { s with cells := mmap s.cells (fun _ y => { y with queue := y.queue.filter (fun q => !(q.cmd.ctx == cx && q.cmd.entry == v)) }) }
    let s := s.updCtx cx (fun x => (x.updClaim v (fun c => { c with done := false, freed := false, stalled := false })))
    let sem := claimSem s (mget s.ctxs cx) c.block v
    let s := s.updCtx cx (fun x => x.updClaim v (fun c => { c with sem := sem }))
    let s := s.updCtx cx (fun x => { x with
      sweeps := x.sweeps.filter (fun w => w.1 / 32 != v)
      tails := x.tails.filter (fun k => k.1 != tailKey q.pic q.k) })
    let s := s.updCtx cx (fun x => { x with
      sweeps := q.workerBlocks.foldl (fun m b => mput m (sweepKey v b) { (default : Sweep) with redo := true }) x.sweeps })
    let s := s.updBlock c.block (fun y => { y with sems := mupd y.sems sem (fun m => { m with count := c.halo }) })
    reclaimEntry cx t s

/-- Layers outside stacks that a block ran start again, where they are not complete (R230). -/
def redoTails (s : State) (cx b : Nat) : State :=
  let x := mget s.ctxs cx
  (tailsDue s x).foldl (fun s k =>
    match tailStripe s x k.1 k.2 with
    | none => s
    | some q =>
      if q.claim.block = b then
        let ls := q.ph.tail.filter (fun i => !q.layerOver x i)
        updSweep s cx q.claim.entry b (fun w => { w with
          pos := 0, open_ := none, next := 0, redo := true, rows := w.rows.filter (fun r => !ls.contains r.1)
          out := w.out.filter (fun g => !ls.contains g.layer) })
      else s) s

/-- Claim entries again after a block's restart (R229, R230). -/
def reclaim (s : State) (b cx : Nat) : State :=
  match mfind s.ctxs cx with
  | none => s
  | some x =>
    if x.kind ≠ 1 then s
    else
      let l := reclaimed s x b
      let s := redoTails (reclaimEntry cx l s) cx b
      let s := s.updCtx cx (fun x => { x with duplicates := x.duplicates + l.length })
      mapCount s x.part 1 l.length

/-- BLOCK_RESTART_DONE (R230, R393). -/
def execBlockRestartDone (block : Nat) (s : State) : Host.Outcome State Fault Refusal :=
  if (s.block block).restarting then
    let s := s.updBlock block (fun x => { x with restarting := false, lastWrite := s.now + 1 })
    done ((blockCtxs s block).foldl (fun s c => reclaim s block c) s)
  else done s

/-- REGION_FAULT (R393, R396): PLL loss of lock, a rail out of range, the region controller's watchdog, or restarts. -/
def execRegionFault (region _cause : Nat) (s : State) : Host.Outcome State Fault Refusal := done (regionFence s region)

/-- REGION_STORE_ECC_ERROR (R393): the slices that read the word are replayed; the contexts of the region's blocks show
it in the ledger (a detail DEDUCED, log 39). -/
def execRegionStoreEccError (region addr : Nat) (s : State) : Host.Outcome State Fault Refusal :=
  let hit (m : CellCmd) : Bool := m.reads.any (fun r => decide (r.addr ≤ addr) && decide (addr < r.addr + r.len))
  let cells := (blocksOfRegion region).flatMap cellsOfBlock
  done (cells.foldl (fun s c =>
    ((s.cell c).running.filter (fun q => hit q.2.cmd)).foldl (fun s q =>
      replayCmd (abortCmd s c q.1 q.2) (blockOfCell c) q.2.cmd (addr + 256)) s) s)

/-- NOC_LINK_CRC_ERROR (R393): the transfer is retried at link level, and nothing else changes
(a detail DEDUCED, log 39). -/
def execNocLinkCrcError (_router : Nat) (s : State) : Host.Outcome State Fault Refusal := done s

/-! ### Chrysalis (R249 to R255) -/

/-- The context is of a partition that is pinned (R318, R320). -/
def ctxPinned (s : State) (x : Ctx) : Bool := pinnedNow s x.part && regionOwned s x.region

/-- Payload of an execution record (R250) (a detail DEDUCED, log 17). -/
def execPayload (s : State) (x : Ctx) (addr len crc : Nat) : Bytes :=
  let ph := match x.claims.getLast? with
    | none => 0
    | some c => (entryOf (max x.phases 1) (max x.stripes 1) c.entry).2.1
  toLe 1 x.cls ++ toLe 1 x.kind ++ toLe 2 1 ++ toLe 4 (mget s.batches x.batch).seq ++ toLe 1 x.graph ++ toLe 1 x.instar ++
    toLe 2 ph ++ toLe 4 x.cfgSeq ++ toLe 8 addr ++ toLe 4 len ++ toLe 4 crc ++ toLe 4 (x.captures + 1)

/-- Lowest free execution record. -/
def freeExec (s : State) : Option Nat := ((List.range execRecords).map (runLimit + ·)).find? (fun i => !s.store.exec.contains i)

/-- Unfenced cells of a block. -/
def goodCells (s : State) (b : Nat) : Nat := countIf (cellsOfBlock b) (fun c => !(s.cell c).fenced)

/-- Withdraw a context's queued commands. -/
def withdrawQueued (s : State) (cx : Nat) : State :=
  { s with cells := mmap s.cells (fun _ c => { c with queue := c.queue.filter (fun q => q.cmd.ctx != cx) }) }

/-- A command of the context runs in some cell. -/
def ctxRunning (s : State) (cx : Nat) : Bool := s.cells.any (fun p => p.2.running.any (fun q => q.2.cmd.ctx == cx))

/-- A context leaves its blocks: its slots and their semaphores are free. -/
def leaveBlocks (s : State) (cx : Nat) : State :=
  let held := (mget s.ctxs cx).slots
  { s with blocks := mmap s.blocks (fun b y => { y with
      slots := y.slots.filter (fun p => p.2 != cx)
      sems := y.sems.filter (fun q => !held.any (fun h => h.1 == b && h.2 == q.1 / 8)) }) }

/-- Save a resident context (R250 to R252, R254). A refusal, for want of an execution record or of a buffer that takes the
body, leaves it resident and is counted (R257) (a detail DEDUCED, log 17; a detail DEDUCED, log 37). -/
def captureCtx (s : State) (cx : Nat) : State :=
  match mfind s.ctxs cx with
  | none => s
  | some x =>
    if x.slots.isEmpty || x.kind = 3 || ctxPinned s x || ctxRunning s cx then s
    else
      let body := chrysalisBody s x
      let len := body.length
      match freeExec s, smallestPool s.run (largestBody s.run) with
      | some ri, some k =>
        match decide (len ≤ poSize (cfgPool s.run k)), bpmAlloc s 8 k with
        | true, (some a, s) =>
          let s := dramWrite (stageBody x.region (len / 0x100000 + 1) body s) a (saltOf s a) body
          let s := chargeBody s x.region x.part 11 len
          let s := withdrawQueued s cx
          let s := storeNew s ri (recHeader 7 0xFFFF 0 0 1 x.part ++ execPayload s x a len (crc32c body))
          let s := { s with store := { s.store with exec := s.store.exec ++ [ri] } }
          let cells := match ctxBlocks x with
            | [] => 0
            | b :: _ => goodCells s b
          let s := leaveBlocks s cx
          let s := s.updCtx cx (fun x => { x with
            slots := [], chrysalis := some (ri, a, len), captures := x.captures + 1, capCells := cells
            capBlocks := ctxBlocks x, waitSince := s.now })
          ctxPartCount (ctxPartCount s x.part 0 1) x.part 2 len
        | _, _ => ctxPartCount s x.part 11 1
      | _, _ => ctxPartCount s x.part 11 1

/-- CHRYSALIS_CAPTURE (R252) (a detail DEDUCED, log 17). -/
def execChrysalisCapture (ctx : Nat) (s : State) : Host.Outcome State Fault Refusal := done (captureCtx s ctx)

/-- A block may be a restore target for a context (R253, R255). -/
def restoreTarget (s : State) (x : Ctx) (b : Nat) : Bool :=
  let r := regionOfBlock b
  blockUsable s b && (s.region r).awake && !(s.region r).fenced &&
    (if x.kind = 1 then (placementBlocks s (mget s.batches x.batch)).contains b else !regionOwned s r)

/-- Blocks that a restored context takes: the target, and others of its placement set, as many as it left. -/
def restoreBlocks (s : State) (x : Ctx) (b : Nat) : List Nat :=
  if x.kind = 1 then b :: ((placementBlocks s (mget s.batches x.batch)).filter (· != b)).take (x.capBlocks.length - 1) else [b]

/-- The block that takes the place of one that the context left. -/
def movedTo (x : Ctx) (bl : List Nat) (b : Nat) : Nat := bl.getD (x.capBlocks.idxOf b) b

/-- A context as it stands in its new blocks: claims and sweeps name them, and nothing is being written. -/
def movedCtx (x : Ctx) (bl : List Nat) : Ctx :=
  { x with
    claims := x.claims.map (fun c => { c with block := movedTo x bl c.block })
    sweeps := x.sweeps.foldl (fun m w => mput m (sweepKey (w.1 / 32) (movedTo x bl (w.1 % 32))) { w.2 with open_ := none, next := 0 }) [] }

/-- A layer of a restored stripe resumes at the row group of its Progress section, with a tile grid chosen afresh; the tiles
that are committed whole are skipped, and counted (R253). -/
def resumeLayer (s : State) (cx : Nat) (q : Stripe) (li : Nat) (sec : Nat × Nat × Nat) : State :=
  let b := q.layerBlock li
  let l := gLayer q.p.g li
  let cells := goodCells s b
  let left := tilesLeft q.p l sec.1 sec.2.1 sec.2.2 cells
  let all := (tileGrid q.p l sec.1 sec.2.1 cells).length
  let s := updSweep s cx q.claim.entry b (fun w => { w with
    rows := mput w.rows li (sec.1 + sec.2.1)
    out := w.out.filter (fun g => g.layer != li) ++ (if left.isEmpty then [] else [⟨li, sec.1, sec.2.1, cells, left, false, true⟩]) })
  ctxPartCount s (mget s.ctxs cx).part 5 (all - left.length)

/-- Each layer that was not complete resumes from its section of the body, stripe by stripe. -/
def resumeLayers (cx : Nat) (old : Ctx) (body : Bytes) (qs : List (Stripe × Stripe)) : List Nat → State → State
  | [], s => s
  | li :: t, s =>
    let open_ := qs.filter (fun q => (q.1.layers old).contains li && (q.1.openGroup old li).isSome)
    resumeLayers cx old body qs t ((open_.zip (progressOf body li)).foldl (fun s q => resumeLayer s cx q.1.2 li q.2) s)

/-- A claim's halo semaphore stands again in the new block's slot, with its saved count (R252). -/
def semRecreate (cx : Nat) : List Claim → State → State
  | [], s => s
  | c :: t, s =>
    let x := mget s.ctxs cx
    let sem := claimSem s (x.updClaim c.entry (fun c => { c with sem := 64, done := true, freed := true })) c.block c.entry
    let n := c.halo + (if haloFreed x c then 1 else 0)
    let s := s.updCtx cx (fun x => x.updClaim c.entry (fun c => { c with sem := sem }))
    semRecreate cx t (s.updBlock c.block (fun y => { y with sems := mupd y.sems sem (fun m => { m with count := n }) }))

/-- The hand-off counts of a restored stripe stand again in its blocks. -/
def handoffRecreate (s : State) (cx : Nat) (q : Stripe) : State :=
  let x := mget s.ctxs cx
  q.handoffs.zipIdx.foldl (fun s h =>
    let m := q.madeSem x h.1 h.2
    let k := q.takenSem x h.1 h.2
    let put (s : State) (a : Nat × Nat) (n : Nat) : State :=
      s.updBlock a.1 (fun y => { y with sems := mupd y.sems a.2 (fun m => { m with count := n }) })
    put (put s m (mget q.claim.made h.2)) k (mget q.claim.taken h.2)) s

/-- An invocation's stripes stand again in its new blocks: claim table, semaphores, and layers (R252, R253). -/
def resumeStripes (s : State) (cx : Nat) (old : Ctx) (bl : List Nat) (body : Bytes) : State :=
  let was : Ctx := { old with slots := old.capBlocks.map (fun b => (b, 0)) }
  let qs := savedStripes s was
  let s := s.updCtx cx (fun x => movedCtx x bl)
  let s := semRecreate cx ((claimsInOrder (mget s.ctxs cx)).filter (fun c => !c.done || haloHeld s (mget s.ctxs cx) c)) s
  let x := mget s.ctxs cx
  let now := qs.map (fun q => (q, stripeOf s x ((claimOf x q.claim.entry).getD q.claim)))
  let s := resumeLayers cx was body now (List.range (gLayers (ctxGraph s old))) s
  (now.filter (fun q => !q.1.claim.done)).foldl (fun s q => handoffRecreate s cx q.2) s

/-- A context is read back into blocks (R252, R253). -/
def restoreInto (s : State) (cx : Nat) (x : Ctx) (bl : List Nat) (body : Bytes) : State :=
  let cells := goodCells s (bl.headD 0)
  let len := body.length
  let s := freeChrysalis (stageBody (regionOfBlock (bl.headD 0)) (len / 0x100000 + 1) body s) cx
  let s := placeCtx cx bl (s.updCtx cx (fun y => { y with chrysalis := none, region := regionOfBlock (bl.headD 0) }))
  let s := if x.kind = 1 then resumeStripes s cx x bl body else s
  let s := chargeBody s (mget s.ctxs cx).region x.part 10 len
  let s := ctxPartCount (ctxPartCount s x.part 1 1) x.part 3 len
  ctxPartCount s x.part 13 (if cells < x.capCells then 1 else 0)

/-- CHRYSALIS_RESTORE (R252, R253, R255, R311): a body that fails its check, or a placement that has fewer blocks than the
context left, sends the context back to its first row groups (a detail DEDUCED, log 17). -/
def execChrysalisRestore (ctx block : Nat) (bodyOk : Bool) (s : State) : Host.Outcome State Fault Refusal :=
  match mfind s.ctxs ctx with
  | none => done s
  | some x =>
    match x.chrysalis with
    | none => done s
    | some (ri, a, len) =>
      let t := storeRead s 512 ri
      if !bodyOk then done (discardChrysalis t ctx)
      else if restoreTarget s x block then
        let bl := restoreBlocks s x block
        if bl.length < x.capBlocks.length then done (discardChrysalis t ctx)
        else if bl.zipIdx.all (fun q => blockRoom s q.1 (ctxNeeds s x q.2)) then
          done (restoreInto t ctx x bl (dramRead t a (saltOf t a) len))
        else done s
      else done s

/-! ### Eviction (R318) -/

/-- A resident context of a block is blocked: nothing of it runs or is eligible, its mapper core has nothing to write for it,
and it waits on a semaphore or a hold. -/
def ctxBlocked (s : State) (b cx : Nat) : Bool :=
  let x := mget s.ctxs cx
  let cells := cellsOfBlock b
  !ctxRunning s cx &&
    !(cells.any (fun c => (s.cell c).queue.any (fun q => q.cmd.ctx == cx && eligible s c q))) &&
    (ctxTurn s cx b).isNone &&
    ((!x.begun && x.kind = 1 && holdKind s x != 0) || (x.claims.any (fun c => !c.done && (stripeOf s x c).stalls s x)) ||
      cells.any (fun c => (s.cell c).queue.any (fun q => q.cmd.ctx == cx && !q.waits.isEmpty)))

/-- Something waits for residency in a block: a context that is swapped out and could be restored there, or a queued
invocation of its region; for each, whether it is latency-critical and since when it waits. -/
def residencyWaits (s : State) (b : Nat) : List (Bool × Nat) :=
  let r := regionOfBlock b
  (s.ctxs.filter (fun c => c.2.chrysalis.isSome && restoreTarget s c.2 b)).map (fun c => (ctxCritical s r c.2, c.2.waitSince)) ++
    ((s.region r).queue.filterMap (fun q =>
      match mfind s.batches (q / 8) with
      | none => none
      | some x => if (placementBlocks s x).contains b then some (partCritical s r x.part, mget x.runAt (q % 8)) else none))

/-- Row groups that the claimed entries of a context have committed. -/
def committedGroups (s : State) (x : Ctx) : Nat :=
  sumNat (x.claims.map (fun c =>
    let q := stripeOf s x c
    sumNat ((phaseLayers q.p.g q.ph).map (fun li => ceilDiv (q.nextRow x li - (q.span li).1) (groupRows (gLayer q.p.g li))))))

/-- The victim of a block: lowest effective class, then fewest committed row groups, then the higher slot number. -/
def victimOf (s : State) (b : Nat) : Option Nat :=
  let r := regionOfBlock b
  minByNat (fun c =>
    let x := mget s.ctxs c
    ((if ctxCritical s r x then 1 else 0) * 2 ^ 60 + committedGroups s x) * 8 + (7 - slotIn x b))
    ((blockCtxs s b).filter (fun c => !ctxPinned s (mget s.ctxs c) && (mget s.ctxs c).kind != 3))

/-- Evict a block's victim (R318, R324). -/
def evictFrom (s : State) (b : Nat) : State :=
  match victimOf s b with
  | none => s
  | some cx =>
    let x := mget s.ctxs cx
    let t := captureCtx s cx
    if (mget t.ctxs cx).chrysalis.isSome then rgnCount t x.region x.part 8 0 1 else t

/-- Every resident context of the block is blocked. -/
def allBlocked (s : State) (b : Nat) : Bool := !(blockCtxs s b).isEmpty && (blockCtxs s b).all (ctxBlocked s b)

/-- A latency-critical wait of 10 µs, with a best-effort context resident (a detail DESIGN CHOICE, log 23). -/
def classEvicts (s : State) (b : Nat) : Bool :=
  (residencyWaits s b).any (fun w => w.1 && decide (1000 ≤ s.now - w.2)) &&
    (blockCtxs s b).any (fun c => !ctxCritical s (regionOfBlock b) (mget s.ctxs c))

/-- EVICTION (R318): where something waits, and every resident is blocked or the class rule holds. -/
def execEviction (block : Nat) (s : State) : Host.Outcome State Fault Refusal :=
  if !(residencyWaits s block).isEmpty && (allBlocked s block || classEvicts s block) then done (evictFrom s block)
  else done s

/-- RESIDENCY_WAIT_TIMEOUT (R318): a latency-critical context has waited 10 µs. -/
def execResidencyWaitTimeout (block : Nat) (s : State) : Host.Outcome State Fault Refusal :=
  if classEvicts s block then done (evictFrom s block) else done s

end Sys2Proof.Machine
end

