-- ==== Sys2Proof/Machine/Faults.lean ====
section
/-! DEFINITION. Faults of chip-level units (R397) and poisoned data (R398). -/

set_option Elab.async false

namespace Sys2Proof.Machine

/-! ### Decode engines and resamplers (R136, R143, R397) -/

/-- A stream leaves a fenced engine: the picture in reconstruction is lost, parse-ahead is rolled back, and decoding
resumes at the next random access point (a detail DEDUCED, log 47). -/
def engineLose (s : State) (slot : Nat) : State :=
  let s := match (s.stream slot).dec.cur with
    | none => s
    | some c => discardFrame s c.frame 6
  let s := rollback (engineDrop s slot) slot
  s.updDec slot (fun d => { d with cur := none, resumeRap := true, stalled := false })

def engineLoses : List Nat → State → State
  | [], s => s
  | i :: t, s => engineLoses t (engineLose s i)

/-- Place the streams of a fenced engine: the least loaded engine with fewer than 128 streams (R136)
(a detail DEDUCED, log 47). -/
def engineReassign : List Nat → State → State
  | [], s => s
  | i :: t, s =>
    engineReassign t (if (s.stream i).dec.engine.isSome then s else match engineFor s 128 with
      | some g => engineTake s i g
      | none => s)

/-- Fence a decode engine. -/
def engineFence (s : State) (g : Nat) : State :=
  if (mget s.engines g).fenced || 8 ≤ g then s
  else
    let slots := engineSlots s g
    let s := { s with engines := mupd s.engines g (fun e => { e with fenced := true }) }
    raiseAlarm (engineAssignAll (mkeys s.streams) (engineReassign slots (engineLoses slots s))) uDe 0x80

/-- A frame returns to the head of the queue of released pictures: its working picture is given up
(a detail DEDUCED, log 47). -/
def resampleAgain (s : State) (fid : Nat) : State :=
  let s := (freeWork s fid).updFrame fid (fun f => { f with released := true })
  { s with relq := fid :: s.relq.filter (· != fid) }

/-- Fence a resampler: the others take all released pictures, the one it was on included. -/
def resamplerFence (s : State) (r : Nat) : State :=
  let x := mget s.resamplers r
  if x.fenced || 4 ≤ r then s
  else
    let s := { s with resamplers := mupd s.resamplers r (fun x => { x with fenced := true, cur := none }) }
    let s := match x.cur with
      | none => s
      | some fid => resampleAgain s fid
    raiseAlarm s uRs 0x80

/-! ### Units restarted in place (R397) -/

/-- Single-instance units that restart in place (a detail DEDUCED, log 47). -/
def restartable (u : Nat) : Bool := u == uIngress || u == uParser || u == uCtx || u == uDx || u == uBpm

/-- The Stream Parser's work in flight: open access units, packets held for order, and frames that await alignment
(a detail DEDUCED, log 47). -/
def parserLose (s : State) (slot : Nat) : State :=
  let s := dropOpenAu s slot
  s.updIng slot (fun g => { g with nextDamaged := true, rtpHeld := [], jumper := none, inFrag := false, ts := { g.ts with sect := [] } })

def parserLoses : List Nat → State → State
  | [], s => s
  | i :: t, s => parserLoses t (if (s.stream i).live then parserLose s i else s)

/-- Frames that await their alignment decision in the Stream Parser. -/
def unaligned (s : State) : List Nat :=
  (s.frames.filter (fun p => !p.2.aligned && !frameEnded p.2 && p.2.stage < 2)).map (·.1)

/-- Frames whose record is in the DX. -/
def inDx (s : State) : List Nat := (s.frames.filter (fun p => p.2.stage == 8 && !frameEnded p.2)).map (·.1)

/-- Units held for a ring are dropped with the DX's staging (a detail DEDUCED, log 47). -/
def dropStaged (port fn : Nat) : List Nat → State → State
  | [], s => s
  | r :: t, s =>
    let h := (s.ring port fn r).held
    dropStaged port fn t (ringDropHeld port fn r h (s.updRing port fn r (fun r => { r with held := [] })))

/-- a detail DEDUCED, log 47. -/
def dropAllStaged : List Nat → State → State
  | [], s => s
  | k :: t, s => dropAllStaged t (dropStaged (k / 4) (k % 4) (mkeys (mget s.fns k).rings) s)

/-- Discard the work in flight in a unit. -/
def unitDiscard (s : State) (u : Nat) : State :=
  if u = uParser then discardFrames 6 (unaligned s) (parserLoses (mkeys s.streams) s)
  else if u = uDx then dropAllStaged (mkeys s.fns) (discardFrames 6 (inDx s) s)
  else if u = uCtx then { s with store := { s.store with sets := [] } }
  else if u = uBpm then { s with bpm := { s.bpm with answer := none } }
  else s

/-- Restart a unit in place: one alarm, and AON_RESTART.units rises (a detail DEDUCED, log 47). -/
def unitRestart (s : State) (u : Nat) : State :=
  let s := unitDiscard s u
  let s := { s with
    unitsDown := if s.unitsDown.contains u then s.unitsDown else s.unitsDown ++ [u]
    aon := { s.aon with unitRestarts := satAdd 255 s.aon.unitRestarts 1 } }
  raiseAlarm s u (if u = uCtx then 0x81 else 0x80)

/-- UNIT_FAULT (R397): unit `unit` of R405 detects an internal fault; `index` is the engine or resampler. R397 gives a
response to no other unit (a detail DEDUCED, log 47). -/
def execUnitFault (unit index : Nat) (s : State) : Host.Outcome State Fault Refusal :=
  if unit = uDe then done (engineFence s index)
  else if unit = uRs then done (resamplerFence s index)
  else if restartable unit then done (unitRestart s unit)
  else done s

/-- UNIT_RESTART_DONE (R397): the unit is back in service. -/
def execUnitRestartDone (unit : Nat) (s : State) : Host.Outcome State Fault Refusal :=
  done { s with unitsDown := s.unitsDown.filter (· != unit) }

/-! ### Poisoned data (R398) -/

/-- Give up the commands that a cell runs for a graph: their replay reads the same burst, so their tiles stay
uncommitted (R394, R398). -/
def giveUpAll (b : Nat) : List CellCmd → State → State
  | [], s => s
  | m :: t, s =>
    let s := match mfind s.ctxs m.ctx with
      | none => s
      | some x => match batchMember s x.batch m.picture with
        | none => s
        | some fid => s.updFrame fid (fun f => { f with flags := f.flags ||| 4 })
    giveUpAll b t (entryProgress (giveUpTile s b m) m.ctx m.entry)

/-- Poisoned weights or quantization table at a cell (a detail DEDUCED, log 47). -/
def poisonWeights (s : State) (cell graph : Nat) : State :=
  let hit := (s.cell cell).running.filter (fun q => (mget s.ctxs q.2.cmd.ctx).graph == graph)
  let s := hit.foldl (fun s q => abortCmd s cell q.1 q.2) s
  let s := giveUpAll (blockOfCell cell) (hit.map (fun q => q.2.cmd)) s
  raiseAlarm s (dmcUnit (32 * (stacksUp s).headD 0)) 0x82

/-- The first record of a slot in DX staging. -/
def stagedOf (s : State) (slot : Nat) : Option Nat :=
  (s.frames.find? (fun p => p.2.slot == slot && p.2.stage == 8 && !frameEnded p.2)).map (·.1)

/-- Descriptors in one 4 KiB of the descriptor area. -/
def descPerPage : Nat := 1024

/-- Buffers described by the page of the descriptor area that holds the descriptor of buffer `first` of a pool
(a detail DEDUCED, log 44). -/
def pageBuffers (c : Sections) (pool first : Nat) : List Nat :=
  let lo := first / descPerPage * descPerPage
  let n := min descPerPage (poCount (cfgPool c pool) - lo)
  (List.range n).map (fun i => poolBase c pool + (lo + i) * poSize (cfgPool c pool))

/-- POISONED_DATA_RECEIVE (R398). -/
def execPoisonedDataReceive (kind : PoisonKind) (s : State) : Host.Outcome State Fault Refusal :=
  match kind with
  | .activation cell => done (abortRunning s cell (2 ^ 64 + cell))
  | .weights cell graph => done (poisonWeights s cell graph)
  | .reference slot => done (s.updDec slot (fun d => { d with cur := d.cur.map (fun c => { c with poisoned := true }) }))
  | .ingress slot => done (auDamage s slot)
  | .context index => done (recordError s index)
  | .staging slot =>
    match stagedOf s slot with
    | none => done (raiseLogOf s uDx (slotPart s slot) slot)
    | some fid => done (raiseLogOf (discardFrame s fid 6) uDx (slotPart s slot) slot)
  | .descriptor pool first => done (raiseLog ((pageBuffers s.run pool first).foldl quarantine s) uBpm)

end Sys2Proof.Machine
end

