-- ==== Sys2Proof/Machine/Dispatch.lean ====
section
/-! DEFINITION. What each command does: one arm per constructor, each one direct call of its meaning. -/

namespace Sys2Proof.Machine

/-- The effect of a command on everything but the queue of commands. -/
def exec (i : Instr) (s : State) : Host.Outcome State Fault Refusal :=
  match i with
  | .misalignedAccess acc bar off size write => Sys2Proof.Machine.execMisalignedAccess acc bar off size write s
  | .registerWrite port fn bar off value => Sys2Proof.Machine.execRegisterWrite port fn bar off value s
  | .counterLowRead acc bar off => Sys2Proof.Machine.execCounterLowRead acc bar off s
  | .stoppedWindowAccess port fn region off write => Sys2Proof.Machine.execStoppedWindowAccess port fn region off write s
  | .porAssert => Sys2Proof.Machine.execPorAssert s
  | .porDeassert hpSplit smbAddr => Sys2Proof.Machine.execPorDeassert hpSplit smbAddr s
  | .phaseFuseEnd => Sys2Proof.Machine.execPhaseFuseEnd s
  | .phaseDramEnd stack0 stack1 => Sys2Proof.Machine.execPhaseDramEnd stack0 stack1 s
  | .phaseFlashEnd => Sys2Proof.Machine.execPhaseFlashEnd s
  | .phaseVerifyEnd => Sys2Proof.Machine.execPhaseVerifyEnd s
  | .phaseCheckEnd => Sys2Proof.Machine.execPhaseCheckEnd s
  | .phaseLoadEnd => Sys2Proof.Machine.execPhaseLoadEnd s
  | .phaseSelftestEnd cells lineStores regionStores => Sys2Proof.Machine.execPhaseSelftestEnd cells lineStores regionStores s
  | .phasePortsEnd => Sys2Proof.Machine.execPhasePortsEnd s
  | .phaseTimeout => Sys2Proof.Machine.execPhaseTimeout s
  | .configRequest port fn reg write => Sys2Proof.Machine.execConfigRequest port fn reg write s
  | .barMemoryRead port fn bar off => Sys2Proof.Machine.execBarMemoryRead port fn bar off s
  | .tuneWrite port fn andRead => Sys2Proof.Machine.execTuneWrite port fn andRead s
  | .tuneRead port fn => Sys2Proof.Machine.execTuneRead port fn s
  | .tuneComplete port fn => Sys2Proof.Machine.execTuneComplete port fn s
  | .moultGo andAbort => Sys2Proof.Machine.execMoultGo andAbort s
  | .moultAbort => Sys2Proof.Machine.execMoultAbort s
  | .moultFetchEnd r => Sys2Proof.Machine.execMoultFetchEnd r s
  | .moultVerifyEnd => Sys2Proof.Machine.execMoultVerifyEnd s
  | .moultCheckEnd => Sys2Proof.Machine.execMoultCheckEnd s
  | .moultStageEnd => Sys2Proof.Machine.execMoultStageEnd s
  | .moultSwitchTimeout slot => Sys2Proof.Machine.execMoultSwitchTimeout slot s
  | .flashProgram => Sys2Proof.Machine.execFlashProgram s
  | .flashSelect => Sys2Proof.Machine.execFlashSelect s
  | .flashEraseDone => Sys2Proof.Machine.execFlashEraseDone s
  | .flashHostReadDone r => Sys2Proof.Machine.execFlashHostReadDone r s
  | .flashPageProgramDone statusError => Sys2Proof.Machine.execFlashPageProgramDone statusError s
  | .flashReadbackDone => Sys2Proof.Machine.execFlashReadbackDone s
  | .flashOpTimeout => Sys2Proof.Machine.execFlashOpTimeout s
  | .xspiDqsTimeout => Sys2Proof.Machine.execXspiDqsTimeout s
  | .ethLinkUp np => Sys2Proof.Machine.execEthLinkUp np s
  | .ethLinkDown np => Sys2Proof.Machine.execEthLinkDown np s
  | .frameReceive np frame => Sys2Proof.Machine.execFrameReceive np frame s
  | .queryResponseTimer np => Sys2Proof.Machine.execQueryResponseTimer np s
  | .unsolicitedReportTimer np slot => Sys2Proof.Machine.execUnsolicitedReportTimer np slot s
  | .controlRateWindow np => Sys2Proof.Machine.execControlRateWindow np s
  | .nextHopTimeout np hop => Sys2Proof.Machine.execNextHopTimeout np hop s
  | .bucketRefill => Sys2Proof.Machine.execBucketRefill s
  | .sourceLockTimeout slot => Sys2Proof.Machine.execSourceLockTimeout slot s
  | .rtpGapTimeout slot => Sys2Proof.Machine.execRtpGapTimeout slot s
  | .rtpJumpTimeout slot => Sys2Proof.Machine.execRtpJumpTimeout slot s
  | .pmtWaitTimeout slot => Sys2Proof.Machine.execPmtWaitTimeout slot s
  | .injEnable port fn => Sys2Proof.Machine.execInjEnable port fn s
  | .injEnableDone port fn => Sys2Proof.Machine.execInjEnableDone port fn s
  | .injDisable port fn => Sys2Proof.Machine.execInjDisable port fn s
  | .injPoll port fn => Sys2Proof.Machine.execInjPoll port fn s
  | .injTrailerTimeout port fn => Sys2Proof.Machine.execInjTrailerTimeout port fn s
  | .injHeaderTimeout port fn => Sys2Proof.Machine.execInjHeaderTimeout port fn s
  | .injConsumerWrite port fn => Sys2Proof.Machine.execInjConsumerWrite port fn s
  | .alignmentTimeout slot au => Sys2Proof.Machine.execAlignmentTimeout slot au s
  | .parseAhead slot hdr => Sys2Proof.Machine.execParseAhead slot hdr s
  | .decodeSwitch engine cycles bands damage => Sys2Proof.Machine.execDecodeSwitch engine cycles bands damage s
  | .blockCycleLimit engine cycles => Sys2Proof.Machine.execBlockCycleLimit engine cycles s
  | .pictureBudgetExceeded engine cycles atSlice => Sys2Proof.Machine.execPictureBudgetExceeded engine cycles atSlice s
  | .pictureDecoded engine cycles out => Sys2Proof.Machine.execPictureDecoded engine cycles out s
  | .resamplePicture rs => Sys2Proof.Machine.execResamplePicture rs s
  | .resampleDone rs => Sys2Proof.Machine.execResampleDone rs s
  | .batchTimeout batch => Sys2Proof.Machine.execBatchTimeout batch s
  | .batchAdmit part => Sys2Proof.Machine.execBatchAdmit part s
  | .invocationRunnable batch model => Sys2Proof.Machine.execInvocationRunnable batch model s
  | .invocationResident region batch model => Sys2Proof.Machine.execInvocationResident region batch model s
  | .stripeClaim ctx block => Sys2Proof.Machine.execStripeClaim ctx block s
  | .semaphoreSignal block sem n => Sys2Proof.Machine.execSemaphoreSignal block sem n s
  | .semaphoreWait block sem cell t => Sys2Proof.Machine.execSemaphoreWait block sem cell t s
  | .semaphoreReset block sem => Sys2Proof.Machine.execSemaphoreReset block sem s
  | .waitRetry block sem cell t => Sys2Proof.Machine.execWaitRetry block sem cell t s
  | .commandWrite cell cmd => Sys2Proof.Machine.execCommandWrite cell cmd s
  | .commandIssue cell unit => Sys2Proof.Machine.execCommandIssue cell unit s
  | .commandComplete cell unit => Sys2Proof.Machine.execCommandComplete cell unit s
  | .cellEccError cell ecc => Sys2Proof.Machine.execCellEccError cell ecc s
  | .residueMismatch cell => Sys2Proof.Machine.execResidueMismatch cell s
  | .cellSelftestReturn cell pass => Sys2Proof.Machine.execCellSelftestReturn cell pass s
  | .mapperWatchdog block => Sys2Proof.Machine.execMapperWatchdog block s
  | .blockRestart block => Sys2Proof.Machine.execBlockRestart block s
  | .regionFault region cause => Sys2Proof.Machine.execRegionFault region cause s
  | .weightPrefetch ctx layer => Sys2Proof.Machine.execWeightPrefetch ctx layer s
  | .spillWaveStart ctx picture => Sys2Proof.Machine.execSpillWaveStart ctx picture s
  | .contextRecordAccess index acc ecc => Sys2Proof.Machine.execContextRecordAccess index acc ecc s
  | .trackPicture slot => Sys2Proof.Machine.execTrackPicture slot s
  | .chrysalisCapture ctx => Sys2Proof.Machine.execChrysalisCapture ctx s
  | .chrysalisRestore ctx block bodyOk => Sys2Proof.Machine.execChrysalisRestore ctx block bodyOk s
  | .eviction block => Sys2Proof.Machine.execEviction block s
  | .residencyWaitTimeout block => Sys2Proof.Machine.execResidencyWaitTimeout block s
  | .adapterStepStart slot => Sys2Proof.Machine.execAdapterStepStart slot s
  | .adapterStepCommit slot => Sys2Proof.Machine.execAdapterStepCommit slot s
  | .searchStart slot => Sys2Proof.Machine.execSearchStart slot s
  | .searchCommit slot => Sys2Proof.Machine.execSearchCommit slot s
  | .codebookUpdate slot => Sys2Proof.Machine.execCodebookUpdate slot s
  | .recordEncode slot => Sys2Proof.Machine.execRecordEncode slot s
  | .recordEmit slot => Sys2Proof.Machine.execRecordEmit slot s
  | .ringConsumerRead port fn ring r => Sys2Proof.Machine.execRingConsumerRead port fn ring r s
  | .ringHoldTimeout port fn ring => Sys2Proof.Machine.execRingHoldTimeout port fn ring s
  | .ringIrqDelay port fn ring => Sys2Proof.Machine.execRingIrqDelay port fn ring s
  | .ringBind port fn => Sys2Proof.Machine.execRingBind port fn s
  | .ringUnbind port fn => Sys2Proof.Machine.execRingUnbind port fn s
  | .irqStatusClear port fn value sets => Sys2Proof.Machine.execIrqStatusClear port fn value sets s
  | .intaChange port => Sys2Proof.Machine.execIntaChange port s
  | .regulatorUpdate => Sys2Proof.Machine.execRegulatorUpdate s
  | .counterPush region => Sys2Proof.Machine.execCounterPush region s
  | .dramRequest req ecc => Sys2Proof.Machine.execDramRequest req ecc s
  | .poisonedDataReceive kind => Sys2Proof.Machine.execPoisonedDataReceive kind s
  | .refreshDue pc bank => Sys2Proof.Machine.execRefreshDue pc bank s
  | .bankIdleTimeout pc bank => Sys2Proof.Machine.execBankIdleTimeout pc bank s
  | .patrolRead pc ecc => Sys2Proof.Machine.execPatrolRead pc ecc s
  | .imbalanceWindow => Sys2Proof.Machine.execImbalanceWindow s
  | .bpmAllocate who pool => Sys2Proof.Machine.execBpmAllocate who pool s
  | .bpmFree who addr => Sys2Proof.Machine.execBpmFree who addr s
  | .bpmShare who addr owners => Sys2Proof.Machine.execBpmShare who addr owners s
  | .bpmZeroIdle pool => Sys2Proof.Machine.execBpmZeroIdle pool s
  | .tokenGrant => Sys2Proof.Machine.execTokenGrant s
  | .powerSample r => Sys2Proof.Machine.execPowerSample r s
  | .vfChoice => Sys2Proof.Machine.execVfChoice s
  | .vfTransitionEnd region => Sys2Proof.Machine.execVfTransitionEnd region s
  | .pgoodTimeout region => Sys2Proof.Machine.execPgoodTimeout region s
  | .pgoodLow region => Sys2Proof.Machine.execPgoodLow region s
  | .regionPark region => Sys2Proof.Machine.execRegionPark region s
  | .regionWake region => Sys2Proof.Machine.execRegionWake region s
  | .wakeComplete region => Sys2Proof.Machine.execWakeComplete region s
  | .parkHoldWrite port value => Sys2Proof.Machine.execParkHoldWrite port value s
  | .pwrbrkAssert => Sys2Proof.Machine.execPwrbrkAssert s
  | .pwrbrkRelease => Sys2Proof.Machine.execPwrbrkRelease s
  | .thermInAssert => Sys2Proof.Machine.execThermInAssert s
  | .thermInRelease => Sys2Proof.Machine.execThermInRelease s
  | .tempSensorRead region tj uncore => Sys2Proof.Machine.execTempSensorRead region tj uncore s
  | .chatterWindow transitions => Sys2Proof.Machine.execChatterWindow transitions s
  | .inputStuck input => Sys2Proof.Machine.execInputStuck input s
  | .inputStuckRelease input => Sys2Proof.Machine.execInputStuckRelease input s
  | .flr port fn => Sys2Proof.Machine.execFlr port fn s
  | .flrComplete port fn => Sys2Proof.Machine.execFlrComplete port fn s
  | .hotReset port => Sys2Proof.Machine.execHotReset port s
  | .dlDown port => Sys2Proof.Machine.execDlDown port s
  | .perstAssert port => Sys2Proof.Machine.execPerstAssert port s
  | .perstDeassert port => Sys2Proof.Machine.execPerstDeassert port s
  | .pcieLinkUp port rate width => Sys2Proof.Machine.execPcieLinkUp port rate width s
  | .dStateChange port fn dstate => Sys2Proof.Machine.execDStateChange port fn dstate s
  | .pmeTurnOff port => Sys2Proof.Machine.execPmeTurnOff port s
  | .pmeSignal port fn => Sys2Proof.Machine.execPmeSignal port fn s
  | .pmeRepeat port fn => Sys2Proof.Machine.execPmeRepeat port fn s
  | .unitFault unit index => Sys2Proof.Machine.execUnitFault unit index s
  | .controllerRestart unit => Sys2Proof.Machine.execControllerRestart unit s
  | .controllerResume unit => Sys2Proof.Machine.execControllerResume unit s
  | .eventStage ev => Sys2Proof.Machine.execEventStage ev s
  | .traceExponentTick path => Sys2Proof.Machine.execTraceExponentTick path s
  | .telemetryPacketSend => Sys2Proof.Machine.execTelemetryPacketSend s
  | .summaryTimer => Sys2Proof.Machine.execSummaryTimer s
  | .mpIdentify => Sys2Proof.Machine.execMpIdentify s
  | .mpSetPointer value pecOk => Sys2Proof.Machine.execMpSetPointer value pecOk s
  | .mpReadRegisters => Sys2Proof.Machine.execMpReadRegisters s
  | .mpReadEvents => Sys2Proof.Machine.execMpReadEvents s
  | .mpRemoveEvents m pecOk => Sys2Proof.Machine.execMpRemoveEvents m pecOk s
  | .mpAlertResponse => Sys2Proof.Machine.execMpAlertResponse s
  | .smbusClockTimeout => Sys2Proof.Machine.execSmbusClockTimeout s
  | .keyGo => Sys2Proof.Machine.execKeyGo s
  | .keyBurnDone readBackOk => Sys2Proof.Machine.execKeyBurnDone readBackOk s
  | .attGo port fn => Sys2Proof.Machine.execAttGo port fn s
  | .attSignStart => Sys2Proof.Machine.execAttSignStart s
  | .attSignDone => Sys2Proof.Machine.execAttSignDone s
  | .barMemoryWrite port fn off data poisoned => Sys2Proof.Machine.execBarMemoryWrite port fn off data poisoned s
  | .arrayCreditRefill region issuing => Sys2Proof.Machine.execArrayCreditRefill region issuing s
  | .keyReadDone r => Sys2Proof.Machine.execKeyReadDone r s
  | .regionStoreEccError region addr => Sys2Proof.Machine.execRegionStoreEccError region addr s
  | .nocLinkCrcError router => Sys2Proof.Machine.execNocLinkCrcError router s
  | .blockRestartDone block => Sys2Proof.Machine.execBlockRestartDone block s
  | .unitRestartDone unit => Sys2Proof.Machine.execUnitRestartDone unit s

end Sys2Proof.Machine
end

