-- ==== Sys2Proof/Machine/Step.lean ====
section
/-! DEFINITION. One step: the command at the front of the queue, or a cycle of the always-on clock. -/

set_option Elab.async false

namespace Sys2Proof.Machine

/-- One step of the device. With a command waiting, the one at the front takes effect on the state whose queue is the
rest. With none waiting, one cycle of the AON clock passes (DESIGN CHOICE, log 1) (a detail DESIGN CHOICE, log 2). -/
def step (s : State) : Host.Outcome State Fault Refusal :=
  match s.pending with
  | [] => .next (clockTick s)
  | c :: rest => exec c { s with pending := rest }

/-- `s` with the command a word spells at the front of its queue; `s` where it spells none
(a detail DESIGN CHOICE, log 2). -/
def State.withFetchWord (s : State) (nbits w : Nat) : State :=
  match decodeTableWord nbits w with
  | none => s
  | some c => { s with pending := c :: s.pending }

end Sys2Proof.Machine
end

