-- ==== Sys2Proof/WellFormed.lean ====
section
/-! DEFINITION. Well-formed commands: every operand that names a unit, a register or a quantity lies in the range that
the manual gives it. -/

set_option Elab.async false

namespace Sys2Proof

open Machine

/-- A host port and one of its four functions (R371). -/
def wfFn (port fn : Nat) : Bool := decide (port < 2) && decide (fn < 4)
/-- BAR0, BAR2 or BAR4 (R372). -/
def wfBar (bar : Nat) : Bool := bar == 0 || bar == 2 || bar == 4
/-- Whoever reads a register: a function, or MP. -/
def wfAcc : Acc → Bool
  | .host port fn => wfFn port fn
  | .mp => true
/-- A stream slot (R67). -/
def wfSlot (slot : Nat) : Bool := decide (slot < 512)
/-- A decode engine and a resampler. -/
def wfEngine (g : Nat) : Bool := decide (g < 8)
def wfRs (g : Nat) : Bool := decide (g < 4)
/-- A cell, a block and a region (R13). -/
def wfCell (c : Nat) : Bool := decide (c < 256)
def wfBlock (b : Nat) : Bool := decide (b < 32)
def wfRegion (r : Nat) : Bool := decide (r < 8)
/-- An issue unit of a cell (R161). -/
def wfUnit (u : Nat) : Bool := decide (u < 3)
/-- A record ring of a function (R377), a pool (R74), a partition (R71), a network port (R110). -/
def wfRing (r : Nat) : Bool := decide (r < 16)
def wfPool (p : Nat) : Bool := decide (p < 16)
def wfPart (p : Nat) : Bool := decide (p < 8)
def wfNp (n : Nat) : Bool := decide (n < 2)
/-- A requester of the BPM: a partition or the device (R341). -/
def wfWho (w : Nat) : Bool := decide (w < 9)
/-- A model of a stream. -/
def wfModel (m : Nat) : Bool := decide (m < 5)
/-- A pseudo-channel and one of its banks (R325). -/
def wfPc (p : Nat) : Bool := decide (p < 64)
def wfBank (b : Nat) : Bool := decide (b < 48)
/-- A watched discrete input (R363). -/
def wfInput (i : Nat) : Bool := decide (i < 5)
/-- An Ethernet frame within the longest the MAC takes (R111). -/
def wfFrame (b : Bytes) : Bool := decide (b.length ≤ 16384)
/-- A DRAM request: a router, a partition or the device, at most 32 bytes (R327, R329). -/
def wfDram (r : DramReq) : Bool :=
  decide (r.router < 16) && decide (r.part < 9) && decide (r.data.length ≤ 32) && decide (r.salt < 65536)
/-- A cell command: its unit, picture and length (R161, R312). -/
def wfCellCmd (c : CellCmd) : Bool := wfUnit c.unit && decide (c.picture < 8) && decide (c.cycles ≤ 384)
/-- An event (R406). -/
def wfEvent (e : EvSpec) : Bool := decide (e.unit < 256) && decide (e.num < 256) && decide (1 ≤ e.cls) && decide (e.cls ≤ 5)

/-- The command is well formed. -/
def Instr.wf : Instr → Bool
  | .misalignedAccess acc bar _ _ _ => wfAcc acc && wfBar bar
  | .registerWrite port fn bar _ _ => wfFn port fn && wfBar bar
  | .counterLowRead acc bar _ => wfAcc acc && wfBar bar
  | .stoppedWindowAccess port fn region _ _ => wfFn port fn && wfRegion region
  | .porAssert => true
  | .porDeassert _ smbAddr => decide (smbAddr < 4)
  | .phaseFuseEnd => true
  | .phaseDramEnd _ _ => true
  | .phaseFlashEnd => true
  | .phaseVerifyEnd => true
  | .phaseCheckEnd => true
  | .phaseLoadEnd => true
  | .phaseSelftestEnd cells lines regions =>
    cells.all wfCell && lines.all wfBlock && regions.all wfRegion
  | .phasePortsEnd => true
  | .phaseTimeout => true
  | .configRequest port fn _ _ => wfFn port fn
  | .barMemoryRead port fn bar _ => wfFn port fn && wfBar bar
  | .tuneWrite port fn _ => wfFn port fn
  | .tuneRead port fn => wfFn port fn
  | .tuneComplete port fn => wfFn port fn
  | .moultGo _ => true
  | .moultAbort => true
  | .moultFetchEnd _ => true
  | .moultVerifyEnd => true
  | .moultCheckEnd => true
  | .moultStageEnd => true
  | .moultSwitchTimeout slot => wfSlot slot
  | .flashProgram => true
  | .flashSelect => true
  | .flashEraseDone => true
  | .flashHostReadDone _ => true
  | .flashPageProgramDone _ => true
  | .flashReadbackDone => true
  | .flashOpTimeout => true
  | .xspiDqsTimeout => true
  | .ethLinkUp np => wfNp np
  | .ethLinkDown np => wfNp np
  | .frameReceive np frame => wfNp np && wfFrame frame
  | .queryResponseTimer np => wfNp np
  | .unsolicitedReportTimer np slot => wfNp np && wfSlot slot
  | .controlRateWindow np => wfNp np
  | .nextHopTimeout np _ => wfNp np
  | .bucketRefill => true
  | .sourceLockTimeout slot => wfSlot slot
  | .rtpGapTimeout slot => wfSlot slot
  | .rtpJumpTimeout slot => wfSlot slot
  | .pmtWaitTimeout slot => wfSlot slot
  | .injEnable port fn => wfFn port fn
  | .injEnableDone port fn => wfFn port fn
  | .injDisable port fn => wfFn port fn
  | .injPoll port fn => wfFn port fn
  | .injTrailerTimeout port fn => wfFn port fn
  | .injHeaderTimeout port fn => wfFn port fn
  | .injConsumerWrite port fn => wfFn port fn
  | .alignmentTimeout slot _ => wfSlot slot
  | .parseAhead slot _ => wfSlot slot
  | .decodeSwitch engine _ _ _ => wfEngine engine
  | .blockCycleLimit engine _ => wfEngine engine
  | .pictureBudgetExceeded engine _ _ => wfEngine engine
  | .pictureDecoded engine _ _ => wfEngine engine
  | .resamplePicture rs => wfRs rs
  | .resampleDone rs => wfRs rs
  | .batchTimeout _ => true
  | .batchAdmit part => wfPart part
  | .invocationRunnable _ model => wfModel model
  | .invocationResident region _ model => wfRegion region && wfModel model
  | .stripeClaim _ block => wfBlock block
  | .semaphoreSignal block _ _ => wfBlock block
  | .semaphoreWait block _ cell _ => wfBlock block && wfCell cell
  | .semaphoreReset block _ => wfBlock block
  | .waitRetry block _ cell _ => wfBlock block && wfCell cell
  | .commandWrite cell cmd => wfCell cell && wfCellCmd cmd
  | .commandIssue cell unit => wfCell cell && wfUnit unit
  | .commandComplete cell unit => wfCell cell && wfUnit unit
  | .cellEccError cell _ => wfCell cell
  | .residueMismatch cell => wfCell cell
  | .cellSelftestReturn cell _ => wfCell cell
  | .mapperWatchdog block => wfBlock block
  | .blockRestart block => wfBlock block
  | .regionFault region _ => wfRegion region
  | .weightPrefetch _ _ => true
  | .spillWaveStart _ _ => true
  | .contextRecordAccess index _ _ => decide (index < 2097152)
  | .trackPicture slot => wfSlot slot
  | .chrysalisCapture _ => true
  | .chrysalisRestore _ block _ => wfBlock block
  | .eviction block => wfBlock block
  | .residencyWaitTimeout block => wfBlock block
  | .adapterStepStart slot => wfSlot slot
  | .adapterStepCommit slot => wfSlot slot
  | .searchStart slot => wfSlot slot
  | .searchCommit slot => wfSlot slot
  | .codebookUpdate slot => wfSlot slot
  | .recordEncode slot => wfSlot slot
  | .recordEmit slot => wfSlot slot
  | .ringConsumerRead port fn ring _ => wfFn port fn && wfRing ring
  | .ringHoldTimeout port fn ring => wfFn port fn && wfRing ring
  | .ringIrqDelay port fn ring => wfFn port fn && wfRing ring
  | .ringBind port fn => wfFn port fn
  | .ringUnbind port fn => wfFn port fn
  | .irqStatusClear port fn _ _ => wfFn port fn
  | .intaChange port => decide (port < 2)
  | .regulatorUpdate => true
  | .counterPush region => wfRegion region
  | .dramRequest req _ => wfDram req
  | .poisonedDataReceive _ => true
  | .refreshDue pc bank => wfPc pc && wfBank bank
  | .bankIdleTimeout pc bank => wfPc pc && wfBank bank
  | .patrolRead pc _ => wfPc pc
  | .imbalanceWindow => true
  | .bpmAllocate who pool => wfWho who && wfPool pool
  | .bpmFree who _ => wfWho who
  | .bpmShare who _ owners => wfWho who && decide (owners < 512)
  | .bpmZeroIdle pool => wfPool pool
  | .tokenGrant => true
  | .powerSample r => decide (r.regions.length = 8)
  | .vfChoice => true
  | .vfTransitionEnd region => wfRegion region
  | .pgoodTimeout region => wfRegion region
  | .pgoodLow region => wfRegion region
  | .regionPark region => wfRegion region
  | .regionWake region => wfRegion region
  | .wakeComplete region => wfRegion region
  | .parkHoldWrite port _ => decide (port < 2)
  | .pwrbrkAssert => true
  | .pwrbrkRelease => true
  | .thermInAssert => true
  | .thermInRelease => true
  | .tempSensorRead region _ _ => wfRegion region
  | .chatterWindow transitions => decide (transitions.length ≤ 5)
  | .inputStuck input => wfInput input
  | .inputStuckRelease input => wfInput input
  | .flr port fn => wfFn port fn
  | .flrComplete port fn => wfFn port fn
  | .hotReset port => decide (port < 2)
  | .dlDown port => decide (port < 2)
  | .perstAssert port => decide (port < 2)
  | .perstDeassert port => decide (port < 2)
  | .pcieLinkUp port rate width => decide (port < 2) && decide (1 ≤ rate) && decide (1 ≤ width) && decide (width ≤ 8)
  | .dStateChange port fn dstate => wfFn port fn && decide (dstate < 4)
  | .pmeTurnOff port => decide (port < 2)
  | .pmeSignal port fn => wfFn port fn
  | .pmeRepeat port fn => wfFn port fn
  | .unitFault unit _ => decide (unit < 24)
  | .controllerRestart unit => decide (unit < 24)
  | .controllerResume unit => decide (unit < 24)
  | .eventStage ev => wfEvent ev
  | .traceExponentTick path => decide (path < 10)
  | .telemetryPacketSend => true
  | .summaryTimer => true
  | .mpIdentify => true
  | .mpSetPointer value _ => decide (value < 2 ^ 32)
  | .mpReadRegisters => true
  | .mpReadEvents => true
  | .mpRemoveEvents m _ => decide (m < 256)
  | .mpAlertResponse => true
  | .smbusClockTimeout => true
  | .keyGo => true
  | .keyBurnDone _ => true
  | .attGo port fn => wfFn port fn
  | .attSignStart => true
  | .attSignDone => true
  | .barMemoryWrite port fn _ _ _ => wfFn port fn
  | .arrayCreditRefill region issuing => wfRegion region && issuing.all wfPart
  | .keyReadDone _ => true
  | .regionStoreEccError region _ => wfRegion region
  | .nocLinkCrcError router => decide (router < 16)
  | .blockRestartDone block => wfBlock block
  | .unitRestartDone unit => decide (unit < 24)

end Sys2Proof
end

