-- ==== Sys2Proof/Safety.lean ====
section
/-! DEFINITION. What counts as a safe run, in the terms that claims use: a step that goes on, the canonical form of the
memories, and what a command leaves alone. -/

set_option Elab.async false

namespace Sys2Proof.Machine

/-- The step at this state goes on (R57: no command stops the device). -/
def stepsOn (s : State) : Prop := ∃ t, step s = .next t

/-- The memories are in their canonical form: the flash, the DRAM, the on-chip memory and every injection ring list their
bytes at rising addresses, and no byte that reads as an unlisted one. -/
def State.memWf (s : State) : Prop :=
  cellsWf flashErased s.flash.cells = true ∧ cellsWf dramUnwritten s.dram.mem = true ∧
    (∀ q ∈ s.fns, cellsWf 0 q.2.inj.bytes = true) ∧ cellsWf sramUnwritten s.sram = true

/-- AON_BOOT_STATUS.phase reads 0 while POR_N is asserted, and otherwise one of the ten codes of R25: the eight phases,
Imago and Held. -/
def legalPhase (s : State) : Prop :=
  if s.por then s.scu.phase = 0 else s.scu.phase ∈ [1, 2, 3, 4, 5, 6, 7, 8, 9, 0xE]

/-- The device enters Held with a cause: it has no configuration, every region is parked, and AON_BOOT_TIME stops. -/
def entersHeld (cause : Nat) (s t : State) : Prop :=
  t.scu.phase = 0xE ∧ t.scu.cause = cause ∧ t.scu.bootTime = s.now ∧ t.scu.cfg = none ∧
    ∀ r, (t.region r).awake = false ∧ (t.region r).waking = false

/-- Commands of the start-up sequence: POR_N, the ends of the phases, and the two timeouts that can end in Held. -/
def boots : Instr → Bool
  | .porAssert => true
  | .porDeassert _ _ => true
  | .phaseFuseEnd => true
  | .phaseDramEnd _ _ => true
  | .phaseFlashEnd => true
  | .phaseVerifyEnd => true
  | .phaseCheckEnd => true
  | .phaseLoadEnd => true
  | .phaseSelftestEnd _ _ _ => true
  | .phasePortsEnd => true
  | .phaseTimeout => true
  | .xspiDqsTimeout => true
  | _ => false

/-- The command that burns fuses. -/
def burns : Instr → Bool
  | .keyBurnDone _ => true
  | _ => false

/-- Commands that can change the contents of the flash: the flash commands, a write of FLASH_CTRL, and the end of a
restart during which such a write waited. -/
def programs : Instr → Bool
  | .flashEraseDone => true
  | .flashPageProgramDone _ => true
  | .flashSelect => true
  | .registerWrite _ _ _ _ _ => true
  | .controllerResume _ => true
  | _ => false

/-- What a command leaves alone unless it belongs to the start-up sequence or to a key burn: the queue of commands,
AON_TIME, POR_N, the start-up status, the straps, the fuses, the fused identity, the address key of the DRAM, everything
already sent, an asserted THERM_TRIP_N, and the canonical form of the memories. -/
structure KeepsButFlash (s t : State) : Prop where
  pending : t.pending = s.pending
  now : t.now = s.now
  por : t.por = s.por
  phase : t.scu.phase = s.scu.phase
  cause : t.scu.cause = s.scu.cause
  bootTime : t.scu.bootTime = s.scu.bootTime
  dramStacks : (t.scu.stack0, t.scu.stack1) = (s.scu.stack0, s.scu.stack1)
  m0 : t.scu.m0 = s.scu.m0
  straps : (t.aon.split, t.aon.smbAddr) = (s.aon.split, s.aon.smbAddr)
  fuses : t.fuses = s.fuses
  identity : (t.idSeed, t.idKey, t.grade, t.stepping) = (s.idSeed, s.idKey, s.grade, s.stepping)
  dramKey : t.dram.key = s.dram.key
  thermTrip : s.aon.thermTrip = true → t.aon.thermTrip = true
  sent : ∃ new, t.out = new ++ s.out
  drawn : s.freeIx ≤ t.freeIx
  memory : s.memWf → t.memWf

/-- A command that does not program the flash leaves its contents alone as well. -/
structure Keeps (s t : State) : Prop extends KeepsButFlash s t where
  flash : t.flash.cells = s.flash.cells

/-! ### What a command can change, part by part -/

/-- The parts of the state, each changed by some command: the fields of `State`, with the functions divided in their record
rings with FN_IRQ_STATUS (`rings`) and the rest (`fns`), the DRAM in its contents (`mem`) and its controllers (`dram`), and
the always-on status block in the alarm table (`alarms`) and the rest (`aon`). -/
inductive Piece where
  | now | por | scu | fuses | identity | moult | flash | key | signer | fns | rings | ports | nps | streams | frames
  | engines | resamplers | relq | batches | ctxs | parts | regions | blocks | cells | mem | dram | bpm | store | pac
  | alarms | aon | tu | unitsDown | devTuned | sram | out | waits | freeIx | pending
  deriving DecidableEq, Repr

/-- A function without its record rings and FN_IRQ_STATUS. -/
def fnCore (f : Fn) : Fn := { f with rings := [], irqStatus := 0 }
/-- The record rings and FN_IRQ_STATUS of a function. -/
def fnRings (f : Fn) : Map Ring × Word := (f.rings, f.irqStatus)

/-- A part of the state is unchanged. -/
def Piece.same : Piece → State → State → Prop
  | .now, s, t => t.now = s.now
  | .por, s, t => t.por = s.por
  | .scu, s, t => t.scu = s.scu
  | .fuses, s, t => t.fuses = s.fuses
  | .identity, s, t => (t.idSeed, t.idKey, t.grade, t.stepping) = (s.idSeed, s.idKey, s.grade, s.stepping)
  | .moult, s, t => t.moult = s.moult
  | .flash, s, t => t.flash = s.flash
  | .key, s, t => t.key = s.key
  | .signer, s, t => t.signer = s.signer
  | .fns, s, t => ∀ k, fnCore (mget t.fns k) = fnCore (mget s.fns k)
  | .rings, s, t => ∀ k, fnRings (mget t.fns k) = fnRings (mget s.fns k)
  | .ports, s, t => t.ports = s.ports
  | .nps, s, t => t.nps = s.nps
  | .streams, s, t => t.streams = s.streams
  | .frames, s, t => (t.frames, t.nextFrame) = (s.frames, s.nextFrame)
  | .engines, s, t => t.engines = s.engines
  | .resamplers, s, t => t.resamplers = s.resamplers
  | .relq, s, t => t.relq = s.relq
  | .batches, s, t => (t.batches, t.nextBatch) = (s.batches, s.nextBatch)
  | .ctxs, s, t => (t.ctxs, t.nextCtx) = (s.ctxs, s.nextCtx)
  | .parts, s, t => t.parts = s.parts
  | .regions, s, t => t.regions = s.regions
  | .blocks, s, t => t.blocks = s.blocks
  | .cells, s, t => t.cells = s.cells
  | .mem, s, t => t.dram.mem = s.dram.mem
  | .dram, s, t => { t.dram with mem := [] } = { s.dram with mem := [] }
  | .bpm, s, t => t.bpm = s.bpm
  | .store, s, t => t.store = s.store
  | .pac, s, t => t.pac = s.pac
  | .alarms, s, t => t.aon.alarms = s.aon.alarms
  | .aon, s, t => { t.aon with alarms := [] } = { s.aon with alarms := [] }
  | .tu, s, t => t.tu = s.tu
  | .unitsDown, s, t => t.unitsDown = s.unitsDown
  | .devTuned, s, t => t.devTuned = s.devTuned
  | .sram, s, t => t.sram = s.sram
  | .out, s, t => t.out = s.out
  | .waits, s, t => t.waits = s.waits
  | .freeIx, s, t => t.freeIx = s.freeIx
  | .pending, s, t => t.pending = s.pending

/-- Nothing outside the listed parts changes. -/
structure Touches (l : List Piece) (s t : State) : Prop where
  same : ∀ p, p ∉ l → p.same s t

/-! Groups of parts that go together. -/

/-- The raising of an event. -/
def reachReport : List Piece := [.rings, .alarms, .tu, .out, .freeIx]
/-- The freeing of buffers. -/
def reachPool : List Piece := [.parts, .bpm] ++ reachReport
/-- The end of a frame. -/
def reachSweep : List Piece := [.moult, .streams, .frames] ++ reachPool
/-- The discarding of a frame. -/
def reachDiscard : List Piece := [.resamplers, .relq, .batches, .regions, .store] ++ reachSweep
/-- The fencing of a region, a block or a cell. -/
def reachFence : List Piece := [.streams, .frames, .batches, .ctxs, .regions, .blocks, .cells, .store] ++ reachPool
/-- The close of an access unit and everything behind it. -/
def reachIngress : List Piece := [.scu, .engines, .mem] ++ reachDiscard
/-- The reset of a function: what it holds and carries, wherever it is. -/
def reachReset : List Piece := [.flash, .key, .signer, .fns, .ports, .ctxs, .blocks, .cells] ++ reachDiscard

/-- What a command can change. -/
def reach : Instr → List Piece
  | .misalignedAccess .. => [.ports] ++ reachReport
  | .registerWrite .. => [.nps, .mem, .pac, .waits] ++ reachReset
  | .counterLowRead .. => [.fns, .ports, .waits] ++ reachReport
  | .stoppedWindowAccess .. => [.ports] ++ reachReport
  | .porAssert => [.por, .scu, .fuses, .identity, .moult, .flash, .key, .signer, .fns, .rings, .ports, .nps, .streams, .frames,
      .engines, .resamplers, .relq, .batches, .ctxs, .parts, .regions, .blocks, .cells, .mem, .dram, .bpm, .store,
      .pac, .alarms, .aon, .tu, .unitsDown, .devTuned, .sram, .waits, .freeIx]
  | .porDeassert .. => [.now, .por, .scu, .regions, .dram, .aon, .freeIx]
  | .phaseFuseEnd => [.scu, .ports, .regions, .alarms, .aon]
  | .phaseDramEnd .. => [.scu, .identity, .regions]
  | .phaseFlashEnd => [.scu, .regions]
  | .phaseVerifyEnd => [.scu, .regions]
  | .phaseCheckEnd => [.scu, .regions]
  | .phaseLoadEnd => [.scu, .mem, .devTuned] ++ reachFence
  | .phaseSelftestEnd .. => [.scu, .ctxs, .regions, .blocks, .cells, .mem, .store, .sram] ++ reachPool
  | .phasePortsEnd => [.scu, .nps, .streams, .regions, .mem, .dram, .store, .pac] ++ reachPool
  | .phaseTimeout => [.scu, .regions]
  | .configRequest .. => [.nps, .mem, .aon] ++ reachReset
  | .barMemoryRead .. => [.fns, .ports, .waits] ++ reachReport
  | .tuneWrite .. => [.fns, .waits]
  | .tuneRead .. => [.fns, .waits]
  | .tuneComplete .. => [.fns, .streams, .parts, .devTuned]
  | .moultGo .. => [.moult, .rings, .out, .waits]
  | .moultAbort => [.moult, .rings, .waits]
  | .moultFetchEnd .. => [.moult, .rings, .ports]
  | .moultVerifyEnd => [.moult, .rings]
  | .moultCheckEnd => [.moult, .rings]
  | .moultStageEnd => [.scu, .moult, .fns, .nps, .mem, .pac, .devTuned] ++ reachFence
  | .moultSwitchTimeout .. => [.nps] ++ reachIngress
  | .flashProgram => [.flash, .rings, .waits]
  | .flashSelect => [.flash, .rings, .waits]
  | .flashEraseDone => [.flash, .out]
  | .flashHostReadDone .. => [.flash, .rings, .ports]
  | .flashPageProgramDone .. => [.flash, .rings]
  | .flashReadbackDone => [.flash, .rings]
  | .flashOpTimeout => [.flash, .rings]
  | .xspiDqsTimeout => [.scu, .flash, .rings, .regions]
  | .ethLinkUp .. => [.nps, .streams, .out]
  | .ethLinkDown .. => [.nps]
  | .frameReceive .. => [.nps] ++ reachIngress
  | .queryResponseTimer .. => [.nps, .out]
  | .unsolicitedReportTimer .. => [.nps, .streams, .out]
  | .controlRateWindow .. => [.nps]
  | .nextHopTimeout .. => [.nps, .streams, .tu]
  | .bucketRefill => [.streams]
  | .sourceLockTimeout .. => [.streams, .frames] ++ reachReport
  | .rtpGapTimeout .. => [.nps] ++ reachIngress
  | .rtpJumpTimeout .. => [.streams]
  | .pmtWaitTimeout .. => [.streams] ++ reachReport
  | .injEnable .. => [.fns, .nps, .mem] ++ reachDiscard
  | .injEnableDone .. => [.fns, .streams, .mem, .store] ++ reachPool
  | .injDisable .. => [.fns, .nps, .mem] ++ reachDiscard
  | .injPoll .. => [.fns, .nps] ++ reachIngress
  | .injTrailerTimeout .. => [.fns, .nps] ++ reachIngress
  | .injHeaderTimeout .. => [.fns] ++ reachReport
  | .injConsumerWrite .. => [.fns, .out]
  | .alignmentTimeout .. => [.frames, .out]
  | .parseAhead .. => [.mem] ++ reachDiscard
  | .decodeSwitch .. => [.engines, .mem] ++ reachDiscard
  | .blockCycleLimit .. => [.streams, .engines]
  | .pictureBudgetExceeded .. => [.streams, .engines]
  | .pictureDecoded .. => [.engines, .mem] ++ reachDiscard
  | .resamplePicture .. => [.streams, .frames, .resamplers, .relq, .mem] ++ reachPool
  | .resampleDone .. => [.resamplers, .batches, .mem, .store] ++ reachSweep
  | .batchTimeout .. => [.streams, .frames, .batches, .parts, .mem, .store, .out]
  | .batchAdmit .. => [.mem, .pac] ++ reachFence
  | .invocationRunnable .. => [.batches, .parts, .regions]
  | .invocationResident .. => [.batches, .ctxs, .regions, .blocks]
  | .stripeClaim .. => [.moult, .resamplers, .relq, .mem] ++ reachFence
  | .semaphoreSignal .. => [.ctxs, .blocks, .cells] ++ reachReport
  | .semaphoreWait .. => [.ctxs, .regions, .blocks, .cells]
  | .semaphoreReset .. => [.blocks]
  | .waitRetry .. => [.ctxs, .regions, .blocks, .cells]
  | .commandWrite .. => [.moult, .resamplers, .relq, .mem] ++ reachFence
  | .commandIssue .. => [.moult, .resamplers, .relq, .mem, .sram] ++ reachFence
  | .commandComplete .. => [.moult, .resamplers, .relq, .mem, .sram] ++ reachFence
  | .cellEccError .. => [.moult, .resamplers, .relq, .mem, .sram] ++ reachFence
  | .residueMismatch .. => [.moult, .resamplers, .relq, .mem, .sram] ++ reachFence
  | .cellSelftestReturn .. => [.ctxs, .regions, .blocks, .cells, .mem, .store] ++ reachPool
  | .mapperWatchdog .. => [.mem, .sram] ++ reachFence
  | .blockRestart .. => [.mem, .sram] ++ reachFence
  | .regionFault .. => [.mem] ++ reachFence
  | .weightPrefetch .. => [.parts, .regions, .sram]
  | .spillWaveStart .. => [.ctxs, .blocks, .mem] ++ reachPool
  | .contextRecordAccess .. => [.streams, .batches, .ctxs, .regions, .blocks, .cells, .mem, .store] ++ reachPool
  | .trackPicture .. => [.streams, .frames, .mem, .store, .out]
  | .chrysalisCapture .. => [.ctxs, .regions, .blocks, .cells, .mem, .store, .sram] ++ reachPool
  | .chrysalisRestore .. => [.streams, .batches, .ctxs, .regions, .blocks, .cells, .mem, .store, .sram] ++ reachPool
  | .eviction .. => [.ctxs, .regions, .blocks, .cells, .mem, .store, .sram] ++ reachPool
  | .residencyWaitTimeout .. => [.ctxs, .regions, .blocks, .cells, .mem, .store, .sram] ++ reachPool
  | .adapterStepStart .. => [.streams, .ctxs, .blocks, .mem, .store]
  | .adapterStepCommit .. => [.ctxs, .regions, .blocks, .cells, .mem, .store] ++ reachSweep
  | .searchStart .. => [.streams, .frames]
  | .searchCommit .. => [.mem] ++ reachDiscard
  | .codebookUpdate .. => [.streams, .mem, .store]
  | .recordEncode .. => [.frames, .out]
  | .recordEmit .. => [.nps, .mem, .store] ++ reachSweep
  | .ringConsumerRead .. => [.ports] ++ reachSweep
  | .ringHoldTimeout .. => reachSweep
  | .ringIrqDelay .. => [.rings]
  | .ringBind .. => reachSweep
  | .ringUnbind .. => reachSweep
  | .irqStatusClear .. => [.rings, .ports, .out]
  | .intaChange .. => [.ports, .out]
  | .regulatorUpdate => [.regions]
  | .counterPush .. => [.parts, .regions]
  | .dramRequest .. => [.regions, .dram, .bpm] ++ reachReport
  | .poisonedDataReceive .. => [.moult, .resamplers, .relq, .mem, .sram] ++ reachFence
  | .refreshDue .. => [.dram]
  | .bankIdleTimeout .. => [.dram]
  | .patrolRead .. => [.dram, .bpm] ++ reachReport
  | .imbalanceWindow => [.dram] ++ reachReport
  | .bpmAllocate .. => [.mem] ++ reachPool
  | .bpmFree .. => [.streams, .mem] ++ reachPool
  | .bpmShare .. => reachPool
  | .bpmZeroIdle .. => [.mem, .bpm]
  | .tokenGrant => [.regions, .pac]
  | .powerSample .. => [.mem, .pac] ++ reachFence
  | .vfChoice => [.mem, .pac] ++ reachFence
  | .vfTransitionEnd .. => [.mem, .pac] ++ reachFence
  | .pgoodTimeout .. => [.mem] ++ reachFence
  | .pgoodLow .. => [.mem] ++ reachFence
  | .regionPark .. => [.parts, .regions, .pac]
  | .regionWake .. => [.mem, .pac] ++ reachFence
  | .wakeComplete .. => [.regions, .blocks, .cells, .sram]
  | .parkHoldWrite .. => [.ports, .mem, .pac] ++ reachFence
  | .pwrbrkAssert => [.mem, .pac, .aon] ++ reachFence
  | .pwrbrkRelease => [.mem, .pac, .aon] ++ reachFence
  | .thermInAssert => [.mem, .pac, .aon] ++ reachFence
  | .thermInRelease => [.pac, .aon]
  | .tempSensorRead .. => [.mem, .pac, .aon] ++ reachFence
  | .chatterWindow .. => [.aon] ++ reachReport
  | .inputStuck .. => [.aon] ++ reachReport
  | .inputStuckRelease .. => [.ports, .mem, .pac, .aon] ++ reachFence
  | .flr .. => [.nps, .mem, .aon] ++ reachReset
  | .flrComplete .. => [.fns, .ports, .nps, .streams, .mem, .store] ++ reachPool
  | .hotReset .. => [.nps, .mem, .aon, .waits] ++ reachReset
  | .dlDown .. => [.nps, .mem, .aon, .waits] ++ reachReset
  | .perstAssert .. => [.nps, .mem, .aon, .waits] ++ reachReset
  | .perstDeassert .. => [.ports, .aon]
  | .pcieLinkUp .. => [.ports, .out]
  | .dStateChange .. => [.fns, .ports] ++ reachSweep
  | .pmeTurnOff .. => [.ports, .out]
  | .pmeSignal .. => [.fns, .ports, .out]
  | .pmeRepeat .. => [.ports, .out]
  | .unitFault .. => [.engines, .mem, .aon, .unitsDown] ++ reachDiscard
  | .controllerRestart .. => [.scu, .moult, .flash, .key, .signer, .fns, .regions, .pac, .aon] ++ reachReport
  | .controllerResume .. => [.scu, .nps, .mem, .pac, .waits] ++ reachReset
  | .eventStage .. => [.rings, .alarms, .tu, .out]
  | .traceExponentTick .. => [.tu]
  | .telemetryPacketSend => [.nps, .tu, .out]
  | .summaryTimer => [.rings, .aon, .tu, .out, .freeIx]
  | .mpIdentify => [.out]
  | .mpSetPointer .. => reachReport
  | .mpReadRegisters => [.fns, .tu, .out]
  | .mpReadEvents => [.tu, .out]
  | .mpRemoveEvents .. => reachReport
  | .mpAlertResponse => [.tu, .out]
  | .smbusClockTimeout => reachReport
  | .keyGo => [.key, .out, .waits]
  | .keyBurnDone .. => [.fuses, .key, .rings, .freeIx]
  | .attGo .. => [.signer, .fns, .waits]
  | .attSignStart => [.signer, .fns]
  | .attSignDone => [.signer, .fns, .rings, .out]
  | .barMemoryWrite .. => [.fns, .ports]
  | .arrayCreditRefill .. => [.regions]
  | .keyReadDone .. => [.key, .rings, .ports]
  | .regionStoreEccError .. => [.moult, .resamplers, .relq, .mem, .sram] ++ reachFence
  | .nocLinkCrcError .. => []
  | .blockRestartDone .. => [.ctxs, .parts, .blocks, .cells]
  | .unitRestartDone .. => [.unitsDown]

end Sys2Proof.Machine
end

