-- ==== Sys2Proof/Certificates/Slice0/Obligations.lean ====
section
/-! DEFINITION. The statements about the model, for the provers. The first group is about every command; each of the others
gives, for the commands of one family, the next state that a command has and what it leaves unchanged. -/

set_option Elab.async false

open Sys2Proof Sys2Proof.Machine

/-! ### Every command -/

/-- A step with commands waiting is `exec` of the front command on the state whose queue is the rest. The model's queue
is its own (the block's commands come from outside), so no rule of the spec is cited. Readings and choices of the model
that it rests on: log 2. -/
def Obligations.StepRunsFrontCommand : Prop :=
  ∀ (c : Instr) (s : State), step { s with pending := c :: s.pending } = exec c s

/-- With no command waiting, a step is one cycle of the AON clock (the model's choice, log 1): nothing happens while
POR_N is asserted, and otherwise AON_TIME counts on by one (R41). Readings and choices of the model that it rests on:
log 1. -/
def Obligations.IdleStepCountsAonTime : Prop :=
  ∀ s : State, s.pending = [] →
    ∃ t, step s = .next t ∧ t.pending = [] ∧ (if s.por then t = s else t.now = s.now + 1 ∧
      Touches [.now, .pac, .regions, .cells, .dram, .mem, .bpm, .rings, .alarms, .tu, .out, .freeIx] s t)

/-- No command stops the device or leaves it without a next state, and none disturbs the commands that wait behind it. -/
def Obligations.EveryCommandCompletes : Prop :=
  ∀ (c : Instr) (s : State), ∃ t, exec c s = .next t ∧ t.pending = s.pending

/-- The flash, the DRAM, the on-chip memory and every injection ring keep their canonical form over every step, from
every state. -/
def Obligations.StepKeepsMemoriesCanonical : Prop :=
  ∀ s t : State, s.memWf → step s = .next t → t.memWf

/-- The state after reset has memories in canonical form. Readings and choices of the model that it rests on: log 3, 4. -/
def Obligations.ResetMemoriesCanonical : Prop := State.reset.memWf

/-- The frame of every command: the parts of the state that `reach` does not list for it are unchanged. -/
def Obligations.CommandChangesOnlyItsReach : Prop :=
  ∀ (c : Instr) (s t : State), exec c s = .next t → Touches (reach c) s t

/-- A finer frame of every command that neither starts the device up nor burns fuses. -/
def Obligations.CommandKeepsIdentityAndStartup : Prop :=
  ∀ (c : Instr) (s t : State), boots c = false → burns c = false → exec c s = .next t →
    KeepsButFlash s t ∧ (programs c = false → t.flash.cells = s.flash.cells)

/-- The phases of AON_BOOT_STATUS: phase 0 exactly while POR_N is asserted, else one of the ten codes of R25. -/
def Obligations.StepKeepsLegalPhase : Prop :=
  ∀ s t : State, legalPhase s → step s = .next t → legalPhase t

/-- The phase after reset is one of the codes of AON_BOOT_STATUS: POR_N is asserted, and it reads 0. -/
def Obligations.ResetPhaseLegal : Prop := legalPhase State.reset

/-- The device leaves Held only through POR_N, and keeps its cause and boot time there. -/
def Obligations.HeldIsLeftOnlyThroughPor : Prop :=
  ∀ s t : State, legalPhase s → s.held = true → step s = .next t →
    s.pending.head? ≠ some .porAssert →
    t.held = true ∧ t.scu.cause = s.scu.cause ∧ t.scu.bootTime = s.scu.bootTime

/-- The straps are sampled once, at the deassertion of POR_N; no other command but its assertion changes them. -/
def Obligations.StrapsSampledOnce : Prop :=
  (∀ (split : Bool) (addr : Nat) (s : State), s.por = true → addr < 4 →
    ∃ t, exec (.porDeassert split addr) s = .next t ∧ t.aon.split = split ∧ t.aon.smbAddr = addr) ∧
  (∀ (c : Instr) (s t : State), s.por = false → c ≠ .porAssert → exec c s = .next t →
    t.aon.split = s.aon.split ∧ t.aon.smbAddr = s.aon.smbAddr)

/-! ### Start-up -/

/-- POR_N asserted resets every domain except AON: what stays is AON_TIME, the always-on status block but for the straps
and THERM_TRIP_N, the fuses and what they identify, the contents of the flash, the level of each PERST_N, what has been
sent, and the waiting commands. A header sector whose erase is cut short is left erased, and of the fuses only the slot
of a burn cut short may change. The deassertion samples the straps and starts phase FUSE, with AON_TIME at 0 and every
rail in range. Readings and choices of the model that it rests on: log 4, 22. -/
def Obligations.PorAssertResetsAndDeassertStarts : Prop :=
  (∀ s : State, ∃ t, exec .porAssert s = .next t ∧
    t = { State.reset with
      now := s.now, fuses := t.fuses, idSeed := s.idSeed, grade := s.grade, stepping := s.stepping
      flash := { (default : Flash) with cells := t.flash.cells }, ports := t.ports
      aon := { s.aon with split := false, smbAddr := 0, thermTrip := false }
      out := s.out, freeIx := t.freeIx, pending := s.pending } ∧
    (∀ p, t.port p = { (default : HostPort) with perst := (s.port p).perst }) ∧
    (s.flash.state ≠ 1 → t.flash.cells = s.flash.cells) ∧
    (s.flash.state = 1 → ∀ a, cellRead 0xFF t.flash.cells a =
      if bankBase s.flash.target ≤ a ∧ a < bankBase s.flash.target + 4096 then 0xFF else cellRead 0xFF s.flash.cells a) ∧
    (s.key.state ≠ 3 → t.fuses = s.fuses) ∧ ∀ i, i ≠ s.key.target → mget t.fuses i = mget s.fuses i) ∧
  ∀ (split : Bool) (addr : Nat) (s : State), s.por = true →
    ∃ t, exec (.porDeassert split addr) s = .next t ∧
      t = { s with
        now := 0, por := false, scu := { s.scu with phase := 1 }, dram := { s.dram with key := t.dram.key }
        regions := t.regions, aon := { s.aon with split := split, smbAddr := addr % 4 }, freeIx := t.freeIx } ∧
      ∀ r < 8, t.region r = { (default : Region) with pgood := true }

/-- Phase FUSE ends in phase DRAM: the always-on status block starts empty but for the straps, the level of each input
and THERM_TRIP_N, and each present port whose PERST_N is deasserted begins to train. Phase DRAM ends in phase FLASH with
the stacks that passed and the identity key made from the fuses, or in Held with cause 0x01 where no stack passed. A
phase that does not end within its bound ends in Held with cause 0x17. Readings and choices of the model that it rests
on: log 27. -/
def Obligations.FuseDramPhasesEndAndTimeouts : Prop :=
  (∀ s : State, s.scu.phase = 1 →
    ∃ t, exec .phaseFuseEnd s = .next t ∧
      t = { s with
        scu := { s.scu with phase := 2 }, ports := t.ports
        aon := { (default : Aon) with
          inputs := t.aon.inputs, split := s.aon.split, smbAddr := s.aon.smbAddr, thermTrip := s.aon.thermTrip } } ∧
      (∀ i, mget t.aon.inputs i = { (default : InputPin) with active := (mget s.aon.inputs i).active }) ∧
      ∀ p < 2, t.port p = { s.port p with training := portPresent s p && !(s.port p).perst }) ∧
  (∀ (a b : Bool) (s : State), s.scu.phase = 2 →
    ∃ t, exec (.phaseDramEnd a b) s = .next t ∧ t.scu.stack0 = a ∧ t.scu.stack1 = b ∧
      t.idKey = slhKeygen slh256f (idSeeds s) ∧
      (a = true ∨ b = true → t = { s with
        scu := { s.scu with stack0 := a, stack1 := b, phase := 3 }, idKey := slhKeygen slh256f (idSeeds s) }) ∧
      (a = false → b = false → entersHeld 0x01 s t)) ∧
  ∀ s : State, 1 ≤ s.scu.phase → s.scu.phase ≤ 8 → ∃ t, exec .phaseTimeout s = .next t ∧ entersHeld 0x17 s t

/-- R31 and R33: phase FLASH takes the bank with the one valid header, of two valid ones the one with the higher
generation, and bank A when they are equal; no valid header, a digest that differs from the header's, and a flash that
gives no data strobe end in Held with causes 0x03, 0x06 and 0x04. -/
def Obligations.FlashPhaseEnds : Prop :=
  (∀ s : State, s.scu.phase = 3 → ∃ t, exec .phaseFlashEnd s = .next t ∧
    (bankHeaderOk (bankHeader s 0) = false → bankHeaderOk (bankHeader s 1) = false → entersHeld 0x03 s t) ∧
    ∀ b < 2, bankHeaderOk (bankHeader s b) = true →
      bankHeaderOk (bankHeader s (1 - b)) = false ∨ bhGeneration (bankHeader s (1 - b)) < bhGeneration (bankHeader s b) ∨
        (bhGeneration (bankHeader s (1 - b)) = bhGeneration (bankHeader s b) ∧ b = 0) →
      t.scu.bank = b ∧
      (digest64 (cellReadBytes flashErased s.flash.cells (bankImage b) (bhLength (bankHeader s b))) = bhDigest (bankHeader s b) →
        t.scu.phase = 4 ∧
        t.scu.staging = some (cellReadBytes flashErased s.flash.cells (bankImage b) (bhLength (bankHeader s b)))) ∧
      (digest64 (cellReadBytes flashErased s.flash.cells (bankImage b) (bhLength (bankHeader s b))) ≠ bhDigest (bankHeader s b) →
        entersHeld 0x06 s t)) ∧
  ∀ s : State, s.scu.phase = 3 → ∃ t, exec .xspiDqsTimeout s = .next t ∧ entersHeld 0x04 s t

/-- Phases VERIFY and CHECK end in the next phase when every check passes, and in Held with the cause of the first check
that fails otherwise. Phase LOAD places the weights and tables of the image in DRAM and keeps the rest of its
configuration, frees the staging area, zeroes the context records, empties the pools, and starts phase SELFTEST with
every region, none being fenced, on its way up at VP0. Readings and choices of the model that it rests on: log 7, 30,
32. -/
def Obligations.VerifyCheckLoadPhasesEnd : Prop :=
  (∀ s : State, s.scu.phase = 4 → ∃ t, exec .phaseVerifyEnd s = .next t ∧
    (imageVerifyCause s (s.scu.staging.getD []) = 0 →
      t.scu.phase = 5 ∧ t.scu.m0 = s.scu.stagingDigest ∧ t.scu.mCur = s.scu.stagingDigest ∧ t.scu.moultSeq = 0) ∧
    (imageVerifyCause s (s.scu.staging.getD []) ≠ 0 → entersHeld (imageVerifyCause s (s.scu.staging.getD [])) s t)) ∧
  (∀ s : State, s.scu.phase = 5 → ∃ t, exec .phaseCheckEnd s = .next t ∧
    (imageCheckCause s (s.scu.staging.getD []) = 0 → t = { s with scu := { s.scu with phase := 6 } }) ∧
    (imageCheckCause s (s.scu.staging.getD []) ≠ 0 → entersHeld (imageCheckCause s (s.scu.staging.getD [])) s t)) ∧
  ∀ s : State, s.scu.phase = 6 → (∀ r < 8, (s.region r).fenced = false ∧ (s.region r).pgood = true) →
    let c := resultOf (s.scu.staging.getD []) none
    let places := imagePlaces (graphsStart c) c.graphs
    ∃ t, exec .phaseLoadEnd s = .next t ∧ t.scu.phase = 7 ∧ t.scu.cfg = some (storedConfig c places) ∧
      t.dram.mem = (loadImage s).dram.mem ∧ t.scu.staging = none ∧ t.store = State.reset.store ∧
      t.bpm = State.reset.bpm ∧ t.parts = [] ∧ t.devTuned = [] ∧
      ∀ r < 8, (t.region r).waking = true ∧ (t.region r).vp = 0

/-- Phase SELFTEST ends in phase PORTS: every cell that failed, block whose line store failed and region whose stores
failed is fenced, and nothing that was fenced is taken back. Phase PORTS ends in Imago, where AON_BOOT_TIME stops, the
cause stays, the PAC's counters are 0, and the idle time of every region begins. Readings and choices of the model that
it rests on: log 27. -/
def Obligations.SelftestAndPortsPhasesEnd : Prop :=
  (∀ (cells lines stores : List Nat) (s : State), s.scu.phase = 7 →
    ∃ t, exec (.phaseSelftestEnd cells lines stores) s = .next t ∧ t.scu.phase = 8 ∧
      (∀ c, (c ∈ cells ∧ c < 256) ∨ (s.cell c).fenced = true → (t.cell c).fenced = true) ∧
      (∀ b, (b ∈ lines ∧ b < 32) ∨ (s.block b).fenced = true → (t.block b).fenced = true) ∧
      ∀ r, (r ∈ stores ∧ r < 8) ∨ (s.region r).fenced = true → (t.region r).fenced = true) ∧
  ∀ s : State, s.scu.phase = 8 →
    ∃ t, exec .phasePortsEnd s = .next t ∧ t.imago = true ∧ t.held = false ∧ t.scu.bootTime = s.now ∧
      t.scu.cause = s.scu.cause ∧ t.scu.cfg = s.scu.cfg ∧ t.pac = { s.pac with ctr := [] } ∧
      ∀ r, mfind s.regions r ≠ none → (t.region r).busyAt = s.now

/-! ### Registers -/

/-- The selectors of BAR0 and BAR4-free plain registers of every function, with their writable bits. -/
def Sys2Proof.Machine.selectors : List (Nat × Word) :=
  [(0x0FD000, 0xF), (0x0FE000, 0x03FF000F), (0x0FE200, 0x01FF000F), (0x0FE300, 0x01FF000F), (0x0FE400, 0x01FF000F),
    (0x0FE500, 0xF), (0x0FE600, 0x03FF000F), (0x0FE700, 0x01FF000F), (0x0FE800, 0x01FF000F), (0x0FE900, 0x0007000F),
    (0x0FEA00, 0x000F000F)]

/-- A write of a selector of BAR0 sets its writable bits in the writing function's own copy, and a read returns them.
Readings and choices of the model that it rests on: log 21. -/
def Obligations.SelectorWriteAndRead : Prop :=
  ∀ (port fn : Nat) (q : Nat × Word) (v : Word) (s : State), s.por = false → fnTakes s port fn = true → q ∈ selectors →
    (∃ t, exec (.registerWrite port fn 0 q.1 v) s = .next t ∧
      freg (t.fn port fn) q.1 = (freg (s.fn port fn) q.1 &&& ~~~q.2) ||| (v &&& q.2) ∧
      (∀ off, off ≠ q.1 → freg (t.fn port fn) off = freg (s.fn port fn) off) ∧
      (∀ port' fn', fnIx port' fn' ≠ fnIx port fn → t.fn port' fn' = s.fn port' fn') ∧ Touches [.fns] s t) ∧
    ∃ t, exec (.barMemoryRead port fn 0 q.1) s = .next t ∧
      t = { s with out := .readData (.host port fn) 0 q.1 (freg (s.fn port fn) q.1) :: s.out }

/-- A read of the low word of a 64-bit counter latches the high word for the accessor, whatever else changes, and a read
of the high word returns what was latched. Readings and choices of the model that it rests on: log 21. -/
def Obligations.CounterLowReadLatchesHigh : Prop :=
  (∀ (port fn off v : Nat) (s : State), s.por = false → fnTakes s port fn = true → bar0Pair s port fn off = some v →
    ∃ t, exec (.counterLowRead (.host port fn) 0 off) s = .next t ∧
      t.out = .readData (.host port fn) 0 off (loWord v) :: s.out ∧
      heldWord t (.host port fn) 0 (off + 4) = hiWord v ∧
      (∀ (bar' off' port' fn' : Nat), (fnIx port' fn', holdKey bar' off') ≠ (fnIx port fn, holdKey 0 (off + 4)) →
        heldWord t (.host port' fn') bar' off' = heldWord s (.host port' fn') bar' off') ∧ Touches [.fns, .out] s t) ∧
  ∀ (port fn off v : Nat) (s : State), s.por = false → fnTakes s port fn = true → bar0Pair s port fn off = some v →
    ∃ t, exec (.barMemoryRead port fn 0 (off + 4)) s = .next t ∧
      t = { s with out := .readData (.host port fn) 0 (off + 4) (heldWord s (.host port fn) 0 (off + 4)) :: s.out }

/-- A misaligned access has no effect but a log, and its read data is zero; an access to the window of a region whose
clock is stopped is discarded without a completion, counted and logged. Readings and choices of the model that it rests
on: log 9, 21, 26. -/
def Obligations.MisalignedAndStoppedAccesses : Prop :=
  (∀ (port fn bar off size : Nat) (write : Bool) (s : State), s.por = false → fnTakes s port fn = true →
    barExists s fn bar = true → bar ≠ 2 → ¬(size = 4 ∧ off % 4 = 0) →
    ∃ t, exec (.misalignedAccess (.host port fn) bar off size write) s = .next t ∧ Touches reachReport s t ∧
      t = raiseLog { s with out := (if write then [] else [.readData (.host port fn) bar off 0]) ++ s.out } (uHp + port)) ∧
  (∀ (port region off : Nat) (write : Bool) (s : State), fnTakes s port 0 = true → (s.region region).awake = false →
    ∃ t, exec (.stoppedWindowAccess port 0 region off write) s = .next t ∧ Touches (.ports :: reachReport) s t ∧
      t = raiseLog (hpCount s port 7 1) (uRg + region) ∧
      mget (t.port port).ctr 7 = satAdd (2 ^ 64 - 1) (mget (s.port port).ctr 7) 1)

/-- A write of the injection window stores its bytes in the ring, and nowhere else; one marked poisoned is discarded and
counted. Readings and choices of the model that it rests on: log 21. -/
def Obligations.InjectionWindowWrite : Prop :=
  ∀ (port fn off : Nat) (data : Bytes) (s : State), s.por = false → s.imago = true → fnTakes s port fn = true →
    (s.inj port fn).enabled = true → s.memWf →
    (∃ t, exec (.barMemoryWrite port fn off data false) s = .next t ∧
      (∀ a, cellRead 0 (t.inj port fn).bytes a =
        if off ≤ a ∧ a < off + data.length ∧ a < injSize (s.inj port fn) then data.getD (a - off) 0
        else cellRead 0 (s.inj port fn).bytes a) ∧ Touches [.fns] s t) ∧
    ∃ t, exec (.barMemoryWrite port fn off data true) s = .next t ∧ t = hpCount s port 5 1

/-- A configuration read returns the register, a configuration write of Interrupt Line sets it, a write of PMCSR moves
the function to D3hot and the link follows, and a write of AON_PARK_HOLD sets the port's hold bits alone. Readings and
choices of the model that it rests on: log 21, 43. -/
def Obligations.ConfigurationAndHolds : Prop :=
  (∀ (port fn reg : Nat) (s : State), s.por = false → s.imago = true → configReady s port fn = true →
    ∃ t, exec (.configRequest port fn reg none) s = .next t ∧
      t = { s with out := .configData port fn reg (configRead s port fn reg) :: s.out }) ∧
  (∀ (port fn : Nat) (v : Word) (s : State), s.por = false → s.imago = true → configReady s port fn = true →
    ∃ t, exec (.configRequest port fn 0x3C (some v)) s = .next t ∧ mget (t.fn port fn).config 0x3C = v ∧
      t.out = .writeDone port fn :: s.out ∧ Touches [.fns, .out] s t) ∧
  (∀ (port fn : Nat) (s : State), configReady s port fn = true → (s.fn port fn).dstate = 0 →
    ∃ t, exec (.dStateChange port fn 3) s = .next t ∧ (t.fn port fn).dstate = 3 ∧ Touches [.fns, .ports] s t ∧
      (linkUp (s.port port) = true → (t.port port).link = if allD3 t port then 2 else 1)) ∧
  (∀ (port : Nat) (v : Word) (s : State), fnTakes s port 0 = true →
    ∃ t, exec (.parkHoldWrite port v) s = .next t ∧ (t.port port).hold = wbits v 7 0 ∧
      ∀ p, p ≠ port → t.port p = s.port p)

/-! ### Tunables and Moult -/

/-- A tunable command issued where none is in progress is checked and stays in progress with its own outcome; in Held it
has the result 0x01 and no other effect, and one issued while another is in progress the result 0x05 and no other
effect. When a command in progress completes, its own outcome is the result. One that passed its check writes its
parameter, for the device or for its partition and every stream of it, reads it into TUNE_VALUE, or writes it and reads
back what it wrote; one that did not changes nothing else. Readings and choices of the model that it rests on: log 20,
33. -/
def Obligations.TunableCommands : Prop :=
  (∀ (port fn kind : Nat) (i : Instr) (s : State),
    (kind, i) ∈ [(1, Instr.tuneWrite port fn false), (3, Instr.tuneWrite port fn true), (2, Instr.tuneRead port fn)] →
    fnTakes s port fn = true → s.scu.restarting = false →
    ∃ t, exec i s = .next t ∧ Touches [.fns] s t ∧ (∀ p f, fnIx p f ≠ fnIx port fn → t.fn p f = s.fn p f) ∧
      ((s.fn port fn).tuneCmd = none → s.held = false →
        t.fn port fn = { s.fn port fn with tuneCmd := some ⟨kind, wbits (freg (s.fn port fn) offTuneSel) 15 0,
          freg (s.fn port fn) offTuneVal, tuneCheck s port fn kind (wbits (freg (s.fn port fn) offTuneSel) 15 0)
            (toSigned 32 (freg (s.fn port fn) offTuneVal).toNat)⟩ }) ∧
      ((s.fn port fn).tuneCmd = none → s.held = true → t.fn port fn = { s.fn port fn with tuneResult := 0x01 }) ∧
      ((s.fn port fn).tuneCmd ≠ none → t.fn port fn = { s.fn port fn with tuneResult := 0x05 })) ∧
  ∀ (port fn : Nat) (c : TuneCmd) (s : State), s.scu.restarting = false → (s.fn port fn).tuneCmd = some c →
    ∃ t, exec (.tuneComplete port fn) s = .next t ∧ Touches [.fns, .streams, .parts, .devTuned] s t ∧
      (t.fn port fn).tuneCmd = none ∧ (t.fn port fn).tuneResult = c.result ∧
      (c.result ≠ 0x00 → t = s.updFn port fn (fun f => { f with tuneCmd := none, tuneResult := c.result })) ∧
      ∀ d, c.result = 0x00 → tuneDecl s port fn c.param = some d →
        let v := toSigned 32 c.value.toNat
        (c.kind = 1 ∨ c.kind = 3 →
          (tuScope d = 0 → mfind t.devTuned c.param = some v ∧ Touches [.fns, .devTuned] s t) ∧
          (tuScope d ≠ 0 → mfind (t.part (tuPart d)).tuned c.param = some v ∧
            (∀ i ∈ planSlots s (tuPart d), mfind (t.stream i).tun c.param = some v) ∧
            (∀ p, p ≠ tuPart d → t.part p = s.part p) ∧ Touches [.fns, .streams, .parts] s t)) ∧
        (c.kind = 2 → freg (t.fn port fn) offTuneVal = BitVec.ofNat 32 (ofSigned 32 (tuneReadValue s d)) ∧ Touches [.fns] s t) ∧
        (c.kind = 3 → freg (t.fn port fn) offTuneVal = c.value)

/-- The states of a Moult up to CHECK: go begins the one read of the container, abort and every failed check end in
REJECTED with their cause, and the checks that pass lead to the next state. Readings and choices of the model that it
rests on: log 7, 25, 30. -/
def Obligations.MoultProgress : Prop :=
  (∀ s : State, fnTakes s 0 0 = true → s.held = false → s.scu.restarting = false → moultBusy s = false →
    (∃ t, exec (.moultGo false) s = .next t ∧ Touches [.moult, .rings, .out] s t ∧
      (moultLen s ≤ 64 * 2 ^ 20 → t.moult.state = 1 ∧ t.moult.cause = 0 ∧ Touches [.moult, .out] s t) ∧
      (64 * 2 ^ 20 < moultLen s → t.moult.state = 7 ∧ t.moult.cause = 0x05 ∧ wbit (t.fn 0 0).irqStatus 19 = true))) ∧
  (∀ s : State, fnTakes s 0 0 = true → s.held = false → s.scu.restarting = false → moultEarly s = true →
    ∃ t, exec .moultAbort s = .next t ∧ t.moult.state = 7 ∧ t.moult.cause = 0x25 ∧ t.moult.next = none ∧
      wbit (t.fn 0 0).irqStatus 19 = true ∧ Touches [.moult, .rings] s t) ∧
  (∀ (r : HostRead) (s : State), s.moult.state = 1 → ∃ t, exec (.moultFetchEnd r) s = .next t ∧
    match hpaData s r (moultLen s) with
    | none => t.moult.state = 7 ∧ t.moult.cause = 0x22 ∧ wbit (t.fn 0 0).irqStatus 19 = true ∧
        t.ports = (readCount s 0 0 r).ports ∧ Touches [.moult, .rings, .ports] s t
    | some b => Touches [.moult] s t ∧ t.moult.state = 2 ∧ t.moult.container = b ∧ t.moult.keyState = keySlotState s (ctKeySlot b)) ∧
  (∀ s : State, s.moult.state = 2 → ∃ t, exec .moultVerifyEnd s = .next t ∧ Touches [.moult, .rings] s t ∧
    (moultVerifyCause s s.moult.container = 0 → t = { s with moult := { s.moult with state := 3 } }) ∧
    (moultVerifyCause s s.moult.container ≠ 0 →
      t.moult.state = 7 ∧ t.moult.cause = moultVerifyCause s s.moult.container ∧ wbit (t.fn 0 0).irqStatus 19 = true)) ∧
  ∀ s : State, s.moult.state = 3 → ∃ t, exec .moultCheckEnd s = .next t ∧ Touches [.moult, .rings] s t ∧
    (moultCheckCause s s.moult.container = 0 →
      t.moult.state = 4 ∧ t.moult.next = some (resultOf s.moult.container (some s.run))) ∧
    (moultCheckCause s s.moult.container ≠ 0 → t.moult.state = 7 ∧ t.moult.cause = moultCheckCause s s.moult.container)

/-- STAGE ends in REJECTED with cause 0x23 where free DRAM has no room for some new graph, and in the commit instant
otherwise: the resulting configuration runs, its new graphs at the places found for them, and the affected streams wait
to switch. When the bound ends of a stream that has not switched, it waits no longer: one that continues switches to the
new configuration, one that the plan no longer has is removed, and one that it takes anew is removed and then added. The
Moult is applied, which moves the measurement and MOULT_SEQ on, once no stream is left to switch or to add. Readings and
choices of the model that it rests on: log 25, 32. -/
def Obligations.MoultCommitAndSwitch : Prop :=
  (∀ (n : Sections) (s : State), s.moult.state = 4 → s.moult.next = some n →
    ∃ t, exec .moultStageEnd s = .next t ∧
      (stagePlaces s (newGraphs n) (placedRanges s) = none →
        t.moult.state = 7 ∧ t.moult.cause = 0x23 ∧ t.scu = s.scu ∧ wbit (t.fn 0 0).irqStatus 19 = true ∧
          Touches [.moult, .rings] s t) ∧
      ∀ places, stagePlaces s (newGraphs n) (placedRanges s) = some places →
        t.scu.cfg = some (stagedConfig n places) ∧ t.moult.commitAt = s.now ∧
        t.moult.waiting = affectedSlots s.run (stagedConfig n places) ∧
        (t.moult.state = 5 ∨ (t.moult.state = 6 ∧ t.moult.waiting = [] ∧ t.moult.adds = []))) ∧
  ∀ (slot : Nat) (s : State), s.moult.state = 5 → slot ∈ s.moult.waiting →
    ∃ t, exec (.moultSwitchTimeout slot) s = .next t ∧ t.moult.waiting = s.moult.waiting.filter (· != slot) ∧
      t.scu.cfg = s.scu.cfg ∧
      (∃ u, t = moultFinish (moultAdds (moultSeqNew s) u.moult.adds u) ∧
        (switchKind (s.cfgAt slot) s.run slot = .continues →
          u.moult.adds = s.moult.adds ∧ Touches [.moult] (switchContinue s slot (moultSeqNew s)) u) ∧
        (switchKind (s.cfgAt slot) s.run slot = .removed →
          u.moult.adds = s.moult.adds ∧ Touches [.moult] (streamRemove s slot 1) u) ∧
        (switchKind (s.cfgAt slot) s.run slot = .readded →
          u.moult.adds = s.moult.adds ++ [slot] ∧ Touches [.moult] (streamRemove s slot 1) u)) ∧
      (t.moult.state = 5 ∨ (t.moult.state = 6 ∧ t.moult.waiting = [] ∧ t.moult.adds = [] ∧
        t.scu.mCur = digest64 (s.scu.mCur ++ digest64 s.moult.container) ∧
        t.scu.moultSeq = (s.scu.moultSeq + 1) % 2 ^ 32))

/-! ### Flash -/

/-- The programming of an image, step by step: each command that the operation waits for leads to the next state, and
changes in the flash only the bytes it erases or programs. Readings and choices of the model that it rests on: log 3,
25, 28. -/
def Obligations.FlashProgramming : Prop :=
  (∀ s : State, fnTakes s 0 0 = true → s.scu.restarting = false → flashBusy s = false →
    ∃ t, exec .flashProgram s = .next t ∧ t.flash.cells = s.flash.cells ∧
      (flashLen s ≤ 0x03FFF000 → t.flash.state = 1 ∧ t.flash.cause = 0 ∧ t.flash.image = none ∧
        t.flash.target = (if s.held then wbits (freg (s.fn 0 0) 0x0FF20C) 2 2 else 1 - s.scu.bank)) ∧
      (0x03FFF000 < flashLen s → t.flash.state = 7 ∧ t.flash.cause = 0x05)) ∧
  (∀ s : State, s.flash.state = 1 → s.memWf →
    ∃ t, exec .flashEraseDone s = .next t ∧ t.flash.state = 2 ∧ Touches [.flash, .out] s t ∧
      ∀ a, cellRead 0xFF t.flash.cells a =
        if bankBase s.flash.target ≤ a ∧ a < bankBase s.flash.target + 4096 then 0xFF else cellRead 0xFF s.flash.cells a) ∧
  (∀ (r : HostRead) (s : State), s.flash.state = 2 → s.flash.image = none →
    ∃ t, exec (.flashHostReadDone r) s = .next t ∧ t.flash.cells = s.flash.cells ∧
      match hpaData s r (flashLen s) with
      | none => t.flash.state = 7 ∧ t.flash.cause = 0x22
      | some b => t.flash.image = some b ∧ t.flash.done = 0 ∧ t.flash.state = if b = [] then 3 else 2) ∧
  ∀ (b : Bytes) (s : State), s.flash.state = 2 → s.flash.image = some b → s.memWf →
    (∃ t, exec (.flashPageProgramDone false) s = .next t ∧ Touches [.flash] s t ∧
      t.flash.done = s.flash.done + (slice b s.flash.done 256).length ∧
      t.flash.state = (if b.length ≤ t.flash.done then 3 else 2) ∧
      ∀ a, cellRead 0xFF t.flash.cells a =
        if bankImage s.flash.target + s.flash.done ≤ a ∧ a < bankImage s.flash.target + t.flash.done
        then (slice b s.flash.done 256).getD (a - (bankImage s.flash.target + s.flash.done)) 0
        else cellRead 0xFF s.flash.cells a) ∧
    ∃ t, exec (.flashPageProgramDone true) s = .next t ∧ t.flash.state = 7 ∧ t.flash.cause = 0x30 ∧
      t.flash.cells = s.flash.cells ∧ wbit (t.fn 0 0).irqStatus 20 = true

/-- The end of an operation: READY only after the read-back agrees and passes the checks of R38; select writes a header
of the next generation into the target bank alone; a timeout fails the operation with cause 0x30. Readings and choices
of the model that it rests on: log 7, 20, 28. -/
def Obligations.FlashReadbackAndSelect : Prop :=
  (∀ (b : Bytes) (s : State), s.flash.state = 3 → s.flash.image = some b →
    ∃ t, exec .flashReadbackDone s = .next t ∧ Touches [.flash, .rings] s t ∧ t.flash.cells = s.flash.cells ∧
      wbit (t.fn 0 0).irqStatus 20 = true ∧
      let back := cellReadBytes 0xFF s.flash.cells (bankImage s.flash.target) b.length
      (digest64 back ≠ digest64 b → t.flash.state = 7 ∧ t.flash.cause = 0x31) ∧
      (digest64 back = digest64 b → precheckCause s back ≠ 0 → t.flash.state = 7 ∧ t.flash.cause = precheckCause s back) ∧
      (digest64 back = digest64 b → precheckCause s back = 0 → t.flash.state = 5 ∧ t.flash.cause = 0)) ∧
  (∀ (b : Bytes) (s : State), fnTakes s 0 0 = true → s.scu.restarting = false → s.flash.state = 5 → s.flash.image = some b →
    s.memWf →
    ∃ t, exec .flashSelect s = .next t ∧ t.flash.state = 6 ∧ t.flash.cause = 0 ∧ wbit (t.fn 0 0).irqStatus 20 = true ∧
      Touches [.flash, .rings] s t ∧ ∀ a, cellRead 0xFF t.flash.cells a =
        if bankBase s.flash.target ≤ a ∧ a < bankBase s.flash.target + 128
        then (bankHeaderBytes (nextGeneration s) b.length (digest64 b)).getD (a - bankBase s.flash.target) 0
        else cellRead 0xFF s.flash.cells a) ∧
  ∀ s : State, s.flash.state = 1 ∨ s.flash.state = 2 →
    ∃ t, exec .flashOpTimeout s = .next t ∧ t.flash.state = 7 ∧ t.flash.cause = 0x30 ∧ t.flash.cells = s.flash.cells ∧
      wbit (t.fn 0 0).irqStatus 20 = true ∧ Touches [.flash, .rings] s t

/-! ### Keys and attestation -/

/-- The three key commands: a go reads the command file where the function may issue requests; the file read is checked
and burned, or refused with its result code; the end of the burn programs or revokes the target slot alone, and a burn
that fails ends with result 0x09. Readings and choices of the model that it rests on: log 5, 7, 25, 29. -/
def Obligations.KeyCommands : Prop :=
  (∀ s : State, fnTakes s 0 0 = true → s.scu.restarting = false → keyBusy s = false →
    ∃ t, exec .keyGo s = .next t ∧ t.key.state = 1 ∧ t.key.result = 0 ∧ Touches [.key, .out] s t ∧
      t.out = (if canIssue (s.fn 0 0) then [.hostRead 0 0 (hostAddr (s.fn 0 0) 0x0FF300 0x0FF304) 30048] else []) ++ s.out) ∧
  (∀ (r : HostRead) (s : State), s.key.state = 1 → ∃ t, exec (.keyReadDone r) s = .next t ∧
    t.ports = (readCount s 0 0 r).ports ∧ Touches [.key, .rings, .ports] s t ∧
    match hpaData s r 30048 with
    | none => t.key.state = 5 ∧ t.key.result = 0x08 ∧ wbit (t.fn 0 0).irqStatus 21 = true
    | some b =>
      (keyCause s b = 0 →
        t.key.state = 3 ∧ t.key.target = kcTarget b ∧ t.key.op = kcOp b ∧ t.key.newHash = kcHash b) ∧
      (keyCause s b ≠ 0 → t.key.state = 5 ∧ t.key.result = keyCause s b ∧ wbit (t.fn 0 0).irqStatus 21 = true)) ∧
  ∀ s : State, s.key.state = 3 → s.scu.restarting = false →
    (∃ t, exec (.keyBurnDone true) s = .next t ∧ t.key.state = 4 ∧ t.key.result = 0 ∧ wbit (t.fn 0 0).irqStatus 21 = true ∧
      Touches [.fuses, .key, .rings] s t ∧
      mget t.fuses s.key.target = (if s.key.op = 1 then
        { mget s.fuses s.key.target with hash := s.key.newHash, programmed := 0xFF }
        else { mget s.fuses s.key.target with revoked := 0xFF }) ∧
      ∀ i, i ≠ s.key.target → mget t.fuses i = mget s.fuses i) ∧
    ∃ t, exec (.keyBurnDone false) s = .next t ∧ t.key.state = 5 ∧ t.key.result = 0x09 ∧
      wbit (t.fn 0 0).irqStatus 21 = true ∧ (mget t.fuses s.key.target).programmed = (mget s.fuses s.key.target).programmed ∧
      (s.key.op ≠ 1 → (mget t.fuses s.key.target).hash = (mget s.fuses s.key.target).hash) ∧
      ∀ i, i ≠ s.key.target → mget t.fuses i = mget s.fuses i

/-- The key command in progress is the one that the checks passed: nothing but a command read that passes all of them
brings a key command to BURNING, and only the end of a burn, or POR_N asserted in the middle of one, changes a fuse.
Readings and choices of the model that it rests on: log 7, 29. -/
def Obligations.FusesChangeOnlyByCheckedCommand : Prop :=
  ∀ (c : Instr) (s t : State), exec c s = .next t →
    (t.key.state = 3 → (s.key.state = 3 ∧ (t.key.target, t.key.op, t.key.newHash) = (s.key.target, s.key.op, s.key.newHash)) ∨
      ∃ r b, c = .keyReadDone r ∧ hpaData s r 30048 = some b ∧ keyCause s b = 0 ∧
        (t.key.target, t.key.op, t.key.newHash) = (kcTarget b, kcOp b, kcHash b)) ∧
    (t.fuses ≠ s.fuses → s.key.state = 3 ∧ ((∃ ok, c = .keyBurnDone ok) ∨ c = .porAssert))

/-- Attestation: a request is queued, its report's fields are captured as its signing starts, and it ends with the
report written in ascending address, in writes of at most the Max_Payload_Size, where its function may issue requests,
and with result 1 and nothing written where it may not. Readings and choices of the model that it rests on: log 7, 25,
49. -/
def Obligations.AttestationRequests : Prop :=
  (∀ (port fn : Nat) (s : State), fnTakes s port fn = true → s.scu.restarting = false →
    ∃ t, exec (.attGo port fn) s = .next t ∧ Touches [.fns, .signer] s t ∧
      (attBusy (s.fn port fn).att = false → (t.fn port fn).att = ⟨1, 0⟩ ∧ t.signer.queue = s.signer.queue ++ [fnIx port fn]) ∧
      (attBusy (s.fn port fn).att = true →
        (t.fn port fn).att = { (s.fn port fn).att with cause := 4 } ∧ t.signer = s.signer)) ∧
  (∀ (k : Nat) (l : List Nat) (s : State), s.signer.signing = none → s.signer.queue = k :: l → s.scu.restarting = false →
    ∃ t, exec .attSignStart s = .next t ∧ Touches [.fns, .signer] s t ∧
      t.signer = ⟨l, some k, attBody s (k / 4) (k % 4)⟩ ∧ (t.fn (k / 4) (k % 4)).att.state = 2) ∧
  ∀ (k : Nat) (s : State), s.signer.signing = some k →
    ∃ t, exec .attSignDone s = .next t ∧ t.signer.signing = none ∧ t.signer.queue = s.signer.queue ∧
      wbit (t.fn (k / 4) (k % 4)).irqStatus 21 = true ∧ Touches [.fns, .rings, .signer, .out] s t ∧
      (t.fn (k / 4) (k % 4)).att = (if canIssue (s.fn (k / 4) (k % 4)) then ⟨4, 0⟩ else ⟨5, 1⟩) ∧
      t.out = if canIssue (s.fn (k / 4) (k % 4)) then
          (hostWrites (k / 4) (k % 4) (blocksOf (maxPayload (s.fn (k / 4) (k % 4)))
            (ceilDiv 50368 (maxPayload (s.fn (k / 4) (k % 4)))) (attReport s s.signer.body))
            (hostAddr (s.fn (k / 4) (k % 4)) offAttLo offAttHi) s).out
        else s.out

/-! ### Network ingest -/

/-- A frame received on a port with link is counted, and the first check that fails drops it and counts it; an ARP
request for the port's address is answered within the rate limit; a datagram that no stream matches is counted, and any
other is offered to each stream that it matches. Readings and choices of the model that it rests on: log 34. -/
def Obligations.FrameReceiveChecks : Prop :=
  ∀ (np : Nat) (frame : Bytes) (s : State), s.imago = true → (s.np np).link = true → unitDown s uIngress = false →
    ∃ t, exec (.frameReceive np frame) s = .next t ∧
      (∀ k, rxFrame (cfgNet s.run np) frame = .drop k → t = npCount (npCount s np 0 1) np k 1) ∧
      ((frame.length < 18 ∨ crc32 (frame.take (frame.length - 4)) ≠ le32 frame (frame.length - 4)) →
        t = npCount (npCount s np 0 1) np 1 1) ∧
      (∀ b, rxFrame (cfgNet s.run np) frame = .arp b → 28 ≤ b.length → beAt b 0 2 = 1 → beAt b 2 2 = 0x0800 →
        beAt b 6 2 = 1 → beAt b 24 4 = neAddr4 (cfgNet s.run np) → (s.np np).responses < 1000 →
        t.out = .neighborReply np (v4mapped (beAt b 14 4)) :: s.out ∧
          (t.np np).responses = (s.np np).responses + 1 ∧ Touches [.nps, .out] s t) ∧
      ∀ src dst sport dport b, rxFrame (cfgNet s.run np) frame = .udp src dst sport dport b →
        t = (let ms := (mkeys s.streams).filterMap (fun i => (streamMatches s np dst dport i).map (fun r => (i, r)))
          if ms.isEmpty then npCount (npCount s np 0 1) np 7 1
          else datagramOffers src sport b (decide (1 < ms.length)) ms (npCount s np 0 1))

/-- The link of a network port, its membership reports and its control limit. A port released by Imago entry that is
enabled gains its link, and reports the group of a stream that joins one, to be reported once more. A port that loses
its link drops the queries, next hops and packets that wait, and keeps its counters. The delay of a query ends in the
report of the group that it asks for; that of a group-and-source query in one of the sources it names that a join-2
stream takes. The second report of a stream is like its first. The 1 s interval of the control limit starts again at 0.
Readings and choices of the model that it rests on: log 13, 34. -/
def Obligations.EthernetLinkAndReports : Prop :=
  let report := fun (s : State) (slot : Nat) (change : Bool) =>
    let e := s.se slot
    let old := mcastOld s (seSource e) (seAddr e)
    Out.membership (seSource e) (seAddr e) (seJoin e = 2 && !old) (if old then [] else joinSources e)
      (mcastVersion s (seSource e) (seAddr e)) change
  (∀ (np : Nat) (s : State), s.imago = true → neEnabled (cfgNet s.run np) = true → (s.np np).link = false →
    ∃ t, exec (.ethLinkUp np) s = .next t ∧ (t.np np).link = true ∧ Touches [.nps, .streams, .out] s t ∧
      (joinedSlots s np 0 = [] → t.out = s.out ∧ t.streams = s.streams) ∧
      ∀ i, joinedSlots s np 0 = [i] → (s.stream i).live = true → seNet (s.se i) = true → seJoin (s.se i) ≠ 0 →
        seSource (s.se i) = np → t.out = report s i true :: s.out ∧ (t.stream i).ing.report2 = true) ∧
  (∀ (np : Nat) (s : State), ∃ t, exec (.ethLinkDown np) s = .next t ∧
    t.np np = { s.np np with link := false, queries := [], oldUntil4 := 0, oldUntil6 := 0, hops := [], waiting := [] } ∧
    (∀ p, p ≠ np → t.np p = s.np p) ∧ Touches [.nps] s t) ∧
  (∀ (np g i : Nat) (srcs : List Nat) (l : List (Nat × List Nat)) (s : State), (s.np np).queries = (g, srcs) :: l →
    joinedSlots s np g = [i] → seSource (s.se i) = np →
    ∃ t, exec (.queryResponseTimer np) s = .next t ∧ (t.np np).queries = l ∧ Touches [.nps, .out] s t ∧
      (srcs = [] ∨ mcastOld s np g = true → t.out = report s i false :: s.out) ∧
      (srcs ≠ [] → mcastOld s np g = false → seJoin (s.se i) = 2 →
        t.out = (if srcs.filter (· == seSsm (s.se i)) = [] then [] else
          [.membership np g true (srcs.filter (· == seSsm (s.se i))) (mcastVersion s np g) false]) ++ s.out)) ∧
  (∀ (slot : Nat) (s : State), (s.stream slot).ing.report2 = true → (s.stream slot).live = true →
    (s.np (seSource (s.se slot))).link = true →
    ∃ t, exec (.unsolicitedReportTimer (seSource (s.se slot)) slot) s = .next t ∧ (t.stream slot).ing.report2 = false ∧
      Touches [.nps, .streams, .out] s t ∧ t.out = report s slot true :: s.out) ∧
  ∀ (np : Nat) (s : State), ∃ t, exec (.controlRateWindow np) s = .next t ∧ t.np np = { s.np np with responses := 0 } ∧
    (∀ p, p ≠ np → t.np p = s.np p) ∧ Touches [.nps] s t

/-- A next hop that does not answer loses what waited for it, which counter 8 of R303 counts for a stream and the
telemetry path's counts of lost events for telemetry; every live stream's bucket gains its rate up to its depth.
Readings and choices of the model that it rests on: log 13. -/
def Obligations.NextHopAndBuckets : Prop :=
  (∀ (np hop : Nat) (s : State),
    ∃ t, exec (.nextHopTimeout np hop) s = .next t ∧ mget (t.np np).waiting hop = [] ∧ t.out = s.out ∧
      (∀ slot o, mget (s.np np).waiting hop = [(slot + 1, o)] →
        mget (t.stream slot).tds 8 = satAdd (2 ^ 64 - 1) (mget (s.stream slot).tds 8) 1 ∧
        (∀ i, i ≠ slot → t.stream i = s.stream i) ∧ Touches [.nps, .streams] s t) ∧
      ∀ o, mget (s.np np).waiting hop = [(0, o)] →
        t = telemetryDropped (s.updNp np (fun p => { p with waiting := mdel p.waiting hop })) o) ∧
  ∀ s : State, ∃ t, exec .bucketRefill s = .next t ∧ Touches [.streams] s t ∧
    ∀ i, t.stream i = if (s.stream i).live then
      { s.stream i with ing := { (s.stream i).ing with
        tokens := min (bucketDepth (s.se i)) ((s.stream i).ing.tokens + seBitrate (s.se i)) } } else s.stream i

/-- Timers of ingest: the lock of a silent source is released and a log recorded, a jump without a second packet is
counted in 3, a missing PMT is logged and not logged again, the packets missing before the first held one are counted in
5 as lost and the held ones taken up from there, and the alignment of an access unit is decided when its wait ends.
Readings and choices of the model that it rests on: log 9, 23, 34. -/
def Obligations.IngestTimers : Prop :=
  (∀ (slot : Nat) (s : State), (s.stream slot).live = true → (s.stream slot).ing.locked = true ∨ (s.stream slot).ing.ssrc.isSome = true →
    ∃ t, exec (.sourceLockTimeout slot) s = .next t ∧
      (t.stream slot).ing = { (s.stream slot).ing with locked := false, ssrc := none, silent := true, relock := true } ∧
      (∀ i, i ≠ slot → t.stream i = s.stream i) ∧
      t = alignGroup (raiseLogOf { s with streams := t.streams } uIngress (slotPart s slot) slot) slot) ∧
  (∀ (slot : Nat) (s : State), (s.stream slot).ing.jumper ≠ none →
    ∃ t, exec (.rtpJumpTimeout slot) s = .next t ∧ (t.stream slot).ing.jumper = none ∧
      mget (t.stream slot).ing.ctr 3 = satAdd (2 ^ 64 - 1) (mget (s.stream slot).ing.ctr 3) 1 ∧
      (∀ i, i ≠ slot → t.stream i = s.stream i) ∧ Touches [.streams] s t) ∧
  (∀ (slot : Nat) (s : State), (s.stream slot).live = true → seTransport (s.se slot) = 2 ∨ seTransport (s.se slot) = 3 →
    (s.stream slot).ing.ts.videoPid = none →
    ∃ t, exec (.pmtWaitTimeout slot) s = .next t ∧
      ((s.stream slot).ing.ts.pmtLogged = true → t = s) ∧
      ((s.stream slot).ing.ts.pmtLogged = false →
        t = raiseLogOf { s with streams := t.streams } uParser (slotPart s slot) slot ∧
        (t.stream slot).ing.ts = { (s.stream slot).ing.ts with pmtLogged := true } ∧
        ∀ i, i ≠ slot → t.stream i = s.stream i)) ∧
  (∀ (slot : Nat) (k : RtpPkt) (l : List RtpPkt) (n : Int) (s : State), (s.stream slot).ing.rtpHeld = k :: l →
    (s.stream slot).ing.rtpNext = some n →
    ∃ t, exec (.rtpGapTimeout slot) s = .next t ∧
      t = rtpDrain slot (l.length + 1) (((auDamage (ingCount s slot 5 (k.ext - n).toNat) slot).updIng slot
        (fun g => { g with inFrag := false })).updIng slot (fun g => { g with rtpNext := some k.ext }))) ∧
  ∀ (slot au fid : Nat) (f : Frame) (s : State), s.frames.find? (fun p => p.2.slot == slot && p.2.au == au) = some (fid, f) →
    mfind s.frames fid = some f → f.aligned = false → frameEnded f = false →
    ∃ t, exec (.alignmentTimeout slot au) s = .next t ∧ (t.frame fid).aligned = true ∧ 2 ≤ (t.frame fid).stage ∧
      (cfgGroup (frameCfg s f) f.slot = none → (t.frame fid).refs = []) ∧
      (∀ g T, cfgGroup (frameCfg s f) f.slot = some g → f.ref = some T → cfgEmits (frameCfg s f) f.slot = true →
        pcrDiffers s g = false → (t.frame fid).refs = alignRefs s g f.slot T) ∧
      Touches [.frames, .out] s t

/-! ### Host injection -/

/-- Enabling a ring with its configuration right starts to zero it over the buffers taken for it, and any other is
refused for its size; the end of the zeroing starts the scan at offset 0; disabling it unbinds its streams and keeps the
enable count alone. Readings and choices of the model that it rests on: log 35. -/
def Obligations.InjectionEnableAndDisable : Prop :=
  (∀ (port fn k p : Nat) (s u : State) (got : List Nat), s.imago = true → fnTakes s port fn = true →
    (s.inj port fn).enabled = false → (s.inj port fn).zeroing = false →
    20 ≤ wbits (freg (s.fn port fn) 0x0FE100) 4 0 → wbits (freg (s.fn port fn) 0x0FE100) 4 0 ≤ 28 →
    wbits (freg (s.fn port fn) 0x0FE108) 31 4 * 16 + (freg (s.fn port fn) 0x0FE10C).toNat * 2 ^ 32 ≠ 0 →
    injPool s.run (2 ^ wbits (freg (s.fn port fn) 0x0FE100) 4 0) = some k → partOfFn s port fn = some p →
    allocMany p k (2 ^ wbits (freg (s.fn port fn) 0x0FE100) 4 0 / poSize (cfgPool s.run k)) s = (got, u) →
    got.length = 2 ^ wbits (freg (s.fn port fn) 0x0FE100) 4 0 / poSize (cfgPool s.run k) →
    ∃ t, exec (.injEnable port fn) s = .next t ∧ (t.inj port fn).zeroing = true ∧ (t.inj port fn).enabled = false ∧
      (t.inj port fn).bytes = [] ∧ (t.inj port fn).backing = got ∧
      (t.inj port fn).seq = (freg (s.fn port fn) 0x0FE104).toNat ∧
      (t.inj port fn).log2 = wbits (freg (s.fn port fn) 0x0FE100) 4 0) ∧
  (∀ (port fn : Nat) (s : State), s.imago = true → fnTakes s port fn = true →
    (s.inj port fn).enabled = false → (s.inj port fn).zeroing = false →
    wbits (freg (s.fn port fn) 0x0FE100) 4 0 < 20 ∨ 28 < wbits (freg (s.fn port fn) 0x0FE100) 4 0 →
    ∃ t, exec (.injEnable port fn) s = .next t ∧ t.inj port fn = { s.inj port fn with noBacking := true } ∧
      Touches [.fns] s t) ∧
  (∀ (port fn : Nat) (s : State), (s.inj port fn).zeroing = true →
    ∃ t, exec (.injEnableDone port fn) s = .next t ∧ (t.inj port fn).zeroing = false ∧ (t.inj port fn).enabled = true ∧
      (t.inj port fn).rdOffset = 0 ∧ (t.inj port fn).seq = (s.inj port fn).seq) ∧
  ∀ (port fn : Nat) (s : State), fnTakes s port fn = true → (s.inj port fn).enabled = true →
    ∃ t, exec (.injDisable port fn) s = .next t ∧ t.inj port fn = { (default : Inj) with gen := (s.inj port fn).gen } ∧
      (∃ v, v = streamUnbinds (injSlots s port fn) s ∧
        t = (releaseAll ((partOfFn v port fn).getD 8) (s.inj port fn).backing v).updInj port fn (fun _ => t.inj port fn)) ∧
      ∀ port' fn', fnIx port' fn' ≠ fnIx port fn → t.inj port' fn' = s.inj port' fn'

/-- A poll that finds no packet moves nothing; one that finds a whole packet consumes it; a header whose CRC is right
but whose fields are not stops the ring; one whose CRC is wrong waits, and stops the ring if it is still so 1 ms after;
a packet whose trailer is missing waits, and is skipped and counted 1 ms after; the consumer record is written where it
is due. Readings and choices of the model that it rests on: log 23, 35. -/
def Obligations.InjectionPackets : Prop :=
  (∀ (port fn : Nat) (s : State), (s.inj port fn).enabled = true → (s.inj port fn).desync = false →
    unitDown s uParser = false →
    let i := s.inj port fn
    let h := injBytes i i.rdOffset 64
    ∃ t, exec (.injPoll port fn) s = .next t ∧
      (le32 h 0 ≠ 0x5049584A ∨ le32 h 4 ≠ i.seq → (t.inj port fn).rdOffset = i.rdOffset ∧ (t.inj port fn).seq = i.seq ∧
        (t.inj port fn).desync = false ∧ Touches [.fns] s t) ∧
      (le32 h 0 = 0x5049584A → le32 h 4 = i.seq →
        (le32 h 0x3C ≠ crc32c (h.take 0x3C) → t.inj port fn = { i with
          slowPoll := false, lastNew := s.now, headerSince := some (i.headerSince.getD s.now), trailerSince := none }) ∧
        (le32 h 0x3C = crc32c (h.take 0x3C) →
          (injHeaderOk i h = false → (t.inj port fn).desync = true ∧ (t.inj port fn).rdOffset = i.rdOffset) ∧
          (injHeaderOk i h = true → ipType h = 2 →
            (t.inj port fn).rdOffset = 0 ∧ (t.inj port fn).seq = (i.seq + 1) % 2 ^ 32) ∧
          (injHeaderOk i h = true → ipType h = 1 → injTrailerOk i h = true →
            (t.inj port fn).rdOffset = (i.rdOffset + ipLength h) % injSize i ∧
            (t.inj port fn).seq = (i.seq + 1) % 2 ^ 32 ∧ (t.inj port fn).desync = false) ∧
          (injHeaderOk i h = true → ipType h ≠ 2 → injTrailerOk i h = false → t.inj port fn = { i with
            slowPoll := false, lastNew := s.now, headerSince := none
            trailerSince := some (i.trailerSince.getD s.now) })))) ∧
  (∀ (port fn since : Nat) (s : State), (s.inj port fn).enabled = true → (s.inj port fn).desync = false →
    let i := s.inj port fn
    let h := injBytes i i.rdOffset 64
    i.trailerSince = some since → le32 h 0 = 0x5049584A → le32 h 4 = i.seq → le32 h 0x3C = crc32c (h.take 0x3C) →
    injHeaderOk i h = true → injTrailerOk i h = false →
    ∃ t, exec (.injTrailerTimeout port fn) s = .next t ∧ (t.inj port fn).torn = satAdd (2 ^ 32 - 1) i.torn 1 ∧
      (t.inj port fn).rdOffset = (i.rdOffset + ipLength h) % injSize i ∧ (t.inj port fn).seq = (i.seq + 1) % 2 ^ 32) ∧
  (∀ (port fn since : Nat) (s : State), (s.inj port fn).enabled = true → (s.inj port fn).desync = false →
    let i := s.inj port fn
    let h := injBytes i i.rdOffset 64
    i.headerSince = some since → le32 h 0 = 0x5049584A → le32 h 4 = i.seq → le32 h 0x3C ≠ crc32c (h.take 0x3C) →
    ∃ t, exec (.injHeaderTimeout port fn) s = .next t ∧ (t.inj port fn).desync = true ∧
      (t.inj port fn).rdOffset = i.rdOffset ∧ Touches (.fns :: reachReport) s t) ∧
  ∀ (port fn : Nat) (s : State), (s.inj port fn).writeDue = true → canIssue (s.fn port fn) = true →
    let i := s.inj port fn
    ∃ t, exec (.injConsumerWrite port fn) s = .next t ∧ t.inj port fn = { i with writeDue := false, sinceWrite := 0 } ∧
      Touches [.fns, .out] s t ∧
      t.out = .hostWrite port fn i.cons (toLe 4 i.rdOffset ++ toLe 4 i.seq ++ toLe 4 i.torn ++ toLe 4 i.gen) :: s.out

/-! ### Decode, resampling and batches -/

/-- Parse-ahead indexes the next closed access unit of a stream, and leaves it there where it passes the checks; where
it stands at the head of the queue and its sequence or sizes are refused, it is discarded with cause 5 and counted, and
the checks go on with those behind it. It takes none while four pictures are indexed. Of the access units past the queue
limit, the one at a random access point that finds fewer than 16 held ends the discard, and any other is discarded with
cause 3 and counted in 4. At a switch point, an engine serves the ready stream of least virtual time, and none where
none is ready; elsewhere it goes on with the stream that it serves; a fenced engine does nothing. Readings and choices
of the model that it rests on: log 24, 36. -/
def Obligations.ParseAheadAndSwitch : Prop :=
  (∀ (slot fid : Nat) (rest : List Nat) (hdr : PicHdr) (f : Frame) (s : State), (s.stream slot).dec.limbo = [] →
    (s.stream slot).dec.queue = fid :: rest → parseNext s slot = some fid → mfind s.frames fid = some f →
    ∃ t, exec (.parseAhead slot hdr) s = .next t ∧
      (hdrPasses (s.se slot) hdr = true → (s.stream slot).dec.refusedAu = none → hdr.leading = false →
        hdr.rap = true ∨ ((s.stream slot).dec.segParsed = f.segment + 1 ∧ (s.stream slot).dec.resumeRap = false) →
        t.frame fid = { f with hdr := some hdr } ∧
        t.stream slot = { s.stream slot with dec := { (s.stream slot).dec with
          index := (s.stream slot).dec.index ++ (if 4096 < hdr.indexBytes then [] else [fid]) } } ∧
        (∀ i, i ≠ slot → t.stream i = s.stream i) ∧ Touches [.streams, .frames] s t) ∧
      (hdr.hasSeq = true → hdrPasses (s.se slot) hdr = false →
        ∃ u, Touches [.streams, .frames] s u ∧ u.frame fid = { f with hdr := some hdr } ∧
          (u.stream slot).dec.refusedAu = some f.au ∧
          t = parseSettle slot 15 (decLog (decCount (decCount (discardFrame u fid 5) slot 6 1) slot 5 1) slot))) ∧
  (∀ (slot : Nat) (hdr : PicHdr) (s : State), (s.stream slot).dec.limbo = [] → 4 ≤ (s.stream slot).dec.index.length →
    headVerdict s slot = none ∨ (∃ fid, headVerdict s slot = some (fid, .pass)) →
    exec (.parseAhead slot hdr) s = .next s) ∧
  (∀ (slot fid : Nat) (l : List Nat) (hdr : PicHdr) (s : State), (s.stream slot).dec.limbo = fid :: l →
    ∃ t u, exec (.parseAhead slot hdr) s = .next t ∧ t = parseSettle slot 16 u ∧
      (hdr.rap = true → (s.stream slot).dec.queue.length < 16 →
        u = (fid :: l).foldl (auHold slot) (s.updDec slot (fun d => { d with
          limitAu := none, limbo := [], skipLeading := d.skipLeading ++ [((s.frame fid).au, 1)] }))) ∧
      (hdr.rap = false ∨ 16 ≤ (s.stream slot).dec.queue.length →
        u = decCount (discardFrame s fid 3) slot 4 1)) ∧
  ∀ (engine cycles bands : Nat) (damage : Bool) (s : State),
    ∃ t, exec (.decodeSwitch engine cycles bands damage) s = .next t ∧
      ((mget s.engines engine).fenced = true → t = s) ∧
      ((mget s.engines engine).fenced = false → ∀ u, u = engineRun s engine cycles bands damage →
        (atSwitchPoint u engine = false → t = u) ∧
        (atSwitchPoint u engine = true → ∀ n, n = engineNote u engine →
          ((∃ i ∈ engineSlots u engine, (n.stream i).dec.ready = true) → (mget t.engines engine).cur ≠ none) ∧
          ∀ slot, (mget t.engines engine).cur = some slot → slot ∈ engineSlots u engine ∧
            (n.stream slot).dec.ready = true ∧
            ∀ i ∈ engineSlots u engine, (n.stream i).dec.ready = true →
              (n.stream slot).dec.vtime ≤ (n.stream i).dec.vtime))

/-- A coding block at its limit abandons the picture; a picture that passes its budget is abandoned at the start of a
slice from B, and anywhere from 5B/4, and goes on otherwise. Abandoning is counted in 2 and the cycles in 8, and changes
no other stream but for its readiness and virtual time. A picture all of whose bands are there commits as it ends: as
the decoder made it, with a block concealed as damaged where its access unit is damaged or a reference was poisoned, and
one as not decoded where it was abandoned. Readings and choices of the model that it rests on: log 24, 36. -/
def Obligations.PictureBudgetAndEnd : Prop :=
  (∀ (engine cycles slot : Nat) (atSlice : Bool) (c : CurPic) (s : State), engineCur s engine = some slot →
    (s.stream slot).dec.cur = some c → c.abandoned = false →
    let stopped (t : State) : Prop :=
      (t.stream slot).dec.cur = some { c with cycles := c.cycles + cycles, abandoned := true } ∧
      (t.stream slot).dec.index = (s.stream slot).dec.index ∧
      mget (t.stream slot).dec.ctr 2 = satAdd (2 ^ 64 - 1) (mget (s.stream slot).dec.ctr 2) 1 ∧
      mget (t.stream slot).dec.ctr 8 = satAdd (2 ^ 64 - 1) (mget (s.stream slot).dec.ctr 8) cycles ∧
      (∀ i, i ≠ slot → ∃ r v, t.stream i = { s.stream i with dec := { (s.stream i).dec with ready := r, vtime := v } }) ∧
      Touches [.streams, .engines] s t
    (∃ t, exec (.blockCycleLimit engine cycles) s = .next t ∧ stopped t) ∧
    ∃ t, exec (.pictureBudgetExceeded engine cycles atSlice) s = .next t ∧
      ((atSlice = true ∧ c.budget ≤ c.cycles + cycles) ∨ 5 * c.budget ≤ 4 * (c.cycles + cycles) → stopped t) ∧
      ((atSlice = false ∨ c.cycles + cycles < c.budget) → 4 * (c.cycles + cycles) < 5 * c.budget →
        t = engineServe s engine slot cycles ∧
        (t.stream slot).dec.cur = some { c with cycles := c.cycles + cycles })) ∧
  ∀ (engine cycles slot : Nat) (out : PicOut) (c : CurPic) (s : State), engineCur s engine = some slot →
    (s.stream slot).dec.cur = some c →
    bandCount (((s.frame c.frame).hdr.getD default).codedH) ≤ (s.frame c.frame).bands.length →
    ∃ t o, exec (.pictureDecoded engine cycles out) s = .next t ∧
      t = commitPicture (engineServe s engine slot cycles) slot c.frame (c.cycles + cycles) o ∧
      o = { out with
        damaged := if (s.frame c.frame).damaged || c.poisoned then max 1 out.damaged else out.damaged
        abandoned := if c.abandoned then max 1 out.abandoned else out.abandoned }

/-- A free resampler takes the next released picture, in a working buffer where the stream emits. The end of its work
frees it, and an emitting picture joins the open batch of its key (partition, graph instances, Instar, configuration),
opens one where there is none, and closes it as the eighth member; a batch whose wait ends passes to its partition's
queue, padded to 8 and numbered. Readings and choices of the model that it rests on: log 36, 37. -/
def Obligations.ResampleAndBatch : Prop :=
  (∀ (rs fid : Nat) (s : State), rs < 4 → (mget s.resamplers rs).fenced = false → (mget s.resamplers rs).cur = none →
    nextRelease s = some fid → refOnly s (s.frame fid) = true →
    ∃ t, exec (.resamplePicture rs) s = .next t ∧ (mget t.resamplers rs).cur = some fid ∧
      t.relq = s.relq.filter (· != fid) ∧ Touches [.frames, .resamplers, .relq] s t) ∧
  (∀ (rs fid k a : Nat) (f : Frame) (p : PicData) (wk : Nat × Nat × List Nat) (down : Option (Nat × Nat × List Nat)) (crop : Bool)
    (s u : State), rs < 4 → (mget s.resamplers rs).fenced = false → (mget s.resamplers rs).cur = none →
    nextRelease s = some fid → mfind s.frames fid = some f → refOnly s f = false → f.pic = some p →
    workOf (frameTeacher s f) (frameSe s f) p = (wk, down, crop) →
    smallestPool s.run (workBytes (workFmt (frameTeacher s f)) wk.1 wk.2.1) = some k →
    bpmAlloc s (frameBpmPart s f) k = (some a, u) →
    ∃ t, exec (.resamplePicture rs) s = .next t ∧ (mget t.resamplers rs).cur = some fid ∧
      t.relq = s.relq.filter (· != fid) ∧ (t.frame fid).work = some wk ∧ (t.frame fid).down = down ∧
      (t.frame fid).workBuf = some a) ∧
  (∀ (rs fid : Nat) (f : Frame) (s : State), (mget s.resamplers rs).cur = some fid → mfind s.frames fid = some f →
    ∃ t, exec (.resampleDone rs) s = .next t ∧ (mget t.resamplers rs).cur = none ∧
      (∀ r, r ≠ rs → mget t.resamplers r = mget s.resamplers r) ∧ t.relq = s.relq ∧
      (refOnly s f = true → t.batches = s.batches) ∧
      (refOnly s f = false → openBatch s (batchKey s f) = none →
        mfind t.batches s.nextBatch = some { (default : Batch) with
          part := (batchKey s f).1, models := (batchKey s f).2.1, instar := (batchKey s f).2.2.1, cfgSeq := f.cfgSeq
          members := [some fid], since := s.now, inv := [0, 0, 0, 0, 0] }) ∧
      ∀ b x, refOnly s f = false → openBatch s (batchKey s f) = some b → mfind s.batches b = some x →
        (∀ i, some i ∈ x.members → (s.frame i).slot ≠ f.slot) →
        (x.members.length < 7 → mfind t.batches b = some { x with members := x.members ++ [some fid] }) ∧
        (x.members.length = 7 → x.closed = false → mfind t.batches b = some { x with
          members := x.members ++ [some fid], closed := true, closedAt := s.now, seq := (s.part x.part).batchSeq })) ∧
  ∀ (b : Nat) (x : Batch) (s : State), mfind s.batches b = some x → x.closed = false → batchHasFrame x = true →
    ∃ t, exec (.batchTimeout b) s = .next t ∧
      mfind t.batches b = some { x with closed := true, closedAt := s.now, members := padMembers x.members, seq := (s.part x.part).batchSeq } ∧
      (t.part x.part).queue = (s.part x.part).queue ++ [b] ∧ (t.part x.part).batchSeq = ((s.part x.part).batchSeq + 1) % 2 ^ 32 ∧
      Touches [.streams, .frames, .batches, .parts, .mem, .store, .out] s t

/-! ### Scheduling, semaphores and cell queues -/

/-- The oldest closed batch of a partition is admitted to its first usable pinned region, or to the shared region chosen
for it where that region's backlog is within 1 ms. An invocation that is ready joins the queue of its region, and one
whose graph is absent is skipped. The next invocation of a region becomes resident where its blocks have room. The block
that leads a worker claims the next entry of a context, with one of the eight semaphores of its slot set to 0, and
nothing past the end of the list; a context that has not begun begins first, unless it is held. Readings and choices of
the model that it rests on: log 37. -/
def Obligations.AdmissionAndClaims : Prop :=
  (∀ (part b r : Nat) (l rs : List Nat) (x : Batch) (s : State), (s.part part).queue = b :: l → mfind s.batches b = some x →
    s.pac.restarting = false → peClass (s.pe part) = 0 ∨ anyWarn s = false →
    pinnedRegions s part = r :: rs ∨ (pinnedRegions s part = [] ∧ chooseRegion s x = some r ∧ backlog s r ≤ 50000 * 166320) →
    ∃ t, exec (.batchAdmit part) s = .next t ∧ mfind t.batches b = some { x with region := some r, order := s.pac.order } ∧
      (x.part = part → (t.part part).queue = (s.part part).queue.filter (· != b)) ∧ t.pac.order = s.pac.order + 1 ∧
      Touches [.batches, .parts, .pac] s t) ∧
  (∀ (b m r : Nat) (x : Batch) (s : State), mfind s.batches b = some x → x.region = some r → invOf x m = 0 → m < 5 →
    ∃ t, exec (.invocationRunnable b m) s = .next t ∧
      (x.models.getD m 0xFF = 0xFF → t = batchEnd (setInv s b m 4) b) ∧
      (x.models.getD m 0xFF ≠ 0xFF → invReady s b m x = false → t = s) ∧
      (x.models.getD m 0xFF ≠ 0xFF → invReady s b m x = true →
        (t.region r).queue = (s.region r).queue.filter (· != b * 8 + m) ++ [b * 8 + m] ∧
        mfind t.batches b = some { x with
          inv := x.inv.zipIdx.map (fun p => if p.2 = m then 1 else p.1), runAt := mput x.runAt m s.now } ∧
        Touches [.batches, .regions] s t)) ∧
  (∀ (r b m : Nat) (x : Batch) (s : State), mfind s.batches b = some x → x.region = some r →
    queueHead s r = some (b * 8 + m) → earlierStarted s b x = true → pinnedNow s x.part = false → invCtx s b m = none →
    let p := batchPlan s x m
    let bl := (placementBlocks s x).take (blocksTaken p (placementBlocks s x).length)
    bl ≠ [] → (∀ q ∈ bl.zipIdx, blockTakes s p bl.length q.2 q.1 = true) →
    ∃ t, exec (.invocationResident r b m) s = .next t ∧ b * 8 + m ∉ (t.region r).queue ∧
      mfind t.batches b = some { x with started := true, inv := x.inv.zipIdx.map (fun p => if p.2 = m then 2 else p.1) } ∧
      t = settleIn (newCtx s b m x r).2 r b m s.nextCtx bl p ∧ Touches [.batches, .ctxs, .regions, .blocks] s t) ∧
  ∀ (ctx block : Nat) (x : Ctx) (s : State), mfind s.ctxs ctx = some x → x.kind = 1 → block ∈ ctxBlocks x →
    blockUsable s block = true → mayClaim s x block x.work = true →
    (x.begun = true → ∃ t u, exec (.stripeClaim ctx block) s = .next t ∧ t = entryProgress u ctx x.work ∧
      (mget u.ctxs ctx).work = (x.work + 1) % 2 ^ 32 ∧
      (entryCount x ≤ x.work → (mget u.ctxs ctx).claims = x.claims) ∧
      (x.work < entryCount x → ∃ sem, 8 * slotIn x block ≤ sem ∧ sem < 8 * slotIn x block + 8 ∧
        (mget u.ctxs ctx).claims = x.claims.filter (fun c => c.entry != x.work) ++
          [{ (default : Claim) with entry := x.work, block := block, sem := sem }] ∧
        (mget (u.block block).sems sem).count = 0) ∧
      (x.work < 4096 → Touches [.ctxs, .parts, .blocks] s u)) ∧
    (x.begun = false → holdKind s x = 0 → ∀ v, v = beginCtx (countSpills s x) ctx x →
      exec (.stripeClaim ctx block) s = .next (entryProgress (claimNext v ctx block (mget v.ctxs ctx)) ctx x.work)) ∧
    (x.begun = false → holdKind s x ≠ 0 → exec (.stripeClaim ctx block) s = .next (noteHold s ctx x (holdKind s x)))

/-- A signal adds to a count, which holds at 0xFFFF, and releases the waiters that it reaches; a wait for a count that
is there releases the cell's command from it, another joins the waiters, of which there are at most eight; a reset
clears the count and keeps the waiters. A command of an adapter step enters the queue of its cell with the waits whose
counts are not there yet; a command of an invocation does where it is the one that the mapping of its rows over the
cells gives next, and one of the self-test does in a cell that it tests. Readings and choices of the model that it rests
on: log 37, 38. -/
def Obligations.SemaphoresAndCommandQueues : Prop :=
  (∀ (b n k : Nat) (s : State), ∃ t, exec (.semaphoreSignal b n k) s = .next t ∧
    (mget (t.block b).sems n).count = min 0xFFFF ((mget (s.block b).sems n).count + k) ∧
    (mget (t.block b).sems n).waiters =
      (mget (s.block b).sems n).waiters.filter (fun w => min 0xFFFF ((mget (s.block b).sems n).count + k) < w.2)) ∧
  (∀ (b n c th : Nat) (i : Instr) (s : State), i = .semaphoreWait b n c th ∨ i = .waitRetry b n c th →
    let q := mget (s.block b).sems n
    ∃ t, exec i s = .next t ∧
      (th ≤ q.count → t = s.updCell c (fun x => { x with queue := x.queue.map (releaseCell b n q.count) })) ∧
      (q.count < th → (mget (t.block b).sems n).count = q.count ∧ t.cells = s.cells) ∧
      (q.count < th → q.waiters.length < 8 → (c, th) ∉ q.waiters → (mget (t.block b).sems n).waiters = q.waiters ++ [(c, th)]) ∧
      (q.count < th → 8 ≤ q.waiters.length → (mget (t.block b).sems n).waiters = q.waiters)) ∧
  (∀ (b n : Nat) (s : State), ∃ t, exec (.semaphoreReset b n) s = .next t ∧ (mget (t.block b).sems n).count = 0 ∧
    (mget (t.block b).sems n).waiters = (mget (s.block b).sems n).waiters ∧ Touches [.blocks] s t) ∧
  ∀ (c : Nat) (m : CellCmd) (x : Ctx) (s : State), mfind s.ctxs m.ctx = some x → blockOfCell c ∈ ctxBlocks x →
    (s.cell c).queue.length < 16 → cmdCritical s c m = true ∨ bestQueued s c < 12 → cmdBounded m = true →
    cmdRangesOk s x c m = true → servedFirst s m.ctx (blockOfCell c) = false →
    let enters (v t : State) : Prop :=
      (t.cell c).queue = (v.cell c).queue ++
        [⟨m, false, (v.cell c).seq, openWaits v (cmdWaits v (mget v.ctxs m.ctx) m), 0⟩] ∧
      Touches [.ctxs, .regions, .blocks, .cells] v t
    let b := blockOfCell c
    ∃ t, exec (.commandWrite c m) s = .next t ∧
      (x.kind = 2 → (s.cell c).fenced = false → blockUsable s b = true → enters s t) ∧
      (x.kind = 3 → (s.cell c).fenced = true ∨ s.scu.phase = 7 → enters s t) ∧
      (x.kind = 1 → (s.cell c).fenced = false → blockUsable s b = true →
        ∀ u k, u = passSkipped m.ctx b 65536 (noteStalls m.ctx b x.claims s) → (mfind u.ctxs m.ctx).isSome = true →
          ctxTurn u m.ctx b = some k → k.next u m.ctx b = some (c, cmdShape m) → ∃ v, v.cells = u.cells ∧ enters v t)

/-- An idle issue unit starts its next eligible command, which leaves the queue and holds its token; a unit that runs
starts none. The end of a command frees its unit and its token, before what the end of the command brings. Readings and
choices of the model that it rests on: log 38. -/
def Obligations.CommandIssueAndCompletion : Prop :=
  (∀ (cell unit : Nat) (q : QCmd) (s : State), mfind (s.cell cell).running unit = none → nextIssue s cell unit = some q →
    (∀ r ∈ q.cmd.reads ++ q.cmd.writes, rangeFails (startCmd s cell q) r = false) →
    ∃ t, exec (.commandIssue cell unit) s = .next t ∧ q.cmd.unit = unit ∧
      mfind (t.cell cell).running unit = some { q with token := needsToken q.cmd } ∧
      (t.cell cell).queue = (s.cell cell).queue.filter (fun o => o.seq != q.seq) ∧
      (t.region (regionOfCell cell)).held = (s.region (regionOfCell cell)).held + (if needsToken q.cmd then 1 else 0) ∧
      Touches [.parts, .regions, .cells] s t) ∧
  (∀ (cell unit : Nat) (q : QCmd) (s : State), mfind (s.cell cell).running unit = some q →
    exec (.commandIssue cell unit) s = .next s) ∧
  ∀ (cell unit : Nat) (q : QCmd) (s : State), mfind (s.cell cell).running unit = some q →
    ∃ t u, exec (.commandComplete cell unit) s = .next t ∧ t = finishCmd u cell q.cmd ∧ Touches [.regions, .cells] s u ∧
      mfind (u.cell cell).running unit = none ∧ (u.cell cell).queue = (s.cell cell).queue ∧
      (u.region (regionOfCell cell)).held = (s.region (regionOfCell cell)).held - (if q.token then 1 else 0)

/-- One region cycle of array credit gives each partition its refill less the charge for its array commands that run,
and keeps every credit within its bound; a region that a pinned partition owns has none to refill. A prefetch of the
layer after one that runs leaves that layer alone of the context in the weight shadow. The next wave of a phase in spill
mode starts when the waves before it have completed the picture, with the buffers that it spills into. Readings and
choices of the model that it rests on: log 4, 5, 23, 37. -/
def Obligations.CreditPrefetchAndSpill : Prop :=
  (∀ (r : Nat) (l : List Nat) (s : State), regionOwned s r = false → (s.region r).awake = true →
    ∃ t, exec (.arrayCreditRefill r l) s = .next t ∧
      (t.region r).credit = s.run.partitions.foldl (creditStep s (issuingParts s r)) (s.region r).credit ∧
      (∀ p ∈ s.run.partitions, -(67108864 * 1024 : Int) ≤ mget (t.region r).credit (peId p) ∧
        mget (t.region r).credit (peId p) ≤ 67108864 * 1024) ∧ Touches [.regions] s t) ∧
  (∀ (r : Nat) (l : List Nat) (s : State), regionOwned s r = true → exec (.arrayCreditRefill r l) s = .next s) ∧
  (∀ (ctx layer : Nat) (x : Ctx) (s : State), mfind s.ctxs ctx = some x → x.slots ≠ [] → prefetchNext s ctx layer x = true →
    ∃ t, exec (.weightPrefetch ctx layer) s = .next t ∧ (∀ l, (ctx, l) ∈ (t.region x.region).shadow ↔ l = layer) ∧
      (∀ c l, c ≠ ctx → ((c, l) ∈ (t.region x.region).shadow ↔ (c, l) ∈ (s.region x.region).shadow)) ∧
      Touches [.parts, .regions, .sram] s t) ∧
  ∀ (ctx picture : Nat) (x : Ctx) (q : Stripe) (s u : State), mfind s.ctxs ctx = some x →
    (openStripes s x).find? (fun q => q.spills && q.pic == picture) = some q →
    q.wavesBegun x < ceilDiv q.groups.length (max q.n 1) →
    (∀ i ∈ phaseLayers q.p.g q.ph, q.waveOf (q.layerGroup i) + 1 = q.wavesBegun x → q.layerOver x i = true) →
    spillTake q.p ctx (q.waveOuts (q.wavesBegun x)) (handoffReset (spillStore q ctx s) x q) = some u →
    ∃ t, exec (.spillWaveStart ctx picture) s = .next t ∧
      t = u.updCtx ctx (fun y => { y with wave := q.claim.entry * 4096 + q.wavesBegun x + 1 })

/-! ### Faults of the fabric -/

/-- What each error of a cell does: a corrected one is counted; an uncorrectable one or a residue mismatch fences the
cell, and takes nothing back that is fenced; a fenced cell that passes its self-test returns at a row-group boundary,
unless it is fenced for good, and the self-test job of the block ends where no other cell awaits it. A bad CRC of a NoC
link changes nothing. Readings and choices of the model that it rests on: log 39. -/
def Obligations.CellErrors : Prop :=
  (∀ (c : Nat) (s : State), exec (.cellEccError c .clean) s = .next s) ∧
  (∀ (c : Nat) (s : State), ∃ t, exec (.cellEccError c .corrected) s = .next t ∧
    t.cell c = { s.cell c with corrected := (s.cell c).corrected + 1 } ∧
    (∀ d, d ≠ c → t.cell d = s.cell d) ∧ Touches [.cells] s t) ∧
  (∀ (c : Nat) (i : Instr) (s : State), i = .cellEccError c .uncorrectable ∨ i = .residueMismatch c →
    (s.cell c).fenced = false → ∃ t, exec i s = .next t ∧ (t.cell c).fenced = true ∧
      (∀ d, (s.cell d).fenced = true → (t.cell d).fenced = true) ∧ ∀ b, (s.block b).fenced = true → (t.block b).fenced = true) ∧
  (∀ (c : Nat) (s : State), (s.cell c).fenced = true → (s.cell c).stuck = false → (s.block (blockOfCell c)).fenced = false →
    midGroup s (blockOfCell c) = false →
    ∃ t u, exec (.cellSelftestReturn c true) s = .next t ∧ Touches [.cells] s u ∧ u.cell c = { s.cell c with fenced := false } ∧
      (∀ d, d ≠ c → u.cell d = s.cell d) ∧
      (((cellsOfBlock (blockOfCell c)).any (fun d => (u.cell d).fenced && !(u.cell d).stuck)) = true → t = u) ∧
      (((cellsOfBlock (blockOfCell c)).any (fun d => (u.cell d).fenced && !(u.cell d).stuck)) = false →
        t = ((blockCtxs u (blockOfCell c)).filter (fun x => (mget u.ctxs x).kind == 3)).foldl dropCtx u)) ∧
  (∀ (c : Nat) (s : State), (s.cell c).stuck = true → exec (.cellSelftestReturn c true) s = .next s) ∧
  ∀ (r : Nat) (s : State), exec (.nocLinkCrcError r) s = .next s

/-- A block that faults is restarted: its cells are emptied, its semaphores cleared and its contexts kept; the fault
after three within 10 ms of each other fences it; a watchdog that finds work pending for too long is such a fault, and
finds nothing otherwise; the end of the restart puts the block in service, and its contexts claim again what it had not
completed. A region fault fences the region, which is then parked with nothing queued and no energy; a bad word of a
region store aborts the commands that read it, and replays them. Readings and choices of the model that it rests on: log
39. -/
def Obligations.BlockAndRegionFaults : Prop :=
  (∀ (b : Nat) (s : State), (s.block b).fenced = false → blockEscalates s b = false →
    ((s.region (regionOfBlock b)).restarts.filter (fun t => s.now - t ≤ 100000000)).length < 7 →
    ∃ t, exec (.blockRestart b) s = .next t ∧ (t.block b).restarting = true ∧ (t.block b).fenced = false ∧
      (t.block b).sems = [] ∧ (t.block b).slots = (s.block b).slots ∧
      (∀ c ∈ cellsOfBlock b, (t.cell c).queue = [] ∧ (t.cell c).running = []) ∧
      Touches [.frames, .parts, .regions, .blocks, .cells, .sram, .out] s t) ∧
  (∀ (b : Nat) (s : State), (s.block b).fenced = false → blockEscalates s b = true →
    ∃ t, exec (.blockRestart b) s = .next t ∧ (t.block b).fenced = true) ∧
  (∀ (b : Nat) (s : State), blockPending s b = true → (s.block b).lastWrite - 1 + watchCycles s b ≤ s.now →
    exec (.mapperWatchdog b) s = exec (.blockRestart b) s ∧ ∃ t, exec (.mapperWatchdog b) s = .next t) ∧
  (∀ (b : Nat) (s : State), blockPending s b = false ∨ s.now < (s.block b).lastWrite - 1 + watchCycles s b →
    exec (.mapperWatchdog b) s = .next s) ∧
  (∀ (b : Nat) (s : State), (s.block b).restarting = true →
    ∃ t u, exec (.blockRestartDone b) s = .next t ∧
      u.block b = { s.block b with restarting := false, lastWrite := s.now + 1 } ∧ Touches [.blocks] s u ∧
      t = (blockCtxs s b).foldl (fun v c => reclaim v b c) u ∧ Touches [.ctxs, .parts, .blocks, .cells] s t) ∧
  (∀ (r cause : Nat) (s : State), (s.region r).fenced = false →
    ∃ t, exec (.regionFault r cause) s = .next t ∧ (t.region r).fenced = true ∧ (t.region r).awake = false ∧
      (t.region r).queue = [] ∧ (t.region r).held = 0 ∧ (t.region r).grant = 0 ∧
      ∀ q, (s.region q).fenced = true → (t.region q).fenced = true) ∧
  ∀ (r addr : Nat) (s : State),
    let reads (q : Nat × QCmd) : Bool := q.2.cmd.reads.any (fun a => decide (a.addr ≤ addr) && decide (addr < a.addr + a.len))
    let cells := (blocksOfRegion r).flatMap cellsOfBlock
    ∃ t, exec (.regionStoreEccError r addr) s = .next t ∧
      t = cells.foldl (fun s c => ((s.cell c).running.filter reads).foldl (fun s q =>
        replayCmd (abortCmd s c q.1 q.2) (blockOfCell c) q.2.cmd (addr + 256)) s) s ∧
      ((∀ c ∈ cells, ∀ q ∈ (s.cell c).running, reads q = false) → t = s)

/-! ### Context records, Chrysalises and adaptation -/

/-- A record read changes no record and is counted for its stream, with a corrected error counted too, and one that
cannot be corrected is handled by the record's type. A write whose gen does not match is refused and counted; one that
matches replaces the payload under a raised sequence number, and no other record changes. Readings and choices of the
model that it rests on: log 40. -/
def Obligations.ContextRecordAccesses : Prop :=
  (∀ (i : Nat) (s : State), ∃ t, exec (.contextRecordAccess i .read .clean) s = .next t ∧ t.store.recs = s.store.recs ∧
    t.store.corrected = s.store.corrected ∧ Touches [.streams, .mem, .store] s t ∧
    (rhSlot (recRead s i) < 512 → mget (t.stream (rhSlot (recRead s i))).ctxc 0 =
      satAdd (2 ^ 64 - 1) (mget (s.stream (rhSlot (recRead s i))).ctxc 0) 1)) ∧
  (∀ (i : Nat) (s : State), ∃ t, exec (.contextRecordAccess i .read .corrected) s = .next t ∧ t.store.recs = s.store.recs ∧
    t.store.corrected = s.store.corrected + 1 ∧ Touches [.streams, .mem, .store] s t) ∧
  (∀ (i : Nat) (s : State), ∃ t, exec (.contextRecordAccess i .read .uncorrectable) s = .next t ∧
    t = recordError (storeRead s (rhSlot (recRead s i)) i) i) ∧
  (∀ (i gen : Nat) (data : Bytes) (ecc : Ecc) (s : State), gen % 2 ^ 16 ≠ rhGen (recRead s i) →
    ∃ t, exec (.contextRecordAccess i (.write gen data) ecc) s = .next t ∧ t.store = s.store ∧
      mget (t.part (rhPart (recRead s i))).ctxc 9 = satAdd (2 ^ 64 - 1) (mget (s.part (rhPart (recRead s i))).ctxc 9) 1 ∧
      Touches [.streams, .parts] s t) ∧
  ∀ (i gen : Nat) (data : Bytes) (ecc : Ecc) (s : State), gen % 2 ^ 16 = rhGen (recRead s i) →
    ∃ t, exec (.contextRecordAccess i (.write gen data) ecc) s = .next t ∧ Touches [.streams, .mem, .store] s t ∧
      (∀ j, j ≠ i → recRead t j = recRead s j) ∧
      recRead t i = padTo 256 (recStamp (recRead s i) (padTo 240 data))

/-- A context that runs nothing is saved, where there is an execution record and a buffer that takes its body: it leaves
its blocks, keeps its work and holds both. A restore places it again and frees both; a body that fails its check is
discarded with both. An eviction, where something waits and the residents are blocked or of a lower class, saves the
victim of the block. Readings and choices of the model that it rests on: log 17, 37. -/
def Obligations.ChrysalisesAndEviction : Prop :=
  (∀ (cx ri k a : Nat) (x : Ctx) (s u : State), mfind s.ctxs cx = some x → x.slots ≠ [] → x.kind ≠ 3 →
    ctxPinned s x = false → ctxRunning s cx = false → freeExec s = some ri →
    smallestPool s.run (largestBody s.run) = some k → (chrysalisBody s x).length ≤ poSize (cfgPool s.run k) →
    bpmAlloc s 8 k = (some a, u) →
    ∃ t, exec (.chrysalisCapture cx) s = .next t ∧ (mget t.ctxs cx).slots = [] ∧
      (mget t.ctxs cx).chrysalis = some (ri, a, (chrysalisBody s x).length) ∧ (mget t.ctxs cx).captures = x.captures + 1 ∧
      (mget t.ctxs cx).work = x.work ∧ (mget t.ctxs cx).claims = x.claims ∧ (mget t.ctxs cx).capBlocks = ctxBlocks x ∧
      ri ∈ t.store.exec) ∧
  (∀ (cx ri a len block : Nat) (x : Ctx) (s : State), mfind s.ctxs cx = some x → x.chrysalis = some (ri, a, len) →
    restoreTarget s x block = true → x.capBlocks.length ≤ (restoreBlocks s x block).length →
    (∀ q ∈ (restoreBlocks s x block).zipIdx, blockRoom s q.1 (ctxNeeds s x q.2) = true) →
    ∃ t, exec (.chrysalisRestore cx block true) s = .next t ∧ (mget t.ctxs cx).chrysalis = none ∧
      (mget t.ctxs cx).region = regionOfBlock block ∧ (mget t.ctxs cx).work = x.work ∧ ri ∉ t.store.exec) ∧
  (∀ (cx ri a len block : Nat) (x : Ctx) (s : State), mfind s.ctxs cx = some x → x.chrysalis = some (ri, a, len) →
    exec (.chrysalisRestore cx block false) s = .next (discardChrysalis (storeRead s 512 ri) cx)) ∧
  ∀ (block cx : Nat) (i : Instr) (s : State),
    (i = .eviction block ∧ residencyWaits s block ≠ [] ∧ (allBlocked s block = true ∨ classEvicts s block = true)) ∨
      (i = .residencyWaitTimeout block ∧ classEvicts s block = true) →
    victimOf s block = some cx →
    ∃ t u, exec i s = .next t ∧ exec (.chrysalisCapture cx) s = .next u ∧ t.ctxs = u.ctxs ∧ t.blocks = u.blocks ∧
      t.store = u.store ∧ t.bpm = u.bpm

/-- The earliest picture that the tracker has not taken reaches stage 0x6 once its invocations have committed, and waits
otherwise; a complete open step starts a job of its own, a best-effort context of kind 2 in the block that has room for
it; a running step commits unless a picture still uses the generation that it would write; one that was discarded only
ends its job. Readings and choices of the model that it rests on: log 41. -/
def Obligations.TrackingAndAdapterSteps : Prop :=
  (∀ (slot fid : Nat) (f : Frame) (s : State), firstPicture s slot awaitsTracker = some fid → mfind s.frames fid = some f →
    ∃ t, exec (.trackPicture slot) s = .next t ∧
      (f.stage = 5 → framInferred (frameSe s f) f = true → (t.frame fid).tracked = true ∧ (t.frame fid).stage = 6 ∧
        Touches [.streams, .frames, .mem, .store, .out] s t) ∧
      (f.stage ≠ 5 ∨ framInferred (frameSe s f) f = false → t = s)) ∧
  (∀ (slot b n : Nat) (a : AdpStep) (s : State), (s.stream slot).adp = some a → a.running = false → (s.stream slot).train = true →
    adpInterval s slot ≠ 0 → adpInterval s slot ≤ a.pictures.length →
    n = stepDemands ((a.pictures.take (adpInterval s slot)).map (fun q => teacherPlan s slot (s.frame q))) →
    stepBlock s n = some b →
    ∃ t, exec (.adapterStepStart slot) s = .next t ∧ (t.stream slot).adp = some { a with running := true } ∧
      t.nextCtx = s.nextCtx + 1 ∧ (mget t.ctxs s.nextCtx).kind = 2 ∧ (mget t.ctxs s.nextCtx).slot = slot ∧
      (mget t.ctxs s.nextCtx).cls = 1 ∧ (mget t.ctxs s.nextCtx).demand = n ∧
      (∀ k, freeSlot s b = some k → (mget t.ctxs s.nextCtx).slots = [(b, k)]) ∧
      Touches [.streams, .ctxs, .blocks, .mem, .store] s t) ∧
  (∀ (slot : Nat) (a : AdpStep) (s : State), (s.stream slot).adp = some a → a.running = true →
    ∃ t, exec (.adapterStepCommit slot) s = .next t ∧
      (genInUse s slot (1 - headGet s slot hdGen 1) = true → t = s) ∧
      (genInUse s slot (1 - headGet s slot hdGen 1) = false → t = stepCommit s slot a)) ∧
  ∀ (slot : Nat) (s : State), (s.stream slot).adp = none → exec (.adapterStepCommit slot) s = .next (stepCtxEnd s slot)

/-! ### Search and records -/

/-- The search of a stream's next picture starts under the codebook it must use, once the picture before it has been
searched and no reference is awaited, and is held, once counted, until then; it commits when its invocation has and
there are bands for its luma; a pending codebook update is formed, or given up, once its pictures have been searched; a
searched picture's record is coded and then emitted in presentation order. Readings and choices of the model that it
rests on: log 42. -/
def Obligations.SearchAndRecords : Prop :=
  (∀ (slot fid : Nat) (f : Frame) (s : State),
    firstPicture s slot (fun f => f.stage = 6 && !f.searching && !frameEnded f) = some fid → mfind s.frames fid = some f →
    let held := (oldCodebook (s.stream slot) f.cfgSeq).isNone && cbHeld s slot (f.picture.getD 0)
    ∃ t, exec (.searchStart slot) s = .next t ∧
      (prevSearched s f = true → held = false → (∀ r ∈ f.refs, refWaits s r = false) →
        (t.frame fid).searching = true ∧ ((t.frame fid).cbGen, (t.frame fid).cbCopy) = cbUseOf s f ∧
        Touches [.streams, .frames] s t) ∧
      (prevSearched s f = true → held = true ∨ (∃ r ∈ f.refs, refWaits s r = true) → t = s) ∧
      (prevSearched s f = false → (t.frame fid).searching = f.searching ∧ (t.frame fid).searchHeld = true ∧
        mget (t.stream slot).tds 10 = (if f.searchHeld then mget (s.stream slot).tds 10
          else satAdd (2 ^ 64 - 1) (mget (s.stream slot).tds 10) 1))) ∧
  (∀ (slot fid : Nat) (s : State), firstPicture s slot (fun f => f.searching && !f.searched && !frameEnded f) = some fid →
    ∃ t, exec (.searchCommit slot) s = .next t ∧
      ((s.frame fid).models / 16 % 2 = 0 → t = s) ∧
      ((s.frame fid).models / 16 % 2 = 1 → ∀ b u, searchBands s slot fid = (b, u) →
        t = if b then searchDone u slot fid else u)) ∧
  (∀ (slot : Nat) (u : CbPending) (l : List CbPending) (s : State), (s.stream slot).cbPending = u :: l →
    ∃ t, exec (.codebookUpdate slot) s = .next t ∧
      (searchesLeft s slot u.last = true → t = s) ∧
      (searchesLeft s slot u.last = false → (s.stream slot).train = false ∨ u.cands = none →
        (t.stream slot).cbPending = l ∧ (t.stream slot).partialDue = (s.stream slot).partialDue ∧
        Touches [.streams, .mem, .store] s t) ∧
      ∀ cs, searchesLeft s slot u.last = false → (s.stream slot).train = true → u.cands = some cs →
        copyInUse s slot = false → (t.stream slot).cbPending = l ∧ (t.stream slot).cbFormed = true ∧
          (t.stream slot).uses = [] ∧ t = cbDrop (cbForm s slot u cs) slot ∧ Touches [.streams, .mem, .store] s t) ∧
  (∀ (slot fid : Nat) (f : Frame) (s : State), firstPicture s slot unsent = some fid → mfind s.frames fid = some f →
    f.stage = 7 → unitDown s uDx = false →
    ∃ t, exec (.recordEncode slot) s = .next t ∧ (t.frame fid).stage = 8 ∧
      (t.frame fid).unit = some (recordBody (frameSe s f) (cbStream (s.stream slot) f.cfgSeq).probs f).1 ∧
      Touches [.frames, .out] s t) ∧
  ∀ (slot fid : Nat) (body : Bytes) (s : State), firstPicture s slot unsent = some fid → (s.frame fid).unit = some body →
    unitDown s uDx = false →
    ∃ t, exec (.recordEmit slot) s = .next t ∧ t = sweepSlots (groupSlots s slot) (emitRecord s slot fid body)

/-! ### Record rings, interrupts and counters -/

/-- A valid bind runs the ring empty under the next generation, and one that is not sets the error; an unbind stops it
with nothing held; the oldest unit held too long is dropped whole and counted. Readings and choices of the model that it
rests on: log 43. -/
def Obligations.RingBindAndUnbind : Prop :=
  (∀ (port fn k : Nat) (s : State), fnTakes s port fn = true → ringSel (s.fn port fn) = k → (s.ring port fn k).bound = false →
    ∃ t u, exec (.ringBind port fn) s = .next t ∧ Touches [.rings] s u ∧
      (ringBindOk (s.fn port fn) k (s.ring port fn k) = true →
        t = pumpEvents u port fn ∧ (u.ring port fn k).bound = true ∧ (u.ring port fn k).error = false ∧
          (u.ring port fn k).gen = ((s.ring port fn k).gen + 1) % 256 ∧ (u.ring port fn k).prod = 0 ∧
          (u.ring port fn k).consumed = 0 ∧ (u.ring port fn k).base = rgBase (s.ring port fn k) ∧
          (u.ring port fn k).log2 = rgLog2 (s.ring port fn k)) ∧
      (ringBindOk (s.fn port fn) k (s.ring port fn k) = false →
        t = u ∧ (t.ring port fn k).bound = false ∧ (t.ring port fn k).error = true ∧ (t.ring port fn k).cause = 1 ∧
          (t.fn port fn).irqStatus = (s.fn port fn).irqStatus ||| wflag true 18)) ∧
  (∀ (port fn k : Nat) (s : State), fnTakes s port fn = true → ringSel (s.fn port fn) = k →
    ∃ t u, exec (.ringUnbind port fn) s = .next t ∧
      ((s.ring port fn k).bound = false → t = s) ∧
      ((s.ring port fn k).bound = true → t = sweepAll u ∧ (u.ring port fn k).bound = false ∧ (u.ring port fn k).held = [] ∧
        (u.ring port fn k).error = false ∧ Touches [.rings, .frames, .out] s u)) ∧
  ∀ (port fn k : Nat) (h : HeldUnit) (l : List HeldUnit) (s : State), (s.ring port fn k).held = h :: l →
    (s.ring port fn k).bound = true →
    ∃ t u, exec (.ringHoldTimeout port fn k) s = .next t ∧ t = sweepAll (ringDrain port fn k l.length u) ∧
      (u.ring port fn k).held = l ∧ (u.ring port fn k).drops = satAdd (2 ^ 64 - 1) (s.ring port fn k).drops 1 ∧
      (u.ring port fn k).lostUnits = (s.ring port fn k).lostUnits + 1 ∧
      (u.ring port fn k).lostBytes = (s.ring port fn k).lostBytes + h.data.length

/-- A ring that waits for space reads its consumer record: a read that fails stops it with cause 2, and so does a count
beyond the ring's size, with cause 3; a record of another generation, or one that shows nothing consumed, makes it try
again later; one that shows progress lets the held units be written. A ring that needs no record reads none. When the
interrupt delay has passed, the ring's cause bit is set. Readings and choices of the model that it rests on: log 43. -/
def Obligations.RingConsumerAndDelay : Prop :=
  (∀ (port fn k : Nat) (s : State), (s.ring port fn k).bound = true → (s.ring port fn k).backoff ≠ 0 →
    canIssue (s.fn port fn) = true →
    let r := s.ring port fn k
    let u := emit (.hostRead port fn r.cons 8) s
    (∀ why, exec (.ringConsumerRead port fn k (.failed why)) s = .next (ringFail (readCount u port fn (.failed why)) port fn k 2)) ∧
    ∀ b : Bytes, b.length = 8 →
      let behind := (r.prod % 2 ^ 32 + 2 ^ 32 - le32 b 0) % 2 ^ 32
      ∃ t, exec (.ringConsumerRead port fn k (.data b)) s = .next t ∧
        (byteAt b 4 ≠ r.gen → t = u.updRing port fn k ringBackoff) ∧
        (byteAt b 4 = r.gen → 2 ^ r.log2 < behind → t = ringFail u port fn k 3) ∧
        (byteAt b 4 = r.gen → behind ≤ 2 ^ r.log2 → r.prod - behind ≤ r.consumed → t = u.updRing port fn k ringBackoff) ∧
        (byteAt b 4 = r.gen → behind ≤ 2 ^ r.log2 → r.consumed < r.prod - behind →
          t = ringServe (u.updRing port fn k (fun x => { x with consumed := r.prod - behind })) port fn k)) ∧
  (∀ (port fn k : Nat) (r : HostRead) (s : State), (s.ring port fn k).bound = false ∨ (s.ring port fn k).backoff = 0 ∨
    canIssue (s.fn port fn) = false → exec (.ringConsumerRead port fn k r) s = .next s) ∧
  ∀ (port fn k : Nat) (s : State), (s.ring port fn k).bound = true → (s.ring port fn k).irqFirst ≠ 0 →
    ∃ t, exec (.ringIrqDelay port fn k) s = .next t ∧
      (t.fn port fn).irqStatus = (s.fn port fn).irqStatus ||| wflag true k ∧
      (t.ring port fn k).irqRecords = 0 ∧ (t.ring port fn k).irqFirst = 0 ∧ Touches [.rings] s t

/-- A cause set in the cycle of its clearing stays set; the INTA wire follows the OR of the pending causes where the
link carries the message; the regulator forgets the bytes it has used; an awake region pushes its counts. Readings and
choices of the model that it rests on: log 43, 44. -/
def Obligations.InterruptsAndPeriodicCounts : Prop :=
  (∀ (port fn : Nat) (value sets : Word) (s : State), fnTakes s port fn = true →
    ∃ t, exec (.irqStatusClear port fn value sets) s = .next t ∧
      (t.fn port fn).irqStatus = ((s.fn port fn).irqStatus &&& ~~~value) ||| (sets &&& irqBits port fn) ∧
      Touches [.rings, .ports, .out] s t) ∧
  (∀ (port : Nat) (s : State), linkUp (s.port port) = true →
    ∃ t, exec (.intaChange port) s = .next t ∧ (t.port port).inta = portPending s port ∧ Touches [.ports, .out] s t ∧
      (portPending s port = (s.port port).inta → t = s)) ∧
  (∀ (s : State), s.pac.restarting = false → ∃ t, exec .regulatorUpdate s = .next t ∧ Touches [.regions] s t ∧
    (∀ r, (t.region r).dramReq = [] ∧ (t.region r).nocReq = []) ∧
    ∀ r, ((t.region r).dramRate, (t.region r).nocRate) =
      ((((partIds s).foldl regulatePart s).region r).dramRate, (((partIds s).foldl regulatePart s).region r).nocRate)) ∧
  (∀ (r : Nat) (s : State), (s.region r).awake = true → ∃ t, exec (.counterPush r) s = .next t ∧ (t.region r).counts = [] ∧
    Touches [.parts, .regions] s t ∧
    ∀ p k n, (s.region r).counts = [(p * 128 + k, n)] → k < 128 →
      mget (t.part p).sch k = satAdd (2 ^ 64 - 1) (mget (s.part p).sch k) n) ∧
  ∀ (r : Nat) (s : State), (s.region r).awake = false → exec (.counterPush r) s = .next s

/-! ### DRAM and buffer pools -/

/-- A request beyond the stacks in service gets an error response; another waits for credit, is answered from a queued
write of its burst, or joins its queue. A refresh and an idle timeout close a row, a patrol read moves on, and a window
without a hot pseudo-channel ends the streak that would raise the epoch. Readings and choices of the model that it rests
on: log 44. -/
def Obligations.DramControllerCommands : Prop :=
  (∀ (r : DramReq) (ecc : Ecc) (s : State), dramBytes s ≤ r.addr → ∃ t, exec (.dramRequest r ecc) s = .next t ∧
    mget t.dram.resp r.router = ⟨r.addr, [], true⟩ ∧ t.dram.mem = s.dram.mem) ∧
  (∀ (r q : DramReq) (ecc : Ecc) (s u : State), r.addr < dramBytes s → profileReq s r = (q, u) →
    let p := u.pc (reqPc u q)
    let e := mkEntry u q ecc
    ∃ t, exec (.dramRequest r ecc) s = .next t ∧
      (hasCredit p q = false ∨ p.waiting ≠ [] → (t.pc (reqPc u q)).waiting = p.waiting ++ [(q, ecc)] ∧
        (t.pc (reqPc u q)).queue = p.queue) ∧
      (hasCredit p q = true → p.waiting = [] → ∀ w, queuedWrite p e.burst = some w → q.write = false →
        mget t.dram.resp q.router = ⟨q.addr, w.req.data, false⟩ ∧ (t.pc (reqPc u q)).queue = p.queue) ∧
      (hasCredit p q = true → p.waiting = [] → (q.write = false ∨ (reqMask q).length = 32) →
        (queuedWrite p e.burst = none ∨ q.write = true) → (reqMask q).length ≤ 32 →
        (t.pc (reqPc u q)).queue = p.queue ++ [e])) ∧
  (∀ (pc bank : Nat) (s : State), ∃ t, exec (.refreshDue pc bank) s = .next t ∧ (mget (t.pc pc).banks bank).openRow = 0 ∧
    mget (t.pc pc).ctr 9 = satAdd (2 ^ 64 - 1) (mget (s.pc pc).ctr 9) 1 ∧ Touches [.dram] s t) ∧
  (∀ (pc bank : Nat) (s : State), ∃ t, exec (.bankIdleTimeout pc bank) s = .next t ∧ (mget (t.pc pc).banks bank).openRow = 0 ∧
    (mget (t.pc pc).banks bank).tb = (mget (s.pc pc).banks bank).tb ∧ (t.pc pc).queue = (s.pc pc).queue ∧
    Touches [.dram] s t) ∧
  (∀ (pc : Nat) (s : State), ∃ t, exec (.patrolRead pc .clean) s = .next t ∧
    (t.pc pc).patrolNext = ((s.pc pc).patrolNext + 1) % 25165824 ∧
    mget (t.pc pc).ctr 7 = satAdd (2 ^ 64 - 1) (mget (s.pc pc).ctr 7) 1 ∧ Touches [.dram] s t) ∧
  (∀ (pc : Nat) (s : State), ∃ t, exec (.patrolRead pc .uncorrectable) s = .next t ∧
    t.dram.ueAddr = patrolAddr s pc (s.pc pc).patrolNext ∧ t.dram.mem = s.dram.mem) ∧
  ∀ (s : State), ∃ t, exec .imbalanceWindow s = .next t ∧ (∀ pc, (t.pc pc).served = 0 ∧ (t.pc pc).busy = 0) ∧
    ((∀ pc ∈ pcsUp s, pcHot s pc = false) → t.dram.streak = 0 ∧ t.dram.epoch = s.dram.epoch) ∧
    ((∃ pc ∈ pcsUp s, pcHot s pc = true) →
      (s.dram.streak + 1 < 64 → t.dram.streak = s.dram.streak + 1 ∧ t.dram.epoch = s.dram.epoch) ∧
      (64 ≤ s.dram.streak + 1 → s.dram.raisedAt = 0 ∨ 1000 ≤ s.dram.sinceRaise + 1 →
        t.dram.streak = 0 ∧ t.dram.epoch = (s.dram.epoch + 1) % 2 ^ 16))

/-- An allocation within its quota takes a buffer and owns it, another is refused; a free by the last owner returns the
buffer to its pool, and one of a buffer that the requester does not own changes no buffer; either is followed by another
try to place the streams that have no engine, which may take a buffer; a share by an owner adds owners; the fill engine
zeroes a free buffer. Readings and choices of the model that it rests on: log 6, 44. -/
def Obligations.BufferPoolCommands : Prop :=
  (∀ (who k a : Nat) (zero : Bool) (s : State), allocWithin s who k = true → chooseBuffer s who k = some (a, zero) →
    ∃ t salt, exec (.bpmAllocate who k) s = .next t ∧ t.bpm.answer = some (a, salt) ∧ mget t.bpm.charged a = who ∧
      mfind t.bpm.desc a = some (descWord 1 (2 ^ who) (dLast (descOf (saltGroup s (groupOf s a)).2 a)) salt) ∧
      a ∉ mget t.bpm.freed k ∧ a ∉ t.bpm.zeroed) ∧
  (∀ (who k : Nat) (s : State), allocWithin s who k = false →
    ∃ t, exec (.bpmAllocate who k) s = .next t ∧ t.bpm = { s.bpm with answer := none } ∧ Touches [.parts, .bpm] s t) ∧
  (∀ (who a k : Nat) (s : State), bufferStart s a = some k → dState (descOf s a) ≠ 0 →
    dOwners (descOf s a) = 2 ^ who → a ∉ s.bpm.pendingQuar →
    ∃ t u, exec (.bpmFree who a) s = .next t ∧ t = engineAssignAll (mkeys s.streams) u ∧
      mfind u.bpm.desc a = some (descWord 0 0 who (dSalt (descOf s a))) ∧
      mget u.bpm.freed k = a :: mget s.bpm.freed k ∧ mfind u.bpm.charged a = none) ∧
  (∀ (who a k : Nat) (s : State), bufferStart s a = some k → dOwners (descOf s a) / 2 ^ who % 2 = 0 →
    ∃ t u, exec (.bpmFree who a) s = .next t ∧ t = engineAssignAll (mkeys s.streams) u ∧ u.bpm = s.bpm) ∧
  (∀ (who a k owners : Nat) (s : State), bufferStart s a = some k → dState (descOf s a) ≠ 0 →
    dOwners (descOf s a) / 2 ^ who % 2 = 1 →
    ∃ t, exec (.bpmShare who a owners) s = .next t ∧ Touches [.bpm] s t ∧
      mfind t.bpm.desc a = some (descWord 2 ((dOwners (descOf s a) ||| owners) % 512) (dLast (descOf s a)) (dSalt (descOf s a)))) ∧
  (∀ (k a : Nat) (l : List Nat) (s : State), poolUnzeroed s k = a :: l →
    ∃ t, exec (.bpmZeroIdle k) s = .next t ∧ t.bpm = { s.bpm with zeroed := s.bpm.zeroed ++ [a] } ∧ Touches [.mem, .bpm] s t) ∧
  ∀ (k : Nat) (s : State), poolUnzeroed s k = [] → exec (.bpmZeroIdle k) s = .next s

/-- What poisoned data does, by the unit that receives it. Readings and choices of the model that it rests on: log 9,
39, 47. -/
def Obligations.PoisonedData : Prop :=
  ∀ s : State,
    (∀ cell, exec (.poisonedDataReceive (.activation cell)) s = .next (abortRunning s cell (2 ^ 64 + cell))) ∧
    (∀ cell graph, exec (.poisonedDataReceive (.weights cell graph)) s = .next (poisonWeights s cell graph)) ∧
    (∀ slot c, (s.stream slot).dec.cur = some c → ∃ t, exec (.poisonedDataReceive (.reference slot)) s = .next t ∧
      (t.stream slot).dec.cur = some { c with poisoned := true } ∧ (∀ i, i ≠ slot → t.stream i = s.stream i) ∧
      Touches [.streams] s t) ∧
    (∀ slot a, (s.stream slot).ing.au = some a → ∃ t, exec (.poisonedDataReceive (.ingress slot)) s = .next t ∧
      (t.stream slot).ing.au = some { a with damaged := true } ∧ Touches [.streams] s t) ∧
    (∀ i, exec (.poisonedDataReceive (.context i)) s = .next (recordError s i)) ∧
    (∀ slot fid, stagedOf s slot = some fid → exec (.poisonedDataReceive (.staging slot)) s =
      .next (raiseLogOf (discardFrame s fid 6) uDx (slotPart s slot) slot)) ∧
    ∀ pool first, exec (.poisonedDataReceive (.descriptor pool first)) s =
      .next (raiseLog ((pageBuffers s.run pool first).foldl quarantine s) uBpm)

/-! ### Power -/

/-- A grant sets the tokens of the awake regions, less their overdraw; a sample enters the averages, and no region is
lowered for overdraw unless it has overdrawn ten times running; the choice of points covers the awake regions and
exceeds no region's vp_max. A transition ends no earlier than 3 µs after its change of VSEL; 20 µs without PGOOD abandon
a raise and otherwise fence the region, as a loss of PGOOD outside a transition does. An idle region that policy lets
park parks; a wake that a hold or a waiting batch asks for starts, or is deferred by PWRBRK_N, and its end brings the
region back with full buckets. Readings and choices of the model that it rests on: log 5, 23, 45. -/
def Obligations.RegionPowerCommands : Prop :=
  (∀ s : State, s.pac.restarting = false → ∃ t, exec .tokenGrant s = .next t ∧ Touches [.regions, .pac] s t ∧
    ∀ r, ((s.region r).awake = true → (s.region r).fenced = false → r < 8 →
        (t.region r).grant = (grantBase s (s.region r)).1 - (s.region r).overdraw ∧ (t.region r).overdraw = 0) ∧
      ((s.region r).awake = false ∨ (s.region r).fenced = true ∨ 8 ≤ r → t.region r = s.region r)) ∧
  (∀ (m : RailSample) (s : State), s.pac.restarting = false → ∃ u, exec (.powerSample m) s = .next (lowerOverdrawn (List.range 8) u) ∧
    (∀ r < 8, (u.region r).railPower = sampleAvg (addSample (m.regions.getD r 0) (s.region r).samples)) ∧
    u.pac.power = sampleAvg (addSample (sumNat (m.regions.take 8) + m.other) s.pac.samples) ∧
    u.pac.uncore = sampleAvg (addSample m.other s.pac.uncoreSamples) ∧
    ((∀ r < 8, (s.region r).overStreak < 10) → lowerOverdrawn (List.range 8) u = u)) ∧
  (∀ s : State, s.pac.restarting = false → ∃ chosen limit t, exec .vfChoice s = .next t ∧
    t = { vfApplyAll chosen s with pac := { (vfApplyAll chosen s).pac with riseLimit := limit } } ∧
    (∀ q ∈ chosen, q.1 < 8 ∧ (s.region q.1).awake = true ∧ (s.region q.1).fenced = false ∧ q.2.1 ≤ vpMax s q.1) ∧
    (∀ r < 8, (s.region r).awake = true → (s.region r).fenced = false →
      (regionBusy s r = false → (r, min (vpMin s r) (vpMax s r), 1000) ∈ chosen) ∧ ∃ q ∈ chosen, q.1 = r)) ∧
  (∀ (r : Nat) (x : Trans) (s : State), (s.region r).trans = some x → s.now < x.vselAt + 300 →
    exec (.vfTransitionEnd r) s = .next s) ∧
  (∀ (r : Nat) (x : Trans) (s : State), (s.region r).trans = some x → x.vselAt + 300 ≤ s.now →
    ∃ u, exec (.vfTransitionEnd r) s = .next (if s.pac.restarting then u else followTarget u r) ∧ Touches [.regions, .pac] s u ∧
      u.region r = { s.region r with pgood := true, trans := none, vp := if x.kind = 1 then x.dest else (s.region r).vp }) ∧
  (∀ (r : Nat) (x : Trans) (s : State), (s.region r).trans = some x → (s.region r).pgood = false → x.vselAt + 2000 ≤ s.now →
    (x.kind = 1 → ∃ t, exec (.pgoodTimeout r) s = .next t ∧ t.region r = { s.region r with
      vsel := (s.region r).vp, target := (s.region r).vp, trans := some ⟨2, (s.region r).vp, (s.region r).vp, s.now⟩ }) ∧
    (x.kind ≠ 1 → exec (.pgoodTimeout r) s = .next (regionFence s r))) ∧
  (∀ (r : Nat) (s : State), (s.region r).awake = true ∨ (s.region r).waking = true →
    ∃ u, u = s.updRegion r (fun x => { x with pgood := false }) ∧
      ((s.region r).trans.isSome = true → exec (.pgoodLow r) s = .next u) ∧
      ((s.region r).trans = none → exec (.pgoodLow r) s = .next (regionFence u r))) ∧
  (∀ (r : Nat) (s : State), parkAllowed s r = true → ∃ t, exec (.regionPark r) s = .next t ∧ (t.region r).awake = false ∧
    (t.region r).trans = none ∧ (t.region r).grant = 0 ∧ (t.region r).held = 0 ∧ (t.region r).shadow = [] ∧
    (t.region r).counts = []) ∧
  (∀ (r : Nat) (s : State), s.pac.restarting = false → (holdBit s r || wakeForBatch s r) = true →
    (s.region r).awake = false → (s.region r).waking = false → (s.region r).fenced = false → (s.region r).pgood = true →
    ∃ t, exec (.regionWake r) s = .next t ∧ Touches [.regions, .pac] s t ∧
      (pwrbrk s = true → t.region r = { s.region r with wakeDeferred := true }) ∧
      (pwrbrk s = false → (t.region r).waking = true ∧ (t.region r).vp = vpMin s r ∧
        (t.region r).trans = some ⟨3, vpMin s r, vpMin s r, s.now⟩)) ∧
  ∀ (r : Nat) (s : State), (s.region r).waking = true → (∀ x, (s.region r).trans = some x →
      (s.region r).pgood = true ∧ x.vselAt + 300 ≤ s.now) →
    ∃ t, exec (.wakeComplete r) s = .next t ∧ Touches [.regions, .blocks, .cells, .sram] s t ∧ (t.region r).awake = true ∧
      (t.region r).waking = false ∧ (t.region r).trans = none ∧ (t.region r).tokWait = 0 ∧
      ∀ p < 8, mget (t.region r).dramTok p = bucketFull ∧ mget (t.region r).nocTok p = bucketFull

/-- With every rail in range or in transition, PWRBRK_N and THERM_IN_N bring every unfenced region that is awake or
waking to VP0, unless a raise to VP0 is under way, PWRBRK_N at the reserve's grant; a release lifts the input and limits
the rise. A sensor above the limit holds its region at VP3 until it has cooled by 5 °C, and 125 °C asserts the trip. A
window of more than 1,000 transitions shows chatter; an input active for 1 s is stuck until released. Readings and
choices of the model that it rests on: log 45. -/
def Obligations.BoardInputCommands : Prop :=
  (∀ s : State, (∀ r < 8, (s.region r).pgood = true ∨ (s.region r).trans.isSome = true) →
    ∃ t, exec .pwrbrkAssert s = .next t ∧ (mget t.aon.inputs 0).active = true ∧
      ∀ r < 8, (s.region r).fenced = false → (s.region r).awake = true ∨ (s.region r).waking = true →
        (∀ x, (s.region r).trans = some x → x.kind = 1 → 0 < x.dest) →
        (t.region r).vp = 0 ∧ ((s.region r).awake = true → (t.region r).grant = 2)) ∧
  (∀ s : State, (∀ r < 8, (s.region r).pgood = true ∨ (s.region r).trans.isSome = true) →
    ∃ t, exec .thermInAssert s = .next t ∧ (mget t.aon.inputs 1).active = true ∧
      ∀ r < 8, (s.region r).fenced = false → (s.region r).awake = true ∨ (s.region r).waking = true →
        (∀ x, (s.region r).trans = some x → x.kind = 1 → 0 < x.dest) → (t.region r).vp = 0) ∧
  (∀ s : State, pwrbrk s = true → ∃ t, exec .pwrbrkRelease s = .next t ∧ (mget t.aon.inputs 0).active = false ∧
    (mget t.aon.inputs 0).stuck = false ∧ t.pac.riseLimit = true) ∧
  (∀ s : State, therm s = true → ∃ t, exec .thermInRelease s = .next t ∧ (mget t.aon.inputs 1).active = false ∧
    (mget t.aon.inputs 1).stuck = false ∧ t.pac.riseLimit = true ∧ Touches [.pac, .aon] s t) ∧
  (∀ (r : Nat) (tj unc : Int) (s : State), ∃ u, (u.region r).tj = tj ∧
    (u.aon.thermTrip = true ↔ s.aon.thermTrip = true ∨ 2000 ≤ tj ∨ 2000 ≤ unc) ∧
    (s.pac.restarting = false → tjLimit s < tj → (s.region r).tempHold = false → (u.region r).tempHold = true ∧
      exec (.tempSensorRead r tj unc) s = .next (forceLower (raiseAlarm u (uRg + r) 0x83) r 3)) ∧
    (s.pac.restarting = false → tj ≤ tjLimit s - 80 → (u.region r).tempHold = false ∧
      exec (.tempSensorRead r tj unc) s = .next u) ∧
    (s.pac.restarting = true ∨ (tj ≤ tjLimit s ∨ (s.region r).tempHold = true) ∧ tjLimit s - 80 < tj →
      (u.region r).tempHold = (s.region r).tempHold ∧ exec (.tempSensorRead r tj unc) s = .next u)) ∧
  (∀ (n : List Nat) (s : State), ∃ t, exec (.chatterWindow n) s = .next t ∧
    ∀ i < 5, (mget t.aon.inputs i).chatter = decide (1000 < n.getD i 0) ∧
      (mget t.aon.inputs i).active = (mget s.aon.inputs i).active) ∧
  (∀ (i : Nat) (s : State), (mget s.aon.inputs i).active = true → (mget s.aon.inputs i).stuck = false → i < 4 →
    ∃ t, exec (.inputStuck i) s = .next t ∧ (mget t.aon.inputs i).stuck = true) ∧
  ∀ (i : Nat) (s : State), (mget s.aon.inputs i).stuck = true → i < 4 →
    ∃ t, exec (.inputStuckRelease i) s = .next t ∧ (mget t.aon.inputs i).active = false ∧ (mget t.aon.inputs i).stuck = false ∧
      (2 ≤ i → (t.port (i - 2)).perst = false) ∧ (i < 2 → t.pac.riseLimit = true)

/-! ### Resets, power states, restarts, telemetry and the management port -/

/-- A reset of a present function that is not under reset is counted and puts it under reset, without rings; its
completion ends it. A hot reset, a link down and PERST take the port's link down and put every present function under
reset; the release of PERST lets the link train again, and the link comes up to L0. PME_Turn_Off is acknowledged and
ends in L2/L3 Ready with every function in D3hot; a wake event sends PM_PME or drives WAKE_N, again each 100 ms.
Readings and choices of the model that it rests on: log 21, 43. -/
def Obligations.PortResetsAndPowerManagement : Prop :=
  (∀ (p f : Nat) (s : State), fnPresent s p f = true → (s.fn p f).resetting = false → ∃ t, exec (.flr p f) s = .next t ∧
    t.aon.flrs = satAdd 255 s.aon.flrs 1 ∧ (t.fn p f).resetting = true ∧ (t.fn p f).rings = [] ∧ (t.fn p f).bme = false ∧
    (t.fn p f).irqMask = 0 ∧ (t.fn p f).dstate = 0) ∧
  (∀ (p f : Nat) (s : State), fnPresent s p f = false ∨ (s.fn p f).resetting = true → exec (.flr p f) s = .next s) ∧
  (∀ (p f : Nat) (s : State), (s.fn p f).resetting = true → ∃ t, exec (.flrComplete p f) s = .next t ∧
    (t.fn p f).resetting = false ∧ ((∀ g < 4, g ≠ f → (s.fn p g).resetting = false) → (t.port p).resetting = false)) ∧
  (∀ (p : Nat) (s : State) (c : Instr), portActive s p = true →
    c = .hotReset p ∨ c = .dlDown p ∨ (c = .perstAssert p ∧ p < 2 ∧ (s.port p).perst = false) →
    ∃ t, exec c s = .next t ∧ (t.port p).link = 0 ∧ (t.port p).inta = false ∧
      (∀ f < 4, fnPresent s p f = true → (t.fn p f).resetting = true) ∧ (∀ w ∈ t.waits, waitPort w ≠ p) ∧
      (c = .perstAssert p → (t.port p).perst = true ∧ (t.port p).wake = false ∧ (t.port p).training = false) ∧
      (c ≠ .perstAssert p → (t.port p).training = portReleased s)) ∧
  (∀ (p : Nat) (s : State), p < 2 → (s.port p).perst = true → ∃ t, exec (.perstDeassert p) s = .next t ∧
    (t.port p).perst = false ∧ (t.port p).training = (portActive s p && portReleased s) ∧
    (mget t.aon.inputs (2 + p)).active = false ∧ Touches [.ports, .aon] s t) ∧
  (∀ (p rate width : Nat) (s : State), portActive s p = true → (s.port p).training = true → (s.port p).perst = false →
    (s.port p).link ≠ 3 → ∃ t, exec (.pcieLinkUp p rate width) s = .next t ∧ (t.port p).link = 1 ∧ (t.port p).rate = rate ∧
      (t.port p).width = width ∧ Touches [.ports, .out] s t) ∧
  (∀ (p : Nat) (s : State), portActive s p = true → linkUp (s.port p) = true → ∃ t, exec (.pmeTurnOff p) s = .next t ∧
    t.out = .pmeToAck p :: s.out ∧ t.port p = { s.port p with link := if allD3 s p then 3 else (s.port p).link } ∧
    Touches [.ports, .out] s t) ∧
  (∀ (p f : Nat) (s : State), fnPresent s p f = true → (s.fn p f).dstate = 3 → (s.fn p f).pmeEn = true →
    (s.fn p f).pmeStatus = false → irqCause (s.fn p f) = true → ∃ t, exec (.pmeSignal p f) s = .next t ∧
      (t.fn p f).pmeStatus = true ∧ Touches [.fns, .ports, .out] s t ∧
      (linkUp (s.port p) = true → t.out = .pmPme p f :: s.out ∧ (t.port p).link = 1) ∧
      ((s.port p).link = 3 → t.out = s.out ∧ (t.port p).wake = true)) ∧
  ∀ (p f : Nat) (s : State), fnPresent s p f = true → (s.fn p f).pmeStatus = true → ∃ t, exec (.pmeRepeat p f) s = .next t ∧
    Touches [.ports, .out] s t ∧ (linkUp (s.port p) = true → t.out = .pmPme p f :: s.out ∧ (t.port p).link = 1) ∧
    ((s.port p).link = 3 → t.out = s.out ∧ (t.port p).wake = true)

/-- A fault fences a decode engine or a resampler and restarts the five units that restart in place; a unit is back
after its restart. The PAC, the SCU and the TU restart with an alarm: the PAC loses its samples, the SCU the key step
that it was in, the TU its staged events but alarms; a resume goes on to the accesses that waited for them. Readings and
choices of the model that it rests on: log 26, 47. -/
def Obligations.UnitAndControllerRestarts : Prop :=
  (∀ (g : Nat) (s : State), g < 8 → (mget s.engines g).fenced = false → ∃ u,
    exec (.unitFault uDe g) s = .next (raiseAlarm u uDe 0x80) ∧ (mget u.engines g).fenced = true) ∧
  (∀ (g : Nat) (s : State), 8 ≤ g ∨ (mget s.engines g).fenced = true → exec (.unitFault uDe g) s = .next s) ∧
  (∀ (r : Nat) (s : State), 4 ≤ r ∨ (mget s.resamplers r).fenced = true → exec (.unitFault uRs r) s = .next s) ∧
  (∀ (r : Nat) (s : State), r < 4 → (mget s.resamplers r).fenced = false → ∃ u,
    exec (.unitFault uRs r) s = .next (raiseAlarm u uRs 0x80) ∧ (mget u.resamplers r).fenced = true ∧
    (mget u.resamplers r).cur = none ∧ ((mget s.resamplers r).cur = none → Touches [.resamplers] s u)) ∧
  (∀ (n i : Nat) (s : State), restartable n = true → ∃ t, exec (.unitFault n i) s = .next t ∧ n ∈ t.unitsDown ∧
    t.aon.unitRestarts = satAdd 255 s.aon.unitRestarts 1 ∧ (n = uCtx → t.store.sets = []) ∧ (n = uBpm → t.bpm.answer = none)) ∧
  (∀ (n i : Nat) (s : State), n ≠ uDe → n ≠ uRs → restartable n = false → exec (.unitFault n i) s = .next s) ∧
  (∀ (n : Nat) (s : State), ∃ t, exec (.unitRestartDone n) s = .next t ∧ (∀ m, m ∈ t.unitsDown ↔ m ∈ s.unitsDown ∧ m ≠ n) ∧
    Touches [.unitsDown] s t) ∧
  (∀ s : State, s.por = false →
    (∃ u, exec (.controllerRestart uPac) s = .next (raiseAlarm u uPac 0x80) ∧ u.pac.restarting = true ∧ u.pac.samples = [] ∧
      (∀ r, (u.region r).samples = [] ∧ (u.region r).vp = (s.region r).vp ∧ (u.region r).grant = (s.region r).grant) ∧
      u.aon.pacRestarts = satAdd 255 s.aon.pacRestarts 1) ∧
    (∃ u, exec (.controllerRestart uScu) s = .next (raiseAlarm u uScu 0x80) ∧ u.scu.restarting = true ∧
      u.aon.scuRestarts = satAdd 255 s.aon.scuRestarts 1 ∧ u.fuses = s.fuses ∧ u.key.state ≠ 1) ∧
    (∃ u, exec (.controllerRestart uTu) s = .next (raiseAlarm u uTu 0x80) ∧ u.tu.restarting = true ∧
      (∀ p, (u.path p).staged = (s.path p).staged.filter isAlarmEv) ∧ u.aon.tuRestarts = satAdd 255 s.aon.tuRestarts 1)) ∧
  ∀ s : State,
    (s.pac.restarting = true → ∃ u, exec (.controllerResume uPac) s = .next (performWaits u) ∧ u.pac.restarting = false) ∧
    (s.scu.restarting = true → ∃ u, exec (.controllerResume uScu) s = .next (performWaits (moultFinish u)) ∧
      u = { s with scu := { s.scu with restarting := false } }) ∧
    (s.tu.restarting = true → ∃ u, exec (.controllerResume uTu) s =
        .next (performWaits ((List.range 8).foldl (fun s k => pumpEvents s (k / 4) (k % 4)) u)) ∧ u.tu.restarting = false ∧
      (∀ p, u.path p = pathResend s p (s.path p)) ∧ ((u.path 1).staged.any isAlarmEv = true → u.tu.mpAlert = true))

/-- An alarm enters the alarm table; an event goes to the paths that carry it when the policy selects it, and nowhere
else. The exponent of a path follows its fill; a packet carries the oldest 38 events, or all, in order; a summary goes
to every enabled path and clears the releases it reports. Readings and choices of the model that it rests on: log 9, 10,
46. -/
def Obligations.TelemetryEvents : Prop :=
  (∀ (e : EvSpec) (s : State), ∃ t, exec (.eventStage e) s = .next t ∧ Touches [.rings, .alarms, .tu, .out] s t ∧
    t.aon.alarms = (if e.cls = 1 then tableAlarm s.aon.alarms (evKind e) s.now else s.aon.alarms) ∧
    (e.cls ≠ 1 → t = if s.hasCfg && evSelected s e then
      stageOnAll ⟨e, e.cls, 1, s.now, s.now⟩ (evPaths s e.cls e.part) s else s)) ∧
  (∀ (e : Ev) (p : Nat) (s : State), p < 2 → s.tu.restarting = false →
    (stageOn s e p).path p = pathStage (pathCap p) (s.path p) e ∧ ∀ q, q ≠ p → (stageOn s e p).path q = s.path q) ∧
  (∀ (p : Nat) (s : State), ∃ t, exec (.traceExponentTick p) s = .next t ∧ Touches [.tu] s t ∧
    (t.path p).staged = (s.path p).staged ∧
    (pathCap p ≤ 4 * (s.path p).staged.length → (t.path p).k = max (traceKMin s) (min 15 ((s.path p).k + 1))) ∧
    (4 * (s.path p).staged.length < pathCap p →
      ((s.path p).msLow < 9 → (t.path p).k = max (traceKMin s) (s.path p).k ∧ (t.path p).msLow = (s.path p).msLow + 1) ∧
      (9 ≤ (s.path p).msLow → (t.path p).k = max (traceKMin s) ((s.path p).k - 1) ∧ (t.path p).msLow = 0))) ∧
  (∀ s : State, pathEnabled s 0 = true → s.tu.restarting = false → (s.path 0).staged ≠ [] →
    let c := s.run.telemetry
    let seq := (s.tu.ethSeq + 1) % 2 ^ 32
    ∃ t u, exec .telemetryPacketSend s = .next t ∧ Touches [.tu] s u ∧
    t = sendUdp u (teEthPort c) (teCollector c) 0 (.udp (teEthPort c) (teCollector c) (teUdpPort c) (teUdpPort c)
      Config.telemetryHop.toNat (teDscp c) 0 false 0 0
      (telemetryPayload seq (s.path 0).lost ((s.path 0).staged.take 38))) ∧
    (t.path 0).staged = (s.path 0).staged.drop 38 ∧ (t.path 0).lost = 0 ∧
    t.tu.ethSeq = (s.tu.ethSeq + 1) % 2 ^ 32 ∧ (∀ p, p ≠ 0 → t.path p = s.path p) ∧ Touches [.nps, .tu, .out] s t) ∧
  ∀ s : State, s.imago = true → s.tu.restarting = false → ∃ t, exec .summaryTimer s = .next t ∧
    t.tu = (summaryPaths ((List.range 10).filter (pathEnabled s)) s).tu ∧
    (∀ i, mget t.aon.inputs i = { mget s.aon.inputs i with releasedStuck := false }) ∧ Touches [.rings, .aon, .tu, .out, .freeIx] s t

/-- MP does not acknowledge its address before the end of phase FUSE; then it answers each command, keeps the pointer
within the register block and the events until they are removed, refuses a bad value or PEC, and answers an alert once.
Readings and choices of the model that it rests on: log 9, 46. -/
def Obligations.ManagementPortCommands : Prop :=
  (∀ (c : Instr) (v : Nat) (ok : Bool) (s : State), mpAnswers s = false →
    c = .mpIdentify ∨ c = .mpSetPointer v ok ∨ c = .mpReadRegisters ∨ c = .mpReadEvents ∨ c = .mpRemoveEvents v ok →
    exec c s = .next { s with out := .smbAck false :: s.out }) ∧
  (∀ s : State, mpAnswers s = true → exec .mpIdentify s = .next { s with out := .smbBlock (toLe 4 (aonId s).toNat ++
    toLe 1 s.run.partitions.length ++ toLe 1 s.scu.keySlot ++ zeros 2) :: s.out }) ∧
  (∀ (v : Nat) (s : State), mpAnswers s = true → v % 4 = 0 → v < 0xC00 → exec (.mpSetPointer v true) s =
    .next { s with tu := { s.tu with mpPtr := v }, out := .smbAck true :: s.out }) ∧
  (∀ (v : Nat) (ok : Bool) (s : State), mpAnswers s = true → ok = false ∨ v % 4 ≠ 0 ∨ 0xC00 ≤ v →
    exec (.mpSetPointer v ok) s = .next (raiseLog { s with out := .smbAck false :: s.out } uMp)) ∧
  (∀ s : State, mpAnswers s = true → ∃ (ws : List Word) (t : State), exec .mpReadRegisters s = .next t ∧ ws.length = 8 ∧
    (∃ l, t.out = .smbBlock (ws.flatMap (fun w => toLe 4 w.toNat)) :: l) ∧ 
    t.tu.mpPtr = (s.tu.mpPtr + 32) % 0xC00 ∧ Touches [.fns, .tu, .out] s t) ∧
  (∀ s : State, mpAnswers s = true → ∃ t, exec .mpReadEvents s = .next t ∧
    t.tu = { s.tu with mpLast := min 7 (s.path 1).staged.length } ∧
    t.out = .smbBlock (toLe 1 (min 7 (s.path 1).staged.length) ++ toLe 1 (min 255 ((s.path 1).staged.length / 2)) ++
      ((s.path 1).staged.take 7).flatMap evBytes) :: s.out ∧ Touches [.tu, .out] s t) ∧
  (∀ (m : Nat) (s : State), mpAnswers s = true → 0 < m → m ≤ 7 → ∃ t, exec (.mpRemoveEvents m true) s = .next t ∧
    (t.path 1).staged = (s.path 1).staged.drop (min m s.tu.mpLast) ∧ t.tu.mpLast = s.tu.mpLast - min m s.tu.mpLast ∧
    t.out = .smbAck true :: s.out ∧ Touches [.tu, .out] s t) ∧
  (∀ (m : Nat) (ok : Bool) (s : State), mpAnswers s = true → ok = false ∨ m = 0 ∨ 7 < m →
    exec (.mpRemoveEvents m ok) s = .next (raiseLog { s with out := .smbAck false :: s.out } uMp)) ∧
  (∀ s : State, mpAnswers s = true → s.tu.mpAlert = true → exec .mpAlertResponse s =
    .next { s with tu := { s.tu with mpAlert := false }, out := .smbAlertAddress (0x58 + s.aon.smbAddr) :: s.out }) ∧
  ∀ s : State, exec .smbusClockTimeout s = .next (raiseLog s uMp)
end

