-- ==== Sys2Proof/Laws/Cells.lean ====
section
/-! SUPPORT. The laws of memories kept as sorted cells: what a read after a write gives, and that every operation keeps
the canonical form. -/

set_option Elab.async false

namespace Sys2Proof.Machine

theorem cellsFrom_mono (u : Byte) (m : List Host.Cell) (a b : Nat) (h : a ≤ b) (k : cellsFrom u b m = true) :
    cellsFrom u a m = true := by
  cases m with
  | nil => rfl
  | cons c t =>
    obtain ⟨x, v⟩ := c
    simp only [cellsFrom, Bool.and_eq_true, decide_eq_true_eq] at k ⊢
    exact ⟨⟨Nat.le_trans h k.1.1, k.1.2⟩, k.2⟩

theorem cellWrite_from (u : Byte) (m : List Host.Cell) (lo a : Nat) (b : Byte) (ha : lo ≤ a) (h : cellsFrom u lo m = true) :
    cellsFrom u lo (cellWrite u m a b) = true := by
  induction m generalizing lo with
  | nil =>
    unfold cellWrite
    split
    · rfl
    · simp_all [cellsFrom]
  | cons c t ih =>
    obtain ⟨x, v⟩ := c
    simp only [cellsFrom, Bool.and_eq_true, decide_eq_true_eq] at h
    obtain ⟨⟨h1, h2⟩, h3⟩ := h
    unfold cellWrite
    split
    · split
      · simp_all [cellsFrom]
      · simp only [cellsFrom, Bool.and_eq_true, decide_eq_true_eq]
        refine ⟨⟨ha, by simp_all⟩, ⟨by omega, h2⟩, h3⟩
    · split
      · rename_i e
        subst e
        split
        · exact cellsFrom_mono u t lo (a + 1) (by omega) h3
        · simp_all [cellsFrom]
      · simp only [cellsFrom, Bool.and_eq_true, decide_eq_true_eq]
        exact ⟨⟨h1, h2⟩, ih (x + 1) (by omega) h3⟩

/-- A write of one byte keeps the canonical form. -/
theorem cellWrite_wf (u : Byte) (m : List Host.Cell) (a : Nat) (b : Byte) (h : cellsWf u m = true) :
    cellsWf u (cellWrite u m a b) = true := cellWrite_from u m 0 a b (Nat.zero_le a) h

/-- A write of bytes keeps the canonical form. -/
theorem cellWriteBytes_wf (u : Byte) (m : List Host.Cell) (a : Nat) (b : Bytes) (h : cellsWf u m = true) :
    cellsWf u (cellWriteBytes u m a b) = true := by
  induction b generalizing m a with
  | nil => exact h
  | cons x t ih => exact ih _ _ (cellWrite_wf u m a x h)

theorem cellsFrom_filter (u : Byte) (p : Host.Cell → Bool) (m : List Host.Cell) (lo : Nat) (h : cellsFrom u lo m = true) :
    cellsFrom u lo (m.filter p) = true := by
  induction m generalizing lo with
  | nil => rfl
  | cons c t ih =>
    obtain ⟨x, v⟩ := c
    simp only [cellsFrom, Bool.and_eq_true, decide_eq_true_eq] at h
    obtain ⟨⟨h1, h2⟩, h3⟩ := h
    rw [List.filter_cons]
    split
    · simp only [cellsFrom, Bool.and_eq_true, decide_eq_true_eq]
      exact ⟨⟨h1, h2⟩, ih _ h3⟩
    · exact cellsFrom_mono u _ lo (x + 1) (by omega) (ih _ h3)

/-- Clearing a range keeps the canonical form. -/
theorem cellClear_wf (u : Byte) (m : List Host.Cell) (a n : Nat) (h : cellsWf u m = true) :
    cellsWf u (cellClear m a n) = true := cellsFrom_filter u _ m 0 h

theorem cellRead_below (u : Byte) (m : List Host.Cell) (lo a : Nat) (h : cellsFrom u lo m = true) (k : a < lo) :
    cellRead u m a = u := by
  induction m generalizing lo with
  | nil => rfl
  | cons c t ih =>
    obtain ⟨x, v⟩ := c
    simp only [cellsFrom, Bool.and_eq_true, decide_eq_true_eq] at h
    obtain ⟨⟨h1, h2⟩, h3⟩ := h
    rw [cellRead, if_neg (by omega)]
    exact ih (x + 1) h3 (by omega)

/-- A read of the written address gives the byte written. -/
theorem cellRead_cellWrite (u : Byte) (m : List Host.Cell) (lo a : Nat) (b : Byte) (h : cellsFrom u lo m = true) :
    cellRead u (cellWrite u m a b) a = b := by
  induction m generalizing lo with
  | nil =>
    unfold cellWrite
    split <;> simp_all [cellRead]
  | cons c t ih =>
    obtain ⟨x, v⟩ := c
    simp only [cellsFrom, Bool.and_eq_true, decide_eq_true_eq] at h
    obtain ⟨⟨h1, h2⟩, h3⟩ := h
    unfold cellWrite
    split
    · split
      · rename_i e
        subst e
        rw [cellRead, if_neg (by omega)]
        exact cellRead_below _ t (x + 1) a h3 (by omega)
      · simp [cellRead]
    · split
      · rename_i e
        subst e
        split
        · rename_i e
          subst e
          exact cellRead_below _ t (a + 1) a h3 (by omega)
        · simp [cellRead]
      · rw [cellRead, if_neg (by omega)]
        exact ih (x + 1) h3

/-- A read of another address gives what it gave before. -/
theorem cellRead_cellWrite_ne (u : Byte) (m : List Host.Cell) (a c : Nat) (b : Byte) (h : cellsWf u m = true)
    (hc : c ≠ a) : cellRead u (cellWrite u m a b) c = cellRead u m c := by
  suffices ∀ lo, cellsFrom u lo m = true → cellRead u (cellWrite u m a b) c = cellRead u m c from this 0 h
  clear h
  induction m with
  | nil =>
    intro lo _
    unfold cellWrite
    split
    · rfl
    · simp [cellRead, Ne.symm hc]
  | cons q t ih =>
    intro lo h
    obtain ⟨x, v⟩ := q
    simp only [cellsFrom, Bool.and_eq_true, decide_eq_true_eq] at h
    obtain ⟨⟨h1, h2⟩, h3⟩ := h
    unfold cellWrite
    split
    · split
      · rfl
      · rw [cellRead, if_neg (Ne.symm hc)]
    · split
      · rename_i e
        subst e
        split
        · rw [cellRead, if_neg (Ne.symm hc)]
        · rw [cellRead, if_neg (Ne.symm hc), cellRead, if_neg (Ne.symm hc)]
      · rw [cellRead, cellRead, ih (x + 1) h3]

/-- A read outside a cleared range gives what it gave before. -/
theorem cellRead_cellClear_out (u : Byte) (m : List Host.Cell) (a n c : Nat) (hc : c < a ∨ a + n ≤ c) :
    cellRead u (cellClear m a n) c = cellRead u m c := by
  unfold cellClear
  induction m with
  | nil => rfl
  | cons q t ih =>
    obtain ⟨x, v⟩ := q
    rw [List.filter_cons]
    split
    · rw [cellRead, cellRead, ih]
    · rename_i e
      have : x ≠ c := by
        intro k
        subst k
        simp only [Bool.or_eq_true, decide_eq_true_eq] at e
        exact e hc
      rw [ih, cellRead, if_neg this]

/-- A read inside a cleared range gives the unlisted value. -/
theorem cellRead_cellClear_in (u : Byte) (m : List Host.Cell) (a n c : Nat) (h1 : a ≤ c) (h2 : c < a + n) :
    cellRead u (cellClear m a n) c = u := by
  unfold cellClear
  induction m with
  | nil => rfl
  | cons q t ih =>
    obtain ⟨x, v⟩ := q
    rw [List.filter_cons]
    split
    · rename_i e
      have : x ≠ c := by
        intro k
        subst k
        simp only [Bool.or_eq_true, decide_eq_true_eq] at e
        omega
      rw [cellRead, if_neg this, ih]
    · exact ih

end Sys2Proof.Machine
end

