-- ==== Sys2Proof/Laws/Exec.lean ====
section
/-! SUPPORT. Which meaning `exec` gives each command, one equation per constructor, so that no proof unfolds `exec`. -/

set_option Elab.async false

namespace Sys2Proof.Machine

@[simp] theorem exec_misalignedAccess (acc : Acc) (bar off size : Nat) (write : Bool) (s : State) :
    exec (.misalignedAccess acc bar off size write) s = execMisalignedAccess acc bar off size write s := rfl
@[simp] theorem exec_registerWrite (port fn bar off : Nat) (value : Word) (s : State) :
    exec (.registerWrite port fn bar off value) s = execRegisterWrite port fn bar off value s := rfl
@[simp] theorem exec_counterLowRead (acc : Acc) (bar off : Nat) (s : State) :
    exec (.counterLowRead acc bar off) s = execCounterLowRead acc bar off s := rfl
@[simp] theorem exec_stoppedWindowAccess (port fn region off : Nat) (write : Bool) (s : State) :
    exec (.stoppedWindowAccess port fn region off write) s = execStoppedWindowAccess port fn region off write s := rfl
@[simp] theorem exec_porAssert (s : State) :
    exec (.porAssert) s = execPorAssert s := rfl
@[simp] theorem exec_porDeassert (hpSplit : Bool) (smbAddr : Nat) (s : State) :
    exec (.porDeassert hpSplit smbAddr) s = execPorDeassert hpSplit smbAddr s := rfl
@[simp] theorem exec_phaseFuseEnd (s : State) :
    exec (.phaseFuseEnd) s = execPhaseFuseEnd s := rfl
@[simp] theorem exec_phaseDramEnd (stack0 stack1 : Bool) (s : State) :
    exec (.phaseDramEnd stack0 stack1) s = execPhaseDramEnd stack0 stack1 s := rfl
@[simp] theorem exec_phaseFlashEnd (s : State) :
    exec (.phaseFlashEnd) s = execPhaseFlashEnd s := rfl
@[simp] theorem exec_phaseVerifyEnd (s : State) :
    exec (.phaseVerifyEnd) s = execPhaseVerifyEnd s := rfl
@[simp] theorem exec_phaseCheckEnd (s : State) :
    exec (.phaseCheckEnd) s = execPhaseCheckEnd s := rfl
@[simp] theorem exec_phaseLoadEnd (s : State) :
    exec (.phaseLoadEnd) s = execPhaseLoadEnd s := rfl
@[simp] theorem exec_phaseSelftestEnd (cells lineStores regionStores : List Nat) (s : State) :
    exec (.phaseSelftestEnd cells lineStores regionStores) s = execPhaseSelftestEnd cells lineStores regionStores s := rfl
@[simp] theorem exec_phasePortsEnd (s : State) :
    exec (.phasePortsEnd) s = execPhasePortsEnd s := rfl
@[simp] theorem exec_phaseTimeout (s : State) :
    exec (.phaseTimeout) s = execPhaseTimeout s := rfl
@[simp] theorem exec_configRequest (port fn reg : Nat) (write : Option Word) (s : State) :
    exec (.configRequest port fn reg write) s = execConfigRequest port fn reg write s := rfl
@[simp] theorem exec_barMemoryRead (port fn bar off : Nat) (s : State) :
    exec (.barMemoryRead port fn bar off) s = execBarMemoryRead port fn bar off s := rfl
@[simp] theorem exec_tuneWrite (port fn : Nat) (andRead : Bool) (s : State) :
    exec (.tuneWrite port fn andRead) s = execTuneWrite port fn andRead s := rfl
@[simp] theorem exec_tuneRead (port fn : Nat) (s : State) :
    exec (.tuneRead port fn) s = execTuneRead port fn s := rfl
@[simp] theorem exec_tuneComplete (port fn : Nat) (s : State) :
    exec (.tuneComplete port fn) s = execTuneComplete port fn s := rfl
@[simp] theorem exec_moultGo (andAbort : Bool) (s : State) :
    exec (.moultGo andAbort) s = execMoultGo andAbort s := rfl
@[simp] theorem exec_moultAbort (s : State) :
    exec (.moultAbort) s = execMoultAbort s := rfl
@[simp] theorem exec_moultFetchEnd (r : HostRead) (s : State) :
    exec (.moultFetchEnd r) s = execMoultFetchEnd r s := rfl
@[simp] theorem exec_moultVerifyEnd (s : State) :
    exec (.moultVerifyEnd) s = execMoultVerifyEnd s := rfl
@[simp] theorem exec_moultCheckEnd (s : State) :
    exec (.moultCheckEnd) s = execMoultCheckEnd s := rfl
@[simp] theorem exec_moultStageEnd (s : State) :
    exec (.moultStageEnd) s = execMoultStageEnd s := rfl
@[simp] theorem exec_moultSwitchTimeout (slot : Nat) (s : State) :
    exec (.moultSwitchTimeout slot) s = execMoultSwitchTimeout slot s := rfl
@[simp] theorem exec_flashProgram (s : State) :
    exec (.flashProgram) s = execFlashProgram s := rfl
@[simp] theorem exec_flashSelect (s : State) :
    exec (.flashSelect) s = execFlashSelect s := rfl
@[simp] theorem exec_flashEraseDone (s : State) :
    exec (.flashEraseDone) s = execFlashEraseDone s := rfl
@[simp] theorem exec_flashHostReadDone (r : HostRead) (s : State) :
    exec (.flashHostReadDone r) s = execFlashHostReadDone r s := rfl
@[simp] theorem exec_flashPageProgramDone (statusError : Bool) (s : State) :
    exec (.flashPageProgramDone statusError) s = execFlashPageProgramDone statusError s := rfl
@[simp] theorem exec_flashReadbackDone (s : State) :
    exec (.flashReadbackDone) s = execFlashReadbackDone s := rfl
@[simp] theorem exec_flashOpTimeout (s : State) :
    exec (.flashOpTimeout) s = execFlashOpTimeout s := rfl
@[simp] theorem exec_xspiDqsTimeout (s : State) :
    exec (.xspiDqsTimeout) s = execXspiDqsTimeout s := rfl
@[simp] theorem exec_ethLinkUp (np : Nat) (s : State) :
    exec (.ethLinkUp np) s = execEthLinkUp np s := rfl
@[simp] theorem exec_ethLinkDown (np : Nat) (s : State) :
    exec (.ethLinkDown np) s = execEthLinkDown np s := rfl
@[simp] theorem exec_frameReceive (np : Nat) (frame : Bytes) (s : State) :
    exec (.frameReceive np frame) s = execFrameReceive np frame s := rfl
@[simp] theorem exec_queryResponseTimer (np : Nat) (s : State) :
    exec (.queryResponseTimer np) s = execQueryResponseTimer np s := rfl
@[simp] theorem exec_unsolicitedReportTimer (np slot : Nat) (s : State) :
    exec (.unsolicitedReportTimer np slot) s = execUnsolicitedReportTimer np slot s := rfl
@[simp] theorem exec_controlRateWindow (np : Nat) (s : State) :
    exec (.controlRateWindow np) s = execControlRateWindow np s := rfl
@[simp] theorem exec_nextHopTimeout (np hop : Nat) (s : State) :
    exec (.nextHopTimeout np hop) s = execNextHopTimeout np hop s := rfl
@[simp] theorem exec_bucketRefill (s : State) :
    exec (.bucketRefill) s = execBucketRefill s := rfl
@[simp] theorem exec_sourceLockTimeout (slot : Nat) (s : State) :
    exec (.sourceLockTimeout slot) s = execSourceLockTimeout slot s := rfl
@[simp] theorem exec_rtpGapTimeout (slot : Nat) (s : State) :
    exec (.rtpGapTimeout slot) s = execRtpGapTimeout slot s := rfl
@[simp] theorem exec_rtpJumpTimeout (slot : Nat) (s : State) :
    exec (.rtpJumpTimeout slot) s = execRtpJumpTimeout slot s := rfl
@[simp] theorem exec_pmtWaitTimeout (slot : Nat) (s : State) :
    exec (.pmtWaitTimeout slot) s = execPmtWaitTimeout slot s := rfl
@[simp] theorem exec_injEnable (port fn : Nat) (s : State) :
    exec (.injEnable port fn) s = execInjEnable port fn s := rfl
@[simp] theorem exec_injEnableDone (port fn : Nat) (s : State) :
    exec (.injEnableDone port fn) s = execInjEnableDone port fn s := rfl
@[simp] theorem exec_injDisable (port fn : Nat) (s : State) :
    exec (.injDisable port fn) s = execInjDisable port fn s := rfl
@[simp] theorem exec_injPoll (port fn : Nat) (s : State) :
    exec (.injPoll port fn) s = execInjPoll port fn s := rfl
@[simp] theorem exec_injTrailerTimeout (port fn : Nat) (s : State) :
    exec (.injTrailerTimeout port fn) s = execInjTrailerTimeout port fn s := rfl
@[simp] theorem exec_injHeaderTimeout (port fn : Nat) (s : State) :
    exec (.injHeaderTimeout port fn) s = execInjHeaderTimeout port fn s := rfl
@[simp] theorem exec_injConsumerWrite (port fn : Nat) (s : State) :
    exec (.injConsumerWrite port fn) s = execInjConsumerWrite port fn s := rfl
@[simp] theorem exec_alignmentTimeout (slot au : Nat) (s : State) :
    exec (.alignmentTimeout slot au) s = execAlignmentTimeout slot au s := rfl
@[simp] theorem exec_parseAhead (slot : Nat) (hdr : PicHdr) (s : State) :
    exec (.parseAhead slot hdr) s = execParseAhead slot hdr s := rfl
@[simp] theorem exec_decodeSwitch (engine cycles bands : Nat) (damage : Bool) (s : State) :
    exec (.decodeSwitch engine cycles bands damage) s = execDecodeSwitch engine cycles bands damage s := rfl
@[simp] theorem exec_blockCycleLimit (engine cycles : Nat) (s : State) :
    exec (.blockCycleLimit engine cycles) s = execBlockCycleLimit engine cycles s := rfl
@[simp] theorem exec_pictureBudgetExceeded (engine cycles : Nat) (atSlice : Bool) (s : State) :
    exec (.pictureBudgetExceeded engine cycles atSlice) s = execPictureBudgetExceeded engine cycles atSlice s := rfl
@[simp] theorem exec_pictureDecoded (engine cycles : Nat) (out : PicOut) (s : State) :
    exec (.pictureDecoded engine cycles out) s = execPictureDecoded engine cycles out s := rfl
@[simp] theorem exec_resamplePicture (rs : Nat) (s : State) :
    exec (.resamplePicture rs) s = execResamplePicture rs s := rfl
@[simp] theorem exec_resampleDone (rs : Nat) (s : State) :
    exec (.resampleDone rs) s = execResampleDone rs s := rfl
@[simp] theorem exec_batchTimeout (batch : Nat) (s : State) :
    exec (.batchTimeout batch) s = execBatchTimeout batch s := rfl
@[simp] theorem exec_batchAdmit (part : Nat) (s : State) :
    exec (.batchAdmit part) s = execBatchAdmit part s := rfl
@[simp] theorem exec_invocationRunnable (batch model : Nat) (s : State) :
    exec (.invocationRunnable batch model) s = execInvocationRunnable batch model s := rfl
@[simp] theorem exec_invocationResident (region batch model : Nat) (s : State) :
    exec (.invocationResident region batch model) s = execInvocationResident region batch model s := rfl
@[simp] theorem exec_stripeClaim (ctx block : Nat) (s : State) :
    exec (.stripeClaim ctx block) s = execStripeClaim ctx block s := rfl
@[simp] theorem exec_semaphoreSignal (block sem n : Nat) (s : State) :
    exec (.semaphoreSignal block sem n) s = execSemaphoreSignal block sem n s := rfl
@[simp] theorem exec_semaphoreWait (block sem cell t : Nat) (s : State) :
    exec (.semaphoreWait block sem cell t) s = execSemaphoreWait block sem cell t s := rfl
@[simp] theorem exec_semaphoreReset (block sem : Nat) (s : State) :
    exec (.semaphoreReset block sem) s = execSemaphoreReset block sem s := rfl
@[simp] theorem exec_waitRetry (block sem cell t : Nat) (s : State) :
    exec (.waitRetry block sem cell t) s = execWaitRetry block sem cell t s := rfl
@[simp] theorem exec_commandWrite (cell : Nat) (cmd : CellCmd) (s : State) :
    exec (.commandWrite cell cmd) s = execCommandWrite cell cmd s := rfl
@[simp] theorem exec_commandIssue (cell unit : Nat) (s : State) :
    exec (.commandIssue cell unit) s = execCommandIssue cell unit s := rfl
@[simp] theorem exec_commandComplete (cell unit : Nat) (s : State) :
    exec (.commandComplete cell unit) s = execCommandComplete cell unit s := rfl
@[simp] theorem exec_cellEccError (cell : Nat) (ecc : Ecc) (s : State) :
    exec (.cellEccError cell ecc) s = execCellEccError cell ecc s := rfl
@[simp] theorem exec_residueMismatch (cell : Nat) (s : State) :
    exec (.residueMismatch cell) s = execResidueMismatch cell s := rfl
@[simp] theorem exec_cellSelftestReturn (cell : Nat) (pass : Bool) (s : State) :
    exec (.cellSelftestReturn cell pass) s = execCellSelftestReturn cell pass s := rfl
@[simp] theorem exec_mapperWatchdog (block : Nat) (s : State) :
    exec (.mapperWatchdog block) s = execMapperWatchdog block s := rfl
@[simp] theorem exec_blockRestart (block : Nat) (s : State) :
    exec (.blockRestart block) s = execBlockRestart block s := rfl
@[simp] theorem exec_regionFault (region cause : Nat) (s : State) :
    exec (.regionFault region cause) s = execRegionFault region cause s := rfl
@[simp] theorem exec_weightPrefetch (ctx layer : Nat) (s : State) :
    exec (.weightPrefetch ctx layer) s = execWeightPrefetch ctx layer s := rfl
@[simp] theorem exec_spillWaveStart (ctx picture : Nat) (s : State) :
    exec (.spillWaveStart ctx picture) s = execSpillWaveStart ctx picture s := rfl
@[simp] theorem exec_contextRecordAccess (index : Nat) (acc : RecAccess) (ecc : Ecc) (s : State) :
    exec (.contextRecordAccess index acc ecc) s = execContextRecordAccess index acc ecc s := rfl
@[simp] theorem exec_trackPicture (slot : Nat) (s : State) :
    exec (.trackPicture slot) s = execTrackPicture slot s := rfl
@[simp] theorem exec_chrysalisCapture (ctx : Nat) (s : State) :
    exec (.chrysalisCapture ctx) s = execChrysalisCapture ctx s := rfl
@[simp] theorem exec_chrysalisRestore (ctx block : Nat) (bodyOk : Bool) (s : State) :
    exec (.chrysalisRestore ctx block bodyOk) s = execChrysalisRestore ctx block bodyOk s := rfl
@[simp] theorem exec_eviction (block : Nat) (s : State) :
    exec (.eviction block) s = execEviction block s := rfl
@[simp] theorem exec_residencyWaitTimeout (block : Nat) (s : State) :
    exec (.residencyWaitTimeout block) s = execResidencyWaitTimeout block s := rfl
@[simp] theorem exec_adapterStepStart (slot : Nat) (s : State) :
    exec (.adapterStepStart slot) s = execAdapterStepStart slot s := rfl
@[simp] theorem exec_adapterStepCommit (slot : Nat) (s : State) :
    exec (.adapterStepCommit slot) s = execAdapterStepCommit slot s := rfl
@[simp] theorem exec_searchStart (slot : Nat) (s : State) :
    exec (.searchStart slot) s = execSearchStart slot s := rfl
@[simp] theorem exec_searchCommit (slot : Nat) (s : State) :
    exec (.searchCommit slot) s = execSearchCommit slot s := rfl
@[simp] theorem exec_codebookUpdate (slot : Nat) (s : State) :
    exec (.codebookUpdate slot) s = execCodebookUpdate slot s := rfl
@[simp] theorem exec_recordEncode (slot : Nat) (s : State) :
    exec (.recordEncode slot) s = execRecordEncode slot s := rfl
@[simp] theorem exec_recordEmit (slot : Nat) (s : State) :
    exec (.recordEmit slot) s = execRecordEmit slot s := rfl
@[simp] theorem exec_ringConsumerRead (port fn ring : Nat) (r : HostRead) (s : State) :
    exec (.ringConsumerRead port fn ring r) s = execRingConsumerRead port fn ring r s := rfl
@[simp] theorem exec_ringHoldTimeout (port fn ring : Nat) (s : State) :
    exec (.ringHoldTimeout port fn ring) s = execRingHoldTimeout port fn ring s := rfl
@[simp] theorem exec_ringIrqDelay (port fn ring : Nat) (s : State) :
    exec (.ringIrqDelay port fn ring) s = execRingIrqDelay port fn ring s := rfl
@[simp] theorem exec_ringBind (port fn : Nat) (s : State) :
    exec (.ringBind port fn) s = execRingBind port fn s := rfl
@[simp] theorem exec_ringUnbind (port fn : Nat) (s : State) :
    exec (.ringUnbind port fn) s = execRingUnbind port fn s := rfl
@[simp] theorem exec_irqStatusClear (port fn : Nat) (value sets : Word) (s : State) :
    exec (.irqStatusClear port fn value sets) s = execIrqStatusClear port fn value sets s := rfl
@[simp] theorem exec_intaChange (port : Nat) (s : State) :
    exec (.intaChange port) s = execIntaChange port s := rfl
@[simp] theorem exec_regulatorUpdate (s : State) :
    exec (.regulatorUpdate) s = execRegulatorUpdate s := rfl
@[simp] theorem exec_counterPush (region : Nat) (s : State) :
    exec (.counterPush region) s = execCounterPush region s := rfl
@[simp] theorem exec_dramRequest (req : DramReq) (ecc : Ecc) (s : State) :
    exec (.dramRequest req ecc) s = execDramRequest req ecc s := rfl
@[simp] theorem exec_poisonedDataReceive (kind : PoisonKind) (s : State) :
    exec (.poisonedDataReceive kind) s = execPoisonedDataReceive kind s := rfl
@[simp] theorem exec_refreshDue (pc bank : Nat) (s : State) :
    exec (.refreshDue pc bank) s = execRefreshDue pc bank s := rfl
@[simp] theorem exec_bankIdleTimeout (pc bank : Nat) (s : State) :
    exec (.bankIdleTimeout pc bank) s = execBankIdleTimeout pc bank s := rfl
@[simp] theorem exec_patrolRead (pc : Nat) (ecc : Ecc) (s : State) :
    exec (.patrolRead pc ecc) s = execPatrolRead pc ecc s := rfl
@[simp] theorem exec_imbalanceWindow (s : State) :
    exec (.imbalanceWindow) s = execImbalanceWindow s := rfl
@[simp] theorem exec_bpmAllocate (who : Requester) (pool : Nat) (s : State) :
    exec (.bpmAllocate who pool) s = execBpmAllocate who pool s := rfl
@[simp] theorem exec_bpmFree (who : Requester) (addr : Nat) (s : State) :
    exec (.bpmFree who addr) s = execBpmFree who addr s := rfl
@[simp] theorem exec_bpmShare (who : Requester) (addr owners : Nat) (s : State) :
    exec (.bpmShare who addr owners) s = execBpmShare who addr owners s := rfl
@[simp] theorem exec_bpmZeroIdle (pool : Nat) (s : State) :
    exec (.bpmZeroIdle pool) s = execBpmZeroIdle pool s := rfl
@[simp] theorem exec_tokenGrant (s : State) :
    exec (.tokenGrant) s = execTokenGrant s := rfl
@[simp] theorem exec_powerSample (r : RailSample) (s : State) :
    exec (.powerSample r) s = execPowerSample r s := rfl
@[simp] theorem exec_vfChoice (s : State) :
    exec (.vfChoice) s = execVfChoice s := rfl
@[simp] theorem exec_vfTransitionEnd (region : Nat) (s : State) :
    exec (.vfTransitionEnd region) s = execVfTransitionEnd region s := rfl
@[simp] theorem exec_pgoodTimeout (region : Nat) (s : State) :
    exec (.pgoodTimeout region) s = execPgoodTimeout region s := rfl
@[simp] theorem exec_pgoodLow (region : Nat) (s : State) :
    exec (.pgoodLow region) s = execPgoodLow region s := rfl
@[simp] theorem exec_regionPark (region : Nat) (s : State) :
    exec (.regionPark region) s = execRegionPark region s := rfl
@[simp] theorem exec_regionWake (region : Nat) (s : State) :
    exec (.regionWake region) s = execRegionWake region s := rfl
@[simp] theorem exec_wakeComplete (region : Nat) (s : State) :
    exec (.wakeComplete region) s = execWakeComplete region s := rfl
@[simp] theorem exec_parkHoldWrite (port : Nat) (value : Word) (s : State) :
    exec (.parkHoldWrite port value) s = execParkHoldWrite port value s := rfl
@[simp] theorem exec_pwrbrkAssert (s : State) :
    exec (.pwrbrkAssert) s = execPwrbrkAssert s := rfl
@[simp] theorem exec_pwrbrkRelease (s : State) :
    exec (.pwrbrkRelease) s = execPwrbrkRelease s := rfl
@[simp] theorem exec_thermInAssert (s : State) :
    exec (.thermInAssert) s = execThermInAssert s := rfl
@[simp] theorem exec_thermInRelease (s : State) :
    exec (.thermInRelease) s = execThermInRelease s := rfl
@[simp] theorem exec_tempSensorRead (region : Nat) (tj : Int) (uncore : Int) (s : State) :
    exec (.tempSensorRead region tj uncore) s = execTempSensorRead region tj uncore s := rfl
@[simp] theorem exec_chatterWindow (transitions : List Nat) (s : State) :
    exec (.chatterWindow transitions) s = execChatterWindow transitions s := rfl
@[simp] theorem exec_inputStuck (input : Nat) (s : State) :
    exec (.inputStuck input) s = execInputStuck input s := rfl
@[simp] theorem exec_inputStuckRelease (input : Nat) (s : State) :
    exec (.inputStuckRelease input) s = execInputStuckRelease input s := rfl
@[simp] theorem exec_flr (port fn : Nat) (s : State) :
    exec (.flr port fn) s = execFlr port fn s := rfl
@[simp] theorem exec_flrComplete (port fn : Nat) (s : State) :
    exec (.flrComplete port fn) s = execFlrComplete port fn s := rfl
@[simp] theorem exec_hotReset (port : Nat) (s : State) :
    exec (.hotReset port) s = execHotReset port s := rfl
@[simp] theorem exec_dlDown (port : Nat) (s : State) :
    exec (.dlDown port) s = execDlDown port s := rfl
@[simp] theorem exec_perstAssert (port : Nat) (s : State) :
    exec (.perstAssert port) s = execPerstAssert port s := rfl
@[simp] theorem exec_perstDeassert (port : Nat) (s : State) :
    exec (.perstDeassert port) s = execPerstDeassert port s := rfl
@[simp] theorem exec_pcieLinkUp (port rate width : Nat) (s : State) :
    exec (.pcieLinkUp port rate width) s = execPcieLinkUp port rate width s := rfl
@[simp] theorem exec_dStateChange (port fn dstate : Nat) (s : State) :
    exec (.dStateChange port fn dstate) s = execDStateChange port fn dstate s := rfl
@[simp] theorem exec_pmeTurnOff (port : Nat) (s : State) :
    exec (.pmeTurnOff port) s = execPmeTurnOff port s := rfl
@[simp] theorem exec_pmeSignal (port fn : Nat) (s : State) :
    exec (.pmeSignal port fn) s = execPmeSignal port fn s := rfl
@[simp] theorem exec_pmeRepeat (port fn : Nat) (s : State) :
    exec (.pmeRepeat port fn) s = execPmeRepeat port fn s := rfl
@[simp] theorem exec_unitFault (unit index : Nat) (s : State) :
    exec (.unitFault unit index) s = execUnitFault unit index s := rfl
@[simp] theorem exec_controllerRestart (unit : Nat) (s : State) :
    exec (.controllerRestart unit) s = execControllerRestart unit s := rfl
@[simp] theorem exec_controllerResume (unit : Nat) (s : State) :
    exec (.controllerResume unit) s = execControllerResume unit s := rfl
@[simp] theorem exec_eventStage (ev : EvSpec) (s : State) :
    exec (.eventStage ev) s = execEventStage ev s := rfl
@[simp] theorem exec_traceExponentTick (path : Nat) (s : State) :
    exec (.traceExponentTick path) s = execTraceExponentTick path s := rfl
@[simp] theorem exec_telemetryPacketSend (s : State) :
    exec (.telemetryPacketSend) s = execTelemetryPacketSend s := rfl
@[simp] theorem exec_summaryTimer (s : State) :
    exec (.summaryTimer) s = execSummaryTimer s := rfl
@[simp] theorem exec_mpIdentify (s : State) :
    exec (.mpIdentify) s = execMpIdentify s := rfl
@[simp] theorem exec_mpSetPointer (value : Nat) (pecOk : Bool) (s : State) :
    exec (.mpSetPointer value pecOk) s = execMpSetPointer value pecOk s := rfl
@[simp] theorem exec_mpReadRegisters (s : State) :
    exec (.mpReadRegisters) s = execMpReadRegisters s := rfl
@[simp] theorem exec_mpReadEvents (s : State) :
    exec (.mpReadEvents) s = execMpReadEvents s := rfl
@[simp] theorem exec_mpRemoveEvents (m : Nat) (pecOk : Bool) (s : State) :
    exec (.mpRemoveEvents m pecOk) s = execMpRemoveEvents m pecOk s := rfl
@[simp] theorem exec_mpAlertResponse (s : State) :
    exec (.mpAlertResponse) s = execMpAlertResponse s := rfl
@[simp] theorem exec_smbusClockTimeout (s : State) :
    exec (.smbusClockTimeout) s = execSmbusClockTimeout s := rfl
@[simp] theorem exec_keyGo (s : State) :
    exec (.keyGo) s = execKeyGo s := rfl
@[simp] theorem exec_keyBurnDone (readBackOk : Bool) (s : State) :
    exec (.keyBurnDone readBackOk) s = execKeyBurnDone readBackOk s := rfl
@[simp] theorem exec_attGo (port fn : Nat) (s : State) :
    exec (.attGo port fn) s = execAttGo port fn s := rfl
@[simp] theorem exec_attSignStart (s : State) :
    exec (.attSignStart) s = execAttSignStart s := rfl
@[simp] theorem exec_attSignDone (s : State) :
    exec (.attSignDone) s = execAttSignDone s := rfl
@[simp] theorem exec_barMemoryWrite (port fn off : Nat) (data : Bytes) (poisoned : Bool) (s : State) :
    exec (.barMemoryWrite port fn off data poisoned) s = execBarMemoryWrite port fn off data poisoned s := rfl
@[simp] theorem exec_arrayCreditRefill (region : Nat) (issuing : List Nat) (s : State) :
    exec (.arrayCreditRefill region issuing) s = execArrayCreditRefill region issuing s := rfl
@[simp] theorem exec_keyReadDone (r : HostRead) (s : State) :
    exec (.keyReadDone r) s = execKeyReadDone r s := rfl
@[simp] theorem exec_regionStoreEccError (region addr : Nat) (s : State) :
    exec (.regionStoreEccError region addr) s = execRegionStoreEccError region addr s := rfl
@[simp] theorem exec_nocLinkCrcError (router : Nat) (s : State) :
    exec (.nocLinkCrcError router) s = execNocLinkCrcError router s := rfl
@[simp] theorem exec_blockRestartDone (block : Nat) (s : State) :
    exec (.blockRestartDone block) s = execBlockRestartDone block s := rfl
@[simp] theorem exec_unitRestartDone (unit : Nat) (s : State) :
    exec (.unitRestartDone unit) s = execUnitRestartDone unit s := rfl

end Sys2Proof.Machine
end

