-- ==== Sys2Proof/Laws/Keeps.lean ====
section
/-! SUPPORT. The relations `KeepsButFlash` and `Keeps`: they are reflexive and transitive, and they follow from the fields
that they name. -/

set_option Elab.async false

namespace Sys2Proof.Machine

theorem KeepsButFlash.refl (s : State) : KeepsButFlash s s :=
  ⟨rfl, rfl, rfl, rfl, rfl, rfl, rfl, rfl, rfl, rfl, rfl, rfl, id, ⟨[], rfl⟩, Nat.le_refl _, id⟩

theorem Keeps.refl (s : State) : Keeps s s := ⟨KeepsButFlash.refl s, rfl⟩

theorem KeepsButFlash.trans {s u t : State} (h : KeepsButFlash s u) (k : KeepsButFlash u t) : KeepsButFlash s t where
  pending := k.pending.trans h.pending
  now := k.now.trans h.now
  por := k.por.trans h.por
  phase := k.phase.trans h.phase
  cause := k.cause.trans h.cause
  bootTime := k.bootTime.trans h.bootTime
  dramStacks := k.dramStacks.trans h.dramStacks
  m0 := k.m0.trans h.m0
  straps := k.straps.trans h.straps
  fuses := k.fuses.trans h.fuses
  identity := k.identity.trans h.identity
  dramKey := k.dramKey.trans h.dramKey
  thermTrip := fun a => k.thermTrip (h.thermTrip a)
  sent := by
    obtain ⟨a, ha⟩ := h.sent
    obtain ⟨b, hb⟩ := k.sent
    exact ⟨b ++ a, by rw [hb, ha, List.append_assoc]⟩
  drawn := Nat.le_trans h.drawn k.drawn
  memory := fun a => k.memory (h.memory a)

theorem Keeps.trans {s u t : State} (h : Keeps s u) (k : Keeps u t) : Keeps s t :=
  ⟨h.toKeepsButFlash.trans k.toKeepsButFlash, k.flash.trans h.flash⟩

/-- A record update that writes none of the fields `Keeps` names. -/
theorem Keeps.ofMk {s u : State} {scu' : Scu} {moult' : Moult} {flash' : Flash} {key' : Key} {signer' : Signer} {ports' : Map HostPort} {nps' :
    Map NetPort} {streams' : Map Stream} {frames' : Map Frame} {nextFrame' : Nat} {engines' : Map Engine}
    {resamplers' : Map Resampler} {relq' : List Nat} {batches' : Map Batch} {nextBatch' : Nat} {ctxs' : Map Ctx}
    {nextCtx' : Nat} {parts' : Map Part} {regions' : Map Region} {blocks' : Map Block} {cells' : Map Cell} {dram'
    : Dram} {bpm' : Bpm} {store' : CtxStore} {pac' : Pac} {aon' : Aon} {tu' : Tu} {unitsDown' : List Nat}
    {devTuned' : Map Int} {sram' : List Host.Cell} {waits' : List Instr} {freeIx' : Nat}
    (h : Keeps s u) (h4 : scu'.phase = u.scu.phase) (h5 : scu'.cause = u.scu.cause)
    (h6 : scu'.bootTime = u.scu.bootTime) (h7 : (scu'.stack0, scu'.stack1) = (u.scu.stack0, u.scu.stack1))
    (h8 : scu'.m0 = u.scu.m0) (h9 : (aon'.split, aon'.smbAddr) = (u.aon.split, u.aon.smbAddr))
    (h12 : flash'.cells = u.flash.cells) (h13 : dram'.key = u.dram.key)
    (h14 : u.aon.thermTrip = true → aon'.thermTrip = true) (h17 : dram'.mem = u.dram.mem)
    (h18 : sram' = u.sram) (h19 : u.freeIx ≤ freeIx') :
    Keeps s (State.mk u.now u.por scu' u.fuses u.idSeed u.idKey u.grade u.stepping moult' flash' key' signer' u.fns ports' nps' streams' frames' nextFrame' engines' resamplers' relq' batches' nextBatch' ctxs' nextCtx' parts' regions' blocks' cells' dram' bpm' store' pac' aon' tu' unitsDown' devTuned' sram' u.out waits' freeIx' u.pending) :=
  h.trans ⟨⟨rfl, rfl, rfl, h4, h5, h6, h7, h8, h9, rfl, rfl, h13, h14, ⟨[], rfl⟩, h19,
    fun a => ⟨by rw [h12]; exact a.1, by rw [h17]; exact a.2.1, a.2.2.1, by rw [h18]; exact a.2.2.2⟩⟩, h12⟩

/-- Drawing free values. -/
theorem Keeps.draw (s : State) (n : Nat) : Keeps s { s with freeIx := s.freeIx + n } :=
  ⟨⟨rfl, rfl, rfl, rfl, rfl, rfl, rfl, rfl, rfl, rfl, rfl, rfl, id, ⟨[], rfl⟩, Nat.le_add_right .., id⟩, rfl⟩

/-- A change of the DRAM contents that keeps them canonical. -/
theorem Keeps.dramMem (s : State) (m : List Host.Cell) (h : cellsWf dramUnwritten s.dram.mem = true → cellsWf dramUnwritten m = true) :
    Keeps s { s with dram := { s.dram with mem := m } } :=
  ⟨⟨rfl, rfl, rfl, rfl, rfl, rfl, rfl, rfl, rfl, rfl, rfl, rfl, id, ⟨[], rfl⟩, Nat.le_refl _,
    fun a => ⟨a.1, h a.2.1, a.2.2⟩⟩, rfl⟩

/-- A change of the on-chip memory that keeps it canonical. -/
theorem Keeps.sramMem (s : State) (m : List Host.Cell) (h : cellsWf sramUnwritten s.sram = true → cellsWf sramUnwritten m = true) :
    Keeps s { s with sram := m } :=
  ⟨⟨rfl, rfl, rfl, rfl, rfl, rfl, rfl, rfl, rfl, rfl, rfl, rfl, id, ⟨[], rfl⟩, Nat.le_refl _,
    fun a => ⟨a.1, a.2.1, a.2.2.1, h a.2.2.2⟩⟩, rfl⟩

/-- A change of the flash contents that keeps them canonical. -/
theorem KeepsButFlash.flashCells (s : State) (f : Flash) (h : cellsWf flashErased s.flash.cells = true → cellsWf flashErased f.cells = true) :
    KeepsButFlash s { s with flash := f } :=
  ⟨rfl, rfl, rfl, rfl, rfl, rfl, rfl, rfl, rfl, rfl, rfl, rfl, id, ⟨[], rfl⟩, Nat.le_refl _,
    fun a => ⟨h a.1, a.2.1, a.2.2⟩⟩

/-- A fold each of whose steps keeps. -/
theorem Keeps.foldl {α : Type} {s u : State} {f : State → α → State} (hf : ∀ v a, Keeps v (f v a)) (h : Keeps s u)
    (l : List α) : Keeps s (l.foldl f u) := by
  induction l generalizing u with
  | nil => exact h
  | cons a t ih => exact ih (h.trans (hf u a))

/-- The state of a pair that a function answers. -/
theorem Keeps.pair {α : Type} {s t : State} {a : α} {p : α × State} (e : p = (a, t)) (h : Keeps s p.2) : Keeps s t := by
  subst e; exact h

theorem Keeps.snd {α : Type} {s t : State} {a : α} (h : Keeps s t) : Keeps s (a, t).2 := h

theorem Keeps.triple {α β : Type} {s t : State} {a : α} {b : β} {p : α × β × State} (e : p = (a, b, t))
    (h : Keeps s p.2.2) : Keeps s t := by
  subst e; exact h

theorem Keeps.ite {s a b : State} {c : Prop} [Decidable c] (h : Keeps s a) (k : Keeps s b) :
    Keeps s (if c then a else b) := by
  split
  · exact h
  · exact k

theorem Keeps.itePair {α : Type} {s : State} {a b : α × State} {c : Prop} [Decidable c] (h : Keeps s a.2) (k : Keeps s b.2) :
    Keeps s (if c then a else b).2 := by
  split
  · exact h
  · exact k

theorem Keeps.iteNext {s : State} {a b : Host.Outcome State Fault Refusal} {c : Prop} [Decidable c]
    (h : ∃ u, a = .next u ∧ Keeps s u) (k : ∃ u, b = .next u ∧ Keeps s u) :
    ∃ u, (if c then a else b) = .next u ∧ Keeps s u := by
  split
  · exact h
  · exact k

/-- A command that completes. -/
theorem Keeps.done {s t : State} (h : Keeps s t) : ∃ u, done t = .next u ∧ Keeps s u := ⟨t, rfl, h⟩

/-- A meaning that another one runs. -/
theorem Keeps.viaNext {s t : State} {o : Host.Outcome State Fault Refusal} (e : o = .next t)
    (h : ∃ u, o = .next u ∧ Keeps s u) : Keeps s t := by
  obtain ⟨u, hu, hk⟩ := h
  rw [e] at hu
  cases hu
  exact hk

/-- A meaning that another one runs on a state that is kept. -/
theorem Keeps.thenO {s u : State} {o : Host.Outcome State Fault Refusal} (h : Keeps s u)
    (k : ∃ t, o = .next t ∧ Keeps u t) : ∃ t, o = .next t ∧ Keeps s t := by
  obtain ⟨t, e, k⟩ := k
  exact ⟨t, e, h.trans k⟩

end Sys2Proof.Machine
end

