-- ==== Sys2Proof/Laws/KeepsOps.lean ====
section
/-! SUPPORT. What each operation of these files of Machine/ leaves alone, as `Keeps` names it: Ops, Rings, Tele, Bpm. -/

set_option Elab.async false

set_option linter.unusedVariables false

namespace Sys2Proof.Machine

/-! ### Machine/Ops.lean -/

theorem State.updRegion_keeps (s : State) (i : Nat) (f : Region → Region) :
    Keeps s (State.updRegion s i f) := by
  unfold State.updRegion
  refine Keeps.ofMk ?_ rfl rfl rfl rfl rfl rfl rfl rfl (fun h => h) rfl rfl (Nat.le_refl _)
  exact Keeps.refl _

theorem mem_mput {α : Type} (m : Map α) (k : Nat) (v : α) (q : Nat × α) (h : q ∈ mput m k v) : q = (k, v) ∨ q ∈ m := by
  induction m with
  | nil => simpa [mput] using h
  | cons a t ih =>
    obtain ⟨k', v'⟩ := a
    unfold mput at h
    split at h
    · simpa using h
    · split at h
      · rcases List.mem_cons.1 h with h | h
        · exact .inl h
        · exact .inr (List.mem_cons_of_mem _ h)
      · rcases List.mem_cons.1 h with h | h
        · exact .inr (h ▸ List.mem_cons_self ..)
        · rcases ih h with h | h
          · exact .inl h
          · exact .inr (List.mem_cons_of_mem _ h)

theorem mem_mfind {α : Type} (m : Map α) (k : Nat) (v : α) (h : mfind m k = some v) : (k, v) ∈ m := by
  induction m with
  | nil => simp [mfind] at h
  | cons a t ih =>
    obtain ⟨k', v'⟩ := a
    unfold mfind at h
    split at h
    · rename_i e; cases h; subst e; exact List.mem_cons_self ..
    · exact List.mem_cons_of_mem _ (ih h)

/-- A property of every listed value holds of the value read, where it holds of the default. -/
theorem mget_of_all {α : Type} [Inhabited α] (p : α → Prop) (m : Map α) (k : Nat) (h : ∀ q ∈ m, p q.2) (d : p default) :
    p (mget m k) := by
  unfold mget
  cases e : mfind m k with
  | none => exact d
  | some v => exact h _ (mem_mfind m k v e)

/-- A change of the functions that keeps their injection rings canonical. -/
theorem Keeps.fns (s : State) (m : Map Fn) (h : (∀ q ∈ s.fns, cellsWf 0 q.2.inj.bytes = true) → ∀ q ∈ m, cellsWf 0 q.2.inj.bytes = true) :
    Keeps s { s with fns := m } :=
  ⟨⟨rfl, rfl, rfl, rfl, rfl, rfl, rfl, rfl, rfl, rfl, rfl, rfl, id, ⟨[], rfl⟩, Nat.le_refl _,
    fun a => ⟨a.1, a.2.1, h a.2.2.1, a.2.2.2⟩⟩, rfl⟩

/-- A change of a function that keeps its injection ring canonical. -/
theorem State.updFn_keeps (s : State) (port fn : Nat) (f : Fn → Fn)
    (hf : ∀ x : Fn, cellsWf 0 x.inj.bytes = true → cellsWf 0 (f x).inj.bytes = true) : Keeps s (s.updFn port fn f) := by
  refine Keeps.fns s _ (fun a q hq => ?_)
  rcases mem_mput _ _ _ _ hq with e | hq
  · subst e
    exact hf _ (mget_of_all (fun x : Fn => cellsWf 0 x.inj.bytes = true) _ _ a rfl)
  · exact a q hq

theorem raiseIrq_keeps (s : State) (port : Nat) (fn : Nat) (bit : Nat) :
    Keeps s (raiseIrq s port fn bit) := by
  unfold raiseIrq
  refine Keeps.trans ?_ (State.updFn_keeps _ _ _ _ (fun _ h => h))
  exact Keeps.refl _

theorem State.updNp_keeps (s : State) (n : Nat) (f : NetPort → NetPort) :
    Keeps s (State.updNp s n f) := by
  unfold State.updNp
  refine Keeps.ofMk ?_ rfl rfl rfl rfl rfl rfl rfl rfl (fun h => h) rfl rfl (Nat.le_refl _)
  exact Keeps.refl _

theorem chargeBuckets_keeps (s : State) (r : Nat) (p : Nat) (n : Nat) :
    Keeps s (chargeBuckets s r p n).2 := by
  unfold chargeBuckets
  try conv => arg 2; zeta
  refine Keeps.snd ?_
  refine Keeps.trans ?_ (State.updRegion_keeps ..)
  exact Keeps.refl _

theorem State.updPort_keeps (s : State) (p : Nat) (f : HostPort → HostPort) :
    Keeps s (State.updPort s p f) := by
  unfold State.updPort
  refine Keeps.ofMk ?_ rfl rfl rfl rfl rfl rfl rfl rfl (fun h => h) rfl rfl (Nat.le_refl _)
  exact Keeps.refl _

theorem hpCount_keeps (s : State) (port : Nat) (k : Nat) (n : Nat) :
    Keeps s (hpCount s port k n) := by
  unfold hpCount
  refine Keeps.trans ?_ (State.updPort_keeps ..)
  exact Keeps.refl _

theorem readCount_keeps (s : State) (port : Nat) (fn : Nat) (r : HostRead) :
    Keeps s (readCount s port fn r) := by
  unfold readCount
  split
  · refine Keeps.ite ?_ ?_
    · refine Keeps.trans ?_ (hpCount_keeps ..)
      exact Keeps.refl _
    · exact Keeps.refl _
  · refine Keeps.ite ?_ ?_
    · refine Keeps.trans ?_ (hpCount_keeps ..)
      exact Keeps.refl _
    · exact Keeps.refl _
  · exact Keeps.refl _

theorem rgnCount_keeps (s : State) (r : Nat) (p : Nat) (k : Nat) (vp : Nat) (n : Nat) :
    Keeps s (rgnCount s r p k vp n) := by
  unfold rgnCount
  refine Keeps.trans ?_ (State.updRegion_keeps ..)
  exact Keeps.refl _

theorem State.updPath_keeps (s : State) (i : Nat) (f : Path → Path) :
    Keeps s (State.updPath s i f) := by
  unfold State.updPath
  try conv => arg 2; zeta
  refine Keeps.ofMk ?_ rfl rfl rfl rfl rfl rfl rfl rfl (fun h => h) rfl rfl (Nat.le_refl _)
  exact Keeps.refl _

theorem State.updStream_keeps (s : State) (i : Nat) (f : Stream → Stream) :
    Keeps s (State.updStream s i f) := by
  unfold State.updStream
  refine Keeps.ofMk ?_ rfl rfl rfl rfl rfl rfl rfl rfl (fun h => h) rfl rfl (Nat.le_refl _)
  exact Keeps.refl _

theorem State.updDec_keeps (s : State) (i : Nat) (f : Decode → Decode) :
    Keeps s (State.updDec s i f) := by
  unfold State.updDec
  refine Keeps.trans ?_ (State.updStream_keeps ..)
  exact Keeps.refl _

theorem State.updCtx_keeps (s : State) (i : Nat) (f : Ctx → Ctx) :
    Keeps s (State.updCtx s i f) := by
  unfold State.updCtx
  refine Keeps.ofMk ?_ rfl rfl rfl rfl rfl rfl rfl rfl (fun h => h) rfl rfl (Nat.le_refl _)
  exact Keeps.refl _

theorem State.updPart_keeps (s : State) (i : Nat) (f : Part → Part) :
    Keeps s (State.updPart s i f) := by
  unfold State.updPart
  refine Keeps.ofMk ?_ rfl rfl rfl rfl rfl rfl rfl rfl (fun h => h) rfl rfl (Nat.le_refl _)
  exact Keeps.refl _

theorem pushCounts_keeps (s : State) (r : Nat) :
    Keeps s (pushCounts s r) := by
  unfold pushCounts
  try conv => arg 2; zeta
  refine Keeps.trans ?_ (State.updRegion_keeps ..)
  refine Keeps.foldl (fun y0 _ => ?_) ?_ _
  · refine Keeps.trans ?_ (State.updPart_keeps ..)
    exact Keeps.refl _
  · exact Keeps.refl _

theorem State.updIng_keeps (s : State) (i : Nat) (f : Ingest → Ingest) :
    Keeps s (State.updIng s i f) := by
  unfold State.updIng
  refine Keeps.trans ?_ (State.updStream_keeps ..)
  exact Keeps.refl _

theorem State.updCell_keeps (s : State) (i : Nat) (f : Cell → Cell) :
    Keeps s (State.updCell s i f) := by
  unfold State.updCell
  refine Keeps.ofMk ?_ rfl rfl rfl rfl rfl rfl rfl rfl (fun h => h) rfl rfl (Nat.le_refl _)
  exact Keeps.refl _

theorem chargeSignal_keeps (s : State) (src : Nat) (dst : Nat) (p : Nat) :
    Keeps s (chargeSignal s src dst p) := by
  unfold chargeSignal
  try conv => arg 2; zeta
  refine Keeps.ite ?_ ?_
  · exact Keeps.refl _
  · refine Keeps.trans ?_ (State.updRegion_keeps ..)
    exact Keeps.refl _

theorem State.updFrame_keeps (s : State) (i : Nat) (f : Frame → Frame) :
    Keeps s (State.updFrame s i f) := by
  unfold State.updFrame
  refine Keeps.ofMk ?_ rfl rfl rfl rfl rfl rfl rfl rfl (fun h => h) rfl rfl (Nat.le_refl _)
  exact Keeps.refl _

theorem emit_keeps (o : Out) (s : State) : Keeps s (emit o s) :=
  ⟨⟨rfl, rfl, rfl, rfl, rfl, rfl, rfl, rfl, rfl, rfl, rfl, rfl, id, ⟨[o], rfl⟩, Nat.le_refl _, id⟩, rfl⟩

theorem waitAccess_keeps (c : Instr) (s : State) :
    Keeps s (waitAccess c s) := by
  unfold waitAccess
  refine Keeps.ofMk ?_ rfl rfl rfl rfl rfl rfl rfl rfl (fun h => h) rfl rfl (Nat.le_refl _)
  exact Keeps.refl _

theorem State.updBlock_keeps (s : State) (i : Nat) (f : Block → Block) :
    Keeps s (State.updBlock s i f) := by
  unfold State.updBlock
  refine Keeps.ofMk ?_ rfl rfl rfl rfl rfl rfl rfl rfl (fun h => h) rfl rfl (Nat.le_refl _)
  exact Keeps.refl _

theorem State.updBatch_keeps (s : State) (i : Nat) (f : Batch → Batch) :
    Keeps s (State.updBatch s i f) := by
  unfold State.updBatch
  refine Keeps.ofMk ?_ rfl rfl rfl rfl rfl rfl rfl rfl (fun h => h) rfl rfl (Nat.le_refl _)
  exact Keeps.refl _

theorem chargeBody_keeps (s : State) (r : Nat) (p : Nat) (k : Nat) (n : Nat) :
    Keeps s (chargeBody s r p k n) := by
  unfold chargeBody
  refine Keeps.trans ?_ (rgnCount_keeps ..)
  refine Keeps.trans ?_ (chargeBuckets_keeps ..)
  exact Keeps.refl _

theorem freeBits_keeps (w : Nat) (s : State) : Keeps s (freeBits w s).2 := Keeps.draw s 1

/-! ### Machine/Rings.lean -/

theorem State.updRing_keeps (s : State) (port : Nat) (fn : Nat) (r : Nat) (g : Ring → Ring) :
    Keeps s (State.updRing s port fn r g) := by
  unfold State.updRing
  refine Keeps.trans ?_ (State.updFn_keeps _ _ _ _ (fun _ h => h))
  exact Keeps.refl _

theorem ringPut_keeps (s : State) (port : Nat) (fn : Nat) (ring : Nat) (type : Nat) (fill : Nat) (data : Bytes) :
    Keeps s (ringPut s port fn ring type fill data) := by
  unfold ringPut
  try conv => arg 2; zeta
  refine Keeps.ite ?_ ?_
  · refine Keeps.trans ?_ (raiseIrq_keeps ..)
    refine Keeps.trans ?_ (State.updRing_keeps ..)
    refine Keeps.trans ?_ (emit_keeps ..)
    exact Keeps.refl _
  · refine Keeps.trans ?_ (State.updRing_keeps ..)
    refine Keeps.trans ?_ (emit_keeps ..)
    exact Keeps.refl _

theorem ringGap_keeps (s : State) (port : Nat) (fn : Nat) (ring : Nat) :
    Keeps s (ringGap s port fn ring) := by
  unfold ringGap
  try conv => arg 2; zeta
  refine Keeps.ite ?_ ?_
  · exact Keeps.refl _
  · refine Keeps.trans ?_ (ringPut_keeps ..)
    refine Keeps.trans ?_ (State.updRing_keeps ..)
    exact Keeps.refl _

theorem ringWant_keeps (s : State) (port : Nat) (fn : Nat) (ring : Nat) :
    Keeps s (ringWant s port fn ring) := by
  unfold ringWant
  refine Keeps.trans ?_ (State.updRing_keeps ..)
  exact Keeps.refl _

theorem ringEvent_keeps (s : State) (port : Nat) (fn : Nat) (ring : Nat) (data : Bytes) :
    Keeps s (ringEvent s port fn ring data).2 := by
  unfold ringEvent
  try conv => arg 2; zeta
  refine Keeps.itePair ?_ ?_
  · refine Keeps.snd ?_
    refine Keeps.trans ?_ (ringPut_keeps ..)
    refine Keeps.trans ?_ (ringGap_keeps ..)
    exact Keeps.refl _
  · refine Keeps.snd ?_
    refine Keeps.trans ?_ (ringWant_keeps ..)
    exact Keeps.refl _

theorem ringPutChunks_keeps (port : Nat) (fn : Nat) (ring : Nat) (x3 : List Bytes) (x4 : Nat) (x5 : State) :
    Keeps x5 (ringPutChunks port fn ring x3 x4 x5) := by
  induction x3 generalizing x4 x5 with
  | nil =>
    rw [ringPutChunks]
    exact Keeps.refl _
  | cons a t ih =>
    rw [ringPutChunks]
    refine Keeps.trans ?_ (ih ..)
    refine Keeps.trans ?_ (ringPut_keeps ..)
    exact Keeps.refl _

theorem ringWriteUnit_keeps (s : State) (port : Nat) (fn : Nat) (ring : Nat) (data : Bytes) :
    Keeps s (ringWriteUnit s port fn ring data) := by
  unfold ringWriteUnit
  refine Keeps.trans ?_ (ringPutChunks_keeps ..)
  refine Keeps.trans ?_ (ringGap_keeps ..)
  exact Keeps.refl _

theorem ledgerWrite_keeps (s : State) (fid : Nat) :
    Keeps s (ledgerWrite s fid) := by
  unfold ledgerWrite
  try conv => arg 2; zeta
  split
  · exact Keeps.refl _
  · split
    · exact Keeps.refl _
    · refine Keeps.ite ?_ ?_
      · refine Keeps.trans ?_ (emit_keeps ..)
        refine Keeps.trans ?_ (State.updFrame_keeps ..)
        exact Keeps.refl _
      · exact Keeps.refl _

theorem frameStage_keeps (s : State) (fid : Nat) (st : Nat) :
    Keeps s (frameStage s fid st) := by
  unfold frameStage
  refine Keeps.trans ?_ (ledgerWrite_keeps ..)
  refine Keeps.trans ?_ (State.updFrame_keeps ..)
  exact Keeps.refl _

theorem frameServed_keeps (s : State) (fid : Nat) :
    Keeps s (frameServed s fid) := by
  unfold frameServed
  refine Keeps.trans ?_ (frameStage_keeps ..)
  refine Keeps.trans ?_ (State.updFrame_keeps ..)
  exact Keeps.refl _

theorem heldServed_keeps (s : State) (u : HeldUnit) :
    Keeps s (heldServed s u) := by
  unfold heldServed
  split
  · exact Keeps.refl _
  · refine Keeps.trans ?_ (frameServed_keeps ..)
    exact Keeps.refl _

theorem ringDrain_keeps (port : Nat) (fn : Nat) (ring : Nat) (x3 : Nat) (x4 : State) :
    Keeps x4 (ringDrain port fn ring x3 x4) := by
  induction x3 generalizing x4 with
  | zero =>
    rw [ringDrain]
    exact Keeps.refl _
  | succ k ih =>
    rw [ringDrain]
    try conv => arg 2; zeta
    split
    · exact Keeps.refl _
    · refine Keeps.ite ?_ ?_
      · refine Keeps.trans ?_ (ih ..)
        refine Keeps.trans ?_ (heldServed_keeps ..)
        refine Keeps.trans ?_ (ringWriteUnit_keeps ..)
        refine Keeps.trans ?_ (State.updRing_keeps ..)
        exact Keeps.refl _
      · exact Keeps.refl _

theorem ringDropUnit_keeps (s : State) (port : Nat) (fn : Nat) (ring : Nat) (bytes : Nat) :
    Keeps s (ringDropUnit s port fn ring bytes) := by
  unfold ringDropUnit
  refine Keeps.trans ?_ (State.updRing_keeps ..)
  exact Keeps.refl _

theorem ringDropHeld_keeps (port : Nat) (fn : Nat) (ring : Nat) (x3 : List HeldUnit) (x4 : State) :
    Keeps x4 (ringDropHeld port fn ring x3 x4) := by
  induction x3 generalizing x4 with
  | nil =>
    rw [ringDropHeld]
    exact Keeps.refl _
  | cons a t ih =>
    rw [ringDropHeld]
    refine Keeps.trans ?_ (ih ..)
    refine Keeps.trans ?_ (heldServed_keeps ..)
    refine Keeps.trans ?_ (ringDropUnit_keeps ..)
    exact Keeps.refl _

theorem ringStop_keeps (s : State) (port : Nat) (fn : Nat) (ring : Nat) (error : Bool) (cause : Nat) :
    Keeps s (ringStop s port fn ring error cause) := by
  unfold ringStop
  try conv => arg 2; zeta
  refine Keeps.trans ?_ (ringDropHeld_keeps ..)
  refine Keeps.trans ?_ (State.updRing_keeps ..)
  exact Keeps.refl _

theorem ringDropOldest_keeps (s : State) (port : Nat) (fn : Nat) (ring : Nat) :
    Keeps s (ringDropOldest s port fn ring) := by
  unfold ringDropOldest
  split
  · exact Keeps.refl _
  · refine Keeps.trans ?_ (heldServed_keeps ..)
    refine Keeps.trans ?_ (ringDropUnit_keeps ..)
    refine Keeps.trans ?_ (State.updRing_keeps ..)
    exact Keeps.refl _

theorem ringUnit_keeps (s : State) (port : Nat) (fn : Nat) (ring : Nat) (data : Bytes) (frame : Option Nat) :
    Keeps s (ringUnit s port fn ring data frame).2 := by
  unfold ringUnit
  try conv => arg 2; zeta
  refine Keeps.itePair ?_ ?_
  · refine Keeps.snd ?_
    refine Keeps.trans ?_ (ringDropUnit_keeps ..)
    exact Keeps.refl _
  · refine Keeps.itePair ?_ ?_
    · refine Keeps.snd ?_
      refine Keeps.trans ?_ (ringDropUnit_keeps ..)
      exact Keeps.refl _
    · refine Keeps.itePair ?_ ?_
      · refine Keeps.snd ?_
        refine Keeps.trans ?_ (ringWriteUnit_keeps ..)
        exact Keeps.refl _
      · refine Keeps.snd ?_
        refine Keeps.ite ?_ ?_
        · refine Keeps.trans ?_ (ringDropOldest_keeps ..)
          refine Keeps.trans ?_ (ringWant_keeps ..)
          refine Keeps.trans ?_ (State.updRing_keeps ..)
          exact Keeps.refl _
        · refine Keeps.trans ?_ (ringWant_keeps ..)
          refine Keeps.trans ?_ (State.updRing_keeps ..)
          exact Keeps.refl _

/-! ### Machine/Tele.lean -/

theorem alarmIrqs_keeps (x0 : List (Nat × Nat)) (x1 : State) :
    Keeps x1 (alarmIrqs x0 x1) := by
  induction x0 generalizing x1 with
  | nil =>
    rw [alarmIrqs]
    exact Keeps.refl _
  | cons a t ih =>
    rw [alarmIrqs]
    refine Keeps.trans ?_ (ih ..)
    refine Keeps.trans ?_ (raiseIrq_keeps ..)
    exact Keeps.refl _

theorem drainEvents_keeps (port : Nat) (fn : Nat) (x2 : Nat) (x3 : State) :
    Keeps x3 (drainEvents port fn x2 x3) := by
  induction x2 generalizing x3 with
  | zero =>
    rw [drainEvents]
    exact Keeps.refl _
  | succ k ih =>
    rw [drainEvents]
    try conv => arg 2; zeta
    split
    · refine Keeps.ite ?_ ?_
      · refine Keeps.trans ?_ (ih ..)
        refine Keeps.trans ?_ (State.updPath_keeps ..)
        refine Keeps.trans ?_ (ringEvent_keeps ..)
        exact Keeps.refl _
      · refine Keeps.trans ?_ (ringEvent_keeps ..)
        exact Keeps.refl _
    · exact Keeps.refl _

theorem pumpEvents_keeps (s : State) (port : Nat) (fn : Nat) :
    Keeps s (pumpEvents s port fn) := by
  unfold pumpEvents
  refine Keeps.trans ?_ (drainEvents_keeps ..)
  exact Keeps.refl _

theorem stageOn_keeps (s : State) (e : Ev) (p : Nat) :
    Keeps s (stageOn s e p) := by
  unfold stageOn
  try conv => arg 2; zeta
  refine Keeps.ite ?_ ?_
  · refine Keeps.trans ?_ (pumpEvents_keeps ..)
    refine Keeps.ite ?_ ?_
    · refine Keeps.ofMk ?_ rfl rfl rfl rfl rfl rfl rfl rfl (fun h => h) rfl rfl (Nat.le_refl _)
      refine Keeps.trans ?_ (State.updPath_keeps ..)
      exact Keeps.refl _
    · refine Keeps.trans ?_ (State.updPath_keeps ..)
      exact Keeps.refl _
  · refine Keeps.ite ?_ ?_
    · refine Keeps.ofMk ?_ rfl rfl rfl rfl rfl rfl rfl rfl (fun h => h) rfl rfl (Nat.le_refl _)
      refine Keeps.trans ?_ (State.updPath_keeps ..)
      exact Keeps.refl _
    · refine Keeps.trans ?_ (State.updPath_keeps ..)
      exact Keeps.refl _

theorem stageOnAll_keeps (e : Ev) (x1 : List Nat) (x2 : State) :
    Keeps x2 (stageOnAll e x1 x2) := by
  induction x1 generalizing x2 with
  | nil =>
    rw [stageOnAll]
    exact Keeps.refl _
  | cons a t ih =>
    rw [stageOnAll]
    refine Keeps.trans ?_ (ih ..)
    refine Keeps.trans ?_ (stageOn_keeps ..)
    exact Keeps.refl _

theorem raiseEv_keeps (s : State) (e : EvSpec) :
    Keeps s (raiseEv s e) := by
  unfold raiseEv
  try conv => arg 2; zeta
  refine Keeps.ite ?_ ?_
  · refine Keeps.trans ?_ (stageOnAll_keeps ..)
    refine Keeps.ite ?_ ?_
    · refine Keeps.trans ?_ (alarmIrqs_keeps ..)
      refine Keeps.ofMk ?_ rfl rfl rfl rfl rfl rfl rfl rfl (fun h => h) rfl rfl (Nat.le_refl _)
      exact Keeps.refl _
    · exact Keeps.refl _
  · refine Keeps.ite ?_ ?_
    · refine Keeps.trans ?_ (alarmIrqs_keeps ..)
      refine Keeps.ofMk ?_ rfl rfl rfl rfl rfl rfl rfl rfl (fun h => h) rfl rfl (Nat.le_refl _)
      exact Keeps.refl _
    · exact Keeps.refl _

theorem raiseOpen_keeps (s : State) (unit : Nat) (num : Nat) (cls : Nat) (part : Nat) (slot : Nat) :
    Keeps s (raiseOpen s unit num cls part slot) := by
  unfold raiseOpen
  exact (Keeps.draw s 1).trans (raiseEv_keeps ..)

theorem raiseLog_keeps (s : State) (unit : Nat) :
    Keeps s (raiseLog s unit) := by
  unfold raiseLog
  refine Keeps.trans ?_ (raiseOpen_keeps ..)
  exact Keeps.refl _

theorem raiseAlarmOf_keeps (s : State) (unit : Nat) (num : Nat) (part : Nat) :
    Keeps s (raiseAlarmOf s unit num part) := by
  unfold raiseAlarmOf
  refine Keeps.trans ?_ (raiseOpen_keeps ..)
  exact Keeps.refl _

theorem raiseLogOf_keeps (s : State) (unit : Nat) (part : Nat) (slot : Nat) :
    Keeps s (raiseLogOf s unit part slot) := by
  unfold raiseLogOf
  refine Keeps.trans ?_ (raiseOpen_keeps ..)
  exact Keeps.refl _

theorem ringDeliver_keeps (s : State) (port : Nat) (fn : Nat) (ring : Nat) (data : Bytes) (frame : Option Nat) :
    Keeps s (ringDeliver s port fn ring data frame).2 := by
  unfold ringDeliver
  split
  · rename_i v0 e1
    have hv0 : Keeps s v0 := by
      refine Keeps.pair e1 ?_
      refine Keeps.trans ?_ (ringUnit_keeps ..)
      exact Keeps.refl _
    refine Keeps.snd ?_
    exact hv0
  · rename_i v2 e3
    have hv2 : Keeps s v2 := by
      refine Keeps.pair e3 ?_
      refine Keeps.trans ?_ (ringUnit_keeps ..)
      exact Keeps.refl _
    refine Keeps.snd ?_
    refine Keeps.trans ?_ (raiseLogOf_keeps ..)
    exact hv2
  · rename_i v4 e5
    have hv4 : Keeps s v4 := by
      refine Keeps.pair e5 ?_
      refine Keeps.trans ?_ (ringUnit_keeps ..)
      exact Keeps.refl _
    refine Keeps.snd ?_
    exact hv4

theorem raiseAlarm_keeps (s : State) (unit : Nat) (num : Nat) :
    Keeps s (raiseAlarm s unit num) := by
  unfold raiseAlarm
  refine Keeps.trans ?_ (raiseOpen_keeps ..)
  exact Keeps.refl _

/-! ### Machine/Bpm.lean -/

theorem bpmCount_keeps (s : State) (who : Nat) (k : Nat) (i : Nat) :
    Keeps s (bpmCount s who k i) := by
  unfold bpmCount
  refine Keeps.ite ?_ ?_
  · refine Keeps.trans ?_ (State.updPart_keeps ..)
    exact Keeps.refl _
  · exact Keeps.refl _

theorem setDesc_keeps (s : State) (a : Nat) (d : Word) :
    Keeps s (setDesc s a d) := by
  unfold setDesc
  try conv => arg 2; zeta
  refine Keeps.ofMk ?_ rfl rfl rfl rfl rfl rfl rfl rfl (fun h => h) rfl rfl (Nat.le_refl _)
  exact Keeps.refl _

theorem bpmShareOp_keeps (s : State) (who : Nat) (a : Nat) (owners : Nat) :
    Keeps s (bpmShareOp s who a owners) := by
  unfold bpmShareOp
  try conv => arg 2; zeta
  split
  · refine Keeps.trans ?_ (raiseLogOf_keeps ..)
    refine Keeps.trans ?_ (bpmCount_keeps ..)
    exact Keeps.refl _
  · refine Keeps.ite ?_ ?_
    · refine Keeps.trans ?_ (raiseLogOf_keeps ..)
      refine Keeps.trans ?_ (bpmCount_keeps ..)
      exact Keeps.refl _
    · refine Keeps.trans ?_ (setDesc_keeps ..)
      exact Keeps.refl _

theorem execBpmShare_keeps (who : Requester) (addr : Nat) (owners : Nat) (s : State) :
    ∃ u, execBpmShare who addr owners s = .next u ∧ Keeps s u := by
  unfold execBpmShare
  refine Keeps.done ?_
  refine Keeps.trans ?_ (bpmShareOp_keeps ..)
  exact Keeps.refl _

theorem dramZero_keeps (s : State) (a salt n : Nat) : Keeps s (dramZero s a salt n) := by
  induction n generalizing s a with
  | zero =>
    rw [dramZero]
    exact Keeps.refl _
  | succ n ih =>
    rw [dramZero]
    exact (Keeps.dramMem s _ (cellClear_wf _ _ _ _)).trans (ih ..)

theorem execBpmZeroIdle_keeps (pool : Nat) (s : State) :
    ∃ u, execBpmZeroIdle pool s = .next u ∧ Keeps s u := by
  unfold execBpmZeroIdle
  try conv => enter [1, t, 1, 1]; zeta
  split
  · refine Keeps.done ?_
    exact Keeps.refl _
  · refine Keeps.done ?_
    refine Keeps.ofMk ?_ rfl rfl rfl rfl rfl rfl rfl rfl (fun h => h) rfl rfl (Nat.le_refl _)
    refine Keeps.trans ?_ (dramZero_keeps ..)
    exact Keeps.refl _

theorem poolWarn_keeps (s : State) (k : Nat) :
    Keeps s (poolWarn s k) := by
  unfold poolWarn
  try conv => arg 2; zeta
  refine Keeps.ite ?_ ?_
  · refine Keeps.ite ?_ ?_
    · refine Keeps.ofMk ?_ rfl rfl rfl rfl rfl rfl rfl rfl (fun h => h) rfl rfl (Nat.le_refl _)
      exact Keeps.refl _
    · exact Keeps.refl _
  · refine Keeps.ite ?_ ?_
    · refine Keeps.trans ?_ (raiseLog_keeps ..)
      refine Keeps.ofMk ?_ rfl rfl rfl rfl rfl rfl rfl rfl (fun h => h) rfl rfl (Nat.le_refl _)
      exact Keeps.refl _
    · exact Keeps.refl _

theorem quarantine_keeps (s : State) (a : Nat) :
    Keeps s (quarantine s a) := by
  unfold quarantine
  try conv => arg 2; zeta
  split
  · exact Keeps.refl _
  · refine Keeps.ite ?_ ?_
    · exact Keeps.refl _
    · refine Keeps.ite ?_ ?_
      · refine Keeps.trans ?_ (poolWarn_keeps ..)
        refine Keeps.ofMk ?_ rfl rfl rfl rfl rfl rfl rfl rfl (fun h => h) rfl rfl (Nat.le_refl _)
        refine Keeps.trans ?_ (setDesc_keeps ..)
        exact Keeps.refl _
      · refine Keeps.ite ?_ ?_
        · exact Keeps.refl _
        · refine Keeps.ofMk ?_ rfl rfl rfl rfl rfl rfl rfl rfl (fun h => h) rfl rfl (Nat.le_refl _)
          exact Keeps.refl _

theorem allocRefuse_keeps (s : State) (who : Nat) (k : Nat) (i : Nat) :
    Keeps s (allocRefuse s who k i) := by
  unfold allocRefuse
  try conv => arg 2; zeta
  refine Keeps.trans ?_ (bpmCount_keeps ..)
  refine Keeps.ofMk ?_ rfl rfl rfl rfl rfl rfl rfl rfl (fun h => h) rfl rfl (Nat.le_refl _)
  exact Keeps.refl _

theorem saltGroup_keeps (s : State) (g : Nat) :
    Keeps s (saltGroup s g).2 := by
  unfold saltGroup
  try conv => arg 2; zeta
  refine Keeps.itePair ?_ ?_
  · split
    · rename_i v0 v1 e2
      have hv1 : Keeps s v1 := by
        refine Keeps.pair e2 ?_
        refine Keeps.trans ?_ (freeBits_keeps ..)
        exact Keeps.refl _
      refine Keeps.snd ?_
      refine Keeps.ofMk ?_ rfl rfl rfl rfl rfl rfl rfl rfl (fun h => h) rfl rfl (Nat.le_refl _)
      exact hv1
  · refine Keeps.snd ?_
    exact Keeps.refl _

theorem bpmAlloc_keeps (s : State) (who : Nat) (k : Nat) :
    Keeps s (bpmAlloc s who k).2 := by
  unfold bpmAlloc
  try conv => arg 2; zeta
  refine Keeps.itePair ?_ ?_
  · refine Keeps.snd ?_
    refine Keeps.trans ?_ (allocRefuse_keeps ..)
    exact Keeps.refl _
  · split
    · refine Keeps.snd ?_
      refine Keeps.trans ?_ (allocRefuse_keeps ..)
      exact Keeps.refl _
    · split
      · rename_i v0 v1 e2
        have hv1 : Keeps s v1 := by
          refine Keeps.pair e2 ?_
          refine Keeps.trans ?_ (saltGroup_keeps ..)
          exact Keeps.refl _
        refine Keeps.snd ?_
        refine Keeps.trans ?_ (poolWarn_keeps ..)
        refine Keeps.trans ?_ (bpmCount_keeps ..)
        refine Keeps.ofMk ?_ rfl rfl rfl rfl rfl rfl rfl rfl (fun h => h) rfl rfl (Nat.le_refl _)
        refine Keeps.trans ?_ (setDesc_keeps ..)
        refine Keeps.ite ?_ ?_
        · refine Keeps.trans ?_ (bpmCount_keeps ..)
          refine Keeps.trans ?_ (dramZero_keeps ..)
          exact hv1
        · exact hv1

theorem clearOwner_keeps (s : State) (who : Nat) (a : Nat) (k : Nat) :
    Keeps s (clearOwner s who a k) := by
  unfold clearOwner
  try conv => arg 2; zeta
  refine Keeps.ite ?_ ?_
  · refine Keeps.trans ?_ (setDesc_keeps ..)
    exact Keeps.refl _
  · refine Keeps.ite ?_ ?_
    · refine Keeps.trans ?_ (poolWarn_keeps ..)
      refine Keeps.ofMk ?_ rfl rfl rfl rfl rfl rfl rfl rfl (fun h => h) rfl rfl (Nat.le_refl _)
      refine Keeps.trans ?_ (setDesc_keeps ..)
      refine Keeps.ofMk ?_ rfl rfl rfl rfl rfl rfl rfl rfl (fun h => h) rfl rfl (Nat.le_refl _)
      exact Keeps.refl _
    · refine Keeps.trans ?_ (poolWarn_keeps ..)
      refine Keeps.trans ?_ (bpmCount_keeps ..)
      refine Keeps.ofMk ?_ rfl rfl rfl rfl rfl rfl rfl rfl (fun h => h) rfl rfl (Nat.le_refl _)
      refine Keeps.trans ?_ (setDesc_keeps ..)
      refine Keeps.ofMk ?_ rfl rfl rfl rfl rfl rfl rfl rfl (fun h => h) rfl rfl (Nat.le_refl _)
      exact Keeps.refl _

theorem bpmRelease_keeps (s : State) (who : Nat) (a : Nat) :
    Keeps s (bpmRelease s who a) := by
  unfold bpmRelease
  try conv => arg 2; zeta
  split
  · refine Keeps.trans ?_ (raiseLogOf_keeps ..)
    refine Keeps.trans ?_ (bpmCount_keeps ..)
    exact Keeps.refl _
  · refine Keeps.ite ?_ ?_
    · refine Keeps.trans ?_ (raiseLogOf_keeps ..)
      refine Keeps.trans ?_ (bpmCount_keeps ..)
      exact Keeps.refl _
    · refine Keeps.ite ?_ ?_
      · refine Keeps.trans ?_ (raiseLogOf_keeps ..)
        refine Keeps.trans ?_ (bpmCount_keeps ..)
        exact Keeps.refl _
      · refine Keeps.trans ?_ (clearOwner_keeps ..)
        exact Keeps.refl _

theorem releaseAll_keeps (who : Nat) (x1 : List Nat) (x2 : State) :
    Keeps x2 (releaseAll who x1 x2) := by
  induction x1 generalizing x2 with
  | nil =>
    rw [releaseAll]
    exact Keeps.refl _
  | cons a t ih =>
    rw [releaseAll]
    refine Keeps.trans ?_ (ih ..)
    refine Keeps.trans ?_ (bpmRelease_keeps ..)
    exact Keeps.refl _

theorem allocMany_keeps (who : Nat) (k : Nat) (x2 : Nat) (x3 : State) :
    Keeps x3 (allocMany who k x2 x3).2 := by
  induction x2 generalizing x3 with
  | zero =>
    rw [allocMany]
    refine Keeps.snd ?_
    exact Keeps.refl _
  | succ k ih =>
    rw [allocMany]
    try conv => arg 2; zeta
    split
    · rename_i v0 e1
      have hv0 : Keeps x3 v0 := by
        refine Keeps.pair e1 ?_
        refine Keeps.trans ?_ (bpmAlloc_keeps ..)
        exact Keeps.refl _
      refine Keeps.snd ?_
      exact hv0
    · rename_i v2 v3 e4
      have hv3 : Keeps x3 v3 := by
        refine Keeps.pair e4 ?_
        refine Keeps.trans ?_ (bpmAlloc_keeps ..)
        exact Keeps.refl _
      refine Keeps.snd ?_
      refine Keeps.trans ?_ (ih ..)
      exact hv3

theorem clearPartition_keeps (p : Nat) (x1 : List Nat) (x2 : State) :
    Keeps x2 (clearPartition p x1 x2) := by
  induction x1 generalizing x2 with
  | nil =>
    rw [clearPartition]
    exact Keeps.refl _
  | cons a t ih =>
    rw [clearPartition]
    refine Keeps.trans ?_ (ih ..)
    split
    · exact Keeps.refl _
    · refine Keeps.ite ?_ ?_
      · refine Keeps.trans ?_ (clearOwner_keeps ..)
        exact Keeps.refl _
      · exact Keeps.refl _

theorem execBpmAllocate_keeps (who : Requester) (pool : Nat) (s : State) :
    ∃ u, execBpmAllocate who pool s = .next u ∧ Keeps s u := by
  unfold execBpmAllocate
  refine Keeps.done ?_
  refine Keeps.trans ?_ (bpmAlloc_keeps ..)
  exact Keeps.refl _

theorem dramWrite_keeps (s : State) (a salt : Nat) (b : Bytes) : Keeps s (dramWrite s a salt b) := by
  induction b generalizing s a with
  | nil =>
    rw [dramWrite]
    exact Keeps.refl _
  | cons x t ih =>
    rw [dramWrite]
    exact (Keeps.dramMem s _ (cellWrite_wf _ _ _ _)).trans (ih ..)

end Sys2Proof.Machine
end

