-- ==== Sys2Proof/Laws/KeepsStream.lean ====
section
/-! SUPPORT. What each operation of these files of Machine/ leaves alone, as `Keeps` names it: CtxStore, Tracker, Life, Switch, Net, Ingest, Decoder. -/

set_option Elab.async false

set_option linter.unusedVariables false

namespace Sys2Proof.Machine

/-! ### Machine/CtxStore.lean -/

theorem writeBack_keeps (s : State) (l : List (Nat × Bool)) :
    Keeps s (writeBack s l) := by
  unfold writeBack
  refine Keeps.foldl (fun y0 _ => ?_) ?_ _
  · refine Keeps.ite ?_ ?_
    · refine Keeps.trans ?_ (dramWrite_keeps ..)
      exact Keeps.refl _
    · exact Keeps.refl _
  · exact Keeps.refl _

theorem cacheTouch_keeps (s : State) (i : Nat) (dirty : Bool) :
    Keeps s (cacheTouch s i dirty).2 := by
  unfold cacheTouch
  try conv => arg 2; zeta
  split
  · refine Keeps.snd ?_
    refine Keeps.ofMk ?_ rfl rfl rfl rfl rfl rfl rfl rfl (fun h => h) rfl rfl (Nat.le_refl _)
    exact Keeps.refl _
  · refine Keeps.snd ?_
    refine Keeps.trans ?_ (writeBack_keeps ..)
    refine Keeps.ofMk ?_ rfl rfl rfl rfl rfl rfl rfl rfl (fun h => h) rfl rfl (Nat.le_refl _)
    exact Keeps.refl _

theorem ctxCount_keeps (s : State) (slot : Nat) (k : Nat) (n : Nat) :
    Keeps s (ctxCount s slot k n) := by
  unfold ctxCount
  refine Keeps.ite ?_ ?_
  · refine Keeps.trans ?_ (State.updStream_keeps ..)
    exact Keeps.refl _
  · exact Keeps.refl _

theorem storeRead_keeps (s : State) (slot : Nat) (i : Nat) :
    Keeps s (storeRead s slot i) := by
  unfold storeRead
  try conv => arg 2; zeta
  split
  · rename_i v0 v1 e2
    have hv1 : Keeps s v1 := by
      refine Keeps.pair e2 ?_
      refine Keeps.trans ?_ (cacheTouch_keeps ..)
      exact Keeps.refl _
    refine Keeps.ite ?_ ?_
    · refine Keeps.trans ?_ (ctxCount_keeps ..)
      exact hv1
    · refine Keeps.trans ?_ (ctxCount_keeps ..)
      refine Keeps.trans ?_ (ctxCount_keeps ..)
      exact hv1

theorem recPut_keeps (s : State) (i : Nat) (b : Bytes) :
    Keeps s (recPut s i b) := by
  unfold recPut
  try conv => arg 2; zeta
  refine Keeps.ofMk ?_ rfl rfl rfl rfl rfl rfl rfl rfl (fun h => h) rfl rfl (Nat.le_refl _)
  exact Keeps.refl _

theorem storeWrite_keeps (s : State) (slot : Nat) (i : Nat) (payload : Bytes) :
    Keeps s (storeWrite s slot i payload) := by
  unfold storeWrite
  split
  · rename_i v0 v1 e2
    have hv1 : Keeps s v1 := by
      refine Keeps.pair e2 ?_
      refine Keeps.trans ?_ (cacheTouch_keeps ..)
      exact Keeps.refl _
    refine Keeps.trans ?_ (ctxCount_keeps ..)
    refine Keeps.trans ?_ (recPut_keeps ..)
    exact hv1

theorem recSet_keeps (s : State) (slot : Nat) (ord : Nat) (fs : List (Nat × Bytes)) :
    Keeps s (recSet s slot ord fs) := by
  unfold recSet
  try conv => arg 2; zeta
  refine Keeps.trans ?_ (storeWrite_keeps ..)
  refine Keeps.trans ?_ (storeRead_keeps ..)
  exact Keeps.refl _

theorem ptrSetState_keeps (s : State) (slot : Nat) (r : Nat) (st : Nat) :
    Keeps s (ptrSetState s slot r st) := by
  unfold ptrSetState
  refine Keeps.trans ?_ (recSet_keeps ..)
  exact Keeps.refl _

theorem storeNew_keeps (s : State) (i : Nat) (b : Bytes) :
    Keeps s (storeNew s i b) := by
  unfold storeNew
  refine Keeps.trans ?_ (recPut_keeps ..)
  refine Keeps.trans ?_ (cacheTouch_keeps ..)
  exact Keeps.refl _

theorem writeRun_keeps (c : Sections) (e : Bytes) (ring : List Nat) (cbAddr : Nat) (base : Nat) (gen : Nat) (x6 : Nat) (x7 : Nat) (x8 : State) :
    Keeps x8 (writeRun c e ring cbAddr base gen x6 x7 x8) := by
  induction x6 generalizing x7 x8 with
  | zero =>
    rw [writeRun]
    exact Keeps.refl _
  | succ k ih =>
    rw [writeRun]
    refine Keeps.trans ?_ (ih ..)
    refine Keeps.trans ?_ (storeNew_keeps ..)
    exact Keeps.refl _

theorem restoreTables_keeps (s : State) (slot : Nat) :
    Keeps s (restoreTables s slot) := by
  unfold restoreTables
  try conv => arg 2; zeta
  refine Keeps.foldl (fun y0 _ => ?_) ?_ _
  · refine Keeps.trans ?_ (storeWrite_keeps ..)
    exact Keeps.refl _
  · refine Keeps.trans ?_ (State.updStream_keeps ..)
    exact Keeps.refl _

theorem adapterReset_keeps (s : State) (slot : Nat) :
    Keeps s (adapterReset s slot) := by
  unfold adapterReset
  try conv => arg 2; zeta
  refine Keeps.ite ?_ ?_
  · refine Keeps.foldl (fun y0 _ => ?_) ?_ _
    · refine Keeps.trans ?_ (storeWrite_keeps ..)
      exact Keeps.refl _
    · refine Keeps.trans ?_ (storeWrite_keeps ..)
      refine Keeps.trans ?_ (State.updStream_keeps ..)
      exact Keeps.refl _
  · exact Keeps.refl _

theorem ctxPartCount_keeps (s : State) (p : Nat) (k : Nat) (n : Nat) :
    Keeps s (ctxPartCount s p k n) := by
  unfold ctxPartCount
  refine Keeps.trans ?_ (State.updPart_keeps ..)
  exact Keeps.refl _

theorem ringEmpty_keeps (slot : Nat) (x1 : List Nat) (x2 : State) :
    Keeps x2 (ringEmpty slot x1 x2) := by
  induction x1 generalizing x2 with
  | nil =>
    rw [ringEmpty]
    exact Keeps.refl _
  | cons a t ih =>
    rw [ringEmpty]
    refine Keeps.trans ?_ (ih ..)
    refine Keeps.trans ?_ (ptrSetState_keeps ..)
    exact Keeps.refl _

theorem setLive_keeps (s : State) (slot : Nat) (live : List Nat) :
    Keeps s (setLive s slot live) := by
  unfold setLive
  try conv => arg 2; zeta
  refine Keeps.trans ?_ (recSet_keeps ..)
  exact Keeps.refl _

theorem freeTrack_keeps (s : State) (slot : Nat) (i : Nat) :
    Keeps s (freeTrack s slot i) := by
  unfold freeTrack
  try conv => arg 2; zeta
  refine Keeps.trans ?_ (ctxCount_keeps ..)
  refine Keeps.trans ?_ (setLive_keeps ..)
  refine Keeps.trans ?_ (storeWrite_keeps ..)
  exact Keeps.refl _

theorem freeTracks_keeps (slot : Nat) (x1 : List Nat) (x2 : State) :
    Keeps x2 (freeTracks slot x1 x2) := by
  induction x1 generalizing x2 with
  | nil =>
    rw [freeTracks]
    exact Keeps.refl _
  | cons a t ih =>
    rw [freeTracks]
    refine Keeps.trans ?_ (ih ..)
    refine Keeps.trans ?_ (freeTrack_keeps ..)
    exact Keeps.refl _

theorem storeReads_keeps (s : State) (slot : Nat) (l : List Nat) :
    Keeps s (storeReads s slot l) := by
  unfold storeReads
  refine Keeps.foldl (fun y0 _ => ?_) ?_ _
  · refine Keeps.trans ?_ (storeRead_keeps ..)
    exact Keeps.refl _
  · exact Keeps.refl _

theorem takeRun_keeps (s : State) (slot : Nat) :
    Keeps s (takeRun s slot) := by
  unfold takeRun
  try conv => arg 2; zeta
  split
  · exact Keeps.refl _
  · refine Keeps.trans ?_ (State.updStream_keeps ..)
    exact Keeps.refl _

theorem newSegment_keeps (s : State) (slot : Nat) :
    Keeps s (newSegment s slot) := by
  unfold newSegment
  try conv => arg 2; zeta
  refine Keeps.trans ?_ (freeTracks_keeps ..)
  refine Keeps.trans ?_ (recSet_keeps ..)
  refine Keeps.trans ?_ (ringEmpty_keeps ..)
  exact Keeps.refl _

theorem reinitRun_keeps (s : State) (slot : Nat) :
    Keeps s (reinitRun s slot) := by
  unfold reinitRun
  try conv => arg 2; zeta
  refine Keeps.trans ?_ (writeRun_keeps ..)
  refine Keeps.trans ?_ (State.updStream_keeps ..)
  exact Keeps.refl _

/-! ### Machine/Tracker.lean -/

theorem writeMatches_keeps (slot : Nat) (n : Nat) (ds : List (Nat × DetRow)) (x3 : List (Nat × Nat)) (x4 : State) :
    Keeps x4 (writeMatches slot n ds x3 x4) := by
  induction x3 generalizing x4 with
  | nil =>
    rw [writeMatches]
    exact Keeps.refl _
  | cons a t ih =>
    rw [writeMatches]
    split
    · refine Keeps.trans ?_ (ih ..)
      exact Keeps.refl _
    · refine Keeps.trans ?_ (ih ..)
      refine Keeps.trans ?_ (storeWrite_keeps ..)
      exact Keeps.refl _

theorem births_keeps (slot : Nat) (n : Nat) (x2 : List (Nat × DetRow)) (x3 : State) :
    Keeps x3 (births slot n x2 x3) := by
  induction x2 generalizing x3 with
  | nil =>
    rw [births]
    exact Keeps.refl _
  | cons a t ih =>
    rw [births]
    try conv => arg 2; zeta
    split
    · refine Keeps.trans ?_ (ih ..)
      refine Keeps.trans ?_ (ctxCount_keeps ..)
      exact Keeps.refl _
    · refine Keeps.trans ?_ (ih ..)
      refine Keeps.trans ?_ (ctxCount_keeps ..)
      refine Keeps.trans ?_ (recSet_keeps ..)
      refine Keeps.trans ?_ (setLive_keeps ..)
      refine Keeps.trans ?_ (storeWrite_keeps ..)
      exact Keeps.refl _

theorem runTracker_keeps (s : State) (slot : Nat) (n : Nat) (rows : List DetRow) :
    Keeps s (runTracker s slot n rows) := by
  unfold runTracker
  try conv => arg 2; zeta
  refine Keeps.trans ?_ (freeTracks_keeps ..)
  refine Keeps.trans ?_ (births_keeps ..)
  refine Keeps.trans ?_ (writeMatches_keeps ..)
  refine Keeps.trans ?_ (ctxCount_keeps ..)
  exact Keeps.refl _

theorem trackNext_keeps (s : State) (slot : Nat) : Keeps s (trackNext s slot).2 := by
  unfold trackNext
  split
  · exact Keeps.refl _
  · refine Keeps.itePair ?_ (Keeps.snd (Keeps.refl _))
    refine Keeps.snd ?_
    refine Keeps.trans ?_ (frameStage_keeps ..)
    refine Keeps.trans ?_ (State.updFrame_keeps ..)
    refine Keeps.trans ?_ (recSet_keeps ..)
    exact (storeReads_keeps ..).trans (runTracker_keeps ..)

/-! ### Machine/Life.lean -/

theorem passOver_keeps (s : State) (slot : Nat) :
    Keeps s (passOver s slot) := by
  unfold passOver
  refine Keeps.trans ?_ (State.updStream_keeps ..)
  exact Keeps.refl _

theorem ringAbort_keeps (slot : Nat) (n : Nat) (x2 : List Nat) (x3 : State) :
    Keeps x3 (ringAbort slot n x2 x3) := by
  induction x2 generalizing x3 with
  | nil =>
    rw [ringAbort]
    exact Keeps.refl _
  | cons a t ih =>
    rw [ringAbort]
    refine Keeps.trans ?_ (ih ..)
    refine Keeps.ite ?_ ?_
    · exact Keeps.refl _
    · refine Keeps.ite ?_ ?_
      · refine Keeps.trans ?_ (ptrSetState_keeps ..)
        exact Keeps.refl _
      · refine Keeps.ite ?_ ?_
        · refine Keeps.trans ?_ (recSet_keeps ..)
          refine Keeps.trans ?_ (ptrSetState_keeps ..)
          exact Keeps.refl _
        · exact Keeps.refl _

theorem markAbsent_keeps (s : State) (fid : Nat) :
    Keeps s (markAbsent s fid) := by
  unfold markAbsent
  try conv => arg 2; zeta
  split
  · exact Keeps.refl _
  · refine Keeps.ite ?_ ?_
    · refine Keeps.trans ?_ (ringAbort_keeps ..)
      refine Keeps.trans ?_ (passOver_keeps ..)
      refine Keeps.trans ?_ (State.updStream_keeps ..)
      exact Keeps.refl _
    · exact Keeps.refl _

theorem takeCodebook_keeps (s : State) (slot : Nat) :
    Keeps s (takeCodebook s slot).2 := by
  unfold takeCodebook
  split
  · refine Keeps.snd ?_
    exact Keeps.refl _
  · refine Keeps.trans ?_ (bpmAlloc_keeps ..)
    exact Keeps.refl _

theorem takeRing_keeps (s : State) (slot : Nat) :
    Keeps s (takeRing s slot) := by
  unfold takeRing
  try conv => arg 2; zeta
  split
  · exact Keeps.refl _
  · split
    · rename_i v0 v1 e2
      have hv1 : Keeps s v1 := by
        refine Keeps.pair e2 ?_
        refine Keeps.trans ?_ (allocMany_keeps ..)
        exact Keeps.refl _
      refine Keeps.trans ?_ (State.updStream_keeps ..)
      exact hv1

theorem freeBands_keeps (s : State) (fid : Nat) :
    Keeps s (freeBands s fid) := by
  unfold freeBands
  try conv => arg 2; zeta
  refine Keeps.trans ?_ (State.updDec_keeps ..)
  refine Keeps.trans ?_ (State.updFrame_keeps ..)
  refine Keeps.trans ?_ (releaseAll_keeps ..)
  exact Keeps.refl _

theorem freeWork_keeps (s : State) (fid : Nat) :
    Keeps s (freeWork s fid) := by
  unfold freeWork
  try conv => arg 2; zeta
  refine Keeps.trans ?_ (State.updFrame_keeps ..)
  split
  · exact Keeps.refl _
  · refine Keeps.trans ?_ (bpmRelease_keeps ..)
    exact Keeps.refl _

theorem sweepFrames_keeps (x0 : List Nat) (x1 : State) :
    Keeps x1 (sweepFrames x0 x1) := by
  induction x0 generalizing x1 with
  | nil =>
    rw [sweepFrames]
    exact Keeps.refl _
  | cons a t ih =>
    rw [sweepFrames]
    refine Keeps.trans ?_ (ih ..)
    refine Keeps.ite ?_ ?_
    · refine Keeps.trans ?_ (freeWork_keeps ..)
      refine Keeps.ite ?_ ?_
      · refine Keeps.trans ?_ (freeBands_keeps ..)
        exact Keeps.refl _
      · exact Keeps.refl _
    · refine Keeps.ite ?_ ?_
      · refine Keeps.trans ?_ (freeBands_keeps ..)
        exact Keeps.refl _
      · exact Keeps.refl _

theorem freeOldCfg_keeps (s : State) :
    Keeps s (freeOldCfg s) := by
  unfold freeOldCfg
  try conv => arg 2; zeta
  refine Keeps.ofMk ?_ rfl rfl rfl rfl rfl rfl rfl rfl (fun h => h) rfl rfl (Nat.le_refl _)
  exact Keeps.refl _

theorem sweepSlot_keeps (s : State) (slot : Nat) :
    Keeps s (sweepSlot s slot) := by
  unfold sweepSlot
  try conv => arg 2; zeta
  refine Keeps.ofMk ?_ rfl rfl rfl rfl rfl rfl rfl rfl (fun h => h) rfl rfl (Nat.le_refl _)
  refine Keeps.trans ?_ (freeOldCfg_keeps ..)
  refine Keeps.trans ?_ (sweepFrames_keeps ..)
  exact Keeps.refl _

theorem purgeHeld_keeps (s : State) (fid : Nat) : Keeps s (purgeHeld s fid) := by
  refine Keeps.fns s _ (fun a q hq => ?_)
  obtain ⟨p, hp, e⟩ := List.mem_map.1 hq
  subst e
  exact a p hp

theorem frameUnqueue_keeps (s : State) (fid : Nat) :
    Keeps s (frameUnqueue s fid) := by
  unfold frameUnqueue
  try conv => arg 2; zeta
  refine Keeps.ofMk ?_ rfl rfl rfl rfl rfl rfl rfl rfl (fun h => h) rfl rfl (Nat.le_refl _)
  refine Keeps.trans ?_ (State.updDec_keeps ..)
  exact Keeps.refl _

theorem batchDrop_keeps (s : State) (b : Nat) :
    Keeps s (batchDrop s b) := by
  unfold batchDrop
  try conv => arg 2; zeta
  split
  · exact Keeps.refl _
  · refine Keeps.ofMk ?_ rfl rfl rfl rfl rfl rfl rfl rfl (fun h => h) rfl rfl (Nat.le_refl _)
    refine Keeps.trans ?_ (State.updPart_keeps ..)
    refine Keeps.ofMk ?_ rfl rfl rfl rfl rfl rfl rfl rfl (fun h => h) rfl rfl (Nat.le_refl _)
    exact Keeps.refl _

theorem batchWithdraw_keeps (s : State) (fid : Nat) (b : Nat) :
    Keeps s (batchWithdraw s fid b) := by
  unfold batchWithdraw
  try conv => arg 2; zeta
  split
  · refine Keeps.trans ?_ (State.updBatch_keeps ..)
    exact Keeps.refl _
  · refine Keeps.ite ?_ ?_
    · refine Keeps.trans ?_ (State.updBatch_keeps ..)
      exact Keeps.refl _
    · refine Keeps.trans ?_ (batchDrop_keeps ..)
      refine Keeps.trans ?_ (State.updBatch_keeps ..)
      exact Keeps.refl _

theorem freeIngress_keeps (s : State) (fid : Nat) :
    Keeps s (freeIngress s fid) := by
  unfold freeIngress
  try conv => arg 2; zeta
  refine Keeps.trans ?_ (releaseAll_keeps ..)
  refine Keeps.trans ?_ (State.updFrame_keeps ..)
  exact Keeps.refl _

theorem sweepSlots_keeps (x0 : List Nat) (x1 : State) :
    Keeps x1 (sweepSlots x0 x1) := by
  induction x0 generalizing x1 with
  | nil =>
    rw [sweepSlots]
    exact Keeps.refl _
  | cons a t ih =>
    rw [sweepSlots]
    refine Keeps.trans ?_ (ih ..)
    refine Keeps.trans ?_ (sweepSlot_keeps ..)
    exact Keeps.refl _

theorem discardFrame_keeps (s : State) (fid : Nat) (cause : Nat) :
    Keeps s (discardFrame s fid cause) := by
  unfold discardFrame
  try conv => arg 2; zeta
  split
  · exact Keeps.refl _
  · refine Keeps.ite ?_ ?_
    · exact Keeps.refl _
    · refine Keeps.trans ?_ (sweepSlots_keeps ..)
      refine Keeps.trans ?_ (freeWork_keeps ..)
      refine Keeps.trans ?_ (freeIngress_keeps ..)
      split
      · refine Keeps.trans ?_ (purgeHeld_keeps ..)
        refine Keeps.trans ?_ (frameUnqueue_keeps ..)
        refine Keeps.trans ?_ (ledgerWrite_keeps ..)
        refine Keeps.trans ?_ (State.updFrame_keeps ..)
        refine Keeps.trans ?_ (markAbsent_keeps ..)
        exact Keeps.refl _
      · refine Keeps.trans ?_ (batchWithdraw_keeps ..)
        refine Keeps.trans ?_ (purgeHeld_keeps ..)
        refine Keeps.trans ?_ (frameUnqueue_keeps ..)
        refine Keeps.trans ?_ (ledgerWrite_keeps ..)
        refine Keeps.trans ?_ (State.updFrame_keeps ..)
        refine Keeps.trans ?_ (markAbsent_keeps ..)
        exact Keeps.refl _

theorem engineTake_keeps (s : State) (slot : Nat) (g : Nat) :
    Keeps s (engineTake s slot g) := by
  unfold engineTake
  try conv => arg 2; zeta
  refine Keeps.ite ?_ ?_
  · refine Keeps.trans ?_ (State.updDec_keeps ..)
    exact Keeps.refl _
  · split
    · exact Keeps.refl _
    · split
      · rename_i v0 v1 e2
        have hv1 : Keeps s v1 := by
          refine Keeps.pair e2 ?_
          refine Keeps.trans ?_ (bpmAlloc_keeps ..)
          exact Keeps.refl _
        refine Keeps.trans ?_ (State.updDec_keeps ..)
        exact hv1
      · rename_i v3 e4
        have hv3 : Keeps s v3 := by
          refine Keeps.pair e4 ?_
          refine Keeps.trans ?_ (bpmAlloc_keeps ..)
          exact Keeps.refl _
        exact hv3

theorem engineAssign_keeps (s : State) (slot : Nat) :
    Keeps s (engineAssign s slot) := by
  unfold engineAssign
  refine Keeps.ite ?_ ?_
  · exact Keeps.refl _
  · split
    · refine Keeps.trans ?_ (engineTake_keeps ..)
      exact Keeps.refl _
    · split
      · refine Keeps.trans ?_ (engineTake_keeps ..)
        exact Keeps.refl _
      · exact Keeps.refl _

theorem engineAssignAll_keeps (x0 : List Nat) (x1 : State) :
    Keeps x1 (engineAssignAll x0 x1) := by
  induction x0 generalizing x1 with
  | nil =>
    rw [engineAssignAll]
    exact Keeps.refl _
  | cons a t ih =>
    rw [engineAssignAll]
    refine Keeps.trans ?_ (ih ..)
    refine Keeps.ite ?_ ?_
    · refine Keeps.trans ?_ (engineAssign_keeps ..)
      exact Keeps.refl _
    · exact Keeps.refl _

theorem execBpmFree_keeps (who : Requester) (addr : Nat) (s : State) :
    ∃ u, execBpmFree who addr s = .next u ∧ Keeps s u := by
  unfold execBpmFree
  refine Keeps.done ?_
  refine Keeps.trans ?_ (engineAssignAll_keeps ..)
  refine Keeps.trans ?_ (bpmRelease_keeps ..)
  exact Keeps.refl _

theorem decCount_keeps (s : State) (slot : Nat) (k : Nat) (n : Nat) :
    Keeps s (decCount s slot k n) := by
  unfold decCount
  refine Keeps.trans ?_ (State.updDec_keeps ..)
  exact Keeps.refl _

theorem auHold_keeps (slot : Nat) (s : State) (fid : Nat) :
    Keeps s (auHold slot s fid) := by
  unfold auHold
  try conv => arg 2; zeta
  refine Keeps.ite ?_ ?_
  · refine Keeps.trans ?_ (State.updDec_keeps ..)
    exact Keeps.refl _
  · refine Keeps.ite ?_ ?_
    · refine Keeps.trans ?_ (decCount_keeps ..)
      refine Keeps.trans ?_ (discardFrame_keeps ..)
      refine Keeps.trans ?_ (State.updDec_keeps ..)
      exact Keeps.refl _
    · refine Keeps.trans ?_ (State.updDec_keeps ..)
      exact Keeps.refl _

theorem discardFrames_keeps (cause : Nat) (x1 : List Nat) (x2 : State) :
    Keeps x2 (discardFrames cause x1 x2) := by
  induction x1 generalizing x2 with
  | nil =>
    rw [discardFrames]
    exact Keeps.refl _
  | cons a t ih =>
    rw [discardFrames]
    refine Keeps.trans ?_ (ih ..)
    refine Keeps.trans ?_ (discardFrame_keeps ..)
    exact Keeps.refl _

theorem dropFrames_keeps (s : State) (slot : Nat) (cause : Nat) :
    Keeps s (dropFrames s slot cause) := by
  unfold dropFrames
  try conv => arg 2; zeta
  refine Keeps.ofMk ?_ rfl rfl rfl rfl rfl rfl rfl rfl (fun h => h) rfl rfl (Nat.le_refl _)
  refine Keeps.foldl (fun y0 _ => ?_) ?_ _
  · refine Keeps.ite ?_ ?_
    · refine Keeps.trans ?_ (freeWork_keeps ..)
      refine Keeps.trans ?_ (freeBands_keeps ..)
      exact Keeps.refl _
    · exact Keeps.refl _
  · refine Keeps.ofMk ?_ rfl rfl rfl rfl rfl rfl rfl rfl (fun h => h) rfl rfl (Nat.le_refl _)
    refine Keeps.trans ?_ (discardFrames_keeps ..)
    exact Keeps.refl _

theorem mapCount_keeps (s : State) (p : Nat) (k : Nat) (n : Nat) :
    Keeps s (mapCount s p k n) := by
  unfold mapCount
  refine Keeps.trans ?_ (State.updPart_keeps ..)
  exact Keeps.refl _

theorem shadowDrop_keeps (s : State) (cx : Nat) :
    Keeps s (shadowDrop s cx) := by
  unfold shadowDrop
  try conv => arg 2; zeta
  refine Keeps.trans ?_ (mapCount_keeps ..)
  refine Keeps.ofMk ?_ rfl rfl rfl rfl rfl rfl rfl rfl (fun h => h) rfl rfl (Nat.le_refl _)
  exact Keeps.refl _

theorem shadowDropStream_keeps (s : State) (slot : Nat) :
    Keeps s (shadowDropStream s slot) := by
  unfold shadowDropStream
  refine Keeps.foldl (fun y0 _ => ?_) ?_ _
  · refine Keeps.trans ?_ (shadowDrop_keeps ..)
    exact Keeps.refl _
  · exact Keeps.refl _

theorem engineDrop_keeps (s : State) (slot : Nat) :
    Keeps s (engineDrop s slot) := by
  unfold engineDrop
  try conv => arg 2; zeta
  refine Keeps.trans ?_ (State.updDec_keeps ..)
  split
  · split
    · exact Keeps.refl _
    · refine Keeps.trans ?_ (bpmRelease_keeps ..)
      exact Keeps.refl _
  · refine Keeps.ofMk ?_ rfl rfl rfl rfl rfl rfl rfl rfl (fun h => h) rfl rfl (Nat.le_refl _)
    split
    · exact Keeps.refl _
    · refine Keeps.trans ?_ (bpmRelease_keeps ..)
      exact Keeps.refl _

theorem decLog_keeps (s : State) (slot : Nat) :
    Keeps s (decLog s slot) := by
  unfold decLog
  try conv => arg 2; zeta
  refine Keeps.ite ?_ ?_
  · refine Keeps.trans ?_ (raiseLogOf_keeps ..)
    refine Keeps.trans ?_ (State.updDec_keeps ..)
    exact Keeps.refl _
  · exact Keeps.refl _

theorem dropOpenAu_keeps (s : State) (slot : Nat) :
    Keeps s (dropOpenAu s slot) := by
  unfold dropOpenAu
  split
  · exact Keeps.refl _
  · refine Keeps.trans ?_ (releaseAll_keeps ..)
    refine Keeps.trans ?_ (State.updIng_keeps ..)
    exact Keeps.refl _

theorem alignDecide_keeps (s : State) (fid : Nat) :
    Keeps s (alignDecide s fid) := by
  unfold alignDecide
  try conv => arg 2; zeta
  refine Keeps.trans ?_ (frameStage_keeps ..)
  refine Keeps.trans ?_ (State.updFrame_keeps ..)
  exact Keeps.refl _

theorem useIpId_keeps (s : State) (np : Nat) (dst : Nat) :
    Keeps s (useIpId s np dst) := by
  unfold useIpId
  refine Keeps.ite ?_ ?_
  · refine Keeps.trans ?_ (State.updNp_keeps ..)
    exact Keeps.refl _
  · exact Keeps.refl _

theorem streamAssign_keeps (s : State) (slot : Nat) : Keeps s (streamAssign s slot) := by
  unfold streamAssign
  try conv => arg 2; zeta
  have h1 : Keeps s (if (State.stream (engineAssign s slot) slot).kvRing.isEmpty = true then takeRing (engineAssign s slot) slot
      else engineAssign s slot) :=
    Keeps.ite ((engineAssign_keeps ..).trans (takeRing_keeps ..)) (engineAssign_keeps ..)
  generalize (if (State.stream (engineAssign s slot) slot).kvRing.isEmpty = true then takeRing (engineAssign s slot) slot
      else engineAssign s slot) = x at h1 ⊢
  split
  rename_i cb y e
  have h2 : Keeps s y := Keeps.pair e (Keeps.itePair h1 (h1.trans (takeCodebook_keeps ..)))
  refine Keeps.trans ?_ (writeRun_keeps ..)
  refine Keeps.trans ?_ (State.updStream_keeps ..)
  exact Keeps.ite (h2.trans (takeRun_keeps ..)) h2

theorem streamGoLive_keeps (s : State) (slot : Nat) :
    Keeps s (streamGoLive s slot) := by
  unfold streamGoLive
  try conv => arg 2; zeta
  refine Keeps.trans ?_ (State.updStream_keeps ..)
  refine Keeps.trans ?_ (streamAssign_keeps ..)
  exact Keeps.refl _

theorem alignTry_keeps (s : State) (fid : Nat) :
    Keeps s (alignTry s fid) := by
  unfold alignTry
  try conv => arg 2; zeta
  refine Keeps.ite ?_ ?_
  · exact Keeps.refl _
  · split
    · refine Keeps.ite ?_ ?_
      · refine Keeps.trans ?_ (alignDecide_keeps ..)
        exact Keeps.refl _
      · exact Keeps.refl _
    · refine Keeps.trans ?_ (alignDecide_keeps ..)
      exact Keeps.refl _

theorem alignTries_keeps (x0 : List Nat) (x1 : State) :
    Keeps x1 (alignTries x0 x1) := by
  induction x0 generalizing x1 with
  | nil =>
    rw [alignTries]
    exact Keeps.refl _
  | cons a t ih =>
    rw [alignTries]
    refine Keeps.trans ?_ (ih ..)
    refine Keeps.trans ?_ (alignTry_keeps ..)
    exact Keeps.refl _

theorem rollback_keeps (s : State) (slot : Nat) :
    Keeps s (rollback s slot) := by
  unfold rollback
  try conv => arg 2; zeta
  refine Keeps.trans ?_ (decCount_keeps ..)
  refine Keeps.trans ?_ (State.updDec_keeps ..)
  refine Keeps.ofMk ?_ rfl rfl rfl rfl rfl rfl rfl rfl (fun h => h) rfl rfl (Nat.le_refl _)
  exact Keeps.refl _

theorem leaveGroup_keeps (s : State) (slot : Nat) :
    Keeps s (leaveGroup s slot) := by
  unfold leaveGroup
  try conv => arg 2; zeta
  refine Keeps.ite ?_ ?_
  · exact Keeps.refl _
  · refine Keeps.ite ?_ ?_
    · refine Keeps.trans ?_ (emit_keeps ..)
      refine Keeps.trans ?_ (useIpId_keeps ..)
      exact Keeps.refl _
    · refine Keeps.ite ?_ ?_
      · exact Keeps.refl _
      · refine Keeps.ite ?_ ?_
        · refine Keeps.trans ?_ (emit_keeps ..)
          refine Keeps.trans ?_ (useIpId_keeps ..)
          exact Keeps.refl _
        · refine Keeps.ite ?_ ?_
          · exact Keeps.refl _
          · refine Keeps.trans ?_ (emit_keeps ..)
            refine Keeps.trans ?_ (useIpId_keeps ..)
            exact Keeps.refl _

theorem purgeSlot_keeps (s : State) (slot : Nat) : Keeps s (purgeSlot s slot) := by
  unfold purgeSlot
  refine Keeps.trans (Keeps.fns s (mmap s.fns (fun _ f => { f with
    rings := mmap f.rings (fun _ r => { r with held := r.held.filter (fun u => unitSlot u != slot) }) })) (fun a q hq => ?_))
    (Keeps.ofMk (Keeps.refl _) rfl rfl rfl rfl rfl rfl rfl rfl (fun h => h) rfl rfl (Nat.le_refl _))
  obtain ⟨p, hp, e⟩ := List.mem_map.1 hq
  subst e
  exact a p hp

theorem streamRemove_keeps (s : State) (slot : Nat) (cause : Nat) :
    Keeps s (streamRemove s slot cause) := by
  unfold streamRemove
  try conv => arg 2; zeta
  refine Keeps.trans ?_ (alignTries_keeps ..)
  refine Keeps.trans ?_ (engineAssignAll_keeps ..)
  refine Keeps.ofMk ?_ rfl rfl rfl rfl rfl rfl rfl rfl (fun h => h) rfl rfl (Nat.le_refl _)
  refine Keeps.trans ?_ (engineDrop_keeps ..)
  refine Keeps.ite ?_ ?_
  · refine Keeps.trans ?_ (bpmRelease_keeps ..)
    refine Keeps.trans ?_ (releaseAll_keeps ..)
    refine Keeps.trans ?_ (dropOpenAu_keeps ..)
    refine Keeps.trans ?_ (purgeSlot_keeps ..)
    refine Keeps.trans ?_ (dropFrames_keeps ..)
    refine Keeps.trans ?_ (shadowDropStream_keeps ..)
    refine Keeps.trans ?_ (leaveGroup_keeps ..)
    exact Keeps.refl _
  · refine Keeps.trans ?_ (releaseAll_keeps ..)
    refine Keeps.trans ?_ (dropOpenAu_keeps ..)
    refine Keeps.trans ?_ (purgeSlot_keeps ..)
    refine Keeps.trans ?_ (dropFrames_keeps ..)
    refine Keeps.trans ?_ (shadowDropStream_keeps ..)
    refine Keeps.trans ?_ (leaveGroup_keeps ..)
    exact Keeps.refl _

theorem alignGroup_keeps (s : State) (slot : Nat) :
    Keeps s (alignGroup s slot) := by
  unfold alignGroup
  refine Keeps.trans ?_ (alignTries_keeps ..)
  exact Keeps.refl _

/-! ### Machine/Switch.lean -/

theorem reportGroup_keeps (s : State) (e : Bytes) (stateChange : Bool) :
    Keeps s (reportGroup s e stateChange) := by
  unfold reportGroup
  try conv => arg 2; zeta
  refine Keeps.trans ?_ (emit_keeps ..)
  refine Keeps.trans ?_ (useIpId_keeps ..)
  exact Keeps.refl _

theorem rebuildRing_keeps (s : State) (slot : Nat) :
    Keeps s (rebuildRing s slot) := by
  unfold rebuildRing
  try conv => arg 2; zeta
  refine Keeps.trans ?_ (recSet_keeps ..)
  refine Keeps.foldl (fun y0 _ => ?_) ?_ _
  · refine Keeps.trans ?_ (recSet_keeps ..)
    exact Keeps.refl _
  · refine Keeps.trans ?_ (takeRing_keeps ..)
    refine Keeps.trans ?_ (releaseAll_keeps ..)
    refine Keeps.trans ?_ (State.updStream_keeps ..)
    exact Keeps.refl _

theorem moultFinish_keeps (s : State) :
    Keeps s (moultFinish s) := by
  unfold moultFinish
  try conv => arg 2; zeta
  refine Keeps.ite ?_ ?_
  · refine Keeps.trans ?_ (freeOldCfg_keeps ..)
    refine Keeps.trans ?_ (raiseIrq_keeps ..)
    refine Keeps.ofMk ?_ rfl rfl rfl rfl rfl rfl rfl rfl (fun h => h) rfl rfl (Nat.le_refl _)
    exact Keeps.refl _
  · exact Keeps.refl _

theorem switchTables_keeps (s : State) (slot : Nat) (c0 : Sections) (e0 : Bytes) :
    Keeps s (switchTables s slot c0 e0) := by
  unfold switchTables
  try conv => arg 2; zeta
  refine Keeps.trans ?_ (State.updStream_keeps ..)
  exact Keeps.refl _

theorem switchCodebook_keeps (s : State) (slot : Nat) :
    Keeps s (switchCodebook s slot) := by
  unfold switchCodebook
  try conv => arg 2; zeta
  refine Keeps.trans ?_ (recSet_keeps ..)
  refine Keeps.trans ?_ (State.updStream_keeps ..)
  exact Keeps.refl _

theorem joinReport_keeps (s : State) (slot : Nat) :
    Keeps s (joinReport s slot) := by
  unfold joinReport
  try conv => arg 2; zeta
  refine Keeps.ite ?_ ?_
  · refine Keeps.trans ?_ (State.updIng_keeps ..)
    refine Keeps.trans ?_ (reportGroup_keeps ..)
    exact Keeps.refl _
  · exact Keeps.refl _

theorem streamAdd_keeps (s : State) (slot : Nat) (seq : Nat) :
    Keeps s (streamAdd s slot seq) := by
  unfold streamAdd
  try conv => arg 2; zeta
  refine Keeps.ite ?_ ?_
  · refine Keeps.trans ?_ (State.updStream_keeps ..)
    refine Keeps.trans ?_ (State.updStream_keeps ..)
    exact Keeps.refl _
  · refine Keeps.ite ?_ ?_
    · refine Keeps.trans ?_ (joinReport_keeps ..)
      refine Keeps.trans ?_ (streamGoLive_keeps ..)
      refine Keeps.trans ?_ (State.updStream_keeps ..)
      exact Keeps.refl _
    · refine Keeps.trans ?_ (streamAssign_keeps ..)
      refine Keeps.trans ?_ (State.updStream_keeps ..)
      exact Keeps.refl _

theorem writeTables_keeps (s : State) (slot : Nat) :
    Keeps s (writeTables s slot) := by
  unfold writeTables
  try conv => arg 2; zeta
  refine Keeps.foldl (fun y0 _ => ?_) ?_ _
  · refine Keeps.ite ?_ ?_
    · exact Keeps.refl _
    · refine Keeps.trans ?_ (storeWrite_keeps ..)
      exact Keeps.refl _
  · exact Keeps.refl _

theorem rebuildRun_keeps (s : State) (slot : Nat) (sr : Bytes) (ts : List Bytes) :
    Keeps s (rebuildRun s slot sr ts) := by
  unfold rebuildRun
  try conv => arg 2; zeta
  refine Keeps.trans ?_ (ctxCount_keeps ..)
  refine Keeps.foldl (fun y0 _ => ?_) ?_ _
  · refine Keeps.trans ?_ (storeWrite_keeps ..)
    exact Keeps.refl _
  · refine Keeps.trans ?_ (storeWrite_keeps ..)
    refine Keeps.trans ?_ (recPut_keeps ..)
    refine Keeps.trans ?_ (State.updStream_keeps ..)
    refine Keeps.trans ?_ (writeRun_keeps ..)
    refine Keeps.trans ?_ (takeRing_keeps ..)
    refine Keeps.trans ?_ (releaseAll_keeps ..)
    refine Keeps.trans ?_ (State.updStream_keeps ..)
    exact Keeps.refl _

theorem resvRelease_keeps (s : State) (slot : Nat) :
    Keeps s (resvRelease s slot) := by
  unfold resvRelease
  try conv => arg 2; zeta
  refine Keeps.ofMk ?_ rfl rfl rfl rfl rfl rfl rfl rfl (fun h => h) rfl rfl (Nat.le_refl _)
  exact Keeps.refl _

theorem moultAdd_keeps (s : State) (slot seq : Nat) (t : State) (h : moultAdd s slot seq = some t) : Keeps s t := by
  unfold moultAdd at h
  extract_lets u at h
  have hu : Keeps s u := resvRelease_keeps ..
  clear_value u
  split at h
  · cases h
    exact hu.trans (streamAdd_keeps ..)
  · split at h
    · cases h
    · cases h
      exact hu.trans (((State.updStream_keeps ..).trans (recPut_keeps ..)).trans (streamAdd_keeps ..))

theorem moultLater_keeps (s : State) (slot : Nat) :
    Keeps s (moultLater s slot) := by
  unfold moultLater
  try conv => arg 2; zeta
  refine Keeps.ofMk ?_ rfl rfl rfl rfl rfl rfl rfl rfl (fun h => h) rfl rfl (Nat.le_refl _)
  exact Keeps.refl _

theorem switchContinue_keeps (s : State) (slot : Nat) (seq : Nat) :
    Keeps s (switchContinue s slot seq) := by
  unfold switchContinue
  try conv => arg 2; zeta
  refine Keeps.trans ?_ (rollback_keeps ..)
  refine Keeps.ite ?_ ?_
  · refine Keeps.ite ?_ ?_
    · refine Keeps.trans ?_ (switchCodebook_keeps ..)
      refine Keeps.ite ?_ ?_
      · refine Keeps.trans ?_ (adapterReset_keeps ..)
        refine Keeps.ite ?_ ?_
        · refine Keeps.trans ?_ (rebuildRun_keeps ..)
          refine Keeps.trans ?_ (switchTables_keeps ..)
          refine Keeps.trans ?_ (State.updStream_keeps ..)
          exact Keeps.refl _
        · refine Keeps.ite ?_ ?_
          · refine Keeps.trans ?_ (rebuildRing_keeps ..)
            refine Keeps.trans ?_ (writeTables_keeps ..)
            refine Keeps.trans ?_ (switchTables_keeps ..)
            refine Keeps.trans ?_ (State.updStream_keeps ..)
            exact Keeps.refl _
          · refine Keeps.trans ?_ (writeTables_keeps ..)
            refine Keeps.trans ?_ (switchTables_keeps ..)
            refine Keeps.trans ?_ (State.updStream_keeps ..)
            exact Keeps.refl _
      · refine Keeps.ite ?_ ?_
        · refine Keeps.trans ?_ (rebuildRun_keeps ..)
          refine Keeps.trans ?_ (switchTables_keeps ..)
          refine Keeps.trans ?_ (State.updStream_keeps ..)
          exact Keeps.refl _
        · refine Keeps.ite ?_ ?_
          · refine Keeps.trans ?_ (rebuildRing_keeps ..)
            refine Keeps.trans ?_ (writeTables_keeps ..)
            refine Keeps.trans ?_ (switchTables_keeps ..)
            refine Keeps.trans ?_ (State.updStream_keeps ..)
            exact Keeps.refl _
          · refine Keeps.trans ?_ (writeTables_keeps ..)
            refine Keeps.trans ?_ (switchTables_keeps ..)
            refine Keeps.trans ?_ (State.updStream_keeps ..)
            exact Keeps.refl _
    · refine Keeps.ite ?_ ?_
      · refine Keeps.trans ?_ (adapterReset_keeps ..)
        refine Keeps.ite ?_ ?_
        · refine Keeps.trans ?_ (rebuildRun_keeps ..)
          refine Keeps.trans ?_ (switchTables_keeps ..)
          refine Keeps.trans ?_ (State.updStream_keeps ..)
          exact Keeps.refl _
        · refine Keeps.ite ?_ ?_
          · refine Keeps.trans ?_ (rebuildRing_keeps ..)
            refine Keeps.trans ?_ (writeTables_keeps ..)
            refine Keeps.trans ?_ (switchTables_keeps ..)
            refine Keeps.trans ?_ (State.updStream_keeps ..)
            exact Keeps.refl _
          · refine Keeps.trans ?_ (writeTables_keeps ..)
            refine Keeps.trans ?_ (switchTables_keeps ..)
            refine Keeps.trans ?_ (State.updStream_keeps ..)
            exact Keeps.refl _
      · refine Keeps.ite ?_ ?_
        · refine Keeps.trans ?_ (rebuildRun_keeps ..)
          refine Keeps.trans ?_ (switchTables_keeps ..)
          refine Keeps.trans ?_ (State.updStream_keeps ..)
          exact Keeps.refl _
        · refine Keeps.ite ?_ ?_
          · refine Keeps.trans ?_ (rebuildRing_keeps ..)
            refine Keeps.trans ?_ (writeTables_keeps ..)
            refine Keeps.trans ?_ (switchTables_keeps ..)
            refine Keeps.trans ?_ (State.updStream_keeps ..)
            exact Keeps.refl _
          · refine Keeps.trans ?_ (writeTables_keeps ..)
            refine Keeps.trans ?_ (switchTables_keeps ..)
            refine Keeps.trans ?_ (State.updStream_keeps ..)
            exact Keeps.refl _
  · refine Keeps.trans ?_ (State.updIng_keeps ..)
    refine Keeps.ite ?_ ?_
    · refine Keeps.trans ?_ (switchCodebook_keeps ..)
      refine Keeps.ite ?_ ?_
      · refine Keeps.trans ?_ (adapterReset_keeps ..)
        refine Keeps.ite ?_ ?_
        · refine Keeps.trans ?_ (rebuildRun_keeps ..)
          refine Keeps.trans ?_ (switchTables_keeps ..)
          refine Keeps.trans ?_ (State.updStream_keeps ..)
          exact Keeps.refl _
        · refine Keeps.ite ?_ ?_
          · refine Keeps.trans ?_ (rebuildRing_keeps ..)
            refine Keeps.trans ?_ (writeTables_keeps ..)
            refine Keeps.trans ?_ (switchTables_keeps ..)
            refine Keeps.trans ?_ (State.updStream_keeps ..)
            exact Keeps.refl _
          · refine Keeps.trans ?_ (writeTables_keeps ..)
            refine Keeps.trans ?_ (switchTables_keeps ..)
            refine Keeps.trans ?_ (State.updStream_keeps ..)
            exact Keeps.refl _
      · refine Keeps.ite ?_ ?_
        · refine Keeps.trans ?_ (rebuildRun_keeps ..)
          refine Keeps.trans ?_ (switchTables_keeps ..)
          refine Keeps.trans ?_ (State.updStream_keeps ..)
          exact Keeps.refl _
        · refine Keeps.ite ?_ ?_
          · refine Keeps.trans ?_ (rebuildRing_keeps ..)
            refine Keeps.trans ?_ (writeTables_keeps ..)
            refine Keeps.trans ?_ (switchTables_keeps ..)
            refine Keeps.trans ?_ (State.updStream_keeps ..)
            exact Keeps.refl _
          · refine Keeps.trans ?_ (writeTables_keeps ..)
            refine Keeps.trans ?_ (switchTables_keeps ..)
            refine Keeps.trans ?_ (State.updStream_keeps ..)
            exact Keeps.refl _
    · refine Keeps.ite ?_ ?_
      · refine Keeps.trans ?_ (adapterReset_keeps ..)
        refine Keeps.ite ?_ ?_
        · refine Keeps.trans ?_ (rebuildRun_keeps ..)
          refine Keeps.trans ?_ (switchTables_keeps ..)
          refine Keeps.trans ?_ (State.updStream_keeps ..)
          exact Keeps.refl _
        · refine Keeps.ite ?_ ?_
          · refine Keeps.trans ?_ (rebuildRing_keeps ..)
            refine Keeps.trans ?_ (writeTables_keeps ..)
            refine Keeps.trans ?_ (switchTables_keeps ..)
            refine Keeps.trans ?_ (State.updStream_keeps ..)
            exact Keeps.refl _
          · refine Keeps.trans ?_ (writeTables_keeps ..)
            refine Keeps.trans ?_ (switchTables_keeps ..)
            refine Keeps.trans ?_ (State.updStream_keeps ..)
            exact Keeps.refl _
      · refine Keeps.ite ?_ ?_
        · refine Keeps.trans ?_ (rebuildRun_keeps ..)
          refine Keeps.trans ?_ (switchTables_keeps ..)
          refine Keeps.trans ?_ (State.updStream_keeps ..)
          exact Keeps.refl _
        · refine Keeps.ite ?_ ?_
          · refine Keeps.trans ?_ (rebuildRing_keeps ..)
            refine Keeps.trans ?_ (writeTables_keeps ..)
            refine Keeps.trans ?_ (switchTables_keeps ..)
            refine Keeps.trans ?_ (State.updStream_keeps ..)
            exact Keeps.refl _
          · refine Keeps.trans ?_ (writeTables_keeps ..)
            refine Keeps.trans ?_ (switchTables_keeps ..)
            refine Keeps.trans ?_ (State.updStream_keeps ..)
            exact Keeps.refl _

theorem moultAdds_keeps (seq : Nat) (x1 : List Nat) (x2 : State) :
    Keeps x2 (moultAdds seq x1 x2) := by
  induction x1 generalizing x2 with
  | nil =>
    rw [moultAdds]
    exact Keeps.refl _
  | cons a t ih =>
    rw [moultAdds]
    try conv => arg 2; zeta
    refine Keeps.trans ?_ (ih ..)
    split
    · exact Keeps.refl _
    · rename_i v0 e1
      have hv0 : Keeps x2 v0 := by
        refine Keeps.trans ?_ (moultAdd_keeps _ _ _ _ e1)
        exact Keeps.refl _
      refine Keeps.ofMk ?_ rfl rfl rfl rfl rfl rfl rfl rfl (fun h => h) rfl rfl (Nat.le_refl _)
      exact hv0

theorem switchStream_keeps (s : State) (slot : Nat) :
    Keeps s (switchStream s slot) := by
  unfold switchStream
  try conv => arg 2; zeta
  refine Keeps.trans ?_ (moultFinish_keeps ..)
  refine Keeps.trans ?_ (moultAdds_keeps ..)
  refine Keeps.ofMk ?_ rfl rfl rfl rfl rfl rfl rfl rfl (fun h => h) rfl rfl (Nat.le_refl _)
  split
  · refine Keeps.trans ?_ (streamRemove_keeps ..)
    exact Keeps.refl _
  · refine Keeps.trans ?_ (moultLater_keeps ..)
    refine Keeps.trans ?_ (streamRemove_keeps ..)
    exact Keeps.refl _
  · refine Keeps.trans ?_ (switchContinue_keeps ..)
    exact Keeps.refl _
  · refine Keeps.trans ?_ (moultLater_keeps ..)
    exact Keeps.refl _
  · refine Keeps.trans ?_ (State.updStream_keeps ..)
    exact Keeps.refl _

/-! ### Machine/Net.lean -/

theorem reportSources_keeps (s : State) (np : Nat) (group : Nat) (sources : List Nat) (slots : List Nat) :
    Keeps s (reportSources s np group sources slots) := by
  unfold reportSources
  try conv => arg 2; zeta
  refine Keeps.ite ?_ ?_
  · exact Keeps.refl _
  · refine Keeps.trans ?_ (emit_keeps ..)
    refine Keeps.trans ?_ (useIpId_keeps ..)
    exact Keeps.refl _

theorem joinReports_keeps (x0 : List Nat) (x1 : State) :
    Keeps x1 (joinReports x0 x1) := by
  induction x0 generalizing x1 with
  | nil =>
    rw [joinReports]
    exact Keeps.refl _
  | cons a t ih =>
    rw [joinReports]
    refine Keeps.trans ?_ (ih ..)
    refine Keeps.trans ?_ (joinReport_keeps ..)
    exact Keeps.refl _

theorem telemetryDropped_keeps (s : State) (o : Out) :
    Keeps s (telemetryDropped s o) := by
  unfold telemetryDropped
  try conv => arg 2; zeta
  split
  · refine Keeps.trans ?_ (State.updPath_keeps ..)
    exact Keeps.refl _
  · exact Keeps.refl _

theorem putUdp_keeps (s : State) (o : Out) :
    Keeps s (putUdp s o) := by
  unfold putUdp
  split
  · refine Keeps.ite ?_ ?_
    · refine Keeps.trans ?_ (emit_keeps ..)
      refine Keeps.trans ?_ (State.updNp_keeps ..)
      exact Keeps.refl _
    · refine Keeps.trans ?_ (emit_keeps ..)
      exact Keeps.refl _
  · refine Keeps.trans ?_ (emit_keeps ..)
    exact Keeps.refl _

theorem putAll_keeps (x0 : List (Nat × Out)) (x1 : State) :
    Keeps x1 (putAll x0 x1) := by
  induction x0 generalizing x1 with
  | nil =>
    rw [putAll]
    exact Keeps.refl _
  | cons a t ih =>
    rw [putAll]
    refine Keeps.trans ?_ (ih ..)
    refine Keeps.trans ?_ (putUdp_keeps ..)
    exact Keeps.refl _

theorem execEthLinkUp_keeps (np : Nat) (s : State) :
    ∃ u, execEthLinkUp np s = .next u ∧ Keeps s u := by
  unfold execEthLinkUp
  refine Keeps.iteNext ?_ ?_
  · refine Keeps.done ?_
    refine Keeps.trans ?_ (joinReports_keeps ..)
    refine Keeps.trans ?_ (State.updNp_keeps ..)
    exact Keeps.refl _
  · refine Keeps.done ?_
    exact Keeps.refl _

theorem npCount_keeps (s : State) (np : Nat) (k : Nat) (n : Nat) :
    Keeps s (npCount s np k n) := by
  unfold npCount
  refine Keeps.trans ?_ (State.updNp_keeps ..)
  exact Keeps.refl _

theorem controlAnswer_keeps (s : State) (np : Nat) (act : State → State) (ha : ∀ v, Keeps v (act v)) :
    Keeps s (controlAnswer s np act) := by
  unfold controlAnswer
  exact Keeps.ite (((State.updNp_keeps ..).trans (npCount_keeps ..)).trans (ha _)) (npCount_keeps ..)

theorem membershipQuery_keeps (s : State) (np : Nat) (group : Nat) (v4 : Bool) (sources : List Nat) (old : Bool) :
    Keeps s (membershipQuery s np group v4 sources old) := by
  unfold membershipQuery
  refine Keeps.trans ?_ (controlAnswer_keeps _ _ _ (fun y0 => ?_))
  · exact Keeps.refl _
  · refine Keeps.trans ?_ (State.updNp_keeps ..)
    exact Keeps.refl _

theorem reportSlots_keeps (stateChange : Bool) (x1 : List Nat) (x2 : List (Nat × Nat × Nat)) (x3 : State) :
    Keeps x3 (reportSlots stateChange x1 x2 x3) := by
  induction x1 generalizing x2 x3 with
  | nil =>
    rw [reportSlots]
    exact Keeps.refl _
  | cons a t ih =>
    rw [reportSlots]
    refine Keeps.ite ?_ ?_
    · refine Keeps.trans ?_ (ih ..)
      exact Keeps.refl _
    · refine Keeps.trans ?_ (ih ..)
      refine Keeps.trans ?_ (reportGroup_keeps ..)
      exact Keeps.refl _

theorem execQueryResponseTimer_keeps (np : Nat) (s : State) :
    ∃ u, execQueryResponseTimer np s = .next u ∧ Keeps s u := by
  unfold execQueryResponseTimer
  try conv => enter [1, t, 1, 1]; zeta
  split
  · refine Keeps.done ?_
    exact Keeps.refl _
  · refine Keeps.iteNext ?_ ?_
    · refine Keeps.done ?_
      refine Keeps.trans ?_ (reportSlots_keeps ..)
      refine Keeps.trans ?_ (State.updNp_keeps ..)
      exact Keeps.refl _
    · refine Keeps.done ?_
      refine Keeps.trans ?_ (reportSources_keeps ..)
      refine Keeps.trans ?_ (State.updNp_keeps ..)
      exact Keeps.refl _

theorem execControlRateWindow_keeps (np : Nat) (s : State) :
    ∃ u, execControlRateWindow np s = .next u ∧ Keeps s u := by
  unfold execControlRateWindow
  refine Keeps.done ?_
  refine Keeps.trans ?_ (State.updNp_keeps ..)
  exact Keeps.refl _

theorem hopDropped_keeps (x0 : List (Nat × Out)) (x1 : State) :
    Keeps x1 (hopDropped x0 x1) := by
  induction x0 generalizing x1 with
  | nil =>
    rw [hopDropped]
    exact Keeps.refl _
  | cons a t ih =>
    rw [hopDropped]
    refine Keeps.trans ?_ (ih ..)
    refine Keeps.ite ?_ ?_
    · refine Keeps.trans ?_ (telemetryDropped_keeps ..)
      exact Keeps.refl _
    · refine Keeps.trans ?_ (State.updStream_keeps ..)
      exact Keeps.refl _

theorem execNextHopTimeout_keeps (np : Nat) (hop : Nat) (s : State) :
    ∃ u, execNextHopTimeout np hop s = .next u ∧ Keeps s u := by
  unfold execNextHopTimeout
  try conv => enter [1, t, 1, 1]; zeta
  refine Keeps.done ?_
  refine Keeps.trans ?_ (hopDropped_keeps ..)
  refine Keeps.trans ?_ (State.updNp_keeps ..)
  exact Keeps.refl _

theorem hopResolved_keeps (s : State) (np : Nat) (hop : Nat) :
    Keeps s (hopResolved s np hop) := by
  unfold hopResolved
  try conv => arg 2; zeta
  refine Keeps.ite ?_ ?_
  · exact Keeps.refl _
  · refine Keeps.trans ?_ (putAll_keeps ..)
    refine Keeps.trans ?_ (State.updNp_keeps ..)
    exact Keeps.refl _

theorem rxControl_keeps (s : State) (np : Nat) (p : IpPkt) :
    Keeps s (rxControl s np p) := by
  unfold rxControl
  try conv => arg 2; zeta
  refine Keeps.ite ?_ ?_
  · refine Keeps.ite ?_ ?_
    · refine Keeps.trans ?_ (controlAnswer_keeps _ _ _ (fun y0 => ?_))
      · exact Keeps.refl _
      · refine Keeps.trans ?_ (emit_keeps ..)
        refine Keeps.trans ?_ (useIpId_keeps ..)
        exact Keeps.refl _
    · exact Keeps.refl _
  · refine Keeps.ite ?_ ?_
    · refine Keeps.ite ?_ ?_
      · refine Keeps.trans ?_ (membershipQuery_keeps ..)
        exact Keeps.refl _
      · exact Keeps.refl _
    · refine Keeps.ite ?_ ?_
      · exact Keeps.refl _
      · refine Keeps.ite ?_ ?_
        · refine Keeps.trans ?_ (controlAnswer_keeps _ _ _ (fun y1 => ?_))
          · exact Keeps.refl _
          · refine Keeps.trans ?_ (emit_keeps ..)
            exact Keeps.refl _
        · refine Keeps.ite ?_ ?_
          · refine Keeps.trans ?_ (controlAnswer_keeps _ _ _ (fun y2 => ?_))
            · exact Keeps.refl _
            · refine Keeps.trans ?_ (emit_keeps ..)
              exact Keeps.refl _
          · refine Keeps.ite ?_ ?_
            · refine Keeps.trans ?_ (hopResolved_keeps ..)
              exact Keeps.refl _
            · refine Keeps.ite ?_ ?_
              · refine Keeps.trans ?_ (membershipQuery_keeps ..)
                exact Keeps.refl _
              · exact Keeps.refl _

theorem sendUdp_keeps (s : State) (np : Nat) (dst : Nat) (who : Nat) (o : Out) :
    Keeps s (sendUdp s np dst who o) := by
  unfold sendUdp
  try conv => arg 2; zeta
  refine Keeps.ite ?_ ?_
  · exact Keeps.refl _
  · refine Keeps.ite ?_ ?_
    · refine Keeps.trans ?_ (putUdp_keeps ..)
      exact Keeps.refl _
    · split
      · refine Keeps.trans ?_ (putUdp_keeps ..)
        refine Keeps.ite ?_ ?_
        · exact Keeps.refl _
        · refine Keeps.trans ?_ (emit_keeps ..)
          exact Keeps.refl _
      · refine Keeps.ite ?_ ?_
        · refine Keeps.trans ?_ (emit_keeps ..)
          refine Keeps.trans ?_ (State.updNp_keeps ..)
          exact Keeps.refl _
        · refine Keeps.trans ?_ (State.updNp_keeps ..)
          exact Keeps.refl _

theorem execUnsolicitedReportTimer_keeps (np : Nat) (slot : Nat) (s : State) :
    ∃ u, execUnsolicitedReportTimer np slot s = .next u ∧ Keeps s u := by
  unfold execUnsolicitedReportTimer
  try conv => enter [1, t, 1, 1]; zeta
  refine Keeps.iteNext ?_ ?_
  · refine Keeps.done ?_
    refine Keeps.trans ?_ (reportGroup_keeps ..)
    refine Keeps.trans ?_ (State.updIng_keeps ..)
    exact Keeps.refl _
  · refine Keeps.done ?_
    refine Keeps.trans ?_ (State.updIng_keeps ..)
    exact Keeps.refl _

theorem execEthLinkDown_keeps (np : Nat) (s : State) :
    ∃ u, execEthLinkDown np s = .next u ∧ Keeps s u := by
  unfold execEthLinkDown
  refine Keeps.done ?_
  refine Keeps.trans ?_ (State.updNp_keeps ..)
  exact Keeps.refl _

theorem rxArp_keeps (s : State) (np : Nat) (b : Bytes) :
    Keeps s (rxArp s np b) := by
  unfold rxArp
  try conv => arg 2; zeta
  refine Keeps.ite ?_ ?_
  · exact Keeps.refl _
  · refine Keeps.ite ?_ ?_
    · refine Keeps.trans ?_ (controlAnswer_keeps _ _ _ (fun y0 => ?_))
      · exact Keeps.refl _
      · refine Keeps.trans ?_ (emit_keeps ..)
        exact Keeps.refl _
    · refine Keeps.ite ?_ ?_
      · refine Keeps.trans ?_ (hopResolved_keeps ..)
        exact Keeps.refl _
      · exact Keeps.refl _

/-! ### Machine/Ingest.lean -/

theorem ingCount_keeps (s : State) (slot : Nat) (k : Nat) (n : Nat) :
    Keeps s (ingCount s slot k n) := by
  unfold ingCount
  refine Keeps.trans ?_ (State.updIng_keeps ..)
  exact Keeps.refl _

theorem police_keeps (s : State) (slot : Nat) (units : Nat) :
    Keeps s (police s slot units).2 := by
  unfold police
  refine Keeps.itePair ?_ ?_
  · refine Keeps.snd ?_
    refine Keeps.trans ?_ (State.updIng_keeps ..)
    exact Keeps.refl _
  · refine Keeps.snd ?_
    refine Keeps.trans ?_ (ingCount_keeps ..)
    exact Keeps.refl _

theorem dgramNew_keeps (s : State) (slot : Nat) :
    Keeps s (dgramNew s slot) := by
  unfold dgramNew
  refine Keeps.trans ?_ (State.updIng_keeps ..)
  exact Keeps.refl _

theorem auDamage_keeps (s : State) (slot : Nat) :
    Keeps s (auDamage s slot) := by
  unfold auDamage
  refine Keeps.trans ?_ (State.updIng_keeps ..)
  exact Keeps.refl _

theorem auRefused_keeps (s : State) (slot n : Nat) (t : State) (h : auRefused s slot n = some t) : Keeps s t := by
  unfold auRefused at h
  extract_lets a need at h
  split at h
  · cases h
  · split at h
    · cases h
    · split at h
      · cases h
        exact Keeps.refl _
      · split at h
        rename_i e
        split at h
        · cases h
        · cases h
          exact (Keeps.pair e (allocMany_keeps ..)).trans (releaseAll_keeps ..)

theorem timelineRestart_keeps (s : State) (slot : Nat) :
    Keeps s (timelineRestart s slot) := by
  unfold timelineRestart
  try conv => arg 2; zeta
  refine Keeps.trans ?_ (ingCount_keeps ..)
  refine Keeps.trans ?_ (rollback_keeps ..)
  refine Keeps.trans ?_ (State.updIng_keeps ..)
  exact Keeps.refl _

theorem sourceReset_keeps (s : State) (slot : Nat) :
    Keeps s (sourceReset s slot) := by
  unfold sourceReset
  try conv => arg 2; zeta
  refine Keeps.trans ?_ (alignGroup_keeps ..)
  refine Keeps.trans ?_ (timelineRestart_keeps ..)
  refine Keeps.trans ?_ (State.updIng_keeps ..)
  refine Keeps.trans ?_ (dropOpenAu_keeps ..)
  exact Keeps.refl _

theorem sourceLock_keeps (s : State) (slot : Nat) (src : Nat) (sport : Nat) (ssrc : Option Nat) :
    Keeps s (sourceLock s slot src sport ssrc) := by
  unfold sourceLock
  try conv => arg 2; zeta
  refine Keeps.trans ?_ (State.updIng_keeps ..)
  refine Keeps.ite ?_ ?_
  · refine Keeps.trans ?_ (raiseLogOf_keeps ..)
    refine Keeps.trans ?_ (sourceReset_keeps ..)
    exact Keeps.refl _
  · exact Keeps.refl _

theorem senderReport_keeps (s : State) (slot : Nat) (r : Bytes) :
    Keeps s (senderReport s slot r) := by
  unfold senderReport
  try conv => arg 2; zeta
  refine Keeps.ite ?_ ?_
  · exact Keeps.refl _
  · refine Keeps.trans ?_ (State.updIng_keeps ..)
    refine Keeps.ite ?_ ?_
    · refine Keeps.trans ?_ (timelineRestart_keeps ..)
      exact Keeps.refl _
    · exact Keeps.refl _

theorem senderReports_keeps (slot : Nat) (x1 : List Bytes) (x2 : State) :
    Keeps x2 (senderReports slot x1 x2) := by
  induction x1 generalizing x2 with
  | nil =>
    rw [senderReports]
    exact Keeps.refl _
  | cons a t ih =>
    rw [senderReports]
    refine Keeps.trans ?_ (ih ..)
    refine Keeps.trans ?_ (senderReport_keeps ..)
    exact Keeps.refl _

theorem onRtcp_keeps (s : State) (slot : Nat) (b : Bytes) :
    Keeps s (onRtcp s slot b) := by
  unfold onRtcp
  refine Keeps.trans ?_ (senderReports_keeps ..)
  exact Keeps.refl _

theorem onPat_keeps (s : State) (slot : Nat) (sec : Bytes) :
    Keeps s (onPat s slot sec) := by
  unfold onPat
  try conv => arg 2; zeta
  refine Keeps.ite ?_ ?_
  · exact Keeps.refl _
  · split
    · exact Keeps.refl _
    · refine Keeps.trans ?_ (State.updIng_keeps ..)
      exact Keeps.refl _

theorem onPmt_keeps (s : State) (slot : Nat) (sec : Bytes) :
    Keeps s (onPmt s slot sec) := by
  unfold onPmt
  try conv => arg 2; zeta
  split
  · exact Keeps.refl _
  · refine Keeps.ite ?_ ?_
    · refine Keeps.trans ?_ (alignGroup_keeps ..)
      refine Keeps.ite ?_ ?_
      · refine Keeps.trans ?_ (raiseLogOf_keeps ..)
        refine Keeps.trans ?_ (State.updIng_keeps ..)
        refine Keeps.ite ?_ ?_
        · refine Keeps.trans ?_ (raiseLogOf_keeps ..)
          refine Keeps.trans ?_ (timelineRestart_keeps ..)
          exact Keeps.refl _
        · exact Keeps.refl _
      · refine Keeps.trans ?_ (State.updIng_keeps ..)
        refine Keeps.ite ?_ ?_
        · refine Keeps.trans ?_ (raiseLogOf_keeps ..)
          refine Keeps.trans ?_ (timelineRestart_keeps ..)
          exact Keeps.refl _
        · exact Keeps.refl _
    · refine Keeps.ite ?_ ?_
      · refine Keeps.trans ?_ (raiseLogOf_keeps ..)
        refine Keeps.trans ?_ (State.updIng_keeps ..)
        refine Keeps.ite ?_ ?_
        · refine Keeps.trans ?_ (raiseLogOf_keeps ..)
          refine Keeps.trans ?_ (timelineRestart_keeps ..)
          exact Keeps.refl _
        · exact Keeps.refl _
      · refine Keeps.trans ?_ (State.updIng_keeps ..)
        refine Keeps.ite ?_ ?_
        · refine Keeps.trans ?_ (raiseLogOf_keeps ..)
          refine Keeps.trans ?_ (timelineRestart_keeps ..)
          exact Keeps.refl _
        · exact Keeps.refl _

theorem onSection_keeps (s : State) (slot : Nat) (pid : Nat) (sec : Bytes) :
    Keeps s (onSection s slot pid sec) := by
  unfold onSection
  refine Keeps.ite ?_ ?_
  · exact Keeps.refl _
  · refine Keeps.ite ?_ ?_
    · refine Keeps.trans ?_ (onPat_keeps ..)
      exact Keeps.refl _
    · refine Keeps.trans ?_ (onPmt_keeps ..)
      exact Keeps.refl _

theorem sectGather_keeps (slot : Nat) (pid : Nat) (x2 : Nat) (x3 : Bytes) (x4 : State) :
    Keeps x4 (sectGather slot pid x2 x3 x4) := by
  induction x2 generalizing x3 x4 with
  | zero =>
    rw [sectGather]
    exact Keeps.refl _
  | succ k ih =>
    rw [sectGather]
    try conv => arg 2; zeta
    split
    · refine Keeps.trans ?_ (State.updIng_keeps ..)
      exact Keeps.refl _
    · refine Keeps.ite ?_ ?_
      · refine Keeps.trans ?_ (State.updIng_keeps ..)
        refine Keeps.trans ?_ (onSection_keeps ..)
        exact Keeps.refl _
      · refine Keeps.trans ?_ (ih ..)
        refine Keeps.trans ?_ (onSection_keeps ..)
        exact Keeps.refl _

theorem onPsi_keeps (s : State) (slot : Nat) (pid : Nat) (p : Bytes) :
    Keeps s (onPsi s slot pid p) := by
  unfold onPsi
  try conv => arg 2; zeta
  refine Keeps.ite ?_ ?_
  · exact Keeps.refl _
  · refine Keeps.ite ?_ ?_
    · refine Keeps.trans ?_ (sectGather_keeps ..)
      split
      · exact Keeps.refl _
      · refine Keeps.trans ?_ (sectGather_keeps ..)
        exact Keeps.refl _
    · split
      · exact Keeps.refl _
      · refine Keeps.trans ?_ (sectGather_keeps ..)
        exact Keeps.refl _

theorem onPcr_keeps (s : State) (slot : Nat) (pcr : Nat) (disc : Bool) (rtp : Option Int) :
    Keeps s (onPcr s slot pcr disc rtp) := by
  unfold onPcr
  try conv => arg 2; zeta
  refine Keeps.trans ?_ (State.updIng_keeps ..)
  refine Keeps.ite ?_ ?_
  · refine Keeps.trans ?_ (timelineRestart_keeps ..)
    exact Keeps.refl _
  · exact Keeps.refl _

theorem onContinuity_keeps (s : State) (slot : Nat) (p : Bytes) (disc : Bool) :
    Keeps s (onContinuity s slot p disc).2 := by
  unfold onContinuity
  try conv => arg 2; zeta
  split
  · refine Keeps.snd ?_
    exact Keeps.refl _
  · refine Keeps.itePair ?_ ?_
    · refine Keeps.snd ?_
      exact Keeps.refl _
    · refine Keeps.itePair ?_ ?_
      · refine Keeps.snd ?_
        refine Keeps.trans ?_ (ingCount_keeps ..)
        exact Keeps.refl _
      · refine Keeps.itePair ?_ ?_
        · refine Keeps.snd ?_
          exact Keeps.refl _
        · refine Keeps.snd ?_
          refine Keeps.trans ?_ (auDamage_keeps ..)
          refine Keeps.trans ?_ (ingCount_keeps ..)
          exact Keeps.refl _

theorem addFrame_keeps (s : State) (f : Frame) :
    Keeps s (addFrame s f).2 := by
  unfold addFrame
  refine Keeps.snd ?_
  refine Keeps.ofMk ?_ rfl rfl rfl rfl rfl rfl rfl rfl (fun h => h) rfl rfl (Nat.le_refl _)
  exact Keeps.refl _

theorem noteRef_keeps (s : State) (slot : Nat) (seg : Nat) (ref : Option Nat) :
    Keeps s (noteRef s slot seg ref) := by
  unfold noteRef
  split
  · exact Keeps.refl _
  · refine Keeps.trans ?_ (State.updIng_keeps ..)
    exact Keeps.refl _

theorem auQueue_keeps (s : State) (slot : Nat) (fid : Nat) :
    Keeps s (auQueue s slot fid) := by
  unfold auQueue
  try conv => arg 2; zeta
  refine Keeps.ite ?_ ?_
  · refine Keeps.trans ?_ (decLog_keeps ..)
    refine Keeps.trans ?_ (decCount_keeps ..)
    refine Keeps.trans ?_ (discardFrame_keeps ..)
    refine Keeps.ite ?_ ?_
    · refine Keeps.trans ?_ (engineAssignAll_keeps ..)
      exact Keeps.refl _
    · exact Keeps.refl _
  · refine Keeps.trans ?_ (auHold_keeps ..)
    refine Keeps.ite ?_ ?_
    · refine Keeps.trans ?_ (engineAssignAll_keeps ..)
      exact Keeps.refl _
    · exact Keeps.refl _

theorem auClose_keeps (s : State) (slot : Nat) :
    Keeps s (auClose s slot) := by
  unfold auClose
  try conv => arg 2; zeta
  split
  · exact Keeps.refl _
  · refine Keeps.ite ?_ ?_
    · split
      · rename_i v0 v1 e2
        have hv1 : Keeps s v1 := by
          refine Keeps.pair e2 ?_
          refine Keeps.trans ?_ (addFrame_keeps ..)
          refine Keeps.ite ?_ ?_
          · refine Keeps.trans ?_ (ingCount_keeps ..)
            refine Keeps.trans ?_ (ingCount_keeps ..)
            refine Keeps.trans ?_ (State.updIng_keeps ..)
            exact Keeps.refl _
          · refine Keeps.trans ?_ (ingCount_keeps ..)
            refine Keeps.trans ?_ (State.updIng_keeps ..)
            exact Keeps.refl _
        refine Keeps.trans ?_ (switchStream_keeps ..)
        refine Keeps.trans ?_ (discardFrame_keeps ..)
        exact hv1
    · split
      · rename_i v3 v4 e5
        have hv4 : Keeps s v4 := by
          refine Keeps.pair e5 ?_
          refine Keeps.trans ?_ (addFrame_keeps ..)
          refine Keeps.ite ?_ ?_
          · refine Keeps.trans ?_ (switchStream_keeps ..)
            refine Keeps.ite ?_ ?_
            · refine Keeps.trans ?_ (ingCount_keeps ..)
              refine Keeps.trans ?_ (ingCount_keeps ..)
              refine Keeps.trans ?_ (State.updIng_keeps ..)
              exact Keeps.refl _
            · refine Keeps.trans ?_ (ingCount_keeps ..)
              refine Keeps.trans ?_ (State.updIng_keeps ..)
              exact Keeps.refl _
          · refine Keeps.ite ?_ ?_
            · refine Keeps.trans ?_ (ingCount_keeps ..)
              refine Keeps.trans ?_ (ingCount_keeps ..)
              refine Keeps.trans ?_ (State.updIng_keeps ..)
              exact Keeps.refl _
            · refine Keeps.trans ?_ (ingCount_keeps ..)
              refine Keeps.trans ?_ (State.updIng_keeps ..)
              exact Keeps.refl _
        refine Keeps.ite ?_ ?_
        · refine Keeps.trans ?_ (alignGroup_keeps ..)
          refine Keeps.trans ?_ (noteRef_keeps ..)
          refine Keeps.trans ?_ (discardFrame_keeps ..)
          exact hv4
        · refine Keeps.trans ?_ (alignGroup_keeps ..)
          refine Keeps.trans ?_ (auQueue_keeps ..)
          refine Keeps.trans ?_ (noteRef_keeps ..)
          refine Keeps.trans ?_ (frameStage_keeps ..)
          exact hv4

theorem ptsTake_keeps (s : State) (slot : Nat) (pts : Option Nat) : Keeps s (ptsTake s slot pts).2.2 := by
  unfold ptsTake
  extract_lets g base ext
  clear_value ext
  cases ext with
  | none => exact Keeps.refl s
  | some x =>
    dsimp only
    exact State.updIng_keeps ..

theorem pesStamp_keeps (s : State) (slot : Nat) (b : Bytes) :
    Keeps s (pesStamp s slot b) := by
  unfold pesStamp
  split
  · rename_i v0 v1 v2 e3
    have hv2 : Keeps s v2 := by
      refine Keeps.triple e3 ?_
      refine Keeps.trans ?_ (ptsTake_keeps ..)
      exact Keeps.refl _
    refine Keeps.trans ?_ (State.updIng_keeps ..)
    exact hv2

theorem pesClose_keeps (s : State) (slot : Nat) :
    Keeps s (pesClose s slot) := by
  unfold pesClose
  refine Keeps.trans ?_ (auClose_keeps ..)
  split
  · exact Keeps.refl _
  · refine Keeps.trans ?_ (pesStamp_keeps ..)
    exact Keeps.refl _

theorem onScrambled_keeps (s : State) (slot : Nat) (start : Bool) :
    Keeps s (onScrambled s slot start) := by
  unfold onScrambled
  try conv => arg 2; zeta
  refine Keeps.ite ?_ ?_
  · refine Keeps.trans ?_ (raiseLogOf_keeps ..)
    refine Keeps.trans ?_ (State.updIng_keeps ..)
    refine Keeps.ite ?_ ?_
    · refine Keeps.trans ?_ (pesClose_keeps ..)
      refine Keeps.trans ?_ (ingCount_keeps ..)
      exact Keeps.refl _
    · refine Keeps.ite ?_ ?_
      · refine Keeps.trans ?_ (auDamage_keeps ..)
        refine Keeps.trans ?_ (ingCount_keeps ..)
        exact Keeps.refl _
      · refine Keeps.trans ?_ (ingCount_keeps ..)
        exact Keeps.refl _
  · refine Keeps.ite ?_ ?_
    · refine Keeps.trans ?_ (pesClose_keeps ..)
      refine Keeps.trans ?_ (ingCount_keeps ..)
      exact Keeps.refl _
    · refine Keeps.ite ?_ ?_
      · refine Keeps.trans ?_ (auDamage_keeps ..)
        refine Keeps.trans ?_ (ingCount_keeps ..)
        exact Keeps.refl _
      · refine Keeps.trans ?_ (ingCount_keeps ..)
        exact Keeps.refl _

theorem auOpen_keeps (s : State) (slot : Nat) (ts : Nat) (rtp : Option Int) (ref : Option Nat) :
    Keeps s (auOpen s slot ts rtp ref) := by
  unfold auOpen
  try conv => arg 2; zeta
  refine Keeps.trans ?_ (State.updIng_keeps ..)
  exact Keeps.refl _

theorem auNoBuffer_keeps (s : State) (slot : Nat) :
    Keeps s (auNoBuffer s slot) := by
  unfold auNoBuffer
  try conv => arg 2; zeta
  refine Keeps.ite ?_ ?_
  · refine Keeps.trans ?_ (auDamage_keeps ..)
    exact Keeps.refl _
  · refine Keeps.trans ?_ (ingCount_keeps ..)
    refine Keeps.trans ?_ (State.updIng_keeps ..)
    refine Keeps.trans ?_ (auDamage_keeps ..)
    exact Keeps.refl _

theorem auAppend_keeps (s : State) (slot : Nat) (b : Bytes) :
    Keeps s (auAppend s slot b) := by
  unfold auAppend
  try conv => arg 2; zeta
  split
  · exact Keeps.refl _
  · refine Keeps.ite ?_ ?_
    · exact Keeps.refl _
    · refine Keeps.ite ?_ ?_
      · refine Keeps.trans ?_ (auDamage_keeps ..)
        exact Keeps.refl _
      · refine Keeps.ite ?_ ?_
        · refine Keeps.trans ?_ (releaseAll_keeps ..)
          refine Keeps.trans ?_ (State.updIng_keeps ..)
          exact Keeps.refl _
        · split
          · rename_i v0 v1 e2
            have hv1 : Keeps s v1 := by
              refine Keeps.pair e2 ?_
              split
              · refine Keeps.snd ?_
                exact Keeps.refl _
              · refine Keeps.trans ?_ (allocMany_keeps ..)
                exact Keeps.refl _
            refine Keeps.ite ?_ ?_
            · refine Keeps.trans ?_ (State.updIng_keeps ..)
              exact hv1
            · refine Keeps.trans ?_ (auNoBuffer_keeps ..)
              refine Keeps.trans ?_ (releaseAll_keeps ..)
              exact hv1

theorem pesMore_keeps (s : State) (slot : Nat) (b : Bytes) :
    Keeps s (pesMore s slot b) := by
  unfold pesMore
  split
  · exact Keeps.refl _
  · refine Keeps.ite ?_ ?_
    · refine Keeps.trans ?_ (State.updIng_keeps ..)
      exact Keeps.refl _
    · refine Keeps.trans ?_ (pesStamp_keeps ..)
      exact Keeps.refl _

theorem onVideo_keeps (s : State) (slot : Nat) (p : Bytes) :
    Keeps s (onVideo s slot p) := by
  unfold onVideo
  try conv => arg 2; zeta
  refine Keeps.ite ?_ ?_
  · refine Keeps.trans ?_ (auAppend_keeps ..)
    refine Keeps.trans ?_ (pesMore_keeps ..)
    refine Keeps.trans ?_ (State.updIng_keeps ..)
    refine Keeps.trans ?_ (auOpen_keeps ..)
    refine Keeps.trans ?_ (pesClose_keeps ..)
    exact Keeps.refl _
  · refine Keeps.trans ?_ (auAppend_keeps ..)
    refine Keeps.trans ?_ (pesMore_keeps ..)
    exact Keeps.refl _

theorem onTsPacket_keeps (s : State) (slot : Nat) (rtp : Option Int) (p : Bytes) :
    Keeps s (onTsPacket s slot rtp p) := by
  unfold onTsPacket
  try conv => arg 2; zeta
  refine Keeps.ite ?_ ?_
  · exact Keeps.refl _
  · refine Keeps.ite ?_ ?_
    · refine Keeps.ite ?_ ?_
      · refine Keeps.trans ?_ (State.updIng_keeps ..)
        refine Keeps.trans ?_ (auDamage_keeps ..)
        refine Keeps.trans ?_ (ingCount_keeps ..)
        exact Keeps.refl _
      · refine Keeps.trans ?_ (auDamage_keeps ..)
        refine Keeps.trans ?_ (ingCount_keeps ..)
        exact Keeps.refl _
    · refine Keeps.ite ?_ ?_
      · refine Keeps.trans ?_ (onPsi_keeps ..)
        exact Keeps.refl _
      · refine Keeps.ite ?_ ?_
        · refine Keeps.trans ?_ (auDamage_keeps ..)
          refine Keeps.trans ?_ (ingCount_keeps ..)
          exact Keeps.refl _
        · refine Keeps.ite ?_ ?_
          · split
            · refine Keeps.ite ?_ ?_
              · refine Keeps.trans ?_ (onPcr_keeps ..)
                refine Keeps.ite ?_ ?_
                · refine Keeps.trans ?_ (timelineRestart_keeps ..)
                  exact Keeps.refl _
                · exact Keeps.refl _
              · refine Keeps.ite ?_ ?_
                · refine Keeps.trans ?_ (timelineRestart_keeps ..)
                  exact Keeps.refl _
                · exact Keeps.refl _
            · refine Keeps.ite ?_ ?_
              · refine Keeps.trans ?_ (timelineRestart_keeps ..)
                exact Keeps.refl _
              · exact Keeps.refl _
          · split
            · rename_i v0 v1 e2
              have hv1 : Keeps s v1 := by
                refine Keeps.pair e2 ?_
                refine Keeps.trans ?_ (onContinuity_keeps ..)
                split
                · refine Keeps.ite ?_ ?_
                  · refine Keeps.trans ?_ (onPcr_keeps ..)
                    refine Keeps.ite ?_ ?_
                    · refine Keeps.trans ?_ (timelineRestart_keeps ..)
                      exact Keeps.refl _
                    · exact Keeps.refl _
                  · refine Keeps.ite ?_ ?_
                    · refine Keeps.trans ?_ (timelineRestart_keeps ..)
                      exact Keeps.refl _
                    · exact Keeps.refl _
                · refine Keeps.ite ?_ ?_
                  · refine Keeps.trans ?_ (timelineRestart_keeps ..)
                    exact Keeps.refl _
                  · exact Keeps.refl _
              refine Keeps.ite ?_ ?_
              · exact hv1
              · refine Keeps.ite ?_ ?_
                · refine Keeps.trans ?_ (onScrambled_keeps ..)
                  refine Keeps.trans ?_ (State.updIng_keeps ..)
                  exact hv1
                · refine Keeps.trans ?_ (onVideo_keeps ..)
                  refine Keeps.trans ?_ (State.updIng_keeps ..)
                  exact hv1

theorem onTsPackets_keeps (slot : Nat) (rtp : Option Int) (x2 : List Bytes) (x3 : State) :
    Keeps x3 (onTsPackets slot rtp x2 x3) := by
  induction x2 generalizing x3 with
  | nil =>
    rw [onTsPackets]
    exact Keeps.refl _
  | cons a t ih =>
    rw [onTsPackets]
    refine Keeps.ite ?_ ?_
    · refine Keeps.trans ?_ (ih ..)
      refine Keeps.trans ?_ (onTsPacket_keeps ..)
      exact Keeps.refl _
    · exact Keeps.refl _

theorem onTs_keeps (s : State) (slot : Nat) (rtp : Option Int) (b : Bytes) :
    Keeps s (onTs s slot rtp b) := by
  unfold onTs
  split
  · refine Keeps.trans ?_ (auDamage_keeps ..)
    refine Keeps.trans ?_ (ingCount_keeps ..)
    exact Keeps.refl _
  · refine Keeps.trans ?_ (onTsPackets_keeps ..)
    exact Keeps.refl _

theorem srRestart_keeps (s : State) (slot : Nat) (ext : Int) :
    Keeps s (srRestart s slot ext) := by
  unfold srRestart
  split
  · exact Keeps.refl _
  · refine Keeps.ite ?_ ?_
    · refine Keeps.trans ?_ (timelineRestart_keeps ..)
      exact Keeps.refl _
    · exact Keeps.refl _

theorem rtpClose_keeps (s : State) (slot : Nat) :
    Keeps s (rtpClose s slot) := by
  unfold rtpClose
  refine Keeps.trans ?_ (auClose_keeps ..)
  refine Keeps.trans ?_ (State.updIng_keeps ..)
  exact Keeps.refl _

theorem rtpPayload_keeps (s : State) (slot : Nat) (ext : Int) (k : RtpPkt) :
    Keeps s (rtpPayload s slot ext k) := by
  unfold rtpPayload
  try conv => arg 2; zeta
  split
  · refine Keeps.trans ?_ (ingCount_keeps ..)
    exact Keeps.refl _
  · refine Keeps.ite ?_ ?_
    · refine Keeps.trans ?_ (auDamage_keeps ..)
      exact Keeps.refl _
    · refine Keeps.trans ?_ (auAppend_keeps ..)
      refine Keeps.trans ?_ (auOpen_keeps ..)
      refine Keeps.trans ?_ (State.updIng_keeps ..)
      exact Keeps.refl _

theorem rtpDeliver_keeps (s : State) (slot : Nat) (k : RtpPkt) :
    Keeps s (rtpDeliver s slot k) := by
  unfold rtpDeliver
  try conv => arg 2; zeta
  refine Keeps.ite ?_ ?_
  · refine Keeps.trans ?_ (onTs_keeps ..)
    refine Keeps.trans ?_ (srRestart_keeps ..)
    refine Keeps.trans ?_ (dgramNew_keeps ..)
    refine Keeps.trans ?_ (State.updIng_keeps ..)
    exact Keeps.refl _
  · refine Keeps.ite ?_ ?_
    · refine Keeps.trans ?_ (srRestart_keeps ..)
      refine Keeps.ite ?_ ?_
      · refine Keeps.trans ?_ (rtpClose_keeps ..)
        refine Keeps.trans ?_ (dgramNew_keeps ..)
        refine Keeps.trans ?_ (State.updIng_keeps ..)
        exact Keeps.refl _
      · refine Keeps.trans ?_ (dgramNew_keeps ..)
        refine Keeps.trans ?_ (State.updIng_keeps ..)
        exact Keeps.refl _
    · refine Keeps.ite ?_ ?_
      · refine Keeps.trans ?_ (rtpClose_keeps ..)
        refine Keeps.trans ?_ (rtpPayload_keeps ..)
        refine Keeps.trans ?_ (srRestart_keeps ..)
        refine Keeps.ite ?_ ?_
        · refine Keeps.trans ?_ (rtpClose_keeps ..)
          refine Keeps.trans ?_ (dgramNew_keeps ..)
          refine Keeps.trans ?_ (State.updIng_keeps ..)
          exact Keeps.refl _
        · refine Keeps.trans ?_ (dgramNew_keeps ..)
          refine Keeps.trans ?_ (State.updIng_keeps ..)
          exact Keeps.refl _
      · refine Keeps.trans ?_ (rtpPayload_keeps ..)
        refine Keeps.trans ?_ (srRestart_keeps ..)
        refine Keeps.ite ?_ ?_
        · refine Keeps.trans ?_ (rtpClose_keeps ..)
          refine Keeps.trans ?_ (dgramNew_keeps ..)
          refine Keeps.trans ?_ (State.updIng_keeps ..)
          exact Keeps.refl _
        · refine Keeps.trans ?_ (dgramNew_keeps ..)
          refine Keeps.trans ?_ (State.updIng_keeps ..)
          exact Keeps.refl _

theorem rtpDrain_keeps (slot : Nat) (x1 : Nat) (x2 : State) :
    Keeps x2 (rtpDrain slot x1 x2) := by
  induction x1 generalizing x2 with
  | zero =>
    rw [rtpDrain]
    exact Keeps.refl _
  | succ k ih =>
    rw [rtpDrain]
    split
    · refine Keeps.ite ?_ ?_
      · refine Keeps.trans ?_ (ih ..)
        refine Keeps.trans ?_ (rtpDeliver_keeps ..)
        refine Keeps.trans ?_ (State.updIng_keeps ..)
        exact Keeps.refl _
      · exact Keeps.refl _
    · exact Keeps.refl _

theorem rtpSkip_keeps (s : State) (slot : Nat) :
    Keeps s (rtpSkip s slot) := by
  unfold rtpSkip
  try conv => arg 2; zeta
  split
  · refine Keeps.trans ?_ (rtpDrain_keeps ..)
    refine Keeps.trans ?_ (State.updIng_keeps ..)
    refine Keeps.trans ?_ (State.updIng_keeps ..)
    refine Keeps.trans ?_ (auDamage_keeps ..)
    refine Keeps.trans ?_ (ingCount_keeps ..)
    exact Keeps.refl _
  · exact Keeps.refl _

theorem rtpFlush_keeps (slot : Nat) (x1 : Nat) (x2 : State) :
    Keeps x2 (rtpFlush slot x1 x2) := by
  induction x1 generalizing x2 with
  | zero =>
    rw [rtpFlush]
    exact Keeps.refl _
  | succ k ih =>
    rw [rtpFlush]
    refine Keeps.ite ?_ ?_
    · exact Keeps.refl _
    · refine Keeps.trans ?_ (ih ..)
      refine Keeps.trans ?_ (rtpSkip_keeps ..)
      exact Keeps.refl _

theorem rtpTake_keeps (s : State) (slot : Nat) (k : RtpPkt) :
    Keeps s (rtpTake s slot k) := by
  unfold rtpTake
  try conv => arg 2; zeta
  refine Keeps.ite ?_ ?_
  · refine Keeps.trans ?_ (ingCount_keeps ..)
    exact Keeps.refl _
  · refine Keeps.ite ?_ ?_
    · refine Keeps.trans ?_ (rtpSkip_keeps ..)
      refine Keeps.trans ?_ (rtpDrain_keeps ..)
      refine Keeps.trans ?_ (State.updIng_keeps ..)
      refine Keeps.ite ?_ ?_
      · refine Keeps.trans ?_ (ingCount_keeps ..)
        exact Keeps.refl _
      · exact Keeps.refl _
    · refine Keeps.trans ?_ (rtpDrain_keeps ..)
      refine Keeps.trans ?_ (State.updIng_keeps ..)
      refine Keeps.ite ?_ ?_
      · refine Keeps.trans ?_ (ingCount_keeps ..)
        exact Keeps.refl _
      · exact Keeps.refl _

theorem rtpRestart_keeps (s : State) (slot : Nat) (j : RtpPkt) :
    Keeps s (rtpRestart s slot j) := by
  unfold rtpRestart
  try conv => arg 2; zeta
  refine Keeps.trans ?_ (rtpTake_keeps ..)
  refine Keeps.trans ?_ (State.updIng_keeps ..)
  refine Keeps.trans ?_ (timelineRestart_keeps ..)
  refine Keeps.trans ?_ (rtpFlush_keeps ..)
  exact Keeps.refl _

theorem rtpOrder_keeps (s : State) (slot : Nat) (h : RtpHdr) (raw : Bytes) :
    Keeps s (rtpOrder s slot h raw) := by
  unfold rtpOrder
  try conv => arg 2; zeta
  refine Keeps.ite ?_ ?_
  · refine Keeps.trans ?_ (State.updIng_keeps ..)
    split
    · exact Keeps.refl _
    · refine Keeps.ite ?_ ?_
      · refine Keeps.trans ?_ (rtpRestart_keeps ..)
        refine Keeps.trans ?_ (State.updIng_keeps ..)
        exact Keeps.refl _
      · refine Keeps.trans ?_ (ingCount_keeps ..)
        refine Keeps.trans ?_ (State.updIng_keeps ..)
        exact Keeps.refl _
  · refine Keeps.ite ?_ ?_
    · refine Keeps.trans ?_ (rtpTake_keeps ..)
      refine Keeps.trans ?_ (State.updIng_keeps ..)
      split
      · exact Keeps.refl _
      · refine Keeps.ite ?_ ?_
        · refine Keeps.trans ?_ (rtpRestart_keeps ..)
          refine Keeps.trans ?_ (State.updIng_keeps ..)
          exact Keeps.refl _
        · refine Keeps.trans ?_ (ingCount_keeps ..)
          refine Keeps.trans ?_ (State.updIng_keeps ..)
          exact Keeps.refl _
    · refine Keeps.trans ?_ (rtpTake_keeps ..)
      split
      · exact Keeps.refl _
      · refine Keeps.ite ?_ ?_
        · refine Keeps.trans ?_ (rtpRestart_keeps ..)
          refine Keeps.trans ?_ (State.updIng_keeps ..)
          exact Keeps.refl _
        · refine Keeps.trans ?_ (ingCount_keeps ..)
          refine Keeps.trans ?_ (State.updIng_keeps ..)
          exact Keeps.refl _

theorem parserTake_keeps (s : State) (slot : Nat) (b : Bytes) (rtcp : Bool) :
    Keeps s (parserTake s slot b rtcp) := by
  unfold parserTake
  try conv => arg 2; zeta
  refine Keeps.ite ?_ ?_
  · refine Keeps.trans ?_ (auDamage_keeps ..)
    exact Keeps.refl _
  · refine Keeps.ite ?_ ?_
    · refine Keeps.trans ?_ (onRtcp_keeps ..)
      exact Keeps.refl _
    · refine Keeps.ite ?_ ?_
      · refine Keeps.trans ?_ (onTs_keeps ..)
        exact Keeps.refl _
      · split
        · refine Keeps.trans ?_ (ingCount_keeps ..)
          exact Keeps.refl _
        · refine Keeps.trans ?_ (rtpOrder_keeps ..)
          exact Keeps.refl _

theorem datagramOffer_keeps (s : State) (slot : Nat) (src : Nat) (sport : Nat) (b : Bytes) (onNext : Bool) (shared : Bool) :
    Keeps s (datagramOffer s slot src sport b onNext shared) := by
  unfold datagramOffer
  try conv => arg 2; zeta
  split
  · exact Keeps.refl _
  · refine Keeps.trans ?_ (ingCount_keeps ..)
    exact Keeps.refl _
  · split
    · rename_i v0 v1 e2
      have hv1 : Keeps s v1 := by
        refine Keeps.pair e2 ?_
        refine Keeps.trans ?_ (police_keeps ..)
        refine Keeps.trans ?_ (dgramNew_keeps ..)
        exact Keeps.refl _
      refine Keeps.ite ?_ ?_
      · refine Keeps.trans ?_ (auDamage_keeps ..)
        exact hv1
      · split
        · rename_i v3 e4
          have hv3 : Keeps s v3 := by
            refine Keeps.trans ?_ (auRefused_keeps _ _ _ _ e4)
            exact hv1
          refine Keeps.trans ?_ (auDamage_keeps ..)
          refine Keeps.trans ?_ (ingCount_keeps ..)
          exact hv3
        · refine Keeps.trans ?_ (parserTake_keeps ..)
          refine Keeps.ite ?_ ?_
          · refine Keeps.trans ?_ (ingCount_keeps ..)
            refine Keeps.trans ?_ (ingCount_keeps ..)
            exact hv1
          · refine Keeps.trans ?_ (sourceLock_keeps ..)
            refine Keeps.trans ?_ (ingCount_keeps ..)
            refine Keeps.trans ?_ (ingCount_keeps ..)
            exact hv1

theorem datagramOffers_keeps (src : Nat) (sport : Nat) (b : Bytes) (shared : Bool) (x4 : List (Nat × Bool)) (x5 : State) :
    Keeps x5 (datagramOffers src sport b shared x4 x5) := by
  induction x4 generalizing x5 with
  | nil =>
    rw [datagramOffers]
    exact Keeps.refl _
  | cons a t ih =>
    rw [datagramOffers]
    refine Keeps.trans ?_ (ih ..)
    refine Keeps.ite ?_ ?_
    · refine Keeps.trans ?_ (datagramOffer_keeps ..)
      exact Keeps.refl _
    · exact Keeps.refl _

theorem rxUdp_keeps (s : State) (np : Nat) (src : Nat) (dst : Nat) (sport : Nat) (dport : Nat) (b : Bytes) :
    Keeps s (rxUdp s np src dst sport dport b) := by
  unfold rxUdp
  try conv => arg 2; zeta
  refine Keeps.ite ?_ ?_
  · refine Keeps.trans ?_ (npCount_keeps ..)
    exact Keeps.refl _
  · refine Keeps.trans ?_ (datagramOffers_keeps ..)
    exact Keeps.refl _

theorem execFrameReceive_keeps (np : Nat) (frame : Bytes) (s : State) :
    ∃ u, execFrameReceive np frame s = .next u ∧ Keeps s u := by
  unfold execFrameReceive
  try conv => enter [1, t, 1, 1]; zeta
  refine Keeps.iteNext ?_ ?_
  · refine Keeps.done ?_
    exact Keeps.refl _
  · split
    · refine Keeps.done ?_
      refine Keeps.trans ?_ (npCount_keeps ..)
      refine Keeps.trans ?_ (npCount_keeps ..)
      exact Keeps.refl _
    · refine Keeps.done ?_
      refine Keeps.trans ?_ (rxArp_keeps ..)
      refine Keeps.trans ?_ (npCount_keeps ..)
      exact Keeps.refl _
    · refine Keeps.done ?_
      refine Keeps.trans ?_ (rxControl_keeps ..)
      refine Keeps.trans ?_ (npCount_keeps ..)
      exact Keeps.refl _
    · refine Keeps.done ?_
      refine Keeps.trans ?_ (rxUdp_keeps ..)
      refine Keeps.trans ?_ (npCount_keeps ..)
      exact Keeps.refl _

theorem execRtpJumpTimeout_keeps (slot : Nat) (s : State) :
    ∃ u, execRtpJumpTimeout slot s = .next u ∧ Keeps s u := by
  unfold execRtpJumpTimeout
  refine Keeps.iteNext ?_ ?_
  · refine Keeps.done ?_
    refine Keeps.trans ?_ (ingCount_keeps ..)
    refine Keeps.trans ?_ (State.updIng_keeps ..)
    exact Keeps.refl _
  · refine Keeps.done ?_
    exact Keeps.refl _

theorem execSourceLockTimeout_keeps (slot : Nat) (s : State) :
    ∃ u, execSourceLockTimeout slot s = .next u ∧ Keeps s u := by
  unfold execSourceLockTimeout
  try conv => enter [1, t, 1, 1]; zeta
  refine Keeps.iteNext ?_ ?_
  · refine Keeps.done ?_
    refine Keeps.trans ?_ (alignGroup_keeps ..)
    refine Keeps.trans ?_ (raiseLogOf_keeps ..)
    refine Keeps.trans ?_ (State.updIng_keeps ..)
    exact Keeps.refl _
  · refine Keeps.done ?_
    exact Keeps.refl _

theorem execRtpGapTimeout_keeps (slot : Nat) (s : State) :
    ∃ u, execRtpGapTimeout slot s = .next u ∧ Keeps s u := by
  unfold execRtpGapTimeout
  refine Keeps.done ?_
  refine Keeps.trans ?_ (rtpSkip_keeps ..)
  exact Keeps.refl _

theorem execBucketRefill_keeps (s : State) :
    ∃ u, execBucketRefill s = .next u ∧ Keeps s u := by
  unfold execBucketRefill
  try conv => enter [1, t, 1, 1]; zeta
  refine Keeps.done ?_
  refine Keeps.ofMk ?_ rfl rfl rfl rfl rfl rfl rfl rfl (fun h => h) rfl rfl (Nat.le_refl _)
  exact Keeps.refl _

theorem execPmtWaitTimeout_keeps (slot : Nat) (s : State) :
    ∃ u, execPmtWaitTimeout slot s = .next u ∧ Keeps s u := by
  unfold execPmtWaitTimeout
  try conv => enter [1, t, 1, 1]; zeta
  refine Keeps.iteNext ?_ ?_
  · refine Keeps.done ?_
    refine Keeps.trans ?_ (raiseLogOf_keeps ..)
    refine Keeps.trans ?_ (State.updIng_keeps ..)
    exact Keeps.refl _
  · refine Keeps.done ?_
    exact Keeps.refl _

theorem execAlignmentTimeout_keeps (slot : Nat) (au : Nat) (s : State) :
    ∃ u, execAlignmentTimeout slot au s = .next u ∧ Keeps s u := by
  unfold execAlignmentTimeout
  split
  · refine Keeps.done ?_
    exact Keeps.refl _
  · refine Keeps.iteNext ?_ ?_
    · refine Keeps.done ?_
      exact Keeps.refl _
    · refine Keeps.done ?_
      refine Keeps.trans ?_ (alignDecide_keeps ..)
      exact Keeps.refl _

/-! ### Machine/Decoder.lean -/

theorem dropRefs_keeps (slot : Nat) (x1 : List Nat) (x2 : State) :
    Keeps x2 (dropRefs slot x1 x2) := by
  induction x1 generalizing x2 with
  | nil =>
    rw [dropRefs]
    exact Keeps.refl _
  | cons a t ih =>
    rw [dropRefs]
    try conv => arg 2; zeta
    refine Keeps.trans ?_ (ih ..)
    refine Keeps.ofMk ?_ rfl rfl rfl rfl rfl rfl rfl rfl (fun h => h) rfl rfl (Nat.le_refl _)
    exact Keeps.refl _

theorem serve_keeps (s : State) (slot : Nat) (c : Nat) :
    Keeps s (serve s slot c) := by
  unfold serve
  try conv => arg 2; zeta
  refine Keeps.trans ?_ (decCount_keeps ..)
  refine Keeps.trans ?_ (State.updDec_keeps ..)
  exact Keeps.refl _

theorem takeBand_keeps (s : State) (slot : Nat) (fid : Nat) :
    Keeps s (takeBand s slot fid).2 := by
  unfold takeBand
  try conv => arg 2; zeta
  split
  · refine Keeps.snd ?_
    exact Keeps.refl _
  · refine Keeps.itePair ?_ ?_
    · refine Keeps.snd ?_
      exact Keeps.refl _
    · split
      · rename_i v0 e1
        have hv0 : Keeps s v0 := by
          refine Keeps.pair e1 ?_
          refine Keeps.trans ?_ (bpmAlloc_keeps ..)
          exact Keeps.refl _
        refine Keeps.snd ?_
        exact hv0
      · rename_i v2 v3 e4
        have hv3 : Keeps s v3 := by
          refine Keeps.pair e4 ?_
          refine Keeps.trans ?_ (bpmAlloc_keeps ..)
          exact Keeps.refl _
        refine Keeps.snd ?_
        refine Keeps.trans ?_ (decCount_keeps ..)
        refine Keeps.trans ?_ (State.updDec_keeps ..)
        refine Keeps.trans ?_ (State.updFrame_keeps ..)
        exact hv3

theorem auDiscard_keeps (s : State) (slot : Nat) (fid : Nat) (cause : Nat) (ctr : Nat) :
    Keeps s (auDiscard s slot fid cause ctr) := by
  unfold auDiscard
  refine Keeps.trans ?_ (decCount_keeps ..)
  refine Keeps.trans ?_ (discardFrame_keeps ..)
  exact Keeps.refl _

theorem parseApply_keeps (s : State) (slot : Nat) (fid : Nat) (x3 : ParseVerdict) :
    Keeps s (parseApply s slot fid x3) := by
  unfold parseApply
  try conv => arg 2; zeta
  split
  · refine Keeps.trans ?_ (decLog_keeps ..)
    refine Keeps.trans ?_ (decCount_keeps ..)
    refine Keeps.trans ?_ (auDiscard_keeps ..)
    refine Keeps.trans ?_ (State.updDec_keeps ..)
    exact Keeps.refl _
  · refine Keeps.trans ?_ (auDiscard_keeps ..)
    exact Keeps.refl _
  · refine Keeps.trans ?_ (auDiscard_keeps ..)
    refine Keeps.trans ?_ (State.updDec_keeps ..)
    exact Keeps.refl _
  · refine Keeps.trans ?_ (discardFrame_keeps ..)
    exact Keeps.refl _
  · refine Keeps.ite ?_ ?_
    · refine Keeps.trans ?_ (auDiscard_keeps ..)
      exact Keeps.refl _
    · refine Keeps.ite ?_ ?_
      · refine Keeps.trans ?_ (auDiscard_keeps ..)
        exact Keeps.refl _
      · refine Keeps.trans ?_ (discardFrame_keeps ..)
        exact Keeps.refl _
  · exact Keeps.refl _

theorem parseSettle_keeps (slot : Nat) (x1 : Nat) (x2 : State) :
    Keeps x2 (parseSettle slot x1 x2) := by
  induction x1 generalizing x2 with
  | zero =>
    rw [parseSettle]
    exact Keeps.refl _
  | succ k ih =>
    rw [parseSettle]
    split
    · exact Keeps.refl _
    · exact Keeps.refl _
    · refine Keeps.trans ?_ (ih ..)
      refine Keeps.trans ?_ (parseApply_keeps ..)
      exact Keeps.refl _

theorem beginPicture_keeps (s : State) (slot : Nat) :
    Keeps s (beginPicture s slot) := by
  unfold beginPicture
  try conv => arg 2; zeta
  split
  · exact Keeps.refl _
  · refine Keeps.trans ?_ (parseSettle_keeps ..)
    refine Keeps.trans ?_ (State.updDec_keeps ..)
    exact Keeps.refl _

theorem limboParse_keeps (s : State) (slot : Nat) (fid : Nat) (h : PicHdr) :
    Keeps s (limboParse s slot fid h) := by
  unfold limboParse
  try conv => arg 2; zeta
  refine Keeps.ite ?_ ?_
  · refine Keeps.foldl (fun y0 _ => ?_) ?_ _
    · refine Keeps.trans ?_ (auHold_keeps ..)
      exact Keeps.refl _
    · refine Keeps.trans ?_ (State.updDec_keeps ..)
      exact Keeps.refl _
  · refine Keeps.trans ?_ (auDiscard_keeps ..)
    exact Keeps.refl _

theorem noteReady_keeps (v : Option Rat) (x1 : List Nat) (x2 : State) :
    Keeps x2 (noteReady v x1 x2) := by
  induction x1 generalizing x2 with
  | nil =>
    rw [noteReady]
    exact Keeps.refl _
  | cons a t ih =>
    rw [noteReady]
    refine Keeps.trans ?_ (ih ..)
    refine Keeps.trans ?_ (State.updDec_keeps ..)
    exact Keeps.refl _

theorem engineNote_keeps (s : State) (g : Nat) :
    Keeps s (engineNote s g) := by
  unfold engineNote
  try conv => arg 2; zeta
  refine Keeps.trans ?_ (noteReady_keeps ..)
  exact Keeps.refl _

theorem engineServe_keeps (s : State) (g : Nat) (slot : Nat) (c : Nat) :
    Keeps s (engineServe s g slot c) := by
  unfold engineServe
  try conv => arg 2; zeta
  refine Keeps.ofMk ?_ rfl rfl rfl rfl rfl rfl rfl rfl (fun h => h) rfl rfl (Nat.le_refl _)
  refine Keeps.trans ?_ (serve_keeps ..)
  refine Keeps.trans ?_ (engineNote_keeps ..)
  exact Keeps.refl _

theorem takeBands_keeps (slot fid n : Nat) (s : State) : Keeps s (takeBands slot fid n s).2 := by
  induction n generalizing s with
  | zero => exact Keeps.refl s
  | succ n ih =>
    rw [takeBands]
    have h := takeBand_keeps s slot fid
    split
    · rename_i e
      exact (Keeps.pair e h).trans (ih _)
    · exact h

theorem dropOversize_keeps (s : State) (slot : Nat) (fid : Nat) :
    Keeps s (dropOversize s slot fid) := by
  unfold dropOversize
  try conv => arg 2; zeta
  refine Keeps.trans ?_ (rollback_keeps ..)
  refine Keeps.trans ?_ (raiseLogOf_keeps ..)
  refine Keeps.trans ?_ (sweepSlot_keeps ..)
  refine Keeps.ite ?_ ?_
  · refine Keeps.trans ?_ (freeBands_keeps ..)
    refine Keeps.ofMk ?_ rfl rfl rfl rfl rfl rfl rfl rfl (fun h => h) rfl rfl (Nat.le_refl _)
    refine Keeps.trans ?_ (decCount_keeps ..)
    refine Keeps.trans ?_ (discardFrame_keeps ..)
    exact Keeps.refl _
  · refine Keeps.ofMk ?_ rfl rfl rfl rfl rfl rfl rfl rfl (fun h => h) rfl rfl (Nat.le_refl _)
    refine Keeps.trans ?_ (decCount_keeps ..)
    refine Keeps.trans ?_ (discardFrame_keeps ..)
    exact Keeps.refl _

theorem reachBands_keeps (s : State) (slot : Nat) (fid : Nat) (n : Nat) :
    Keeps s (reachBands s slot fid n).2 := by
  unfold reachBands
  split
  · rename_i v0 e1
    have hv0 : Keeps s v0 := by
      refine Keeps.pair e1 ?_
      refine Keeps.trans ?_ (takeBands_keeps ..)
      exact Keeps.refl _
    refine Keeps.snd ?_
    exact hv0
  · rename_i v2 e3
    have hv2 : Keeps s v2 := by
      refine Keeps.pair e3 ?_
      refine Keeps.trans ?_ (takeBands_keeps ..)
      exact Keeps.refl _
    refine Keeps.itePair ?_ ?_
    · refine Keeps.snd ?_
      exact hv2
    · refine Keeps.snd ?_
      refine Keeps.trans ?_ (decCount_keeps ..)
      refine Keeps.trans ?_ (State.updDec_keeps ..)
      exact hv2
  · rename_i v4 e5
    have hv4 : Keeps s v4 := by
      refine Keeps.pair e5 ?_
      refine Keeps.trans ?_ (takeBands_keeps ..)
      exact Keeps.refl _
    refine Keeps.snd ?_
    refine Keeps.trans ?_ (dropOversize_keeps ..)
    refine Keeps.trans ?_ (State.updDec_keeps ..)
    exact hv4

theorem engineRun_keeps (s : State) (g : Nat) (cycles : Nat) (bands : Nat) (damage : Bool) :
    Keeps s (engineRun s g cycles bands damage) := by
  unfold engineRun
  try conv => arg 2; zeta
  split
  · exact Keeps.refl _
  · refine Keeps.ite ?_ ?_
    · refine Keeps.trans ?_ (rollback_keeps ..)
      split
      · refine Keeps.trans ?_ (engineServe_keeps ..)
        exact Keeps.refl _
      · refine Keeps.trans ?_ (reachBands_keeps ..)
        refine Keeps.trans ?_ (engineServe_keeps ..)
        exact Keeps.refl _
    · split
      · refine Keeps.trans ?_ (engineServe_keeps ..)
        exact Keeps.refl _
      · refine Keeps.trans ?_ (reachBands_keeps ..)
        refine Keeps.trans ?_ (engineServe_keeps ..)
        exact Keeps.refl _

theorem execParseAhead_keeps (slot : Nat) (hdr : PicHdr) (s : State) :
    ∃ u, execParseAhead slot hdr s = .next u ∧ Keeps s u := by
  unfold execParseAhead
  try conv => enter [1, t, 1, 1]; zeta
  split
  · refine Keeps.done ?_
    refine Keeps.trans ?_ (parseSettle_keeps ..)
    exact Keeps.refl _
  · refine Keeps.iteNext ?_ ?_
    · refine Keeps.done ?_
      refine Keeps.trans ?_ (parseSettle_keeps ..)
      refine Keeps.trans ?_ (limboParse_keeps ..)
      exact Keeps.refl _
    · refine Keeps.done ?_
      refine Keeps.trans ?_ (parseSettle_keeps ..)
      refine Keeps.trans ?_ (State.updDec_keeps ..)
      refine Keeps.trans ?_ (State.updFrame_keeps ..)
      exact Keeps.refl _

theorem resampleLogs_keeps (s : State) (slot : Nat) (hdr : Bool) (cropped : Bool) :
    Keeps s (resampleLogs s slot hdr cropped) := by
  unfold resampleLogs
  try conv => arg 2; zeta
  refine Keeps.ite ?_ ?_
  · refine Keeps.trans ?_ (raiseLogOf_keeps ..)
    refine Keeps.trans ?_ (State.updDec_keeps ..)
    refine Keeps.ite ?_ ?_
    · refine Keeps.trans ?_ (raiseLogOf_keeps ..)
      refine Keeps.trans ?_ (State.updDec_keeps ..)
      exact Keeps.refl _
    · exact Keeps.refl _
  · refine Keeps.ite ?_ ?_
    · refine Keeps.trans ?_ (raiseLogOf_keeps ..)
      refine Keeps.trans ?_ (State.updDec_keeps ..)
      exact Keeps.refl _
    · exact Keeps.refl _

theorem resampTake_keeps (s : State) (rs : Nat) (fid : Nat) :
    Keeps s (resampTake s rs fid) := by
  unfold resampTake
  refine Keeps.ofMk ?_ rfl rfl rfl rfl rfl rfl rfl rfl (fun h => h) rfl rfl (Nat.le_refl _)
  exact Keeps.refl _

theorem stageMembers_keeps (l : List (Option Nat)) (s : State) : Keeps s (stageMembers l s) := by
  induction l generalizing s with
  | nil => exact Keeps.refl _
  | cons a t ih =>
    cases a with
    | none => exact ih s
    | some i => exact (frameStage_keeps ..).trans (ih _)

theorem abandonPicture_keeps (s : State) (slot : Nat) :
    Keeps s (abandonPicture s slot) := by
  unfold abandonPicture
  split
  · exact Keeps.refl _
  · refine Keeps.ite ?_ ?_
    · exact Keeps.refl _
    · refine Keeps.trans ?_ (decCount_keeps ..)
      refine Keeps.trans ?_ (State.updDec_keeps ..)
      exact Keeps.refl _

theorem execPictureBudgetExceeded_keeps (engine : Nat) (cycles : Nat) (atSlice : Bool) (s : State) :
    ∃ u, execPictureBudgetExceeded engine cycles atSlice s = .next u ∧ Keeps s u := by
  unfold execPictureBudgetExceeded
  try conv => enter [1, t, 1, 1]; zeta
  split
  · refine Keeps.done ?_
    exact Keeps.refl _
  · split
    · refine Keeps.done ?_
      refine Keeps.trans ?_ (engineServe_keeps ..)
      exact Keeps.refl _
    · refine Keeps.iteNext ?_ ?_
      · refine Keeps.done ?_
        refine Keeps.trans ?_ (abandonPicture_keeps ..)
        refine Keeps.trans ?_ (engineServe_keeps ..)
        exact Keeps.refl _
      · refine Keeps.done ?_
        refine Keeps.trans ?_ (engineServe_keeps ..)
        exact Keeps.refl _

theorem stepDiscard_keeps (s : State) (slot : Nat) :
    Keeps s (stepDiscard s slot) := by
  unfold stepDiscard
  try conv => arg 2; zeta
  refine Keeps.trans ?_ (recSet_keeps ..)
  refine Keeps.trans ?_ (State.updStream_keeps ..)
  exact Keeps.refl _

theorem resampWork_keeps (s : State) (rs : Nat) (fid : Nat) :
    Keeps s (resampWork s rs fid) := by
  unfold resampWork
  try conv => arg 2; zeta
  split
  · split
    · exact Keeps.refl _
    · split
      · rename_i v0 e1
        have hv0 : Keeps s v0 := by
          refine Keeps.pair e1 ?_
          refine Keeps.trans ?_ (bpmAlloc_keeps ..)
          exact Keeps.refl _
        exact hv0
      · rename_i v2 v3 e4
        have hv3 : Keeps s v3 := by
          refine Keeps.pair e4 ?_
          refine Keeps.trans ?_ (bpmAlloc_keeps ..)
          exact Keeps.refl _
        refine Keeps.trans ?_ (resampTake_keeps ..)
        refine Keeps.trans ?_ (resampleLogs_keeps ..)
        refine Keeps.trans ?_ (State.updFrame_keeps ..)
        exact hv3

theorem batchOpen_keeps (s : State) (k : Nat × List Nat × Nat × Nat) (fid : Nat) :
    Keeps s (batchOpen s k fid) := by
  unfold batchOpen
  try conv => arg 2; zeta
  refine Keeps.ofMk ?_ rfl rfl rfl rfl rfl rfl rfl rfl (fun h => h) rfl rfl (Nat.le_refl _)
  exact Keeps.refl _

theorem trainRefresh_keeps (s : State) (slot : Nat) :
    Keeps s (trainRefresh s slot) := by
  unfold trainRefresh
  try conv => arg 2; zeta
  refine Keeps.ite ?_ ?_
  · refine Keeps.trans ?_ (stepDiscard_keeps ..)
    refine Keeps.trans ?_ (State.updStream_keeps ..)
    exact Keeps.refl _
  · refine Keeps.trans ?_ (State.updStream_keeps ..)
    exact Keeps.refl _

theorem batchClose_keeps (s : State) (b : Nat) :
    Keeps s (batchClose s b) := by
  unfold batchClose
  try conv => arg 2; zeta
  split
  · exact Keeps.refl _
  · refine Keeps.ite ?_ ?_
    · exact Keeps.refl _
    · refine Keeps.ite ?_ ?_
      · refine Keeps.ofMk ?_ rfl rfl rfl rfl rfl rfl rfl rfl (fun h => h) rfl rfl (Nat.le_refl _)
        exact Keeps.refl _
      · refine Keeps.trans ?_ (stageMembers_keeps ..)
        refine Keeps.foldl (fun y0 _ => ?_) ?_ _
        · refine Keeps.trans ?_ (trainRefresh_keeps ..)
          exact Keeps.refl _
        · refine Keeps.trans ?_ (State.updPart_keeps ..)
          refine Keeps.trans ?_ (State.updBatch_keeps ..)
          exact Keeps.refl _

theorem batchJoin_keeps (s : State) (fid : Nat) :
    Keeps s (batchJoin s fid) := by
  unfold batchJoin
  try conv => arg 2; zeta
  split
  · refine Keeps.trans ?_ (State.updFrame_keeps ..)
    refine Keeps.trans ?_ (batchOpen_keeps ..)
    exact Keeps.refl _
  · split
    · refine Keeps.trans ?_ (State.updFrame_keeps ..)
      refine Keeps.trans ?_ (batchOpen_keeps ..)
      exact Keeps.refl _
    · refine Keeps.ite ?_ ?_
      · refine Keeps.trans ?_ (State.updFrame_keeps ..)
        refine Keeps.trans ?_ (batchOpen_keeps ..)
        refine Keeps.trans ?_ (batchClose_keeps ..)
        exact Keeps.refl _
      · refine Keeps.ite ?_ ?_
        · refine Keeps.trans ?_ (batchClose_keeps ..)
          refine Keeps.trans ?_ (State.updFrame_keeps ..)
          refine Keeps.trans ?_ (State.updBatch_keeps ..)
          exact Keeps.refl _
        · refine Keeps.trans ?_ (State.updFrame_keeps ..)
          refine Keeps.trans ?_ (State.updBatch_keeps ..)
          exact Keeps.refl _

theorem execResampleDone_keeps (rs : Nat) (s : State) :
    ∃ u, execResampleDone rs s = .next u ∧ Keeps s u := by
  unfold execResampleDone
  try conv => enter [1, t, 1, 1]; zeta
  split
  · refine Keeps.done ?_
    exact Keeps.refl _
  · split
    · refine Keeps.done ?_
      refine Keeps.trans ?_ (sweepSlots_keeps ..)
      refine Keeps.ite ?_ ?_
      · refine Keeps.trans ?_ (frameStage_keeps ..)
        refine Keeps.trans ?_ (State.updFrame_keeps ..)
        refine Keeps.ofMk ?_ rfl rfl rfl rfl rfl rfl rfl rfl (fun h => h) rfl rfl (Nat.le_refl _)
        exact Keeps.refl _
      · refine Keeps.trans ?_ (batchJoin_keeps ..)
        refine Keeps.trans ?_ (frameStage_keeps ..)
        refine Keeps.trans ?_ (State.updFrame_keeps ..)
        refine Keeps.ofMk ?_ rfl rfl rfl rfl rfl rfl rfl rfl (fun h => h) rfl rfl (Nat.le_refl _)
        exact Keeps.refl _

theorem execResamplePicture_keeps (rs : Nat) (s : State) :
    ∃ u, execResamplePicture rs s = .next u ∧ Keeps s u := by
  unfold execResamplePicture
  try conv => enter [1, t, 1, 1]; zeta
  refine Keeps.iteNext ?_ ?_
  · refine Keeps.done ?_
    exact Keeps.refl _
  · split
    · refine Keeps.done ?_
      exact Keeps.refl _
    · refine Keeps.iteNext ?_ ?_
      · refine Keeps.done ?_
        refine Keeps.trans ?_ (resampTake_keeps ..)
        refine Keeps.trans ?_ (State.updFrame_keeps ..)
        exact Keeps.refl _
      · refine Keeps.done ?_
        refine Keeps.trans ?_ (resampWork_keeps ..)
        exact Keeps.refl _

theorem switchIn_keeps (s : State) (g : Nat) :
    Keeps s (switchIn s g) := by
  unfold switchIn
  try conv => arg 2; zeta
  split
  · refine Keeps.ofMk ?_ rfl rfl rfl rfl rfl rfl rfl rfl (fun h => h) rfl rfl (Nat.le_refl _)
    refine Keeps.trans ?_ (engineNote_keeps ..)
    exact Keeps.refl _
  · refine Keeps.ite ?_ ?_
    · refine Keeps.trans ?_ (beginPicture_keeps ..)
      refine Keeps.ofMk ?_ rfl rfl rfl rfl rfl rfl rfl rfl (fun h => h) rfl rfl (Nat.le_refl _)
      refine Keeps.ite ?_ ?_
      · refine Keeps.trans ?_ (engineNote_keeps ..)
        exact Keeps.refl _
      · refine Keeps.trans ?_ (State.updDec_keeps ..)
        refine Keeps.trans ?_ (engineNote_keeps ..)
        exact Keeps.refl _
    · refine Keeps.ofMk ?_ rfl rfl rfl rfl rfl rfl rfl rfl (fun h => h) rfl rfl (Nat.le_refl _)
      refine Keeps.ite ?_ ?_
      · refine Keeps.trans ?_ (engineNote_keeps ..)
        exact Keeps.refl _
      · refine Keeps.trans ?_ (State.updDec_keeps ..)
        refine Keeps.trans ?_ (engineNote_keeps ..)
        exact Keeps.refl _

theorem releasePics_keeps (slot : Nat) (x1 : List Nat) (x2 : State) :
    Keeps x2 (releasePics slot x1 x2) := by
  induction x1 generalizing x2 with
  | nil =>
    rw [releasePics]
    exact Keeps.refl _
  | cons a t ih =>
    rw [releasePics]
    try conv => arg 2; zeta
    split
    · refine Keeps.trans ?_ (ih ..)
      exact Keeps.refl _
    · refine Keeps.ite ?_ ?_
      · refine Keeps.trans ?_ (ih ..)
        exact Keeps.refl _
      · refine Keeps.trans ?_ (ih ..)
        refine Keeps.ofMk ?_ rfl rfl rfl rfl rfl rfl rfl rfl (fun h => h) rfl rfl (Nat.le_refl _)
        refine Keeps.trans ?_ (decCount_keeps ..)
        refine Keeps.trans ?_ (State.updDec_keeps ..)
        refine Keeps.trans ?_ (State.updFrame_keeps ..)
        exact Keeps.refl _

theorem execBatchTimeout_keeps (batch : Nat) (s : State) :
    ∃ u, execBatchTimeout batch s = .next u ∧ Keeps s u := by
  unfold execBatchTimeout
  refine Keeps.done ?_
  refine Keeps.trans ?_ (batchClose_keeps ..)
  exact Keeps.refl _

theorem commitPicture_keeps (s : State) (slot : Nat) (fid : Nat) (c : Nat) (o : PicOut) :
    Keeps s (commitPicture s slot fid c o) := by
  unfold commitPicture
  try conv => arg 2; zeta
  refine Keeps.trans ?_ (sweepSlots_keeps ..)
  refine Keeps.trans ?_ (releasePics_keeps ..)
  refine Keeps.trans ?_ (dropRefs_keeps ..)
  refine Keeps.trans ?_ (frameStage_keeps ..)
  refine Keeps.trans ?_ (freeIngress_keeps ..)
  refine Keeps.ite ?_ ?_
  · refine Keeps.trans ?_ (State.updDec_keeps ..)
    refine Keeps.trans ?_ (State.updFrame_keeps ..)
    exact Keeps.refl _
  · refine Keeps.trans ?_ (rollback_keeps ..)
    refine Keeps.trans ?_ (decCount_keeps ..)
    refine Keeps.trans ?_ (State.updDec_keeps ..)
    refine Keeps.trans ?_ (State.updFrame_keeps ..)
    exact Keeps.refl _

theorem execPictureDecoded_keeps (engine : Nat) (cycles : Nat) (out : PicOut) (s : State) :
    ∃ u, execPictureDecoded engine cycles out s = .next u ∧ Keeps s u := by
  unfold execPictureDecoded
  try conv => enter [1, t, 1, 1]; zeta
  split
  · refine Keeps.done ?_
    exact Keeps.refl _
  · split
    · refine Keeps.done ?_
      refine Keeps.trans ?_ (engineServe_keeps ..)
      exact Keeps.refl _
    · split
      · rename_i v0 e1
        have hv0 : Keeps s v0 := by
          refine Keeps.pair e1 ?_
          refine Keeps.trans ?_ (reachBands_keeps ..)
          refine Keeps.trans ?_ (engineServe_keeps ..)
          exact Keeps.refl _
        refine Keeps.done ?_
        exact hv0
      · rename_i v2 e3
        have hv2 : Keeps s v2 := by
          refine Keeps.pair e3 ?_
          refine Keeps.trans ?_ (reachBands_keeps ..)
          refine Keeps.trans ?_ (engineServe_keeps ..)
          exact Keeps.refl _
        refine Keeps.done ?_
        refine Keeps.trans ?_ (commitPicture_keeps ..)
        exact hv2

theorem execDecodeSwitch_keeps (engine : Nat) (cycles : Nat) (bands : Nat) (damage : Bool) (s : State) :
    ∃ u, execDecodeSwitch engine cycles bands damage s = .next u ∧ Keeps s u := by
  unfold execDecodeSwitch
  try conv => enter [1, t, 1, 1]; zeta
  refine Keeps.iteNext ?_ ?_
  · refine Keeps.done ?_
    exact Keeps.refl _
  · refine Keeps.done ?_
    refine Keeps.ite ?_ ?_
    · refine Keeps.trans ?_ (switchIn_keeps ..)
      refine Keeps.trans ?_ (engineRun_keeps ..)
      exact Keeps.refl _
    · refine Keeps.trans ?_ (engineRun_keeps ..)
      exact Keeps.refl _

theorem execBlockCycleLimit_keeps (engine : Nat) (cycles : Nat) (s : State) :
    ∃ u, execBlockCycleLimit engine cycles s = .next u ∧ Keeps s u := by
  unfold execBlockCycleLimit
  split
  · refine Keeps.done ?_
    exact Keeps.refl _
  · refine Keeps.done ?_
    refine Keeps.trans ?_ (abandonPicture_keeps ..)
    refine Keeps.trans ?_ (engineServe_keeps ..)
    exact Keeps.refl _

end Sys2Proof.Machine
end

