-- ==== Sys2Proof/Laws/KeepsFabric.lean ====
section
/-! SUPPORT. What each operation of these files of Machine/ leaves alone, as `Keeps` names it: Weights, Infer, Fence, Admission, Dram, Semaphores, Mapping, Sram, Fabric, Adaptation. -/

set_option Elab.async false

set_option linter.unusedVariables false

namespace Sys2Proof.Machine

/-! ### Machine/Weights.lean -/

theorem placeGraph_keeps (s : State) (g : Bytes) (base : Nat) :
    Keeps s (placeGraph s g base) := by
  unfold placeGraph
  refine Keeps.foldl (fun y0 _ => ?_) ?_ _
  · refine Keeps.trans ?_ (dramWrite_keeps ..)
    exact Keeps.refl _
  · refine Keeps.trans ?_ (dramWrite_keeps ..)
    exact Keeps.refl _

theorem placeGraphs_keeps (at_ : Map Nat) (x1 : Map Bytes) (x2 : State) :
    Keeps x2 (placeGraphs at_ x1 x2) := by
  induction x1 generalizing x2 with
  | nil =>
    rw [placeGraphs]
    exact Keeps.refl _
  | cons a t ih =>
    rw [placeGraphs]
    refine Keeps.trans ?_ (ih ..)
    refine Keeps.trans ?_ (placeGraph_keeps ..)
    exact Keeps.refl _

/-! ### Machine/Infer.lean -/

theorem commitSearch_keeps (s : State) (cx : Nat) (p : Nat) (f : Frame) (cmd : CellCmd) :
    Keeps s (commitSearch s cx p f cmd) := by
  unfold commitSearch
  try conv => arg 2; zeta
  refine Keeps.trans ?_ (State.updCtx_keeps ..)
  exact Keeps.refl _

theorem ringOpen_keeps (s : State) (f : Frame) :
    Keeps s (ringOpen s f) := by
  unfold ringOpen
  try conv => arg 2; zeta
  refine Keeps.ite ?_ ?_
  · exact Keeps.refl _
  · refine Keeps.trans ?_ (recSet_keeps ..)
    exact Keeps.refl _

theorem swoCount_keeps (s : State) (slot : Nat) (k : Nat) (n : Nat) :
    Keeps s (swoCount s slot k n) := by
  unfold swoCount
  refine Keeps.trans ?_ (State.updStream_keeps ..)
  exact Keeps.refl _

theorem countOperator_keeps (s : State) (slot : Nat) (e : OpEnv) (l : Bytes) (y : Nat) (x : Nat) :
    Keeps s (countOperator s slot e l y x) := by
  unfold countOperator
  try conv => arg 2; zeta
  refine Keeps.ite ?_ ?_
  · refine Keeps.ite ?_ ?_
    · refine Keeps.ite ?_ ?_
      · refine Keeps.trans ?_ (swoCount_keeps ..)
        refine Keeps.trans ?_ (swoCount_keeps ..)
        refine Keeps.ite ?_ ?_
        · refine Keeps.trans ?_ (swoCount_keeps ..)
          exact Keeps.refl _
        · exact Keeps.refl _
      · refine Keeps.trans ?_ (swoCount_keeps ..)
        refine Keeps.ite ?_ ?_
        · refine Keeps.trans ?_ (swoCount_keeps ..)
          exact Keeps.refl _
        · exact Keeps.refl _
    · refine Keeps.ite ?_ ?_
      · refine Keeps.trans ?_ (swoCount_keeps ..)
        exact Keeps.refl _
      · exact Keeps.refl _
  · refine Keeps.ite ?_ ?_
    · refine Keeps.trans ?_ (swoCount_keeps ..)
      refine Keeps.trans ?_ (swoCount_keeps ..)
      exact Keeps.refl _
    · exact Keeps.refl _

theorem qntCount_keeps (s : State) (slot : Nat) (k : Nat) (n : Nat) :
    Keeps s (qntCount s slot k n) := by
  unfold qntCount
  refine Keeps.trans ?_ (State.updStream_keeps ..)
  exact Keeps.refl _

theorem commitPos_keeps (s : State) (cx : Nat) (p : Nat) (f : Frame) (e : OpEnv) (cmd : CellCmd) (y : Nat) (x : Nat) :
    Keeps s (commitPos s cx p f e cmd y x) := by
  unfold commitPos
  try conv => arg 2; zeta
  refine Keeps.trans ?_ (State.updCtx_keeps ..)
  refine Keeps.ite ?_ ?_
  · refine Keeps.trans ?_ (qntCount_keeps ..)
    refine Keeps.trans ?_ (qntCount_keeps ..)
    refine Keeps.ite ?_ ?_
    · refine Keeps.trans ?_ (countOperator_keeps ..)
      exact Keeps.refl _
    · exact Keeps.refl _
  · refine Keeps.ite ?_ ?_
    · refine Keeps.trans ?_ (countOperator_keeps ..)
      exact Keeps.refl _
    · exact Keeps.refl _

theorem flagQuant_keeps (s : State) (fid : Nat) :
    Keeps s (flagQuant s fid) := by
  unfold flagQuant
  try conv => arg 2; zeta
  refine Keeps.ite ?_ ?_
  · exact Keeps.refl _
  · refine Keeps.trans ?_ (qntCount_keeps ..)
    refine Keeps.trans ?_ (State.updFrame_keeps ..)
    exact Keeps.refl _

theorem applyTable_keeps (s : State) (f : Frame) (graph : Nat) (t : Nat) (q : QTable) :
    Keeps s (applyTable s f graph t q) := by
  unfold applyTable
  try conv => arg 2; zeta
  refine Keeps.trans ?_ (qntCount_keeps ..)
  refine Keeps.trans ?_ (qntCount_keeps ..)
  refine Keeps.ite ?_ ?_
  · refine Keeps.trans ?_ (writeTables_keeps ..)
    refine Keeps.trans ?_ (recSet_keeps ..)
    refine Keeps.trans ?_ (State.updStream_keeps ..)
    exact Keeps.refl _
  · refine Keeps.trans ?_ (State.updStream_keeps ..)
    exact Keeps.refl _

theorem figuresDone_keeps (s : State) (x : Ctx) (p : Nat) (fid : Nat) (t : Nat) :
    Keeps s (figuresDone s x p fid t) := by
  unfold figuresDone
  try conv => arg 2; zeta
  split
  · refine Keeps.ite ?_ ?_
    · refine Keeps.trans ?_ (flagQuant_keeps ..)
      exact Keeps.refl _
    · exact Keeps.refl _
  · refine Keeps.trans ?_ (applyTable_keeps ..)
    refine Keeps.ite ?_ ?_
    · refine Keeps.trans ?_ (flagQuant_keeps ..)
      exact Keeps.refl _
    · exact Keeps.refl _

theorem ringCommit_keeps (s : State) (f : Frame) (e : OpEnv) (li : Nat) :
    Keeps s (ringCommit s f e li) := by
  unfold ringCommit
  try conv => arg 2; zeta
  refine Keeps.trans ?_ (ctxCount_keeps ..)
  refine Keeps.trans ?_ (recSet_keeps ..)
  refine Keeps.trans ?_ (recSet_keeps ..)
  refine Keeps.trans ?_ (dramWrite_keeps ..)
  exact Keeps.refl _

theorem commitTileOf_keeps (s : State) (cx : Nat) (x : Ctx) (fid : Nat) (cmd : CellCmd) :
    Keeps s (commitTileOf s cx x fid cmd) := by
  unfold commitTileOf
  try conv => arg 2; zeta
  refine Keeps.ite ?_ ?_
  · refine Keeps.trans ?_ (commitSearch_keeps ..)
    exact Keeps.refl _
  · refine Keeps.ite ?_ ?_
    · refine Keeps.ite ?_ ?_
      · refine Keeps.trans ?_ (ringCommit_keeps ..)
        refine Keeps.ite ?_ ?_
        · refine Keeps.trans ?_ (figuresDone_keeps ..)
          refine Keeps.foldl (fun y0 _ => ?_) ?_ _
          · refine Keeps.trans ?_ (commitPos_keeps ..)
            exact Keeps.refl _
          · refine Keeps.ite ?_ ?_
            · refine Keeps.trans ?_ (ringOpen_keeps ..)
              exact Keeps.refl _
            · exact Keeps.refl _
        · refine Keeps.foldl (fun y1 _ => ?_) ?_ _
          · refine Keeps.trans ?_ (commitPos_keeps ..)
            exact Keeps.refl _
          · refine Keeps.ite ?_ ?_
            · refine Keeps.trans ?_ (ringOpen_keeps ..)
              exact Keeps.refl _
            · exact Keeps.refl _
      · refine Keeps.ite ?_ ?_
        · refine Keeps.trans ?_ (figuresDone_keeps ..)
          refine Keeps.foldl (fun y2 _ => ?_) ?_ _
          · refine Keeps.trans ?_ (commitPos_keeps ..)
            exact Keeps.refl _
          · refine Keeps.ite ?_ ?_
            · refine Keeps.trans ?_ (ringOpen_keeps ..)
              exact Keeps.refl _
            · exact Keeps.refl _
        · refine Keeps.foldl (fun y3 _ => ?_) ?_ _
          · refine Keeps.trans ?_ (commitPos_keeps ..)
            exact Keeps.refl _
          · refine Keeps.ite ?_ ?_
            · refine Keeps.trans ?_ (ringOpen_keeps ..)
              exact Keeps.refl _
            · exact Keeps.refl _
    · refine Keeps.foldl (fun y4 _ => ?_) ?_ _
      · refine Keeps.trans ?_ (commitPos_keeps ..)
        exact Keeps.refl _
      · refine Keeps.ite ?_ ?_
        · refine Keeps.trans ?_ (ringOpen_keeps ..)
          exact Keeps.refl _
        · exact Keeps.refl _

theorem ctxWithdraw_keeps (s : State) (cx : Nat) :
    Keeps s (ctxWithdraw s cx) := by
  unfold ctxWithdraw
  try conv => arg 2; zeta
  refine Keeps.ofMk ?_ rfl rfl rfl rfl rfl rfl rfl rfl (fun h => h) rfl rfl (Nat.le_refl _)
  refine Keeps.trans ?_ (shadowDrop_keeps ..)
  exact Keeps.refl _

theorem setInv_keeps (s : State) (b : Nat) (m : Nat) (v : Nat) :
    Keeps s (setInv s b m v) := by
  unfold setInv
  refine Keeps.trans ?_ (State.updBatch_keeps ..)
  exact Keeps.refl _

theorem freeChrysalis_keeps (s : State) (cx : Nat) :
    Keeps s (freeChrysalis s cx) := by
  unfold freeChrysalis
  try conv => arg 2; zeta
  split
  · exact Keeps.refl _
  · refine Keeps.ofMk ?_ rfl rfl rfl rfl rfl rfl rfl rfl (fun h => h) rfl rfl (Nat.le_refl _)
    refine Keeps.trans ?_ (storeNew_keeps ..)
    refine Keeps.trans ?_ (bpmRelease_keeps ..)
    exact Keeps.refl _

theorem dropCtx_keeps (s : State) (cx : Nat) :
    Keeps s (dropCtx s cx) := by
  unfold dropCtx
  try conv => arg 2; zeta
  refine Keeps.ofMk ?_ rfl rfl rfl rfl rfl rfl rfl rfl (fun h => h) rfl rfl (Nat.le_refl _)
  refine Keeps.trans ?_ (ctxWithdraw_keeps ..)
  refine Keeps.trans ?_ (freeChrysalis_keeps ..)
  refine Keeps.trans ?_ (releaseAll_keeps ..)
  exact Keeps.refl _

theorem mapPush_keeps (s : State) (p : Nat) :
    Keeps s (mapPush s p) := by
  unfold mapPush
  refine Keeps.trans ?_ (State.updPart_keeps ..)
  exact Keeps.refl _

theorem batchEnd_keeps (s : State) (b : Nat) :
    Keeps s (batchEnd s b) := by
  unfold batchEnd
  split
  · exact Keeps.refl _
  · refine Keeps.ite ?_ ?_
    · refine Keeps.trans ?_ (mapPush_keeps ..)
      refine Keeps.ofMk ?_ rfl rfl rfl rfl rfl rfl rfl rfl (fun h => h) rfl rfl (Nat.le_refl _)
      exact Keeps.refl _
    · exact Keeps.refl _

theorem commitTile_keeps (s : State) (cx : Nat) (cmd : CellCmd) :
    Keeps s (commitTile s cx cmd) := by
  unfold commitTile
  split
  · exact Keeps.refl _
  · refine Keeps.ite ?_ ?_
    · exact Keeps.refl _
    · split
      · exact Keeps.refl _
      · refine Keeps.trans ?_ (commitTileOf_keeps ..)
        exact Keeps.refl _

/-! ### Machine/Fence.lean -/

theorem ctxLose_keeps (s : State) (cx : Nat) :
    Keeps s (ctxLose s cx) := by
  unfold ctxLose
  try conv => arg 2; zeta
  split
  · exact Keeps.refl _
  · refine Keeps.ite ?_ ?_
    · refine Keeps.trans ?_ (dropCtx_keeps ..)
      refine Keeps.trans ?_ (State.updStream_keeps ..)
      exact Keeps.refl _
    · refine Keeps.ite ?_ ?_
      · refine Keeps.trans ?_ (dropCtx_keeps ..)
        exact Keeps.refl _
      · refine Keeps.trans ?_ (State.updCtx_keeps ..)
        refine Keeps.trans ?_ (releaseAll_keeps ..)
        refine Keeps.ofMk ?_ rfl rfl rfl rfl rfl rfl rfl rfl (fun h => h) rfl rfl (Nat.le_refl _)
        exact Keeps.refl _

theorem ctxsLose_keeps (x0 : List Nat) (x1 : State) :
    Keeps x1 (ctxsLose x0 x1) := by
  induction x0 generalizing x1 with
  | nil =>
    rw [ctxsLose]
    exact Keeps.refl _
  | cons a t ih =>
    rw [ctxsLose]
    refine Keeps.trans ?_ (ih ..)
    refine Keeps.trans ?_ (ctxLose_keeps ..)
    exact Keeps.refl _

theorem cellFlush_keeps (s : State) (c : Nat) :
    Keeps s (cellFlush s c) := by
  unfold cellFlush
  try conv => arg 2; zeta
  refine Keeps.trans ?_ (State.updCell_keeps ..)
  refine Keeps.trans ?_ (State.updRegion_keeps ..)
  exact Keeps.refl _

theorem cellsFlush_keeps (x0 : List Nat) (x1 : State) :
    Keeps x1 (cellsFlush x0 x1) := by
  induction x0 generalizing x1 with
  | nil =>
    rw [cellsFlush]
    exact Keeps.refl _
  | cons a t ih =>
    rw [cellsFlush]
    refine Keeps.trans ?_ (ih ..)
    refine Keeps.trans ?_ (cellFlush_keeps ..)
    exact Keeps.refl _

theorem blockFlush_keeps (s : State) (b : Nat) :
    Keeps s (blockFlush s b) := by
  unfold blockFlush
  refine Keeps.trans ?_ (cellsFlush_keeps ..)
  refine Keeps.trans ?_ (State.updBlock_keeps ..)
  exact Keeps.refl _

theorem queueInv_keeps (s : State) (r : Nat) (b : Nat) (m : Nat) :
    Keeps s (queueInv s r b m) := by
  unfold queueInv
  try conv => arg 2; zeta
  refine Keeps.trans ?_ (State.updRegion_keeps ..)
  refine Keeps.trans ?_ (State.updBatch_keeps ..)
  refine Keeps.trans ?_ (setInv_keeps ..)
  exact Keeps.refl _

theorem requeueCtx_keeps (s : State) (cx : Nat) :
    Keeps s (requeueCtx s cx) := by
  unfold requeueCtx
  split
  · exact Keeps.refl _
  · refine Keeps.ite ?_ ?_
    · refine Keeps.trans ?_ (ctxLose_keeps ..)
      exact Keeps.refl _
    · refine Keeps.trans ?_ (queueInv_keeps ..)
      exact Keeps.refl _

theorem shadowDiscard_keeps (s : State) (r : Nat) :
    Keeps s (shadowDiscard s r) := by
  unfold shadowDiscard
  try conv => arg 2; zeta
  refine Keeps.foldl (fun y0 _ => ?_) ?_ _
  · split
    · exact Keeps.refl _
    · refine Keeps.trans ?_ (mapCount_keeps ..)
      exact Keeps.refl _
  · refine Keeps.trans ?_ (State.updRegion_keeps ..)
    exact Keeps.refl _

theorem batchReturn_keeps (s : State) (b : Nat) :
    Keeps s (batchReturn s b) := by
  unfold batchReturn
  try conv => arg 2; zeta
  split
  · exact Keeps.refl _
  · refine Keeps.foldl (fun y0 _ => ?_) ?_ _
    · refine Keeps.trans ?_ (ledgerWrite_keeps ..)
      refine Keeps.trans ?_ (State.updFrame_keeps ..)
      exact Keeps.refl _
    · refine Keeps.trans ?_ (State.updPart_keeps ..)
      refine Keeps.trans ?_ (State.updBatch_keeps ..)
      exact Keeps.refl _

theorem batchesReturn_keeps (x0 : List Nat) (x1 : State) :
    Keeps x1 (batchesReturn x0 x1) := by
  induction x0 generalizing x1 with
  | nil =>
    rw [batchesReturn]
    exact Keeps.refl _
  | cons a t ih =>
    rw [batchesReturn]
    refine Keeps.trans ?_ (ih ..)
    refine Keeps.trans ?_ (batchReturn_keeps ..)
    exact Keeps.refl _

theorem alarmIfBare_keeps (s : State) (x1 : List Nat) :
    Keeps s (alarmIfBare s x1) := by
  induction x1 generalizing s with
  | nil =>
    rw [alarmIfBare]
    exact Keeps.refl _
  | cons a t ih =>
    rw [alarmIfBare]
    refine Keeps.trans ?_ (ih ..)
    refine Keeps.ite ?_ ?_
    · refine Keeps.trans ?_ (raiseAlarm_keeps ..)
      exact Keeps.refl _
    · exact Keeps.refl _

theorem demoteOne_keeps (s : State) :
    Keeps s (demoteOne s) := by
  unfold demoteOne
  try conv => arg 2; zeta
  split
  · exact Keeps.refl _
  · refine Keeps.trans ?_ (raiseAlarm_keeps ..)
    refine Keeps.ofMk ?_ rfl rfl rfl rfl rfl rfl rfl rfl (fun h => h) rfl rfl (Nat.le_refl _)
    refine Keeps.trans ?_ (State.updPart_keeps ..)
    exact Keeps.refl _

theorem demoteAsNeeded_keeps (s : State) :
    Keeps s (demoteAsNeeded s) := by
  unfold demoteAsNeeded
  try conv => arg 2; zeta
  refine Keeps.ite ?_ ?_
  · refine Keeps.ite ?_ ?_
    · exact Keeps.refl _
    · refine Keeps.trans ?_ (demoteOne_keeps ..)
      exact Keeps.refl _
  · refine Keeps.trans ?_ (demoteOne_keeps ..)
    refine Keeps.ite ?_ ?_
    · exact Keeps.refl _
    · refine Keeps.trans ?_ (demoteOne_keeps ..)
      exact Keeps.refl _

theorem regionFence_keeps (s : State) (r : Nat) :
    Keeps s (regionFence s r) := by
  unfold regionFence
  try conv => arg 2; zeta
  refine Keeps.ite ?_ ?_
  · exact Keeps.refl _
  · refine Keeps.trans ?_ (demoteAsNeeded_keeps ..)
    refine Keeps.trans ?_ (alarmIfBare_keeps ..)
    refine Keeps.trans ?_ (raiseAlarm_keeps ..)
    refine Keeps.trans ?_ (State.updRegion_keeps ..)
    refine Keeps.trans ?_ (batchesReturn_keeps ..)
    refine Keeps.trans ?_ (ctxsLose_keeps ..)
    refine Keeps.foldl (fun y0 _ => ?_) ?_ _
    · refine Keeps.trans ?_ (blockFlush_keeps ..)
      exact Keeps.refl _
    · refine Keeps.trans ?_ (shadowDiscard_keeps ..)
      exact Keeps.refl _

theorem regionCheck_keeps (s : State) (r : Nat) :
    Keeps s (regionCheck s r) := by
  unfold regionCheck
  refine Keeps.ite ?_ ?_
  · refine Keeps.trans ?_ (regionFence_keeps ..)
    exact Keeps.refl _
  · exact Keeps.refl _

theorem blockFence_keeps (s : State) (b : Nat) :
    Keeps s (blockFence s b) := by
  unfold blockFence
  try conv => arg 2; zeta
  refine Keeps.ite ?_ ?_
  · exact Keeps.refl _
  · refine Keeps.trans ?_ (regionCheck_keeps ..)
    refine Keeps.trans ?_ (raiseAlarm_keeps ..)
    refine Keeps.foldl (fun y0 _ => ?_) ?_ _
    · refine Keeps.trans ?_ (requeueCtx_keeps ..)
      refine Keeps.trans ?_ (ctxLose_keeps ..)
      exact Keeps.refl _
    · refine Keeps.trans ?_ (State.updBlock_keeps ..)
      refine Keeps.trans ?_ (blockFlush_keeps ..)
      exact Keeps.refl _

theorem blockCheck_keeps (s : State) (b : Nat) :
    Keeps s (blockCheck s b) := by
  unfold blockCheck
  refine Keeps.ite ?_ ?_
  · refine Keeps.trans ?_ (blockFence_keeps ..)
    exact Keeps.refl _
  · exact Keeps.refl _

theorem cellFence_keeps (s : State) (c : Nat) :
    Keeps s (cellFence s c) := by
  unfold cellFence
  try conv => arg 2; zeta
  refine Keeps.trans ?_ (blockCheck_keeps ..)
  refine Keeps.trans ?_ (raiseAlarm_keeps ..)
  refine Keeps.trans ?_ (State.updCell_keeps ..)
  refine Keeps.trans ?_ (cellFlush_keeps ..)
  exact Keeps.refl _

theorem flagFrames_keeps (s : State) (x : Ctx) (bit : Nat) :
    Keeps s (flagFrames s x bit) := by
  unfold flagFrames
  refine Keeps.foldl (fun y0 _ => ?_) ?_ _
  · refine Keeps.trans ?_ (ledgerWrite_keeps ..)
    refine Keeps.trans ?_ (State.updFrame_keeps ..)
    exact Keeps.refl _
  · exact Keeps.refl _

/-! ### Machine/Admission.lean -/

theorem admitTo_keeps (s : State) (b : Nat) (r : Nat) (x : Batch) :
    Keeps s (admitTo s b r x) := by
  unfold admitTo
  try conv => arg 2; zeta
  refine Keeps.trans ?_ (State.updPart_keeps ..)
  refine Keeps.ofMk ?_ rfl rfl rfl rfl rfl rfl rfl rfl (fun h => h) rfl rfl (Nat.le_refl _)
  refine Keeps.trans ?_ (State.updBatch_keeps ..)
  exact Keeps.refl _

theorem pacCount_keeps (s : State) (k : Nat) (r : Nat) (n : Nat) :
    Keeps s (pacCount s k r n) := by
  unfold pacCount
  try conv => arg 2; zeta
  refine Keeps.ofMk ?_ rfl rfl rfl rfl rfl rfl rfl rfl (fun h => h) rfl rfl (Nat.le_refl _)
  exact Keeps.refl _

theorem wakeStart_keeps (s : State) (r : Nat) :
    Keeps s (wakeStart s r) := by
  unfold wakeStart
  try conv => arg 2; zeta
  refine Keeps.ite ?_ ?_
  · exact Keeps.refl _
  · refine Keeps.ite ?_ ?_
    · refine Keeps.trans ?_ (State.updRegion_keeps ..)
      exact Keeps.refl _
    · refine Keeps.ite ?_ ?_
      · refine Keeps.trans ?_ (regionFence_keeps ..)
        exact Keeps.refl _
      · refine Keeps.trans ?_ (pacCount_keeps ..)
        refine Keeps.trans ?_ (State.updRegion_keeps ..)
        exact Keeps.refl _

theorem wakeOne_keeps (s : State) :
    Keeps s (wakeOne s) := by
  unfold wakeOne
  split
  · exact Keeps.refl _
  · refine Keeps.trans ?_ (wakeStart_keeps ..)
    exact Keeps.refl _

theorem admitNext_keeps (s : State) (part : Nat) :
    Keeps s (admitNext s part) := by
  unfold admitNext
  try conv => arg 2; zeta
  split
  · exact Keeps.refl _
  · split
    · exact Keeps.refl _
    · refine Keeps.ite ?_ ?_
      · exact Keeps.refl _
      · split
        · refine Keeps.trans ?_ (admitTo_keeps ..)
          exact Keeps.refl _
        · split
          · refine Keeps.trans ?_ (wakeOne_keeps ..)
            exact Keeps.refl _
          · refine Keeps.trans ?_ (admitTo_keeps ..)
            refine Keeps.ite ?_ ?_
            · refine Keeps.trans ?_ (wakeOne_keeps ..)
              exact Keeps.refl _
            · exact Keeps.refl _

theorem execBatchAdmit_keeps (part : Nat) (s : State) :
    ∃ u, execBatchAdmit part s = .next u ∧ Keeps s u := by
  unfold execBatchAdmit
  refine Keeps.done ?_
  refine Keeps.trans ?_ (admitNext_keeps ..)
  exact Keeps.refl _

theorem placeCtx_keeps (cx : Nat) (x1 : List Nat) (x2 : State) :
    Keeps x2 (placeCtx cx x1 x2) := by
  induction x1 generalizing x2 with
  | nil =>
    rw [placeCtx]
    exact Keeps.refl _
  | cons a t ih =>
    rw [placeCtx]
    try conv => arg 2; zeta
    split
    · refine Keeps.trans ?_ (ih ..)
      exact Keeps.refl _
    · refine Keeps.trans ?_ (ih ..)
      refine Keeps.trans ?_ (State.updCtx_keeps ..)
      refine Keeps.trans ?_ (State.updBlock_keeps ..)
      exact Keeps.refl _

theorem selftestCtx_keeps (s : State) (r : Nat) :
    Keeps s (selftestCtx s r) := by
  unfold selftestCtx
  try conv => arg 2; zeta
  refine Keeps.ofMk ?_ rfl rfl rfl rfl rfl rfl rfl rfl (fun h => h) rfl rfl (Nat.le_refl _)
  exact Keeps.refl _

theorem selftestPlace_keeps (s : State) (b : Nat) :
    Keeps s (selftestPlace s b) := by
  unfold selftestPlace
  refine Keeps.ite ?_ ?_
  · exact Keeps.refl _
  · refine Keeps.trans ?_ (placeCtx_keeps ..)
    refine Keeps.trans ?_ (selftestCtx_keeps ..)
    exact Keeps.refl _

theorem beginTemporal_keeps (s : State) (f : Frame) :
    Keeps s (beginTemporal s f) := by
  unfold beginTemporal
  try conv => arg 2; zeta
  refine Keeps.trans ?_ (ctxCount_keeps ..)
  refine Keeps.ite ?_ ?_
  · refine Keeps.trans ?_ (State.updStream_keeps ..)
    refine Keeps.ite ?_ ?_
    · exact Keeps.refl _
    · refine Keeps.trans ?_ (newSegment_keeps ..)
      exact Keeps.refl _
  · exact Keeps.refl _

theorem settleIn_keeps (s : State) (r : Nat) (b : Nat) (m : Nat) (cx : Nat) (bl : List Nat) (p : Plan) :
    Keeps s (settleIn s r b m cx bl p) := by
  unfold settleIn
  try conv => arg 2; zeta
  refine Keeps.ite ?_ ?_
  · refine Keeps.trans ?_ (State.updRegion_keeps ..)
    refine Keeps.trans ?_ (State.updRegion_keeps ..)
    refine Keeps.trans ?_ (setInv_keeps ..)
    refine Keeps.trans ?_ (State.updBatch_keeps ..)
    refine Keeps.trans ?_ (State.updCtx_keeps ..)
    refine Keeps.trans ?_ (placeCtx_keeps ..)
    exact Keeps.refl _
  · refine Keeps.trans ?_ (State.updRegion_keeps ..)
    refine Keeps.trans ?_ (setInv_keeps ..)
    refine Keeps.trans ?_ (State.updBatch_keeps ..)
    refine Keeps.trans ?_ (State.updCtx_keeps ..)
    refine Keeps.trans ?_ (placeCtx_keeps ..)
    exact Keeps.refl _

theorem newCtx_keeps (s : State) (b : Nat) (m : Nat) (x : Batch) (r : Nat) :
    Keeps s (newCtx s b m x r).2 := by
  unfold newCtx
  try conv => arg 2; zeta
  refine Keeps.snd ?_
  refine Keeps.ofMk ?_ rfl rfl rfl rfl rfl rfl rfl rfl (fun h => h) rfl rfl (Nat.le_refl _)
  exact Keeps.refl _

theorem makeResident_keeps (s : State) (r : Nat) (b : Nat) (m : Nat) :
    Keeps s (makeResident s r b m) := by
  unfold makeResident
  try conv => arg 2; zeta
  split
  · exact Keeps.refl _
  · refine Keeps.ite ?_ ?_
    · split
      · refine Keeps.ite ?_ ?_
        · exact Keeps.refl _
        · refine Keeps.trans ?_ (settleIn_keeps ..)
          exact Keeps.refl _
      · split
        · rename_i v0 v1 e2
          have hv1 : Keeps s v1 := by
            refine Keeps.pair e2 ?_
            refine Keeps.trans ?_ (newCtx_keeps ..)
            exact Keeps.refl _
          refine Keeps.trans ?_ (settleIn_keeps ..)
          exact hv1
    · exact Keeps.refl _

theorem holdForStep_keeps (s : State) (f : Frame) (cls : Nat) :
    Keeps s (holdForStep s f cls) := by
  unfold holdForStep
  try conv => arg 2; zeta
  refine Keeps.ofMk ?_ rfl rfl rfl rfl rfl rfl rfl rfl (fun h => h) rfl rfl (Nat.le_refl _)
  refine Keeps.trans ?_ (State.updStream_keeps ..)
  exact Keeps.refl _

theorem makeRunnable_keeps (s : State) (b : Nat) (m : Nat) :
    Keeps s (makeRunnable s b m) := by
  unfold makeRunnable
  split
  · exact Keeps.refl _
  · split
    · exact Keeps.refl _
    · refine Keeps.ite ?_ ?_
      · exact Keeps.refl _
      · refine Keeps.ite ?_ ?_
        · refine Keeps.trans ?_ (batchEnd_keeps ..)
          refine Keeps.trans ?_ (setInv_keeps ..)
          exact Keeps.refl _
        · refine Keeps.ite ?_ ?_
          · refine Keeps.trans ?_ (queueInv_keeps ..)
            exact Keeps.refl _
          · exact Keeps.refl _

theorem execInvocationRunnable_keeps (batch : Nat) (model : Nat) (s : State) :
    ∃ u, execInvocationRunnable batch model s = .next u ∧ Keeps s u := by
  unfold execInvocationRunnable
  refine Keeps.done ?_
  refine Keeps.trans ?_ (makeRunnable_keeps ..)
  exact Keeps.refl _

theorem beginCtx_keeps (s : State) (cx : Nat) (x : Ctx) :
    Keeps s (beginCtx s cx x) := by
  unfold beginCtx
  try conv => arg 2; zeta
  refine Keeps.ite ?_ ?_
  · exact Keeps.refl _
  · refine Keeps.foldl (fun y0 _ => ?_) ?_ _
    · refine Keeps.ite ?_ ?_
      · refine Keeps.trans ?_ (beginTemporal_keeps ..)
        refine Keeps.trans ?_ (storeReads_keeps ..)
        refine Keeps.trans ?_ (State.updFrame_keeps ..)
        exact Keeps.refl _
      · refine Keeps.trans ?_ (storeReads_keeps ..)
        refine Keeps.trans ?_ (State.updFrame_keeps ..)
        exact Keeps.refl _
    · refine Keeps.trans ?_ (State.updCtx_keeps ..)
      exact Keeps.refl _

theorem noteHold_keeps (s : State) (cx : Nat) (x : Ctx) (k : Nat) :
    Keeps s (noteHold s cx x k) := by
  unfold noteHold
  try conv => arg 2; zeta
  refine Keeps.ite ?_ ?_
  · exact Keeps.refl _
  · refine Keeps.ite ?_ ?_
    · refine Keeps.foldl (fun y0 _ => ?_) ?_ _
      · refine Keeps.ite ?_ ?_
        · refine Keeps.trans ?_ (holdForStep_keeps ..)
          exact Keeps.refl _
        · exact Keeps.refl _
      · refine Keeps.trans ?_ (State.updCtx_keeps ..)
        exact Keeps.refl _
    · refine Keeps.trans ?_ (State.updCtx_keeps ..)
      exact Keeps.refl _

theorem execInvocationResident_keeps (region : Nat) (batch : Nat) (model : Nat) (s : State) :
    ∃ u, execInvocationResident region batch model s = .next u ∧ Keeps s u := by
  unfold execInvocationResident
  refine Keeps.done ?_
  refine Keeps.trans ?_ (makeResident_keeps ..)
  exact Keeps.refl _

theorem selftestEnds_keeps (b : Nat) (s : State) :
    Keeps s (selftestEnds b s) := by
  unfold selftestEnds
  refine Keeps.ite ?_ ?_
  · exact Keeps.refl _
  · refine Keeps.foldl (fun y0 _ => ?_) ?_ _
    · refine Keeps.trans ?_ (dropCtx_keeps ..)
      exact Keeps.refl _
    · exact Keeps.refl _

/-! ### Machine/Dram.lean -/

theorem State.updPc_keeps (s : State) (i : Nat) (f : Pc → Pc) :
    Keeps s (State.updPc s i f) := by
  unfold State.updPc
  try conv => arg 2; zeta
  refine Keeps.ofMk ?_ rfl rfl rfl rfl rfl rfl rfl rfl (fun h => h) rfl rfl (Nat.le_refl _)
  exact Keeps.refl _

theorem pcCount_keeps (s : State) (pc : Nat) (i : Nat) (n : Nat) :
    Keeps s (pcCount s pc i n) := by
  unfold pcCount
  refine Keeps.trans ?_ (State.updPc_keeps ..)
  exact Keeps.refl _

theorem eccUncorrectable_keeps (s : State) (pc : Nat) (a : Nat) :
    Keeps s (eccUncorrectable s pc a) := by
  unfold eccUncorrectable
  try conv => arg 2; zeta
  refine Keeps.ite ?_ ?_
  · refine Keeps.trans ?_ (raiseAlarm_keeps ..)
    refine Keeps.trans ?_ (raiseLog_keeps ..)
    refine Keeps.ofMk ?_ rfl rfl rfl rfl rfl rfl rfl rfl (fun h => h) rfl rfl (Nat.le_refl _)
    refine Keeps.trans ?_ (pcCount_keeps ..)
    exact Keeps.refl _
  · refine Keeps.trans ?_ (raiseLog_keeps ..)
    refine Keeps.ofMk ?_ rfl rfl rfl rfl rfl rfl rfl rfl (fun h => h) rfl rfl (Nat.le_refl _)
    refine Keeps.trans ?_ (pcCount_keeps ..)
    exact Keeps.refl _

theorem raiseEpoch_keeps (s : State) :
    Keeps s (raiseEpoch s) := by
  unfold raiseEpoch
  try conv => arg 2; zeta
  refine Keeps.ite ?_ ?_
  · refine Keeps.trans ?_ (raiseAlarm_keeps ..)
    refine Keeps.trans ?_ (raiseLog_keeps ..)
    refine Keeps.ofMk ?_ rfl rfl rfl rfl rfl rfl rfl rfl (fun h => h) rfl rfl (Nat.le_refl _)
    exact Keeps.refl _
  · refine Keeps.trans ?_ (raiseLog_keeps ..)
    refine Keeps.ofMk ?_ rfl rfl rfl rfl rfl rfl rfl rfl (fun h => h) rfl rfl (Nat.le_refl _)
    exact Keeps.refl _

theorem respond_keeps (s : State) (r : DramReq) (data : Bytes) (poisoned : Bool) :
    Keeps s (respond s r data poisoned) := by
  unfold respond
  try conv => arg 2; zeta
  refine Keeps.ofMk ?_ rfl rfl rfl rfl rfl rfl rfl rfl (fun h => h) rfl rfl (Nat.le_refl _)
  exact Keeps.refl _

theorem eccCorrected_keeps (s : State) (pc : Nat) (a : Nat) :
    Keeps s (eccCorrected s pc a) := by
  unfold eccCorrected
  try conv => arg 2; zeta
  split
  · refine Keeps.trans ?_ (pcCount_keeps ..)
    exact Keeps.refl _
  · refine Keeps.ite ?_ ?_
    · refine Keeps.trans ?_ (raiseLog_keeps ..)
      refine Keeps.trans ?_ (quarantine_keeps ..)
      refine Keeps.ofMk ?_ rfl rfl rfl rfl rfl rfl rfl rfl (fun h => h) rfl rfl (Nat.le_refl _)
      refine Keeps.trans ?_ (pcCount_keeps ..)
      exact Keeps.refl _
    · refine Keeps.ofMk ?_ rfl rfl rfl rfl rfl rfl rfl rfl (fun h => h) rfl rfl (Nat.le_refl _)
      refine Keeps.trans ?_ (pcCount_keeps ..)
      exact Keeps.refl _

theorem issueReq_keeps (s : State) (pc : Nat) (q : QReq) :
    Keeps s (issueReq s pc q) := by
  unfold issueReq
  try conv => arg 2; zeta
  refine Keeps.ite ?_ ?_
  · refine Keeps.trans ?_ (dramWrite_keeps ..)
    refine Keeps.trans ?_ (pcCount_keeps ..)
    refine Keeps.trans ?_ (pcCount_keeps ..)
    refine Keeps.trans ?_ (State.updPc_keeps ..)
    exact Keeps.refl _
  · split
    · refine Keeps.trans ?_ (respond_keeps ..)
      refine Keeps.trans ?_ (pcCount_keeps ..)
      refine Keeps.trans ?_ (pcCount_keeps ..)
      refine Keeps.trans ?_ (State.updPc_keeps ..)
      exact Keeps.refl _
    · refine Keeps.trans ?_ (eccCorrected_keeps ..)
      refine Keeps.trans ?_ (respond_keeps ..)
      refine Keeps.trans ?_ (pcCount_keeps ..)
      refine Keeps.trans ?_ (pcCount_keeps ..)
      refine Keeps.trans ?_ (State.updPc_keeps ..)
      exact Keeps.refl _
    · refine Keeps.trans ?_ (eccUncorrectable_keeps ..)
      refine Keeps.trans ?_ (respond_keeps ..)
      refine Keeps.trans ?_ (pcCount_keeps ..)
      refine Keeps.trans ?_ (pcCount_keeps ..)
      refine Keeps.trans ?_ (State.updPc_keeps ..)
      exact Keeps.refl _

theorem servePc_keeps (pc : Nat) (x1 : Nat) (x2 : State) :
    Keeps x2 (servePc pc x1 x2) := by
  induction x1 generalizing x2 with
  | zero =>
    rw [servePc]
    exact Keeps.refl _
  | succ k ih =>
    rw [servePc]
    split
    · refine Keeps.trans ?_ (State.updPc_keeps ..)
      exact Keeps.refl _
    · refine Keeps.trans ?_ (ih ..)
      refine Keeps.trans ?_ (issueReq_keeps ..)
      refine Keeps.trans ?_ (State.updPc_keeps ..)
      exact Keeps.refl _

theorem enqueue_keeps (s : State) (pc : Nat) (q : QReq) :
    Keeps s (enqueue s pc q) := by
  unfold enqueue
  try conv => arg 2; zeta
  refine Keeps.ofMk ?_ rfl rfl rfl rfl rfl rfl rfl rfl (fun h => h) rfl rfl (Nat.le_refl _)
  refine Keeps.trans ?_ (State.updPc_keeps ..)
  exact Keeps.refl _

theorem acceptReq_keeps (s : State) (r : DramReq) (ecc : Ecc) :
    Keeps s (acceptReq s r ecc) := by
  unfold acceptReq
  try conv => arg 2; zeta
  split
  · refine Keeps.ite ?_ ?_
    · refine Keeps.trans ?_ (respond_keeps ..)
      refine Keeps.trans ?_ (pcCount_keeps ..)
      exact Keeps.refl _
    · refine Keeps.ite ?_ ?_
      · refine Keeps.trans ?_ (State.updPc_keeps ..)
        exact Keeps.refl _
      · refine Keeps.trans ?_ (enqueue_keeps ..)
        exact Keeps.refl _
  · refine Keeps.ite ?_ ?_
    · split
      · refine Keeps.trans ?_ (eccUncorrectable_keeps ..)
        refine Keeps.trans ?_ (pcCount_keeps ..)
        exact Keeps.refl _
      · refine Keeps.trans ?_ (enqueue_keeps ..)
        refine Keeps.ite ?_ ?_
        · refine Keeps.trans ?_ (eccCorrected_keeps ..)
          refine Keeps.trans ?_ (pcCount_keeps ..)
          exact Keeps.refl _
        · refine Keeps.trans ?_ (pcCount_keeps ..)
          exact Keeps.refl _
    · refine Keeps.trans ?_ (enqueue_keeps ..)
      exact Keeps.refl _

theorem admitWaiting_keeps (pc : Nat) (x1 : List (DramReq × Ecc)) (x2 : State) :
    Keeps x2 (admitWaiting pc x1 x2) := by
  induction x1 generalizing x2 with
  | nil =>
    rw [admitWaiting]
    exact Keeps.refl _
  | cons a t ih =>
    rw [admitWaiting]
    refine Keeps.ite ?_ ?_
    · refine Keeps.trans ?_ (ih ..)
      refine Keeps.trans ?_ (acceptReq_keeps ..)
      refine Keeps.trans ?_ (State.updPc_keeps ..)
      exact Keeps.refl _
    · exact Keeps.refl _

theorem tickPc_keeps (s : State) (pc : Nat) :
    Keeps s (tickPc s pc) := by
  unfold tickPc
  try conv => arg 2; zeta
  refine Keeps.trans ?_ (admitWaiting_keeps ..)
  refine Keeps.trans ?_ (servePc_keeps ..)
  refine Keeps.trans ?_ (State.updPc_keeps ..)
  exact Keeps.refl _

theorem tickPcs_keeps (x0 : List Nat) (x1 : State) :
    Keeps x1 (tickPcs x0 x1) := by
  induction x0 generalizing x1 with
  | nil =>
    rw [tickPcs]
    exact Keeps.refl _
  | cons a t ih =>
    rw [tickPcs]
    refine Keeps.trans ?_ (ih ..)
    refine Keeps.trans ?_ (tickPc_keeps ..)
    exact Keeps.refl _

theorem dramTick_keeps (s : State) :
    Keeps s (dramTick s) := by
  unfold dramTick
  refine Keeps.trans ?_ (tickPcs_keeps ..)
  exact Keeps.refl _

theorem profileReq_keeps (s : State) (q : DramReq) :
    Keeps s (profileReq s q).2 := by
  unfold profileReq
  try conv => arg 2; zeta
  refine Keeps.itePair ?_ ?_
  · refine Keeps.snd ?_
    refine Keeps.ite ?_ ?_
    · refine Keeps.trans ?_ (rgnCount_keeps ..)
      refine Keeps.trans ?_ (chargeBuckets_keeps ..)
      exact Keeps.refl _
    · refine Keeps.trans ?_ (rgnCount_keeps ..)
      refine Keeps.trans ?_ (rgnCount_keeps ..)
      refine Keeps.trans ?_ (chargeBuckets_keeps ..)
      exact Keeps.refl _
  · refine Keeps.snd ?_
    exact Keeps.refl _

theorem execDramRequest_keeps (req : DramReq) (ecc : Ecc) (s : State) :
    ∃ u, execDramRequest req ecc s = .next u ∧ Keeps s u := by
  unfold execDramRequest
  try conv => enter [1, t, 1, 1]; zeta
  refine Keeps.iteNext ?_ ?_
  · refine Keeps.done ?_
    refine Keeps.trans ?_ (raiseLog_keeps ..)
    refine Keeps.trans ?_ (respond_keeps ..)
    exact Keeps.refl _
  · split
    · rename_i v0 v1 e2
      have hv1 : Keeps s v1 := by
        refine Keeps.pair e2 ?_
        refine Keeps.trans ?_ (profileReq_keeps ..)
        exact Keeps.refl _
      refine Keeps.iteNext ?_ ?_
      · refine Keeps.done ?_
        refine Keeps.trans ?_ (acceptReq_keeps ..)
        exact hv1
      · refine Keeps.done ?_
        refine Keeps.trans ?_ (State.updPc_keeps ..)
        exact hv1

theorem execBankIdleTimeout_keeps (pc : Nat) (bank : Nat) (s : State) :
    ∃ u, execBankIdleTimeout pc bank s = .next u ∧ Keeps s u := by
  unfold execBankIdleTimeout
  refine Keeps.done ?_
  refine Keeps.trans ?_ (State.updPc_keeps ..)
  exact Keeps.refl _

theorem execRefreshDue_keeps (pc : Nat) (bank : Nat) (s : State) :
    ∃ u, execRefreshDue pc bank s = .next u ∧ Keeps s u := by
  unfold execRefreshDue
  refine Keeps.done ?_
  refine Keeps.trans ?_ (pcCount_keeps ..)
  refine Keeps.trans ?_ (State.updPc_keeps ..)
  exact Keeps.refl _

theorem execPatrolRead_keeps (pc : Nat) (ecc : Ecc) (s : State) :
    ∃ u, execPatrolRead pc ecc s = .next u ∧ Keeps s u := by
  unfold execPatrolRead
  try conv => enter [1, t, 1, 1]; zeta
  split
  · refine Keeps.done ?_
    refine Keeps.trans ?_ (pcCount_keeps ..)
    refine Keeps.trans ?_ (State.updPc_keeps ..)
    exact Keeps.refl _
  · refine Keeps.done ?_
    refine Keeps.trans ?_ (eccCorrected_keeps ..)
    refine Keeps.trans ?_ (pcCount_keeps ..)
    refine Keeps.trans ?_ (State.updPc_keeps ..)
    exact Keeps.refl _
  · split
    · refine Keeps.done ?_
      refine Keeps.trans ?_ (eccUncorrectable_keeps ..)
      refine Keeps.trans ?_ (pcCount_keeps ..)
      refine Keeps.trans ?_ (State.updPc_keeps ..)
      exact Keeps.refl _
    · refine Keeps.done ?_
      refine Keeps.trans ?_ (quarantine_keeps ..)
      refine Keeps.trans ?_ (eccUncorrectable_keeps ..)
      refine Keeps.trans ?_ (pcCount_keeps ..)
      refine Keeps.trans ?_ (State.updPc_keeps ..)
      exact Keeps.refl _

theorem countHot_keeps (x0 : List Nat) (x1 : State) :
    Keeps x1 (countHot x0 x1) := by
  induction x0 generalizing x1 with
  | nil =>
    rw [countHot]
    exact Keeps.refl _
  | cons a t ih =>
    rw [countHot]
    refine Keeps.trans ?_ (ih ..)
    refine Keeps.trans ?_ (pcCount_keeps ..)
    exact Keeps.refl _

theorem execImbalanceWindow_keeps (s : State) :
    ∃ u, execImbalanceWindow s = .next u ∧ Keeps s u := by
  unfold execImbalanceWindow
  try conv => enter [1, t, 1, 1]; zeta
  refine Keeps.iteNext ?_ ?_
  · refine Keeps.done ?_
    refine Keeps.trans ?_ (raiseEpoch_keeps ..)
    refine Keeps.ofMk ?_ rfl rfl rfl rfl rfl rfl rfl rfl (fun h => h) rfl rfl (Nat.le_refl _)
    refine Keeps.trans ?_ (countHot_keeps ..)
    exact Keeps.refl _
  · refine Keeps.done ?_
    refine Keeps.ofMk ?_ rfl rfl rfl rfl rfl rfl rfl rfl (fun h => h) rfl rfl (Nat.le_refl _)
    refine Keeps.trans ?_ (countHot_keeps ..)
    exact Keeps.refl _

theorem refillBuckets_keeps (s : State) :
    Keeps s (refillBuckets s) := by
  unfold refillBuckets
  refine Keeps.ofMk ?_ rfl rfl rfl rfl rfl rfl rfl rfl (fun h => h) rfl rfl (Nat.le_refl _)
  exact Keeps.refl _

/-! ### Machine/Semaphores.lean -/

theorem semReset_keeps (s : State) (b : Nat) (n : Nat) :
    Keeps s (semReset s b n) := by
  unfold semReset
  refine Keeps.trans ?_ (State.updBlock_keeps ..)
  exact Keeps.refl _

theorem execSemaphoreReset_keeps (block : Nat) (sem : Nat) (s : State) :
    ∃ u, execSemaphoreReset block sem s = .next u ∧ Keeps s u := by
  unfold execSemaphoreReset
  refine Keeps.done ?_
  refine Keeps.trans ?_ (semReset_keeps ..)
  exact Keeps.refl _

theorem inherit_keeps (s : State) (b : Nat) (n : Nat) (c : Nat) :
    Keeps s (inherit s b n c) := by
  unfold inherit
  try conv => arg 2; zeta
  split
  · exact Keeps.refl _
  · refine Keeps.ite ?_ ?_
    · refine Keeps.trans ?_ (rgnCount_keeps ..)
      refine Keeps.trans ?_ (State.updCtx_keeps ..)
      exact Keeps.refl _
    · exact Keeps.refl _

theorem semWait_keeps (s : State) (b : Nat) (n : Nat) (c : Nat) (t : Nat) :
    Keeps s (semWait s b n c t) := by
  unfold semWait
  try conv => arg 2; zeta
  refine Keeps.ite ?_ ?_
  · refine Keeps.trans ?_ (State.updCell_keeps ..)
    exact Keeps.refl _
  · refine Keeps.ite ?_ ?_
    · refine Keeps.trans ?_ (State.updBlock_keeps ..)
      refine Keeps.trans ?_ (inherit_keeps ..)
      exact Keeps.refl _
    · refine Keeps.trans ?_ (inherit_keeps ..)
      exact Keeps.refl _

theorem endInherit_keeps (s : State) (b : Nat) (n : Nat) :
    Keeps s (endInherit s b n) := by
  unfold endInherit
  split
  · exact Keeps.refl _
  · refine Keeps.trans ?_ (State.updCtx_keeps ..)
    exact Keeps.refl _

theorem semRelease_keeps (s : State) (b : Nat) (n : Nat) :
    Keeps s (semRelease s b n) := by
  unfold semRelease
  try conv => arg 2; zeta
  refine Keeps.ite ?_ ?_
  · exact Keeps.refl _
  · refine Keeps.trans ?_ (endInherit_keeps ..)
    refine Keeps.foldl (fun y0 _ => ?_) ?_ _
    · refine Keeps.trans ?_ (State.updCell_keeps ..)
      exact Keeps.refl _
    · refine Keeps.trans ?_ (State.updBlock_keeps ..)
      exact Keeps.refl _

theorem semSignal_keeps (s : State) (b : Nat) (n : Nat) (k : Nat) :
    Keeps s (semSignal s b n k) := by
  unfold semSignal
  try conv => arg 2; zeta
  refine Keeps.trans ?_ (semRelease_keeps ..)
  refine Keeps.ite ?_ ?_
  · refine Keeps.trans ?_ (raiseLog_keeps ..)
    refine Keeps.trans ?_ (State.updBlock_keeps ..)
    exact Keeps.refl _
  · refine Keeps.trans ?_ (State.updBlock_keeps ..)
    exact Keeps.refl _

theorem execSemaphoreSignal_keeps (block : Nat) (sem : Nat) (n : Nat) (s : State) :
    ∃ u, execSemaphoreSignal block sem n s = .next u ∧ Keeps s u := by
  unfold execSemaphoreSignal
  refine Keeps.done ?_
  refine Keeps.trans ?_ (semSignal_keeps ..)
  exact Keeps.refl _

theorem execSemaphoreWait_keeps (block : Nat) (sem : Nat) (cell : Nat) (t : Nat) (s : State) :
    ∃ u, execSemaphoreWait block sem cell t s = .next u ∧ Keeps s u := by
  unfold execSemaphoreWait
  refine Keeps.done ?_
  refine Keeps.trans ?_ (semWait_keeps ..)
  exact Keeps.refl _

theorem execWaitRetry_keeps (block : Nat) (sem : Nat) (cell : Nat) (t : Nat) (s : State) :
    ∃ u, execWaitRetry block sem cell t s = .next u ∧ Keeps s u := by
  unfold execWaitRetry
  refine Keeps.done ?_
  refine Keeps.trans ?_ (semWait_keeps ..)
  exact Keeps.refl _

/-! ### Machine/Mapping.lean -/

theorem exportSearch_keeps (s : State) (x : Ctx) (pf : Nat × Nat) :
    Keeps s (exportSearch s x pf) := by
  unfold exportSearch
  try conv => arg 2; zeta
  split
  · exact Keeps.refl _
  · refine Keeps.trans ?_ (State.updFrame_keeps ..)
    exact Keeps.refl _

theorem exportOuts_keeps (s : State) (x : Ctx) (pf : Nat × Nat) :
    Keeps s (exportOuts s x pf) := by
  unfold exportOuts
  try conv => arg 2; zeta
  refine Keeps.ite ?_ ?_
  · refine Keeps.trans ?_ (State.updFrame_keeps ..)
    refine Keeps.trans ?_ (State.updFrame_keeps ..)
    exact Keeps.refl _
  · refine Keeps.trans ?_ (State.updFrame_keeps ..)
    exact Keeps.refl _

theorem countSkipped_keeps (s : State) (x : Ctx) (pf : Nat × Nat) :
    Keeps s (countSkipped s x pf) := by
  unfold countSkipped
  try conv => arg 2; zeta
  refine Keeps.trans ?_ (qntCount_keeps ..)
  exact Keeps.refl _

theorem commitPictures_keeps (x : Ctx) (x1 : List (Nat × Nat)) (x2 : State) :
    Keeps x2 (commitPictures x x1 x2) := by
  induction x1 generalizing x x2 with
  | nil =>
    rw [commitPictures]
    exact Keeps.refl _
  | cons a t ih =>
    rw [commitPictures]
    try conv => arg 2; zeta
    refine Keeps.trans ?_ (ih ..)
    refine Keeps.ite ?_ ?_
    · refine Keeps.trans ?_ (ledgerWrite_keeps ..)
      refine Keeps.trans ?_ (State.updFrame_keeps ..)
      refine Keeps.ite ?_ ?_
      · refine Keeps.trans ?_ (exportSearch_keeps ..)
        exact Keeps.refl _
      · refine Keeps.trans ?_ (exportOuts_keeps ..)
        exact Keeps.refl _
    · refine Keeps.ite ?_ ?_
      · refine Keeps.trans ?_ (ledgerWrite_keeps ..)
        refine Keeps.trans ?_ (State.updFrame_keeps ..)
        refine Keeps.trans ?_ (exportSearch_keeps ..)
        refine Keeps.trans ?_ (countSkipped_keeps ..)
        exact Keeps.refl _
      · refine Keeps.trans ?_ (discardFrame_keeps ..)
        refine Keeps.trans ?_ (countSkipped_keeps ..)
        exact Keeps.refl _

theorem ctxSettle_keeps (s : State) (cx : Nat) :
    Keeps s (ctxSettle s cx) := by
  unfold ctxSettle
  try conv => arg 2; zeta
  split
  · exact Keeps.refl _
  · refine Keeps.ite ?_ ?_
    · refine Keeps.trans ?_ (batchEnd_keeps ..)
      refine Keeps.trans ?_ (rgnCount_keeps ..)
      refine Keeps.trans ?_ (setInv_keeps ..)
      refine Keeps.trans ?_ (dropCtx_keeps ..)
      refine Keeps.trans ?_ (commitPictures_keeps ..)
      exact Keeps.refl _
    · exact Keeps.refl _

theorem handoffReset_keeps (s : State) (x : Ctx) (q : Stripe) :
    Keeps s (handoffReset s x q) := by
  unfold handoffReset
  try conv => arg 2; zeta
  refine Keeps.foldl (fun y0 _ => ?_) ?_ _
  · refine Keeps.trans ?_ (semReset_keeps ..)
    refine Keeps.trans ?_ (semReset_keeps ..)
    exact Keeps.refl _
  · exact Keeps.refl _

theorem claimRecord_keeps (s : State) (cx : Nat) (b : Nat) (v : Nat) (x : Ctx) :
    Keeps s (claimRecord s cx b v x) := by
  unfold claimRecord
  try conv => arg 2; zeta
  refine Keeps.trans ?_ (handoffReset_keeps ..)
  refine Keeps.trans ?_ (semReset_keeps ..)
  refine Keeps.trans ?_ (mapCount_keeps ..)
  refine Keeps.trans ?_ (mapCount_keeps ..)
  refine Keeps.trans ?_ (State.updCtx_keeps ..)
  exact Keeps.refl _

theorem noteTail_keeps (s : State) (cx : Nat) (v : Nat) :
    Keeps s (noteTail s cx v) := by
  unfold noteTail
  try conv => arg 2; zeta
  refine Keeps.ite ?_ ?_
  · refine Keeps.trans ?_ (State.updCtx_keeps ..)
    exact Keeps.refl _
  · exact Keeps.refl _

theorem countSpills_keeps (s : State) (x : Ctx) :
    Keeps s (countSpills s x) := by
  unfold countSpills
  try conv => arg 2; zeta
  refine Keeps.trans ?_ (mapCount_keeps ..)
  exact Keeps.refl _

theorem markEntries_keeps (cx : Nat) (x1 : List Claim) (x2 : State) :
    Keeps x2 (markEntries cx x1 x2) := by
  induction x1 generalizing x2 with
  | nil =>
    rw [markEntries]
    exact Keeps.refl _
  | cons a t ih =>
    rw [markEntries]
    try conv => arg 2; zeta
    refine Keeps.trans ?_ (ih ..)
    refine Keeps.ite ?_ ?_
    · exact Keeps.refl _
    · refine Keeps.trans ?_ (noteTail_keeps ..)
      split
      · refine Keeps.trans ?_ (State.updCtx_keeps ..)
        exact Keeps.refl _
      · refine Keeps.trans ?_ (ledgerWrite_keeps ..)
        refine Keeps.trans ?_ (State.updFrame_keeps ..)
        refine Keeps.trans ?_ (State.updCtx_keeps ..)
        exact Keeps.refl _

theorem claimLimit_keeps (s : State) (cx : Nat) (v : Nat) (x : Ctx) :
    Keeps s (claimLimit s cx v x) := by
  unfold claimLimit
  refine Keeps.ite ?_ ?_
  · refine Keeps.trans ?_ (raiseLogOf_keeps ..)
    refine Keeps.trans ?_ (State.updCtx_keeps ..)
    exact Keeps.refl _
  · exact Keeps.refl _

theorem claimNext_keeps (s : State) (cx : Nat) (b : Nat) (x : Ctx) :
    Keeps s (claimNext s cx b x) := by
  unfold claimNext
  try conv => arg 2; zeta
  refine Keeps.ite ?_ ?_
  · refine Keeps.trans ?_ (claimLimit_keeps ..)
    refine Keeps.trans ?_ (State.updCtx_keeps ..)
    exact Keeps.refl _
  · refine Keeps.trans ?_ (claimRecord_keeps ..)
    refine Keeps.trans ?_ (claimLimit_keeps ..)
    refine Keeps.trans ?_ (State.updCtx_keeps ..)
    exact Keeps.refl _

theorem tileCommitted_keeps (s : State) (m : CellCmd) (b : Nat) :
    Keeps s (tileCommitted s m b) := by
  unfold tileCommitted
  refine Keeps.trans ?_ (State.updCtx_keeps ..)
  exact Keeps.refl _

theorem releaseBelow_keeps (s : State) (cx : Nat) (q : Stripe) :
    Keeps s (releaseBelow s cx q) := by
  unfold releaseBelow
  try conv => arg 2; zeta
  refine Keeps.ite ?_ ?_
  · exact Keeps.refl _
  · split
    · refine Keeps.trans ?_ (State.updCtx_keeps ..)
      exact Keeps.refl _
    · refine Keeps.ite ?_ ?_
      · refine Keeps.trans ?_ (semSignal_keeps ..)
        refine Keeps.trans ?_ (chargeSignal_keeps ..)
        refine Keeps.trans ?_ (State.updCtx_keeps ..)
        exact Keeps.refl _
      · refine Keeps.trans ?_ (State.updCtx_keeps ..)
        exact Keeps.refl _

theorem spillSettle_keeps (s : State) (cx : Nat) :
    Keeps s (spillSettle s cx) := by
  unfold spillSettle
  try conv => arg 2; zeta
  refine Keeps.ite ?_ ?_
  · exact Keeps.refl _
  · refine Keeps.trans ?_ (State.updCtx_keeps ..)
    refine Keeps.trans ?_ (releaseAll_keeps ..)
    exact Keeps.refl _

theorem signalHandoffs_keeps (cx : Nat) (q : Stripe) (x2 : List ((Nat × Nat) × Nat)) (x3 : State) :
    Keeps x3 (signalHandoffs cx q x2 x3) := by
  induction x2 generalizing x3 with
  | nil =>
    rw [signalHandoffs]
    exact Keeps.refl _
  | cons a t ih =>
    rw [signalHandoffs]
    refine Keeps.trans ?_ (ih ..)
    refine Keeps.trans ?_ (State.updCtx_keeps ..)
    refine Keeps.trans ?_ (semSignal_keeps ..)
    refine Keeps.ite ?_ ?_
    · refine Keeps.trans ?_ (chargeSignal_keeps ..)
      refine Keeps.trans ?_ (semSignal_keeps ..)
      refine Keeps.ite ?_ ?_
      · refine Keeps.trans ?_ (chargeSignal_keeps ..)
        exact Keeps.refl _
      · exact Keeps.refl _
    · refine Keeps.trans ?_ (semSignal_keeps ..)
      refine Keeps.ite ?_ ?_
      · refine Keeps.trans ?_ (chargeSignal_keeps ..)
        exact Keeps.refl _
      · exact Keeps.refl _

theorem signalHalo_keeps (s : State) (cx : Nat) (q : Stripe) :
    Keeps s (signalHalo s cx q) := by
  unfold signalHalo
  try conv => arg 2; zeta
  refine Keeps.ite ?_ ?_
  · refine Keeps.trans ?_ (semSignal_keeps ..)
    refine Keeps.trans ?_ (State.updCtx_keeps ..)
    exact Keeps.refl _
  · exact Keeps.refl _

theorem entryProgress_keeps (s : State) (cx : Nat) (v : Nat) :
    Keeps s (entryProgress s cx v) := by
  unfold entryProgress
  try conv => arg 2; zeta
  split
  · exact Keeps.refl _
  · split
    · refine Keeps.trans ?_ (ctxSettle_keeps ..)
      exact Keeps.refl _
    · refine Keeps.trans ?_ (ctxSettle_keeps ..)
      refine Keeps.trans ?_ (spillSettle_keeps ..)
      refine Keeps.trans ?_ (markEntries_keeps ..)
      refine Keeps.trans ?_ (signalHandoffs_keeps ..)
      refine Keeps.trans ?_ (releaseBelow_keeps ..)
      refine Keeps.trans ?_ (signalHalo_keeps ..)
      exact Keeps.refl _

/-! ### Machine/Sram.lean -/

theorem sramWrite_keeps (s : State) (a : Nat) (d : Bytes) : Keeps s (sramWrite s a d) :=
  Keeps.sramMem s _ (cellWriteBytes_wf _ _ _ _)

theorem stageBody_keeps (r : Nat) (x1 : Nat) (x2 : Bytes) (x3 : State) :
    Keeps x3 (stageBody r x1 x2 x3) := by
  induction x1 generalizing x2 x3 with
  | zero =>
    rw [stageBody]
    exact Keeps.refl _
  | succ k ih =>
    rw [stageBody]
    refine Keeps.ite ?_ ?_
    · exact Keeps.refl _
    · refine Keeps.trans ?_ (ih ..)
      refine Keeps.trans ?_ (sramWrite_keeps ..)
      exact Keeps.refl _

theorem busWrite_keeps (s : State) (a : Nat) (d : Bytes) :
    Keeps s (busWrite s a d) := by
  unfold busWrite
  refine Keeps.ite ?_ ?_
  · refine Keeps.trans ?_ (dramWrite_keeps ..)
    exact Keeps.refl _
  · refine Keeps.trans ?_ (sramWrite_keeps ..)
    exact Keeps.refl _

theorem rangesWrite_keeps (x0 : List Range) (x1 : Bytes) (x2 : State) :
    Keeps x2 (rangesWrite x0 x1 x2) := by
  induction x0 generalizing x1 x2 with
  | nil =>
    rw [rangesWrite]
    exact Keeps.refl _
  | cons a t ih =>
    rw [rangesWrite]
    refine Keeps.trans ?_ (ih ..)
    refine Keeps.trans ?_ (busWrite_keeps ..)
    exact Keeps.refl _

theorem rangesFree_keeps (l : List Range) (s : State) :
    Keeps s (rangesFree l s) := by
  unfold rangesFree
  try conv => arg 2; zeta
  refine Keeps.trans ?_ (rangesWrite_keeps ..)
  refine Keeps.ofMk ?_ rfl rfl rfl rfl rfl rfl rfl rfl (fun h => h) rfl rfl (Nat.le_add_right ..)
  exact Keeps.refl _

theorem sramZero_keeps (s : State) (a n : Nat) : Keeps s (sramZero s a n) :=
  Keeps.sramMem s _ (cellClear_wf _ _ _ _)

theorem blockZero_keeps (s : State) (b : Nat) :
    Keeps s (blockZero s b) := by
  unfold blockZero
  refine Keeps.foldl (fun y0 _ => ?_) ?_ _
  · refine Keeps.trans ?_ (sramZero_keeps ..)
    exact Keeps.refl _
  · refine Keeps.trans ?_ (sramZero_keeps ..)
    exact Keeps.refl _

theorem regionZero_keeps (s : State) (r : Nat) :
    Keeps s (regionZero s r) := by
  unfold regionZero
  refine Keeps.foldl (fun y0 _ => ?_) ?_ _
  · refine Keeps.trans ?_ (blockZero_keeps ..)
    exact Keeps.refl _
  · refine Keeps.trans ?_ (sramZero_keeps ..)
    exact Keeps.refl _

theorem writeTile_keeps (s : State) (m : CellCmd) :
    Keeps s (writeTile s m) := by
  unfold writeTile
  try conv => arg 2; zeta
  split
  · refine Keeps.trans ?_ (rangesFree_keeps ..)
    exact Keeps.refl _
  · split
    · refine Keeps.trans ?_ (rangesFree_keeps ..)
      exact Keeps.refl _
    · refine Keeps.ite ?_ ?_
      · refine Keeps.trans ?_ (rangesFree_keeps ..)
        exact Keeps.refl _
      · refine Keeps.trans ?_ (rangesWrite_keeps ..)
        exact Keeps.refl _

theorem shadowFill_keeps (s : State) (r : Nat) (d : Bytes) :
    Keeps s (shadowFill s r d) := by
  unfold shadowFill
  refine Keeps.trans ?_ (sramWrite_keeps ..)
  exact Keeps.refl _

theorem cmdStores_keeps (s : State) (m : CellCmd) :
    Keeps s (cmdStores s m) := by
  unfold cmdStores
  refine Keeps.ite ?_ ?_
  · refine Keeps.trans ?_ (rangesWrite_keeps ..)
    exact Keeps.refl _
  · refine Keeps.ite ?_ ?_
    · refine Keeps.trans ?_ (writeTile_keeps ..)
      exact Keeps.refl _
    · refine Keeps.trans ?_ (rangesFree_keeps ..)
      exact Keeps.refl _

theorem planesEnd_keeps (s : State) (c : Nat) (m : CellCmd) :
    Keeps s (planesEnd s c m) := by
  unfold planesEnd
  split
  · refine Keeps.trans ?_ (State.updCell_keeps ..)
    exact Keeps.refl _
  · exact Keeps.refl _

theorem planesStart_keeps (s : State) (c : Nat) (m : CellCmd) :
    Keeps s (planesStart s c m) := by
  unfold planesStart
  split
  · exact Keeps.refl _
  · refine Keeps.trans ?_ (State.updCell_keeps ..)
    exact Keeps.refl _

/-! ### Machine/Fabric.lean -/

theorem takeToken_keeps (s : State) (c : Nat) (m : CellCmd) :
    Keeps s (takeToken s c m) := by
  unfold takeToken
  try conv => arg 2; zeta
  refine Keeps.ite ?_ ?_
  · split
    · refine Keeps.trans ?_ (State.updRegion_keeps ..)
      exact Keeps.refl _
    · refine Keeps.trans ?_ (State.updRegion_keeps ..)
      exact Keeps.refl _
  · exact Keeps.refl _

theorem spillWrite_keeps (q : Stripe) (s : State) (t : Nat) (a : Nat) :
    Keeps s (spillWrite q s t a) := by
  unfold spillWrite
  try conv => arg 2; zeta
  refine Keeps.trans ?_ (dramWrite_keeps ..)
  exact Keeps.refl _

theorem spillStore_keeps (q : Stripe) (cx : Nat) (s : State) :
    Keeps s (spillStore q cx s) := by
  unfold spillStore
  try conv => arg 2; zeta
  refine Keeps.trans ?_ (State.updCtx_keeps ..)
  refine Keeps.foldl (fun y0 _ => ?_) ?_ _
  · refine Keeps.trans ?_ (spillWrite_keeps ..)
    exact Keeps.refl _
  · exact Keeps.refl _

theorem spillTake_keeps (p : Plan) (cx : Nat) (l : List Nat) (s t : State) (h : spillTake p cx l s = some t) : Keeps s t := by
  induction l generalizing s with
  | nil =>
    cases h
    exact Keeps.refl _
  | cons a l ih =>
    rw [spillTake] at h
    split at h
    · cases h
    · split at h
      · cases h
      · rename_i e
        exact (Keeps.pair e (bpmAlloc_keeps ..)).trans ((State.updCtx_keeps ..).trans (ih _ h))

theorem execSpillWaveStart_keeps (ctx : Nat) (picture : Nat) (s : State) :
    ∃ u, execSpillWaveStart ctx picture s = .next u ∧ Keeps s u := by
  unfold execSpillWaveStart
  try conv => enter [1, t, 1, 1]; zeta
  split
  · refine Keeps.done ?_
    exact Keeps.refl _
  · split
    · refine Keeps.done ?_
      exact Keeps.refl _
    · refine Keeps.iteNext ?_ ?_
      · split
        · refine Keeps.done ?_
          exact Keeps.refl _
        · rename_i v0 e1
          have hv0 : Keeps s v0 := by
            refine Keeps.trans ?_ (spillTake_keeps _ _ _ _ _ e1)
            refine Keeps.trans ?_ (handoffReset_keeps ..)
            refine Keeps.trans ?_ (spillStore_keeps ..)
            exact Keeps.refl _
          refine Keeps.done ?_
          refine Keeps.trans ?_ (State.updCtx_keeps ..)
          exact hv0
      · refine Keeps.done ?_
        exact Keeps.refl _

theorem countIssue_keeps (s : State) (c : Nat) (m : CellCmd) :
    Keeps s (countIssue s c m) := by
  unfold countIssue
  try conv => arg 2; zeta
  split
  · exact Keeps.refl _
  · refine Keeps.ite ?_ ?_
    · exact Keeps.refl _
    · refine Keeps.trans ?_ (State.updRegion_keeps ..)
      refine Keeps.ite ?_ ?_
      · refine Keeps.trans ?_ (mapCount_keeps ..)
        refine Keeps.ite ?_ ?_
        · refine Keeps.trans ?_ (rgnCount_keeps ..)
          exact Keeps.refl _
        · refine Keeps.ite ?_ ?_
          · refine Keeps.trans ?_ (rgnCount_keeps ..)
            exact Keeps.refl _
          · exact Keeps.refl _
      · refine Keeps.ite ?_ ?_
        · refine Keeps.trans ?_ (rgnCount_keeps ..)
          exact Keeps.refl _
        · refine Keeps.ite ?_ ?_
          · refine Keeps.trans ?_ (rgnCount_keeps ..)
            exact Keeps.refl _
          · exact Keeps.refl _

theorem queuePut_keeps (s : State) (c : Nat) (m : CellCmd) :
    Keeps s (queuePut s c m) := by
  unfold queuePut
  try conv => arg 2; zeta
  refine Keeps.foldl (fun y0 _ => ?_) ?_ _
  · refine Keeps.trans ?_ (semWait_keeps ..)
    exact Keeps.refl _
  · refine Keeps.trans ?_ (State.updBlock_keeps ..)
    refine Keeps.trans ?_ (State.updCell_keeps ..)
    exact Keeps.refl _

theorem updSweep_keeps (s : State) (cx : Nat) (entry : Nat) (b : Nat) (f : Sweep → Sweep) :
    Keeps s (updSweep s cx entry b f) := by
  unfold updSweep
  refine Keeps.trans ?_ (State.updCtx_keeps ..)
  exact Keeps.refl _

theorem passSkipped_keeps (cx : Nat) (b : Nat) (x2 : Nat) (x3 : State) :
    Keeps x3 (passSkipped cx b x2 x3) := by
  induction x2 generalizing x3 with
  | zero =>
    rw [passSkipped]
    exact Keeps.refl _
  | succ k ih =>
    rw [passSkipped]
    try conv => arg 2; zeta
    split
    · exact Keeps.refl _
    · refine Keeps.ite ?_ ?_
      · refine Keeps.trans ?_ (ih ..)
        refine Keeps.trans ?_ (entryProgress_keeps ..)
        refine Keeps.trans ?_ (updSweep_keeps ..)
        refine Keeps.trans ?_ (mapCount_keeps ..)
        exact Keeps.refl _
      · exact Keeps.refl _

theorem noteStalls_keeps (cx : Nat) (b : Nat) (x2 : List Claim) (x3 : State) :
    Keeps x3 (noteStalls cx b x2 x3) := by
  induction x2 generalizing x3 with
  | nil =>
    rw [noteStalls]
    exact Keeps.refl _
  | cons a t ih =>
    rw [noteStalls]
    refine Keeps.trans ?_ (ih ..)
    refine Keeps.ite ?_ ?_
    · refine Keeps.trans ?_ (mapCount_keeps ..)
      refine Keeps.trans ?_ (State.updCtx_keeps ..)
      exact Keeps.refl _
    · exact Keeps.refl _

theorem sliceEnd_keeps (s : State) (cx : Nat) :
    Keeps s (sliceEnd s cx) := by
  unfold sliceEnd
  try conv => arg 2; zeta
  refine Keeps.ite ?_ ?_
  · refine Keeps.foldl (fun y0 _ => ?_) ?_ _
    · refine Keeps.foldl (fun y1 _ => ?_) ?_ _
      · refine Keeps.ite ?_ ?_
        · refine Keeps.foldl (fun y2 _ => ?_) ?_ _
          · refine Keeps.trans ?_ (inherit_keeps ..)
            exact Keeps.refl _
          · exact Keeps.refl _
        · exact Keeps.refl _
      · exact Keeps.refl _
    · refine Keeps.trans ?_ (State.updCtx_keeps ..)
      exact Keeps.refl _
  · exact Keeps.refl _

theorem writeNext_keeps (s : State) (cx : Nat) (c : Nat) (m : CellCmd) :
    Keeps s (writeNext s cx c m) := by
  unfold writeNext
  try conv => arg 2; zeta
  split
  · refine Keeps.trans ?_ (passSkipped_keeps ..)
    refine Keeps.trans ?_ (noteStalls_keeps ..)
    exact Keeps.refl _
  · split
    · refine Keeps.ite ?_ ?_
      · refine Keeps.trans ?_ (queuePut_keeps ..)
        refine Keeps.trans ?_ (passSkipped_keeps ..)
        refine Keeps.trans ?_ (noteStalls_keeps ..)
        exact Keeps.refl _
      · refine Keeps.trans ?_ (passSkipped_keeps ..)
        refine Keeps.trans ?_ (noteStalls_keeps ..)
        exact Keeps.refl _
    · refine Keeps.ite ?_ ?_
      · refine Keeps.trans ?_ (queuePut_keeps ..)
        refine Keeps.trans ?_ (updSweep_keeps ..)
        refine Keeps.ite ?_ ?_
        · refine Keeps.trans ?_ (mapCount_keeps ..)
          refine Keeps.ite ?_ ?_
          · refine Keeps.trans ?_ (sliceEnd_keeps ..)
            refine Keeps.trans ?_ (passSkipped_keeps ..)
            refine Keeps.trans ?_ (noteStalls_keeps ..)
            exact Keeps.refl _
          · refine Keeps.trans ?_ (passSkipped_keeps ..)
            refine Keeps.trans ?_ (noteStalls_keeps ..)
            exact Keeps.refl _
        · refine Keeps.ite ?_ ?_
          · refine Keeps.trans ?_ (sliceEnd_keeps ..)
            refine Keeps.trans ?_ (passSkipped_keeps ..)
            refine Keeps.trans ?_ (noteStalls_keeps ..)
            exact Keeps.refl _
          · refine Keeps.trans ?_ (passSkipped_keeps ..)
            refine Keeps.trans ?_ (noteStalls_keeps ..)
            exact Keeps.refl _
      · refine Keeps.ite ?_ ?_
        · refine Keeps.trans ?_ (queuePut_keeps ..)
          refine Keeps.trans ?_ (passSkipped_keeps ..)
          refine Keeps.trans ?_ (noteStalls_keeps ..)
          exact Keeps.refl _
        · refine Keeps.trans ?_ (passSkipped_keeps ..)
          refine Keeps.trans ?_ (noteStalls_keeps ..)
          exact Keeps.refl _

theorem queueWrite_keeps (s : State) (c : Nat) (m : CellCmd) :
    Keeps s (queueWrite s c m) := by
  unfold queueWrite
  try conv => arg 2; zeta
  split
  · exact Keeps.refl _
  · refine Keeps.ite ?_ ?_
    · refine Keeps.ite ?_ ?_
      · refine Keeps.ite ?_ ?_
        · refine Keeps.trans ?_ (queuePut_keeps ..)
          exact Keeps.refl _
        · exact Keeps.refl _
      · refine Keeps.ite ?_ ?_
        · exact Keeps.refl _
        · refine Keeps.ite ?_ ?_
          · refine Keeps.trans ?_ (writeNext_keeps ..)
            exact Keeps.refl _
          · refine Keeps.trans ?_ (queuePut_keeps ..)
            exact Keeps.refl _
    · exact Keeps.refl _

theorem endRunning_keeps (s : State) (c : Nat) (u : Nat) (q : QCmd) :
    Keeps s (endRunning s c u q) := by
  unfold endRunning
  try conv => arg 2; zeta
  refine Keeps.ite ?_ ?_
  · refine Keeps.trans ?_ (State.updRegion_keeps ..)
    refine Keeps.trans ?_ (State.updCell_keeps ..)
    exact Keeps.refl _
  · refine Keeps.trans ?_ (State.updCell_keeps ..)
    exact Keeps.refl _

theorem abortCmd_keeps (s : State) (c : Nat) (u : Nat) (q : QCmd) :
    Keeps s (abortCmd s c u q) := by
  unfold abortCmd
  refine Keeps.trans ?_ (rangesFree_keeps ..)
  refine Keeps.trans ?_ (endRunning_keeps ..)
  exact Keeps.refl _

theorem execCommandWrite_keeps (cell : Nat) (cmd : CellCmd) (s : State) :
    ∃ u, execCommandWrite cell cmd s = .next u ∧ Keeps s u := by
  unfold execCommandWrite
  refine Keeps.done ?_
  refine Keeps.trans ?_ (queueWrite_keeps ..)
  exact Keeps.refl _

theorem execWeightPrefetch_keeps (ctx : Nat) (layer : Nat) (s : State) :
    ∃ u, execWeightPrefetch ctx layer s = .next u ∧ Keeps s u := by
  unfold execWeightPrefetch
  try conv => enter [1, t, 1, 1]; zeta
  split
  · refine Keeps.done ?_
    exact Keeps.refl _
  · refine Keeps.iteNext ?_ ?_
    · refine Keeps.done ?_
      exact Keeps.refl _
    · refine Keeps.done ?_
      refine Keeps.trans ?_ (State.updRegion_keeps ..)
      refine Keeps.trans ?_ (shadowFill_keeps ..)
      refine Keeps.trans ?_ (mapCount_keeps ..)
      exact Keeps.refl _

theorem startCmd_keeps (s : State) (c : Nat) (q : QCmd) :
    Keeps s (startCmd s c q) := by
  unfold startCmd
  try conv => arg 2; zeta
  refine Keeps.trans ?_ (countIssue_keeps ..)
  refine Keeps.ite ?_ ?_
  · refine Keeps.trans ?_ (planesStart_keeps ..)
    refine Keeps.trans ?_ (State.updCell_keeps ..)
    refine Keeps.trans ?_ (takeToken_keeps ..)
    refine Keeps.ite ?_ ?_
    · refine Keeps.trans ?_ (rgnCount_keeps ..)
      refine Keeps.foldl (fun y0 _ => ?_) ?_ _
      · refine Keeps.trans ?_ (rgnCount_keeps ..)
        exact Keeps.refl _
      · exact Keeps.refl _
    · refine Keeps.foldl (fun y1 _ => ?_) ?_ _
      · refine Keeps.trans ?_ (rgnCount_keeps ..)
        exact Keeps.refl _
      · exact Keeps.refl _
  · refine Keeps.trans ?_ (State.updCell_keeps ..)
    refine Keeps.trans ?_ (takeToken_keeps ..)
    refine Keeps.ite ?_ ?_
    · refine Keeps.trans ?_ (rgnCount_keeps ..)
      refine Keeps.foldl (fun y2 _ => ?_) ?_ _
      · refine Keeps.trans ?_ (rgnCount_keeps ..)
        exact Keeps.refl _
      · exact Keeps.refl _
    · refine Keeps.foldl (fun y3 _ => ?_) ?_ _
      · refine Keeps.trans ?_ (rgnCount_keeps ..)
        exact Keeps.refl _
      · exact Keeps.refl _

theorem finishCmd_keeps (s : State) (c : Nat) (m : CellCmd) :
    Keeps s (finishCmd s c m) := by
  unfold finishCmd
  try conv => arg 2; zeta
  refine Keeps.ite ?_ ?_
  · refine Keeps.trans ?_ (entryProgress_keeps ..)
    refine Keeps.trans ?_ (tileCommitted_keeps ..)
    refine Keeps.trans ?_ (cmdStores_keeps ..)
    refine Keeps.trans ?_ (commitTile_keeps ..)
    refine Keeps.ite ?_ ?_
    · refine Keeps.trans ?_ (planesEnd_keeps ..)
      exact Keeps.refl _
    · exact Keeps.refl _
  · refine Keeps.trans ?_ (ctxSettle_keeps ..)
    refine Keeps.trans ?_ (cmdStores_keeps ..)
    refine Keeps.ite ?_ ?_
    · refine Keeps.trans ?_ (planesEnd_keeps ..)
      exact Keeps.refl _
    · exact Keeps.refl _

theorem execCommandComplete_keeps (cell : Nat) (unit : Nat) (s : State) :
    ∃ u, execCommandComplete cell unit s = .next u ∧ Keeps s u := by
  unfold execCommandComplete
  split
  · refine Keeps.done ?_
    exact Keeps.refl _
  · refine Keeps.done ?_
    refine Keeps.trans ?_ (finishCmd_keeps ..)
    refine Keeps.trans ?_ (endRunning_keeps ..)
    exact Keeps.refl _

theorem execStripeClaim_keeps (ctx : Nat) (block : Nat) (s : State) :
    ∃ u, execStripeClaim ctx block s = .next u ∧ Keeps s u := by
  unfold execStripeClaim
  try conv => enter [1, t, 1, 1]; zeta
  split
  · refine Keeps.done ?_
    exact Keeps.refl _
  · refine Keeps.iteNext ?_ ?_
    · refine Keeps.iteNext ?_ ?_
      · refine Keeps.done ?_
        refine Keeps.trans ?_ (noteHold_keeps ..)
        exact Keeps.refl _
      · refine Keeps.done ?_
        refine Keeps.trans ?_ (entryProgress_keeps ..)
        refine Keeps.trans ?_ (claimNext_keeps ..)
        refine Keeps.trans ?_ (beginCtx_keeps ..)
        refine Keeps.ite ?_ ?_
        · exact Keeps.refl _
        · refine Keeps.trans ?_ (countSpills_keeps ..)
          exact Keeps.refl _
    · refine Keeps.done ?_
      exact Keeps.refl _

theorem execArrayCreditRefill_keeps (region : Nat) (issuing : List Nat) (s : State) :
    ∃ u, execArrayCreditRefill region issuing s = .next u ∧ Keeps s u := by
  unfold execArrayCreditRefill
  refine Keeps.iteNext ?_ ?_
  · refine Keeps.done ?_
    exact Keeps.refl _
  · refine Keeps.done ?_
    refine Keeps.trans ?_ (State.updRegion_keeps ..)
    exact Keeps.refl _

/-! ### Machine/Adaptation.lean -/

theorem adpCount_keeps (s : State) (slot : Nat) (k : Nat) (n : Nat) :
    Keeps s (adpCount s slot k n) := by
  unfold adpCount
  refine Keeps.trans ?_ (State.updStream_keeps ..)
  exact Keeps.refl _

theorem writeMasters_keeps (slot : Nat) (gen : Nat) (s : State) (ms : List Nat) :
    Keeps s (writeMasters slot gen s ms) := by
  unfold writeMasters
  try conv => arg 2; zeta
  refine Keeps.foldl (fun y0 _ => ?_) ?_ _
  · refine Keeps.trans ?_ (storeWrite_keeps ..)
    exact Keeps.refl _
  · exact Keeps.refl _

theorem headOpen_keeps (s : State) (slot : Nat) :
    Keeps s (headOpen s slot) := by
  unfold headOpen
  try conv => arg 2; zeta
  refine Keeps.trans ?_ (recSet_keeps ..)
  exact Keeps.refl _

theorem adpGather_keeps (s : State) (fid : Nat) :
    Keeps s (adpGather s fid) := by
  unfold adpGather
  try conv => arg 2; zeta
  refine Keeps.ite ?_ ?_
  · refine Keeps.ite ?_ ?_
    · refine Keeps.trans ?_ (headOpen_keeps ..)
      refine Keeps.trans ?_ (State.updStream_keeps ..)
      exact Keeps.refl _
    · refine Keeps.trans ?_ (passOver_keeps ..)
      exact Keeps.refl _
  · exact Keeps.refl _

theorem execTrackPicture_keeps (slot : Nat) (s : State) :
    ∃ u, execTrackPicture slot s = .next u ∧ Keeps s u := by
  unfold execTrackPicture
  split
  · rename_i v0 e1
    have hv0 : Keeps s v0 := by
      refine Keeps.pair e1 ?_
      refine Keeps.trans ?_ (trackNext_keeps ..)
      exact Keeps.refl _
    refine Keeps.done ?_
    exact hv0
  · rename_i v2 v3 e4
    have hv3 : Keeps s v3 := by
      refine Keeps.pair e4 ?_
      refine Keeps.trans ?_ (trackNext_keeps ..)
      exact Keeps.refl _
    refine Keeps.done ?_
    refine Keeps.trans ?_ (adpGather_keeps ..)
    exact hv3

theorem cbExpect_keeps (s : State) (slot : Nat) (u : CbPending) :
    Keeps s (cbExpect s slot u) := by
  unfold cbExpect
  try conv => arg 2; zeta
  refine Keeps.trans ?_ (recSet_keeps ..)
  refine Keeps.trans ?_ (State.updStream_keeps ..)
  exact Keeps.refl _

theorem stepCtxEnd_keeps (s : State) (slot : Nat) :
    Keeps s (stepCtxEnd s slot) := by
  unfold stepCtxEnd
  refine Keeps.foldl (fun y0 _ => ?_) ?_ _
  · refine Keeps.trans ?_ (dropCtx_keeps ..)
    exact Keeps.refl _
  · exact Keeps.refl _

theorem headEnd_keeps (s : State) (slot : Nat) (rest : List Nat) (fs : List (Nat × Bytes)) (bad : Bool) :
    Keeps s (headEnd s slot rest fs bad) := by
  unfold headEnd
  try conv => arg 2; zeta
  refine Keeps.trans ?_ (recSet_keeps ..)
  exact Keeps.refl _

theorem stepCommit_keeps (s : State) (slot : Nat) (a : AdpStep) :
    Keeps s (stepCommit s slot a) := by
  unfold stepCommit
  try conv => arg 2; zeta
  refine Keeps.trans ?_ (sweepSlot_keeps ..)
  refine Keeps.ite ?_ ?_
  · refine Keeps.trans ?_ (raiseLogOf_keeps ..)
    refine Keeps.trans ?_ (adpCount_keeps ..)
    refine Keeps.trans ?_ (headEnd_keeps ..)
    refine Keeps.trans ?_ (adpCount_keeps ..)
    refine Keeps.trans ?_ (adpCount_keeps ..)
    refine Keeps.trans ?_ (adpCount_keeps ..)
    refine Keeps.trans ?_ (State.updStream_keeps ..)
    refine Keeps.trans ?_ (stepCtxEnd_keeps ..)
    exact Keeps.refl _
  · refine Keeps.trans ?_ (adpCount_keeps ..)
    refine Keeps.trans ?_ (headEnd_keeps ..)
    refine Keeps.trans ?_ (writeMasters_keeps ..)
    refine Keeps.trans ?_ (cbExpect_keeps ..)
    refine Keeps.trans ?_ (adpCount_keeps ..)
    refine Keeps.trans ?_ (adpCount_keeps ..)
    refine Keeps.trans ?_ (adpCount_keeps ..)
    refine Keeps.trans ?_ (State.updStream_keeps ..)
    refine Keeps.trans ?_ (stepCtxEnd_keeps ..)
    exact Keeps.refl _

theorem execAdapterStepCommit_keeps (slot : Nat) (s : State) :
    ∃ u, execAdapterStepCommit slot s = .next u ∧ Keeps s u := by
  unfold execAdapterStepCommit
  split
  · refine Keeps.done ?_
    refine Keeps.trans ?_ (stepCtxEnd_keeps ..)
    exact Keeps.refl _
  · refine Keeps.iteNext ?_ ?_
    · refine Keeps.done ?_
      exact Keeps.refl _
    · refine Keeps.iteNext ?_ ?_
      · refine Keeps.done ?_
        exact Keeps.refl _
      · refine Keeps.done ?_
        refine Keeps.trans ?_ (stepCommit_keeps ..)
        exact Keeps.refl _

theorem stepStart_keeps (s : State) (slot : Nat) :
    Keeps s (stepStart s slot) := by
  unfold stepStart
  try conv => arg 2; zeta
  split
  · exact Keeps.refl _
  · refine Keeps.ite ?_ ?_
    · exact Keeps.refl _
    · split
      · exact Keeps.refl _
      · refine Keeps.trans ?_ (State.updStream_keeps ..)
        refine Keeps.trans ?_ (placeCtx_keeps ..)
        refine Keeps.ofMk ?_ rfl rfl rfl rfl rfl rfl rfl rfl (fun h => h) rfl rfl (Nat.le_refl _)
        refine Keeps.trans ?_ (storeReads_keeps ..)
        exact Keeps.refl _

theorem execAdapterStepStart_keeps (slot : Nat) (s : State) :
    ∃ u, execAdapterStepStart slot s = .next u ∧ Keeps s u := by
  unfold execAdapterStepStart
  refine Keeps.done ?_
  refine Keeps.trans ?_ (stepStart_keeps ..)
  exact Keeps.refl _

end Sys2Proof.Machine
end

