-- ==== Sys2Proof/Laws/KeepsPower.lean ====
section
/-! SUPPORT. What each operation of these files of Machine/ leaves alone, as `Keeps` names it: Power, Clock, AonRegs, ImageCheck, Keys, Startup, Flash, Tune, Moult. -/

set_option Elab.async false

set_option linter.unusedVariables false

namespace Sys2Proof.Machine

/-! ### Machine/Power.lean -/

theorem State.updInput_keeps (s : State) (i : Nat) (f : InputPin → InputPin) :
    Keeps s (State.updInput s i f) := by
  unfold State.updInput
  try conv => arg 2; zeta
  refine Keeps.ofMk ?_ rfl rfl rfl rfl rfl rfl rfl rfl (fun h => h) rfl rfl (Nat.le_refl _)
  exact Keeps.refl _

theorem chatterOne_keeps (s : State) (i : Nat) (n : Nat) :
    Keeps s (chatterOne s i n) := by
  unfold chatterOne
  try conv => arg 2; zeta
  refine Keeps.ite ?_ ?_
  · refine Keeps.trans ?_ (raiseAlarm_keeps ..)
    refine Keeps.trans ?_ (State.updInput_keeps ..)
    exact Keeps.refl _
  · refine Keeps.trans ?_ (State.updInput_keeps ..)
    exact Keeps.refl _

theorem sampleRegion_keeps (s : State) (r : Nat) (v : Nat) :
    Keeps s (sampleRegion s r v) := by
  unfold sampleRegion
  try conv => arg 2; zeta
  refine Keeps.trans ?_ (State.updRegion_keeps ..)
  exact Keeps.refl _

theorem sampleRegions_keeps (x0 : List (Nat × Nat)) (x1 : State) :
    Keeps x1 (sampleRegions x0 x1) := by
  induction x0 generalizing x1 with
  | nil =>
    rw [sampleRegions]
    exact Keeps.refl _
  | cons a t ih =>
    rw [sampleRegions]
    refine Keeps.trans ?_ (ih ..)
    refine Keeps.trans ?_ (sampleRegion_keeps ..)
    exact Keeps.refl _

theorem grantRegion_keeps (s : State) (r : Nat) :
    Keeps s (grantRegion s r) := by
  unfold grantRegion
  try conv => arg 2; zeta
  refine Keeps.ite ?_ ?_
  · exact Keeps.refl _
  · refine Keeps.trans ?_ (State.updRegion_keeps ..)
    refine Keeps.ite ?_ ?_
    · refine Keeps.trans ?_ (pacCount_keeps ..)
      exact Keeps.refl _
    · exact Keeps.refl _

theorem grantAll_keeps (x0 : List Nat) (x1 : State) :
    Keeps x1 (grantAll x0 x1) := by
  induction x0 generalizing x1 with
  | nil =>
    rw [grantAll]
    exact Keeps.refl _
  | cons a t ih =>
    rw [grantAll]
    refine Keeps.trans ?_ (ih ..)
    refine Keeps.trans ?_ (grantRegion_keeps ..)
    exact Keeps.refl _

theorem regulatePart_keeps (s : State) (p : Nat) :
    Keeps s (regulatePart s p) := by
  unfold regulatePart
  try conv => arg 2; zeta
  refine Keeps.ofMk ?_ rfl rfl rfl rfl rfl rfl rfl rfl (fun h => h) rfl rfl (Nat.le_refl _)
  exact Keeps.refl _

theorem execRegulatorUpdate_keeps (s : State) :
    ∃ u, execRegulatorUpdate s = .next u ∧ Keeps s u := by
  unfold execRegulatorUpdate
  try conv => enter [1, t, 1, 1]; zeta
  refine Keeps.iteNext ?_ ?_
  · refine Keeps.done ?_
    exact Keeps.refl _
  · refine Keeps.done ?_
    refine Keeps.ofMk ?_ rfl rfl rfl rfl rfl rfl rfl rfl (fun h => h) rfl rfl (Nat.le_refl _)
    refine Keeps.foldl (fun y0 _ => ?_) ?_ _
    · refine Keeps.trans ?_ (regulatePart_keeps ..)
      exact Keeps.refl _
    · exact Keeps.refl _

theorem wakeHeld_keeps (x0 : List Nat) (x1 : State) :
    Keeps x1 (wakeHeld x0 x1) := by
  induction x0 generalizing x1 with
  | nil =>
    rw [wakeHeld]
    exact Keeps.refl _
  | cons a t ih =>
    rw [wakeHeld]
    refine Keeps.trans ?_ (ih ..)
    refine Keeps.ite ?_ ?_
    · refine Keeps.trans ?_ (wakeStart_keeps ..)
      exact Keeps.refl _
    · exact Keeps.refl _

theorem holdWrite_keeps (s : State) (port : Nat) (value : Word) :
    Keeps s (holdWrite s port value) := by
  unfold holdWrite
  try conv => arg 2; zeta
  refine Keeps.ite ?_ ?_
  · refine Keeps.trans ?_ (State.updPort_keeps ..)
    exact Keeps.refl _
  · refine Keeps.trans ?_ (wakeHeld_keeps ..)
    refine Keeps.trans ?_ (State.updPort_keeps ..)
    exact Keeps.refl _

theorem lowerStart_keeps (s : State) (r : Nat) (vq : Nat) :
    Keeps s (lowerStart s r vq) := by
  unfold lowerStart
  try conv => arg 2; zeta
  refine Keeps.ite ?_ ?_
  · refine Keeps.trans ?_ (regionFence_keeps ..)
    exact Keeps.refl _
  · refine Keeps.trans ?_ (pacCount_keeps ..)
    refine Keeps.trans ?_ (State.updRegion_keeps ..)
    exact Keeps.refl _

theorem forceLower_keeps (s : State) (r : Nat) (vq : Nat) :
    Keeps s (forceLower s r vq) := by
  unfold forceLower
  try conv => arg 2; zeta
  refine Keeps.ite ?_ ?_
  · exact Keeps.refl _
  · refine Keeps.ite ?_ ?_
    · refine Keeps.ite ?_ ?_
      · refine Keeps.trans ?_ (State.updRegion_keeps ..)
        exact Keeps.refl _
      · exact Keeps.refl _
    · refine Keeps.ite ?_ ?_
      · exact Keeps.refl _
      · split
        · refine Keeps.ite ?_ ?_
          · refine Keeps.trans ?_ (lowerStart_keeps ..)
            refine Keeps.trans ?_ (State.updRegion_keeps ..)
            exact Keeps.refl _
          · refine Keeps.trans ?_ (State.updRegion_keeps ..)
            exact Keeps.refl _
        · refine Keeps.ite ?_ ?_
          · refine Keeps.ite ?_ ?_
            · refine Keeps.trans ?_ (lowerStart_keeps ..)
              refine Keeps.trans ?_ (State.updRegion_keeps ..)
              exact Keeps.refl _
            · refine Keeps.trans ?_ (State.updRegion_keeps ..)
              exact Keeps.refl _
          · refine Keeps.ite ?_ ?_
            · refine Keeps.trans ?_ (lowerStart_keeps ..)
              refine Keeps.trans ?_ (State.updRegion_keeps ..)
              exact Keeps.refl _
            · refine Keeps.trans ?_ (State.updRegion_keeps ..)
              exact Keeps.refl _

theorem lowerOverdrawn_keeps (x0 : List Nat) (x1 : State) :
    Keeps x1 (lowerOverdrawn x0 x1) := by
  induction x0 generalizing x1 with
  | nil =>
    rw [lowerOverdrawn]
    exact Keeps.refl _
  | cons a t ih =>
    rw [lowerOverdrawn]
    try conv => arg 2; zeta
    refine Keeps.trans ?_ (ih ..)
    refine Keeps.ite ?_ ?_
    · refine Keeps.ite ?_ ?_
      · refine Keeps.trans ?_ (forceLower_keeps ..)
        refine Keeps.trans ?_ (pacCount_keeps ..)
        refine Keeps.trans ?_ (State.updRegion_keeps ..)
        exact Keeps.refl _
      · refine Keeps.trans ?_ (pacCount_keeps ..)
        refine Keeps.trans ?_ (State.updRegion_keeps ..)
        exact Keeps.refl _
    · exact Keeps.refl _

theorem execPowerSample_keeps (r : RailSample) (s : State) :
    ∃ u, execPowerSample r s = .next u ∧ Keeps s u := by
  unfold execPowerSample
  try conv => enter [1, t, 1, 1]; zeta
  refine Keeps.iteNext ?_ ?_
  · refine Keeps.done ?_
    exact Keeps.refl _
  · split
    · rename_i v0 v1 e2
      have hv1 : Keeps s v1 := by
        refine Keeps.pair e2 ?_
        refine Keeps.trans ?_ (freeBits_keeps ..)
        refine Keeps.trans ?_ (sampleRegions_keeps ..)
        exact Keeps.refl _
      refine Keeps.done ?_
      refine Keeps.trans ?_ (lowerOverdrawn_keeps ..)
      refine Keeps.ofMk ?_ rfl rfl rfl rfl rfl rfl rfl rfl (fun h => h) rfl rfl (Nat.le_refl _)
      exact hv1

theorem inputFall_keeps (s : State) (i : Nat) :
    Keeps s (inputFall s i) := by
  unfold inputFall
  refine Keeps.trans ?_ (State.updInput_keeps ..)
  exact Keeps.refl _

theorem wakeDeferred_keeps (x0 : List Nat) (x1 : State) :
    Keeps x1 (wakeDeferred x0 x1) := by
  induction x0 generalizing x1 with
  | nil =>
    rw [wakeDeferred]
    exact Keeps.refl _
  | cons a t ih =>
    rw [wakeDeferred]
    refine Keeps.trans ?_ (ih ..)
    refine Keeps.ite ?_ ?_
    · refine Keeps.trans ?_ (wakeStart_keeps ..)
      refine Keeps.trans ?_ (State.updRegion_keeps ..)
      exact Keeps.refl _
    · refine Keeps.trans ?_ (State.updRegion_keeps ..)
      exact Keeps.refl _

theorem pwrbrkFall_keeps (s : State) :
    Keeps s (pwrbrkFall s) := by
  unfold pwrbrkFall
  try conv => arg 2; zeta
  refine Keeps.trans ?_ (wakeDeferred_keeps ..)
  refine Keeps.ofMk ?_ rfl rfl rfl rfl rfl rfl rfl rfl (fun h => h) rfl rfl (Nat.le_refl _)
  refine Keeps.trans ?_ (inputFall_keeps ..)
  exact Keeps.refl _

theorem execPwrbrkRelease_keeps (s : State) :
    ∃ u, execPwrbrkRelease s = .next u ∧ Keeps s u := by
  unfold execPwrbrkRelease
  refine Keeps.iteNext ?_ ?_
  · refine Keeps.done ?_
    refine Keeps.trans ?_ (pwrbrkFall_keeps ..)
    exact Keeps.refl _
  · refine Keeps.done ?_
    exact Keeps.refl _

theorem wakeZero_keeps (s : State) (r : Nat) :
    Keeps s (wakeZero s r) := by
  unfold wakeZero
  refine Keeps.trans ?_ (regionZero_keeps ..)
  refine Keeps.foldl (fun y0 _ => ?_) ?_ _
  · refine Keeps.trans ?_ (blockFlush_keeps ..)
    exact Keeps.refl _
  · exact Keeps.refl _

theorem wakeFinish_keeps (s : State) (r : Nat) :
    Keeps s (wakeFinish s r) := by
  unfold wakeFinish
  try conv => arg 2; zeta
  refine Keeps.trans ?_ (State.updRegion_keeps ..)
  refine Keeps.trans ?_ (wakeZero_keeps ..)
  exact Keeps.refl _

theorem execWakeComplete_keeps (region : Nat) (s : State) :
    ∃ u, execWakeComplete region s = .next u ∧ Keeps s u := by
  unfold execWakeComplete
  try conv => enter [1, t, 1, 1]; zeta
  refine Keeps.iteNext ?_ ?_
  · refine Keeps.done ?_
    refine Keeps.trans ?_ (wakeFinish_keeps ..)
    exact Keeps.refl _
  · refine Keeps.done ?_
    exact Keeps.refl _

theorem execInputStuck_keeps (input : Nat) (s : State) :
    ∃ u, execInputStuck input s = .next u ∧ Keeps s u := by
  unfold execInputStuck
  try conv => enter [1, t, 1, 1]; zeta
  refine Keeps.iteNext ?_ ?_
  · refine Keeps.done ?_
    refine Keeps.trans ?_ (raiseAlarm_keeps ..)
    refine Keeps.trans ?_ (State.updInput_keeps ..)
    exact Keeps.refl _
  · refine Keeps.done ?_
    exact Keeps.refl _

theorem forceAll_keeps (vq : Nat) (x1 : List Nat) (x2 : State) :
    Keeps x2 (forceAll vq x1 x2) := by
  induction x1 generalizing x2 with
  | nil =>
    rw [forceAll]
    exact Keeps.refl _
  | cons a t ih =>
    rw [forceAll]
    refine Keeps.trans ?_ (ih ..)
    refine Keeps.trans ?_ (forceLower_keeps ..)
    exact Keeps.refl _

theorem inputRise_keeps (s : State) (i : Nat) :
    Keeps s (inputRise s i) := by
  unfold inputRise
  refine Keeps.trans ?_ (State.updInput_keeps ..)
  exact Keeps.refl _

theorem execThermInAssert_keeps (s : State) :
    ∃ u, execThermInAssert s = .next u ∧ Keeps s u := by
  unfold execThermInAssert
  refine Keeps.done ?_
  refine Keeps.trans ?_ (forceAll_keeps ..)
  refine Keeps.trans ?_ (inputRise_keeps ..)
  exact Keeps.refl _

theorem execPgoodTimeout_keeps (region : Nat) (s : State) :
    ∃ u, execPgoodTimeout region s = .next u ∧ Keeps s u := by
  unfold execPgoodTimeout
  try conv => enter [1, t, 1, 1]; zeta
  split
  · refine Keeps.done ?_
    exact Keeps.refl _
  · refine Keeps.iteNext ?_ ?_
    · refine Keeps.done ?_
      exact Keeps.refl _
    · refine Keeps.iteNext ?_ ?_
      · refine Keeps.done ?_
        refine Keeps.trans ?_ (raiseLog_keeps ..)
        refine Keeps.trans ?_ (State.updRegion_keeps ..)
        exact Keeps.refl _
      · refine Keeps.done ?_
        refine Keeps.trans ?_ (regionFence_keeps ..)
        exact Keeps.refl _

theorem execParkHoldWrite_keeps (port : Nat) (value : Word) (s : State) :
    ∃ u, execParkHoldWrite port value s = .next u ∧ Keeps s u := by
  unfold execParkHoldWrite
  refine Keeps.iteNext ?_ ?_
  · refine Keeps.done ?_
    refine Keeps.trans ?_ (holdWrite_keeps ..)
    exact Keeps.refl _
  · refine Keeps.done ?_
    exact Keeps.refl _

theorem execPwrbrkAssert_keeps (s : State) :
    ∃ u, execPwrbrkAssert s = .next u ∧ Keeps s u := by
  unfold execPwrbrkAssert
  try conv => enter [1, t, 1, 1]; zeta
  refine Keeps.done ?_
  refine Keeps.trans ?_ (forceAll_keeps ..)
  refine Keeps.ofMk ?_ rfl rfl rfl rfl rfl rfl rfl rfl (fun h => h) rfl rfl (Nat.le_refl _)
  refine Keeps.trans ?_ (inputRise_keeps ..)
  exact Keeps.refl _

theorem thermFall_keeps (s : State) :
    Keeps s (thermFall s) := by
  unfold thermFall
  try conv => arg 2; zeta
  refine Keeps.ofMk ?_ rfl rfl rfl rfl rfl rfl rfl rfl (fun h => h) rfl rfl (Nat.le_refl _)
  refine Keeps.trans ?_ (inputFall_keeps ..)
  exact Keeps.refl _

theorem execThermInRelease_keeps (s : State) :
    ∃ u, execThermInRelease s = .next u ∧ Keeps s u := by
  unfold execThermInRelease
  refine Keeps.iteNext ?_ ?_
  · refine Keeps.done ?_
    refine Keeps.trans ?_ (thermFall_keeps ..)
    exact Keeps.refl _
  · refine Keeps.done ?_
    exact Keeps.refl _

theorem transEnd_keeps (s : State) (r : Nat) (t : Trans) :
    Keeps s (transEnd s r t) := by
  unfold transEnd
  try conv => arg 2; zeta
  refine Keeps.ite ?_ ?_
  · refine Keeps.trans ?_ (pacCount_keeps ..)
    refine Keeps.trans ?_ (State.updRegion_keeps ..)
    exact Keeps.refl _
  · refine Keeps.trans ?_ (State.updRegion_keeps ..)
    exact Keeps.refl _

theorem raiseStart_keeps (s : State) (r : Nat) (vq : Nat) :
    Keeps s (raiseStart s r vq) := by
  unfold raiseStart
  try conv => arg 2; zeta
  refine Keeps.ite ?_ ?_
  · refine Keeps.trans ?_ (regionFence_keeps ..)
    exact Keeps.refl _
  · refine Keeps.trans ?_ (State.updRegion_keeps ..)
    exact Keeps.refl _

theorem followTarget_keeps (s : State) (r : Nat) :
    Keeps s (followTarget s r) := by
  unfold followTarget
  try conv => arg 2; zeta
  refine Keeps.ite ?_ ?_
  · exact Keeps.refl _
  · refine Keeps.ite ?_ ?_
    · refine Keeps.trans ?_ (raiseStart_keeps ..)
      exact Keeps.refl _
    · refine Keeps.trans ?_ (lowerStart_keeps ..)
      exact Keeps.refl _

theorem execVfTransitionEnd_keeps (region : Nat) (s : State) :
    ∃ u, execVfTransitionEnd region s = .next u ∧ Keeps s u := by
  unfold execVfTransitionEnd
  try conv => enter [1, t, 1, 1]; zeta
  split
  · refine Keeps.done ?_
    exact Keeps.refl _
  · refine Keeps.iteNext ?_ ?_
    · refine Keeps.done ?_
      exact Keeps.refl _
    · refine Keeps.done ?_
      refine Keeps.ite ?_ ?_
      · refine Keeps.trans ?_ (transEnd_keeps ..)
        refine Keeps.trans ?_ (State.updRegion_keeps ..)
        exact Keeps.refl _
      · refine Keeps.trans ?_ (followTarget_keeps ..)
        refine Keeps.trans ?_ (transEnd_keeps ..)
        refine Keeps.trans ?_ (State.updRegion_keeps ..)
        exact Keeps.refl _

theorem windowDiscard_keeps (s : State) (port : Nat) (region : Nat) :
    Keeps s (windowDiscard s port region) := by
  unfold windowDiscard
  refine Keeps.trans ?_ (raiseLog_keeps ..)
  refine Keeps.trans ?_ (hpCount_keeps ..)
  exact Keeps.refl _

theorem execStoppedWindowAccess_keeps (port : Nat) (fn : Nat) (region : Nat) (x3 : Nat) (x4 : Bool) (s : State) :
    ∃ u, execStoppedWindowAccess port fn region x3 x4 s = .next u ∧ Keeps s u := by
  unfold execStoppedWindowAccess
  refine Keeps.iteNext ?_ ?_
  · refine Keeps.done ?_
    exact Keeps.refl _
  · refine Keeps.done ?_
    refine Keeps.trans ?_ (windowDiscard_keeps ..)
    exact Keeps.refl _

theorem execCounterPush_keeps (region : Nat) (s : State) :
    ∃ u, execCounterPush region s = .next u ∧ Keeps s u := by
  unfold execCounterPush
  refine Keeps.iteNext ?_ ?_
  · refine Keeps.done ?_
    refine Keeps.trans ?_ (pushCounts_keeps ..)
    exact Keeps.refl _
  · refine Keeps.done ?_
    exact Keeps.refl _

theorem vfApply_keeps (s : State) (q : Nat × Nat × Nat) :
    Keeps s (vfApply s q) := by
  unfold vfApply
  try conv => arg 2; zeta
  refine Keeps.trans ?_ (followTarget_keeps ..)
  refine Keeps.trans ?_ (State.updRegion_keeps ..)
  exact Keeps.refl _

theorem execTempSensorRead_keeps (region : Nat) (tj : Int) (uncore : Int) (s : State) :
    ∃ u, execTempSensorRead region tj uncore s = .next u ∧ Keeps s u := by
  have h1 : Keeps s (s.updRegion region (fun x => { x with tj := tj })) := State.updRegion_keeps ..
  have h2 : Keeps s (if 16 * 125 ≤ tj || 16 * 125 ≤ uncore then
      { s.updRegion region (fun x => { x with tj := tj }) with
        aon := { (s.updRegion region (fun x => { x with tj := tj })).aon with thermTrip := true } }
      else s.updRegion region (fun x => { x with tj := tj })) :=
    Keeps.ite (Keeps.ofMk h1 rfl rfl rfl rfl rfl rfl rfl rfl (fun _ => rfl) rfl rfl (Nat.le_refl _)) h1
  unfold execTempSensorRead
  refine Keeps.iteNext (Keeps.done h2) (Keeps.iteNext ?_ (Keeps.iteNext (Keeps.done ?_) (Keeps.done h2)))
  · refine Keeps.done ?_
    refine Keeps.trans ?_ (forceLower_keeps ..)
    refine Keeps.trans ?_ (raiseAlarm_keeps ..)
    refine Keeps.trans ?_ (pacCount_keeps ..)
    exact h2.trans (State.updRegion_keeps ..)
  · exact h2.trans (State.updRegion_keeps ..)

theorem chatterAll_keeps (x0 : List (Nat × Nat)) (x1 : State) :
    Keeps x1 (chatterAll x0 x1) := by
  induction x0 generalizing x1 with
  | nil =>
    rw [chatterAll]
    exact Keeps.refl _
  | cons a t ih =>
    rw [chatterAll]
    refine Keeps.trans ?_ (ih ..)
    refine Keeps.trans ?_ (chatterOne_keeps ..)
    exact Keeps.refl _

theorem execChatterWindow_keeps (transitions : List Nat) (s : State) :
    ∃ u, execChatterWindow transitions s = .next u ∧ Keeps s u := by
  unfold execChatterWindow
  refine Keeps.done ?_
  refine Keeps.trans ?_ (chatterAll_keeps ..)
  exact Keeps.refl _

theorem execPgoodLow_keeps (region : Nat) (s : State) :
    ∃ u, execPgoodLow region s = .next u ∧ Keeps s u := by
  unfold execPgoodLow
  try conv => enter [1, t, 1, 1]; zeta
  refine Keeps.iteNext ?_ ?_
  · refine Keeps.done ?_
    exact Keeps.refl _
  · refine Keeps.iteNext ?_ ?_
    · refine Keeps.done ?_
      refine Keeps.trans ?_ (State.updRegion_keeps ..)
      exact Keeps.refl _
    · refine Keeps.done ?_
      refine Keeps.trans ?_ (regionFence_keeps ..)
      refine Keeps.trans ?_ (State.updRegion_keeps ..)
      exact Keeps.refl _

theorem execRegionPark_keeps (region : Nat) (s : State) :
    ∃ u, execRegionPark region s = .next u ∧ Keeps s u := by
  unfold execRegionPark
  try conv => enter [1, t, 1, 1]; zeta
  refine Keeps.iteNext ?_ ?_
  · refine Keeps.done ?_
    refine Keeps.trans ?_ (pacCount_keeps ..)
    refine Keeps.trans ?_ (State.updRegion_keeps ..)
    refine Keeps.trans ?_ (shadowDiscard_keeps ..)
    refine Keeps.trans ?_ (pushCounts_keeps ..)
    exact Keeps.refl _
  · refine Keeps.done ?_
    exact Keeps.refl _

theorem vfApplyAll_keeps (x0 : List (Nat × Nat × Nat)) (x1 : State) :
    Keeps x1 (vfApplyAll x0 x1) := by
  induction x0 generalizing x1 with
  | nil =>
    rw [vfApplyAll]
    exact Keeps.refl _
  | cons a t ih =>
    rw [vfApplyAll]
    refine Keeps.trans ?_ (ih ..)
    refine Keeps.trans ?_ (vfApply_keeps ..)
    exact Keeps.refl _

theorem execVfChoice_keeps (s : State) :
    ∃ u, execVfChoice s = .next u ∧ Keeps s u := by
  unfold execVfChoice
  try conv => enter [1, t, 1, 1]; zeta
  refine Keeps.iteNext ?_ ?_
  · refine Keeps.done ?_
    exact Keeps.refl _
  · refine Keeps.done ?_
    refine Keeps.ofMk ?_ rfl rfl rfl rfl rfl rfl rfl rfl (fun h => h) rfl rfl (Nat.le_refl _)
    refine Keeps.trans ?_ (vfApplyAll_keeps ..)
    exact Keeps.refl _

theorem execRegionWake_keeps (region : Nat) (s : State) :
    ∃ u, execRegionWake region s = .next u ∧ Keeps s u := by
  unfold execRegionWake
  refine Keeps.iteNext ?_ ?_
  · refine Keeps.done ?_
    refine Keeps.trans ?_ (wakeStart_keeps ..)
    exact Keeps.refl _
  · refine Keeps.done ?_
    exact Keeps.refl _

theorem execTokenGrant_keeps (s : State) :
    ∃ u, execTokenGrant s = .next u ∧ Keeps s u := by
  unfold execTokenGrant
  refine Keeps.iteNext ?_ ?_
  · refine Keeps.done ?_
    exact Keeps.refl _
  · refine Keeps.done ?_
    refine Keeps.trans ?_ (grantAll_keeps ..)
    exact Keeps.refl _

/-! ### Machine/Clock.lean -/

theorem tickBusy_keeps (s : State) :
    Keeps s (tickBusy s) := by
  unfold tickBusy
  refine Keeps.ofMk ?_ rfl rfl rfl rfl rfl rfl rfl rfl (fun h => h) rfl rfl (Nat.le_refl _)
  exact Keeps.refl _

theorem tickInput_keeps (s : State) (input : Nat) (ctr : Nat) :
    Keeps s (tickInput s input ctr) := by
  unfold tickInput
  try conv => arg 2; zeta
  refine Keeps.ite ?_ ?_
  · refine Keeps.ofMk ?_ rfl rfl rfl rfl rfl rfl rfl rfl (fun h => h) rfl rfl (Nat.le_refl _)
    exact Keeps.refl _
  · exact Keeps.refl _

theorem tickResidency_keeps (s : State) (r : Nat) :
    Keeps s (tickResidency s r) := by
  unfold tickResidency
  try conv => arg 2; zeta
  refine Keeps.ite ?_ ?_
  · refine Keeps.foldl (fun y0 _ => ?_) ?_ _
    · refine Keeps.trans ?_ (rgnCount_keeps ..)
      exact Keeps.refl _
    · exact Keeps.refl _
  · exact Keeps.refl _

theorem tickDispatch_keeps (s : State) (c : Nat) :
    Keeps s (tickDispatch s c) := by
  unfold tickDispatch
  try conv => arg 2; zeta
  refine Keeps.ite ?_ ?_
  · refine Keeps.trans ?_ (State.updCell_keeps ..)
    refine Keeps.trans ?_ (State.updRegion_keeps ..)
    refine Keeps.foldl (fun y0 _ => ?_) ?_ _
    · refine Keeps.trans ?_ (rgnCount_keeps ..)
      exact Keeps.refl _
    · exact Keeps.refl _
  · exact Keeps.refl _

theorem tickWaits_keeps (s : State) :
    Keeps s (tickWaits s) := by
  unfold tickWaits
  try conv => arg 2; zeta
  refine Keeps.ite ?_ ?_
  · refine Keeps.foldl (fun y1 _ => ?_) ?_ _
    · refine Keeps.trans ?_ (tickDispatch_keeps ..)
      exact Keeps.refl _
    · refine Keeps.foldl (fun y0 _ => ?_) ?_ _
      · refine Keeps.trans ?_ (tickResidency_keeps ..)
        exact Keeps.refl _
      · refine Keeps.trans ?_ (tickBusy_keeps ..)
        exact Keeps.refl _
  · refine Keeps.trans ?_ (tickBusy_keeps ..)
    exact Keeps.refl _

/-! ### Machine/AonRegs.lean -/

theorem holdWord_keeps (s : State) (acc : Acc) (bar : Nat) (off : Nat) (w : Word) :
    Keeps s (holdWord s acc bar off w) := by
  unfold holdWord
  try conv => arg 2; zeta
  split
  · refine Keeps.trans ?_ (State.updFn_keeps _ _ _ _ (fun _ h => h))
    exact Keeps.refl _
  · refine Keeps.ofMk ?_ rfl rfl rfl rfl rfl rfl rfl rfl (fun h => h) rfl rfl (Nat.le_refl _)
    exact Keeps.refl _

theorem aonRead_keeps (s : State) (acc : Acc) (bar : Nat) (off : Nat) :
    Keeps s (aonRead s acc bar off).2 := by
  unfold aonRead
  refine Keeps.itePair ?_ ?_
  · refine Keeps.snd ?_
    refine Keeps.trans ?_ (holdWord_keeps ..)
    exact Keeps.refl _
  · refine Keeps.itePair ?_ ?_
    · refine Keeps.snd ?_
      exact Keeps.refl _
    · refine Keeps.snd ?_
      exact Keeps.refl _

theorem aonReads_keeps (acc : Acc) (x1 : Nat) (x2 : Nat) (x3 : State) :
    Keeps x3 (aonReads acc x1 x2 x3).2 := by
  induction x1 generalizing x2 x3 with
  | zero =>
    rw [aonReads]
    refine Keeps.snd ?_
    exact Keeps.refl _
  | succ k ih =>
    rw [aonReads]
    split
    · rename_i v0 v1 e2
      have hv1 : Keeps x3 v1 := by
        refine Keeps.pair e2 ?_
        refine Keeps.trans ?_ (aonRead_keeps ..)
        exact Keeps.refl _
      split
      · rename_i v3 v4 e5
        have hv4 : Keeps x3 v4 := by
          refine Keeps.pair e5 ?_
          refine Keeps.trans ?_ (ih ..)
          exact hv1
        refine Keeps.snd ?_
        exact hv4

/-! ### Machine/Keys.lean -/

theorem hpaRead_keeps (s : State) (addr : Nat) (len : Nat) :
    Keeps s (hpaRead s addr len) := by
  unfold hpaRead
  refine Keeps.ite ?_ ?_
  · refine Keeps.trans ?_ (emit_keeps ..)
    exact Keeps.refl _
  · exact Keeps.refl _

theorem keyEnd_keeps (s : State) (st : Nat) (result : Nat) :
    Keeps s (keyEnd s st result) := by
  unfold keyEnd
  try conv => arg 2; zeta
  refine Keeps.trans ?_ (raiseIrq_keeps ..)
  refine Keeps.ofMk ?_ rfl rfl rfl rfl rfl rfl rfl rfl (fun h => h) rfl rfl (Nat.le_refl _)
  exact Keeps.refl _

theorem keyAbort_keeps (s : State) :
    Keeps s (keyAbort s) := by
  unfold keyAbort
  refine Keeps.ite ?_ ?_
  · refine Keeps.trans ?_ (keyEnd_keeps ..)
    exact Keeps.refl _
  · exact Keeps.refl _

theorem partHash_keeps (x0 : Nat) (x1 : Bytes) (x2 : State) :
    Keeps x2 (partHash x0 x1 x2).2 := by
  induction x0 generalizing x1 x2 with
  | zero =>
    rw [partHash]
    refine Keeps.snd ?_
    exact Keeps.refl _
  | succ k ih =>
    rw [partHash]
    split
    · rename_i v0 v1 e2
      have hv1 : Keeps x2 v1 := by
        refine Keeps.pair e2 ?_
        refine Keeps.trans ?_ (freeBits_keeps ..)
        exact Keeps.refl _
      split
      · rename_i v3 v4 e5
        have hv4 : Keeps x2 v4 := by
          refine Keeps.pair e5 ?_
          refine Keeps.trans ?_ (ih ..)
          exact hv1
        refine Keeps.snd ?_
        exact hv4

theorem hostWrites_keeps (port : Nat) (fn : Nat) (x2 : List Bytes) (x3 : Nat) (x4 : State) :
    Keeps x4 (hostWrites port fn x2 x3 x4) := by
  induction x2 generalizing x3 x4 with
  | nil =>
    rw [hostWrites]
    exact Keeps.refl _
  | cons a t ih =>
    rw [hostWrites]
    refine Keeps.trans ?_ (ih ..)
    refine Keeps.trans ?_ (emit_keeps ..)
    exact Keeps.refl _

theorem execAttGo_keeps (port : Nat) (fn : Nat) (s : State) :
    ∃ u, execAttGo port fn s = .next u ∧ Keeps s u := by
  unfold execAttGo
  try conv => enter [1, t, 1, 1]; zeta
  refine Keeps.iteNext ?_ ?_
  · refine Keeps.done ?_
    exact Keeps.refl _
  · refine Keeps.iteNext ?_ ?_
    · refine Keeps.done ?_
      refine Keeps.trans ?_ (waitAccess_keeps ..)
      exact Keeps.refl _
    · refine Keeps.iteNext ?_ ?_
      · refine Keeps.done ?_
        refine Keeps.trans ?_ (State.updFn_keeps _ _ _ _ (fun _ h => h))
        exact Keeps.refl _
      · refine Keeps.done ?_
        refine Keeps.ofMk ?_ rfl rfl rfl rfl rfl rfl rfl rfl (fun h => h) rfl rfl (Nat.le_refl _)
        refine Keeps.trans ?_ (State.updFn_keeps _ _ _ _ (fun _ h => h))
        exact Keeps.refl _

theorem execAttSignStart_keeps (s : State) :
    ∃ u, execAttSignStart s = .next u ∧ Keeps s u := by
  unfold execAttSignStart
  try conv => enter [1, t, 1, 1]; zeta
  split
  · refine Keeps.iteNext ?_ ?_
    · refine Keeps.done ?_
      exact Keeps.refl _
    · refine Keeps.done ?_
      refine Keeps.ofMk ?_ rfl rfl rfl rfl rfl rfl rfl rfl (fun h => h) rfl rfl (Nat.le_refl _)
      refine Keeps.trans ?_ (State.updFn_keeps _ _ _ _ (fun _ h => h))
      exact Keeps.refl _
  · refine Keeps.done ?_
    exact Keeps.refl _

theorem execKeyGo_keeps (s : State) :
    ∃ u, execKeyGo s = .next u ∧ Keeps s u := by
  unfold execKeyGo
  try conv => enter [1, t, 1, 1]; zeta
  refine Keeps.iteNext ?_ ?_
  · refine Keeps.done ?_
    exact Keeps.refl _
  · refine Keeps.iteNext ?_ ?_
    · refine Keeps.done ?_
      refine Keeps.trans ?_ (waitAccess_keeps ..)
      exact Keeps.refl _
    · refine Keeps.iteNext ?_ ?_
      · refine Keeps.done ?_
        exact Keeps.refl _
      · refine Keeps.done ?_
        refine Keeps.trans ?_ (hpaRead_keeps ..)
        refine Keeps.ofMk ?_ rfl rfl rfl rfl rfl rfl rfl rfl (fun h => h) rfl rfl (Nat.le_refl _)
        exact Keeps.refl _

theorem execKeyReadDone_keeps (r : HostRead) (s : State) :
    ∃ u, execKeyReadDone r s = .next u ∧ Keeps s u := by
  unfold execKeyReadDone
  try conv => enter [1, t, 1, 1]; zeta
  refine Keeps.iteNext ?_ ?_
  · refine Keeps.done ?_
    exact Keeps.refl _
  · split
    · refine Keeps.done ?_
      refine Keeps.trans ?_ (keyEnd_keeps ..)
      refine Keeps.trans ?_ (readCount_keeps ..)
      exact Keeps.refl _
    · refine Keeps.iteNext ?_ ?_
      · refine Keeps.done ?_
        refine Keeps.ofMk ?_ rfl rfl rfl rfl rfl rfl rfl rfl (fun h => h) rfl rfl (Nat.le_refl _)
        exact Keeps.refl _
      · refine Keeps.done ?_
        refine Keeps.trans ?_ (keyEnd_keeps ..)
        exact Keeps.refl _

theorem attEnd_keeps (s : State) (k : Nat) (st : Nat) (cause : Nat) :
    Keeps s (attEnd s k st cause) := by
  unfold attEnd
  try conv => arg 2; zeta
  refine Keeps.trans ?_ (raiseIrq_keeps ..)
  refine Keeps.trans ?_ (State.updFn_keeps _ _ _ _ (fun _ h => h))
  exact Keeps.refl _

theorem execAttSignDone_keeps (s : State) :
    ∃ u, execAttSignDone s = .next u ∧ Keeps s u := by
  unfold execAttSignDone
  try conv => enter [1, t, 1, 1]; zeta
  split
  · refine Keeps.done ?_
    exact Keeps.refl _
  · refine Keeps.iteNext ?_ ?_
    · refine Keeps.done ?_
      refine Keeps.trans ?_ (attEnd_keeps ..)
      refine Keeps.trans ?_ (hostWrites_keeps ..)
      refine Keeps.ofMk ?_ rfl rfl rfl rfl rfl rfl rfl rfl (fun h => h) rfl rfl (Nat.le_refl _)
      exact Keeps.refl _
    · refine Keeps.done ?_
      refine Keeps.trans ?_ (attEnd_keeps ..)
      refine Keeps.ofMk ?_ rfl rfl rfl rfl rfl rfl rfl rfl (fun h => h) rfl rfl (Nat.le_refl _)
      exact Keeps.refl _

theorem attFailAll_keeps (x0 : List Nat) (x1 : State) :
    Keeps x1 (attFailAll x0 x1) := by
  induction x0 generalizing x1 with
  | nil =>
    rw [attFailAll]
    exact Keeps.refl _
  | cons a t ih =>
    rw [attFailAll]
    refine Keeps.trans ?_ (ih ..)
    refine Keeps.ite ?_ ?_
    · refine Keeps.trans ?_ (attEnd_keeps ..)
      exact Keeps.refl _
    · exact Keeps.refl _

theorem attScuRestart_keeps (s : State) :
    Keeps s (attScuRestart s) := by
  unfold attScuRestart
  try conv => arg 2; zeta
  refine Keeps.ofMk ?_ rfl rfl rfl rfl rfl rfl rfl rfl (fun h => h) rfl rfl (Nat.le_refl _)
  refine Keeps.trans ?_ (attFailAll_keeps ..)
  exact Keeps.refl _

theorem attReset_keeps (s : State) (port : Nat) (fn : Nat) :
    Keeps s (attReset s port fn) := by
  unfold attReset
  try conv => arg 2; zeta
  refine Keeps.ite ?_ ?_
  · refine Keeps.trans ?_ (State.updFn_keeps _ _ _ _ (fun _ h => h))
    refine Keeps.ofMk ?_ rfl rfl rfl rfl rfl rfl rfl rfl (fun h => h) rfl rfl (Nat.le_refl _)
    exact Keeps.refl _
  · exact Keeps.refl _

/-! ### Machine/Startup.lean -/

theorem wakeAll_keeps (x0 : List Nat) (x1 : State) :
    Keeps x1 (wakeAll x0 x1) := by
  induction x0 generalizing x1 with
  | nil =>
    rw [wakeAll]
    exact Keeps.refl _
  | cons a t ih =>
    rw [wakeAll]
    refine Keeps.trans ?_ (ih ..)
    refine Keeps.ite ?_ ?_
    · exact Keeps.refl _
    · refine Keeps.trans ?_ (wakeFinish_keeps ..)
      exact Keeps.refl _

theorem selftestWake_keeps (s : State) (r : Nat) :
    Keeps s (selftestWake s r) := by
  unfold selftestWake
  refine Keeps.ite ?_ ?_
  · exact Keeps.refl _
  · refine Keeps.ite ?_ ?_
    · refine Keeps.trans ?_ (regionFence_keeps ..)
      exact Keeps.refl _
    · refine Keeps.trans ?_ (State.updRegion_keeps ..)
      exact Keeps.refl _

theorem selftestWakes_keeps (x0 : List Nat) (x1 : State) :
    Keeps x1 (selftestWakes x0 x1) := by
  induction x0 generalizing x1 with
  | nil =>
    rw [selftestWakes]
    exact Keeps.refl _
  | cons a t ih =>
    rw [selftestWakes]
    refine Keeps.trans ?_ (ih ..)
    refine Keeps.trans ?_ (selftestWake_keeps ..)
    exact Keeps.refl _

theorem addStreams_keeps (seq : Nat) (x1 : List Nat) (x2 : State) :
    Keeps x2 (addStreams seq x1 x2) := by
  induction x1 generalizing x2 with
  | nil =>
    rw [addStreams]
    exact Keeps.refl _
  | cons a t ih =>
    rw [addStreams]
    refine Keeps.trans ?_ (ih ..)
    refine Keeps.trans ?_ (streamAdd_keeps ..)
    exact Keeps.refl _

theorem loadImage_keeps (s : State) :
    Keeps s (loadImage s) := by
  unfold loadImage
  try conv => arg 2; zeta
  refine Keeps.trans ?_ (placeGraphs_keeps ..)
  refine Keeps.ofMk ?_ rfl rfl rfl rfl rfl rfl rfl rfl (fun h => h) rfl rfl (Nat.le_refl _)
  exact Keeps.refl _

theorem selftestBlocks_keeps (lines : List Nat) (x1 : List Nat) (x2 : State) :
    Keeps x2 (selftestBlocks lines x1 x2) := by
  induction x1 generalizing x2 with
  | nil =>
    rw [selftestBlocks]
    exact Keeps.refl _
  | cons a t ih =>
    rw [selftestBlocks]
    refine Keeps.trans ?_ (ih ..)
    refine Keeps.ite ?_ ?_
    · refine Keeps.trans ?_ (raiseAlarm_keeps ..)
      refine Keeps.trans ?_ (State.updBlock_keeps ..)
      exact Keeps.refl _
    · exact Keeps.refl _

theorem demoteAtStart_keeps (s : State) :
    Keeps s (demoteAtStart s) := by
  unfold demoteAtStart
  refine Keeps.ite ?_ ?_
  · refine Keeps.trans ?_ (demoteOne_keeps ..)
    exact Keeps.refl _
  · exact Keeps.refl _

theorem selftestRegion_keeps (s : State) (r : Nat) :
    Keeps s (selftestRegion s r) := by
  unfold selftestRegion
  try conv => arg 2; zeta
  refine Keeps.trans ?_ (raiseAlarm_keeps ..)
  refine Keeps.trans ?_ (State.updRegion_keeps ..)
  exact Keeps.refl _

theorem selftestCell_keeps (s : State) (c : Nat) :
    Keeps s (selftestCell s c) := by
  unfold selftestCell
  refine Keeps.trans ?_ (raiseAlarm_keeps ..)
  refine Keeps.trans ?_ (State.updCell_keeps ..)
  exact Keeps.refl _

theorem selftestRegions_keeps (stores : List Nat) (x1 : List Nat) (x2 : State) :
    Keeps x2 (selftestRegions stores x1 x2) := by
  induction x1 generalizing x2 with
  | nil =>
    rw [selftestRegions]
    exact Keeps.refl _
  | cons a t ih =>
    rw [selftestRegions]
    refine Keeps.trans ?_ (ih ..)
    refine Keeps.ite ?_ ?_
    · refine Keeps.trans ?_ (selftestRegion_keeps ..)
      exact Keeps.refl _
    · exact Keeps.refl _

theorem selftestCells_keeps (x0 : List Nat) (x1 : State) :
    Keeps x1 (selftestCells x0 x1) := by
  induction x0 generalizing x1 with
  | nil =>
    rw [selftestCells]
    exact Keeps.refl _
  | cons a t ih =>
    rw [selftestCells]
    refine Keeps.trans ?_ (ih ..)
    refine Keeps.ite ?_ ?_
    · refine Keeps.trans ?_ (selftestCell_keeps ..)
      exact Keeps.refl _
    · exact Keeps.refl _

/-! ### Machine/Flash.lean -/

theorem flashEnter_keeps (s : State) (st : Nat) (cause : Nat) :
    Keeps s (flashEnter s st cause) := by
  unfold flashEnter
  try conv => arg 2; zeta
  refine Keeps.trans ?_ (raiseIrq_keeps ..)
  refine Keeps.ofMk ?_ rfl rfl rfl rfl rfl rfl rfl rfl (fun h => h) rfl rfl (Nat.le_refl _)
  exact Keeps.refl _

theorem flashFail_keeps (s : State) (cause : Nat) :
    Keeps s (flashFail s cause) := by
  unfold flashFail
  refine Keeps.trans ?_ (flashEnter_keeps ..)
  exact Keeps.refl _

theorem flashScuRestart_keeps (s : State) :
    Keeps s (flashScuRestart s) := by
  unfold flashScuRestart
  refine Keeps.ite ?_ ?_
  · refine Keeps.trans ?_ (flashFail_keeps ..)
    exact Keeps.refl _
  · exact Keeps.refl _

theorem flashNext_keeps (s : State) :
    Keeps s (flashNext s) := by
  unfold flashNext
  try conv => arg 2; zeta
  split
  · exact Keeps.refl _
  · refine Keeps.ite ?_ ?_
    · refine Keeps.ofMk ?_ rfl rfl rfl rfl rfl rfl rfl rfl (fun h => h) rfl rfl (Nat.le_refl _)
      exact Keeps.refl _
    · exact Keeps.refl _

theorem execFlashHostReadDone_keeps (r : HostRead) (s : State) :
    ∃ u, execFlashHostReadDone r s = .next u ∧ Keeps s u := by
  unfold execFlashHostReadDone
  try conv => enter [1, t, 1, 1]; zeta
  refine Keeps.iteNext ?_ ?_
  · refine Keeps.done ?_
    exact Keeps.refl _
  · split
    · refine Keeps.done ?_
      refine Keeps.trans ?_ (flashFail_keeps ..)
      refine Keeps.trans ?_ (readCount_keeps ..)
      exact Keeps.refl _
    · refine Keeps.done ?_
      refine Keeps.trans ?_ (flashNext_keeps ..)
      refine Keeps.ofMk ?_ rfl rfl rfl rfl rfl rfl rfl rfl (fun h => h) rfl rfl (Nat.le_refl _)
      exact Keeps.refl _

theorem execFlashReadbackDone_keeps (s : State) :
    ∃ u, execFlashReadbackDone s = .next u ∧ Keeps s u := by
  unfold execFlashReadbackDone
  try conv => enter [1, t, 1, 1]; zeta
  split
  · refine Keeps.done ?_
    exact Keeps.refl _
  · refine Keeps.iteNext ?_ ?_
    · refine Keeps.done ?_
      exact Keeps.refl _
    · refine Keeps.iteNext ?_ ?_
      · refine Keeps.done ?_
        refine Keeps.trans ?_ (flashFail_keeps ..)
        refine Keeps.ofMk ?_ rfl rfl rfl rfl rfl rfl rfl rfl (fun h => h) rfl rfl (Nat.le_refl _)
        exact Keeps.refl _
      · refine Keeps.iteNext ?_ ?_
        · refine Keeps.done ?_
          refine Keeps.trans ?_ (flashFail_keeps ..)
          refine Keeps.ofMk ?_ rfl rfl rfl rfl rfl rfl rfl rfl (fun h => h) rfl rfl (Nat.le_refl _)
          exact Keeps.refl _
        · refine Keeps.done ?_
          refine Keeps.trans ?_ (flashEnter_keeps ..)
          refine Keeps.ofMk ?_ rfl rfl rfl rfl rfl rfl rfl rfl (fun h => h) rfl rfl (Nat.le_refl _)
          exact Keeps.refl _

theorem execFlashOpTimeout_keeps (s : State) :
    ∃ u, execFlashOpTimeout s = .next u ∧ Keeps s u := by
  unfold execFlashOpTimeout
  refine Keeps.iteNext ?_ ?_
  · refine Keeps.done ?_
    refine Keeps.trans ?_ (flashFail_keeps ..)
    exact Keeps.refl _
  · refine Keeps.done ?_
    exact Keeps.refl _

theorem flashProgram_keeps (s : State) :
    Keeps s (flashProgram s) := by
  unfold flashProgram
  try conv => arg 2; zeta
  refine Keeps.ite ?_ ?_
  · exact Keeps.refl _
  · refine Keeps.ite ?_ ?_
    · refine Keeps.trans ?_ (flashFail_keeps ..)
      exact Keeps.refl _
    · refine Keeps.ofMk ?_ rfl rfl rfl rfl rfl rfl rfl rfl (fun h => h) rfl rfl (Nat.le_refl _)
      exact Keeps.refl _

theorem execFlashProgram_keeps (s : State) :
    ∃ u, execFlashProgram s = .next u ∧ Keeps s u := by
  unfold execFlashProgram
  refine Keeps.iteNext ?_ ?_
  · refine Keeps.done ?_
    exact Keeps.refl _
  · refine Keeps.iteNext ?_ ?_
    · refine Keeps.done ?_
      refine Keeps.trans ?_ (waitAccess_keeps ..)
      exact Keeps.refl _
    · refine Keeps.done ?_
      refine Keeps.trans ?_ (flashProgram_keeps ..)
      exact Keeps.refl _

theorem flashReset_keeps (s : State) :
    Keeps s (flashReset s) := by
  unfold flashReset
  refine Keeps.ite ?_ ?_
  · refine Keeps.trans ?_ (flashFail_keeps ..)
    exact Keeps.refl _
  · exact Keeps.refl _

/-! ### Machine/Tune.lean -/

theorem retuneStream_keeps (id : Nat) (d : Option Bytes) (s : State) (i : Nat) :
    Keeps s (retuneStream id d s i) := by
  unfold retuneStream
  try conv => arg 2; zeta
  split
  · refine Keeps.trans ?_ (State.updStream_keeps ..)
    exact Keeps.refl _
  · refine Keeps.ite ?_ ?_
    · exact Keeps.refl _
    · refine Keeps.trans ?_ (State.updStream_keeps ..)
      exact Keeps.refl _

theorem retunePart_keeps (s : State) (old : Sections) (p : Nat) (id : Nat) :
    Keeps s (retunePart s old p id) := by
  unfold retunePart
  try conv => arg 2; zeta
  refine Keeps.ite ?_ ?_
  · exact Keeps.refl _
  · refine Keeps.ite ?_ ?_
    · refine Keeps.trans ?_ (raiseLogOf_keeps ..)
      refine Keeps.trans ?_ (State.updPart_keeps ..)
      refine Keeps.foldl (fun y0 _ => ?_) ?_ _
      · refine Keeps.trans ?_ (retuneStream_keeps ..)
        exact Keeps.refl _
      · exact Keeps.refl _
    · refine Keeps.trans ?_ (State.updPart_keeps ..)
      refine Keeps.foldl (fun y1 _ => ?_) ?_ _
      · refine Keeps.trans ?_ (retuneStream_keeps ..)
        exact Keeps.refl _
      · exact Keeps.refl _

theorem tuneStreams_keeps (id : Nat) (v : Int) (x2 : List Nat) (x3 : State) :
    Keeps x3 (tuneStreams id v x2 x3) := by
  induction x2 generalizing x3 with
  | nil =>
    rw [tuneStreams]
    exact Keeps.refl _
  | cons a t ih =>
    rw [tuneStreams]
    refine Keeps.trans ?_ (ih ..)
    refine Keeps.trans ?_ (State.updStream_keeps ..)
    exact Keeps.refl _

theorem tuneWriteValue_keeps (s : State) (port : Nat) (fn : Nat) (id : Nat) (v : Int) :
    Keeps s (tuneWriteValue s port fn id v) := by
  unfold tuneWriteValue
  try conv => arg 2; zeta
  split
  · exact Keeps.refl _
  · refine Keeps.ite ?_ ?_
    · refine Keeps.ofMk ?_ rfl rfl rfl rfl rfl rfl rfl rfl (fun h => h) rfl rfl (Nat.le_refl _)
      exact Keeps.refl _
    · refine Keeps.trans ?_ (tuneStreams_keeps ..)
      refine Keeps.trans ?_ (State.updPart_keeps ..)
      exact Keeps.refl _

theorem tuneCarry_keeps (s : State) (port : Nat) (fn : Nat) (c : TuneCmd) :
    Keeps s (tuneCarry s port fn c) := by
  unfold tuneCarry
  try conv => arg 2; zeta
  refine Keeps.ite ?_ ?_
  · exact Keeps.refl _
  · refine Keeps.ite ?_ ?_
    · split
      · refine Keeps.ite ?_ ?_
        · refine Keeps.trans ?_ (tuneWriteValue_keeps ..)
          exact Keeps.refl _
        · exact Keeps.refl _
      · refine Keeps.trans ?_ (State.updFn_keeps _ _ _ _ (fun _ h => h))
        refine Keeps.ite ?_ ?_
        · refine Keeps.trans ?_ (tuneWriteValue_keeps ..)
          exact Keeps.refl _
        · exact Keeps.refl _
    · refine Keeps.ite ?_ ?_
      · refine Keeps.trans ?_ (tuneWriteValue_keeps ..)
        exact Keeps.refl _
      · exact Keeps.refl _

theorem tuneFinish_keeps (s : State) (port : Nat) (fn : Nat) :
    Keeps s (tuneFinish s port fn) := by
  unfold tuneFinish
  split
  · exact Keeps.refl _
  · refine Keeps.trans ?_ (State.updFn_keeps _ _ _ _ (fun _ h => h))
    refine Keeps.trans ?_ (tuneCarry_keeps ..)
    exact Keeps.refl _

theorem execTuneComplete_keeps (port : Nat) (fn : Nat) (s : State) :
    ∃ u, execTuneComplete port fn s = .next u ∧ Keeps s u := by
  unfold execTuneComplete
  refine Keeps.iteNext ?_ ?_
  · refine Keeps.done ?_
    exact Keeps.refl _
  · refine Keeps.done ?_
    refine Keeps.trans ?_ (tuneFinish_keeps ..)
    exact Keeps.refl _

theorem retuneDevice_keeps (s : State) (old : Sections) (id : Nat) :
    Keeps s (retuneDevice s old id) := by
  unfold retuneDevice
  try conv => arg 2; zeta
  split
  · refine Keeps.ofMk ?_ rfl rfl rfl rfl rfl rfl rfl rfl (fun h => h) rfl rfl (Nat.le_refl _)
    refine Keeps.ite ?_ ?_
    · exact Keeps.refl _
    · refine Keeps.trans ?_ (raiseLog_keeps ..)
      exact Keeps.refl _
  · refine Keeps.ofMk ?_ rfl rfl rfl rfl rfl rfl rfl rfl (fun h => h) rfl rfl (Nat.le_refl _)
    exact Keeps.refl _

theorem retune_keeps (s : State) (old : Sections) :
    Keeps s (retune s old) := by
  unfold retune
  try conv => arg 2; zeta
  refine Keeps.foldl (fun y1 _ => ?_) ?_ _
  · refine Keeps.foldl (fun y2 _ => ?_) ?_ _
    · refine Keeps.trans ?_ (retunePart_keeps ..)
      exact Keeps.refl _
    · exact Keeps.refl _
  · refine Keeps.foldl (fun y0 _ => ?_) ?_ _
    · refine Keeps.trans ?_ (retuneDevice_keeps ..)
      exact Keeps.refl _
    · exact Keeps.refl _

theorem tuneBeforeCommit_keeps (s : State) (x1 : List Nat) :
    Keeps s (tuneBeforeCommit s x1) := by
  induction x1 generalizing s with
  | nil =>
    rw [tuneBeforeCommit]
    exact Keeps.refl _
  | cons a t ih =>
    rw [tuneBeforeCommit]
    refine Keeps.trans ?_ (ih ..)
    split
    · exact Keeps.refl _
    · refine Keeps.ite ?_ ?_
      · refine Keeps.trans ?_ (State.updFn_keeps _ _ _ _ (fun _ h => h))
        refine Keeps.trans ?_ (tuneCarry_keeps ..)
        exact Keeps.refl _
      · exact Keeps.refl _

theorem tuneIssue_keeps (s : State) (port : Nat) (fn : Nat) (kind : Nat) :
    Keeps s (tuneIssue s port fn kind) := by
  unfold tuneIssue
  try conv => arg 2; zeta
  refine Keeps.ite ?_ ?_
  · exact Keeps.refl _
  · refine Keeps.ite ?_ ?_
    · refine Keeps.trans ?_ (State.updFn_keeps _ _ _ _ (fun _ h => h))
      exact Keeps.refl _
    · refine Keeps.ite ?_ ?_
      · refine Keeps.trans ?_ (State.updFn_keeps _ _ _ _ (fun _ h => h))
        exact Keeps.refl _
      · refine Keeps.trans ?_ (State.updFn_keeps _ _ _ _ (fun _ h => h))
        exact Keeps.refl _

theorem execTuneWrite_keeps (port : Nat) (fn : Nat) (andRead : Bool) (s : State) :
    ∃ u, execTuneWrite port fn andRead s = .next u ∧ Keeps s u := by
  unfold execTuneWrite
  refine Keeps.iteNext ?_ ?_
  · refine Keeps.done ?_
    exact Keeps.refl _
  · refine Keeps.iteNext ?_ ?_
    · refine Keeps.done ?_
      refine Keeps.trans ?_ (waitAccess_keeps ..)
      exact Keeps.refl _
    · refine Keeps.done ?_
      refine Keeps.trans ?_ (tuneIssue_keeps ..)
      exact Keeps.refl _

theorem execTuneRead_keeps (port : Nat) (fn : Nat) (s : State) :
    ∃ u, execTuneRead port fn s = .next u ∧ Keeps s u := by
  unfold execTuneRead
  refine Keeps.iteNext ?_ ?_
  · refine Keeps.done ?_
    exact Keeps.refl _
  · refine Keeps.iteNext ?_ ?_
    · refine Keeps.done ?_
      refine Keeps.trans ?_ (waitAccess_keeps ..)
      exact Keeps.refl _
    · refine Keeps.done ?_
      refine Keeps.trans ?_ (tuneIssue_keeps ..)
      exact Keeps.refl _

/-! ### Machine/Moult.lean -/

theorem moultReject_keeps (s : State) (cause : Nat) :
    Keeps s (moultReject s cause) := by
  unfold moultReject
  try conv => arg 2; zeta
  refine Keeps.trans ?_ (raiseIrq_keeps ..)
  refine Keeps.ofMk ?_ rfl rfl rfl rfl rfl rfl rfl rfl (fun h => h) rfl rfl (Nat.le_refl _)
  exact Keeps.refl _

theorem moultCut_keeps (s : State) (cause : Nat) :
    Keeps s (moultCut s cause) := by
  unfold moultCut
  refine Keeps.ite ?_ ?_
  · refine Keeps.trans ?_ (moultReject_keeps ..)
    exact Keeps.refl _
  · exact Keeps.refl _

theorem execMoultAbort_keeps (s : State) :
    ∃ u, execMoultAbort s = .next u ∧ Keeps s u := by
  unfold execMoultAbort
  refine Keeps.iteNext ?_ ?_
  · refine Keeps.done ?_
    exact Keeps.refl _
  · refine Keeps.iteNext ?_ ?_
    · refine Keeps.done ?_
      refine Keeps.trans ?_ (waitAccess_keeps ..)
      exact Keeps.refl _
    · refine Keeps.done ?_
      refine Keeps.trans ?_ (moultCut_keeps ..)
      exact Keeps.refl _

theorem portsFollow_keeps (s : State) :
    Keeps s (portsFollow s) := by
  unfold portsFollow
  refine Keeps.ofMk ?_ rfl rfl rfl rfl rfl rfl rfl rfl (fun h => h) rfl rfl (Nat.le_refl _)
  exact Keeps.refl _

theorem execMoultVerifyEnd_keeps (s : State) :
    ∃ u, execMoultVerifyEnd s = .next u ∧ Keeps s u := by
  unfold execMoultVerifyEnd
  try conv => enter [1, t, 1, 1]; zeta
  refine Keeps.iteNext ?_ ?_
  · refine Keeps.done ?_
    exact Keeps.refl _
  · refine Keeps.iteNext ?_ ?_
    · refine Keeps.done ?_
      refine Keeps.ofMk ?_ rfl rfl rfl rfl rfl rfl rfl rfl (fun h => h) rfl rfl (Nat.le_refl _)
      exact Keeps.refl _
    · refine Keeps.done ?_
      refine Keeps.trans ?_ (moultReject_keeps ..)
      exact Keeps.refl _

theorem closeBatches_keeps (s : State) :
    Keeps s (closeBatches s) := by
  unfold closeBatches
  refine Keeps.foldl (fun y0 _ => ?_) ?_ _
  · refine Keeps.trans ?_ (batchClose_keeps ..)
    exact Keeps.refl _
  · exact Keeps.refl _

theorem lowerToMax_keeps (x0 : List Nat) (x1 : State) :
    Keeps x1 (lowerToMax x0 x1) := by
  induction x0 generalizing x1 with
  | nil =>
    rw [lowerToMax]
    exact Keeps.refl _
  | cons a t ih =>
    rw [lowerToMax]
    refine Keeps.trans ?_ (ih ..)
    refine Keeps.trans ?_ (forceLower_keeps ..)
    exact Keeps.refl _

theorem moultCommit_keeps (s : State) (new : Sections) :
    Keeps s (moultCommit s new) := by
  unfold moultCommit
  try conv => arg 2; zeta
  refine Keeps.trans ?_ (moultFinish_keeps ..)
  refine Keeps.trans ?_ (moultAdds_keeps ..)
  refine Keeps.trans ?_ (lowerToMax_keeps ..)
  refine Keeps.foldl (fun y0 _ => ?_) ?_ _
  · refine Keeps.trans ?_ (shadowDiscard_keeps ..)
    exact Keeps.refl _
  · refine Keeps.trans ?_ (portsFollow_keeps ..)
    refine Keeps.trans ?_ (retune_keeps ..)
    refine Keeps.ofMk ?_ rfl rfl rfl rfl rfl rfl rfl rfl (fun h => h) rfl rfl (Nat.le_refl _)
    refine Keeps.trans ?_ (closeBatches_keeps ..)
    refine Keeps.trans ?_ (tuneBeforeCommit_keeps ..)
    exact Keeps.refl _

theorem execMoultCheckEnd_keeps (s : State) :
    ∃ u, execMoultCheckEnd s = .next u ∧ Keeps s u := by
  unfold execMoultCheckEnd
  try conv => enter [1, t, 1, 1]; zeta
  refine Keeps.iteNext ?_ ?_
  · refine Keeps.done ?_
    exact Keeps.refl _
  · refine Keeps.iteNext ?_ ?_
    · refine Keeps.done ?_
      refine Keeps.ofMk ?_ rfl rfl rfl rfl rfl rfl rfl rfl (fun h => h) rfl rfl (Nat.le_refl _)
      exact Keeps.refl _
    · refine Keeps.done ?_
      refine Keeps.trans ?_ (moultReject_keeps ..)
      exact Keeps.refl _

theorem moultStage_keeps (s : State) (n : Sections) (at_ : Map Nat) :
    Keeps s (moultStage s n at_) := by
  unfold moultStage
  try conv => arg 2; zeta
  refine Keeps.ofMk ?_ rfl rfl rfl rfl rfl rfl rfl rfl (fun h => h) rfl rfl (Nat.le_refl _)
  refine Keeps.trans ?_ (placeGraphs_keeps ..)
  exact Keeps.refl _

theorem execMoultStageEnd_keeps (s : State) :
    ∃ u, execMoultStageEnd s = .next u ∧ Keeps s u := by
  unfold execMoultStageEnd
  split
  · refine Keeps.done ?_
    exact Keeps.refl _
  · refine Keeps.iteNext ?_ ?_
    · refine Keeps.done ?_
      exact Keeps.refl _
    · split
      · refine Keeps.done ?_
        refine Keeps.trans ?_ (moultReject_keeps ..)
        exact Keeps.refl _
      · refine Keeps.done ?_
        refine Keeps.trans ?_ (moultCommit_keeps ..)
        refine Keeps.trans ?_ (moultStage_keeps ..)
        exact Keeps.refl _

theorem moultStart_keeps (s : State) :
    Keeps s (moultStart s) := by
  unfold moultStart
  try conv => arg 2; zeta
  refine Keeps.ite ?_ ?_
  · exact Keeps.refl _
  · refine Keeps.ite ?_ ?_
    · refine Keeps.trans ?_ (moultReject_keeps ..)
      exact Keeps.refl _
    · refine Keeps.trans ?_ (hpaRead_keeps ..)
      refine Keeps.ofMk ?_ rfl rfl rfl rfl rfl rfl rfl rfl (fun h => h) rfl rfl (Nat.le_refl _)
      exact Keeps.refl _

theorem execMoultGo_keeps (andAbort : Bool) (s : State) :
    ∃ u, execMoultGo andAbort s = .next u ∧ Keeps s u := by
  unfold execMoultGo
  refine Keeps.iteNext ?_ ?_
  · refine Keeps.done ?_
    exact Keeps.refl _
  · refine Keeps.iteNext ?_ ?_
    · refine Keeps.done ?_
      refine Keeps.trans ?_ (waitAccess_keeps ..)
      exact Keeps.refl _
    · refine Keeps.done ?_
      refine Keeps.trans ?_ (moultStart_keeps ..)
      refine Keeps.ite ?_ ?_
      · refine Keeps.trans ?_ (moultCut_keeps ..)
        exact Keeps.refl _
      · exact Keeps.refl _

theorem execMoultFetchEnd_keeps (r : HostRead) (s : State) :
    ∃ u, execMoultFetchEnd r s = .next u ∧ Keeps s u := by
  unfold execMoultFetchEnd
  try conv => enter [1, t, 1, 1]; zeta
  refine Keeps.iteNext ?_ ?_
  · refine Keeps.done ?_
    exact Keeps.refl _
  · split
    · refine Keeps.done ?_
      refine Keeps.trans ?_ (moultReject_keeps ..)
      refine Keeps.trans ?_ (readCount_keeps ..)
      exact Keeps.refl _
    · refine Keeps.done ?_
      refine Keeps.ofMk ?_ rfl rfl rfl rfl rfl rfl rfl rfl (fun h => h) rfl rfl (Nat.le_refl _)
      exact Keeps.refl _

theorem execMoultSwitchTimeout_keeps (slot : Nat) (s : State) :
    ∃ u, execMoultSwitchTimeout slot s = .next u ∧ Keeps s u := by
  unfold execMoultSwitchTimeout
  refine Keeps.iteNext ?_ ?_
  · refine Keeps.done ?_
    refine Keeps.trans ?_ (switchStream_keeps ..)
    exact Keeps.refl _
  · refine Keeps.done ?_
    exact Keeps.refl _

end Sys2Proof.Machine
end

