-- ==== Sys2Proof/Laws/KeepsHost.lean ====
section
/-! SUPPORT. What each operation of these files of Machine/ leaves alone, as `Keeps` names it: Inject, HostPorts, Search, Telemetry, Registers, Controllers, Dx, Records, FabricFault, Faults. -/

set_option Elab.async false

set_option linter.unusedVariables false

namespace Sys2Proof.Machine

/-! ### Machine/Inject.lean -/

theorem State.updInj_keeps (s : State) (port fn : Nat) (g : Inj → Inj)
    (hg : ∀ x : Inj, cellsWf 0 x.bytes = true → cellsWf 0 (g x).bytes = true) : Keeps s (s.updInj port fn g) := by
  unfold State.updInj
  exact State.updFn_keeps _ _ _ _ (fun x h => hg _ h)

theorem injConsumer_keeps (s : State) (port : Nat) (fn : Nat) :
    Keeps s (injConsumer s port fn) := by
  unfold injConsumer
  try conv => arg 2; zeta
  refine Keeps.ite ?_ ?_
  · refine Keeps.trans ?_ (emit_keeps ..)
    refine Keeps.trans ?_ (State.updInj_keeps _ _ _ _ (fun _ h => h))
    exact Keeps.refl _
  · exact Keeps.refl _

theorem injAdvance_keeps (s : State) (port : Nat) (fn : Nat) (n : Nat) (wrap : Bool) :
    Keeps s (injAdvance s port fn n wrap) := by
  unfold injAdvance
  try conv => arg 2; zeta
  refine Keeps.ite ?_ ?_
  · refine Keeps.trans ?_ (injConsumer_keeps ..)
    refine Keeps.trans ?_ (State.updInj_keeps _ _ _ _ (fun _ h => h))
    exact Keeps.refl _
  · refine Keeps.trans ?_ (State.updInj_keeps _ _ _ _ (fun _ h => h))
    exact Keeps.refl _

theorem streamDiscard_keeps (s : State) (slot : Nat) (cause : Nat) :
    Keeps s (streamDiscard s slot cause) := by
  unfold streamDiscard
  refine Keeps.trans ?_ (dropOpenAu_keeps ..)
  refine Keeps.trans ?_ (purgeSlot_keeps ..)
  refine Keeps.trans ?_ (dropFrames_keeps ..)
  refine Keeps.trans ?_ (shadowDropStream_keeps ..)
  exact Keeps.refl _

theorem streamUnbind_keeps (s : State) (slot : Nat) :
    Keeps s (streamUnbind s slot) := by
  unfold streamUnbind
  refine Keeps.ite ?_ ?_
  · refine Keeps.trans ?_ (State.updStream_keeps ..)
    refine Keeps.trans ?_ (streamDiscard_keeps ..)
    exact Keeps.refl _
  · exact Keeps.refl _

theorem injRefuse_keeps (s : State) (port : Nat) (fn : Nat) :
    Keeps s (injRefuse s port fn) := by
  unfold injRefuse
  refine Keeps.trans ?_ (State.updInj_keeps _ _ _ _ (fun _ h => h))
  exact Keeps.refl _

theorem streamsGoLive_keeps (x0 : List Nat) (x1 : State) :
    Keeps x1 (streamsGoLive x0 x1) := by
  induction x0 generalizing x1 with
  | nil =>
    rw [streamsGoLive]
    exact Keeps.refl _
  | cons a t ih =>
    rw [streamsGoLive]
    refine Keeps.trans ?_ (ih ..)
    refine Keeps.ite ?_ ?_
    · exact Keeps.refl _
    · refine Keeps.trans ?_ (streamGoLive_keeps ..)
      exact Keeps.refl _

theorem execInjConsumerWrite_keeps (port : Nat) (fn : Nat) (s : State) :
    ∃ u, execInjConsumerWrite port fn s = .next u ∧ Keeps s u := by
  unfold execInjConsumerWrite
  refine Keeps.done ?_
  refine Keeps.trans ?_ (injConsumer_keeps ..)
  exact Keeps.refl _

theorem execInjEnableDone_keeps (port : Nat) (fn : Nat) (s : State) :
    ∃ u, execInjEnableDone port fn s = .next u ∧ Keeps s u := by
  unfold execInjEnableDone
  try conv => enter [1, t, 1, 1]; zeta
  refine Keeps.iteNext ?_ ?_
  · refine Keeps.done ?_
    refine Keeps.trans ?_ (streamsGoLive_keeps ..)
    refine Keeps.trans ?_ (State.updInj_keeps _ _ _ _ (fun _ h => h))
    exact Keeps.refl _
  · refine Keeps.done ?_
    exact Keeps.refl _

theorem injStop_keeps (s : State) (port fn : Nat) : Keeps s (injStop s port fn) := by
  unfold injStop
  exact (releaseAll_keeps ..).trans (State.updInj_keeps _ _ _ _ (fun _ _ => rfl))

theorem streamUnbinds_keeps (x0 : List Nat) (x1 : State) :
    Keeps x1 (streamUnbinds x0 x1) := by
  induction x0 generalizing x1 with
  | nil =>
    rw [streamUnbinds]
    exact Keeps.refl _
  | cons a t ih =>
    rw [streamUnbinds]
    refine Keeps.trans ?_ (ih ..)
    refine Keeps.trans ?_ (streamUnbind_keeps ..)
    exact Keeps.refl _

theorem injDisable_keeps (s : State) (port : Nat) (fn : Nat) :
    Keeps s (injDisable s port fn) := by
  unfold injDisable
  refine Keeps.ite ?_ ?_
  · refine Keeps.trans ?_ (injStop_keeps ..)
    refine Keeps.trans ?_ (streamUnbinds_keeps ..)
    exact Keeps.refl _
  · exact Keeps.refl _

theorem execInjDisable_keeps (port : Nat) (fn : Nat) (s : State) :
    ∃ u, execInjDisable port fn s = .next u ∧ Keeps s u := by
  unfold execInjDisable
  refine Keeps.iteNext ?_ ?_
  · refine Keeps.done ?_
    refine Keeps.trans ?_ (injDisable_keeps ..)
    exact Keeps.refl _
  · refine Keeps.done ?_
    exact Keeps.refl _

theorem injDesync_keeps (s : State) (port : Nat) (fn : Nat) :
    Keeps s (injDesync s port fn) := by
  unfold injDesync
  refine Keeps.trans ?_ (raiseLogOf_keeps ..)
  refine Keeps.trans ?_ (State.updInj_keeps _ _ _ _ (fun _ h => h))
  exact Keeps.refl _

theorem execInjHeaderTimeout_keeps (port : Nat) (fn : Nat) (s : State) :
    ∃ u, execInjHeaderTimeout port fn s = .next u ∧ Keeps s u := by
  unfold execInjHeaderTimeout
  try conv => enter [1, t, 1, 1]; zeta
  refine Keeps.iteNext ?_ ?_
  · refine Keeps.done ?_
    exact Keeps.refl _
  · refine Keeps.iteNext ?_ ?_
    · refine Keeps.done ?_
      refine Keeps.trans ?_ (State.updInj_keeps _ _ _ _ (fun _ h => h))
      exact Keeps.refl _
    · refine Keeps.done ?_
      refine Keeps.trans ?_ (injDesync_keeps ..)
      exact Keeps.refl _

theorem injEnable_keeps (s : State) (port fn : Nat) : Keeps s (injEnable s port fn) := by
  unfold injEnable
  try conv => arg 2; zeta
  have h : Keeps s (injDisable s port fn) := injDisable_keeps ..
  refine Keeps.ite (h.trans (injRefuse_keeps ..)) ?_
  split
  · split
    rename_i e
    have h2 := h.trans (Keeps.pair e (allocMany_keeps ..))
    exact Keeps.ite (h2.trans (State.updInj_keeps _ _ _ _ (fun _ _ => rfl)))
      ((h2.trans (releaseAll_keeps ..)).trans (injRefuse_keeps ..))
  · exact h.trans (injRefuse_keeps ..)

theorem execInjEnable_keeps (port : Nat) (fn : Nat) (s : State) :
    ∃ u, execInjEnable port fn s = .next u ∧ Keeps s u := by
  unfold execInjEnable
  refine Keeps.iteNext ?_ ?_
  · refine Keeps.done ?_
    refine Keeps.trans ?_ (injEnable_keeps ..)
    exact Keeps.refl _
  · refine Keeps.done ?_
    exact Keeps.refl _

theorem injDeliver_keeps (s : State) (slot : Nat) (h : Bytes) (data : Bytes) :
    Keeps s (injDeliver s slot h data) := by
  unfold injDeliver
  try conv => arg 2; zeta
  split
  · rename_i v0 v1 e2
    have hv1 : Keeps s v1 := by
      refine Keeps.pair e2 ?_
      refine Keeps.trans ?_ (police_keeps ..)
      refine Keeps.trans ?_ (dgramNew_keeps ..)
      exact Keeps.refl _
    refine Keeps.ite ?_ ?_
    · refine Keeps.trans ?_ (auDamage_keeps ..)
      exact hv1
    · refine Keeps.ite ?_ ?_
      · refine Keeps.ite ?_ ?_
        · refine Keeps.trans ?_ (auClose_keeps ..)
          refine Keeps.ite ?_ ?_
          · refine Keeps.trans ?_ (timelineRestart_keeps ..)
            exact hv1
          · exact hv1
        · refine Keeps.ite ?_ ?_
          · refine Keeps.trans ?_ (timelineRestart_keeps ..)
            exact hv1
          · exact hv1
      · split
        · rename_i v3 e4
          have hv3 : Keeps s v3 := by
            refine Keeps.trans ?_ (auRefused_keeps _ _ _ _ e4)
            refine Keeps.ite ?_ ?_
            · refine Keeps.trans ?_ (auOpen_keeps ..)
              refine Keeps.ite ?_ ?_
              · refine Keeps.trans ?_ (auClose_keeps ..)
                refine Keeps.ite ?_ ?_
                · refine Keeps.trans ?_ (timelineRestart_keeps ..)
                  exact hv1
                · exact hv1
              · refine Keeps.ite ?_ ?_
                · refine Keeps.trans ?_ (timelineRestart_keeps ..)
                  exact hv1
                · exact hv1
            · refine Keeps.ite ?_ ?_
              · refine Keeps.trans ?_ (auClose_keeps ..)
                refine Keeps.ite ?_ ?_
                · refine Keeps.trans ?_ (timelineRestart_keeps ..)
                  exact hv1
                · exact hv1
              · refine Keeps.ite ?_ ?_
                · refine Keeps.trans ?_ (timelineRestart_keeps ..)
                  exact hv1
                · exact hv1
          refine Keeps.trans ?_ (auDamage_keeps ..)
          refine Keeps.trans ?_ (ingCount_keeps ..)
          exact hv3
        · refine Keeps.ite ?_ ?_
          · refine Keeps.trans ?_ (auClose_keeps ..)
            refine Keeps.trans ?_ (auAppend_keeps ..)
            refine Keeps.trans ?_ (ingCount_keeps ..)
            refine Keeps.trans ?_ (ingCount_keeps ..)
            refine Keeps.trans ?_ (State.updIng_keeps ..)
            refine Keeps.ite ?_ ?_
            · refine Keeps.trans ?_ (auOpen_keeps ..)
              refine Keeps.ite ?_ ?_
              · refine Keeps.trans ?_ (auClose_keeps ..)
                refine Keeps.ite ?_ ?_
                · refine Keeps.trans ?_ (timelineRestart_keeps ..)
                  exact hv1
                · exact hv1
              · refine Keeps.ite ?_ ?_
                · refine Keeps.trans ?_ (timelineRestart_keeps ..)
                  exact hv1
                · exact hv1
            · refine Keeps.ite ?_ ?_
              · refine Keeps.trans ?_ (auClose_keeps ..)
                refine Keeps.ite ?_ ?_
                · refine Keeps.trans ?_ (timelineRestart_keeps ..)
                  exact hv1
                · exact hv1
              · refine Keeps.ite ?_ ?_
                · refine Keeps.trans ?_ (timelineRestart_keeps ..)
                  exact hv1
                · exact hv1
          · refine Keeps.trans ?_ (auAppend_keeps ..)
            refine Keeps.trans ?_ (ingCount_keeps ..)
            refine Keeps.trans ?_ (ingCount_keeps ..)
            refine Keeps.trans ?_ (State.updIng_keeps ..)
            refine Keeps.ite ?_ ?_
            · refine Keeps.trans ?_ (auOpen_keeps ..)
              refine Keeps.ite ?_ ?_
              · refine Keeps.trans ?_ (auClose_keeps ..)
                refine Keeps.ite ?_ ?_
                · refine Keeps.trans ?_ (timelineRestart_keeps ..)
                  exact hv1
                · exact hv1
              · refine Keeps.ite ?_ ?_
                · refine Keeps.trans ?_ (timelineRestart_keeps ..)
                  exact hv1
                · exact hv1
            · refine Keeps.ite ?_ ?_
              · refine Keeps.trans ?_ (auClose_keeps ..)
                refine Keeps.ite ?_ ?_
                · refine Keeps.trans ?_ (timelineRestart_keeps ..)
                  exact hv1
                · exact hv1
              · refine Keeps.ite ?_ ?_
                · refine Keeps.trans ?_ (timelineRestart_keeps ..)
                  exact hv1
                · exact hv1

theorem injConsume_keeps (s : State) (port : Nat) (fn : Nat) (h : Bytes) :
    Keeps s (injConsume s port fn h) := by
  unfold injConsume
  try conv => arg 2; zeta
  refine Keeps.ite ?_ ?_
  · refine Keeps.trans ?_ (injAdvance_keeps ..)
    exact Keeps.refl _
  · refine Keeps.trans ?_ (injAdvance_keeps ..)
    refine Keeps.ite ?_ ?_
    · refine Keeps.ite ?_ ?_
      · refine Keeps.trans ?_ (injDeliver_keeps ..)
        exact Keeps.refl _
      · exact Keeps.refl _
    · refine Keeps.trans ?_ (raiseLogOf_keeps ..)
      exact Keeps.refl _

theorem execInjPoll_keeps (port : Nat) (fn : Nat) (s : State) :
    ∃ u, execInjPoll port fn s = .next u ∧ Keeps s u := by
  unfold execInjPoll
  try conv => enter [1, t, 1, 1]; zeta
  refine Keeps.iteNext ?_ ?_
  · refine Keeps.done ?_
    exact Keeps.refl _
  · refine Keeps.iteNext ?_ ?_
    · refine Keeps.done ?_
      refine Keeps.trans ?_ (State.updInj_keeps _ _ _ _ (fun _ h => h))
      exact Keeps.refl _
    · refine Keeps.iteNext ?_ ?_
      · refine Keeps.done ?_
        refine Keeps.trans ?_ (State.updInj_keeps _ _ _ _ (fun _ h => h))
        exact Keeps.refl _
      · refine Keeps.iteNext ?_ ?_
        · refine Keeps.done ?_
          refine Keeps.trans ?_ (injDesync_keeps ..)
          exact Keeps.refl _
        · refine Keeps.iteNext ?_ ?_
          · refine Keeps.done ?_
            refine Keeps.trans ?_ (injConsume_keeps ..)
            exact Keeps.refl _
          · refine Keeps.done ?_
            refine Keeps.trans ?_ (State.updInj_keeps _ _ _ _ (fun _ h => h))
            exact Keeps.refl _

theorem execInjTrailerTimeout_keeps (port : Nat) (fn : Nat) (s : State) :
    ∃ u, execInjTrailerTimeout port fn s = .next u ∧ Keeps s u := by
  unfold execInjTrailerTimeout
  try conv => enter [1, t, 1, 1]; zeta
  refine Keeps.iteNext ?_ ?_
  · refine Keeps.done ?_
    exact Keeps.refl _
  · refine Keeps.iteNext ?_ ?_
    · refine Keeps.done ?_
      refine Keeps.trans ?_ (State.updInj_keeps _ _ _ _ (fun _ h => h))
      exact Keeps.refl _
    · refine Keeps.iteNext ?_ ?_
      · refine Keeps.done ?_
        refine Keeps.trans ?_ (injConsume_keeps ..)
        exact Keeps.refl _
      · refine Keeps.done ?_
        refine Keeps.trans ?_ (raiseLogOf_keeps ..)
        refine Keeps.trans ?_ (injAdvance_keeps ..)
        refine Keeps.trans ?_ (State.updInj_keeps _ _ _ _ (fun _ h => h))
        refine Keeps.ite ?_ ?_
        · refine Keeps.trans ?_ (auDamage_keeps ..)
          exact Keeps.refl _
        · exact Keeps.refl _

/-! ### Machine/HostPorts.lean -/

theorem streamPause_keeps (s : State) (slot : Nat) :
    Keeps s (streamPause s slot) := by
  unfold streamPause
  try conv => arg 2; zeta
  refine Keeps.trans ?_ (State.updStream_keeps ..)
  refine Keeps.ite ?_ ?_
  · refine Keeps.trans ?_ (recPut_keeps ..)
    exact Keeps.refl _
  · exact Keeps.refl _

theorem perstFall_keeps (s : State) (port : Nat) :
    Keeps s (perstFall s port) := by
  unfold perstFall
  try conv => arg 2; zeta
  refine Keeps.trans ?_ (inputFall_keeps ..)
  refine Keeps.trans ?_ (State.updPort_keeps ..)
  exact Keeps.refl _

theorem execInputStuckRelease_keeps (input : Nat) (s : State) :
    ∃ u, execInputStuckRelease input s = .next u ∧ Keeps s u := by
  unfold execInputStuckRelease
  refine Keeps.iteNext ?_ ?_
  · refine Keeps.done ?_
    exact Keeps.refl _
  · refine Keeps.iteNext ?_ ?_
    · refine Keeps.done ?_
      refine Keeps.trans ?_ (pwrbrkFall_keeps ..)
      exact Keeps.refl _
    · refine Keeps.iteNext ?_ ?_
      · refine Keeps.done ?_
        refine Keeps.trans ?_ (thermFall_keeps ..)
        exact Keeps.refl _
      · refine Keeps.done ?_
        refine Keeps.trans ?_ (perstFall_keeps ..)
        exact Keeps.refl _

theorem linkFollow_keeps (s : State) (port : Nat) :
    Keeps s (linkFollow s port) := by
  unfold linkFollow
  refine Keeps.ite ?_ ?_
  · refine Keeps.trans ?_ (State.updPort_keeps ..)
    exact Keeps.refl _
  · exact Keeps.refl _

theorem sweepAll_keeps (s : State) :
    Keeps s (sweepAll s) := by
  unfold sweepAll
  refine Keeps.trans ?_ (sweepSlots_keeps ..)
  exact Keeps.refl _

theorem ringServe_keeps (s : State) (port : Nat) (fn : Nat) (ring : Nat) :
    Keeps s (ringServe s port fn ring) := by
  unfold ringServe
  try conv => arg 2; zeta
  refine Keeps.trans ?_ (sweepAll_keeps ..)
  refine Keeps.trans ?_ (pumpEvents_keeps ..)
  refine Keeps.ite ?_ ?_
  · refine Keeps.trans ?_ (ringDrain_keeps ..)
    refine Keeps.trans ?_ (State.updRing_keeps ..)
    exact Keeps.refl _
  · refine Keeps.trans ?_ (ringWant_keeps ..)
    refine Keeps.trans ?_ (ringDrain_keeps ..)
    refine Keeps.trans ?_ (State.updRing_keeps ..)
    exact Keeps.refl _

theorem fnResume_keeps (s : State) (port : Nat) (fn : Nat) :
    Keeps s (fnResume s port fn) := by
  unfold fnResume
  refine Keeps.foldl (fun y0 _ => ?_) ?_ _
  · refine Keeps.ite ?_ ?_
    · refine Keeps.trans ?_ (ringServe_keeps ..)
      exact Keeps.refl _
    · exact Keeps.refl _
  · exact Keeps.refl _

theorem dStateSet_keeps (s : State) (port : Nat) (fn : Nat) (d : Nat) :
    Keeps s (dStateSet s port fn d) := by
  unfold dStateSet
  try conv => arg 2; zeta
  refine Keeps.ite ?_ ?_
  · refine Keeps.ite ?_ ?_
    · refine Keeps.trans ?_ (fnResume_keeps ..)
      refine Keeps.trans ?_ (linkFollow_keeps ..)
      refine Keeps.trans ?_ (State.updFn_keeps _ _ _ _ (fun _ h => h))
      exact Keeps.refl _
    · refine Keeps.trans ?_ (linkFollow_keeps ..)
      refine Keeps.trans ?_ (State.updFn_keeps _ _ _ _ (fun _ h => h))
      exact Keeps.refl _
  · exact Keeps.refl _

theorem ringUnbind_keeps (s : State) (port : Nat) (fn : Nat) (ring : Nat) :
    Keeps s (ringUnbind s port fn ring) := by
  unfold ringUnbind
  refine Keeps.ite ?_ ?_
  · refine Keeps.trans ?_ (sweepAll_keeps ..)
    refine Keeps.trans ?_ (ringStop_keeps ..)
    exact Keeps.refl _
  · exact Keeps.refl _

theorem ringBind_keeps (s : State) (port : Nat) (fn : Nat) (ring : Nat) :
    Keeps s (ringBind s port fn ring) := by
  unfold ringBind
  try conv => arg 2; zeta
  refine Keeps.ite ?_ ?_
  · refine Keeps.trans ?_ (pumpEvents_keeps ..)
    refine Keeps.trans ?_ (State.updRing_keeps ..)
    refine Keeps.trans ?_ (ringUnbind_keeps ..)
    exact Keeps.refl _
  · refine Keeps.trans ?_ (raiseIrq_keeps ..)
    refine Keeps.trans ?_ (State.updRing_keeps ..)
    refine Keeps.trans ?_ (ringUnbind_keeps ..)
    exact Keeps.refl _

theorem execRingBind_keeps (port : Nat) (fn : Nat) (s : State) :
    ∃ u, execRingBind port fn s = .next u ∧ Keeps s u := by
  unfold execRingBind
  refine Keeps.iteNext ?_ ?_
  · refine Keeps.done ?_
    refine Keeps.trans ?_ (ringBind_keeps ..)
    exact Keeps.refl _
  · refine Keeps.done ?_
    exact Keeps.refl _

theorem partDiscard_keeps (s : State) (p : Nat) :
    Keeps s (partDiscard s p) := by
  unfold partDiscard
  refine Keeps.foldl (fun y0 _ => ?_) ?_ _
  · refine Keeps.trans ?_ (streamDiscard_keeps ..)
    exact Keeps.refl _
  · exact Keeps.refl _

theorem partReset_keeps (s : State) (p : Nat) :
    Keeps s (partReset s p) := by
  unfold partReset
  try conv => arg 2; zeta
  refine Keeps.trans ?_ (clearPartition_keeps ..)
  refine Keeps.foldl (fun y2 _ => ?_) ?_ _
  · refine Keeps.trans ?_ (batchDrop_keeps ..)
    exact Keeps.refl _
  · refine Keeps.foldl (fun y1 _ => ?_) ?_ _
    · refine Keeps.trans ?_ (dropCtx_keeps ..)
      exact Keeps.refl _
    · refine Keeps.foldl (fun y0 _ => ?_) ?_ _
      · refine Keeps.trans ?_ (streamPause_keeps ..)
        exact Keeps.refl _
      · exact Keeps.refl _

theorem flrStart_keeps (s : State) (port fn : Nat) : Keeps s (flrStart s port fn) := by
  unfold flrStart
  try conv => arg 2; zeta
  refine Keeps.ite (Keeps.refl _) ?_
  refine Keeps.trans ?_ (State.updFn_keeps _ _ _ _ (fun _ _ => rfl))
  refine Keeps.foldl (fun v p => partReset_keeps v p) ?_ _
  refine Keeps.trans ?_ (injDisable_keeps ..)
  refine Keeps.trans ?_ (State.updFn_keeps _ port fn (fun f => { f with resetting := true }) (fun _ h => h))
  refine Keeps.foldl (fun v p => partDiscard_keeps v p) ?_ _
  refine Keeps.trans ?_ (attReset_keeps ..)
  exact Keeps.ite (((moultCut_keeps ..).trans (flashReset_keeps ..)).trans (keyAbort_keeps ..)) (Keeps.refl _)

theorem portSilence_keeps (s : State) (port : Nat) : Keeps s (portSilence s port) := by
  unfold portSilence
  refine Keeps.trans (Keeps.fns s (mmap s.fns (fun k f => if k / 4 = port then { f with bme := false } else f)) (fun a q hq => ?_))
    (Keeps.ofMk (Keeps.refl _) rfl rfl rfl rfl rfl rfl rfl rfl (fun h => h) rfl rfl (Nat.le_refl _))
  obtain ⟨p, hp, e⟩ := List.mem_map.1 hq
  subst e
  dsimp only
  split
  · exact a p hp
  · exact a p hp

theorem portReset_keeps (s : State) (port : Nat) (train : Bool) :
    Keeps s (portReset s port train) := by
  unfold portReset
  try conv => arg 2; zeta
  refine Keeps.foldl (fun y0 _ => ?_) ?_ _
  · refine Keeps.trans ?_ (flrStart_keeps ..)
    exact Keeps.refl _
  · refine Keeps.trans ?_ (portSilence_keeps ..)
    refine Keeps.trans ?_ (State.updPort_keeps ..)
    refine Keeps.ite ?_ ?_
    · refine Keeps.ofMk ?_ rfl rfl rfl rfl rfl rfl rfl rfl (fun h => h) rfl rfl (Nat.le_refl _)
      exact Keeps.refl _
    · refine Keeps.ofMk ?_ rfl rfl rfl rfl rfl rfl rfl rfl (fun h => h) rfl rfl (Nat.le_refl _)
      exact Keeps.refl _

theorem portCount_keeps (s : State) (port : Nat) (k : Nat) :
    Keeps s (portCount s port k) := by
  unfold portCount
  refine Keeps.trans ?_ (hpCount_keeps ..)
  exact Keeps.refl _

theorem execPerstAssert_keeps (port : Nat) (s : State) :
    ∃ u, execPerstAssert port s = .next u ∧ Keeps s u := by
  unfold execPerstAssert
  try conv => enter [1, t, 1, 1]; zeta
  refine Keeps.iteNext ?_ ?_
  · refine Keeps.done ?_
    exact Keeps.refl _
  · refine Keeps.iteNext ?_ ?_
    · refine Keeps.done ?_
      refine Keeps.trans ?_ (inputRise_keeps ..)
      refine Keeps.trans ?_ (State.updPort_keeps ..)
      exact Keeps.refl _
    · refine Keeps.done ?_
      refine Keeps.trans ?_ (portReset_keeps ..)
      refine Keeps.trans ?_ (portCount_keeps ..)
      refine Keeps.trans ?_ (inputRise_keeps ..)
      refine Keeps.trans ?_ (State.updPort_keeps ..)
      exact Keeps.refl _

theorem unsupported_keeps (s : State) (port : Nat) (fn : Nat) :
    Keeps s (unsupported s port fn) := by
  unfold unsupported
  refine Keeps.trans ?_ (portCount_keeps ..)
  refine Keeps.trans ?_ (emit_keeps ..)
  exact Keeps.refl _

theorem intaSync_keeps (s : State) (port : Nat) :
    Keeps s (intaSync s port) := by
  unfold intaSync
  try conv => arg 2; zeta
  refine Keeps.ite ?_ ?_
  · exact Keeps.refl _
  · refine Keeps.ite ?_ ?_
    · refine Keeps.trans ?_ (portCount_keeps ..)
      refine Keeps.trans ?_ (emit_keeps ..)
      refine Keeps.trans ?_ (State.updPort_keeps ..)
      exact Keeps.refl _
    · refine Keeps.trans ?_ (emit_keeps ..)
      refine Keeps.trans ?_ (State.updPort_keeps ..)
      exact Keeps.refl _

theorem configWrite_keeps (s : State) (port : Nat) (fn : Nat) (reg : Nat) (v : Word) :
    Keeps s (configWrite s port fn reg v) := by
  unfold configWrite
  try conv => arg 2; zeta
  refine Keeps.ite ?_ ?_
  · refine Keeps.trans ?_ (intaSync_keeps ..)
    refine Keeps.ite ?_ ?_
    · refine Keeps.trans ?_ (fnResume_keeps ..)
      refine Keeps.trans ?_ (State.updFn_keeps _ _ _ _ (fun _ h => h))
      exact Keeps.refl _
    · refine Keeps.trans ?_ (State.updFn_keeps _ _ _ _ (fun _ h => h))
      exact Keeps.refl _
  · refine Keeps.ite ?_ ?_
    · refine Keeps.trans ?_ (dStateSet_keeps ..)
      refine Keeps.trans ?_ (State.updFn_keeps _ _ _ _ (fun _ h => h))
      exact Keeps.refl _
    · refine Keeps.ite ?_ ?_
      · refine Keeps.ite ?_ ?_
        · refine Keeps.trans ?_ (intaSync_keeps ..)
          refine Keeps.trans ?_ (flrStart_keeps ..)
          refine Keeps.trans ?_ (portCount_keeps ..)
          refine Keeps.ofMk ?_ rfl rfl rfl rfl rfl rfl rfl rfl (fun h => h) rfl rfl (Nat.le_refl _)
          refine Keeps.trans ?_ (State.updFn_keeps _ _ _ _ (fun _ h => h))
          exact Keeps.refl _
        · refine Keeps.trans ?_ (State.updFn_keeps _ _ _ _ (fun _ h => h))
          exact Keeps.refl _
      · refine Keeps.ite ?_ ?_
        · refine Keeps.trans ?_ (State.updFn_keeps _ _ _ _ (fun _ h => h))
          exact Keeps.refl _
        · exact Keeps.refl _

theorem execConfigRequest_keeps (port : Nat) (fn : Nat) (reg : Nat) (write : Option Word) (s : State) :
    ∃ u, execConfigRequest port fn reg write s = .next u ∧ Keeps s u := by
  unfold execConfigRequest
  refine Keeps.iteNext ?_ ?_
  · refine Keeps.done ?_
    exact Keeps.refl _
  · refine Keeps.iteNext ?_ ?_
    · refine Keeps.done ?_
      refine Keeps.trans ?_ (emit_keeps ..)
      exact Keeps.refl _
    · refine Keeps.iteNext ?_ ?_
      · refine Keeps.done ?_
        refine Keeps.trans ?_ (unsupported_keeps ..)
        exact Keeps.refl _
      · split
        · refine Keeps.done ?_
          refine Keeps.trans ?_ (emit_keeps ..)
          exact Keeps.refl _
        · refine Keeps.done ?_
          refine Keeps.trans ?_ (emit_keeps ..)
          refine Keeps.trans ?_ (configWrite_keeps ..)
          exact Keeps.refl _

theorem pmeSend_keeps (s : State) (port : Nat) (fn : Nat) :
    Keeps s (pmeSend s port fn) := by
  unfold pmeSend
  refine Keeps.ite ?_ ?_
  · refine Keeps.trans ?_ (portCount_keeps ..)
    refine Keeps.trans ?_ (emit_keeps ..)
    refine Keeps.trans ?_ (State.updPort_keeps ..)
    exact Keeps.refl _
  · refine Keeps.ite ?_ ?_
    · refine Keeps.trans ?_ (State.updPort_keeps ..)
      exact Keeps.refl _
    · exact Keeps.refl _

theorem execPmeSignal_keeps (port : Nat) (fn : Nat) (s : State) :
    ∃ u, execPmeSignal port fn s = .next u ∧ Keeps s u := by
  unfold execPmeSignal
  try conv => enter [1, t, 1, 1]; zeta
  refine Keeps.iteNext ?_ ?_
  · refine Keeps.done ?_
    refine Keeps.trans ?_ (pmeSend_keeps ..)
    refine Keeps.trans ?_ (State.updFn_keeps _ _ _ _ (fun _ h => h))
    exact Keeps.refl _
  · refine Keeps.done ?_
    exact Keeps.refl _

theorem execPmeRepeat_keeps (port : Nat) (fn : Nat) (s : State) :
    ∃ u, execPmeRepeat port fn s = .next u ∧ Keeps s u := by
  unfold execPmeRepeat
  refine Keeps.iteNext ?_ ?_
  · refine Keeps.done ?_
    refine Keeps.trans ?_ (pmeSend_keeps ..)
    exact Keeps.refl _
  · refine Keeps.done ?_
    exact Keeps.refl _

theorem execHotReset_keeps (port : Nat) (s : State) :
    ∃ u, execHotReset port s = .next u ∧ Keeps s u := by
  unfold execHotReset
  refine Keeps.iteNext ?_ ?_
  · refine Keeps.done ?_
    refine Keeps.trans ?_ (portReset_keeps ..)
    refine Keeps.trans ?_ (portCount_keeps ..)
    exact Keeps.refl _
  · refine Keeps.done ?_
    exact Keeps.refl _

theorem ringFail_keeps (s : State) (port : Nat) (fn : Nat) (ring : Nat) (cause : Nat) :
    Keeps s (ringFail s port fn ring cause) := by
  unfold ringFail
  refine Keeps.trans ?_ (sweepAll_keeps ..)
  refine Keeps.trans ?_ (raiseIrq_keeps ..)
  refine Keeps.trans ?_ (ringStop_keeps ..)
  exact Keeps.refl _

theorem ringConsumer_keeps (s : State) (port : Nat) (fn : Nat) (ring : Nat) (b : Bytes) :
    Keeps s (ringConsumer s port fn ring b) := by
  unfold ringConsumer
  try conv => arg 2; zeta
  refine Keeps.ite ?_ ?_
  · refine Keeps.trans ?_ (State.updRing_keeps ..)
    exact Keeps.refl _
  · refine Keeps.ite ?_ ?_
    · refine Keeps.trans ?_ (ringFail_keeps ..)
      exact Keeps.refl _
    · refine Keeps.ite ?_ ?_
      · refine Keeps.trans ?_ (ringServe_keeps ..)
        refine Keeps.trans ?_ (State.updRing_keeps ..)
        exact Keeps.refl _
      · refine Keeps.trans ?_ (State.updRing_keeps ..)
        exact Keeps.refl _

theorem streamResume_keeps (s : State) (slot : Nat) :
    Keeps s (streamResume s slot) := by
  unfold streamResume
  refine Keeps.ite ?_ ?_
  · refine Keeps.trans ?_ (streamAdd_keeps ..)
    refine Keeps.trans ?_ (State.updStream_keeps ..)
    exact Keeps.refl _
  · exact Keeps.refl _

theorem execIntaChange_keeps (port : Nat) (s : State) :
    ∃ u, execIntaChange port s = .next u ∧ Keeps s u := by
  unfold execIntaChange
  refine Keeps.done ?_
  refine Keeps.trans ?_ (intaSync_keeps ..)
  exact Keeps.refl _

theorem execFlr_keeps (port : Nat) (fn : Nat) (s : State) :
    ∃ u, execFlr port fn s = .next u ∧ Keeps s u := by
  unfold execFlr
  try conv => enter [1, t, 1, 1]; zeta
  refine Keeps.iteNext ?_ ?_
  · refine Keeps.done ?_
    exact Keeps.refl _
  · refine Keeps.done ?_
    refine Keeps.trans ?_ (intaSync_keeps ..)
    refine Keeps.trans ?_ (flrStart_keeps ..)
    refine Keeps.trans ?_ (portCount_keeps ..)
    refine Keeps.ofMk ?_ rfl rfl rfl rfl rfl rfl rfl rfl (fun h => h) rfl rfl (Nat.le_refl _)
    exact Keeps.refl _

theorem execPerstDeassert_keeps (port : Nat) (s : State) :
    ∃ u, execPerstDeassert port s = .next u ∧ Keeps s u := by
  unfold execPerstDeassert
  refine Keeps.iteNext ?_ ?_
  · refine Keeps.done ?_
    exact Keeps.refl _
  · refine Keeps.done ?_
    refine Keeps.trans ?_ (perstFall_keeps ..)
    exact Keeps.refl _

theorem execRingHoldTimeout_keeps (port : Nat) (fn : Nat) (ring : Nat) (s : State) :
    ∃ u, execRingHoldTimeout port fn ring s = .next u ∧ Keeps s u := by
  unfold execRingHoldTimeout
  try conv => enter [1, t, 1, 1]; zeta
  refine Keeps.done ?_
  refine Keeps.trans ?_ (sweepAll_keeps ..)
  refine Keeps.trans ?_ (ringDrain_keeps ..)
  refine Keeps.trans ?_ (ringDropOldest_keeps ..)
  exact Keeps.refl _

theorem irqClear_keeps (s : State) (port : Nat) (fn : Nat) (value : Word) (sets : Word) :
    Keeps s (irqClear s port fn value sets) := by
  unfold irqClear
  refine Keeps.trans ?_ (intaSync_keeps ..)
  refine Keeps.trans ?_ (State.updFn_keeps _ _ _ _ (fun _ h => h))
  exact Keeps.refl _

theorem execIrqStatusClear_keeps (port : Nat) (fn : Nat) (value : Word) (sets : Word) (s : State) :
    ∃ u, execIrqStatusClear port fn value sets s = .next u ∧ Keeps s u := by
  unfold execIrqStatusClear
  refine Keeps.done ?_
  refine Keeps.trans ?_ (irqClear_keeps ..)
  exact Keeps.refl _

theorem execRingConsumerRead_keeps (port : Nat) (fn : Nat) (ring : Nat) (r : HostRead) (s : State) :
    ∃ u, execRingConsumerRead port fn ring r s = .next u ∧ Keeps s u := by
  unfold execRingConsumerRead
  try conv => enter [1, t, 1, 1]; zeta
  refine Keeps.iteNext ?_ ?_
  · refine Keeps.done ?_
    exact Keeps.refl _
  · split
    · refine Keeps.done ?_
      refine Keeps.trans ?_ (ringFail_keeps ..)
      refine Keeps.trans ?_ (readCount_keeps ..)
      refine Keeps.trans ?_ (emit_keeps ..)
      exact Keeps.refl _
    · refine Keeps.done ?_
      refine Keeps.trans ?_ (ringConsumer_keeps ..)
      refine Keeps.trans ?_ (emit_keeps ..)
      exact Keeps.refl _

theorem execRingIrqDelay_keeps (port : Nat) (fn : Nat) (ring : Nat) (s : State) :
    ∃ u, execRingIrqDelay port fn ring s = .next u ∧ Keeps s u := by
  unfold execRingIrqDelay
  try conv => enter [1, t, 1, 1]; zeta
  refine Keeps.iteNext ?_ ?_
  · refine Keeps.done ?_
    refine Keeps.trans ?_ (raiseIrq_keeps ..)
    refine Keeps.trans ?_ (State.updRing_keeps ..)
    exact Keeps.refl _
  · refine Keeps.done ?_
    exact Keeps.refl _

theorem execDStateChange_keeps (port : Nat) (fn : Nat) (dstate : Nat) (s : State) :
    ∃ u, execDStateChange port fn dstate s = .next u ∧ Keeps s u := by
  unfold execDStateChange
  refine Keeps.iteNext ?_ ?_
  · refine Keeps.done ?_
    refine Keeps.trans ?_ (dStateSet_keeps ..)
    exact Keeps.refl _
  · refine Keeps.done ?_
    exact Keeps.refl _

theorem execFlrComplete_keeps (port : Nat) (fn : Nat) (s : State) :
    ∃ u, execFlrComplete port fn s = .next u ∧ Keeps s u := by
  unfold execFlrComplete
  try conv => enter [1, t, 1, 1]; zeta
  refine Keeps.iteNext ?_ ?_
  · refine Keeps.done ?_
    exact Keeps.refl _
  · refine Keeps.done ?_
    refine Keeps.trans ?_ (State.updPort_keeps ..)
    refine Keeps.foldl (fun y0 _ => ?_) ?_ _
    · refine Keeps.trans ?_ (streamResume_keeps ..)
      exact Keeps.refl _
    · refine Keeps.trans ?_ (State.updFn_keeps _ _ _ _ (fun _ h => h))
      exact Keeps.refl _

theorem execDlDown_keeps (port : Nat) (s : State) :
    ∃ u, execDlDown port s = .next u ∧ Keeps s u := by
  unfold execDlDown
  refine Keeps.iteNext ?_ ?_
  · refine Keeps.done ?_
    refine Keeps.trans ?_ (portReset_keeps ..)
    refine Keeps.trans ?_ (portCount_keeps ..)
    exact Keeps.refl _
  · refine Keeps.done ?_
    exact Keeps.refl _

theorem execPcieLinkUp_keeps (port : Nat) (rate : Nat) (width : Nat) (s : State) :
    ∃ u, execPcieLinkUp port rate width s = .next u ∧ Keeps s u := by
  unfold execPcieLinkUp
  refine Keeps.iteNext ?_ ?_
  · refine Keeps.done ?_
    refine Keeps.trans ?_ (intaSync_keeps ..)
    refine Keeps.trans ?_ (State.updPort_keeps ..)
    exact Keeps.refl _
  · refine Keeps.done ?_
    exact Keeps.refl _

theorem execRingUnbind_keeps (port : Nat) (fn : Nat) (s : State) :
    ∃ u, execRingUnbind port fn s = .next u ∧ Keeps s u := by
  unfold execRingUnbind
  refine Keeps.iteNext ?_ ?_
  · refine Keeps.done ?_
    refine Keeps.trans ?_ (ringUnbind_keeps ..)
    exact Keeps.refl _
  · refine Keeps.done ?_
    exact Keeps.refl _

theorem execPmeTurnOff_keeps (port : Nat) (s : State) :
    ∃ u, execPmeTurnOff port s = .next u ∧ Keeps s u := by
  unfold execPmeTurnOff
  try conv => enter [1, t, 1, 1]; zeta
  refine Keeps.iteNext ?_ ?_
  · refine Keeps.done ?_
    refine Keeps.ite ?_ ?_
    · refine Keeps.trans ?_ (State.updPort_keeps ..)
      refine Keeps.trans ?_ (emit_keeps ..)
      exact Keeps.refl _
    · refine Keeps.trans ?_ (emit_keeps ..)
      exact Keeps.refl _
  · refine Keeps.done ?_
    exact Keeps.refl _

/-! ### Machine/Search.lean -/

theorem searchDone_keeps (s : State) (slot : Nat) (fid : Nat) :
    Keeps s (searchDone s slot fid) := by
  unfold searchDone
  try conv => arg 2; zeta
  refine Keeps.trans ?_ (sweepSlots_keeps ..)
  refine Keeps.trans ?_ (frameStage_keeps ..)
  refine Keeps.trans ?_ (State.updStream_keeps ..)
  refine Keeps.trans ?_ (State.updFrame_keeps ..)
  refine Keeps.trans ?_ (recSet_keeps ..)
  exact Keeps.refl _

theorem cbDrop_keeps (s : State) (slot : Nat) :
    Keeps s (cbDrop s slot) := by
  unfold cbDrop
  try conv => arg 2; zeta
  refine Keeps.trans ?_ (recSet_keeps ..)
  refine Keeps.trans ?_ (State.updStream_keeps ..)
  exact Keeps.refl _

theorem cbForm_keeps (s : State) (slot : Nat) (u : CbPending) (cands : List Bytes) :
    Keeps s (cbForm s slot u cands) := by
  unfold cbForm
  try conv => arg 2; zeta
  refine Keeps.trans ?_ (State.updStream_keeps ..)
  refine Keeps.trans ?_ (recSet_keeps ..)
  exact Keeps.refl _

theorem execCodebookUpdate_keeps (slot : Nat) (s : State) :
    ∃ u, execCodebookUpdate slot s = .next u ∧ Keeps s u := by
  unfold execCodebookUpdate
  try conv => enter [1, t, 1, 1]; zeta
  split
  · refine Keeps.done ?_
    exact Keeps.refl _
  · refine Keeps.iteNext ?_ ?_
    · refine Keeps.done ?_
      exact Keeps.refl _
    · refine Keeps.iteNext ?_ ?_
      · refine Keeps.done ?_
        refine Keeps.trans ?_ (cbDrop_keeps ..)
        refine Keeps.trans ?_ (State.updStream_keeps ..)
        exact Keeps.refl _
      · split
        · refine Keeps.done ?_
          refine Keeps.trans ?_ (cbDrop_keeps ..)
          refine Keeps.trans ?_ (State.updStream_keeps ..)
          exact Keeps.refl _
        · refine Keeps.iteNext ?_ ?_
          · refine Keeps.done ?_
            exact Keeps.refl _
          · refine Keeps.done ?_
            refine Keeps.trans ?_ (cbDrop_keeps ..)
            refine Keeps.trans ?_ (cbForm_keeps ..)
            exact Keeps.refl _

theorem searchBands_keeps (s : State) (slot fid : Nat) : Keeps s (searchBands s slot fid).2 := by
  unfold searchBands
  extract_lets f r
  have h : Keeps s r.2 := reachBands_keeps ..
  refine Keeps.itePair (Keeps.snd ?_) h
  exact h.trans (State.updFrame_keeps ..)

theorem execSearchStart_keeps (slot : Nat) (s : State) :
    ∃ u, execSearchStart slot s = .next u ∧ Keeps s u := by
  unfold execSearchStart
  try conv => enter [1, t, 1, 1]; zeta
  split
  · refine Keeps.done ?_
    exact Keeps.refl _
  · refine Keeps.iteNext ?_ ?_
    · refine Keeps.iteNext ?_ ?_
      · refine Keeps.done ?_
        exact Keeps.refl _
      · refine Keeps.done ?_
        refine Keeps.trans ?_ (State.updStream_keeps ..)
        refine Keeps.trans ?_ (State.updFrame_keeps ..)
        exact Keeps.refl _
    · refine Keeps.iteNext ?_ ?_
      · refine Keeps.done ?_
        exact Keeps.refl _
      · refine Keeps.done ?_
        refine Keeps.trans ?_ (State.updFrame_keeps ..)
        refine Keeps.trans ?_ (decCount_keeps ..)
        exact Keeps.refl _

theorem execSearchCommit_keeps (slot : Nat) (s : State) :
    ∃ u, execSearchCommit slot s = .next u ∧ Keeps s u := by
  unfold execSearchCommit
  try conv => enter [1, t, 1, 1]; zeta
  split
  · refine Keeps.done ?_
    exact Keeps.refl _
  · refine Keeps.iteNext ?_ ?_
    · refine Keeps.done ?_
      exact Keeps.refl _
    · refine Keeps.iteNext ?_ ?_
      · refine Keeps.done ?_
        refine Keeps.trans ?_ (searchDone_keeps ..)
        refine Keeps.trans ?_ (searchBands_keeps ..)
        exact Keeps.refl _
      · refine Keeps.done ?_
        refine Keeps.trans ?_ (searchBands_keeps ..)
        exact Keeps.refl _

/-! ### Machine/Telemetry.lean -/

theorem execEventStage_keeps (ev : EvSpec) (s : State) :
    ∃ u, execEventStage ev s = .next u ∧ Keeps s u := by
  unfold execEventStage
  refine Keeps.done ?_
  refine Keeps.trans ?_ (raiseEv_keeps ..)
  exact Keeps.refl _

theorem mpRefuse_keeps (s : State) :
    Keeps s (mpRefuse s) := by
  unfold mpRefuse
  refine Keeps.trans ?_ (raiseLog_keeps ..)
  refine Keeps.trans ?_ (emit_keeps ..)
  exact Keeps.refl _

theorem execTelemetryPacketSend_keeps (s : State) :
    ∃ u, execTelemetryPacketSend s = .next u ∧ Keeps s u := by
  unfold execTelemetryPacketSend
  try conv => enter [1, t, 1, 1]; zeta
  refine Keeps.iteNext ?_ ?_
  · refine Keeps.done ?_
    exact Keeps.refl _
  · refine Keeps.done ?_
    refine Keeps.trans ?_ (sendUdp_keeps ..)
    refine Keeps.ofMk ?_ rfl rfl rfl rfl rfl rfl rfl rfl (fun h => h) rfl rfl (Nat.le_refl _)
    refine Keeps.trans ?_ (State.updPath_keeps ..)
    exact Keeps.refl _

theorem mpTakes_keeps (s : State) (f : State → State) (hf : ∀ v, Keeps v (f v)) :
    ∃ u, mpTakes s f = .next u ∧ Keeps s u := by
  unfold mpTakes
  exact Keeps.iteNext (Keeps.done (hf _)) (Keeps.done (emit_keeps ..))

theorem execMpSetPointer_keeps (value : Nat) (pecOk : Bool) (s : State) :
    ∃ u, execMpSetPointer value pecOk s = .next u ∧ Keeps s u := by
  unfold execMpSetPointer
  try conv => enter [1, t, 1, 1]; zeta
  refine mpTakes_keeps _ _ (fun y0 => ?_)
  refine Keeps.ite ?_ ?_
  · refine Keeps.trans ?_ (mpRefuse_keeps ..)
    exact Keeps.refl _
  · refine Keeps.trans ?_ (emit_keeps ..)
    refine Keeps.ofMk ?_ rfl rfl rfl rfl rfl rfl rfl rfl (fun h => h) rfl rfl (Nat.le_refl _)
    exact Keeps.refl _

theorem execTraceExponentTick_keeps (path : Nat) (s : State) :
    ∃ u, execTraceExponentTick path s = .next u ∧ Keeps s u := by
  unfold execTraceExponentTick
  refine Keeps.done ?_
  refine Keeps.trans ?_ (State.updPath_keeps ..)
  exact Keeps.refl _

theorem execSmbusClockTimeout_keeps (s : State) :
    ∃ u, execSmbusClockTimeout s = .next u ∧ Keeps s u := by
  unfold execSmbusClockTimeout
  refine Keeps.done ?_
  refine Keeps.trans ?_ (raiseLog_keeps ..)
  exact Keeps.refl _

theorem summaryPath_keeps (s : State) (p : Nat) :
    Keeps s (summaryPath s p) := by
  unfold summaryPath
  try conv => arg 2; zeta
  refine Keeps.foldl (fun y0 _ => ?_) ?_ _
  · refine Keeps.trans ?_ (stageOn_keeps ..)
    exact Keeps.refl _
  · refine Keeps.trans ?_ (State.updPath_keeps ..)
    exact Keeps.refl _

theorem summaryPaths_keeps (x0 : List Nat) (x1 : State) :
    Keeps x1 (summaryPaths x0 x1) := by
  induction x0 generalizing x1 with
  | nil =>
    rw [summaryPaths]
    exact Keeps.refl _
  | cons a t ih =>
    rw [summaryPaths]
    refine Keeps.trans ?_ (ih ..)
    refine Keeps.trans ?_ (summaryPath_keeps ..)
    exact Keeps.refl _

theorem execMpRemoveEvents_keeps (m : Nat) (pecOk : Bool) (s : State) :
    ∃ u, execMpRemoveEvents m pecOk s = .next u ∧ Keeps s u := by
  unfold execMpRemoveEvents
  try conv => enter [1, t, 1, 1]; zeta
  refine mpTakes_keeps _ _ (fun y0 => ?_)
  refine Keeps.ite ?_ ?_
  · refine Keeps.trans ?_ (mpRefuse_keeps ..)
    exact Keeps.refl _
  · refine Keeps.trans ?_ (emit_keeps ..)
    refine Keeps.ofMk ?_ rfl rfl rfl rfl rfl rfl rfl rfl (fun h => h) rfl rfl (Nat.le_refl _)
    refine Keeps.trans ?_ (State.updPath_keeps ..)
    exact Keeps.refl _

theorem execSummaryTimer_keeps (s : State) :
    ∃ u, execSummaryTimer s = .next u ∧ Keeps s u := by
  unfold execSummaryTimer
  try conv => enter [1, t, 1, 1]; zeta
  refine Keeps.iteNext ?_ ?_
  · refine Keeps.done ?_
    exact Keeps.refl _
  · refine Keeps.done ?_
    refine Keeps.ofMk ?_ rfl rfl rfl rfl rfl rfl rfl rfl (fun h => h) rfl rfl (Nat.le_add_right ..)
    refine Keeps.trans ?_ (summaryPaths_keeps ..)
    exact Keeps.refl _

theorem execMpReadEvents_keeps (s : State) :
    ∃ u, execMpReadEvents s = .next u ∧ Keeps s u := by
  unfold execMpReadEvents
  try conv => enter [1, t, 1, 1]; zeta
  refine mpTakes_keeps _ _ (fun y0 => ?_)
  refine Keeps.trans ?_ (emit_keeps ..)
  refine Keeps.ofMk ?_ rfl rfl rfl rfl rfl rfl rfl rfl (fun h => h) rfl rfl (Nat.le_refl _)
  exact Keeps.refl _

theorem execMpAlertResponse_keeps (s : State) :
    ∃ u, execMpAlertResponse s = .next u ∧ Keeps s u := by
  unfold execMpAlertResponse
  try conv => enter [1, t, 1, 1]; zeta
  refine Keeps.iteNext ?_ ?_
  · refine Keeps.done ?_
    refine Keeps.trans ?_ (emit_keeps ..)
    refine Keeps.ofMk ?_ rfl rfl rfl rfl rfl rfl rfl rfl (fun h => h) rfl rfl (Nat.le_refl _)
    exact Keeps.refl _
  · refine Keeps.done ?_
    exact Keeps.refl _

theorem execMpIdentify_keeps (s : State) :
    ∃ u, execMpIdentify s = .next u ∧ Keeps s u := by
  unfold execMpIdentify
  refine mpTakes_keeps _ _ (fun y0 => ?_)
  refine Keeps.trans ?_ (emit_keeps ..)
  exact Keeps.refl _

theorem execMpReadRegisters_keeps (s : State) :
    ∃ u, execMpReadRegisters s = .next u ∧ Keeps s u := by
  unfold execMpReadRegisters
  try conv => enter [1, t, 1, 1]; zeta
  refine mpTakes_keeps _ _ (fun y0 => ?_)
  split
  · rename_i v1 v2 e3
    have hv2 : Keeps y0 v2 := by
      refine Keeps.pair e3 ?_
      refine Keeps.trans ?_ (aonReads_keeps ..)
      exact Keeps.refl _
    refine Keeps.trans ?_ (emit_keeps ..)
    refine Keeps.ofMk ?_ rfl rfl rfl rfl rfl rfl rfl rfl (fun h => h) rfl rfl (Nat.le_refl _)
    exact hv2

/-! ### Machine/Registers.lean -/

theorem misalignedLog_keeps (s : State) (port : Nat) :
    Keeps s (misalignedLog s port) := by
  unfold misalignedLog
  refine Keeps.trans ?_ (raiseLog_keeps ..)
  exact Keeps.refl _

theorem misalignedRead_keeps (s : State) (port : Nat) (fn : Nat) (bar : Nat) (off : Nat) :
    Keeps s (misalignedRead s port fn bar off) := by
  unfold misalignedRead
  refine Keeps.trans ?_ (misalignedLog_keeps ..)
  refine Keeps.trans ?_ (emit_keeps ..)
  exact Keeps.refl _

theorem pairRead_keeps (s : State) (acc : Acc) (bar : Nat) (off : Nat) (pair : Nat → Option Nat) (value : Nat → Word) :
    Keeps s (pairRead s acc bar off pair value).2 := by
  unfold pairRead
  split
  · refine Keeps.snd ?_
    refine Keeps.trans ?_ (holdWord_keeps ..)
    exact Keeps.refl _
  · refine Keeps.itePair ?_ ?_
    · refine Keeps.snd ?_
      exact Keeps.refl _
    · refine Keeps.snd ?_
      exact Keeps.refl _

theorem regRead_keeps (s : State) (port : Nat) (fn : Nat) (bar : Nat) (off : Nat) :
    Keeps s (regRead s port fn bar off).2 := by
  unfold regRead
  refine Keeps.itePair ?_ ?_
  · refine Keeps.trans ?_ (pairRead_keeps ..)
    exact Keeps.refl _
  · refine Keeps.itePair ?_ ?_
    · refine Keeps.trans ?_ (aonRead_keeps ..)
      exact Keeps.refl _
    · refine Keeps.trans ?_ (pairRead_keeps ..)
      exact Keeps.refl _

theorem barRead_keeps (s : State) (port : Nat) (fn : Nat) (bar : Nat) (off : Nat) :
    Keeps s (barRead s port fn bar off) := by
  unfold barRead
  refine Keeps.ite ?_ ?_
  · refine Keeps.trans ?_ (emit_keeps ..)
    exact Keeps.refl _
  · split
    · refine Keeps.ite ?_ ?_
      · split
        · rename_i v0 v1 e2
          have hv1 : Keeps s v1 := by
            refine Keeps.pair e2 ?_
            refine Keeps.trans ?_ (regRead_keeps ..)
            exact Keeps.refl _
          refine Keeps.trans ?_ (emit_keeps ..)
          exact hv1
      · refine Keeps.trans ?_ (windowDiscard_keeps ..)
        exact Keeps.refl _
    · split
      · rename_i v3 v4 e5
        have hv4 : Keeps s v4 := by
          refine Keeps.pair e5 ?_
          refine Keeps.trans ?_ (regRead_keeps ..)
          exact Keeps.refl _
        refine Keeps.trans ?_ (emit_keeps ..)
        exact hv4

theorem execBarMemoryRead_keeps (port : Nat) (fn : Nat) (bar : Nat) (off : Nat) (s : State) :
    ∃ u, execBarMemoryRead port fn bar off s = .next u ∧ Keeps s u := by
  unfold execBarMemoryRead
  refine Keeps.iteNext ?_ ?_
  · refine Keeps.done ?_
    exact Keeps.refl _
  · refine Keeps.iteNext ?_ ?_
    · refine Keeps.done ?_
      refine Keeps.trans ?_ (unsupported_keeps ..)
      exact Keeps.refl _
    · refine Keeps.iteNext ?_ ?_
      · refine Keeps.done ?_
        refine Keeps.trans ?_ (misalignedRead_keeps ..)
        exact Keeps.refl _
      · refine Keeps.iteNext ?_ ?_
        · refine Keeps.done ?_
          refine Keeps.trans ?_ (waitAccess_keeps ..)
          exact Keeps.refl _
        · refine Keeps.done ?_
          refine Keeps.trans ?_ (barRead_keeps ..)
          exact Keeps.refl _

theorem plainWrite_keeps (s : State) (port : Nat) (fn : Nat) (off : Nat) (v : Word) :
    Keeps s (plainWrite s port fn off v) := by
  unfold plainWrite
  try conv => arg 2; zeta
  refine Keeps.ite ?_ ?_
  · exact Keeps.refl _
  · refine Keeps.trans ?_ (State.updFn_keeps _ _ _ _ (fun _ h => h))
    exact Keeps.refl _

theorem injWriteBytes_keeps (s : State) (port fn off : Nat) (data : Bytes) : Keeps s (injWriteBytes s port fn off data) := by
  unfold injWriteBytes
  exact Keeps.ite (State.updInj_keeps _ _ _ _ (fun _ h => cellWriteBytes_wf _ _ _ _ h)) (Keeps.refl _)

theorem also_keeps (b : Bool) (f : State → Host.Outcome State Fault Refusal) (s : State)
    (hf : ∃ u, f s = .next u ∧ Keeps s u) : Keeps s (also b f s) := by
  unfold also
  refine Keeps.ite ?_ (Keeps.refl _)
  obtain ⟨u, e, h⟩ := hf
  rw [e]
  exact h

theorem execMisalignedAccess_keeps (acc : Acc) (bar : Nat) (off : Nat) (size : Nat) (write : Bool) (s : State) :
    ∃ u, execMisalignedAccess acc bar off size write s = .next u ∧ Keeps s u := by
  unfold execMisalignedAccess
  split
  · refine Keeps.done ?_
    exact Keeps.refl _
  · refine Keeps.iteNext ?_ ?_
    · refine Keeps.done ?_
      exact Keeps.refl _
    · refine Keeps.iteNext ?_ ?_
      · refine Keeps.done ?_
        refine Keeps.ite ?_ ?_
        · exact Keeps.refl _
        · refine Keeps.trans ?_ (unsupported_keeps ..)
          exact Keeps.refl _
      · refine Keeps.done ?_
        refine Keeps.ite ?_ ?_
        · refine Keeps.trans ?_ (misalignedLog_keeps ..)
          exact Keeps.refl _
        · refine Keeps.trans ?_ (misalignedRead_keeps ..)
          exact Keeps.refl _

theorem execCounterLowRead_keeps (acc : Acc) (bar : Nat) (off : Nat) (s : State) :
    ∃ u, execCounterLowRead acc bar off s = .next u ∧ Keeps s u := by
  unfold execCounterLowRead
  split
  · refine Keeps.iteNext ?_ ?_
    · refine Keeps.done ?_
      exact Keeps.refl _
    · refine Keeps.iteNext ?_ ?_
      · refine Keeps.done ?_
        refine Keeps.trans ?_ (unsupported_keeps ..)
        exact Keeps.refl _
      · refine Keeps.iteNext ?_ ?_
        · refine Keeps.done ?_
          refine Keeps.trans ?_ (misalignedRead_keeps ..)
          exact Keeps.refl _
        · refine Keeps.iteNext ?_ ?_
          · refine Keeps.done ?_
            refine Keeps.trans ?_ (waitAccess_keeps ..)
            exact Keeps.refl _
          · refine Keeps.done ?_
            refine Keeps.trans ?_ (barRead_keeps ..)
            exact Keeps.refl _
  · refine Keeps.iteNext ?_ ?_
    · split
      · rename_i v0 v1 e2
        have hv1 : Keeps s v1 := by
          refine Keeps.pair e2 ?_
          refine Keeps.trans ?_ (aonRead_keeps ..)
          exact Keeps.refl _
        refine Keeps.done ?_
        refine Keeps.trans ?_ (emit_keeps ..)
        exact hv1
    · refine Keeps.done ?_
      exact Keeps.refl _

theorem ringWrite_keeps (s : State) (port : Nat) (fn : Nat) (off : Nat) (v : Word) :
    Keeps s (ringWrite s port fn off v) := by
  unfold ringWrite
  refine Keeps.trans ?_ (State.updRing_keeps ..)
  exact Keeps.refl _

theorem execBarMemoryWrite_keeps (port : Nat) (fn : Nat) (off : Nat) (data : Bytes) (poisoned : Bool) (s : State) :
    ∃ u, execBarMemoryWrite port fn off data poisoned s = .next u ∧ Keeps s u := by
  unfold execBarMemoryWrite
  refine Keeps.iteNext ?_ ?_
  · refine Keeps.done ?_
    exact Keeps.refl _
  · refine Keeps.iteNext ?_ ?_
    · refine Keeps.done ?_
      refine Keeps.trans ?_ (portCount_keeps ..)
      exact Keeps.refl _
    · refine Keeps.done ?_
      refine Keeps.trans ?_ (injWriteBytes_keeps ..)
      exact Keeps.refl _

theorem bar4Write_keeps (s : State) (port : Nat) (off : Nat) (v : Word) :
    Keeps s (bar4Write s port off v) := by
  unfold bar4Write
  refine Keeps.ite ?_ ?_
  · refine Keeps.trans ?_ (holdWrite_keeps ..)
    exact Keeps.refl _
  · refine Keeps.ite ?_ ?_
    · exact Keeps.refl _
    · refine Keeps.trans ?_ (State.updFn_keeps _ _ _ _ (fun _ h => h))
      exact Keeps.refl _

/-! ### Machine/Controllers.lean -/

theorem tuRestart_keeps (s : State) :
    Keeps s (tuRestart s) := by
  unfold tuRestart
  try conv => arg 2; zeta
  refine Keeps.ofMk ?_ rfl rfl rfl rfl rfl rfl rfl rfl (fun h => h) rfl rfl (Nat.le_refl _)
  exact Keeps.refl _

theorem pacRestart_keeps (s : State) :
    Keeps s (pacRestart s) := by
  unfold pacRestart
  try conv => arg 2; zeta
  refine Keeps.ofMk ?_ rfl rfl rfl rfl rfl rfl rfl rfl (fun h => h) rfl rfl (Nat.le_refl _)
  exact Keeps.refl _

theorem scuRestart_keeps (s : State) :
    Keeps s (scuRestart s) := by
  unfold scuRestart
  try conv => arg 2; zeta
  refine Keeps.trans ?_ (attScuRestart_keeps ..)
  refine Keeps.trans ?_ (keyAbort_keeps ..)
  refine Keeps.trans ?_ (flashScuRestart_keeps ..)
  refine Keeps.trans ?_ (moultCut_keeps ..)
  refine Keeps.ofMk ?_ rfl rfl rfl rfl rfl rfl rfl rfl (fun h => h) rfl rfl (Nat.le_refl _)
  exact Keeps.refl _

theorem execControllerRestart_keeps (unit : Nat) (s : State) :
    ∃ u, execControllerRestart unit s = .next u ∧ Keeps s u := by
  unfold execControllerRestart
  refine Keeps.iteNext ?_ ?_
  · refine Keeps.done ?_
    exact Keeps.refl _
  · refine Keeps.iteNext ?_ ?_
    · refine Keeps.done ?_
      refine Keeps.trans ?_ (raiseAlarm_keeps ..)
      refine Keeps.trans ?_ (pacRestart_keeps ..)
      exact Keeps.refl _
    · refine Keeps.iteNext ?_ ?_
      · refine Keeps.done ?_
        refine Keeps.trans ?_ (raiseAlarm_keeps ..)
        refine Keeps.trans ?_ (scuRestart_keeps ..)
        exact Keeps.refl _
      · refine Keeps.iteNext ?_ ?_
        · refine Keeps.done ?_
          refine Keeps.trans ?_ (raiseAlarm_keeps ..)
          refine Keeps.trans ?_ (tuRestart_keeps ..)
          exact Keeps.refl _
        · refine Keeps.done ?_
          exact Keeps.refl _

theorem tuResume_keeps (s : State) :
    Keeps s (tuResume s) := by
  unfold tuResume
  try conv => arg 2; zeta
  refine Keeps.foldl (fun y0 _ => ?_) ?_ _
  · refine Keeps.trans ?_ (pumpEvents_keeps ..)
    exact Keeps.refl _
  · refine Keeps.ite ?_ ?_
    · refine Keeps.ofMk ?_ rfl rfl rfl rfl rfl rfl rfl rfl (fun h => h) rfl rfl (Nat.le_refl _)
      refine Keeps.ofMk ?_ rfl rfl rfl rfl rfl rfl rfl rfl (fun h => h) rfl rfl (Nat.le_refl _)
      exact Keeps.refl _
    · refine Keeps.ofMk ?_ rfl rfl rfl rfl rfl rfl rfl rfl (fun h => h) rfl rfl (Nat.le_refl _)
      exact Keeps.refl _

theorem pacResume_keeps (s : State) :
    Keeps s (pacResume s) := by
  unfold pacResume
  try conv => arg 2; zeta
  refine Keeps.trans ?_ (wakeHeld_keeps ..)
  refine Keeps.foldl (fun y0 _ => ?_) ?_ _
  · refine Keeps.trans ?_ (followTarget_keeps ..)
    exact Keeps.refl _
  · refine Keeps.ofMk ?_ rfl rfl rfl rfl rfl rfl rfl rfl (fun h => h) rfl rfl (Nat.le_refl _)
    exact Keeps.refl _

/-! ### Machine/Dx.lean -/

theorem sendFrags_keeps (e : Bytes) (slot : Nat) (ts : Nat) (seq : Nat) (n : Nat) (x5 : List Bytes) (x6 : Nat) (x7 : State) :
    Keeps x7 (sendFrags e slot ts seq n x5 x6 x7) := by
  induction x5 generalizing x6 x7 with
  | nil =>
    rw [sendFrags]
    exact Keeps.refl _
  | cons a t ih =>
    rw [sendFrags]
    refine Keeps.trans ?_ (ih ..)
    refine Keeps.trans ?_ (sendUdp_keeps ..)
    refine Keeps.trans ?_ (recSet_keeps ..)
    exact Keeps.refl _

theorem sendUnit_keeps (s : State) (e : Bytes) (slot : Nat) (ts : Nat) (seq : Nat) (u : Bytes) :
    Keeps s (sendUnit s e slot ts seq u) := by
  unfold sendUnit
  try conv => arg 2; zeta
  refine Keeps.trans ?_ (sendFrags_keeps ..)
  exact Keeps.refl _

theorem emitUnit_keeps (s : State) (f : Frame) (ty : Nat) (body : Bytes) (fid : Option Nat) :
    Keeps s (emitUnit s f ty body fid).2 := by
  unfold emitUnit
  try conv => arg 2; zeta
  split
  · refine Keeps.snd ?_
    refine Keeps.trans ?_ (ringDeliver_keeps ..)
    refine Keeps.ite ?_ ?_
    · refine Keeps.trans ?_ (sendUnit_keeps ..)
      refine Keeps.trans ?_ (recSet_keeps ..)
      exact Keeps.refl _
    · refine Keeps.trans ?_ (recSet_keeps ..)
      exact Keeps.refl _
  · refine Keeps.snd ?_
    refine Keeps.ite ?_ ?_
    · refine Keeps.trans ?_ (sendUnit_keeps ..)
      refine Keeps.trans ?_ (recSet_keeps ..)
      exact Keeps.refl _
    · refine Keeps.trans ?_ (recSet_keeps ..)
      exact Keeps.refl _

theorem emitCodebooks_keeps (f : Frame) (x1 : List (Nat × Bytes)) (x2 : State) :
    Keeps x2 (emitCodebooks f x1 x2) := by
  induction x1 generalizing x2 with
  | nil =>
    rw [emitCodebooks]
    exact Keeps.refl _
  | cons a t ih =>
    rw [emitCodebooks]
    refine Keeps.trans ?_ (ih ..)
    refine Keeps.trans ?_ (State.updStream_keeps ..)
    refine Keeps.trans ?_ (emitUnit_keeps ..)
    exact Keeps.refl _

theorem emitRecord_keeps (s : State) (slot : Nat) (fid : Nat) (body : Bytes) :
    Keeps s (emitRecord s slot fid body) := by
  unfold emitRecord
  try conv => arg 2; zeta
  split
  · split
    · rename_i v0 v1 e2
      have hv1 : Keeps s v1 := by
        refine Keeps.pair e2 ?_
        refine Keeps.trans ?_ (emitUnit_keeps ..)
        refine Keeps.trans ?_ (State.updFrame_keeps ..)
        refine Keeps.trans ?_ (recSet_keeps ..)
        refine Keeps.trans ?_ (State.updStream_keeps ..)
        refine Keeps.trans ?_ (emitCodebooks_keeps ..)
        exact Keeps.refl _
      refine Keeps.ite ?_ ?_
      · exact hv1
      · refine Keeps.trans ?_ (frameServed_keeps ..)
        exact hv1

theorem execRecordEmit_keeps (slot : Nat) (s : State) :
    ∃ u, execRecordEmit slot s = .next u ∧ Keeps s u := by
  unfold execRecordEmit
  split
  · refine Keeps.done ?_
    exact Keeps.refl _
  · split
    · refine Keeps.done ?_
      exact Keeps.refl _
    · refine Keeps.iteNext ?_ ?_
      · refine Keeps.done ?_
        exact Keeps.refl _
      · refine Keeps.done ?_
        refine Keeps.trans ?_ (sweepSlots_keeps ..)
        refine Keeps.trans ?_ (emitRecord_keeps ..)
        exact Keeps.refl _

theorem execRecordEncode_keeps (slot : Nat) (s : State) :
    ∃ u, execRecordEncode slot s = .next u ∧ Keeps s u := by
  unfold execRecordEncode
  try conv => enter [1, t, 1, 1]; zeta
  split
  · refine Keeps.done ?_
    exact Keeps.refl _
  · refine Keeps.iteNext ?_ ?_
    · refine Keeps.done ?_
      exact Keeps.refl _
    · refine Keeps.done ?_
      refine Keeps.trans ?_ (frameStage_keeps ..)
      refine Keeps.trans ?_ (State.updFrame_keeps ..)
      exact Keeps.refl _

/-! ### Machine/Records.lean -/

theorem discardChrysalis_keeps (s : State) (cx : Nat) :
    Keeps s (discardChrysalis s cx) := by
  unfold discardChrysalis
  try conv => arg 2; zeta
  split
  · exact Keeps.refl _
  · split
    · exact Keeps.refl _
    · refine Keeps.trans ?_ (requeueCtx_keeps ..)
      refine Keeps.trans ?_ (ctxLose_keeps ..)
      refine Keeps.trans ?_ (raiseLogOf_keeps ..)
      refine Keeps.trans ?_ (ctxPartCount_keeps ..)
      refine Keeps.trans ?_ (State.updCtx_keeps ..)
      refine Keeps.trans ?_ (freeChrysalis_keeps ..)
      exact Keeps.refl _

theorem recordError_keeps (s : State) (i : Nat) :
    Keeps s (recordError s i) := by
  unfold recordError
  try conv => arg 2; zeta
  refine Keeps.ite ?_ ?_
  · split
    · refine Keeps.trans ?_ (raiseLog_keeps ..)
      exact Keeps.refl _
    · refine Keeps.trans ?_ (discardChrysalis_keeps ..)
      refine Keeps.trans ?_ (ctxPartCount_keeps ..)
      exact Keeps.refl _
  · split
    · refine Keeps.trans ?_ (raiseOpen_keeps ..)
      refine Keeps.trans ?_ (reinitRun_keeps ..)
      refine Keeps.trans ?_ (ctxPartCount_keeps ..)
      refine Keeps.trans ?_ (ctxCount_keeps ..)
      exact Keeps.refl _
    · refine Keeps.trans ?_ (raiseLogOf_keeps ..)
      refine Keeps.trans ?_ (recSet_keeps ..)
      refine Keeps.trans ?_ (ringEmpty_keeps ..)
      refine Keeps.trans ?_ (ctxPartCount_keeps ..)
      refine Keeps.trans ?_ (ctxCount_keeps ..)
      exact Keeps.refl _
    · refine Keeps.trans ?_ (raiseLogOf_keeps ..)
      refine Keeps.ite ?_ ?_
      · refine Keeps.trans ?_ (freeTrack_keeps ..)
        refine Keeps.trans ?_ (ctxPartCount_keeps ..)
        refine Keeps.trans ?_ (ctxCount_keeps ..)
        exact Keeps.refl _
      · refine Keeps.trans ?_ (ctxPartCount_keeps ..)
        refine Keeps.trans ?_ (ctxCount_keeps ..)
        exact Keeps.refl _
    · refine Keeps.trans ?_ (raiseLogOf_keeps ..)
      refine Keeps.trans ?_ (adapterReset_keeps ..)
      refine Keeps.trans ?_ (ctxPartCount_keeps ..)
      refine Keeps.trans ?_ (ctxCount_keeps ..)
      exact Keeps.refl _
    · refine Keeps.trans ?_ (raiseLogOf_keeps ..)
      refine Keeps.trans ?_ (adapterReset_keeps ..)
      refine Keeps.trans ?_ (ctxPartCount_keeps ..)
      refine Keeps.trans ?_ (ctxCount_keeps ..)
      exact Keeps.refl _
    · refine Keeps.trans ?_ (raiseLogOf_keeps ..)
      refine Keeps.trans ?_ (restoreTables_keeps ..)
      refine Keeps.trans ?_ (ctxPartCount_keeps ..)
      refine Keeps.trans ?_ (ctxCount_keeps ..)
      exact Keeps.refl _
    · refine Keeps.trans ?_ (ctxPartCount_keeps ..)
      refine Keeps.trans ?_ (ctxCount_keeps ..)
      exact Keeps.refl _

theorem execContextRecordAccess_keeps (index : Nat) (acc : RecAccess) (ecc : Ecc) (s : State) :
    ∃ u, execContextRecordAccess index acc ecc s = .next u ∧ Keeps s u := by
  unfold execContextRecordAccess
  try conv => enter [1, t, 1, 1]; zeta
  split
  · split
    · refine Keeps.done ?_
      refine Keeps.trans ?_ (storeRead_keeps ..)
      exact Keeps.refl _
    · refine Keeps.done ?_
      refine Keeps.ofMk ?_ rfl rfl rfl rfl rfl rfl rfl rfl (fun h => h) rfl rfl (Nat.le_refl _)
      refine Keeps.trans ?_ (storeRead_keeps ..)
      exact Keeps.refl _
    · refine Keeps.done ?_
      refine Keeps.trans ?_ (recordError_keeps ..)
      refine Keeps.trans ?_ (storeRead_keeps ..)
      exact Keeps.refl _
  · refine Keeps.iteNext ?_ ?_
    · refine Keeps.done ?_
      refine Keeps.trans ?_ (ctxPartCount_keeps ..)
      refine Keeps.trans ?_ (ctxCount_keeps ..)
      exact Keeps.refl _
    · refine Keeps.done ?_
      refine Keeps.trans ?_ (storeWrite_keeps ..)
      exact Keeps.refl _

/-! ### Machine/FabricFault.lean -/

theorem restartBlock_keeps (s : State) (b : Nat) :
    Keeps s (restartBlock s b) := by
  unfold restartBlock
  try conv => arg 2; zeta
  refine Keeps.foldl (fun y0 _ => ?_) ?_ _
  · refine Keeps.trans ?_ (flagFrames_keeps ..)
    exact Keeps.refl _
  · refine Keeps.trans ?_ (State.updRegion_keeps ..)
    refine Keeps.trans ?_ (State.updBlock_keeps ..)
    refine Keeps.trans ?_ (shadowDiscard_keeps ..)
    refine Keeps.trans ?_ (sramZero_keeps ..)
    refine Keeps.trans ?_ (blockFlush_keeps ..)
    exact Keeps.refl _

theorem blockFault_keeps (s : State) (b : Nat) :
    Keeps s (blockFault s b) := by
  unfold blockFault
  try conv => arg 2; zeta
  refine Keeps.ite ?_ ?_
  · exact Keeps.refl _
  · refine Keeps.ite ?_ ?_
    · refine Keeps.trans ?_ (blockFence_keeps ..)
      exact Keeps.refl _
    · refine Keeps.ite ?_ ?_
      · refine Keeps.trans ?_ (regionFence_keeps ..)
        refine Keeps.trans ?_ (restartBlock_keeps ..)
        exact Keeps.refl _
      · refine Keeps.trans ?_ (restartBlock_keeps ..)
        exact Keeps.refl _

theorem execMapperWatchdog_keeps (block : Nat) (s : State) :
    ∃ u, execMapperWatchdog block s = .next u ∧ Keeps s u := by
  unfold execMapperWatchdog
  refine Keeps.iteNext ?_ ?_
  · refine Keeps.done ?_
    refine Keeps.trans ?_ (blockFault_keeps ..)
    exact Keeps.refl _
  · refine Keeps.done ?_
    exact Keeps.refl _

theorem resumeLayer_keeps (s : State) (cx : Nat) (q : Stripe) (li : Nat) (sec : Nat × Nat × Nat) :
    Keeps s (resumeLayer s cx q li sec) := by
  unfold resumeLayer
  try conv => arg 2; zeta
  refine Keeps.trans ?_ (ctxPartCount_keeps ..)
  refine Keeps.trans ?_ (updSweep_keeps ..)
  exact Keeps.refl _

theorem resumeLayers_keeps (cx : Nat) (old : Ctx) (body : Bytes) (qs : List (Stripe × Stripe)) (x4 : List Nat) (x5 : State) :
    Keeps x5 (resumeLayers cx old body qs x4 x5) := by
  induction x4 generalizing x5 with
  | nil =>
    rw [resumeLayers]
    exact Keeps.refl _
  | cons a t ih =>
    rw [resumeLayers]
    refine Keeps.trans ?_ (ih ..)
    refine Keeps.foldl (fun y0 _ => ?_) ?_ _
    · refine Keeps.trans ?_ (resumeLayer_keeps ..)
      exact Keeps.refl _
    · exact Keeps.refl _

theorem reissueGroup_keeps (s : State) (b : Nat) (m : CellCmd) :
    Keeps s (reissueGroup s b m) := by
  unfold reissueGroup
  try conv => arg 2; zeta
  split
  · exact Keeps.refl _
  · refine Keeps.trans ?_ (updSweep_keeps ..)
    refine Keeps.foldl (fun y0 _ => ?_) ?_ _
    · refine Keeps.trans ?_ (State.updCell_keeps ..)
      exact Keeps.refl _
    · exact Keeps.refl _

theorem reissueAll_keeps (b : Nat) (x1 : List CellCmd) (x2 : State) :
    Keeps x2 (reissueAll b x1 x2) := by
  induction x1 generalizing x2 with
  | nil =>
    rw [reissueAll]
    exact Keeps.refl _
  | cons a t ih =>
    rw [reissueAll]
    refine Keeps.trans ?_ (ih ..)
    refine Keeps.ite ?_ ?_
    · refine Keeps.trans ?_ (reissueGroup_keeps ..)
      exact Keeps.refl _
    · exact Keeps.refl _

theorem giveUpTile_keeps (s : State) (b : Nat) (m : CellCmd) :
    Keeps s (giveUpTile s b m) := by
  unfold giveUpTile
  try conv => arg 2; zeta
  split
  · refine Keeps.trans ?_ (tileCommitted_keeps ..)
    refine Keeps.trans ?_ (State.updCtx_keeps ..)
    exact Keeps.refl _
  · refine Keeps.ite ?_ ?_
    · refine Keeps.trans ?_ (discardFrame_keeps ..)
      refine Keeps.trans ?_ (tileCommitted_keeps ..)
      refine Keeps.trans ?_ (State.updCtx_keeps ..)
      exact Keeps.refl _
    · refine Keeps.trans ?_ (tileCommitted_keeps ..)
      refine Keeps.trans ?_ (State.updCtx_keeps ..)
      exact Keeps.refl _

theorem replayCmd_keeps (s : State) (b : Nat) (m : CellCmd) (cause : Nat) :
    Keeps s (replayCmd s b m cause) := by
  unfold replayCmd
  try conv => arg 2; zeta
  split
  · exact Keeps.refl _
  · refine Keeps.ite ?_ ?_
    · refine Keeps.trans ?_ (entryProgress_keeps ..)
      refine Keeps.trans ?_ (reissueAll_keeps ..)
      refine Keeps.trans ?_ (giveUpTile_keeps ..)
      refine Keeps.trans ?_ (State.updCtx_keeps ..)
      exact Keeps.refl _
    · split
      · refine Keeps.trans ?_ (reissueAll_keeps ..)
        refine Keeps.trans ?_ (State.updCtx_keeps ..)
        exact Keeps.refl _
      · refine Keeps.trans ?_ (ledgerWrite_keeps ..)
        refine Keeps.trans ?_ (State.updFrame_keeps ..)
        refine Keeps.trans ?_ (reissueAll_keeps ..)
        refine Keeps.trans ?_ (State.updCtx_keeps ..)
        exact Keeps.refl _

theorem abortRunning_keeps (s : State) (c : Nat) (cause : Nat) :
    Keeps s (abortRunning s c cause) := by
  unfold abortRunning
  try conv => arg 2; zeta
  refine Keeps.foldl (fun y1 _ => ?_) ?_ _
  · refine Keeps.trans ?_ (replayCmd_keeps ..)
    exact Keeps.refl _
  · refine Keeps.foldl (fun y0 _ => ?_) ?_ _
    · refine Keeps.trans ?_ (rangesFree_keeps ..)
      exact Keeps.refl _
    · refine Keeps.trans ?_ (State.updCell_keeps ..)
      refine Keeps.trans ?_ (State.updRegion_keeps ..)
      exact Keeps.refl _

theorem cellFault_keeps (s : State) (c : Nat) :
    Keeps s (cellFault s c) := by
  unfold cellFault
  try conv => arg 2; zeta
  refine Keeps.ite ?_ ?_
  · exact Keeps.refl _
  · refine Keeps.trans ?_ (selftestPlace_keeps ..)
    refine Keeps.trans ?_ (cellFence_keeps ..)
    refine Keeps.foldl (fun y0 _ => ?_) ?_ _
    · refine Keeps.trans ?_ (shadowDrop_keeps ..)
      exact Keeps.refl _
    · refine Keeps.trans ?_ (reissueAll_keeps ..)
      refine Keeps.trans ?_ (abortRunning_keeps ..)
      exact Keeps.refl _

theorem execCellEccError_keeps (cell : Nat) (ecc : Ecc) (s : State) :
    ∃ u, execCellEccError cell ecc s = .next u ∧ Keeps s u := by
  unfold execCellEccError
  split
  · refine Keeps.done ?_
    exact Keeps.refl _
  · refine Keeps.done ?_
    refine Keeps.trans ?_ (State.updCell_keeps ..)
    exact Keeps.refl _
  · refine Keeps.done ?_
    refine Keeps.trans ?_ (cellFault_keeps ..)
    exact Keeps.refl _

theorem execResidueMismatch_keeps (cell : Nat) (s : State) :
    ∃ u, execResidueMismatch cell s = .next u ∧ Keeps s u := by
  unfold execResidueMismatch
  refine Keeps.done ?_
  refine Keeps.trans ?_ (cellFault_keeps ..)
  exact Keeps.refl _

theorem execCellSelftestReturn_keeps (cell : Nat) (pass : Bool) (s : State) :
    ∃ u, execCellSelftestReturn cell pass s = .next u ∧ Keeps s u := by
  unfold execCellSelftestReturn
  try conv => enter [1, t, 1, 1]; zeta
  refine Keeps.iteNext ?_ ?_
  · refine Keeps.done ?_
    refine Keeps.trans ?_ (selftestEnds_keeps ..)
    refine Keeps.trans ?_ (State.updCell_keeps ..)
    exact Keeps.refl _
  · refine Keeps.iteNext ?_ ?_
    · refine Keeps.done ?_
      refine Keeps.trans ?_ (selftestEnds_keeps ..)
      exact Keeps.refl _
    · refine Keeps.done ?_
      exact Keeps.refl _

theorem execRegionFault_keeps (region : Nat) (x1 : Nat) (s : State) :
    ∃ u, execRegionFault region x1 s = .next u ∧ Keeps s u := by
  unfold execRegionFault
  refine Keeps.done ?_
  refine Keeps.trans ?_ (regionFence_keeps ..)
  exact Keeps.refl _

theorem redoTails_keeps (s : State) (cx : Nat) (b : Nat) :
    Keeps s (redoTails s cx b) := by
  unfold redoTails
  try conv => arg 2; zeta
  refine Keeps.foldl (fun y0 _ => ?_) ?_ _
  · split
    · exact Keeps.refl _
    · refine Keeps.ite ?_ ?_
      · refine Keeps.trans ?_ (updSweep_keeps ..)
        exact Keeps.refl _
      · exact Keeps.refl _
  · exact Keeps.refl _

theorem execBlockRestart_keeps (block : Nat) (s : State) :
    ∃ u, execBlockRestart block s = .next u ∧ Keeps s u := by
  unfold execBlockRestart
  refine Keeps.done ?_
  refine Keeps.trans ?_ (blockFault_keeps ..)
  exact Keeps.refl _

theorem semRecreate_keeps (cx : Nat) (x1 : List Claim) (x2 : State) :
    Keeps x2 (semRecreate cx x1 x2) := by
  induction x1 generalizing x2 with
  | nil =>
    rw [semRecreate]
    exact Keeps.refl _
  | cons a t ih =>
    rw [semRecreate]
    refine Keeps.trans ?_ (ih ..)
    refine Keeps.trans ?_ (State.updBlock_keeps ..)
    refine Keeps.trans ?_ (State.updCtx_keeps ..)
    exact Keeps.refl _

theorem withdrawQueued_keeps (s : State) (cx : Nat) :
    Keeps s (withdrawQueued s cx) := by
  unfold withdrawQueued
  refine Keeps.ofMk ?_ rfl rfl rfl rfl rfl rfl rfl rfl (fun h => h) rfl rfl (Nat.le_refl _)
  exact Keeps.refl _

theorem leaveBlocks_keeps (s : State) (cx : Nat) :
    Keeps s (leaveBlocks s cx) := by
  unfold leaveBlocks
  try conv => arg 2; zeta
  refine Keeps.ofMk ?_ rfl rfl rfl rfl rfl rfl rfl rfl (fun h => h) rfl rfl (Nat.le_refl _)
  exact Keeps.refl _

theorem captureCtx_keeps (s : State) (cx : Nat) :
    Keeps s (captureCtx s cx) := by
  unfold captureCtx
  try conv => arg 2; zeta
  split
  · exact Keeps.refl _
  · refine Keeps.ite ?_ ?_
    · exact Keeps.refl _
    · split
      · split
        · rename_i v0 v1 e1 e2
          have hv1 : Keeps s v1 := by
            refine Keeps.pair e2 ?_
            refine Keeps.trans ?_ (bpmAlloc_keeps ..)
            exact Keeps.refl _
          refine Keeps.trans ?_ (ctxPartCount_keeps ..)
          refine Keeps.trans ?_ (ctxPartCount_keeps ..)
          refine Keeps.trans ?_ (State.updCtx_keeps ..)
          refine Keeps.trans ?_ (leaveBlocks_keeps ..)
          refine Keeps.ofMk ?_ rfl rfl rfl rfl rfl rfl rfl rfl (fun h => h) rfl rfl (Nat.le_refl _)
          refine Keeps.trans ?_ (storeNew_keeps ..)
          refine Keeps.trans ?_ (withdrawQueued_keeps ..)
          refine Keeps.trans ?_ (chargeBody_keeps ..)
          refine Keeps.trans ?_ (dramWrite_keeps ..)
          refine Keeps.trans ?_ (stageBody_keeps ..)
          exact hv1
        · refine Keeps.trans ?_ (ctxPartCount_keeps ..)
          exact Keeps.refl _
      · refine Keeps.trans ?_ (ctxPartCount_keeps ..)
        exact Keeps.refl _

theorem evictFrom_keeps (s : State) (b : Nat) :
    Keeps s (evictFrom s b) := by
  unfold evictFrom
  try conv => arg 2; zeta
  split
  · exact Keeps.refl _
  · refine Keeps.ite ?_ ?_
    · refine Keeps.trans ?_ (rgnCount_keeps ..)
      refine Keeps.trans ?_ (captureCtx_keeps ..)
      exact Keeps.refl _
    · refine Keeps.trans ?_ (captureCtx_keeps ..)
      exact Keeps.refl _

theorem execEviction_keeps (block : Nat) (s : State) :
    ∃ u, execEviction block s = .next u ∧ Keeps s u := by
  unfold execEviction
  refine Keeps.iteNext ?_ ?_
  · refine Keeps.done ?_
    refine Keeps.trans ?_ (evictFrom_keeps ..)
    exact Keeps.refl _
  · refine Keeps.done ?_
    exact Keeps.refl _

theorem handoffRecreate_keeps (s : State) (cx : Nat) (q : Stripe) :
    Keeps s (handoffRecreate s cx q) := by
  unfold handoffRecreate
  try conv => arg 2; zeta
  refine Keeps.foldl (fun y0 _ => ?_) ?_ _
  · refine Keeps.trans ?_ (State.updBlock_keeps ..)
    refine Keeps.trans ?_ (State.updBlock_keeps ..)
    exact Keeps.refl _
  · exact Keeps.refl _

theorem execResidencyWaitTimeout_keeps (block : Nat) (s : State) :
    ∃ u, execResidencyWaitTimeout block s = .next u ∧ Keeps s u := by
  unfold execResidencyWaitTimeout
  refine Keeps.iteNext ?_ ?_
  · refine Keeps.done ?_
    refine Keeps.trans ?_ (evictFrom_keeps ..)
    exact Keeps.refl _
  · refine Keeps.done ?_
    exact Keeps.refl _

theorem execRegionStoreEccError_keeps (region : Nat) (addr : Nat) (s : State) :
    ∃ u, execRegionStoreEccError region addr s = .next u ∧ Keeps s u := by
  unfold execRegionStoreEccError
  try conv => enter [1, t, 1, 1]; zeta
  refine Keeps.done ?_
  refine Keeps.foldl (fun y0 _ => ?_) ?_ _
  · refine Keeps.foldl (fun y1 _ => ?_) ?_ _
    · refine Keeps.trans ?_ (replayCmd_keeps ..)
      refine Keeps.trans ?_ (abortCmd_keeps ..)
      exact Keeps.refl _
    · exact Keeps.refl _
  · exact Keeps.refl _

theorem execChrysalisCapture_keeps (ctx : Nat) (s : State) :
    ∃ u, execChrysalisCapture ctx s = .next u ∧ Keeps s u := by
  unfold execChrysalisCapture
  refine Keeps.done ?_
  refine Keeps.trans ?_ (captureCtx_keeps ..)
  exact Keeps.refl _

theorem resumeStripes_keeps (s : State) (cx : Nat) (old : Ctx) (bl : List Nat) (body : Bytes) :
    Keeps s (resumeStripes s cx old bl body) := by
  unfold resumeStripes
  try conv => arg 2; zeta
  refine Keeps.foldl (fun y0 _ => ?_) ?_ _
  · refine Keeps.trans ?_ (handoffRecreate_keeps ..)
    exact Keeps.refl _
  · refine Keeps.trans ?_ (resumeLayers_keeps ..)
    refine Keeps.trans ?_ (semRecreate_keeps ..)
    refine Keeps.trans ?_ (State.updCtx_keeps ..)
    exact Keeps.refl _

theorem restoreInto_keeps (s : State) (cx : Nat) (x : Ctx) (bl : List Nat) (body : Bytes) :
    Keeps s (restoreInto s cx x bl body) := by
  unfold restoreInto
  try conv => arg 2; zeta
  refine Keeps.trans ?_ (ctxPartCount_keeps ..)
  refine Keeps.trans ?_ (ctxPartCount_keeps ..)
  refine Keeps.trans ?_ (ctxPartCount_keeps ..)
  refine Keeps.trans ?_ (chargeBody_keeps ..)
  refine Keeps.ite ?_ ?_
  · refine Keeps.trans ?_ (resumeStripes_keeps ..)
    refine Keeps.trans ?_ (placeCtx_keeps ..)
    refine Keeps.trans ?_ (State.updCtx_keeps ..)
    refine Keeps.trans ?_ (freeChrysalis_keeps ..)
    refine Keeps.trans ?_ (stageBody_keeps ..)
    exact Keeps.refl _
  · refine Keeps.trans ?_ (placeCtx_keeps ..)
    refine Keeps.trans ?_ (State.updCtx_keeps ..)
    refine Keeps.trans ?_ (freeChrysalis_keeps ..)
    refine Keeps.trans ?_ (stageBody_keeps ..)
    exact Keeps.refl _

theorem reclaimEntry_keeps (cx : Nat) (x1 : List Nat) (x2 : State) :
    Keeps x2 (reclaimEntry cx x1 x2) := by
  induction x1 generalizing x2 with
  | nil =>
    rw [reclaimEntry]
    exact Keeps.refl _
  | cons a t ih =>
    rw [reclaimEntry]
    try conv => arg 2; zeta
    refine Keeps.trans ?_ (ih ..)
    refine Keeps.trans ?_ (State.updBlock_keeps ..)
    refine Keeps.trans ?_ (State.updCtx_keeps ..)
    refine Keeps.trans ?_ (State.updCtx_keeps ..)
    refine Keeps.trans ?_ (State.updCtx_keeps ..)
    refine Keeps.trans ?_ (State.updCtx_keeps ..)
    refine Keeps.ofMk ?_ rfl rfl rfl rfl rfl rfl rfl rfl (fun h => h) rfl rfl (Nat.le_refl _)
    exact Keeps.refl _

theorem reclaim_keeps (s : State) (b : Nat) (cx : Nat) :
    Keeps s (reclaim s b cx) := by
  unfold reclaim
  try conv => arg 2; zeta
  split
  · exact Keeps.refl _
  · refine Keeps.ite ?_ ?_
    · exact Keeps.refl _
    · refine Keeps.trans ?_ (mapCount_keeps ..)
      refine Keeps.trans ?_ (State.updCtx_keeps ..)
      refine Keeps.trans ?_ (redoTails_keeps ..)
      refine Keeps.trans ?_ (reclaimEntry_keeps ..)
      exact Keeps.refl _

theorem execBlockRestartDone_keeps (block : Nat) (s : State) :
    ∃ u, execBlockRestartDone block s = .next u ∧ Keeps s u := by
  unfold execBlockRestartDone
  try conv => enter [1, t, 1, 1]; zeta
  refine Keeps.iteNext ?_ ?_
  · refine Keeps.done ?_
    refine Keeps.foldl (fun y0 _ => ?_) ?_ _
    · refine Keeps.trans ?_ (reclaim_keeps ..)
      exact Keeps.refl _
    · refine Keeps.trans ?_ (State.updBlock_keeps ..)
      exact Keeps.refl _
  · refine Keeps.done ?_
    exact Keeps.refl _

theorem execChrysalisRestore_keeps (ctx : Nat) (block : Nat) (bodyOk : Bool) (s : State) :
    ∃ u, execChrysalisRestore ctx block bodyOk s = .next u ∧ Keeps s u := by
  unfold execChrysalisRestore
  try conv => enter [1, t, 1, 1]; zeta
  split
  · refine Keeps.done ?_
    exact Keeps.refl _
  · split
    · refine Keeps.done ?_
      exact Keeps.refl _
    · refine Keeps.iteNext ?_ ?_
      · refine Keeps.done ?_
        refine Keeps.trans ?_ (discardChrysalis_keeps ..)
        refine Keeps.trans ?_ (storeRead_keeps ..)
        exact Keeps.refl _
      · refine Keeps.iteNext ?_ ?_
        · refine Keeps.iteNext ?_ ?_
          · refine Keeps.done ?_
            refine Keeps.trans ?_ (discardChrysalis_keeps ..)
            refine Keeps.trans ?_ (storeRead_keeps ..)
            exact Keeps.refl _
          · refine Keeps.iteNext ?_ ?_
            · refine Keeps.done ?_
              refine Keeps.trans ?_ (restoreInto_keeps ..)
              refine Keeps.trans ?_ (storeRead_keeps ..)
              exact Keeps.refl _
            · refine Keeps.done ?_
              exact Keeps.refl _
        · refine Keeps.done ?_
          exact Keeps.refl _

theorem execNocLinkCrcError_keeps (x0 : Nat) (s : State) :
    ∃ u, execNocLinkCrcError x0 s = .next u ∧ Keeps s u := by
  unfold execNocLinkCrcError
  refine Keeps.done ?_
  exact Keeps.refl _

theorem execCommandIssue_keeps (cell : Nat) (unit : Nat) (s : State) :
    ∃ u, execCommandIssue cell unit s = .next u ∧ Keeps s u := by
  unfold execCommandIssue
  try conv => enter [1, t, 1, 1]; zeta
  refine Keeps.iteNext ?_ ?_
  · refine Keeps.done ?_
    exact Keeps.refl _
  · split
    · refine Keeps.done ?_
      exact Keeps.refl _
    · refine Keeps.iteNext ?_ ?_
      · refine Keeps.done ?_
        refine Keeps.trans ?_ (raiseLog_keeps ..)
        refine Keeps.trans ?_ (cellFault_keeps ..)
        refine Keeps.trans ?_ (startCmd_keeps ..)
        exact Keeps.refl _
      · refine Keeps.done ?_
        refine Keeps.trans ?_ (startCmd_keeps ..)
        exact Keeps.refl _

/-! ### Machine/Faults.lean -/

theorem parserLose_keeps (s : State) (slot : Nat) :
    Keeps s (parserLose s slot) := by
  unfold parserLose
  try conv => arg 2; zeta
  refine Keeps.trans ?_ (State.updIng_keeps ..)
  refine Keeps.trans ?_ (dropOpenAu_keeps ..)
  exact Keeps.refl _

theorem parserLoses_keeps (x0 : List Nat) (x1 : State) :
    Keeps x1 (parserLoses x0 x1) := by
  induction x0 generalizing x1 with
  | nil =>
    rw [parserLoses]
    exact Keeps.refl _
  | cons a t ih =>
    rw [parserLoses]
    refine Keeps.trans ?_ (ih ..)
    refine Keeps.ite ?_ ?_
    · refine Keeps.trans ?_ (parserLose_keeps ..)
      exact Keeps.refl _
    · exact Keeps.refl _

theorem dropStaged_keeps (port : Nat) (fn : Nat) (x2 : List Nat) (x3 : State) :
    Keeps x3 (dropStaged port fn x2 x3) := by
  induction x2 generalizing x3 with
  | nil =>
    rw [dropStaged]
    exact Keeps.refl _
  | cons a t ih =>
    rw [dropStaged]
    refine Keeps.trans ?_ (ih ..)
    refine Keeps.trans ?_ (ringDropHeld_keeps ..)
    refine Keeps.trans ?_ (State.updRing_keeps ..)
    exact Keeps.refl _

theorem dropAllStaged_keeps (x0 : List Nat) (x1 : State) :
    Keeps x1 (dropAllStaged x0 x1) := by
  induction x0 generalizing x1 with
  | nil =>
    rw [dropAllStaged]
    exact Keeps.refl _
  | cons a t ih =>
    rw [dropAllStaged]
    refine Keeps.trans ?_ (ih ..)
    refine Keeps.trans ?_ (dropStaged_keeps ..)
    exact Keeps.refl _

theorem unitDiscard_keeps (s : State) (u : Nat) :
    Keeps s (unitDiscard s u) := by
  unfold unitDiscard
  try conv => arg 2; zeta
  refine Keeps.ite ?_ ?_
  · refine Keeps.trans ?_ (discardFrames_keeps ..)
    refine Keeps.trans ?_ (parserLoses_keeps ..)
    exact Keeps.refl _
  · refine Keeps.ite ?_ ?_
    · refine Keeps.trans ?_ (dropAllStaged_keeps ..)
      refine Keeps.trans ?_ (discardFrames_keeps ..)
      exact Keeps.refl _
    · refine Keeps.ite ?_ ?_
      · refine Keeps.ofMk ?_ rfl rfl rfl rfl rfl rfl rfl rfl (fun h => h) rfl rfl (Nat.le_refl _)
        exact Keeps.refl _
      · refine Keeps.ite ?_ ?_
        · refine Keeps.ofMk ?_ rfl rfl rfl rfl rfl rfl rfl rfl (fun h => h) rfl rfl (Nat.le_refl _)
          exact Keeps.refl _
        · exact Keeps.refl _

theorem unitRestart_keeps (s : State) (u : Nat) :
    Keeps s (unitRestart s u) := by
  unfold unitRestart
  try conv => arg 2; zeta
  refine Keeps.trans ?_ (raiseAlarm_keeps ..)
  refine Keeps.ofMk ?_ rfl rfl rfl rfl rfl rfl rfl rfl (fun h => h) rfl rfl (Nat.le_refl _)
  refine Keeps.trans ?_ (unitDiscard_keeps ..)
  exact Keeps.refl _

theorem engineLose_keeps (s : State) (slot : Nat) :
    Keeps s (engineLose s slot) := by
  unfold engineLose
  try conv => arg 2; zeta
  refine Keeps.trans ?_ (State.updDec_keeps ..)
  refine Keeps.trans ?_ (rollback_keeps ..)
  refine Keeps.trans ?_ (engineDrop_keeps ..)
  split
  · exact Keeps.refl _
  · refine Keeps.trans ?_ (discardFrame_keeps ..)
    exact Keeps.refl _

theorem engineReassign_keeps (x0 : List Nat) (x1 : State) :
    Keeps x1 (engineReassign x0 x1) := by
  induction x0 generalizing x1 with
  | nil =>
    rw [engineReassign]
    exact Keeps.refl _
  | cons a t ih =>
    rw [engineReassign]
    refine Keeps.trans ?_ (ih ..)
    refine Keeps.ite ?_ ?_
    · exact Keeps.refl _
    · split
      · refine Keeps.trans ?_ (engineTake_keeps ..)
        exact Keeps.refl _
      · exact Keeps.refl _

theorem engineLoses_keeps (x0 : List Nat) (x1 : State) :
    Keeps x1 (engineLoses x0 x1) := by
  induction x0 generalizing x1 with
  | nil =>
    rw [engineLoses]
    exact Keeps.refl _
  | cons a t ih =>
    rw [engineLoses]
    refine Keeps.trans ?_ (ih ..)
    refine Keeps.trans ?_ (engineLose_keeps ..)
    exact Keeps.refl _

theorem engineFence_keeps (s : State) (g : Nat) :
    Keeps s (engineFence s g) := by
  unfold engineFence
  try conv => arg 2; zeta
  refine Keeps.ite ?_ ?_
  · exact Keeps.refl _
  · refine Keeps.trans ?_ (raiseAlarm_keeps ..)
    refine Keeps.trans ?_ (engineAssignAll_keeps ..)
    refine Keeps.trans ?_ (engineReassign_keeps ..)
    refine Keeps.trans ?_ (engineLoses_keeps ..)
    refine Keeps.ofMk ?_ rfl rfl rfl rfl rfl rfl rfl rfl (fun h => h) rfl rfl (Nat.le_refl _)
    exact Keeps.refl _

theorem resampleAgain_keeps (s : State) (fid : Nat) :
    Keeps s (resampleAgain s fid) := by
  unfold resampleAgain
  try conv => arg 2; zeta
  refine Keeps.ofMk ?_ rfl rfl rfl rfl rfl rfl rfl rfl (fun h => h) rfl rfl (Nat.le_refl _)
  refine Keeps.trans ?_ (State.updFrame_keeps ..)
  refine Keeps.trans ?_ (freeWork_keeps ..)
  exact Keeps.refl _

theorem resamplerFence_keeps (s : State) (r : Nat) :
    Keeps s (resamplerFence s r) := by
  unfold resamplerFence
  try conv => arg 2; zeta
  refine Keeps.ite ?_ ?_
  · exact Keeps.refl _
  · refine Keeps.trans ?_ (raiseAlarm_keeps ..)
    split
    · refine Keeps.ofMk ?_ rfl rfl rfl rfl rfl rfl rfl rfl (fun h => h) rfl rfl (Nat.le_refl _)
      exact Keeps.refl _
    · refine Keeps.trans ?_ (resampleAgain_keeps ..)
      refine Keeps.ofMk ?_ rfl rfl rfl rfl rfl rfl rfl rfl (fun h => h) rfl rfl (Nat.le_refl _)
      exact Keeps.refl _

theorem execUnitFault_keeps (unit : Nat) (index : Nat) (s : State) :
    ∃ u, execUnitFault unit index s = .next u ∧ Keeps s u := by
  unfold execUnitFault
  refine Keeps.iteNext ?_ ?_
  · refine Keeps.done ?_
    refine Keeps.trans ?_ (engineFence_keeps ..)
    exact Keeps.refl _
  · refine Keeps.iteNext ?_ ?_
    · refine Keeps.done ?_
      refine Keeps.trans ?_ (resamplerFence_keeps ..)
      exact Keeps.refl _
    · refine Keeps.iteNext ?_ ?_
      · refine Keeps.done ?_
        refine Keeps.trans ?_ (unitRestart_keeps ..)
        exact Keeps.refl _
      · refine Keeps.done ?_
        exact Keeps.refl _

theorem giveUpAll_keeps (b : Nat) (x1 : List CellCmd) (x2 : State) :
    Keeps x2 (giveUpAll b x1 x2) := by
  induction x1 generalizing x2 with
  | nil =>
    rw [giveUpAll]
    exact Keeps.refl _
  | cons a t ih =>
    rw [giveUpAll]
    refine Keeps.trans ?_ (ih ..)
    refine Keeps.trans ?_ (entryProgress_keeps ..)
    refine Keeps.trans ?_ (giveUpTile_keeps ..)
    split
    · exact Keeps.refl _
    · split
      · exact Keeps.refl _
      · refine Keeps.trans ?_ (State.updFrame_keeps ..)
        exact Keeps.refl _

theorem poisonWeights_keeps (s : State) (cell : Nat) (graph : Nat) :
    Keeps s (poisonWeights s cell graph) := by
  unfold poisonWeights
  try conv => arg 2; zeta
  refine Keeps.trans ?_ (raiseAlarm_keeps ..)
  refine Keeps.trans ?_ (giveUpAll_keeps ..)
  refine Keeps.foldl (fun y0 _ => ?_) ?_ _
  · refine Keeps.trans ?_ (abortCmd_keeps ..)
    exact Keeps.refl _
  · exact Keeps.refl _

theorem execPoisonedDataReceive_keeps (kind : PoisonKind) (s : State) :
    ∃ u, execPoisonedDataReceive kind s = .next u ∧ Keeps s u := by
  unfold execPoisonedDataReceive
  split
  · refine Keeps.done ?_
    refine Keeps.trans ?_ (abortRunning_keeps ..)
    exact Keeps.refl _
  · refine Keeps.done ?_
    refine Keeps.trans ?_ (poisonWeights_keeps ..)
    exact Keeps.refl _
  · refine Keeps.done ?_
    refine Keeps.trans ?_ (State.updDec_keeps ..)
    exact Keeps.refl _
  · refine Keeps.done ?_
    refine Keeps.trans ?_ (auDamage_keeps ..)
    exact Keeps.refl _
  · refine Keeps.done ?_
    refine Keeps.trans ?_ (recordError_keeps ..)
    exact Keeps.refl _
  · split
    · refine Keeps.done ?_
      refine Keeps.trans ?_ (raiseLogOf_keeps ..)
      exact Keeps.refl _
    · refine Keeps.done ?_
      refine Keeps.trans ?_ (raiseLogOf_keeps ..)
      refine Keeps.trans ?_ (discardFrame_keeps ..)
      exact Keeps.refl _
  · refine Keeps.done ?_
    refine Keeps.trans ?_ (raiseLog_keeps ..)
    refine Keeps.foldl (fun y0 _ => ?_) ?_ _
    · refine Keeps.trans ?_ (quarantine_keeps ..)
      exact Keeps.refl _
    · exact Keeps.refl _

theorem execUnitRestartDone_keeps (unit : Nat) (s : State) :
    ∃ u, execUnitRestartDone unit s = .next u ∧ Keeps s u := by
  unfold execUnitRestartDone
  refine Keeps.done ?_
  refine Keeps.ofMk ?_ rfl rfl rfl rfl rfl rfl rfl rfl (fun h => h) rfl rfl (Nat.le_refl _)
  exact Keeps.refl _

end Sys2Proof.Machine
end

