-- ==== Sys2Proof/Laws/KeepsExec.lean ====
section
/-! SUPPORT. What every command leaves alone: `Keeps` for all but those that start the device up, burn fuses or program
the flash, `KeepsButFlash` for the last of these, and the canonical form of the memories for every step. -/

set_option Elab.async false

namespace Sys2Proof.Machine

open Sys2Proof (Instr)

/-! ### Commands that program the flash -/

theorem KeepsButFlash.done {s t : State} (h : KeepsButFlash s t) : ∃ u, done t = .next u ∧ KeepsButFlash s u := ⟨t, rfl, h⟩

theorem Keeps.most {s : State} {o : Host.Outcome State Fault Refusal} (h : ∃ u, o = .next u ∧ Keeps s u) :
    ∃ u, o = .next u ∧ KeepsButFlash s u := by
  obtain ⟨u, e, k⟩ := h
  exact ⟨u, e, k.toKeepsButFlash⟩

theorem KeepsButFlash.ite {s a b : State} {c : Prop} [Decidable c] (h : KeepsButFlash s a) (k : KeepsButFlash s b) :
    KeepsButFlash s (if c then a else b) := by
  split
  · exact h
  · exact k

theorem KeepsButFlash.iteNext {s : State} {a b : Host.Outcome State Fault Refusal} {c : Prop} [Decidable c]
    (h : ∃ u, a = .next u ∧ KeepsButFlash s u) (k : ∃ u, b = .next u ∧ KeepsButFlash s u) :
    ∃ u, (if c then a else b) = .next u ∧ KeepsButFlash s u := by
  split
  · exact h
  · exact k

theorem KeepsButFlash.foldl {α : Type} {s u : State} {f : State → α → State} (hf : ∀ v a, KeepsButFlash v (f v a))
    (h : KeepsButFlash s u) (l : List α) : KeepsButFlash s (l.foldl f u) := by
  induction l generalizing u with
  | nil => exact h
  | cons a t ih => exact ih (h.trans (hf u a))

theorem also_keepsButFlash (b : Bool) (f : State → Host.Outcome State Fault Refusal) (s : State)
    (hf : ∃ u, f s = .next u ∧ KeepsButFlash s u) : KeepsButFlash s (also b f s) := by
  unfold also
  refine KeepsButFlash.ite ?_ (KeepsButFlash.refl _)
  obtain ⟨u, e, h⟩ := hf
  rw [e]
  exact h

theorem flashPage_keepsButFlash (s : State) (b : Bytes) : KeepsButFlash s (flashPage s b) := by
  unfold flashPage
  exact KeepsButFlash.flashCells s _ (fun h => cellWriteBytes_wf _ _ _ _ (cellClear_wf _ _ _ _ h))

theorem flashSelect_keepsButFlash (s : State) : KeepsButFlash s (flashSelect s) := by
  unfold flashSelect
  split
  · exact KeepsButFlash.refl _
  · refine KeepsButFlash.ite (KeepsButFlash.refl _) ?_
    exact (KeepsButFlash.flashCells s _ (fun h => cellWriteBytes_wf _ _ _ _ (cellClear_wf _ _ _ _ h))).trans
      (flashEnter_keeps ..).toKeepsButFlash

theorem execFlashEraseDone_keepsButFlash (s : State) : ∃ u, execFlashEraseDone s = .next u ∧ KeepsButFlash s u := by
  unfold execFlashEraseDone
  refine KeepsButFlash.iteNext (KeepsButFlash.refl s).done ?_
  exact ((KeepsButFlash.flashCells s _ (fun h => cellClear_wf _ _ _ _ h)).trans (hpaRead_keeps ..).toKeepsButFlash).done

theorem execFlashPageProgramDone_keepsButFlash (e : Bool) (s : State) :
    ∃ u, execFlashPageProgramDone e s = .next u ∧ KeepsButFlash s u := by
  unfold execFlashPageProgramDone
  split
  · exact (KeepsButFlash.refl s).done
  · refine KeepsButFlash.iteNext (KeepsButFlash.refl s).done (KeepsButFlash.iteNext ?_ ?_)
    · exact (flashFail_keeps ..).toKeepsButFlash.done
    · exact ((flashPage_keepsButFlash ..).trans (flashNext_keeps ..).toKeepsButFlash).done

theorem execFlashSelect_keepsButFlash (s : State) : ∃ u, execFlashSelect s = .next u ∧ KeepsButFlash s u := by
  unfold execFlashSelect
  refine KeepsButFlash.iteNext (KeepsButFlash.refl s).done (KeepsButFlash.iteNext ?_ ?_)
  · exact (waitAccess_keeps ..).toKeepsButFlash.done
  · exact (flashSelect_keepsButFlash ..).done

theorem bar0Write_keepsButFlash (s : State) (port fn off : Nat) (v : Word) : KeepsButFlash s (bar0Write s port fn off v) := by
  unfold bar0Write
  refine KeepsButFlash.ite (ringWrite_keeps ..).toKeepsButFlash ?_
  refine KeepsButFlash.ite ?_ ?_
  · refine KeepsButFlash.trans ?_ (also_keepsButFlash _ _ _ (Keeps.most (execRingBind_keeps ..)))
    exact also_keepsButFlash _ _ _ (Keeps.most (execRingUnbind_keeps ..))
  refine KeepsButFlash.ite (irqClear_keeps ..).toKeepsButFlash ?_
  refine KeepsButFlash.ite ?_ ?_
  · refine KeepsButFlash.trans ?_ (intaSync_keeps ..).toKeepsButFlash
    exact (State.updFn_keeps s port fn (fun f => { f with irqMask := v &&& 0x3FFFFF }) (fun _ h => h)).toKeepsButFlash
  refine KeepsButFlash.ite ?_ ?_
  · refine KeepsButFlash.trans ?_ (also_keepsButFlash _ _ _ (Keeps.most (execInjEnable_keeps ..)))
    exact also_keepsButFlash _ _ _ (Keeps.most (execInjDisable_keeps ..))
  refine KeepsButFlash.ite (tuneIssue_keeps ..).toKeepsButFlash ?_
  refine KeepsButFlash.ite (also_keepsButFlash _ _ _ (Keeps.most (execAttGo_keeps ..))) ?_
  refine KeepsButFlash.ite (KeepsButFlash.refl _) ?_
  refine KeepsButFlash.ite (KeepsButFlash.ite (also_keepsButFlash _ _ _ (Keeps.most (execMoultGo_keeps ..)))
    (also_keepsButFlash _ _ _ (Keeps.most (execMoultAbort_keeps ..)))) ?_
  refine KeepsButFlash.ite ?_ ?_
  · refine KeepsButFlash.trans ?_ (also_keepsButFlash _ _ _ (Keeps.most (execFlashProgram_keeps ..)))
    refine KeepsButFlash.trans ?_ (also_keepsButFlash _ _ _ (execFlashSelect_keepsButFlash ..))
    exact (plainWrite_keeps ..).toKeepsButFlash
  exact KeepsButFlash.ite (also_keepsButFlash _ _ _ (Keeps.most (execKeyGo_keeps ..))) (plainWrite_keeps ..).toKeepsButFlash

theorem barWrite_keepsButFlash (s : State) (port fn bar off : Nat) (v : Word) :
    KeepsButFlash s (barWrite s port fn bar off v) := by
  unfold barWrite
  refine KeepsButFlash.ite (bar0Write_keepsButFlash ..) (KeepsButFlash.ite (injWriteBytes_keeps ..).toKeepsButFlash ?_)
  split
  · exact KeepsButFlash.ite (KeepsButFlash.refl _) (windowDiscard_keeps ..).toKeepsButFlash
  · exact (bar4Write_keeps ..).toKeepsButFlash

theorem execRegisterWrite_keepsButFlash (port fn bar off : Nat) (v : Word) (s : State) :
    ∃ u, execRegisterWrite port fn bar off v s = .next u ∧ KeepsButFlash s u := by
  unfold execRegisterWrite
  refine KeepsButFlash.iteNext (KeepsButFlash.refl s).done (KeepsButFlash.iteNext (misalignedLog_keeps ..).toKeepsButFlash.done
    (KeepsButFlash.iteNext (waitAccess_keeps ..).toKeepsButFlash.done (barWrite_keepsButFlash ..).done))

theorem performAccess_keepsButFlash (s : State) (c : Instr) : KeepsButFlash s (performAccess s c) := by
  have key (o : Host.Outcome State Fault Refusal) : (∃ u, o = .next u ∧ KeepsButFlash s u) →
      KeepsButFlash s (match o with
        | .next t => t
        | _ => s) := by
    rintro ⟨u, rfl, k⟩
    exact k
  unfold performAccess
  cases c <;> first
    | exact KeepsButFlash.refl s
    | exact key _ (Keeps.most (execTuneWrite_keeps ..))
    | exact key _ (Keeps.most (execTuneRead_keeps ..))
    | exact key _ (Keeps.most (execMoultGo_keeps ..))
    | exact key _ (Keeps.most (execMoultAbort_keeps ..))
    | exact key _ (Keeps.most (execFlashProgram_keeps ..))
    | exact key _ (execFlashSelect_keepsButFlash ..)
    | exact key _ (Keeps.most (execKeyGo_keeps ..))
    | exact key _ (Keeps.most (execAttGo_keeps ..))
    | exact key _ (execRegisterWrite_keepsButFlash ..)
    | exact key _ (Keeps.most (execBarMemoryRead_keeps ..))
    | exact key _ (Keeps.most (execCounterLowRead_keeps ..))

theorem performWaits_keepsButFlash (s : State) : KeepsButFlash s (performWaits s) := by
  unfold performWaits
  refine KeepsButFlash.foldl performAccess_keepsButFlash ?_ _
  exact (Keeps.ofMk (Keeps.refl s) rfl rfl rfl rfl rfl rfl rfl rfl (fun h => h) rfl rfl (Nat.le_refl _)).toKeepsButFlash

theorem execControllerResume_keepsButFlash (unit : Nat) (s : State) :
    ∃ u, execControllerResume unit s = .next u ∧ KeepsButFlash s u := by
  unfold execControllerResume
  refine KeepsButFlash.iteNext ((pacResume_keeps ..).toKeepsButFlash.trans (performWaits_keepsButFlash ..)).done ?_
  refine KeepsButFlash.iteNext ?_ (KeepsButFlash.iteNext ((tuResume_keeps ..).toKeepsButFlash.trans (performWaits_keepsButFlash ..)).done
    (KeepsButFlash.refl s).done)
  refine (KeepsButFlash.trans (Keeps.toKeepsButFlash ?_) (performWaits_keepsButFlash ..)).done
  refine Keeps.trans ?_ (moultFinish_keeps ..)
  exact Keeps.ofMk (Keeps.refl s) rfl rfl rfl rfl rfl rfl rfl rfl (fun h => h) rfl rfl (Nat.le_refl _)

/-! ### Every command that neither starts the device up nor burns fuses -/

theorem exec_keeps (c : Instr) (s : State) (h1 : boots c = false) (h2 : burns c = false) (h3 : programs c = false) :
    ∃ t, exec c s = .next t ∧ Keeps s t := by
  cases c with
  | misalignedAccess => rw [exec_misalignedAccess]; exact execMisalignedAccess_keeps ..
  | counterLowRead => rw [exec_counterLowRead]; exact execCounterLowRead_keeps ..
  | stoppedWindowAccess => rw [exec_stoppedWindowAccess]; exact execStoppedWindowAccess_keeps ..
  | configRequest => rw [exec_configRequest]; exact execConfigRequest_keeps ..
  | barMemoryRead => rw [exec_barMemoryRead]; exact execBarMemoryRead_keeps ..
  | tuneWrite => rw [exec_tuneWrite]; exact execTuneWrite_keeps ..
  | tuneRead => rw [exec_tuneRead]; exact execTuneRead_keeps ..
  | tuneComplete => rw [exec_tuneComplete]; exact execTuneComplete_keeps ..
  | moultGo => rw [exec_moultGo]; exact execMoultGo_keeps ..
  | moultAbort => rw [exec_moultAbort]; exact execMoultAbort_keeps ..
  | moultFetchEnd => rw [exec_moultFetchEnd]; exact execMoultFetchEnd_keeps ..
  | moultVerifyEnd => rw [exec_moultVerifyEnd]; exact execMoultVerifyEnd_keeps ..
  | moultCheckEnd => rw [exec_moultCheckEnd]; exact execMoultCheckEnd_keeps ..
  | moultStageEnd => rw [exec_moultStageEnd]; exact execMoultStageEnd_keeps ..
  | moultSwitchTimeout => rw [exec_moultSwitchTimeout]; exact execMoultSwitchTimeout_keeps ..
  | flashProgram => rw [exec_flashProgram]; exact execFlashProgram_keeps ..
  | flashHostReadDone => rw [exec_flashHostReadDone]; exact execFlashHostReadDone_keeps ..
  | flashReadbackDone => rw [exec_flashReadbackDone]; exact execFlashReadbackDone_keeps ..
  | flashOpTimeout => rw [exec_flashOpTimeout]; exact execFlashOpTimeout_keeps ..
  | ethLinkUp => rw [exec_ethLinkUp]; exact execEthLinkUp_keeps ..
  | ethLinkDown => rw [exec_ethLinkDown]; exact execEthLinkDown_keeps ..
  | frameReceive => rw [exec_frameReceive]; exact execFrameReceive_keeps ..
  | queryResponseTimer => rw [exec_queryResponseTimer]; exact execQueryResponseTimer_keeps ..
  | unsolicitedReportTimer => rw [exec_unsolicitedReportTimer]; exact execUnsolicitedReportTimer_keeps ..
  | controlRateWindow => rw [exec_controlRateWindow]; exact execControlRateWindow_keeps ..
  | nextHopTimeout => rw [exec_nextHopTimeout]; exact execNextHopTimeout_keeps ..
  | bucketRefill => rw [exec_bucketRefill]; exact execBucketRefill_keeps ..
  | sourceLockTimeout => rw [exec_sourceLockTimeout]; exact execSourceLockTimeout_keeps ..
  | rtpGapTimeout => rw [exec_rtpGapTimeout]; exact execRtpGapTimeout_keeps ..
  | rtpJumpTimeout => rw [exec_rtpJumpTimeout]; exact execRtpJumpTimeout_keeps ..
  | pmtWaitTimeout => rw [exec_pmtWaitTimeout]; exact execPmtWaitTimeout_keeps ..
  | injEnable => rw [exec_injEnable]; exact execInjEnable_keeps ..
  | injEnableDone => rw [exec_injEnableDone]; exact execInjEnableDone_keeps ..
  | injDisable => rw [exec_injDisable]; exact execInjDisable_keeps ..
  | injPoll => rw [exec_injPoll]; exact execInjPoll_keeps ..
  | injTrailerTimeout => rw [exec_injTrailerTimeout]; exact execInjTrailerTimeout_keeps ..
  | injHeaderTimeout => rw [exec_injHeaderTimeout]; exact execInjHeaderTimeout_keeps ..
  | injConsumerWrite => rw [exec_injConsumerWrite]; exact execInjConsumerWrite_keeps ..
  | alignmentTimeout => rw [exec_alignmentTimeout]; exact execAlignmentTimeout_keeps ..
  | parseAhead => rw [exec_parseAhead]; exact execParseAhead_keeps ..
  | decodeSwitch => rw [exec_decodeSwitch]; exact execDecodeSwitch_keeps ..
  | blockCycleLimit => rw [exec_blockCycleLimit]; exact execBlockCycleLimit_keeps ..
  | pictureBudgetExceeded => rw [exec_pictureBudgetExceeded]; exact execPictureBudgetExceeded_keeps ..
  | pictureDecoded => rw [exec_pictureDecoded]; exact execPictureDecoded_keeps ..
  | resamplePicture => rw [exec_resamplePicture]; exact execResamplePicture_keeps ..
  | resampleDone => rw [exec_resampleDone]; exact execResampleDone_keeps ..
  | batchTimeout => rw [exec_batchTimeout]; exact execBatchTimeout_keeps ..
  | batchAdmit => rw [exec_batchAdmit]; exact execBatchAdmit_keeps ..
  | invocationRunnable => rw [exec_invocationRunnable]; exact execInvocationRunnable_keeps ..
  | invocationResident => rw [exec_invocationResident]; exact execInvocationResident_keeps ..
  | stripeClaim => rw [exec_stripeClaim]; exact execStripeClaim_keeps ..
  | semaphoreSignal => rw [exec_semaphoreSignal]; exact execSemaphoreSignal_keeps ..
  | semaphoreWait => rw [exec_semaphoreWait]; exact execSemaphoreWait_keeps ..
  | semaphoreReset => rw [exec_semaphoreReset]; exact execSemaphoreReset_keeps ..
  | waitRetry => rw [exec_waitRetry]; exact execWaitRetry_keeps ..
  | commandWrite => rw [exec_commandWrite]; exact execCommandWrite_keeps ..
  | commandIssue => rw [exec_commandIssue]; exact execCommandIssue_keeps ..
  | commandComplete => rw [exec_commandComplete]; exact execCommandComplete_keeps ..
  | cellEccError => rw [exec_cellEccError]; exact execCellEccError_keeps ..
  | residueMismatch => rw [exec_residueMismatch]; exact execResidueMismatch_keeps ..
  | cellSelftestReturn => rw [exec_cellSelftestReturn]; exact execCellSelftestReturn_keeps ..
  | mapperWatchdog => rw [exec_mapperWatchdog]; exact execMapperWatchdog_keeps ..
  | blockRestart => rw [exec_blockRestart]; exact execBlockRestart_keeps ..
  | regionFault => rw [exec_regionFault]; exact execRegionFault_keeps ..
  | weightPrefetch => rw [exec_weightPrefetch]; exact execWeightPrefetch_keeps ..
  | spillWaveStart => rw [exec_spillWaveStart]; exact execSpillWaveStart_keeps ..
  | contextRecordAccess => rw [exec_contextRecordAccess]; exact execContextRecordAccess_keeps ..
  | trackPicture => rw [exec_trackPicture]; exact execTrackPicture_keeps ..
  | chrysalisCapture => rw [exec_chrysalisCapture]; exact execChrysalisCapture_keeps ..
  | chrysalisRestore => rw [exec_chrysalisRestore]; exact execChrysalisRestore_keeps ..
  | eviction => rw [exec_eviction]; exact execEviction_keeps ..
  | residencyWaitTimeout => rw [exec_residencyWaitTimeout]; exact execResidencyWaitTimeout_keeps ..
  | adapterStepStart => rw [exec_adapterStepStart]; exact execAdapterStepStart_keeps ..
  | adapterStepCommit => rw [exec_adapterStepCommit]; exact execAdapterStepCommit_keeps ..
  | searchStart => rw [exec_searchStart]; exact execSearchStart_keeps ..
  | searchCommit => rw [exec_searchCommit]; exact execSearchCommit_keeps ..
  | codebookUpdate => rw [exec_codebookUpdate]; exact execCodebookUpdate_keeps ..
  | recordEncode => rw [exec_recordEncode]; exact execRecordEncode_keeps ..
  | recordEmit => rw [exec_recordEmit]; exact execRecordEmit_keeps ..
  | ringConsumerRead => rw [exec_ringConsumerRead]; exact execRingConsumerRead_keeps ..
  | ringHoldTimeout => rw [exec_ringHoldTimeout]; exact execRingHoldTimeout_keeps ..
  | ringIrqDelay => rw [exec_ringIrqDelay]; exact execRingIrqDelay_keeps ..
  | ringBind => rw [exec_ringBind]; exact execRingBind_keeps ..
  | ringUnbind => rw [exec_ringUnbind]; exact execRingUnbind_keeps ..
  | irqStatusClear => rw [exec_irqStatusClear]; exact execIrqStatusClear_keeps ..
  | intaChange => rw [exec_intaChange]; exact execIntaChange_keeps ..
  | regulatorUpdate => rw [exec_regulatorUpdate]; exact execRegulatorUpdate_keeps ..
  | counterPush => rw [exec_counterPush]; exact execCounterPush_keeps ..
  | dramRequest => rw [exec_dramRequest]; exact execDramRequest_keeps ..
  | poisonedDataReceive => rw [exec_poisonedDataReceive]; exact execPoisonedDataReceive_keeps ..
  | refreshDue => rw [exec_refreshDue]; exact execRefreshDue_keeps ..
  | bankIdleTimeout => rw [exec_bankIdleTimeout]; exact execBankIdleTimeout_keeps ..
  | patrolRead => rw [exec_patrolRead]; exact execPatrolRead_keeps ..
  | imbalanceWindow => rw [exec_imbalanceWindow]; exact execImbalanceWindow_keeps ..
  | bpmAllocate => rw [exec_bpmAllocate]; exact execBpmAllocate_keeps ..
  | bpmFree => rw [exec_bpmFree]; exact execBpmFree_keeps ..
  | bpmShare => rw [exec_bpmShare]; exact execBpmShare_keeps ..
  | bpmZeroIdle => rw [exec_bpmZeroIdle]; exact execBpmZeroIdle_keeps ..
  | tokenGrant => rw [exec_tokenGrant]; exact execTokenGrant_keeps ..
  | powerSample => rw [exec_powerSample]; exact execPowerSample_keeps ..
  | vfChoice => rw [exec_vfChoice]; exact execVfChoice_keeps ..
  | vfTransitionEnd => rw [exec_vfTransitionEnd]; exact execVfTransitionEnd_keeps ..
  | pgoodTimeout => rw [exec_pgoodTimeout]; exact execPgoodTimeout_keeps ..
  | pgoodLow => rw [exec_pgoodLow]; exact execPgoodLow_keeps ..
  | regionPark => rw [exec_regionPark]; exact execRegionPark_keeps ..
  | regionWake => rw [exec_regionWake]; exact execRegionWake_keeps ..
  | wakeComplete => rw [exec_wakeComplete]; exact execWakeComplete_keeps ..
  | parkHoldWrite => rw [exec_parkHoldWrite]; exact execParkHoldWrite_keeps ..
  | pwrbrkAssert => rw [exec_pwrbrkAssert]; exact execPwrbrkAssert_keeps ..
  | pwrbrkRelease => rw [exec_pwrbrkRelease]; exact execPwrbrkRelease_keeps ..
  | thermInAssert => rw [exec_thermInAssert]; exact execThermInAssert_keeps ..
  | thermInRelease => rw [exec_thermInRelease]; exact execThermInRelease_keeps ..
  | tempSensorRead => rw [exec_tempSensorRead]; exact execTempSensorRead_keeps ..
  | chatterWindow => rw [exec_chatterWindow]; exact execChatterWindow_keeps ..
  | inputStuck => rw [exec_inputStuck]; exact execInputStuck_keeps ..
  | inputStuckRelease => rw [exec_inputStuckRelease]; exact execInputStuckRelease_keeps ..
  | flr => rw [exec_flr]; exact execFlr_keeps ..
  | flrComplete => rw [exec_flrComplete]; exact execFlrComplete_keeps ..
  | hotReset => rw [exec_hotReset]; exact execHotReset_keeps ..
  | dlDown => rw [exec_dlDown]; exact execDlDown_keeps ..
  | perstAssert => rw [exec_perstAssert]; exact execPerstAssert_keeps ..
  | perstDeassert => rw [exec_perstDeassert]; exact execPerstDeassert_keeps ..
  | pcieLinkUp => rw [exec_pcieLinkUp]; exact execPcieLinkUp_keeps ..
  | dStateChange => rw [exec_dStateChange]; exact execDStateChange_keeps ..
  | pmeTurnOff => rw [exec_pmeTurnOff]; exact execPmeTurnOff_keeps ..
  | pmeSignal => rw [exec_pmeSignal]; exact execPmeSignal_keeps ..
  | pmeRepeat => rw [exec_pmeRepeat]; exact execPmeRepeat_keeps ..
  | unitFault => rw [exec_unitFault]; exact execUnitFault_keeps ..
  | controllerRestart => rw [exec_controllerRestart]; exact execControllerRestart_keeps ..
  | eventStage => rw [exec_eventStage]; exact execEventStage_keeps ..
  | traceExponentTick => rw [exec_traceExponentTick]; exact execTraceExponentTick_keeps ..
  | telemetryPacketSend => rw [exec_telemetryPacketSend]; exact execTelemetryPacketSend_keeps ..
  | summaryTimer => rw [exec_summaryTimer]; exact execSummaryTimer_keeps ..
  | mpIdentify => rw [exec_mpIdentify]; exact execMpIdentify_keeps ..
  | mpSetPointer => rw [exec_mpSetPointer]; exact execMpSetPointer_keeps ..
  | mpReadRegisters => rw [exec_mpReadRegisters]; exact execMpReadRegisters_keeps ..
  | mpReadEvents => rw [exec_mpReadEvents]; exact execMpReadEvents_keeps ..
  | mpRemoveEvents => rw [exec_mpRemoveEvents]; exact execMpRemoveEvents_keeps ..
  | mpAlertResponse => rw [exec_mpAlertResponse]; exact execMpAlertResponse_keeps ..
  | smbusClockTimeout => rw [exec_smbusClockTimeout]; exact execSmbusClockTimeout_keeps ..
  | keyGo => rw [exec_keyGo]; exact execKeyGo_keeps ..
  | attGo => rw [exec_attGo]; exact execAttGo_keeps ..
  | attSignStart => rw [exec_attSignStart]; exact execAttSignStart_keeps ..
  | attSignDone => rw [exec_attSignDone]; exact execAttSignDone_keeps ..
  | barMemoryWrite => rw [exec_barMemoryWrite]; exact execBarMemoryWrite_keeps ..
  | arrayCreditRefill => rw [exec_arrayCreditRefill]; exact execArrayCreditRefill_keeps ..
  | keyReadDone => rw [exec_keyReadDone]; exact execKeyReadDone_keeps ..
  | regionStoreEccError => rw [exec_regionStoreEccError]; exact execRegionStoreEccError_keeps ..
  | nocLinkCrcError => rw [exec_nocLinkCrcError]; exact execNocLinkCrcError_keeps ..
  | blockRestartDone => rw [exec_blockRestartDone]; exact execBlockRestartDone_keeps ..
  | unitRestartDone => rw [exec_unitRestartDone]; exact execUnitRestartDone_keeps ..
  | porAssert => cases h1
  | porDeassert => cases h1
  | phaseFuseEnd => cases h1
  | phaseDramEnd => cases h1
  | phaseFlashEnd => cases h1
  | phaseVerifyEnd => cases h1
  | phaseCheckEnd => cases h1
  | phaseLoadEnd => cases h1
  | phaseSelftestEnd => cases h1
  | phasePortsEnd => cases h1
  | phaseTimeout => cases h1
  | xspiDqsTimeout => cases h1
  | keyBurnDone => cases h2
  | flashEraseDone => cases h3
  | flashPageProgramDone => cases h3
  | flashSelect => cases h3
  | registerWrite => cases h3
  | controllerResume => cases h3

theorem exec_keepsButFlash (c : Instr) (s : State) (h1 : boots c = false) (h2 : burns c = false) :
    ∃ t, exec c s = .next t ∧ KeepsButFlash s t := by
  cases h3 : programs c with
  | false => exact Keeps.most (exec_keeps c s h1 h2 h3)
  | true =>
    cases c <;> first
      | (rw [exec_flashEraseDone]; exact execFlashEraseDone_keepsButFlash ..)
      | (rw [exec_flashPageProgramDone]; exact execFlashPageProgramDone_keepsButFlash ..)
      | (rw [exec_flashSelect]; exact execFlashSelect_keepsButFlash ..)
      | (rw [exec_registerWrite]; exact execRegisterWrite_keepsButFlash ..)
      | (rw [exec_controllerResume]; exact execControllerResume_keepsButFlash ..)
      | cases h3

end Sys2Proof.Machine
end

