-- ==== Sys2Proof/Laws/Startup.lean ====
section
/-! SUPPORT. What the commands that start the device up and the key burn do to the queue and to the memories, and with
them what every step does: the queue loses its front command, and the memories stay canonical. -/

set_option Elab.async false

namespace Sys2Proof.Machine

open Sys2Proof (Instr)

/-- The queue and the canonical form of the memories. -/
def Orderly (s t : State) : Prop := t.pending = s.pending ∧ (s.memWf → t.memWf)

theorem Orderly.refl (s : State) : Orderly s s := ⟨rfl, id⟩

theorem Orderly.trans {s u t : State} (h : Orderly s u) (k : Orderly u t) : Orderly s t :=
  ⟨k.1.trans h.1, fun a => k.2 (h.2 a)⟩

theorem KeepsButFlash.orderly {s t : State} (h : KeepsButFlash s t) : Orderly s t := ⟨h.pending, h.memory⟩

theorem Keeps.orderly {s t : State} (h : Keeps s t) : Orderly s t := h.toKeepsButFlash.orderly

/-- A change of none of the queue, the flash, the DRAM contents, the functions and the on-chip memory. -/
theorem Orderly.of {s u t : State} (h : Orderly s u) (h1 : t.pending = u.pending) (h2 : t.flash.cells = u.flash.cells)
    (h3 : t.dram.mem = u.dram.mem) (h4 : t.fns = u.fns) (h5 : t.sram = u.sram) : Orderly s t :=
  h.trans ⟨h1, fun a => ⟨by rw [h2]; exact a.1, by rw [h3]; exact a.2.1, by rw [h4]; exact a.2.2.1, by rw [h5]; exact a.2.2.2⟩⟩

theorem Orderly.ite {s a b : State} {c : Prop} [Decidable c] (h : Orderly s a) (k : Orderly s b) :
    Orderly s (if c then a else b) := by
  split
  · exact h
  · exact k

theorem Orderly.done {s t : State} (h : Orderly s t) : ∃ u, done t = .next u ∧ Orderly s u := ⟨t, rfl, h⟩

theorem Orderly.iteNext {s : State} {a b : Host.Outcome State Fault Refusal} {c : Prop} [Decidable c]
    (h : ∃ u, a = .next u ∧ Orderly s u) (k : ∃ u, b = .next u ∧ Orderly s u) :
    ∃ u, (if c then a else b) = .next u ∧ Orderly s u := by
  split
  · exact h
  · exact k

/-! ### Key burns -/

theorem partHash_keeps' (n : Nat) (b : Bytes) (s : State) : Orderly s (partHash n b s).2 := (partHash_keeps n b s).orderly

theorem burnBad_orderly (s : State) : Orderly s (burnBad s) := by
  unfold burnBad
  refine Orderly.ite ?_ ?_
  · split
    rename_i e
    have h := (Keeps.pair e (partHash_keeps ..)).orderly
    exact h.of rfl rfl rfl rfl rfl
  · split
    rename_i e
    have h := (Keeps.pair e (freeBits_keeps ..)).orderly
    exact h.of rfl rfl rfl rfl rfl

theorem execKeyBurnDone_orderly (b : Bool) (s : State) : ∃ u, execKeyBurnDone b s = .next u ∧ Orderly s u := by
  unfold execKeyBurnDone
  refine Orderly.iteNext (Orderly.refl s).done (Orderly.iteNext ?_ ?_)
  · refine Orderly.done (Orderly.trans ?_ (keyEnd_keeps ..).orderly)
    exact (Orderly.refl s).of rfl rfl rfl rfl rfl
  · exact ((burnBad_orderly s).trans (keyEnd_keeps ..).orderly).done

theorem burnLost_orderly (s : State) : Orderly s (burnLost s) := by
  unfold burnLost
  refine Orderly.ite (Orderly.refl s) ?_
  extract_lets k
  split
  rename_i v e
  have h := (Keeps.pair e (freeBits_keeps ..)).orderly
  refine Orderly.ite (h.trans (burnBad_orderly v)) ?_
  split
  rename_i e2
  exact (h.trans (Keeps.pair e2 (freeBits_keeps ..)).orderly).of rfl rfl rfl rfl rfl

/-! ### Start-up -/

theorem flashCut_wf (f : Flash) (h : cellsWf flashErased f.cells = true) : cellsWf flashErased (flashCut f).cells = true := by
  unfold flashCut
  dsimp only
  split
  · exact cellClear_wf _ _ _ _ h
  · exact h

theorem porReset_orderly (s : State) : Orderly s (porReset s) := by
  refine (burnLost_orderly s).trans ⟨rfl, fun a => ⟨flashCut_wf _ a.1, rfl, fun q hq => ?_, rfl⟩⟩
  cases hq

theorem execPorDeassert_orderly (h : Bool) (a : Nat) (s : State) : ∃ u, execPorDeassert h a s = .next u ∧ Orderly s u := by
  unfold execPorDeassert
  refine Orderly.iteNext (Orderly.refl s).done ?_
  refine Orderly.done ?_
  exact (Keeps.draw s 1).orderly.of rfl rfl rfl rfl rfl

theorem heldEntry_orderly (s : State) (c : Nat) : Orderly s (heldEntry s c) := (Orderly.refl s).of rfl rfl rfl rfl rfl

theorem phaseEnd_orderly (s : State) (c n : Nat) : Orderly s (phaseEnd s c n) := by
  unfold phaseEnd
  exact Orderly.ite ((Orderly.refl s).of rfl rfl rfl rfl rfl) (heldEntry_orderly ..)

theorem imagoEntry_orderly (s : State) : Orderly s (imagoEntry s) := by
  unfold imagoEntry
  refine Orderly.trans ?_ (addStreams_keeps ..).orderly
  exact (Orderly.refl s).of rfl rfl rfl rfl rfl

theorem execPorAssert_orderly (s : State) : ∃ u, execPorAssert s = .next u ∧ Orderly s u :=
  (porReset_orderly s).done

theorem execPhaseFuseEnd_orderly (s : State) : ∃ u, execPhaseFuseEnd s = .next u ∧ Orderly s u := by
  unfold execPhaseFuseEnd
  refine Orderly.iteNext (Orderly.refl s).done (Orderly.done (Orderly.trans ?_ (phaseEnd_orderly ..)))
  exact (Orderly.refl s).of rfl rfl rfl rfl rfl

theorem execPhaseDramEnd_orderly (stack0 stack1 : Bool) (s : State) : ∃ u, execPhaseDramEnd stack0 stack1 s = .next u ∧ Orderly s u := by
  unfold execPhaseDramEnd
  refine Orderly.iteNext (Orderly.refl s).done (Orderly.done (Orderly.trans ?_ (phaseEnd_orderly ..)))
  exact (Orderly.refl s).of rfl rfl rfl rfl rfl

theorem execPhaseFlashEnd_orderly (s : State) : ∃ u, execPhaseFlashEnd s = .next u ∧ Orderly s u := by
  unfold execPhaseFlashEnd
  refine Orderly.iteNext (Orderly.refl s).done ?_
  split
  · exact (heldEntry_orderly ..).done
  · refine Orderly.done (Orderly.trans ?_ (phaseEnd_orderly ..))
    exact (Orderly.refl s).of rfl rfl rfl rfl rfl

theorem execPhaseVerifyEnd_orderly (s : State) : ∃ u, execPhaseVerifyEnd s = .next u ∧ Orderly s u := by
  unfold execPhaseVerifyEnd
  refine Orderly.iteNext (Orderly.refl s).done (Orderly.done (Orderly.trans ?_ (phaseEnd_orderly ..)))
  refine Orderly.ite (Orderly.of ?_ rfl rfl rfl rfl rfl) ?_ <;>
    exact Orderly.ite ((Orderly.refl s).of rfl rfl rfl rfl rfl) (Orderly.refl s)

theorem execPhaseCheckEnd_orderly (s : State) : ∃ u, execPhaseCheckEnd s = .next u ∧ Orderly s u := by
  unfold execPhaseCheckEnd
  exact Orderly.iteNext (Orderly.refl s).done (phaseEnd_orderly ..).done

theorem execPhaseLoadEnd_orderly (s : State) : ∃ u, execPhaseLoadEnd s = .next u ∧ Orderly s u := by
  unfold execPhaseLoadEnd
  refine Orderly.iteNext (Orderly.refl s).done (Orderly.done ?_)
  have h1 : Orderly s { loadImage s with
      scu := { (loadImage s).scu with phase := 7 }, store := default, bpm := default, parts := [], devTuned := [] } :=
    (loadImage_keeps s).orderly.of rfl rfl rfl rfl rfl
  generalize ({ loadImage s with
      scu := { (loadImage s).scu with phase := 7 }, store := default, bpm := default, parts := [], devTuned := [] } : State) = u at h1 ⊢
  exact (h1.trans (selftestWakes_keeps ..).orderly).trans (Keeps.foldl selftestPlace_keeps (Keeps.refl _) _).orderly

theorem selftestFences_keeps (cells lines stores : List Nat) (s : State) :
    Keeps s (selftestRegions stores (List.range 8) (selftestBlocks lines (List.range 32) (selftestCells cells s))) :=
  ((selftestCells_keeps ..).trans (selftestBlocks_keeps ..)).trans (selftestRegions_keeps ..)

theorem alarmsIfBare_keeps (l : List Nat) (s : State) :
    Keeps s (l.foldl (fun s p => if pinnedNow s p then alarmIfBare s [p] else s) s) :=
  Keeps.foldl (fun v _ => Keeps.ite (alarmIfBare_keeps ..) (Keeps.refl v)) (Keeps.refl s) l

theorem execPhaseSelftestEnd_orderly (cells lineStores regionStores : List Nat) (s : State) :
    ∃ u, execPhaseSelftestEnd cells lineStores regionStores s = .next u ∧ Orderly s u := by
  unfold execPhaseSelftestEnd
  refine Orderly.iteNext (Orderly.refl s).done ?_
  extract_lets a b c d e
  have ha : Orderly s a := (selftestFences_keeps ..).orderly
  have hb : Orderly a b := ((demoteAtStart_keeps ..).trans (demoteAtStart_keeps ..)).orderly
  have hc : Orderly b c := (alarmsIfBare_keeps ..).orderly
  have hd : Orderly c d := (wakeAll_keeps ..).orderly
  have he : Orderly d e := (Keeps.foldl (fun v x => dropCtx_keeps v x) (Keeps.refl d) _).orderly
  have h := (((ha.trans hb).trans hc).trans hd).trans he
  clear_value e
  exact ⟨_, rfl, h.of rfl rfl rfl rfl rfl⟩

theorem execPhasePortsEnd_orderly (s : State) : ∃ u, execPhasePortsEnd s = .next u ∧ Orderly s u := by
  unfold execPhasePortsEnd
  exact Orderly.iteNext (Orderly.refl s).done (imagoEntry_orderly s).done

theorem execPhaseTimeout_orderly (s : State) : ∃ u, execPhaseTimeout s = .next u ∧ Orderly s u := by
  unfold execPhaseTimeout
  exact Orderly.iteNext (heldEntry_orderly ..).done (Orderly.refl s).done

theorem execXspiDqsTimeout_orderly (s : State) : ∃ u, execXspiDqsTimeout s = .next u ∧ Orderly s u := by
  unfold execXspiDqsTimeout
  exact Orderly.iteNext (heldEntry_orderly ..).done
    (Orderly.iteNext (flashFail_keeps ..).orderly.done (Orderly.refl s).done)

theorem execBoot_orderly (c : Instr) (s : State) (h : boots c = true) : ∃ t, exec c s = .next t ∧ Orderly s t := by
  cases c with
  | porAssert => exact execPorAssert_orderly s
  | porDeassert x y => exact execPorDeassert_orderly x y s
  | phaseFuseEnd => exact execPhaseFuseEnd_orderly s
  | phaseDramEnd stack0 stack1 => exact execPhaseDramEnd_orderly stack0 stack1 s
  | phaseFlashEnd => exact execPhaseFlashEnd_orderly s
  | phaseVerifyEnd => exact execPhaseVerifyEnd_orderly s
  | phaseCheckEnd => exact execPhaseCheckEnd_orderly s
  | phaseLoadEnd => exact execPhaseLoadEnd_orderly s
  | phaseSelftestEnd cells lineStores regionStores => exact execPhaseSelftestEnd_orderly cells lineStores regionStores s
  | phasePortsEnd => exact execPhasePortsEnd_orderly s
  | phaseTimeout => exact execPhaseTimeout_orderly s
  | xspiDqsTimeout => exact execXspiDqsTimeout_orderly s
  | _ => exact absurd h Bool.noConfusion

/-! ### Every command, and every step -/

theorem exec_orderly (c : Instr) (s : State) : ∃ t, exec c s = .next t ∧ Orderly s t := by
  cases h1 : boots c with
  | true => exact execBoot_orderly c s h1
  | false =>
    cases h2 : burns c with
    | true =>
      cases c <;> first
        | (rw [exec_keyBurnDone]; exact execKeyBurnDone_orderly ..)
        | (exact absurd h2 Bool.noConfusion)
    | false =>
      obtain ⟨t, e, k⟩ := exec_keepsButFlash c s h1 h2
      exact ⟨t, e, k.orderly⟩

/-- A cycle of the clock. -/
theorem clockTick_orderly (s : State) : Orderly s (clockTick s) := by
  unfold clockTick
  refine Orderly.ite (Orderly.refl s) ?_
  refine Orderly.trans ?_ (dramTick_keeps ..).orderly
  refine Orderly.trans ?_ (refillBuckets_keeps ..).orderly
  refine Orderly.trans ?_ (tickWaits_keeps ..).orderly
  refine Orderly.trans ?_ (tickInput_keeps ..).orderly
  refine Orderly.trans ?_ (tickInput_keeps ..).orderly
  exact (Orderly.refl s).of rfl rfl rfl rfl rfl

/-- Every step goes on, and keeps the memories canonical. -/
theorem step_orderly (s : State) : ∃ t, step s = .next t ∧ t.pending = s.pending.tail ∧ (s.memWf → t.memWf) := by
  unfold step
  split
  · rename_i e
    have h := clockTick_orderly s
    exact ⟨_, rfl, by rw [h.1, e]; rfl, h.2⟩
  · rename_i c rest e
    obtain ⟨t, h, k⟩ := exec_orderly c { s with pending := rest }
    exact ⟨t, h, by rw [k.1, e]; rfl, k.2⟩

end Sys2Proof.Machine
end

