-- ==== Sys2Proof/Laws/Touches.lean ====
section
/-! SUPPORT. The relation `Touches`: it is reflexive, transitive and monotone in its list, and it follows from the parts
that a record update writes. -/

set_option Elab.async false

namespace Sys2Proof.Machine

/-- A number for each part. -/
def Piece.ix : Piece → Nat
  | .now => 0
  | .por => 1
  | .scu => 2
  | .fuses => 3
  | .identity => 4
  | .moult => 5
  | .flash => 6
  | .key => 7
  | .signer => 8
  | .fns => 9
  | .rings => 10
  | .ports => 11
  | .nps => 12
  | .streams => 13
  | .frames => 14
  | .engines => 15
  | .resamplers => 16
  | .relq => 17
  | .batches => 18
  | .ctxs => 19
  | .parts => 20
  | .regions => 21
  | .blocks => 22
  | .cells => 23
  | .mem => 24
  | .dram => 25
  | .bpm => 26
  | .store => 27
  | .pac => 28
  | .alarms => 29
  | .aon => 30
  | .tu => 31
  | .unitsDown => 32
  | .devTuned => 33
  | .out => 34
  | .waits => 35
  | .freeIx => 36
  | .pending => 37
  | .sram => 38

/-- The part of a number. -/
def Piece.ofIx : Nat → Piece
  | 0 => .now
  | 1 => .por
  | 2 => .scu
  | 3 => .fuses
  | 4 => .identity
  | 5 => .moult
  | 6 => .flash
  | 7 => .key
  | 8 => .signer
  | 9 => .fns
  | 10 => .rings
  | 11 => .ports
  | 12 => .nps
  | 13 => .streams
  | 14 => .frames
  | 15 => .engines
  | 16 => .resamplers
  | 17 => .relq
  | 18 => .batches
  | 19 => .ctxs
  | 20 => .parts
  | 21 => .regions
  | 22 => .blocks
  | 23 => .cells
  | 24 => .mem
  | 25 => .dram
  | 26 => .bpm
  | 27 => .store
  | 28 => .pac
  | 29 => .alarms
  | 30 => .aon
  | 31 => .tu
  | 32 => .unitsDown
  | 33 => .devTuned
  | 34 => .out
  | 35 => .waits
  | 36 => .freeIx
  | 38 => .sram
  | _ => .pending

theorem Piece.ofIx_ix (p : Piece) : Piece.ofIx p.ix = p := by cases p <;> rfl

theorem Piece.ix_inj {p q : Piece} (h : p.ix = q.ix) : p = q := by
  rw [← p.ofIx_ix, ← q.ofIx_ix, h]

/-- The set of a list, as a number. -/
def mask : List Piece → Nat
  | [] => 0
  | p :: t => 2 ^ p.ix ||| mask t

theorem testBit_mask (l : List Piece) (p : Piece) : (mask l).testBit p.ix = true ↔ p ∈ l := by
  induction l with
  | nil => simp [mask]
  | cons q t ih =>
    rw [mask, Nat.testBit_or, Bool.or_eq_true, ih, Nat.testBit_two_pow, List.mem_cons]
    constructor
    · rintro (h | h)
      · exact .inl (Piece.ix_inj (by simpa using h)).symm
      · exact .inr h
    · rintro (h | h)
      · exact .inl (by simp [h])
      · exact .inr h

theorem Touches.refl {l : List Piece} (s : State) : Touches l s s := by
  refine ⟨fun p _ => ?_⟩
  cases p <;> first
    | rfl
    | exact fun _ => rfl

theorem Touches.trans {l : List Piece} {s u t : State} (h : Touches l s u) (k : Touches l u t) : Touches l s t := by
  refine ⟨fun p hp => ?_⟩
  have a := h.same p hp
  have b := k.same p hp
  cases p <;> first
    | exact b.trans a
    | exact fun q => (b q).trans (a q)

/-- A longer list. -/
theorem Touches.sub {l L : List Piece} {s t : State} (h : Touches l s t) (e : mask l ||| mask L = mask L) : Touches L s t := by
  refine ⟨fun p hp => ?_⟩
  refine h.same p (fun hl => hp ?_)
  rw [← testBit_mask] at hl ⊢
  rw [← e, Nat.testBit_or, hl, Bool.true_or]

theorem Touches.subO {l L : List Piece} {s : State} {o : Host.Outcome State Fault Refusal}
    (h : ∃ t, o = .next t ∧ Touches l s t) (e : mask l ||| mask L = mask L) : ∃ t, o = .next t ∧ Touches L s t := by
  obtain ⟨t, h, k⟩ := h
  exact ⟨t, h, k.sub e⟩

/-- A part is listed, or keeps its value. -/
def Chg {α : Sort _} (p : Piece) (L : List Piece) (a b : α) : Prop := p ∈ L ∨ a = b

theorem kp {α : Sort _} {p : Piece} {L : List Piece} {a : α} : Chg p L a a := .inr rfl

theorem ch {α : Sort _} {p : Piece} {L : List Piece} {a b : α} (h : mask [p] ||| mask L = mask L := by decide) : Chg p L a b := by
  refine .inl ?_
  rw [← testBit_mask, ← h, Nat.testBit_or, (testBit_mask [p] p).2 (List.mem_singleton_self p), Bool.true_or]

/-- A record update that writes listed parts only. -/
theorem Touches.ofMk {L : List Piece} {s u : State}
    {now' : Nat} {por' : Bool} {scu' : Scu} {fuses' : Map FuseSlot} {idSeed' : Bytes} {idKey' : Bytes} {grade' :
    Nat} {stepping' : Nat} {moult' : Moult} {flash' : Flash} {key' : Key} {signer' : Signer} {fns' : Map Fn} {ports'
    : Map HostPort} {nps' : Map NetPort} {streams' : Map Stream} {frames' : Map Frame} {nextFrame' : Nat} {engines'
    : Map Engine} {resamplers' : Map Resampler} {relq' : List Nat} {batches' : Map Batch} {nextBatch' : Nat} {ctxs'
    : Map Ctx} {nextCtx' : Nat} {parts' : Map Part} {regions' : Map Region} {blocks' : Map Block} {cells' : Map
    Cell} {dram' : Dram} {bpm' : Bpm} {store' : CtxStore} {pac' : Pac} {aon' : Aon} {tu' : Tu} {unitsDown' : List
    Nat} {devTuned' : Map Int} {sram' : List Host.Cell} {out' : List Out} {waits' : List Instr} {freeIx' : Nat} {pending' : List Instr}
    (h : Touches L s u)
    (e_now : Chg .now L now' u.now) (e_por : Chg .por L por' u.por) (e_scu : Chg .scu L scu' u.scu)
    (e_fuses : Chg .fuses L fuses' u.fuses)
    (e_identity : Chg .identity L (idSeed', idKey', grade', stepping') (u.idSeed, u.idKey, u.grade, u.stepping))
    (e_moult : Chg .moult L moult' u.moult) (e_flash : Chg .flash L flash' u.flash) (e_key : Chg .key L key' u.key)
    (e_signer : Chg .signer L signer' u.signer) (e_fns : Chg .fns L fns' u.fns) (e_rings : Chg .rings L fns' u.fns)
    (e_ports : Chg .ports L ports' u.ports) (e_nps : Chg .nps L nps' u.nps)
    (e_streams : Chg .streams L streams' u.streams)
    (e_frames : Chg .frames L (frames', nextFrame') (u.frames, u.nextFrame))
    (e_engines : Chg .engines L engines' u.engines) (e_resamplers : Chg .resamplers L resamplers' u.resamplers)
    (e_relq : Chg .relq L relq' u.relq) (e_batches : Chg .batches L (batches', nextBatch') (u.batches, u.nextBatch))
    (e_ctxs : Chg .ctxs L (ctxs', nextCtx') (u.ctxs, u.nextCtx)) (e_parts : Chg .parts L parts' u.parts)
    (e_regions : Chg .regions L regions' u.regions) (e_blocks : Chg .blocks L blocks' u.blocks)
    (e_cells : Chg .cells L cells' u.cells) (e_mem : Chg .mem L dram'.mem u.dram.mem)
    (e_dram : Chg .dram L { dram' with mem := [] } { u.dram with mem := [] }) (e_bpm : Chg .bpm L bpm' u.bpm)
    (e_store : Chg .store L store' u.store) (e_pac : Chg .pac L pac' u.pac)
    (e_alarms : Chg .alarms L aon'.alarms u.aon.alarms)
    (e_aon : Chg .aon L { aon' with alarms := [] } { u.aon with alarms := [] }) (e_tu : Chg .tu L tu' u.tu)
    (e_unitsDown : Chg .unitsDown L unitsDown' u.unitsDown) (e_devTuned : Chg .devTuned L devTuned' u.devTuned)
    (e_sram : Chg .sram L sram' u.sram) (e_out : Chg .out L out' u.out) (e_waits : Chg .waits L waits' u.waits)
    (e_freeIx : Chg .freeIx L freeIx' u.freeIx) (e_pending : Chg .pending L pending' u.pending) :
    Touches L s (State.mk now' por' scu' fuses' idSeed' idKey' grade' stepping' moult' flash' key' signer' fns' ports' nps' streams' frames' nextFrame' engines' resamplers' relq' batches' nextBatch' ctxs' nextCtx' parts' regions' blocks' cells' dram' bpm' store' pac' aon' tu' unitsDown' devTuned' sram' out' waits' freeIx' pending') := by
  refine h.trans ⟨fun p hp => ?_⟩
  exact match p with
    | .now => e_now.resolve_left hp
    | .por => e_por.resolve_left hp
    | .scu => e_scu.resolve_left hp
    | .fuses => e_fuses.resolve_left hp
    | .identity => e_identity.resolve_left hp
    | .moult => e_moult.resolve_left hp
    | .flash => e_flash.resolve_left hp
    | .key => e_key.resolve_left hp
    | .signer => e_signer.resolve_left hp
    | .fns => fun k => congrArg (fun m => fnCore (mget m k)) (e_fns.resolve_left hp)
    | .rings => fun k => congrArg (fun m => fnRings (mget m k)) (e_rings.resolve_left hp)
    | .ports => e_ports.resolve_left hp
    | .nps => e_nps.resolve_left hp
    | .streams => e_streams.resolve_left hp
    | .frames => e_frames.resolve_left hp
    | .engines => e_engines.resolve_left hp
    | .resamplers => e_resamplers.resolve_left hp
    | .relq => e_relq.resolve_left hp
    | .batches => e_batches.resolve_left hp
    | .ctxs => e_ctxs.resolve_left hp
    | .parts => e_parts.resolve_left hp
    | .regions => e_regions.resolve_left hp
    | .blocks => e_blocks.resolve_left hp
    | .cells => e_cells.resolve_left hp
    | .mem => e_mem.resolve_left hp
    | .dram => e_dram.resolve_left hp
    | .bpm => e_bpm.resolve_left hp
    | .store => e_store.resolve_left hp
    | .pac => e_pac.resolve_left hp
    | .alarms => e_alarms.resolve_left hp
    | .aon => e_aon.resolve_left hp
    | .tu => e_tu.resolve_left hp
    | .unitsDown => e_unitsDown.resolve_left hp
    | .devTuned => e_devTuned.resolve_left hp
    | .sram => e_sram.resolve_left hp
    | .out => e_out.resolve_left hp
    | .waits => e_waits.resolve_left hp
    | .freeIx => e_freeIx.resolve_left hp
    | .pending => e_pending.resolve_left hp

/-- A fold each of whose steps touches listed parts only. -/
theorem Touches.foldl {α : Type} {L : List Piece} {s u : State} {f : State → α → State} (hf : ∀ v a, Touches L v (f v a))
    (h : Touches L s u) (l : List α) : Touches L s (l.foldl f u) := by
  induction l generalizing u with
  | nil => exact h
  | cons a t ih => exact ih (h.trans (hf u a))

theorem Touches.pair {α : Type} {L : List Piece} {s t : State} {a : α} {p : α × State} (e : p = (a, t))
    (h : Touches L s p.2) : Touches L s t := by
  subst e; exact h

theorem Touches.snd {α : Type} {L : List Piece} {s t : State} {a : α} (h : Touches L s t) : Touches L s (a, t).2 := h

theorem Touches.triple {α β : Type} {L : List Piece} {s t : State} {a : α} {b : β} {p : α × β × State}
    (e : p = (a, b, t)) (h : Touches L s p.2.2) : Touches L s t := by
  subst e; exact h

theorem Touches.ite {L : List Piece} {s a b : State} {c : Prop} [Decidable c] (h : Touches L s a) (k : Touches L s b) :
    Touches L s (if c then a else b) := by
  split
  · exact h
  · exact k

theorem Touches.itePair {α : Type} {L : List Piece} {s : State} {a b : α × State} {c : Prop} [Decidable c]
    (h : Touches L s a.2) (k : Touches L s b.2) : Touches L s (if c then a else b).2 := by
  split
  · exact h
  · exact k

theorem Touches.iteNext {L : List Piece} {s : State} {a b : Host.Outcome State Fault Refusal} {c : Prop} [Decidable c]
    (h : ∃ u, a = .next u ∧ Touches L s u) (k : ∃ u, b = .next u ∧ Touches L s u) :
    ∃ u, (if c then a else b) = .next u ∧ Touches L s u := by
  split
  · exact h
  · exact k

/-- A command that completes. -/
theorem Touches.done {L : List Piece} {s t : State} (h : Touches L s t) : ∃ u, done t = .next u ∧ Touches L s u := ⟨t, rfl, h⟩

/-- A meaning that another one runs. -/
theorem Touches.viaNext {L : List Piece} {s t : State} {o : Host.Outcome State Fault Refusal} (e : o = .next t)
    (h : ∃ u, o = .next u ∧ Touches L s u) : Touches L s t := by
  obtain ⟨u, hu, hk⟩ := h
  rw [e] at hu
  cases hu
  exact hk

/-- A meaning that another one runs on a state. -/
theorem Touches.thenO {L : List Piece} {s u : State} {o : Host.Outcome State Fault Refusal} (h : Touches L s u)
    (k : ∃ t, o = .next t ∧ Touches L u t) : ∃ t, o = .next t ∧ Touches L s t := by
  obtain ⟨t, e, k⟩ := k
  exact ⟨t, e, h.trans k⟩

/-! ### Sparse maps: a read after a write -/

theorem mfind_mput {α : Type} (m : Map α) (k k' : Nat) (v : α) :
    mfind (mput m k v) k' = if k = k' then some v else mfind m k' := by
  induction m with
  | nil => simp [mput, mfind]
  | cons a t ih =>
    obtain ⟨q, w⟩ := a
    unfold mput
    split
    · rfl
    · split
      · subst k
        by_cases e : q = k' <;> simp [mfind, e]
      · rename_i h1 h2
        simp only [mfind, ih]
        by_cases e : q = k'
        · subst e; simp [h2]
        · simp [e]

theorem mget_mput {α : Type} [Inhabited α] (m : Map α) (k k' : Nat) (v : α) :
    mget (mput m k v) k' = if k = k' then v else mget m k' := by
  unfold mget
  rw [mfind_mput]
  split <;> rfl

theorem mget_mupd {α : Type} [Inhabited α] (m : Map α) (k k' : Nat) (f : α → α) :
    mget (mupd m k f) k' = if k = k' then f (mget m k) else mget m k' := mget_mput ..

@[simp] theorem mget_mput_self {α : Type} [Inhabited α] (m : Map α) (k : Nat) (v : α) : mget (mput m k v) k = v := by
  rw [mget_mput, if_pos rfl]

@[simp] theorem mget_mupd_self {α : Type} [Inhabited α] (m : Map α) (k : Nat) (f : α → α) :
    mget (mupd m k f) k = f (mget m k) := mget_mput_self ..

theorem mget_mput_ne {α : Type} [Inhabited α] (m : Map α) {k k' : Nat} (v : α) (h : k ≠ k') :
    mget (mput m k v) k' = mget m k' := by
  rw [mget_mput, if_neg h]

theorem mget_mupd_ne {α : Type} [Inhabited α] (m : Map α) {k k' : Nat} (f : α → α) (h : k ≠ k') :
    mget (mupd m k f) k' = mget m k' := mget_mput_ne _ _ h

theorem mget_mmap {α : Type} [Inhabited α] (m : Map α) (f : Nat → α → α) (k : Nat) (h : f k default = default) :
    mget (mmap m f) k = f k (mget m k) := by
  induction m with
  | nil => exact h.symm
  | cons a t ih =>
    obtain ⟨q, w⟩ := a
    by_cases e : q = k
    · subst e
      simp [mget, mmap, mfind]
    · simpa [mget, mmap, mfind, e] using ih

/-! ### One function -/

theorem State.updFn_touch (s : State) (port fn : Nat) (f : Fn → Fn) : Touches [.fns, .rings] s (s.updFn port fn f) := by
  refine ⟨fun p hp => ?_⟩
  cases p <;> first
    | rfl
    | exact absurd (by decide) hp

theorem State.updFn_touch_fns (s : State) (port fn : Nat) (f : Fn → Fn) (hf : ∀ x, fnRings (f x) = fnRings x) :
    Touches [.fns] s (s.updFn port fn f) := by
  refine ⟨fun p hp => ?_⟩
  cases p <;> first
    | rfl
    | exact absurd (by decide) hp
    | skip
  intro k
  show fnRings (mget (mupd s.fns (fnIx port fn) f) k) = _
  rw [mget_mupd]
  split
  · rename_i e; rw [hf, e]
  · rfl

theorem State.updFn_touch_rings (s : State) (port fn : Nat) (f : Fn → Fn) (hf : ∀ x, fnCore (f x) = fnCore x) :
    Touches [.rings] s (s.updFn port fn f) := by
  refine ⟨fun p hp => ?_⟩
  cases p <;> first
    | rfl
    | exact absurd (by decide) hp
    | skip
  intro k
  show fnCore (mget (mupd s.fns (fnIx port fn) f) k) = _
  rw [mget_mupd]
  split
  · rename_i e; rw [hf, e]
  · rfl

end Sys2Proof.Machine
end

