-- ==== Sys2Proof/Laws/State.lean ====
section
/-! SUPPORT. The small lemmas of `State`: what each shared update leaves of every field, and what it makes of the unit
that it changes. -/

set_option Elab.async false

namespace Sys2Proof.Machine

/-! ### Fields that an update leaves alone -/

@[simp] theorem State.updFn_now (s : State) (port fn : Nat) (f : Fn → Fn) : (s.updFn port fn f).now = s.now := rfl
@[simp] theorem State.updFn_por (s : State) (port fn : Nat) (f : Fn → Fn) : (s.updFn port fn f).por = s.por := rfl
@[simp] theorem State.updFn_scu (s : State) (port fn : Nat) (f : Fn → Fn) : (s.updFn port fn f).scu = s.scu := rfl
@[simp] theorem State.updFn_fuses (s : State) (port fn : Nat) (f : Fn → Fn) : (s.updFn port fn f).fuses = s.fuses := rfl
@[simp] theorem State.updFn_idSeed (s : State) (port fn : Nat) (f : Fn → Fn) : (s.updFn port fn f).idSeed = s.idSeed := rfl
@[simp] theorem State.updFn_idKey (s : State) (port fn : Nat) (f : Fn → Fn) : (s.updFn port fn f).idKey = s.idKey := rfl
@[simp] theorem State.updFn_grade (s : State) (port fn : Nat) (f : Fn → Fn) : (s.updFn port fn f).grade = s.grade := rfl
@[simp] theorem State.updFn_stepping (s : State) (port fn : Nat) (f : Fn → Fn) : (s.updFn port fn f).stepping = s.stepping := rfl
@[simp] theorem State.updFn_moult (s : State) (port fn : Nat) (f : Fn → Fn) : (s.updFn port fn f).moult = s.moult := rfl
@[simp] theorem State.updFn_flash (s : State) (port fn : Nat) (f : Fn → Fn) : (s.updFn port fn f).flash = s.flash := rfl
@[simp] theorem State.updFn_key (s : State) (port fn : Nat) (f : Fn → Fn) : (s.updFn port fn f).key = s.key := rfl
@[simp] theorem State.updFn_signer (s : State) (port fn : Nat) (f : Fn → Fn) : (s.updFn port fn f).signer = s.signer := rfl
@[simp] theorem State.updFn_ports (s : State) (port fn : Nat) (f : Fn → Fn) : (s.updFn port fn f).ports = s.ports := rfl
@[simp] theorem State.updFn_nps (s : State) (port fn : Nat) (f : Fn → Fn) : (s.updFn port fn f).nps = s.nps := rfl
@[simp] theorem State.updFn_streams (s : State) (port fn : Nat) (f : Fn → Fn) : (s.updFn port fn f).streams = s.streams := rfl
@[simp] theorem State.updFn_frames (s : State) (port fn : Nat) (f : Fn → Fn) : (s.updFn port fn f).frames = s.frames := rfl
@[simp] theorem State.updFn_nextFrame (s : State) (port fn : Nat) (f : Fn → Fn) : (s.updFn port fn f).nextFrame = s.nextFrame := rfl
@[simp] theorem State.updFn_engines (s : State) (port fn : Nat) (f : Fn → Fn) : (s.updFn port fn f).engines = s.engines := rfl
@[simp] theorem State.updFn_resamplers (s : State) (port fn : Nat) (f : Fn → Fn) : (s.updFn port fn f).resamplers = s.resamplers := rfl
@[simp] theorem State.updFn_relq (s : State) (port fn : Nat) (f : Fn → Fn) : (s.updFn port fn f).relq = s.relq := rfl
@[simp] theorem State.updFn_batches (s : State) (port fn : Nat) (f : Fn → Fn) : (s.updFn port fn f).batches = s.batches := rfl
@[simp] theorem State.updFn_nextBatch (s : State) (port fn : Nat) (f : Fn → Fn) : (s.updFn port fn f).nextBatch = s.nextBatch := rfl
@[simp] theorem State.updFn_ctxs (s : State) (port fn : Nat) (f : Fn → Fn) : (s.updFn port fn f).ctxs = s.ctxs := rfl
@[simp] theorem State.updFn_nextCtx (s : State) (port fn : Nat) (f : Fn → Fn) : (s.updFn port fn f).nextCtx = s.nextCtx := rfl
@[simp] theorem State.updFn_parts (s : State) (port fn : Nat) (f : Fn → Fn) : (s.updFn port fn f).parts = s.parts := rfl
@[simp] theorem State.updFn_regions (s : State) (port fn : Nat) (f : Fn → Fn) : (s.updFn port fn f).regions = s.regions := rfl
@[simp] theorem State.updFn_blocks (s : State) (port fn : Nat) (f : Fn → Fn) : (s.updFn port fn f).blocks = s.blocks := rfl
@[simp] theorem State.updFn_cells (s : State) (port fn : Nat) (f : Fn → Fn) : (s.updFn port fn f).cells = s.cells := rfl
@[simp] theorem State.updFn_dram (s : State) (port fn : Nat) (f : Fn → Fn) : (s.updFn port fn f).dram = s.dram := rfl
@[simp] theorem State.updFn_bpm (s : State) (port fn : Nat) (f : Fn → Fn) : (s.updFn port fn f).bpm = s.bpm := rfl
@[simp] theorem State.updFn_store (s : State) (port fn : Nat) (f : Fn → Fn) : (s.updFn port fn f).store = s.store := rfl
@[simp] theorem State.updFn_pac (s : State) (port fn : Nat) (f : Fn → Fn) : (s.updFn port fn f).pac = s.pac := rfl
@[simp] theorem State.updFn_aon (s : State) (port fn : Nat) (f : Fn → Fn) : (s.updFn port fn f).aon = s.aon := rfl
@[simp] theorem State.updFn_tu (s : State) (port fn : Nat) (f : Fn → Fn) : (s.updFn port fn f).tu = s.tu := rfl
@[simp] theorem State.updFn_unitsDown (s : State) (port fn : Nat) (f : Fn → Fn) : (s.updFn port fn f).unitsDown = s.unitsDown := rfl
@[simp] theorem State.updFn_devTuned (s : State) (port fn : Nat) (f : Fn → Fn) : (s.updFn port fn f).devTuned = s.devTuned := rfl
@[simp] theorem State.updFn_sram (s : State) (port fn : Nat) (f : Fn → Fn) : (s.updFn port fn f).sram = s.sram := rfl
@[simp] theorem State.updFn_out (s : State) (port fn : Nat) (f : Fn → Fn) : (s.updFn port fn f).out = s.out := rfl
@[simp] theorem State.updFn_waits (s : State) (port fn : Nat) (f : Fn → Fn) : (s.updFn port fn f).waits = s.waits := rfl
@[simp] theorem State.updFn_freeIx (s : State) (port fn : Nat) (f : Fn → Fn) : (s.updFn port fn f).freeIx = s.freeIx := rfl
@[simp] theorem State.updFn_pending (s : State) (port fn : Nat) (f : Fn → Fn) : (s.updFn port fn f).pending = s.pending := rfl

@[simp] theorem State.updPort_now (s : State) (p : Nat) (f : HostPort → HostPort) : (s.updPort p f).now = s.now := rfl
@[simp] theorem State.updPort_por (s : State) (p : Nat) (f : HostPort → HostPort) : (s.updPort p f).por = s.por := rfl
@[simp] theorem State.updPort_scu (s : State) (p : Nat) (f : HostPort → HostPort) : (s.updPort p f).scu = s.scu := rfl
@[simp] theorem State.updPort_fuses (s : State) (p : Nat) (f : HostPort → HostPort) : (s.updPort p f).fuses = s.fuses := rfl
@[simp] theorem State.updPort_idSeed (s : State) (p : Nat) (f : HostPort → HostPort) : (s.updPort p f).idSeed = s.idSeed := rfl
@[simp] theorem State.updPort_idKey (s : State) (p : Nat) (f : HostPort → HostPort) : (s.updPort p f).idKey = s.idKey := rfl
@[simp] theorem State.updPort_grade (s : State) (p : Nat) (f : HostPort → HostPort) : (s.updPort p f).grade = s.grade := rfl
@[simp] theorem State.updPort_stepping (s : State) (p : Nat) (f : HostPort → HostPort) : (s.updPort p f).stepping = s.stepping := rfl
@[simp] theorem State.updPort_moult (s : State) (p : Nat) (f : HostPort → HostPort) : (s.updPort p f).moult = s.moult := rfl
@[simp] theorem State.updPort_flash (s : State) (p : Nat) (f : HostPort → HostPort) : (s.updPort p f).flash = s.flash := rfl
@[simp] theorem State.updPort_key (s : State) (p : Nat) (f : HostPort → HostPort) : (s.updPort p f).key = s.key := rfl
@[simp] theorem State.updPort_signer (s : State) (p : Nat) (f : HostPort → HostPort) : (s.updPort p f).signer = s.signer := rfl
@[simp] theorem State.updPort_fns (s : State) (p : Nat) (f : HostPort → HostPort) : (s.updPort p f).fns = s.fns := rfl
@[simp] theorem State.updPort_nps (s : State) (p : Nat) (f : HostPort → HostPort) : (s.updPort p f).nps = s.nps := rfl
@[simp] theorem State.updPort_streams (s : State) (p : Nat) (f : HostPort → HostPort) : (s.updPort p f).streams = s.streams := rfl
@[simp] theorem State.updPort_frames (s : State) (p : Nat) (f : HostPort → HostPort) : (s.updPort p f).frames = s.frames := rfl
@[simp] theorem State.updPort_nextFrame (s : State) (p : Nat) (f : HostPort → HostPort) : (s.updPort p f).nextFrame = s.nextFrame := rfl
@[simp] theorem State.updPort_engines (s : State) (p : Nat) (f : HostPort → HostPort) : (s.updPort p f).engines = s.engines := rfl
@[simp] theorem State.updPort_resamplers (s : State) (p : Nat) (f : HostPort → HostPort) : (s.updPort p f).resamplers = s.resamplers := rfl
@[simp] theorem State.updPort_relq (s : State) (p : Nat) (f : HostPort → HostPort) : (s.updPort p f).relq = s.relq := rfl
@[simp] theorem State.updPort_batches (s : State) (p : Nat) (f : HostPort → HostPort) : (s.updPort p f).batches = s.batches := rfl
@[simp] theorem State.updPort_nextBatch (s : State) (p : Nat) (f : HostPort → HostPort) : (s.updPort p f).nextBatch = s.nextBatch := rfl
@[simp] theorem State.updPort_ctxs (s : State) (p : Nat) (f : HostPort → HostPort) : (s.updPort p f).ctxs = s.ctxs := rfl
@[simp] theorem State.updPort_nextCtx (s : State) (p : Nat) (f : HostPort → HostPort) : (s.updPort p f).nextCtx = s.nextCtx := rfl
@[simp] theorem State.updPort_parts (s : State) (p : Nat) (f : HostPort → HostPort) : (s.updPort p f).parts = s.parts := rfl
@[simp] theorem State.updPort_regions (s : State) (p : Nat) (f : HostPort → HostPort) : (s.updPort p f).regions = s.regions := rfl
@[simp] theorem State.updPort_blocks (s : State) (p : Nat) (f : HostPort → HostPort) : (s.updPort p f).blocks = s.blocks := rfl
@[simp] theorem State.updPort_cells (s : State) (p : Nat) (f : HostPort → HostPort) : (s.updPort p f).cells = s.cells := rfl
@[simp] theorem State.updPort_dram (s : State) (p : Nat) (f : HostPort → HostPort) : (s.updPort p f).dram = s.dram := rfl
@[simp] theorem State.updPort_bpm (s : State) (p : Nat) (f : HostPort → HostPort) : (s.updPort p f).bpm = s.bpm := rfl
@[simp] theorem State.updPort_store (s : State) (p : Nat) (f : HostPort → HostPort) : (s.updPort p f).store = s.store := rfl
@[simp] theorem State.updPort_pac (s : State) (p : Nat) (f : HostPort → HostPort) : (s.updPort p f).pac = s.pac := rfl
@[simp] theorem State.updPort_aon (s : State) (p : Nat) (f : HostPort → HostPort) : (s.updPort p f).aon = s.aon := rfl
@[simp] theorem State.updPort_tu (s : State) (p : Nat) (f : HostPort → HostPort) : (s.updPort p f).tu = s.tu := rfl
@[simp] theorem State.updPort_unitsDown (s : State) (p : Nat) (f : HostPort → HostPort) : (s.updPort p f).unitsDown = s.unitsDown := rfl
@[simp] theorem State.updPort_devTuned (s : State) (p : Nat) (f : HostPort → HostPort) : (s.updPort p f).devTuned = s.devTuned := rfl
@[simp] theorem State.updPort_sram (s : State) (p : Nat) (f : HostPort → HostPort) : (s.updPort p f).sram = s.sram := rfl
@[simp] theorem State.updPort_out (s : State) (p : Nat) (f : HostPort → HostPort) : (s.updPort p f).out = s.out := rfl
@[simp] theorem State.updPort_waits (s : State) (p : Nat) (f : HostPort → HostPort) : (s.updPort p f).waits = s.waits := rfl
@[simp] theorem State.updPort_freeIx (s : State) (p : Nat) (f : HostPort → HostPort) : (s.updPort p f).freeIx = s.freeIx := rfl
@[simp] theorem State.updPort_pending (s : State) (p : Nat) (f : HostPort → HostPort) : (s.updPort p f).pending = s.pending := rfl

@[simp] theorem State.updNp_now (s : State) (n : Nat) (f : NetPort → NetPort) : (s.updNp n f).now = s.now := rfl
@[simp] theorem State.updNp_por (s : State) (n : Nat) (f : NetPort → NetPort) : (s.updNp n f).por = s.por := rfl
@[simp] theorem State.updNp_scu (s : State) (n : Nat) (f : NetPort → NetPort) : (s.updNp n f).scu = s.scu := rfl
@[simp] theorem State.updNp_fuses (s : State) (n : Nat) (f : NetPort → NetPort) : (s.updNp n f).fuses = s.fuses := rfl
@[simp] theorem State.updNp_idSeed (s : State) (n : Nat) (f : NetPort → NetPort) : (s.updNp n f).idSeed = s.idSeed := rfl
@[simp] theorem State.updNp_idKey (s : State) (n : Nat) (f : NetPort → NetPort) : (s.updNp n f).idKey = s.idKey := rfl
@[simp] theorem State.updNp_grade (s : State) (n : Nat) (f : NetPort → NetPort) : (s.updNp n f).grade = s.grade := rfl
@[simp] theorem State.updNp_stepping (s : State) (n : Nat) (f : NetPort → NetPort) : (s.updNp n f).stepping = s.stepping := rfl
@[simp] theorem State.updNp_moult (s : State) (n : Nat) (f : NetPort → NetPort) : (s.updNp n f).moult = s.moult := rfl
@[simp] theorem State.updNp_flash (s : State) (n : Nat) (f : NetPort → NetPort) : (s.updNp n f).flash = s.flash := rfl
@[simp] theorem State.updNp_key (s : State) (n : Nat) (f : NetPort → NetPort) : (s.updNp n f).key = s.key := rfl
@[simp] theorem State.updNp_signer (s : State) (n : Nat) (f : NetPort → NetPort) : (s.updNp n f).signer = s.signer := rfl
@[simp] theorem State.updNp_fns (s : State) (n : Nat) (f : NetPort → NetPort) : (s.updNp n f).fns = s.fns := rfl
@[simp] theorem State.updNp_ports (s : State) (n : Nat) (f : NetPort → NetPort) : (s.updNp n f).ports = s.ports := rfl
@[simp] theorem State.updNp_streams (s : State) (n : Nat) (f : NetPort → NetPort) : (s.updNp n f).streams = s.streams := rfl
@[simp] theorem State.updNp_frames (s : State) (n : Nat) (f : NetPort → NetPort) : (s.updNp n f).frames = s.frames := rfl
@[simp] theorem State.updNp_nextFrame (s : State) (n : Nat) (f : NetPort → NetPort) : (s.updNp n f).nextFrame = s.nextFrame := rfl
@[simp] theorem State.updNp_engines (s : State) (n : Nat) (f : NetPort → NetPort) : (s.updNp n f).engines = s.engines := rfl
@[simp] theorem State.updNp_resamplers (s : State) (n : Nat) (f : NetPort → NetPort) : (s.updNp n f).resamplers = s.resamplers := rfl
@[simp] theorem State.updNp_relq (s : State) (n : Nat) (f : NetPort → NetPort) : (s.updNp n f).relq = s.relq := rfl
@[simp] theorem State.updNp_batches (s : State) (n : Nat) (f : NetPort → NetPort) : (s.updNp n f).batches = s.batches := rfl
@[simp] theorem State.updNp_nextBatch (s : State) (n : Nat) (f : NetPort → NetPort) : (s.updNp n f).nextBatch = s.nextBatch := rfl
@[simp] theorem State.updNp_ctxs (s : State) (n : Nat) (f : NetPort → NetPort) : (s.updNp n f).ctxs = s.ctxs := rfl
@[simp] theorem State.updNp_nextCtx (s : State) (n : Nat) (f : NetPort → NetPort) : (s.updNp n f).nextCtx = s.nextCtx := rfl
@[simp] theorem State.updNp_parts (s : State) (n : Nat) (f : NetPort → NetPort) : (s.updNp n f).parts = s.parts := rfl
@[simp] theorem State.updNp_regions (s : State) (n : Nat) (f : NetPort → NetPort) : (s.updNp n f).regions = s.regions := rfl
@[simp] theorem State.updNp_blocks (s : State) (n : Nat) (f : NetPort → NetPort) : (s.updNp n f).blocks = s.blocks := rfl
@[simp] theorem State.updNp_cells (s : State) (n : Nat) (f : NetPort → NetPort) : (s.updNp n f).cells = s.cells := rfl
@[simp] theorem State.updNp_dram (s : State) (n : Nat) (f : NetPort → NetPort) : (s.updNp n f).dram = s.dram := rfl
@[simp] theorem State.updNp_bpm (s : State) (n : Nat) (f : NetPort → NetPort) : (s.updNp n f).bpm = s.bpm := rfl
@[simp] theorem State.updNp_store (s : State) (n : Nat) (f : NetPort → NetPort) : (s.updNp n f).store = s.store := rfl
@[simp] theorem State.updNp_pac (s : State) (n : Nat) (f : NetPort → NetPort) : (s.updNp n f).pac = s.pac := rfl
@[simp] theorem State.updNp_aon (s : State) (n : Nat) (f : NetPort → NetPort) : (s.updNp n f).aon = s.aon := rfl
@[simp] theorem State.updNp_tu (s : State) (n : Nat) (f : NetPort → NetPort) : (s.updNp n f).tu = s.tu := rfl
@[simp] theorem State.updNp_unitsDown (s : State) (n : Nat) (f : NetPort → NetPort) : (s.updNp n f).unitsDown = s.unitsDown := rfl
@[simp] theorem State.updNp_devTuned (s : State) (n : Nat) (f : NetPort → NetPort) : (s.updNp n f).devTuned = s.devTuned := rfl
@[simp] theorem State.updNp_sram (s : State) (n : Nat) (f : NetPort → NetPort) : (s.updNp n f).sram = s.sram := rfl
@[simp] theorem State.updNp_out (s : State) (n : Nat) (f : NetPort → NetPort) : (s.updNp n f).out = s.out := rfl
@[simp] theorem State.updNp_waits (s : State) (n : Nat) (f : NetPort → NetPort) : (s.updNp n f).waits = s.waits := rfl
@[simp] theorem State.updNp_freeIx (s : State) (n : Nat) (f : NetPort → NetPort) : (s.updNp n f).freeIx = s.freeIx := rfl
@[simp] theorem State.updNp_pending (s : State) (n : Nat) (f : NetPort → NetPort) : (s.updNp n f).pending = s.pending := rfl

@[simp] theorem State.updStream_now (s : State) (i : Nat) (f : Stream → Stream) : (s.updStream i f).now = s.now := rfl
@[simp] theorem State.updStream_por (s : State) (i : Nat) (f : Stream → Stream) : (s.updStream i f).por = s.por := rfl
@[simp] theorem State.updStream_scu (s : State) (i : Nat) (f : Stream → Stream) : (s.updStream i f).scu = s.scu := rfl
@[simp] theorem State.updStream_fuses (s : State) (i : Nat) (f : Stream → Stream) : (s.updStream i f).fuses = s.fuses := rfl
@[simp] theorem State.updStream_idSeed (s : State) (i : Nat) (f : Stream → Stream) : (s.updStream i f).idSeed = s.idSeed := rfl
@[simp] theorem State.updStream_idKey (s : State) (i : Nat) (f : Stream → Stream) : (s.updStream i f).idKey = s.idKey := rfl
@[simp] theorem State.updStream_grade (s : State) (i : Nat) (f : Stream → Stream) : (s.updStream i f).grade = s.grade := rfl
@[simp] theorem State.updStream_stepping (s : State) (i : Nat) (f : Stream → Stream) : (s.updStream i f).stepping = s.stepping := rfl
@[simp] theorem State.updStream_moult (s : State) (i : Nat) (f : Stream → Stream) : (s.updStream i f).moult = s.moult := rfl
@[simp] theorem State.updStream_flash (s : State) (i : Nat) (f : Stream → Stream) : (s.updStream i f).flash = s.flash := rfl
@[simp] theorem State.updStream_key (s : State) (i : Nat) (f : Stream → Stream) : (s.updStream i f).key = s.key := rfl
@[simp] theorem State.updStream_signer (s : State) (i : Nat) (f : Stream → Stream) : (s.updStream i f).signer = s.signer := rfl
@[simp] theorem State.updStream_fns (s : State) (i : Nat) (f : Stream → Stream) : (s.updStream i f).fns = s.fns := rfl
@[simp] theorem State.updStream_ports (s : State) (i : Nat) (f : Stream → Stream) : (s.updStream i f).ports = s.ports := rfl
@[simp] theorem State.updStream_nps (s : State) (i : Nat) (f : Stream → Stream) : (s.updStream i f).nps = s.nps := rfl
@[simp] theorem State.updStream_frames (s : State) (i : Nat) (f : Stream → Stream) : (s.updStream i f).frames = s.frames := rfl
@[simp] theorem State.updStream_nextFrame (s : State) (i : Nat) (f : Stream → Stream) : (s.updStream i f).nextFrame = s.nextFrame := rfl
@[simp] theorem State.updStream_engines (s : State) (i : Nat) (f : Stream → Stream) : (s.updStream i f).engines = s.engines := rfl
@[simp] theorem State.updStream_resamplers (s : State) (i : Nat) (f : Stream → Stream) : (s.updStream i f).resamplers = s.resamplers := rfl
@[simp] theorem State.updStream_relq (s : State) (i : Nat) (f : Stream → Stream) : (s.updStream i f).relq = s.relq := rfl
@[simp] theorem State.updStream_batches (s : State) (i : Nat) (f : Stream → Stream) : (s.updStream i f).batches = s.batches := rfl
@[simp] theorem State.updStream_nextBatch (s : State) (i : Nat) (f : Stream → Stream) : (s.updStream i f).nextBatch = s.nextBatch := rfl
@[simp] theorem State.updStream_ctxs (s : State) (i : Nat) (f : Stream → Stream) : (s.updStream i f).ctxs = s.ctxs := rfl
@[simp] theorem State.updStream_nextCtx (s : State) (i : Nat) (f : Stream → Stream) : (s.updStream i f).nextCtx = s.nextCtx := rfl
@[simp] theorem State.updStream_parts (s : State) (i : Nat) (f : Stream → Stream) : (s.updStream i f).parts = s.parts := rfl
@[simp] theorem State.updStream_regions (s : State) (i : Nat) (f : Stream → Stream) : (s.updStream i f).regions = s.regions := rfl
@[simp] theorem State.updStream_blocks (s : State) (i : Nat) (f : Stream → Stream) : (s.updStream i f).blocks = s.blocks := rfl
@[simp] theorem State.updStream_cells (s : State) (i : Nat) (f : Stream → Stream) : (s.updStream i f).cells = s.cells := rfl
@[simp] theorem State.updStream_dram (s : State) (i : Nat) (f : Stream → Stream) : (s.updStream i f).dram = s.dram := rfl
@[simp] theorem State.updStream_bpm (s : State) (i : Nat) (f : Stream → Stream) : (s.updStream i f).bpm = s.bpm := rfl
@[simp] theorem State.updStream_store (s : State) (i : Nat) (f : Stream → Stream) : (s.updStream i f).store = s.store := rfl
@[simp] theorem State.updStream_pac (s : State) (i : Nat) (f : Stream → Stream) : (s.updStream i f).pac = s.pac := rfl
@[simp] theorem State.updStream_aon (s : State) (i : Nat) (f : Stream → Stream) : (s.updStream i f).aon = s.aon := rfl
@[simp] theorem State.updStream_tu (s : State) (i : Nat) (f : Stream → Stream) : (s.updStream i f).tu = s.tu := rfl
@[simp] theorem State.updStream_unitsDown (s : State) (i : Nat) (f : Stream → Stream) : (s.updStream i f).unitsDown = s.unitsDown := rfl
@[simp] theorem State.updStream_devTuned (s : State) (i : Nat) (f : Stream → Stream) : (s.updStream i f).devTuned = s.devTuned := rfl
@[simp] theorem State.updStream_sram (s : State) (i : Nat) (f : Stream → Stream) : (s.updStream i f).sram = s.sram := rfl
@[simp] theorem State.updStream_out (s : State) (i : Nat) (f : Stream → Stream) : (s.updStream i f).out = s.out := rfl
@[simp] theorem State.updStream_waits (s : State) (i : Nat) (f : Stream → Stream) : (s.updStream i f).waits = s.waits := rfl
@[simp] theorem State.updStream_freeIx (s : State) (i : Nat) (f : Stream → Stream) : (s.updStream i f).freeIx = s.freeIx := rfl
@[simp] theorem State.updStream_pending (s : State) (i : Nat) (f : Stream → Stream) : (s.updStream i f).pending = s.pending := rfl

@[simp] theorem State.updFrame_now (s : State) (i : Nat) (f : Frame → Frame) : (s.updFrame i f).now = s.now := rfl
@[simp] theorem State.updFrame_por (s : State) (i : Nat) (f : Frame → Frame) : (s.updFrame i f).por = s.por := rfl
@[simp] theorem State.updFrame_scu (s : State) (i : Nat) (f : Frame → Frame) : (s.updFrame i f).scu = s.scu := rfl
@[simp] theorem State.updFrame_fuses (s : State) (i : Nat) (f : Frame → Frame) : (s.updFrame i f).fuses = s.fuses := rfl
@[simp] theorem State.updFrame_idSeed (s : State) (i : Nat) (f : Frame → Frame) : (s.updFrame i f).idSeed = s.idSeed := rfl
@[simp] theorem State.updFrame_idKey (s : State) (i : Nat) (f : Frame → Frame) : (s.updFrame i f).idKey = s.idKey := rfl
@[simp] theorem State.updFrame_grade (s : State) (i : Nat) (f : Frame → Frame) : (s.updFrame i f).grade = s.grade := rfl
@[simp] theorem State.updFrame_stepping (s : State) (i : Nat) (f : Frame → Frame) : (s.updFrame i f).stepping = s.stepping := rfl
@[simp] theorem State.updFrame_moult (s : State) (i : Nat) (f : Frame → Frame) : (s.updFrame i f).moult = s.moult := rfl
@[simp] theorem State.updFrame_flash (s : State) (i : Nat) (f : Frame → Frame) : (s.updFrame i f).flash = s.flash := rfl
@[simp] theorem State.updFrame_key (s : State) (i : Nat) (f : Frame → Frame) : (s.updFrame i f).key = s.key := rfl
@[simp] theorem State.updFrame_signer (s : State) (i : Nat) (f : Frame → Frame) : (s.updFrame i f).signer = s.signer := rfl
@[simp] theorem State.updFrame_fns (s : State) (i : Nat) (f : Frame → Frame) : (s.updFrame i f).fns = s.fns := rfl
@[simp] theorem State.updFrame_ports (s : State) (i : Nat) (f : Frame → Frame) : (s.updFrame i f).ports = s.ports := rfl
@[simp] theorem State.updFrame_nps (s : State) (i : Nat) (f : Frame → Frame) : (s.updFrame i f).nps = s.nps := rfl
@[simp] theorem State.updFrame_streams (s : State) (i : Nat) (f : Frame → Frame) : (s.updFrame i f).streams = s.streams := rfl
@[simp] theorem State.updFrame_nextFrame (s : State) (i : Nat) (f : Frame → Frame) : (s.updFrame i f).nextFrame = s.nextFrame := rfl
@[simp] theorem State.updFrame_engines (s : State) (i : Nat) (f : Frame → Frame) : (s.updFrame i f).engines = s.engines := rfl
@[simp] theorem State.updFrame_resamplers (s : State) (i : Nat) (f : Frame → Frame) : (s.updFrame i f).resamplers = s.resamplers := rfl
@[simp] theorem State.updFrame_relq (s : State) (i : Nat) (f : Frame → Frame) : (s.updFrame i f).relq = s.relq := rfl
@[simp] theorem State.updFrame_batches (s : State) (i : Nat) (f : Frame → Frame) : (s.updFrame i f).batches = s.batches := rfl
@[simp] theorem State.updFrame_nextBatch (s : State) (i : Nat) (f : Frame → Frame) : (s.updFrame i f).nextBatch = s.nextBatch := rfl
@[simp] theorem State.updFrame_ctxs (s : State) (i : Nat) (f : Frame → Frame) : (s.updFrame i f).ctxs = s.ctxs := rfl
@[simp] theorem State.updFrame_nextCtx (s : State) (i : Nat) (f : Frame → Frame) : (s.updFrame i f).nextCtx = s.nextCtx := rfl
@[simp] theorem State.updFrame_parts (s : State) (i : Nat) (f : Frame → Frame) : (s.updFrame i f).parts = s.parts := rfl
@[simp] theorem State.updFrame_regions (s : State) (i : Nat) (f : Frame → Frame) : (s.updFrame i f).regions = s.regions := rfl
@[simp] theorem State.updFrame_blocks (s : State) (i : Nat) (f : Frame → Frame) : (s.updFrame i f).blocks = s.blocks := rfl
@[simp] theorem State.updFrame_cells (s : State) (i : Nat) (f : Frame → Frame) : (s.updFrame i f).cells = s.cells := rfl
@[simp] theorem State.updFrame_dram (s : State) (i : Nat) (f : Frame → Frame) : (s.updFrame i f).dram = s.dram := rfl
@[simp] theorem State.updFrame_bpm (s : State) (i : Nat) (f : Frame → Frame) : (s.updFrame i f).bpm = s.bpm := rfl
@[simp] theorem State.updFrame_store (s : State) (i : Nat) (f : Frame → Frame) : (s.updFrame i f).store = s.store := rfl
@[simp] theorem State.updFrame_pac (s : State) (i : Nat) (f : Frame → Frame) : (s.updFrame i f).pac = s.pac := rfl
@[simp] theorem State.updFrame_aon (s : State) (i : Nat) (f : Frame → Frame) : (s.updFrame i f).aon = s.aon := rfl
@[simp] theorem State.updFrame_tu (s : State) (i : Nat) (f : Frame → Frame) : (s.updFrame i f).tu = s.tu := rfl
@[simp] theorem State.updFrame_unitsDown (s : State) (i : Nat) (f : Frame → Frame) : (s.updFrame i f).unitsDown = s.unitsDown := rfl
@[simp] theorem State.updFrame_devTuned (s : State) (i : Nat) (f : Frame → Frame) : (s.updFrame i f).devTuned = s.devTuned := rfl
@[simp] theorem State.updFrame_sram (s : State) (i : Nat) (f : Frame → Frame) : (s.updFrame i f).sram = s.sram := rfl
@[simp] theorem State.updFrame_out (s : State) (i : Nat) (f : Frame → Frame) : (s.updFrame i f).out = s.out := rfl
@[simp] theorem State.updFrame_waits (s : State) (i : Nat) (f : Frame → Frame) : (s.updFrame i f).waits = s.waits := rfl
@[simp] theorem State.updFrame_freeIx (s : State) (i : Nat) (f : Frame → Frame) : (s.updFrame i f).freeIx = s.freeIx := rfl
@[simp] theorem State.updFrame_pending (s : State) (i : Nat) (f : Frame → Frame) : (s.updFrame i f).pending = s.pending := rfl

@[simp] theorem State.updPart_now (s : State) (i : Nat) (f : Part → Part) : (s.updPart i f).now = s.now := rfl
@[simp] theorem State.updPart_por (s : State) (i : Nat) (f : Part → Part) : (s.updPart i f).por = s.por := rfl
@[simp] theorem State.updPart_scu (s : State) (i : Nat) (f : Part → Part) : (s.updPart i f).scu = s.scu := rfl
@[simp] theorem State.updPart_fuses (s : State) (i : Nat) (f : Part → Part) : (s.updPart i f).fuses = s.fuses := rfl
@[simp] theorem State.updPart_idSeed (s : State) (i : Nat) (f : Part → Part) : (s.updPart i f).idSeed = s.idSeed := rfl
@[simp] theorem State.updPart_idKey (s : State) (i : Nat) (f : Part → Part) : (s.updPart i f).idKey = s.idKey := rfl
@[simp] theorem State.updPart_grade (s : State) (i : Nat) (f : Part → Part) : (s.updPart i f).grade = s.grade := rfl
@[simp] theorem State.updPart_stepping (s : State) (i : Nat) (f : Part → Part) : (s.updPart i f).stepping = s.stepping := rfl
@[simp] theorem State.updPart_moult (s : State) (i : Nat) (f : Part → Part) : (s.updPart i f).moult = s.moult := rfl
@[simp] theorem State.updPart_flash (s : State) (i : Nat) (f : Part → Part) : (s.updPart i f).flash = s.flash := rfl
@[simp] theorem State.updPart_key (s : State) (i : Nat) (f : Part → Part) : (s.updPart i f).key = s.key := rfl
@[simp] theorem State.updPart_signer (s : State) (i : Nat) (f : Part → Part) : (s.updPart i f).signer = s.signer := rfl
@[simp] theorem State.updPart_fns (s : State) (i : Nat) (f : Part → Part) : (s.updPart i f).fns = s.fns := rfl
@[simp] theorem State.updPart_ports (s : State) (i : Nat) (f : Part → Part) : (s.updPart i f).ports = s.ports := rfl
@[simp] theorem State.updPart_nps (s : State) (i : Nat) (f : Part → Part) : (s.updPart i f).nps = s.nps := rfl
@[simp] theorem State.updPart_streams (s : State) (i : Nat) (f : Part → Part) : (s.updPart i f).streams = s.streams := rfl
@[simp] theorem State.updPart_frames (s : State) (i : Nat) (f : Part → Part) : (s.updPart i f).frames = s.frames := rfl
@[simp] theorem State.updPart_nextFrame (s : State) (i : Nat) (f : Part → Part) : (s.updPart i f).nextFrame = s.nextFrame := rfl
@[simp] theorem State.updPart_engines (s : State) (i : Nat) (f : Part → Part) : (s.updPart i f).engines = s.engines := rfl
@[simp] theorem State.updPart_resamplers (s : State) (i : Nat) (f : Part → Part) : (s.updPart i f).resamplers = s.resamplers := rfl
@[simp] theorem State.updPart_relq (s : State) (i : Nat) (f : Part → Part) : (s.updPart i f).relq = s.relq := rfl
@[simp] theorem State.updPart_batches (s : State) (i : Nat) (f : Part → Part) : (s.updPart i f).batches = s.batches := rfl
@[simp] theorem State.updPart_nextBatch (s : State) (i : Nat) (f : Part → Part) : (s.updPart i f).nextBatch = s.nextBatch := rfl
@[simp] theorem State.updPart_ctxs (s : State) (i : Nat) (f : Part → Part) : (s.updPart i f).ctxs = s.ctxs := rfl
@[simp] theorem State.updPart_nextCtx (s : State) (i : Nat) (f : Part → Part) : (s.updPart i f).nextCtx = s.nextCtx := rfl
@[simp] theorem State.updPart_regions (s : State) (i : Nat) (f : Part → Part) : (s.updPart i f).regions = s.regions := rfl
@[simp] theorem State.updPart_blocks (s : State) (i : Nat) (f : Part → Part) : (s.updPart i f).blocks = s.blocks := rfl
@[simp] theorem State.updPart_cells (s : State) (i : Nat) (f : Part → Part) : (s.updPart i f).cells = s.cells := rfl
@[simp] theorem State.updPart_dram (s : State) (i : Nat) (f : Part → Part) : (s.updPart i f).dram = s.dram := rfl
@[simp] theorem State.updPart_bpm (s : State) (i : Nat) (f : Part → Part) : (s.updPart i f).bpm = s.bpm := rfl
@[simp] theorem State.updPart_store (s : State) (i : Nat) (f : Part → Part) : (s.updPart i f).store = s.store := rfl
@[simp] theorem State.updPart_pac (s : State) (i : Nat) (f : Part → Part) : (s.updPart i f).pac = s.pac := rfl
@[simp] theorem State.updPart_aon (s : State) (i : Nat) (f : Part → Part) : (s.updPart i f).aon = s.aon := rfl
@[simp] theorem State.updPart_tu (s : State) (i : Nat) (f : Part → Part) : (s.updPart i f).tu = s.tu := rfl
@[simp] theorem State.updPart_unitsDown (s : State) (i : Nat) (f : Part → Part) : (s.updPart i f).unitsDown = s.unitsDown := rfl
@[simp] theorem State.updPart_devTuned (s : State) (i : Nat) (f : Part → Part) : (s.updPart i f).devTuned = s.devTuned := rfl
@[simp] theorem State.updPart_sram (s : State) (i : Nat) (f : Part → Part) : (s.updPart i f).sram = s.sram := rfl
@[simp] theorem State.updPart_out (s : State) (i : Nat) (f : Part → Part) : (s.updPart i f).out = s.out := rfl
@[simp] theorem State.updPart_waits (s : State) (i : Nat) (f : Part → Part) : (s.updPart i f).waits = s.waits := rfl
@[simp] theorem State.updPart_freeIx (s : State) (i : Nat) (f : Part → Part) : (s.updPart i f).freeIx = s.freeIx := rfl
@[simp] theorem State.updPart_pending (s : State) (i : Nat) (f : Part → Part) : (s.updPart i f).pending = s.pending := rfl

@[simp] theorem State.updRegion_now (s : State) (i : Nat) (f : Region → Region) : (s.updRegion i f).now = s.now := rfl
@[simp] theorem State.updRegion_por (s : State) (i : Nat) (f : Region → Region) : (s.updRegion i f).por = s.por := rfl
@[simp] theorem State.updRegion_scu (s : State) (i : Nat) (f : Region → Region) : (s.updRegion i f).scu = s.scu := rfl
@[simp] theorem State.updRegion_fuses (s : State) (i : Nat) (f : Region → Region) : (s.updRegion i f).fuses = s.fuses := rfl
@[simp] theorem State.updRegion_idSeed (s : State) (i : Nat) (f : Region → Region) : (s.updRegion i f).idSeed = s.idSeed := rfl
@[simp] theorem State.updRegion_idKey (s : State) (i : Nat) (f : Region → Region) : (s.updRegion i f).idKey = s.idKey := rfl
@[simp] theorem State.updRegion_grade (s : State) (i : Nat) (f : Region → Region) : (s.updRegion i f).grade = s.grade := rfl
@[simp] theorem State.updRegion_stepping (s : State) (i : Nat) (f : Region → Region) : (s.updRegion i f).stepping = s.stepping := rfl
@[simp] theorem State.updRegion_moult (s : State) (i : Nat) (f : Region → Region) : (s.updRegion i f).moult = s.moult := rfl
@[simp] theorem State.updRegion_flash (s : State) (i : Nat) (f : Region → Region) : (s.updRegion i f).flash = s.flash := rfl
@[simp] theorem State.updRegion_key (s : State) (i : Nat) (f : Region → Region) : (s.updRegion i f).key = s.key := rfl
@[simp] theorem State.updRegion_signer (s : State) (i : Nat) (f : Region → Region) : (s.updRegion i f).signer = s.signer := rfl
@[simp] theorem State.updRegion_fns (s : State) (i : Nat) (f : Region → Region) : (s.updRegion i f).fns = s.fns := rfl
@[simp] theorem State.updRegion_ports (s : State) (i : Nat) (f : Region → Region) : (s.updRegion i f).ports = s.ports := rfl
@[simp] theorem State.updRegion_nps (s : State) (i : Nat) (f : Region → Region) : (s.updRegion i f).nps = s.nps := rfl
@[simp] theorem State.updRegion_streams (s : State) (i : Nat) (f : Region → Region) : (s.updRegion i f).streams = s.streams := rfl
@[simp] theorem State.updRegion_frames (s : State) (i : Nat) (f : Region → Region) : (s.updRegion i f).frames = s.frames := rfl
@[simp] theorem State.updRegion_nextFrame (s : State) (i : Nat) (f : Region → Region) : (s.updRegion i f).nextFrame = s.nextFrame := rfl
@[simp] theorem State.updRegion_engines (s : State) (i : Nat) (f : Region → Region) : (s.updRegion i f).engines = s.engines := rfl
@[simp] theorem State.updRegion_resamplers (s : State) (i : Nat) (f : Region → Region) : (s.updRegion i f).resamplers = s.resamplers := rfl
@[simp] theorem State.updRegion_relq (s : State) (i : Nat) (f : Region → Region) : (s.updRegion i f).relq = s.relq := rfl
@[simp] theorem State.updRegion_batches (s : State) (i : Nat) (f : Region → Region) : (s.updRegion i f).batches = s.batches := rfl
@[simp] theorem State.updRegion_nextBatch (s : State) (i : Nat) (f : Region → Region) : (s.updRegion i f).nextBatch = s.nextBatch := rfl
@[simp] theorem State.updRegion_ctxs (s : State) (i : Nat) (f : Region → Region) : (s.updRegion i f).ctxs = s.ctxs := rfl
@[simp] theorem State.updRegion_nextCtx (s : State) (i : Nat) (f : Region → Region) : (s.updRegion i f).nextCtx = s.nextCtx := rfl
@[simp] theorem State.updRegion_parts (s : State) (i : Nat) (f : Region → Region) : (s.updRegion i f).parts = s.parts := rfl
@[simp] theorem State.updRegion_blocks (s : State) (i : Nat) (f : Region → Region) : (s.updRegion i f).blocks = s.blocks := rfl
@[simp] theorem State.updRegion_cells (s : State) (i : Nat) (f : Region → Region) : (s.updRegion i f).cells = s.cells := rfl
@[simp] theorem State.updRegion_dram (s : State) (i : Nat) (f : Region → Region) : (s.updRegion i f).dram = s.dram := rfl
@[simp] theorem State.updRegion_bpm (s : State) (i : Nat) (f : Region → Region) : (s.updRegion i f).bpm = s.bpm := rfl
@[simp] theorem State.updRegion_store (s : State) (i : Nat) (f : Region → Region) : (s.updRegion i f).store = s.store := rfl
@[simp] theorem State.updRegion_pac (s : State) (i : Nat) (f : Region → Region) : (s.updRegion i f).pac = s.pac := rfl
@[simp] theorem State.updRegion_aon (s : State) (i : Nat) (f : Region → Region) : (s.updRegion i f).aon = s.aon := rfl
@[simp] theorem State.updRegion_tu (s : State) (i : Nat) (f : Region → Region) : (s.updRegion i f).tu = s.tu := rfl
@[simp] theorem State.updRegion_unitsDown (s : State) (i : Nat) (f : Region → Region) : (s.updRegion i f).unitsDown = s.unitsDown := rfl
@[simp] theorem State.updRegion_devTuned (s : State) (i : Nat) (f : Region → Region) : (s.updRegion i f).devTuned = s.devTuned := rfl
@[simp] theorem State.updRegion_sram (s : State) (i : Nat) (f : Region → Region) : (s.updRegion i f).sram = s.sram := rfl
@[simp] theorem State.updRegion_out (s : State) (i : Nat) (f : Region → Region) : (s.updRegion i f).out = s.out := rfl
@[simp] theorem State.updRegion_waits (s : State) (i : Nat) (f : Region → Region) : (s.updRegion i f).waits = s.waits := rfl
@[simp] theorem State.updRegion_freeIx (s : State) (i : Nat) (f : Region → Region) : (s.updRegion i f).freeIx = s.freeIx := rfl
@[simp] theorem State.updRegion_pending (s : State) (i : Nat) (f : Region → Region) : (s.updRegion i f).pending = s.pending := rfl

@[simp] theorem State.updBlock_now (s : State) (i : Nat) (f : Block → Block) : (s.updBlock i f).now = s.now := rfl
@[simp] theorem State.updBlock_por (s : State) (i : Nat) (f : Block → Block) : (s.updBlock i f).por = s.por := rfl
@[simp] theorem State.updBlock_scu (s : State) (i : Nat) (f : Block → Block) : (s.updBlock i f).scu = s.scu := rfl
@[simp] theorem State.updBlock_fuses (s : State) (i : Nat) (f : Block → Block) : (s.updBlock i f).fuses = s.fuses := rfl
@[simp] theorem State.updBlock_idSeed (s : State) (i : Nat) (f : Block → Block) : (s.updBlock i f).idSeed = s.idSeed := rfl
@[simp] theorem State.updBlock_idKey (s : State) (i : Nat) (f : Block → Block) : (s.updBlock i f).idKey = s.idKey := rfl
@[simp] theorem State.updBlock_grade (s : State) (i : Nat) (f : Block → Block) : (s.updBlock i f).grade = s.grade := rfl
@[simp] theorem State.updBlock_stepping (s : State) (i : Nat) (f : Block → Block) : (s.updBlock i f).stepping = s.stepping := rfl
@[simp] theorem State.updBlock_moult (s : State) (i : Nat) (f : Block → Block) : (s.updBlock i f).moult = s.moult := rfl
@[simp] theorem State.updBlock_flash (s : State) (i : Nat) (f : Block → Block) : (s.updBlock i f).flash = s.flash := rfl
@[simp] theorem State.updBlock_key (s : State) (i : Nat) (f : Block → Block) : (s.updBlock i f).key = s.key := rfl
@[simp] theorem State.updBlock_signer (s : State) (i : Nat) (f : Block → Block) : (s.updBlock i f).signer = s.signer := rfl
@[simp] theorem State.updBlock_fns (s : State) (i : Nat) (f : Block → Block) : (s.updBlock i f).fns = s.fns := rfl
@[simp] theorem State.updBlock_ports (s : State) (i : Nat) (f : Block → Block) : (s.updBlock i f).ports = s.ports := rfl
@[simp] theorem State.updBlock_nps (s : State) (i : Nat) (f : Block → Block) : (s.updBlock i f).nps = s.nps := rfl
@[simp] theorem State.updBlock_streams (s : State) (i : Nat) (f : Block → Block) : (s.updBlock i f).streams = s.streams := rfl
@[simp] theorem State.updBlock_frames (s : State) (i : Nat) (f : Block → Block) : (s.updBlock i f).frames = s.frames := rfl
@[simp] theorem State.updBlock_nextFrame (s : State) (i : Nat) (f : Block → Block) : (s.updBlock i f).nextFrame = s.nextFrame := rfl
@[simp] theorem State.updBlock_engines (s : State) (i : Nat) (f : Block → Block) : (s.updBlock i f).engines = s.engines := rfl
@[simp] theorem State.updBlock_resamplers (s : State) (i : Nat) (f : Block → Block) : (s.updBlock i f).resamplers = s.resamplers := rfl
@[simp] theorem State.updBlock_relq (s : State) (i : Nat) (f : Block → Block) : (s.updBlock i f).relq = s.relq := rfl
@[simp] theorem State.updBlock_batches (s : State) (i : Nat) (f : Block → Block) : (s.updBlock i f).batches = s.batches := rfl
@[simp] theorem State.updBlock_nextBatch (s : State) (i : Nat) (f : Block → Block) : (s.updBlock i f).nextBatch = s.nextBatch := rfl
@[simp] theorem State.updBlock_ctxs (s : State) (i : Nat) (f : Block → Block) : (s.updBlock i f).ctxs = s.ctxs := rfl
@[simp] theorem State.updBlock_nextCtx (s : State) (i : Nat) (f : Block → Block) : (s.updBlock i f).nextCtx = s.nextCtx := rfl
@[simp] theorem State.updBlock_parts (s : State) (i : Nat) (f : Block → Block) : (s.updBlock i f).parts = s.parts := rfl
@[simp] theorem State.updBlock_regions (s : State) (i : Nat) (f : Block → Block) : (s.updBlock i f).regions = s.regions := rfl
@[simp] theorem State.updBlock_cells (s : State) (i : Nat) (f : Block → Block) : (s.updBlock i f).cells = s.cells := rfl
@[simp] theorem State.updBlock_dram (s : State) (i : Nat) (f : Block → Block) : (s.updBlock i f).dram = s.dram := rfl
@[simp] theorem State.updBlock_bpm (s : State) (i : Nat) (f : Block → Block) : (s.updBlock i f).bpm = s.bpm := rfl
@[simp] theorem State.updBlock_store (s : State) (i : Nat) (f : Block → Block) : (s.updBlock i f).store = s.store := rfl
@[simp] theorem State.updBlock_pac (s : State) (i : Nat) (f : Block → Block) : (s.updBlock i f).pac = s.pac := rfl
@[simp] theorem State.updBlock_aon (s : State) (i : Nat) (f : Block → Block) : (s.updBlock i f).aon = s.aon := rfl
@[simp] theorem State.updBlock_tu (s : State) (i : Nat) (f : Block → Block) : (s.updBlock i f).tu = s.tu := rfl
@[simp] theorem State.updBlock_unitsDown (s : State) (i : Nat) (f : Block → Block) : (s.updBlock i f).unitsDown = s.unitsDown := rfl
@[simp] theorem State.updBlock_devTuned (s : State) (i : Nat) (f : Block → Block) : (s.updBlock i f).devTuned = s.devTuned := rfl
@[simp] theorem State.updBlock_sram (s : State) (i : Nat) (f : Block → Block) : (s.updBlock i f).sram = s.sram := rfl
@[simp] theorem State.updBlock_out (s : State) (i : Nat) (f : Block → Block) : (s.updBlock i f).out = s.out := rfl
@[simp] theorem State.updBlock_waits (s : State) (i : Nat) (f : Block → Block) : (s.updBlock i f).waits = s.waits := rfl
@[simp] theorem State.updBlock_freeIx (s : State) (i : Nat) (f : Block → Block) : (s.updBlock i f).freeIx = s.freeIx := rfl
@[simp] theorem State.updBlock_pending (s : State) (i : Nat) (f : Block → Block) : (s.updBlock i f).pending = s.pending := rfl

@[simp] theorem State.updCell_now (s : State) (i : Nat) (f : Cell → Cell) : (s.updCell i f).now = s.now := rfl
@[simp] theorem State.updCell_por (s : State) (i : Nat) (f : Cell → Cell) : (s.updCell i f).por = s.por := rfl
@[simp] theorem State.updCell_scu (s : State) (i : Nat) (f : Cell → Cell) : (s.updCell i f).scu = s.scu := rfl
@[simp] theorem State.updCell_fuses (s : State) (i : Nat) (f : Cell → Cell) : (s.updCell i f).fuses = s.fuses := rfl
@[simp] theorem State.updCell_idSeed (s : State) (i : Nat) (f : Cell → Cell) : (s.updCell i f).idSeed = s.idSeed := rfl
@[simp] theorem State.updCell_idKey (s : State) (i : Nat) (f : Cell → Cell) : (s.updCell i f).idKey = s.idKey := rfl
@[simp] theorem State.updCell_grade (s : State) (i : Nat) (f : Cell → Cell) : (s.updCell i f).grade = s.grade := rfl
@[simp] theorem State.updCell_stepping (s : State) (i : Nat) (f : Cell → Cell) : (s.updCell i f).stepping = s.stepping := rfl
@[simp] theorem State.updCell_moult (s : State) (i : Nat) (f : Cell → Cell) : (s.updCell i f).moult = s.moult := rfl
@[simp] theorem State.updCell_flash (s : State) (i : Nat) (f : Cell → Cell) : (s.updCell i f).flash = s.flash := rfl
@[simp] theorem State.updCell_key (s : State) (i : Nat) (f : Cell → Cell) : (s.updCell i f).key = s.key := rfl
@[simp] theorem State.updCell_signer (s : State) (i : Nat) (f : Cell → Cell) : (s.updCell i f).signer = s.signer := rfl
@[simp] theorem State.updCell_fns (s : State) (i : Nat) (f : Cell → Cell) : (s.updCell i f).fns = s.fns := rfl
@[simp] theorem State.updCell_ports (s : State) (i : Nat) (f : Cell → Cell) : (s.updCell i f).ports = s.ports := rfl
@[simp] theorem State.updCell_nps (s : State) (i : Nat) (f : Cell → Cell) : (s.updCell i f).nps = s.nps := rfl
@[simp] theorem State.updCell_streams (s : State) (i : Nat) (f : Cell → Cell) : (s.updCell i f).streams = s.streams := rfl
@[simp] theorem State.updCell_frames (s : State) (i : Nat) (f : Cell → Cell) : (s.updCell i f).frames = s.frames := rfl
@[simp] theorem State.updCell_nextFrame (s : State) (i : Nat) (f : Cell → Cell) : (s.updCell i f).nextFrame = s.nextFrame := rfl
@[simp] theorem State.updCell_engines (s : State) (i : Nat) (f : Cell → Cell) : (s.updCell i f).engines = s.engines := rfl
@[simp] theorem State.updCell_resamplers (s : State) (i : Nat) (f : Cell → Cell) : (s.updCell i f).resamplers = s.resamplers := rfl
@[simp] theorem State.updCell_relq (s : State) (i : Nat) (f : Cell → Cell) : (s.updCell i f).relq = s.relq := rfl
@[simp] theorem State.updCell_batches (s : State) (i : Nat) (f : Cell → Cell) : (s.updCell i f).batches = s.batches := rfl
@[simp] theorem State.updCell_nextBatch (s : State) (i : Nat) (f : Cell → Cell) : (s.updCell i f).nextBatch = s.nextBatch := rfl
@[simp] theorem State.updCell_ctxs (s : State) (i : Nat) (f : Cell → Cell) : (s.updCell i f).ctxs = s.ctxs := rfl
@[simp] theorem State.updCell_nextCtx (s : State) (i : Nat) (f : Cell → Cell) : (s.updCell i f).nextCtx = s.nextCtx := rfl
@[simp] theorem State.updCell_parts (s : State) (i : Nat) (f : Cell → Cell) : (s.updCell i f).parts = s.parts := rfl
@[simp] theorem State.updCell_regions (s : State) (i : Nat) (f : Cell → Cell) : (s.updCell i f).regions = s.regions := rfl
@[simp] theorem State.updCell_blocks (s : State) (i : Nat) (f : Cell → Cell) : (s.updCell i f).blocks = s.blocks := rfl
@[simp] theorem State.updCell_dram (s : State) (i : Nat) (f : Cell → Cell) : (s.updCell i f).dram = s.dram := rfl
@[simp] theorem State.updCell_bpm (s : State) (i : Nat) (f : Cell → Cell) : (s.updCell i f).bpm = s.bpm := rfl
@[simp] theorem State.updCell_store (s : State) (i : Nat) (f : Cell → Cell) : (s.updCell i f).store = s.store := rfl
@[simp] theorem State.updCell_pac (s : State) (i : Nat) (f : Cell → Cell) : (s.updCell i f).pac = s.pac := rfl
@[simp] theorem State.updCell_aon (s : State) (i : Nat) (f : Cell → Cell) : (s.updCell i f).aon = s.aon := rfl
@[simp] theorem State.updCell_tu (s : State) (i : Nat) (f : Cell → Cell) : (s.updCell i f).tu = s.tu := rfl
@[simp] theorem State.updCell_unitsDown (s : State) (i : Nat) (f : Cell → Cell) : (s.updCell i f).unitsDown = s.unitsDown := rfl
@[simp] theorem State.updCell_devTuned (s : State) (i : Nat) (f : Cell → Cell) : (s.updCell i f).devTuned = s.devTuned := rfl
@[simp] theorem State.updCell_sram (s : State) (i : Nat) (f : Cell → Cell) : (s.updCell i f).sram = s.sram := rfl
@[simp] theorem State.updCell_out (s : State) (i : Nat) (f : Cell → Cell) : (s.updCell i f).out = s.out := rfl
@[simp] theorem State.updCell_waits (s : State) (i : Nat) (f : Cell → Cell) : (s.updCell i f).waits = s.waits := rfl
@[simp] theorem State.updCell_freeIx (s : State) (i : Nat) (f : Cell → Cell) : (s.updCell i f).freeIx = s.freeIx := rfl
@[simp] theorem State.updCell_pending (s : State) (i : Nat) (f : Cell → Cell) : (s.updCell i f).pending = s.pending := rfl

@[simp] theorem State.updCtx_now (s : State) (i : Nat) (f : Ctx → Ctx) : (s.updCtx i f).now = s.now := rfl
@[simp] theorem State.updCtx_por (s : State) (i : Nat) (f : Ctx → Ctx) : (s.updCtx i f).por = s.por := rfl
@[simp] theorem State.updCtx_scu (s : State) (i : Nat) (f : Ctx → Ctx) : (s.updCtx i f).scu = s.scu := rfl
@[simp] theorem State.updCtx_fuses (s : State) (i : Nat) (f : Ctx → Ctx) : (s.updCtx i f).fuses = s.fuses := rfl
@[simp] theorem State.updCtx_idSeed (s : State) (i : Nat) (f : Ctx → Ctx) : (s.updCtx i f).idSeed = s.idSeed := rfl
@[simp] theorem State.updCtx_idKey (s : State) (i : Nat) (f : Ctx → Ctx) : (s.updCtx i f).idKey = s.idKey := rfl
@[simp] theorem State.updCtx_grade (s : State) (i : Nat) (f : Ctx → Ctx) : (s.updCtx i f).grade = s.grade := rfl
@[simp] theorem State.updCtx_stepping (s : State) (i : Nat) (f : Ctx → Ctx) : (s.updCtx i f).stepping = s.stepping := rfl
@[simp] theorem State.updCtx_moult (s : State) (i : Nat) (f : Ctx → Ctx) : (s.updCtx i f).moult = s.moult := rfl
@[simp] theorem State.updCtx_flash (s : State) (i : Nat) (f : Ctx → Ctx) : (s.updCtx i f).flash = s.flash := rfl
@[simp] theorem State.updCtx_key (s : State) (i : Nat) (f : Ctx → Ctx) : (s.updCtx i f).key = s.key := rfl
@[simp] theorem State.updCtx_signer (s : State) (i : Nat) (f : Ctx → Ctx) : (s.updCtx i f).signer = s.signer := rfl
@[simp] theorem State.updCtx_fns (s : State) (i : Nat) (f : Ctx → Ctx) : (s.updCtx i f).fns = s.fns := rfl
@[simp] theorem State.updCtx_ports (s : State) (i : Nat) (f : Ctx → Ctx) : (s.updCtx i f).ports = s.ports := rfl
@[simp] theorem State.updCtx_nps (s : State) (i : Nat) (f : Ctx → Ctx) : (s.updCtx i f).nps = s.nps := rfl
@[simp] theorem State.updCtx_streams (s : State) (i : Nat) (f : Ctx → Ctx) : (s.updCtx i f).streams = s.streams := rfl
@[simp] theorem State.updCtx_frames (s : State) (i : Nat) (f : Ctx → Ctx) : (s.updCtx i f).frames = s.frames := rfl
@[simp] theorem State.updCtx_nextFrame (s : State) (i : Nat) (f : Ctx → Ctx) : (s.updCtx i f).nextFrame = s.nextFrame := rfl
@[simp] theorem State.updCtx_engines (s : State) (i : Nat) (f : Ctx → Ctx) : (s.updCtx i f).engines = s.engines := rfl
@[simp] theorem State.updCtx_resamplers (s : State) (i : Nat) (f : Ctx → Ctx) : (s.updCtx i f).resamplers = s.resamplers := rfl
@[simp] theorem State.updCtx_relq (s : State) (i : Nat) (f : Ctx → Ctx) : (s.updCtx i f).relq = s.relq := rfl
@[simp] theorem State.updCtx_batches (s : State) (i : Nat) (f : Ctx → Ctx) : (s.updCtx i f).batches = s.batches := rfl
@[simp] theorem State.updCtx_nextBatch (s : State) (i : Nat) (f : Ctx → Ctx) : (s.updCtx i f).nextBatch = s.nextBatch := rfl
@[simp] theorem State.updCtx_nextCtx (s : State) (i : Nat) (f : Ctx → Ctx) : (s.updCtx i f).nextCtx = s.nextCtx := rfl
@[simp] theorem State.updCtx_parts (s : State) (i : Nat) (f : Ctx → Ctx) : (s.updCtx i f).parts = s.parts := rfl
@[simp] theorem State.updCtx_regions (s : State) (i : Nat) (f : Ctx → Ctx) : (s.updCtx i f).regions = s.regions := rfl
@[simp] theorem State.updCtx_blocks (s : State) (i : Nat) (f : Ctx → Ctx) : (s.updCtx i f).blocks = s.blocks := rfl
@[simp] theorem State.updCtx_cells (s : State) (i : Nat) (f : Ctx → Ctx) : (s.updCtx i f).cells = s.cells := rfl
@[simp] theorem State.updCtx_dram (s : State) (i : Nat) (f : Ctx → Ctx) : (s.updCtx i f).dram = s.dram := rfl
@[simp] theorem State.updCtx_bpm (s : State) (i : Nat) (f : Ctx → Ctx) : (s.updCtx i f).bpm = s.bpm := rfl
@[simp] theorem State.updCtx_store (s : State) (i : Nat) (f : Ctx → Ctx) : (s.updCtx i f).store = s.store := rfl
@[simp] theorem State.updCtx_pac (s : State) (i : Nat) (f : Ctx → Ctx) : (s.updCtx i f).pac = s.pac := rfl
@[simp] theorem State.updCtx_aon (s : State) (i : Nat) (f : Ctx → Ctx) : (s.updCtx i f).aon = s.aon := rfl
@[simp] theorem State.updCtx_tu (s : State) (i : Nat) (f : Ctx → Ctx) : (s.updCtx i f).tu = s.tu := rfl
@[simp] theorem State.updCtx_unitsDown (s : State) (i : Nat) (f : Ctx → Ctx) : (s.updCtx i f).unitsDown = s.unitsDown := rfl
@[simp] theorem State.updCtx_devTuned (s : State) (i : Nat) (f : Ctx → Ctx) : (s.updCtx i f).devTuned = s.devTuned := rfl
@[simp] theorem State.updCtx_sram (s : State) (i : Nat) (f : Ctx → Ctx) : (s.updCtx i f).sram = s.sram := rfl
@[simp] theorem State.updCtx_out (s : State) (i : Nat) (f : Ctx → Ctx) : (s.updCtx i f).out = s.out := rfl
@[simp] theorem State.updCtx_waits (s : State) (i : Nat) (f : Ctx → Ctx) : (s.updCtx i f).waits = s.waits := rfl
@[simp] theorem State.updCtx_freeIx (s : State) (i : Nat) (f : Ctx → Ctx) : (s.updCtx i f).freeIx = s.freeIx := rfl
@[simp] theorem State.updCtx_pending (s : State) (i : Nat) (f : Ctx → Ctx) : (s.updCtx i f).pending = s.pending := rfl

@[simp] theorem State.updBatch_now (s : State) (i : Nat) (f : Batch → Batch) : (s.updBatch i f).now = s.now := rfl
@[simp] theorem State.updBatch_por (s : State) (i : Nat) (f : Batch → Batch) : (s.updBatch i f).por = s.por := rfl
@[simp] theorem State.updBatch_scu (s : State) (i : Nat) (f : Batch → Batch) : (s.updBatch i f).scu = s.scu := rfl
@[simp] theorem State.updBatch_fuses (s : State) (i : Nat) (f : Batch → Batch) : (s.updBatch i f).fuses = s.fuses := rfl
@[simp] theorem State.updBatch_idSeed (s : State) (i : Nat) (f : Batch → Batch) : (s.updBatch i f).idSeed = s.idSeed := rfl
@[simp] theorem State.updBatch_idKey (s : State) (i : Nat) (f : Batch → Batch) : (s.updBatch i f).idKey = s.idKey := rfl
@[simp] theorem State.updBatch_grade (s : State) (i : Nat) (f : Batch → Batch) : (s.updBatch i f).grade = s.grade := rfl
@[simp] theorem State.updBatch_stepping (s : State) (i : Nat) (f : Batch → Batch) : (s.updBatch i f).stepping = s.stepping := rfl
@[simp] theorem State.updBatch_moult (s : State) (i : Nat) (f : Batch → Batch) : (s.updBatch i f).moult = s.moult := rfl
@[simp] theorem State.updBatch_flash (s : State) (i : Nat) (f : Batch → Batch) : (s.updBatch i f).flash = s.flash := rfl
@[simp] theorem State.updBatch_key (s : State) (i : Nat) (f : Batch → Batch) : (s.updBatch i f).key = s.key := rfl
@[simp] theorem State.updBatch_signer (s : State) (i : Nat) (f : Batch → Batch) : (s.updBatch i f).signer = s.signer := rfl
@[simp] theorem State.updBatch_fns (s : State) (i : Nat) (f : Batch → Batch) : (s.updBatch i f).fns = s.fns := rfl
@[simp] theorem State.updBatch_ports (s : State) (i : Nat) (f : Batch → Batch) : (s.updBatch i f).ports = s.ports := rfl
@[simp] theorem State.updBatch_nps (s : State) (i : Nat) (f : Batch → Batch) : (s.updBatch i f).nps = s.nps := rfl
@[simp] theorem State.updBatch_streams (s : State) (i : Nat) (f : Batch → Batch) : (s.updBatch i f).streams = s.streams := rfl
@[simp] theorem State.updBatch_frames (s : State) (i : Nat) (f : Batch → Batch) : (s.updBatch i f).frames = s.frames := rfl
@[simp] theorem State.updBatch_nextFrame (s : State) (i : Nat) (f : Batch → Batch) : (s.updBatch i f).nextFrame = s.nextFrame := rfl
@[simp] theorem State.updBatch_engines (s : State) (i : Nat) (f : Batch → Batch) : (s.updBatch i f).engines = s.engines := rfl
@[simp] theorem State.updBatch_resamplers (s : State) (i : Nat) (f : Batch → Batch) : (s.updBatch i f).resamplers = s.resamplers := rfl
@[simp] theorem State.updBatch_relq (s : State) (i : Nat) (f : Batch → Batch) : (s.updBatch i f).relq = s.relq := rfl
@[simp] theorem State.updBatch_nextBatch (s : State) (i : Nat) (f : Batch → Batch) : (s.updBatch i f).nextBatch = s.nextBatch := rfl
@[simp] theorem State.updBatch_ctxs (s : State) (i : Nat) (f : Batch → Batch) : (s.updBatch i f).ctxs = s.ctxs := rfl
@[simp] theorem State.updBatch_nextCtx (s : State) (i : Nat) (f : Batch → Batch) : (s.updBatch i f).nextCtx = s.nextCtx := rfl
@[simp] theorem State.updBatch_parts (s : State) (i : Nat) (f : Batch → Batch) : (s.updBatch i f).parts = s.parts := rfl
@[simp] theorem State.updBatch_regions (s : State) (i : Nat) (f : Batch → Batch) : (s.updBatch i f).regions = s.regions := rfl
@[simp] theorem State.updBatch_blocks (s : State) (i : Nat) (f : Batch → Batch) : (s.updBatch i f).blocks = s.blocks := rfl
@[simp] theorem State.updBatch_cells (s : State) (i : Nat) (f : Batch → Batch) : (s.updBatch i f).cells = s.cells := rfl
@[simp] theorem State.updBatch_dram (s : State) (i : Nat) (f : Batch → Batch) : (s.updBatch i f).dram = s.dram := rfl
@[simp] theorem State.updBatch_bpm (s : State) (i : Nat) (f : Batch → Batch) : (s.updBatch i f).bpm = s.bpm := rfl
@[simp] theorem State.updBatch_store (s : State) (i : Nat) (f : Batch → Batch) : (s.updBatch i f).store = s.store := rfl
@[simp] theorem State.updBatch_pac (s : State) (i : Nat) (f : Batch → Batch) : (s.updBatch i f).pac = s.pac := rfl
@[simp] theorem State.updBatch_aon (s : State) (i : Nat) (f : Batch → Batch) : (s.updBatch i f).aon = s.aon := rfl
@[simp] theorem State.updBatch_tu (s : State) (i : Nat) (f : Batch → Batch) : (s.updBatch i f).tu = s.tu := rfl
@[simp] theorem State.updBatch_unitsDown (s : State) (i : Nat) (f : Batch → Batch) : (s.updBatch i f).unitsDown = s.unitsDown := rfl
@[simp] theorem State.updBatch_devTuned (s : State) (i : Nat) (f : Batch → Batch) : (s.updBatch i f).devTuned = s.devTuned := rfl
@[simp] theorem State.updBatch_sram (s : State) (i : Nat) (f : Batch → Batch) : (s.updBatch i f).sram = s.sram := rfl
@[simp] theorem State.updBatch_out (s : State) (i : Nat) (f : Batch → Batch) : (s.updBatch i f).out = s.out := rfl
@[simp] theorem State.updBatch_waits (s : State) (i : Nat) (f : Batch → Batch) : (s.updBatch i f).waits = s.waits := rfl
@[simp] theorem State.updBatch_freeIx (s : State) (i : Nat) (f : Batch → Batch) : (s.updBatch i f).freeIx = s.freeIx := rfl
@[simp] theorem State.updBatch_pending (s : State) (i : Nat) (f : Batch → Batch) : (s.updBatch i f).pending = s.pending := rfl

@[simp] theorem State.updPath_now (s : State) (i : Nat) (f : Path → Path) : (s.updPath i f).now = s.now := rfl
@[simp] theorem State.updPath_por (s : State) (i : Nat) (f : Path → Path) : (s.updPath i f).por = s.por := rfl
@[simp] theorem State.updPath_scu (s : State) (i : Nat) (f : Path → Path) : (s.updPath i f).scu = s.scu := rfl
@[simp] theorem State.updPath_fuses (s : State) (i : Nat) (f : Path → Path) : (s.updPath i f).fuses = s.fuses := rfl
@[simp] theorem State.updPath_idSeed (s : State) (i : Nat) (f : Path → Path) : (s.updPath i f).idSeed = s.idSeed := rfl
@[simp] theorem State.updPath_idKey (s : State) (i : Nat) (f : Path → Path) : (s.updPath i f).idKey = s.idKey := rfl
@[simp] theorem State.updPath_grade (s : State) (i : Nat) (f : Path → Path) : (s.updPath i f).grade = s.grade := rfl
@[simp] theorem State.updPath_stepping (s : State) (i : Nat) (f : Path → Path) : (s.updPath i f).stepping = s.stepping := rfl
@[simp] theorem State.updPath_moult (s : State) (i : Nat) (f : Path → Path) : (s.updPath i f).moult = s.moult := rfl
@[simp] theorem State.updPath_flash (s : State) (i : Nat) (f : Path → Path) : (s.updPath i f).flash = s.flash := rfl
@[simp] theorem State.updPath_key (s : State) (i : Nat) (f : Path → Path) : (s.updPath i f).key = s.key := rfl
@[simp] theorem State.updPath_signer (s : State) (i : Nat) (f : Path → Path) : (s.updPath i f).signer = s.signer := rfl
@[simp] theorem State.updPath_fns (s : State) (i : Nat) (f : Path → Path) : (s.updPath i f).fns = s.fns := rfl
@[simp] theorem State.updPath_ports (s : State) (i : Nat) (f : Path → Path) : (s.updPath i f).ports = s.ports := rfl
@[simp] theorem State.updPath_nps (s : State) (i : Nat) (f : Path → Path) : (s.updPath i f).nps = s.nps := rfl
@[simp] theorem State.updPath_streams (s : State) (i : Nat) (f : Path → Path) : (s.updPath i f).streams = s.streams := rfl
@[simp] theorem State.updPath_frames (s : State) (i : Nat) (f : Path → Path) : (s.updPath i f).frames = s.frames := rfl
@[simp] theorem State.updPath_nextFrame (s : State) (i : Nat) (f : Path → Path) : (s.updPath i f).nextFrame = s.nextFrame := rfl
@[simp] theorem State.updPath_engines (s : State) (i : Nat) (f : Path → Path) : (s.updPath i f).engines = s.engines := rfl
@[simp] theorem State.updPath_resamplers (s : State) (i : Nat) (f : Path → Path) : (s.updPath i f).resamplers = s.resamplers := rfl
@[simp] theorem State.updPath_relq (s : State) (i : Nat) (f : Path → Path) : (s.updPath i f).relq = s.relq := rfl
@[simp] theorem State.updPath_batches (s : State) (i : Nat) (f : Path → Path) : (s.updPath i f).batches = s.batches := rfl
@[simp] theorem State.updPath_nextBatch (s : State) (i : Nat) (f : Path → Path) : (s.updPath i f).nextBatch = s.nextBatch := rfl
@[simp] theorem State.updPath_ctxs (s : State) (i : Nat) (f : Path → Path) : (s.updPath i f).ctxs = s.ctxs := rfl
@[simp] theorem State.updPath_nextCtx (s : State) (i : Nat) (f : Path → Path) : (s.updPath i f).nextCtx = s.nextCtx := rfl
@[simp] theorem State.updPath_parts (s : State) (i : Nat) (f : Path → Path) : (s.updPath i f).parts = s.parts := rfl
@[simp] theorem State.updPath_regions (s : State) (i : Nat) (f : Path → Path) : (s.updPath i f).regions = s.regions := rfl
@[simp] theorem State.updPath_blocks (s : State) (i : Nat) (f : Path → Path) : (s.updPath i f).blocks = s.blocks := rfl
@[simp] theorem State.updPath_cells (s : State) (i : Nat) (f : Path → Path) : (s.updPath i f).cells = s.cells := rfl
@[simp] theorem State.updPath_dram (s : State) (i : Nat) (f : Path → Path) : (s.updPath i f).dram = s.dram := rfl
@[simp] theorem State.updPath_bpm (s : State) (i : Nat) (f : Path → Path) : (s.updPath i f).bpm = s.bpm := rfl
@[simp] theorem State.updPath_store (s : State) (i : Nat) (f : Path → Path) : (s.updPath i f).store = s.store := rfl
@[simp] theorem State.updPath_pac (s : State) (i : Nat) (f : Path → Path) : (s.updPath i f).pac = s.pac := rfl
@[simp] theorem State.updPath_aon (s : State) (i : Nat) (f : Path → Path) : (s.updPath i f).aon = s.aon := rfl
@[simp] theorem State.updPath_unitsDown (s : State) (i : Nat) (f : Path → Path) : (s.updPath i f).unitsDown = s.unitsDown := rfl
@[simp] theorem State.updPath_devTuned (s : State) (i : Nat) (f : Path → Path) : (s.updPath i f).devTuned = s.devTuned := rfl
@[simp] theorem State.updPath_sram (s : State) (i : Nat) (f : Path → Path) : (s.updPath i f).sram = s.sram := rfl
@[simp] theorem State.updPath_out (s : State) (i : Nat) (f : Path → Path) : (s.updPath i f).out = s.out := rfl
@[simp] theorem State.updPath_waits (s : State) (i : Nat) (f : Path → Path) : (s.updPath i f).waits = s.waits := rfl
@[simp] theorem State.updPath_freeIx (s : State) (i : Nat) (f : Path → Path) : (s.updPath i f).freeIx = s.freeIx := rfl
@[simp] theorem State.updPath_pending (s : State) (i : Nat) (f : Path → Path) : (s.updPath i f).pending = s.pending := rfl

@[simp] theorem emit_now (o : Out) (s : State) : (emit o s).now = s.now := rfl
@[simp] theorem emit_por (o : Out) (s : State) : (emit o s).por = s.por := rfl
@[simp] theorem emit_scu (o : Out) (s : State) : (emit o s).scu = s.scu := rfl
@[simp] theorem emit_fuses (o : Out) (s : State) : (emit o s).fuses = s.fuses := rfl
@[simp] theorem emit_idSeed (o : Out) (s : State) : (emit o s).idSeed = s.idSeed := rfl
@[simp] theorem emit_idKey (o : Out) (s : State) : (emit o s).idKey = s.idKey := rfl
@[simp] theorem emit_grade (o : Out) (s : State) : (emit o s).grade = s.grade := rfl
@[simp] theorem emit_stepping (o : Out) (s : State) : (emit o s).stepping = s.stepping := rfl
@[simp] theorem emit_moult (o : Out) (s : State) : (emit o s).moult = s.moult := rfl
@[simp] theorem emit_flash (o : Out) (s : State) : (emit o s).flash = s.flash := rfl
@[simp] theorem emit_key (o : Out) (s : State) : (emit o s).key = s.key := rfl
@[simp] theorem emit_signer (o : Out) (s : State) : (emit o s).signer = s.signer := rfl
@[simp] theorem emit_fns (o : Out) (s : State) : (emit o s).fns = s.fns := rfl
@[simp] theorem emit_ports (o : Out) (s : State) : (emit o s).ports = s.ports := rfl
@[simp] theorem emit_nps (o : Out) (s : State) : (emit o s).nps = s.nps := rfl
@[simp] theorem emit_streams (o : Out) (s : State) : (emit o s).streams = s.streams := rfl
@[simp] theorem emit_frames (o : Out) (s : State) : (emit o s).frames = s.frames := rfl
@[simp] theorem emit_nextFrame (o : Out) (s : State) : (emit o s).nextFrame = s.nextFrame := rfl
@[simp] theorem emit_engines (o : Out) (s : State) : (emit o s).engines = s.engines := rfl
@[simp] theorem emit_resamplers (o : Out) (s : State) : (emit o s).resamplers = s.resamplers := rfl
@[simp] theorem emit_relq (o : Out) (s : State) : (emit o s).relq = s.relq := rfl
@[simp] theorem emit_batches (o : Out) (s : State) : (emit o s).batches = s.batches := rfl
@[simp] theorem emit_nextBatch (o : Out) (s : State) : (emit o s).nextBatch = s.nextBatch := rfl
@[simp] theorem emit_ctxs (o : Out) (s : State) : (emit o s).ctxs = s.ctxs := rfl
@[simp] theorem emit_nextCtx (o : Out) (s : State) : (emit o s).nextCtx = s.nextCtx := rfl
@[simp] theorem emit_parts (o : Out) (s : State) : (emit o s).parts = s.parts := rfl
@[simp] theorem emit_regions (o : Out) (s : State) : (emit o s).regions = s.regions := rfl
@[simp] theorem emit_blocks (o : Out) (s : State) : (emit o s).blocks = s.blocks := rfl
@[simp] theorem emit_cells (o : Out) (s : State) : (emit o s).cells = s.cells := rfl
@[simp] theorem emit_dram (o : Out) (s : State) : (emit o s).dram = s.dram := rfl
@[simp] theorem emit_bpm (o : Out) (s : State) : (emit o s).bpm = s.bpm := rfl
@[simp] theorem emit_store (o : Out) (s : State) : (emit o s).store = s.store := rfl
@[simp] theorem emit_pac (o : Out) (s : State) : (emit o s).pac = s.pac := rfl
@[simp] theorem emit_aon (o : Out) (s : State) : (emit o s).aon = s.aon := rfl
@[simp] theorem emit_tu (o : Out) (s : State) : (emit o s).tu = s.tu := rfl
@[simp] theorem emit_unitsDown (o : Out) (s : State) : (emit o s).unitsDown = s.unitsDown := rfl
@[simp] theorem emit_devTuned (o : Out) (s : State) : (emit o s).devTuned = s.devTuned := rfl
@[simp] theorem emit_waits (o : Out) (s : State) : (emit o s).waits = s.waits := rfl
@[simp] theorem emit_freeIx (o : Out) (s : State) : (emit o s).freeIx = s.freeIx := rfl
@[simp] theorem emit_pending (o : Out) (s : State) : (emit o s).pending = s.pending := rfl
@[simp] theorem emit_out (o : Out) (s : State) : (emit o s).out = o :: s.out := rfl

/-! ### The unit that an update changes, and the others -/

@[simp] theorem State.port_updPort_self (s : State) (i : Nat) (f : HostPort → HostPort) : (s.updPort i f).port i = f (s.port i) :=
  mget_mupd_self ..
theorem State.port_updPort_ne (s : State) {i j : Nat} (f : HostPort → HostPort) (h : i ≠ j) : (s.updPort i f).port j = s.port j :=
  mget_mupd_ne _ _ h
theorem State.port_updPort (s : State) (i j : Nat) (f : HostPort → HostPort) :
    (s.updPort i f).port j = if i = j then f (s.port i) else s.port j := mget_mupd ..
@[simp] theorem State.port_updFn_other (s : State) (port fn : Nat) (f : Fn → Fn) (j : Nat) : (s.updFn port fn f).port j = s.port j := rfl
@[simp] theorem State.port_updNp_other (s : State) (k : Nat) (f : NetPort → NetPort) (j : Nat) : (s.updNp k f).port j = s.port j := rfl
@[simp] theorem State.port_updStream_other (s : State) (k : Nat) (f : Stream → Stream) (j : Nat) : (s.updStream k f).port j = s.port j := rfl
@[simp] theorem State.port_updPart_other (s : State) (k : Nat) (f : Part → Part) (j : Nat) : (s.updPart k f).port j = s.port j := rfl
@[simp] theorem State.port_updRegion_other (s : State) (k : Nat) (f : Region → Region) (j : Nat) : (s.updRegion k f).port j = s.port j := rfl
@[simp] theorem State.port_updBlock_other (s : State) (k : Nat) (f : Block → Block) (j : Nat) : (s.updBlock k f).port j = s.port j := rfl
@[simp] theorem State.port_updCell_other (s : State) (k : Nat) (f : Cell → Cell) (j : Nat) : (s.updCell k f).port j = s.port j := rfl
@[simp] theorem State.port_emit (s : State) (o : Out) (j : Nat) : (emit o s).port j = s.port j := rfl

@[simp] theorem State.np_updNp_self (s : State) (i : Nat) (f : NetPort → NetPort) : (s.updNp i f).np i = f (s.np i) :=
  mget_mupd_self ..
theorem State.np_updNp_ne (s : State) {i j : Nat} (f : NetPort → NetPort) (h : i ≠ j) : (s.updNp i f).np j = s.np j :=
  mget_mupd_ne _ _ h
theorem State.np_updNp (s : State) (i j : Nat) (f : NetPort → NetPort) :
    (s.updNp i f).np j = if i = j then f (s.np i) else s.np j := mget_mupd ..
@[simp] theorem State.np_updFn_other (s : State) (port fn : Nat) (f : Fn → Fn) (j : Nat) : (s.updFn port fn f).np j = s.np j := rfl
@[simp] theorem State.np_updPort_other (s : State) (k : Nat) (f : HostPort → HostPort) (j : Nat) : (s.updPort k f).np j = s.np j := rfl
@[simp] theorem State.np_updStream_other (s : State) (k : Nat) (f : Stream → Stream) (j : Nat) : (s.updStream k f).np j = s.np j := rfl
@[simp] theorem State.np_updPart_other (s : State) (k : Nat) (f : Part → Part) (j : Nat) : (s.updPart k f).np j = s.np j := rfl
@[simp] theorem State.np_updRegion_other (s : State) (k : Nat) (f : Region → Region) (j : Nat) : (s.updRegion k f).np j = s.np j := rfl
@[simp] theorem State.np_updBlock_other (s : State) (k : Nat) (f : Block → Block) (j : Nat) : (s.updBlock k f).np j = s.np j := rfl
@[simp] theorem State.np_updCell_other (s : State) (k : Nat) (f : Cell → Cell) (j : Nat) : (s.updCell k f).np j = s.np j := rfl
@[simp] theorem State.np_emit (s : State) (o : Out) (j : Nat) : (emit o s).np j = s.np j := rfl

@[simp] theorem State.stream_updStream_self (s : State) (i : Nat) (f : Stream → Stream) : (s.updStream i f).stream i = f (s.stream i) :=
  mget_mupd_self ..
theorem State.stream_updStream_ne (s : State) {i j : Nat} (f : Stream → Stream) (h : i ≠ j) : (s.updStream i f).stream j = s.stream j :=
  mget_mupd_ne _ _ h
theorem State.stream_updStream (s : State) (i j : Nat) (f : Stream → Stream) :
    (s.updStream i f).stream j = if i = j then f (s.stream i) else s.stream j := mget_mupd ..
@[simp] theorem State.stream_updFn_other (s : State) (port fn : Nat) (f : Fn → Fn) (j : Nat) : (s.updFn port fn f).stream j = s.stream j := rfl
@[simp] theorem State.stream_updPort_other (s : State) (k : Nat) (f : HostPort → HostPort) (j : Nat) : (s.updPort k f).stream j = s.stream j := rfl
@[simp] theorem State.stream_updNp_other (s : State) (k : Nat) (f : NetPort → NetPort) (j : Nat) : (s.updNp k f).stream j = s.stream j := rfl
@[simp] theorem State.stream_updPart_other (s : State) (k : Nat) (f : Part → Part) (j : Nat) : (s.updPart k f).stream j = s.stream j := rfl
@[simp] theorem State.stream_updRegion_other (s : State) (k : Nat) (f : Region → Region) (j : Nat) : (s.updRegion k f).stream j = s.stream j := rfl
@[simp] theorem State.stream_updBlock_other (s : State) (k : Nat) (f : Block → Block) (j : Nat) : (s.updBlock k f).stream j = s.stream j := rfl
@[simp] theorem State.stream_updCell_other (s : State) (k : Nat) (f : Cell → Cell) (j : Nat) : (s.updCell k f).stream j = s.stream j := rfl
@[simp] theorem State.stream_emit (s : State) (o : Out) (j : Nat) : (emit o s).stream j = s.stream j := rfl

@[simp] theorem State.part_updPart_self (s : State) (i : Nat) (f : Part → Part) : (s.updPart i f).part i = f (s.part i) :=
  mget_mupd_self ..
theorem State.part_updPart_ne (s : State) {i j : Nat} (f : Part → Part) (h : i ≠ j) : (s.updPart i f).part j = s.part j :=
  mget_mupd_ne _ _ h
theorem State.part_updPart (s : State) (i j : Nat) (f : Part → Part) :
    (s.updPart i f).part j = if i = j then f (s.part i) else s.part j := mget_mupd ..
@[simp] theorem State.part_updFn_other (s : State) (port fn : Nat) (f : Fn → Fn) (j : Nat) : (s.updFn port fn f).part j = s.part j := rfl
@[simp] theorem State.part_updPort_other (s : State) (k : Nat) (f : HostPort → HostPort) (j : Nat) : (s.updPort k f).part j = s.part j := rfl
@[simp] theorem State.part_updNp_other (s : State) (k : Nat) (f : NetPort → NetPort) (j : Nat) : (s.updNp k f).part j = s.part j := rfl
@[simp] theorem State.part_updStream_other (s : State) (k : Nat) (f : Stream → Stream) (j : Nat) : (s.updStream k f).part j = s.part j := rfl
@[simp] theorem State.part_updRegion_other (s : State) (k : Nat) (f : Region → Region) (j : Nat) : (s.updRegion k f).part j = s.part j := rfl
@[simp] theorem State.part_updBlock_other (s : State) (k : Nat) (f : Block → Block) (j : Nat) : (s.updBlock k f).part j = s.part j := rfl
@[simp] theorem State.part_updCell_other (s : State) (k : Nat) (f : Cell → Cell) (j : Nat) : (s.updCell k f).part j = s.part j := rfl
@[simp] theorem State.part_emit (s : State) (o : Out) (j : Nat) : (emit o s).part j = s.part j := rfl

@[simp] theorem State.region_updRegion_self (s : State) (i : Nat) (f : Region → Region) : (s.updRegion i f).region i = f (s.region i) :=
  mget_mupd_self ..
theorem State.region_updRegion_ne (s : State) {i j : Nat} (f : Region → Region) (h : i ≠ j) : (s.updRegion i f).region j = s.region j :=
  mget_mupd_ne _ _ h
theorem State.region_updRegion (s : State) (i j : Nat) (f : Region → Region) :
    (s.updRegion i f).region j = if i = j then f (s.region i) else s.region j := mget_mupd ..
@[simp] theorem State.region_updFn_other (s : State) (port fn : Nat) (f : Fn → Fn) (j : Nat) : (s.updFn port fn f).region j = s.region j := rfl
@[simp] theorem State.region_updPort_other (s : State) (k : Nat) (f : HostPort → HostPort) (j : Nat) : (s.updPort k f).region j = s.region j := rfl
@[simp] theorem State.region_updNp_other (s : State) (k : Nat) (f : NetPort → NetPort) (j : Nat) : (s.updNp k f).region j = s.region j := rfl
@[simp] theorem State.region_updStream_other (s : State) (k : Nat) (f : Stream → Stream) (j : Nat) : (s.updStream k f).region j = s.region j := rfl
@[simp] theorem State.region_updPart_other (s : State) (k : Nat) (f : Part → Part) (j : Nat) : (s.updPart k f).region j = s.region j := rfl
@[simp] theorem State.region_updBlock_other (s : State) (k : Nat) (f : Block → Block) (j : Nat) : (s.updBlock k f).region j = s.region j := rfl
@[simp] theorem State.region_updCell_other (s : State) (k : Nat) (f : Cell → Cell) (j : Nat) : (s.updCell k f).region j = s.region j := rfl
@[simp] theorem State.region_emit (s : State) (o : Out) (j : Nat) : (emit o s).region j = s.region j := rfl

@[simp] theorem State.block_updBlock_self (s : State) (i : Nat) (f : Block → Block) : (s.updBlock i f).block i = f (s.block i) :=
  mget_mupd_self ..
theorem State.block_updBlock_ne (s : State) {i j : Nat} (f : Block → Block) (h : i ≠ j) : (s.updBlock i f).block j = s.block j :=
  mget_mupd_ne _ _ h
theorem State.block_updBlock (s : State) (i j : Nat) (f : Block → Block) :
    (s.updBlock i f).block j = if i = j then f (s.block i) else s.block j := mget_mupd ..
@[simp] theorem State.block_updFn_other (s : State) (port fn : Nat) (f : Fn → Fn) (j : Nat) : (s.updFn port fn f).block j = s.block j := rfl
@[simp] theorem State.block_updPort_other (s : State) (k : Nat) (f : HostPort → HostPort) (j : Nat) : (s.updPort k f).block j = s.block j := rfl
@[simp] theorem State.block_updNp_other (s : State) (k : Nat) (f : NetPort → NetPort) (j : Nat) : (s.updNp k f).block j = s.block j := rfl
@[simp] theorem State.block_updStream_other (s : State) (k : Nat) (f : Stream → Stream) (j : Nat) : (s.updStream k f).block j = s.block j := rfl
@[simp] theorem State.block_updPart_other (s : State) (k : Nat) (f : Part → Part) (j : Nat) : (s.updPart k f).block j = s.block j := rfl
@[simp] theorem State.block_updRegion_other (s : State) (k : Nat) (f : Region → Region) (j : Nat) : (s.updRegion k f).block j = s.block j := rfl
@[simp] theorem State.block_updCell_other (s : State) (k : Nat) (f : Cell → Cell) (j : Nat) : (s.updCell k f).block j = s.block j := rfl
@[simp] theorem State.block_emit (s : State) (o : Out) (j : Nat) : (emit o s).block j = s.block j := rfl

@[simp] theorem State.cell_updCell_self (s : State) (i : Nat) (f : Cell → Cell) : (s.updCell i f).cell i = f (s.cell i) :=
  mget_mupd_self ..
theorem State.cell_updCell_ne (s : State) {i j : Nat} (f : Cell → Cell) (h : i ≠ j) : (s.updCell i f).cell j = s.cell j :=
  mget_mupd_ne _ _ h
theorem State.cell_updCell (s : State) (i j : Nat) (f : Cell → Cell) :
    (s.updCell i f).cell j = if i = j then f (s.cell i) else s.cell j := mget_mupd ..
@[simp] theorem State.cell_updFn_other (s : State) (port fn : Nat) (f : Fn → Fn) (j : Nat) : (s.updFn port fn f).cell j = s.cell j := rfl
@[simp] theorem State.cell_updPort_other (s : State) (k : Nat) (f : HostPort → HostPort) (j : Nat) : (s.updPort k f).cell j = s.cell j := rfl
@[simp] theorem State.cell_updNp_other (s : State) (k : Nat) (f : NetPort → NetPort) (j : Nat) : (s.updNp k f).cell j = s.cell j := rfl
@[simp] theorem State.cell_updStream_other (s : State) (k : Nat) (f : Stream → Stream) (j : Nat) : (s.updStream k f).cell j = s.cell j := rfl
@[simp] theorem State.cell_updPart_other (s : State) (k : Nat) (f : Part → Part) (j : Nat) : (s.updPart k f).cell j = s.cell j := rfl
@[simp] theorem State.cell_updRegion_other (s : State) (k : Nat) (f : Region → Region) (j : Nat) : (s.updRegion k f).cell j = s.cell j := rfl
@[simp] theorem State.cell_updBlock_other (s : State) (k : Nat) (f : Block → Block) (j : Nat) : (s.updBlock k f).cell j = s.cell j := rfl
@[simp] theorem State.cell_emit (s : State) (o : Out) (j : Nat) : (emit o s).cell j = s.cell j := rfl

@[simp] theorem State.fn_updFn_self (s : State) (port fn : Nat) (f : Fn → Fn) : (s.updFn port fn f).fn port fn = f (s.fn port fn) :=
  mget_mupd_self ..
theorem State.fn_updFn_ne (s : State) (port fn port' fn' : Nat) (f : Fn → Fn) (h : fnIx port fn ≠ fnIx port' fn') :
    (s.updFn port fn f).fn port' fn' = s.fn port' fn' := mget_mupd_ne _ _ h
@[simp] theorem State.fn_emit (s : State) (o : Out) (port fn : Nat) : (emit o s).fn port fn = s.fn port fn := rfl

/-! ### Frames, contexts and batches, which are changed only where they are listed -/

theorem mfind_map {α : Type} (m : Map α) (i k : Nat) (f : α → α) :
    mfind (m.map (fun p => if p.1 = i then (p.1, f p.2) else p)) k = if i = k then (mfind m k).map f else mfind m k := by
  induction m with
  | nil => simp [mfind]
  | cons a t ih =>
    obtain ⟨q, w⟩ := a
    by_cases h : q = i
    · subst h
      by_cases e : q = k
      · subst e; simp [mfind]
      · simpa [mfind, e] using ih
    · by_cases e : q = k
      · subst e; simp [mfind, h, Ne.symm h]
      · simpa [mfind, h, e] using ih

theorem State.find_updFrame (s : State) (i k : Nat) (f : Frame → Frame) :
    mfind (s.updFrame i f).frames k = if i = k then (mfind s.frames k).map f else mfind s.frames k := mfind_map ..

theorem State.find_updCtx (s : State) (i k : Nat) (f : Ctx → Ctx) :
    mfind (s.updCtx i f).ctxs k = if i = k then (mfind s.ctxs k).map f else mfind s.ctxs k := mfind_map ..

theorem State.find_updBatch (s : State) (i k : Nat) (f : Batch → Batch) :
    mfind (s.updBatch i f).batches k = if i = k then (mfind s.batches k).map f else mfind s.batches k := mfind_map ..

/-! ### What `Touches` says of one unit -/

theorem Touches.region {l : List Piece} {s t : State} (h : Touches l s t) (e : Piece.regions ∉ l) (r : Nat) :
    t.region r = s.region r := congrArg (fun m => mget m r) (h.same _ e)
theorem Touches.block {l : List Piece} {s t : State} (h : Touches l s t) (e : Piece.blocks ∉ l) (b : Nat) :
    t.block b = s.block b := congrArg (fun m => mget m b) (h.same _ e)
theorem Touches.cell {l : List Piece} {s t : State} (h : Touches l s t) (e : Piece.cells ∉ l) (c : Nat) :
    t.cell c = s.cell c := congrArg (fun m => mget m c) (h.same _ e)
theorem Touches.stream {l : List Piece} {s t : State} (h : Touches l s t) (e : Piece.streams ∉ l) (i : Nat) :
    t.stream i = s.stream i := congrArg (fun m => mget m i) (h.same _ e)
theorem Touches.port {l : List Piece} {s t : State} (h : Touches l s t) (e : Piece.ports ∉ l) (p : Nat) :
    t.port p = s.port p := congrArg (fun m => mget m p) (h.same _ e)
theorem Touches.np {l : List Piece} {s t : State} (h : Touches l s t) (e : Piece.nps ∉ l) (n : Nat) :
    t.np n = s.np n := congrArg (fun m => mget m n) (h.same _ e)
theorem Touches.part {l : List Piece} {s t : State} (h : Touches l s t) (e : Piece.parts ∉ l) (p : Nat) :
    t.part p = s.part p := congrArg (fun m => mget m p) (h.same _ e)

end Sys2Proof.Machine
end

