-- ==== Sys2Proof/Laws/TouchesOps.lean ====
section
/-! SUPPORT. Which parts of the state each operation of these files of Machine/ can change, as `Touches` names them: Ops, Rings, Tele, Bpm. -/

set_option Elab.async false

set_option linter.unusedVariables false

namespace Sys2Proof.Machine

open Sys2Proof (Bytes Byte Word)

theorem State.updRegion_touch (s : State) (i : Nat) (f : Region → Region) :
    Touches [.regions] s (State.updRegion s i f) := by
  unfold State.updRegion
  refine Touches.ofMk ?_ kp kp kp kp kp kp kp kp kp kp kp kp kp kp kp kp kp kp kp kp kp ch kp kp kp kp kp kp kp kp kp kp kp kp kp kp kp kp kp
  exact Touches.refl _

theorem raiseIrq_touch (s : State) (port : Nat) (fn : Nat) (bit : Nat) :
    Touches [.rings] s (raiseIrq s port fn bit) := by
  unfold raiseIrq
  refine Touches.trans ?_ (Touches.sub (State.updFn_touch_rings _ _ _ _ (fun _ => rfl)) (by decide))
  exact Touches.refl _

theorem State.updNp_touch (s : State) (n : Nat) (f : NetPort → NetPort) :
    Touches [.nps] s (State.updNp s n f) := by
  unfold State.updNp
  refine Touches.ofMk ?_ kp kp kp kp kp kp kp kp kp kp kp kp ch kp kp kp kp kp kp kp kp kp kp kp kp kp kp kp kp kp kp kp kp kp kp kp kp kp kp
  exact Touches.refl _

theorem chargeBuckets_touch (s : State) (r : Nat) (p : Nat) (n : Nat) :
    Touches [.regions] s (chargeBuckets s r p n).2 := by
  unfold chargeBuckets
  try conv => arg 3; zeta
  refine Touches.snd ?_
  refine Touches.trans ?_ (Touches.sub (State.updRegion_touch ..) (by decide))
  exact Touches.refl _

theorem State.updPort_touch (s : State) (p : Nat) (f : HostPort → HostPort) :
    Touches [.ports] s (State.updPort s p f) := by
  unfold State.updPort
  refine Touches.ofMk ?_ kp kp kp kp kp kp kp kp kp kp kp ch kp kp kp kp kp kp kp kp kp kp kp kp kp kp kp kp kp kp kp kp kp kp kp kp kp kp kp
  exact Touches.refl _

theorem hpCount_touch (s : State) (port : Nat) (k : Nat) (n : Nat) :
    Touches [.ports] s (hpCount s port k n) := by
  unfold hpCount
  refine Touches.trans ?_ (Touches.sub (State.updPort_touch ..) (by decide))
  exact Touches.refl _

theorem readCount_touch (s : State) (port : Nat) (fn : Nat) (r : HostRead) :
    Touches [.ports] s (readCount s port fn r) := by
  unfold readCount
  split
  · refine Touches.ite ?_ ?_
    · refine Touches.trans ?_ (Touches.sub (hpCount_touch ..) (by decide))
      exact Touches.refl _
    · exact Touches.refl _
  · refine Touches.ite ?_ ?_
    · refine Touches.trans ?_ (Touches.sub (hpCount_touch ..) (by decide))
      exact Touches.refl _
    · exact Touches.refl _
  · exact Touches.refl _

theorem rgnCount_touch (s : State) (r : Nat) (p : Nat) (k : Nat) (vp : Nat) (n : Nat) :
    Touches [.regions] s (rgnCount s r p k vp n) := by
  unfold rgnCount
  refine Touches.trans ?_ (Touches.sub (State.updRegion_touch ..) (by decide))
  exact Touches.refl _

theorem State.updPath_touch (s : State) (i : Nat) (f : Path → Path) :
    Touches [.tu] s (State.updPath s i f) := by
  unfold State.updPath
  try conv => arg 3; zeta
  refine Touches.ofMk ?_ kp kp kp kp kp kp kp kp kp kp kp kp kp kp kp kp kp kp kp kp kp kp kp kp kp kp kp kp kp kp kp ch kp kp kp kp kp kp kp
  exact Touches.refl _

theorem State.updStream_touch (s : State) (i : Nat) (f : Stream → Stream) :
    Touches [.streams] s (State.updStream s i f) := by
  unfold State.updStream
  refine Touches.ofMk ?_ kp kp kp kp kp kp kp kp kp kp kp kp kp ch kp kp kp kp kp kp kp kp kp kp kp kp kp kp kp kp kp kp kp kp kp kp kp kp kp
  exact Touches.refl _

theorem State.updDec_touch (s : State) (i : Nat) (f : Decode → Decode) :
    Touches [.streams] s (State.updDec s i f) := by
  unfold State.updDec
  refine Touches.trans ?_ (Touches.sub (State.updStream_touch ..) (by decide))
  exact Touches.refl _

theorem State.updCtx_touch (s : State) (i : Nat) (f : Ctx → Ctx) :
    Touches [.ctxs] s (State.updCtx s i f) := by
  unfold State.updCtx
  refine Touches.ofMk ?_ kp kp kp kp kp kp kp kp kp kp kp kp kp kp kp kp kp kp kp ch kp kp kp kp kp kp kp kp kp kp kp kp kp kp kp kp kp kp kp
  exact Touches.refl _

theorem State.updPart_touch (s : State) (i : Nat) (f : Part → Part) :
    Touches [.parts] s (State.updPart s i f) := by
  unfold State.updPart
  refine Touches.ofMk ?_ kp kp kp kp kp kp kp kp kp kp kp kp kp kp kp kp kp kp kp kp ch kp kp kp kp kp kp kp kp kp kp kp kp kp kp kp kp kp kp
  exact Touches.refl _

theorem pushCounts_touch (s : State) (r : Nat) :
    Touches [.parts, .regions] s (pushCounts s r) := by
  unfold pushCounts
  try conv => arg 3; zeta
  refine Touches.trans ?_ (Touches.sub (State.updRegion_touch ..) (by decide))
  refine Touches.foldl (fun y0 _ => ?_) ?_ _
  · refine Touches.trans ?_ (Touches.sub (State.updPart_touch ..) (by decide))
    exact Touches.refl _
  · exact Touches.refl _

theorem State.updIng_touch (s : State) (i : Nat) (f : Ingest → Ingest) :
    Touches [.streams] s (State.updIng s i f) := by
  unfold State.updIng
  refine Touches.trans ?_ (Touches.sub (State.updStream_touch ..) (by decide))
  exact Touches.refl _

theorem State.updCell_touch (s : State) (i : Nat) (f : Cell → Cell) :
    Touches [.cells] s (State.updCell s i f) := by
  unfold State.updCell
  refine Touches.ofMk ?_ kp kp kp kp kp kp kp kp kp kp kp kp kp kp kp kp kp kp kp kp kp kp kp ch kp kp kp kp kp kp kp kp kp kp kp kp kp kp kp
  exact Touches.refl _

theorem chargeSignal_touch (s : State) (src : Nat) (dst : Nat) (p : Nat) :
    Touches [.regions] s (chargeSignal s src dst p) := by
  unfold chargeSignal
  try conv => arg 3; zeta
  refine Touches.ite ?_ ?_
  · exact Touches.refl _
  · refine Touches.trans ?_ (Touches.sub (State.updRegion_touch ..) (by decide))
    exact Touches.refl _

theorem State.updFrame_touch (s : State) (i : Nat) (f : Frame → Frame) :
    Touches [.frames] s (State.updFrame s i f) := by
  unfold State.updFrame
  refine Touches.ofMk ?_ kp kp kp kp kp kp kp kp kp kp kp kp kp kp ch kp kp kp kp kp kp kp kp kp kp kp kp kp kp kp kp kp kp kp kp kp kp kp kp
  exact Touches.refl _

theorem emit_touch (o : Out) (s : State) :
    Touches [.out] s (emit o s) := by
  unfold emit
  refine Touches.ofMk ?_ kp kp kp kp kp kp kp kp kp kp kp kp kp kp kp kp kp kp kp kp kp kp kp kp kp kp kp kp kp kp kp kp kp kp kp ch kp kp kp
  exact Touches.refl _

theorem waitAccess_touch (c : Instr) (s : State) :
    Touches [.waits] s (waitAccess c s) := by
  unfold waitAccess
  refine Touches.ofMk ?_ kp kp kp kp kp kp kp kp kp kp kp kp kp kp kp kp kp kp kp kp kp kp kp kp kp kp kp kp kp kp kp kp kp kp kp kp ch kp kp
  exact Touches.refl _

theorem State.updBlock_touch (s : State) (i : Nat) (f : Block → Block) :
    Touches [.blocks] s (State.updBlock s i f) := by
  unfold State.updBlock
  refine Touches.ofMk ?_ kp kp kp kp kp kp kp kp kp kp kp kp kp kp kp kp kp kp kp kp kp kp ch kp kp kp kp kp kp kp kp kp kp kp kp kp kp kp kp
  exact Touches.refl _

theorem State.updBatch_touch (s : State) (i : Nat) (f : Batch → Batch) :
    Touches [.batches] s (State.updBatch s i f) := by
  unfold State.updBatch
  refine Touches.ofMk ?_ kp kp kp kp kp kp kp kp kp kp kp kp kp kp kp kp kp kp ch kp kp kp kp kp kp kp kp kp kp kp kp kp kp kp kp kp kp kp kp
  exact Touches.refl _

theorem chargeBody_touch (s : State) (r : Nat) (p : Nat) (k : Nat) (n : Nat) :
    Touches [.regions] s (chargeBody s r p k n) := by
  unfold chargeBody
  refine Touches.trans ?_ (Touches.sub (rgnCount_touch ..) (by decide))
  refine Touches.trans ?_ (Touches.sub (chargeBuckets_touch ..) (by decide))
  exact Touches.refl _

theorem freeBits_touch (w : Nat) (s : State) :
    Touches [.freeIx] s (freeBits w s).2 := by
  unfold freeBits
  refine Touches.snd ?_
  refine Touches.ofMk ?_ kp kp kp kp kp kp kp kp kp kp kp kp kp kp kp kp kp kp kp kp kp kp kp kp kp kp kp kp kp kp kp kp kp kp kp kp kp ch kp
  exact Touches.refl _

theorem State.updRing_touch (s : State) (port : Nat) (fn : Nat) (r : Nat) (g : Ring → Ring) :
    Touches [.rings] s (State.updRing s port fn r g) := by
  unfold State.updRing
  refine Touches.trans ?_ (Touches.sub (State.updFn_touch_rings _ _ _ _ (fun _ => rfl)) (by decide))
  exact Touches.refl _

theorem ringPut_touch (s : State) (port : Nat) (fn : Nat) (ring : Nat) (type : Nat) (fill : Nat) (data : Bytes) :
    Touches [.rings, .out] s (ringPut s port fn ring type fill data) := by
  unfold ringPut
  try conv => arg 3; zeta
  refine Touches.ite ?_ ?_
  · refine Touches.trans ?_ (Touches.sub (raiseIrq_touch ..) (by decide))
    refine Touches.trans ?_ (Touches.sub (State.updRing_touch ..) (by decide))
    refine Touches.trans ?_ (Touches.sub (emit_touch ..) (by decide))
    exact Touches.refl _
  · refine Touches.trans ?_ (Touches.sub (State.updRing_touch ..) (by decide))
    refine Touches.trans ?_ (Touches.sub (emit_touch ..) (by decide))
    exact Touches.refl _

theorem ringGap_touch (s : State) (port : Nat) (fn : Nat) (ring : Nat) :
    Touches [.rings, .out] s (ringGap s port fn ring) := by
  unfold ringGap
  try conv => arg 3; zeta
  refine Touches.ite ?_ ?_
  · exact Touches.refl _
  · refine Touches.trans ?_ (Touches.sub (ringPut_touch ..) (by decide))
    refine Touches.trans ?_ (Touches.sub (State.updRing_touch ..) (by decide))
    exact Touches.refl _

theorem ringWant_touch (s : State) (port : Nat) (fn : Nat) (ring : Nat) :
    Touches [.rings] s (ringWant s port fn ring) := by
  unfold ringWant
  refine Touches.trans ?_ (Touches.sub (State.updRing_touch ..) (by decide))
  exact Touches.refl _

theorem ringEvent_touch (s : State) (port : Nat) (fn : Nat) (ring : Nat) (data : Bytes) :
    Touches [.rings, .out] s (ringEvent s port fn ring data).2 := by
  unfold ringEvent
  try conv => arg 3; zeta
  refine Touches.itePair ?_ ?_
  · refine Touches.snd ?_
    refine Touches.trans ?_ (Touches.sub (ringPut_touch ..) (by decide))
    refine Touches.trans ?_ (Touches.sub (ringGap_touch ..) (by decide))
    exact Touches.refl _
  · refine Touches.snd ?_
    refine Touches.trans ?_ (Touches.sub (ringWant_touch ..) (by decide))
    exact Touches.refl _

theorem ledgerWrite_touch (s : State) (fid : Nat) :
    Touches [.frames, .out] s (ledgerWrite s fid) := by
  unfold ledgerWrite
  try conv => arg 3; zeta
  split
  · exact Touches.refl _
  · split
    · exact Touches.refl _
    · refine Touches.ite ?_ ?_
      · refine Touches.trans ?_ (Touches.sub (emit_touch ..) (by decide))
        refine Touches.trans ?_ (Touches.sub (State.updFrame_touch ..) (by decide))
        exact Touches.refl _
      · exact Touches.refl _

theorem frameStage_touch (s : State) (fid : Nat) (st : Nat) :
    Touches [.frames, .out] s (frameStage s fid st) := by
  unfold frameStage
  refine Touches.trans ?_ (Touches.sub (ledgerWrite_touch ..) (by decide))
  refine Touches.trans ?_ (Touches.sub (State.updFrame_touch ..) (by decide))
  exact Touches.refl _

theorem frameServed_touch (s : State) (fid : Nat) :
    Touches [.frames, .out] s (frameServed s fid) := by
  unfold frameServed
  refine Touches.trans ?_ (Touches.sub (frameStage_touch ..) (by decide))
  refine Touches.trans ?_ (Touches.sub (State.updFrame_touch ..) (by decide))
  exact Touches.refl _

theorem heldServed_touch (s : State) (u : HeldUnit) :
    Touches [.frames, .out] s (heldServed s u) := by
  unfold heldServed
  split
  · exact Touches.refl _
  · refine Touches.trans ?_ (Touches.sub (frameServed_touch ..) (by decide))
    exact Touches.refl _

theorem ringPutChunks_touch (port : Nat) (fn : Nat) (ring : Nat) (x3 : List Bytes) (x4 : Nat) (x5 : State) :
    Touches [.rings, .out] x5 (ringPutChunks port fn ring x3 x4 x5) := by
  induction x3 generalizing x4 x5 with
  | nil =>
    rw [ringPutChunks]
    exact Touches.refl _
  | cons a t ih =>
    rw [ringPutChunks]
    refine Touches.trans ?_ (ih ..)
    refine Touches.trans ?_ (Touches.sub (ringPut_touch ..) (by decide))
    exact Touches.refl _

theorem ringWriteUnit_touch (s : State) (port : Nat) (fn : Nat) (ring : Nat) (data : Bytes) :
    Touches [.rings, .out] s (ringWriteUnit s port fn ring data) := by
  unfold ringWriteUnit
  refine Touches.trans ?_ (Touches.sub (ringPutChunks_touch ..) (by decide))
  refine Touches.trans ?_ (Touches.sub (ringGap_touch ..) (by decide))
  exact Touches.refl _

theorem ringDrain_touch (port : Nat) (fn : Nat) (ring : Nat) (x3 : Nat) (x4 : State) :
    Touches [.rings, .frames, .out] x4 (ringDrain port fn ring x3 x4) := by
  induction x3 generalizing x4 with
  | zero =>
    rw [ringDrain]
    exact Touches.refl _
  | succ k ih =>
    rw [ringDrain]
    try conv => arg 3; zeta
    split
    · exact Touches.refl _
    · refine Touches.ite ?_ ?_
      · refine Touches.trans ?_ (ih ..)
        refine Touches.trans ?_ (Touches.sub (heldServed_touch ..) (by decide))
        refine Touches.trans ?_ (Touches.sub (ringWriteUnit_touch ..) (by decide))
        refine Touches.trans ?_ (Touches.sub (State.updRing_touch ..) (by decide))
        exact Touches.refl _
      · exact Touches.refl _

theorem ringDropUnit_touch (s : State) (port : Nat) (fn : Nat) (ring : Nat) (bytes : Nat) :
    Touches [.rings] s (ringDropUnit s port fn ring bytes) := by
  unfold ringDropUnit
  refine Touches.trans ?_ (Touches.sub (State.updRing_touch ..) (by decide))
  exact Touches.refl _

theorem ringDropHeld_touch (port : Nat) (fn : Nat) (ring : Nat) (x3 : List HeldUnit) (x4 : State) :
    Touches [.rings, .frames, .out] x4 (ringDropHeld port fn ring x3 x4) := by
  induction x3 generalizing x4 with
  | nil =>
    rw [ringDropHeld]
    exact Touches.refl _
  | cons a t ih =>
    rw [ringDropHeld]
    refine Touches.trans ?_ (ih ..)
    refine Touches.trans ?_ (Touches.sub (heldServed_touch ..) (by decide))
    refine Touches.trans ?_ (Touches.sub (ringDropUnit_touch ..) (by decide))
    exact Touches.refl _

theorem ringStop_touch (s : State) (port : Nat) (fn : Nat) (ring : Nat) (error : Bool) (cause : Nat) :
    Touches [.rings, .frames, .out] s (ringStop s port fn ring error cause) := by
  unfold ringStop
  try conv => arg 3; zeta
  refine Touches.trans ?_ (Touches.sub (ringDropHeld_touch ..) (by decide))
  refine Touches.trans ?_ (Touches.sub (State.updRing_touch ..) (by decide))
  exact Touches.refl _

theorem ringDropOldest_touch (s : State) (port : Nat) (fn : Nat) (ring : Nat) :
    Touches [.rings, .frames, .out] s (ringDropOldest s port fn ring) := by
  unfold ringDropOldest
  split
  · exact Touches.refl _
  · refine Touches.trans ?_ (Touches.sub (heldServed_touch ..) (by decide))
    refine Touches.trans ?_ (Touches.sub (ringDropUnit_touch ..) (by decide))
    refine Touches.trans ?_ (Touches.sub (State.updRing_touch ..) (by decide))
    exact Touches.refl _

theorem ringUnit_touch (s : State) (port : Nat) (fn : Nat) (ring : Nat) (data : Bytes) (frame : Option Nat) :
    Touches [.rings, .frames, .out] s (ringUnit s port fn ring data frame).2 := by
  unfold ringUnit
  try conv => arg 3; zeta
  refine Touches.itePair ?_ ?_
  · refine Touches.snd ?_
    refine Touches.trans ?_ (Touches.sub (ringDropUnit_touch ..) (by decide))
    exact Touches.refl _
  · refine Touches.itePair ?_ ?_
    · refine Touches.snd ?_
      refine Touches.trans ?_ (Touches.sub (ringDropUnit_touch ..) (by decide))
      exact Touches.refl _
    · refine Touches.itePair ?_ ?_
      · refine Touches.snd ?_
        refine Touches.trans ?_ (Touches.sub (ringWriteUnit_touch ..) (by decide))
        exact Touches.refl _
      · refine Touches.snd ?_
        refine Touches.ite ?_ ?_
        · refine Touches.trans ?_ (Touches.sub (ringDropOldest_touch ..) (by decide))
          refine Touches.trans ?_ (Touches.sub (ringWant_touch ..) (by decide))
          refine Touches.trans ?_ (Touches.sub (State.updRing_touch ..) (by decide))
          exact Touches.refl _
        · refine Touches.trans ?_ (Touches.sub (ringWant_touch ..) (by decide))
          refine Touches.trans ?_ (Touches.sub (State.updRing_touch ..) (by decide))
          exact Touches.refl _

theorem alarmIrqs_touch (x0 : List (Nat × Nat)) (x1 : State) :
    Touches [.rings] x1 (alarmIrqs x0 x1) := by
  induction x0 generalizing x1 with
  | nil =>
    rw [alarmIrqs]
    exact Touches.refl _
  | cons a t ih =>
    rw [alarmIrqs]
    refine Touches.trans ?_ (ih ..)
    refine Touches.trans ?_ (Touches.sub (raiseIrq_touch ..) (by decide))
    exact Touches.refl _

theorem drainEvents_touch (port : Nat) (fn : Nat) (x2 : Nat) (x3 : State) :
    Touches [.rings, .tu, .out] x3 (drainEvents port fn x2 x3) := by
  induction x2 generalizing x3 with
  | zero =>
    rw [drainEvents]
    exact Touches.refl _
  | succ k ih =>
    rw [drainEvents]
    try conv => arg 3; zeta
    split
    · refine Touches.ite ?_ ?_
      · refine Touches.trans ?_ (ih ..)
        refine Touches.trans ?_ (Touches.sub (State.updPath_touch ..) (by decide))
        refine Touches.trans ?_ (Touches.sub (ringEvent_touch ..) (by decide))
        exact Touches.refl _
      · refine Touches.trans ?_ (Touches.sub (ringEvent_touch ..) (by decide))
        exact Touches.refl _
    · exact Touches.refl _

theorem pumpEvents_touch (s : State) (port : Nat) (fn : Nat) :
    Touches [.rings, .tu, .out] s (pumpEvents s port fn) := by
  unfold pumpEvents
  refine Touches.trans ?_ (Touches.sub (drainEvents_touch ..) (by decide))
  exact Touches.refl _

theorem stageOn_touch (s : State) (e : Ev) (p : Nat) :
    Touches [.rings, .tu, .out] s (stageOn s e p) := by
  unfold stageOn
  try conv => arg 3; zeta
  refine Touches.ite ?_ ?_
  · refine Touches.trans ?_ (Touches.sub (pumpEvents_touch ..) (by decide))
    refine Touches.ite ?_ ?_
    · refine Touches.ofMk ?_ kp kp kp kp kp kp kp kp kp kp kp kp kp kp kp kp kp kp kp kp kp kp kp kp kp kp kp kp kp kp kp ch kp kp kp kp kp kp kp
      refine Touches.trans ?_ (Touches.sub (State.updPath_touch ..) (by decide))
      exact Touches.refl _
    · refine Touches.trans ?_ (Touches.sub (State.updPath_touch ..) (by decide))
      exact Touches.refl _
  · refine Touches.ite ?_ ?_
    · refine Touches.ofMk ?_ kp kp kp kp kp kp kp kp kp kp kp kp kp kp kp kp kp kp kp kp kp kp kp kp kp kp kp kp kp kp kp ch kp kp kp kp kp kp kp
      refine Touches.trans ?_ (Touches.sub (State.updPath_touch ..) (by decide))
      exact Touches.refl _
    · refine Touches.trans ?_ (Touches.sub (State.updPath_touch ..) (by decide))
      exact Touches.refl _

theorem stageOnAll_touch (e : Ev) (x1 : List Nat) (x2 : State) :
    Touches [.rings, .tu, .out] x2 (stageOnAll e x1 x2) := by
  induction x1 generalizing x2 with
  | nil =>
    rw [stageOnAll]
    exact Touches.refl _
  | cons a t ih =>
    rw [stageOnAll]
    refine Touches.trans ?_ (ih ..)
    refine Touches.trans ?_ (Touches.sub (stageOn_touch ..) (by decide))
    exact Touches.refl _

theorem raiseEv_touch (s : State) (e : EvSpec) :
    Touches [.rings, .alarms, .tu, .out] s (raiseEv s e) := by
  unfold raiseEv
  try conv => arg 3; zeta
  refine Touches.ite ?_ ?_
  · refine Touches.trans ?_ (Touches.sub (stageOnAll_touch ..) (by decide))
    refine Touches.ite ?_ ?_
    · refine Touches.trans ?_ (Touches.sub (alarmIrqs_touch ..) (by decide))
      refine Touches.ofMk ?_ kp kp kp kp kp kp kp kp kp kp kp kp kp kp kp kp kp kp kp kp kp kp kp kp kp kp kp kp kp ch kp kp kp kp kp kp kp kp kp
      exact Touches.refl _
    · exact Touches.refl _
  · refine Touches.ite ?_ ?_
    · refine Touches.trans ?_ (Touches.sub (alarmIrqs_touch ..) (by decide))
      refine Touches.ofMk ?_ kp kp kp kp kp kp kp kp kp kp kp kp kp kp kp kp kp kp kp kp kp kp kp kp kp kp kp kp kp ch kp kp kp kp kp kp kp kp kp
      exact Touches.refl _
    · exact Touches.refl _

theorem raiseOpen_touch (s : State) (unit : Nat) (num : Nat) (cls : Nat) (part : Nat) (slot : Nat) :
    Touches [.rings, .alarms, .tu, .out, .freeIx] s (raiseOpen s unit num cls part slot) := by
  unfold raiseOpen
  refine Touches.trans ?_ (Touches.sub (raiseEv_touch ..) (by decide))
  refine Touches.ofMk ?_ kp kp kp kp kp kp kp kp kp kp kp kp kp kp kp kp kp kp kp kp kp kp kp kp kp kp kp kp kp kp kp kp kp kp kp kp kp ch kp
  exact Touches.refl _

theorem raiseLog_touch (s : State) (unit : Nat) :
    Touches [.rings, .alarms, .tu, .out, .freeIx] s (raiseLog s unit) := by
  unfold raiseLog
  refine Touches.trans ?_ (Touches.sub (raiseOpen_touch ..) (by decide))
  exact Touches.refl _

theorem raiseAlarmOf_touch (s : State) (unit : Nat) (num : Nat) (part : Nat) :
    Touches [.rings, .alarms, .tu, .out, .freeIx] s (raiseAlarmOf s unit num part) := by
  unfold raiseAlarmOf
  refine Touches.trans ?_ (Touches.sub (raiseOpen_touch ..) (by decide))
  exact Touches.refl _

theorem raiseLogOf_touch (s : State) (unit : Nat) (part : Nat) (slot : Nat) :
    Touches [.rings, .alarms, .tu, .out, .freeIx] s (raiseLogOf s unit part slot) := by
  unfold raiseLogOf
  refine Touches.trans ?_ (Touches.sub (raiseOpen_touch ..) (by decide))
  exact Touches.refl _

theorem ringDeliver_touch (s : State) (port : Nat) (fn : Nat) (ring : Nat) (data : Bytes) (frame : Option Nat) :
    Touches [.rings, .frames, .alarms, .tu, .out, .freeIx] s (ringDeliver s port fn ring data frame).2 := by
  unfold ringDeliver
  split
  · rename_i v0 e1
    have hv0 : Touches [.rings, .frames, .alarms, .tu, .out, .freeIx] s v0 := by
      refine Touches.pair e1 ?_
      refine Touches.trans ?_ (Touches.sub (ringUnit_touch ..) (by decide))
      exact Touches.refl _
    refine Touches.snd ?_
    exact hv0
  · rename_i v2 e3
    have hv2 : Touches [.rings, .frames, .alarms, .tu, .out, .freeIx] s v2 := by
      refine Touches.pair e3 ?_
      refine Touches.trans ?_ (Touches.sub (ringUnit_touch ..) (by decide))
      exact Touches.refl _
    refine Touches.snd ?_
    refine Touches.trans ?_ (Touches.sub (raiseLogOf_touch ..) (by decide))
    exact hv2
  · rename_i v4 e5
    have hv4 : Touches [.rings, .frames, .alarms, .tu, .out, .freeIx] s v4 := by
      refine Touches.pair e5 ?_
      refine Touches.trans ?_ (Touches.sub (ringUnit_touch ..) (by decide))
      exact Touches.refl _
    refine Touches.snd ?_
    exact hv4

theorem raiseAlarm_touch (s : State) (unit : Nat) (num : Nat) :
    Touches [.rings, .alarms, .tu, .out, .freeIx] s (raiseAlarm s unit num) := by
  unfold raiseAlarm
  refine Touches.trans ?_ (Touches.sub (raiseOpen_touch ..) (by decide))
  exact Touches.refl _

theorem bpmCount_touch (s : State) (who : Nat) (k : Nat) (i : Nat) :
    Touches [.parts] s (bpmCount s who k i) := by
  unfold bpmCount
  refine Touches.ite ?_ ?_
  · refine Touches.trans ?_ (Touches.sub (State.updPart_touch ..) (by decide))
    exact Touches.refl _
  · exact Touches.refl _

theorem setDesc_touch (s : State) (a : Nat) (d : Word) :
    Touches [.bpm] s (setDesc s a d) := by
  unfold setDesc
  try conv => arg 3; zeta
  refine Touches.ofMk ?_ kp kp kp kp kp kp kp kp kp kp kp kp kp kp kp kp kp kp kp kp kp kp kp kp kp kp ch kp kp kp kp kp kp kp kp kp kp kp kp
  exact Touches.refl _

theorem bpmShareOp_touch (s : State) (who : Nat) (a : Nat) (owners : Nat) :
    Touches [.rings, .parts, .bpm, .alarms, .tu, .out, .freeIx] s (bpmShareOp s who a owners) := by
  unfold bpmShareOp
  try conv => arg 3; zeta
  split
  · refine Touches.trans ?_ (Touches.sub (raiseLogOf_touch ..) (by decide))
    refine Touches.trans ?_ (Touches.sub (bpmCount_touch ..) (by decide))
    exact Touches.refl _
  · refine Touches.ite ?_ ?_
    · refine Touches.trans ?_ (Touches.sub (raiseLogOf_touch ..) (by decide))
      refine Touches.trans ?_ (Touches.sub (bpmCount_touch ..) (by decide))
      exact Touches.refl _
    · refine Touches.trans ?_ (Touches.sub (setDesc_touch ..) (by decide))
      exact Touches.refl _

theorem execBpmShare_touch (who : Requester) (addr : Nat) (owners : Nat) (s : State) :
    ∃ u, execBpmShare who addr owners s = .next u ∧ Touches [.rings, .parts, .bpm, .alarms, .tu, .out, .freeIx] s u := by
  unfold execBpmShare
  refine Touches.done ?_
  refine Touches.trans ?_ (Touches.sub (bpmShareOp_touch ..) (by decide))
  exact Touches.refl _

theorem dramZero_touch (s : State) (a salt n : Nat) : Touches [.mem] s (dramZero s a salt n) := by
  induction n generalizing s a with
  | zero => exact Touches.refl _
  | succ k ih =>
    rw [dramZero]
    refine Touches.trans ?_ (ih ..)
    refine Touches.ofMk (Touches.refl s) kp kp kp kp kp kp kp kp kp kp kp kp kp kp kp kp kp kp kp kp kp kp kp kp ch kp kp kp kp kp kp kp kp kp kp kp kp kp kp

theorem execBpmZeroIdle_touch (pool : Nat) (s : State) :
    ∃ u, execBpmZeroIdle pool s = .next u ∧ Touches [.mem, .bpm] s u := by
  unfold execBpmZeroIdle
  try conv => enter [1, t, 1, 1]; zeta
  split
  · refine Touches.done ?_
    exact Touches.refl _
  · refine Touches.done ?_
    refine Touches.ofMk ?_ kp kp kp kp kp kp kp kp kp kp kp kp kp kp kp kp kp kp kp kp kp kp kp kp kp kp ch kp kp kp kp kp kp kp kp kp kp kp kp
    refine Touches.trans ?_ (Touches.sub (dramZero_touch ..) (by decide))
    exact Touches.refl _

theorem poolWarn_touch (s : State) (k : Nat) :
    Touches [.rings, .bpm, .alarms, .tu, .out, .freeIx] s (poolWarn s k) := by
  unfold poolWarn
  try conv => arg 3; zeta
  refine Touches.ite ?_ ?_
  · refine Touches.ite ?_ ?_
    · refine Touches.ofMk ?_ kp kp kp kp kp kp kp kp kp kp kp kp kp kp kp kp kp kp kp kp kp kp kp kp kp kp ch kp kp kp kp kp kp kp kp kp kp kp kp
      exact Touches.refl _
    · exact Touches.refl _
  · refine Touches.ite ?_ ?_
    · refine Touches.trans ?_ (Touches.sub (raiseLog_touch ..) (by decide))
      refine Touches.ofMk ?_ kp kp kp kp kp kp kp kp kp kp kp kp kp kp kp kp kp kp kp kp kp kp kp kp kp kp ch kp kp kp kp kp kp kp kp kp kp kp kp
      exact Touches.refl _
    · exact Touches.refl _

theorem quarantine_touch (s : State) (a : Nat) :
    Touches [.rings, .bpm, .alarms, .tu, .out, .freeIx] s (quarantine s a) := by
  unfold quarantine
  try conv => arg 3; zeta
  split
  · exact Touches.refl _
  · refine Touches.ite ?_ ?_
    · exact Touches.refl _
    · refine Touches.ite ?_ ?_
      · refine Touches.trans ?_ (Touches.sub (poolWarn_touch ..) (by decide))
        refine Touches.ofMk ?_ kp kp kp kp kp kp kp kp kp kp kp kp kp kp kp kp kp kp kp kp kp kp kp kp kp kp ch kp kp kp kp kp kp kp kp kp kp kp kp
        refine Touches.trans ?_ (Touches.sub (setDesc_touch ..) (by decide))
        exact Touches.refl _
      · refine Touches.ite ?_ ?_
        · exact Touches.refl _
        · refine Touches.ofMk ?_ kp kp kp kp kp kp kp kp kp kp kp kp kp kp kp kp kp kp kp kp kp kp kp kp kp kp ch kp kp kp kp kp kp kp kp kp kp kp kp
          exact Touches.refl _

theorem allocRefuse_touch (s : State) (who : Nat) (k : Nat) (i : Nat) :
    Touches [.parts, .bpm] s (allocRefuse s who k i) := by
  unfold allocRefuse
  try conv => arg 3; zeta
  refine Touches.trans ?_ (Touches.sub (bpmCount_touch ..) (by decide))
  refine Touches.ofMk ?_ kp kp kp kp kp kp kp kp kp kp kp kp kp kp kp kp kp kp kp kp kp kp kp kp kp kp ch kp kp kp kp kp kp kp kp kp kp kp kp
  exact Touches.refl _

theorem saltGroup_touch (s : State) (g : Nat) :
    Touches [.bpm, .freeIx] s (saltGroup s g).2 := by
  unfold saltGroup
  try conv => arg 3; zeta
  refine Touches.itePair ?_ ?_
  · split
    · rename_i v0 v1 e2
      have hv1 : Touches [.bpm, .freeIx] s v1 := by
        refine Touches.pair e2 ?_
        refine Touches.trans ?_ (Touches.sub (freeBits_touch ..) (by decide))
        exact Touches.refl _
      refine Touches.snd ?_
      refine Touches.ofMk ?_ kp kp kp kp kp kp kp kp kp kp kp kp kp kp kp kp kp kp kp kp kp kp kp kp kp kp ch kp kp kp kp kp kp kp kp kp kp kp kp
      exact hv1
  · refine Touches.snd ?_
    exact Touches.refl _

theorem bpmAlloc_touch (s : State) (who : Nat) (k : Nat) :
    Touches [.rings, .parts, .mem, .bpm, .alarms, .tu, .out, .freeIx] s (bpmAlloc s who k).2 := by
  unfold bpmAlloc
  try conv => arg 3; zeta
  refine Touches.itePair ?_ ?_
  · refine Touches.snd ?_
    refine Touches.trans ?_ (Touches.sub (allocRefuse_touch ..) (by decide))
    exact Touches.refl _
  · split
    · refine Touches.snd ?_
      refine Touches.trans ?_ (Touches.sub (allocRefuse_touch ..) (by decide))
      exact Touches.refl _
    · split
      · rename_i v0 v1 e2
        have hv1 : Touches [.rings, .parts, .mem, .bpm, .alarms, .tu, .out, .freeIx] s v1 := by
          refine Touches.pair e2 ?_
          refine Touches.trans ?_ (Touches.sub (saltGroup_touch ..) (by decide))
          exact Touches.refl _
        refine Touches.snd ?_
        refine Touches.trans ?_ (Touches.sub (poolWarn_touch ..) (by decide))
        refine Touches.trans ?_ (Touches.sub (bpmCount_touch ..) (by decide))
        refine Touches.ofMk ?_ kp kp kp kp kp kp kp kp kp kp kp kp kp kp kp kp kp kp kp kp kp kp kp kp kp kp ch kp kp kp kp kp kp kp kp kp kp kp kp
        refine Touches.trans ?_ (Touches.sub (setDesc_touch ..) (by decide))
        refine Touches.ite ?_ ?_
        · refine Touches.trans ?_ (Touches.sub (bpmCount_touch ..) (by decide))
          refine Touches.trans ?_ (Touches.sub (dramZero_touch ..) (by decide))
          exact hv1
        · exact hv1

theorem clearOwner_touch (s : State) (who : Nat) (a : Nat) (k : Nat) :
    Touches [.rings, .parts, .bpm, .alarms, .tu, .out, .freeIx] s (clearOwner s who a k) := by
  unfold clearOwner
  try conv => arg 3; zeta
  refine Touches.ite ?_ ?_
  · refine Touches.trans ?_ (Touches.sub (setDesc_touch ..) (by decide))
    exact Touches.refl _
  · refine Touches.ite ?_ ?_
    · refine Touches.trans ?_ (Touches.sub (poolWarn_touch ..) (by decide))
      refine Touches.ofMk ?_ kp kp kp kp kp kp kp kp kp kp kp kp kp kp kp kp kp kp kp kp kp kp kp kp kp kp ch kp kp kp kp kp kp kp kp kp kp kp kp
      refine Touches.trans ?_ (Touches.sub (setDesc_touch ..) (by decide))
      refine Touches.ofMk ?_ kp kp kp kp kp kp kp kp kp kp kp kp kp kp kp kp kp kp kp kp kp kp kp kp kp kp ch kp kp kp kp kp kp kp kp kp kp kp kp
      exact Touches.refl _
    · refine Touches.trans ?_ (Touches.sub (poolWarn_touch ..) (by decide))
      refine Touches.trans ?_ (Touches.sub (bpmCount_touch ..) (by decide))
      refine Touches.ofMk ?_ kp kp kp kp kp kp kp kp kp kp kp kp kp kp kp kp kp kp kp kp kp kp kp kp kp kp ch kp kp kp kp kp kp kp kp kp kp kp kp
      refine Touches.trans ?_ (Touches.sub (setDesc_touch ..) (by decide))
      refine Touches.ofMk ?_ kp kp kp kp kp kp kp kp kp kp kp kp kp kp kp kp kp kp kp kp kp kp kp kp kp kp ch kp kp kp kp kp kp kp kp kp kp kp kp
      exact Touches.refl _

theorem bpmRelease_touch (s : State) (who : Nat) (a : Nat) :
    Touches [.rings, .parts, .bpm, .alarms, .tu, .out, .freeIx] s (bpmRelease s who a) := by
  unfold bpmRelease
  try conv => arg 3; zeta
  split
  · refine Touches.trans ?_ (Touches.sub (raiseLogOf_touch ..) (by decide))
    refine Touches.trans ?_ (Touches.sub (bpmCount_touch ..) (by decide))
    exact Touches.refl _
  · refine Touches.ite ?_ ?_
    · refine Touches.trans ?_ (Touches.sub (raiseLogOf_touch ..) (by decide))
      refine Touches.trans ?_ (Touches.sub (bpmCount_touch ..) (by decide))
      exact Touches.refl _
    · refine Touches.ite ?_ ?_
      · refine Touches.trans ?_ (Touches.sub (raiseLogOf_touch ..) (by decide))
        refine Touches.trans ?_ (Touches.sub (bpmCount_touch ..) (by decide))
        exact Touches.refl _
      · refine Touches.trans ?_ (Touches.sub (clearOwner_touch ..) (by decide))
        exact Touches.refl _

theorem releaseAll_touch (who : Nat) (x1 : List Nat) (x2 : State) :
    Touches [.rings, .parts, .bpm, .alarms, .tu, .out, .freeIx] x2 (releaseAll who x1 x2) := by
  induction x1 generalizing x2 with
  | nil =>
    rw [releaseAll]
    exact Touches.refl _
  | cons a t ih =>
    rw [releaseAll]
    refine Touches.trans ?_ (ih ..)
    refine Touches.trans ?_ (Touches.sub (bpmRelease_touch ..) (by decide))
    exact Touches.refl _

theorem allocMany_touch (who : Nat) (k : Nat) (x2 : Nat) (x3 : State) :
    Touches [.rings, .parts, .mem, .bpm, .alarms, .tu, .out, .freeIx] x3 (allocMany who k x2 x3).2 := by
  induction x2 generalizing x3 with
  | zero =>
    rw [allocMany]
    refine Touches.snd ?_
    exact Touches.refl _
  | succ k ih =>
    rw [allocMany]
    try conv => arg 3; zeta
    split
    · rename_i v0 e1
      have hv0 : Touches [.rings, .parts, .mem, .bpm, .alarms, .tu, .out, .freeIx] x3 v0 := by
        refine Touches.pair e1 ?_
        refine Touches.trans ?_ (Touches.sub (bpmAlloc_touch ..) (by decide))
        exact Touches.refl _
      refine Touches.snd ?_
      exact hv0
    · rename_i v2 v3 e4
      have hv3 : Touches [.rings, .parts, .mem, .bpm, .alarms, .tu, .out, .freeIx] x3 v3 := by
        refine Touches.pair e4 ?_
        refine Touches.trans ?_ (Touches.sub (bpmAlloc_touch ..) (by decide))
        exact Touches.refl _
      refine Touches.snd ?_
      refine Touches.trans ?_ (ih ..)
      exact hv3

theorem clearPartition_touch (p : Nat) (x1 : List Nat) (x2 : State) :
    Touches [.rings, .parts, .bpm, .alarms, .tu, .out, .freeIx] x2 (clearPartition p x1 x2) := by
  induction x1 generalizing x2 with
  | nil =>
    rw [clearPartition]
    exact Touches.refl _
  | cons a t ih =>
    rw [clearPartition]
    refine Touches.trans ?_ (ih ..)
    split
    · exact Touches.refl _
    · refine Touches.ite ?_ ?_
      · refine Touches.trans ?_ (Touches.sub (clearOwner_touch ..) (by decide))
        exact Touches.refl _
      · exact Touches.refl _

theorem execBpmAllocate_touch (who : Requester) (pool : Nat) (s : State) :
    ∃ u, execBpmAllocate who pool s = .next u ∧ Touches [.rings, .parts, .mem, .bpm, .alarms, .tu, .out, .freeIx] s u := by
  unfold execBpmAllocate
  refine Touches.done ?_
  refine Touches.trans ?_ (Touches.sub (bpmAlloc_touch ..) (by decide))
  exact Touches.refl _

theorem dramWrite_touch (s : State) (a salt : Nat) (b : Bytes) : Touches [.mem] s (dramWrite s a salt b) := by
  induction b generalizing s a with
  | nil => exact Touches.refl _
  | cons x t ih =>
    rw [dramWrite]
    refine Touches.trans ?_ (ih ..)
    refine Touches.ofMk (Touches.refl s) kp kp kp kp kp kp kp kp kp kp kp kp kp kp kp kp kp kp kp kp kp kp kp kp ch kp kp kp kp kp kp kp kp kp kp kp kp kp kp

end Sys2Proof.Machine
end

