-- ==== Sys2Proof/Laws/TouchesStream.lean ====
section
/-! SUPPORT. Which parts of the state each operation of these files of Machine/ can change, as `Touches` names them: CtxStore, Tracker, Life, Switch, Net, Ingest, Decoder. -/

set_option Elab.async false

set_option linter.unusedVariables false

namespace Sys2Proof.Machine

open Sys2Proof (Bytes Byte Word)

theorem writeBack_touch (s : State) (l : List (Nat × Bool)) :
    Touches [.mem] s (writeBack s l) := by
  unfold writeBack
  refine Touches.foldl (fun y0 _ => ?_) ?_ _
  · refine Touches.ite ?_ ?_
    · refine Touches.trans ?_ (Touches.sub (dramWrite_touch ..) (by decide))
      exact Touches.refl _
    · exact Touches.refl _
  · exact Touches.refl _

theorem cacheTouch_touch (s : State) (i : Nat) (dirty : Bool) :
    Touches [.mem, .store] s (cacheTouch s i dirty).2 := by
  unfold cacheTouch
  try conv => arg 3; zeta
  split
  · refine Touches.snd ?_
    refine Touches.ofMk ?_ kp kp kp kp kp kp kp kp kp kp kp kp kp kp kp kp kp kp kp kp kp kp kp kp kp kp kp ch kp kp kp kp kp kp kp kp kp kp kp
    exact Touches.refl _
  · refine Touches.snd ?_
    refine Touches.trans ?_ (Touches.sub (writeBack_touch ..) (by decide))
    refine Touches.ofMk ?_ kp kp kp kp kp kp kp kp kp kp kp kp kp kp kp kp kp kp kp kp kp kp kp kp kp kp kp ch kp kp kp kp kp kp kp kp kp kp kp
    exact Touches.refl _

theorem ctxCount_touch (s : State) (slot : Nat) (k : Nat) (n : Nat) :
    Touches [.streams] s (ctxCount s slot k n) := by
  unfold ctxCount
  refine Touches.ite ?_ ?_
  · refine Touches.trans ?_ (Touches.sub (State.updStream_touch ..) (by decide))
    exact Touches.refl _
  · exact Touches.refl _

theorem storeRead_touch (s : State) (slot : Nat) (i : Nat) :
    Touches [.streams, .mem, .store] s (storeRead s slot i) := by
  unfold storeRead
  try conv => arg 3; zeta
  split
  · rename_i v0 v1 e2
    have hv1 : Touches [.streams, .mem, .store] s v1 := by
      refine Touches.pair e2 ?_
      refine Touches.trans ?_ (Touches.sub (cacheTouch_touch ..) (by decide))
      exact Touches.refl _
    refine Touches.ite ?_ ?_
    · refine Touches.trans ?_ (Touches.sub (ctxCount_touch ..) (by decide))
      exact hv1
    · refine Touches.trans ?_ (Touches.sub (ctxCount_touch ..) (by decide))
      refine Touches.trans ?_ (Touches.sub (ctxCount_touch ..) (by decide))
      exact hv1

theorem recPut_touch (s : State) (i : Nat) (b : Bytes) :
    Touches [.store] s (recPut s i b) := by
  unfold recPut
  try conv => arg 3; zeta
  refine Touches.ofMk ?_ kp kp kp kp kp kp kp kp kp kp kp kp kp kp kp kp kp kp kp kp kp kp kp kp kp kp kp ch kp kp kp kp kp kp kp kp kp kp kp
  exact Touches.refl _

theorem storeWrite_touch (s : State) (slot : Nat) (i : Nat) (payload : Bytes) :
    Touches [.streams, .mem, .store] s (storeWrite s slot i payload) := by
  unfold storeWrite
  split
  · rename_i v0 v1 e2
    have hv1 : Touches [.streams, .mem, .store] s v1 := by
      refine Touches.pair e2 ?_
      refine Touches.trans ?_ (Touches.sub (cacheTouch_touch ..) (by decide))
      exact Touches.refl _
    refine Touches.trans ?_ (Touches.sub (ctxCount_touch ..) (by decide))
    refine Touches.trans ?_ (Touches.sub (recPut_touch ..) (by decide))
    exact hv1

theorem recSet_touch (s : State) (slot : Nat) (ord : Nat) (fs : List (Nat × Bytes)) :
    Touches [.streams, .mem, .store] s (recSet s slot ord fs) := by
  unfold recSet
  try conv => arg 3; zeta
  refine Touches.trans ?_ (Touches.sub (storeWrite_touch ..) (by decide))
  refine Touches.trans ?_ (Touches.sub (storeRead_touch ..) (by decide))
  exact Touches.refl _

theorem ptrSetState_touch (s : State) (slot : Nat) (r : Nat) (st : Nat) :
    Touches [.streams, .mem, .store] s (ptrSetState s slot r st) := by
  unfold ptrSetState
  refine Touches.trans ?_ (Touches.sub (recSet_touch ..) (by decide))
  exact Touches.refl _

theorem storeNew_touch (s : State) (i : Nat) (b : Bytes) :
    Touches [.mem, .store] s (storeNew s i b) := by
  unfold storeNew
  refine Touches.trans ?_ (Touches.sub (recPut_touch ..) (by decide))
  refine Touches.trans ?_ (Touches.sub (cacheTouch_touch ..) (by decide))
  exact Touches.refl _

theorem writeRun_touch (c : Sections) (e : Bytes) (ring : List Nat) (cbAddr : Nat) (base : Nat) (gen : Nat) (x6 : Nat) (x7 : Nat) (x8 : State) :
    Touches [.mem, .store] x8 (writeRun c e ring cbAddr base gen x6 x7 x8) := by
  induction x6 generalizing x7 x8 with
  | zero =>
    rw [writeRun]
    exact Touches.refl _
  | succ k ih =>
    rw [writeRun]
    refine Touches.trans ?_ (ih ..)
    refine Touches.trans ?_ (Touches.sub (storeNew_touch ..) (by decide))
    exact Touches.refl _

theorem restoreTables_touch (s : State) (slot : Nat) :
    Touches [.streams, .mem, .store] s (restoreTables s slot) := by
  unfold restoreTables
  try conv => arg 3; zeta
  refine Touches.foldl (fun y0 _ => ?_) ?_ _
  · refine Touches.trans ?_ (Touches.sub (storeWrite_touch ..) (by decide))
    exact Touches.refl _
  · refine Touches.trans ?_ (Touches.sub (State.updStream_touch ..) (by decide))
    exact Touches.refl _

theorem adapterReset_touch (s : State) (slot : Nat) :
    Touches [.streams, .mem, .store] s (adapterReset s slot) := by
  unfold adapterReset
  try conv => arg 3; zeta
  refine Touches.ite ?_ ?_
  · refine Touches.foldl (fun y0 _ => ?_) ?_ _
    · refine Touches.trans ?_ (Touches.sub (storeWrite_touch ..) (by decide))
      exact Touches.refl _
    · refine Touches.trans ?_ (Touches.sub (storeWrite_touch ..) (by decide))
      refine Touches.trans ?_ (Touches.sub (State.updStream_touch ..) (by decide))
      exact Touches.refl _
  · exact Touches.refl _

theorem ctxPartCount_touch (s : State) (p : Nat) (k : Nat) (n : Nat) :
    Touches [.parts] s (ctxPartCount s p k n) := by
  unfold ctxPartCount
  refine Touches.trans ?_ (Touches.sub (State.updPart_touch ..) (by decide))
  exact Touches.refl _

theorem ringEmpty_touch (slot : Nat) (x1 : List Nat) (x2 : State) :
    Touches [.streams, .mem, .store] x2 (ringEmpty slot x1 x2) := by
  induction x1 generalizing x2 with
  | nil =>
    rw [ringEmpty]
    exact Touches.refl _
  | cons a t ih =>
    rw [ringEmpty]
    refine Touches.trans ?_ (ih ..)
    refine Touches.trans ?_ (Touches.sub (ptrSetState_touch ..) (by decide))
    exact Touches.refl _

theorem setLive_touch (s : State) (slot : Nat) (live : List Nat) :
    Touches [.streams, .mem, .store] s (setLive s slot live) := by
  unfold setLive
  try conv => arg 3; zeta
  refine Touches.trans ?_ (Touches.sub (recSet_touch ..) (by decide))
  exact Touches.refl _

theorem freeTrack_touch (s : State) (slot : Nat) (i : Nat) :
    Touches [.streams, .mem, .store] s (freeTrack s slot i) := by
  unfold freeTrack
  try conv => arg 3; zeta
  refine Touches.trans ?_ (Touches.sub (ctxCount_touch ..) (by decide))
  refine Touches.trans ?_ (Touches.sub (setLive_touch ..) (by decide))
  refine Touches.trans ?_ (Touches.sub (storeWrite_touch ..) (by decide))
  exact Touches.refl _

theorem freeTracks_touch (slot : Nat) (x1 : List Nat) (x2 : State) :
    Touches [.streams, .mem, .store] x2 (freeTracks slot x1 x2) := by
  induction x1 generalizing x2 with
  | nil =>
    rw [freeTracks]
    exact Touches.refl _
  | cons a t ih =>
    rw [freeTracks]
    refine Touches.trans ?_ (ih ..)
    refine Touches.trans ?_ (Touches.sub (freeTrack_touch ..) (by decide))
    exact Touches.refl _

theorem storeReads_touch (s : State) (slot : Nat) (l : List Nat) :
    Touches [.streams, .mem, .store] s (storeReads s slot l) := by
  unfold storeReads
  refine Touches.foldl (fun y0 _ => ?_) ?_ _
  · refine Touches.trans ?_ (Touches.sub (storeRead_touch ..) (by decide))
    exact Touches.refl _
  · exact Touches.refl _

theorem takeRun_touch (s : State) (slot : Nat) :
    Touches [.streams] s (takeRun s slot) := by
  unfold takeRun
  try conv => arg 3; zeta
  split
  · exact Touches.refl _
  · refine Touches.trans ?_ (Touches.sub (State.updStream_touch ..) (by decide))
    exact Touches.refl _

theorem newSegment_touch (s : State) (slot : Nat) :
    Touches [.streams, .mem, .store] s (newSegment s slot) := by
  unfold newSegment
  try conv => arg 3; zeta
  refine Touches.trans ?_ (Touches.sub (freeTracks_touch ..) (by decide))
  refine Touches.trans ?_ (Touches.sub (recSet_touch ..) (by decide))
  refine Touches.trans ?_ (Touches.sub (ringEmpty_touch ..) (by decide))
  exact Touches.refl _

theorem reinitRun_touch (s : State) (slot : Nat) :
    Touches [.streams, .mem, .store] s (reinitRun s slot) := by
  unfold reinitRun
  try conv => arg 3; zeta
  refine Touches.trans ?_ (Touches.sub (writeRun_touch ..) (by decide))
  refine Touches.trans ?_ (Touches.sub (State.updStream_touch ..) (by decide))
  exact Touches.refl _

theorem writeMatches_touch (slot : Nat) (n : Nat) (ds : List (Nat × DetRow)) (x3 : List (Nat × Nat)) (x4 : State) :
    Touches [.streams, .mem, .store] x4 (writeMatches slot n ds x3 x4) := by
  induction x3 generalizing x4 with
  | nil =>
    rw [writeMatches]
    exact Touches.refl _
  | cons a t ih =>
    rw [writeMatches]
    split
    · refine Touches.trans ?_ (ih ..)
      exact Touches.refl _
    · refine Touches.trans ?_ (ih ..)
      refine Touches.trans ?_ (Touches.sub (storeWrite_touch ..) (by decide))
      exact Touches.refl _

theorem births_touch (slot : Nat) (n : Nat) (x2 : List (Nat × DetRow)) (x3 : State) :
    Touches [.streams, .mem, .store] x3 (births slot n x2 x3) := by
  induction x2 generalizing x3 with
  | nil =>
    rw [births]
    exact Touches.refl _
  | cons a t ih =>
    rw [births]
    try conv => arg 3; zeta
    split
    · refine Touches.trans ?_ (ih ..)
      refine Touches.trans ?_ (Touches.sub (ctxCount_touch ..) (by decide))
      exact Touches.refl _
    · refine Touches.trans ?_ (ih ..)
      refine Touches.trans ?_ (Touches.sub (ctxCount_touch ..) (by decide))
      refine Touches.trans ?_ (Touches.sub (recSet_touch ..) (by decide))
      refine Touches.trans ?_ (Touches.sub (setLive_touch ..) (by decide))
      refine Touches.trans ?_ (Touches.sub (storeWrite_touch ..) (by decide))
      exact Touches.refl _

theorem runTracker_touch (s : State) (slot : Nat) (n : Nat) (rows : List DetRow) :
    Touches [.streams, .mem, .store] s (runTracker s slot n rows) := by
  unfold runTracker
  try conv => arg 3; zeta
  refine Touches.trans ?_ (Touches.sub (freeTracks_touch ..) (by decide))
  refine Touches.trans ?_ (Touches.sub (births_touch ..) (by decide))
  refine Touches.trans ?_ (Touches.sub (writeMatches_touch ..) (by decide))
  refine Touches.trans ?_ (Touches.sub (ctxCount_touch ..) (by decide))
  exact Touches.refl _

theorem trackNext_touch (s : State) (slot : Nat) : Touches [.streams, .frames, .mem, .store, .out] s (trackNext s slot).2 := by
  unfold trackNext
  split
  · exact Touches.refl _
  · refine Touches.itePair ?_ (Touches.snd (Touches.refl _))
    refine Touches.snd ?_
    refine Touches.trans ?_ (Touches.sub (frameStage_touch ..) (by decide))
    refine Touches.trans ?_ (Touches.sub (State.updFrame_touch ..) (by decide))
    refine Touches.trans ?_ (Touches.sub (recSet_touch ..) (by decide))
    refine Touches.trans ?_ (Touches.sub (runTracker_touch ..) (by decide))
    exact Touches.sub (storeReads_touch ..) (by decide)

theorem passOver_touch (s : State) (slot : Nat) :
    Touches [.streams] s (passOver s slot) := by
  unfold passOver
  refine Touches.trans ?_ (Touches.sub (State.updStream_touch ..) (by decide))
  exact Touches.refl _

theorem ringAbort_touch (slot : Nat) (n : Nat) (x2 : List Nat) (x3 : State) :
    Touches [.streams, .mem, .store] x3 (ringAbort slot n x2 x3) := by
  induction x2 generalizing x3 with
  | nil =>
    rw [ringAbort]
    exact Touches.refl _
  | cons a t ih =>
    rw [ringAbort]
    refine Touches.trans ?_ (ih ..)
    refine Touches.ite ?_ ?_
    · exact Touches.refl _
    · refine Touches.ite ?_ ?_
      · refine Touches.trans ?_ (Touches.sub (ptrSetState_touch ..) (by decide))
        exact Touches.refl _
      · refine Touches.ite ?_ ?_
        · refine Touches.trans ?_ (Touches.sub (recSet_touch ..) (by decide))
          refine Touches.trans ?_ (Touches.sub (ptrSetState_touch ..) (by decide))
          exact Touches.refl _
        · exact Touches.refl _

theorem markAbsent_touch (s : State) (fid : Nat) :
    Touches [.streams, .mem, .store] s (markAbsent s fid) := by
  unfold markAbsent
  try conv => arg 3; zeta
  split
  · exact Touches.refl _
  · refine Touches.ite ?_ ?_
    · refine Touches.trans ?_ (Touches.sub (ringAbort_touch ..) (by decide))
      refine Touches.trans ?_ (Touches.sub (passOver_touch ..) (by decide))
      refine Touches.trans ?_ (Touches.sub (State.updStream_touch ..) (by decide))
      exact Touches.refl _
    · exact Touches.refl _

theorem takeCodebook_touch (s : State) (slot : Nat) :
    Touches [.rings, .parts, .mem, .bpm, .alarms, .tu, .out, .freeIx] s (takeCodebook s slot).2 := by
  unfold takeCodebook
  split
  · refine Touches.snd ?_
    exact Touches.refl _
  · refine Touches.trans ?_ (Touches.sub (bpmAlloc_touch ..) (by decide))
    exact Touches.refl _

theorem takeRing_touch (s : State) (slot : Nat) :
    Touches [.rings, .streams, .parts, .mem, .bpm, .alarms, .tu, .out, .freeIx] s (takeRing s slot) := by
  unfold takeRing
  try conv => arg 3; zeta
  split
  · exact Touches.refl _
  · split
    · rename_i v0 v1 e2
      have hv1 : Touches [.rings, .streams, .parts, .mem, .bpm, .alarms, .tu, .out, .freeIx] s v1 := by
        refine Touches.pair e2 ?_
        refine Touches.trans ?_ (Touches.sub (allocMany_touch ..) (by decide))
        exact Touches.refl _
      refine Touches.trans ?_ (Touches.sub (State.updStream_touch ..) (by decide))
      exact hv1

theorem freeOldCfg_touch (s : State) :
    Touches [.moult] s (freeOldCfg s) := by
  unfold freeOldCfg
  try conv => arg 3; zeta
  refine Touches.ofMk ?_ kp kp kp kp kp ch kp kp kp kp kp kp kp kp kp kp kp kp kp kp kp kp kp kp kp kp kp kp kp kp kp kp kp kp kp kp kp kp kp
  exact Touches.refl _

theorem freeBands_touch (s : State) (fid : Nat) :
    Touches [.rings, .streams, .frames, .parts, .bpm, .alarms, .tu, .out, .freeIx] s (freeBands s fid) := by
  unfold freeBands
  try conv => arg 3; zeta
  refine Touches.trans ?_ (Touches.sub (State.updDec_touch ..) (by decide))
  refine Touches.trans ?_ (Touches.sub (State.updFrame_touch ..) (by decide))
  refine Touches.trans ?_ (Touches.sub (releaseAll_touch ..) (by decide))
  exact Touches.refl _

theorem freeWork_touch (s : State) (fid : Nat) :
    Touches [.rings, .frames, .parts, .bpm, .alarms, .tu, .out, .freeIx] s (freeWork s fid) := by
  unfold freeWork
  try conv => arg 3; zeta
  refine Touches.trans ?_ (Touches.sub (State.updFrame_touch ..) (by decide))
  split
  · exact Touches.refl _
  · refine Touches.trans ?_ (Touches.sub (bpmRelease_touch ..) (by decide))
    exact Touches.refl _

theorem sweepFrames_touch (x0 : List Nat) (x1 : State) :
    Touches [.rings, .streams, .frames, .parts, .bpm, .alarms, .tu, .out, .freeIx] x1 (sweepFrames x0 x1) := by
  induction x0 generalizing x1 with
  | nil =>
    rw [sweepFrames]
    exact Touches.refl _
  | cons a t ih =>
    rw [sweepFrames]
    refine Touches.trans ?_ (ih ..)
    refine Touches.ite ?_ ?_
    · refine Touches.trans ?_ (Touches.sub (freeWork_touch ..) (by decide))
      refine Touches.ite ?_ ?_
      · refine Touches.trans ?_ (Touches.sub (freeBands_touch ..) (by decide))
        exact Touches.refl _
      · exact Touches.refl _
    · refine Touches.ite ?_ ?_
      · refine Touches.trans ?_ (Touches.sub (freeBands_touch ..) (by decide))
        exact Touches.refl _
      · exact Touches.refl _

theorem sweepSlot_touch (s : State) (slot : Nat) :
    Touches [.moult, .rings, .streams, .frames, .parts, .bpm, .alarms, .tu, .out, .freeIx] s (sweepSlot s slot) := by
  unfold sweepSlot
  try conv => arg 3; zeta
  refine Touches.ofMk ?_ kp kp kp kp kp kp kp kp kp kp kp kp kp kp ch kp kp kp kp kp kp kp kp kp kp kp kp kp kp kp kp kp kp kp kp kp kp kp kp
  refine Touches.trans ?_ (Touches.sub (freeOldCfg_touch ..) (by decide))
  refine Touches.trans ?_ (Touches.sub (sweepFrames_touch ..) (by decide))
  exact Touches.refl _

theorem batchDrop_touch (s : State) (b : Nat) :
    Touches [.batches, .parts, .regions] s (batchDrop s b) := by
  unfold batchDrop
  try conv => arg 3; zeta
  split
  · exact Touches.refl _
  · refine Touches.ofMk ?_ kp kp kp kp kp kp kp kp kp kp kp kp kp kp kp kp kp kp kp kp kp ch kp kp kp kp kp kp kp kp kp kp kp kp kp kp kp kp kp
    refine Touches.trans ?_ (Touches.sub (State.updPart_touch ..) (by decide))
    refine Touches.ofMk ?_ kp kp kp kp kp kp kp kp kp kp kp kp kp kp kp kp kp kp ch kp kp kp kp kp kp kp kp kp kp kp kp kp kp kp kp kp kp kp kp
    exact Touches.refl _

theorem batchWithdraw_touch (s : State) (fid : Nat) (b : Nat) :
    Touches [.batches, .parts, .regions] s (batchWithdraw s fid b) := by
  unfold batchWithdraw
  try conv => arg 3; zeta
  split
  · refine Touches.trans ?_ (Touches.sub (State.updBatch_touch ..) (by decide))
    exact Touches.refl _
  · refine Touches.ite ?_ ?_
    · refine Touches.trans ?_ (Touches.sub (State.updBatch_touch ..) (by decide))
      exact Touches.refl _
    · refine Touches.trans ?_ (Touches.sub (batchDrop_touch ..) (by decide))
      refine Touches.trans ?_ (Touches.sub (State.updBatch_touch ..) (by decide))
      exact Touches.refl _

theorem frameUnqueue_touch (s : State) (fid : Nat) :
    Touches [.streams, .resamplers, .relq] s (frameUnqueue s fid) := by
  unfold frameUnqueue
  try conv => arg 3; zeta
  refine Touches.ofMk ?_ kp kp kp kp kp kp kp kp kp kp kp kp kp kp kp kp ch ch kp kp kp kp kp kp kp kp kp kp kp kp kp kp kp kp kp kp kp kp kp
  refine Touches.trans ?_ (Touches.sub (State.updDec_touch ..) (by decide))
  exact Touches.refl _

theorem freeIngress_touch (s : State) (fid : Nat) :
    Touches [.rings, .frames, .parts, .bpm, .alarms, .tu, .out, .freeIx] s (freeIngress s fid) := by
  unfold freeIngress
  try conv => arg 3; zeta
  refine Touches.trans ?_ (Touches.sub (releaseAll_touch ..) (by decide))
  refine Touches.trans ?_ (Touches.sub (State.updFrame_touch ..) (by decide))
  exact Touches.refl _

theorem purgeHeld_touch (s : State) (fid : Nat) : Touches [.rings] s (purgeHeld s fid) := by
  refine ⟨fun p hp => ?_⟩
  cases p <;> first
    | rfl
    | exact absurd (by decide) hp
    | skip
  intro k
  show fnCore (mget (purgeHeld s fid).fns k) = _
  unfold purgeHeld
  rw [mget_mmap _ _ _ rfl]
  rfl

theorem sweepSlots_touch (x0 : List Nat) (x1 : State) :
    Touches [.moult, .rings, .streams, .frames, .parts, .bpm, .alarms, .tu, .out, .freeIx] x1 (sweepSlots x0 x1) := by
  induction x0 generalizing x1 with
  | nil =>
    rw [sweepSlots]
    exact Touches.refl _
  | cons a t ih =>
    rw [sweepSlots]
    refine Touches.trans ?_ (ih ..)
    refine Touches.trans ?_ (Touches.sub (sweepSlot_touch ..) (by decide))
    exact Touches.refl _

theorem discardFrame_touch (s : State) (fid : Nat) (cause : Nat) :
    Touches [.moult, .rings, .streams, .frames, .resamplers, .relq, .batches, .parts, .regions, .mem, .bpm, .store, .alarms, .tu, .out, .freeIx] s (discardFrame s fid cause) := by
  unfold discardFrame
  try conv => arg 3; zeta
  split
  · exact Touches.refl _
  · refine Touches.ite ?_ ?_
    · exact Touches.refl _
    · refine Touches.trans ?_ (Touches.sub (sweepSlots_touch ..) (by decide))
      refine Touches.trans ?_ (Touches.sub (freeWork_touch ..) (by decide))
      refine Touches.trans ?_ (Touches.sub (freeIngress_touch ..) (by decide))
      split
      · refine Touches.trans ?_ (Touches.sub (purgeHeld_touch ..) (by decide))
        refine Touches.trans ?_ (Touches.sub (frameUnqueue_touch ..) (by decide))
        refine Touches.trans ?_ (Touches.sub (ledgerWrite_touch ..) (by decide))
        refine Touches.trans ?_ (Touches.sub (State.updFrame_touch ..) (by decide))
        refine Touches.trans ?_ (Touches.sub (markAbsent_touch ..) (by decide))
        exact Touches.refl _
      · refine Touches.trans ?_ (Touches.sub (batchWithdraw_touch ..) (by decide))
        refine Touches.trans ?_ (Touches.sub (purgeHeld_touch ..) (by decide))
        refine Touches.trans ?_ (Touches.sub (frameUnqueue_touch ..) (by decide))
        refine Touches.trans ?_ (Touches.sub (ledgerWrite_touch ..) (by decide))
        refine Touches.trans ?_ (Touches.sub (State.updFrame_touch ..) (by decide))
        refine Touches.trans ?_ (Touches.sub (markAbsent_touch ..) (by decide))
        exact Touches.refl _

theorem engineTake_touch (s : State) (slot : Nat) (g : Nat) :
    Touches [.rings, .streams, .parts, .mem, .bpm, .alarms, .tu, .out, .freeIx] s (engineTake s slot g) := by
  unfold engineTake
  try conv => arg 3; zeta
  refine Touches.ite ?_ ?_
  · refine Touches.trans ?_ (Touches.sub (State.updDec_touch ..) (by decide))
    exact Touches.refl _
  · split
    · exact Touches.refl _
    · split
      · rename_i v0 v1 e2
        have hv1 : Touches [.rings, .streams, .parts, .mem, .bpm, .alarms, .tu, .out, .freeIx] s v1 := by
          refine Touches.pair e2 ?_
          refine Touches.trans ?_ (Touches.sub (bpmAlloc_touch ..) (by decide))
          exact Touches.refl _
        refine Touches.trans ?_ (Touches.sub (State.updDec_touch ..) (by decide))
        exact hv1
      · rename_i v3 e4
        have hv3 : Touches [.rings, .streams, .parts, .mem, .bpm, .alarms, .tu, .out, .freeIx] s v3 := by
          refine Touches.pair e4 ?_
          refine Touches.trans ?_ (Touches.sub (bpmAlloc_touch ..) (by decide))
          exact Touches.refl _
        exact hv3

theorem engineAssign_touch (s : State) (slot : Nat) :
    Touches [.rings, .streams, .parts, .mem, .bpm, .alarms, .tu, .out, .freeIx] s (engineAssign s slot) := by
  unfold engineAssign
  refine Touches.ite ?_ ?_
  · exact Touches.refl _
  · split
    · refine Touches.trans ?_ (Touches.sub (engineTake_touch ..) (by decide))
      exact Touches.refl _
    · split
      · refine Touches.trans ?_ (Touches.sub (engineTake_touch ..) (by decide))
        exact Touches.refl _
      · exact Touches.refl _

theorem engineAssignAll_touch (x0 : List Nat) (x1 : State) :
    Touches [.rings, .streams, .parts, .mem, .bpm, .alarms, .tu, .out, .freeIx] x1 (engineAssignAll x0 x1) := by
  induction x0 generalizing x1 with
  | nil =>
    rw [engineAssignAll]
    exact Touches.refl _
  | cons a t ih =>
    rw [engineAssignAll]
    refine Touches.trans ?_ (ih ..)
    refine Touches.ite ?_ ?_
    · refine Touches.trans ?_ (Touches.sub (engineAssign_touch ..) (by decide))
      exact Touches.refl _
    · exact Touches.refl _

theorem execBpmFree_touch (who : Requester) (addr : Nat) (s : State) :
    ∃ u, execBpmFree who addr s = .next u ∧ Touches [.rings, .streams, .parts, .mem, .bpm, .alarms, .tu, .out, .freeIx] s u := by
  unfold execBpmFree
  refine Touches.done ?_
  refine Touches.trans ?_ (Touches.sub (engineAssignAll_touch ..) (by decide))
  refine Touches.trans ?_ (Touches.sub (bpmRelease_touch ..) (by decide))
  exact Touches.refl _

theorem decCount_touch (s : State) (slot : Nat) (k : Nat) (n : Nat) :
    Touches [.streams] s (decCount s slot k n) := by
  unfold decCount
  refine Touches.trans ?_ (Touches.sub (State.updDec_touch ..) (by decide))
  exact Touches.refl _

theorem auHold_touch (slot : Nat) (s : State) (fid : Nat) :
    Touches [.moult, .rings, .streams, .frames, .resamplers, .relq, .batches, .parts, .regions, .mem, .bpm, .store, .alarms, .tu, .out, .freeIx] s (auHold slot s fid) := by
  unfold auHold
  try conv => arg 3; zeta
  refine Touches.ite ?_ ?_
  · refine Touches.trans ?_ (Touches.sub (State.updDec_touch ..) (by decide))
    exact Touches.refl _
  · refine Touches.ite ?_ ?_
    · refine Touches.trans ?_ (Touches.sub (decCount_touch ..) (by decide))
      refine Touches.trans ?_ (Touches.sub (discardFrame_touch ..) (by decide))
      refine Touches.trans ?_ (Touches.sub (State.updDec_touch ..) (by decide))
      exact Touches.refl _
    · refine Touches.trans ?_ (Touches.sub (State.updDec_touch ..) (by decide))
      exact Touches.refl _

theorem discardFrames_touch (cause : Nat) (x1 : List Nat) (x2 : State) :
    Touches [.moult, .rings, .streams, .frames, .resamplers, .relq, .batches, .parts, .regions, .mem, .bpm, .store, .alarms, .tu, .out, .freeIx] x2 (discardFrames cause x1 x2) := by
  induction x1 generalizing x2 with
  | nil =>
    rw [discardFrames]
    exact Touches.refl _
  | cons a t ih =>
    rw [discardFrames]
    refine Touches.trans ?_ (ih ..)
    refine Touches.trans ?_ (Touches.sub (discardFrame_touch ..) (by decide))
    exact Touches.refl _

theorem dropFrames_touch (s : State) (slot : Nat) (cause : Nat) :
    Touches [.moult, .rings, .streams, .frames, .resamplers, .relq, .batches, .parts, .regions, .mem, .bpm, .store, .alarms, .tu, .out, .freeIx] s (dropFrames s slot cause) := by
  unfold dropFrames
  try conv => arg 3; zeta
  refine Touches.ofMk ?_ kp kp kp kp kp kp kp kp kp kp kp kp kp kp ch kp kp kp kp kp kp kp kp kp kp kp kp kp kp kp kp kp kp kp kp kp kp kp kp
  refine Touches.foldl (fun y0 _ => ?_) ?_ _
  · refine Touches.ite ?_ ?_
    · refine Touches.trans ?_ (Touches.sub (freeWork_touch ..) (by decide))
      refine Touches.trans ?_ (Touches.sub (freeBands_touch ..) (by decide))
      exact Touches.refl _
    · exact Touches.refl _
  · refine Touches.ofMk ?_ kp kp kp kp kp kp kp kp kp kp kp kp kp kp ch kp kp kp kp kp kp kp kp kp kp kp kp kp kp kp kp kp kp kp kp kp kp kp kp
    refine Touches.trans ?_ (Touches.sub (discardFrames_touch ..) (by decide))
    exact Touches.refl _

theorem mapCount_touch (s : State) (p : Nat) (k : Nat) (n : Nat) :
    Touches [.parts] s (mapCount s p k n) := by
  unfold mapCount
  refine Touches.trans ?_ (Touches.sub (State.updPart_touch ..) (by decide))
  exact Touches.refl _

theorem shadowDrop_touch (s : State) (cx : Nat) :
    Touches [.parts, .regions] s (shadowDrop s cx) := by
  unfold shadowDrop
  try conv => arg 3; zeta
  refine Touches.trans ?_ (Touches.sub (mapCount_touch ..) (by decide))
  refine Touches.ofMk ?_ kp kp kp kp kp kp kp kp kp kp kp kp kp kp kp kp kp kp kp kp kp ch kp kp kp kp kp kp kp kp kp kp kp kp kp kp kp kp kp
  exact Touches.refl _

theorem shadowDropStream_touch (s : State) (slot : Nat) :
    Touches [.parts, .regions] s (shadowDropStream s slot) := by
  unfold shadowDropStream
  refine Touches.foldl (fun y0 _ => ?_) ?_ _
  · refine Touches.trans ?_ (Touches.sub (shadowDrop_touch ..) (by decide))
    exact Touches.refl _
  · exact Touches.refl _

theorem engineDrop_touch (s : State) (slot : Nat) :
    Touches [.rings, .streams, .engines, .parts, .bpm, .alarms, .tu, .out, .freeIx] s (engineDrop s slot) := by
  unfold engineDrop
  try conv => arg 3; zeta
  refine Touches.trans ?_ (Touches.sub (State.updDec_touch ..) (by decide))
  split
  · split
    · exact Touches.refl _
    · refine Touches.trans ?_ (Touches.sub (bpmRelease_touch ..) (by decide))
      exact Touches.refl _
  · refine Touches.ofMk ?_ kp kp kp kp kp kp kp kp kp kp kp kp kp kp kp ch kp kp kp kp kp kp kp kp kp kp kp kp kp kp kp kp kp kp kp kp kp kp kp
    split
    · exact Touches.refl _
    · refine Touches.trans ?_ (Touches.sub (bpmRelease_touch ..) (by decide))
      exact Touches.refl _

theorem decLog_touch (s : State) (slot : Nat) :
    Touches [.rings, .streams, .alarms, .tu, .out, .freeIx] s (decLog s slot) := by
  unfold decLog
  try conv => arg 3; zeta
  refine Touches.ite ?_ ?_
  · refine Touches.trans ?_ (Touches.sub (raiseLogOf_touch ..) (by decide))
    refine Touches.trans ?_ (Touches.sub (State.updDec_touch ..) (by decide))
    exact Touches.refl _
  · exact Touches.refl _

theorem dropOpenAu_touch (s : State) (slot : Nat) :
    Touches [.rings, .streams, .parts, .bpm, .alarms, .tu, .out, .freeIx] s (dropOpenAu s slot) := by
  unfold dropOpenAu
  split
  · exact Touches.refl _
  · refine Touches.trans ?_ (Touches.sub (releaseAll_touch ..) (by decide))
    refine Touches.trans ?_ (Touches.sub (State.updIng_touch ..) (by decide))
    exact Touches.refl _

theorem alignDecide_touch (s : State) (fid : Nat) :
    Touches [.frames, .out] s (alignDecide s fid) := by
  unfold alignDecide
  try conv => arg 3; zeta
  refine Touches.trans ?_ (Touches.sub (frameStage_touch ..) (by decide))
  refine Touches.trans ?_ (Touches.sub (State.updFrame_touch ..) (by decide))
  exact Touches.refl _

theorem useIpId_touch (s : State) (np : Nat) (dst : Nat) :
    Touches [.nps] s (useIpId s np dst) := by
  unfold useIpId
  refine Touches.ite ?_ ?_
  · refine Touches.trans ?_ (Touches.sub (State.updNp_touch ..) (by decide))
    exact Touches.refl _
  · exact Touches.refl _

theorem streamAssign_touch (s : State) (slot : Nat) : Touches [.rings, .streams, .parts, .mem, .bpm, .store, .alarms, .tu, .out, .freeIx] s (streamAssign s slot) := by
  unfold streamAssign
  try conv => arg 3; zeta
  have h0 : Touches [.rings, .streams, .parts, .mem, .bpm, .store, .alarms, .tu, .out, .freeIx] s (engineAssign s slot) := Touches.sub (engineAssign_touch ..) (by decide)
  have h1 : Touches [.rings, .streams, .parts, .mem, .bpm, .store, .alarms, .tu, .out, .freeIx] s (if (State.stream (engineAssign s slot) slot).kvRing.isEmpty = true then takeRing (engineAssign s slot) slot
      else engineAssign s slot) :=
    Touches.ite (h0.trans (Touches.sub (takeRing_touch ..) (by decide))) h0
  generalize (if (State.stream (engineAssign s slot) slot).kvRing.isEmpty = true then takeRing (engineAssign s slot) slot
      else engineAssign s slot) = x at h1 ⊢
  split
  rename_i cb y e
  have h2 : Touches [.rings, .streams, .parts, .mem, .bpm, .store, .alarms, .tu, .out, .freeIx] s y :=
    Touches.pair e (Touches.itePair h1 (h1.trans (Touches.sub (takeCodebook_touch ..) (by decide))))
  refine Touches.trans ?_ (Touches.sub (writeRun_touch ..) (by decide))
  refine Touches.trans ?_ (Touches.sub (State.updStream_touch ..) (by decide))
  exact Touches.ite (h2.trans (Touches.sub (takeRun_touch ..) (by decide))) h2

theorem streamGoLive_touch (s : State) (slot : Nat) :
    Touches [.rings, .streams, .parts, .mem, .bpm, .store, .alarms, .tu, .out, .freeIx] s (streamGoLive s slot) := by
  unfold streamGoLive
  try conv => arg 3; zeta
  refine Touches.trans ?_ (Touches.sub (State.updStream_touch ..) (by decide))
  refine Touches.trans ?_ (Touches.sub (streamAssign_touch ..) (by decide))
  exact Touches.refl _

theorem alignTry_touch (s : State) (fid : Nat) :
    Touches [.frames, .out] s (alignTry s fid) := by
  unfold alignTry
  try conv => arg 3; zeta
  refine Touches.ite ?_ ?_
  · exact Touches.refl _
  · split
    · refine Touches.ite ?_ ?_
      · refine Touches.trans ?_ (Touches.sub (alignDecide_touch ..) (by decide))
        exact Touches.refl _
      · exact Touches.refl _
    · refine Touches.trans ?_ (Touches.sub (alignDecide_touch ..) (by decide))
      exact Touches.refl _

theorem alignTries_touch (x0 : List Nat) (x1 : State) :
    Touches [.frames, .out] x1 (alignTries x0 x1) := by
  induction x0 generalizing x1 with
  | nil =>
    rw [alignTries]
    exact Touches.refl _
  | cons a t ih =>
    rw [alignTries]
    refine Touches.trans ?_ (ih ..)
    refine Touches.trans ?_ (Touches.sub (alignTry_touch ..) (by decide))
    exact Touches.refl _

theorem rollback_touch (s : State) (slot : Nat) :
    Touches [.streams, .frames] s (rollback s slot) := by
  unfold rollback
  try conv => arg 3; zeta
  refine Touches.trans ?_ (Touches.sub (decCount_touch ..) (by decide))
  refine Touches.trans ?_ (Touches.sub (State.updDec_touch ..) (by decide))
  refine Touches.ofMk ?_ kp kp kp kp kp kp kp kp kp kp kp kp kp kp ch kp kp kp kp kp kp kp kp kp kp kp kp kp kp kp kp kp kp kp kp kp kp kp kp
  exact Touches.refl _

theorem leaveGroup_touch (s : State) (slot : Nat) :
    Touches [.nps, .out] s (leaveGroup s slot) := by
  unfold leaveGroup
  try conv => arg 3; zeta
  refine Touches.ite ?_ ?_
  · exact Touches.refl _
  · refine Touches.ite ?_ ?_
    · refine Touches.trans ?_ (Touches.sub (emit_touch ..) (by decide))
      refine Touches.trans ?_ (Touches.sub (useIpId_touch ..) (by decide))
      exact Touches.refl _
    · refine Touches.ite ?_ ?_
      · exact Touches.refl _
      · refine Touches.ite ?_ ?_
        · refine Touches.trans ?_ (Touches.sub (emit_touch ..) (by decide))
          refine Touches.trans ?_ (Touches.sub (useIpId_touch ..) (by decide))
          exact Touches.refl _
        · refine Touches.ite ?_ ?_
          · exact Touches.refl _
          · refine Touches.trans ?_ (Touches.sub (emit_touch ..) (by decide))
            refine Touches.trans ?_ (Touches.sub (useIpId_touch ..) (by decide))
            exact Touches.refl _

theorem purgeSlot_touch (s : State) (slot : Nat) : Touches [.rings, .nps] s (purgeSlot s slot) := by
  refine ⟨fun p hp => ?_⟩
  cases p <;> first
    | rfl
    | exact absurd (by decide) hp
    | skip
  intro k
  show fnCore (mget (purgeSlot s slot).fns k) = _
  unfold purgeSlot
  rw [mget_mmap _ _ _ rfl]
  rfl

theorem streamRemove_touch (s : State) (slot : Nat) (cause : Nat) :
    Touches [.moult, .rings, .nps, .streams, .frames, .engines, .resamplers, .relq, .batches, .parts, .regions, .mem, .bpm, .store, .alarms, .tu, .out, .freeIx] s (streamRemove s slot cause) := by
  unfold streamRemove
  try conv => arg 3; zeta
  refine Touches.trans ?_ (Touches.sub (alignTries_touch ..) (by decide))
  refine Touches.trans ?_ (Touches.sub (engineAssignAll_touch ..) (by decide))
  refine Touches.ofMk ?_ kp kp kp kp kp kp kp kp kp kp kp kp kp ch kp kp kp kp kp kp kp kp kp kp kp kp kp kp kp kp kp kp kp kp kp kp kp kp kp
  refine Touches.trans ?_ (Touches.sub (engineDrop_touch ..) (by decide))
  refine Touches.ite ?_ ?_
  · refine Touches.trans ?_ (Touches.sub (bpmRelease_touch ..) (by decide))
    refine Touches.trans ?_ (Touches.sub (releaseAll_touch ..) (by decide))
    refine Touches.trans ?_ (Touches.sub (dropOpenAu_touch ..) (by decide))
    refine Touches.trans ?_ (Touches.sub (purgeSlot_touch ..) (by decide))
    refine Touches.trans ?_ (Touches.sub (dropFrames_touch ..) (by decide))
    refine Touches.trans ?_ (Touches.sub (shadowDropStream_touch ..) (by decide))
    refine Touches.trans ?_ (Touches.sub (leaveGroup_touch ..) (by decide))
    exact Touches.refl _
  · refine Touches.trans ?_ (Touches.sub (releaseAll_touch ..) (by decide))
    refine Touches.trans ?_ (Touches.sub (dropOpenAu_touch ..) (by decide))
    refine Touches.trans ?_ (Touches.sub (purgeSlot_touch ..) (by decide))
    refine Touches.trans ?_ (Touches.sub (dropFrames_touch ..) (by decide))
    refine Touches.trans ?_ (Touches.sub (shadowDropStream_touch ..) (by decide))
    refine Touches.trans ?_ (Touches.sub (leaveGroup_touch ..) (by decide))
    exact Touches.refl _

theorem alignGroup_touch (s : State) (slot : Nat) :
    Touches [.frames, .out] s (alignGroup s slot) := by
  unfold alignGroup
  refine Touches.trans ?_ (Touches.sub (alignTries_touch ..) (by decide))
  exact Touches.refl _

theorem reportGroup_touch (s : State) (e : Bytes) (stateChange : Bool) :
    Touches [.nps, .out] s (reportGroup s e stateChange) := by
  unfold reportGroup
  try conv => arg 3; zeta
  refine Touches.trans ?_ (Touches.sub (emit_touch ..) (by decide))
  refine Touches.trans ?_ (Touches.sub (useIpId_touch ..) (by decide))
  exact Touches.refl _

theorem rebuildRing_touch (s : State) (slot : Nat) :
    Touches [.rings, .streams, .parts, .mem, .bpm, .store, .alarms, .tu, .out, .freeIx] s (rebuildRing s slot) := by
  unfold rebuildRing
  try conv => arg 3; zeta
  refine Touches.trans ?_ (Touches.sub (recSet_touch ..) (by decide))
  refine Touches.foldl (fun y0 _ => ?_) ?_ _
  · refine Touches.trans ?_ (Touches.sub (recSet_touch ..) (by decide))
    exact Touches.refl _
  · refine Touches.trans ?_ (Touches.sub (takeRing_touch ..) (by decide))
    refine Touches.trans ?_ (Touches.sub (releaseAll_touch ..) (by decide))
    refine Touches.trans ?_ (Touches.sub (State.updStream_touch ..) (by decide))
    exact Touches.refl _

theorem moultFinish_touch (s : State) :
    Touches [.scu, .moult, .rings] s (moultFinish s) := by
  unfold moultFinish
  try conv => arg 3; zeta
  refine Touches.ite ?_ ?_
  · refine Touches.trans ?_ (Touches.sub (freeOldCfg_touch ..) (by decide))
    refine Touches.trans ?_ (Touches.sub (raiseIrq_touch ..) (by decide))
    refine Touches.ofMk ?_ kp kp ch kp kp ch kp kp kp kp kp kp kp kp kp kp kp kp kp kp kp kp kp kp kp kp kp kp kp kp kp kp kp kp kp kp kp kp kp
    exact Touches.refl _
  · exact Touches.refl _

theorem switchTables_touch (s : State) (slot : Nat) (c0 : Sections) (e0 : Bytes) :
    Touches [.streams] s (switchTables s slot c0 e0) := by
  unfold switchTables
  try conv => arg 3; zeta
  refine Touches.trans ?_ (Touches.sub (State.updStream_touch ..) (by decide))
  exact Touches.refl _

theorem switchCodebook_touch (s : State) (slot : Nat) :
    Touches [.streams, .mem, .store] s (switchCodebook s slot) := by
  unfold switchCodebook
  try conv => arg 3; zeta
  refine Touches.trans ?_ (Touches.sub (recSet_touch ..) (by decide))
  refine Touches.trans ?_ (Touches.sub (State.updStream_touch ..) (by decide))
  exact Touches.refl _

theorem joinReport_touch (s : State) (slot : Nat) :
    Touches [.nps, .streams, .out] s (joinReport s slot) := by
  unfold joinReport
  try conv => arg 3; zeta
  refine Touches.ite ?_ ?_
  · refine Touches.trans ?_ (Touches.sub (State.updIng_touch ..) (by decide))
    refine Touches.trans ?_ (Touches.sub (reportGroup_touch ..) (by decide))
    exact Touches.refl _
  · exact Touches.refl _

theorem streamAdd_touch (s : State) (slot : Nat) (seq : Nat) :
    Touches [.rings, .nps, .streams, .parts, .mem, .bpm, .store, .alarms, .tu, .out, .freeIx] s (streamAdd s slot seq) := by
  unfold streamAdd
  try conv => arg 3; zeta
  refine Touches.ite ?_ ?_
  · refine Touches.trans ?_ (Touches.sub (State.updStream_touch ..) (by decide))
    refine Touches.trans ?_ (Touches.sub (State.updStream_touch ..) (by decide))
    exact Touches.refl _
  · refine Touches.ite ?_ ?_
    · refine Touches.trans ?_ (Touches.sub (joinReport_touch ..) (by decide))
      refine Touches.trans ?_ (Touches.sub (streamGoLive_touch ..) (by decide))
      refine Touches.trans ?_ (Touches.sub (State.updStream_touch ..) (by decide))
      exact Touches.refl _
    · refine Touches.trans ?_ (Touches.sub (streamAssign_touch ..) (by decide))
      refine Touches.trans ?_ (Touches.sub (State.updStream_touch ..) (by decide))
      exact Touches.refl _

theorem writeTables_touch (s : State) (slot : Nat) :
    Touches [.streams, .mem, .store] s (writeTables s slot) := by
  unfold writeTables
  try conv => arg 3; zeta
  refine Touches.foldl (fun y0 _ => ?_) ?_ _
  · refine Touches.ite ?_ ?_
    · exact Touches.refl _
    · refine Touches.trans ?_ (Touches.sub (storeWrite_touch ..) (by decide))
      exact Touches.refl _
  · exact Touches.refl _

theorem rebuildRun_touch (s : State) (slot : Nat) (sr : Bytes) (ts : List Bytes) :
    Touches [.rings, .streams, .parts, .mem, .bpm, .store, .alarms, .tu, .out, .freeIx] s (rebuildRun s slot sr ts) := by
  unfold rebuildRun
  try conv => arg 3; zeta
  refine Touches.trans ?_ (Touches.sub (ctxCount_touch ..) (by decide))
  refine Touches.foldl (fun y0 _ => ?_) ?_ _
  · refine Touches.trans ?_ (Touches.sub (storeWrite_touch ..) (by decide))
    exact Touches.refl _
  · refine Touches.trans ?_ (Touches.sub (storeWrite_touch ..) (by decide))
    refine Touches.trans ?_ (Touches.sub (recPut_touch ..) (by decide))
    refine Touches.trans ?_ (Touches.sub (State.updStream_touch ..) (by decide))
    refine Touches.trans ?_ (Touches.sub (writeRun_touch ..) (by decide))
    refine Touches.trans ?_ (Touches.sub (takeRing_touch ..) (by decide))
    refine Touches.trans ?_ (Touches.sub (releaseAll_touch ..) (by decide))
    refine Touches.trans ?_ (Touches.sub (State.updStream_touch ..) (by decide))
    exact Touches.refl _

theorem resvRelease_touch (s : State) (slot : Nat) :
    Touches [.moult] s (resvRelease s slot) := by
  unfold resvRelease
  try conv => arg 3; zeta
  refine Touches.ofMk ?_ kp kp kp kp kp ch kp kp kp kp kp kp kp kp kp kp kp kp kp kp kp kp kp kp kp kp kp kp kp kp kp kp kp kp kp kp kp kp kp
  exact Touches.refl _

theorem moultAdd_touch (s : State) (slot seq : Nat) (t : State) (h : moultAdd s slot seq = some t) : Touches [.moult, .rings, .nps, .streams, .parts, .mem, .bpm, .store, .alarms, .tu, .out, .freeIx] s t := by
  unfold moultAdd at h
  extract_lets u at h
  have hu : Touches [.moult, .rings, .nps, .streams, .parts, .mem, .bpm, .store, .alarms, .tu, .out, .freeIx] s u := Touches.sub (resvRelease_touch ..) (by decide)
  clear_value u
  split at h
  · cases h
    exact hu.trans (Touches.sub (streamAdd_touch ..) (by decide))
  · split at h
    · cases h
    · cases h
      refine Touches.trans ?_ (Touches.sub (streamAdd_touch ..) (by decide))
      refine Touches.trans ?_ (Touches.sub (recPut_touch ..) (by decide))
      exact hu.trans (Touches.sub (State.updStream_touch ..) (by decide))

theorem moultLater_touch (s : State) (slot : Nat) :
    Touches [.moult] s (moultLater s slot) := by
  unfold moultLater
  try conv => arg 3; zeta
  refine Touches.ofMk ?_ kp kp kp kp kp ch kp kp kp kp kp kp kp kp kp kp kp kp kp kp kp kp kp kp kp kp kp kp kp kp kp kp kp kp kp kp kp kp kp
  exact Touches.refl _

theorem moultAdds_touch (seq : Nat) (x1 : List Nat) (x2 : State) :
    Touches [.moult, .rings, .nps, .streams, .parts, .mem, .bpm, .store, .alarms, .tu, .out, .freeIx] x2 (moultAdds seq x1 x2) := by
  induction x1 generalizing x2 with
  | nil =>
    rw [moultAdds]
    exact Touches.refl _
  | cons a t ih =>
    rw [moultAdds]
    try conv => arg 3; zeta
    refine Touches.trans ?_ (ih ..)
    split
    · exact Touches.refl _
    · rename_i v0 e1
      have hv0 : Touches [.moult, .rings, .nps, .streams, .parts, .mem, .bpm, .store, .alarms, .tu, .out, .freeIx] x2 v0 := by
        refine Touches.trans ?_ (Touches.sub (moultAdd_touch _ _ _ _ e1) (by decide))
        exact Touches.refl _
      refine Touches.ofMk ?_ kp kp kp kp kp ch kp kp kp kp kp kp kp kp kp kp kp kp kp kp kp kp kp kp kp kp kp kp kp kp kp kp kp kp kp kp kp kp kp
      exact hv0

theorem switchContinue_touch (s : State) (slot : Nat) (seq : Nat) :
    Touches [.rings, .streams, .frames, .parts, .mem, .bpm, .store, .alarms, .tu, .out, .freeIx] s (switchContinue s slot seq) := by
  unfold switchContinue
  try conv => arg 3; zeta
  refine Touches.trans ?_ (Touches.sub (rollback_touch ..) (by decide))
  refine Touches.ite ?_ ?_
  · refine Touches.ite ?_ ?_
    · refine Touches.trans ?_ (Touches.sub (switchCodebook_touch ..) (by decide))
      refine Touches.ite ?_ ?_
      · refine Touches.trans ?_ (Touches.sub (adapterReset_touch ..) (by decide))
        refine Touches.ite ?_ ?_
        · refine Touches.trans ?_ (Touches.sub (rebuildRun_touch ..) (by decide))
          refine Touches.trans ?_ (Touches.sub (switchTables_touch ..) (by decide))
          refine Touches.trans ?_ (Touches.sub (State.updStream_touch ..) (by decide))
          exact Touches.refl _
        · refine Touches.ite ?_ ?_
          · refine Touches.trans ?_ (Touches.sub (rebuildRing_touch ..) (by decide))
            refine Touches.trans ?_ (Touches.sub (writeTables_touch ..) (by decide))
            refine Touches.trans ?_ (Touches.sub (switchTables_touch ..) (by decide))
            refine Touches.trans ?_ (Touches.sub (State.updStream_touch ..) (by decide))
            exact Touches.refl _
          · refine Touches.trans ?_ (Touches.sub (writeTables_touch ..) (by decide))
            refine Touches.trans ?_ (Touches.sub (switchTables_touch ..) (by decide))
            refine Touches.trans ?_ (Touches.sub (State.updStream_touch ..) (by decide))
            exact Touches.refl _
      · refine Touches.ite ?_ ?_
        · refine Touches.trans ?_ (Touches.sub (rebuildRun_touch ..) (by decide))
          refine Touches.trans ?_ (Touches.sub (switchTables_touch ..) (by decide))
          refine Touches.trans ?_ (Touches.sub (State.updStream_touch ..) (by decide))
          exact Touches.refl _
        · refine Touches.ite ?_ ?_
          · refine Touches.trans ?_ (Touches.sub (rebuildRing_touch ..) (by decide))
            refine Touches.trans ?_ (Touches.sub (writeTables_touch ..) (by decide))
            refine Touches.trans ?_ (Touches.sub (switchTables_touch ..) (by decide))
            refine Touches.trans ?_ (Touches.sub (State.updStream_touch ..) (by decide))
            exact Touches.refl _
          · refine Touches.trans ?_ (Touches.sub (writeTables_touch ..) (by decide))
            refine Touches.trans ?_ (Touches.sub (switchTables_touch ..) (by decide))
            refine Touches.trans ?_ (Touches.sub (State.updStream_touch ..) (by decide))
            exact Touches.refl _
    · refine Touches.ite ?_ ?_
      · refine Touches.trans ?_ (Touches.sub (adapterReset_touch ..) (by decide))
        refine Touches.ite ?_ ?_
        · refine Touches.trans ?_ (Touches.sub (rebuildRun_touch ..) (by decide))
          refine Touches.trans ?_ (Touches.sub (switchTables_touch ..) (by decide))
          refine Touches.trans ?_ (Touches.sub (State.updStream_touch ..) (by decide))
          exact Touches.refl _
        · refine Touches.ite ?_ ?_
          · refine Touches.trans ?_ (Touches.sub (rebuildRing_touch ..) (by decide))
            refine Touches.trans ?_ (Touches.sub (writeTables_touch ..) (by decide))
            refine Touches.trans ?_ (Touches.sub (switchTables_touch ..) (by decide))
            refine Touches.trans ?_ (Touches.sub (State.updStream_touch ..) (by decide))
            exact Touches.refl _
          · refine Touches.trans ?_ (Touches.sub (writeTables_touch ..) (by decide))
            refine Touches.trans ?_ (Touches.sub (switchTables_touch ..) (by decide))
            refine Touches.trans ?_ (Touches.sub (State.updStream_touch ..) (by decide))
            exact Touches.refl _
      · refine Touches.ite ?_ ?_
        · refine Touches.trans ?_ (Touches.sub (rebuildRun_touch ..) (by decide))
          refine Touches.trans ?_ (Touches.sub (switchTables_touch ..) (by decide))
          refine Touches.trans ?_ (Touches.sub (State.updStream_touch ..) (by decide))
          exact Touches.refl _
        · refine Touches.ite ?_ ?_
          · refine Touches.trans ?_ (Touches.sub (rebuildRing_touch ..) (by decide))
            refine Touches.trans ?_ (Touches.sub (writeTables_touch ..) (by decide))
            refine Touches.trans ?_ (Touches.sub (switchTables_touch ..) (by decide))
            refine Touches.trans ?_ (Touches.sub (State.updStream_touch ..) (by decide))
            exact Touches.refl _
          · refine Touches.trans ?_ (Touches.sub (writeTables_touch ..) (by decide))
            refine Touches.trans ?_ (Touches.sub (switchTables_touch ..) (by decide))
            refine Touches.trans ?_ (Touches.sub (State.updStream_touch ..) (by decide))
            exact Touches.refl _
  · refine Touches.trans ?_ (Touches.sub (State.updIng_touch ..) (by decide))
    refine Touches.ite ?_ ?_
    · refine Touches.trans ?_ (Touches.sub (switchCodebook_touch ..) (by decide))
      refine Touches.ite ?_ ?_
      · refine Touches.trans ?_ (Touches.sub (adapterReset_touch ..) (by decide))
        refine Touches.ite ?_ ?_
        · refine Touches.trans ?_ (Touches.sub (rebuildRun_touch ..) (by decide))
          refine Touches.trans ?_ (Touches.sub (switchTables_touch ..) (by decide))
          refine Touches.trans ?_ (Touches.sub (State.updStream_touch ..) (by decide))
          exact Touches.refl _
        · refine Touches.ite ?_ ?_
          · refine Touches.trans ?_ (Touches.sub (rebuildRing_touch ..) (by decide))
            refine Touches.trans ?_ (Touches.sub (writeTables_touch ..) (by decide))
            refine Touches.trans ?_ (Touches.sub (switchTables_touch ..) (by decide))
            refine Touches.trans ?_ (Touches.sub (State.updStream_touch ..) (by decide))
            exact Touches.refl _
          · refine Touches.trans ?_ (Touches.sub (writeTables_touch ..) (by decide))
            refine Touches.trans ?_ (Touches.sub (switchTables_touch ..) (by decide))
            refine Touches.trans ?_ (Touches.sub (State.updStream_touch ..) (by decide))
            exact Touches.refl _
      · refine Touches.ite ?_ ?_
        · refine Touches.trans ?_ (Touches.sub (rebuildRun_touch ..) (by decide))
          refine Touches.trans ?_ (Touches.sub (switchTables_touch ..) (by decide))
          refine Touches.trans ?_ (Touches.sub (State.updStream_touch ..) (by decide))
          exact Touches.refl _
        · refine Touches.ite ?_ ?_
          · refine Touches.trans ?_ (Touches.sub (rebuildRing_touch ..) (by decide))
            refine Touches.trans ?_ (Touches.sub (writeTables_touch ..) (by decide))
            refine Touches.trans ?_ (Touches.sub (switchTables_touch ..) (by decide))
            refine Touches.trans ?_ (Touches.sub (State.updStream_touch ..) (by decide))
            exact Touches.refl _
          · refine Touches.trans ?_ (Touches.sub (writeTables_touch ..) (by decide))
            refine Touches.trans ?_ (Touches.sub (switchTables_touch ..) (by decide))
            refine Touches.trans ?_ (Touches.sub (State.updStream_touch ..) (by decide))
            exact Touches.refl _
    · refine Touches.ite ?_ ?_
      · refine Touches.trans ?_ (Touches.sub (adapterReset_touch ..) (by decide))
        refine Touches.ite ?_ ?_
        · refine Touches.trans ?_ (Touches.sub (rebuildRun_touch ..) (by decide))
          refine Touches.trans ?_ (Touches.sub (switchTables_touch ..) (by decide))
          refine Touches.trans ?_ (Touches.sub (State.updStream_touch ..) (by decide))
          exact Touches.refl _
        · refine Touches.ite ?_ ?_
          · refine Touches.trans ?_ (Touches.sub (rebuildRing_touch ..) (by decide))
            refine Touches.trans ?_ (Touches.sub (writeTables_touch ..) (by decide))
            refine Touches.trans ?_ (Touches.sub (switchTables_touch ..) (by decide))
            refine Touches.trans ?_ (Touches.sub (State.updStream_touch ..) (by decide))
            exact Touches.refl _
          · refine Touches.trans ?_ (Touches.sub (writeTables_touch ..) (by decide))
            refine Touches.trans ?_ (Touches.sub (switchTables_touch ..) (by decide))
            refine Touches.trans ?_ (Touches.sub (State.updStream_touch ..) (by decide))
            exact Touches.refl _
      · refine Touches.ite ?_ ?_
        · refine Touches.trans ?_ (Touches.sub (rebuildRun_touch ..) (by decide))
          refine Touches.trans ?_ (Touches.sub (switchTables_touch ..) (by decide))
          refine Touches.trans ?_ (Touches.sub (State.updStream_touch ..) (by decide))
          exact Touches.refl _
        · refine Touches.ite ?_ ?_
          · refine Touches.trans ?_ (Touches.sub (rebuildRing_touch ..) (by decide))
            refine Touches.trans ?_ (Touches.sub (writeTables_touch ..) (by decide))
            refine Touches.trans ?_ (Touches.sub (switchTables_touch ..) (by decide))
            refine Touches.trans ?_ (Touches.sub (State.updStream_touch ..) (by decide))
            exact Touches.refl _
          · refine Touches.trans ?_ (Touches.sub (writeTables_touch ..) (by decide))
            refine Touches.trans ?_ (Touches.sub (switchTables_touch ..) (by decide))
            refine Touches.trans ?_ (Touches.sub (State.updStream_touch ..) (by decide))
            exact Touches.refl _

theorem switchStream_touch (s : State) (slot : Nat) :
    Touches [.scu, .moult, .rings, .nps, .streams, .frames, .engines, .resamplers, .relq, .batches, .parts, .regions, .mem, .bpm, .store, .alarms, .tu, .out, .freeIx] s (switchStream s slot) := by
  unfold switchStream
  try conv => arg 3; zeta
  refine Touches.trans ?_ (Touches.sub (moultFinish_touch ..) (by decide))
  refine Touches.trans ?_ (Touches.sub (moultAdds_touch ..) (by decide))
  refine Touches.ofMk ?_ kp kp kp kp kp ch kp kp kp kp kp kp kp kp kp kp kp kp kp kp kp kp kp kp kp kp kp kp kp kp kp kp kp kp kp kp kp kp kp
  split
  · refine Touches.trans ?_ (Touches.sub (streamRemove_touch ..) (by decide))
    exact Touches.refl _
  · refine Touches.trans ?_ (Touches.sub (moultLater_touch ..) (by decide))
    refine Touches.trans ?_ (Touches.sub (streamRemove_touch ..) (by decide))
    exact Touches.refl _
  · refine Touches.trans ?_ (Touches.sub (switchContinue_touch ..) (by decide))
    exact Touches.refl _
  · refine Touches.trans ?_ (Touches.sub (moultLater_touch ..) (by decide))
    exact Touches.refl _
  · refine Touches.trans ?_ (Touches.sub (State.updStream_touch ..) (by decide))
    exact Touches.refl _

theorem reportSources_touch (s : State) (np : Nat) (group : Nat) (sources : List Nat) (slots : List Nat) :
    Touches [.nps, .out] s (reportSources s np group sources slots) := by
  unfold reportSources
  try conv => arg 3; zeta
  refine Touches.ite ?_ ?_
  · exact Touches.refl _
  · refine Touches.trans ?_ (Touches.sub (emit_touch ..) (by decide))
    refine Touches.trans ?_ (Touches.sub (useIpId_touch ..) (by decide))
    exact Touches.refl _

theorem joinReports_touch (x0 : List Nat) (x1 : State) :
    Touches [.nps, .streams, .out] x1 (joinReports x0 x1) := by
  induction x0 generalizing x1 with
  | nil =>
    rw [joinReports]
    exact Touches.refl _
  | cons a t ih =>
    rw [joinReports]
    refine Touches.trans ?_ (ih ..)
    refine Touches.trans ?_ (Touches.sub (joinReport_touch ..) (by decide))
    exact Touches.refl _

theorem telemetryDropped_touch (s : State) (o : Out) :
    Touches [.tu] s (telemetryDropped s o) := by
  unfold telemetryDropped
  try conv => arg 3; zeta
  split
  · refine Touches.trans ?_ (Touches.sub (State.updPath_touch ..) (by decide))
    exact Touches.refl _
  · exact Touches.refl _

theorem putUdp_touch (s : State) (o : Out) :
    Touches [.nps, .out] s (putUdp s o) := by
  unfold putUdp
  split
  · refine Touches.ite ?_ ?_
    · refine Touches.trans ?_ (Touches.sub (emit_touch ..) (by decide))
      refine Touches.trans ?_ (Touches.sub (State.updNp_touch ..) (by decide))
      exact Touches.refl _
    · refine Touches.trans ?_ (Touches.sub (emit_touch ..) (by decide))
      exact Touches.refl _
  · refine Touches.trans ?_ (Touches.sub (emit_touch ..) (by decide))
    exact Touches.refl _

theorem putAll_touch (x0 : List (Nat × Out)) (x1 : State) :
    Touches [.nps, .out] x1 (putAll x0 x1) := by
  induction x0 generalizing x1 with
  | nil =>
    rw [putAll]
    exact Touches.refl _
  | cons a t ih =>
    rw [putAll]
    refine Touches.trans ?_ (ih ..)
    refine Touches.trans ?_ (Touches.sub (putUdp_touch ..) (by decide))
    exact Touches.refl _

theorem execEthLinkUp_touch (np : Nat) (s : State) :
    ∃ u, execEthLinkUp np s = .next u ∧ Touches [.nps, .streams, .out] s u := by
  unfold execEthLinkUp
  refine Touches.iteNext ?_ ?_
  · refine Touches.done ?_
    refine Touches.trans ?_ (Touches.sub (joinReports_touch ..) (by decide))
    refine Touches.trans ?_ (Touches.sub (State.updNp_touch ..) (by decide))
    exact Touches.refl _
  · refine Touches.done ?_
    exact Touches.refl _

theorem npCount_touch (s : State) (np : Nat) (k : Nat) (n : Nat) :
    Touches [.nps] s (npCount s np k n) := by
  unfold npCount
  refine Touches.trans ?_ (Touches.sub (State.updNp_touch ..) (by decide))
  exact Touches.refl _

theorem controlAnswer_touch {L : List Piece} (s : State) (np : Nat) (act : State → State) (ha : ∀ v, Touches L v (act v))
    (hL : mask [.nps] ||| mask L = mask L) : Touches L s (controlAnswer s np act) := by
  unfold controlAnswer
  exact Touches.ite (((Touches.sub (State.updNp_touch ..) hL).trans (Touches.sub (npCount_touch ..) hL)).trans (ha _))
    (Touches.sub (npCount_touch ..) hL)

theorem membershipQuery_touch (s : State) (np : Nat) (group : Nat) (v4 : Bool) (sources : List Nat) (old : Bool) :
    Touches [.nps] s (membershipQuery s np group v4 sources old) := by
  unfold membershipQuery
  refine Touches.trans ?_ (controlAnswer_touch _ _ _ (fun y0 => ?_) (by decide))
  · exact Touches.refl _
  · refine Touches.trans ?_ (Touches.sub (State.updNp_touch ..) (by decide))
    exact Touches.refl _

theorem reportSlots_touch (stateChange : Bool) (x1 : List Nat) (x2 : List (Nat × Nat × Nat)) (x3 : State) :
    Touches [.nps, .out] x3 (reportSlots stateChange x1 x2 x3) := by
  induction x1 generalizing x2 x3 with
  | nil =>
    rw [reportSlots]
    exact Touches.refl _
  | cons a t ih =>
    rw [reportSlots]
    refine Touches.ite ?_ ?_
    · refine Touches.trans ?_ (ih ..)
      exact Touches.refl _
    · refine Touches.trans ?_ (ih ..)
      refine Touches.trans ?_ (Touches.sub (reportGroup_touch ..) (by decide))
      exact Touches.refl _

theorem execQueryResponseTimer_touch (np : Nat) (s : State) :
    ∃ u, execQueryResponseTimer np s = .next u ∧ Touches [.nps, .out] s u := by
  unfold execQueryResponseTimer
  try conv => enter [1, t, 1, 1]; zeta
  split
  · refine Touches.done ?_
    exact Touches.refl _
  · refine Touches.iteNext ?_ ?_
    · refine Touches.done ?_
      refine Touches.trans ?_ (Touches.sub (reportSlots_touch ..) (by decide))
      refine Touches.trans ?_ (Touches.sub (State.updNp_touch ..) (by decide))
      exact Touches.refl _
    · refine Touches.done ?_
      refine Touches.trans ?_ (Touches.sub (reportSources_touch ..) (by decide))
      refine Touches.trans ?_ (Touches.sub (State.updNp_touch ..) (by decide))
      exact Touches.refl _

theorem execControlRateWindow_touch (np : Nat) (s : State) :
    ∃ u, execControlRateWindow np s = .next u ∧ Touches [.nps] s u := by
  unfold execControlRateWindow
  refine Touches.done ?_
  refine Touches.trans ?_ (Touches.sub (State.updNp_touch ..) (by decide))
  exact Touches.refl _

theorem hopDropped_touch (x0 : List (Nat × Out)) (x1 : State) :
    Touches [.streams, .tu] x1 (hopDropped x0 x1) := by
  induction x0 generalizing x1 with
  | nil =>
    rw [hopDropped]
    exact Touches.refl _
  | cons a t ih =>
    rw [hopDropped]
    refine Touches.trans ?_ (ih ..)
    refine Touches.ite ?_ ?_
    · refine Touches.trans ?_ (Touches.sub (telemetryDropped_touch ..) (by decide))
      exact Touches.refl _
    · refine Touches.trans ?_ (Touches.sub (State.updStream_touch ..) (by decide))
      exact Touches.refl _

theorem execNextHopTimeout_touch (np : Nat) (hop : Nat) (s : State) :
    ∃ u, execNextHopTimeout np hop s = .next u ∧ Touches [.nps, .streams, .tu] s u := by
  unfold execNextHopTimeout
  try conv => enter [1, t, 1, 1]; zeta
  refine Touches.done ?_
  refine Touches.trans ?_ (Touches.sub (hopDropped_touch ..) (by decide))
  refine Touches.trans ?_ (Touches.sub (State.updNp_touch ..) (by decide))
  exact Touches.refl _

theorem hopResolved_touch (s : State) (np : Nat) (hop : Nat) :
    Touches [.nps, .out] s (hopResolved s np hop) := by
  unfold hopResolved
  try conv => arg 3; zeta
  refine Touches.ite ?_ ?_
  · exact Touches.refl _
  · refine Touches.trans ?_ (Touches.sub (putAll_touch ..) (by decide))
    refine Touches.trans ?_ (Touches.sub (State.updNp_touch ..) (by decide))
    exact Touches.refl _

theorem rxControl_touch (s : State) (np : Nat) (p : IpPkt) :
    Touches [.nps, .out] s (rxControl s np p) := by
  unfold rxControl
  try conv => arg 3; zeta
  refine Touches.ite ?_ ?_
  · refine Touches.ite ?_ ?_
    · refine Touches.trans ?_ (controlAnswer_touch _ _ _ (fun y0 => ?_) (by decide))
      · exact Touches.refl _
      · refine Touches.trans ?_ (Touches.sub (emit_touch ..) (by decide))
        refine Touches.trans ?_ (Touches.sub (useIpId_touch ..) (by decide))
        exact Touches.refl _
    · exact Touches.refl _
  · refine Touches.ite ?_ ?_
    · refine Touches.ite ?_ ?_
      · refine Touches.trans ?_ (Touches.sub (membershipQuery_touch ..) (by decide))
        exact Touches.refl _
      · exact Touches.refl _
    · refine Touches.ite ?_ ?_
      · exact Touches.refl _
      · refine Touches.ite ?_ ?_
        · refine Touches.trans ?_ (controlAnswer_touch _ _ _ (fun y1 => ?_) (by decide))
          · exact Touches.refl _
          · refine Touches.trans ?_ (Touches.sub (emit_touch ..) (by decide))
            exact Touches.refl _
        · refine Touches.ite ?_ ?_
          · refine Touches.trans ?_ (controlAnswer_touch _ _ _ (fun y2 => ?_) (by decide))
            · exact Touches.refl _
            · refine Touches.trans ?_ (Touches.sub (emit_touch ..) (by decide))
              exact Touches.refl _
          · refine Touches.ite ?_ ?_
            · refine Touches.trans ?_ (Touches.sub (hopResolved_touch ..) (by decide))
              exact Touches.refl _
            · refine Touches.ite ?_ ?_
              · refine Touches.trans ?_ (Touches.sub (membershipQuery_touch ..) (by decide))
                exact Touches.refl _
              · exact Touches.refl _

theorem sendUdp_touch (s : State) (np : Nat) (dst : Nat) (who : Nat) (o : Out) :
    Touches [.nps, .out] s (sendUdp s np dst who o) := by
  unfold sendUdp
  try conv => arg 3; zeta
  refine Touches.ite ?_ ?_
  · exact Touches.refl _
  · refine Touches.ite ?_ ?_
    · refine Touches.trans ?_ (Touches.sub (putUdp_touch ..) (by decide))
      exact Touches.refl _
    · split
      · refine Touches.trans ?_ (Touches.sub (putUdp_touch ..) (by decide))
        refine Touches.ite ?_ ?_
        · exact Touches.refl _
        · refine Touches.trans ?_ (Touches.sub (emit_touch ..) (by decide))
          exact Touches.refl _
      · refine Touches.ite ?_ ?_
        · refine Touches.trans ?_ (Touches.sub (emit_touch ..) (by decide))
          refine Touches.trans ?_ (Touches.sub (State.updNp_touch ..) (by decide))
          exact Touches.refl _
        · refine Touches.trans ?_ (Touches.sub (State.updNp_touch ..) (by decide))
          exact Touches.refl _

theorem execUnsolicitedReportTimer_touch (np : Nat) (slot : Nat) (s : State) :
    ∃ u, execUnsolicitedReportTimer np slot s = .next u ∧ Touches [.nps, .streams, .out] s u := by
  unfold execUnsolicitedReportTimer
  try conv => enter [1, t, 1, 1]; zeta
  refine Touches.iteNext ?_ ?_
  · refine Touches.done ?_
    refine Touches.trans ?_ (Touches.sub (reportGroup_touch ..) (by decide))
    refine Touches.trans ?_ (Touches.sub (State.updIng_touch ..) (by decide))
    exact Touches.refl _
  · refine Touches.done ?_
    refine Touches.trans ?_ (Touches.sub (State.updIng_touch ..) (by decide))
    exact Touches.refl _

theorem execEthLinkDown_touch (np : Nat) (s : State) :
    ∃ u, execEthLinkDown np s = .next u ∧ Touches [.nps] s u := by
  unfold execEthLinkDown
  refine Touches.done ?_
  refine Touches.trans ?_ (Touches.sub (State.updNp_touch ..) (by decide))
  exact Touches.refl _

theorem rxArp_touch (s : State) (np : Nat) (b : Bytes) :
    Touches [.nps, .out] s (rxArp s np b) := by
  unfold rxArp
  try conv => arg 3; zeta
  refine Touches.ite ?_ ?_
  · exact Touches.refl _
  · refine Touches.ite ?_ ?_
    · refine Touches.trans ?_ (controlAnswer_touch _ _ _ (fun y0 => ?_) (by decide))
      · exact Touches.refl _
      · refine Touches.trans ?_ (Touches.sub (emit_touch ..) (by decide))
        exact Touches.refl _
    · refine Touches.ite ?_ ?_
      · refine Touches.trans ?_ (Touches.sub (hopResolved_touch ..) (by decide))
        exact Touches.refl _
      · exact Touches.refl _

theorem auDamage_touch (s : State) (slot : Nat) :
    Touches [.streams] s (auDamage s slot) := by
  unfold auDamage
  refine Touches.trans ?_ (Touches.sub (State.updIng_touch ..) (by decide))
  exact Touches.refl _

theorem auRefused_touch (s : State) (slot n : Nat) (t : State) (h : auRefused s slot n = some t) : Touches [.rings, .parts, .mem, .bpm, .alarms, .tu, .out, .freeIx] s t := by
  unfold auRefused at h
  extract_lets a need at h
  split at h
  · cases h
  · split at h
    · cases h
    · split at h
      · cases h
        exact Touches.refl _
      · split at h
        rename_i e
        split at h
        · cases h
        · cases h
          exact (Touches.pair e (Touches.sub (allocMany_touch ..) (by decide))).trans (Touches.sub (releaseAll_touch ..) (by decide))

theorem dgramNew_touch (s : State) (slot : Nat) :
    Touches [.streams] s (dgramNew s slot) := by
  unfold dgramNew
  refine Touches.trans ?_ (Touches.sub (State.updIng_touch ..) (by decide))
  exact Touches.refl _

theorem ingCount_touch (s : State) (slot : Nat) (k : Nat) (n : Nat) :
    Touches [.streams] s (ingCount s slot k n) := by
  unfold ingCount
  refine Touches.trans ?_ (Touches.sub (State.updIng_touch ..) (by decide))
  exact Touches.refl _

theorem timelineRestart_touch (s : State) (slot : Nat) :
    Touches [.streams, .frames] s (timelineRestart s slot) := by
  unfold timelineRestart
  try conv => arg 3; zeta
  refine Touches.trans ?_ (Touches.sub (ingCount_touch ..) (by decide))
  refine Touches.trans ?_ (Touches.sub (rollback_touch ..) (by decide))
  refine Touches.trans ?_ (Touches.sub (State.updIng_touch ..) (by decide))
  exact Touches.refl _

theorem senderReport_touch (s : State) (slot : Nat) (r : Bytes) :
    Touches [.streams, .frames] s (senderReport s slot r) := by
  unfold senderReport
  try conv => arg 3; zeta
  refine Touches.ite ?_ ?_
  · exact Touches.refl _
  · refine Touches.trans ?_ (Touches.sub (State.updIng_touch ..) (by decide))
    refine Touches.ite ?_ ?_
    · refine Touches.trans ?_ (Touches.sub (timelineRestart_touch ..) (by decide))
      exact Touches.refl _
    · exact Touches.refl _

theorem senderReports_touch (slot : Nat) (x1 : List Bytes) (x2 : State) :
    Touches [.streams, .frames] x2 (senderReports slot x1 x2) := by
  induction x1 generalizing x2 with
  | nil =>
    rw [senderReports]
    exact Touches.refl _
  | cons a t ih =>
    rw [senderReports]
    refine Touches.trans ?_ (ih ..)
    refine Touches.trans ?_ (Touches.sub (senderReport_touch ..) (by decide))
    exact Touches.refl _

theorem onRtcp_touch (s : State) (slot : Nat) (b : Bytes) :
    Touches [.streams, .frames] s (onRtcp s slot b) := by
  unfold onRtcp
  refine Touches.trans ?_ (Touches.sub (senderReports_touch ..) (by decide))
  exact Touches.refl _

theorem onContinuity_touch (s : State) (slot : Nat) (p : Bytes) (disc : Bool) :
    Touches [.streams] s (onContinuity s slot p disc).2 := by
  unfold onContinuity
  try conv => arg 3; zeta
  split
  · refine Touches.snd ?_
    exact Touches.refl _
  · refine Touches.itePair ?_ ?_
    · refine Touches.snd ?_
      exact Touches.refl _
    · refine Touches.itePair ?_ ?_
      · refine Touches.snd ?_
        refine Touches.trans ?_ (Touches.sub (ingCount_touch ..) (by decide))
        exact Touches.refl _
      · refine Touches.itePair ?_ ?_
        · refine Touches.snd ?_
          exact Touches.refl _
        · refine Touches.snd ?_
          refine Touches.trans ?_ (Touches.sub (auDamage_touch ..) (by decide))
          refine Touches.trans ?_ (Touches.sub (ingCount_touch ..) (by decide))
          exact Touches.refl _

theorem onPcr_touch (s : State) (slot : Nat) (pcr : Nat) (disc : Bool) (rtp : Option Int) :
    Touches [.streams, .frames] s (onPcr s slot pcr disc rtp) := by
  unfold onPcr
  try conv => arg 3; zeta
  refine Touches.trans ?_ (Touches.sub (State.updIng_touch ..) (by decide))
  refine Touches.ite ?_ ?_
  · refine Touches.trans ?_ (Touches.sub (timelineRestart_touch ..) (by decide))
    exact Touches.refl _
  · exact Touches.refl _

theorem onPat_touch (s : State) (slot : Nat) (sec : Bytes) :
    Touches [.streams] s (onPat s slot sec) := by
  unfold onPat
  try conv => arg 3; zeta
  refine Touches.ite ?_ ?_
  · exact Touches.refl _
  · split
    · exact Touches.refl _
    · refine Touches.trans ?_ (Touches.sub (State.updIng_touch ..) (by decide))
      exact Touches.refl _

theorem onPmt_touch (s : State) (slot : Nat) (sec : Bytes) :
    Touches [.rings, .streams, .frames, .alarms, .tu, .out, .freeIx] s (onPmt s slot sec) := by
  unfold onPmt
  try conv => arg 3; zeta
  split
  · exact Touches.refl _
  · refine Touches.ite ?_ ?_
    · refine Touches.trans ?_ (Touches.sub (alignGroup_touch ..) (by decide))
      refine Touches.ite ?_ ?_
      · refine Touches.trans ?_ (Touches.sub (raiseLogOf_touch ..) (by decide))
        refine Touches.trans ?_ (Touches.sub (State.updIng_touch ..) (by decide))
        refine Touches.ite ?_ ?_
        · refine Touches.trans ?_ (Touches.sub (raiseLogOf_touch ..) (by decide))
          refine Touches.trans ?_ (Touches.sub (timelineRestart_touch ..) (by decide))
          exact Touches.refl _
        · exact Touches.refl _
      · refine Touches.trans ?_ (Touches.sub (State.updIng_touch ..) (by decide))
        refine Touches.ite ?_ ?_
        · refine Touches.trans ?_ (Touches.sub (raiseLogOf_touch ..) (by decide))
          refine Touches.trans ?_ (Touches.sub (timelineRestart_touch ..) (by decide))
          exact Touches.refl _
        · exact Touches.refl _
    · refine Touches.ite ?_ ?_
      · refine Touches.trans ?_ (Touches.sub (raiseLogOf_touch ..) (by decide))
        refine Touches.trans ?_ (Touches.sub (State.updIng_touch ..) (by decide))
        refine Touches.ite ?_ ?_
        · refine Touches.trans ?_ (Touches.sub (raiseLogOf_touch ..) (by decide))
          refine Touches.trans ?_ (Touches.sub (timelineRestart_touch ..) (by decide))
          exact Touches.refl _
        · exact Touches.refl _
      · refine Touches.trans ?_ (Touches.sub (State.updIng_touch ..) (by decide))
        refine Touches.ite ?_ ?_
        · refine Touches.trans ?_ (Touches.sub (raiseLogOf_touch ..) (by decide))
          refine Touches.trans ?_ (Touches.sub (timelineRestart_touch ..) (by decide))
          exact Touches.refl _
        · exact Touches.refl _

theorem onSection_touch (s : State) (slot : Nat) (pid : Nat) (sec : Bytes) :
    Touches [.rings, .streams, .frames, .alarms, .tu, .out, .freeIx] s (onSection s slot pid sec) := by
  unfold onSection
  refine Touches.ite ?_ ?_
  · exact Touches.refl _
  · refine Touches.ite ?_ ?_
    · refine Touches.trans ?_ (Touches.sub (onPat_touch ..) (by decide))
      exact Touches.refl _
    · refine Touches.trans ?_ (Touches.sub (onPmt_touch ..) (by decide))
      exact Touches.refl _

theorem sectGather_touch (slot : Nat) (pid : Nat) (x2 : Nat) (x3 : Bytes) (x4 : State) :
    Touches [.rings, .streams, .frames, .alarms, .tu, .out, .freeIx] x4 (sectGather slot pid x2 x3 x4) := by
  induction x2 generalizing x3 x4 with
  | zero =>
    rw [sectGather]
    exact Touches.refl _
  | succ k ih =>
    rw [sectGather]
    try conv => arg 3; zeta
    split
    · refine Touches.trans ?_ (Touches.sub (State.updIng_touch ..) (by decide))
      exact Touches.refl _
    · refine Touches.ite ?_ ?_
      · refine Touches.trans ?_ (Touches.sub (State.updIng_touch ..) (by decide))
        refine Touches.trans ?_ (Touches.sub (onSection_touch ..) (by decide))
        exact Touches.refl _
      · refine Touches.trans ?_ (ih ..)
        refine Touches.trans ?_ (Touches.sub (onSection_touch ..) (by decide))
        exact Touches.refl _

theorem onPsi_touch (s : State) (slot : Nat) (pid : Nat) (p : Bytes) :
    Touches [.rings, .streams, .frames, .alarms, .tu, .out, .freeIx] s (onPsi s slot pid p) := by
  unfold onPsi
  try conv => arg 3; zeta
  refine Touches.ite ?_ ?_
  · exact Touches.refl _
  · refine Touches.ite ?_ ?_
    · refine Touches.trans ?_ (Touches.sub (sectGather_touch ..) (by decide))
      split
      · exact Touches.refl _
      · refine Touches.trans ?_ (Touches.sub (sectGather_touch ..) (by decide))
        exact Touches.refl _
    · split
      · exact Touches.refl _
      · refine Touches.trans ?_ (Touches.sub (sectGather_touch ..) (by decide))
        exact Touches.refl _

theorem addFrame_touch (s : State) (f : Frame) :
    Touches [.frames] s (addFrame s f).2 := by
  unfold addFrame
  refine Touches.snd ?_
  refine Touches.ofMk ?_ kp kp kp kp kp kp kp kp kp kp kp kp kp kp ch kp kp kp kp kp kp kp kp kp kp kp kp kp kp kp kp kp kp kp kp kp kp kp kp
  exact Touches.refl _

theorem auQueue_touch (s : State) (slot : Nat) (fid : Nat) :
    Touches [.moult, .rings, .streams, .frames, .resamplers, .relq, .batches, .parts, .regions, .mem, .bpm, .store, .alarms, .tu, .out, .freeIx] s (auQueue s slot fid) := by
  unfold auQueue
  try conv => arg 3; zeta
  refine Touches.ite ?_ ?_
  · refine Touches.trans ?_ (Touches.sub (decLog_touch ..) (by decide))
    refine Touches.trans ?_ (Touches.sub (decCount_touch ..) (by decide))
    refine Touches.trans ?_ (Touches.sub (discardFrame_touch ..) (by decide))
    refine Touches.ite ?_ ?_
    · refine Touches.trans ?_ (Touches.sub (engineAssignAll_touch ..) (by decide))
      exact Touches.refl _
    · exact Touches.refl _
  · refine Touches.trans ?_ (Touches.sub (auHold_touch ..) (by decide))
    refine Touches.ite ?_ ?_
    · refine Touches.trans ?_ (Touches.sub (engineAssignAll_touch ..) (by decide))
      exact Touches.refl _
    · exact Touches.refl _

theorem noteRef_touch (s : State) (slot : Nat) (seg : Nat) (ref : Option Nat) :
    Touches [.streams] s (noteRef s slot seg ref) := by
  unfold noteRef
  split
  · exact Touches.refl _
  · refine Touches.trans ?_ (Touches.sub (State.updIng_touch ..) (by decide))
    exact Touches.refl _

theorem auClose_touch (s : State) (slot : Nat) :
    Touches [.scu, .moult, .rings, .nps, .streams, .frames, .engines, .resamplers, .relq, .batches, .parts, .regions, .mem, .bpm, .store, .alarms, .tu, .out, .freeIx] s (auClose s slot) := by
  unfold auClose
  try conv => arg 3; zeta
  split
  · exact Touches.refl _
  · refine Touches.ite ?_ ?_
    · split
      · rename_i v0 v1 e2
        have hv1 : Touches [.scu, .moult, .rings, .nps, .streams, .frames, .engines, .resamplers, .relq, .batches, .parts, .regions, .mem, .bpm, .store, .alarms, .tu, .out, .freeIx] s v1 := by
          refine Touches.pair e2 ?_
          refine Touches.trans ?_ (Touches.sub (addFrame_touch ..) (by decide))
          refine Touches.ite ?_ ?_
          · refine Touches.trans ?_ (Touches.sub (ingCount_touch ..) (by decide))
            refine Touches.trans ?_ (Touches.sub (ingCount_touch ..) (by decide))
            refine Touches.trans ?_ (Touches.sub (State.updIng_touch ..) (by decide))
            exact Touches.refl _
          · refine Touches.trans ?_ (Touches.sub (ingCount_touch ..) (by decide))
            refine Touches.trans ?_ (Touches.sub (State.updIng_touch ..) (by decide))
            exact Touches.refl _
        refine Touches.trans ?_ (Touches.sub (switchStream_touch ..) (by decide))
        refine Touches.trans ?_ (Touches.sub (discardFrame_touch ..) (by decide))
        exact hv1
    · split
      · rename_i v3 v4 e5
        have hv4 : Touches [.scu, .moult, .rings, .nps, .streams, .frames, .engines, .resamplers, .relq, .batches, .parts, .regions, .mem, .bpm, .store, .alarms, .tu, .out, .freeIx] s v4 := by
          refine Touches.pair e5 ?_
          refine Touches.trans ?_ (Touches.sub (addFrame_touch ..) (by decide))
          refine Touches.ite ?_ ?_
          · refine Touches.trans ?_ (Touches.sub (switchStream_touch ..) (by decide))
            refine Touches.ite ?_ ?_
            · refine Touches.trans ?_ (Touches.sub (ingCount_touch ..) (by decide))
              refine Touches.trans ?_ (Touches.sub (ingCount_touch ..) (by decide))
              refine Touches.trans ?_ (Touches.sub (State.updIng_touch ..) (by decide))
              exact Touches.refl _
            · refine Touches.trans ?_ (Touches.sub (ingCount_touch ..) (by decide))
              refine Touches.trans ?_ (Touches.sub (State.updIng_touch ..) (by decide))
              exact Touches.refl _
          · refine Touches.ite ?_ ?_
            · refine Touches.trans ?_ (Touches.sub (ingCount_touch ..) (by decide))
              refine Touches.trans ?_ (Touches.sub (ingCount_touch ..) (by decide))
              refine Touches.trans ?_ (Touches.sub (State.updIng_touch ..) (by decide))
              exact Touches.refl _
            · refine Touches.trans ?_ (Touches.sub (ingCount_touch ..) (by decide))
              refine Touches.trans ?_ (Touches.sub (State.updIng_touch ..) (by decide))
              exact Touches.refl _
        refine Touches.ite ?_ ?_
        · refine Touches.trans ?_ (Touches.sub (alignGroup_touch ..) (by decide))
          refine Touches.trans ?_ (Touches.sub (noteRef_touch ..) (by decide))
          refine Touches.trans ?_ (Touches.sub (discardFrame_touch ..) (by decide))
          exact hv4
        · refine Touches.trans ?_ (Touches.sub (alignGroup_touch ..) (by decide))
          refine Touches.trans ?_ (Touches.sub (auQueue_touch ..) (by decide))
          refine Touches.trans ?_ (Touches.sub (noteRef_touch ..) (by decide))
          refine Touches.trans ?_ (Touches.sub (frameStage_touch ..) (by decide))
          exact hv4

theorem ptsTake_touch (s : State) (slot : Nat) (pts : Option Nat) : Touches [.streams] s (ptsTake s slot pts).2.2 := by
  unfold ptsTake
  extract_lets g base ext
  clear_value ext
  cases ext with
  | none => exact Touches.refl s
  | some x =>
    dsimp only
    exact Touches.sub (State.updIng_touch ..) (by decide)

theorem pesStamp_touch (s : State) (slot : Nat) (b : Bytes) :
    Touches [.streams] s (pesStamp s slot b) := by
  unfold pesStamp
  split
  · rename_i v0 v1 v2 e3
    have hv2 : Touches [.streams] s v2 := by
      refine Touches.triple e3 ?_
      refine Touches.trans ?_ (Touches.sub (ptsTake_touch ..) (by decide))
      exact Touches.refl _
    refine Touches.trans ?_ (Touches.sub (State.updIng_touch ..) (by decide))
    exact hv2

theorem pesClose_touch (s : State) (slot : Nat) :
    Touches [.scu, .moult, .rings, .nps, .streams, .frames, .engines, .resamplers, .relq, .batches, .parts, .regions, .mem, .bpm, .store, .alarms, .tu, .out, .freeIx] s (pesClose s slot) := by
  unfold pesClose
  refine Touches.trans ?_ (Touches.sub (auClose_touch ..) (by decide))
  split
  · exact Touches.refl _
  · refine Touches.trans ?_ (Touches.sub (pesStamp_touch ..) (by decide))
    exact Touches.refl _

theorem onScrambled_touch (s : State) (slot : Nat) (start : Bool) :
    Touches [.scu, .moult, .rings, .nps, .streams, .frames, .engines, .resamplers, .relq, .batches, .parts, .regions, .mem, .bpm, .store, .alarms, .tu, .out, .freeIx] s (onScrambled s slot start) := by
  unfold onScrambled
  try conv => arg 3; zeta
  refine Touches.ite ?_ ?_
  · refine Touches.trans ?_ (Touches.sub (raiseLogOf_touch ..) (by decide))
    refine Touches.trans ?_ (Touches.sub (State.updIng_touch ..) (by decide))
    refine Touches.ite ?_ ?_
    · refine Touches.trans ?_ (Touches.sub (pesClose_touch ..) (by decide))
      refine Touches.trans ?_ (Touches.sub (ingCount_touch ..) (by decide))
      exact Touches.refl _
    · refine Touches.ite ?_ ?_
      · refine Touches.trans ?_ (Touches.sub (auDamage_touch ..) (by decide))
        refine Touches.trans ?_ (Touches.sub (ingCount_touch ..) (by decide))
        exact Touches.refl _
      · refine Touches.trans ?_ (Touches.sub (ingCount_touch ..) (by decide))
        exact Touches.refl _
  · refine Touches.ite ?_ ?_
    · refine Touches.trans ?_ (Touches.sub (pesClose_touch ..) (by decide))
      refine Touches.trans ?_ (Touches.sub (ingCount_touch ..) (by decide))
      exact Touches.refl _
    · refine Touches.ite ?_ ?_
      · refine Touches.trans ?_ (Touches.sub (auDamage_touch ..) (by decide))
        refine Touches.trans ?_ (Touches.sub (ingCount_touch ..) (by decide))
        exact Touches.refl _
      · refine Touches.trans ?_ (Touches.sub (ingCount_touch ..) (by decide))
        exact Touches.refl _

theorem auNoBuffer_touch (s : State) (slot : Nat) :
    Touches [.streams] s (auNoBuffer s slot) := by
  unfold auNoBuffer
  try conv => arg 3; zeta
  refine Touches.ite ?_ ?_
  · refine Touches.trans ?_ (Touches.sub (auDamage_touch ..) (by decide))
    exact Touches.refl _
  · refine Touches.trans ?_ (Touches.sub (ingCount_touch ..) (by decide))
    refine Touches.trans ?_ (Touches.sub (State.updIng_touch ..) (by decide))
    refine Touches.trans ?_ (Touches.sub (auDamage_touch ..) (by decide))
    exact Touches.refl _

theorem auAppend_touch (s : State) (slot : Nat) (b : Bytes) :
    Touches [.rings, .streams, .parts, .mem, .bpm, .alarms, .tu, .out, .freeIx] s (auAppend s slot b) := by
  unfold auAppend
  try conv => arg 3; zeta
  split
  · exact Touches.refl _
  · refine Touches.ite ?_ ?_
    · exact Touches.refl _
    · refine Touches.ite ?_ ?_
      · refine Touches.trans ?_ (Touches.sub (auDamage_touch ..) (by decide))
        exact Touches.refl _
      · refine Touches.ite ?_ ?_
        · refine Touches.trans ?_ (Touches.sub (releaseAll_touch ..) (by decide))
          refine Touches.trans ?_ (Touches.sub (State.updIng_touch ..) (by decide))
          exact Touches.refl _
        · split
          · rename_i v0 v1 e2
            have hv1 : Touches [.rings, .streams, .parts, .mem, .bpm, .alarms, .tu, .out, .freeIx] s v1 := by
              refine Touches.pair e2 ?_
              split
              · refine Touches.snd ?_
                exact Touches.refl _
              · refine Touches.trans ?_ (Touches.sub (allocMany_touch ..) (by decide))
                exact Touches.refl _
            refine Touches.ite ?_ ?_
            · refine Touches.trans ?_ (Touches.sub (State.updIng_touch ..) (by decide))
              exact hv1
            · refine Touches.trans ?_ (Touches.sub (auNoBuffer_touch ..) (by decide))
              refine Touches.trans ?_ (Touches.sub (releaseAll_touch ..) (by decide))
              exact hv1

theorem auOpen_touch (s : State) (slot : Nat) (ts : Nat) (rtp : Option Int) (ref : Option Nat) :
    Touches [.streams] s (auOpen s slot ts rtp ref) := by
  unfold auOpen
  try conv => arg 3; zeta
  refine Touches.trans ?_ (Touches.sub (State.updIng_touch ..) (by decide))
  exact Touches.refl _

theorem pesMore_touch (s : State) (slot : Nat) (b : Bytes) :
    Touches [.streams] s (pesMore s slot b) := by
  unfold pesMore
  split
  · exact Touches.refl _
  · refine Touches.ite ?_ ?_
    · refine Touches.trans ?_ (Touches.sub (State.updIng_touch ..) (by decide))
      exact Touches.refl _
    · refine Touches.trans ?_ (Touches.sub (pesStamp_touch ..) (by decide))
      exact Touches.refl _

theorem onVideo_touch (s : State) (slot : Nat) (p : Bytes) :
    Touches [.scu, .moult, .rings, .nps, .streams, .frames, .engines, .resamplers, .relq, .batches, .parts, .regions, .mem, .bpm, .store, .alarms, .tu, .out, .freeIx] s (onVideo s slot p) := by
  unfold onVideo
  try conv => arg 3; zeta
  refine Touches.ite ?_ ?_
  · refine Touches.trans ?_ (Touches.sub (auAppend_touch ..) (by decide))
    refine Touches.trans ?_ (Touches.sub (pesMore_touch ..) (by decide))
    refine Touches.trans ?_ (Touches.sub (State.updIng_touch ..) (by decide))
    refine Touches.trans ?_ (Touches.sub (auOpen_touch ..) (by decide))
    refine Touches.trans ?_ (Touches.sub (pesClose_touch ..) (by decide))
    exact Touches.refl _
  · refine Touches.trans ?_ (Touches.sub (auAppend_touch ..) (by decide))
    refine Touches.trans ?_ (Touches.sub (pesMore_touch ..) (by decide))
    exact Touches.refl _

theorem onTsPacket_touch (s : State) (slot : Nat) (rtp : Option Int) (p : Bytes) :
    Touches [.scu, .moult, .rings, .nps, .streams, .frames, .engines, .resamplers, .relq, .batches, .parts, .regions, .mem, .bpm, .store, .alarms, .tu, .out, .freeIx] s (onTsPacket s slot rtp p) := by
  unfold onTsPacket
  try conv => arg 3; zeta
  refine Touches.ite ?_ ?_
  · exact Touches.refl _
  · refine Touches.ite ?_ ?_
    · refine Touches.ite ?_ ?_
      · refine Touches.trans ?_ (Touches.sub (State.updIng_touch ..) (by decide))
        refine Touches.trans ?_ (Touches.sub (auDamage_touch ..) (by decide))
        refine Touches.trans ?_ (Touches.sub (ingCount_touch ..) (by decide))
        exact Touches.refl _
      · refine Touches.trans ?_ (Touches.sub (auDamage_touch ..) (by decide))
        refine Touches.trans ?_ (Touches.sub (ingCount_touch ..) (by decide))
        exact Touches.refl _
    · refine Touches.ite ?_ ?_
      · refine Touches.trans ?_ (Touches.sub (onPsi_touch ..) (by decide))
        exact Touches.refl _
      · refine Touches.ite ?_ ?_
        · refine Touches.trans ?_ (Touches.sub (auDamage_touch ..) (by decide))
          refine Touches.trans ?_ (Touches.sub (ingCount_touch ..) (by decide))
          exact Touches.refl _
        · refine Touches.ite ?_ ?_
          · split
            · refine Touches.ite ?_ ?_
              · refine Touches.trans ?_ (Touches.sub (onPcr_touch ..) (by decide))
                refine Touches.ite ?_ ?_
                · refine Touches.trans ?_ (Touches.sub (timelineRestart_touch ..) (by decide))
                  exact Touches.refl _
                · exact Touches.refl _
              · refine Touches.ite ?_ ?_
                · refine Touches.trans ?_ (Touches.sub (timelineRestart_touch ..) (by decide))
                  exact Touches.refl _
                · exact Touches.refl _
            · refine Touches.ite ?_ ?_
              · refine Touches.trans ?_ (Touches.sub (timelineRestart_touch ..) (by decide))
                exact Touches.refl _
              · exact Touches.refl _
          · split
            · rename_i v0 v1 e2
              have hv1 : Touches [.scu, .moult, .rings, .nps, .streams, .frames, .engines, .resamplers, .relq, .batches, .parts, .regions, .mem, .bpm, .store, .alarms, .tu, .out, .freeIx] s v1 := by
                refine Touches.pair e2 ?_
                refine Touches.trans ?_ (Touches.sub (onContinuity_touch ..) (by decide))
                split
                · refine Touches.ite ?_ ?_
                  · refine Touches.trans ?_ (Touches.sub (onPcr_touch ..) (by decide))
                    refine Touches.ite ?_ ?_
                    · refine Touches.trans ?_ (Touches.sub (timelineRestart_touch ..) (by decide))
                      exact Touches.refl _
                    · exact Touches.refl _
                  · refine Touches.ite ?_ ?_
                    · refine Touches.trans ?_ (Touches.sub (timelineRestart_touch ..) (by decide))
                      exact Touches.refl _
                    · exact Touches.refl _
                · refine Touches.ite ?_ ?_
                  · refine Touches.trans ?_ (Touches.sub (timelineRestart_touch ..) (by decide))
                    exact Touches.refl _
                  · exact Touches.refl _
              refine Touches.ite ?_ ?_
              · exact hv1
              · refine Touches.ite ?_ ?_
                · refine Touches.trans ?_ (Touches.sub (onScrambled_touch ..) (by decide))
                  refine Touches.trans ?_ (Touches.sub (State.updIng_touch ..) (by decide))
                  exact hv1
                · refine Touches.trans ?_ (Touches.sub (onVideo_touch ..) (by decide))
                  refine Touches.trans ?_ (Touches.sub (State.updIng_touch ..) (by decide))
                  exact hv1

theorem onTsPackets_touch (slot : Nat) (rtp : Option Int) (x2 : List Bytes) (x3 : State) :
    Touches [.scu, .moult, .rings, .nps, .streams, .frames, .engines, .resamplers, .relq, .batches, .parts, .regions, .mem, .bpm, .store, .alarms, .tu, .out, .freeIx] x3 (onTsPackets slot rtp x2 x3) := by
  induction x2 generalizing x3 with
  | nil =>
    rw [onTsPackets]
    exact Touches.refl _
  | cons a t ih =>
    rw [onTsPackets]
    refine Touches.ite ?_ ?_
    · refine Touches.trans ?_ (ih ..)
      refine Touches.trans ?_ (Touches.sub (onTsPacket_touch ..) (by decide))
      exact Touches.refl _
    · exact Touches.refl _

theorem onTs_touch (s : State) (slot : Nat) (rtp : Option Int) (b : Bytes) :
    Touches [.scu, .moult, .rings, .nps, .streams, .frames, .engines, .resamplers, .relq, .batches, .parts, .regions, .mem, .bpm, .store, .alarms, .tu, .out, .freeIx] s (onTs s slot rtp b) := by
  unfold onTs
  split
  · refine Touches.trans ?_ (Touches.sub (auDamage_touch ..) (by decide))
    refine Touches.trans ?_ (Touches.sub (ingCount_touch ..) (by decide))
    exact Touches.refl _
  · refine Touches.trans ?_ (Touches.sub (onTsPackets_touch ..) (by decide))
    exact Touches.refl _

theorem rtpClose_touch (s : State) (slot : Nat) :
    Touches [.scu, .moult, .rings, .nps, .streams, .frames, .engines, .resamplers, .relq, .batches, .parts, .regions, .mem, .bpm, .store, .alarms, .tu, .out, .freeIx] s (rtpClose s slot) := by
  unfold rtpClose
  refine Touches.trans ?_ (Touches.sub (auClose_touch ..) (by decide))
  refine Touches.trans ?_ (Touches.sub (State.updIng_touch ..) (by decide))
  exact Touches.refl _

theorem rtpPayload_touch (s : State) (slot : Nat) (ext : Int) (k : RtpPkt) :
    Touches [.rings, .streams, .parts, .mem, .bpm, .alarms, .tu, .out, .freeIx] s (rtpPayload s slot ext k) := by
  unfold rtpPayload
  try conv => arg 3; zeta
  split
  · refine Touches.trans ?_ (Touches.sub (ingCount_touch ..) (by decide))
    exact Touches.refl _
  · refine Touches.ite ?_ ?_
    · refine Touches.trans ?_ (Touches.sub (auDamage_touch ..) (by decide))
      exact Touches.refl _
    · refine Touches.trans ?_ (Touches.sub (auAppend_touch ..) (by decide))
      refine Touches.trans ?_ (Touches.sub (auOpen_touch ..) (by decide))
      refine Touches.trans ?_ (Touches.sub (State.updIng_touch ..) (by decide))
      exact Touches.refl _

theorem srRestart_touch (s : State) (slot : Nat) (ext : Int) :
    Touches [.streams, .frames] s (srRestart s slot ext) := by
  unfold srRestart
  split
  · exact Touches.refl _
  · refine Touches.ite ?_ ?_
    · refine Touches.trans ?_ (Touches.sub (timelineRestart_touch ..) (by decide))
      exact Touches.refl _
    · exact Touches.refl _

theorem rtpDeliver_touch (s : State) (slot : Nat) (k : RtpPkt) :
    Touches [.scu, .moult, .rings, .nps, .streams, .frames, .engines, .resamplers, .relq, .batches, .parts, .regions, .mem, .bpm, .store, .alarms, .tu, .out, .freeIx] s (rtpDeliver s slot k) := by
  unfold rtpDeliver
  try conv => arg 3; zeta
  refine Touches.ite ?_ ?_
  · refine Touches.trans ?_ (Touches.sub (onTs_touch ..) (by decide))
    refine Touches.trans ?_ (Touches.sub (srRestart_touch ..) (by decide))
    refine Touches.trans ?_ (Touches.sub (dgramNew_touch ..) (by decide))
    refine Touches.trans ?_ (Touches.sub (State.updIng_touch ..) (by decide))
    exact Touches.refl _
  · refine Touches.ite ?_ ?_
    · refine Touches.trans ?_ (Touches.sub (srRestart_touch ..) (by decide))
      refine Touches.ite ?_ ?_
      · refine Touches.trans ?_ (Touches.sub (rtpClose_touch ..) (by decide))
        refine Touches.trans ?_ (Touches.sub (dgramNew_touch ..) (by decide))
        refine Touches.trans ?_ (Touches.sub (State.updIng_touch ..) (by decide))
        exact Touches.refl _
      · refine Touches.trans ?_ (Touches.sub (dgramNew_touch ..) (by decide))
        refine Touches.trans ?_ (Touches.sub (State.updIng_touch ..) (by decide))
        exact Touches.refl _
    · refine Touches.ite ?_ ?_
      · refine Touches.trans ?_ (Touches.sub (rtpClose_touch ..) (by decide))
        refine Touches.trans ?_ (Touches.sub (rtpPayload_touch ..) (by decide))
        refine Touches.trans ?_ (Touches.sub (srRestart_touch ..) (by decide))
        refine Touches.ite ?_ ?_
        · refine Touches.trans ?_ (Touches.sub (rtpClose_touch ..) (by decide))
          refine Touches.trans ?_ (Touches.sub (dgramNew_touch ..) (by decide))
          refine Touches.trans ?_ (Touches.sub (State.updIng_touch ..) (by decide))
          exact Touches.refl _
        · refine Touches.trans ?_ (Touches.sub (dgramNew_touch ..) (by decide))
          refine Touches.trans ?_ (Touches.sub (State.updIng_touch ..) (by decide))
          exact Touches.refl _
      · refine Touches.trans ?_ (Touches.sub (rtpPayload_touch ..) (by decide))
        refine Touches.trans ?_ (Touches.sub (srRestart_touch ..) (by decide))
        refine Touches.ite ?_ ?_
        · refine Touches.trans ?_ (Touches.sub (rtpClose_touch ..) (by decide))
          refine Touches.trans ?_ (Touches.sub (dgramNew_touch ..) (by decide))
          refine Touches.trans ?_ (Touches.sub (State.updIng_touch ..) (by decide))
          exact Touches.refl _
        · refine Touches.trans ?_ (Touches.sub (dgramNew_touch ..) (by decide))
          refine Touches.trans ?_ (Touches.sub (State.updIng_touch ..) (by decide))
          exact Touches.refl _

theorem rtpDrain_touch (slot : Nat) (x1 : Nat) (x2 : State) :
    Touches [.scu, .moult, .rings, .nps, .streams, .frames, .engines, .resamplers, .relq, .batches, .parts, .regions, .mem, .bpm, .store, .alarms, .tu, .out, .freeIx] x2 (rtpDrain slot x1 x2) := by
  induction x1 generalizing x2 with
  | zero =>
    rw [rtpDrain]
    exact Touches.refl _
  | succ k ih =>
    rw [rtpDrain]
    split
    · refine Touches.ite ?_ ?_
      · refine Touches.trans ?_ (ih ..)
        refine Touches.trans ?_ (Touches.sub (rtpDeliver_touch ..) (by decide))
        refine Touches.trans ?_ (Touches.sub (State.updIng_touch ..) (by decide))
        exact Touches.refl _
      · exact Touches.refl _
    · exact Touches.refl _

theorem rtpSkip_touch (s : State) (slot : Nat) :
    Touches [.scu, .moult, .rings, .nps, .streams, .frames, .engines, .resamplers, .relq, .batches, .parts, .regions, .mem, .bpm, .store, .alarms, .tu, .out, .freeIx] s (rtpSkip s slot) := by
  unfold rtpSkip
  try conv => arg 3; zeta
  split
  · refine Touches.trans ?_ (Touches.sub (rtpDrain_touch ..) (by decide))
    refine Touches.trans ?_ (Touches.sub (State.updIng_touch ..) (by decide))
    refine Touches.trans ?_ (Touches.sub (State.updIng_touch ..) (by decide))
    refine Touches.trans ?_ (Touches.sub (auDamage_touch ..) (by decide))
    refine Touches.trans ?_ (Touches.sub (ingCount_touch ..) (by decide))
    exact Touches.refl _
  · exact Touches.refl _

theorem rtpFlush_touch (slot : Nat) (x1 : Nat) (x2 : State) :
    Touches [.scu, .moult, .rings, .nps, .streams, .frames, .engines, .resamplers, .relq, .batches, .parts, .regions, .mem, .bpm, .store, .alarms, .tu, .out, .freeIx] x2 (rtpFlush slot x1 x2) := by
  induction x1 generalizing x2 with
  | zero =>
    rw [rtpFlush]
    exact Touches.refl _
  | succ k ih =>
    rw [rtpFlush]
    refine Touches.ite ?_ ?_
    · exact Touches.refl _
    · refine Touches.trans ?_ (ih ..)
      refine Touches.trans ?_ (Touches.sub (rtpSkip_touch ..) (by decide))
      exact Touches.refl _

theorem rtpTake_touch (s : State) (slot : Nat) (k : RtpPkt) :
    Touches [.scu, .moult, .rings, .nps, .streams, .frames, .engines, .resamplers, .relq, .batches, .parts, .regions, .mem, .bpm, .store, .alarms, .tu, .out, .freeIx] s (rtpTake s slot k) := by
  unfold rtpTake
  try conv => arg 3; zeta
  refine Touches.ite ?_ ?_
  · refine Touches.trans ?_ (Touches.sub (ingCount_touch ..) (by decide))
    exact Touches.refl _
  · refine Touches.ite ?_ ?_
    · refine Touches.trans ?_ (Touches.sub (rtpSkip_touch ..) (by decide))
      refine Touches.trans ?_ (Touches.sub (rtpDrain_touch ..) (by decide))
      refine Touches.trans ?_ (Touches.sub (State.updIng_touch ..) (by decide))
      refine Touches.ite ?_ ?_
      · refine Touches.trans ?_ (Touches.sub (ingCount_touch ..) (by decide))
        exact Touches.refl _
      · exact Touches.refl _
    · refine Touches.trans ?_ (Touches.sub (rtpDrain_touch ..) (by decide))
      refine Touches.trans ?_ (Touches.sub (State.updIng_touch ..) (by decide))
      refine Touches.ite ?_ ?_
      · refine Touches.trans ?_ (Touches.sub (ingCount_touch ..) (by decide))
        exact Touches.refl _
      · exact Touches.refl _

theorem rtpRestart_touch (s : State) (slot : Nat) (j : RtpPkt) :
    Touches [.scu, .moult, .rings, .nps, .streams, .frames, .engines, .resamplers, .relq, .batches, .parts, .regions, .mem, .bpm, .store, .alarms, .tu, .out, .freeIx] s (rtpRestart s slot j) := by
  unfold rtpRestart
  try conv => arg 3; zeta
  refine Touches.trans ?_ (Touches.sub (rtpTake_touch ..) (by decide))
  refine Touches.trans ?_ (Touches.sub (State.updIng_touch ..) (by decide))
  refine Touches.trans ?_ (Touches.sub (timelineRestart_touch ..) (by decide))
  refine Touches.trans ?_ (Touches.sub (rtpFlush_touch ..) (by decide))
  exact Touches.refl _

theorem rtpOrder_touch (s : State) (slot : Nat) (h : RtpHdr) (raw : Bytes) :
    Touches [.scu, .moult, .rings, .nps, .streams, .frames, .engines, .resamplers, .relq, .batches, .parts, .regions, .mem, .bpm, .store, .alarms, .tu, .out, .freeIx] s (rtpOrder s slot h raw) := by
  unfold rtpOrder
  try conv => arg 3; zeta
  refine Touches.ite ?_ ?_
  · refine Touches.trans ?_ (Touches.sub (State.updIng_touch ..) (by decide))
    split
    · exact Touches.refl _
    · refine Touches.ite ?_ ?_
      · refine Touches.trans ?_ (Touches.sub (rtpRestart_touch ..) (by decide))
        refine Touches.trans ?_ (Touches.sub (State.updIng_touch ..) (by decide))
        exact Touches.refl _
      · refine Touches.trans ?_ (Touches.sub (ingCount_touch ..) (by decide))
        refine Touches.trans ?_ (Touches.sub (State.updIng_touch ..) (by decide))
        exact Touches.refl _
  · refine Touches.ite ?_ ?_
    · refine Touches.trans ?_ (Touches.sub (rtpTake_touch ..) (by decide))
      refine Touches.trans ?_ (Touches.sub (State.updIng_touch ..) (by decide))
      split
      · exact Touches.refl _
      · refine Touches.ite ?_ ?_
        · refine Touches.trans ?_ (Touches.sub (rtpRestart_touch ..) (by decide))
          refine Touches.trans ?_ (Touches.sub (State.updIng_touch ..) (by decide))
          exact Touches.refl _
        · refine Touches.trans ?_ (Touches.sub (ingCount_touch ..) (by decide))
          refine Touches.trans ?_ (Touches.sub (State.updIng_touch ..) (by decide))
          exact Touches.refl _
    · refine Touches.trans ?_ (Touches.sub (rtpTake_touch ..) (by decide))
      split
      · exact Touches.refl _
      · refine Touches.ite ?_ ?_
        · refine Touches.trans ?_ (Touches.sub (rtpRestart_touch ..) (by decide))
          refine Touches.trans ?_ (Touches.sub (State.updIng_touch ..) (by decide))
          exact Touches.refl _
        · refine Touches.trans ?_ (Touches.sub (ingCount_touch ..) (by decide))
          refine Touches.trans ?_ (Touches.sub (State.updIng_touch ..) (by decide))
          exact Touches.refl _

theorem parserTake_touch (s : State) (slot : Nat) (b : Bytes) (rtcp : Bool) :
    Touches [.scu, .moult, .rings, .nps, .streams, .frames, .engines, .resamplers, .relq, .batches, .parts, .regions, .mem, .bpm, .store, .alarms, .tu, .out, .freeIx] s (parserTake s slot b rtcp) := by
  unfold parserTake
  try conv => arg 3; zeta
  refine Touches.ite ?_ ?_
  · refine Touches.trans ?_ (Touches.sub (auDamage_touch ..) (by decide))
    exact Touches.refl _
  · refine Touches.ite ?_ ?_
    · refine Touches.trans ?_ (Touches.sub (onRtcp_touch ..) (by decide))
      exact Touches.refl _
    · refine Touches.ite ?_ ?_
      · refine Touches.trans ?_ (Touches.sub (onTs_touch ..) (by decide))
        exact Touches.refl _
      · split
        · refine Touches.trans ?_ (Touches.sub (ingCount_touch ..) (by decide))
          exact Touches.refl _
        · refine Touches.trans ?_ (Touches.sub (rtpOrder_touch ..) (by decide))
          exact Touches.refl _

theorem police_touch (s : State) (slot : Nat) (units : Nat) :
    Touches [.streams] s (police s slot units).2 := by
  unfold police
  refine Touches.itePair ?_ ?_
  · refine Touches.snd ?_
    refine Touches.trans ?_ (Touches.sub (State.updIng_touch ..) (by decide))
    exact Touches.refl _
  · refine Touches.snd ?_
    refine Touches.trans ?_ (Touches.sub (ingCount_touch ..) (by decide))
    exact Touches.refl _

theorem sourceReset_touch (s : State) (slot : Nat) :
    Touches [.rings, .streams, .frames, .parts, .bpm, .alarms, .tu, .out, .freeIx] s (sourceReset s slot) := by
  unfold sourceReset
  try conv => arg 3; zeta
  refine Touches.trans ?_ (Touches.sub (alignGroup_touch ..) (by decide))
  refine Touches.trans ?_ (Touches.sub (timelineRestart_touch ..) (by decide))
  refine Touches.trans ?_ (Touches.sub (State.updIng_touch ..) (by decide))
  refine Touches.trans ?_ (Touches.sub (dropOpenAu_touch ..) (by decide))
  exact Touches.refl _

theorem sourceLock_touch (s : State) (slot : Nat) (src : Nat) (sport : Nat) (ssrc : Option Nat) :
    Touches [.rings, .streams, .frames, .parts, .bpm, .alarms, .tu, .out, .freeIx] s (sourceLock s slot src sport ssrc) := by
  unfold sourceLock
  try conv => arg 3; zeta
  refine Touches.trans ?_ (Touches.sub (State.updIng_touch ..) (by decide))
  refine Touches.ite ?_ ?_
  · refine Touches.trans ?_ (Touches.sub (raiseLogOf_touch ..) (by decide))
    refine Touches.trans ?_ (Touches.sub (sourceReset_touch ..) (by decide))
    exact Touches.refl _
  · exact Touches.refl _

theorem datagramOffer_touch (s : State) (slot : Nat) (src : Nat) (sport : Nat) (b : Bytes) (onNext : Bool) (shared : Bool) :
    Touches [.scu, .moult, .rings, .nps, .streams, .frames, .engines, .resamplers, .relq, .batches, .parts, .regions, .mem, .bpm, .store, .alarms, .tu, .out, .freeIx] s (datagramOffer s slot src sport b onNext shared) := by
  unfold datagramOffer
  try conv => arg 3; zeta
  split
  · exact Touches.refl _
  · refine Touches.trans ?_ (Touches.sub (ingCount_touch ..) (by decide))
    exact Touches.refl _
  · split
    · rename_i v0 v1 e2
      have hv1 : Touches [.scu, .moult, .rings, .nps, .streams, .frames, .engines, .resamplers, .relq, .batches, .parts, .regions, .mem, .bpm, .store, .alarms, .tu, .out, .freeIx] s v1 := by
        refine Touches.pair e2 ?_
        refine Touches.trans ?_ (Touches.sub (police_touch ..) (by decide))
        refine Touches.trans ?_ (Touches.sub (dgramNew_touch ..) (by decide))
        exact Touches.refl _
      refine Touches.ite ?_ ?_
      · refine Touches.trans ?_ (Touches.sub (auDamage_touch ..) (by decide))
        exact hv1
      · split
        · rename_i v3 e4
          have hv3 : Touches [.scu, .moult, .rings, .nps, .streams, .frames, .engines, .resamplers, .relq, .batches, .parts, .regions, .mem, .bpm, .store, .alarms, .tu, .out, .freeIx] s v3 := by
            refine Touches.trans ?_ (Touches.sub (auRefused_touch _ _ _ _ e4) (by decide))
            exact hv1
          refine Touches.trans ?_ (Touches.sub (auDamage_touch ..) (by decide))
          refine Touches.trans ?_ (Touches.sub (ingCount_touch ..) (by decide))
          exact hv3
        · refine Touches.trans ?_ (Touches.sub (parserTake_touch ..) (by decide))
          refine Touches.ite ?_ ?_
          · refine Touches.trans ?_ (Touches.sub (ingCount_touch ..) (by decide))
            refine Touches.trans ?_ (Touches.sub (ingCount_touch ..) (by decide))
            exact hv1
          · refine Touches.trans ?_ (Touches.sub (sourceLock_touch ..) (by decide))
            refine Touches.trans ?_ (Touches.sub (ingCount_touch ..) (by decide))
            refine Touches.trans ?_ (Touches.sub (ingCount_touch ..) (by decide))
            exact hv1

theorem datagramOffers_touch (src : Nat) (sport : Nat) (b : Bytes) (shared : Bool) (x4 : List (Nat × Bool)) (x5 : State) :
    Touches [.scu, .moult, .rings, .nps, .streams, .frames, .engines, .resamplers, .relq, .batches, .parts, .regions, .mem, .bpm, .store, .alarms, .tu, .out, .freeIx] x5 (datagramOffers src sport b shared x4 x5) := by
  induction x4 generalizing x5 with
  | nil =>
    rw [datagramOffers]
    exact Touches.refl _
  | cons a t ih =>
    rw [datagramOffers]
    refine Touches.trans ?_ (ih ..)
    refine Touches.ite ?_ ?_
    · refine Touches.trans ?_ (Touches.sub (datagramOffer_touch ..) (by decide))
      exact Touches.refl _
    · exact Touches.refl _

theorem rxUdp_touch (s : State) (np : Nat) (src : Nat) (dst : Nat) (sport : Nat) (dport : Nat) (b : Bytes) :
    Touches [.scu, .moult, .rings, .nps, .streams, .frames, .engines, .resamplers, .relq, .batches, .parts, .regions, .mem, .bpm, .store, .alarms, .tu, .out, .freeIx] s (rxUdp s np src dst sport dport b) := by
  unfold rxUdp
  try conv => arg 3; zeta
  refine Touches.ite ?_ ?_
  · refine Touches.trans ?_ (Touches.sub (npCount_touch ..) (by decide))
    exact Touches.refl _
  · refine Touches.trans ?_ (Touches.sub (datagramOffers_touch ..) (by decide))
    exact Touches.refl _

theorem execFrameReceive_touch (np : Nat) (frame : Bytes) (s : State) :
    ∃ u, execFrameReceive np frame s = .next u ∧ Touches [.scu, .moult, .rings, .nps, .streams, .frames, .engines, .resamplers, .relq, .batches, .parts, .regions, .mem, .bpm, .store, .alarms, .tu, .out, .freeIx] s u := by
  unfold execFrameReceive
  try conv => enter [1, t, 1, 1]; zeta
  refine Touches.iteNext ?_ ?_
  · refine Touches.done ?_
    exact Touches.refl _
  · split
    · refine Touches.done ?_
      refine Touches.trans ?_ (Touches.sub (npCount_touch ..) (by decide))
      refine Touches.trans ?_ (Touches.sub (npCount_touch ..) (by decide))
      exact Touches.refl _
    · refine Touches.done ?_
      refine Touches.trans ?_ (Touches.sub (rxArp_touch ..) (by decide))
      refine Touches.trans ?_ (Touches.sub (npCount_touch ..) (by decide))
      exact Touches.refl _
    · refine Touches.done ?_
      refine Touches.trans ?_ (Touches.sub (rxControl_touch ..) (by decide))
      refine Touches.trans ?_ (Touches.sub (npCount_touch ..) (by decide))
      exact Touches.refl _
    · refine Touches.done ?_
      refine Touches.trans ?_ (Touches.sub (rxUdp_touch ..) (by decide))
      refine Touches.trans ?_ (Touches.sub (npCount_touch ..) (by decide))
      exact Touches.refl _

theorem execRtpJumpTimeout_touch (slot : Nat) (s : State) :
    ∃ u, execRtpJumpTimeout slot s = .next u ∧ Touches [.streams] s u := by
  unfold execRtpJumpTimeout
  refine Touches.iteNext ?_ ?_
  · refine Touches.done ?_
    refine Touches.trans ?_ (Touches.sub (ingCount_touch ..) (by decide))
    refine Touches.trans ?_ (Touches.sub (State.updIng_touch ..) (by decide))
    exact Touches.refl _
  · refine Touches.done ?_
    exact Touches.refl _

theorem execSourceLockTimeout_touch (slot : Nat) (s : State) :
    ∃ u, execSourceLockTimeout slot s = .next u ∧ Touches [.rings, .streams, .frames, .alarms, .tu, .out, .freeIx] s u := by
  unfold execSourceLockTimeout
  try conv => enter [1, t, 1, 1]; zeta
  refine Touches.iteNext ?_ ?_
  · refine Touches.done ?_
    refine Touches.trans ?_ (Touches.sub (alignGroup_touch ..) (by decide))
    refine Touches.trans ?_ (Touches.sub (raiseLogOf_touch ..) (by decide))
    refine Touches.trans ?_ (Touches.sub (State.updIng_touch ..) (by decide))
    exact Touches.refl _
  · refine Touches.done ?_
    exact Touches.refl _

theorem execRtpGapTimeout_touch (slot : Nat) (s : State) :
    ∃ u, execRtpGapTimeout slot s = .next u ∧ Touches [.scu, .moult, .rings, .nps, .streams, .frames, .engines, .resamplers, .relq, .batches, .parts, .regions, .mem, .bpm, .store, .alarms, .tu, .out, .freeIx] s u := by
  unfold execRtpGapTimeout
  refine Touches.done ?_
  refine Touches.trans ?_ (Touches.sub (rtpSkip_touch ..) (by decide))
  exact Touches.refl _

theorem execBucketRefill_touch (s : State) :
    ∃ u, execBucketRefill s = .next u ∧ Touches [.streams] s u := by
  unfold execBucketRefill
  try conv => enter [1, t, 1, 1]; zeta
  refine Touches.done ?_
  refine Touches.ofMk ?_ kp kp kp kp kp kp kp kp kp kp kp kp kp ch kp kp kp kp kp kp kp kp kp kp kp kp kp kp kp kp kp kp kp kp kp kp kp kp kp
  exact Touches.refl _

theorem execPmtWaitTimeout_touch (slot : Nat) (s : State) :
    ∃ u, execPmtWaitTimeout slot s = .next u ∧ Touches [.rings, .streams, .alarms, .tu, .out, .freeIx] s u := by
  unfold execPmtWaitTimeout
  try conv => enter [1, t, 1, 1]; zeta
  refine Touches.iteNext ?_ ?_
  · refine Touches.done ?_
    refine Touches.trans ?_ (Touches.sub (raiseLogOf_touch ..) (by decide))
    refine Touches.trans ?_ (Touches.sub (State.updIng_touch ..) (by decide))
    exact Touches.refl _
  · refine Touches.done ?_
    exact Touches.refl _

theorem execAlignmentTimeout_touch (slot : Nat) (au : Nat) (s : State) :
    ∃ u, execAlignmentTimeout slot au s = .next u ∧ Touches [.frames, .out] s u := by
  unfold execAlignmentTimeout
  split
  · refine Touches.done ?_
    exact Touches.refl _
  · refine Touches.iteNext ?_ ?_
    · refine Touches.done ?_
      exact Touches.refl _
    · refine Touches.done ?_
      refine Touches.trans ?_ (Touches.sub (alignDecide_touch ..) (by decide))
      exact Touches.refl _

theorem dropRefs_touch (slot : Nat) (x1 : List Nat) (x2 : State) :
    Touches [.frames] x2 (dropRefs slot x1 x2) := by
  induction x1 generalizing x2 with
  | nil =>
    rw [dropRefs]
    exact Touches.refl _
  | cons a t ih =>
    rw [dropRefs]
    try conv => arg 3; zeta
    refine Touches.trans ?_ (ih ..)
    refine Touches.ofMk ?_ kp kp kp kp kp kp kp kp kp kp kp kp kp kp ch kp kp kp kp kp kp kp kp kp kp kp kp kp kp kp kp kp kp kp kp kp kp kp kp
    exact Touches.refl _

theorem serve_touch (s : State) (slot : Nat) (c : Nat) :
    Touches [.streams] s (serve s slot c) := by
  unfold serve
  try conv => arg 3; zeta
  refine Touches.trans ?_ (Touches.sub (decCount_touch ..) (by decide))
  refine Touches.trans ?_ (Touches.sub (State.updDec_touch ..) (by decide))
  exact Touches.refl _

theorem takeBand_touch (s : State) (slot : Nat) (fid : Nat) :
    Touches [.rings, .streams, .frames, .parts, .mem, .bpm, .alarms, .tu, .out, .freeIx] s (takeBand s slot fid).2 := by
  unfold takeBand
  try conv => arg 3; zeta
  split
  · refine Touches.snd ?_
    exact Touches.refl _
  · refine Touches.itePair ?_ ?_
    · refine Touches.snd ?_
      exact Touches.refl _
    · split
      · rename_i v0 e1
        have hv0 : Touches [.rings, .streams, .frames, .parts, .mem, .bpm, .alarms, .tu, .out, .freeIx] s v0 := by
          refine Touches.pair e1 ?_
          refine Touches.trans ?_ (Touches.sub (bpmAlloc_touch ..) (by decide))
          exact Touches.refl _
        refine Touches.snd ?_
        exact hv0
      · rename_i v2 v3 e4
        have hv3 : Touches [.rings, .streams, .frames, .parts, .mem, .bpm, .alarms, .tu, .out, .freeIx] s v3 := by
          refine Touches.pair e4 ?_
          refine Touches.trans ?_ (Touches.sub (bpmAlloc_touch ..) (by decide))
          exact Touches.refl _
        refine Touches.snd ?_
        refine Touches.trans ?_ (Touches.sub (decCount_touch ..) (by decide))
        refine Touches.trans ?_ (Touches.sub (State.updDec_touch ..) (by decide))
        refine Touches.trans ?_ (Touches.sub (State.updFrame_touch ..) (by decide))
        exact hv3

theorem auDiscard_touch (s : State) (slot : Nat) (fid : Nat) (cause : Nat) (ctr : Nat) :
    Touches [.moult, .rings, .streams, .frames, .resamplers, .relq, .batches, .parts, .regions, .mem, .bpm, .store, .alarms, .tu, .out, .freeIx] s (auDiscard s slot fid cause ctr) := by
  unfold auDiscard
  refine Touches.trans ?_ (Touches.sub (decCount_touch ..) (by decide))
  refine Touches.trans ?_ (Touches.sub (discardFrame_touch ..) (by decide))
  exact Touches.refl _

theorem parseApply_touch (s : State) (slot : Nat) (fid : Nat) (x3 : ParseVerdict) :
    Touches [.moult, .rings, .streams, .frames, .resamplers, .relq, .batches, .parts, .regions, .mem, .bpm, .store, .alarms, .tu, .out, .freeIx] s (parseApply s slot fid x3) := by
  unfold parseApply
  try conv => arg 3; zeta
  split
  · refine Touches.trans ?_ (Touches.sub (decLog_touch ..) (by decide))
    refine Touches.trans ?_ (Touches.sub (decCount_touch ..) (by decide))
    refine Touches.trans ?_ (Touches.sub (auDiscard_touch ..) (by decide))
    refine Touches.trans ?_ (Touches.sub (State.updDec_touch ..) (by decide))
    exact Touches.refl _
  · refine Touches.trans ?_ (Touches.sub (auDiscard_touch ..) (by decide))
    exact Touches.refl _
  · refine Touches.trans ?_ (Touches.sub (auDiscard_touch ..) (by decide))
    refine Touches.trans ?_ (Touches.sub (State.updDec_touch ..) (by decide))
    exact Touches.refl _
  · refine Touches.trans ?_ (Touches.sub (discardFrame_touch ..) (by decide))
    exact Touches.refl _
  · refine Touches.ite ?_ ?_
    · refine Touches.trans ?_ (Touches.sub (auDiscard_touch ..) (by decide))
      exact Touches.refl _
    · refine Touches.ite ?_ ?_
      · refine Touches.trans ?_ (Touches.sub (auDiscard_touch ..) (by decide))
        exact Touches.refl _
      · refine Touches.trans ?_ (Touches.sub (discardFrame_touch ..) (by decide))
        exact Touches.refl _
  · exact Touches.refl _

theorem parseSettle_touch (slot : Nat) (x1 : Nat) (x2 : State) :
    Touches [.moult, .rings, .streams, .frames, .resamplers, .relq, .batches, .parts, .regions, .mem, .bpm, .store, .alarms, .tu, .out, .freeIx] x2 (parseSettle slot x1 x2) := by
  induction x1 generalizing x2 with
  | zero =>
    rw [parseSettle]
    exact Touches.refl _
  | succ k ih =>
    rw [parseSettle]
    split
    · exact Touches.refl _
    · exact Touches.refl _
    · refine Touches.trans ?_ (ih ..)
      refine Touches.trans ?_ (Touches.sub (parseApply_touch ..) (by decide))
      exact Touches.refl _

theorem beginPicture_touch (s : State) (slot : Nat) :
    Touches [.moult, .rings, .streams, .frames, .resamplers, .relq, .batches, .parts, .regions, .mem, .bpm, .store, .alarms, .tu, .out, .freeIx] s (beginPicture s slot) := by
  unfold beginPicture
  try conv => arg 3; zeta
  split
  · exact Touches.refl _
  · refine Touches.trans ?_ (Touches.sub (parseSettle_touch ..) (by decide))
    refine Touches.trans ?_ (Touches.sub (State.updDec_touch ..) (by decide))
    exact Touches.refl _

theorem limboParse_touch (s : State) (slot : Nat) (fid : Nat) (h : PicHdr) :
    Touches [.moult, .rings, .streams, .frames, .resamplers, .relq, .batches, .parts, .regions, .mem, .bpm, .store, .alarms, .tu, .out, .freeIx] s (limboParse s slot fid h) := by
  unfold limboParse
  try conv => arg 3; zeta
  refine Touches.ite ?_ ?_
  · refine Touches.foldl (fun y0 _ => ?_) ?_ _
    · refine Touches.trans ?_ (Touches.sub (auHold_touch ..) (by decide))
      exact Touches.refl _
    · refine Touches.trans ?_ (Touches.sub (State.updDec_touch ..) (by decide))
      exact Touches.refl _
  · refine Touches.trans ?_ (Touches.sub (auDiscard_touch ..) (by decide))
    exact Touches.refl _

theorem noteReady_touch (v : Option Rat) (x1 : List Nat) (x2 : State) :
    Touches [.streams] x2 (noteReady v x1 x2) := by
  induction x1 generalizing x2 with
  | nil =>
    rw [noteReady]
    exact Touches.refl _
  | cons a t ih =>
    rw [noteReady]
    refine Touches.trans ?_ (ih ..)
    refine Touches.trans ?_ (Touches.sub (State.updDec_touch ..) (by decide))
    exact Touches.refl _

theorem engineNote_touch (s : State) (g : Nat) :
    Touches [.streams] s (engineNote s g) := by
  unfold engineNote
  try conv => arg 3; zeta
  refine Touches.trans ?_ (Touches.sub (noteReady_touch ..) (by decide))
  exact Touches.refl _

theorem engineServe_touch (s : State) (g : Nat) (slot : Nat) (c : Nat) :
    Touches [.streams, .engines] s (engineServe s g slot c) := by
  unfold engineServe
  try conv => arg 3; zeta
  refine Touches.ofMk ?_ kp kp kp kp kp kp kp kp kp kp kp kp kp kp kp ch kp kp kp kp kp kp kp kp kp kp kp kp kp kp kp kp kp kp kp kp kp kp kp
  refine Touches.trans ?_ (Touches.sub (serve_touch ..) (by decide))
  refine Touches.trans ?_ (Touches.sub (engineNote_touch ..) (by decide))
  exact Touches.refl _

theorem dropOversize_touch (s : State) (slot : Nat) (fid : Nat) :
    Touches [.moult, .rings, .streams, .frames, .resamplers, .relq, .batches, .parts, .regions, .mem, .bpm, .store, .alarms, .tu, .out, .freeIx] s (dropOversize s slot fid) := by
  unfold dropOversize
  try conv => arg 3; zeta
  refine Touches.trans ?_ (Touches.sub (rollback_touch ..) (by decide))
  refine Touches.trans ?_ (Touches.sub (raiseLogOf_touch ..) (by decide))
  refine Touches.trans ?_ (Touches.sub (sweepSlot_touch ..) (by decide))
  refine Touches.ite ?_ ?_
  · refine Touches.trans ?_ (Touches.sub (freeBands_touch ..) (by decide))
    refine Touches.ofMk ?_ kp kp kp kp kp kp kp kp kp kp kp kp kp kp ch kp kp kp kp kp kp kp kp kp kp kp kp kp kp kp kp kp kp kp kp kp kp kp kp
    refine Touches.trans ?_ (Touches.sub (decCount_touch ..) (by decide))
    refine Touches.trans ?_ (Touches.sub (discardFrame_touch ..) (by decide))
    exact Touches.refl _
  · refine Touches.ofMk ?_ kp kp kp kp kp kp kp kp kp kp kp kp kp kp ch kp kp kp kp kp kp kp kp kp kp kp kp kp kp kp kp kp kp kp kp kp kp kp kp
    refine Touches.trans ?_ (Touches.sub (decCount_touch ..) (by decide))
    refine Touches.trans ?_ (Touches.sub (discardFrame_touch ..) (by decide))
    exact Touches.refl _

theorem takeBands_touch (slot fid n : Nat) (s : State) : Touches [.rings, .streams, .frames, .parts, .mem, .bpm, .alarms, .tu, .out, .freeIx] s (takeBands slot fid n s).2 := by
  induction n generalizing s with
  | zero => exact Touches.refl s
  | succ n ih =>
    rw [takeBands]
    have h : Touches [.rings, .streams, .frames, .parts, .mem, .bpm, .alarms, .tu, .out, .freeIx] s (takeBand s slot fid).2 := Touches.sub (takeBand_touch s slot fid) (by decide)
    split
    · rename_i e
      exact (Touches.pair e h).trans (ih _)
    · exact h

theorem reachBands_touch (s : State) (slot : Nat) (fid : Nat) (n : Nat) :
    Touches [.moult, .rings, .streams, .frames, .resamplers, .relq, .batches, .parts, .regions, .mem, .bpm, .store, .alarms, .tu, .out, .freeIx] s (reachBands s slot fid n).2 := by
  unfold reachBands
  split
  · rename_i v0 e1
    have hv0 : Touches [.moult, .rings, .streams, .frames, .resamplers, .relq, .batches, .parts, .regions, .mem, .bpm, .store, .alarms, .tu, .out, .freeIx] s v0 := by
      refine Touches.pair e1 ?_
      refine Touches.trans ?_ (Touches.sub (takeBands_touch ..) (by decide))
      exact Touches.refl _
    refine Touches.snd ?_
    exact hv0
  · rename_i v2 e3
    have hv2 : Touches [.moult, .rings, .streams, .frames, .resamplers, .relq, .batches, .parts, .regions, .mem, .bpm, .store, .alarms, .tu, .out, .freeIx] s v2 := by
      refine Touches.pair e3 ?_
      refine Touches.trans ?_ (Touches.sub (takeBands_touch ..) (by decide))
      exact Touches.refl _
    refine Touches.itePair ?_ ?_
    · refine Touches.snd ?_
      exact hv2
    · refine Touches.snd ?_
      refine Touches.trans ?_ (Touches.sub (decCount_touch ..) (by decide))
      refine Touches.trans ?_ (Touches.sub (State.updDec_touch ..) (by decide))
      exact hv2
  · rename_i v4 e5
    have hv4 : Touches [.moult, .rings, .streams, .frames, .resamplers, .relq, .batches, .parts, .regions, .mem, .bpm, .store, .alarms, .tu, .out, .freeIx] s v4 := by
      refine Touches.pair e5 ?_
      refine Touches.trans ?_ (Touches.sub (takeBands_touch ..) (by decide))
      exact Touches.refl _
    refine Touches.snd ?_
    refine Touches.trans ?_ (Touches.sub (dropOversize_touch ..) (by decide))
    refine Touches.trans ?_ (Touches.sub (State.updDec_touch ..) (by decide))
    exact hv4

theorem engineRun_touch (s : State) (g : Nat) (cycles : Nat) (bands : Nat) (damage : Bool) :
    Touches [.moult, .rings, .streams, .frames, .engines, .resamplers, .relq, .batches, .parts, .regions, .mem, .bpm, .store, .alarms, .tu, .out, .freeIx] s (engineRun s g cycles bands damage) := by
  unfold engineRun
  try conv => arg 3; zeta
  split
  · exact Touches.refl _
  · refine Touches.ite ?_ ?_
    · refine Touches.trans ?_ (Touches.sub (rollback_touch ..) (by decide))
      split
      · refine Touches.trans ?_ (Touches.sub (engineServe_touch ..) (by decide))
        exact Touches.refl _
      · refine Touches.trans ?_ (Touches.sub (reachBands_touch ..) (by decide))
        refine Touches.trans ?_ (Touches.sub (engineServe_touch ..) (by decide))
        exact Touches.refl _
    · split
      · refine Touches.trans ?_ (Touches.sub (engineServe_touch ..) (by decide))
        exact Touches.refl _
      · refine Touches.trans ?_ (Touches.sub (reachBands_touch ..) (by decide))
        refine Touches.trans ?_ (Touches.sub (engineServe_touch ..) (by decide))
        exact Touches.refl _

theorem execParseAhead_touch (slot : Nat) (hdr : PicHdr) (s : State) :
    ∃ u, execParseAhead slot hdr s = .next u ∧ Touches [.moult, .rings, .streams, .frames, .resamplers, .relq, .batches, .parts, .regions, .mem, .bpm, .store, .alarms, .tu, .out, .freeIx] s u := by
  unfold execParseAhead
  try conv => enter [1, t, 1, 1]; zeta
  split
  · refine Touches.done ?_
    refine Touches.trans ?_ (Touches.sub (parseSettle_touch ..) (by decide))
    exact Touches.refl _
  · refine Touches.iteNext ?_ ?_
    · refine Touches.done ?_
      refine Touches.trans ?_ (Touches.sub (parseSettle_touch ..) (by decide))
      refine Touches.trans ?_ (Touches.sub (limboParse_touch ..) (by decide))
      exact Touches.refl _
    · refine Touches.done ?_
      refine Touches.trans ?_ (Touches.sub (parseSettle_touch ..) (by decide))
      refine Touches.trans ?_ (Touches.sub (State.updDec_touch ..) (by decide))
      refine Touches.trans ?_ (Touches.sub (State.updFrame_touch ..) (by decide))
      exact Touches.refl _

theorem resampleLogs_touch (s : State) (slot : Nat) (hdr : Bool) (cropped : Bool) :
    Touches [.rings, .streams, .alarms, .tu, .out, .freeIx] s (resampleLogs s slot hdr cropped) := by
  unfold resampleLogs
  try conv => arg 3; zeta
  refine Touches.ite ?_ ?_
  · refine Touches.trans ?_ (Touches.sub (raiseLogOf_touch ..) (by decide))
    refine Touches.trans ?_ (Touches.sub (State.updDec_touch ..) (by decide))
    refine Touches.ite ?_ ?_
    · refine Touches.trans ?_ (Touches.sub (raiseLogOf_touch ..) (by decide))
      refine Touches.trans ?_ (Touches.sub (State.updDec_touch ..) (by decide))
      exact Touches.refl _
    · exact Touches.refl _
  · refine Touches.ite ?_ ?_
    · refine Touches.trans ?_ (Touches.sub (raiseLogOf_touch ..) (by decide))
      refine Touches.trans ?_ (Touches.sub (State.updDec_touch ..) (by decide))
      exact Touches.refl _
    · exact Touches.refl _

theorem resampTake_touch (s : State) (rs : Nat) (fid : Nat) :
    Touches [.resamplers, .relq] s (resampTake s rs fid) := by
  unfold resampTake
  refine Touches.ofMk ?_ kp kp kp kp kp kp kp kp kp kp kp kp kp kp kp kp ch ch kp kp kp kp kp kp kp kp kp kp kp kp kp kp kp kp kp kp kp kp kp
  exact Touches.refl _

theorem stageMembers_touch (l : List (Option Nat)) (s : State) : Touches [.frames, .out] s (stageMembers l s) := by
  induction l generalizing s with
  | nil => exact Touches.refl _
  | cons a t ih =>
    cases a with
    | none => exact ih s
    | some i => exact (Touches.sub (frameStage_touch ..) (by decide)).trans (ih _)

theorem abandonPicture_touch (s : State) (slot : Nat) :
    Touches [.streams] s (abandonPicture s slot) := by
  unfold abandonPicture
  split
  · exact Touches.refl _
  · refine Touches.ite ?_ ?_
    · exact Touches.refl _
    · refine Touches.trans ?_ (Touches.sub (decCount_touch ..) (by decide))
      refine Touches.trans ?_ (Touches.sub (State.updDec_touch ..) (by decide))
      exact Touches.refl _

theorem execPictureBudgetExceeded_touch (engine : Nat) (cycles : Nat) (atSlice : Bool) (s : State) :
    ∃ u, execPictureBudgetExceeded engine cycles atSlice s = .next u ∧ Touches [.streams, .engines] s u := by
  unfold execPictureBudgetExceeded
  try conv => enter [1, t, 1, 1]; zeta
  split
  · refine Touches.done ?_
    exact Touches.refl _
  · split
    · refine Touches.done ?_
      refine Touches.trans ?_ (Touches.sub (engineServe_touch ..) (by decide))
      exact Touches.refl _
    · refine Touches.iteNext ?_ ?_
      · refine Touches.done ?_
        refine Touches.trans ?_ (Touches.sub (abandonPicture_touch ..) (by decide))
        refine Touches.trans ?_ (Touches.sub (engineServe_touch ..) (by decide))
        exact Touches.refl _
      · refine Touches.done ?_
        refine Touches.trans ?_ (Touches.sub (engineServe_touch ..) (by decide))
        exact Touches.refl _

theorem stepDiscard_touch (s : State) (slot : Nat) :
    Touches [.streams, .mem, .store] s (stepDiscard s slot) := by
  unfold stepDiscard
  try conv => arg 3; zeta
  refine Touches.trans ?_ (Touches.sub (recSet_touch ..) (by decide))
  refine Touches.trans ?_ (Touches.sub (State.updStream_touch ..) (by decide))
  exact Touches.refl _

theorem resampWork_touch (s : State) (rs : Nat) (fid : Nat) :
    Touches [.rings, .streams, .frames, .resamplers, .relq, .parts, .mem, .bpm, .alarms, .tu, .out, .freeIx] s (resampWork s rs fid) := by
  unfold resampWork
  try conv => arg 3; zeta
  split
  · split
    · exact Touches.refl _
    · split
      · rename_i v0 e1
        have hv0 : Touches [.rings, .streams, .frames, .resamplers, .relq, .parts, .mem, .bpm, .alarms, .tu, .out, .freeIx] s v0 := by
          refine Touches.pair e1 ?_
          refine Touches.trans ?_ (Touches.sub (bpmAlloc_touch ..) (by decide))
          exact Touches.refl _
        exact hv0
      · rename_i v2 v3 e4
        have hv3 : Touches [.rings, .streams, .frames, .resamplers, .relq, .parts, .mem, .bpm, .alarms, .tu, .out, .freeIx] s v3 := by
          refine Touches.pair e4 ?_
          refine Touches.trans ?_ (Touches.sub (bpmAlloc_touch ..) (by decide))
          exact Touches.refl _
        refine Touches.trans ?_ (Touches.sub (resampTake_touch ..) (by decide))
        refine Touches.trans ?_ (Touches.sub (resampleLogs_touch ..) (by decide))
        refine Touches.trans ?_ (Touches.sub (State.updFrame_touch ..) (by decide))
        exact hv3

theorem trainRefresh_touch (s : State) (slot : Nat) :
    Touches [.streams, .mem, .store] s (trainRefresh s slot) := by
  unfold trainRefresh
  try conv => arg 3; zeta
  refine Touches.ite ?_ ?_
  · refine Touches.trans ?_ (Touches.sub (stepDiscard_touch ..) (by decide))
    refine Touches.trans ?_ (Touches.sub (State.updStream_touch ..) (by decide))
    exact Touches.refl _
  · refine Touches.trans ?_ (Touches.sub (State.updStream_touch ..) (by decide))
    exact Touches.refl _

theorem batchClose_touch (s : State) (b : Nat) :
    Touches [.streams, .frames, .batches, .parts, .mem, .store, .out] s (batchClose s b) := by
  unfold batchClose
  try conv => arg 3; zeta
  split
  · exact Touches.refl _
  · refine Touches.ite ?_ ?_
    · exact Touches.refl _
    · refine Touches.ite ?_ ?_
      · refine Touches.ofMk ?_ kp kp kp kp kp kp kp kp kp kp kp kp kp kp kp kp kp kp ch kp kp kp kp kp kp kp kp kp kp kp kp kp kp kp kp kp kp kp kp
        exact Touches.refl _
      · refine Touches.trans ?_ (Touches.sub (stageMembers_touch ..) (by decide))
        refine Touches.foldl (fun y0 _ => ?_) ?_ _
        · refine Touches.trans ?_ (Touches.sub (trainRefresh_touch ..) (by decide))
          exact Touches.refl _
        · refine Touches.trans ?_ (Touches.sub (State.updPart_touch ..) (by decide))
          refine Touches.trans ?_ (Touches.sub (State.updBatch_touch ..) (by decide))
          exact Touches.refl _

theorem batchOpen_touch (s : State) (k : Nat × List Nat × Nat × Nat) (fid : Nat) :
    Touches [.batches] s (batchOpen s k fid) := by
  unfold batchOpen
  try conv => arg 3; zeta
  refine Touches.ofMk ?_ kp kp kp kp kp kp kp kp kp kp kp kp kp kp kp kp kp kp ch kp kp kp kp kp kp kp kp kp kp kp kp kp kp kp kp kp kp kp kp
  exact Touches.refl _

theorem batchJoin_touch (s : State) (fid : Nat) :
    Touches [.streams, .frames, .batches, .parts, .mem, .store, .out] s (batchJoin s fid) := by
  unfold batchJoin
  try conv => arg 3; zeta
  split
  · refine Touches.trans ?_ (Touches.sub (State.updFrame_touch ..) (by decide))
    refine Touches.trans ?_ (Touches.sub (batchOpen_touch ..) (by decide))
    exact Touches.refl _
  · split
    · refine Touches.trans ?_ (Touches.sub (State.updFrame_touch ..) (by decide))
      refine Touches.trans ?_ (Touches.sub (batchOpen_touch ..) (by decide))
      exact Touches.refl _
    · refine Touches.ite ?_ ?_
      · refine Touches.trans ?_ (Touches.sub (State.updFrame_touch ..) (by decide))
        refine Touches.trans ?_ (Touches.sub (batchOpen_touch ..) (by decide))
        refine Touches.trans ?_ (Touches.sub (batchClose_touch ..) (by decide))
        exact Touches.refl _
      · refine Touches.ite ?_ ?_
        · refine Touches.trans ?_ (Touches.sub (batchClose_touch ..) (by decide))
          refine Touches.trans ?_ (Touches.sub (State.updFrame_touch ..) (by decide))
          refine Touches.trans ?_ (Touches.sub (State.updBatch_touch ..) (by decide))
          exact Touches.refl _
        · refine Touches.trans ?_ (Touches.sub (State.updFrame_touch ..) (by decide))
          refine Touches.trans ?_ (Touches.sub (State.updBatch_touch ..) (by decide))
          exact Touches.refl _

theorem execResampleDone_touch (rs : Nat) (s : State) :
    ∃ u, execResampleDone rs s = .next u ∧ Touches [.moult, .rings, .streams, .frames, .resamplers, .batches, .parts, .mem, .bpm, .store, .alarms, .tu, .out, .freeIx] s u := by
  unfold execResampleDone
  try conv => enter [1, t, 1, 1]; zeta
  split
  · refine Touches.done ?_
    exact Touches.refl _
  · split
    · refine Touches.done ?_
      refine Touches.trans ?_ (Touches.sub (sweepSlots_touch ..) (by decide))
      refine Touches.ite ?_ ?_
      · refine Touches.trans ?_ (Touches.sub (frameStage_touch ..) (by decide))
        refine Touches.trans ?_ (Touches.sub (State.updFrame_touch ..) (by decide))
        refine Touches.ofMk ?_ kp kp kp kp kp kp kp kp kp kp kp kp kp kp kp kp ch kp kp kp kp kp kp kp kp kp kp kp kp kp kp kp kp kp kp kp kp kp kp
        exact Touches.refl _
      · refine Touches.trans ?_ (Touches.sub (batchJoin_touch ..) (by decide))
        refine Touches.trans ?_ (Touches.sub (frameStage_touch ..) (by decide))
        refine Touches.trans ?_ (Touches.sub (State.updFrame_touch ..) (by decide))
        refine Touches.ofMk ?_ kp kp kp kp kp kp kp kp kp kp kp kp kp kp kp kp ch kp kp kp kp kp kp kp kp kp kp kp kp kp kp kp kp kp kp kp kp kp kp
        exact Touches.refl _

theorem execResamplePicture_touch (rs : Nat) (s : State) :
    ∃ u, execResamplePicture rs s = .next u ∧ Touches [.rings, .streams, .frames, .resamplers, .relq, .parts, .mem, .bpm, .alarms, .tu, .out, .freeIx] s u := by
  unfold execResamplePicture
  try conv => enter [1, t, 1, 1]; zeta
  refine Touches.iteNext ?_ ?_
  · refine Touches.done ?_
    exact Touches.refl _
  · split
    · refine Touches.done ?_
      exact Touches.refl _
    · refine Touches.iteNext ?_ ?_
      · refine Touches.done ?_
        refine Touches.trans ?_ (Touches.sub (resampTake_touch ..) (by decide))
        refine Touches.trans ?_ (Touches.sub (State.updFrame_touch ..) (by decide))
        exact Touches.refl _
      · refine Touches.done ?_
        refine Touches.trans ?_ (Touches.sub (resampWork_touch ..) (by decide))
        exact Touches.refl _

theorem switchIn_touch (s : State) (g : Nat) :
    Touches [.moult, .rings, .streams, .frames, .engines, .resamplers, .relq, .batches, .parts, .regions, .mem, .bpm, .store, .alarms, .tu, .out, .freeIx] s (switchIn s g) := by
  unfold switchIn
  try conv => arg 3; zeta
  split
  · refine Touches.ofMk ?_ kp kp kp kp kp kp kp kp kp kp kp kp kp kp kp ch kp kp kp kp kp kp kp kp kp kp kp kp kp kp kp kp kp kp kp kp kp kp kp
    refine Touches.trans ?_ (Touches.sub (engineNote_touch ..) (by decide))
    exact Touches.refl _
  · refine Touches.ite ?_ ?_
    · refine Touches.trans ?_ (Touches.sub (beginPicture_touch ..) (by decide))
      refine Touches.ofMk ?_ kp kp kp kp kp kp kp kp kp kp kp kp kp kp kp ch kp kp kp kp kp kp kp kp kp kp kp kp kp kp kp kp kp kp kp kp kp kp kp
      refine Touches.ite ?_ ?_
      · refine Touches.trans ?_ (Touches.sub (engineNote_touch ..) (by decide))
        exact Touches.refl _
      · refine Touches.trans ?_ (Touches.sub (State.updDec_touch ..) (by decide))
        refine Touches.trans ?_ (Touches.sub (engineNote_touch ..) (by decide))
        exact Touches.refl _
    · refine Touches.ofMk ?_ kp kp kp kp kp kp kp kp kp kp kp kp kp kp kp ch kp kp kp kp kp kp kp kp kp kp kp kp kp kp kp kp kp kp kp kp kp kp kp
      refine Touches.ite ?_ ?_
      · refine Touches.trans ?_ (Touches.sub (engineNote_touch ..) (by decide))
        exact Touches.refl _
      · refine Touches.trans ?_ (Touches.sub (State.updDec_touch ..) (by decide))
        refine Touches.trans ?_ (Touches.sub (engineNote_touch ..) (by decide))
        exact Touches.refl _

theorem releasePics_touch (slot : Nat) (x1 : List Nat) (x2 : State) :
    Touches [.streams, .frames, .relq] x2 (releasePics slot x1 x2) := by
  induction x1 generalizing x2 with
  | nil =>
    rw [releasePics]
    exact Touches.refl _
  | cons a t ih =>
    rw [releasePics]
    try conv => arg 3; zeta
    split
    · refine Touches.trans ?_ (ih ..)
      exact Touches.refl _
    · refine Touches.ite ?_ ?_
      · refine Touches.trans ?_ (ih ..)
        exact Touches.refl _
      · refine Touches.trans ?_ (ih ..)
        refine Touches.ofMk ?_ kp kp kp kp kp kp kp kp kp kp kp kp kp kp kp kp kp ch kp kp kp kp kp kp kp kp kp kp kp kp kp kp kp kp kp kp kp kp kp
        refine Touches.trans ?_ (Touches.sub (decCount_touch ..) (by decide))
        refine Touches.trans ?_ (Touches.sub (State.updDec_touch ..) (by decide))
        refine Touches.trans ?_ (Touches.sub (State.updFrame_touch ..) (by decide))
        exact Touches.refl _

theorem execBatchTimeout_touch (batch : Nat) (s : State) :
    ∃ u, execBatchTimeout batch s = .next u ∧ Touches [.streams, .frames, .batches, .parts, .mem, .store, .out] s u := by
  unfold execBatchTimeout
  refine Touches.done ?_
  refine Touches.trans ?_ (Touches.sub (batchClose_touch ..) (by decide))
  exact Touches.refl _

theorem commitPicture_touch (s : State) (slot : Nat) (fid : Nat) (c : Nat) (o : PicOut) :
    Touches [.moult, .rings, .streams, .frames, .relq, .parts, .bpm, .alarms, .tu, .out, .freeIx] s (commitPicture s slot fid c o) := by
  unfold commitPicture
  try conv => arg 3; zeta
  refine Touches.trans ?_ (Touches.sub (sweepSlots_touch ..) (by decide))
  refine Touches.trans ?_ (Touches.sub (releasePics_touch ..) (by decide))
  refine Touches.trans ?_ (Touches.sub (dropRefs_touch ..) (by decide))
  refine Touches.trans ?_ (Touches.sub (frameStage_touch ..) (by decide))
  refine Touches.trans ?_ (Touches.sub (freeIngress_touch ..) (by decide))
  refine Touches.ite ?_ ?_
  · refine Touches.trans ?_ (Touches.sub (State.updDec_touch ..) (by decide))
    refine Touches.trans ?_ (Touches.sub (State.updFrame_touch ..) (by decide))
    exact Touches.refl _
  · refine Touches.trans ?_ (Touches.sub (rollback_touch ..) (by decide))
    refine Touches.trans ?_ (Touches.sub (decCount_touch ..) (by decide))
    refine Touches.trans ?_ (Touches.sub (State.updDec_touch ..) (by decide))
    refine Touches.trans ?_ (Touches.sub (State.updFrame_touch ..) (by decide))
    exact Touches.refl _

theorem execPictureDecoded_touch (engine : Nat) (cycles : Nat) (out : PicOut) (s : State) :
    ∃ u, execPictureDecoded engine cycles out s = .next u ∧ Touches [.moult, .rings, .streams, .frames, .engines, .resamplers, .relq, .batches, .parts, .regions, .mem, .bpm, .store, .alarms, .tu, .out, .freeIx] s u := by
  unfold execPictureDecoded
  try conv => enter [1, t, 1, 1]; zeta
  split
  · refine Touches.done ?_
    exact Touches.refl _
  · split
    · refine Touches.done ?_
      refine Touches.trans ?_ (Touches.sub (engineServe_touch ..) (by decide))
      exact Touches.refl _
    · split
      · rename_i v0 e1
        have hv0 : Touches [.moult, .rings, .streams, .frames, .engines, .resamplers, .relq, .batches, .parts, .regions, .mem, .bpm, .store, .alarms, .tu, .out, .freeIx] s v0 := by
          refine Touches.pair e1 ?_
          refine Touches.trans ?_ (Touches.sub (reachBands_touch ..) (by decide))
          refine Touches.trans ?_ (Touches.sub (engineServe_touch ..) (by decide))
          exact Touches.refl _
        refine Touches.done ?_
        exact hv0
      · rename_i v2 e3
        have hv2 : Touches [.moult, .rings, .streams, .frames, .engines, .resamplers, .relq, .batches, .parts, .regions, .mem, .bpm, .store, .alarms, .tu, .out, .freeIx] s v2 := by
          refine Touches.pair e3 ?_
          refine Touches.trans ?_ (Touches.sub (reachBands_touch ..) (by decide))
          refine Touches.trans ?_ (Touches.sub (engineServe_touch ..) (by decide))
          exact Touches.refl _
        refine Touches.done ?_
        refine Touches.trans ?_ (Touches.sub (commitPicture_touch ..) (by decide))
        exact hv2

theorem execDecodeSwitch_touch (engine : Nat) (cycles : Nat) (bands : Nat) (damage : Bool) (s : State) :
    ∃ u, execDecodeSwitch engine cycles bands damage s = .next u ∧ Touches [.moult, .rings, .streams, .frames, .engines, .resamplers, .relq, .batches, .parts, .regions, .mem, .bpm, .store, .alarms, .tu, .out, .freeIx] s u := by
  unfold execDecodeSwitch
  try conv => enter [1, t, 1, 1]; zeta
  refine Touches.iteNext ?_ ?_
  · refine Touches.done ?_
    exact Touches.refl _
  · refine Touches.done ?_
    refine Touches.ite ?_ ?_
    · refine Touches.trans ?_ (Touches.sub (switchIn_touch ..) (by decide))
      refine Touches.trans ?_ (Touches.sub (engineRun_touch ..) (by decide))
      exact Touches.refl _
    · refine Touches.trans ?_ (Touches.sub (engineRun_touch ..) (by decide))
      exact Touches.refl _

theorem execBlockCycleLimit_touch (engine : Nat) (cycles : Nat) (s : State) :
    ∃ u, execBlockCycleLimit engine cycles s = .next u ∧ Touches [.streams, .engines] s u := by
  unfold execBlockCycleLimit
  split
  · refine Touches.done ?_
    exact Touches.refl _
  · refine Touches.done ?_
    refine Touches.trans ?_ (Touches.sub (abandonPicture_touch ..) (by decide))
    refine Touches.trans ?_ (Touches.sub (engineServe_touch ..) (by decide))
    exact Touches.refl _

end Sys2Proof.Machine
end

