-- ==== Sys2Proof/Laws/TouchesFabric.lean ====
section
/-! SUPPORT. Which parts of the state each operation of these files of Machine/ can change, as `Touches` names them: Weights, Infer, Fence, Admission, Dram, Semaphores, Mapping, Sram, Fabric, Adaptation. -/

set_option Elab.async false

set_option linter.unusedVariables false

namespace Sys2Proof.Machine

open Sys2Proof (Bytes Byte Word)

theorem placeGraph_touch (s : State) (g : Bytes) (base : Nat) :
    Touches [.mem] s (placeGraph s g base) := by
  unfold placeGraph
  refine Touches.foldl (fun y0 _ => ?_) ?_ _
  · refine Touches.trans ?_ (Touches.sub (dramWrite_touch ..) (by decide))
    exact Touches.refl _
  · refine Touches.trans ?_ (Touches.sub (dramWrite_touch ..) (by decide))
    exact Touches.refl _

theorem placeGraphs_touch (at_ : Map Nat) (x1 : Map Bytes) (x2 : State) :
    Touches [.mem] x2 (placeGraphs at_ x1 x2) := by
  induction x1 generalizing x2 with
  | nil =>
    rw [placeGraphs]
    exact Touches.refl _
  | cons a t ih =>
    rw [placeGraphs]
    refine Touches.trans ?_ (ih ..)
    refine Touches.trans ?_ (Touches.sub (placeGraph_touch ..) (by decide))
    exact Touches.refl _

theorem swoCount_touch (s : State) (slot : Nat) (k : Nat) (n : Nat) :
    Touches [.streams] s (swoCount s slot k n) := by
  unfold swoCount
  refine Touches.trans ?_ (Touches.sub (State.updStream_touch ..) (by decide))
  exact Touches.refl _

theorem countOperator_touch (s : State) (slot : Nat) (e : OpEnv) (l : Bytes) (y : Nat) (x : Nat) :
    Touches [.streams] s (countOperator s slot e l y x) := by
  unfold countOperator
  try conv => arg 3; zeta
  refine Touches.ite ?_ ?_
  · refine Touches.ite ?_ ?_
    · refine Touches.ite ?_ ?_
      · refine Touches.trans ?_ (Touches.sub (swoCount_touch ..) (by decide))
        refine Touches.trans ?_ (Touches.sub (swoCount_touch ..) (by decide))
        refine Touches.ite ?_ ?_
        · refine Touches.trans ?_ (Touches.sub (swoCount_touch ..) (by decide))
          exact Touches.refl _
        · exact Touches.refl _
      · refine Touches.trans ?_ (Touches.sub (swoCount_touch ..) (by decide))
        refine Touches.ite ?_ ?_
        · refine Touches.trans ?_ (Touches.sub (swoCount_touch ..) (by decide))
          exact Touches.refl _
        · exact Touches.refl _
    · refine Touches.ite ?_ ?_
      · refine Touches.trans ?_ (Touches.sub (swoCount_touch ..) (by decide))
        exact Touches.refl _
      · exact Touches.refl _
  · refine Touches.ite ?_ ?_
    · refine Touches.trans ?_ (Touches.sub (swoCount_touch ..) (by decide))
      refine Touches.trans ?_ (Touches.sub (swoCount_touch ..) (by decide))
      exact Touches.refl _
    · exact Touches.refl _

theorem qntCount_touch (s : State) (slot : Nat) (k : Nat) (n : Nat) :
    Touches [.streams] s (qntCount s slot k n) := by
  unfold qntCount
  refine Touches.trans ?_ (Touches.sub (State.updStream_touch ..) (by decide))
  exact Touches.refl _

theorem commitPos_touch (s : State) (cx : Nat) (p : Nat) (f : Frame) (e : OpEnv) (cmd : CellCmd) (y : Nat) (x : Nat) :
    Touches [.streams, .ctxs] s (commitPos s cx p f e cmd y x) := by
  unfold commitPos
  try conv => arg 3; zeta
  refine Touches.trans ?_ (Touches.sub (State.updCtx_touch ..) (by decide))
  refine Touches.ite ?_ ?_
  · refine Touches.trans ?_ (Touches.sub (qntCount_touch ..) (by decide))
    refine Touches.trans ?_ (Touches.sub (qntCount_touch ..) (by decide))
    refine Touches.ite ?_ ?_
    · refine Touches.trans ?_ (Touches.sub (countOperator_touch ..) (by decide))
      exact Touches.refl _
    · exact Touches.refl _
  · refine Touches.ite ?_ ?_
    · refine Touches.trans ?_ (Touches.sub (countOperator_touch ..) (by decide))
      exact Touches.refl _
    · exact Touches.refl _

theorem commitSearch_touch (s : State) (cx : Nat) (p : Nat) (f : Frame) (cmd : CellCmd) :
    Touches [.ctxs] s (commitSearch s cx p f cmd) := by
  unfold commitSearch
  try conv => arg 3; zeta
  refine Touches.trans ?_ (Touches.sub (State.updCtx_touch ..) (by decide))
  exact Touches.refl _

theorem applyTable_touch (s : State) (f : Frame) (graph : Nat) (t : Nat) (q : QTable) :
    Touches [.streams, .mem, .store] s (applyTable s f graph t q) := by
  unfold applyTable
  try conv => arg 3; zeta
  refine Touches.trans ?_ (Touches.sub (qntCount_touch ..) (by decide))
  refine Touches.trans ?_ (Touches.sub (qntCount_touch ..) (by decide))
  refine Touches.ite ?_ ?_
  · refine Touches.trans ?_ (Touches.sub (writeTables_touch ..) (by decide))
    refine Touches.trans ?_ (Touches.sub (recSet_touch ..) (by decide))
    refine Touches.trans ?_ (Touches.sub (State.updStream_touch ..) (by decide))
    exact Touches.refl _
  · refine Touches.trans ?_ (Touches.sub (State.updStream_touch ..) (by decide))
    exact Touches.refl _

theorem flagQuant_touch (s : State) (fid : Nat) :
    Touches [.streams, .frames] s (flagQuant s fid) := by
  unfold flagQuant
  try conv => arg 3; zeta
  refine Touches.ite ?_ ?_
  · exact Touches.refl _
  · refine Touches.trans ?_ (Touches.sub (qntCount_touch ..) (by decide))
    refine Touches.trans ?_ (Touches.sub (State.updFrame_touch ..) (by decide))
    exact Touches.refl _

theorem figuresDone_touch (s : State) (x : Ctx) (p : Nat) (fid : Nat) (t : Nat) :
    Touches [.streams, .frames, .mem, .store] s (figuresDone s x p fid t) := by
  unfold figuresDone
  try conv => arg 3; zeta
  split
  · refine Touches.ite ?_ ?_
    · refine Touches.trans ?_ (Touches.sub (flagQuant_touch ..) (by decide))
      exact Touches.refl _
    · exact Touches.refl _
  · refine Touches.trans ?_ (Touches.sub (applyTable_touch ..) (by decide))
    refine Touches.ite ?_ ?_
    · refine Touches.trans ?_ (Touches.sub (flagQuant_touch ..) (by decide))
      exact Touches.refl _
    · exact Touches.refl _

theorem ringCommit_touch (s : State) (f : Frame) (e : OpEnv) (li : Nat) :
    Touches [.streams, .mem, .store] s (ringCommit s f e li) := by
  unfold ringCommit
  try conv => arg 3; zeta
  refine Touches.trans ?_ (Touches.sub (ctxCount_touch ..) (by decide))
  refine Touches.trans ?_ (Touches.sub (recSet_touch ..) (by decide))
  refine Touches.trans ?_ (Touches.sub (recSet_touch ..) (by decide))
  refine Touches.trans ?_ (Touches.sub (dramWrite_touch ..) (by decide))
  exact Touches.refl _

theorem ringOpen_touch (s : State) (f : Frame) :
    Touches [.streams, .mem, .store] s (ringOpen s f) := by
  unfold ringOpen
  try conv => arg 3; zeta
  refine Touches.ite ?_ ?_
  · exact Touches.refl _
  · refine Touches.trans ?_ (Touches.sub (recSet_touch ..) (by decide))
    exact Touches.refl _

theorem commitTileOf_touch (s : State) (cx : Nat) (x : Ctx) (fid : Nat) (cmd : CellCmd) :
    Touches [.streams, .frames, .ctxs, .mem, .store] s (commitTileOf s cx x fid cmd) := by
  unfold commitTileOf
  try conv => arg 3; zeta
  refine Touches.ite ?_ ?_
  · refine Touches.trans ?_ (Touches.sub (commitSearch_touch ..) (by decide))
    exact Touches.refl _
  · refine Touches.ite ?_ ?_
    · refine Touches.ite ?_ ?_
      · refine Touches.trans ?_ (Touches.sub (ringCommit_touch ..) (by decide))
        refine Touches.ite ?_ ?_
        · refine Touches.trans ?_ (Touches.sub (figuresDone_touch ..) (by decide))
          refine Touches.foldl (fun y0 _ => ?_) ?_ _
          · refine Touches.trans ?_ (Touches.sub (commitPos_touch ..) (by decide))
            exact Touches.refl _
          · refine Touches.ite ?_ ?_
            · refine Touches.trans ?_ (Touches.sub (ringOpen_touch ..) (by decide))
              exact Touches.refl _
            · exact Touches.refl _
        · refine Touches.foldl (fun y1 _ => ?_) ?_ _
          · refine Touches.trans ?_ (Touches.sub (commitPos_touch ..) (by decide))
            exact Touches.refl _
          · refine Touches.ite ?_ ?_
            · refine Touches.trans ?_ (Touches.sub (ringOpen_touch ..) (by decide))
              exact Touches.refl _
            · exact Touches.refl _
      · refine Touches.ite ?_ ?_
        · refine Touches.trans ?_ (Touches.sub (figuresDone_touch ..) (by decide))
          refine Touches.foldl (fun y2 _ => ?_) ?_ _
          · refine Touches.trans ?_ (Touches.sub (commitPos_touch ..) (by decide))
            exact Touches.refl _
          · refine Touches.ite ?_ ?_
            · refine Touches.trans ?_ (Touches.sub (ringOpen_touch ..) (by decide))
              exact Touches.refl _
            · exact Touches.refl _
        · refine Touches.foldl (fun y3 _ => ?_) ?_ _
          · refine Touches.trans ?_ (Touches.sub (commitPos_touch ..) (by decide))
            exact Touches.refl _
          · refine Touches.ite ?_ ?_
            · refine Touches.trans ?_ (Touches.sub (ringOpen_touch ..) (by decide))
              exact Touches.refl _
            · exact Touches.refl _
    · refine Touches.foldl (fun y4 _ => ?_) ?_ _
      · refine Touches.trans ?_ (Touches.sub (commitPos_touch ..) (by decide))
        exact Touches.refl _
      · refine Touches.ite ?_ ?_
        · refine Touches.trans ?_ (Touches.sub (ringOpen_touch ..) (by decide))
          exact Touches.refl _
        · exact Touches.refl _

theorem ctxWithdraw_touch (s : State) (cx : Nat) :
    Touches [.parts, .regions, .blocks, .cells] s (ctxWithdraw s cx) := by
  unfold ctxWithdraw
  try conv => arg 3; zeta
  refine Touches.ofMk ?_ kp kp kp kp kp kp kp kp kp kp kp kp kp kp kp kp kp kp kp kp kp ch ch ch kp kp kp kp kp kp kp kp kp kp kp kp kp kp kp
  refine Touches.trans ?_ (Touches.sub (shadowDrop_touch ..) (by decide))
  exact Touches.refl _

theorem setInv_touch (s : State) (b : Nat) (m : Nat) (v : Nat) :
    Touches [.batches] s (setInv s b m v) := by
  unfold setInv
  refine Touches.trans ?_ (Touches.sub (State.updBatch_touch ..) (by decide))
  exact Touches.refl _

theorem freeChrysalis_touch (s : State) (cx : Nat) :
    Touches [.rings, .parts, .mem, .bpm, .store, .alarms, .tu, .out, .freeIx] s (freeChrysalis s cx) := by
  unfold freeChrysalis
  try conv => arg 3; zeta
  split
  · exact Touches.refl _
  · refine Touches.ofMk ?_ kp kp kp kp kp kp kp kp kp kp kp kp kp kp kp kp kp kp kp kp kp kp kp kp kp kp kp ch kp kp kp kp kp kp kp kp kp kp kp
    refine Touches.trans ?_ (Touches.sub (storeNew_touch ..) (by decide))
    refine Touches.trans ?_ (Touches.sub (bpmRelease_touch ..) (by decide))
    exact Touches.refl _

theorem dropCtx_touch (s : State) (cx : Nat) :
    Touches [.rings, .ctxs, .parts, .regions, .blocks, .cells, .mem, .bpm, .store, .alarms, .tu, .out, .freeIx] s (dropCtx s cx) := by
  unfold dropCtx
  try conv => arg 3; zeta
  refine Touches.ofMk ?_ kp kp kp kp kp kp kp kp kp kp kp kp kp kp kp kp kp kp kp ch kp kp ch kp kp kp kp kp kp kp kp kp kp kp kp kp kp kp kp
  refine Touches.trans ?_ (Touches.sub (ctxWithdraw_touch ..) (by decide))
  refine Touches.trans ?_ (Touches.sub (freeChrysalis_touch ..) (by decide))
  refine Touches.trans ?_ (Touches.sub (releaseAll_touch ..) (by decide))
  exact Touches.refl _

theorem mapPush_touch (s : State) (p : Nat) :
    Touches [.parts] s (mapPush s p) := by
  unfold mapPush
  refine Touches.trans ?_ (Touches.sub (State.updPart_touch ..) (by decide))
  exact Touches.refl _

theorem batchEnd_touch (s : State) (b : Nat) :
    Touches [.batches, .parts] s (batchEnd s b) := by
  unfold batchEnd
  split
  · exact Touches.refl _
  · refine Touches.ite ?_ ?_
    · refine Touches.trans ?_ (Touches.sub (mapPush_touch ..) (by decide))
      refine Touches.ofMk ?_ kp kp kp kp kp kp kp kp kp kp kp kp kp kp kp kp kp kp ch kp kp kp kp kp kp kp kp kp kp kp kp kp kp kp kp kp kp kp kp
      exact Touches.refl _
    · exact Touches.refl _

theorem commitTile_touch (s : State) (cx : Nat) (cmd : CellCmd) :
    Touches [.streams, .frames, .ctxs, .mem, .store] s (commitTile s cx cmd) := by
  unfold commitTile
  split
  · exact Touches.refl _
  · refine Touches.ite ?_ ?_
    · exact Touches.refl _
    · split
      · exact Touches.refl _
      · refine Touches.trans ?_ (Touches.sub (commitTileOf_touch ..) (by decide))
        exact Touches.refl _

theorem ctxLose_touch (s : State) (cx : Nat) :
    Touches [.rings, .streams, .ctxs, .parts, .regions, .blocks, .cells, .mem, .bpm, .store, .alarms, .tu, .out, .freeIx] s (ctxLose s cx) := by
  unfold ctxLose
  try conv => arg 3; zeta
  split
  · exact Touches.refl _
  · refine Touches.ite ?_ ?_
    · refine Touches.trans ?_ (Touches.sub (dropCtx_touch ..) (by decide))
      refine Touches.trans ?_ (Touches.sub (State.updStream_touch ..) (by decide))
      exact Touches.refl _
    · refine Touches.ite ?_ ?_
      · refine Touches.trans ?_ (Touches.sub (dropCtx_touch ..) (by decide))
        exact Touches.refl _
      · refine Touches.trans ?_ (Touches.sub (State.updCtx_touch ..) (by decide))
        refine Touches.trans ?_ (Touches.sub (releaseAll_touch ..) (by decide))
        refine Touches.ofMk ?_ kp kp kp kp kp kp kp kp kp kp kp kp kp kp kp kp kp kp kp kp kp kp ch kp kp kp kp kp kp kp kp kp kp kp kp kp kp kp kp
        exact Touches.refl _

theorem ctxsLose_touch (x0 : List Nat) (x1 : State) :
    Touches [.rings, .streams, .ctxs, .parts, .regions, .blocks, .cells, .mem, .bpm, .store, .alarms, .tu, .out, .freeIx] x1 (ctxsLose x0 x1) := by
  induction x0 generalizing x1 with
  | nil =>
    rw [ctxsLose]
    exact Touches.refl _
  | cons a t ih =>
    rw [ctxsLose]
    refine Touches.trans ?_ (ih ..)
    refine Touches.trans ?_ (Touches.sub (ctxLose_touch ..) (by decide))
    exact Touches.refl _

theorem cellFlush_touch (s : State) (c : Nat) :
    Touches [.regions, .cells] s (cellFlush s c) := by
  unfold cellFlush
  try conv => arg 3; zeta
  refine Touches.trans ?_ (Touches.sub (State.updCell_touch ..) (by decide))
  refine Touches.trans ?_ (Touches.sub (State.updRegion_touch ..) (by decide))
  exact Touches.refl _

theorem cellsFlush_touch (x0 : List Nat) (x1 : State) :
    Touches [.regions, .cells] x1 (cellsFlush x0 x1) := by
  induction x0 generalizing x1 with
  | nil =>
    rw [cellsFlush]
    exact Touches.refl _
  | cons a t ih =>
    rw [cellsFlush]
    refine Touches.trans ?_ (ih ..)
    refine Touches.trans ?_ (Touches.sub (cellFlush_touch ..) (by decide))
    exact Touches.refl _

theorem blockFlush_touch (s : State) (b : Nat) :
    Touches [.regions, .blocks, .cells] s (blockFlush s b) := by
  unfold blockFlush
  refine Touches.trans ?_ (Touches.sub (cellsFlush_touch ..) (by decide))
  refine Touches.trans ?_ (Touches.sub (State.updBlock_touch ..) (by decide))
  exact Touches.refl _

theorem alarmIfBare_touch (s : State) (x1 : List Nat) :
    Touches [.rings, .alarms, .tu, .out, .freeIx] s (alarmIfBare s x1) := by
  induction x1 generalizing s with
  | nil =>
    rw [alarmIfBare]
    exact Touches.refl _
  | cons a t ih =>
    rw [alarmIfBare]
    refine Touches.trans ?_ (ih ..)
    refine Touches.ite ?_ ?_
    · refine Touches.trans ?_ (Touches.sub (raiseAlarm_touch ..) (by decide))
      exact Touches.refl _
    · exact Touches.refl _

theorem batchReturn_touch (s : State) (b : Nat) :
    Touches [.frames, .batches, .parts, .out] s (batchReturn s b) := by
  unfold batchReturn
  try conv => arg 3; zeta
  split
  · exact Touches.refl _
  · refine Touches.foldl (fun y0 _ => ?_) ?_ _
    · refine Touches.trans ?_ (Touches.sub (ledgerWrite_touch ..) (by decide))
      refine Touches.trans ?_ (Touches.sub (State.updFrame_touch ..) (by decide))
      exact Touches.refl _
    · refine Touches.trans ?_ (Touches.sub (State.updPart_touch ..) (by decide))
      refine Touches.trans ?_ (Touches.sub (State.updBatch_touch ..) (by decide))
      exact Touches.refl _

theorem batchesReturn_touch (x0 : List Nat) (x1 : State) :
    Touches [.frames, .batches, .parts, .out] x1 (batchesReturn x0 x1) := by
  induction x0 generalizing x1 with
  | nil =>
    rw [batchesReturn]
    exact Touches.refl _
  | cons a t ih =>
    rw [batchesReturn]
    refine Touches.trans ?_ (ih ..)
    refine Touches.trans ?_ (Touches.sub (batchReturn_touch ..) (by decide))
    exact Touches.refl _

theorem demoteOne_touch (s : State) :
    Touches [.rings, .parts, .regions, .alarms, .tu, .out, .freeIx] s (demoteOne s) := by
  unfold demoteOne
  try conv => arg 3; zeta
  split
  · exact Touches.refl _
  · refine Touches.trans ?_ (Touches.sub (raiseAlarm_touch ..) (by decide))
    refine Touches.ofMk ?_ kp kp kp kp kp kp kp kp kp kp kp kp kp kp kp kp kp kp kp kp kp ch kp kp kp kp kp kp kp kp kp kp kp kp kp kp kp kp kp
    refine Touches.trans ?_ (Touches.sub (State.updPart_touch ..) (by decide))
    exact Touches.refl _

theorem demoteAsNeeded_touch (s : State) :
    Touches [.rings, .parts, .regions, .alarms, .tu, .out, .freeIx] s (demoteAsNeeded s) := by
  unfold demoteAsNeeded
  try conv => arg 3; zeta
  refine Touches.ite ?_ ?_
  · refine Touches.ite ?_ ?_
    · exact Touches.refl _
    · refine Touches.trans ?_ (Touches.sub (demoteOne_touch ..) (by decide))
      exact Touches.refl _
  · refine Touches.trans ?_ (Touches.sub (demoteOne_touch ..) (by decide))
    refine Touches.ite ?_ ?_
    · exact Touches.refl _
    · refine Touches.trans ?_ (Touches.sub (demoteOne_touch ..) (by decide))
      exact Touches.refl _

theorem shadowDiscard_touch (s : State) (r : Nat) :
    Touches [.parts, .regions] s (shadowDiscard s r) := by
  unfold shadowDiscard
  try conv => arg 3; zeta
  refine Touches.foldl (fun y0 _ => ?_) ?_ _
  · split
    · exact Touches.refl _
    · refine Touches.trans ?_ (Touches.sub (mapCount_touch ..) (by decide))
      exact Touches.refl _
  · refine Touches.trans ?_ (Touches.sub (State.updRegion_touch ..) (by decide))
    exact Touches.refl _

theorem regionFence_touch (s : State) (r : Nat) :
    Touches [.rings, .streams, .frames, .batches, .ctxs, .parts, .regions, .blocks, .cells, .mem, .bpm, .store, .alarms, .tu, .out, .freeIx] s (regionFence s r) := by
  unfold regionFence
  try conv => arg 3; zeta
  refine Touches.ite ?_ ?_
  · exact Touches.refl _
  · refine Touches.trans ?_ (Touches.sub (demoteAsNeeded_touch ..) (by decide))
    refine Touches.trans ?_ (Touches.sub (alarmIfBare_touch ..) (by decide))
    refine Touches.trans ?_ (Touches.sub (raiseAlarm_touch ..) (by decide))
    refine Touches.trans ?_ (Touches.sub (State.updRegion_touch ..) (by decide))
    refine Touches.trans ?_ (Touches.sub (batchesReturn_touch ..) (by decide))
    refine Touches.trans ?_ (Touches.sub (ctxsLose_touch ..) (by decide))
    refine Touches.foldl (fun y0 _ => ?_) ?_ _
    · refine Touches.trans ?_ (Touches.sub (blockFlush_touch ..) (by decide))
      exact Touches.refl _
    · refine Touches.trans ?_ (Touches.sub (shadowDiscard_touch ..) (by decide))
      exact Touches.refl _

theorem regionCheck_touch (s : State) (r : Nat) :
    Touches [.rings, .streams, .frames, .batches, .ctxs, .parts, .regions, .blocks, .cells, .mem, .bpm, .store, .alarms, .tu, .out, .freeIx] s (regionCheck s r) := by
  unfold regionCheck
  refine Touches.ite ?_ ?_
  · refine Touches.trans ?_ (Touches.sub (regionFence_touch ..) (by decide))
    exact Touches.refl _
  · exact Touches.refl _

theorem queueInv_touch (s : State) (r : Nat) (b : Nat) (m : Nat) :
    Touches [.batches, .regions] s (queueInv s r b m) := by
  unfold queueInv
  try conv => arg 3; zeta
  refine Touches.trans ?_ (Touches.sub (State.updRegion_touch ..) (by decide))
  refine Touches.trans ?_ (Touches.sub (State.updBatch_touch ..) (by decide))
  refine Touches.trans ?_ (Touches.sub (setInv_touch ..) (by decide))
  exact Touches.refl _

theorem requeueCtx_touch (s : State) (cx : Nat) :
    Touches [.rings, .streams, .batches, .ctxs, .parts, .regions, .blocks, .cells, .mem, .bpm, .store, .alarms, .tu, .out, .freeIx] s (requeueCtx s cx) := by
  unfold requeueCtx
  split
  · exact Touches.refl _
  · refine Touches.ite ?_ ?_
    · refine Touches.trans ?_ (Touches.sub (ctxLose_touch ..) (by decide))
      exact Touches.refl _
    · refine Touches.trans ?_ (Touches.sub (queueInv_touch ..) (by decide))
      exact Touches.refl _

theorem blockFence_touch (s : State) (b : Nat) :
    Touches [.rings, .streams, .frames, .batches, .ctxs, .parts, .regions, .blocks, .cells, .mem, .bpm, .store, .alarms, .tu, .out, .freeIx] s (blockFence s b) := by
  unfold blockFence
  try conv => arg 3; zeta
  refine Touches.ite ?_ ?_
  · exact Touches.refl _
  · refine Touches.trans ?_ (Touches.sub (regionCheck_touch ..) (by decide))
    refine Touches.trans ?_ (Touches.sub (raiseAlarm_touch ..) (by decide))
    refine Touches.foldl (fun y0 _ => ?_) ?_ _
    · refine Touches.trans ?_ (Touches.sub (requeueCtx_touch ..) (by decide))
      refine Touches.trans ?_ (Touches.sub (ctxLose_touch ..) (by decide))
      exact Touches.refl _
    · refine Touches.trans ?_ (Touches.sub (State.updBlock_touch ..) (by decide))
      refine Touches.trans ?_ (Touches.sub (blockFlush_touch ..) (by decide))
      exact Touches.refl _

theorem blockCheck_touch (s : State) (b : Nat) :
    Touches [.rings, .streams, .frames, .batches, .ctxs, .parts, .regions, .blocks, .cells, .mem, .bpm, .store, .alarms, .tu, .out, .freeIx] s (blockCheck s b) := by
  unfold blockCheck
  refine Touches.ite ?_ ?_
  · refine Touches.trans ?_ (Touches.sub (blockFence_touch ..) (by decide))
    exact Touches.refl _
  · exact Touches.refl _

theorem cellFence_touch (s : State) (c : Nat) :
    Touches [.rings, .streams, .frames, .batches, .ctxs, .parts, .regions, .blocks, .cells, .mem, .bpm, .store, .alarms, .tu, .out, .freeIx] s (cellFence s c) := by
  unfold cellFence
  try conv => arg 3; zeta
  refine Touches.trans ?_ (Touches.sub (blockCheck_touch ..) (by decide))
  refine Touches.trans ?_ (Touches.sub (raiseAlarm_touch ..) (by decide))
  refine Touches.trans ?_ (Touches.sub (State.updCell_touch ..) (by decide))
  refine Touches.trans ?_ (Touches.sub (cellFlush_touch ..) (by decide))
  exact Touches.refl _

theorem flagFrames_touch (s : State) (x : Ctx) (bit : Nat) :
    Touches [.frames, .out] s (flagFrames s x bit) := by
  unfold flagFrames
  refine Touches.foldl (fun y0 _ => ?_) ?_ _
  · refine Touches.trans ?_ (Touches.sub (ledgerWrite_touch ..) (by decide))
    refine Touches.trans ?_ (Touches.sub (State.updFrame_touch ..) (by decide))
    exact Touches.refl _
  · exact Touches.refl _

theorem admitTo_touch (s : State) (b : Nat) (r : Nat) (x : Batch) :
    Touches [.batches, .parts, .pac] s (admitTo s b r x) := by
  unfold admitTo
  try conv => arg 3; zeta
  refine Touches.trans ?_ (Touches.sub (State.updPart_touch ..) (by decide))
  refine Touches.ofMk ?_ kp kp kp kp kp kp kp kp kp kp kp kp kp kp kp kp kp kp kp kp kp kp kp kp kp kp kp kp ch kp kp kp kp kp kp kp kp kp kp
  refine Touches.trans ?_ (Touches.sub (State.updBatch_touch ..) (by decide))
  exact Touches.refl _

theorem pacCount_touch (s : State) (k : Nat) (r : Nat) (n : Nat) :
    Touches [.pac] s (pacCount s k r n) := by
  unfold pacCount
  try conv => arg 3; zeta
  refine Touches.ofMk ?_ kp kp kp kp kp kp kp kp kp kp kp kp kp kp kp kp kp kp kp kp kp kp kp kp kp kp kp kp ch kp kp kp kp kp kp kp kp kp kp
  exact Touches.refl _

theorem wakeStart_touch (s : State) (r : Nat) :
    Touches [.rings, .streams, .frames, .batches, .ctxs, .parts, .regions, .blocks, .cells, .mem, .bpm, .store, .pac, .alarms, .tu, .out, .freeIx] s (wakeStart s r) := by
  unfold wakeStart
  try conv => arg 3; zeta
  refine Touches.ite ?_ ?_
  · exact Touches.refl _
  · refine Touches.ite ?_ ?_
    · refine Touches.trans ?_ (Touches.sub (State.updRegion_touch ..) (by decide))
      exact Touches.refl _
    · refine Touches.ite ?_ ?_
      · refine Touches.trans ?_ (Touches.sub (regionFence_touch ..) (by decide))
        exact Touches.refl _
      · refine Touches.trans ?_ (Touches.sub (pacCount_touch ..) (by decide))
        refine Touches.trans ?_ (Touches.sub (State.updRegion_touch ..) (by decide))
        exact Touches.refl _

theorem wakeOne_touch (s : State) :
    Touches [.rings, .streams, .frames, .batches, .ctxs, .parts, .regions, .blocks, .cells, .mem, .bpm, .store, .pac, .alarms, .tu, .out, .freeIx] s (wakeOne s) := by
  unfold wakeOne
  split
  · exact Touches.refl _
  · refine Touches.trans ?_ (Touches.sub (wakeStart_touch ..) (by decide))
    exact Touches.refl _

theorem admitNext_touch (s : State) (part : Nat) :
    Touches [.rings, .streams, .frames, .batches, .ctxs, .parts, .regions, .blocks, .cells, .mem, .bpm, .store, .pac, .alarms, .tu, .out, .freeIx] s (admitNext s part) := by
  unfold admitNext
  try conv => arg 3; zeta
  split
  · exact Touches.refl _
  · split
    · exact Touches.refl _
    · refine Touches.ite ?_ ?_
      · exact Touches.refl _
      · split
        · refine Touches.trans ?_ (Touches.sub (admitTo_touch ..) (by decide))
          exact Touches.refl _
        · split
          · refine Touches.trans ?_ (Touches.sub (wakeOne_touch ..) (by decide))
            exact Touches.refl _
          · refine Touches.trans ?_ (Touches.sub (admitTo_touch ..) (by decide))
            refine Touches.ite ?_ ?_
            · refine Touches.trans ?_ (Touches.sub (wakeOne_touch ..) (by decide))
              exact Touches.refl _
            · exact Touches.refl _

theorem execBatchAdmit_touch (part : Nat) (s : State) :
    ∃ u, execBatchAdmit part s = .next u ∧ Touches [.rings, .streams, .frames, .batches, .ctxs, .parts, .regions, .blocks, .cells, .mem, .bpm, .store, .pac, .alarms, .tu, .out, .freeIx] s u := by
  unfold execBatchAdmit
  refine Touches.done ?_
  refine Touches.trans ?_ (Touches.sub (admitNext_touch ..) (by decide))
  exact Touches.refl _

theorem placeCtx_touch (cx : Nat) (x1 : List Nat) (x2 : State) :
    Touches [.ctxs, .blocks] x2 (placeCtx cx x1 x2) := by
  induction x1 generalizing x2 with
  | nil =>
    rw [placeCtx]
    exact Touches.refl _
  | cons a t ih =>
    rw [placeCtx]
    try conv => arg 3; zeta
    split
    · refine Touches.trans ?_ (ih ..)
      exact Touches.refl _
    · refine Touches.trans ?_ (ih ..)
      refine Touches.trans ?_ (Touches.sub (State.updCtx_touch ..) (by decide))
      refine Touches.trans ?_ (Touches.sub (State.updBlock_touch ..) (by decide))
      exact Touches.refl _

theorem selftestCtx_touch (s : State) (r : Nat) :
    Touches [.ctxs] s (selftestCtx s r) := by
  unfold selftestCtx
  try conv => arg 3; zeta
  refine Touches.ofMk ?_ kp kp kp kp kp kp kp kp kp kp kp kp kp kp kp kp kp kp kp ch kp kp kp kp kp kp kp kp kp kp kp kp kp kp kp kp kp kp kp
  exact Touches.refl _

theorem selftestPlace_touch (s : State) (b : Nat) :
    Touches [.ctxs, .blocks] s (selftestPlace s b) := by
  unfold selftestPlace
  refine Touches.ite ?_ ?_
  · exact Touches.refl _
  · refine Touches.trans ?_ (Touches.sub (placeCtx_touch ..) (by decide))
    refine Touches.trans ?_ (Touches.sub (selftestCtx_touch ..) (by decide))
    exact Touches.refl _

theorem beginTemporal_touch (s : State) (f : Frame) :
    Touches [.streams, .mem, .store] s (beginTemporal s f) := by
  unfold beginTemporal
  try conv => arg 3; zeta
  refine Touches.trans ?_ (Touches.sub (ctxCount_touch ..) (by decide))
  refine Touches.ite ?_ ?_
  · refine Touches.trans ?_ (Touches.sub (State.updStream_touch ..) (by decide))
    refine Touches.ite ?_ ?_
    · exact Touches.refl _
    · refine Touches.trans ?_ (Touches.sub (newSegment_touch ..) (by decide))
      exact Touches.refl _
  · exact Touches.refl _

theorem newCtx_touch (s : State) (b : Nat) (m : Nat) (x : Batch) (r : Nat) :
    Touches [.ctxs] s (newCtx s b m x r).2 := by
  unfold newCtx
  try conv => arg 3; zeta
  refine Touches.snd ?_
  refine Touches.ofMk ?_ kp kp kp kp kp kp kp kp kp kp kp kp kp kp kp kp kp kp kp ch kp kp kp kp kp kp kp kp kp kp kp kp kp kp kp kp kp kp kp
  exact Touches.refl _

theorem settleIn_touch (s : State) (r : Nat) (b : Nat) (m : Nat) (cx : Nat) (bl : List Nat) (p : Plan) :
    Touches [.batches, .ctxs, .regions, .blocks] s (settleIn s r b m cx bl p) := by
  unfold settleIn
  try conv => arg 3; zeta
  refine Touches.ite ?_ ?_
  · refine Touches.trans ?_ (Touches.sub (State.updRegion_touch ..) (by decide))
    refine Touches.trans ?_ (Touches.sub (State.updRegion_touch ..) (by decide))
    refine Touches.trans ?_ (Touches.sub (setInv_touch ..) (by decide))
    refine Touches.trans ?_ (Touches.sub (State.updBatch_touch ..) (by decide))
    refine Touches.trans ?_ (Touches.sub (State.updCtx_touch ..) (by decide))
    refine Touches.trans ?_ (Touches.sub (placeCtx_touch ..) (by decide))
    exact Touches.refl _
  · refine Touches.trans ?_ (Touches.sub (State.updRegion_touch ..) (by decide))
    refine Touches.trans ?_ (Touches.sub (setInv_touch ..) (by decide))
    refine Touches.trans ?_ (Touches.sub (State.updBatch_touch ..) (by decide))
    refine Touches.trans ?_ (Touches.sub (State.updCtx_touch ..) (by decide))
    refine Touches.trans ?_ (Touches.sub (placeCtx_touch ..) (by decide))
    exact Touches.refl _

theorem makeResident_touch (s : State) (r : Nat) (b : Nat) (m : Nat) :
    Touches [.batches, .ctxs, .regions, .blocks] s (makeResident s r b m) := by
  unfold makeResident
  try conv => arg 3; zeta
  split
  · exact Touches.refl _
  · refine Touches.ite ?_ ?_
    · split
      · refine Touches.ite ?_ ?_
        · exact Touches.refl _
        · refine Touches.trans ?_ (Touches.sub (settleIn_touch ..) (by decide))
          exact Touches.refl _
      · split
        · rename_i v0 v1 e2
          have hv1 : Touches [.batches, .ctxs, .regions, .blocks] s v1 := by
            refine Touches.pair e2 ?_
            refine Touches.trans ?_ (Touches.sub (newCtx_touch ..) (by decide))
            exact Touches.refl _
          refine Touches.trans ?_ (Touches.sub (settleIn_touch ..) (by decide))
          exact hv1
    · exact Touches.refl _

theorem holdForStep_touch (s : State) (f : Frame) (cls : Nat) :
    Touches [.streams, .ctxs] s (holdForStep s f cls) := by
  unfold holdForStep
  try conv => arg 3; zeta
  refine Touches.ofMk ?_ kp kp kp kp kp kp kp kp kp kp kp kp kp kp kp kp kp kp kp ch kp kp kp kp kp kp kp kp kp kp kp kp kp kp kp kp kp kp kp
  refine Touches.trans ?_ (Touches.sub (State.updStream_touch ..) (by decide))
  exact Touches.refl _

theorem makeRunnable_touch (s : State) (b : Nat) (m : Nat) :
    Touches [.batches, .parts, .regions] s (makeRunnable s b m) := by
  unfold makeRunnable
  split
  · exact Touches.refl _
  · split
    · exact Touches.refl _
    · refine Touches.ite ?_ ?_
      · exact Touches.refl _
      · refine Touches.ite ?_ ?_
        · refine Touches.trans ?_ (Touches.sub (batchEnd_touch ..) (by decide))
          refine Touches.trans ?_ (Touches.sub (setInv_touch ..) (by decide))
          exact Touches.refl _
        · refine Touches.ite ?_ ?_
          · refine Touches.trans ?_ (Touches.sub (queueInv_touch ..) (by decide))
            exact Touches.refl _
          · exact Touches.refl _

theorem execInvocationRunnable_touch (batch : Nat) (model : Nat) (s : State) :
    ∃ u, execInvocationRunnable batch model s = .next u ∧ Touches [.batches, .parts, .regions] s u := by
  unfold execInvocationRunnable
  refine Touches.done ?_
  refine Touches.trans ?_ (Touches.sub (makeRunnable_touch ..) (by decide))
  exact Touches.refl _

theorem beginCtx_touch (s : State) (cx : Nat) (x : Ctx) :
    Touches [.streams, .frames, .ctxs, .mem, .store] s (beginCtx s cx x) := by
  unfold beginCtx
  try conv => arg 3; zeta
  refine Touches.ite ?_ ?_
  · exact Touches.refl _
  · refine Touches.foldl (fun y0 _ => ?_) ?_ _
    · refine Touches.ite ?_ ?_
      · refine Touches.trans ?_ (Touches.sub (beginTemporal_touch ..) (by decide))
        refine Touches.trans ?_ (Touches.sub (storeReads_touch ..) (by decide))
        refine Touches.trans ?_ (Touches.sub (State.updFrame_touch ..) (by decide))
        exact Touches.refl _
      · refine Touches.trans ?_ (Touches.sub (storeReads_touch ..) (by decide))
        refine Touches.trans ?_ (Touches.sub (State.updFrame_touch ..) (by decide))
        exact Touches.refl _
    · refine Touches.trans ?_ (Touches.sub (State.updCtx_touch ..) (by decide))
      exact Touches.refl _

theorem noteHold_touch (s : State) (cx : Nat) (x : Ctx) (k : Nat) :
    Touches [.streams, .ctxs] s (noteHold s cx x k) := by
  unfold noteHold
  try conv => arg 3; zeta
  refine Touches.ite ?_ ?_
  · exact Touches.refl _
  · refine Touches.ite ?_ ?_
    · refine Touches.foldl (fun y0 _ => ?_) ?_ _
      · refine Touches.ite ?_ ?_
        · refine Touches.trans ?_ (Touches.sub (holdForStep_touch ..) (by decide))
          exact Touches.refl _
        · exact Touches.refl _
      · refine Touches.trans ?_ (Touches.sub (State.updCtx_touch ..) (by decide))
        exact Touches.refl _
    · refine Touches.trans ?_ (Touches.sub (State.updCtx_touch ..) (by decide))
      exact Touches.refl _

theorem execInvocationResident_touch (region : Nat) (batch : Nat) (model : Nat) (s : State) :
    ∃ u, execInvocationResident region batch model s = .next u ∧ Touches [.batches, .ctxs, .regions, .blocks] s u := by
  unfold execInvocationResident
  refine Touches.done ?_
  refine Touches.trans ?_ (Touches.sub (makeResident_touch ..) (by decide))
  exact Touches.refl _

theorem selftestEnds_touch (b : Nat) (s : State) :
    Touches [.rings, .ctxs, .parts, .regions, .blocks, .cells, .mem, .bpm, .store, .alarms, .tu, .out, .freeIx] s (selftestEnds b s) := by
  unfold selftestEnds
  refine Touches.ite ?_ ?_
  · exact Touches.refl _
  · refine Touches.foldl (fun y0 _ => ?_) ?_ _
    · refine Touches.trans ?_ (Touches.sub (dropCtx_touch ..) (by decide))
      exact Touches.refl _
    · exact Touches.refl _

theorem State.updPc_touch (s : State) (i : Nat) (f : Pc → Pc) :
    Touches [.dram] s (State.updPc s i f) := by
  unfold State.updPc
  try conv => arg 3; zeta
  refine Touches.ofMk ?_ kp kp kp kp kp kp kp kp kp kp kp kp kp kp kp kp kp kp kp kp kp kp kp kp kp ch kp kp kp kp kp kp kp kp kp kp kp kp kp
  exact Touches.refl _

theorem pcCount_touch (s : State) (pc : Nat) (i : Nat) (n : Nat) :
    Touches [.dram] s (pcCount s pc i n) := by
  unfold pcCount
  refine Touches.trans ?_ (Touches.sub (State.updPc_touch ..) (by decide))
  exact Touches.refl _

theorem eccUncorrectable_touch (s : State) (pc : Nat) (a : Nat) :
    Touches [.rings, .dram, .alarms, .tu, .out, .freeIx] s (eccUncorrectable s pc a) := by
  unfold eccUncorrectable
  try conv => arg 3; zeta
  refine Touches.ite ?_ ?_
  · refine Touches.trans ?_ (Touches.sub (raiseAlarm_touch ..) (by decide))
    refine Touches.trans ?_ (Touches.sub (raiseLog_touch ..) (by decide))
    refine Touches.ofMk ?_ kp kp kp kp kp kp kp kp kp kp kp kp kp kp kp kp kp kp kp kp kp kp kp kp kp ch kp kp kp kp kp kp kp kp kp kp kp kp kp
    refine Touches.trans ?_ (Touches.sub (pcCount_touch ..) (by decide))
    exact Touches.refl _
  · refine Touches.trans ?_ (Touches.sub (raiseLog_touch ..) (by decide))
    refine Touches.ofMk ?_ kp kp kp kp kp kp kp kp kp kp kp kp kp kp kp kp kp kp kp kp kp kp kp kp kp ch kp kp kp kp kp kp kp kp kp kp kp kp kp
    refine Touches.trans ?_ (Touches.sub (pcCount_touch ..) (by decide))
    exact Touches.refl _

theorem raiseEpoch_touch (s : State) :
    Touches [.rings, .dram, .alarms, .tu, .out, .freeIx] s (raiseEpoch s) := by
  unfold raiseEpoch
  try conv => arg 3; zeta
  refine Touches.ite ?_ ?_
  · refine Touches.trans ?_ (Touches.sub (raiseAlarm_touch ..) (by decide))
    refine Touches.trans ?_ (Touches.sub (raiseLog_touch ..) (by decide))
    refine Touches.ofMk ?_ kp kp kp kp kp kp kp kp kp kp kp kp kp kp kp kp kp kp kp kp kp kp kp kp kp ch kp kp kp kp kp kp kp kp kp kp kp kp kp
    exact Touches.refl _
  · refine Touches.trans ?_ (Touches.sub (raiseLog_touch ..) (by decide))
    refine Touches.ofMk ?_ kp kp kp kp kp kp kp kp kp kp kp kp kp kp kp kp kp kp kp kp kp kp kp kp kp ch kp kp kp kp kp kp kp kp kp kp kp kp kp
    exact Touches.refl _

theorem eccCorrected_touch (s : State) (pc : Nat) (a : Nat) :
    Touches [.rings, .dram, .bpm, .alarms, .tu, .out, .freeIx] s (eccCorrected s pc a) := by
  unfold eccCorrected
  try conv => arg 3; zeta
  split
  · refine Touches.trans ?_ (Touches.sub (pcCount_touch ..) (by decide))
    exact Touches.refl _
  · refine Touches.ite ?_ ?_
    · refine Touches.trans ?_ (Touches.sub (raiseLog_touch ..) (by decide))
      refine Touches.trans ?_ (Touches.sub (quarantine_touch ..) (by decide))
      refine Touches.ofMk ?_ kp kp kp kp kp kp kp kp kp kp kp kp kp kp kp kp kp kp kp kp kp kp kp kp kp kp ch kp kp kp kp kp kp kp kp kp kp kp kp
      refine Touches.trans ?_ (Touches.sub (pcCount_touch ..) (by decide))
      exact Touches.refl _
    · refine Touches.ofMk ?_ kp kp kp kp kp kp kp kp kp kp kp kp kp kp kp kp kp kp kp kp kp kp kp kp kp kp ch kp kp kp kp kp kp kp kp kp kp kp kp
      refine Touches.trans ?_ (Touches.sub (pcCount_touch ..) (by decide))
      exact Touches.refl _

theorem enqueue_touch (s : State) (pc : Nat) (q : QReq) :
    Touches [.dram] s (enqueue s pc q) := by
  unfold enqueue
  try conv => arg 3; zeta
  refine Touches.ofMk ?_ kp kp kp kp kp kp kp kp kp kp kp kp kp kp kp kp kp kp kp kp kp kp kp kp kp ch kp kp kp kp kp kp kp kp kp kp kp kp kp
  refine Touches.trans ?_ (Touches.sub (State.updPc_touch ..) (by decide))
  exact Touches.refl _

theorem respond_touch (s : State) (r : DramReq) (data : Bytes) (poisoned : Bool) :
    Touches [.dram] s (respond s r data poisoned) := by
  unfold respond
  try conv => arg 3; zeta
  refine Touches.ofMk ?_ kp kp kp kp kp kp kp kp kp kp kp kp kp kp kp kp kp kp kp kp kp kp kp kp kp ch kp kp kp kp kp kp kp kp kp kp kp kp kp
  exact Touches.refl _

theorem acceptReq_touch (s : State) (r : DramReq) (ecc : Ecc) :
    Touches [.rings, .dram, .bpm, .alarms, .tu, .out, .freeIx] s (acceptReq s r ecc) := by
  unfold acceptReq
  try conv => arg 3; zeta
  split
  · refine Touches.ite ?_ ?_
    · refine Touches.trans ?_ (Touches.sub (respond_touch ..) (by decide))
      refine Touches.trans ?_ (Touches.sub (pcCount_touch ..) (by decide))
      exact Touches.refl _
    · refine Touches.ite ?_ ?_
      · refine Touches.trans ?_ (Touches.sub (State.updPc_touch ..) (by decide))
        exact Touches.refl _
      · refine Touches.trans ?_ (Touches.sub (enqueue_touch ..) (by decide))
        exact Touches.refl _
  · refine Touches.ite ?_ ?_
    · split
      · refine Touches.trans ?_ (Touches.sub (eccUncorrectable_touch ..) (by decide))
        refine Touches.trans ?_ (Touches.sub (pcCount_touch ..) (by decide))
        exact Touches.refl _
      · refine Touches.trans ?_ (Touches.sub (enqueue_touch ..) (by decide))
        refine Touches.ite ?_ ?_
        · refine Touches.trans ?_ (Touches.sub (eccCorrected_touch ..) (by decide))
          refine Touches.trans ?_ (Touches.sub (pcCount_touch ..) (by decide))
          exact Touches.refl _
        · refine Touches.trans ?_ (Touches.sub (pcCount_touch ..) (by decide))
          exact Touches.refl _
    · refine Touches.trans ?_ (Touches.sub (enqueue_touch ..) (by decide))
      exact Touches.refl _

theorem admitWaiting_touch (pc : Nat) (x1 : List (DramReq × Ecc)) (x2 : State) :
    Touches [.rings, .dram, .bpm, .alarms, .tu, .out, .freeIx] x2 (admitWaiting pc x1 x2) := by
  induction x1 generalizing x2 with
  | nil =>
    rw [admitWaiting]
    exact Touches.refl _
  | cons a t ih =>
    rw [admitWaiting]
    refine Touches.ite ?_ ?_
    · refine Touches.trans ?_ (ih ..)
      refine Touches.trans ?_ (Touches.sub (acceptReq_touch ..) (by decide))
      refine Touches.trans ?_ (Touches.sub (State.updPc_touch ..) (by decide))
      exact Touches.refl _
    · exact Touches.refl _

theorem issueReq_touch (s : State) (pc : Nat) (q : QReq) :
    Touches [.rings, .mem, .dram, .bpm, .alarms, .tu, .out, .freeIx] s (issueReq s pc q) := by
  unfold issueReq
  try conv => arg 3; zeta
  refine Touches.ite ?_ ?_
  · refine Touches.trans ?_ (Touches.sub (dramWrite_touch ..) (by decide))
    refine Touches.trans ?_ (Touches.sub (pcCount_touch ..) (by decide))
    refine Touches.trans ?_ (Touches.sub (pcCount_touch ..) (by decide))
    refine Touches.trans ?_ (Touches.sub (State.updPc_touch ..) (by decide))
    exact Touches.refl _
  · split
    · refine Touches.trans ?_ (Touches.sub (respond_touch ..) (by decide))
      refine Touches.trans ?_ (Touches.sub (pcCount_touch ..) (by decide))
      refine Touches.trans ?_ (Touches.sub (pcCount_touch ..) (by decide))
      refine Touches.trans ?_ (Touches.sub (State.updPc_touch ..) (by decide))
      exact Touches.refl _
    · refine Touches.trans ?_ (Touches.sub (eccCorrected_touch ..) (by decide))
      refine Touches.trans ?_ (Touches.sub (respond_touch ..) (by decide))
      refine Touches.trans ?_ (Touches.sub (pcCount_touch ..) (by decide))
      refine Touches.trans ?_ (Touches.sub (pcCount_touch ..) (by decide))
      refine Touches.trans ?_ (Touches.sub (State.updPc_touch ..) (by decide))
      exact Touches.refl _
    · refine Touches.trans ?_ (Touches.sub (eccUncorrectable_touch ..) (by decide))
      refine Touches.trans ?_ (Touches.sub (respond_touch ..) (by decide))
      refine Touches.trans ?_ (Touches.sub (pcCount_touch ..) (by decide))
      refine Touches.trans ?_ (Touches.sub (pcCount_touch ..) (by decide))
      refine Touches.trans ?_ (Touches.sub (State.updPc_touch ..) (by decide))
      exact Touches.refl _

theorem servePc_touch (pc : Nat) (x1 : Nat) (x2 : State) :
    Touches [.rings, .mem, .dram, .bpm, .alarms, .tu, .out, .freeIx] x2 (servePc pc x1 x2) := by
  induction x1 generalizing x2 with
  | zero =>
    rw [servePc]
    exact Touches.refl _
  | succ k ih =>
    rw [servePc]
    split
    · refine Touches.trans ?_ (Touches.sub (State.updPc_touch ..) (by decide))
      exact Touches.refl _
    · refine Touches.trans ?_ (ih ..)
      refine Touches.trans ?_ (Touches.sub (issueReq_touch ..) (by decide))
      refine Touches.trans ?_ (Touches.sub (State.updPc_touch ..) (by decide))
      exact Touches.refl _

theorem tickPc_touch (s : State) (pc : Nat) :
    Touches [.rings, .mem, .dram, .bpm, .alarms, .tu, .out, .freeIx] s (tickPc s pc) := by
  unfold tickPc
  try conv => arg 3; zeta
  refine Touches.trans ?_ (Touches.sub (admitWaiting_touch ..) (by decide))
  refine Touches.trans ?_ (Touches.sub (servePc_touch ..) (by decide))
  refine Touches.trans ?_ (Touches.sub (State.updPc_touch ..) (by decide))
  exact Touches.refl _

theorem tickPcs_touch (x0 : List Nat) (x1 : State) :
    Touches [.rings, .mem, .dram, .bpm, .alarms, .tu, .out, .freeIx] x1 (tickPcs x0 x1) := by
  induction x0 generalizing x1 with
  | nil =>
    rw [tickPcs]
    exact Touches.refl _
  | cons a t ih =>
    rw [tickPcs]
    refine Touches.trans ?_ (ih ..)
    refine Touches.trans ?_ (Touches.sub (tickPc_touch ..) (by decide))
    exact Touches.refl _

theorem dramTick_touch (s : State) :
    Touches [.rings, .mem, .dram, .bpm, .alarms, .tu, .out, .freeIx] s (dramTick s) := by
  unfold dramTick
  refine Touches.trans ?_ (Touches.sub (tickPcs_touch ..) (by decide))
  exact Touches.refl _

theorem profileReq_touch (s : State) (q : DramReq) :
    Touches [.regions] s (profileReq s q).2 := by
  unfold profileReq
  try conv => arg 3; zeta
  refine Touches.itePair ?_ ?_
  · refine Touches.snd ?_
    refine Touches.ite ?_ ?_
    · refine Touches.trans ?_ (Touches.sub (rgnCount_touch ..) (by decide))
      refine Touches.trans ?_ (Touches.sub (chargeBuckets_touch ..) (by decide))
      exact Touches.refl _
    · refine Touches.trans ?_ (Touches.sub (rgnCount_touch ..) (by decide))
      refine Touches.trans ?_ (Touches.sub (rgnCount_touch ..) (by decide))
      refine Touches.trans ?_ (Touches.sub (chargeBuckets_touch ..) (by decide))
      exact Touches.refl _
  · refine Touches.snd ?_
    exact Touches.refl _

theorem execDramRequest_touch (req : DramReq) (ecc : Ecc) (s : State) :
    ∃ u, execDramRequest req ecc s = .next u ∧ Touches [.rings, .regions, .dram, .bpm, .alarms, .tu, .out, .freeIx] s u := by
  unfold execDramRequest
  try conv => enter [1, t, 1, 1]; zeta
  refine Touches.iteNext ?_ ?_
  · refine Touches.done ?_
    refine Touches.trans ?_ (Touches.sub (raiseLog_touch ..) (by decide))
    refine Touches.trans ?_ (Touches.sub (respond_touch ..) (by decide))
    exact Touches.refl _
  · split
    · rename_i v0 v1 e2
      have hv1 : Touches [.rings, .regions, .dram, .bpm, .alarms, .tu, .out, .freeIx] s v1 := by
        refine Touches.pair e2 ?_
        refine Touches.trans ?_ (Touches.sub (profileReq_touch ..) (by decide))
        exact Touches.refl _
      refine Touches.iteNext ?_ ?_
      · refine Touches.done ?_
        refine Touches.trans ?_ (Touches.sub (acceptReq_touch ..) (by decide))
        exact hv1
      · refine Touches.done ?_
        refine Touches.trans ?_ (Touches.sub (State.updPc_touch ..) (by decide))
        exact hv1

theorem execBankIdleTimeout_touch (pc : Nat) (bank : Nat) (s : State) :
    ∃ u, execBankIdleTimeout pc bank s = .next u ∧ Touches [.dram] s u := by
  unfold execBankIdleTimeout
  refine Touches.done ?_
  refine Touches.trans ?_ (Touches.sub (State.updPc_touch ..) (by decide))
  exact Touches.refl _

theorem execRefreshDue_touch (pc : Nat) (bank : Nat) (s : State) :
    ∃ u, execRefreshDue pc bank s = .next u ∧ Touches [.dram] s u := by
  unfold execRefreshDue
  refine Touches.done ?_
  refine Touches.trans ?_ (Touches.sub (pcCount_touch ..) (by decide))
  refine Touches.trans ?_ (Touches.sub (State.updPc_touch ..) (by decide))
  exact Touches.refl _

theorem execPatrolRead_touch (pc : Nat) (ecc : Ecc) (s : State) :
    ∃ u, execPatrolRead pc ecc s = .next u ∧ Touches [.rings, .dram, .bpm, .alarms, .tu, .out, .freeIx] s u := by
  unfold execPatrolRead
  try conv => enter [1, t, 1, 1]; zeta
  split
  · refine Touches.done ?_
    refine Touches.trans ?_ (Touches.sub (pcCount_touch ..) (by decide))
    refine Touches.trans ?_ (Touches.sub (State.updPc_touch ..) (by decide))
    exact Touches.refl _
  · refine Touches.done ?_
    refine Touches.trans ?_ (Touches.sub (eccCorrected_touch ..) (by decide))
    refine Touches.trans ?_ (Touches.sub (pcCount_touch ..) (by decide))
    refine Touches.trans ?_ (Touches.sub (State.updPc_touch ..) (by decide))
    exact Touches.refl _
  · split
    · refine Touches.done ?_
      refine Touches.trans ?_ (Touches.sub (eccUncorrectable_touch ..) (by decide))
      refine Touches.trans ?_ (Touches.sub (pcCount_touch ..) (by decide))
      refine Touches.trans ?_ (Touches.sub (State.updPc_touch ..) (by decide))
      exact Touches.refl _
    · refine Touches.done ?_
      refine Touches.trans ?_ (Touches.sub (quarantine_touch ..) (by decide))
      refine Touches.trans ?_ (Touches.sub (eccUncorrectable_touch ..) (by decide))
      refine Touches.trans ?_ (Touches.sub (pcCount_touch ..) (by decide))
      refine Touches.trans ?_ (Touches.sub (State.updPc_touch ..) (by decide))
      exact Touches.refl _

theorem countHot_touch (x0 : List Nat) (x1 : State) :
    Touches [.dram] x1 (countHot x0 x1) := by
  induction x0 generalizing x1 with
  | nil =>
    rw [countHot]
    exact Touches.refl _
  | cons a t ih =>
    rw [countHot]
    refine Touches.trans ?_ (ih ..)
    refine Touches.trans ?_ (Touches.sub (pcCount_touch ..) (by decide))
    exact Touches.refl _

theorem execImbalanceWindow_touch (s : State) :
    ∃ u, execImbalanceWindow s = .next u ∧ Touches [.rings, .dram, .alarms, .tu, .out, .freeIx] s u := by
  unfold execImbalanceWindow
  try conv => enter [1, t, 1, 1]; zeta
  refine Touches.iteNext ?_ ?_
  · refine Touches.done ?_
    refine Touches.trans ?_ (Touches.sub (raiseEpoch_touch ..) (by decide))
    refine Touches.ofMk ?_ kp kp kp kp kp kp kp kp kp kp kp kp kp kp kp kp kp kp kp kp kp kp kp kp kp ch kp kp kp kp kp kp kp kp kp kp kp kp kp
    refine Touches.trans ?_ (Touches.sub (countHot_touch ..) (by decide))
    exact Touches.refl _
  · refine Touches.done ?_
    refine Touches.ofMk ?_ kp kp kp kp kp kp kp kp kp kp kp kp kp kp kp kp kp kp kp kp kp kp kp kp kp ch kp kp kp kp kp kp kp kp kp kp kp kp kp
    refine Touches.trans ?_ (Touches.sub (countHot_touch ..) (by decide))
    exact Touches.refl _

theorem refillBuckets_touch (s : State) :
    Touches [.regions] s (refillBuckets s) := by
  unfold refillBuckets
  refine Touches.ofMk ?_ kp kp kp kp kp kp kp kp kp kp kp kp kp kp kp kp kp kp kp kp kp ch kp kp kp kp kp kp kp kp kp kp kp kp kp kp kp kp kp
  exact Touches.refl _

theorem semReset_touch (s : State) (b : Nat) (n : Nat) :
    Touches [.blocks] s (semReset s b n) := by
  unfold semReset
  refine Touches.trans ?_ (Touches.sub (State.updBlock_touch ..) (by decide))
  exact Touches.refl _

theorem execSemaphoreReset_touch (block : Nat) (sem : Nat) (s : State) :
    ∃ u, execSemaphoreReset block sem s = .next u ∧ Touches [.blocks] s u := by
  unfold execSemaphoreReset
  refine Touches.done ?_
  refine Touches.trans ?_ (Touches.sub (semReset_touch ..) (by decide))
  exact Touches.refl _

theorem inherit_touch (s : State) (b : Nat) (n : Nat) (c : Nat) :
    Touches [.ctxs, .regions] s (inherit s b n c) := by
  unfold inherit
  try conv => arg 3; zeta
  split
  · exact Touches.refl _
  · refine Touches.ite ?_ ?_
    · refine Touches.trans ?_ (Touches.sub (rgnCount_touch ..) (by decide))
      refine Touches.trans ?_ (Touches.sub (State.updCtx_touch ..) (by decide))
      exact Touches.refl _
    · exact Touches.refl _

theorem semWait_touch (s : State) (b : Nat) (n : Nat) (c : Nat) (t : Nat) :
    Touches [.ctxs, .regions, .blocks, .cells] s (semWait s b n c t) := by
  unfold semWait
  try conv => arg 3; zeta
  refine Touches.ite ?_ ?_
  · refine Touches.trans ?_ (Touches.sub (State.updCell_touch ..) (by decide))
    exact Touches.refl _
  · refine Touches.ite ?_ ?_
    · refine Touches.trans ?_ (Touches.sub (State.updBlock_touch ..) (by decide))
      refine Touches.trans ?_ (Touches.sub (inherit_touch ..) (by decide))
      exact Touches.refl _
    · refine Touches.trans ?_ (Touches.sub (inherit_touch ..) (by decide))
      exact Touches.refl _

theorem endInherit_touch (s : State) (b : Nat) (n : Nat) :
    Touches [.ctxs] s (endInherit s b n) := by
  unfold endInherit
  split
  · exact Touches.refl _
  · refine Touches.trans ?_ (Touches.sub (State.updCtx_touch ..) (by decide))
    exact Touches.refl _

theorem semRelease_touch (s : State) (b : Nat) (n : Nat) :
    Touches [.ctxs, .blocks, .cells] s (semRelease s b n) := by
  unfold semRelease
  try conv => arg 3; zeta
  refine Touches.ite ?_ ?_
  · exact Touches.refl _
  · refine Touches.trans ?_ (Touches.sub (endInherit_touch ..) (by decide))
    refine Touches.foldl (fun y0 _ => ?_) ?_ _
    · refine Touches.trans ?_ (Touches.sub (State.updCell_touch ..) (by decide))
      exact Touches.refl _
    · refine Touches.trans ?_ (Touches.sub (State.updBlock_touch ..) (by decide))
      exact Touches.refl _

theorem semSignal_touch (s : State) (b : Nat) (n : Nat) (k : Nat) :
    Touches [.rings, .ctxs, .blocks, .cells, .alarms, .tu, .out, .freeIx] s (semSignal s b n k) := by
  unfold semSignal
  try conv => arg 3; zeta
  refine Touches.trans ?_ (Touches.sub (semRelease_touch ..) (by decide))
  refine Touches.ite ?_ ?_
  · refine Touches.trans ?_ (Touches.sub (raiseLog_touch ..) (by decide))
    refine Touches.trans ?_ (Touches.sub (State.updBlock_touch ..) (by decide))
    exact Touches.refl _
  · refine Touches.trans ?_ (Touches.sub (State.updBlock_touch ..) (by decide))
    exact Touches.refl _

theorem execSemaphoreSignal_touch (block : Nat) (sem : Nat) (n : Nat) (s : State) :
    ∃ u, execSemaphoreSignal block sem n s = .next u ∧ Touches [.rings, .ctxs, .blocks, .cells, .alarms, .tu, .out, .freeIx] s u := by
  unfold execSemaphoreSignal
  refine Touches.done ?_
  refine Touches.trans ?_ (Touches.sub (semSignal_touch ..) (by decide))
  exact Touches.refl _

theorem execSemaphoreWait_touch (block : Nat) (sem : Nat) (cell : Nat) (t : Nat) (s : State) :
    ∃ u, execSemaphoreWait block sem cell t s = .next u ∧ Touches [.ctxs, .regions, .blocks, .cells] s u := by
  unfold execSemaphoreWait
  refine Touches.done ?_
  refine Touches.trans ?_ (Touches.sub (semWait_touch ..) (by decide))
  exact Touches.refl _

theorem execWaitRetry_touch (block : Nat) (sem : Nat) (cell : Nat) (t : Nat) (s : State) :
    ∃ u, execWaitRetry block sem cell t s = .next u ∧ Touches [.ctxs, .regions, .blocks, .cells] s u := by
  unfold execWaitRetry
  refine Touches.done ?_
  refine Touches.trans ?_ (Touches.sub (semWait_touch ..) (by decide))
  exact Touches.refl _

theorem countSkipped_touch (s : State) (x : Ctx) (pf : Nat × Nat) :
    Touches [.streams] s (countSkipped s x pf) := by
  unfold countSkipped
  try conv => arg 3; zeta
  refine Touches.trans ?_ (Touches.sub (qntCount_touch ..) (by decide))
  exact Touches.refl _

theorem exportOuts_touch (s : State) (x : Ctx) (pf : Nat × Nat) :
    Touches [.frames] s (exportOuts s x pf) := by
  unfold exportOuts
  try conv => arg 3; zeta
  refine Touches.ite ?_ ?_
  · refine Touches.trans ?_ (Touches.sub (State.updFrame_touch ..) (by decide))
    refine Touches.trans ?_ (Touches.sub (State.updFrame_touch ..) (by decide))
    exact Touches.refl _
  · refine Touches.trans ?_ (Touches.sub (State.updFrame_touch ..) (by decide))
    exact Touches.refl _

theorem exportSearch_touch (s : State) (x : Ctx) (pf : Nat × Nat) :
    Touches [.frames] s (exportSearch s x pf) := by
  unfold exportSearch
  try conv => arg 3; zeta
  split
  · exact Touches.refl _
  · refine Touches.trans ?_ (Touches.sub (State.updFrame_touch ..) (by decide))
    exact Touches.refl _

theorem commitPictures_touch (x : Ctx) (x1 : List (Nat × Nat)) (x2 : State) :
    Touches [.moult, .rings, .streams, .frames, .resamplers, .relq, .batches, .parts, .regions, .mem, .bpm, .store, .alarms, .tu, .out, .freeIx] x2 (commitPictures x x1 x2) := by
  induction x1 generalizing x x2 with
  | nil =>
    rw [commitPictures]
    exact Touches.refl _
  | cons a t ih =>
    rw [commitPictures]
    try conv => arg 3; zeta
    refine Touches.trans ?_ (ih ..)
    refine Touches.ite ?_ ?_
    · refine Touches.trans ?_ (Touches.sub (ledgerWrite_touch ..) (by decide))
      refine Touches.trans ?_ (Touches.sub (State.updFrame_touch ..) (by decide))
      refine Touches.ite ?_ ?_
      · refine Touches.trans ?_ (Touches.sub (exportSearch_touch ..) (by decide))
        exact Touches.refl _
      · refine Touches.trans ?_ (Touches.sub (exportOuts_touch ..) (by decide))
        exact Touches.refl _
    · refine Touches.ite ?_ ?_
      · refine Touches.trans ?_ (Touches.sub (ledgerWrite_touch ..) (by decide))
        refine Touches.trans ?_ (Touches.sub (State.updFrame_touch ..) (by decide))
        refine Touches.trans ?_ (Touches.sub (exportSearch_touch ..) (by decide))
        refine Touches.trans ?_ (Touches.sub (countSkipped_touch ..) (by decide))
        exact Touches.refl _
      · refine Touches.trans ?_ (Touches.sub (discardFrame_touch ..) (by decide))
        refine Touches.trans ?_ (Touches.sub (countSkipped_touch ..) (by decide))
        exact Touches.refl _

theorem ctxSettle_touch (s : State) (cx : Nat) :
    Touches [.moult, .rings, .streams, .frames, .resamplers, .relq, .batches, .ctxs, .parts, .regions, .blocks, .cells, .mem, .bpm, .store, .alarms, .tu, .out, .freeIx] s (ctxSettle s cx) := by
  unfold ctxSettle
  try conv => arg 3; zeta
  split
  · exact Touches.refl _
  · refine Touches.ite ?_ ?_
    · refine Touches.trans ?_ (Touches.sub (batchEnd_touch ..) (by decide))
      refine Touches.trans ?_ (Touches.sub (rgnCount_touch ..) (by decide))
      refine Touches.trans ?_ (Touches.sub (setInv_touch ..) (by decide))
      refine Touches.trans ?_ (Touches.sub (dropCtx_touch ..) (by decide))
      refine Touches.trans ?_ (Touches.sub (commitPictures_touch ..) (by decide))
      exact Touches.refl _
    · exact Touches.refl _

theorem handoffReset_touch (s : State) (x : Ctx) (q : Stripe) :
    Touches [.blocks] s (handoffReset s x q) := by
  unfold handoffReset
  try conv => arg 3; zeta
  refine Touches.foldl (fun y0 _ => ?_) ?_ _
  · refine Touches.trans ?_ (Touches.sub (semReset_touch ..) (by decide))
    refine Touches.trans ?_ (Touches.sub (semReset_touch ..) (by decide))
    exact Touches.refl _
  · exact Touches.refl _

theorem claimRecord_touch (s : State) (cx : Nat) (b : Nat) (v : Nat) (x : Ctx) :
    Touches [.ctxs, .parts, .blocks] s (claimRecord s cx b v x) := by
  unfold claimRecord
  try conv => arg 3; zeta
  refine Touches.trans ?_ (Touches.sub (handoffReset_touch ..) (by decide))
  refine Touches.trans ?_ (Touches.sub (semReset_touch ..) (by decide))
  refine Touches.trans ?_ (Touches.sub (mapCount_touch ..) (by decide))
  refine Touches.trans ?_ (Touches.sub (mapCount_touch ..) (by decide))
  refine Touches.trans ?_ (Touches.sub (State.updCtx_touch ..) (by decide))
  exact Touches.refl _

theorem noteTail_touch (s : State) (cx : Nat) (v : Nat) :
    Touches [.ctxs] s (noteTail s cx v) := by
  unfold noteTail
  try conv => arg 3; zeta
  refine Touches.ite ?_ ?_
  · refine Touches.trans ?_ (Touches.sub (State.updCtx_touch ..) (by decide))
    exact Touches.refl _
  · exact Touches.refl _

theorem countSpills_touch (s : State) (x : Ctx) :
    Touches [.parts] s (countSpills s x) := by
  unfold countSpills
  try conv => arg 3; zeta
  refine Touches.trans ?_ (Touches.sub (mapCount_touch ..) (by decide))
  exact Touches.refl _

theorem markEntries_touch (cx : Nat) (x1 : List Claim) (x2 : State) :
    Touches [.frames, .ctxs, .out] x2 (markEntries cx x1 x2) := by
  induction x1 generalizing x2 with
  | nil =>
    rw [markEntries]
    exact Touches.refl _
  | cons a t ih =>
    rw [markEntries]
    try conv => arg 3; zeta
    refine Touches.trans ?_ (ih ..)
    refine Touches.ite ?_ ?_
    · exact Touches.refl _
    · refine Touches.trans ?_ (Touches.sub (noteTail_touch ..) (by decide))
      split
      · refine Touches.trans ?_ (Touches.sub (State.updCtx_touch ..) (by decide))
        exact Touches.refl _
      · refine Touches.trans ?_ (Touches.sub (ledgerWrite_touch ..) (by decide))
        refine Touches.trans ?_ (Touches.sub (State.updFrame_touch ..) (by decide))
        refine Touches.trans ?_ (Touches.sub (State.updCtx_touch ..) (by decide))
        exact Touches.refl _

theorem claimLimit_touch (s : State) (cx : Nat) (v : Nat) (x : Ctx) :
    Touches [.rings, .ctxs, .alarms, .tu, .out, .freeIx] s (claimLimit s cx v x) := by
  unfold claimLimit
  refine Touches.ite ?_ ?_
  · refine Touches.trans ?_ (Touches.sub (raiseLogOf_touch ..) (by decide))
    refine Touches.trans ?_ (Touches.sub (State.updCtx_touch ..) (by decide))
    exact Touches.refl _
  · exact Touches.refl _

theorem claimNext_touch (s : State) (cx : Nat) (b : Nat) (x : Ctx) :
    Touches [.rings, .ctxs, .parts, .blocks, .alarms, .tu, .out, .freeIx] s (claimNext s cx b x) := by
  unfold claimNext
  try conv => arg 3; zeta
  refine Touches.ite ?_ ?_
  · refine Touches.trans ?_ (Touches.sub (claimLimit_touch ..) (by decide))
    refine Touches.trans ?_ (Touches.sub (State.updCtx_touch ..) (by decide))
    exact Touches.refl _
  · refine Touches.trans ?_ (Touches.sub (claimRecord_touch ..) (by decide))
    refine Touches.trans ?_ (Touches.sub (claimLimit_touch ..) (by decide))
    refine Touches.trans ?_ (Touches.sub (State.updCtx_touch ..) (by decide))
    exact Touches.refl _

theorem tileCommitted_touch (s : State) (m : CellCmd) (b : Nat) :
    Touches [.ctxs] s (tileCommitted s m b) := by
  unfold tileCommitted
  refine Touches.trans ?_ (Touches.sub (State.updCtx_touch ..) (by decide))
  exact Touches.refl _

theorem releaseBelow_touch (s : State) (cx : Nat) (q : Stripe) :
    Touches [.rings, .ctxs, .regions, .blocks, .cells, .alarms, .tu, .out, .freeIx] s (releaseBelow s cx q) := by
  unfold releaseBelow
  try conv => arg 3; zeta
  refine Touches.ite ?_ ?_
  · exact Touches.refl _
  · split
    · refine Touches.trans ?_ (Touches.sub (State.updCtx_touch ..) (by decide))
      exact Touches.refl _
    · refine Touches.ite ?_ ?_
      · refine Touches.trans ?_ (Touches.sub (semSignal_touch ..) (by decide))
        refine Touches.trans ?_ (Touches.sub (chargeSignal_touch ..) (by decide))
        refine Touches.trans ?_ (Touches.sub (State.updCtx_touch ..) (by decide))
        exact Touches.refl _
      · refine Touches.trans ?_ (Touches.sub (State.updCtx_touch ..) (by decide))
        exact Touches.refl _

theorem spillSettle_touch (s : State) (cx : Nat) :
    Touches [.rings, .ctxs, .parts, .bpm, .alarms, .tu, .out, .freeIx] s (spillSettle s cx) := by
  unfold spillSettle
  try conv => arg 3; zeta
  refine Touches.ite ?_ ?_
  · exact Touches.refl _
  · refine Touches.trans ?_ (Touches.sub (State.updCtx_touch ..) (by decide))
    refine Touches.trans ?_ (Touches.sub (releaseAll_touch ..) (by decide))
    exact Touches.refl _

theorem signalHalo_touch (s : State) (cx : Nat) (q : Stripe) :
    Touches [.rings, .ctxs, .blocks, .cells, .alarms, .tu, .out, .freeIx] s (signalHalo s cx q) := by
  unfold signalHalo
  try conv => arg 3; zeta
  refine Touches.ite ?_ ?_
  · refine Touches.trans ?_ (Touches.sub (semSignal_touch ..) (by decide))
    refine Touches.trans ?_ (Touches.sub (State.updCtx_touch ..) (by decide))
    exact Touches.refl _
  · exact Touches.refl _

theorem signalHandoffs_touch (cx : Nat) (q : Stripe) (x2 : List ((Nat × Nat) × Nat)) (x3 : State) :
    Touches [.rings, .ctxs, .regions, .blocks, .cells, .alarms, .tu, .out, .freeIx] x3 (signalHandoffs cx q x2 x3) := by
  induction x2 generalizing x3 with
  | nil =>
    rw [signalHandoffs]
    exact Touches.refl _
  | cons a t ih =>
    rw [signalHandoffs]
    refine Touches.trans ?_ (ih ..)
    refine Touches.trans ?_ (Touches.sub (State.updCtx_touch ..) (by decide))
    refine Touches.trans ?_ (Touches.sub (semSignal_touch ..) (by decide))
    refine Touches.ite ?_ ?_
    · refine Touches.trans ?_ (Touches.sub (chargeSignal_touch ..) (by decide))
      refine Touches.trans ?_ (Touches.sub (semSignal_touch ..) (by decide))
      refine Touches.ite ?_ ?_
      · refine Touches.trans ?_ (Touches.sub (chargeSignal_touch ..) (by decide))
        exact Touches.refl _
      · exact Touches.refl _
    · refine Touches.trans ?_ (Touches.sub (semSignal_touch ..) (by decide))
      refine Touches.ite ?_ ?_
      · refine Touches.trans ?_ (Touches.sub (chargeSignal_touch ..) (by decide))
        exact Touches.refl _
      · exact Touches.refl _

theorem entryProgress_touch (s : State) (cx : Nat) (v : Nat) :
    Touches [.moult, .rings, .streams, .frames, .resamplers, .relq, .batches, .ctxs, .parts, .regions, .blocks, .cells, .mem, .bpm, .store, .alarms, .tu, .out, .freeIx] s (entryProgress s cx v) := by
  unfold entryProgress
  try conv => arg 3; zeta
  split
  · exact Touches.refl _
  · split
    · refine Touches.trans ?_ (Touches.sub (ctxSettle_touch ..) (by decide))
      exact Touches.refl _
    · refine Touches.trans ?_ (Touches.sub (ctxSettle_touch ..) (by decide))
      refine Touches.trans ?_ (Touches.sub (spillSettle_touch ..) (by decide))
      refine Touches.trans ?_ (Touches.sub (markEntries_touch ..) (by decide))
      refine Touches.trans ?_ (Touches.sub (signalHandoffs_touch ..) (by decide))
      refine Touches.trans ?_ (Touches.sub (releaseBelow_touch ..) (by decide))
      refine Touches.trans ?_ (Touches.sub (signalHalo_touch ..) (by decide))
      exact Touches.refl _

theorem sramWrite_touch (s : State) (a : Nat) (d : Bytes) :
    Touches [.sram] s (sramWrite s a d) := by
  unfold sramWrite
  refine Touches.ofMk ?_ kp kp kp kp kp kp kp kp kp kp kp kp kp kp kp kp kp kp kp kp kp kp kp kp kp kp kp kp kp kp kp kp kp kp ch kp kp kp kp
  exact Touches.refl _

theorem stageBody_touch (r : Nat) (x1 : Nat) (x2 : Bytes) (x3 : State) :
    Touches [.sram] x3 (stageBody r x1 x2 x3) := by
  induction x1 generalizing x2 x3 with
  | zero =>
    rw [stageBody]
    exact Touches.refl _
  | succ k ih =>
    rw [stageBody]
    refine Touches.ite ?_ ?_
    · exact Touches.refl _
    · refine Touches.trans ?_ (ih ..)
      refine Touches.trans ?_ (Touches.sub (sramWrite_touch ..) (by decide))
      exact Touches.refl _

theorem busWrite_touch (s : State) (a : Nat) (d : Bytes) :
    Touches [.mem, .sram] s (busWrite s a d) := by
  unfold busWrite
  refine Touches.ite ?_ ?_
  · refine Touches.trans ?_ (Touches.sub (dramWrite_touch ..) (by decide))
    exact Touches.refl _
  · refine Touches.trans ?_ (Touches.sub (sramWrite_touch ..) (by decide))
    exact Touches.refl _

theorem rangesWrite_touch (x0 : List Range) (x1 : Bytes) (x2 : State) :
    Touches [.mem, .sram] x2 (rangesWrite x0 x1 x2) := by
  induction x0 generalizing x1 x2 with
  | nil =>
    rw [rangesWrite]
    exact Touches.refl _
  | cons a t ih =>
    rw [rangesWrite]
    refine Touches.trans ?_ (ih ..)
    refine Touches.trans ?_ (Touches.sub (busWrite_touch ..) (by decide))
    exact Touches.refl _

theorem rangesFree_touch (l : List Range) (s : State) :
    Touches [.mem, .sram, .freeIx] s (rangesFree l s) := by
  unfold rangesFree
  try conv => arg 3; zeta
  refine Touches.trans ?_ (Touches.sub (rangesWrite_touch ..) (by decide))
  refine Touches.ofMk ?_ kp kp kp kp kp kp kp kp kp kp kp kp kp kp kp kp kp kp kp kp kp kp kp kp kp kp kp kp kp kp kp kp kp kp kp kp kp ch kp
  exact Touches.refl _

theorem sramZero_touch (s : State) (a : Nat) (n : Nat) :
    Touches [.sram] s (sramZero s a n) := by
  unfold sramZero
  refine Touches.ofMk ?_ kp kp kp kp kp kp kp kp kp kp kp kp kp kp kp kp kp kp kp kp kp kp kp kp kp kp kp kp kp kp kp kp kp kp ch kp kp kp kp
  exact Touches.refl _

theorem blockZero_touch (s : State) (b : Nat) :
    Touches [.sram] s (blockZero s b) := by
  unfold blockZero
  refine Touches.foldl (fun y0 _ => ?_) ?_ _
  · refine Touches.trans ?_ (Touches.sub (sramZero_touch ..) (by decide))
    exact Touches.refl _
  · refine Touches.trans ?_ (Touches.sub (sramZero_touch ..) (by decide))
    exact Touches.refl _

theorem regionZero_touch (s : State) (r : Nat) :
    Touches [.sram] s (regionZero s r) := by
  unfold regionZero
  refine Touches.foldl (fun y0 _ => ?_) ?_ _
  · refine Touches.trans ?_ (Touches.sub (blockZero_touch ..) (by decide))
    exact Touches.refl _
  · refine Touches.trans ?_ (Touches.sub (sramZero_touch ..) (by decide))
    exact Touches.refl _

theorem writeTile_touch (s : State) (m : CellCmd) :
    Touches [.mem, .sram, .freeIx] s (writeTile s m) := by
  unfold writeTile
  try conv => arg 3; zeta
  split
  · refine Touches.trans ?_ (Touches.sub (rangesFree_touch ..) (by decide))
    exact Touches.refl _
  · split
    · refine Touches.trans ?_ (Touches.sub (rangesFree_touch ..) (by decide))
      exact Touches.refl _
    · refine Touches.ite ?_ ?_
      · refine Touches.trans ?_ (Touches.sub (rangesFree_touch ..) (by decide))
        exact Touches.refl _
      · refine Touches.trans ?_ (Touches.sub (rangesWrite_touch ..) (by decide))
        exact Touches.refl _

theorem shadowFill_touch (s : State) (r : Nat) (d : Bytes) :
    Touches [.sram] s (shadowFill s r d) := by
  unfold shadowFill
  refine Touches.trans ?_ (Touches.sub (sramWrite_touch ..) (by decide))
  exact Touches.refl _

theorem cmdStores_touch (s : State) (m : CellCmd) :
    Touches [.mem, .sram, .freeIx] s (cmdStores s m) := by
  unfold cmdStores
  refine Touches.ite ?_ ?_
  · refine Touches.trans ?_ (Touches.sub (rangesWrite_touch ..) (by decide))
    exact Touches.refl _
  · refine Touches.ite ?_ ?_
    · refine Touches.trans ?_ (Touches.sub (writeTile_touch ..) (by decide))
      exact Touches.refl _
    · refine Touches.trans ?_ (Touches.sub (rangesFree_touch ..) (by decide))
      exact Touches.refl _

theorem planesEnd_touch (s : State) (c : Nat) (m : CellCmd) :
    Touches [.cells] s (planesEnd s c m) := by
  unfold planesEnd
  split
  · refine Touches.trans ?_ (Touches.sub (State.updCell_touch ..) (by decide))
    exact Touches.refl _
  · exact Touches.refl _

theorem planesStart_touch (s : State) (c : Nat) (m : CellCmd) :
    Touches [.cells] s (planesStart s c m) := by
  unfold planesStart
  split
  · exact Touches.refl _
  · refine Touches.trans ?_ (Touches.sub (State.updCell_touch ..) (by decide))
    exact Touches.refl _

theorem takeToken_touch (s : State) (c : Nat) (m : CellCmd) :
    Touches [.regions] s (takeToken s c m) := by
  unfold takeToken
  try conv => arg 3; zeta
  refine Touches.ite ?_ ?_
  · split
    · refine Touches.trans ?_ (Touches.sub (State.updRegion_touch ..) (by decide))
      exact Touches.refl _
    · refine Touches.trans ?_ (Touches.sub (State.updRegion_touch ..) (by decide))
      exact Touches.refl _
  · exact Touches.refl _

theorem spillWrite_touch (q : Stripe) (s : State) (t : Nat) (a : Nat) :
    Touches [.mem] s (spillWrite q s t a) := by
  unfold spillWrite
  try conv => arg 3; zeta
  refine Touches.trans ?_ (Touches.sub (dramWrite_touch ..) (by decide))
  exact Touches.refl _

theorem spillStore_touch (q : Stripe) (cx : Nat) (s : State) :
    Touches [.ctxs, .mem] s (spillStore q cx s) := by
  unfold spillStore
  try conv => arg 3; zeta
  refine Touches.trans ?_ (Touches.sub (State.updCtx_touch ..) (by decide))
  refine Touches.foldl (fun y0 _ => ?_) ?_ _
  · refine Touches.trans ?_ (Touches.sub (spillWrite_touch ..) (by decide))
    exact Touches.refl _
  · exact Touches.refl _

theorem spillTake_touch (p : Plan) (cx : Nat) (l : List Nat) (s t : State) (h : spillTake p cx l s = some t) : Touches [.rings, .ctxs, .parts, .mem, .bpm, .alarms, .tu, .out, .freeIx] s t := by
  induction l generalizing s with
  | nil =>
    cases h
    exact Touches.refl _
  | cons a l ih =>
    rw [spillTake] at h
    split at h
    · cases h
    · split at h
      · cases h
      · rename_i e
        exact (Touches.pair e (Touches.sub (bpmAlloc_touch ..) (by decide))).trans
          ((Touches.sub (State.updCtx_touch ..) (by decide)).trans (ih _ h))

theorem execSpillWaveStart_touch (ctx : Nat) (picture : Nat) (s : State) :
    ∃ u, execSpillWaveStart ctx picture s = .next u ∧ Touches [.rings, .ctxs, .parts, .blocks, .mem, .bpm, .alarms, .tu, .out, .freeIx] s u := by
  unfold execSpillWaveStart
  try conv => enter [1, t, 1, 1]; zeta
  split
  · refine Touches.done ?_
    exact Touches.refl _
  · split
    · refine Touches.done ?_
      exact Touches.refl _
    · refine Touches.iteNext ?_ ?_
      · split
        · refine Touches.done ?_
          exact Touches.refl _
        · rename_i v0 e1
          have hv0 : Touches [.rings, .ctxs, .parts, .blocks, .mem, .bpm, .alarms, .tu, .out, .freeIx] s v0 := by
            refine Touches.trans ?_ (Touches.sub (spillTake_touch _ _ _ _ _ e1) (by decide))
            refine Touches.trans ?_ (Touches.sub (handoffReset_touch ..) (by decide))
            refine Touches.trans ?_ (Touches.sub (spillStore_touch ..) (by decide))
            exact Touches.refl _
          refine Touches.done ?_
          refine Touches.trans ?_ (Touches.sub (State.updCtx_touch ..) (by decide))
          exact hv0
      · refine Touches.done ?_
        exact Touches.refl _

theorem countIssue_touch (s : State) (c : Nat) (m : CellCmd) :
    Touches [.parts, .regions] s (countIssue s c m) := by
  unfold countIssue
  try conv => arg 3; zeta
  split
  · exact Touches.refl _
  · refine Touches.ite ?_ ?_
    · exact Touches.refl _
    · refine Touches.trans ?_ (Touches.sub (State.updRegion_touch ..) (by decide))
      refine Touches.ite ?_ ?_
      · refine Touches.trans ?_ (Touches.sub (mapCount_touch ..) (by decide))
        refine Touches.ite ?_ ?_
        · refine Touches.trans ?_ (Touches.sub (rgnCount_touch ..) (by decide))
          exact Touches.refl _
        · refine Touches.ite ?_ ?_
          · refine Touches.trans ?_ (Touches.sub (rgnCount_touch ..) (by decide))
            exact Touches.refl _
          · exact Touches.refl _
      · refine Touches.ite ?_ ?_
        · refine Touches.trans ?_ (Touches.sub (rgnCount_touch ..) (by decide))
          exact Touches.refl _
        · refine Touches.ite ?_ ?_
          · refine Touches.trans ?_ (Touches.sub (rgnCount_touch ..) (by decide))
            exact Touches.refl _
          · exact Touches.refl _

theorem queuePut_touch (s : State) (c : Nat) (m : CellCmd) :
    Touches [.ctxs, .regions, .blocks, .cells] s (queuePut s c m) := by
  unfold queuePut
  try conv => arg 3; zeta
  refine Touches.foldl (fun y0 _ => ?_) ?_ _
  · refine Touches.trans ?_ (Touches.sub (semWait_touch ..) (by decide))
    exact Touches.refl _
  · refine Touches.trans ?_ (Touches.sub (State.updBlock_touch ..) (by decide))
    refine Touches.trans ?_ (Touches.sub (State.updCell_touch ..) (by decide))
    exact Touches.refl _

theorem noteStalls_touch (cx : Nat) (b : Nat) (x2 : List Claim) (x3 : State) :
    Touches [.ctxs, .parts] x3 (noteStalls cx b x2 x3) := by
  induction x2 generalizing x3 with
  | nil =>
    rw [noteStalls]
    exact Touches.refl _
  | cons a t ih =>
    rw [noteStalls]
    refine Touches.trans ?_ (ih ..)
    refine Touches.ite ?_ ?_
    · refine Touches.trans ?_ (Touches.sub (mapCount_touch ..) (by decide))
      refine Touches.trans ?_ (Touches.sub (State.updCtx_touch ..) (by decide))
      exact Touches.refl _
    · exact Touches.refl _

theorem updSweep_touch (s : State) (cx : Nat) (entry : Nat) (b : Nat) (f : Sweep → Sweep) :
    Touches [.ctxs] s (updSweep s cx entry b f) := by
  unfold updSweep
  refine Touches.trans ?_ (Touches.sub (State.updCtx_touch ..) (by decide))
  exact Touches.refl _

theorem passSkipped_touch (cx : Nat) (b : Nat) (x2 : Nat) (x3 : State) :
    Touches [.moult, .rings, .streams, .frames, .resamplers, .relq, .batches, .ctxs, .parts, .regions, .blocks, .cells, .mem, .bpm, .store, .alarms, .tu, .out, .freeIx] x3 (passSkipped cx b x2 x3) := by
  induction x2 generalizing x3 with
  | zero =>
    rw [passSkipped]
    exact Touches.refl _
  | succ k ih =>
    rw [passSkipped]
    try conv => arg 3; zeta
    split
    · exact Touches.refl _
    · refine Touches.ite ?_ ?_
      · refine Touches.trans ?_ (ih ..)
        refine Touches.trans ?_ (Touches.sub (entryProgress_touch ..) (by decide))
        refine Touches.trans ?_ (Touches.sub (updSweep_touch ..) (by decide))
        refine Touches.trans ?_ (Touches.sub (mapCount_touch ..) (by decide))
        exact Touches.refl _
      · exact Touches.refl _

theorem sliceEnd_touch (s : State) (cx : Nat) :
    Touches [.ctxs, .regions] s (sliceEnd s cx) := by
  unfold sliceEnd
  try conv => arg 3; zeta
  refine Touches.ite ?_ ?_
  · refine Touches.foldl (fun y0 _ => ?_) ?_ _
    · refine Touches.foldl (fun y1 _ => ?_) ?_ _
      · refine Touches.ite ?_ ?_
        · refine Touches.foldl (fun y2 _ => ?_) ?_ _
          · refine Touches.trans ?_ (Touches.sub (inherit_touch ..) (by decide))
            exact Touches.refl _
          · exact Touches.refl _
        · exact Touches.refl _
      · exact Touches.refl _
    · refine Touches.trans ?_ (Touches.sub (State.updCtx_touch ..) (by decide))
      exact Touches.refl _
  · exact Touches.refl _

theorem writeNext_touch (s : State) (cx : Nat) (c : Nat) (m : CellCmd) :
    Touches [.moult, .rings, .streams, .frames, .resamplers, .relq, .batches, .ctxs, .parts, .regions, .blocks, .cells, .mem, .bpm, .store, .alarms, .tu, .out, .freeIx] s (writeNext s cx c m) := by
  unfold writeNext
  try conv => arg 3; zeta
  split
  · refine Touches.trans ?_ (Touches.sub (passSkipped_touch ..) (by decide))
    refine Touches.trans ?_ (Touches.sub (noteStalls_touch ..) (by decide))
    exact Touches.refl _
  · split
    · refine Touches.ite ?_ ?_
      · refine Touches.trans ?_ (Touches.sub (queuePut_touch ..) (by decide))
        refine Touches.trans ?_ (Touches.sub (passSkipped_touch ..) (by decide))
        refine Touches.trans ?_ (Touches.sub (noteStalls_touch ..) (by decide))
        exact Touches.refl _
      · refine Touches.trans ?_ (Touches.sub (passSkipped_touch ..) (by decide))
        refine Touches.trans ?_ (Touches.sub (noteStalls_touch ..) (by decide))
        exact Touches.refl _
    · refine Touches.ite ?_ ?_
      · refine Touches.trans ?_ (Touches.sub (queuePut_touch ..) (by decide))
        refine Touches.trans ?_ (Touches.sub (updSweep_touch ..) (by decide))
        refine Touches.ite ?_ ?_
        · refine Touches.trans ?_ (Touches.sub (mapCount_touch ..) (by decide))
          refine Touches.ite ?_ ?_
          · refine Touches.trans ?_ (Touches.sub (sliceEnd_touch ..) (by decide))
            refine Touches.trans ?_ (Touches.sub (passSkipped_touch ..) (by decide))
            refine Touches.trans ?_ (Touches.sub (noteStalls_touch ..) (by decide))
            exact Touches.refl _
          · refine Touches.trans ?_ (Touches.sub (passSkipped_touch ..) (by decide))
            refine Touches.trans ?_ (Touches.sub (noteStalls_touch ..) (by decide))
            exact Touches.refl _
        · refine Touches.ite ?_ ?_
          · refine Touches.trans ?_ (Touches.sub (sliceEnd_touch ..) (by decide))
            refine Touches.trans ?_ (Touches.sub (passSkipped_touch ..) (by decide))
            refine Touches.trans ?_ (Touches.sub (noteStalls_touch ..) (by decide))
            exact Touches.refl _
          · refine Touches.trans ?_ (Touches.sub (passSkipped_touch ..) (by decide))
            refine Touches.trans ?_ (Touches.sub (noteStalls_touch ..) (by decide))
            exact Touches.refl _
      · refine Touches.ite ?_ ?_
        · refine Touches.trans ?_ (Touches.sub (queuePut_touch ..) (by decide))
          refine Touches.trans ?_ (Touches.sub (passSkipped_touch ..) (by decide))
          refine Touches.trans ?_ (Touches.sub (noteStalls_touch ..) (by decide))
          exact Touches.refl _
        · refine Touches.trans ?_ (Touches.sub (passSkipped_touch ..) (by decide))
          refine Touches.trans ?_ (Touches.sub (noteStalls_touch ..) (by decide))
          exact Touches.refl _

theorem queueWrite_touch (s : State) (c : Nat) (m : CellCmd) :
    Touches [.moult, .rings, .streams, .frames, .resamplers, .relq, .batches, .ctxs, .parts, .regions, .blocks, .cells, .mem, .bpm, .store, .alarms, .tu, .out, .freeIx] s (queueWrite s c m) := by
  unfold queueWrite
  try conv => arg 3; zeta
  split
  · exact Touches.refl _
  · refine Touches.ite ?_ ?_
    · refine Touches.ite ?_ ?_
      · refine Touches.ite ?_ ?_
        · refine Touches.trans ?_ (Touches.sub (queuePut_touch ..) (by decide))
          exact Touches.refl _
        · exact Touches.refl _
      · refine Touches.ite ?_ ?_
        · exact Touches.refl _
        · refine Touches.ite ?_ ?_
          · refine Touches.trans ?_ (Touches.sub (writeNext_touch ..) (by decide))
            exact Touches.refl _
          · refine Touches.trans ?_ (Touches.sub (queuePut_touch ..) (by decide))
            exact Touches.refl _
    · exact Touches.refl _

theorem endRunning_touch (s : State) (c : Nat) (u : Nat) (q : QCmd) :
    Touches [.regions, .cells] s (endRunning s c u q) := by
  unfold endRunning
  try conv => arg 3; zeta
  refine Touches.ite ?_ ?_
  · refine Touches.trans ?_ (Touches.sub (State.updRegion_touch ..) (by decide))
    refine Touches.trans ?_ (Touches.sub (State.updCell_touch ..) (by decide))
    exact Touches.refl _
  · refine Touches.trans ?_ (Touches.sub (State.updCell_touch ..) (by decide))
    exact Touches.refl _

theorem abortCmd_touch (s : State) (c : Nat) (u : Nat) (q : QCmd) :
    Touches [.regions, .cells, .mem, .sram, .freeIx] s (abortCmd s c u q) := by
  unfold abortCmd
  refine Touches.trans ?_ (Touches.sub (rangesFree_touch ..) (by decide))
  refine Touches.trans ?_ (Touches.sub (endRunning_touch ..) (by decide))
  exact Touches.refl _

theorem execCommandWrite_touch (cell : Nat) (cmd : CellCmd) (s : State) :
    ∃ u, execCommandWrite cell cmd s = .next u ∧ Touches [.moult, .rings, .streams, .frames, .resamplers, .relq, .batches, .ctxs, .parts, .regions, .blocks, .cells, .mem, .bpm, .store, .alarms, .tu, .out, .freeIx] s u := by
  unfold execCommandWrite
  refine Touches.done ?_
  refine Touches.trans ?_ (Touches.sub (queueWrite_touch ..) (by decide))
  exact Touches.refl _

theorem execWeightPrefetch_touch (ctx : Nat) (layer : Nat) (s : State) :
    ∃ u, execWeightPrefetch ctx layer s = .next u ∧ Touches [.parts, .regions, .sram] s u := by
  unfold execWeightPrefetch
  try conv => enter [1, t, 1, 1]; zeta
  split
  · refine Touches.done ?_
    exact Touches.refl _
  · refine Touches.iteNext ?_ ?_
    · refine Touches.done ?_
      exact Touches.refl _
    · refine Touches.done ?_
      refine Touches.trans ?_ (Touches.sub (State.updRegion_touch ..) (by decide))
      refine Touches.trans ?_ (Touches.sub (shadowFill_touch ..) (by decide))
      refine Touches.trans ?_ (Touches.sub (mapCount_touch ..) (by decide))
      exact Touches.refl _

theorem startCmd_touch (s : State) (c : Nat) (q : QCmd) :
    Touches [.parts, .regions, .cells] s (startCmd s c q) := by
  unfold startCmd
  try conv => arg 3; zeta
  refine Touches.trans ?_ (Touches.sub (countIssue_touch ..) (by decide))
  refine Touches.ite ?_ ?_
  · refine Touches.trans ?_ (Touches.sub (planesStart_touch ..) (by decide))
    refine Touches.trans ?_ (Touches.sub (State.updCell_touch ..) (by decide))
    refine Touches.trans ?_ (Touches.sub (takeToken_touch ..) (by decide))
    refine Touches.ite ?_ ?_
    · refine Touches.trans ?_ (Touches.sub (rgnCount_touch ..) (by decide))
      refine Touches.foldl (fun y0 _ => ?_) ?_ _
      · refine Touches.trans ?_ (Touches.sub (rgnCount_touch ..) (by decide))
        exact Touches.refl _
      · exact Touches.refl _
    · refine Touches.foldl (fun y1 _ => ?_) ?_ _
      · refine Touches.trans ?_ (Touches.sub (rgnCount_touch ..) (by decide))
        exact Touches.refl _
      · exact Touches.refl _
  · refine Touches.trans ?_ (Touches.sub (State.updCell_touch ..) (by decide))
    refine Touches.trans ?_ (Touches.sub (takeToken_touch ..) (by decide))
    refine Touches.ite ?_ ?_
    · refine Touches.trans ?_ (Touches.sub (rgnCount_touch ..) (by decide))
      refine Touches.foldl (fun y2 _ => ?_) ?_ _
      · refine Touches.trans ?_ (Touches.sub (rgnCount_touch ..) (by decide))
        exact Touches.refl _
      · exact Touches.refl _
    · refine Touches.foldl (fun y3 _ => ?_) ?_ _
      · refine Touches.trans ?_ (Touches.sub (rgnCount_touch ..) (by decide))
        exact Touches.refl _
      · exact Touches.refl _

theorem finishCmd_touch (s : State) (c : Nat) (m : CellCmd) :
    Touches [.moult, .rings, .streams, .frames, .resamplers, .relq, .batches, .ctxs, .parts, .regions, .blocks, .cells, .mem, .bpm, .store, .alarms, .tu, .sram, .out, .freeIx] s (finishCmd s c m) := by
  unfold finishCmd
  try conv => arg 3; zeta
  refine Touches.ite ?_ ?_
  · refine Touches.trans ?_ (Touches.sub (entryProgress_touch ..) (by decide))
    refine Touches.trans ?_ (Touches.sub (tileCommitted_touch ..) (by decide))
    refine Touches.trans ?_ (Touches.sub (cmdStores_touch ..) (by decide))
    refine Touches.trans ?_ (Touches.sub (commitTile_touch ..) (by decide))
    refine Touches.ite ?_ ?_
    · refine Touches.trans ?_ (Touches.sub (planesEnd_touch ..) (by decide))
      exact Touches.refl _
    · exact Touches.refl _
  · refine Touches.trans ?_ (Touches.sub (ctxSettle_touch ..) (by decide))
    refine Touches.trans ?_ (Touches.sub (cmdStores_touch ..) (by decide))
    refine Touches.ite ?_ ?_
    · refine Touches.trans ?_ (Touches.sub (planesEnd_touch ..) (by decide))
      exact Touches.refl _
    · exact Touches.refl _

theorem execCommandComplete_touch (cell : Nat) (unit : Nat) (s : State) :
    ∃ u, execCommandComplete cell unit s = .next u ∧ Touches [.moult, .rings, .streams, .frames, .resamplers, .relq, .batches, .ctxs, .parts, .regions, .blocks, .cells, .mem, .bpm, .store, .alarms, .tu, .sram, .out, .freeIx] s u := by
  unfold execCommandComplete
  split
  · refine Touches.done ?_
    exact Touches.refl _
  · refine Touches.done ?_
    refine Touches.trans ?_ (Touches.sub (finishCmd_touch ..) (by decide))
    refine Touches.trans ?_ (Touches.sub (endRunning_touch ..) (by decide))
    exact Touches.refl _

theorem execStripeClaim_touch (ctx : Nat) (block : Nat) (s : State) :
    ∃ u, execStripeClaim ctx block s = .next u ∧ Touches [.moult, .rings, .streams, .frames, .resamplers, .relq, .batches, .ctxs, .parts, .regions, .blocks, .cells, .mem, .bpm, .store, .alarms, .tu, .out, .freeIx] s u := by
  unfold execStripeClaim
  try conv => enter [1, t, 1, 1]; zeta
  split
  · refine Touches.done ?_
    exact Touches.refl _
  · refine Touches.iteNext ?_ ?_
    · refine Touches.iteNext ?_ ?_
      · refine Touches.done ?_
        refine Touches.trans ?_ (Touches.sub (noteHold_touch ..) (by decide))
        exact Touches.refl _
      · refine Touches.done ?_
        refine Touches.trans ?_ (Touches.sub (entryProgress_touch ..) (by decide))
        refine Touches.trans ?_ (Touches.sub (claimNext_touch ..) (by decide))
        refine Touches.trans ?_ (Touches.sub (beginCtx_touch ..) (by decide))
        refine Touches.ite ?_ ?_
        · exact Touches.refl _
        · refine Touches.trans ?_ (Touches.sub (countSpills_touch ..) (by decide))
          exact Touches.refl _
    · refine Touches.done ?_
      exact Touches.refl _

theorem execArrayCreditRefill_touch (region : Nat) (issuing : List Nat) (s : State) :
    ∃ u, execArrayCreditRefill region issuing s = .next u ∧ Touches [.regions] s u := by
  unfold execArrayCreditRefill
  refine Touches.iteNext ?_ ?_
  · refine Touches.done ?_
    exact Touches.refl _
  · refine Touches.done ?_
    refine Touches.trans ?_ (Touches.sub (State.updRegion_touch ..) (by decide))
    exact Touches.refl _

theorem adpCount_touch (s : State) (slot : Nat) (k : Nat) (n : Nat) :
    Touches [.streams] s (adpCount s slot k n) := by
  unfold adpCount
  refine Touches.trans ?_ (Touches.sub (State.updStream_touch ..) (by decide))
  exact Touches.refl _

theorem writeMasters_touch (slot : Nat) (gen : Nat) (s : State) (ms : List Nat) :
    Touches [.streams, .mem, .store] s (writeMasters slot gen s ms) := by
  unfold writeMasters
  try conv => arg 3; zeta
  refine Touches.foldl (fun y0 _ => ?_) ?_ _
  · refine Touches.trans ?_ (Touches.sub (storeWrite_touch ..) (by decide))
    exact Touches.refl _
  · exact Touches.refl _

theorem headOpen_touch (s : State) (slot : Nat) :
    Touches [.streams, .mem, .store] s (headOpen s slot) := by
  unfold headOpen
  try conv => arg 3; zeta
  refine Touches.trans ?_ (Touches.sub (recSet_touch ..) (by decide))
  exact Touches.refl _

theorem adpGather_touch (s : State) (fid : Nat) :
    Touches [.streams, .mem, .store] s (adpGather s fid) := by
  unfold adpGather
  try conv => arg 3; zeta
  refine Touches.ite ?_ ?_
  · refine Touches.ite ?_ ?_
    · refine Touches.trans ?_ (Touches.sub (headOpen_touch ..) (by decide))
      refine Touches.trans ?_ (Touches.sub (State.updStream_touch ..) (by decide))
      exact Touches.refl _
    · refine Touches.trans ?_ (Touches.sub (passOver_touch ..) (by decide))
      exact Touches.refl _
  · exact Touches.refl _

theorem execTrackPicture_touch (slot : Nat) (s : State) :
    ∃ u, execTrackPicture slot s = .next u ∧ Touches [.streams, .frames, .mem, .store, .out] s u := by
  unfold execTrackPicture
  split
  · rename_i v0 e1
    have hv0 : Touches [.streams, .frames, .mem, .store, .out] s v0 := by
      refine Touches.pair e1 ?_
      refine Touches.trans ?_ (Touches.sub (trackNext_touch ..) (by decide))
      exact Touches.refl _
    refine Touches.done ?_
    exact hv0
  · rename_i v2 v3 e4
    have hv3 : Touches [.streams, .frames, .mem, .store, .out] s v3 := by
      refine Touches.pair e4 ?_
      refine Touches.trans ?_ (Touches.sub (trackNext_touch ..) (by decide))
      exact Touches.refl _
    refine Touches.done ?_
    refine Touches.trans ?_ (Touches.sub (adpGather_touch ..) (by decide))
    exact hv3

theorem cbExpect_touch (s : State) (slot : Nat) (u : CbPending) :
    Touches [.streams, .mem, .store] s (cbExpect s slot u) := by
  unfold cbExpect
  try conv => arg 3; zeta
  refine Touches.trans ?_ (Touches.sub (recSet_touch ..) (by decide))
  refine Touches.trans ?_ (Touches.sub (State.updStream_touch ..) (by decide))
  exact Touches.refl _

theorem headEnd_touch (s : State) (slot : Nat) (rest : List Nat) (fs : List (Nat × Bytes)) (bad : Bool) :
    Touches [.streams, .mem, .store] s (headEnd s slot rest fs bad) := by
  unfold headEnd
  try conv => arg 3; zeta
  refine Touches.trans ?_ (Touches.sub (recSet_touch ..) (by decide))
  exact Touches.refl _

theorem stepCtxEnd_touch (s : State) (slot : Nat) :
    Touches [.rings, .ctxs, .parts, .regions, .blocks, .cells, .mem, .bpm, .store, .alarms, .tu, .out, .freeIx] s (stepCtxEnd s slot) := by
  unfold stepCtxEnd
  refine Touches.foldl (fun y0 _ => ?_) ?_ _
  · refine Touches.trans ?_ (Touches.sub (dropCtx_touch ..) (by decide))
    exact Touches.refl _
  · exact Touches.refl _

theorem stepCommit_touch (s : State) (slot : Nat) (a : AdpStep) :
    Touches [.moult, .rings, .streams, .frames, .ctxs, .parts, .regions, .blocks, .cells, .mem, .bpm, .store, .alarms, .tu, .out, .freeIx] s (stepCommit s slot a) := by
  unfold stepCommit
  try conv => arg 3; zeta
  refine Touches.trans ?_ (Touches.sub (sweepSlot_touch ..) (by decide))
  refine Touches.ite ?_ ?_
  · refine Touches.trans ?_ (Touches.sub (raiseLogOf_touch ..) (by decide))
    refine Touches.trans ?_ (Touches.sub (adpCount_touch ..) (by decide))
    refine Touches.trans ?_ (Touches.sub (headEnd_touch ..) (by decide))
    refine Touches.trans ?_ (Touches.sub (adpCount_touch ..) (by decide))
    refine Touches.trans ?_ (Touches.sub (adpCount_touch ..) (by decide))
    refine Touches.trans ?_ (Touches.sub (adpCount_touch ..) (by decide))
    refine Touches.trans ?_ (Touches.sub (State.updStream_touch ..) (by decide))
    refine Touches.trans ?_ (Touches.sub (stepCtxEnd_touch ..) (by decide))
    exact Touches.refl _
  · refine Touches.trans ?_ (Touches.sub (adpCount_touch ..) (by decide))
    refine Touches.trans ?_ (Touches.sub (headEnd_touch ..) (by decide))
    refine Touches.trans ?_ (Touches.sub (writeMasters_touch ..) (by decide))
    refine Touches.trans ?_ (Touches.sub (cbExpect_touch ..) (by decide))
    refine Touches.trans ?_ (Touches.sub (adpCount_touch ..) (by decide))
    refine Touches.trans ?_ (Touches.sub (adpCount_touch ..) (by decide))
    refine Touches.trans ?_ (Touches.sub (adpCount_touch ..) (by decide))
    refine Touches.trans ?_ (Touches.sub (State.updStream_touch ..) (by decide))
    refine Touches.trans ?_ (Touches.sub (stepCtxEnd_touch ..) (by decide))
    exact Touches.refl _

theorem execAdapterStepCommit_touch (slot : Nat) (s : State) :
    ∃ u, execAdapterStepCommit slot s = .next u ∧ Touches [.moult, .rings, .streams, .frames, .ctxs, .parts, .regions, .blocks, .cells, .mem, .bpm, .store, .alarms, .tu, .out, .freeIx] s u := by
  unfold execAdapterStepCommit
  split
  · refine Touches.done ?_
    refine Touches.trans ?_ (Touches.sub (stepCtxEnd_touch ..) (by decide))
    exact Touches.refl _
  · refine Touches.iteNext ?_ ?_
    · refine Touches.done ?_
      exact Touches.refl _
    · refine Touches.iteNext ?_ ?_
      · refine Touches.done ?_
        exact Touches.refl _
      · refine Touches.done ?_
        refine Touches.trans ?_ (Touches.sub (stepCommit_touch ..) (by decide))
        exact Touches.refl _

theorem stepStart_touch (s : State) (slot : Nat) :
    Touches [.streams, .ctxs, .blocks, .mem, .store] s (stepStart s slot) := by
  unfold stepStart
  try conv => arg 3; zeta
  split
  · exact Touches.refl _
  · refine Touches.ite ?_ ?_
    · exact Touches.refl _
    · split
      · exact Touches.refl _
      · refine Touches.trans ?_ (Touches.sub (State.updStream_touch ..) (by decide))
        refine Touches.trans ?_ (Touches.sub (placeCtx_touch ..) (by decide))
        refine Touches.ofMk ?_ kp kp kp kp kp kp kp kp kp kp kp kp kp kp kp kp kp kp kp ch kp kp kp kp kp kp kp kp kp kp kp kp kp kp kp kp kp kp kp
        refine Touches.trans ?_ (Touches.sub (storeReads_touch ..) (by decide))
        exact Touches.refl _

theorem execAdapterStepStart_touch (slot : Nat) (s : State) :
    ∃ u, execAdapterStepStart slot s = .next u ∧ Touches [.streams, .ctxs, .blocks, .mem, .store] s u := by
  unfold execAdapterStepStart
  refine Touches.done ?_
  refine Touches.trans ?_ (Touches.sub (stepStart_touch ..) (by decide))
  exact Touches.refl _

end Sys2Proof.Machine
end

