-- ==== Sys2Proof/Laws/TouchesPower.lean ====
section
/-! SUPPORT. Which parts of the state each operation of these files of Machine/ can change, as `Touches` names them: Power, Clock, AonRegs, ImageCheck, Keys, Startup, Flash, Tune, Moult. -/

set_option Elab.async false

set_option linter.unusedVariables false

namespace Sys2Proof.Machine

open Sys2Proof (Bytes Byte Word)

theorem State.updInput_touch (s : State) (i : Nat) (f : InputPin → InputPin) :
    Touches [.aon] s (State.updInput s i f) := by
  unfold State.updInput
  try conv => arg 3; zeta
  refine Touches.ofMk ?_ kp kp kp kp kp kp kp kp kp kp kp kp kp kp kp kp kp kp kp kp kp kp kp kp kp kp kp kp kp kp ch kp kp kp kp kp kp kp kp
  exact Touches.refl _

theorem chatterOne_touch (s : State) (i : Nat) (n : Nat) :
    Touches [.rings, .alarms, .aon, .tu, .out, .freeIx] s (chatterOne s i n) := by
  unfold chatterOne
  try conv => arg 3; zeta
  refine Touches.ite ?_ ?_
  · refine Touches.trans ?_ (Touches.sub (raiseAlarm_touch ..) (by decide))
    refine Touches.trans ?_ (Touches.sub (State.updInput_touch ..) (by decide))
    exact Touches.refl _
  · refine Touches.trans ?_ (Touches.sub (State.updInput_touch ..) (by decide))
    exact Touches.refl _

theorem sampleRegion_touch (s : State) (r : Nat) (v : Nat) :
    Touches [.regions] s (sampleRegion s r v) := by
  unfold sampleRegion
  try conv => arg 3; zeta
  refine Touches.trans ?_ (Touches.sub (State.updRegion_touch ..) (by decide))
  exact Touches.refl _

theorem sampleRegions_touch (x0 : List (Nat × Nat)) (x1 : State) :
    Touches [.regions] x1 (sampleRegions x0 x1) := by
  induction x0 generalizing x1 with
  | nil =>
    rw [sampleRegions]
    exact Touches.refl _
  | cons a t ih =>
    rw [sampleRegions]
    refine Touches.trans ?_ (ih ..)
    refine Touches.trans ?_ (Touches.sub (sampleRegion_touch ..) (by decide))
    exact Touches.refl _

theorem grantRegion_touch (s : State) (r : Nat) :
    Touches [.regions, .pac] s (grantRegion s r) := by
  unfold grantRegion
  try conv => arg 3; zeta
  refine Touches.ite ?_ ?_
  · exact Touches.refl _
  · refine Touches.trans ?_ (Touches.sub (State.updRegion_touch ..) (by decide))
    refine Touches.ite ?_ ?_
    · refine Touches.trans ?_ (Touches.sub (pacCount_touch ..) (by decide))
      exact Touches.refl _
    · exact Touches.refl _

theorem grantAll_touch (x0 : List Nat) (x1 : State) :
    Touches [.regions, .pac] x1 (grantAll x0 x1) := by
  induction x0 generalizing x1 with
  | nil =>
    rw [grantAll]
    exact Touches.refl _
  | cons a t ih =>
    rw [grantAll]
    refine Touches.trans ?_ (ih ..)
    refine Touches.trans ?_ (Touches.sub (grantRegion_touch ..) (by decide))
    exact Touches.refl _

theorem regulatePart_touch (s : State) (p : Nat) :
    Touches [.regions] s (regulatePart s p) := by
  unfold regulatePart
  try conv => arg 3; zeta
  refine Touches.ofMk ?_ kp kp kp kp kp kp kp kp kp kp kp kp kp kp kp kp kp kp kp kp kp ch kp kp kp kp kp kp kp kp kp kp kp kp kp kp kp kp kp
  exact Touches.refl _

theorem execRegulatorUpdate_touch (s : State) :
    ∃ u, execRegulatorUpdate s = .next u ∧ Touches [.regions] s u := by
  unfold execRegulatorUpdate
  try conv => enter [1, t, 1, 1]; zeta
  refine Touches.iteNext ?_ ?_
  · refine Touches.done ?_
    exact Touches.refl _
  · refine Touches.done ?_
    refine Touches.ofMk ?_ kp kp kp kp kp kp kp kp kp kp kp kp kp kp kp kp kp kp kp kp kp ch kp kp kp kp kp kp kp kp kp kp kp kp kp kp kp kp kp
    refine Touches.foldl (fun y0 _ => ?_) ?_ _
    · refine Touches.trans ?_ (Touches.sub (regulatePart_touch ..) (by decide))
      exact Touches.refl _
    · exact Touches.refl _

theorem wakeHeld_touch (x0 : List Nat) (x1 : State) :
    Touches [.rings, .streams, .frames, .batches, .ctxs, .parts, .regions, .blocks, .cells, .mem, .bpm, .store, .pac, .alarms, .tu, .out, .freeIx] x1 (wakeHeld x0 x1) := by
  induction x0 generalizing x1 with
  | nil =>
    rw [wakeHeld]
    exact Touches.refl _
  | cons a t ih =>
    rw [wakeHeld]
    refine Touches.trans ?_ (ih ..)
    refine Touches.ite ?_ ?_
    · refine Touches.trans ?_ (Touches.sub (wakeStart_touch ..) (by decide))
      exact Touches.refl _
    · exact Touches.refl _

theorem holdWrite_touch (s : State) (port : Nat) (value : Word) :
    Touches [.rings, .ports, .streams, .frames, .batches, .ctxs, .parts, .regions, .blocks, .cells, .mem, .bpm, .store, .pac, .alarms, .tu, .out, .freeIx] s (holdWrite s port value) := by
  unfold holdWrite
  try conv => arg 3; zeta
  refine Touches.ite ?_ ?_
  · refine Touches.trans ?_ (Touches.sub (State.updPort_touch ..) (by decide))
    exact Touches.refl _
  · refine Touches.trans ?_ (Touches.sub (wakeHeld_touch ..) (by decide))
    refine Touches.trans ?_ (Touches.sub (State.updPort_touch ..) (by decide))
    exact Touches.refl _

theorem lowerStart_touch (s : State) (r : Nat) (vq : Nat) :
    Touches [.rings, .streams, .frames, .batches, .ctxs, .parts, .regions, .blocks, .cells, .mem, .bpm, .store, .pac, .alarms, .tu, .out, .freeIx] s (lowerStart s r vq) := by
  unfold lowerStart
  try conv => arg 3; zeta
  refine Touches.ite ?_ ?_
  · refine Touches.trans ?_ (Touches.sub (regionFence_touch ..) (by decide))
    exact Touches.refl _
  · refine Touches.trans ?_ (Touches.sub (pacCount_touch ..) (by decide))
    refine Touches.trans ?_ (Touches.sub (State.updRegion_touch ..) (by decide))
    exact Touches.refl _

theorem forceLower_touch (s : State) (r : Nat) (vq : Nat) :
    Touches [.rings, .streams, .frames, .batches, .ctxs, .parts, .regions, .blocks, .cells, .mem, .bpm, .store, .pac, .alarms, .tu, .out, .freeIx] s (forceLower s r vq) := by
  unfold forceLower
  try conv => arg 3; zeta
  refine Touches.ite ?_ ?_
  · exact Touches.refl _
  · refine Touches.ite ?_ ?_
    · refine Touches.ite ?_ ?_
      · refine Touches.trans ?_ (Touches.sub (State.updRegion_touch ..) (by decide))
        exact Touches.refl _
      · exact Touches.refl _
    · refine Touches.ite ?_ ?_
      · exact Touches.refl _
      · split
        · refine Touches.ite ?_ ?_
          · refine Touches.trans ?_ (Touches.sub (lowerStart_touch ..) (by decide))
            refine Touches.trans ?_ (Touches.sub (State.updRegion_touch ..) (by decide))
            exact Touches.refl _
          · refine Touches.trans ?_ (Touches.sub (State.updRegion_touch ..) (by decide))
            exact Touches.refl _
        · refine Touches.ite ?_ ?_
          · refine Touches.ite ?_ ?_
            · refine Touches.trans ?_ (Touches.sub (lowerStart_touch ..) (by decide))
              refine Touches.trans ?_ (Touches.sub (State.updRegion_touch ..) (by decide))
              exact Touches.refl _
            · refine Touches.trans ?_ (Touches.sub (State.updRegion_touch ..) (by decide))
              exact Touches.refl _
          · refine Touches.ite ?_ ?_
            · refine Touches.trans ?_ (Touches.sub (lowerStart_touch ..) (by decide))
              refine Touches.trans ?_ (Touches.sub (State.updRegion_touch ..) (by decide))
              exact Touches.refl _
            · refine Touches.trans ?_ (Touches.sub (State.updRegion_touch ..) (by decide))
              exact Touches.refl _

theorem lowerOverdrawn_touch (x0 : List Nat) (x1 : State) :
    Touches [.rings, .streams, .frames, .batches, .ctxs, .parts, .regions, .blocks, .cells, .mem, .bpm, .store, .pac, .alarms, .tu, .out, .freeIx] x1 (lowerOverdrawn x0 x1) := by
  induction x0 generalizing x1 with
  | nil =>
    rw [lowerOverdrawn]
    exact Touches.refl _
  | cons a t ih =>
    rw [lowerOverdrawn]
    try conv => arg 3; zeta
    refine Touches.trans ?_ (ih ..)
    refine Touches.ite ?_ ?_
    · refine Touches.ite ?_ ?_
      · refine Touches.trans ?_ (Touches.sub (forceLower_touch ..) (by decide))
        refine Touches.trans ?_ (Touches.sub (pacCount_touch ..) (by decide))
        refine Touches.trans ?_ (Touches.sub (State.updRegion_touch ..) (by decide))
        exact Touches.refl _
      · refine Touches.trans ?_ (Touches.sub (pacCount_touch ..) (by decide))
        refine Touches.trans ?_ (Touches.sub (State.updRegion_touch ..) (by decide))
        exact Touches.refl _
    · exact Touches.refl _

theorem execPowerSample_touch (r : RailSample) (s : State) :
    ∃ u, execPowerSample r s = .next u ∧ Touches [.rings, .streams, .frames, .batches, .ctxs, .parts, .regions, .blocks, .cells, .mem, .bpm, .store, .pac, .alarms, .tu, .out, .freeIx] s u := by
  unfold execPowerSample
  try conv => enter [1, t, 1, 1]; zeta
  refine Touches.iteNext ?_ ?_
  · refine Touches.done ?_
    exact Touches.refl _
  · split
    · rename_i v0 v1 e2
      have hv1 : Touches [.rings, .streams, .frames, .batches, .ctxs, .parts, .regions, .blocks, .cells, .mem, .bpm, .store, .pac, .alarms, .tu, .out, .freeIx] s v1 := by
        refine Touches.pair e2 ?_
        refine Touches.trans ?_ (Touches.sub (freeBits_touch ..) (by decide))
        refine Touches.trans ?_ (Touches.sub (sampleRegions_touch ..) (by decide))
        exact Touches.refl _
      refine Touches.done ?_
      refine Touches.trans ?_ (Touches.sub (lowerOverdrawn_touch ..) (by decide))
      refine Touches.ofMk ?_ kp kp kp kp kp kp kp kp kp kp kp kp kp kp kp kp kp kp kp kp kp kp kp kp kp kp kp kp ch kp kp kp kp kp kp kp kp kp kp
      exact hv1

theorem inputFall_touch (s : State) (i : Nat) :
    Touches [.aon] s (inputFall s i) := by
  unfold inputFall
  refine Touches.trans ?_ (Touches.sub (State.updInput_touch ..) (by decide))
  exact Touches.refl _

theorem wakeDeferred_touch (x0 : List Nat) (x1 : State) :
    Touches [.rings, .streams, .frames, .batches, .ctxs, .parts, .regions, .blocks, .cells, .mem, .bpm, .store, .pac, .alarms, .tu, .out, .freeIx] x1 (wakeDeferred x0 x1) := by
  induction x0 generalizing x1 with
  | nil =>
    rw [wakeDeferred]
    exact Touches.refl _
  | cons a t ih =>
    rw [wakeDeferred]
    refine Touches.trans ?_ (ih ..)
    refine Touches.ite ?_ ?_
    · refine Touches.trans ?_ (Touches.sub (wakeStart_touch ..) (by decide))
      refine Touches.trans ?_ (Touches.sub (State.updRegion_touch ..) (by decide))
      exact Touches.refl _
    · refine Touches.trans ?_ (Touches.sub (State.updRegion_touch ..) (by decide))
      exact Touches.refl _

theorem pwrbrkFall_touch (s : State) :
    Touches [.rings, .streams, .frames, .batches, .ctxs, .parts, .regions, .blocks, .cells, .mem, .bpm, .store, .pac, .alarms, .aon, .tu, .out, .freeIx] s (pwrbrkFall s) := by
  unfold pwrbrkFall
  try conv => arg 3; zeta
  refine Touches.trans ?_ (Touches.sub (wakeDeferred_touch ..) (by decide))
  refine Touches.ofMk ?_ kp kp kp kp kp kp kp kp kp kp kp kp kp kp kp kp kp kp kp kp kp kp kp kp kp kp kp kp ch kp kp kp kp kp kp kp kp kp kp
  refine Touches.trans ?_ (Touches.sub (inputFall_touch ..) (by decide))
  exact Touches.refl _

theorem execPwrbrkRelease_touch (s : State) :
    ∃ u, execPwrbrkRelease s = .next u ∧ Touches [.rings, .streams, .frames, .batches, .ctxs, .parts, .regions, .blocks, .cells, .mem, .bpm, .store, .pac, .alarms, .aon, .tu, .out, .freeIx] s u := by
  unfold execPwrbrkRelease
  refine Touches.iteNext ?_ ?_
  · refine Touches.done ?_
    refine Touches.trans ?_ (Touches.sub (pwrbrkFall_touch ..) (by decide))
    exact Touches.refl _
  · refine Touches.done ?_
    exact Touches.refl _

theorem wakeZero_touch (s : State) (r : Nat) :
    Touches [.regions, .blocks, .cells, .sram] s (wakeZero s r) := by
  unfold wakeZero
  refine Touches.trans ?_ (Touches.sub (regionZero_touch ..) (by decide))
  refine Touches.foldl (fun y0 _ => ?_) ?_ _
  · refine Touches.trans ?_ (Touches.sub (blockFlush_touch ..) (by decide))
    exact Touches.refl _
  · exact Touches.refl _

theorem wakeFinish_touch (s : State) (r : Nat) :
    Touches [.regions, .blocks, .cells, .sram] s (wakeFinish s r) := by
  unfold wakeFinish
  try conv => arg 3; zeta
  refine Touches.trans ?_ (Touches.sub (State.updRegion_touch ..) (by decide))
  refine Touches.trans ?_ (Touches.sub (wakeZero_touch ..) (by decide))
  exact Touches.refl _

theorem execWakeComplete_touch (region : Nat) (s : State) :
    ∃ u, execWakeComplete region s = .next u ∧ Touches [.regions, .blocks, .cells, .sram] s u := by
  unfold execWakeComplete
  try conv => enter [1, t, 1, 1]; zeta
  refine Touches.iteNext ?_ ?_
  · refine Touches.done ?_
    refine Touches.trans ?_ (Touches.sub (wakeFinish_touch ..) (by decide))
    exact Touches.refl _
  · refine Touches.done ?_
    exact Touches.refl _

theorem execInputStuck_touch (input : Nat) (s : State) :
    ∃ u, execInputStuck input s = .next u ∧ Touches [.rings, .alarms, .aon, .tu, .out, .freeIx] s u := by
  unfold execInputStuck
  try conv => enter [1, t, 1, 1]; zeta
  refine Touches.iteNext ?_ ?_
  · refine Touches.done ?_
    refine Touches.trans ?_ (Touches.sub (raiseAlarm_touch ..) (by decide))
    refine Touches.trans ?_ (Touches.sub (State.updInput_touch ..) (by decide))
    exact Touches.refl _
  · refine Touches.done ?_
    exact Touches.refl _

theorem forceAll_touch (vq : Nat) (x1 : List Nat) (x2 : State) :
    Touches [.rings, .streams, .frames, .batches, .ctxs, .parts, .regions, .blocks, .cells, .mem, .bpm, .store, .pac, .alarms, .tu, .out, .freeIx] x2 (forceAll vq x1 x2) := by
  induction x1 generalizing x2 with
  | nil =>
    rw [forceAll]
    exact Touches.refl _
  | cons a t ih =>
    rw [forceAll]
    refine Touches.trans ?_ (ih ..)
    refine Touches.trans ?_ (Touches.sub (forceLower_touch ..) (by decide))
    exact Touches.refl _

theorem inputRise_touch (s : State) (i : Nat) :
    Touches [.aon] s (inputRise s i) := by
  unfold inputRise
  refine Touches.trans ?_ (Touches.sub (State.updInput_touch ..) (by decide))
  exact Touches.refl _

theorem execThermInAssert_touch (s : State) :
    ∃ u, execThermInAssert s = .next u ∧ Touches [.rings, .streams, .frames, .batches, .ctxs, .parts, .regions, .blocks, .cells, .mem, .bpm, .store, .pac, .alarms, .aon, .tu, .out, .freeIx] s u := by
  unfold execThermInAssert
  refine Touches.done ?_
  refine Touches.trans ?_ (Touches.sub (forceAll_touch ..) (by decide))
  refine Touches.trans ?_ (Touches.sub (inputRise_touch ..) (by decide))
  exact Touches.refl _

theorem execPgoodTimeout_touch (region : Nat) (s : State) :
    ∃ u, execPgoodTimeout region s = .next u ∧ Touches [.rings, .streams, .frames, .batches, .ctxs, .parts, .regions, .blocks, .cells, .mem, .bpm, .store, .alarms, .tu, .out, .freeIx] s u := by
  unfold execPgoodTimeout
  try conv => enter [1, t, 1, 1]; zeta
  split
  · refine Touches.done ?_
    exact Touches.refl _
  · refine Touches.iteNext ?_ ?_
    · refine Touches.done ?_
      exact Touches.refl _
    · refine Touches.iteNext ?_ ?_
      · refine Touches.done ?_
        refine Touches.trans ?_ (Touches.sub (raiseLog_touch ..) (by decide))
        refine Touches.trans ?_ (Touches.sub (State.updRegion_touch ..) (by decide))
        exact Touches.refl _
      · refine Touches.done ?_
        refine Touches.trans ?_ (Touches.sub (regionFence_touch ..) (by decide))
        exact Touches.refl _

theorem execParkHoldWrite_touch (port : Nat) (value : Word) (s : State) :
    ∃ u, execParkHoldWrite port value s = .next u ∧ Touches [.rings, .ports, .streams, .frames, .batches, .ctxs, .parts, .regions, .blocks, .cells, .mem, .bpm, .store, .pac, .alarms, .tu, .out, .freeIx] s u := by
  unfold execParkHoldWrite
  refine Touches.iteNext ?_ ?_
  · refine Touches.done ?_
    refine Touches.trans ?_ (Touches.sub (holdWrite_touch ..) (by decide))
    exact Touches.refl _
  · refine Touches.done ?_
    exact Touches.refl _

theorem execPwrbrkAssert_touch (s : State) :
    ∃ u, execPwrbrkAssert s = .next u ∧ Touches [.rings, .streams, .frames, .batches, .ctxs, .parts, .regions, .blocks, .cells, .mem, .bpm, .store, .pac, .alarms, .aon, .tu, .out, .freeIx] s u := by
  unfold execPwrbrkAssert
  try conv => enter [1, t, 1, 1]; zeta
  refine Touches.done ?_
  refine Touches.trans ?_ (Touches.sub (forceAll_touch ..) (by decide))
  refine Touches.ofMk ?_ kp kp kp kp kp kp kp kp kp kp kp kp kp kp kp kp kp kp kp kp kp ch kp kp kp kp kp kp kp kp kp kp kp kp kp kp kp kp kp
  refine Touches.trans ?_ (Touches.sub (inputRise_touch ..) (by decide))
  exact Touches.refl _

theorem thermFall_touch (s : State) :
    Touches [.pac, .aon] s (thermFall s) := by
  unfold thermFall
  try conv => arg 3; zeta
  refine Touches.ofMk ?_ kp kp kp kp kp kp kp kp kp kp kp kp kp kp kp kp kp kp kp kp kp kp kp kp kp kp kp kp ch kp kp kp kp kp kp kp kp kp kp
  refine Touches.trans ?_ (Touches.sub (inputFall_touch ..) (by decide))
  exact Touches.refl _

theorem execThermInRelease_touch (s : State) :
    ∃ u, execThermInRelease s = .next u ∧ Touches [.pac, .aon] s u := by
  unfold execThermInRelease
  refine Touches.iteNext ?_ ?_
  · refine Touches.done ?_
    refine Touches.trans ?_ (Touches.sub (thermFall_touch ..) (by decide))
    exact Touches.refl _
  · refine Touches.done ?_
    exact Touches.refl _

theorem raiseStart_touch (s : State) (r : Nat) (vq : Nat) :
    Touches [.rings, .streams, .frames, .batches, .ctxs, .parts, .regions, .blocks, .cells, .mem, .bpm, .store, .alarms, .tu, .out, .freeIx] s (raiseStart s r vq) := by
  unfold raiseStart
  try conv => arg 3; zeta
  refine Touches.ite ?_ ?_
  · refine Touches.trans ?_ (Touches.sub (regionFence_touch ..) (by decide))
    exact Touches.refl _
  · refine Touches.trans ?_ (Touches.sub (State.updRegion_touch ..) (by decide))
    exact Touches.refl _

theorem followTarget_touch (s : State) (r : Nat) :
    Touches [.rings, .streams, .frames, .batches, .ctxs, .parts, .regions, .blocks, .cells, .mem, .bpm, .store, .pac, .alarms, .tu, .out, .freeIx] s (followTarget s r) := by
  unfold followTarget
  try conv => arg 3; zeta
  refine Touches.ite ?_ ?_
  · exact Touches.refl _
  · refine Touches.ite ?_ ?_
    · refine Touches.trans ?_ (Touches.sub (raiseStart_touch ..) (by decide))
      exact Touches.refl _
    · refine Touches.trans ?_ (Touches.sub (lowerStart_touch ..) (by decide))
      exact Touches.refl _

theorem transEnd_touch (s : State) (r : Nat) (t : Trans) :
    Touches [.regions, .pac] s (transEnd s r t) := by
  unfold transEnd
  try conv => arg 3; zeta
  refine Touches.ite ?_ ?_
  · refine Touches.trans ?_ (Touches.sub (pacCount_touch ..) (by decide))
    refine Touches.trans ?_ (Touches.sub (State.updRegion_touch ..) (by decide))
    exact Touches.refl _
  · refine Touches.trans ?_ (Touches.sub (State.updRegion_touch ..) (by decide))
    exact Touches.refl _

theorem execVfTransitionEnd_touch (region : Nat) (s : State) :
    ∃ u, execVfTransitionEnd region s = .next u ∧ Touches [.rings, .streams, .frames, .batches, .ctxs, .parts, .regions, .blocks, .cells, .mem, .bpm, .store, .pac, .alarms, .tu, .out, .freeIx] s u := by
  unfold execVfTransitionEnd
  try conv => enter [1, t, 1, 1]; zeta
  split
  · refine Touches.done ?_
    exact Touches.refl _
  · refine Touches.iteNext ?_ ?_
    · refine Touches.done ?_
      exact Touches.refl _
    · refine Touches.done ?_
      refine Touches.ite ?_ ?_
      · refine Touches.trans ?_ (Touches.sub (transEnd_touch ..) (by decide))
        refine Touches.trans ?_ (Touches.sub (State.updRegion_touch ..) (by decide))
        exact Touches.refl _
      · refine Touches.trans ?_ (Touches.sub (followTarget_touch ..) (by decide))
        refine Touches.trans ?_ (Touches.sub (transEnd_touch ..) (by decide))
        refine Touches.trans ?_ (Touches.sub (State.updRegion_touch ..) (by decide))
        exact Touches.refl _

theorem windowDiscard_touch (s : State) (port : Nat) (region : Nat) :
    Touches [.rings, .ports, .alarms, .tu, .out, .freeIx] s (windowDiscard s port region) := by
  unfold windowDiscard
  refine Touches.trans ?_ (Touches.sub (raiseLog_touch ..) (by decide))
  refine Touches.trans ?_ (Touches.sub (hpCount_touch ..) (by decide))
  exact Touches.refl _

theorem execStoppedWindowAccess_touch (port : Nat) (fn : Nat) (region : Nat) (x3 : Nat) (x4 : Bool) (s : State) :
    ∃ u, execStoppedWindowAccess port fn region x3 x4 s = .next u ∧ Touches [.rings, .ports, .alarms, .tu, .out, .freeIx] s u := by
  unfold execStoppedWindowAccess
  refine Touches.iteNext ?_ ?_
  · refine Touches.done ?_
    exact Touches.refl _
  · refine Touches.done ?_
    refine Touches.trans ?_ (Touches.sub (windowDiscard_touch ..) (by decide))
    exact Touches.refl _

theorem execCounterPush_touch (region : Nat) (s : State) :
    ∃ u, execCounterPush region s = .next u ∧ Touches [.parts, .regions] s u := by
  unfold execCounterPush
  refine Touches.iteNext ?_ ?_
  · refine Touches.done ?_
    refine Touches.trans ?_ (Touches.sub (pushCounts_touch ..) (by decide))
    exact Touches.refl _
  · refine Touches.done ?_
    exact Touches.refl _

theorem vfApply_touch (s : State) (q : Nat × Nat × Nat) :
    Touches [.rings, .streams, .frames, .batches, .ctxs, .parts, .regions, .blocks, .cells, .mem, .bpm, .store, .pac, .alarms, .tu, .out, .freeIx] s (vfApply s q) := by
  unfold vfApply
  try conv => arg 3; zeta
  refine Touches.trans ?_ (Touches.sub (followTarget_touch ..) (by decide))
  refine Touches.trans ?_ (Touches.sub (State.updRegion_touch ..) (by decide))
  exact Touches.refl _

theorem execTempSensorRead_touch (region : Nat) (tj : Int) (uncore : Int) (s : State) :
    ∃ u, execTempSensorRead region tj uncore s = .next u ∧ Touches [.rings, .streams, .frames, .batches, .ctxs, .parts, .regions, .blocks, .cells, .mem, .bpm, .store, .pac, .alarms, .aon, .tu, .out, .freeIx] s u := by
  unfold execTempSensorRead
  try conv => enter [1, t, 1, 1]; zeta
  refine Touches.iteNext ?_ ?_
  · refine Touches.done ?_
    refine Touches.ite ?_ ?_
    · refine Touches.ofMk ?_ kp kp kp kp kp kp kp kp kp kp kp kp kp kp kp kp kp kp kp kp kp kp kp kp kp kp kp kp kp kp ch kp kp kp kp kp kp kp kp
      refine Touches.trans ?_ (Touches.sub (State.updRegion_touch ..) (by decide))
      exact Touches.refl _
    · refine Touches.trans ?_ (Touches.sub (State.updRegion_touch ..) (by decide))
      exact Touches.refl _
  · refine Touches.iteNext ?_ ?_
    · refine Touches.done ?_
      refine Touches.trans ?_ (Touches.sub (forceLower_touch ..) (by decide))
      refine Touches.trans ?_ (Touches.sub (raiseAlarm_touch ..) (by decide))
      refine Touches.trans ?_ (Touches.sub (pacCount_touch ..) (by decide))
      refine Touches.trans ?_ (Touches.sub (State.updRegion_touch ..) (by decide))
      refine Touches.ite ?_ ?_
      · refine Touches.ofMk ?_ kp kp kp kp kp kp kp kp kp kp kp kp kp kp kp kp kp kp kp kp kp kp kp kp kp kp kp kp kp kp ch kp kp kp kp kp kp kp kp
        refine Touches.trans ?_ (Touches.sub (State.updRegion_touch ..) (by decide))
        exact Touches.refl _
      · refine Touches.trans ?_ (Touches.sub (State.updRegion_touch ..) (by decide))
        exact Touches.refl _
    · refine Touches.iteNext ?_ ?_
      · refine Touches.done ?_
        refine Touches.trans ?_ (Touches.sub (State.updRegion_touch ..) (by decide))
        refine Touches.ite ?_ ?_
        · refine Touches.ofMk ?_ kp kp kp kp kp kp kp kp kp kp kp kp kp kp kp kp kp kp kp kp kp kp kp kp kp kp kp kp kp kp ch kp kp kp kp kp kp kp kp
          refine Touches.trans ?_ (Touches.sub (State.updRegion_touch ..) (by decide))
          exact Touches.refl _
        · refine Touches.trans ?_ (Touches.sub (State.updRegion_touch ..) (by decide))
          exact Touches.refl _
      · refine Touches.done ?_
        refine Touches.ite ?_ ?_
        · refine Touches.ofMk ?_ kp kp kp kp kp kp kp kp kp kp kp kp kp kp kp kp kp kp kp kp kp kp kp kp kp kp kp kp kp kp ch kp kp kp kp kp kp kp kp
          refine Touches.trans ?_ (Touches.sub (State.updRegion_touch ..) (by decide))
          exact Touches.refl _
        · refine Touches.trans ?_ (Touches.sub (State.updRegion_touch ..) (by decide))
          exact Touches.refl _

theorem chatterAll_touch (x0 : List (Nat × Nat)) (x1 : State) :
    Touches [.rings, .alarms, .aon, .tu, .out, .freeIx] x1 (chatterAll x0 x1) := by
  induction x0 generalizing x1 with
  | nil =>
    rw [chatterAll]
    exact Touches.refl _
  | cons a t ih =>
    rw [chatterAll]
    refine Touches.trans ?_ (ih ..)
    refine Touches.trans ?_ (Touches.sub (chatterOne_touch ..) (by decide))
    exact Touches.refl _

theorem execChatterWindow_touch (transitions : List Nat) (s : State) :
    ∃ u, execChatterWindow transitions s = .next u ∧ Touches [.rings, .alarms, .aon, .tu, .out, .freeIx] s u := by
  unfold execChatterWindow
  refine Touches.done ?_
  refine Touches.trans ?_ (Touches.sub (chatterAll_touch ..) (by decide))
  exact Touches.refl _

theorem execPgoodLow_touch (region : Nat) (s : State) :
    ∃ u, execPgoodLow region s = .next u ∧ Touches [.rings, .streams, .frames, .batches, .ctxs, .parts, .regions, .blocks, .cells, .mem, .bpm, .store, .alarms, .tu, .out, .freeIx] s u := by
  unfold execPgoodLow
  try conv => enter [1, t, 1, 1]; zeta
  refine Touches.iteNext ?_ ?_
  · refine Touches.done ?_
    exact Touches.refl _
  · refine Touches.iteNext ?_ ?_
    · refine Touches.done ?_
      refine Touches.trans ?_ (Touches.sub (State.updRegion_touch ..) (by decide))
      exact Touches.refl _
    · refine Touches.done ?_
      refine Touches.trans ?_ (Touches.sub (regionFence_touch ..) (by decide))
      refine Touches.trans ?_ (Touches.sub (State.updRegion_touch ..) (by decide))
      exact Touches.refl _

theorem execRegionPark_touch (region : Nat) (s : State) :
    ∃ u, execRegionPark region s = .next u ∧ Touches [.parts, .regions, .pac] s u := by
  unfold execRegionPark
  try conv => enter [1, t, 1, 1]; zeta
  refine Touches.iteNext ?_ ?_
  · refine Touches.done ?_
    refine Touches.trans ?_ (Touches.sub (pacCount_touch ..) (by decide))
    refine Touches.trans ?_ (Touches.sub (State.updRegion_touch ..) (by decide))
    refine Touches.trans ?_ (Touches.sub (shadowDiscard_touch ..) (by decide))
    refine Touches.trans ?_ (Touches.sub (pushCounts_touch ..) (by decide))
    exact Touches.refl _
  · refine Touches.done ?_
    exact Touches.refl _

theorem vfApplyAll_touch (x0 : List (Nat × Nat × Nat)) (x1 : State) :
    Touches [.rings, .streams, .frames, .batches, .ctxs, .parts, .regions, .blocks, .cells, .mem, .bpm, .store, .pac, .alarms, .tu, .out, .freeIx] x1 (vfApplyAll x0 x1) := by
  induction x0 generalizing x1 with
  | nil =>
    rw [vfApplyAll]
    exact Touches.refl _
  | cons a t ih =>
    rw [vfApplyAll]
    refine Touches.trans ?_ (ih ..)
    refine Touches.trans ?_ (Touches.sub (vfApply_touch ..) (by decide))
    exact Touches.refl _

theorem execVfChoice_touch (s : State) :
    ∃ u, execVfChoice s = .next u ∧ Touches [.rings, .streams, .frames, .batches, .ctxs, .parts, .regions, .blocks, .cells, .mem, .bpm, .store, .pac, .alarms, .tu, .out, .freeIx] s u := by
  unfold execVfChoice
  try conv => enter [1, t, 1, 1]; zeta
  refine Touches.iteNext ?_ ?_
  · refine Touches.done ?_
    exact Touches.refl _
  · refine Touches.done ?_
    refine Touches.ofMk ?_ kp kp kp kp kp kp kp kp kp kp kp kp kp kp kp kp kp kp kp kp kp kp kp kp kp kp kp kp ch kp kp kp kp kp kp kp kp kp kp
    refine Touches.trans ?_ (Touches.sub (vfApplyAll_touch ..) (by decide))
    exact Touches.refl _

theorem execRegionWake_touch (region : Nat) (s : State) :
    ∃ u, execRegionWake region s = .next u ∧ Touches [.rings, .streams, .frames, .batches, .ctxs, .parts, .regions, .blocks, .cells, .mem, .bpm, .store, .pac, .alarms, .tu, .out, .freeIx] s u := by
  unfold execRegionWake
  refine Touches.iteNext ?_ ?_
  · refine Touches.done ?_
    refine Touches.trans ?_ (Touches.sub (wakeStart_touch ..) (by decide))
    exact Touches.refl _
  · refine Touches.done ?_
    exact Touches.refl _

theorem execTokenGrant_touch (s : State) :
    ∃ u, execTokenGrant s = .next u ∧ Touches [.regions, .pac] s u := by
  unfold execTokenGrant
  refine Touches.iteNext ?_ ?_
  · refine Touches.done ?_
    exact Touches.refl _
  · refine Touches.done ?_
    refine Touches.trans ?_ (Touches.sub (grantAll_touch ..) (by decide))
    exact Touches.refl _

theorem tickBusy_touch (s : State) :
    Touches [.regions] s (tickBusy s) := by
  unfold tickBusy
  refine Touches.ofMk ?_ kp kp kp kp kp kp kp kp kp kp kp kp kp kp kp kp kp kp kp kp kp ch kp kp kp kp kp kp kp kp kp kp kp kp kp kp kp kp kp
  exact Touches.refl _

theorem tickInput_touch (s : State) (input : Nat) (ctr : Nat) :
    Touches [.pac] s (tickInput s input ctr) := by
  unfold tickInput
  try conv => arg 3; zeta
  refine Touches.ite ?_ ?_
  · refine Touches.ofMk ?_ kp kp kp kp kp kp kp kp kp kp kp kp kp kp kp kp kp kp kp kp kp kp kp kp kp kp kp kp ch kp kp kp kp kp kp kp kp kp kp
    exact Touches.refl _
  · exact Touches.refl _

theorem tickResidency_touch (s : State) (r : Nat) :
    Touches [.regions] s (tickResidency s r) := by
  unfold tickResidency
  try conv => arg 3; zeta
  refine Touches.ite ?_ ?_
  · refine Touches.foldl (fun y0 _ => ?_) ?_ _
    · refine Touches.trans ?_ (Touches.sub (rgnCount_touch ..) (by decide))
      exact Touches.refl _
    · exact Touches.refl _
  · exact Touches.refl _

theorem tickDispatch_touch (s : State) (c : Nat) :
    Touches [.regions, .cells] s (tickDispatch s c) := by
  unfold tickDispatch
  try conv => arg 3; zeta
  refine Touches.ite ?_ ?_
  · refine Touches.trans ?_ (Touches.sub (State.updCell_touch ..) (by decide))
    refine Touches.trans ?_ (Touches.sub (State.updRegion_touch ..) (by decide))
    refine Touches.foldl (fun y0 _ => ?_) ?_ _
    · refine Touches.trans ?_ (Touches.sub (rgnCount_touch ..) (by decide))
      exact Touches.refl _
    · exact Touches.refl _
  · exact Touches.refl _

theorem tickWaits_touch (s : State) :
    Touches [.regions, .cells] s (tickWaits s) := by
  unfold tickWaits
  try conv => arg 3; zeta
  refine Touches.ite ?_ ?_
  · refine Touches.foldl (fun y1 _ => ?_) ?_ _
    · refine Touches.trans ?_ (Touches.sub (tickDispatch_touch ..) (by decide))
      exact Touches.refl _
    · refine Touches.foldl (fun y0 _ => ?_) ?_ _
      · refine Touches.trans ?_ (Touches.sub (tickResidency_touch ..) (by decide))
        exact Touches.refl _
      · refine Touches.trans ?_ (Touches.sub (tickBusy_touch ..) (by decide))
        exact Touches.refl _
  · refine Touches.trans ?_ (Touches.sub (tickBusy_touch ..) (by decide))
    exact Touches.refl _

theorem clockTick_touch (s : State) :
    Touches [.now, .rings, .regions, .cells, .mem, .dram, .bpm, .pac, .alarms, .tu, .out, .freeIx] s (clockTick s) := by
  unfold clockTick
  refine Touches.ite ?_ ?_
  · exact Touches.refl _
  · refine Touches.trans ?_ (Touches.sub (dramTick_touch ..) (by decide))
    refine Touches.trans ?_ (Touches.sub (refillBuckets_touch ..) (by decide))
    refine Touches.trans ?_ (Touches.sub (tickWaits_touch ..) (by decide))
    refine Touches.trans ?_ (Touches.sub (tickInput_touch ..) (by decide))
    refine Touches.trans ?_ (Touches.sub (tickInput_touch ..) (by decide))
    refine Touches.ofMk ?_ ch kp kp kp kp kp kp kp kp kp kp kp kp kp kp kp kp kp kp kp kp kp kp kp kp kp kp kp kp kp kp kp kp kp kp kp kp kp kp
    exact Touches.refl _

theorem holdWord_touch (s : State) (acc : Acc) (bar : Nat) (off : Nat) (w : Word) :
    Touches [.fns, .tu] s (holdWord s acc bar off w) := by
  unfold holdWord
  try conv => arg 3; zeta
  split
  · refine Touches.trans ?_ (Touches.sub (State.updFn_touch_fns _ _ _ _ (fun _ => rfl)) (by decide))
    exact Touches.refl _
  · refine Touches.ofMk ?_ kp kp kp kp kp kp kp kp kp kp kp kp kp kp kp kp kp kp kp kp kp kp kp kp kp kp kp kp kp kp kp ch kp kp kp kp kp kp kp
    exact Touches.refl _

theorem aonRead_touch (s : State) (acc : Acc) (bar : Nat) (off : Nat) :
    Touches [.fns, .tu] s (aonRead s acc bar off).2 := by
  unfold aonRead
  refine Touches.itePair ?_ ?_
  · refine Touches.snd ?_
    refine Touches.trans ?_ (Touches.sub (holdWord_touch ..) (by decide))
    exact Touches.refl _
  · refine Touches.itePair ?_ ?_
    · refine Touches.snd ?_
      exact Touches.refl _
    · refine Touches.snd ?_
      exact Touches.refl _

theorem aonReads_touch (acc : Acc) (x1 : Nat) (x2 : Nat) (x3 : State) :
    Touches [.fns, .tu] x3 (aonReads acc x1 x2 x3).2 := by
  induction x1 generalizing x2 x3 with
  | zero =>
    rw [aonReads]
    refine Touches.snd ?_
    exact Touches.refl _
  | succ k ih =>
    rw [aonReads]
    split
    · rename_i v0 v1 e2
      have hv1 : Touches [.fns, .tu] x3 v1 := by
        refine Touches.pair e2 ?_
        refine Touches.trans ?_ (Touches.sub (aonRead_touch ..) (by decide))
        exact Touches.refl _
      split
      · rename_i v3 v4 e5
        have hv4 : Touches [.fns, .tu] x3 v4 := by
          refine Touches.pair e5 ?_
          refine Touches.trans ?_ (ih ..)
          exact hv1
        refine Touches.snd ?_
        exact hv4

theorem hpaRead_touch (s : State) (addr : Nat) (len : Nat) :
    Touches [.out] s (hpaRead s addr len) := by
  unfold hpaRead
  refine Touches.ite ?_ ?_
  · refine Touches.trans ?_ (Touches.sub (emit_touch ..) (by decide))
    exact Touches.refl _
  · exact Touches.refl _

theorem keyEnd_touch (s : State) (st : Nat) (result : Nat) :
    Touches [.key, .rings] s (keyEnd s st result) := by
  unfold keyEnd
  try conv => arg 3; zeta
  refine Touches.trans ?_ (Touches.sub (raiseIrq_touch ..) (by decide))
  refine Touches.ofMk ?_ kp kp kp kp kp kp kp ch kp kp kp kp kp kp kp kp kp kp kp kp kp kp kp kp kp kp kp kp kp kp kp kp kp kp kp kp kp kp kp
  exact Touches.refl _

theorem keyAbort_touch (s : State) :
    Touches [.key, .rings] s (keyAbort s) := by
  unfold keyAbort
  refine Touches.ite ?_ ?_
  · refine Touches.trans ?_ (Touches.sub (keyEnd_touch ..) (by decide))
    exact Touches.refl _
  · exact Touches.refl _

theorem partHash_touch (x0 : Nat) (x1 : Bytes) (x2 : State) :
    Touches [.freeIx] x2 (partHash x0 x1 x2).2 := by
  induction x0 generalizing x1 x2 with
  | zero =>
    rw [partHash]
    refine Touches.snd ?_
    exact Touches.refl _
  | succ k ih =>
    rw [partHash]
    split
    · rename_i v0 v1 e2
      have hv1 : Touches [.freeIx] x2 v1 := by
        refine Touches.pair e2 ?_
        refine Touches.trans ?_ (Touches.sub (freeBits_touch ..) (by decide))
        exact Touches.refl _
      split
      · rename_i v3 v4 e5
        have hv4 : Touches [.freeIx] x2 v4 := by
          refine Touches.pair e5 ?_
          refine Touches.trans ?_ (ih ..)
          exact hv1
        refine Touches.snd ?_
        exact hv4

theorem burnBad_touch (s : State) :
    Touches [.fuses, .freeIx] s (burnBad s) := by
  unfold burnBad
  try conv => arg 3; zeta
  refine Touches.ite ?_ ?_
  · split
    · rename_i v0 v1 e2
      have hv1 : Touches [.fuses, .freeIx] s v1 := by
        refine Touches.pair e2 ?_
        refine Touches.trans ?_ (Touches.sub (partHash_touch ..) (by decide))
        exact Touches.refl _
      refine Touches.ofMk ?_ kp kp kp ch kp kp kp kp kp kp kp kp kp kp kp kp kp kp kp kp kp kp kp kp kp kp kp kp kp kp kp kp kp kp kp kp kp kp kp
      exact hv1
  · split
    · rename_i v3 v4 e5
      have hv4 : Touches [.fuses, .freeIx] s v4 := by
        refine Touches.pair e5 ?_
        refine Touches.trans ?_ (Touches.sub (freeBits_touch ..) (by decide))
        exact Touches.refl _
      refine Touches.ofMk ?_ kp kp kp ch kp kp kp kp kp kp kp kp kp kp kp kp kp kp kp kp kp kp kp kp kp kp kp kp kp kp kp kp kp kp kp kp kp kp kp
      exact hv4

theorem hostWrites_touch (port : Nat) (fn : Nat) (x2 : List Bytes) (x3 : Nat) (x4 : State) :
    Touches [.out] x4 (hostWrites port fn x2 x3 x4) := by
  induction x2 generalizing x3 x4 with
  | nil =>
    rw [hostWrites]
    exact Touches.refl _
  | cons a t ih =>
    rw [hostWrites]
    refine Touches.trans ?_ (ih ..)
    refine Touches.trans ?_ (Touches.sub (emit_touch ..) (by decide))
    exact Touches.refl _

theorem execAttGo_touch (port : Nat) (fn : Nat) (s : State) :
    ∃ u, execAttGo port fn s = .next u ∧ Touches [.signer, .fns, .waits] s u := by
  unfold execAttGo
  try conv => enter [1, t, 1, 1]; zeta
  refine Touches.iteNext ?_ ?_
  · refine Touches.done ?_
    exact Touches.refl _
  · refine Touches.iteNext ?_ ?_
    · refine Touches.done ?_
      refine Touches.trans ?_ (Touches.sub (waitAccess_touch ..) (by decide))
      exact Touches.refl _
    · refine Touches.iteNext ?_ ?_
      · refine Touches.done ?_
        refine Touches.trans ?_ (Touches.sub (State.updFn_touch_fns _ _ _ _ (fun _ => rfl)) (by decide))
        exact Touches.refl _
      · refine Touches.done ?_
        refine Touches.ofMk ?_ kp kp kp kp kp kp kp kp ch kp kp kp kp kp kp kp kp kp kp kp kp kp kp kp kp kp kp kp kp kp kp kp kp kp kp kp kp kp kp
        refine Touches.trans ?_ (Touches.sub (State.updFn_touch_fns _ _ _ _ (fun _ => rfl)) (by decide))
        exact Touches.refl _

theorem execAttSignStart_touch (s : State) :
    ∃ u, execAttSignStart s = .next u ∧ Touches [.signer, .fns] s u := by
  unfold execAttSignStart
  try conv => enter [1, t, 1, 1]; zeta
  split
  · refine Touches.iteNext ?_ ?_
    · refine Touches.done ?_
      exact Touches.refl _
    · refine Touches.done ?_
      refine Touches.ofMk ?_ kp kp kp kp kp kp kp kp ch kp kp kp kp kp kp kp kp kp kp kp kp kp kp kp kp kp kp kp kp kp kp kp kp kp kp kp kp kp kp
      refine Touches.trans ?_ (Touches.sub (State.updFn_touch_fns _ _ _ _ (fun _ => rfl)) (by decide))
      exact Touches.refl _
  · refine Touches.done ?_
    exact Touches.refl _

theorem execKeyGo_touch (s : State) :
    ∃ u, execKeyGo s = .next u ∧ Touches [.key, .out, .waits] s u := by
  unfold execKeyGo
  try conv => enter [1, t, 1, 1]; zeta
  refine Touches.iteNext ?_ ?_
  · refine Touches.done ?_
    exact Touches.refl _
  · refine Touches.iteNext ?_ ?_
    · refine Touches.done ?_
      refine Touches.trans ?_ (Touches.sub (waitAccess_touch ..) (by decide))
      exact Touches.refl _
    · refine Touches.iteNext ?_ ?_
      · refine Touches.done ?_
        exact Touches.refl _
      · refine Touches.done ?_
        refine Touches.trans ?_ (Touches.sub (hpaRead_touch ..) (by decide))
        refine Touches.ofMk ?_ kp kp kp kp kp kp kp ch kp kp kp kp kp kp kp kp kp kp kp kp kp kp kp kp kp kp kp kp kp kp kp kp kp kp kp kp kp kp kp
        exact Touches.refl _

theorem burnLost_touch (s : State) :
    Touches [.fuses, .freeIx] s (burnLost s) := by
  unfold burnLost
  try conv => arg 3; zeta
  refine Touches.ite ?_ ?_
  · exact Touches.refl _
  · split
    · rename_i v0 v1 e2
      have hv1 : Touches [.fuses, .freeIx] s v1 := by
        refine Touches.pair e2 ?_
        refine Touches.trans ?_ (Touches.sub (freeBits_touch ..) (by decide))
        exact Touches.refl _
      refine Touches.ite ?_ ?_
      · refine Touches.trans ?_ (Touches.sub (burnBad_touch ..) (by decide))
        exact hv1
      · split
        · rename_i v3 v4 e5
          have hv4 : Touches [.fuses, .freeIx] s v4 := by
            refine Touches.pair e5 ?_
            refine Touches.trans ?_ (Touches.sub (freeBits_touch ..) (by decide))
            exact hv1
          refine Touches.ofMk ?_ kp kp kp ch kp kp kp kp kp kp kp kp kp kp kp kp kp kp kp kp kp kp kp kp kp kp kp kp kp kp kp kp kp kp kp kp kp kp kp
          exact hv4

theorem execKeyReadDone_touch (r : HostRead) (s : State) :
    ∃ u, execKeyReadDone r s = .next u ∧ Touches [.key, .rings, .ports] s u := by
  unfold execKeyReadDone
  try conv => enter [1, t, 1, 1]; zeta
  refine Touches.iteNext ?_ ?_
  · refine Touches.done ?_
    exact Touches.refl _
  · split
    · refine Touches.done ?_
      refine Touches.trans ?_ (Touches.sub (keyEnd_touch ..) (by decide))
      refine Touches.trans ?_ (Touches.sub (readCount_touch ..) (by decide))
      exact Touches.refl _
    · refine Touches.iteNext ?_ ?_
      · refine Touches.done ?_
        refine Touches.ofMk ?_ kp kp kp kp kp kp kp ch kp kp kp kp kp kp kp kp kp kp kp kp kp kp kp kp kp kp kp kp kp kp kp kp kp kp kp kp kp kp kp
        exact Touches.refl _
      · refine Touches.done ?_
        refine Touches.trans ?_ (Touches.sub (keyEnd_touch ..) (by decide))
        exact Touches.refl _

theorem execKeyBurnDone_touch (readBackOk : Bool) (s : State) :
    ∃ u, execKeyBurnDone readBackOk s = .next u ∧ Touches [.fuses, .key, .rings, .freeIx] s u := by
  unfold execKeyBurnDone
  refine Touches.iteNext ?_ ?_
  · refine Touches.done ?_
    exact Touches.refl _
  · refine Touches.iteNext ?_ ?_
    · refine Touches.done ?_
      refine Touches.trans ?_ (Touches.sub (keyEnd_touch ..) (by decide))
      refine Touches.ofMk ?_ kp kp kp ch kp kp kp kp kp kp kp kp kp kp kp kp kp kp kp kp kp kp kp kp kp kp kp kp kp kp kp kp kp kp kp kp kp kp kp
      exact Touches.refl _
    · refine Touches.done ?_
      refine Touches.trans ?_ (Touches.sub (keyEnd_touch ..) (by decide))
      refine Touches.trans ?_ (Touches.sub (burnBad_touch ..) (by decide))
      exact Touches.refl _

theorem attEnd_touch (s : State) (k : Nat) (st : Nat) (cause : Nat) :
    Touches [.fns, .rings] s (attEnd s k st cause) := by
  unfold attEnd
  try conv => arg 3; zeta
  refine Touches.trans ?_ (Touches.sub (raiseIrq_touch ..) (by decide))
  refine Touches.trans ?_ (Touches.sub (State.updFn_touch_fns _ _ _ _ (fun _ => rfl)) (by decide))
  exact Touches.refl _

theorem execAttSignDone_touch (s : State) :
    ∃ u, execAttSignDone s = .next u ∧ Touches [.signer, .fns, .rings, .out] s u := by
  unfold execAttSignDone
  try conv => enter [1, t, 1, 1]; zeta
  split
  · refine Touches.done ?_
    exact Touches.refl _
  · refine Touches.iteNext ?_ ?_
    · refine Touches.done ?_
      refine Touches.trans ?_ (Touches.sub (attEnd_touch ..) (by decide))
      refine Touches.trans ?_ (Touches.sub (hostWrites_touch ..) (by decide))
      refine Touches.ofMk ?_ kp kp kp kp kp kp kp kp ch kp kp kp kp kp kp kp kp kp kp kp kp kp kp kp kp kp kp kp kp kp kp kp kp kp kp kp kp kp kp
      exact Touches.refl _
    · refine Touches.done ?_
      refine Touches.trans ?_ (Touches.sub (attEnd_touch ..) (by decide))
      refine Touches.ofMk ?_ kp kp kp kp kp kp kp kp ch kp kp kp kp kp kp kp kp kp kp kp kp kp kp kp kp kp kp kp kp kp kp kp kp kp kp kp kp kp kp
      exact Touches.refl _

theorem attFailAll_touch (x0 : List Nat) (x1 : State) :
    Touches [.fns, .rings] x1 (attFailAll x0 x1) := by
  induction x0 generalizing x1 with
  | nil =>
    rw [attFailAll]
    exact Touches.refl _
  | cons a t ih =>
    rw [attFailAll]
    refine Touches.trans ?_ (ih ..)
    refine Touches.ite ?_ ?_
    · refine Touches.trans ?_ (Touches.sub (attEnd_touch ..) (by decide))
      exact Touches.refl _
    · exact Touches.refl _

theorem attScuRestart_touch (s : State) :
    Touches [.signer, .fns, .rings] s (attScuRestart s) := by
  unfold attScuRestart
  try conv => arg 3; zeta
  refine Touches.ofMk ?_ kp kp kp kp kp kp kp kp ch kp kp kp kp kp kp kp kp kp kp kp kp kp kp kp kp kp kp kp kp kp kp kp kp kp kp kp kp kp kp
  refine Touches.trans ?_ (Touches.sub (attFailAll_touch ..) (by decide))
  exact Touches.refl _

theorem attReset_touch (s : State) (port : Nat) (fn : Nat) :
    Touches [.signer, .fns] s (attReset s port fn) := by
  unfold attReset
  try conv => arg 3; zeta
  refine Touches.ite ?_ ?_
  · refine Touches.trans ?_ (Touches.sub (State.updFn_touch_fns _ _ _ _ (fun _ => rfl)) (by decide))
    refine Touches.ofMk ?_ kp kp kp kp kp kp kp kp ch kp kp kp kp kp kp kp kp kp kp kp kp kp kp kp kp kp kp kp kp kp kp kp kp kp kp kp kp kp kp
    exact Touches.refl _
  · exact Touches.refl _

theorem heldEntry_touch (s : State) (cause : Nat) :
    Touches [.scu, .regions] s (heldEntry s cause) := by
  unfold heldEntry
  try conv => arg 3; zeta
  refine Touches.ofMk ?_ kp kp ch kp kp kp kp kp kp kp kp kp kp kp kp kp kp kp kp kp kp ch kp kp kp kp kp kp kp kp kp kp kp kp kp kp kp kp kp
  exact Touches.refl _

theorem phaseEnd_touch (s : State) (cause : Nat) (next : Nat) :
    Touches [.scu, .regions] s (phaseEnd s cause next) := by
  unfold phaseEnd
  try conv => arg 3; zeta
  refine Touches.ite ?_ ?_
  · refine Touches.ofMk ?_ kp kp ch kp kp kp kp kp kp kp kp kp kp kp kp kp kp kp kp kp kp kp kp kp kp kp kp kp kp kp kp kp kp kp kp kp kp kp kp
    exact Touches.refl _
  · refine Touches.trans ?_ (Touches.sub (heldEntry_touch ..) (by decide))
    exact Touches.refl _

theorem execPhaseDramEnd_touch (stack0 : Bool) (stack1 : Bool) (s : State) :
    ∃ u, execPhaseDramEnd stack0 stack1 s = .next u ∧ Touches [.scu, .identity, .regions] s u := by
  unfold execPhaseDramEnd
  try conv => enter [1, t, 1, 1]; zeta
  refine Touches.iteNext ?_ ?_
  · refine Touches.done ?_
    exact Touches.refl _
  · refine Touches.done ?_
    refine Touches.trans ?_ (Touches.sub (phaseEnd_touch ..) (by decide))
    refine Touches.ofMk ?_ kp kp ch kp ch kp kp kp kp kp kp kp kp kp kp kp kp kp kp kp kp kp kp kp kp kp kp kp kp kp kp kp kp kp kp kp kp kp kp
    exact Touches.refl _

theorem addStreams_touch (seq : Nat) (x1 : List Nat) (x2 : State) :
    Touches [.rings, .nps, .streams, .parts, .mem, .bpm, .store, .alarms, .tu, .out, .freeIx] x2 (addStreams seq x1 x2) := by
  induction x1 generalizing x2 with
  | nil =>
    rw [addStreams]
    exact Touches.refl _
  | cons a t ih =>
    rw [addStreams]
    refine Touches.trans ?_ (ih ..)
    refine Touches.trans ?_ (Touches.sub (streamAdd_touch ..) (by decide))
    exact Touches.refl _

theorem imagoEntry_touch (s : State) :
    Touches [.scu, .rings, .nps, .streams, .parts, .regions, .mem, .dram, .bpm, .store, .pac, .alarms, .tu, .out, .freeIx] s (imagoEntry s) := by
  unfold imagoEntry
  try conv => arg 3; zeta
  refine Touches.trans ?_ (Touches.sub (addStreams_touch ..) (by decide))
  refine Touches.ofMk ?_ kp kp ch kp kp kp kp kp kp kp kp kp kp kp kp kp kp kp kp kp ch ch kp kp kp ch kp kp ch kp kp ch kp kp kp kp kp kp kp
  exact Touches.refl _

theorem execPhasePortsEnd_touch (s : State) :
    ∃ u, execPhasePortsEnd s = .next u ∧ Touches [.scu, .rings, .nps, .streams, .parts, .regions, .mem, .dram, .bpm, .store, .pac, .alarms, .tu, .out, .freeIx] s u := by
  unfold execPhasePortsEnd
  refine Touches.iteNext ?_ ?_
  · refine Touches.done ?_
    exact Touches.refl _
  · refine Touches.done ?_
    refine Touches.trans ?_ (Touches.sub (imagoEntry_touch ..) (by decide))
    exact Touches.refl _

theorem demoteAtStart_touch (s : State) :
    Touches [.rings, .parts, .regions, .alarms, .tu, .out, .freeIx] s (demoteAtStart s) := by
  unfold demoteAtStart
  refine Touches.ite ?_ ?_
  · refine Touches.trans ?_ (Touches.sub (demoteOne_touch ..) (by decide))
    exact Touches.refl _
  · exact Touches.refl _

theorem selftestBlocks_touch (lines : List Nat) (x1 : List Nat) (x2 : State) :
    Touches [.rings, .blocks, .alarms, .tu, .out, .freeIx] x2 (selftestBlocks lines x1 x2) := by
  induction x1 generalizing x2 with
  | nil =>
    rw [selftestBlocks]
    exact Touches.refl _
  | cons a t ih =>
    rw [selftestBlocks]
    refine Touches.trans ?_ (ih ..)
    refine Touches.ite ?_ ?_
    · refine Touches.trans ?_ (Touches.sub (raiseAlarm_touch ..) (by decide))
      refine Touches.trans ?_ (Touches.sub (State.updBlock_touch ..) (by decide))
      exact Touches.refl _
    · exact Touches.refl _

theorem selftestCell_touch (s : State) (c : Nat) :
    Touches [.rings, .cells, .alarms, .tu, .out, .freeIx] s (selftestCell s c) := by
  unfold selftestCell
  refine Touches.trans ?_ (Touches.sub (raiseAlarm_touch ..) (by decide))
  refine Touches.trans ?_ (Touches.sub (State.updCell_touch ..) (by decide))
  exact Touches.refl _

theorem selftestCells_touch (x0 : List Nat) (x1 : State) :
    Touches [.rings, .cells, .alarms, .tu, .out, .freeIx] x1 (selftestCells x0 x1) := by
  induction x0 generalizing x1 with
  | nil =>
    rw [selftestCells]
    exact Touches.refl _
  | cons a t ih =>
    rw [selftestCells]
    refine Touches.trans ?_ (ih ..)
    refine Touches.ite ?_ ?_
    · refine Touches.trans ?_ (Touches.sub (selftestCell_touch ..) (by decide))
      exact Touches.refl _
    · exact Touches.refl _

theorem selftestRegion_touch (s : State) (r : Nat) :
    Touches [.rings, .regions, .alarms, .tu, .out, .freeIx] s (selftestRegion s r) := by
  unfold selftestRegion
  try conv => arg 3; zeta
  refine Touches.trans ?_ (Touches.sub (raiseAlarm_touch ..) (by decide))
  refine Touches.trans ?_ (Touches.sub (State.updRegion_touch ..) (by decide))
  exact Touches.refl _

theorem selftestRegions_touch (stores : List Nat) (x1 : List Nat) (x2 : State) :
    Touches [.rings, .regions, .alarms, .tu, .out, .freeIx] x2 (selftestRegions stores x1 x2) := by
  induction x1 generalizing x2 with
  | nil =>
    rw [selftestRegions]
    exact Touches.refl _
  | cons a t ih =>
    rw [selftestRegions]
    refine Touches.trans ?_ (ih ..)
    refine Touches.ite ?_ ?_
    · refine Touches.trans ?_ (Touches.sub (selftestRegion_touch ..) (by decide))
      exact Touches.refl _
    · exact Touches.refl _

theorem wakeAll_touch (x0 : List Nat) (x1 : State) :
    Touches [.regions, .blocks, .cells, .sram] x1 (wakeAll x0 x1) := by
  induction x0 generalizing x1 with
  | nil =>
    rw [wakeAll]
    exact Touches.refl _
  | cons a t ih =>
    rw [wakeAll]
    refine Touches.trans ?_ (ih ..)
    refine Touches.ite ?_ ?_
    · exact Touches.refl _
    · refine Touches.trans ?_ (Touches.sub (wakeFinish_touch ..) (by decide))
      exact Touches.refl _

theorem execPhaseSelftestEnd_touch (cells : List Nat) (lineStores : List Nat) (regionStores : List Nat) (s : State) :
    ∃ u, execPhaseSelftestEnd cells lineStores regionStores s = .next u ∧ Touches [.scu, .rings, .ctxs, .parts, .regions, .blocks, .cells, .mem, .bpm, .store, .alarms, .tu, .sram, .out, .freeIx] s u := by
  unfold execPhaseSelftestEnd
  try conv => enter [1, t, 1, 1]; zeta
  refine Touches.iteNext ?_ ?_
  · refine Touches.done ?_
    exact Touches.refl _
  · refine Touches.done ?_
    refine Touches.ofMk ?_ kp kp ch kp kp kp kp kp kp kp kp kp kp kp kp kp kp kp kp kp kp kp kp kp kp kp kp kp kp kp kp kp kp kp kp kp kp kp kp
    refine Touches.foldl (fun y1 _ => ?_) ?_ _
    · refine Touches.trans ?_ (Touches.sub (dropCtx_touch ..) (by decide))
      exact Touches.refl _
    · refine Touches.trans ?_ (Touches.sub (wakeAll_touch ..) (by decide))
      refine Touches.foldl (fun y0 _ => ?_) ?_ _
      · refine Touches.ite ?_ ?_
        · refine Touches.trans ?_ (Touches.sub (alarmIfBare_touch ..) (by decide))
          exact Touches.refl _
        · exact Touches.refl _
      · refine Touches.trans ?_ (Touches.sub (demoteAtStart_touch ..) (by decide))
        refine Touches.trans ?_ (Touches.sub (demoteAtStart_touch ..) (by decide))
        refine Touches.trans ?_ (Touches.sub (selftestRegions_touch ..) (by decide))
        refine Touches.trans ?_ (Touches.sub (selftestBlocks_touch ..) (by decide))
        refine Touches.trans ?_ (Touches.sub (selftestCells_touch ..) (by decide))
        exact Touches.refl _

theorem selftestWake_touch (s : State) (r : Nat) :
    Touches [.rings, .streams, .frames, .batches, .ctxs, .parts, .regions, .blocks, .cells, .mem, .bpm, .store, .alarms, .tu, .out, .freeIx] s (selftestWake s r) := by
  unfold selftestWake
  refine Touches.ite ?_ ?_
  · exact Touches.refl _
  · refine Touches.ite ?_ ?_
    · refine Touches.trans ?_ (Touches.sub (regionFence_touch ..) (by decide))
      exact Touches.refl _
    · refine Touches.trans ?_ (Touches.sub (State.updRegion_touch ..) (by decide))
      exact Touches.refl _

theorem selftestWakes_touch (x0 : List Nat) (x1 : State) :
    Touches [.rings, .streams, .frames, .batches, .ctxs, .parts, .regions, .blocks, .cells, .mem, .bpm, .store, .alarms, .tu, .out, .freeIx] x1 (selftestWakes x0 x1) := by
  induction x0 generalizing x1 with
  | nil =>
    rw [selftestWakes]
    exact Touches.refl _
  | cons a t ih =>
    rw [selftestWakes]
    refine Touches.trans ?_ (ih ..)
    refine Touches.trans ?_ (Touches.sub (selftestWake_touch ..) (by decide))
    exact Touches.refl _

theorem porReset_touch (s : State) :
    Touches [.por, .scu, .fuses, .identity, .moult, .flash, .key, .signer, .fns, .rings, .ports, .nps, .streams, .frames, .engines, .resamplers, .relq, .batches, .ctxs, .parts, .regions, .blocks, .cells, .mem, .dram, .bpm, .store, .pac, .alarms, .aon, .tu, .unitsDown, .devTuned, .sram, .waits, .freeIx] s (porReset s) := by
  unfold porReset
  try conv => arg 3; zeta
  refine Touches.ofMk ?_ kp ch ch kp ch ch ch ch ch ch ch ch ch ch ch ch ch ch ch ch ch ch ch ch ch ch ch ch ch ch ch ch ch ch ch kp ch kp kp
  refine Touches.trans ?_ (Touches.sub (burnLost_touch ..) (by decide))
  exact Touches.refl _

theorem loadImage_touch (s : State) :
    Touches [.scu, .mem] s (loadImage s) := by
  unfold loadImage
  try conv => arg 3; zeta
  refine Touches.trans ?_ (Touches.sub (placeGraphs_touch ..) (by decide))
  refine Touches.ofMk ?_ kp kp ch kp kp kp kp kp kp kp kp kp kp kp kp kp kp kp kp kp kp kp kp kp kp kp kp kp kp kp kp kp kp kp kp kp kp kp kp
  exact Touches.refl _

theorem execPhaseLoadEnd_touch (s : State) :
    ∃ u, execPhaseLoadEnd s = .next u ∧ Touches [.scu, .rings, .streams, .frames, .batches, .ctxs, .parts, .regions, .blocks, .cells, .mem, .bpm, .store, .alarms, .tu, .devTuned, .out, .freeIx] s u := by
  unfold execPhaseLoadEnd
  try conv => enter [1, t, 1, 1]; zeta
  refine Touches.iteNext ?_ ?_
  · refine Touches.done ?_
    exact Touches.refl _
  · refine Touches.done ?_
    refine Touches.foldl (fun y0 _ => ?_) ?_ _
    · refine Touches.trans ?_ (Touches.sub (selftestPlace_touch ..) (by decide))
      exact Touches.refl _
    · refine Touches.trans ?_ (Touches.sub (selftestWakes_touch ..) (by decide))
      refine Touches.ofMk ?_ kp kp ch kp kp kp kp kp kp kp kp kp kp kp kp kp kp kp kp kp ch kp kp kp kp kp ch ch kp kp kp kp kp ch kp kp kp kp kp
      refine Touches.trans ?_ (Touches.sub (loadImage_touch ..) (by decide))
      exact Touches.refl _

theorem execPhaseTimeout_touch (s : State) :
    ∃ u, execPhaseTimeout s = .next u ∧ Touches [.scu, .regions] s u := by
  unfold execPhaseTimeout
  refine Touches.iteNext ?_ ?_
  · refine Touches.done ?_
    refine Touches.trans ?_ (Touches.sub (heldEntry_touch ..) (by decide))
    exact Touches.refl _
  · refine Touches.done ?_
    exact Touches.refl _

theorem execPhaseVerifyEnd_touch (s : State) :
    ∃ u, execPhaseVerifyEnd s = .next u ∧ Touches [.scu, .regions] s u := by
  unfold execPhaseVerifyEnd
  try conv => enter [1, t, 1, 1]; zeta
  refine Touches.iteNext ?_ ?_
  · refine Touches.done ?_
    exact Touches.refl _
  · refine Touches.done ?_
    refine Touches.trans ?_ (Touches.sub (phaseEnd_touch ..) (by decide))
    refine Touches.ite ?_ ?_
    · refine Touches.ofMk ?_ kp kp ch kp kp kp kp kp kp kp kp kp kp kp kp kp kp kp kp kp kp kp kp kp kp kp kp kp kp kp kp kp kp kp kp kp kp kp kp
      refine Touches.ite ?_ ?_
      · refine Touches.ofMk ?_ kp kp ch kp kp kp kp kp kp kp kp kp kp kp kp kp kp kp kp kp kp kp kp kp kp kp kp kp kp kp kp kp kp kp kp kp kp kp kp
        exact Touches.refl _
      · exact Touches.refl _
    · refine Touches.ite ?_ ?_
      · refine Touches.ofMk ?_ kp kp ch kp kp kp kp kp kp kp kp kp kp kp kp kp kp kp kp kp kp kp kp kp kp kp kp kp kp kp kp kp kp kp kp kp kp kp kp
        exact Touches.refl _
      · exact Touches.refl _

theorem execPhaseCheckEnd_touch (s : State) :
    ∃ u, execPhaseCheckEnd s = .next u ∧ Touches [.scu, .regions] s u := by
  unfold execPhaseCheckEnd
  refine Touches.iteNext ?_ ?_
  · refine Touches.done ?_
    exact Touches.refl _
  · refine Touches.done ?_
    refine Touches.trans ?_ (Touches.sub (phaseEnd_touch ..) (by decide))
    exact Touches.refl _

theorem execPorAssert_touch (s : State) :
    ∃ u, execPorAssert s = .next u ∧ Touches [.por, .scu, .fuses, .identity, .moult, .flash, .key, .signer, .fns, .rings, .ports, .nps, .streams, .frames, .engines, .resamplers, .relq, .batches, .ctxs, .parts, .regions, .blocks, .cells, .mem, .dram, .bpm, .store, .pac, .alarms, .aon, .tu, .unitsDown, .devTuned, .sram, .waits, .freeIx] s u := by
  unfold execPorAssert
  refine Touches.done ?_
  refine Touches.trans ?_ (Touches.sub (porReset_touch ..) (by decide))
  exact Touches.refl _

theorem execPorDeassert_touch (hpSplit : Bool) (smbAddr : Nat) (s : State) :
    ∃ u, execPorDeassert hpSplit smbAddr s = .next u ∧ Touches [.now, .por, .scu, .regions, .dram, .aon, .freeIx] s u := by
  unfold execPorDeassert
  try conv => enter [1, t, 1, 1]; zeta
  refine Touches.iteNext ?_ ?_
  · refine Touches.done ?_
    exact Touches.refl _
  · split
    · rename_i v0 v1 e2
      have hv1 : Touches [.now, .por, .scu, .regions, .dram, .aon, .freeIx] s v1 := by
        refine Touches.pair e2 ?_
        refine Touches.trans ?_ (Touches.sub (freeBits_touch ..) (by decide))
        exact Touches.refl _
      refine Touches.done ?_
      refine Touches.ofMk ?_ ch ch ch kp kp kp kp kp kp kp kp kp kp kp kp kp kp kp kp kp kp ch kp kp kp ch kp kp kp kp ch kp kp kp kp kp kp kp kp
      exact hv1

theorem execPhaseFuseEnd_touch (s : State) :
    ∃ u, execPhaseFuseEnd s = .next u ∧ Touches [.scu, .ports, .regions, .alarms, .aon] s u := by
  unfold execPhaseFuseEnd
  try conv => enter [1, t, 1, 1]; zeta
  refine Touches.iteNext ?_ ?_
  · refine Touches.done ?_
    exact Touches.refl _
  · refine Touches.done ?_
    refine Touches.trans ?_ (Touches.sub (phaseEnd_touch ..) (by decide))
    refine Touches.ofMk ?_ kp kp kp kp kp kp kp kp kp kp kp ch kp kp kp kp kp kp kp kp kp kp kp kp kp kp kp kp kp kp kp kp kp kp kp kp kp kp kp
    refine Touches.ofMk ?_ kp kp kp kp kp kp kp kp kp kp kp kp kp kp kp kp kp kp kp kp kp kp kp kp kp kp kp kp kp ch ch kp kp kp kp kp kp kp kp
    exact Touches.refl _

theorem execPhaseFlashEnd_touch (s : State) :
    ∃ u, execPhaseFlashEnd s = .next u ∧ Touches [.scu, .regions] s u := by
  unfold execPhaseFlashEnd
  try conv => enter [1, t, 1, 1]; zeta
  refine Touches.iteNext ?_ ?_
  · refine Touches.done ?_
    exact Touches.refl _
  · split
    · refine Touches.done ?_
      refine Touches.trans ?_ (Touches.sub (heldEntry_touch ..) (by decide))
      exact Touches.refl _
    · refine Touches.done ?_
      refine Touches.trans ?_ (Touches.sub (phaseEnd_touch ..) (by decide))
      refine Touches.ofMk ?_ kp kp ch kp kp kp kp kp kp kp kp kp kp kp kp kp kp kp kp kp kp kp kp kp kp kp kp kp kp kp kp kp kp kp kp kp kp kp kp
      exact Touches.refl _

theorem flashEnter_touch (s : State) (st : Nat) (cause : Nat) :
    Touches [.flash, .rings] s (flashEnter s st cause) := by
  unfold flashEnter
  try conv => arg 3; zeta
  refine Touches.trans ?_ (Touches.sub (raiseIrq_touch ..) (by decide))
  refine Touches.ofMk ?_ kp kp kp kp kp kp ch kp kp kp kp kp kp kp kp kp kp kp kp kp kp kp kp kp kp kp kp kp kp kp kp kp kp kp kp kp kp kp kp
  exact Touches.refl _

theorem flashFail_touch (s : State) (cause : Nat) :
    Touches [.flash, .rings] s (flashFail s cause) := by
  unfold flashFail
  refine Touches.trans ?_ (Touches.sub (flashEnter_touch ..) (by decide))
  exact Touches.refl _

theorem execXspiDqsTimeout_touch (s : State) :
    ∃ u, execXspiDqsTimeout s = .next u ∧ Touches [.scu, .flash, .rings, .regions] s u := by
  unfold execXspiDqsTimeout
  refine Touches.iteNext ?_ ?_
  · refine Touches.done ?_
    refine Touches.trans ?_ (Touches.sub (heldEntry_touch ..) (by decide))
    exact Touches.refl _
  · refine Touches.iteNext ?_ ?_
    · refine Touches.done ?_
      refine Touches.trans ?_ (Touches.sub (flashFail_touch ..) (by decide))
      exact Touches.refl _
    · refine Touches.done ?_
      exact Touches.refl _

theorem flashScuRestart_touch (s : State) :
    Touches [.flash, .rings] s (flashScuRestart s) := by
  unfold flashScuRestart
  refine Touches.ite ?_ ?_
  · refine Touches.trans ?_ (Touches.sub (flashFail_touch ..) (by decide))
    exact Touches.refl _
  · exact Touches.refl _

theorem flashNext_touch (s : State) :
    Touches [.flash] s (flashNext s) := by
  unfold flashNext
  try conv => arg 3; zeta
  split
  · exact Touches.refl _
  · refine Touches.ite ?_ ?_
    · refine Touches.ofMk ?_ kp kp kp kp kp kp ch kp kp kp kp kp kp kp kp kp kp kp kp kp kp kp kp kp kp kp kp kp kp kp kp kp kp kp kp kp kp kp kp
      exact Touches.refl _
    · exact Touches.refl _

theorem execFlashHostReadDone_touch (r : HostRead) (s : State) :
    ∃ u, execFlashHostReadDone r s = .next u ∧ Touches [.flash, .rings, .ports] s u := by
  unfold execFlashHostReadDone
  try conv => enter [1, t, 1, 1]; zeta
  refine Touches.iteNext ?_ ?_
  · refine Touches.done ?_
    exact Touches.refl _
  · split
    · refine Touches.done ?_
      refine Touches.trans ?_ (Touches.sub (flashFail_touch ..) (by decide))
      refine Touches.trans ?_ (Touches.sub (readCount_touch ..) (by decide))
      exact Touches.refl _
    · refine Touches.done ?_
      refine Touches.trans ?_ (Touches.sub (flashNext_touch ..) (by decide))
      refine Touches.ofMk ?_ kp kp kp kp kp kp ch kp kp kp kp kp kp kp kp kp kp kp kp kp kp kp kp kp kp kp kp kp kp kp kp kp kp kp kp kp kp kp kp
      exact Touches.refl _

theorem flashSelect_touch (s : State) :
    Touches [.flash, .rings] s (flashSelect s) := by
  unfold flashSelect
  try conv => arg 3; zeta
  split
  · exact Touches.refl _
  · refine Touches.ite ?_ ?_
    · exact Touches.refl _
    · refine Touches.trans ?_ (Touches.sub (flashEnter_touch ..) (by decide))
      refine Touches.ofMk ?_ kp kp kp kp kp kp ch kp kp kp kp kp kp kp kp kp kp kp kp kp kp kp kp kp kp kp kp kp kp kp kp kp kp kp kp kp kp kp kp
      exact Touches.refl _

theorem execFlashReadbackDone_touch (s : State) :
    ∃ u, execFlashReadbackDone s = .next u ∧ Touches [.flash, .rings] s u := by
  unfold execFlashReadbackDone
  try conv => enter [1, t, 1, 1]; zeta
  split
  · refine Touches.done ?_
    exact Touches.refl _
  · refine Touches.iteNext ?_ ?_
    · refine Touches.done ?_
      exact Touches.refl _
    · refine Touches.iteNext ?_ ?_
      · refine Touches.done ?_
        refine Touches.trans ?_ (Touches.sub (flashFail_touch ..) (by decide))
        refine Touches.ofMk ?_ kp kp kp kp kp kp ch kp kp kp kp kp kp kp kp kp kp kp kp kp kp kp kp kp kp kp kp kp kp kp kp kp kp kp kp kp kp kp kp
        exact Touches.refl _
      · refine Touches.iteNext ?_ ?_
        · refine Touches.done ?_
          refine Touches.trans ?_ (Touches.sub (flashFail_touch ..) (by decide))
          refine Touches.ofMk ?_ kp kp kp kp kp kp ch kp kp kp kp kp kp kp kp kp kp kp kp kp kp kp kp kp kp kp kp kp kp kp kp kp kp kp kp kp kp kp kp
          exact Touches.refl _
        · refine Touches.done ?_
          refine Touches.trans ?_ (Touches.sub (flashEnter_touch ..) (by decide))
          refine Touches.ofMk ?_ kp kp kp kp kp kp ch kp kp kp kp kp kp kp kp kp kp kp kp kp kp kp kp kp kp kp kp kp kp kp kp kp kp kp kp kp kp kp kp
          exact Touches.refl _

theorem flashPage_touch (s : State) (b : Bytes) :
    Touches [.flash] s (flashPage s b) := by
  unfold flashPage
  try conv => arg 3; zeta
  refine Touches.ofMk ?_ kp kp kp kp kp kp ch kp kp kp kp kp kp kp kp kp kp kp kp kp kp kp kp kp kp kp kp kp kp kp kp kp kp kp kp kp kp kp kp
  exact Touches.refl _

theorem execFlashSelect_touch (s : State) :
    ∃ u, execFlashSelect s = .next u ∧ Touches [.flash, .rings, .waits] s u := by
  unfold execFlashSelect
  refine Touches.iteNext ?_ ?_
  · refine Touches.done ?_
    exact Touches.refl _
  · refine Touches.iteNext ?_ ?_
    · refine Touches.done ?_
      refine Touches.trans ?_ (Touches.sub (waitAccess_touch ..) (by decide))
      exact Touches.refl _
    · refine Touches.done ?_
      refine Touches.trans ?_ (Touches.sub (flashSelect_touch ..) (by decide))
      exact Touches.refl _

theorem execFlashOpTimeout_touch (s : State) :
    ∃ u, execFlashOpTimeout s = .next u ∧ Touches [.flash, .rings] s u := by
  unfold execFlashOpTimeout
  refine Touches.iteNext ?_ ?_
  · refine Touches.done ?_
    refine Touches.trans ?_ (Touches.sub (flashFail_touch ..) (by decide))
    exact Touches.refl _
  · refine Touches.done ?_
    exact Touches.refl _

theorem flashProgram_touch (s : State) :
    Touches [.flash, .rings] s (flashProgram s) := by
  unfold flashProgram
  try conv => arg 3; zeta
  refine Touches.ite ?_ ?_
  · exact Touches.refl _
  · refine Touches.ite ?_ ?_
    · refine Touches.trans ?_ (Touches.sub (flashFail_touch ..) (by decide))
      exact Touches.refl _
    · refine Touches.ofMk ?_ kp kp kp kp kp kp ch kp kp kp kp kp kp kp kp kp kp kp kp kp kp kp kp kp kp kp kp kp kp kp kp kp kp kp kp kp kp kp kp
      exact Touches.refl _

theorem execFlashProgram_touch (s : State) :
    ∃ u, execFlashProgram s = .next u ∧ Touches [.flash, .rings, .waits] s u := by
  unfold execFlashProgram
  refine Touches.iteNext ?_ ?_
  · refine Touches.done ?_
    exact Touches.refl _
  · refine Touches.iteNext ?_ ?_
    · refine Touches.done ?_
      refine Touches.trans ?_ (Touches.sub (waitAccess_touch ..) (by decide))
      exact Touches.refl _
    · refine Touches.done ?_
      refine Touches.trans ?_ (Touches.sub (flashProgram_touch ..) (by decide))
      exact Touches.refl _

theorem flashReset_touch (s : State) :
    Touches [.flash, .rings] s (flashReset s) := by
  unfold flashReset
  refine Touches.ite ?_ ?_
  · refine Touches.trans ?_ (Touches.sub (flashFail_touch ..) (by decide))
    exact Touches.refl _
  · exact Touches.refl _

theorem execFlashPageProgramDone_touch (statusError : Bool) (s : State) :
    ∃ u, execFlashPageProgramDone statusError s = .next u ∧ Touches [.flash, .rings] s u := by
  unfold execFlashPageProgramDone
  split
  · refine Touches.done ?_
    exact Touches.refl _
  · refine Touches.iteNext ?_ ?_
    · refine Touches.done ?_
      exact Touches.refl _
    · refine Touches.iteNext ?_ ?_
      · refine Touches.done ?_
        refine Touches.trans ?_ (Touches.sub (flashFail_touch ..) (by decide))
        exact Touches.refl _
      · refine Touches.done ?_
        refine Touches.trans ?_ (Touches.sub (flashNext_touch ..) (by decide))
        refine Touches.trans ?_ (Touches.sub (flashPage_touch ..) (by decide))
        exact Touches.refl _

theorem execFlashEraseDone_touch (s : State) :
    ∃ u, execFlashEraseDone s = .next u ∧ Touches [.flash, .out] s u := by
  unfold execFlashEraseDone
  try conv => enter [1, t, 1, 1]; zeta
  refine Touches.iteNext ?_ ?_
  · refine Touches.done ?_
    exact Touches.refl _
  · refine Touches.done ?_
    refine Touches.trans ?_ (Touches.sub (hpaRead_touch ..) (by decide))
    refine Touches.ofMk ?_ kp kp kp kp kp kp ch kp kp kp kp kp kp kp kp kp kp kp kp kp kp kp kp kp kp kp kp kp kp kp kp kp kp kp kp kp kp kp kp
    exact Touches.refl _

theorem retuneStream_touch (id : Nat) (d : Option Bytes) (s : State) (i : Nat) :
    Touches [.streams] s (retuneStream id d s i) := by
  unfold retuneStream
  try conv => arg 3; zeta
  split
  · refine Touches.trans ?_ (Touches.sub (State.updStream_touch ..) (by decide))
    exact Touches.refl _
  · refine Touches.ite ?_ ?_
    · exact Touches.refl _
    · refine Touches.trans ?_ (Touches.sub (State.updStream_touch ..) (by decide))
      exact Touches.refl _

theorem retunePart_touch (s : State) (old : Sections) (p : Nat) (id : Nat) :
    Touches [.rings, .streams, .parts, .alarms, .tu, .out, .freeIx] s (retunePart s old p id) := by
  unfold retunePart
  try conv => arg 3; zeta
  refine Touches.ite ?_ ?_
  · exact Touches.refl _
  · refine Touches.ite ?_ ?_
    · refine Touches.trans ?_ (Touches.sub (raiseLogOf_touch ..) (by decide))
      refine Touches.trans ?_ (Touches.sub (State.updPart_touch ..) (by decide))
      refine Touches.foldl (fun y0 _ => ?_) ?_ _
      · refine Touches.trans ?_ (Touches.sub (retuneStream_touch ..) (by decide))
        exact Touches.refl _
      · exact Touches.refl _
    · refine Touches.trans ?_ (Touches.sub (State.updPart_touch ..) (by decide))
      refine Touches.foldl (fun y1 _ => ?_) ?_ _
      · refine Touches.trans ?_ (Touches.sub (retuneStream_touch ..) (by decide))
        exact Touches.refl _
      · exact Touches.refl _

theorem tuneStreams_touch (id : Nat) (v : Int) (x2 : List Nat) (x3 : State) :
    Touches [.streams] x3 (tuneStreams id v x2 x3) := by
  induction x2 generalizing x3 with
  | nil =>
    rw [tuneStreams]
    exact Touches.refl _
  | cons a t ih =>
    rw [tuneStreams]
    refine Touches.trans ?_ (ih ..)
    refine Touches.trans ?_ (Touches.sub (State.updStream_touch ..) (by decide))
    exact Touches.refl _

theorem tuneWriteValue_touch (s : State) (port : Nat) (fn : Nat) (id : Nat) (v : Int) :
    Touches [.streams, .parts, .devTuned] s (tuneWriteValue s port fn id v) := by
  unfold tuneWriteValue
  try conv => arg 3; zeta
  split
  · exact Touches.refl _
  · refine Touches.ite ?_ ?_
    · refine Touches.ofMk ?_ kp kp kp kp kp kp kp kp kp kp kp kp kp kp kp kp kp kp kp kp kp kp kp kp kp kp kp kp kp kp kp kp kp ch kp kp kp kp kp
      exact Touches.refl _
    · refine Touches.trans ?_ (Touches.sub (tuneStreams_touch ..) (by decide))
      refine Touches.trans ?_ (Touches.sub (State.updPart_touch ..) (by decide))
      exact Touches.refl _

theorem tuneCarry_touch (s : State) (port : Nat) (fn : Nat) (c : TuneCmd) :
    Touches [.fns, .streams, .parts, .devTuned] s (tuneCarry s port fn c) := by
  unfold tuneCarry
  try conv => arg 3; zeta
  refine Touches.ite ?_ ?_
  · exact Touches.refl _
  · refine Touches.ite ?_ ?_
    · split
      · refine Touches.ite ?_ ?_
        · refine Touches.trans ?_ (Touches.sub (tuneWriteValue_touch ..) (by decide))
          exact Touches.refl _
        · exact Touches.refl _
      · refine Touches.trans ?_ (Touches.sub (State.updFn_touch_fns _ _ _ _ (fun _ => rfl)) (by decide))
        refine Touches.ite ?_ ?_
        · refine Touches.trans ?_ (Touches.sub (tuneWriteValue_touch ..) (by decide))
          exact Touches.refl _
        · exact Touches.refl _
    · refine Touches.ite ?_ ?_
      · refine Touches.trans ?_ (Touches.sub (tuneWriteValue_touch ..) (by decide))
        exact Touches.refl _
      · exact Touches.refl _

theorem tuneFinish_touch (s : State) (port : Nat) (fn : Nat) :
    Touches [.fns, .streams, .parts, .devTuned] s (tuneFinish s port fn) := by
  unfold tuneFinish
  split
  · exact Touches.refl _
  · refine Touches.trans ?_ (Touches.sub (State.updFn_touch_fns _ _ _ _ (fun _ => rfl)) (by decide))
    refine Touches.trans ?_ (Touches.sub (tuneCarry_touch ..) (by decide))
    exact Touches.refl _

theorem execTuneComplete_touch (port : Nat) (fn : Nat) (s : State) :
    ∃ u, execTuneComplete port fn s = .next u ∧ Touches [.fns, .streams, .parts, .devTuned] s u := by
  unfold execTuneComplete
  refine Touches.iteNext ?_ ?_
  · refine Touches.done ?_
    exact Touches.refl _
  · refine Touches.done ?_
    refine Touches.trans ?_ (Touches.sub (tuneFinish_touch ..) (by decide))
    exact Touches.refl _

theorem retuneDevice_touch (s : State) (old : Sections) (id : Nat) :
    Touches [.rings, .alarms, .tu, .devTuned, .out, .freeIx] s (retuneDevice s old id) := by
  unfold retuneDevice
  try conv => arg 3; zeta
  split
  · refine Touches.ofMk ?_ kp kp kp kp kp kp kp kp kp kp kp kp kp kp kp kp kp kp kp kp kp kp kp kp kp kp kp kp kp kp kp kp kp ch kp kp kp kp kp
    refine Touches.ite ?_ ?_
    · exact Touches.refl _
    · refine Touches.trans ?_ (Touches.sub (raiseLog_touch ..) (by decide))
      exact Touches.refl _
  · refine Touches.ofMk ?_ kp kp kp kp kp kp kp kp kp kp kp kp kp kp kp kp kp kp kp kp kp kp kp kp kp kp kp kp kp kp kp kp kp ch kp kp kp kp kp
    exact Touches.refl _

theorem retune_touch (s : State) (old : Sections) :
    Touches [.rings, .streams, .parts, .alarms, .tu, .devTuned, .out, .freeIx] s (retune s old) := by
  unfold retune
  try conv => arg 3; zeta
  refine Touches.foldl (fun y1 _ => ?_) ?_ _
  · refine Touches.foldl (fun y2 _ => ?_) ?_ _
    · refine Touches.trans ?_ (Touches.sub (retunePart_touch ..) (by decide))
      exact Touches.refl _
    · exact Touches.refl _
  · refine Touches.foldl (fun y0 _ => ?_) ?_ _
    · refine Touches.trans ?_ (Touches.sub (retuneDevice_touch ..) (by decide))
      exact Touches.refl _
    · exact Touches.refl _

theorem tuneBeforeCommit_touch (s : State) (x1 : List Nat) :
    Touches [.fns, .streams, .parts, .devTuned] s (tuneBeforeCommit s x1) := by
  induction x1 generalizing s with
  | nil =>
    rw [tuneBeforeCommit]
    exact Touches.refl _
  | cons a t ih =>
    rw [tuneBeforeCommit]
    refine Touches.trans ?_ (ih ..)
    split
    · exact Touches.refl _
    · refine Touches.ite ?_ ?_
      · refine Touches.trans ?_ (Touches.sub (State.updFn_touch_fns _ _ _ _ (fun _ => rfl)) (by decide))
        refine Touches.trans ?_ (Touches.sub (tuneCarry_touch ..) (by decide))
        exact Touches.refl _
      · exact Touches.refl _

theorem tuneIssue_touch (s : State) (port : Nat) (fn : Nat) (kind : Nat) :
    Touches [.fns] s (tuneIssue s port fn kind) := by
  unfold tuneIssue
  try conv => arg 3; zeta
  refine Touches.ite ?_ ?_
  · exact Touches.refl _
  · refine Touches.ite ?_ ?_
    · refine Touches.trans ?_ (Touches.sub (State.updFn_touch_fns _ _ _ _ (fun _ => rfl)) (by decide))
      exact Touches.refl _
    · refine Touches.ite ?_ ?_
      · refine Touches.trans ?_ (Touches.sub (State.updFn_touch_fns _ _ _ _ (fun _ => rfl)) (by decide))
        exact Touches.refl _
      · refine Touches.trans ?_ (Touches.sub (State.updFn_touch_fns _ _ _ _ (fun _ => rfl)) (by decide))
        exact Touches.refl _

theorem execTuneWrite_touch (port : Nat) (fn : Nat) (andRead : Bool) (s : State) :
    ∃ u, execTuneWrite port fn andRead s = .next u ∧ Touches [.fns, .waits] s u := by
  unfold execTuneWrite
  refine Touches.iteNext ?_ ?_
  · refine Touches.done ?_
    exact Touches.refl _
  · refine Touches.iteNext ?_ ?_
    · refine Touches.done ?_
      refine Touches.trans ?_ (Touches.sub (waitAccess_touch ..) (by decide))
      exact Touches.refl _
    · refine Touches.done ?_
      refine Touches.trans ?_ (Touches.sub (tuneIssue_touch ..) (by decide))
      exact Touches.refl _

theorem execTuneRead_touch (port : Nat) (fn : Nat) (s : State) :
    ∃ u, execTuneRead port fn s = .next u ∧ Touches [.fns, .waits] s u := by
  unfold execTuneRead
  refine Touches.iteNext ?_ ?_
  · refine Touches.done ?_
    exact Touches.refl _
  · refine Touches.iteNext ?_ ?_
    · refine Touches.done ?_
      refine Touches.trans ?_ (Touches.sub (waitAccess_touch ..) (by decide))
      exact Touches.refl _
    · refine Touches.done ?_
      refine Touches.trans ?_ (Touches.sub (tuneIssue_touch ..) (by decide))
      exact Touches.refl _

theorem moultReject_touch (s : State) (cause : Nat) :
    Touches [.moult, .rings] s (moultReject s cause) := by
  unfold moultReject
  try conv => arg 3; zeta
  refine Touches.trans ?_ (Touches.sub (raiseIrq_touch ..) (by decide))
  refine Touches.ofMk ?_ kp kp kp kp kp ch kp kp kp kp kp kp kp kp kp kp kp kp kp kp kp kp kp kp kp kp kp kp kp kp kp kp kp kp kp kp kp kp kp
  exact Touches.refl _

theorem moultCut_touch (s : State) (cause : Nat) :
    Touches [.moult, .rings] s (moultCut s cause) := by
  unfold moultCut
  refine Touches.ite ?_ ?_
  · refine Touches.trans ?_ (Touches.sub (moultReject_touch ..) (by decide))
    exact Touches.refl _
  · exact Touches.refl _

theorem execMoultAbort_touch (s : State) :
    ∃ u, execMoultAbort s = .next u ∧ Touches [.moult, .rings, .waits] s u := by
  unfold execMoultAbort
  refine Touches.iteNext ?_ ?_
  · refine Touches.done ?_
    exact Touches.refl _
  · refine Touches.iteNext ?_ ?_
    · refine Touches.done ?_
      refine Touches.trans ?_ (Touches.sub (waitAccess_touch ..) (by decide))
      exact Touches.refl _
    · refine Touches.done ?_
      refine Touches.trans ?_ (Touches.sub (moultCut_touch ..) (by decide))
      exact Touches.refl _

theorem portsFollow_touch (s : State) :
    Touches [.nps] s (portsFollow s) := by
  unfold portsFollow
  refine Touches.ofMk ?_ kp kp kp kp kp kp kp kp kp kp kp kp ch kp kp kp kp kp kp kp kp kp kp kp kp kp kp kp kp kp kp kp kp kp kp kp kp kp kp
  exact Touches.refl _

theorem execMoultVerifyEnd_touch (s : State) :
    ∃ u, execMoultVerifyEnd s = .next u ∧ Touches [.moult, .rings] s u := by
  unfold execMoultVerifyEnd
  try conv => enter [1, t, 1, 1]; zeta
  refine Touches.iteNext ?_ ?_
  · refine Touches.done ?_
    exact Touches.refl _
  · refine Touches.iteNext ?_ ?_
    · refine Touches.done ?_
      refine Touches.ofMk ?_ kp kp kp kp kp ch kp kp kp kp kp kp kp kp kp kp kp kp kp kp kp kp kp kp kp kp kp kp kp kp kp kp kp kp kp kp kp kp kp
      exact Touches.refl _
    · refine Touches.done ?_
      refine Touches.trans ?_ (Touches.sub (moultReject_touch ..) (by decide))
      exact Touches.refl _

theorem closeBatches_touch (s : State) :
    Touches [.streams, .frames, .batches, .parts, .mem, .store, .out] s (closeBatches s) := by
  unfold closeBatches
  refine Touches.foldl (fun y0 _ => ?_) ?_ _
  · refine Touches.trans ?_ (Touches.sub (batchClose_touch ..) (by decide))
    exact Touches.refl _
  · exact Touches.refl _

theorem lowerToMax_touch (x0 : List Nat) (x1 : State) :
    Touches [.rings, .streams, .frames, .batches, .ctxs, .parts, .regions, .blocks, .cells, .mem, .bpm, .store, .pac, .alarms, .tu, .out, .freeIx] x1 (lowerToMax x0 x1) := by
  induction x0 generalizing x1 with
  | nil =>
    rw [lowerToMax]
    exact Touches.refl _
  | cons a t ih =>
    rw [lowerToMax]
    refine Touches.trans ?_ (ih ..)
    refine Touches.trans ?_ (Touches.sub (forceLower_touch ..) (by decide))
    exact Touches.refl _

theorem moultCommit_touch (s : State) (new : Sections) :
    Touches [.scu, .moult, .fns, .rings, .nps, .streams, .frames, .batches, .ctxs, .parts, .regions, .blocks, .cells, .mem, .bpm, .store, .pac, .alarms, .tu, .devTuned, .out, .freeIx] s (moultCommit s new) := by
  unfold moultCommit
  try conv => arg 3; zeta
  refine Touches.trans ?_ (Touches.sub (moultFinish_touch ..) (by decide))
  refine Touches.trans ?_ (Touches.sub (moultAdds_touch ..) (by decide))
  refine Touches.trans ?_ (Touches.sub (lowerToMax_touch ..) (by decide))
  refine Touches.foldl (fun y0 _ => ?_) ?_ _
  · refine Touches.trans ?_ (Touches.sub (shadowDiscard_touch ..) (by decide))
    exact Touches.refl _
  · refine Touches.trans ?_ (Touches.sub (portsFollow_touch ..) (by decide))
    refine Touches.trans ?_ (Touches.sub (retune_touch ..) (by decide))
    refine Touches.ofMk ?_ kp kp ch kp kp ch kp kp kp kp kp kp kp ch kp kp kp kp kp kp kp kp kp kp kp kp kp kp kp kp kp kp kp kp kp kp kp kp kp
    refine Touches.trans ?_ (Touches.sub (closeBatches_touch ..) (by decide))
    refine Touches.trans ?_ (Touches.sub (tuneBeforeCommit_touch ..) (by decide))
    exact Touches.refl _

theorem execMoultCheckEnd_touch (s : State) :
    ∃ u, execMoultCheckEnd s = .next u ∧ Touches [.moult, .rings] s u := by
  unfold execMoultCheckEnd
  try conv => enter [1, t, 1, 1]; zeta
  refine Touches.iteNext ?_ ?_
  · refine Touches.done ?_
    exact Touches.refl _
  · refine Touches.iteNext ?_ ?_
    · refine Touches.done ?_
      refine Touches.ofMk ?_ kp kp kp kp kp ch kp kp kp kp kp kp kp kp kp kp kp kp kp kp kp kp kp kp kp kp kp kp kp kp kp kp kp kp kp kp kp kp kp
      exact Touches.refl _
    · refine Touches.done ?_
      refine Touches.trans ?_ (Touches.sub (moultReject_touch ..) (by decide))
      exact Touches.refl _

theorem moultStage_touch (s : State) (n : Sections) (at_ : Map Nat) :
    Touches [.moult, .mem] s (moultStage s n at_) := by
  unfold moultStage
  try conv => arg 3; zeta
  refine Touches.ofMk ?_ kp kp kp kp kp ch kp kp kp kp kp kp kp kp kp kp kp kp kp kp kp kp kp kp kp kp kp kp kp kp kp kp kp kp kp kp kp kp kp
  refine Touches.trans ?_ (Touches.sub (placeGraphs_touch ..) (by decide))
  exact Touches.refl _

theorem execMoultStageEnd_touch (s : State) :
    ∃ u, execMoultStageEnd s = .next u ∧ Touches [.scu, .moult, .fns, .rings, .nps, .streams, .frames, .batches, .ctxs, .parts, .regions, .blocks, .cells, .mem, .bpm, .store, .pac, .alarms, .tu, .devTuned, .out, .freeIx] s u := by
  unfold execMoultStageEnd
  split
  · refine Touches.done ?_
    exact Touches.refl _
  · refine Touches.iteNext ?_ ?_
    · refine Touches.done ?_
      exact Touches.refl _
    · split
      · refine Touches.done ?_
        refine Touches.trans ?_ (Touches.sub (moultReject_touch ..) (by decide))
        exact Touches.refl _
      · refine Touches.done ?_
        refine Touches.trans ?_ (Touches.sub (moultCommit_touch ..) (by decide))
        refine Touches.trans ?_ (Touches.sub (moultStage_touch ..) (by decide))
        exact Touches.refl _

theorem moultStart_touch (s : State) :
    Touches [.moult, .rings, .out] s (moultStart s) := by
  unfold moultStart
  try conv => arg 3; zeta
  refine Touches.ite ?_ ?_
  · exact Touches.refl _
  · refine Touches.ite ?_ ?_
    · refine Touches.trans ?_ (Touches.sub (moultReject_touch ..) (by decide))
      exact Touches.refl _
    · refine Touches.trans ?_ (Touches.sub (hpaRead_touch ..) (by decide))
      refine Touches.ofMk ?_ kp kp kp kp kp ch kp kp kp kp kp kp kp kp kp kp kp kp kp kp kp kp kp kp kp kp kp kp kp kp kp kp kp kp kp kp kp kp kp
      exact Touches.refl _

theorem execMoultGo_touch (andAbort : Bool) (s : State) :
    ∃ u, execMoultGo andAbort s = .next u ∧ Touches [.moult, .rings, .out, .waits] s u := by
  unfold execMoultGo
  refine Touches.iteNext ?_ ?_
  · refine Touches.done ?_
    exact Touches.refl _
  · refine Touches.iteNext ?_ ?_
    · refine Touches.done ?_
      refine Touches.trans ?_ (Touches.sub (waitAccess_touch ..) (by decide))
      exact Touches.refl _
    · refine Touches.done ?_
      refine Touches.trans ?_ (Touches.sub (moultStart_touch ..) (by decide))
      refine Touches.ite ?_ ?_
      · refine Touches.trans ?_ (Touches.sub (moultCut_touch ..) (by decide))
        exact Touches.refl _
      · exact Touches.refl _

theorem execMoultFetchEnd_touch (r : HostRead) (s : State) :
    ∃ u, execMoultFetchEnd r s = .next u ∧ Touches [.moult, .rings, .ports] s u := by
  unfold execMoultFetchEnd
  try conv => enter [1, t, 1, 1]; zeta
  refine Touches.iteNext ?_ ?_
  · refine Touches.done ?_
    exact Touches.refl _
  · split
    · refine Touches.done ?_
      refine Touches.trans ?_ (Touches.sub (moultReject_touch ..) (by decide))
      refine Touches.trans ?_ (Touches.sub (readCount_touch ..) (by decide))
      exact Touches.refl _
    · refine Touches.done ?_
      refine Touches.ofMk ?_ kp kp kp kp kp ch kp kp kp kp kp kp kp kp kp kp kp kp kp kp kp kp kp kp kp kp kp kp kp kp kp kp kp kp kp kp kp kp kp
      exact Touches.refl _

theorem execMoultSwitchTimeout_touch (slot : Nat) (s : State) :
    ∃ u, execMoultSwitchTimeout slot s = .next u ∧ Touches [.scu, .moult, .rings, .nps, .streams, .frames, .engines, .resamplers, .relq, .batches, .parts, .regions, .mem, .bpm, .store, .alarms, .tu, .out, .freeIx] s u := by
  unfold execMoultSwitchTimeout
  refine Touches.iteNext ?_ ?_
  · refine Touches.done ?_
    refine Touches.trans ?_ (Touches.sub (switchStream_touch ..) (by decide))
    exact Touches.refl _
  · refine Touches.done ?_
    exact Touches.refl _

end Sys2Proof.Machine
end

