-- ==== Sys2Proof/Laws/TouchesHost.lean ====
section
/-! SUPPORT. Which parts of the state each operation of these files of Machine/ can change, as `Touches` names them: Inject, HostPorts, Search, Telemetry, Registers, Controllers, Dx, Records, FabricFault, Faults. -/

set_option Elab.async false

set_option linter.unusedVariables false

namespace Sys2Proof.Machine

open Sys2Proof (Bytes Byte Word)

theorem State.updInj_touch (s : State) (port : Nat) (fn : Nat) (g : Inj → Inj) :
    Touches [.fns] s (State.updInj s port fn g) := by
  unfold State.updInj
  refine Touches.trans ?_ (Touches.sub (State.updFn_touch_fns _ _ _ _ (fun _ => rfl)) (by decide))
  exact Touches.refl _

theorem injConsumer_touch (s : State) (port : Nat) (fn : Nat) :
    Touches [.fns, .out] s (injConsumer s port fn) := by
  unfold injConsumer
  try conv => arg 3; zeta
  refine Touches.ite ?_ ?_
  · refine Touches.trans ?_ (Touches.sub (emit_touch ..) (by decide))
    refine Touches.trans ?_ (Touches.sub (State.updInj_touch ..) (by decide))
    exact Touches.refl _
  · exact Touches.refl _

theorem injAdvance_touch (s : State) (port : Nat) (fn : Nat) (n : Nat) (wrap : Bool) :
    Touches [.fns, .out] s (injAdvance s port fn n wrap) := by
  unfold injAdvance
  try conv => arg 3; zeta
  refine Touches.ite ?_ ?_
  · refine Touches.trans ?_ (Touches.sub (injConsumer_touch ..) (by decide))
    refine Touches.trans ?_ (Touches.sub (State.updInj_touch ..) (by decide))
    exact Touches.refl _
  · refine Touches.trans ?_ (Touches.sub (State.updInj_touch ..) (by decide))
    exact Touches.refl _

theorem streamDiscard_touch (s : State) (slot : Nat) (cause : Nat) :
    Touches [.moult, .rings, .nps, .streams, .frames, .resamplers, .relq, .batches, .parts, .regions, .mem, .bpm, .store, .alarms, .tu, .out, .freeIx] s (streamDiscard s slot cause) := by
  unfold streamDiscard
  refine Touches.trans ?_ (Touches.sub (dropOpenAu_touch ..) (by decide))
  refine Touches.trans ?_ (Touches.sub (purgeSlot_touch ..) (by decide))
  refine Touches.trans ?_ (Touches.sub (dropFrames_touch ..) (by decide))
  refine Touches.trans ?_ (Touches.sub (shadowDropStream_touch ..) (by decide))
  exact Touches.refl _

theorem streamUnbind_touch (s : State) (slot : Nat) :
    Touches [.moult, .rings, .nps, .streams, .frames, .resamplers, .relq, .batches, .parts, .regions, .mem, .bpm, .store, .alarms, .tu, .out, .freeIx] s (streamUnbind s slot) := by
  unfold streamUnbind
  refine Touches.ite ?_ ?_
  · refine Touches.trans ?_ (Touches.sub (State.updStream_touch ..) (by decide))
    refine Touches.trans ?_ (Touches.sub (streamDiscard_touch ..) (by decide))
    exact Touches.refl _
  · exact Touches.refl _

theorem injRefuse_touch (s : State) (port : Nat) (fn : Nat) :
    Touches [.fns] s (injRefuse s port fn) := by
  unfold injRefuse
  refine Touches.trans ?_ (Touches.sub (State.updInj_touch ..) (by decide))
  exact Touches.refl _

theorem streamsGoLive_touch (x0 : List Nat) (x1 : State) :
    Touches [.rings, .streams, .parts, .mem, .bpm, .store, .alarms, .tu, .out, .freeIx] x1 (streamsGoLive x0 x1) := by
  induction x0 generalizing x1 with
  | nil =>
    rw [streamsGoLive]
    exact Touches.refl _
  | cons a t ih =>
    rw [streamsGoLive]
    refine Touches.trans ?_ (ih ..)
    refine Touches.ite ?_ ?_
    · exact Touches.refl _
    · refine Touches.trans ?_ (Touches.sub (streamGoLive_touch ..) (by decide))
      exact Touches.refl _

theorem execInjConsumerWrite_touch (port : Nat) (fn : Nat) (s : State) :
    ∃ u, execInjConsumerWrite port fn s = .next u ∧ Touches [.fns, .out] s u := by
  unfold execInjConsumerWrite
  refine Touches.done ?_
  refine Touches.trans ?_ (Touches.sub (injConsumer_touch ..) (by decide))
  exact Touches.refl _

theorem execInjEnableDone_touch (port : Nat) (fn : Nat) (s : State) :
    ∃ u, execInjEnableDone port fn s = .next u ∧ Touches [.fns, .rings, .streams, .parts, .mem, .bpm, .store, .alarms, .tu, .out, .freeIx] s u := by
  unfold execInjEnableDone
  try conv => enter [1, t, 1, 1]; zeta
  refine Touches.iteNext ?_ ?_
  · refine Touches.done ?_
    refine Touches.trans ?_ (Touches.sub (streamsGoLive_touch ..) (by decide))
    refine Touches.trans ?_ (Touches.sub (State.updInj_touch ..) (by decide))
    exact Touches.refl _
  · refine Touches.done ?_
    exact Touches.refl _

theorem injStop_touch (s : State) (port : Nat) (fn : Nat) :
    Touches [.fns, .rings, .parts, .bpm, .alarms, .tu, .out, .freeIx] s (injStop s port fn) := by
  unfold injStop
  try conv => arg 3; zeta
  refine Touches.trans ?_ (Touches.sub (State.updInj_touch ..) (by decide))
  refine Touches.trans ?_ (Touches.sub (releaseAll_touch ..) (by decide))
  exact Touches.refl _

theorem streamUnbinds_touch (x0 : List Nat) (x1 : State) :
    Touches [.moult, .rings, .nps, .streams, .frames, .resamplers, .relq, .batches, .parts, .regions, .mem, .bpm, .store, .alarms, .tu, .out, .freeIx] x1 (streamUnbinds x0 x1) := by
  induction x0 generalizing x1 with
  | nil =>
    rw [streamUnbinds]
    exact Touches.refl _
  | cons a t ih =>
    rw [streamUnbinds]
    refine Touches.trans ?_ (ih ..)
    refine Touches.trans ?_ (Touches.sub (streamUnbind_touch ..) (by decide))
    exact Touches.refl _

theorem injDisable_touch (s : State) (port : Nat) (fn : Nat) :
    Touches [.moult, .fns, .rings, .nps, .streams, .frames, .resamplers, .relq, .batches, .parts, .regions, .mem, .bpm, .store, .alarms, .tu, .out, .freeIx] s (injDisable s port fn) := by
  unfold injDisable
  refine Touches.ite ?_ ?_
  · refine Touches.trans ?_ (Touches.sub (injStop_touch ..) (by decide))
    refine Touches.trans ?_ (Touches.sub (streamUnbinds_touch ..) (by decide))
    exact Touches.refl _
  · exact Touches.refl _

theorem execInjDisable_touch (port : Nat) (fn : Nat) (s : State) :
    ∃ u, execInjDisable port fn s = .next u ∧ Touches [.moult, .fns, .rings, .nps, .streams, .frames, .resamplers, .relq, .batches, .parts, .regions, .mem, .bpm, .store, .alarms, .tu, .out, .freeIx] s u := by
  unfold execInjDisable
  refine Touches.iteNext ?_ ?_
  · refine Touches.done ?_
    refine Touches.trans ?_ (Touches.sub (injDisable_touch ..) (by decide))
    exact Touches.refl _
  · refine Touches.done ?_
    exact Touches.refl _

theorem injDesync_touch (s : State) (port : Nat) (fn : Nat) :
    Touches [.fns, .rings, .alarms, .tu, .out, .freeIx] s (injDesync s port fn) := by
  unfold injDesync
  refine Touches.trans ?_ (Touches.sub (raiseLogOf_touch ..) (by decide))
  refine Touches.trans ?_ (Touches.sub (State.updInj_touch ..) (by decide))
  exact Touches.refl _

theorem execInjHeaderTimeout_touch (port : Nat) (fn : Nat) (s : State) :
    ∃ u, execInjHeaderTimeout port fn s = .next u ∧ Touches [.fns, .rings, .alarms, .tu, .out, .freeIx] s u := by
  unfold execInjHeaderTimeout
  try conv => enter [1, t, 1, 1]; zeta
  refine Touches.iteNext ?_ ?_
  · refine Touches.done ?_
    exact Touches.refl _
  · refine Touches.iteNext ?_ ?_
    · refine Touches.done ?_
      refine Touches.trans ?_ (Touches.sub (State.updInj_touch ..) (by decide))
      exact Touches.refl _
    · refine Touches.done ?_
      refine Touches.trans ?_ (Touches.sub (injDesync_touch ..) (by decide))
      exact Touches.refl _

theorem injEnable_touch (s : State) (port : Nat) (fn : Nat) :
    Touches [.moult, .fns, .rings, .nps, .streams, .frames, .resamplers, .relq, .batches, .parts, .regions, .mem, .bpm, .store, .alarms, .tu, .out, .freeIx] s (injEnable s port fn) := by
  unfold injEnable
  try conv => arg 3; zeta
  refine Touches.ite ?_ ?_
  · refine Touches.trans ?_ (Touches.sub (injRefuse_touch ..) (by decide))
    refine Touches.trans ?_ (Touches.sub (injDisable_touch ..) (by decide))
    exact Touches.refl _
  · split
    · split
      · rename_i v0 v1 e2
        have hv1 : Touches [.moult, .fns, .rings, .nps, .streams, .frames, .resamplers, .relq, .batches, .parts, .regions, .mem, .bpm, .store, .alarms, .tu, .out, .freeIx] s v1 := by
          refine Touches.pair e2 ?_
          refine Touches.trans ?_ (Touches.sub (allocMany_touch ..) (by decide))
          refine Touches.trans ?_ (Touches.sub (injDisable_touch ..) (by decide))
          exact Touches.refl _
        refine Touches.ite ?_ ?_
        · refine Touches.trans ?_ (Touches.sub (State.updInj_touch ..) (by decide))
          exact hv1
        · refine Touches.trans ?_ (Touches.sub (injRefuse_touch ..) (by decide))
          refine Touches.trans ?_ (Touches.sub (releaseAll_touch ..) (by decide))
          exact hv1
    · refine Touches.trans ?_ (Touches.sub (injRefuse_touch ..) (by decide))
      refine Touches.trans ?_ (Touches.sub (injDisable_touch ..) (by decide))
      exact Touches.refl _

theorem execInjEnable_touch (port : Nat) (fn : Nat) (s : State) :
    ∃ u, execInjEnable port fn s = .next u ∧ Touches [.moult, .fns, .rings, .nps, .streams, .frames, .resamplers, .relq, .batches, .parts, .regions, .mem, .bpm, .store, .alarms, .tu, .out, .freeIx] s u := by
  unfold execInjEnable
  refine Touches.iteNext ?_ ?_
  · refine Touches.done ?_
    refine Touches.trans ?_ (Touches.sub (injEnable_touch ..) (by decide))
    exact Touches.refl _
  · refine Touches.done ?_
    exact Touches.refl _

theorem injDeliver_touch (s : State) (slot : Nat) (h : Bytes) (data : Bytes) :
    Touches [.scu, .moult, .rings, .nps, .streams, .frames, .engines, .resamplers, .relq, .batches, .parts, .regions, .mem, .bpm, .store, .alarms, .tu, .out, .freeIx] s (injDeliver s slot h data) := by
  unfold injDeliver
  try conv => arg 3; zeta
  split
  · rename_i v0 v1 e2
    have hv1 : Touches [.scu, .moult, .rings, .nps, .streams, .frames, .engines, .resamplers, .relq, .batches, .parts, .regions, .mem, .bpm, .store, .alarms, .tu, .out, .freeIx] s v1 := by
      refine Touches.pair e2 ?_
      refine Touches.trans ?_ (Touches.sub (police_touch ..) (by decide))
      refine Touches.trans ?_ (Touches.sub (dgramNew_touch ..) (by decide))
      exact Touches.refl _
    refine Touches.ite ?_ ?_
    · refine Touches.trans ?_ (Touches.sub (auDamage_touch ..) (by decide))
      exact hv1
    · refine Touches.ite ?_ ?_
      · refine Touches.ite ?_ ?_
        · refine Touches.trans ?_ (Touches.sub (auClose_touch ..) (by decide))
          refine Touches.ite ?_ ?_
          · refine Touches.trans ?_ (Touches.sub (timelineRestart_touch ..) (by decide))
            exact hv1
          · exact hv1
        · refine Touches.ite ?_ ?_
          · refine Touches.trans ?_ (Touches.sub (timelineRestart_touch ..) (by decide))
            exact hv1
          · exact hv1
      · split
        · rename_i v3 e4
          have hv3 : Touches [.scu, .moult, .rings, .nps, .streams, .frames, .engines, .resamplers, .relq, .batches, .parts, .regions, .mem, .bpm, .store, .alarms, .tu, .out, .freeIx] s v3 := by
            refine Touches.trans ?_ (Touches.sub (auRefused_touch _ _ _ _ e4) (by decide))
            refine Touches.ite ?_ ?_
            · refine Touches.trans ?_ (Touches.sub (auOpen_touch ..) (by decide))
              refine Touches.ite ?_ ?_
              · refine Touches.trans ?_ (Touches.sub (auClose_touch ..) (by decide))
                refine Touches.ite ?_ ?_
                · refine Touches.trans ?_ (Touches.sub (timelineRestart_touch ..) (by decide))
                  exact hv1
                · exact hv1
              · refine Touches.ite ?_ ?_
                · refine Touches.trans ?_ (Touches.sub (timelineRestart_touch ..) (by decide))
                  exact hv1
                · exact hv1
            · refine Touches.ite ?_ ?_
              · refine Touches.trans ?_ (Touches.sub (auClose_touch ..) (by decide))
                refine Touches.ite ?_ ?_
                · refine Touches.trans ?_ (Touches.sub (timelineRestart_touch ..) (by decide))
                  exact hv1
                · exact hv1
              · refine Touches.ite ?_ ?_
                · refine Touches.trans ?_ (Touches.sub (timelineRestart_touch ..) (by decide))
                  exact hv1
                · exact hv1
          refine Touches.trans ?_ (Touches.sub (auDamage_touch ..) (by decide))
          refine Touches.trans ?_ (Touches.sub (ingCount_touch ..) (by decide))
          exact hv3
        · refine Touches.ite ?_ ?_
          · refine Touches.trans ?_ (Touches.sub (auClose_touch ..) (by decide))
            refine Touches.trans ?_ (Touches.sub (auAppend_touch ..) (by decide))
            refine Touches.trans ?_ (Touches.sub (ingCount_touch ..) (by decide))
            refine Touches.trans ?_ (Touches.sub (ingCount_touch ..) (by decide))
            refine Touches.trans ?_ (Touches.sub (State.updIng_touch ..) (by decide))
            refine Touches.ite ?_ ?_
            · refine Touches.trans ?_ (Touches.sub (auOpen_touch ..) (by decide))
              refine Touches.ite ?_ ?_
              · refine Touches.trans ?_ (Touches.sub (auClose_touch ..) (by decide))
                refine Touches.ite ?_ ?_
                · refine Touches.trans ?_ (Touches.sub (timelineRestart_touch ..) (by decide))
                  exact hv1
                · exact hv1
              · refine Touches.ite ?_ ?_
                · refine Touches.trans ?_ (Touches.sub (timelineRestart_touch ..) (by decide))
                  exact hv1
                · exact hv1
            · refine Touches.ite ?_ ?_
              · refine Touches.trans ?_ (Touches.sub (auClose_touch ..) (by decide))
                refine Touches.ite ?_ ?_
                · refine Touches.trans ?_ (Touches.sub (timelineRestart_touch ..) (by decide))
                  exact hv1
                · exact hv1
              · refine Touches.ite ?_ ?_
                · refine Touches.trans ?_ (Touches.sub (timelineRestart_touch ..) (by decide))
                  exact hv1
                · exact hv1
          · refine Touches.trans ?_ (Touches.sub (auAppend_touch ..) (by decide))
            refine Touches.trans ?_ (Touches.sub (ingCount_touch ..) (by decide))
            refine Touches.trans ?_ (Touches.sub (ingCount_touch ..) (by decide))
            refine Touches.trans ?_ (Touches.sub (State.updIng_touch ..) (by decide))
            refine Touches.ite ?_ ?_
            · refine Touches.trans ?_ (Touches.sub (auOpen_touch ..) (by decide))
              refine Touches.ite ?_ ?_
              · refine Touches.trans ?_ (Touches.sub (auClose_touch ..) (by decide))
                refine Touches.ite ?_ ?_
                · refine Touches.trans ?_ (Touches.sub (timelineRestart_touch ..) (by decide))
                  exact hv1
                · exact hv1
              · refine Touches.ite ?_ ?_
                · refine Touches.trans ?_ (Touches.sub (timelineRestart_touch ..) (by decide))
                  exact hv1
                · exact hv1
            · refine Touches.ite ?_ ?_
              · refine Touches.trans ?_ (Touches.sub (auClose_touch ..) (by decide))
                refine Touches.ite ?_ ?_
                · refine Touches.trans ?_ (Touches.sub (timelineRestart_touch ..) (by decide))
                  exact hv1
                · exact hv1
              · refine Touches.ite ?_ ?_
                · refine Touches.trans ?_ (Touches.sub (timelineRestart_touch ..) (by decide))
                  exact hv1
                · exact hv1

theorem injConsume_touch (s : State) (port : Nat) (fn : Nat) (h : Bytes) :
    Touches [.scu, .moult, .fns, .rings, .nps, .streams, .frames, .engines, .resamplers, .relq, .batches, .parts, .regions, .mem, .bpm, .store, .alarms, .tu, .out, .freeIx] s (injConsume s port fn h) := by
  unfold injConsume
  try conv => arg 3; zeta
  refine Touches.ite ?_ ?_
  · refine Touches.trans ?_ (Touches.sub (injAdvance_touch ..) (by decide))
    exact Touches.refl _
  · refine Touches.trans ?_ (Touches.sub (injAdvance_touch ..) (by decide))
    refine Touches.ite ?_ ?_
    · refine Touches.ite ?_ ?_
      · refine Touches.trans ?_ (Touches.sub (injDeliver_touch ..) (by decide))
        exact Touches.refl _
      · exact Touches.refl _
    · refine Touches.trans ?_ (Touches.sub (raiseLogOf_touch ..) (by decide))
      exact Touches.refl _

theorem execInjPoll_touch (port : Nat) (fn : Nat) (s : State) :
    ∃ u, execInjPoll port fn s = .next u ∧ Touches [.scu, .moult, .fns, .rings, .nps, .streams, .frames, .engines, .resamplers, .relq, .batches, .parts, .regions, .mem, .bpm, .store, .alarms, .tu, .out, .freeIx] s u := by
  unfold execInjPoll
  try conv => enter [1, t, 1, 1]; zeta
  refine Touches.iteNext ?_ ?_
  · refine Touches.done ?_
    exact Touches.refl _
  · refine Touches.iteNext ?_ ?_
    · refine Touches.done ?_
      refine Touches.trans ?_ (Touches.sub (State.updInj_touch ..) (by decide))
      exact Touches.refl _
    · refine Touches.iteNext ?_ ?_
      · refine Touches.done ?_
        refine Touches.trans ?_ (Touches.sub (State.updInj_touch ..) (by decide))
        exact Touches.refl _
      · refine Touches.iteNext ?_ ?_
        · refine Touches.done ?_
          refine Touches.trans ?_ (Touches.sub (injDesync_touch ..) (by decide))
          exact Touches.refl _
        · refine Touches.iteNext ?_ ?_
          · refine Touches.done ?_
            refine Touches.trans ?_ (Touches.sub (injConsume_touch ..) (by decide))
            exact Touches.refl _
          · refine Touches.done ?_
            refine Touches.trans ?_ (Touches.sub (State.updInj_touch ..) (by decide))
            exact Touches.refl _

theorem execInjTrailerTimeout_touch (port : Nat) (fn : Nat) (s : State) :
    ∃ u, execInjTrailerTimeout port fn s = .next u ∧ Touches [.scu, .moult, .fns, .rings, .nps, .streams, .frames, .engines, .resamplers, .relq, .batches, .parts, .regions, .mem, .bpm, .store, .alarms, .tu, .out, .freeIx] s u := by
  unfold execInjTrailerTimeout
  try conv => enter [1, t, 1, 1]; zeta
  refine Touches.iteNext ?_ ?_
  · refine Touches.done ?_
    exact Touches.refl _
  · refine Touches.iteNext ?_ ?_
    · refine Touches.done ?_
      refine Touches.trans ?_ (Touches.sub (State.updInj_touch ..) (by decide))
      exact Touches.refl _
    · refine Touches.iteNext ?_ ?_
      · refine Touches.done ?_
        refine Touches.trans ?_ (Touches.sub (injConsume_touch ..) (by decide))
        exact Touches.refl _
      · refine Touches.done ?_
        refine Touches.trans ?_ (Touches.sub (raiseLogOf_touch ..) (by decide))
        refine Touches.trans ?_ (Touches.sub (injAdvance_touch ..) (by decide))
        refine Touches.trans ?_ (Touches.sub (State.updInj_touch ..) (by decide))
        refine Touches.ite ?_ ?_
        · refine Touches.trans ?_ (Touches.sub (auDamage_touch ..) (by decide))
          exact Touches.refl _
        · exact Touches.refl _

theorem streamPause_touch (s : State) (slot : Nat) :
    Touches [.streams, .store] s (streamPause s slot) := by
  unfold streamPause
  try conv => arg 3; zeta
  refine Touches.trans ?_ (Touches.sub (State.updStream_touch ..) (by decide))
  refine Touches.ite ?_ ?_
  · refine Touches.trans ?_ (Touches.sub (recPut_touch ..) (by decide))
    exact Touches.refl _
  · exact Touches.refl _

theorem perstFall_touch (s : State) (port : Nat) :
    Touches [.ports, .aon] s (perstFall s port) := by
  unfold perstFall
  try conv => arg 3; zeta
  refine Touches.trans ?_ (Touches.sub (inputFall_touch ..) (by decide))
  refine Touches.trans ?_ (Touches.sub (State.updPort_touch ..) (by decide))
  exact Touches.refl _

theorem execInputStuckRelease_touch (input : Nat) (s : State) :
    ∃ u, execInputStuckRelease input s = .next u ∧ Touches [.rings, .ports, .streams, .frames, .batches, .ctxs, .parts, .regions, .blocks, .cells, .mem, .bpm, .store, .pac, .alarms, .aon, .tu, .out, .freeIx] s u := by
  unfold execInputStuckRelease
  refine Touches.iteNext ?_ ?_
  · refine Touches.done ?_
    exact Touches.refl _
  · refine Touches.iteNext ?_ ?_
    · refine Touches.done ?_
      refine Touches.trans ?_ (Touches.sub (pwrbrkFall_touch ..) (by decide))
      exact Touches.refl _
    · refine Touches.iteNext ?_ ?_
      · refine Touches.done ?_
        refine Touches.trans ?_ (Touches.sub (thermFall_touch ..) (by decide))
        exact Touches.refl _
      · refine Touches.done ?_
        refine Touches.trans ?_ (Touches.sub (perstFall_touch ..) (by decide))
        exact Touches.refl _

theorem sweepAll_touch (s : State) :
    Touches [.moult, .rings, .streams, .frames, .parts, .bpm, .alarms, .tu, .out, .freeIx] s (sweepAll s) := by
  unfold sweepAll
  refine Touches.trans ?_ (Touches.sub (sweepSlots_touch ..) (by decide))
  exact Touches.refl _

theorem ringServe_touch (s : State) (port : Nat) (fn : Nat) (ring : Nat) :
    Touches [.moult, .rings, .streams, .frames, .parts, .bpm, .alarms, .tu, .out, .freeIx] s (ringServe s port fn ring) := by
  unfold ringServe
  try conv => arg 3; zeta
  refine Touches.trans ?_ (Touches.sub (sweepAll_touch ..) (by decide))
  refine Touches.trans ?_ (Touches.sub (pumpEvents_touch ..) (by decide))
  refine Touches.ite ?_ ?_
  · refine Touches.trans ?_ (Touches.sub (ringDrain_touch ..) (by decide))
    refine Touches.trans ?_ (Touches.sub (State.updRing_touch ..) (by decide))
    exact Touches.refl _
  · refine Touches.trans ?_ (Touches.sub (ringWant_touch ..) (by decide))
    refine Touches.trans ?_ (Touches.sub (ringDrain_touch ..) (by decide))
    refine Touches.trans ?_ (Touches.sub (State.updRing_touch ..) (by decide))
    exact Touches.refl _

theorem fnResume_touch (s : State) (port : Nat) (fn : Nat) :
    Touches [.moult, .rings, .streams, .frames, .parts, .bpm, .alarms, .tu, .out, .freeIx] s (fnResume s port fn) := by
  unfold fnResume
  refine Touches.foldl (fun y0 _ => ?_) ?_ _
  · refine Touches.ite ?_ ?_
    · refine Touches.trans ?_ (Touches.sub (ringServe_touch ..) (by decide))
      exact Touches.refl _
    · exact Touches.refl _
  · exact Touches.refl _

theorem linkFollow_touch (s : State) (port : Nat) :
    Touches [.ports] s (linkFollow s port) := by
  unfold linkFollow
  refine Touches.ite ?_ ?_
  · refine Touches.trans ?_ (Touches.sub (State.updPort_touch ..) (by decide))
    exact Touches.refl _
  · exact Touches.refl _

theorem dStateSet_touch (s : State) (port : Nat) (fn : Nat) (d : Nat) :
    Touches [.moult, .fns, .rings, .ports, .streams, .frames, .parts, .bpm, .alarms, .tu, .out, .freeIx] s (dStateSet s port fn d) := by
  unfold dStateSet
  try conv => arg 3; zeta
  refine Touches.ite ?_ ?_
  · refine Touches.ite ?_ ?_
    · refine Touches.trans ?_ (Touches.sub (fnResume_touch ..) (by decide))
      refine Touches.trans ?_ (Touches.sub (linkFollow_touch ..) (by decide))
      refine Touches.trans ?_ (Touches.sub (State.updFn_touch_fns _ _ _ _ (fun _ => rfl)) (by decide))
      exact Touches.refl _
    · refine Touches.trans ?_ (Touches.sub (linkFollow_touch ..) (by decide))
      refine Touches.trans ?_ (Touches.sub (State.updFn_touch_fns _ _ _ _ (fun _ => rfl)) (by decide))
      exact Touches.refl _
  · exact Touches.refl _

theorem ringUnbind_touch (s : State) (port : Nat) (fn : Nat) (ring : Nat) :
    Touches [.moult, .rings, .streams, .frames, .parts, .bpm, .alarms, .tu, .out, .freeIx] s (ringUnbind s port fn ring) := by
  unfold ringUnbind
  refine Touches.ite ?_ ?_
  · refine Touches.trans ?_ (Touches.sub (sweepAll_touch ..) (by decide))
    refine Touches.trans ?_ (Touches.sub (ringStop_touch ..) (by decide))
    exact Touches.refl _
  · exact Touches.refl _

theorem ringBind_touch (s : State) (port : Nat) (fn : Nat) (ring : Nat) :
    Touches [.moult, .rings, .streams, .frames, .parts, .bpm, .alarms, .tu, .out, .freeIx] s (ringBind s port fn ring) := by
  unfold ringBind
  try conv => arg 3; zeta
  refine Touches.ite ?_ ?_
  · refine Touches.trans ?_ (Touches.sub (pumpEvents_touch ..) (by decide))
    refine Touches.trans ?_ (Touches.sub (State.updRing_touch ..) (by decide))
    refine Touches.trans ?_ (Touches.sub (ringUnbind_touch ..) (by decide))
    exact Touches.refl _
  · refine Touches.trans ?_ (Touches.sub (raiseIrq_touch ..) (by decide))
    refine Touches.trans ?_ (Touches.sub (State.updRing_touch ..) (by decide))
    refine Touches.trans ?_ (Touches.sub (ringUnbind_touch ..) (by decide))
    exact Touches.refl _

theorem execRingBind_touch (port : Nat) (fn : Nat) (s : State) :
    ∃ u, execRingBind port fn s = .next u ∧ Touches [.moult, .rings, .streams, .frames, .parts, .bpm, .alarms, .tu, .out, .freeIx] s u := by
  unfold execRingBind
  refine Touches.iteNext ?_ ?_
  · refine Touches.done ?_
    refine Touches.trans ?_ (Touches.sub (ringBind_touch ..) (by decide))
    exact Touches.refl _
  · refine Touches.done ?_
    exact Touches.refl _

theorem portCount_touch (s : State) (port : Nat) (k : Nat) :
    Touches [.ports] s (portCount s port k) := by
  unfold portCount
  refine Touches.trans ?_ (Touches.sub (hpCount_touch ..) (by decide))
  exact Touches.refl _

theorem partDiscard_touch (s : State) (p : Nat) :
    Touches [.moult, .rings, .nps, .streams, .frames, .resamplers, .relq, .batches, .parts, .regions, .mem, .bpm, .store, .alarms, .tu, .out, .freeIx] s (partDiscard s p) := by
  unfold partDiscard
  refine Touches.foldl (fun y0 _ => ?_) ?_ _
  · refine Touches.trans ?_ (Touches.sub (streamDiscard_touch ..) (by decide))
    exact Touches.refl _
  · exact Touches.refl _

theorem partReset_touch (s : State) (p : Nat) :
    Touches [.rings, .streams, .batches, .ctxs, .parts, .regions, .blocks, .cells, .mem, .bpm, .store, .alarms, .tu, .out, .freeIx] s (partReset s p) := by
  unfold partReset
  try conv => arg 3; zeta
  refine Touches.trans ?_ (Touches.sub (clearPartition_touch ..) (by decide))
  refine Touches.foldl (fun y2 _ => ?_) ?_ _
  · refine Touches.trans ?_ (Touches.sub (batchDrop_touch ..) (by decide))
    exact Touches.refl _
  · refine Touches.foldl (fun y1 _ => ?_) ?_ _
    · refine Touches.trans ?_ (Touches.sub (dropCtx_touch ..) (by decide))
      exact Touches.refl _
    · refine Touches.foldl (fun y0 _ => ?_) ?_ _
      · refine Touches.trans ?_ (Touches.sub (streamPause_touch ..) (by decide))
        exact Touches.refl _
      · exact Touches.refl _

theorem flrStart_touch (s : State) (port : Nat) (fn : Nat) :
    Touches [.moult, .flash, .key, .signer, .fns, .rings, .nps, .streams, .frames, .resamplers, .relq, .batches, .ctxs, .parts, .regions, .blocks, .cells, .mem, .bpm, .store, .alarms, .tu, .out, .freeIx] s (flrStart s port fn) := by
  unfold flrStart
  try conv => arg 3; zeta
  refine Touches.ite ?_ ?_
  · exact Touches.refl _
  · refine Touches.trans ?_ (Touches.sub (State.updFn_touch ..) (by decide))
    refine Touches.foldl (fun y1 _ => ?_) ?_ _
    · refine Touches.trans ?_ (Touches.sub (partReset_touch ..) (by decide))
      exact Touches.refl _
    · refine Touches.trans ?_ (Touches.sub (injDisable_touch ..) (by decide))
      refine Touches.trans ?_ (Touches.sub (State.updFn_touch_fns _ _ _ _ (fun _ => rfl)) (by decide))
      refine Touches.foldl (fun y0 _ => ?_) ?_ _
      · refine Touches.trans ?_ (Touches.sub (partDiscard_touch ..) (by decide))
        exact Touches.refl _
      · refine Touches.trans ?_ (Touches.sub (attReset_touch ..) (by decide))
        refine Touches.ite ?_ ?_
        · refine Touches.trans ?_ (Touches.sub (keyAbort_touch ..) (by decide))
          refine Touches.trans ?_ (Touches.sub (flashReset_touch ..) (by decide))
          refine Touches.trans ?_ (Touches.sub (moultCut_touch ..) (by decide))
          exact Touches.refl _
        · exact Touches.refl _

theorem portSilence_touch (s : State) (port : Nat) : Touches [.fns, .waits] s (portSilence s port) := by
  refine ⟨fun p hp => ?_⟩
  cases p <;> first
    | rfl
    | exact absurd (by decide) hp
    | skip
  intro k
  show fnRings (mget (portSilence s port).fns k) = _
  unfold portSilence
  rw [mget_mmap _ _ _ (by split <;> rfl)]
  split <;> rfl

theorem portReset_touch (s : State) (port : Nat) (train : Bool) :
    Touches [.moult, .flash, .key, .signer, .fns, .rings, .ports, .nps, .streams, .frames, .resamplers, .relq, .batches, .ctxs, .parts, .regions, .blocks, .cells, .mem, .bpm, .store, .alarms, .aon, .tu, .out, .waits, .freeIx] s (portReset s port train) := by
  unfold portReset
  try conv => arg 3; zeta
  refine Touches.foldl (fun y0 _ => ?_) ?_ _
  · refine Touches.trans ?_ (Touches.sub (flrStart_touch ..) (by decide))
    exact Touches.refl _
  · refine Touches.trans ?_ (Touches.sub (portSilence_touch ..) (by decide))
    refine Touches.trans ?_ (Touches.sub (State.updPort_touch ..) (by decide))
    refine Touches.ite ?_ ?_
    · refine Touches.ofMk ?_ kp kp kp kp kp kp kp kp kp kp kp kp kp kp kp kp kp kp kp kp kp kp kp kp kp kp kp kp kp kp ch kp kp kp kp kp kp kp kp
      exact Touches.refl _
    · refine Touches.ofMk ?_ kp kp kp kp kp kp kp kp kp kp kp kp kp kp kp kp kp kp kp kp kp kp kp kp kp kp kp kp kp kp ch kp kp kp kp kp kp kp kp
      exact Touches.refl _

theorem execPerstAssert_touch (port : Nat) (s : State) :
    ∃ u, execPerstAssert port s = .next u ∧ Touches [.moult, .flash, .key, .signer, .fns, .rings, .ports, .nps, .streams, .frames, .resamplers, .relq, .batches, .ctxs, .parts, .regions, .blocks, .cells, .mem, .bpm, .store, .alarms, .aon, .tu, .out, .waits, .freeIx] s u := by
  unfold execPerstAssert
  try conv => enter [1, t, 1, 1]; zeta
  refine Touches.iteNext ?_ ?_
  · refine Touches.done ?_
    exact Touches.refl _
  · refine Touches.iteNext ?_ ?_
    · refine Touches.done ?_
      refine Touches.trans ?_ (Touches.sub (inputRise_touch ..) (by decide))
      refine Touches.trans ?_ (Touches.sub (State.updPort_touch ..) (by decide))
      exact Touches.refl _
    · refine Touches.done ?_
      refine Touches.trans ?_ (Touches.sub (portReset_touch ..) (by decide))
      refine Touches.trans ?_ (Touches.sub (portCount_touch ..) (by decide))
      refine Touches.trans ?_ (Touches.sub (inputRise_touch ..) (by decide))
      refine Touches.trans ?_ (Touches.sub (State.updPort_touch ..) (by decide))
      exact Touches.refl _

theorem intaSync_touch (s : State) (port : Nat) :
    Touches [.ports, .out] s (intaSync s port) := by
  unfold intaSync
  try conv => arg 3; zeta
  refine Touches.ite ?_ ?_
  · exact Touches.refl _
  · refine Touches.ite ?_ ?_
    · refine Touches.trans ?_ (Touches.sub (portCount_touch ..) (by decide))
      refine Touches.trans ?_ (Touches.sub (emit_touch ..) (by decide))
      refine Touches.trans ?_ (Touches.sub (State.updPort_touch ..) (by decide))
      exact Touches.refl _
    · refine Touches.trans ?_ (Touches.sub (emit_touch ..) (by decide))
      refine Touches.trans ?_ (Touches.sub (State.updPort_touch ..) (by decide))
      exact Touches.refl _

theorem configWrite_touch (s : State) (port : Nat) (fn : Nat) (reg : Nat) (v : Word) :
    Touches [.moult, .flash, .key, .signer, .fns, .rings, .ports, .nps, .streams, .frames, .resamplers, .relq, .batches, .ctxs, .parts, .regions, .blocks, .cells, .mem, .bpm, .store, .alarms, .aon, .tu, .out, .freeIx] s (configWrite s port fn reg v) := by
  unfold configWrite
  try conv => arg 3; zeta
  refine Touches.ite ?_ ?_
  · refine Touches.trans ?_ (Touches.sub (intaSync_touch ..) (by decide))
    refine Touches.ite ?_ ?_
    · refine Touches.trans ?_ (Touches.sub (fnResume_touch ..) (by decide))
      refine Touches.trans ?_ (Touches.sub (State.updFn_touch_fns _ _ _ _ (fun _ => rfl)) (by decide))
      exact Touches.refl _
    · refine Touches.trans ?_ (Touches.sub (State.updFn_touch_fns _ _ _ _ (fun _ => rfl)) (by decide))
      exact Touches.refl _
  · refine Touches.ite ?_ ?_
    · refine Touches.trans ?_ (Touches.sub (dStateSet_touch ..) (by decide))
      refine Touches.trans ?_ (Touches.sub (State.updFn_touch_fns _ _ _ _ (fun _ => rfl)) (by decide))
      exact Touches.refl _
    · refine Touches.ite ?_ ?_
      · refine Touches.ite ?_ ?_
        · refine Touches.trans ?_ (Touches.sub (intaSync_touch ..) (by decide))
          refine Touches.trans ?_ (Touches.sub (flrStart_touch ..) (by decide))
          refine Touches.trans ?_ (Touches.sub (portCount_touch ..) (by decide))
          refine Touches.ofMk ?_ kp kp kp kp kp kp kp kp kp kp kp kp kp kp kp kp kp kp kp kp kp kp kp kp kp kp kp kp kp kp ch kp kp kp kp kp kp kp kp
          refine Touches.trans ?_ (Touches.sub (State.updFn_touch_fns _ _ _ _ (fun _ => rfl)) (by decide))
          exact Touches.refl _
        · refine Touches.trans ?_ (Touches.sub (State.updFn_touch_fns _ _ _ _ (fun _ => rfl)) (by decide))
          exact Touches.refl _
      · refine Touches.ite ?_ ?_
        · refine Touches.trans ?_ (Touches.sub (State.updFn_touch_fns _ _ _ _ (fun _ => rfl)) (by decide))
          exact Touches.refl _
        · exact Touches.refl _

theorem unsupported_touch (s : State) (port : Nat) (fn : Nat) :
    Touches [.ports, .out] s (unsupported s port fn) := by
  unfold unsupported
  refine Touches.trans ?_ (Touches.sub (portCount_touch ..) (by decide))
  refine Touches.trans ?_ (Touches.sub (emit_touch ..) (by decide))
  exact Touches.refl _

theorem execConfigRequest_touch (port : Nat) (fn : Nat) (reg : Nat) (write : Option Word) (s : State) :
    ∃ u, execConfigRequest port fn reg write s = .next u ∧ Touches [.moult, .flash, .key, .signer, .fns, .rings, .ports, .nps, .streams, .frames, .resamplers, .relq, .batches, .ctxs, .parts, .regions, .blocks, .cells, .mem, .bpm, .store, .alarms, .aon, .tu, .out, .freeIx] s u := by
  unfold execConfigRequest
  refine Touches.iteNext ?_ ?_
  · refine Touches.done ?_
    exact Touches.refl _
  · refine Touches.iteNext ?_ ?_
    · refine Touches.done ?_
      refine Touches.trans ?_ (Touches.sub (emit_touch ..) (by decide))
      exact Touches.refl _
    · refine Touches.iteNext ?_ ?_
      · refine Touches.done ?_
        refine Touches.trans ?_ (Touches.sub (unsupported_touch ..) (by decide))
        exact Touches.refl _
      · split
        · refine Touches.done ?_
          refine Touches.trans ?_ (Touches.sub (emit_touch ..) (by decide))
          exact Touches.refl _
        · refine Touches.done ?_
          refine Touches.trans ?_ (Touches.sub (emit_touch ..) (by decide))
          refine Touches.trans ?_ (Touches.sub (configWrite_touch ..) (by decide))
          exact Touches.refl _

theorem pmeSend_touch (s : State) (port : Nat) (fn : Nat) :
    Touches [.ports, .out] s (pmeSend s port fn) := by
  unfold pmeSend
  refine Touches.ite ?_ ?_
  · refine Touches.trans ?_ (Touches.sub (portCount_touch ..) (by decide))
    refine Touches.trans ?_ (Touches.sub (emit_touch ..) (by decide))
    refine Touches.trans ?_ (Touches.sub (State.updPort_touch ..) (by decide))
    exact Touches.refl _
  · refine Touches.ite ?_ ?_
    · refine Touches.trans ?_ (Touches.sub (State.updPort_touch ..) (by decide))
      exact Touches.refl _
    · exact Touches.refl _

theorem execPmeSignal_touch (port : Nat) (fn : Nat) (s : State) :
    ∃ u, execPmeSignal port fn s = .next u ∧ Touches [.fns, .ports, .out] s u := by
  unfold execPmeSignal
  try conv => enter [1, t, 1, 1]; zeta
  refine Touches.iteNext ?_ ?_
  · refine Touches.done ?_
    refine Touches.trans ?_ (Touches.sub (pmeSend_touch ..) (by decide))
    refine Touches.trans ?_ (Touches.sub (State.updFn_touch_fns _ _ _ _ (fun _ => rfl)) (by decide))
    exact Touches.refl _
  · refine Touches.done ?_
    exact Touches.refl _

theorem execPmeRepeat_touch (port : Nat) (fn : Nat) (s : State) :
    ∃ u, execPmeRepeat port fn s = .next u ∧ Touches [.ports, .out] s u := by
  unfold execPmeRepeat
  refine Touches.iteNext ?_ ?_
  · refine Touches.done ?_
    refine Touches.trans ?_ (Touches.sub (pmeSend_touch ..) (by decide))
    exact Touches.refl _
  · refine Touches.done ?_
    exact Touches.refl _

theorem execHotReset_touch (port : Nat) (s : State) :
    ∃ u, execHotReset port s = .next u ∧ Touches [.moult, .flash, .key, .signer, .fns, .rings, .ports, .nps, .streams, .frames, .resamplers, .relq, .batches, .ctxs, .parts, .regions, .blocks, .cells, .mem, .bpm, .store, .alarms, .aon, .tu, .out, .waits, .freeIx] s u := by
  unfold execHotReset
  refine Touches.iteNext ?_ ?_
  · refine Touches.done ?_
    refine Touches.trans ?_ (Touches.sub (portReset_touch ..) (by decide))
    refine Touches.trans ?_ (Touches.sub (portCount_touch ..) (by decide))
    exact Touches.refl _
  · refine Touches.done ?_
    exact Touches.refl _

theorem ringFail_touch (s : State) (port : Nat) (fn : Nat) (ring : Nat) (cause : Nat) :
    Touches [.moult, .rings, .streams, .frames, .parts, .bpm, .alarms, .tu, .out, .freeIx] s (ringFail s port fn ring cause) := by
  unfold ringFail
  refine Touches.trans ?_ (Touches.sub (sweepAll_touch ..) (by decide))
  refine Touches.trans ?_ (Touches.sub (raiseIrq_touch ..) (by decide))
  refine Touches.trans ?_ (Touches.sub (ringStop_touch ..) (by decide))
  exact Touches.refl _

theorem ringConsumer_touch (s : State) (port : Nat) (fn : Nat) (ring : Nat) (b : Bytes) :
    Touches [.moult, .rings, .streams, .frames, .parts, .bpm, .alarms, .tu, .out, .freeIx] s (ringConsumer s port fn ring b) := by
  unfold ringConsumer
  try conv => arg 3; zeta
  refine Touches.ite ?_ ?_
  · refine Touches.trans ?_ (Touches.sub (State.updRing_touch ..) (by decide))
    exact Touches.refl _
  · refine Touches.ite ?_ ?_
    · refine Touches.trans ?_ (Touches.sub (ringFail_touch ..) (by decide))
      exact Touches.refl _
    · refine Touches.ite ?_ ?_
      · refine Touches.trans ?_ (Touches.sub (ringServe_touch ..) (by decide))
        refine Touches.trans ?_ (Touches.sub (State.updRing_touch ..) (by decide))
        exact Touches.refl _
      · refine Touches.trans ?_ (Touches.sub (State.updRing_touch ..) (by decide))
        exact Touches.refl _

theorem streamResume_touch (s : State) (slot : Nat) :
    Touches [.rings, .nps, .streams, .parts, .mem, .bpm, .store, .alarms, .tu, .out, .freeIx] s (streamResume s slot) := by
  unfold streamResume
  refine Touches.ite ?_ ?_
  · refine Touches.trans ?_ (Touches.sub (streamAdd_touch ..) (by decide))
    refine Touches.trans ?_ (Touches.sub (State.updStream_touch ..) (by decide))
    exact Touches.refl _
  · exact Touches.refl _

theorem execIntaChange_touch (port : Nat) (s : State) :
    ∃ u, execIntaChange port s = .next u ∧ Touches [.ports, .out] s u := by
  unfold execIntaChange
  refine Touches.done ?_
  refine Touches.trans ?_ (Touches.sub (intaSync_touch ..) (by decide))
  exact Touches.refl _

theorem execFlr_touch (port : Nat) (fn : Nat) (s : State) :
    ∃ u, execFlr port fn s = .next u ∧ Touches [.moult, .flash, .key, .signer, .fns, .rings, .ports, .nps, .streams, .frames, .resamplers, .relq, .batches, .ctxs, .parts, .regions, .blocks, .cells, .mem, .bpm, .store, .alarms, .aon, .tu, .out, .freeIx] s u := by
  unfold execFlr
  try conv => enter [1, t, 1, 1]; zeta
  refine Touches.iteNext ?_ ?_
  · refine Touches.done ?_
    exact Touches.refl _
  · refine Touches.done ?_
    refine Touches.trans ?_ (Touches.sub (intaSync_touch ..) (by decide))
    refine Touches.trans ?_ (Touches.sub (flrStart_touch ..) (by decide))
    refine Touches.trans ?_ (Touches.sub (portCount_touch ..) (by decide))
    refine Touches.ofMk ?_ kp kp kp kp kp kp kp kp kp kp kp kp kp kp kp kp kp kp kp kp kp kp kp kp kp kp kp kp kp kp ch kp kp kp kp kp kp kp kp
    exact Touches.refl _

theorem execPerstDeassert_touch (port : Nat) (s : State) :
    ∃ u, execPerstDeassert port s = .next u ∧ Touches [.ports, .aon] s u := by
  unfold execPerstDeassert
  refine Touches.iteNext ?_ ?_
  · refine Touches.done ?_
    exact Touches.refl _
  · refine Touches.done ?_
    refine Touches.trans ?_ (Touches.sub (perstFall_touch ..) (by decide))
    exact Touches.refl _

theorem execRingHoldTimeout_touch (port : Nat) (fn : Nat) (ring : Nat) (s : State) :
    ∃ u, execRingHoldTimeout port fn ring s = .next u ∧ Touches [.moult, .rings, .streams, .frames, .parts, .bpm, .alarms, .tu, .out, .freeIx] s u := by
  unfold execRingHoldTimeout
  try conv => enter [1, t, 1, 1]; zeta
  refine Touches.done ?_
  refine Touches.trans ?_ (Touches.sub (sweepAll_touch ..) (by decide))
  refine Touches.trans ?_ (Touches.sub (ringDrain_touch ..) (by decide))
  refine Touches.trans ?_ (Touches.sub (ringDropOldest_touch ..) (by decide))
  exact Touches.refl _

theorem irqClear_touch (s : State) (port : Nat) (fn : Nat) (value : Word) (sets : Word) :
    Touches [.rings, .ports, .out] s (irqClear s port fn value sets) := by
  unfold irqClear
  refine Touches.trans ?_ (Touches.sub (intaSync_touch ..) (by decide))
  refine Touches.trans ?_ (Touches.sub (State.updFn_touch_rings _ _ _ _ (fun _ => rfl)) (by decide))
  exact Touches.refl _

theorem execIrqStatusClear_touch (port : Nat) (fn : Nat) (value : Word) (sets : Word) (s : State) :
    ∃ u, execIrqStatusClear port fn value sets s = .next u ∧ Touches [.rings, .ports, .out] s u := by
  unfold execIrqStatusClear
  refine Touches.done ?_
  refine Touches.trans ?_ (Touches.sub (irqClear_touch ..) (by decide))
  exact Touches.refl _

theorem execRingConsumerRead_touch (port : Nat) (fn : Nat) (ring : Nat) (r : HostRead) (s : State) :
    ∃ u, execRingConsumerRead port fn ring r s = .next u ∧ Touches [.moult, .rings, .ports, .streams, .frames, .parts, .bpm, .alarms, .tu, .out, .freeIx] s u := by
  unfold execRingConsumerRead
  try conv => enter [1, t, 1, 1]; zeta
  refine Touches.iteNext ?_ ?_
  · refine Touches.done ?_
    exact Touches.refl _
  · split
    · refine Touches.done ?_
      refine Touches.trans ?_ (Touches.sub (ringFail_touch ..) (by decide))
      refine Touches.trans ?_ (Touches.sub (readCount_touch ..) (by decide))
      refine Touches.trans ?_ (Touches.sub (emit_touch ..) (by decide))
      exact Touches.refl _
    · refine Touches.done ?_
      refine Touches.trans ?_ (Touches.sub (ringConsumer_touch ..) (by decide))
      refine Touches.trans ?_ (Touches.sub (emit_touch ..) (by decide))
      exact Touches.refl _

theorem execRingIrqDelay_touch (port : Nat) (fn : Nat) (ring : Nat) (s : State) :
    ∃ u, execRingIrqDelay port fn ring s = .next u ∧ Touches [.rings] s u := by
  unfold execRingIrqDelay
  try conv => enter [1, t, 1, 1]; zeta
  refine Touches.iteNext ?_ ?_
  · refine Touches.done ?_
    refine Touches.trans ?_ (Touches.sub (raiseIrq_touch ..) (by decide))
    refine Touches.trans ?_ (Touches.sub (State.updRing_touch ..) (by decide))
    exact Touches.refl _
  · refine Touches.done ?_
    exact Touches.refl _

theorem execDStateChange_touch (port : Nat) (fn : Nat) (dstate : Nat) (s : State) :
    ∃ u, execDStateChange port fn dstate s = .next u ∧ Touches [.moult, .fns, .rings, .ports, .streams, .frames, .parts, .bpm, .alarms, .tu, .out, .freeIx] s u := by
  unfold execDStateChange
  refine Touches.iteNext ?_ ?_
  · refine Touches.done ?_
    refine Touches.trans ?_ (Touches.sub (dStateSet_touch ..) (by decide))
    exact Touches.refl _
  · refine Touches.done ?_
    exact Touches.refl _

theorem execFlrComplete_touch (port : Nat) (fn : Nat) (s : State) :
    ∃ u, execFlrComplete port fn s = .next u ∧ Touches [.fns, .rings, .ports, .nps, .streams, .parts, .mem, .bpm, .store, .alarms, .tu, .out, .freeIx] s u := by
  unfold execFlrComplete
  try conv => enter [1, t, 1, 1]; zeta
  refine Touches.iteNext ?_ ?_
  · refine Touches.done ?_
    exact Touches.refl _
  · refine Touches.done ?_
    refine Touches.trans ?_ (Touches.sub (State.updPort_touch ..) (by decide))
    refine Touches.foldl (fun y0 _ => ?_) ?_ _
    · refine Touches.trans ?_ (Touches.sub (streamResume_touch ..) (by decide))
      exact Touches.refl _
    · refine Touches.trans ?_ (Touches.sub (State.updFn_touch_fns _ _ _ _ (fun _ => rfl)) (by decide))
      exact Touches.refl _

theorem execDlDown_touch (port : Nat) (s : State) :
    ∃ u, execDlDown port s = .next u ∧ Touches [.moult, .flash, .key, .signer, .fns, .rings, .ports, .nps, .streams, .frames, .resamplers, .relq, .batches, .ctxs, .parts, .regions, .blocks, .cells, .mem, .bpm, .store, .alarms, .aon, .tu, .out, .waits, .freeIx] s u := by
  unfold execDlDown
  refine Touches.iteNext ?_ ?_
  · refine Touches.done ?_
    refine Touches.trans ?_ (Touches.sub (portReset_touch ..) (by decide))
    refine Touches.trans ?_ (Touches.sub (portCount_touch ..) (by decide))
    exact Touches.refl _
  · refine Touches.done ?_
    exact Touches.refl _

theorem execPcieLinkUp_touch (port : Nat) (rate : Nat) (width : Nat) (s : State) :
    ∃ u, execPcieLinkUp port rate width s = .next u ∧ Touches [.ports, .out] s u := by
  unfold execPcieLinkUp
  refine Touches.iteNext ?_ ?_
  · refine Touches.done ?_
    refine Touches.trans ?_ (Touches.sub (intaSync_touch ..) (by decide))
    refine Touches.trans ?_ (Touches.sub (State.updPort_touch ..) (by decide))
    exact Touches.refl _
  · refine Touches.done ?_
    exact Touches.refl _

theorem execRingUnbind_touch (port : Nat) (fn : Nat) (s : State) :
    ∃ u, execRingUnbind port fn s = .next u ∧ Touches [.moult, .rings, .streams, .frames, .parts, .bpm, .alarms, .tu, .out, .freeIx] s u := by
  unfold execRingUnbind
  refine Touches.iteNext ?_ ?_
  · refine Touches.done ?_
    refine Touches.trans ?_ (Touches.sub (ringUnbind_touch ..) (by decide))
    exact Touches.refl _
  · refine Touches.done ?_
    exact Touches.refl _

theorem execPmeTurnOff_touch (port : Nat) (s : State) :
    ∃ u, execPmeTurnOff port s = .next u ∧ Touches [.ports, .out] s u := by
  unfold execPmeTurnOff
  try conv => enter [1, t, 1, 1]; zeta
  refine Touches.iteNext ?_ ?_
  · refine Touches.done ?_
    refine Touches.ite ?_ ?_
    · refine Touches.trans ?_ (Touches.sub (State.updPort_touch ..) (by decide))
      refine Touches.trans ?_ (Touches.sub (emit_touch ..) (by decide))
      exact Touches.refl _
    · refine Touches.trans ?_ (Touches.sub (emit_touch ..) (by decide))
      exact Touches.refl _
  · refine Touches.done ?_
    exact Touches.refl _

theorem searchDone_touch (s : State) (slot : Nat) (fid : Nat) :
    Touches [.moult, .rings, .streams, .frames, .parts, .mem, .bpm, .store, .alarms, .tu, .out, .freeIx] s (searchDone s slot fid) := by
  unfold searchDone
  try conv => arg 3; zeta
  refine Touches.trans ?_ (Touches.sub (sweepSlots_touch ..) (by decide))
  refine Touches.trans ?_ (Touches.sub (frameStage_touch ..) (by decide))
  refine Touches.trans ?_ (Touches.sub (State.updStream_touch ..) (by decide))
  refine Touches.trans ?_ (Touches.sub (State.updFrame_touch ..) (by decide))
  refine Touches.trans ?_ (Touches.sub (recSet_touch ..) (by decide))
  exact Touches.refl _

theorem cbDrop_touch (s : State) (slot : Nat) :
    Touches [.streams, .mem, .store] s (cbDrop s slot) := by
  unfold cbDrop
  try conv => arg 3; zeta
  refine Touches.trans ?_ (Touches.sub (recSet_touch ..) (by decide))
  refine Touches.trans ?_ (Touches.sub (State.updStream_touch ..) (by decide))
  exact Touches.refl _

theorem cbForm_touch (s : State) (slot : Nat) (u : CbPending) (cands : List Bytes) :
    Touches [.streams, .mem, .store] s (cbForm s slot u cands) := by
  unfold cbForm
  try conv => arg 3; zeta
  refine Touches.trans ?_ (Touches.sub (State.updStream_touch ..) (by decide))
  refine Touches.trans ?_ (Touches.sub (recSet_touch ..) (by decide))
  exact Touches.refl _

theorem execCodebookUpdate_touch (slot : Nat) (s : State) :
    ∃ u, execCodebookUpdate slot s = .next u ∧ Touches [.streams, .mem, .store] s u := by
  unfold execCodebookUpdate
  try conv => enter [1, t, 1, 1]; zeta
  split
  · refine Touches.done ?_
    exact Touches.refl _
  · refine Touches.iteNext ?_ ?_
    · refine Touches.done ?_
      exact Touches.refl _
    · refine Touches.iteNext ?_ ?_
      · refine Touches.done ?_
        refine Touches.trans ?_ (Touches.sub (cbDrop_touch ..) (by decide))
        refine Touches.trans ?_ (Touches.sub (State.updStream_touch ..) (by decide))
        exact Touches.refl _
      · split
        · refine Touches.done ?_
          refine Touches.trans ?_ (Touches.sub (cbDrop_touch ..) (by decide))
          refine Touches.trans ?_ (Touches.sub (State.updStream_touch ..) (by decide))
          exact Touches.refl _
        · refine Touches.iteNext ?_ ?_
          · refine Touches.done ?_
            exact Touches.refl _
          · refine Touches.done ?_
            refine Touches.trans ?_ (Touches.sub (cbDrop_touch ..) (by decide))
            refine Touches.trans ?_ (Touches.sub (cbForm_touch ..) (by decide))
            exact Touches.refl _

theorem searchBands_touch (s : State) (slot fid : Nat) : Touches [.moult, .rings, .streams, .frames, .resamplers, .relq, .batches, .parts, .regions, .mem, .bpm, .store, .alarms, .tu, .out, .freeIx] s (searchBands s slot fid).2 := by
  unfold searchBands
  extract_lets f r
  have h : Touches [.moult, .rings, .streams, .frames, .resamplers, .relq, .batches, .parts, .regions, .mem, .bpm, .store, .alarms, .tu, .out, .freeIx] s r.2 := Touches.sub (reachBands_touch ..) (by decide)
  refine Touches.itePair (Touches.snd ?_) h
  exact h.trans (Touches.sub (State.updFrame_touch ..) (by decide))

theorem execSearchStart_touch (slot : Nat) (s : State) :
    ∃ u, execSearchStart slot s = .next u ∧ Touches [.streams, .frames] s u := by
  unfold execSearchStart
  try conv => enter [1, t, 1, 1]; zeta
  split
  · refine Touches.done ?_
    exact Touches.refl _
  · refine Touches.iteNext ?_ ?_
    · refine Touches.iteNext ?_ ?_
      · refine Touches.done ?_
        exact Touches.refl _
      · refine Touches.done ?_
        refine Touches.trans ?_ (Touches.sub (State.updStream_touch ..) (by decide))
        refine Touches.trans ?_ (Touches.sub (State.updFrame_touch ..) (by decide))
        exact Touches.refl _
    · refine Touches.iteNext ?_ ?_
      · refine Touches.done ?_
        exact Touches.refl _
      · refine Touches.done ?_
        refine Touches.trans ?_ (Touches.sub (State.updFrame_touch ..) (by decide))
        refine Touches.trans ?_ (Touches.sub (decCount_touch ..) (by decide))
        exact Touches.refl _

theorem execSearchCommit_touch (slot : Nat) (s : State) :
    ∃ u, execSearchCommit slot s = .next u ∧ Touches [.moult, .rings, .streams, .frames, .resamplers, .relq, .batches, .parts, .regions, .mem, .bpm, .store, .alarms, .tu, .out, .freeIx] s u := by
  unfold execSearchCommit
  try conv => enter [1, t, 1, 1]; zeta
  split
  · refine Touches.done ?_
    exact Touches.refl _
  · refine Touches.iteNext ?_ ?_
    · refine Touches.done ?_
      exact Touches.refl _
    · refine Touches.iteNext ?_ ?_
      · refine Touches.done ?_
        refine Touches.trans ?_ (Touches.sub (searchDone_touch ..) (by decide))
        refine Touches.trans ?_ (Touches.sub (searchBands_touch ..) (by decide))
        exact Touches.refl _
      · refine Touches.done ?_
        refine Touches.trans ?_ (Touches.sub (searchBands_touch ..) (by decide))
        exact Touches.refl _

theorem execEventStage_touch (ev : EvSpec) (s : State) :
    ∃ u, execEventStage ev s = .next u ∧ Touches [.rings, .alarms, .tu, .out] s u := by
  unfold execEventStage
  refine Touches.done ?_
  refine Touches.trans ?_ (Touches.sub (raiseEv_touch ..) (by decide))
  exact Touches.refl _

theorem mpRefuse_touch (s : State) :
    Touches [.rings, .alarms, .tu, .out, .freeIx] s (mpRefuse s) := by
  unfold mpRefuse
  refine Touches.trans ?_ (Touches.sub (raiseLog_touch ..) (by decide))
  refine Touches.trans ?_ (Touches.sub (emit_touch ..) (by decide))
  exact Touches.refl _

theorem execTelemetryPacketSend_touch (s : State) :
    ∃ u, execTelemetryPacketSend s = .next u ∧ Touches [.nps, .tu, .out] s u := by
  unfold execTelemetryPacketSend
  try conv => enter [1, t, 1, 1]; zeta
  refine Touches.iteNext ?_ ?_
  · refine Touches.done ?_
    exact Touches.refl _
  · refine Touches.done ?_
    refine Touches.trans ?_ (Touches.sub (sendUdp_touch ..) (by decide))
    refine Touches.ofMk ?_ kp kp kp kp kp kp kp kp kp kp kp kp kp kp kp kp kp kp kp kp kp kp kp kp kp kp kp kp kp kp kp ch kp kp kp kp kp kp kp
    refine Touches.trans ?_ (Touches.sub (State.updPath_touch ..) (by decide))
    exact Touches.refl _

theorem mpTakes_touch {L : List Piece} (s : State) (f : State → State) (hf : ∀ v, Touches L v (f v))
    (hL : mask [.out] ||| mask L = mask L) : ∃ u, mpTakes s f = .next u ∧ Touches L s u := by
  unfold mpTakes
  exact Touches.iteNext (Touches.done (hf _)) (Touches.done (Touches.sub (emit_touch ..) hL))

theorem execMpSetPointer_touch (value : Nat) (pecOk : Bool) (s : State) :
    ∃ u, execMpSetPointer value pecOk s = .next u ∧ Touches [.rings, .alarms, .tu, .out, .freeIx] s u := by
  unfold execMpSetPointer
  try conv => enter [1, t, 1, 1]; zeta
  refine mpTakes_touch _ _ (fun y0 => ?_) (by decide)
  refine Touches.ite ?_ ?_
  · refine Touches.trans ?_ (Touches.sub (mpRefuse_touch ..) (by decide))
    exact Touches.refl _
  · refine Touches.trans ?_ (Touches.sub (emit_touch ..) (by decide))
    refine Touches.ofMk ?_ kp kp kp kp kp kp kp kp kp kp kp kp kp kp kp kp kp kp kp kp kp kp kp kp kp kp kp kp kp kp kp ch kp kp kp kp kp kp kp
    exact Touches.refl _

theorem execTraceExponentTick_touch (path : Nat) (s : State) :
    ∃ u, execTraceExponentTick path s = .next u ∧ Touches [.tu] s u := by
  unfold execTraceExponentTick
  refine Touches.done ?_
  refine Touches.trans ?_ (Touches.sub (State.updPath_touch ..) (by decide))
  exact Touches.refl _

theorem execSmbusClockTimeout_touch (s : State) :
    ∃ u, execSmbusClockTimeout s = .next u ∧ Touches [.rings, .alarms, .tu, .out, .freeIx] s u := by
  unfold execSmbusClockTimeout
  refine Touches.done ?_
  refine Touches.trans ?_ (Touches.sub (raiseLog_touch ..) (by decide))
  exact Touches.refl _

theorem summaryPath_touch (s : State) (p : Nat) :
    Touches [.rings, .tu, .out] s (summaryPath s p) := by
  unfold summaryPath
  try conv => arg 3; zeta
  refine Touches.foldl (fun y0 _ => ?_) ?_ _
  · refine Touches.trans ?_ (Touches.sub (stageOn_touch ..) (by decide))
    exact Touches.refl _
  · refine Touches.trans ?_ (Touches.sub (State.updPath_touch ..) (by decide))
    exact Touches.refl _

theorem summaryPaths_touch (x0 : List Nat) (x1 : State) :
    Touches [.rings, .tu, .out] x1 (summaryPaths x0 x1) := by
  induction x0 generalizing x1 with
  | nil =>
    rw [summaryPaths]
    exact Touches.refl _
  | cons a t ih =>
    rw [summaryPaths]
    refine Touches.trans ?_ (ih ..)
    refine Touches.trans ?_ (Touches.sub (summaryPath_touch ..) (by decide))
    exact Touches.refl _

theorem execMpRemoveEvents_touch (m : Nat) (pecOk : Bool) (s : State) :
    ∃ u, execMpRemoveEvents m pecOk s = .next u ∧ Touches [.rings, .alarms, .tu, .out, .freeIx] s u := by
  unfold execMpRemoveEvents
  try conv => enter [1, t, 1, 1]; zeta
  refine mpTakes_touch _ _ (fun y0 => ?_) (by decide)
  refine Touches.ite ?_ ?_
  · refine Touches.trans ?_ (Touches.sub (mpRefuse_touch ..) (by decide))
    exact Touches.refl _
  · refine Touches.trans ?_ (Touches.sub (emit_touch ..) (by decide))
    refine Touches.ofMk ?_ kp kp kp kp kp kp kp kp kp kp kp kp kp kp kp kp kp kp kp kp kp kp kp kp kp kp kp kp kp kp kp ch kp kp kp kp kp kp kp
    refine Touches.trans ?_ (Touches.sub (State.updPath_touch ..) (by decide))
    exact Touches.refl _

theorem execSummaryTimer_touch (s : State) :
    ∃ u, execSummaryTimer s = .next u ∧ Touches [.rings, .aon, .tu, .out, .freeIx] s u := by
  unfold execSummaryTimer
  try conv => enter [1, t, 1, 1]; zeta
  refine Touches.iteNext ?_ ?_
  · refine Touches.done ?_
    exact Touches.refl _
  · refine Touches.done ?_
    refine Touches.ofMk ?_ kp kp kp kp kp kp kp kp kp kp kp kp kp kp kp kp kp kp kp kp kp kp kp kp kp kp kp kp kp kp ch kp kp kp kp kp kp ch kp
    refine Touches.trans ?_ (Touches.sub (summaryPaths_touch ..) (by decide))
    exact Touches.refl _

theorem execMpReadEvents_touch (s : State) :
    ∃ u, execMpReadEvents s = .next u ∧ Touches [.tu, .out] s u := by
  unfold execMpReadEvents
  try conv => enter [1, t, 1, 1]; zeta
  refine mpTakes_touch _ _ (fun y0 => ?_) (by decide)
  refine Touches.trans ?_ (Touches.sub (emit_touch ..) (by decide))
  refine Touches.ofMk ?_ kp kp kp kp kp kp kp kp kp kp kp kp kp kp kp kp kp kp kp kp kp kp kp kp kp kp kp kp kp kp kp ch kp kp kp kp kp kp kp
  exact Touches.refl _

theorem execMpAlertResponse_touch (s : State) :
    ∃ u, execMpAlertResponse s = .next u ∧ Touches [.tu, .out] s u := by
  unfold execMpAlertResponse
  try conv => enter [1, t, 1, 1]; zeta
  refine Touches.iteNext ?_ ?_
  · refine Touches.done ?_
    refine Touches.trans ?_ (Touches.sub (emit_touch ..) (by decide))
    refine Touches.ofMk ?_ kp kp kp kp kp kp kp kp kp kp kp kp kp kp kp kp kp kp kp kp kp kp kp kp kp kp kp kp kp kp kp ch kp kp kp kp kp kp kp
    exact Touches.refl _
  · refine Touches.done ?_
    exact Touches.refl _

theorem execMpIdentify_touch (s : State) :
    ∃ u, execMpIdentify s = .next u ∧ Touches [.out] s u := by
  unfold execMpIdentify
  refine mpTakes_touch _ _ (fun y0 => ?_) (by decide)
  refine Touches.trans ?_ (Touches.sub (emit_touch ..) (by decide))
  exact Touches.refl _

theorem execMpReadRegisters_touch (s : State) :
    ∃ u, execMpReadRegisters s = .next u ∧ Touches [.fns, .tu, .out] s u := by
  unfold execMpReadRegisters
  try conv => enter [1, t, 1, 1]; zeta
  refine mpTakes_touch _ _ (fun y0 => ?_) (by decide)
  split
  · rename_i v1 v2 e3
    have hv2 : Touches [.fns, .tu, .out] y0 v2 := by
      refine Touches.pair e3 ?_
      refine Touches.trans ?_ (Touches.sub (aonReads_touch ..) (by decide))
      exact Touches.refl _
    refine Touches.trans ?_ (Touches.sub (emit_touch ..) (by decide))
    refine Touches.ofMk ?_ kp kp kp kp kp kp kp kp kp kp kp kp kp kp kp kp kp kp kp kp kp kp kp kp kp kp kp kp kp kp kp ch kp kp kp kp kp kp kp
    exact hv2

theorem misalignedLog_touch (s : State) (port : Nat) :
    Touches [.rings, .alarms, .tu, .out, .freeIx] s (misalignedLog s port) := by
  unfold misalignedLog
  refine Touches.trans ?_ (Touches.sub (raiseLog_touch ..) (by decide))
  exact Touches.refl _

theorem pairRead_touch (s : State) (acc : Acc) (bar : Nat) (off : Nat) (pair : Nat → Option Nat) (value : Nat → Word) :
    Touches [.fns, .tu] s (pairRead s acc bar off pair value).2 := by
  unfold pairRead
  split
  · refine Touches.snd ?_
    refine Touches.trans ?_ (Touches.sub (holdWord_touch ..) (by decide))
    exact Touches.refl _
  · refine Touches.itePair ?_ ?_
    · refine Touches.snd ?_
      exact Touches.refl _
    · refine Touches.snd ?_
      exact Touches.refl _

theorem regRead_touch (s : State) (port : Nat) (fn : Nat) (bar : Nat) (off : Nat) :
    Touches [.fns, .tu] s (regRead s port fn bar off).2 := by
  unfold regRead
  refine Touches.itePair ?_ ?_
  · refine Touches.trans ?_ (Touches.sub (pairRead_touch ..) (by decide))
    exact Touches.refl _
  · refine Touches.itePair ?_ ?_
    · refine Touches.trans ?_ (Touches.sub (aonRead_touch ..) (by decide))
      exact Touches.refl _
    · refine Touches.trans ?_ (Touches.sub (pairRead_touch ..) (by decide))
      exact Touches.refl _

theorem barRead_touch (s : State) (port : Nat) (fn : Nat) (bar : Nat) (off : Nat) :
    Touches [.fns, .rings, .ports, .alarms, .tu, .out, .freeIx] s (barRead s port fn bar off) := by
  unfold barRead
  refine Touches.ite ?_ ?_
  · refine Touches.trans ?_ (Touches.sub (emit_touch ..) (by decide))
    exact Touches.refl _
  · split
    · refine Touches.ite ?_ ?_
      · split
        · rename_i v0 v1 e2
          have hv1 : Touches [.fns, .rings, .ports, .alarms, .tu, .out, .freeIx] s v1 := by
            refine Touches.pair e2 ?_
            refine Touches.trans ?_ (Touches.sub (regRead_touch ..) (by decide))
            exact Touches.refl _
          refine Touches.trans ?_ (Touches.sub (emit_touch ..) (by decide))
          exact hv1
      · refine Touches.trans ?_ (Touches.sub (windowDiscard_touch ..) (by decide))
        exact Touches.refl _
    · split
      · rename_i v3 v4 e5
        have hv4 : Touches [.fns, .rings, .ports, .alarms, .tu, .out, .freeIx] s v4 := by
          refine Touches.pair e5 ?_
          refine Touches.trans ?_ (Touches.sub (regRead_touch ..) (by decide))
          exact Touches.refl _
        refine Touches.trans ?_ (Touches.sub (emit_touch ..) (by decide))
        exact hv4

theorem misalignedRead_touch (s : State) (port : Nat) (fn : Nat) (bar : Nat) (off : Nat) :
    Touches [.rings, .alarms, .tu, .out, .freeIx] s (misalignedRead s port fn bar off) := by
  unfold misalignedRead
  refine Touches.trans ?_ (Touches.sub (misalignedLog_touch ..) (by decide))
  refine Touches.trans ?_ (Touches.sub (emit_touch ..) (by decide))
  exact Touches.refl _

theorem execBarMemoryRead_touch (port : Nat) (fn : Nat) (bar : Nat) (off : Nat) (s : State) :
    ∃ u, execBarMemoryRead port fn bar off s = .next u ∧ Touches [.fns, .rings, .ports, .alarms, .tu, .out, .waits, .freeIx] s u := by
  unfold execBarMemoryRead
  refine Touches.iteNext ?_ ?_
  · refine Touches.done ?_
    exact Touches.refl _
  · refine Touches.iteNext ?_ ?_
    · refine Touches.done ?_
      refine Touches.trans ?_ (Touches.sub (unsupported_touch ..) (by decide))
      exact Touches.refl _
    · refine Touches.iteNext ?_ ?_
      · refine Touches.done ?_
        refine Touches.trans ?_ (Touches.sub (misalignedRead_touch ..) (by decide))
        exact Touches.refl _
      · refine Touches.iteNext ?_ ?_
        · refine Touches.done ?_
          refine Touches.trans ?_ (Touches.sub (waitAccess_touch ..) (by decide))
          exact Touches.refl _
        · refine Touches.done ?_
          refine Touches.trans ?_ (Touches.sub (barRead_touch ..) (by decide))
          exact Touches.refl _

theorem plainWrite_touch (s : State) (port : Nat) (fn : Nat) (off : Nat) (v : Word) :
    Touches [.fns] s (plainWrite s port fn off v) := by
  unfold plainWrite
  try conv => arg 3; zeta
  refine Touches.ite ?_ ?_
  · exact Touches.refl _
  · refine Touches.trans ?_ (Touches.sub (State.updFn_touch_fns _ _ _ _ (fun _ => rfl)) (by decide))
    exact Touches.refl _

theorem injWriteBytes_touch (s : State) (port : Nat) (fn : Nat) (off : Nat) (data : Bytes) :
    Touches [.fns] s (injWriteBytes s port fn off data) := by
  unfold injWriteBytes
  refine Touches.ite ?_ ?_
  · refine Touches.trans ?_ (Touches.sub (State.updInj_touch ..) (by decide))
    exact Touches.refl _
  · exact Touches.refl _

theorem also_touch {L : List Piece} (b : Bool) (f : State → Host.Outcome State Fault Refusal) (s : State)
    (hf : ∀ v, ∃ u, f v = .next u ∧ Touches L v u) : Touches L s (also b f s) := by
  unfold also
  refine Touches.ite ?_ (Touches.refl s)
  obtain ⟨u, e, h⟩ := hf s
  rw [e]
  exact h

theorem ringWrite_touch (s : State) (port : Nat) (fn : Nat) (off : Nat) (v : Word) :
    Touches [.rings] s (ringWrite s port fn off v) := by
  unfold ringWrite
  refine Touches.trans ?_ (Touches.sub (State.updRing_touch ..) (by decide))
  exact Touches.refl _

theorem bar0Write_touch (s : State) (port : Nat) (fn : Nat) (off : Nat) (v : Word) :
    Touches [.moult, .flash, .key, .signer, .fns, .rings, .ports, .nps, .streams, .frames, .resamplers, .relq, .batches, .parts, .regions, .mem, .bpm, .store, .alarms, .tu, .out, .waits, .freeIx] s (bar0Write s port fn off v) := by
  unfold bar0Write
  refine Touches.ite ?_ ?_
  · refine Touches.trans ?_ (Touches.sub (ringWrite_touch ..) (by decide))
    exact Touches.refl _
  · refine Touches.ite ?_ ?_
    · refine Touches.trans ?_ (also_touch _ _ _ (fun _ => Touches.subO (execRingBind_touch ..) (by decide)))
      refine Touches.trans ?_ (also_touch _ _ _ (fun _ => Touches.subO (execRingUnbind_touch ..) (by decide)))
      exact Touches.refl _
    · refine Touches.ite ?_ ?_
      · refine Touches.trans ?_ (Touches.sub (irqClear_touch ..) (by decide))
        exact Touches.refl _
      · refine Touches.ite ?_ ?_
        · refine Touches.trans ?_ (Touches.sub (intaSync_touch ..) (by decide))
          refine Touches.trans ?_ (Touches.sub (State.updFn_touch_fns _ _ _ _ (fun _ => rfl)) (by decide))
          exact Touches.refl _
        · refine Touches.ite ?_ ?_
          · refine Touches.trans ?_ (also_touch _ _ _ (fun _ => Touches.subO (execInjEnable_touch ..) (by decide)))
            refine Touches.trans ?_ (also_touch _ _ _ (fun _ => Touches.subO (execInjDisable_touch ..) (by decide)))
            exact Touches.refl _
          · refine Touches.ite ?_ ?_
            · refine Touches.trans ?_ (Touches.sub (tuneIssue_touch ..) (by decide))
              exact Touches.refl _
            · refine Touches.ite ?_ ?_
              · refine Touches.trans ?_ (also_touch _ _ _ (fun _ => Touches.subO (execAttGo_touch ..) (by decide)))
                exact Touches.refl _
              · refine Touches.ite ?_ ?_
                · exact Touches.refl _
                · refine Touches.ite ?_ ?_
                  · refine Touches.ite ?_ ?_
                    · refine Touches.trans ?_ (also_touch _ _ _ (fun _ => Touches.subO (execMoultGo_touch ..) (by decide)))
                      exact Touches.refl _
                    · refine Touches.trans ?_ (also_touch _ _ _ (fun _ => Touches.subO (execMoultAbort_touch ..) (by decide)))
                      exact Touches.refl _
                  · refine Touches.ite ?_ ?_
                    · refine Touches.trans ?_ (also_touch _ _ _ (fun _ => Touches.subO (execFlashProgram_touch ..) (by decide)))
                      refine Touches.trans ?_ (also_touch _ _ _ (fun _ => Touches.subO (execFlashSelect_touch ..) (by decide)))
                      refine Touches.trans ?_ (Touches.sub (plainWrite_touch ..) (by decide))
                      exact Touches.refl _
                    · refine Touches.ite ?_ ?_
                      · refine Touches.trans ?_ (also_touch _ _ _ (fun _ => Touches.subO (execKeyGo_touch ..) (by decide)))
                        exact Touches.refl _
                      · refine Touches.trans ?_ (Touches.sub (plainWrite_touch ..) (by decide))
                        exact Touches.refl _

theorem bar4Write_touch (s : State) (port : Nat) (off : Nat) (v : Word) :
    Touches [.fns, .rings, .ports, .streams, .frames, .batches, .ctxs, .parts, .regions, .blocks, .cells, .mem, .bpm, .store, .pac, .alarms, .tu, .out, .freeIx] s (bar4Write s port off v) := by
  unfold bar4Write
  refine Touches.ite ?_ ?_
  · refine Touches.trans ?_ (Touches.sub (holdWrite_touch ..) (by decide))
    exact Touches.refl _
  · refine Touches.ite ?_ ?_
    · exact Touches.refl _
    · refine Touches.trans ?_ (Touches.sub (State.updFn_touch_fns _ _ _ _ (fun _ => rfl)) (by decide))
      exact Touches.refl _

theorem barWrite_touch (s : State) (port : Nat) (fn : Nat) (bar : Nat) (off : Nat) (v : Word) :
    Touches [.moult, .flash, .key, .signer, .fns, .rings, .ports, .nps, .streams, .frames, .resamplers, .relq, .batches, .ctxs, .parts, .regions, .blocks, .cells, .mem, .bpm, .store, .pac, .alarms, .tu, .out, .waits, .freeIx] s (barWrite s port fn bar off v) := by
  unfold barWrite
  refine Touches.ite ?_ ?_
  · refine Touches.trans ?_ (Touches.sub (bar0Write_touch ..) (by decide))
    exact Touches.refl _
  · refine Touches.ite ?_ ?_
    · refine Touches.trans ?_ (Touches.sub (injWriteBytes_touch ..) (by decide))
      exact Touches.refl _
    · split
      · refine Touches.ite ?_ ?_
        · exact Touches.refl _
        · refine Touches.trans ?_ (Touches.sub (windowDiscard_touch ..) (by decide))
          exact Touches.refl _
      · refine Touches.trans ?_ (Touches.sub (bar4Write_touch ..) (by decide))
        exact Touches.refl _

theorem execRegisterWrite_touch (port : Nat) (fn : Nat) (bar : Nat) (off : Nat) (value : Word) (s : State) :
    ∃ u, execRegisterWrite port fn bar off value s = .next u ∧ Touches [.moult, .flash, .key, .signer, .fns, .rings, .ports, .nps, .streams, .frames, .resamplers, .relq, .batches, .ctxs, .parts, .regions, .blocks, .cells, .mem, .bpm, .store, .pac, .alarms, .tu, .out, .waits, .freeIx] s u := by
  unfold execRegisterWrite
  refine Touches.iteNext ?_ ?_
  · refine Touches.done ?_
    exact Touches.refl _
  · refine Touches.iteNext ?_ ?_
    · refine Touches.done ?_
      refine Touches.trans ?_ (Touches.sub (misalignedLog_touch ..) (by decide))
      exact Touches.refl _
    · refine Touches.iteNext ?_ ?_
      · refine Touches.done ?_
        refine Touches.trans ?_ (Touches.sub (waitAccess_touch ..) (by decide))
        exact Touches.refl _
      · refine Touches.done ?_
        refine Touches.trans ?_ (Touches.sub (barWrite_touch ..) (by decide))
        exact Touches.refl _

theorem execMisalignedAccess_touch (acc : Acc) (bar : Nat) (off : Nat) (size : Nat) (write : Bool) (s : State) :
    ∃ u, execMisalignedAccess acc bar off size write s = .next u ∧ Touches [.rings, .ports, .alarms, .tu, .out, .freeIx] s u := by
  unfold execMisalignedAccess
  split
  · refine Touches.done ?_
    exact Touches.refl _
  · refine Touches.iteNext ?_ ?_
    · refine Touches.done ?_
      exact Touches.refl _
    · refine Touches.iteNext ?_ ?_
      · refine Touches.done ?_
        refine Touches.ite ?_ ?_
        · exact Touches.refl _
        · refine Touches.trans ?_ (Touches.sub (unsupported_touch ..) (by decide))
          exact Touches.refl _
      · refine Touches.done ?_
        refine Touches.ite ?_ ?_
        · refine Touches.trans ?_ (Touches.sub (misalignedLog_touch ..) (by decide))
          exact Touches.refl _
        · refine Touches.trans ?_ (Touches.sub (misalignedRead_touch ..) (by decide))
          exact Touches.refl _

theorem execCounterLowRead_touch (acc : Acc) (bar : Nat) (off : Nat) (s : State) :
    ∃ u, execCounterLowRead acc bar off s = .next u ∧ Touches [.fns, .rings, .ports, .alarms, .tu, .out, .waits, .freeIx] s u := by
  unfold execCounterLowRead
  split
  · refine Touches.iteNext ?_ ?_
    · refine Touches.done ?_
      exact Touches.refl _
    · refine Touches.iteNext ?_ ?_
      · refine Touches.done ?_
        refine Touches.trans ?_ (Touches.sub (unsupported_touch ..) (by decide))
        exact Touches.refl _
      · refine Touches.iteNext ?_ ?_
        · refine Touches.done ?_
          refine Touches.trans ?_ (Touches.sub (misalignedRead_touch ..) (by decide))
          exact Touches.refl _
        · refine Touches.iteNext ?_ ?_
          · refine Touches.done ?_
            refine Touches.trans ?_ (Touches.sub (waitAccess_touch ..) (by decide))
            exact Touches.refl _
          · refine Touches.done ?_
            refine Touches.trans ?_ (Touches.sub (barRead_touch ..) (by decide))
            exact Touches.refl _
  · refine Touches.iteNext ?_ ?_
    · split
      · rename_i v0 v1 e2
        have hv1 : Touches [.fns, .rings, .ports, .alarms, .tu, .out, .waits, .freeIx] s v1 := by
          refine Touches.pair e2 ?_
          refine Touches.trans ?_ (Touches.sub (aonRead_touch ..) (by decide))
          exact Touches.refl _
        refine Touches.done ?_
        refine Touches.trans ?_ (Touches.sub (emit_touch ..) (by decide))
        exact hv1
    · refine Touches.done ?_
      exact Touches.refl _

theorem execBarMemoryWrite_touch (port : Nat) (fn : Nat) (off : Nat) (data : Bytes) (poisoned : Bool) (s : State) :
    ∃ u, execBarMemoryWrite port fn off data poisoned s = .next u ∧ Touches [.fns, .ports] s u := by
  unfold execBarMemoryWrite
  refine Touches.iteNext ?_ ?_
  · refine Touches.done ?_
    exact Touches.refl _
  · refine Touches.iteNext ?_ ?_
    · refine Touches.done ?_
      refine Touches.trans ?_ (Touches.sub (portCount_touch ..) (by decide))
      exact Touches.refl _
    · refine Touches.done ?_
      refine Touches.trans ?_ (Touches.sub (injWriteBytes_touch ..) (by decide))
      exact Touches.refl _

theorem pacResume_touch (s : State) :
    Touches [.rings, .streams, .frames, .batches, .ctxs, .parts, .regions, .blocks, .cells, .mem, .bpm, .store, .pac, .alarms, .tu, .out, .freeIx] s (pacResume s) := by
  unfold pacResume
  try conv => arg 3; zeta
  refine Touches.trans ?_ (Touches.sub (wakeHeld_touch ..) (by decide))
  refine Touches.foldl (fun y0 _ => ?_) ?_ _
  · refine Touches.trans ?_ (Touches.sub (followTarget_touch ..) (by decide))
    exact Touches.refl _
  · refine Touches.ofMk ?_ kp kp kp kp kp kp kp kp kp kp kp kp kp kp kp kp kp kp kp kp kp kp kp kp kp kp kp kp ch kp kp kp kp kp kp kp kp kp kp
    exact Touches.refl _

theorem performAccess_touch (s : State) (c : Instr) :
    Touches [.moult, .flash, .key, .signer, .fns, .rings, .ports, .nps, .streams, .frames, .resamplers, .relq, .batches, .ctxs, .parts, .regions, .blocks, .cells, .mem, .bpm, .store, .pac, .alarms, .tu, .out, .waits, .freeIx] s (performAccess s c) := by
  unfold performAccess
  try conv => arg 3; zeta
  split
  · split
    · rename_i v0 e1
      have hv0 : Touches [.moult, .flash, .key, .signer, .fns, .rings, .ports, .nps, .streams, .frames, .resamplers, .relq, .batches, .ctxs, .parts, .regions, .blocks, .cells, .mem, .bpm, .store, .pac, .alarms, .tu, .out, .waits, .freeIx] s v0 := by
        refine Touches.trans ?_ (Touches.sub (Touches.viaNext e1 (execTuneWrite_touch ..)) (by decide))
        exact Touches.refl _
      exact hv0
    · exact Touches.refl _
  · split
    · rename_i v2 e3
      have hv2 : Touches [.moult, .flash, .key, .signer, .fns, .rings, .ports, .nps, .streams, .frames, .resamplers, .relq, .batches, .ctxs, .parts, .regions, .blocks, .cells, .mem, .bpm, .store, .pac, .alarms, .tu, .out, .waits, .freeIx] s v2 := by
        refine Touches.trans ?_ (Touches.sub (Touches.viaNext e3 (execTuneRead_touch ..)) (by decide))
        exact Touches.refl _
      exact hv2
    · exact Touches.refl _
  · split
    · rename_i v4 e5
      have hv4 : Touches [.moult, .flash, .key, .signer, .fns, .rings, .ports, .nps, .streams, .frames, .resamplers, .relq, .batches, .ctxs, .parts, .regions, .blocks, .cells, .mem, .bpm, .store, .pac, .alarms, .tu, .out, .waits, .freeIx] s v4 := by
        refine Touches.trans ?_ (Touches.sub (Touches.viaNext e5 (execMoultGo_touch ..)) (by decide))
        exact Touches.refl _
      exact hv4
    · exact Touches.refl _
  · split
    · rename_i v6 e7
      have hv6 : Touches [.moult, .flash, .key, .signer, .fns, .rings, .ports, .nps, .streams, .frames, .resamplers, .relq, .batches, .ctxs, .parts, .regions, .blocks, .cells, .mem, .bpm, .store, .pac, .alarms, .tu, .out, .waits, .freeIx] s v6 := by
        refine Touches.trans ?_ (Touches.sub (Touches.viaNext e7 (execMoultAbort_touch ..)) (by decide))
        exact Touches.refl _
      exact hv6
    · exact Touches.refl _
  · split
    · rename_i v8 e9
      have hv8 : Touches [.moult, .flash, .key, .signer, .fns, .rings, .ports, .nps, .streams, .frames, .resamplers, .relq, .batches, .ctxs, .parts, .regions, .blocks, .cells, .mem, .bpm, .store, .pac, .alarms, .tu, .out, .waits, .freeIx] s v8 := by
        refine Touches.trans ?_ (Touches.sub (Touches.viaNext e9 (execFlashProgram_touch ..)) (by decide))
        exact Touches.refl _
      exact hv8
    · exact Touches.refl _
  · split
    · rename_i v10 e11
      have hv10 : Touches [.moult, .flash, .key, .signer, .fns, .rings, .ports, .nps, .streams, .frames, .resamplers, .relq, .batches, .ctxs, .parts, .regions, .blocks, .cells, .mem, .bpm, .store, .pac, .alarms, .tu, .out, .waits, .freeIx] s v10 := by
        refine Touches.trans ?_ (Touches.sub (Touches.viaNext e11 (execFlashSelect_touch ..)) (by decide))
        exact Touches.refl _
      exact hv10
    · exact Touches.refl _
  · split
    · rename_i v12 e13
      have hv12 : Touches [.moult, .flash, .key, .signer, .fns, .rings, .ports, .nps, .streams, .frames, .resamplers, .relq, .batches, .ctxs, .parts, .regions, .blocks, .cells, .mem, .bpm, .store, .pac, .alarms, .tu, .out, .waits, .freeIx] s v12 := by
        refine Touches.trans ?_ (Touches.sub (Touches.viaNext e13 (execKeyGo_touch ..)) (by decide))
        exact Touches.refl _
      exact hv12
    · exact Touches.refl _
  · split
    · rename_i v14 e15
      have hv14 : Touches [.moult, .flash, .key, .signer, .fns, .rings, .ports, .nps, .streams, .frames, .resamplers, .relq, .batches, .ctxs, .parts, .regions, .blocks, .cells, .mem, .bpm, .store, .pac, .alarms, .tu, .out, .waits, .freeIx] s v14 := by
        refine Touches.trans ?_ (Touches.sub (Touches.viaNext e15 (execAttGo_touch ..)) (by decide))
        exact Touches.refl _
      exact hv14
    · exact Touches.refl _
  · split
    · rename_i v16 e17
      have hv16 : Touches [.moult, .flash, .key, .signer, .fns, .rings, .ports, .nps, .streams, .frames, .resamplers, .relq, .batches, .ctxs, .parts, .regions, .blocks, .cells, .mem, .bpm, .store, .pac, .alarms, .tu, .out, .waits, .freeIx] s v16 := by
        refine Touches.trans ?_ (Touches.sub (Touches.viaNext e17 (execRegisterWrite_touch ..)) (by decide))
        exact Touches.refl _
      exact hv16
    · exact Touches.refl _
  · split
    · rename_i v18 e19
      have hv18 : Touches [.moult, .flash, .key, .signer, .fns, .rings, .ports, .nps, .streams, .frames, .resamplers, .relq, .batches, .ctxs, .parts, .regions, .blocks, .cells, .mem, .bpm, .store, .pac, .alarms, .tu, .out, .waits, .freeIx] s v18 := by
        refine Touches.trans ?_ (Touches.sub (Touches.viaNext e19 (execBarMemoryRead_touch ..)) (by decide))
        exact Touches.refl _
      exact hv18
    · exact Touches.refl _
  · split
    · rename_i v20 e21
      have hv20 : Touches [.moult, .flash, .key, .signer, .fns, .rings, .ports, .nps, .streams, .frames, .resamplers, .relq, .batches, .ctxs, .parts, .regions, .blocks, .cells, .mem, .bpm, .store, .pac, .alarms, .tu, .out, .waits, .freeIx] s v20 := by
        refine Touches.trans ?_ (Touches.sub (Touches.viaNext e21 (execCounterLowRead_touch ..)) (by decide))
        exact Touches.refl _
      exact hv20
    · exact Touches.refl _
  · exact Touches.refl _

theorem performWaits_touch (s : State) :
    Touches [.moult, .flash, .key, .signer, .fns, .rings, .ports, .nps, .streams, .frames, .resamplers, .relq, .batches, .ctxs, .parts, .regions, .blocks, .cells, .mem, .bpm, .store, .pac, .alarms, .tu, .out, .waits, .freeIx] s (performWaits s) := by
  unfold performWaits
  refine Touches.foldl (fun y0 _ => ?_) ?_ _
  · refine Touches.trans ?_ (Touches.sub (performAccess_touch ..) (by decide))
    exact Touches.refl _
  · refine Touches.ofMk ?_ kp kp kp kp kp kp kp kp kp kp kp kp kp kp kp kp kp kp kp kp kp kp kp kp kp kp kp kp kp kp kp kp kp kp kp kp ch kp kp
    exact Touches.refl _

theorem tuResume_touch (s : State) :
    Touches [.rings, .tu, .out] s (tuResume s) := by
  unfold tuResume
  try conv => arg 3; zeta
  refine Touches.foldl (fun y0 _ => ?_) ?_ _
  · refine Touches.trans ?_ (Touches.sub (pumpEvents_touch ..) (by decide))
    exact Touches.refl _
  · refine Touches.ite ?_ ?_
    · refine Touches.ofMk ?_ kp kp kp kp kp kp kp kp kp kp kp kp kp kp kp kp kp kp kp kp kp kp kp kp kp kp kp kp kp kp kp ch kp kp kp kp kp kp kp
      refine Touches.ofMk ?_ kp kp kp kp kp kp kp kp kp kp kp kp kp kp kp kp kp kp kp kp kp kp kp kp kp kp kp kp kp kp kp ch kp kp kp kp kp kp kp
      exact Touches.refl _
    · refine Touches.ofMk ?_ kp kp kp kp kp kp kp kp kp kp kp kp kp kp kp kp kp kp kp kp kp kp kp kp kp kp kp kp kp kp kp ch kp kp kp kp kp kp kp
      exact Touches.refl _

theorem execControllerResume_touch (unit : Nat) (s : State) :
    ∃ u, execControllerResume unit s = .next u ∧ Touches [.scu, .moult, .flash, .key, .signer, .fns, .rings, .ports, .nps, .streams, .frames, .resamplers, .relq, .batches, .ctxs, .parts, .regions, .blocks, .cells, .mem, .bpm, .store, .pac, .alarms, .tu, .out, .waits, .freeIx] s u := by
  unfold execControllerResume
  try conv => enter [1, t, 1, 1]; zeta
  refine Touches.iteNext ?_ ?_
  · refine Touches.done ?_
    refine Touches.trans ?_ (Touches.sub (performWaits_touch ..) (by decide))
    refine Touches.trans ?_ (Touches.sub (pacResume_touch ..) (by decide))
    exact Touches.refl _
  · refine Touches.iteNext ?_ ?_
    · refine Touches.done ?_
      refine Touches.trans ?_ (Touches.sub (performWaits_touch ..) (by decide))
      refine Touches.trans ?_ (Touches.sub (moultFinish_touch ..) (by decide))
      refine Touches.ofMk ?_ kp kp ch kp kp kp kp kp kp kp kp kp kp kp kp kp kp kp kp kp kp kp kp kp kp kp kp kp kp kp kp kp kp kp kp kp kp kp kp
      exact Touches.refl _
    · refine Touches.iteNext ?_ ?_
      · refine Touches.done ?_
        refine Touches.trans ?_ (Touches.sub (performWaits_touch ..) (by decide))
        refine Touches.trans ?_ (Touches.sub (tuResume_touch ..) (by decide))
        exact Touches.refl _
      · refine Touches.done ?_
        exact Touches.refl _

theorem tuRestart_touch (s : State) :
    Touches [.aon, .tu] s (tuRestart s) := by
  unfold tuRestart
  try conv => arg 3; zeta
  refine Touches.ofMk ?_ kp kp kp kp kp kp kp kp kp kp kp kp kp kp kp kp kp kp kp kp kp kp kp kp kp kp kp kp kp kp ch ch kp kp kp kp kp kp kp
  exact Touches.refl _

theorem pacRestart_touch (s : State) :
    Touches [.regions, .pac, .aon] s (pacRestart s) := by
  unfold pacRestart
  try conv => arg 3; zeta
  refine Touches.ofMk ?_ kp kp kp kp kp kp kp kp kp kp kp kp kp kp kp kp kp kp kp kp kp ch kp kp kp kp kp kp ch kp ch kp kp kp kp kp kp kp kp
  exact Touches.refl _

theorem scuRestart_touch (s : State) :
    Touches [.scu, .moult, .flash, .key, .signer, .fns, .rings, .aon] s (scuRestart s) := by
  unfold scuRestart
  try conv => arg 3; zeta
  refine Touches.trans ?_ (Touches.sub (attScuRestart_touch ..) (by decide))
  refine Touches.trans ?_ (Touches.sub (keyAbort_touch ..) (by decide))
  refine Touches.trans ?_ (Touches.sub (flashScuRestart_touch ..) (by decide))
  refine Touches.trans ?_ (Touches.sub (moultCut_touch ..) (by decide))
  refine Touches.ofMk ?_ kp kp ch kp kp kp kp kp kp kp kp kp kp kp kp kp kp kp kp kp kp kp kp kp kp kp kp kp kp kp ch kp kp kp kp kp kp kp kp
  exact Touches.refl _

theorem execControllerRestart_touch (unit : Nat) (s : State) :
    ∃ u, execControllerRestart unit s = .next u ∧ Touches [.scu, .moult, .flash, .key, .signer, .fns, .rings, .regions, .pac, .alarms, .aon, .tu, .out, .freeIx] s u := by
  unfold execControllerRestart
  refine Touches.iteNext ?_ ?_
  · refine Touches.done ?_
    exact Touches.refl _
  · refine Touches.iteNext ?_ ?_
    · refine Touches.done ?_
      refine Touches.trans ?_ (Touches.sub (raiseAlarm_touch ..) (by decide))
      refine Touches.trans ?_ (Touches.sub (pacRestart_touch ..) (by decide))
      exact Touches.refl _
    · refine Touches.iteNext ?_ ?_
      · refine Touches.done ?_
        refine Touches.trans ?_ (Touches.sub (raiseAlarm_touch ..) (by decide))
        refine Touches.trans ?_ (Touches.sub (scuRestart_touch ..) (by decide))
        exact Touches.refl _
      · refine Touches.iteNext ?_ ?_
        · refine Touches.done ?_
          refine Touches.trans ?_ (Touches.sub (raiseAlarm_touch ..) (by decide))
          refine Touches.trans ?_ (Touches.sub (tuRestart_touch ..) (by decide))
          exact Touches.refl _
        · refine Touches.done ?_
          exact Touches.refl _

theorem sendFrags_touch (e : Bytes) (slot : Nat) (ts : Nat) (seq : Nat) (n : Nat) (x5 : List Bytes) (x6 : Nat) (x7 : State) :
    Touches [.nps, .streams, .mem, .store, .out] x7 (sendFrags e slot ts seq n x5 x6 x7) := by
  induction x5 generalizing x6 x7 with
  | nil =>
    rw [sendFrags]
    exact Touches.refl _
  | cons a t ih =>
    rw [sendFrags]
    refine Touches.trans ?_ (ih ..)
    refine Touches.trans ?_ (Touches.sub (sendUdp_touch ..) (by decide))
    refine Touches.trans ?_ (Touches.sub (recSet_touch ..) (by decide))
    exact Touches.refl _

theorem sendUnit_touch (s : State) (e : Bytes) (slot : Nat) (ts : Nat) (seq : Nat) (u : Bytes) :
    Touches [.nps, .streams, .mem, .store, .out] s (sendUnit s e slot ts seq u) := by
  unfold sendUnit
  try conv => arg 3; zeta
  refine Touches.trans ?_ (Touches.sub (sendFrags_touch ..) (by decide))
  exact Touches.refl _

theorem emitUnit_touch (s : State) (f : Frame) (ty : Nat) (body : Bytes) (fid : Option Nat) :
    Touches [.rings, .nps, .streams, .frames, .mem, .store, .alarms, .tu, .out, .freeIx] s (emitUnit s f ty body fid).2 := by
  unfold emitUnit
  try conv => arg 3; zeta
  split
  · refine Touches.snd ?_
    refine Touches.trans ?_ (Touches.sub (ringDeliver_touch ..) (by decide))
    refine Touches.ite ?_ ?_
    · refine Touches.trans ?_ (Touches.sub (sendUnit_touch ..) (by decide))
      refine Touches.trans ?_ (Touches.sub (recSet_touch ..) (by decide))
      exact Touches.refl _
    · refine Touches.trans ?_ (Touches.sub (recSet_touch ..) (by decide))
      exact Touches.refl _
  · refine Touches.snd ?_
    refine Touches.ite ?_ ?_
    · refine Touches.trans ?_ (Touches.sub (sendUnit_touch ..) (by decide))
      refine Touches.trans ?_ (Touches.sub (recSet_touch ..) (by decide))
      exact Touches.refl _
    · refine Touches.trans ?_ (Touches.sub (recSet_touch ..) (by decide))
      exact Touches.refl _

theorem emitCodebooks_touch (f : Frame) (x1 : List (Nat × Bytes)) (x2 : State) :
    Touches [.rings, .nps, .streams, .frames, .mem, .store, .alarms, .tu, .out, .freeIx] x2 (emitCodebooks f x1 x2) := by
  induction x1 generalizing x2 with
  | nil =>
    rw [emitCodebooks]
    exact Touches.refl _
  | cons a t ih =>
    rw [emitCodebooks]
    refine Touches.trans ?_ (ih ..)
    refine Touches.trans ?_ (Touches.sub (State.updStream_touch ..) (by decide))
    refine Touches.trans ?_ (Touches.sub (emitUnit_touch ..) (by decide))
    exact Touches.refl _

theorem emitRecord_touch (s : State) (slot : Nat) (fid : Nat) (body : Bytes) :
    Touches [.rings, .nps, .streams, .frames, .mem, .store, .alarms, .tu, .out, .freeIx] s (emitRecord s slot fid body) := by
  unfold emitRecord
  try conv => arg 3; zeta
  split
  · split
    · rename_i v0 v1 e2
      have hv1 : Touches [.rings, .nps, .streams, .frames, .mem, .store, .alarms, .tu, .out, .freeIx] s v1 := by
        refine Touches.pair e2 ?_
        refine Touches.trans ?_ (Touches.sub (emitUnit_touch ..) (by decide))
        refine Touches.trans ?_ (Touches.sub (State.updFrame_touch ..) (by decide))
        refine Touches.trans ?_ (Touches.sub (recSet_touch ..) (by decide))
        refine Touches.trans ?_ (Touches.sub (State.updStream_touch ..) (by decide))
        refine Touches.trans ?_ (Touches.sub (emitCodebooks_touch ..) (by decide))
        exact Touches.refl _
      refine Touches.ite ?_ ?_
      · exact hv1
      · refine Touches.trans ?_ (Touches.sub (frameServed_touch ..) (by decide))
        exact hv1

theorem execRecordEmit_touch (slot : Nat) (s : State) :
    ∃ u, execRecordEmit slot s = .next u ∧ Touches [.moult, .rings, .nps, .streams, .frames, .parts, .mem, .bpm, .store, .alarms, .tu, .out, .freeIx] s u := by
  unfold execRecordEmit
  split
  · refine Touches.done ?_
    exact Touches.refl _
  · split
    · refine Touches.done ?_
      exact Touches.refl _
    · refine Touches.iteNext ?_ ?_
      · refine Touches.done ?_
        exact Touches.refl _
      · refine Touches.done ?_
        refine Touches.trans ?_ (Touches.sub (sweepSlots_touch ..) (by decide))
        refine Touches.trans ?_ (Touches.sub (emitRecord_touch ..) (by decide))
        exact Touches.refl _

theorem execRecordEncode_touch (slot : Nat) (s : State) :
    ∃ u, execRecordEncode slot s = .next u ∧ Touches [.frames, .out] s u := by
  unfold execRecordEncode
  try conv => enter [1, t, 1, 1]; zeta
  split
  · refine Touches.done ?_
    exact Touches.refl _
  · refine Touches.iteNext ?_ ?_
    · refine Touches.done ?_
      exact Touches.refl _
    · refine Touches.done ?_
      refine Touches.trans ?_ (Touches.sub (frameStage_touch ..) (by decide))
      refine Touches.trans ?_ (Touches.sub (State.updFrame_touch ..) (by decide))
      exact Touches.refl _

theorem discardChrysalis_touch (s : State) (cx : Nat) :
    Touches [.rings, .streams, .batches, .ctxs, .parts, .regions, .blocks, .cells, .mem, .bpm, .store, .alarms, .tu, .out, .freeIx] s (discardChrysalis s cx) := by
  unfold discardChrysalis
  try conv => arg 3; zeta
  split
  · exact Touches.refl _
  · split
    · exact Touches.refl _
    · refine Touches.trans ?_ (Touches.sub (requeueCtx_touch ..) (by decide))
      refine Touches.trans ?_ (Touches.sub (ctxLose_touch ..) (by decide))
      refine Touches.trans ?_ (Touches.sub (raiseLogOf_touch ..) (by decide))
      refine Touches.trans ?_ (Touches.sub (ctxPartCount_touch ..) (by decide))
      refine Touches.trans ?_ (Touches.sub (State.updCtx_touch ..) (by decide))
      refine Touches.trans ?_ (Touches.sub (freeChrysalis_touch ..) (by decide))
      exact Touches.refl _

theorem recordError_touch (s : State) (i : Nat) :
    Touches [.rings, .streams, .batches, .ctxs, .parts, .regions, .blocks, .cells, .mem, .bpm, .store, .alarms, .tu, .out, .freeIx] s (recordError s i) := by
  unfold recordError
  try conv => arg 3; zeta
  refine Touches.ite ?_ ?_
  · split
    · refine Touches.trans ?_ (Touches.sub (raiseLog_touch ..) (by decide))
      exact Touches.refl _
    · refine Touches.trans ?_ (Touches.sub (discardChrysalis_touch ..) (by decide))
      refine Touches.trans ?_ (Touches.sub (ctxPartCount_touch ..) (by decide))
      exact Touches.refl _
  · split
    · refine Touches.trans ?_ (Touches.sub (raiseOpen_touch ..) (by decide))
      refine Touches.trans ?_ (Touches.sub (reinitRun_touch ..) (by decide))
      refine Touches.trans ?_ (Touches.sub (ctxPartCount_touch ..) (by decide))
      refine Touches.trans ?_ (Touches.sub (ctxCount_touch ..) (by decide))
      exact Touches.refl _
    · refine Touches.trans ?_ (Touches.sub (raiseLogOf_touch ..) (by decide))
      refine Touches.trans ?_ (Touches.sub (recSet_touch ..) (by decide))
      refine Touches.trans ?_ (Touches.sub (ringEmpty_touch ..) (by decide))
      refine Touches.trans ?_ (Touches.sub (ctxPartCount_touch ..) (by decide))
      refine Touches.trans ?_ (Touches.sub (ctxCount_touch ..) (by decide))
      exact Touches.refl _
    · refine Touches.trans ?_ (Touches.sub (raiseLogOf_touch ..) (by decide))
      refine Touches.ite ?_ ?_
      · refine Touches.trans ?_ (Touches.sub (freeTrack_touch ..) (by decide))
        refine Touches.trans ?_ (Touches.sub (ctxPartCount_touch ..) (by decide))
        refine Touches.trans ?_ (Touches.sub (ctxCount_touch ..) (by decide))
        exact Touches.refl _
      · refine Touches.trans ?_ (Touches.sub (ctxPartCount_touch ..) (by decide))
        refine Touches.trans ?_ (Touches.sub (ctxCount_touch ..) (by decide))
        exact Touches.refl _
    · refine Touches.trans ?_ (Touches.sub (raiseLogOf_touch ..) (by decide))
      refine Touches.trans ?_ (Touches.sub (adapterReset_touch ..) (by decide))
      refine Touches.trans ?_ (Touches.sub (ctxPartCount_touch ..) (by decide))
      refine Touches.trans ?_ (Touches.sub (ctxCount_touch ..) (by decide))
      exact Touches.refl _
    · refine Touches.trans ?_ (Touches.sub (raiseLogOf_touch ..) (by decide))
      refine Touches.trans ?_ (Touches.sub (adapterReset_touch ..) (by decide))
      refine Touches.trans ?_ (Touches.sub (ctxPartCount_touch ..) (by decide))
      refine Touches.trans ?_ (Touches.sub (ctxCount_touch ..) (by decide))
      exact Touches.refl _
    · refine Touches.trans ?_ (Touches.sub (raiseLogOf_touch ..) (by decide))
      refine Touches.trans ?_ (Touches.sub (restoreTables_touch ..) (by decide))
      refine Touches.trans ?_ (Touches.sub (ctxPartCount_touch ..) (by decide))
      refine Touches.trans ?_ (Touches.sub (ctxCount_touch ..) (by decide))
      exact Touches.refl _
    · refine Touches.trans ?_ (Touches.sub (ctxPartCount_touch ..) (by decide))
      refine Touches.trans ?_ (Touches.sub (ctxCount_touch ..) (by decide))
      exact Touches.refl _

theorem execContextRecordAccess_touch (index : Nat) (acc : RecAccess) (ecc : Ecc) (s : State) :
    ∃ u, execContextRecordAccess index acc ecc s = .next u ∧ Touches [.rings, .streams, .batches, .ctxs, .parts, .regions, .blocks, .cells, .mem, .bpm, .store, .alarms, .tu, .out, .freeIx] s u := by
  unfold execContextRecordAccess
  try conv => enter [1, t, 1, 1]; zeta
  split
  · split
    · refine Touches.done ?_
      refine Touches.trans ?_ (Touches.sub (storeRead_touch ..) (by decide))
      exact Touches.refl _
    · refine Touches.done ?_
      refine Touches.ofMk ?_ kp kp kp kp kp kp kp kp kp kp kp kp kp kp kp kp kp kp kp kp kp kp kp kp kp kp kp ch kp kp kp kp kp kp kp kp kp kp kp
      refine Touches.trans ?_ (Touches.sub (storeRead_touch ..) (by decide))
      exact Touches.refl _
    · refine Touches.done ?_
      refine Touches.trans ?_ (Touches.sub (recordError_touch ..) (by decide))
      refine Touches.trans ?_ (Touches.sub (storeRead_touch ..) (by decide))
      exact Touches.refl _
  · refine Touches.iteNext ?_ ?_
    · refine Touches.done ?_
      refine Touches.trans ?_ (Touches.sub (ctxPartCount_touch ..) (by decide))
      refine Touches.trans ?_ (Touches.sub (ctxCount_touch ..) (by decide))
      exact Touches.refl _
    · refine Touches.done ?_
      refine Touches.trans ?_ (Touches.sub (storeWrite_touch ..) (by decide))
      exact Touches.refl _

theorem restartBlock_touch (s : State) (b : Nat) :
    Touches [.frames, .parts, .regions, .blocks, .cells, .sram, .out] s (restartBlock s b) := by
  unfold restartBlock
  try conv => arg 3; zeta
  refine Touches.foldl (fun y0 _ => ?_) ?_ _
  · refine Touches.trans ?_ (Touches.sub (flagFrames_touch ..) (by decide))
    exact Touches.refl _
  · refine Touches.trans ?_ (Touches.sub (State.updRegion_touch ..) (by decide))
    refine Touches.trans ?_ (Touches.sub (State.updBlock_touch ..) (by decide))
    refine Touches.trans ?_ (Touches.sub (shadowDiscard_touch ..) (by decide))
    refine Touches.trans ?_ (Touches.sub (sramZero_touch ..) (by decide))
    refine Touches.trans ?_ (Touches.sub (blockFlush_touch ..) (by decide))
    exact Touches.refl _

theorem blockFault_touch (s : State) (b : Nat) :
    Touches [.rings, .streams, .frames, .batches, .ctxs, .parts, .regions, .blocks, .cells, .mem, .bpm, .store, .alarms, .tu, .sram, .out, .freeIx] s (blockFault s b) := by
  unfold blockFault
  try conv => arg 3; zeta
  refine Touches.ite ?_ ?_
  · exact Touches.refl _
  · refine Touches.ite ?_ ?_
    · refine Touches.trans ?_ (Touches.sub (blockFence_touch ..) (by decide))
      exact Touches.refl _
    · refine Touches.ite ?_ ?_
      · refine Touches.trans ?_ (Touches.sub (regionFence_touch ..) (by decide))
        refine Touches.trans ?_ (Touches.sub (restartBlock_touch ..) (by decide))
        exact Touches.refl _
      · refine Touches.trans ?_ (Touches.sub (restartBlock_touch ..) (by decide))
        exact Touches.refl _

theorem execMapperWatchdog_touch (block : Nat) (s : State) :
    ∃ u, execMapperWatchdog block s = .next u ∧ Touches [.rings, .streams, .frames, .batches, .ctxs, .parts, .regions, .blocks, .cells, .mem, .bpm, .store, .alarms, .tu, .sram, .out, .freeIx] s u := by
  unfold execMapperWatchdog
  refine Touches.iteNext ?_ ?_
  · refine Touches.done ?_
    refine Touches.trans ?_ (Touches.sub (blockFault_touch ..) (by decide))
    exact Touches.refl _
  · refine Touches.done ?_
    exact Touches.refl _

theorem resumeLayer_touch (s : State) (cx : Nat) (q : Stripe) (li : Nat) (sec : Nat × Nat × Nat) :
    Touches [.ctxs, .parts] s (resumeLayer s cx q li sec) := by
  unfold resumeLayer
  try conv => arg 3; zeta
  refine Touches.trans ?_ (Touches.sub (ctxPartCount_touch ..) (by decide))
  refine Touches.trans ?_ (Touches.sub (updSweep_touch ..) (by decide))
  exact Touches.refl _

theorem resumeLayers_touch (cx : Nat) (old : Ctx) (body : Bytes) (qs : List (Stripe × Stripe)) (x4 : List Nat) (x5 : State) :
    Touches [.ctxs, .parts] x5 (resumeLayers cx old body qs x4 x5) := by
  induction x4 generalizing x5 with
  | nil =>
    rw [resumeLayers]
    exact Touches.refl _
  | cons a t ih =>
    rw [resumeLayers]
    refine Touches.trans ?_ (ih ..)
    refine Touches.foldl (fun y0 _ => ?_) ?_ _
    · refine Touches.trans ?_ (Touches.sub (resumeLayer_touch ..) (by decide))
      exact Touches.refl _
    · exact Touches.refl _

theorem giveUpTile_touch (s : State) (b : Nat) (m : CellCmd) :
    Touches [.moult, .rings, .streams, .frames, .resamplers, .relq, .batches, .ctxs, .parts, .regions, .mem, .bpm, .store, .alarms, .tu, .out, .freeIx] s (giveUpTile s b m) := by
  unfold giveUpTile
  try conv => arg 3; zeta
  split
  · refine Touches.trans ?_ (Touches.sub (tileCommitted_touch ..) (by decide))
    refine Touches.trans ?_ (Touches.sub (State.updCtx_touch ..) (by decide))
    exact Touches.refl _
  · refine Touches.ite ?_ ?_
    · refine Touches.trans ?_ (Touches.sub (discardFrame_touch ..) (by decide))
      refine Touches.trans ?_ (Touches.sub (tileCommitted_touch ..) (by decide))
      refine Touches.trans ?_ (Touches.sub (State.updCtx_touch ..) (by decide))
      exact Touches.refl _
    · refine Touches.trans ?_ (Touches.sub (tileCommitted_touch ..) (by decide))
      refine Touches.trans ?_ (Touches.sub (State.updCtx_touch ..) (by decide))
      exact Touches.refl _

theorem reissueGroup_touch (s : State) (b : Nat) (m : CellCmd) :
    Touches [.ctxs, .cells] s (reissueGroup s b m) := by
  unfold reissueGroup
  try conv => arg 3; zeta
  split
  · exact Touches.refl _
  · refine Touches.trans ?_ (Touches.sub (updSweep_touch ..) (by decide))
    refine Touches.foldl (fun y0 _ => ?_) ?_ _
    · refine Touches.trans ?_ (Touches.sub (State.updCell_touch ..) (by decide))
      exact Touches.refl _
    · exact Touches.refl _

theorem reissueAll_touch (b : Nat) (x1 : List CellCmd) (x2 : State) :
    Touches [.ctxs, .cells] x2 (reissueAll b x1 x2) := by
  induction x1 generalizing x2 with
  | nil =>
    rw [reissueAll]
    exact Touches.refl _
  | cons a t ih =>
    rw [reissueAll]
    refine Touches.trans ?_ (ih ..)
    refine Touches.ite ?_ ?_
    · refine Touches.trans ?_ (Touches.sub (reissueGroup_touch ..) (by decide))
      exact Touches.refl _
    · exact Touches.refl _

theorem replayCmd_touch (s : State) (b : Nat) (m : CellCmd) (cause : Nat) :
    Touches [.moult, .rings, .streams, .frames, .resamplers, .relq, .batches, .ctxs, .parts, .regions, .blocks, .cells, .mem, .bpm, .store, .alarms, .tu, .out, .freeIx] s (replayCmd s b m cause) := by
  unfold replayCmd
  try conv => arg 3; zeta
  split
  · exact Touches.refl _
  · refine Touches.ite ?_ ?_
    · refine Touches.trans ?_ (Touches.sub (entryProgress_touch ..) (by decide))
      refine Touches.trans ?_ (Touches.sub (reissueAll_touch ..) (by decide))
      refine Touches.trans ?_ (Touches.sub (giveUpTile_touch ..) (by decide))
      refine Touches.trans ?_ (Touches.sub (State.updCtx_touch ..) (by decide))
      exact Touches.refl _
    · split
      · refine Touches.trans ?_ (Touches.sub (reissueAll_touch ..) (by decide))
        refine Touches.trans ?_ (Touches.sub (State.updCtx_touch ..) (by decide))
        exact Touches.refl _
      · refine Touches.trans ?_ (Touches.sub (ledgerWrite_touch ..) (by decide))
        refine Touches.trans ?_ (Touches.sub (State.updFrame_touch ..) (by decide))
        refine Touches.trans ?_ (Touches.sub (reissueAll_touch ..) (by decide))
        refine Touches.trans ?_ (Touches.sub (State.updCtx_touch ..) (by decide))
        exact Touches.refl _

theorem abortRunning_touch (s : State) (c : Nat) (cause : Nat) :
    Touches [.moult, .rings, .streams, .frames, .resamplers, .relq, .batches, .ctxs, .parts, .regions, .blocks, .cells, .mem, .bpm, .store, .alarms, .tu, .sram, .out, .freeIx] s (abortRunning s c cause) := by
  unfold abortRunning
  try conv => arg 3; zeta
  refine Touches.foldl (fun y1 _ => ?_) ?_ _
  · refine Touches.trans ?_ (Touches.sub (replayCmd_touch ..) (by decide))
    exact Touches.refl _
  · refine Touches.foldl (fun y0 _ => ?_) ?_ _
    · refine Touches.trans ?_ (Touches.sub (rangesFree_touch ..) (by decide))
      exact Touches.refl _
    · refine Touches.trans ?_ (Touches.sub (State.updCell_touch ..) (by decide))
      refine Touches.trans ?_ (Touches.sub (State.updRegion_touch ..) (by decide))
      exact Touches.refl _

theorem cellFault_touch (s : State) (c : Nat) :
    Touches [.moult, .rings, .streams, .frames, .resamplers, .relq, .batches, .ctxs, .parts, .regions, .blocks, .cells, .mem, .bpm, .store, .alarms, .tu, .sram, .out, .freeIx] s (cellFault s c) := by
  unfold cellFault
  try conv => arg 3; zeta
  refine Touches.ite ?_ ?_
  · exact Touches.refl _
  · refine Touches.trans ?_ (Touches.sub (selftestPlace_touch ..) (by decide))
    refine Touches.trans ?_ (Touches.sub (cellFence_touch ..) (by decide))
    refine Touches.foldl (fun y0 _ => ?_) ?_ _
    · refine Touches.trans ?_ (Touches.sub (shadowDrop_touch ..) (by decide))
      exact Touches.refl _
    · refine Touches.trans ?_ (Touches.sub (reissueAll_touch ..) (by decide))
      refine Touches.trans ?_ (Touches.sub (abortRunning_touch ..) (by decide))
      exact Touches.refl _

theorem execCellEccError_touch (cell : Nat) (ecc : Ecc) (s : State) :
    ∃ u, execCellEccError cell ecc s = .next u ∧ Touches [.moult, .rings, .streams, .frames, .resamplers, .relq, .batches, .ctxs, .parts, .regions, .blocks, .cells, .mem, .bpm, .store, .alarms, .tu, .sram, .out, .freeIx] s u := by
  unfold execCellEccError
  split
  · refine Touches.done ?_
    exact Touches.refl _
  · refine Touches.done ?_
    refine Touches.trans ?_ (Touches.sub (State.updCell_touch ..) (by decide))
    exact Touches.refl _
  · refine Touches.done ?_
    refine Touches.trans ?_ (Touches.sub (cellFault_touch ..) (by decide))
    exact Touches.refl _

theorem execResidueMismatch_touch (cell : Nat) (s : State) :
    ∃ u, execResidueMismatch cell s = .next u ∧ Touches [.moult, .rings, .streams, .frames, .resamplers, .relq, .batches, .ctxs, .parts, .regions, .blocks, .cells, .mem, .bpm, .store, .alarms, .tu, .sram, .out, .freeIx] s u := by
  unfold execResidueMismatch
  refine Touches.done ?_
  refine Touches.trans ?_ (Touches.sub (cellFault_touch ..) (by decide))
  exact Touches.refl _

theorem execCellSelftestReturn_touch (cell : Nat) (pass : Bool) (s : State) :
    ∃ u, execCellSelftestReturn cell pass s = .next u ∧ Touches [.rings, .ctxs, .parts, .regions, .blocks, .cells, .mem, .bpm, .store, .alarms, .tu, .out, .freeIx] s u := by
  unfold execCellSelftestReturn
  try conv => enter [1, t, 1, 1]; zeta
  refine Touches.iteNext ?_ ?_
  · refine Touches.done ?_
    refine Touches.trans ?_ (Touches.sub (selftestEnds_touch ..) (by decide))
    refine Touches.trans ?_ (Touches.sub (State.updCell_touch ..) (by decide))
    exact Touches.refl _
  · refine Touches.iteNext ?_ ?_
    · refine Touches.done ?_
      refine Touches.trans ?_ (Touches.sub (selftestEnds_touch ..) (by decide))
      exact Touches.refl _
    · refine Touches.done ?_
      exact Touches.refl _

theorem execRegionFault_touch (region : Nat) (x1 : Nat) (s : State) :
    ∃ u, execRegionFault region x1 s = .next u ∧ Touches [.rings, .streams, .frames, .batches, .ctxs, .parts, .regions, .blocks, .cells, .mem, .bpm, .store, .alarms, .tu, .out, .freeIx] s u := by
  unfold execRegionFault
  refine Touches.done ?_
  refine Touches.trans ?_ (Touches.sub (regionFence_touch ..) (by decide))
  exact Touches.refl _

theorem redoTails_touch (s : State) (cx : Nat) (b : Nat) :
    Touches [.ctxs] s (redoTails s cx b) := by
  unfold redoTails
  try conv => arg 3; zeta
  refine Touches.foldl (fun y0 _ => ?_) ?_ _
  · split
    · exact Touches.refl _
    · refine Touches.ite ?_ ?_
      · refine Touches.trans ?_ (Touches.sub (updSweep_touch ..) (by decide))
        exact Touches.refl _
      · exact Touches.refl _
  · exact Touches.refl _

theorem execBlockRestart_touch (block : Nat) (s : State) :
    ∃ u, execBlockRestart block s = .next u ∧ Touches [.rings, .streams, .frames, .batches, .ctxs, .parts, .regions, .blocks, .cells, .mem, .bpm, .store, .alarms, .tu, .sram, .out, .freeIx] s u := by
  unfold execBlockRestart
  refine Touches.done ?_
  refine Touches.trans ?_ (Touches.sub (blockFault_touch ..) (by decide))
  exact Touches.refl _

theorem semRecreate_touch (cx : Nat) (x1 : List Claim) (x2 : State) :
    Touches [.ctxs, .blocks] x2 (semRecreate cx x1 x2) := by
  induction x1 generalizing x2 with
  | nil =>
    rw [semRecreate]
    exact Touches.refl _
  | cons a t ih =>
    rw [semRecreate]
    refine Touches.trans ?_ (ih ..)
    refine Touches.trans ?_ (Touches.sub (State.updBlock_touch ..) (by decide))
    refine Touches.trans ?_ (Touches.sub (State.updCtx_touch ..) (by decide))
    exact Touches.refl _

theorem leaveBlocks_touch (s : State) (cx : Nat) :
    Touches [.blocks] s (leaveBlocks s cx) := by
  unfold leaveBlocks
  try conv => arg 3; zeta
  refine Touches.ofMk ?_ kp kp kp kp kp kp kp kp kp kp kp kp kp kp kp kp kp kp kp kp kp kp ch kp kp kp kp kp kp kp kp kp kp kp kp kp kp kp kp
  exact Touches.refl _

theorem withdrawQueued_touch (s : State) (cx : Nat) :
    Touches [.cells] s (withdrawQueued s cx) := by
  unfold withdrawQueued
  refine Touches.ofMk ?_ kp kp kp kp kp kp kp kp kp kp kp kp kp kp kp kp kp kp kp kp kp kp kp ch kp kp kp kp kp kp kp kp kp kp kp kp kp kp kp
  exact Touches.refl _

theorem captureCtx_touch (s : State) (cx : Nat) :
    Touches [.rings, .ctxs, .parts, .regions, .blocks, .cells, .mem, .bpm, .store, .alarms, .tu, .sram, .out, .freeIx] s (captureCtx s cx) := by
  unfold captureCtx
  try conv => arg 3; zeta
  split
  · exact Touches.refl _
  · refine Touches.ite ?_ ?_
    · exact Touches.refl _
    · split
      · split
        · rename_i v0 v1 e1 e2
          have hv1 : Touches [.rings, .ctxs, .parts, .regions, .blocks, .cells, .mem, .bpm, .store, .alarms, .tu, .sram, .out, .freeIx] s v1 := by
            refine Touches.pair e2 ?_
            refine Touches.trans ?_ (Touches.sub (bpmAlloc_touch ..) (by decide))
            exact Touches.refl _
          refine Touches.trans ?_ (Touches.sub (ctxPartCount_touch ..) (by decide))
          refine Touches.trans ?_ (Touches.sub (ctxPartCount_touch ..) (by decide))
          refine Touches.trans ?_ (Touches.sub (State.updCtx_touch ..) (by decide))
          refine Touches.trans ?_ (Touches.sub (leaveBlocks_touch ..) (by decide))
          refine Touches.ofMk ?_ kp kp kp kp kp kp kp kp kp kp kp kp kp kp kp kp kp kp kp kp kp kp kp kp kp kp kp ch kp kp kp kp kp kp kp kp kp kp kp
          refine Touches.trans ?_ (Touches.sub (storeNew_touch ..) (by decide))
          refine Touches.trans ?_ (Touches.sub (withdrawQueued_touch ..) (by decide))
          refine Touches.trans ?_ (Touches.sub (chargeBody_touch ..) (by decide))
          refine Touches.trans ?_ (Touches.sub (dramWrite_touch ..) (by decide))
          refine Touches.trans ?_ (Touches.sub (stageBody_touch ..) (by decide))
          exact hv1
        · refine Touches.trans ?_ (Touches.sub (ctxPartCount_touch ..) (by decide))
          exact Touches.refl _
      · refine Touches.trans ?_ (Touches.sub (ctxPartCount_touch ..) (by decide))
        exact Touches.refl _

theorem evictFrom_touch (s : State) (b : Nat) :
    Touches [.rings, .ctxs, .parts, .regions, .blocks, .cells, .mem, .bpm, .store, .alarms, .tu, .sram, .out, .freeIx] s (evictFrom s b) := by
  unfold evictFrom
  try conv => arg 3; zeta
  split
  · exact Touches.refl _
  · refine Touches.ite ?_ ?_
    · refine Touches.trans ?_ (Touches.sub (rgnCount_touch ..) (by decide))
      refine Touches.trans ?_ (Touches.sub (captureCtx_touch ..) (by decide))
      exact Touches.refl _
    · refine Touches.trans ?_ (Touches.sub (captureCtx_touch ..) (by decide))
      exact Touches.refl _

theorem execEviction_touch (block : Nat) (s : State) :
    ∃ u, execEviction block s = .next u ∧ Touches [.rings, .ctxs, .parts, .regions, .blocks, .cells, .mem, .bpm, .store, .alarms, .tu, .sram, .out, .freeIx] s u := by
  unfold execEviction
  refine Touches.iteNext ?_ ?_
  · refine Touches.done ?_
    refine Touches.trans ?_ (Touches.sub (evictFrom_touch ..) (by decide))
    exact Touches.refl _
  · refine Touches.done ?_
    exact Touches.refl _

theorem handoffRecreate_touch (s : State) (cx : Nat) (q : Stripe) :
    Touches [.blocks] s (handoffRecreate s cx q) := by
  unfold handoffRecreate
  try conv => arg 3; zeta
  refine Touches.foldl (fun y0 _ => ?_) ?_ _
  · refine Touches.trans ?_ (Touches.sub (State.updBlock_touch ..) (by decide))
    refine Touches.trans ?_ (Touches.sub (State.updBlock_touch ..) (by decide))
    exact Touches.refl _
  · exact Touches.refl _

theorem execResidencyWaitTimeout_touch (block : Nat) (s : State) :
    ∃ u, execResidencyWaitTimeout block s = .next u ∧ Touches [.rings, .ctxs, .parts, .regions, .blocks, .cells, .mem, .bpm, .store, .alarms, .tu, .sram, .out, .freeIx] s u := by
  unfold execResidencyWaitTimeout
  refine Touches.iteNext ?_ ?_
  · refine Touches.done ?_
    refine Touches.trans ?_ (Touches.sub (evictFrom_touch ..) (by decide))
    exact Touches.refl _
  · refine Touches.done ?_
    exact Touches.refl _

theorem execRegionStoreEccError_touch (region : Nat) (addr : Nat) (s : State) :
    ∃ u, execRegionStoreEccError region addr s = .next u ∧ Touches [.moult, .rings, .streams, .frames, .resamplers, .relq, .batches, .ctxs, .parts, .regions, .blocks, .cells, .mem, .bpm, .store, .alarms, .tu, .sram, .out, .freeIx] s u := by
  unfold execRegionStoreEccError
  try conv => enter [1, t, 1, 1]; zeta
  refine Touches.done ?_
  refine Touches.foldl (fun y0 _ => ?_) ?_ _
  · refine Touches.foldl (fun y1 _ => ?_) ?_ _
    · refine Touches.trans ?_ (Touches.sub (replayCmd_touch ..) (by decide))
      refine Touches.trans ?_ (Touches.sub (abortCmd_touch ..) (by decide))
      exact Touches.refl _
    · exact Touches.refl _
  · exact Touches.refl _

theorem execChrysalisCapture_touch (ctx : Nat) (s : State) :
    ∃ u, execChrysalisCapture ctx s = .next u ∧ Touches [.rings, .ctxs, .parts, .regions, .blocks, .cells, .mem, .bpm, .store, .alarms, .tu, .sram, .out, .freeIx] s u := by
  unfold execChrysalisCapture
  refine Touches.done ?_
  refine Touches.trans ?_ (Touches.sub (captureCtx_touch ..) (by decide))
  exact Touches.refl _

theorem resumeStripes_touch (s : State) (cx : Nat) (old : Ctx) (bl : List Nat) (body : Bytes) :
    Touches [.ctxs, .parts, .blocks] s (resumeStripes s cx old bl body) := by
  unfold resumeStripes
  try conv => arg 3; zeta
  refine Touches.foldl (fun y0 _ => ?_) ?_ _
  · refine Touches.trans ?_ (Touches.sub (handoffRecreate_touch ..) (by decide))
    exact Touches.refl _
  · refine Touches.trans ?_ (Touches.sub (resumeLayers_touch ..) (by decide))
    refine Touches.trans ?_ (Touches.sub (semRecreate_touch ..) (by decide))
    refine Touches.trans ?_ (Touches.sub (State.updCtx_touch ..) (by decide))
    exact Touches.refl _

theorem restoreInto_touch (s : State) (cx : Nat) (x : Ctx) (bl : List Nat) (body : Bytes) :
    Touches [.rings, .ctxs, .parts, .regions, .blocks, .mem, .bpm, .store, .alarms, .tu, .sram, .out, .freeIx] s (restoreInto s cx x bl body) := by
  unfold restoreInto
  try conv => arg 3; zeta
  refine Touches.trans ?_ (Touches.sub (ctxPartCount_touch ..) (by decide))
  refine Touches.trans ?_ (Touches.sub (ctxPartCount_touch ..) (by decide))
  refine Touches.trans ?_ (Touches.sub (ctxPartCount_touch ..) (by decide))
  refine Touches.trans ?_ (Touches.sub (chargeBody_touch ..) (by decide))
  refine Touches.ite ?_ ?_
  · refine Touches.trans ?_ (Touches.sub (resumeStripes_touch ..) (by decide))
    refine Touches.trans ?_ (Touches.sub (placeCtx_touch ..) (by decide))
    refine Touches.trans ?_ (Touches.sub (State.updCtx_touch ..) (by decide))
    refine Touches.trans ?_ (Touches.sub (freeChrysalis_touch ..) (by decide))
    refine Touches.trans ?_ (Touches.sub (stageBody_touch ..) (by decide))
    exact Touches.refl _
  · refine Touches.trans ?_ (Touches.sub (placeCtx_touch ..) (by decide))
    refine Touches.trans ?_ (Touches.sub (State.updCtx_touch ..) (by decide))
    refine Touches.trans ?_ (Touches.sub (freeChrysalis_touch ..) (by decide))
    refine Touches.trans ?_ (Touches.sub (stageBody_touch ..) (by decide))
    exact Touches.refl _

theorem reclaimEntry_touch (cx : Nat) (x1 : List Nat) (x2 : State) :
    Touches [.ctxs, .blocks, .cells] x2 (reclaimEntry cx x1 x2) := by
  induction x1 generalizing x2 with
  | nil =>
    rw [reclaimEntry]
    exact Touches.refl _
  | cons a t ih =>
    rw [reclaimEntry]
    try conv => arg 3; zeta
    refine Touches.trans ?_ (ih ..)
    refine Touches.trans ?_ (Touches.sub (State.updBlock_touch ..) (by decide))
    refine Touches.trans ?_ (Touches.sub (State.updCtx_touch ..) (by decide))
    refine Touches.trans ?_ (Touches.sub (State.updCtx_touch ..) (by decide))
    refine Touches.trans ?_ (Touches.sub (State.updCtx_touch ..) (by decide))
    refine Touches.trans ?_ (Touches.sub (State.updCtx_touch ..) (by decide))
    refine Touches.ofMk ?_ kp kp kp kp kp kp kp kp kp kp kp kp kp kp kp kp kp kp kp kp kp kp kp ch kp kp kp kp kp kp kp kp kp kp kp kp kp kp kp
    exact Touches.refl _

theorem reclaim_touch (s : State) (b : Nat) (cx : Nat) :
    Touches [.ctxs, .parts, .blocks, .cells] s (reclaim s b cx) := by
  unfold reclaim
  try conv => arg 3; zeta
  split
  · exact Touches.refl _
  · refine Touches.ite ?_ ?_
    · exact Touches.refl _
    · refine Touches.trans ?_ (Touches.sub (mapCount_touch ..) (by decide))
      refine Touches.trans ?_ (Touches.sub (State.updCtx_touch ..) (by decide))
      refine Touches.trans ?_ (Touches.sub (redoTails_touch ..) (by decide))
      refine Touches.trans ?_ (Touches.sub (reclaimEntry_touch ..) (by decide))
      exact Touches.refl _

theorem execBlockRestartDone_touch (block : Nat) (s : State) :
    ∃ u, execBlockRestartDone block s = .next u ∧ Touches [.ctxs, .parts, .blocks, .cells] s u := by
  unfold execBlockRestartDone
  try conv => enter [1, t, 1, 1]; zeta
  refine Touches.iteNext ?_ ?_
  · refine Touches.done ?_
    refine Touches.foldl (fun y0 _ => ?_) ?_ _
    · refine Touches.trans ?_ (Touches.sub (reclaim_touch ..) (by decide))
      exact Touches.refl _
    · refine Touches.trans ?_ (Touches.sub (State.updBlock_touch ..) (by decide))
      exact Touches.refl _
  · refine Touches.done ?_
    exact Touches.refl _

theorem execChrysalisRestore_touch (ctx : Nat) (block : Nat) (bodyOk : Bool) (s : State) :
    ∃ u, execChrysalisRestore ctx block bodyOk s = .next u ∧ Touches [.rings, .streams, .batches, .ctxs, .parts, .regions, .blocks, .cells, .mem, .bpm, .store, .alarms, .tu, .sram, .out, .freeIx] s u := by
  unfold execChrysalisRestore
  try conv => enter [1, t, 1, 1]; zeta
  split
  · refine Touches.done ?_
    exact Touches.refl _
  · split
    · refine Touches.done ?_
      exact Touches.refl _
    · refine Touches.iteNext ?_ ?_
      · refine Touches.done ?_
        refine Touches.trans ?_ (Touches.sub (discardChrysalis_touch ..) (by decide))
        refine Touches.trans ?_ (Touches.sub (storeRead_touch ..) (by decide))
        exact Touches.refl _
      · refine Touches.iteNext ?_ ?_
        · refine Touches.iteNext ?_ ?_
          · refine Touches.done ?_
            refine Touches.trans ?_ (Touches.sub (discardChrysalis_touch ..) (by decide))
            refine Touches.trans ?_ (Touches.sub (storeRead_touch ..) (by decide))
            exact Touches.refl _
          · refine Touches.iteNext ?_ ?_
            · refine Touches.done ?_
              refine Touches.trans ?_ (Touches.sub (restoreInto_touch ..) (by decide))
              refine Touches.trans ?_ (Touches.sub (storeRead_touch ..) (by decide))
              exact Touches.refl _
            · refine Touches.done ?_
              exact Touches.refl _
        · refine Touches.done ?_
          exact Touches.refl _

theorem execNocLinkCrcError_touch (x0 : Nat) (s : State) :
    ∃ u, execNocLinkCrcError x0 s = .next u ∧ Touches [] s u := by
  unfold execNocLinkCrcError
  refine Touches.done ?_
  exact Touches.refl _

theorem execCommandIssue_touch (cell : Nat) (unit : Nat) (s : State) :
    ∃ u, execCommandIssue cell unit s = .next u ∧ Touches [.moult, .rings, .streams, .frames, .resamplers, .relq, .batches, .ctxs, .parts, .regions, .blocks, .cells, .mem, .bpm, .store, .alarms, .tu, .sram, .out, .freeIx] s u := by
  unfold execCommandIssue
  try conv => enter [1, t, 1, 1]; zeta
  refine Touches.iteNext ?_ ?_
  · refine Touches.done ?_
    exact Touches.refl _
  · split
    · refine Touches.done ?_
      exact Touches.refl _
    · refine Touches.iteNext ?_ ?_
      · refine Touches.done ?_
        refine Touches.trans ?_ (Touches.sub (raiseLog_touch ..) (by decide))
        refine Touches.trans ?_ (Touches.sub (cellFault_touch ..) (by decide))
        refine Touches.trans ?_ (Touches.sub (startCmd_touch ..) (by decide))
        exact Touches.refl _
      · refine Touches.done ?_
        refine Touches.trans ?_ (Touches.sub (startCmd_touch ..) (by decide))
        exact Touches.refl _

theorem dropStaged_touch (port : Nat) (fn : Nat) (x2 : List Nat) (x3 : State) :
    Touches [.rings, .frames, .out] x3 (dropStaged port fn x2 x3) := by
  induction x2 generalizing x3 with
  | nil =>
    rw [dropStaged]
    exact Touches.refl _
  | cons a t ih =>
    rw [dropStaged]
    refine Touches.trans ?_ (ih ..)
    refine Touches.trans ?_ (Touches.sub (ringDropHeld_touch ..) (by decide))
    refine Touches.trans ?_ (Touches.sub (State.updRing_touch ..) (by decide))
    exact Touches.refl _

theorem dropAllStaged_touch (x0 : List Nat) (x1 : State) :
    Touches [.rings, .frames, .out] x1 (dropAllStaged x0 x1) := by
  induction x0 generalizing x1 with
  | nil =>
    rw [dropAllStaged]
    exact Touches.refl _
  | cons a t ih =>
    rw [dropAllStaged]
    refine Touches.trans ?_ (ih ..)
    refine Touches.trans ?_ (Touches.sub (dropStaged_touch ..) (by decide))
    exact Touches.refl _

theorem parserLose_touch (s : State) (slot : Nat) :
    Touches [.rings, .streams, .parts, .bpm, .alarms, .tu, .out, .freeIx] s (parserLose s slot) := by
  unfold parserLose
  try conv => arg 3; zeta
  refine Touches.trans ?_ (Touches.sub (State.updIng_touch ..) (by decide))
  refine Touches.trans ?_ (Touches.sub (dropOpenAu_touch ..) (by decide))
  exact Touches.refl _

theorem parserLoses_touch (x0 : List Nat) (x1 : State) :
    Touches [.rings, .streams, .parts, .bpm, .alarms, .tu, .out, .freeIx] x1 (parserLoses x0 x1) := by
  induction x0 generalizing x1 with
  | nil =>
    rw [parserLoses]
    exact Touches.refl _
  | cons a t ih =>
    rw [parserLoses]
    refine Touches.trans ?_ (ih ..)
    refine Touches.ite ?_ ?_
    · refine Touches.trans ?_ (Touches.sub (parserLose_touch ..) (by decide))
      exact Touches.refl _
    · exact Touches.refl _

theorem unitDiscard_touch (s : State) (u : Nat) :
    Touches [.moult, .rings, .streams, .frames, .resamplers, .relq, .batches, .parts, .regions, .mem, .bpm, .store, .alarms, .tu, .out, .freeIx] s (unitDiscard s u) := by
  unfold unitDiscard
  try conv => arg 3; zeta
  refine Touches.ite ?_ ?_
  · refine Touches.trans ?_ (Touches.sub (discardFrames_touch ..) (by decide))
    refine Touches.trans ?_ (Touches.sub (parserLoses_touch ..) (by decide))
    exact Touches.refl _
  · refine Touches.ite ?_ ?_
    · refine Touches.trans ?_ (Touches.sub (dropAllStaged_touch ..) (by decide))
      refine Touches.trans ?_ (Touches.sub (discardFrames_touch ..) (by decide))
      exact Touches.refl _
    · refine Touches.ite ?_ ?_
      · refine Touches.ofMk ?_ kp kp kp kp kp kp kp kp kp kp kp kp kp kp kp kp kp kp kp kp kp kp kp kp kp kp kp ch kp kp kp kp kp kp kp kp kp kp kp
        exact Touches.refl _
      · refine Touches.ite ?_ ?_
        · refine Touches.ofMk ?_ kp kp kp kp kp kp kp kp kp kp kp kp kp kp kp kp kp kp kp kp kp kp kp kp kp kp ch kp kp kp kp kp kp kp kp kp kp kp kp
          exact Touches.refl _
        · exact Touches.refl _

theorem unitRestart_touch (s : State) (u : Nat) :
    Touches [.moult, .rings, .streams, .frames, .resamplers, .relq, .batches, .parts, .regions, .mem, .bpm, .store, .alarms, .aon, .tu, .unitsDown, .out, .freeIx] s (unitRestart s u) := by
  unfold unitRestart
  try conv => arg 3; zeta
  refine Touches.trans ?_ (Touches.sub (raiseAlarm_touch ..) (by decide))
  refine Touches.ofMk ?_ kp kp kp kp kp kp kp kp kp kp kp kp kp kp kp kp kp kp kp kp kp kp kp kp kp kp kp kp kp kp ch kp ch kp kp kp kp kp kp
  refine Touches.trans ?_ (Touches.sub (unitDiscard_touch ..) (by decide))
  exact Touches.refl _

theorem engineLose_touch (s : State) (slot : Nat) :
    Touches [.moult, .rings, .streams, .frames, .engines, .resamplers, .relq, .batches, .parts, .regions, .mem, .bpm, .store, .alarms, .tu, .out, .freeIx] s (engineLose s slot) := by
  unfold engineLose
  try conv => arg 3; zeta
  refine Touches.trans ?_ (Touches.sub (State.updDec_touch ..) (by decide))
  refine Touches.trans ?_ (Touches.sub (rollback_touch ..) (by decide))
  refine Touches.trans ?_ (Touches.sub (engineDrop_touch ..) (by decide))
  split
  · exact Touches.refl _
  · refine Touches.trans ?_ (Touches.sub (discardFrame_touch ..) (by decide))
    exact Touches.refl _

theorem engineReassign_touch (x0 : List Nat) (x1 : State) :
    Touches [.rings, .streams, .parts, .mem, .bpm, .alarms, .tu, .out, .freeIx] x1 (engineReassign x0 x1) := by
  induction x0 generalizing x1 with
  | nil =>
    rw [engineReassign]
    exact Touches.refl _
  | cons a t ih =>
    rw [engineReassign]
    refine Touches.trans ?_ (ih ..)
    refine Touches.ite ?_ ?_
    · exact Touches.refl _
    · split
      · refine Touches.trans ?_ (Touches.sub (engineTake_touch ..) (by decide))
        exact Touches.refl _
      · exact Touches.refl _

theorem engineLoses_touch (x0 : List Nat) (x1 : State) :
    Touches [.moult, .rings, .streams, .frames, .engines, .resamplers, .relq, .batches, .parts, .regions, .mem, .bpm, .store, .alarms, .tu, .out, .freeIx] x1 (engineLoses x0 x1) := by
  induction x0 generalizing x1 with
  | nil =>
    rw [engineLoses]
    exact Touches.refl _
  | cons a t ih =>
    rw [engineLoses]
    refine Touches.trans ?_ (ih ..)
    refine Touches.trans ?_ (Touches.sub (engineLose_touch ..) (by decide))
    exact Touches.refl _

theorem engineFence_touch (s : State) (g : Nat) :
    Touches [.moult, .rings, .streams, .frames, .engines, .resamplers, .relq, .batches, .parts, .regions, .mem, .bpm, .store, .alarms, .tu, .out, .freeIx] s (engineFence s g) := by
  unfold engineFence
  try conv => arg 3; zeta
  refine Touches.ite ?_ ?_
  · exact Touches.refl _
  · refine Touches.trans ?_ (Touches.sub (raiseAlarm_touch ..) (by decide))
    refine Touches.trans ?_ (Touches.sub (engineAssignAll_touch ..) (by decide))
    refine Touches.trans ?_ (Touches.sub (engineReassign_touch ..) (by decide))
    refine Touches.trans ?_ (Touches.sub (engineLoses_touch ..) (by decide))
    refine Touches.ofMk ?_ kp kp kp kp kp kp kp kp kp kp kp kp kp kp kp ch kp kp kp kp kp kp kp kp kp kp kp kp kp kp kp kp kp kp kp kp kp kp kp
    exact Touches.refl _

theorem resampleAgain_touch (s : State) (fid : Nat) :
    Touches [.rings, .frames, .relq, .parts, .bpm, .alarms, .tu, .out, .freeIx] s (resampleAgain s fid) := by
  unfold resampleAgain
  try conv => arg 3; zeta
  refine Touches.ofMk ?_ kp kp kp kp kp kp kp kp kp kp kp kp kp kp kp kp kp ch kp kp kp kp kp kp kp kp kp kp kp kp kp kp kp kp kp kp kp kp kp
  refine Touches.trans ?_ (Touches.sub (State.updFrame_touch ..) (by decide))
  refine Touches.trans ?_ (Touches.sub (freeWork_touch ..) (by decide))
  exact Touches.refl _

theorem resamplerFence_touch (s : State) (r : Nat) :
    Touches [.rings, .frames, .resamplers, .relq, .parts, .bpm, .alarms, .tu, .out, .freeIx] s (resamplerFence s r) := by
  unfold resamplerFence
  try conv => arg 3; zeta
  refine Touches.ite ?_ ?_
  · exact Touches.refl _
  · refine Touches.trans ?_ (Touches.sub (raiseAlarm_touch ..) (by decide))
    split
    · refine Touches.ofMk ?_ kp kp kp kp kp kp kp kp kp kp kp kp kp kp kp kp ch kp kp kp kp kp kp kp kp kp kp kp kp kp kp kp kp kp kp kp kp kp kp
      exact Touches.refl _
    · refine Touches.trans ?_ (Touches.sub (resampleAgain_touch ..) (by decide))
      refine Touches.ofMk ?_ kp kp kp kp kp kp kp kp kp kp kp kp kp kp kp kp ch kp kp kp kp kp kp kp kp kp kp kp kp kp kp kp kp kp kp kp kp kp kp
      exact Touches.refl _

theorem execUnitFault_touch (unit : Nat) (index : Nat) (s : State) :
    ∃ u, execUnitFault unit index s = .next u ∧ Touches [.moult, .rings, .streams, .frames, .engines, .resamplers, .relq, .batches, .parts, .regions, .mem, .bpm, .store, .alarms, .aon, .tu, .unitsDown, .out, .freeIx] s u := by
  unfold execUnitFault
  refine Touches.iteNext ?_ ?_
  · refine Touches.done ?_
    refine Touches.trans ?_ (Touches.sub (engineFence_touch ..) (by decide))
    exact Touches.refl _
  · refine Touches.iteNext ?_ ?_
    · refine Touches.done ?_
      refine Touches.trans ?_ (Touches.sub (resamplerFence_touch ..) (by decide))
      exact Touches.refl _
    · refine Touches.iteNext ?_ ?_
      · refine Touches.done ?_
        refine Touches.trans ?_ (Touches.sub (unitRestart_touch ..) (by decide))
        exact Touches.refl _
      · refine Touches.done ?_
        exact Touches.refl _

theorem giveUpAll_touch (b : Nat) (x1 : List CellCmd) (x2 : State) :
    Touches [.moult, .rings, .streams, .frames, .resamplers, .relq, .batches, .ctxs, .parts, .regions, .blocks, .cells, .mem, .bpm, .store, .alarms, .tu, .out, .freeIx] x2 (giveUpAll b x1 x2) := by
  induction x1 generalizing x2 with
  | nil =>
    rw [giveUpAll]
    exact Touches.refl _
  | cons a t ih =>
    rw [giveUpAll]
    refine Touches.trans ?_ (ih ..)
    refine Touches.trans ?_ (Touches.sub (entryProgress_touch ..) (by decide))
    refine Touches.trans ?_ (Touches.sub (giveUpTile_touch ..) (by decide))
    split
    · exact Touches.refl _
    · split
      · exact Touches.refl _
      · refine Touches.trans ?_ (Touches.sub (State.updFrame_touch ..) (by decide))
        exact Touches.refl _

theorem poisonWeights_touch (s : State) (cell : Nat) (graph : Nat) :
    Touches [.moult, .rings, .streams, .frames, .resamplers, .relq, .batches, .ctxs, .parts, .regions, .blocks, .cells, .mem, .bpm, .store, .alarms, .tu, .sram, .out, .freeIx] s (poisonWeights s cell graph) := by
  unfold poisonWeights
  try conv => arg 3; zeta
  refine Touches.trans ?_ (Touches.sub (raiseAlarm_touch ..) (by decide))
  refine Touches.trans ?_ (Touches.sub (giveUpAll_touch ..) (by decide))
  refine Touches.foldl (fun y0 _ => ?_) ?_ _
  · refine Touches.trans ?_ (Touches.sub (abortCmd_touch ..) (by decide))
    exact Touches.refl _
  · exact Touches.refl _

theorem execPoisonedDataReceive_touch (kind : PoisonKind) (s : State) :
    ∃ u, execPoisonedDataReceive kind s = .next u ∧ Touches [.moult, .rings, .streams, .frames, .resamplers, .relq, .batches, .ctxs, .parts, .regions, .blocks, .cells, .mem, .bpm, .store, .alarms, .tu, .sram, .out, .freeIx] s u := by
  unfold execPoisonedDataReceive
  split
  · refine Touches.done ?_
    refine Touches.trans ?_ (Touches.sub (abortRunning_touch ..) (by decide))
    exact Touches.refl _
  · refine Touches.done ?_
    refine Touches.trans ?_ (Touches.sub (poisonWeights_touch ..) (by decide))
    exact Touches.refl _
  · refine Touches.done ?_
    refine Touches.trans ?_ (Touches.sub (State.updDec_touch ..) (by decide))
    exact Touches.refl _
  · refine Touches.done ?_
    refine Touches.trans ?_ (Touches.sub (auDamage_touch ..) (by decide))
    exact Touches.refl _
  · refine Touches.done ?_
    refine Touches.trans ?_ (Touches.sub (recordError_touch ..) (by decide))
    exact Touches.refl _
  · split
    · refine Touches.done ?_
      refine Touches.trans ?_ (Touches.sub (raiseLogOf_touch ..) (by decide))
      exact Touches.refl _
    · refine Touches.done ?_
      refine Touches.trans ?_ (Touches.sub (raiseLogOf_touch ..) (by decide))
      refine Touches.trans ?_ (Touches.sub (discardFrame_touch ..) (by decide))
      exact Touches.refl _
  · refine Touches.done ?_
    refine Touches.trans ?_ (Touches.sub (raiseLog_touch ..) (by decide))
    refine Touches.foldl (fun y0 _ => ?_) ?_ _
    · refine Touches.trans ?_ (Touches.sub (quarantine_touch ..) (by decide))
      exact Touches.refl _
    · exact Touches.refl _

theorem execUnitRestartDone_touch (unit : Nat) (s : State) :
    ∃ u, execUnitRestartDone unit s = .next u ∧ Touches [.unitsDown] s u := by
  unfold execUnitRestartDone
  refine Touches.done ?_
  refine Touches.ofMk ?_ kp kp kp kp kp kp kp kp kp kp kp kp kp kp kp kp kp kp kp kp kp kp kp kp kp kp kp kp kp kp kp kp ch kp kp kp kp kp kp
  exact Touches.refl _

end Sys2Proof.Machine
end

