-- ==== Sys2Proof/Laws/TouchesExec.lean ====
section
/-! SUPPORT. Every command completes, and changes only the parts that `reach` lists for it. -/

set_option Elab.async false

namespace Sys2Proof.Machine

open Sys2Proof (Instr Word Bytes)

theorem reach_misalignedAccess (acc : Acc) (bar off size : Nat) (write : Bool) (s : State) :
    ∃ s', exec (.misalignedAccess acc bar off size write) s = .next s' ∧ Touches (reach (.misalignedAccess acc bar off size write)) s s' :=
  Touches.subO (execMisalignedAccess_touch acc bar off size write s) (by dsimp only [reach]; decide)

theorem reach_registerWrite (port fn bar off : Nat) (value : Word) (s : State) :
    ∃ s', exec (.registerWrite port fn bar off value) s = .next s' ∧ Touches (reach (.registerWrite port fn bar off value)) s s' :=
  Touches.subO (execRegisterWrite_touch port fn bar off value s) (by dsimp only [reach]; decide)

theorem reach_counterLowRead (acc : Acc) (bar off : Nat) (s : State) :
    ∃ s', exec (.counterLowRead acc bar off) s = .next s' ∧ Touches (reach (.counterLowRead acc bar off)) s s' :=
  Touches.subO (execCounterLowRead_touch acc bar off s) (by dsimp only [reach]; decide)

theorem reach_stoppedWindowAccess (port fn region off : Nat) (write : Bool) (s : State) :
    ∃ s', exec (.stoppedWindowAccess port fn region off write) s = .next s' ∧ Touches (reach (.stoppedWindowAccess port fn region off write)) s s' :=
  Touches.subO (execStoppedWindowAccess_touch port fn region off write s) (by dsimp only [reach]; decide)

theorem reach_porAssert (s : State) : ∃ t, exec .porAssert s = .next t ∧ Touches (reach .porAssert) s t :=
  Touches.subO (execPorAssert_touch ..) (by dsimp only [reach]; decide)

theorem reach_porDeassert (hpSplit : Bool) (smbAddr : Nat) (s : State) :
    ∃ s', exec (.porDeassert hpSplit smbAddr) s = .next s' ∧ Touches (reach (.porDeassert hpSplit smbAddr)) s s' :=
  Touches.subO (execPorDeassert_touch hpSplit smbAddr s) (by dsimp only [reach]; decide)

theorem reach_phaseFuseEnd (s : State) : ∃ t, exec .phaseFuseEnd s = .next t ∧ Touches (reach .phaseFuseEnd) s t :=
  Touches.subO (execPhaseFuseEnd_touch ..) (by dsimp only [reach]; decide)

theorem reach_phaseDramEnd (stack0 stack1 : Bool) (s : State) :
    ∃ s', exec (.phaseDramEnd stack0 stack1) s = .next s' ∧ Touches (reach (.phaseDramEnd stack0 stack1)) s s' :=
  Touches.subO (execPhaseDramEnd_touch stack0 stack1 s) (by dsimp only [reach]; decide)

theorem reach_phaseFlashEnd (s : State) : ∃ t, exec .phaseFlashEnd s = .next t ∧ Touches (reach .phaseFlashEnd) s t :=
  Touches.subO (execPhaseFlashEnd_touch ..) (by dsimp only [reach]; decide)

theorem reach_phaseVerifyEnd (s : State) : ∃ t, exec .phaseVerifyEnd s = .next t ∧ Touches (reach .phaseVerifyEnd) s t :=
  Touches.subO (execPhaseVerifyEnd_touch ..) (by dsimp only [reach]; decide)

theorem reach_phaseCheckEnd (s : State) : ∃ t, exec .phaseCheckEnd s = .next t ∧ Touches (reach .phaseCheckEnd) s t :=
  Touches.subO (execPhaseCheckEnd_touch ..) (by dsimp only [reach]; decide)

theorem reach_phaseLoadEnd (s : State) : ∃ t, exec .phaseLoadEnd s = .next t ∧ Touches (reach .phaseLoadEnd) s t :=
  Touches.subO (execPhaseLoadEnd_touch ..) (by dsimp only [reach]; decide)

theorem reach_phaseSelftestEnd (cells lineStores regionStores : List Nat) (s : State) :
    ∃ s', exec (.phaseSelftestEnd cells lineStores regionStores) s = .next s' ∧ Touches (reach (.phaseSelftestEnd cells lineStores regionStores)) s s' :=
  Touches.subO (execPhaseSelftestEnd_touch cells lineStores regionStores s) (by dsimp only [reach]; decide)

theorem reach_phasePortsEnd (s : State) : ∃ t, exec .phasePortsEnd s = .next t ∧ Touches (reach .phasePortsEnd) s t :=
  Touches.subO (execPhasePortsEnd_touch ..) (by dsimp only [reach]; decide)

theorem reach_phaseTimeout (s : State) : ∃ t, exec .phaseTimeout s = .next t ∧ Touches (reach .phaseTimeout) s t :=
  Touches.subO (execPhaseTimeout_touch ..) (by dsimp only [reach]; decide)

theorem reach_configRequest (port fn reg : Nat) (write : Option Word) (s : State) :
    ∃ s', exec (.configRequest port fn reg write) s = .next s' ∧ Touches (reach (.configRequest port fn reg write)) s s' :=
  Touches.subO (execConfigRequest_touch port fn reg write s) (by dsimp only [reach]; decide)

theorem reach_barMemoryRead (port fn bar off : Nat) (s : State) :
    ∃ s', exec (.barMemoryRead port fn bar off) s = .next s' ∧ Touches (reach (.barMemoryRead port fn bar off)) s s' :=
  Touches.subO (execBarMemoryRead_touch port fn bar off s) (by dsimp only [reach]; decide)

theorem reach_tuneWrite (port fn : Nat) (andRead : Bool) (s : State) :
    ∃ s', exec (.tuneWrite port fn andRead) s = .next s' ∧ Touches (reach (.tuneWrite port fn andRead)) s s' :=
  Touches.subO (execTuneWrite_touch port fn andRead s) (by dsimp only [reach]; decide)

theorem reach_tuneRead (port fn : Nat) (s : State) :
    ∃ s', exec (.tuneRead port fn) s = .next s' ∧ Touches (reach (.tuneRead port fn)) s s' :=
  Touches.subO (execTuneRead_touch port fn s) (by dsimp only [reach]; decide)

theorem reach_tuneComplete (port fn : Nat) (s : State) :
    ∃ s', exec (.tuneComplete port fn) s = .next s' ∧ Touches (reach (.tuneComplete port fn)) s s' :=
  Touches.subO (execTuneComplete_touch port fn s) (by dsimp only [reach]; decide)

theorem reach_moultGo (andAbort : Bool) (s : State) :
    ∃ s', exec (.moultGo andAbort) s = .next s' ∧ Touches (reach (.moultGo andAbort)) s s' :=
  Touches.subO (execMoultGo_touch andAbort s) (by dsimp only [reach]; decide)

theorem reach_moultAbort (s : State) : ∃ t, exec .moultAbort s = .next t ∧ Touches (reach .moultAbort) s t :=
  Touches.subO (execMoultAbort_touch ..) (by dsimp only [reach]; decide)

theorem reach_moultFetchEnd (r : HostRead) (s : State) :
    ∃ s', exec (.moultFetchEnd r) s = .next s' ∧ Touches (reach (.moultFetchEnd r)) s s' :=
  Touches.subO (execMoultFetchEnd_touch r s) (by dsimp only [reach]; decide)

theorem reach_moultVerifyEnd (s : State) : ∃ t, exec .moultVerifyEnd s = .next t ∧ Touches (reach .moultVerifyEnd) s t :=
  Touches.subO (execMoultVerifyEnd_touch ..) (by dsimp only [reach]; decide)

theorem reach_moultCheckEnd (s : State) : ∃ t, exec .moultCheckEnd s = .next t ∧ Touches (reach .moultCheckEnd) s t :=
  Touches.subO (execMoultCheckEnd_touch ..) (by dsimp only [reach]; decide)

theorem reach_moultStageEnd (s : State) : ∃ t, exec .moultStageEnd s = .next t ∧ Touches (reach .moultStageEnd) s t :=
  Touches.subO (execMoultStageEnd_touch ..) (by dsimp only [reach]; decide)

theorem reach_moultSwitchTimeout (slot : Nat) (s : State) :
    ∃ s', exec (.moultSwitchTimeout slot) s = .next s' ∧ Touches (reach (.moultSwitchTimeout slot)) s s' :=
  Touches.subO (execMoultSwitchTimeout_touch slot s) (by dsimp only [reach]; decide)

theorem reach_flashProgram (s : State) : ∃ t, exec .flashProgram s = .next t ∧ Touches (reach .flashProgram) s t :=
  Touches.subO (execFlashProgram_touch ..) (by dsimp only [reach]; decide)

theorem reach_flashSelect (s : State) : ∃ t, exec .flashSelect s = .next t ∧ Touches (reach .flashSelect) s t :=
  Touches.subO (execFlashSelect_touch ..) (by dsimp only [reach]; decide)

theorem reach_flashEraseDone (s : State) : ∃ t, exec .flashEraseDone s = .next t ∧ Touches (reach .flashEraseDone) s t :=
  Touches.subO (execFlashEraseDone_touch ..) (by dsimp only [reach]; decide)

theorem reach_flashHostReadDone (r : HostRead) (s : State) :
    ∃ s', exec (.flashHostReadDone r) s = .next s' ∧ Touches (reach (.flashHostReadDone r)) s s' :=
  Touches.subO (execFlashHostReadDone_touch r s) (by dsimp only [reach]; decide)

theorem reach_flashPageProgramDone (statusError : Bool) (s : State) :
    ∃ s', exec (.flashPageProgramDone statusError) s = .next s' ∧ Touches (reach (.flashPageProgramDone statusError)) s s' :=
  Touches.subO (execFlashPageProgramDone_touch statusError s) (by dsimp only [reach]; decide)

theorem reach_flashReadbackDone (s : State) : ∃ t, exec .flashReadbackDone s = .next t ∧ Touches (reach .flashReadbackDone) s t :=
  Touches.subO (execFlashReadbackDone_touch ..) (by dsimp only [reach]; decide)

theorem reach_flashOpTimeout (s : State) : ∃ t, exec .flashOpTimeout s = .next t ∧ Touches (reach .flashOpTimeout) s t :=
  Touches.subO (execFlashOpTimeout_touch ..) (by dsimp only [reach]; decide)

theorem reach_xspiDqsTimeout (s : State) : ∃ t, exec .xspiDqsTimeout s = .next t ∧ Touches (reach .xspiDqsTimeout) s t :=
  Touches.subO (execXspiDqsTimeout_touch ..) (by dsimp only [reach]; decide)

theorem reach_ethLinkUp (np : Nat) (s : State) :
    ∃ s', exec (.ethLinkUp np) s = .next s' ∧ Touches (reach (.ethLinkUp np)) s s' :=
  Touches.subO (execEthLinkUp_touch np s) (by dsimp only [reach]; decide)

theorem reach_ethLinkDown (np : Nat) (s : State) :
    ∃ s', exec (.ethLinkDown np) s = .next s' ∧ Touches (reach (.ethLinkDown np)) s s' :=
  Touches.subO (execEthLinkDown_touch np s) (by dsimp only [reach]; decide)

theorem reach_frameReceive (np : Nat) (frame : Bytes) (s : State) :
    ∃ s', exec (.frameReceive np frame) s = .next s' ∧ Touches (reach (.frameReceive np frame)) s s' :=
  Touches.subO (execFrameReceive_touch np frame s) (by dsimp only [reach]; decide)

theorem reach_queryResponseTimer (np : Nat) (s : State) :
    ∃ s', exec (.queryResponseTimer np) s = .next s' ∧ Touches (reach (.queryResponseTimer np)) s s' :=
  Touches.subO (execQueryResponseTimer_touch np s) (by dsimp only [reach]; decide)

theorem reach_unsolicitedReportTimer (np slot : Nat) (s : State) :
    ∃ s', exec (.unsolicitedReportTimer np slot) s = .next s' ∧ Touches (reach (.unsolicitedReportTimer np slot)) s s' :=
  Touches.subO (execUnsolicitedReportTimer_touch np slot s) (by dsimp only [reach]; decide)

theorem reach_controlRateWindow (np : Nat) (s : State) :
    ∃ s', exec (.controlRateWindow np) s = .next s' ∧ Touches (reach (.controlRateWindow np)) s s' :=
  Touches.subO (execControlRateWindow_touch np s) (by dsimp only [reach]; decide)

theorem reach_nextHopTimeout (np hop : Nat) (s : State) :
    ∃ s', exec (.nextHopTimeout np hop) s = .next s' ∧ Touches (reach (.nextHopTimeout np hop)) s s' :=
  Touches.subO (execNextHopTimeout_touch np hop s) (by dsimp only [reach]; decide)

theorem reach_bucketRefill (s : State) : ∃ t, exec .bucketRefill s = .next t ∧ Touches (reach .bucketRefill) s t :=
  Touches.subO (execBucketRefill_touch ..) (by dsimp only [reach]; decide)

theorem reach_sourceLockTimeout (slot : Nat) (s : State) :
    ∃ s', exec (.sourceLockTimeout slot) s = .next s' ∧ Touches (reach (.sourceLockTimeout slot)) s s' :=
  Touches.subO (execSourceLockTimeout_touch slot s) (by dsimp only [reach]; decide)

theorem reach_rtpGapTimeout (slot : Nat) (s : State) :
    ∃ s', exec (.rtpGapTimeout slot) s = .next s' ∧ Touches (reach (.rtpGapTimeout slot)) s s' :=
  Touches.subO (execRtpGapTimeout_touch slot s) (by dsimp only [reach]; decide)

theorem reach_rtpJumpTimeout (slot : Nat) (s : State) :
    ∃ s', exec (.rtpJumpTimeout slot) s = .next s' ∧ Touches (reach (.rtpJumpTimeout slot)) s s' :=
  Touches.subO (execRtpJumpTimeout_touch slot s) (by dsimp only [reach]; decide)

theorem reach_pmtWaitTimeout (slot : Nat) (s : State) :
    ∃ s', exec (.pmtWaitTimeout slot) s = .next s' ∧ Touches (reach (.pmtWaitTimeout slot)) s s' :=
  Touches.subO (execPmtWaitTimeout_touch slot s) (by dsimp only [reach]; decide)

theorem reach_injEnable (port fn : Nat) (s : State) :
    ∃ s', exec (.injEnable port fn) s = .next s' ∧ Touches (reach (.injEnable port fn)) s s' :=
  Touches.subO (execInjEnable_touch port fn s) (by dsimp only [reach]; decide)

theorem reach_injEnableDone (port fn : Nat) (s : State) :
    ∃ s', exec (.injEnableDone port fn) s = .next s' ∧ Touches (reach (.injEnableDone port fn)) s s' :=
  Touches.subO (execInjEnableDone_touch port fn s) (by dsimp only [reach]; decide)

theorem reach_injDisable (port fn : Nat) (s : State) :
    ∃ s', exec (.injDisable port fn) s = .next s' ∧ Touches (reach (.injDisable port fn)) s s' :=
  Touches.subO (execInjDisable_touch port fn s) (by dsimp only [reach]; decide)

theorem reach_injPoll (port fn : Nat) (s : State) :
    ∃ s', exec (.injPoll port fn) s = .next s' ∧ Touches (reach (.injPoll port fn)) s s' :=
  Touches.subO (execInjPoll_touch port fn s) (by dsimp only [reach]; decide)

theorem reach_injTrailerTimeout (port fn : Nat) (s : State) :
    ∃ s', exec (.injTrailerTimeout port fn) s = .next s' ∧ Touches (reach (.injTrailerTimeout port fn)) s s' :=
  Touches.subO (execInjTrailerTimeout_touch port fn s) (by dsimp only [reach]; decide)

theorem reach_injHeaderTimeout (port fn : Nat) (s : State) :
    ∃ s', exec (.injHeaderTimeout port fn) s = .next s' ∧ Touches (reach (.injHeaderTimeout port fn)) s s' :=
  Touches.subO (execInjHeaderTimeout_touch port fn s) (by dsimp only [reach]; decide)

theorem reach_injConsumerWrite (port fn : Nat) (s : State) :
    ∃ s', exec (.injConsumerWrite port fn) s = .next s' ∧ Touches (reach (.injConsumerWrite port fn)) s s' :=
  Touches.subO (execInjConsumerWrite_touch port fn s) (by dsimp only [reach]; decide)

theorem reach_alignmentTimeout (slot au : Nat) (s : State) :
    ∃ s', exec (.alignmentTimeout slot au) s = .next s' ∧ Touches (reach (.alignmentTimeout slot au)) s s' :=
  Touches.subO (execAlignmentTimeout_touch slot au s) (by dsimp only [reach]; decide)

theorem reach_parseAhead (slot : Nat) (hdr : PicHdr) (s : State) :
    ∃ s', exec (.parseAhead slot hdr) s = .next s' ∧ Touches (reach (.parseAhead slot hdr)) s s' :=
  Touches.subO (execParseAhead_touch slot hdr s) (by dsimp only [reach]; decide)

theorem reach_decodeSwitch (engine cycles bands : Nat) (damage : Bool) (s : State) :
    ∃ s', exec (.decodeSwitch engine cycles bands damage) s = .next s' ∧ Touches (reach (.decodeSwitch engine cycles bands damage)) s s' :=
  Touches.subO (execDecodeSwitch_touch engine cycles bands damage s) (by dsimp only [reach]; decide)

theorem reach_blockCycleLimit (engine cycles : Nat) (s : State) :
    ∃ s', exec (.blockCycleLimit engine cycles) s = .next s' ∧ Touches (reach (.blockCycleLimit engine cycles)) s s' :=
  Touches.subO (execBlockCycleLimit_touch engine cycles s) (by dsimp only [reach]; decide)

theorem reach_pictureBudgetExceeded (engine cycles : Nat) (atSlice : Bool) (s : State) :
    ∃ s', exec (.pictureBudgetExceeded engine cycles atSlice) s = .next s' ∧ Touches (reach (.pictureBudgetExceeded engine cycles atSlice)) s s' :=
  Touches.subO (execPictureBudgetExceeded_touch engine cycles atSlice s) (by dsimp only [reach]; decide)

theorem reach_pictureDecoded (engine cycles : Nat) (out : PicOut) (s : State) :
    ∃ s', exec (.pictureDecoded engine cycles out) s = .next s' ∧ Touches (reach (.pictureDecoded engine cycles out)) s s' :=
  Touches.subO (execPictureDecoded_touch engine cycles out s) (by dsimp only [reach]; decide)

theorem reach_resamplePicture (rs : Nat) (s : State) :
    ∃ s', exec (.resamplePicture rs) s = .next s' ∧ Touches (reach (.resamplePicture rs)) s s' :=
  Touches.subO (execResamplePicture_touch rs s) (by dsimp only [reach]; decide)

theorem reach_resampleDone (rs : Nat) (s : State) :
    ∃ s', exec (.resampleDone rs) s = .next s' ∧ Touches (reach (.resampleDone rs)) s s' :=
  Touches.subO (execResampleDone_touch rs s) (by dsimp only [reach]; decide)

theorem reach_batchTimeout (batch : Nat) (s : State) :
    ∃ s', exec (.batchTimeout batch) s = .next s' ∧ Touches (reach (.batchTimeout batch)) s s' :=
  Touches.subO (execBatchTimeout_touch batch s) (by dsimp only [reach]; decide)

theorem reach_batchAdmit (part : Nat) (s : State) :
    ∃ s', exec (.batchAdmit part) s = .next s' ∧ Touches (reach (.batchAdmit part)) s s' :=
  Touches.subO (execBatchAdmit_touch part s) (by dsimp only [reach]; decide)

theorem reach_invocationRunnable (batch model : Nat) (s : State) :
    ∃ s', exec (.invocationRunnable batch model) s = .next s' ∧ Touches (reach (.invocationRunnable batch model)) s s' :=
  Touches.subO (execInvocationRunnable_touch batch model s) (by dsimp only [reach]; decide)

theorem reach_invocationResident (region batch model : Nat) (s : State) :
    ∃ s', exec (.invocationResident region batch model) s = .next s' ∧ Touches (reach (.invocationResident region batch model)) s s' :=
  Touches.subO (execInvocationResident_touch region batch model s) (by dsimp only [reach]; decide)

theorem reach_stripeClaim (ctx block : Nat) (s : State) :
    ∃ s', exec (.stripeClaim ctx block) s = .next s' ∧ Touches (reach (.stripeClaim ctx block)) s s' :=
  Touches.subO (execStripeClaim_touch ctx block s) (by dsimp only [reach]; decide)

theorem reach_semaphoreSignal (block sem n : Nat) (s : State) :
    ∃ s', exec (.semaphoreSignal block sem n) s = .next s' ∧ Touches (reach (.semaphoreSignal block sem n)) s s' :=
  Touches.subO (execSemaphoreSignal_touch block sem n s) (by dsimp only [reach]; decide)

theorem reach_semaphoreWait (block sem cell t : Nat) (s : State) :
    ∃ s', exec (.semaphoreWait block sem cell t) s = .next s' ∧ Touches (reach (.semaphoreWait block sem cell t)) s s' :=
  Touches.subO (execSemaphoreWait_touch block sem cell t s) (by dsimp only [reach]; decide)

theorem reach_semaphoreReset (block sem : Nat) (s : State) :
    ∃ s', exec (.semaphoreReset block sem) s = .next s' ∧ Touches (reach (.semaphoreReset block sem)) s s' :=
  Touches.subO (execSemaphoreReset_touch block sem s) (by dsimp only [reach]; decide)

theorem reach_waitRetry (block sem cell t : Nat) (s : State) :
    ∃ s', exec (.waitRetry block sem cell t) s = .next s' ∧ Touches (reach (.waitRetry block sem cell t)) s s' :=
  Touches.subO (execWaitRetry_touch block sem cell t s) (by dsimp only [reach]; decide)

theorem reach_commandWrite (cell : Nat) (cmd : CellCmd) (s : State) :
    ∃ s', exec (.commandWrite cell cmd) s = .next s' ∧ Touches (reach (.commandWrite cell cmd)) s s' :=
  Touches.subO (execCommandWrite_touch cell cmd s) (by dsimp only [reach]; decide)

theorem reach_commandIssue (cell unit : Nat) (s : State) :
    ∃ s', exec (.commandIssue cell unit) s = .next s' ∧ Touches (reach (.commandIssue cell unit)) s s' :=
  Touches.subO (execCommandIssue_touch cell unit s) (by dsimp only [reach]; decide)

theorem reach_commandComplete (cell unit : Nat) (s : State) :
    ∃ s', exec (.commandComplete cell unit) s = .next s' ∧ Touches (reach (.commandComplete cell unit)) s s' :=
  Touches.subO (execCommandComplete_touch cell unit s) (by dsimp only [reach]; decide)

theorem reach_cellEccError (cell : Nat) (ecc : Ecc) (s : State) :
    ∃ s', exec (.cellEccError cell ecc) s = .next s' ∧ Touches (reach (.cellEccError cell ecc)) s s' :=
  Touches.subO (execCellEccError_touch cell ecc s) (by dsimp only [reach]; decide)

theorem reach_residueMismatch (cell : Nat) (s : State) :
    ∃ s', exec (.residueMismatch cell) s = .next s' ∧ Touches (reach (.residueMismatch cell)) s s' :=
  Touches.subO (execResidueMismatch_touch cell s) (by dsimp only [reach]; decide)

theorem reach_cellSelftestReturn (cell : Nat) (pass : Bool) (s : State) :
    ∃ s', exec (.cellSelftestReturn cell pass) s = .next s' ∧ Touches (reach (.cellSelftestReturn cell pass)) s s' :=
  Touches.subO (execCellSelftestReturn_touch cell pass s) (by dsimp only [reach]; decide)

theorem reach_mapperWatchdog (block : Nat) (s : State) :
    ∃ s', exec (.mapperWatchdog block) s = .next s' ∧ Touches (reach (.mapperWatchdog block)) s s' :=
  Touches.subO (execMapperWatchdog_touch block s) (by dsimp only [reach]; decide)

theorem reach_blockRestart (block : Nat) (s : State) :
    ∃ s', exec (.blockRestart block) s = .next s' ∧ Touches (reach (.blockRestart block)) s s' :=
  Touches.subO (execBlockRestart_touch block s) (by dsimp only [reach]; decide)

theorem reach_regionFault (region cause : Nat) (s : State) :
    ∃ s', exec (.regionFault region cause) s = .next s' ∧ Touches (reach (.regionFault region cause)) s s' :=
  Touches.subO (execRegionFault_touch region cause s) (by dsimp only [reach]; decide)

theorem reach_weightPrefetch (ctx layer : Nat) (s : State) :
    ∃ s', exec (.weightPrefetch ctx layer) s = .next s' ∧ Touches (reach (.weightPrefetch ctx layer)) s s' :=
  Touches.subO (execWeightPrefetch_touch ctx layer s) (by dsimp only [reach]; decide)

theorem reach_spillWaveStart (ctx picture : Nat) (s : State) :
    ∃ s', exec (.spillWaveStart ctx picture) s = .next s' ∧ Touches (reach (.spillWaveStart ctx picture)) s s' :=
  Touches.subO (execSpillWaveStart_touch ctx picture s) (by dsimp only [reach]; decide)

theorem reach_contextRecordAccess (index : Nat) (acc : RecAccess) (ecc : Ecc) (s : State) :
    ∃ s', exec (.contextRecordAccess index acc ecc) s = .next s' ∧ Touches (reach (.contextRecordAccess index acc ecc)) s s' :=
  Touches.subO (execContextRecordAccess_touch index acc ecc s) (by dsimp only [reach]; decide)

theorem reach_trackPicture (slot : Nat) (s : State) :
    ∃ s', exec (.trackPicture slot) s = .next s' ∧ Touches (reach (.trackPicture slot)) s s' :=
  Touches.subO (execTrackPicture_touch slot s) (by dsimp only [reach]; decide)

theorem reach_chrysalisCapture (ctx : Nat) (s : State) :
    ∃ s', exec (.chrysalisCapture ctx) s = .next s' ∧ Touches (reach (.chrysalisCapture ctx)) s s' :=
  Touches.subO (execChrysalisCapture_touch ctx s) (by dsimp only [reach]; decide)

theorem reach_chrysalisRestore (ctx block : Nat) (bodyOk : Bool) (s : State) :
    ∃ s', exec (.chrysalisRestore ctx block bodyOk) s = .next s' ∧ Touches (reach (.chrysalisRestore ctx block bodyOk)) s s' :=
  Touches.subO (execChrysalisRestore_touch ctx block bodyOk s) (by dsimp only [reach]; decide)

theorem reach_eviction (block : Nat) (s : State) :
    ∃ s', exec (.eviction block) s = .next s' ∧ Touches (reach (.eviction block)) s s' :=
  Touches.subO (execEviction_touch block s) (by dsimp only [reach]; decide)

theorem reach_residencyWaitTimeout (block : Nat) (s : State) :
    ∃ s', exec (.residencyWaitTimeout block) s = .next s' ∧ Touches (reach (.residencyWaitTimeout block)) s s' :=
  Touches.subO (execResidencyWaitTimeout_touch block s) (by dsimp only [reach]; decide)

theorem reach_adapterStepStart (slot : Nat) (s : State) :
    ∃ s', exec (.adapterStepStart slot) s = .next s' ∧ Touches (reach (.adapterStepStart slot)) s s' :=
  Touches.subO (execAdapterStepStart_touch slot s) (by dsimp only [reach]; decide)

theorem reach_adapterStepCommit (slot : Nat) (s : State) :
    ∃ s', exec (.adapterStepCommit slot) s = .next s' ∧ Touches (reach (.adapterStepCommit slot)) s s' :=
  Touches.subO (execAdapterStepCommit_touch slot s) (by dsimp only [reach]; decide)

theorem reach_searchStart (slot : Nat) (s : State) :
    ∃ s', exec (.searchStart slot) s = .next s' ∧ Touches (reach (.searchStart slot)) s s' :=
  Touches.subO (execSearchStart_touch slot s) (by dsimp only [reach]; decide)

theorem reach_searchCommit (slot : Nat) (s : State) :
    ∃ s', exec (.searchCommit slot) s = .next s' ∧ Touches (reach (.searchCommit slot)) s s' :=
  Touches.subO (execSearchCommit_touch slot s) (by dsimp only [reach]; decide)

theorem reach_codebookUpdate (slot : Nat) (s : State) :
    ∃ s', exec (.codebookUpdate slot) s = .next s' ∧ Touches (reach (.codebookUpdate slot)) s s' :=
  Touches.subO (execCodebookUpdate_touch slot s) (by dsimp only [reach]; decide)

theorem reach_recordEncode (slot : Nat) (s : State) :
    ∃ s', exec (.recordEncode slot) s = .next s' ∧ Touches (reach (.recordEncode slot)) s s' :=
  Touches.subO (execRecordEncode_touch slot s) (by dsimp only [reach]; decide)

theorem reach_recordEmit (slot : Nat) (s : State) :
    ∃ s', exec (.recordEmit slot) s = .next s' ∧ Touches (reach (.recordEmit slot)) s s' :=
  Touches.subO (execRecordEmit_touch slot s) (by dsimp only [reach]; decide)

theorem reach_ringConsumerRead (port fn ring : Nat) (r : HostRead) (s : State) :
    ∃ s', exec (.ringConsumerRead port fn ring r) s = .next s' ∧ Touches (reach (.ringConsumerRead port fn ring r)) s s' :=
  Touches.subO (execRingConsumerRead_touch port fn ring r s) (by dsimp only [reach]; decide)

theorem reach_ringHoldTimeout (port fn ring : Nat) (s : State) :
    ∃ s', exec (.ringHoldTimeout port fn ring) s = .next s' ∧ Touches (reach (.ringHoldTimeout port fn ring)) s s' :=
  Touches.subO (execRingHoldTimeout_touch port fn ring s) (by dsimp only [reach]; decide)

theorem reach_ringIrqDelay (port fn ring : Nat) (s : State) :
    ∃ s', exec (.ringIrqDelay port fn ring) s = .next s' ∧ Touches (reach (.ringIrqDelay port fn ring)) s s' :=
  Touches.subO (execRingIrqDelay_touch port fn ring s) (by dsimp only [reach]; decide)

theorem reach_ringBind (port fn : Nat) (s : State) :
    ∃ s', exec (.ringBind port fn) s = .next s' ∧ Touches (reach (.ringBind port fn)) s s' :=
  Touches.subO (execRingBind_touch port fn s) (by dsimp only [reach]; decide)

theorem reach_ringUnbind (port fn : Nat) (s : State) :
    ∃ s', exec (.ringUnbind port fn) s = .next s' ∧ Touches (reach (.ringUnbind port fn)) s s' :=
  Touches.subO (execRingUnbind_touch port fn s) (by dsimp only [reach]; decide)

theorem reach_irqStatusClear (port fn : Nat) (value sets : Word) (s : State) :
    ∃ s', exec (.irqStatusClear port fn value sets) s = .next s' ∧ Touches (reach (.irqStatusClear port fn value sets)) s s' :=
  Touches.subO (execIrqStatusClear_touch port fn value sets s) (by dsimp only [reach]; decide)

theorem reach_intaChange (port : Nat) (s : State) :
    ∃ s', exec (.intaChange port) s = .next s' ∧ Touches (reach (.intaChange port)) s s' :=
  Touches.subO (execIntaChange_touch port s) (by dsimp only [reach]; decide)

theorem reach_regulatorUpdate (s : State) : ∃ t, exec .regulatorUpdate s = .next t ∧ Touches (reach .regulatorUpdate) s t :=
  Touches.subO (execRegulatorUpdate_touch ..) (by dsimp only [reach]; decide)

theorem reach_counterPush (region : Nat) (s : State) :
    ∃ s', exec (.counterPush region) s = .next s' ∧ Touches (reach (.counterPush region)) s s' :=
  Touches.subO (execCounterPush_touch region s) (by dsimp only [reach]; decide)

theorem reach_dramRequest (req : DramReq) (ecc : Ecc) (s : State) :
    ∃ s', exec (.dramRequest req ecc) s = .next s' ∧ Touches (reach (.dramRequest req ecc)) s s' :=
  Touches.subO (execDramRequest_touch req ecc s) (by dsimp only [reach]; decide)

theorem reach_poisonedDataReceive (kind : PoisonKind) (s : State) :
    ∃ s', exec (.poisonedDataReceive kind) s = .next s' ∧ Touches (reach (.poisonedDataReceive kind)) s s' :=
  Touches.subO (execPoisonedDataReceive_touch kind s) (by dsimp only [reach]; decide)

theorem reach_refreshDue (pc bank : Nat) (s : State) :
    ∃ s', exec (.refreshDue pc bank) s = .next s' ∧ Touches (reach (.refreshDue pc bank)) s s' :=
  Touches.subO (execRefreshDue_touch pc bank s) (by dsimp only [reach]; decide)

theorem reach_bankIdleTimeout (pc bank : Nat) (s : State) :
    ∃ s', exec (.bankIdleTimeout pc bank) s = .next s' ∧ Touches (reach (.bankIdleTimeout pc bank)) s s' :=
  Touches.subO (execBankIdleTimeout_touch pc bank s) (by dsimp only [reach]; decide)

theorem reach_patrolRead (pc : Nat) (ecc : Ecc) (s : State) :
    ∃ s', exec (.patrolRead pc ecc) s = .next s' ∧ Touches (reach (.patrolRead pc ecc)) s s' :=
  Touches.subO (execPatrolRead_touch pc ecc s) (by dsimp only [reach]; decide)

theorem reach_imbalanceWindow (s : State) : ∃ t, exec .imbalanceWindow s = .next t ∧ Touches (reach .imbalanceWindow) s t :=
  Touches.subO (execImbalanceWindow_touch ..) (by dsimp only [reach]; decide)

theorem reach_bpmAllocate (who : Requester) (pool : Nat) (s : State) :
    ∃ s', exec (.bpmAllocate who pool) s = .next s' ∧ Touches (reach (.bpmAllocate who pool)) s s' :=
  Touches.subO (execBpmAllocate_touch who pool s) (by dsimp only [reach]; decide)

theorem reach_bpmFree (who : Requester) (addr : Nat) (s : State) :
    ∃ s', exec (.bpmFree who addr) s = .next s' ∧ Touches (reach (.bpmFree who addr)) s s' :=
  Touches.subO (execBpmFree_touch who addr s) (by dsimp only [reach]; decide)

theorem reach_bpmShare (who : Requester) (addr owners : Nat) (s : State) :
    ∃ s', exec (.bpmShare who addr owners) s = .next s' ∧ Touches (reach (.bpmShare who addr owners)) s s' :=
  Touches.subO (execBpmShare_touch who addr owners s) (by dsimp only [reach]; decide)

theorem reach_bpmZeroIdle (pool : Nat) (s : State) :
    ∃ s', exec (.bpmZeroIdle pool) s = .next s' ∧ Touches (reach (.bpmZeroIdle pool)) s s' :=
  Touches.subO (execBpmZeroIdle_touch pool s) (by dsimp only [reach]; decide)

theorem reach_tokenGrant (s : State) : ∃ t, exec .tokenGrant s = .next t ∧ Touches (reach .tokenGrant) s t :=
  Touches.subO (execTokenGrant_touch ..) (by dsimp only [reach]; decide)

theorem reach_powerSample (r : RailSample) (s : State) :
    ∃ s', exec (.powerSample r) s = .next s' ∧ Touches (reach (.powerSample r)) s s' :=
  Touches.subO (execPowerSample_touch r s) (by dsimp only [reach]; decide)

theorem reach_vfChoice (s : State) : ∃ t, exec .vfChoice s = .next t ∧ Touches (reach .vfChoice) s t :=
  Touches.subO (execVfChoice_touch ..) (by dsimp only [reach]; decide)

theorem reach_vfTransitionEnd (region : Nat) (s : State) :
    ∃ s', exec (.vfTransitionEnd region) s = .next s' ∧ Touches (reach (.vfTransitionEnd region)) s s' :=
  Touches.subO (execVfTransitionEnd_touch region s) (by dsimp only [reach]; decide)

theorem reach_pgoodTimeout (region : Nat) (s : State) :
    ∃ s', exec (.pgoodTimeout region) s = .next s' ∧ Touches (reach (.pgoodTimeout region)) s s' :=
  Touches.subO (execPgoodTimeout_touch region s) (by dsimp only [reach]; decide)

theorem reach_pgoodLow (region : Nat) (s : State) :
    ∃ s', exec (.pgoodLow region) s = .next s' ∧ Touches (reach (.pgoodLow region)) s s' :=
  Touches.subO (execPgoodLow_touch region s) (by dsimp only [reach]; decide)

theorem reach_regionPark (region : Nat) (s : State) :
    ∃ s', exec (.regionPark region) s = .next s' ∧ Touches (reach (.regionPark region)) s s' :=
  Touches.subO (execRegionPark_touch region s) (by dsimp only [reach]; decide)

theorem reach_regionWake (region : Nat) (s : State) :
    ∃ s', exec (.regionWake region) s = .next s' ∧ Touches (reach (.regionWake region)) s s' :=
  Touches.subO (execRegionWake_touch region s) (by dsimp only [reach]; decide)

theorem reach_wakeComplete (region : Nat) (s : State) :
    ∃ s', exec (.wakeComplete region) s = .next s' ∧ Touches (reach (.wakeComplete region)) s s' :=
  Touches.subO (execWakeComplete_touch region s) (by dsimp only [reach]; decide)

theorem reach_parkHoldWrite (port : Nat) (value : Word) (s : State) :
    ∃ s', exec (.parkHoldWrite port value) s = .next s' ∧ Touches (reach (.parkHoldWrite port value)) s s' :=
  Touches.subO (execParkHoldWrite_touch port value s) (by dsimp only [reach]; decide)

theorem reach_pwrbrkAssert (s : State) : ∃ t, exec .pwrbrkAssert s = .next t ∧ Touches (reach .pwrbrkAssert) s t :=
  Touches.subO (execPwrbrkAssert_touch ..) (by dsimp only [reach]; decide)

theorem reach_pwrbrkRelease (s : State) : ∃ t, exec .pwrbrkRelease s = .next t ∧ Touches (reach .pwrbrkRelease) s t :=
  Touches.subO (execPwrbrkRelease_touch ..) (by dsimp only [reach]; decide)

theorem reach_thermInAssert (s : State) : ∃ t, exec .thermInAssert s = .next t ∧ Touches (reach .thermInAssert) s t :=
  Touches.subO (execThermInAssert_touch ..) (by dsimp only [reach]; decide)

theorem reach_thermInRelease (s : State) : ∃ t, exec .thermInRelease s = .next t ∧ Touches (reach .thermInRelease) s t :=
  Touches.subO (execThermInRelease_touch ..) (by dsimp only [reach]; decide)

theorem reach_tempSensorRead (region : Nat) (tj : Int) (uncore : Int) (s : State) :
    ∃ s', exec (.tempSensorRead region tj uncore) s = .next s' ∧ Touches (reach (.tempSensorRead region tj uncore)) s s' :=
  Touches.subO (execTempSensorRead_touch region tj uncore s) (by dsimp only [reach]; decide)

theorem reach_chatterWindow (transitions : List Nat) (s : State) :
    ∃ s', exec (.chatterWindow transitions) s = .next s' ∧ Touches (reach (.chatterWindow transitions)) s s' :=
  Touches.subO (execChatterWindow_touch transitions s) (by dsimp only [reach]; decide)

theorem reach_inputStuck (input : Nat) (s : State) :
    ∃ s', exec (.inputStuck input) s = .next s' ∧ Touches (reach (.inputStuck input)) s s' :=
  Touches.subO (execInputStuck_touch input s) (by dsimp only [reach]; decide)

theorem reach_inputStuckRelease (input : Nat) (s : State) :
    ∃ s', exec (.inputStuckRelease input) s = .next s' ∧ Touches (reach (.inputStuckRelease input)) s s' :=
  Touches.subO (execInputStuckRelease_touch input s) (by dsimp only [reach]; decide)

theorem reach_flr (port fn : Nat) (s : State) :
    ∃ s', exec (.flr port fn) s = .next s' ∧ Touches (reach (.flr port fn)) s s' :=
  Touches.subO (execFlr_touch port fn s) (by dsimp only [reach]; decide)

theorem reach_flrComplete (port fn : Nat) (s : State) :
    ∃ s', exec (.flrComplete port fn) s = .next s' ∧ Touches (reach (.flrComplete port fn)) s s' :=
  Touches.subO (execFlrComplete_touch port fn s) (by dsimp only [reach]; decide)

theorem reach_hotReset (port : Nat) (s : State) :
    ∃ s', exec (.hotReset port) s = .next s' ∧ Touches (reach (.hotReset port)) s s' :=
  Touches.subO (execHotReset_touch port s) (by dsimp only [reach]; decide)

theorem reach_dlDown (port : Nat) (s : State) :
    ∃ s', exec (.dlDown port) s = .next s' ∧ Touches (reach (.dlDown port)) s s' :=
  Touches.subO (execDlDown_touch port s) (by dsimp only [reach]; decide)

theorem reach_perstAssert (port : Nat) (s : State) :
    ∃ s', exec (.perstAssert port) s = .next s' ∧ Touches (reach (.perstAssert port)) s s' :=
  Touches.subO (execPerstAssert_touch port s) (by dsimp only [reach]; decide)

theorem reach_perstDeassert (port : Nat) (s : State) :
    ∃ s', exec (.perstDeassert port) s = .next s' ∧ Touches (reach (.perstDeassert port)) s s' :=
  Touches.subO (execPerstDeassert_touch port s) (by dsimp only [reach]; decide)

theorem reach_pcieLinkUp (port rate width : Nat) (s : State) :
    ∃ s', exec (.pcieLinkUp port rate width) s = .next s' ∧ Touches (reach (.pcieLinkUp port rate width)) s s' :=
  Touches.subO (execPcieLinkUp_touch port rate width s) (by dsimp only [reach]; decide)

theorem reach_dStateChange (port fn dstate : Nat) (s : State) :
    ∃ s', exec (.dStateChange port fn dstate) s = .next s' ∧ Touches (reach (.dStateChange port fn dstate)) s s' :=
  Touches.subO (execDStateChange_touch port fn dstate s) (by dsimp only [reach]; decide)

theorem reach_pmeTurnOff (port : Nat) (s : State) :
    ∃ s', exec (.pmeTurnOff port) s = .next s' ∧ Touches (reach (.pmeTurnOff port)) s s' :=
  Touches.subO (execPmeTurnOff_touch port s) (by dsimp only [reach]; decide)

theorem reach_pmeSignal (port fn : Nat) (s : State) :
    ∃ s', exec (.pmeSignal port fn) s = .next s' ∧ Touches (reach (.pmeSignal port fn)) s s' :=
  Touches.subO (execPmeSignal_touch port fn s) (by dsimp only [reach]; decide)

theorem reach_pmeRepeat (port fn : Nat) (s : State) :
    ∃ s', exec (.pmeRepeat port fn) s = .next s' ∧ Touches (reach (.pmeRepeat port fn)) s s' :=
  Touches.subO (execPmeRepeat_touch port fn s) (by dsimp only [reach]; decide)

theorem reach_unitFault (unit index : Nat) (s : State) :
    ∃ s', exec (.unitFault unit index) s = .next s' ∧ Touches (reach (.unitFault unit index)) s s' :=
  Touches.subO (execUnitFault_touch unit index s) (by dsimp only [reach]; decide)

theorem reach_controllerRestart (unit : Nat) (s : State) :
    ∃ s', exec (.controllerRestart unit) s = .next s' ∧ Touches (reach (.controllerRestart unit)) s s' :=
  Touches.subO (execControllerRestart_touch unit s) (by dsimp only [reach]; decide)

theorem reach_controllerResume (unit : Nat) (s : State) :
    ∃ s', exec (.controllerResume unit) s = .next s' ∧ Touches (reach (.controllerResume unit)) s s' :=
  Touches.subO (execControllerResume_touch unit s) (by dsimp only [reach]; decide)

theorem reach_eventStage (ev : EvSpec) (s : State) :
    ∃ s', exec (.eventStage ev) s = .next s' ∧ Touches (reach (.eventStage ev)) s s' :=
  Touches.subO (execEventStage_touch ev s) (by dsimp only [reach]; decide)

theorem reach_traceExponentTick (path : Nat) (s : State) :
    ∃ s', exec (.traceExponentTick path) s = .next s' ∧ Touches (reach (.traceExponentTick path)) s s' :=
  Touches.subO (execTraceExponentTick_touch path s) (by dsimp only [reach]; decide)

theorem reach_telemetryPacketSend (s : State) : ∃ t, exec .telemetryPacketSend s = .next t ∧ Touches (reach .telemetryPacketSend) s t :=
  Touches.subO (execTelemetryPacketSend_touch ..) (by dsimp only [reach]; decide)

theorem reach_summaryTimer (s : State) : ∃ t, exec .summaryTimer s = .next t ∧ Touches (reach .summaryTimer) s t :=
  Touches.subO (execSummaryTimer_touch ..) (by dsimp only [reach]; decide)

theorem reach_mpIdentify (s : State) : ∃ t, exec .mpIdentify s = .next t ∧ Touches (reach .mpIdentify) s t :=
  Touches.subO (execMpIdentify_touch ..) (by dsimp only [reach]; decide)

theorem reach_mpSetPointer (value : Nat) (pecOk : Bool) (s : State) :
    ∃ s', exec (.mpSetPointer value pecOk) s = .next s' ∧ Touches (reach (.mpSetPointer value pecOk)) s s' :=
  Touches.subO (execMpSetPointer_touch value pecOk s) (by dsimp only [reach]; decide)

theorem reach_mpReadRegisters (s : State) : ∃ t, exec .mpReadRegisters s = .next t ∧ Touches (reach .mpReadRegisters) s t :=
  Touches.subO (execMpReadRegisters_touch ..) (by dsimp only [reach]; decide)

theorem reach_mpReadEvents (s : State) : ∃ t, exec .mpReadEvents s = .next t ∧ Touches (reach .mpReadEvents) s t :=
  Touches.subO (execMpReadEvents_touch ..) (by dsimp only [reach]; decide)

theorem reach_mpRemoveEvents (m : Nat) (pecOk : Bool) (s : State) :
    ∃ s', exec (.mpRemoveEvents m pecOk) s = .next s' ∧ Touches (reach (.mpRemoveEvents m pecOk)) s s' :=
  Touches.subO (execMpRemoveEvents_touch m pecOk s) (by dsimp only [reach]; decide)

theorem reach_mpAlertResponse (s : State) : ∃ t, exec .mpAlertResponse s = .next t ∧ Touches (reach .mpAlertResponse) s t :=
  Touches.subO (execMpAlertResponse_touch ..) (by dsimp only [reach]; decide)

theorem reach_smbusClockTimeout (s : State) : ∃ t, exec .smbusClockTimeout s = .next t ∧ Touches (reach .smbusClockTimeout) s t :=
  Touches.subO (execSmbusClockTimeout_touch ..) (by dsimp only [reach]; decide)

theorem reach_keyGo (s : State) : ∃ t, exec .keyGo s = .next t ∧ Touches (reach .keyGo) s t :=
  Touches.subO (execKeyGo_touch ..) (by dsimp only [reach]; decide)

theorem reach_keyBurnDone (readBackOk : Bool) (s : State) :
    ∃ s', exec (.keyBurnDone readBackOk) s = .next s' ∧ Touches (reach (.keyBurnDone readBackOk)) s s' :=
  Touches.subO (execKeyBurnDone_touch readBackOk s) (by dsimp only [reach]; decide)

theorem reach_attGo (port fn : Nat) (s : State) :
    ∃ s', exec (.attGo port fn) s = .next s' ∧ Touches (reach (.attGo port fn)) s s' :=
  Touches.subO (execAttGo_touch port fn s) (by dsimp only [reach]; decide)

theorem reach_attSignStart (s : State) : ∃ t, exec .attSignStart s = .next t ∧ Touches (reach .attSignStart) s t :=
  Touches.subO (execAttSignStart_touch ..) (by dsimp only [reach]; decide)

theorem reach_attSignDone (s : State) : ∃ t, exec .attSignDone s = .next t ∧ Touches (reach .attSignDone) s t :=
  Touches.subO (execAttSignDone_touch ..) (by dsimp only [reach]; decide)

theorem reach_barMemoryWrite (port fn off : Nat) (data : Bytes) (poisoned : Bool) (s : State) :
    ∃ s', exec (.barMemoryWrite port fn off data poisoned) s = .next s' ∧ Touches (reach (.barMemoryWrite port fn off data poisoned)) s s' :=
  Touches.subO (execBarMemoryWrite_touch port fn off data poisoned s) (by dsimp only [reach]; decide)

theorem reach_arrayCreditRefill (region : Nat) (issuing : List Nat) (s : State) :
    ∃ s', exec (.arrayCreditRefill region issuing) s = .next s' ∧ Touches (reach (.arrayCreditRefill region issuing)) s s' :=
  Touches.subO (execArrayCreditRefill_touch region issuing s) (by dsimp only [reach]; decide)

theorem reach_keyReadDone (r : HostRead) (s : State) :
    ∃ s', exec (.keyReadDone r) s = .next s' ∧ Touches (reach (.keyReadDone r)) s s' :=
  Touches.subO (execKeyReadDone_touch r s) (by dsimp only [reach]; decide)

theorem reach_regionStoreEccError (region addr : Nat) (s : State) :
    ∃ s', exec (.regionStoreEccError region addr) s = .next s' ∧ Touches (reach (.regionStoreEccError region addr)) s s' :=
  Touches.subO (execRegionStoreEccError_touch region addr s) (by dsimp only [reach]; decide)

theorem reach_nocLinkCrcError (router : Nat) (s : State) :
    ∃ s', exec (.nocLinkCrcError router) s = .next s' ∧ Touches (reach (.nocLinkCrcError router)) s s' :=
  Touches.subO (execNocLinkCrcError_touch router s) (by dsimp only [reach]; decide)

theorem reach_blockRestartDone (block : Nat) (s : State) :
    ∃ s', exec (.blockRestartDone block) s = .next s' ∧ Touches (reach (.blockRestartDone block)) s s' :=
  Touches.subO (execBlockRestartDone_touch block s) (by dsimp only [reach]; decide)

theorem reach_unitRestartDone (unit : Nat) (s : State) :
    ∃ s', exec (.unitRestartDone unit) s = .next s' ∧ Touches (reach (.unitRestartDone unit)) s s' :=
  Touches.subO (execUnitRestartDone_touch unit s) (by dsimp only [reach]; decide)

/-- What every command can change. -/
theorem exec_touches (c : Instr) (s : State) : ∃ t, exec c s = .next t ∧ Touches (reach c) s t := by
  cases c with
  | misalignedAccess _ _ _ _ _ => exact reach_misalignedAccess ..
  | registerWrite _ _ _ _ _ => exact reach_registerWrite ..
  | counterLowRead _ _ _ => exact reach_counterLowRead ..
  | stoppedWindowAccess _ _ _ _ _ => exact reach_stoppedWindowAccess ..
  | porAssert => exact reach_porAssert ..
  | porDeassert _ _ => exact reach_porDeassert ..
  | phaseFuseEnd => exact reach_phaseFuseEnd ..
  | phaseDramEnd _ _ => exact reach_phaseDramEnd ..
  | phaseFlashEnd => exact reach_phaseFlashEnd ..
  | phaseVerifyEnd => exact reach_phaseVerifyEnd ..
  | phaseCheckEnd => exact reach_phaseCheckEnd ..
  | phaseLoadEnd => exact reach_phaseLoadEnd ..
  | phaseSelftestEnd _ _ _ => exact reach_phaseSelftestEnd ..
  | phasePortsEnd => exact reach_phasePortsEnd ..
  | phaseTimeout => exact reach_phaseTimeout ..
  | configRequest _ _ _ _ => exact reach_configRequest ..
  | barMemoryRead _ _ _ _ => exact reach_barMemoryRead ..
  | tuneWrite _ _ _ => exact reach_tuneWrite ..
  | tuneRead _ _ => exact reach_tuneRead ..
  | tuneComplete _ _ => exact reach_tuneComplete ..
  | moultGo _ => exact reach_moultGo ..
  | moultAbort => exact reach_moultAbort ..
  | moultFetchEnd _ => exact reach_moultFetchEnd ..
  | moultVerifyEnd => exact reach_moultVerifyEnd ..
  | moultCheckEnd => exact reach_moultCheckEnd ..
  | moultStageEnd => exact reach_moultStageEnd ..
  | moultSwitchTimeout _ => exact reach_moultSwitchTimeout ..
  | flashProgram => exact reach_flashProgram ..
  | flashSelect => exact reach_flashSelect ..
  | flashEraseDone => exact reach_flashEraseDone ..
  | flashHostReadDone _ => exact reach_flashHostReadDone ..
  | flashPageProgramDone _ => exact reach_flashPageProgramDone ..
  | flashReadbackDone => exact reach_flashReadbackDone ..
  | flashOpTimeout => exact reach_flashOpTimeout ..
  | xspiDqsTimeout => exact reach_xspiDqsTimeout ..
  | ethLinkUp _ => exact reach_ethLinkUp ..
  | ethLinkDown _ => exact reach_ethLinkDown ..
  | frameReceive _ _ => exact reach_frameReceive ..
  | queryResponseTimer _ => exact reach_queryResponseTimer ..
  | unsolicitedReportTimer _ _ => exact reach_unsolicitedReportTimer ..
  | controlRateWindow _ => exact reach_controlRateWindow ..
  | nextHopTimeout _ _ => exact reach_nextHopTimeout ..
  | bucketRefill => exact reach_bucketRefill ..
  | sourceLockTimeout _ => exact reach_sourceLockTimeout ..
  | rtpGapTimeout _ => exact reach_rtpGapTimeout ..
  | rtpJumpTimeout _ => exact reach_rtpJumpTimeout ..
  | pmtWaitTimeout _ => exact reach_pmtWaitTimeout ..
  | injEnable _ _ => exact reach_injEnable ..
  | injEnableDone _ _ => exact reach_injEnableDone ..
  | injDisable _ _ => exact reach_injDisable ..
  | injPoll _ _ => exact reach_injPoll ..
  | injTrailerTimeout _ _ => exact reach_injTrailerTimeout ..
  | injHeaderTimeout _ _ => exact reach_injHeaderTimeout ..
  | injConsumerWrite _ _ => exact reach_injConsumerWrite ..
  | alignmentTimeout _ _ => exact reach_alignmentTimeout ..
  | parseAhead _ _ => exact reach_parseAhead ..
  | decodeSwitch _ _ _ _ => exact reach_decodeSwitch ..
  | blockCycleLimit _ _ => exact reach_blockCycleLimit ..
  | pictureBudgetExceeded _ _ _ => exact reach_pictureBudgetExceeded ..
  | pictureDecoded _ _ _ => exact reach_pictureDecoded ..
  | resamplePicture _ => exact reach_resamplePicture ..
  | resampleDone _ => exact reach_resampleDone ..
  | batchTimeout _ => exact reach_batchTimeout ..
  | batchAdmit _ => exact reach_batchAdmit ..
  | invocationRunnable _ _ => exact reach_invocationRunnable ..
  | invocationResident _ _ _ => exact reach_invocationResident ..
  | stripeClaim _ _ => exact reach_stripeClaim ..
  | semaphoreSignal _ _ _ => exact reach_semaphoreSignal ..
  | semaphoreWait _ _ _ _ => exact reach_semaphoreWait ..
  | semaphoreReset _ _ => exact reach_semaphoreReset ..
  | waitRetry _ _ _ _ => exact reach_waitRetry ..
  | commandWrite _ _ => exact reach_commandWrite ..
  | commandIssue _ _ => exact reach_commandIssue ..
  | commandComplete _ _ => exact reach_commandComplete ..
  | cellEccError _ _ => exact reach_cellEccError ..
  | residueMismatch _ => exact reach_residueMismatch ..
  | cellSelftestReturn _ _ => exact reach_cellSelftestReturn ..
  | mapperWatchdog _ => exact reach_mapperWatchdog ..
  | blockRestart _ => exact reach_blockRestart ..
  | regionFault _ _ => exact reach_regionFault ..
  | weightPrefetch _ _ => exact reach_weightPrefetch ..
  | spillWaveStart _ _ => exact reach_spillWaveStart ..
  | contextRecordAccess _ _ _ => exact reach_contextRecordAccess ..
  | trackPicture _ => exact reach_trackPicture ..
  | chrysalisCapture _ => exact reach_chrysalisCapture ..
  | chrysalisRestore _ _ _ => exact reach_chrysalisRestore ..
  | eviction _ => exact reach_eviction ..
  | residencyWaitTimeout _ => exact reach_residencyWaitTimeout ..
  | adapterStepStart _ => exact reach_adapterStepStart ..
  | adapterStepCommit _ => exact reach_adapterStepCommit ..
  | searchStart _ => exact reach_searchStart ..
  | searchCommit _ => exact reach_searchCommit ..
  | codebookUpdate _ => exact reach_codebookUpdate ..
  | recordEncode _ => exact reach_recordEncode ..
  | recordEmit _ => exact reach_recordEmit ..
  | ringConsumerRead _ _ _ _ => exact reach_ringConsumerRead ..
  | ringHoldTimeout _ _ _ => exact reach_ringHoldTimeout ..
  | ringIrqDelay _ _ _ => exact reach_ringIrqDelay ..
  | ringBind _ _ => exact reach_ringBind ..
  | ringUnbind _ _ => exact reach_ringUnbind ..
  | irqStatusClear _ _ _ _ => exact reach_irqStatusClear ..
  | intaChange _ => exact reach_intaChange ..
  | regulatorUpdate => exact reach_regulatorUpdate ..
  | counterPush _ => exact reach_counterPush ..
  | dramRequest _ _ => exact reach_dramRequest ..
  | poisonedDataReceive _ => exact reach_poisonedDataReceive ..
  | refreshDue _ _ => exact reach_refreshDue ..
  | bankIdleTimeout _ _ => exact reach_bankIdleTimeout ..
  | patrolRead _ _ => exact reach_patrolRead ..
  | imbalanceWindow => exact reach_imbalanceWindow ..
  | bpmAllocate _ _ => exact reach_bpmAllocate ..
  | bpmFree _ _ => exact reach_bpmFree ..
  | bpmShare _ _ _ => exact reach_bpmShare ..
  | bpmZeroIdle _ => exact reach_bpmZeroIdle ..
  | tokenGrant => exact reach_tokenGrant ..
  | powerSample _ => exact reach_powerSample ..
  | vfChoice => exact reach_vfChoice ..
  | vfTransitionEnd _ => exact reach_vfTransitionEnd ..
  | pgoodTimeout _ => exact reach_pgoodTimeout ..
  | pgoodLow _ => exact reach_pgoodLow ..
  | regionPark _ => exact reach_regionPark ..
  | regionWake _ => exact reach_regionWake ..
  | wakeComplete _ => exact reach_wakeComplete ..
  | parkHoldWrite _ _ => exact reach_parkHoldWrite ..
  | pwrbrkAssert => exact reach_pwrbrkAssert ..
  | pwrbrkRelease => exact reach_pwrbrkRelease ..
  | thermInAssert => exact reach_thermInAssert ..
  | thermInRelease => exact reach_thermInRelease ..
  | tempSensorRead _ _ _ => exact reach_tempSensorRead ..
  | chatterWindow _ => exact reach_chatterWindow ..
  | inputStuck _ => exact reach_inputStuck ..
  | inputStuckRelease _ => exact reach_inputStuckRelease ..
  | flr _ _ => exact reach_flr ..
  | flrComplete _ _ => exact reach_flrComplete ..
  | hotReset _ => exact reach_hotReset ..
  | dlDown _ => exact reach_dlDown ..
  | perstAssert _ => exact reach_perstAssert ..
  | perstDeassert _ => exact reach_perstDeassert ..
  | pcieLinkUp _ _ _ => exact reach_pcieLinkUp ..
  | dStateChange _ _ _ => exact reach_dStateChange ..
  | pmeTurnOff _ => exact reach_pmeTurnOff ..
  | pmeSignal _ _ => exact reach_pmeSignal ..
  | pmeRepeat _ _ => exact reach_pmeRepeat ..
  | unitFault _ _ => exact reach_unitFault ..
  | controllerRestart _ => exact reach_controllerRestart ..
  | controllerResume _ => exact reach_controllerResume ..
  | eventStage _ => exact reach_eventStage ..
  | traceExponentTick _ => exact reach_traceExponentTick ..
  | telemetryPacketSend => exact reach_telemetryPacketSend ..
  | summaryTimer => exact reach_summaryTimer ..
  | mpIdentify => exact reach_mpIdentify ..
  | mpSetPointer _ _ => exact reach_mpSetPointer ..
  | mpReadRegisters => exact reach_mpReadRegisters ..
  | mpReadEvents => exact reach_mpReadEvents ..
  | mpRemoveEvents _ _ => exact reach_mpRemoveEvents ..
  | mpAlertResponse => exact reach_mpAlertResponse ..
  | smbusClockTimeout => exact reach_smbusClockTimeout ..
  | keyGo => exact reach_keyGo ..
  | keyBurnDone _ => exact reach_keyBurnDone ..
  | attGo _ _ => exact reach_attGo ..
  | attSignStart => exact reach_attSignStart ..
  | attSignDone => exact reach_attSignDone ..
  | barMemoryWrite _ _ _ _ _ => exact reach_barMemoryWrite ..
  | arrayCreditRefill _ _ => exact reach_arrayCreditRefill ..
  | keyReadDone _ => exact reach_keyReadDone ..
  | regionStoreEccError _ _ => exact reach_regionStoreEccError ..
  | nocLinkCrcError _ => exact reach_nocLinkCrcError ..
  | blockRestartDone _ => exact reach_blockRestartDone ..
  | unitRestartDone _ => exact reach_unitRestartDone ..

end Sys2Proof.Machine
end

