-- ==== Sys2Proof/Laws/Fields.lean ====
section
/-! SUPPORT. Fields of a state after a change: what `Touches` says of each field, and what an update of one field of a map gives. -/

set_option Elab.async false
set_option linter.unusedVariables false

namespace Sys2Proof.Machine

theorem Touches.seq {a b L : List Piece} {s u t : State} (h : Touches a s u) (k : Touches b u t) (ha : mask a ||| mask L = mask L)
    (hb : mask b ||| mask L = mask L) : Touches L s t := (h.sub ha).trans (k.sub hb)

theorem mget_of_mfind {α : Type} [Inhabited α] {m : Map α} {i : Nat} {v : α} (h : mfind m i = some v) : mget m i = v := by
  unfold mget; rw [h]; rfl

theorem mfind_mapUpd {α : Type} (m : Map α) (i : Nat) (f : α → α) :
    mfind (m.map (fun p => if p.1 = i then (p.1, f p.2) else p)) i = (mfind m i).map f := by
  induction m with
  | nil => rfl
  | cons a t ih =>
    obtain ⟨q, v⟩ := a
    by_cases e : q = i
    · subst e; simp [mfind]
    · simpa [mfind, e] using ih

theorem mfind_updFrame (s : State) (i : Nat) (f : Frame → Frame) : mfind (s.updFrame i f).frames i = (mfind s.frames i).map f := mfind_mapUpd ..

theorem mfind_updBatch (s : State) (i : Nat) (f : Batch → Batch) : mfind (s.updBatch i f).batches i = (mfind s.batches i).map f := mfind_mapUpd ..

theorem stream_upd_ne (s : State) (slot i : Nat) (f : Stream → Stream) (h : i ≠ slot) : (s.updStream slot f).stream i = s.stream i := by
  simp only [State.stream, State.updStream]; exact mget_mupd_ne _ _ (Ne.symm h)

theorem ing_upd (s : State) (slot : Nat) (f : Ingest → Ingest) : ((s.updIng slot f).stream slot).ing = f (s.stream slot).ing := by
  unfold State.updIng; rw [State.stream_updStream_self]

theorem dec_upd (s : State) (slot : Nat) (f : Decode → Decode) : ((s.updDec slot f).stream slot).dec = f (s.stream slot).dec := by
  unfold State.updDec; rw [State.stream_updStream_self]

theorem dec_upd_all (s : State) (slot i : Nat) (f : Decode → Decode) : ((s.updDec slot f).stream i).dec = if i = slot then f (s.stream i).dec else (s.stream i).dec := by
  by_cases h : i = slot
  · rw [if_pos h, h, dec_upd]
  · rw [if_neg h]; unfold State.updDec; rw [stream_upd_ne _ _ _ _ h]

theorem count_dec (s : State) (slot k n : Nat) : ((decCount s slot k n).stream slot).dec = { (s.stream slot).dec with ctr := bump (s.stream slot).dec.ctr k n } := dec_upd ..

theorem Touches.frames_eq {l : List Piece} {s t : State} (h : Touches l s t) (a : Piece.frames ∉ l) : t.frames = s.frames := congrArg Prod.fst (h.same .frames a)

theorem Touches.batches_eq {l : List Piece} {s t : State} (h : Touches l s t) (a : Piece.batches ∉ l) : t.batches = s.batches := congrArg Prod.fst (h.same .batches a)

theorem ledgerWrite_frame (s : State) (i : Nat) (f : Frame) (h : mfind s.frames i = some f) :
    ∃ w, mfind (ledgerWrite s i).frames i = some { f with writes := w } := by
  unfold ledgerWrite
  rw [h]
  dsimp only
  split
  · exact ⟨f.writes, h⟩
  · split
    · refine ⟨(f.writes + 1) % 2 ^ 16, ?_⟩
      show mfind (s.updFrame i (fun _ => { f with writes := (f.writes + 1) % 2 ^ 16 })).frames i = _
      rw [mfind_updFrame, h]; rfl
    · exact ⟨f.writes, h⟩

theorem frameStage_frame (s : State) (i st : Nat) (f : Frame) (h : mfind s.frames i = some f) :
    ∃ w, mfind (frameStage s i st).frames i = some { f with stage := max f.stage st, writes := w } := by
  unfold frameStage
  exact ledgerWrite_frame _ i { f with stage := max f.stage st } (by rw [mfind_updFrame, h]; rfl)

theorem mfind_updCtx (s : State) (i : Nat) (f : Ctx → Ctx) : mfind (s.updCtx i f).ctxs i = (mfind s.ctxs i).map f := mfind_mapUpd ..

theorem Touches.ctxs_eq {l : List Piece} {s t : State} (h : Touches l s t) (a : Piece.ctxs ∉ l) : t.ctxs = s.ctxs := congrArg Prod.fst (h.same .ctxs a)

theorem region_upd (s : State) (r : Nat) (f : Region → Region) : (s.updRegion r f).region r = f (s.region r) := by
  unfold State.updRegion State.region; dsimp only; rw [mget_mupd_self]

theorem region_upd_ne (s : State) (r q : Nat) (f : Region → Region) (h : q ≠ r) : (s.updRegion r f).region q = s.region q := by
  unfold State.updRegion State.region; dsimp only; exact mget_mupd_ne _ _ h.symm

theorem cell_upd (s : State) (r : Nat) (f : Cell → Cell) : (s.updCell r f).cell r = f (s.cell r) := by
  unfold State.updCell State.cell; dsimp only; rw [mget_mupd_self]

theorem block_upd (s : State) (r : Nat) (f : Block → Block) : (s.updBlock r f).block r = f (s.block r) := by
  unfold State.updBlock State.block; dsimp only; rw [mget_mupd_self]

theorem part_upd (s : State) (r : Nat) (f : Part → Part) : (s.updPart r f).part r = f (s.part r) := by
  unfold State.updPart State.part; dsimp only; rw [mget_mupd_self]

theorem Touches.block_eq {l : List Piece} {s t : State} (h : Touches l s t) (a : Piece.blocks ∉ l) (i : Nat) : t.block i = s.block i := by
  unfold State.block; rw [show t.blocks = s.blocks from h.same .blocks a]

theorem Touches.cell_eq {l : List Piece} {s t : State} (h : Touches l s t) (a : Piece.cells ∉ l) (i : Nat) : t.cell i = s.cell i := by
  unfold State.cell; rw [show t.cells = s.cells from h.same .cells a]

theorem Touches.region_eq {l : List Piece} {s t : State} (h : Touches l s t) (a : Piece.regions ∉ l) (i : Nat) : t.region i = s.region i := by
  unfold State.region; rw [show t.regions = s.regions from h.same .regions a]

theorem Touches.part_eq {l : List Piece} {s t : State} (h : Touches l s t) (a : Piece.parts ∉ l) (i : Nat) : t.part i = s.part i := by
  unfold State.part; rw [show t.parts = s.parts from h.same .parts a]

theorem mget_pairs {α : Type} [Inhabited α] (f : Nat → α) (n p : Nat) (h : p < n) :
    mget ((List.range n).map (fun q => (q, f q))) p = f p := by
  have : mfind ((List.range n).map (fun q => (q, f q))) p = some (f p) := by
    suffices ∀ l : List Nat, p ∈ l → mfind (l.map (fun q => (q, f q))) p = some (f p) from this _ (List.mem_range.2 h)
    intro l hl
    induction l with
    | nil => cases hl
    | cons a t ih =>
      by_cases e : a = p
      · subst e; simp [mfind]
      · simp only [List.map_cons, mfind, e, if_false]
        exact ih (by simpa [Ne.symm e] using hl)
  unfold mget
  rw [this]; rfl

theorem mget_mmap_keep {α β : Type} [Inhabited α] (g : α → β) (m : Map α) (f : Nat → α → α) (h : ∀ k v, g (f k v) = g v) (k : Nat) : g (mget (mmap m f) k) = g (mget m k) := by
  have : mfind (mmap m f) k = (mfind m k).map (f k) := by
    unfold mmap
    induction m with
    | nil => rfl
    | cons a t ih =>
      obtain ⟨q, v⟩ := a
      by_cases e : q = k
      · subst e; simp [mfind]
      · simpa [mfind, e] using ih
  unfold mget
  rw [this]
  cases mfind m k <;> simp [h]

theorem foldl_id {α : Type} (f : State → α → State) (l : List α) (s : State) (h : ∀ a ∈ l, f s a = s) : l.foldl f s = s := by
  induction l with
  | nil => rfl
  | cons a t ih => rw [List.foldl_cons, h a (by simp)]; exact ih (fun b hb => h b (by simp [hb]))

theorem region_keep {β : Type} (g : Region → β) (s : State) (r i : Nat) (f : Region → Region) (h : ∀ x, g (f x) = g x) : g ((s.updRegion r f).region i) = g (s.region i) := by
  by_cases e : i = r
  · subst e; rw [region_upd, h]
  · rw [region_upd_ne _ _ _ _ e]

theorem wbit_irq (w : Word) (b : Nat) (h : b < 22) : wbit (w ||| wflag true b) b = true := by
  unfold wbit wflag
  simp only [BitVec.getLsbD_or, if_true, BitVec.getLsbD_ofNat, Nat.testBit_two_pow_self]; simp; intros; omega

theorem touches_key (s : State) (f : Key) : Touches [.key] s { s with key := f } := by
  refine ⟨fun p h => ?_⟩
  cases p <;> first | rfl | exact fun _ => rfl | simp at h

theorem touches_fuses (s : State) (f : Map FuseSlot) : Touches [.fuses] s { s with fuses := f } := by
  refine ⟨fun p h => ?_⟩
  cases p <;> first | rfl | exact fun _ => rfl | simp at h

theorem touches_signer (s : State) (f : Signer) : Touches [.signer] s { s with signer := f } := by
  refine ⟨fun p h => ?_⟩
  cases p <;> first | rfl | exact fun _ => rfl | simp at h

theorem fnIx_div (k : Nat) : fnIx (k / 4) (k % 4) = k := by unfold fnIx; omega

theorem touches_out (s : State) (l : List Out) : Touches [.out] s { s with out := l } := by
  refine ⟨fun p h => ?_⟩
  cases p <;> first | rfl | exact fun _ => rfl | simp at h

theorem cellRead_writeBytes (u : Byte) (l : Bytes) (m : List Host.Cell) (a b : Nat) (h : cellsWf u m = true) :
    cellRead u (cellWriteBytes u m a l) b = if a ≤ b ∧ b < a + l.length then l.getD (b - a) 0 else cellRead u m b := by
  induction l generalizing m a with
  | nil => simp [cellWriteBytes]
  | cons x t ih =>
    rw [cellWriteBytes, ih _ _ (cellWrite_wf _ _ _ _ h)]
    by_cases e : b = a
    · subst e
      rw [if_neg (by omega), if_pos (by simp), cellRead_cellWrite u m 0 _ x h]
      simp
    · rw [cellRead_cellWrite_ne u m a b x h (by omega)]
      by_cases k : a + 1 ≤ b ∧ b < a + 1 + t.length
      · rw [if_pos k, if_pos (by simp; omega)]
        obtain ⟨n, hn⟩ : ∃ n, b - a = n + 1 := ⟨b - a - 1, by omega⟩
        rw [hn, show b - (a + 1) = n by omega]; simp
      · rw [if_neg k, if_neg (by simp; omega)]

theorem cellRead_clear (u : Byte) (m : List Host.Cell) (a n b : Nat) :
    cellRead u (cellClear m a n) b = if a ≤ b ∧ b < a + n then u else cellRead u m b := by
  split
  · rename_i h; exact cellRead_cellClear_in u m a n b h.1 h.2
  · exact cellRead_cellClear_out u m a n b (by omega)

theorem touches_flash (s : State) (f : Flash) : Touches [.flash] s { s with flash := f } := by
  refine ⟨fun p h => ?_⟩
  cases p <;> first | rfl | exact fun _ => rfl | simp at h

theorem fn_upd (s : State) (p f : Nat) (g : Fn → Fn) : (s.updFn p f g).fn p f = g (s.fn p f) := by
  unfold State.updFn State.fn; dsimp only; rw [mget_mupd_self]

theorem ring_upd (s : State) (p f k : Nat) (g : Ring → Ring) : (s.updRing p f k g).ring p f k = g (s.ring p f k) := by
  unfold State.updRing State.ring; rw [fn_upd]; dsimp only; rw [mget_mupd_self]

theorem Touches.ring_eq {l : List Piece} {s t : State} (h : Touches l s t) (a : Piece.rings ∉ l) (p f k : Nat) : t.ring p f k = s.ring p f k := by
  have : fnRings (t.fn p f) = fnRings (s.fn p f) := h.same .rings a (fnIx p f)
  unfold State.ring
  rw [show (t.fn p f).rings = (s.fn p f).rings from congrArg Prod.fst this]

theorem Touches.irqStatus_eq {l : List Piece} {s t : State} (h : Touches l s t) (a : Piece.rings ∉ l) (p f : Nat) : (t.fn p f).irqStatus = (s.fn p f).irqStatus := by
  have : fnRings (t.fn p f) = fnRings (s.fn p f) := h.same .rings a (fnIx p f)
  exact congrArg Prod.snd this

theorem port_upd (s : State) (p : Nat) (g : HostPort → HostPort) : (s.updPort p g).port p = g (s.port p) := by
  unfold State.updPort State.port; dsimp only; rw [mget_mupd_self]

theorem fn_upd_all (s : State) (p f p' f' : Nat) (g : Fn → Fn) : (s.updFn p f g).fn p' f' = if fnIx p f = fnIx p' f' then g (s.fn p' f') else s.fn p' f' := by
  unfold State.updFn State.fn; dsimp only; rw [mget_mupd]
  by_cases h : fnIx p f = fnIx p' f'
  · rw [if_pos h, if_pos h, h]
  · rw [if_neg h, if_neg h]

theorem Touches.fnCore_eq {l : List Piece} {s t : State} (h : Touches l s t) (a : Piece.fns ∉ l) (p f : Nat) : fnCore (t.fn p f) = fnCore (s.fn p f) := h.same .fns a (fnIx p f)

theorem Touches.port_eq {l : List Piece} {s t : State} (h : Touches l s t) (a : Piece.ports ∉ l) (p : Nat) : t.port p = s.port p := by
  unfold State.port; rw [show t.ports = s.ports from h.same .ports a]

theorem Touches.resetting_eq {l : List Piece} {s t : State} (h : Touches l s t) (a : Piece.fns ∉ l) (p f : Nat) : (t.fn p f).resetting = (s.fn p f).resetting := by
  have := congrArg Fn.resetting (Touches.fnCore_eq h a p f)
  exact this

theorem Touches.scu_eq {l : List Piece} {s t : State} (h : Touches l s t) (a : Piece.scu ∉ l) : t.scu = s.scu := h.same .scu a

theorem Touches.fnPresent_eq {l : List Piece} {s t : State} (h : Touches l s t) (a : Piece.scu ∉ l) (b : Piece.aon ∉ l) (p f : Nat) : fnPresent t p f = fnPresent s p f := by
  have : t.aon.split = s.aon.split := by simpa using congrArg Aon.split (show { t.aon with alarms := [] } = { s.aon with alarms := [] } from h.same .aon b)
  unfold fnPresent portPresent State.held State.imago State.run
  rw [Touches.scu_eq h a, this]

theorem Touches.flrs_eq {l : List Piece} {s t : State} (h : Touches l s t) (a : Piece.aon ∉ l) : t.aon.flrs = s.aon.flrs := by
  have := congrArg Aon.flrs (show { t.aon with alarms := [] } = { s.aon with alarms := [] } from h.same .aon a)
  exact this

theorem Touches.engines_eq {l : List Piece} {s t : State} (h : Touches l s t) (a : Piece.engines ∉ l) : t.engines = s.engines := h.same .engines a

theorem Touches.resamplers_eq {l : List Piece} {s t : State} (h : Touches l s t) (a : Piece.resamplers ∉ l) : t.resamplers = s.resamplers := h.same .resamplers a

theorem path_upd_all (s : State) (i q : Nat) (f : Path → Path) : (s.updPath i f).path q = if i = q then f (s.path q) else s.path q := by
  unfold State.updPath State.path; dsimp only; rw [mget_mupd]
  split
  · rename_i h; rw [h]
  · rfl

theorem Touches.alarms_eq {l : List Piece} {s t : State} (h : Touches l s t) (a : Piece.alarms ∉ l) : t.aon.alarms = s.aon.alarms := h.same .alarms a

theorem Touches.tu_eq {l : List Piece} {s t : State} (h : Touches l s t) (a : Piece.tu ∉ l) : t.tu = s.tu := h.same .tu a

theorem touches_streams (s : State) (f : Map Stream) : Touches [.streams] s { s with streams := f } := by
  refine ⟨fun p h => ?_⟩
  cases p <;> first | rfl | exact fun _ => rfl | simp at h

theorem mget_mdel {α : Type} [Inhabited α] (m : Map α) (k : Nat) : mget (mdel m k) k = default := by
  unfold mget mdel
  have : mfind (m.filter (fun p => p.1 != k)) k = none := by
    induction m with
    | nil => rfl
    | cons a t ih =>
      obtain ⟨q, v⟩ := a
      by_cases e : q = k
      · subst e; simpa using ih
      · simp [List.filter_cons, e, mfind, ih]
  rw [this]; rfl

theorem mget_mmap_or {α : Type} [Inhabited α] (m : Map α) (f : Nat → α → α) (k : Nat) : mget (mmap m f) k = f k (mget m k) ∨ (mget (mmap m f) k = default ∧ mget m k = default) := by
  unfold mget mmap
  induction m with
  | nil => exact .inr ⟨rfl, rfl⟩
  | cons a t ih =>
    obtain ⟨q, v⟩ := a
    by_cases e : q = k
    · subst e; simp [mfind]
    · simpa [mfind, e] using ih

theorem inj_upd (s : State) (p f : Nat) (g : Inj → Inj) : (s.updInj p f g).inj p f = g (s.inj p f) := by simp [State.inj, State.updInj]

theorem Touches.inj_eq {l : List Piece} {s t : State} (h : Touches l s t) (a : Piece.fns ∉ l) (p f : Nat) : t.inj p f = s.inj p f := by
  have := h.same .fns a (fnIx p f)
  have k : (fnCore (t.fn p f)).inj = (fnCore (s.fn p f)).inj := congrArg Fn.inj this
  exact k

theorem mfind_mdel {α : Type} (m : Map α) (k : Nat) : mfind (mdel m k) k = none := by
  unfold mdel
  induction m with
  | nil => rfl
  | cons a t ih =>
    obtain ⟨q, v⟩ := a
    by_cases e : q = k
    · subst e; simpa using ih
    · have : (((q, v) : Nat × α).1 != k) = true := by simpa using e
      simp [mfind, e, ih]

theorem touches_blocks (s : State) (b : Map Block) : Touches [.blocks] s { s with blocks := b } := by
  refine ⟨fun p hp => ?_⟩
  cases p <;> first | (exact absurd (by decide) hp) | rfl | (intro _; rfl)

theorem touches_store (s : State) (b : CtxStore) : Touches [.store] s { s with store := b } := by
  refine ⟨fun p hp => ?_⟩
  cases p <;> first | (exact absurd (by decide) hp) | rfl | (intro _; rfl)

theorem pc_upd (s : State) (r : Nat) (f : Pc → Pc) : (s.updPc r f).pc r = f (s.pc r) := by
  unfold State.updPc State.pc; dsimp only; rw [mget_mupd_self]

theorem Touches.dramCore_eq {l : List Piece} {s t : State} (h : Touches l s t) (a : Piece.dram ∉ l) : { t.dram with mem := [] } = { s.dram with mem := [] } := h.same .dram a

theorem Touches.mem_eq {l : List Piece} {s t : State} (h : Touches l s t) (a : Piece.mem ∉ l) : t.dram.mem = s.dram.mem := h.same .mem a

theorem Touches.dram_eq {l : List Piece} {s t : State} (h : Touches l s t) (a : Piece.dram ∉ l) (b : Piece.mem ∉ l) : t.dram = s.dram := by
  have h1 := Touches.dramCore_eq h a
  have h2 := Touches.mem_eq h b
  have : t.dram = { ({ t.dram with mem := [] } : Dram) with mem := t.dram.mem } := rfl
  rw [this, h1, h2]

theorem Touches.bpm_eq {l : List Piece} {s t : State} (h : Touches l s t) (a : Piece.bpm ∉ l) : t.bpm = s.bpm := h.same .bpm a

theorem mfind_mput_self {α : Type} (m : Map α) (k : Nat) (v : α) : mfind (mput m k v) k = some v := by
  rw [mfind_mput]; simp

theorem mfind_mdel_self {α : Type} (m : Map α) (k : Nat) : mfind (mdel m k) k = none := by
  induction m with
  | nil => rfl
  | cons a t ih =>
    simp only [mdel, List.filter_cons] at ih ⊢
    split
    · rename_i h; simp at h; simpa [mfind, h] using ih
    · exact ih

theorem minByNat_mem {α : Type} (f : α → Nat) (l : List α) (x : α) (h : minByNat f l = some x) : x ∈ l := by
  induction l generalizing x with
  | nil => cases h
  | cons a t ih =>
    unfold minByNat at h
    split at h
    · cases h; exact List.mem_cons_self
    · rename_i b hb
      split at h
      · cases h; exact List.mem_cons_of_mem _ (ih _ hb)
      · cases h; exact List.mem_cons_self

theorem fold_region {β : Type} (f : State → β → State) (l : List β) (h : ∀ u q, (f u q).regions = u.regions) (u : State) (r : Nat) :
    (l.foldl f u).region r = u.region r := by
  induction l generalizing u with
  | nil => rfl
  | cons a t ih => simp only [List.foldl_cons]; rw [ih]; unfold State.region; rw [h]

theorem Touches.aon_eq {l : List Piece} {s t : State} (h : Touches l s t) (a : Piece.aon ∉ l) : { t.aon with alarms := [] } = { s.aon with alarms := [] } := h.same .aon a

theorem Touches.inputs_eq {l : List Piece} {s t : State} (h : Touches l s t) (a : Piece.aon ∉ l) : t.aon.inputs = s.aon.inputs := by
  simpa using congrArg Aon.inputs (Touches.aon_eq h a)

end Sys2Proof.Machine
end

