-- ==== Sys2Proof/Laws/Phases.lean ====
section
/-! SUPPORT. How the start-up phase moves: every command but the assertion of POR_N moves it as `BootMove` says. -/

set_option Elab.async false
set_option linter.unusedVariables false

namespace Sys2Proof.Machine

theorem legalPhase_of_same {s t : State} (h : legalPhase s) (h1 : t.por = s.por) (h2 : t.scu.phase = s.scu.phase) : legalPhase t := by
  unfold legalPhase at *; rw [h1, h2]; exact h

/-- What a boot command does to por, phase, cause, bootTime and straps. -/
structure BootMove (s t : State) : Prop where
  legal : legalPhase s → legalPhase t
  held : s.por = false → s.held = true → t.held = true ∧ t.scu.cause = s.scu.cause ∧ t.scu.bootTime = s.scu.bootTime
  straps : s.por = false → t.aon.split = s.aon.split ∧ t.aon.smbAddr = s.aon.smbAddr

theorem BootMove.refl (s : State) : BootMove s s := ⟨id, fun _ h => ⟨h, rfl, rfl⟩, fun _ => ⟨rfl, rfl⟩⟩

theorem BootMove.kept {s t : State} (h : KeepsButFlash s t) : BootMove s t :=
  ⟨fun a => legalPhase_of_same a h.por h.phase, fun _ a => ⟨by unfold State.held at *; rw [h.phase]; exact a, h.cause, h.bootTime⟩,
   fun _ => ⟨congrArg Prod.fst h.straps, congrArg Prod.snd h.straps⟩⟩

theorem BootMove.of {s t : State} (hp : t.por = s.por) (h0 : s.scu.phase ≠ 0) (h1 : s.scu.phase ≠ 0xE) (h2 : t.scu.phase ∈ [1, 2, 3, 4, 5, 6, 7, 8, 9, 0xE])
   (h3 : (t.aon.split, t.aon.smbAddr) = (s.aon.split, s.aon.smbAddr)) : BootMove s t := by
  refine ⟨fun a => ?_, fun _ a => ?_, fun _ => ⟨congrArg Prod.fst h3, congrArg Prod.snd h3⟩⟩
  · unfold legalPhase at *
    rw [hp]
    split at a
    · exact absurd a h0
    · rename_i h; rw [if_neg h]; exact h2
  · unfold State.held phaseHeld at a
    simp at a
    exact absurd a h1

theorem heldEntry_move (s : State) (c : Nat) (h0 : s.scu.phase ≠ 0) (h1 : s.scu.phase ≠ 0xE) : BootMove s (heldEntry s c) :=
  BootMove.of rfl h0 h1 (by simp [heldEntry, phaseHeld]) rfl

theorem BootMove.trans {s u t : State} (h : BootMove s u) (hp : u.por = s.por) (k : BootMove u t) : BootMove s t :=
  ⟨fun a => k.legal (h.legal a), fun a b => by
     obtain ⟨x, y, z⟩ := h.held a b
     obtain ⟨x', y', z'⟩ := k.held (hp.trans a) x
     exact ⟨x', y'.trans y, z'.trans z⟩, fun a => by
     obtain ⟨x, y⟩ := h.straps a
     obtain ⟨x', y'⟩ := k.straps (hp.trans a)
     exact ⟨x'.trans x, y'.trans y⟩⟩

theorem phaseEnd_move (s u : State) (c n : Nat) (hp : u.por = s.por) (h0 : s.scu.phase ≠ 0) (h1 : s.scu.phase ≠ 0xE)
    (hn : n ∈ [1, 2, 3, 4, 5, 6, 7, 8, 9, 0xE]) (h3 : (u.aon.split, u.aon.smbAddr) = (s.aon.split, s.aon.smbAddr)) : BootMove s (phaseEnd u c n) := by
  unfold phaseEnd
  split
  · exact BootMove.of hp h0 h1 hn h3
  · exact BootMove.of hp h0 h1 (by simp [heldEntry, phaseHeld]) h3

theorem execPhaseSelftestEnd_move (x y z : List Nat) (s : State) : ∃ u, execPhaseSelftestEnd x y z s = .next u ∧ BootMove s u := by
  unfold execPhaseSelftestEnd
  split
  · exact ⟨s, rfl, BootMove.refl s⟩
  · rename_i h
    simp at h
    extract_lets a b c d e
    have ha : Keeps s a := selftestFences_keeps ..
    have hb : Keeps a b := (demoteAtStart_keeps ..).trans (demoteAtStart_keeps ..)
    have hc : Keeps b c := alarmsIfBare_keeps ..
    have hd : Keeps c d := wakeAll_keeps ..
    have he : Keeps d e := Keeps.foldl dropCtx_keeps (Keeps.refl d) _
    have hh := (((ha.trans hb).trans hc).trans hd).trans he
    clear_value e
    exact ⟨_, rfl, BootMove.of hh.por (by omega) (by omega) (by simp) hh.straps⟩

theorem boot_move (c : Instr) (s t : State) (hc : c ≠ .porAssert) (hb : boots c = true) (e : exec c s = .next t) : BootMove s t := by
  cases c with
  | porAssert => exact absurd rfl hc
  | porDeassert a b =>
    simp only [exec_porDeassert, execPorDeassert] at e
    split at e
    · cases e; exact BootMove.refl s
    · rename_i hp
      cases e
      have hp : s.por = true := by simpa using hp
      refine ⟨fun _ => ?_, fun h => ?_, fun h => ?_⟩
      · simp [legalPhase]
      · rw [hp] at h; cases h
      · rw [hp] at h; cases h
  | phaseFuseEnd =>
    simp only [exec_phaseFuseEnd, execPhaseFuseEnd] at e
    split at e
    · cases e; exact BootMove.refl s
    · rename_i h; simp at h; cases e; exact phaseEnd_move _ _ _ _ rfl (by omega) (by omega) (by simp) rfl
  | phaseDramEnd a b =>
    simp only [exec_phaseDramEnd, execPhaseDramEnd] at e
    split at e
    · cases e; exact BootMove.refl s
    · rename_i h; simp at h; cases e; exact phaseEnd_move _ _ _ _ rfl (by omega) (by omega) (by simp) rfl
  | phaseFlashEnd =>
    simp only [exec_phaseFlashEnd, execPhaseFlashEnd] at e
    split at e
    · cases e; exact BootMove.refl s
    · rename_i h; simp at h
      split at e
      · cases e; exact heldEntry_move _ _ (by omega) (by omega)
      · cases e; exact phaseEnd_move _ _ _ _ rfl (by omega) (by omega) (by simp) rfl
  | phaseVerifyEnd =>
    simp only [exec_phaseVerifyEnd, execPhaseVerifyEnd] at e
    split at e
    · cases e; exact BootMove.refl s
    · rename_i h; simp at h
      cases e
      refine phaseEnd_move _ _ _ _ ?_ (by omega) (by omega) (by simp) ?_ <;> (split <;> split <;> rfl)
  | phaseCheckEnd =>
    simp only [exec_phaseCheckEnd, execPhaseCheckEnd] at e
    split at e
    · cases e; exact BootMove.refl s
    · rename_i h; simp at h; cases e; exact phaseEnd_move _ _ _ _ rfl (by omega) (by omega) (by simp) rfl
  | phaseLoadEnd =>
    simp only [exec_phaseLoadEnd, execPhaseLoadEnd] at e
    split at e
    · cases e; exact BootMove.refl s
    · rename_i h; simp at h
      have k := loadImage_keeps s
      rw [← Host.Outcome.next.inj e]
      have h1 : BootMove s { loadImage s with
          scu := { (loadImage s).scu with phase := 7 }, store := default, bpm := default, parts := [], devTuned := [] } :=
        BootMove.of k.por (by omega) (by omega) (by simp) k.straps
      have h2 : ({ loadImage s with scu := { (loadImage s).scu with phase := 7 }, store := default, bpm := default, parts := [], devTuned := [] } : State).por = s.por :=
        k.por
      generalize ({ loadImage s with
          scu := { (loadImage s).scu with phase := 7 }, store := default, bpm := default, parts := [], devTuned := [] } : State) = u at h1 h2 ⊢
      exact BootMove.trans h1 h2 (BootMove.kept ((selftestWakes_keeps ..).trans
        (Keeps.foldl selftestPlace_keeps (Keeps.refl _) _)).toKeepsButFlash)
  | phaseSelftestEnd x y z =>
    obtain ⟨u, h1, h2⟩ := execPhaseSelftestEnd_move x y z s
    rw [exec_phaseSelftestEnd, h1] at e; cases e; exact h2
  | phasePortsEnd =>
    simp only [exec_phasePortsEnd, execPhasePortsEnd] at e
    split at e
    · cases e; exact BootMove.refl s
    · rename_i h; simp at h
      cases e
      unfold imagoEntry
      refine BootMove.trans ?_ ?_ (BootMove.kept (addStreams_keeps ..).toKeepsButFlash)
      · exact BootMove.of rfl (by omega) (by omega) (by simp [phaseImago]) rfl
      · rfl
  | phaseTimeout =>
    simp only [exec_phaseTimeout, execPhaseTimeout] at e
    split at e
    · rename_i h; simp at h; cases e; exact heldEntry_move _ _ (by omega) (by omega)
    · cases e; exact BootMove.refl s
  | xspiDqsTimeout =>
    simp only [exec_xspiDqsTimeout, execXspiDqsTimeout] at e
    split at e
    · rename_i h; cases e; exact heldEntry_move _ _ (by omega) (by omega)
    · split at e
      · cases e; exact BootMove.kept (flashFail_keeps ..).toKeepsButFlash
      · cases e; exact BootMove.refl s
  | _ => exact absurd hb Bool.noConfusion

theorem any_move (c : Instr) (s t : State) (hc : c ≠ .porAssert) (e : exec c s = .next t) : BootMove s t := by
  cases h1 : boots c with
  | true => exact boot_move c s t hc h1 e
  | false =>
    cases h2 : burns c with
    | false =>
      obtain ⟨u, a, b⟩ := exec_keepsButFlash c s h1 h2
      rw [e] at a; cases a; exact BootMove.kept b
    | true =>
      have ht : Touches (reach c) s t := by
        obtain ⟨u, h1, h2⟩ := exec_touches c s
        rw [e] at h1; cases h1; exact h2
      have : ∀ p, p ∉ reach c → p.same s t := ht.same
      cases c with
      | keyBurnDone b =>
        have a := this .scu (by simp [reach])
        have b := this .por (by simp [reach])
        have d : { t.aon with alarms := [] } = { s.aon with alarms := [] } := this .aon (by simp [reach])
        exact ⟨fun h => legalPhase_of_same h b (by rw [show t.scu = s.scu from a]), fun _ h => ⟨by unfold State.held at *; rw [show t.scu = s.scu from a]; exact h, by rw [show t.scu = s.scu from a], by rw [show t.scu = s.scu from a]⟩,
          fun _ => ⟨by simpa using congrArg (fun a : Aon => a.split) d, by simpa using congrArg (fun a : Aon => a.smbAddr) d⟩⟩
      | _ => exact absurd h2 Bool.noConfusion

theorem tick_move (s : State) : BootMove s (clockTick s) := by
  unfold clockTick
  split
  · exact BootMove.refl s
  · refine BootMove.trans (u := { s with now := s.now + 1 }) ⟨id, fun _ h => ⟨h, rfl, rfl⟩, fun _ => ⟨rfl, rfl⟩⟩ rfl (BootMove.kept ?_)
    exact (((((tickInput_keeps ..).trans (tickInput_keeps ..)).trans (tickWaits_keeps ..)).trans (refillBuckets_keeps ..)).trans (dramTick_keeps ..)).toKeepsButFlash

theorem legalPhase_pending {s : State} {l} (h : legalPhase s) : legalPhase { s with pending := l } := h

end Sys2Proof.Machine
end

