-- ==== Sys2Proof/Laws/Fencing.lean ====
section
/-! SUPPORT. A fenced cell, block or region stays fenced (`Fences`), and what fencing one of them leaves. -/

set_option Elab.async false
set_option linter.unusedVariables false

namespace Sys2Proof.Machine

theorem burnLost_idle (s : State) (h : s.key.state ≠ 3) : burnLost s = s := by
  unfold burnLost; rw [if_pos h]

theorem burnLost_touches (s : State) : Touches [.fuses, .freeIx] s (burnLost s) := burnLost_touch s

theorem pupa_region (m : Map Region) (r : Nat) : mget (mmap m (fun _ r => regionPupa r)) r = regionPupa (mget m r) :=
  mget_mmap m _ r rfl

theorem entersHeld_heldEntry (s u : State) (c : Nat) (h : u.now = s.now) : entersHeld c s (heldEntry u c) := by
  refine ⟨rfl, rfl, h, rfl, fun r => ?_⟩
  have : (heldEntry u c).region r = regionPupa (u.region r) := pupa_region _ _
  rw [this]; exact ⟨rfl, rfl⟩

/-- Fencing is not undone. -/
structure Fences (s t : State) : Prop where
  cell : ∀ c, (s.cell c).fenced = true → (t.cell c).fenced = true
  block : ∀ c, (s.block c).fenced = true → (t.block c).fenced = true
  region : ∀ c, (s.region c).fenced = true → (t.region c).fenced = true

theorem Fences.refl (s : State) : Fences s s := ⟨fun _ h => h, fun _ h => h, fun _ h => h⟩

theorem Fences.trans {s u t : State} (h : Fences s u) (k : Fences u t) : Fences s t :=
  ⟨fun c a => k.cell c (h.cell c a), fun c a => k.block c (h.block c a), fun c a => k.region c (h.region c a)⟩

theorem Fences.of {l : List Piece} {s t : State} (h : Touches l s t) (a : Piece.cells ∉ l) (b : Piece.blocks ∉ l) (c : Piece.regions ∉ l) : Fences s t :=
  ⟨fun i e => by rw [h.cell a]; exact e, fun i e => by rw [h.block b]; exact e, fun i e => by rw [h.region c]; exact e⟩

theorem Fences.off {l : List Piece} {s t : State} (h : Touches l s t) (a : mask l &&& mask [.regions, .blocks, .cells] = 0) : Fences s t := by
  have n : ∀ p ∈ ([.regions, .blocks, .cells] : List Piece), p ∉ l := by
    intro p hp hl
    have h1 := (testBit_mask l p).2 hl
    have h2 := (testBit_mask [.regions, .blocks, .cells] p).2 hp
    have : (mask l &&& mask [.regions, .blocks, .cells]).testBit p.ix = true := by rw [Nat.testBit_and, h1, h2]; rfl
    rw [a] at this; simp at this
  exact Fences.of h (n _ (by simp)) (n _ (by simp)) (n _ (by simp))

theorem Fences.ite {s a b : State} {c : Prop} [Decidable c] (h : Fences s a) (k : Fences s b) : Fences s (if c then a else b) := by split <;> assumption

theorem Fences.foldl {α : Type} {s u : State} {f : State → α → State} (hf : ∀ v a, Fences v (f v a)) (h : Fences s u) (l : List α) : Fences s (l.foldl f u) := by
  induction l generalizing u with
  | nil => exact h
  | cons a t ih => exact ih (h.trans (hf u a))

theorem fences_updRegion (s : State) (r : Nat) (f : Region → Region) (hf : (s.region r).fenced = true → (f (s.region r)).fenced = true) : Fences s (s.updRegion r f) := by
  refine ⟨fun _ h => h, fun _ h => h, fun c h => ?_⟩
  rw [State.region_updRegion]
  split
  · rename_i e; subst e; exact hf h
  · exact h

theorem fences_updCell (s : State) (r : Nat) (f : Cell → Cell) (hf : (s.cell r).fenced = true → (f (s.cell r)).fenced = true) : Fences s (s.updCell r f) := by
  refine ⟨fun c h => ?_, fun _ h => h, fun _ h => h⟩
  rw [State.cell_updCell]
  split
  · rename_i e; subst e; exact hf h
  · exact h

theorem fences_updBlock (s : State) (r : Nat) (f : Block → Block) (hf : (s.block r).fenced = true → (f (s.block r)).fenced = true) : Fences s (s.updBlock r f) := by
  refine ⟨fun _ h => h, fun c h => ?_, fun _ h => h⟩
  rw [State.block_updBlock]
  split
  · rename_i e; subst e; exact hf h
  · exact h

theorem fences_alarm (s : State) (u n : Nat) : Fences s (raiseAlarm s u n) := Fences.of (raiseAlarm_touch ..) (by decide) (by decide) (by decide)

theorem fences_selftestCells (l : List Nat) (s : State) : Fences s (selftestCells l s) := by
  induction l generalizing s with
  | nil => exact Fences.refl s
  | cons c t ih =>
    unfold selftestCells
    refine Fences.trans (Fences.ite ?_ (Fences.refl s)) (ih _)
    exact (fences_updCell _ _ _ (fun _ => rfl)).trans (fences_alarm ..)

theorem selftestCells_fence (l : List Nat) (s : State) (c : Nat) (h : c ∈ l) (hc : c < 256) : ((selftestCells l s).cell c).fenced = true := by
  induction l generalizing s with
  | nil => cases h
  | cons d t ih =>
    unfold selftestCells
    rcases List.mem_cons.1 h with e | e
    · subst e
      refine (fences_selftestCells _ _).cell c ?_
      split
      · refine (fences_alarm ..).cell c ?_
        rw [State.cell_updCell_self]
      · rename_i hn
        simpa [hc] using hn
    · exact ih _ e

theorem fences_selftestBlocks (ls l : List Nat) (s : State) : Fences s (selftestBlocks ls l s) := by
  induction l generalizing s with
  | nil => exact Fences.refl s
  | cons c t ih =>
    unfold selftestBlocks
    refine Fences.trans (Fences.ite ?_ (Fences.refl s)) (ih _)
    exact (fences_updBlock _ _ _ (fun _ => rfl)).trans (fences_alarm ..)

theorem selftestBlocks_fence (ls l : List Nat) (s : State) (b : Nat) (h : b ∈ l) (hb : b ∈ ls) : ((selftestBlocks ls l s).block b).fenced = true := by
  induction l generalizing s with
  | nil => cases h
  | cons d t ih =>
    unfold selftestBlocks
    rcases List.mem_cons.1 h with e | e
    · subst e
      refine (fences_selftestBlocks _ _ _).block b ?_
      rw [if_pos (by simp [hb])]
      refine (fences_alarm ..).block b ?_
      rw [State.block_updBlock_self]
    · exact ih _ e

theorem fences_selftestRegions (ls l : List Nat) (s : State) : Fences s (selftestRegions ls l s) := by
  induction l generalizing s with
  | nil => exact Fences.refl s
  | cons c t ih =>
    unfold selftestRegions
    refine Fences.trans (Fences.ite ?_ (Fences.refl s)) (ih _)
    exact (fences_updRegion _ _ _ (fun _ => rfl)).trans (fences_alarm ..)

theorem selftestRegions_fence (ls l : List Nat) (s : State) (b : Nat) (h : b ∈ l) (hb : b ∈ ls) : ((selftestRegions ls l s).region b).fenced = true := by
  induction l generalizing s with
  | nil => cases h
  | cons d t ih =>
    unfold selftestRegions
    rcases List.mem_cons.1 h with e | e
    · subst e
      refine (fences_selftestRegions _ _ _).region b ?_
      split
      · refine (fences_alarm ..).region b ?_
        rw [State.region_updRegion_self]
      · rename_i hn
        simpa [hb] using hn
    · exact ih _ e

theorem fences_demoteOne (s : State) : Fences s (demoteOne s) := by
  unfold demoteOne
  split
  · exact Fences.refl s
  · refine Fences.trans ?_ (fences_alarm ..)
    refine ⟨fun _ h => h, fun _ h => h, fun c h => ?_⟩
    have : ∀ (x : Nat) (m : Map Region), (mget (mmap m (fun _ r => { r with credit := mput r.credit x 0 })) c).fenced = (mget m c).fenced := by
      intro x m
      induction m with
      | nil => rfl
      | cons a t ih =>
        obtain ⟨q, w⟩ := a
        by_cases e : q = c
        · subst e; simp [mget, mmap, mfind]
        · simpa [mget, mmap, mfind, e] using ih
    exact (this _ _).trans h

theorem fences_demoteAtStart (s : State) : Fences s (demoteAtStart s) := by
  unfold demoteAtStart; exact Fences.ite (fences_demoteOne s) (Fences.refl s)

theorem fences_cellFlush (s : State) (c : Nat) : Fences s (cellFlush s c) := by
  unfold cellFlush
  exact (fences_updRegion _ _ _ (fun h => h)).trans (fences_updCell _ _ _ (fun h => h))

theorem fences_cellsFlush (l : List Nat) (s : State) : Fences s (cellsFlush l s) := by
  induction l generalizing s with
  | nil => exact Fences.refl s
  | cons c t ih => exact (fences_cellFlush s c).trans (ih _)

theorem fences_blockFlush (s : State) (b : Nat) : Fences s (blockFlush s b) := by
  unfold blockFlush
  exact (fences_updBlock _ _ _ (fun h => h)).trans (fences_cellsFlush ..)

theorem fences_wakeFinish (s : State) (r : Nat) : Fences s (wakeFinish s r) := by
  have h0 : Fences s (wakeZero s r) := by
    unfold wakeZero
    exact (Fences.foldl (fun v b => fences_blockFlush v b) (Fences.refl s) _).trans (Fences.off (regionZero_touch ..) (by decide))
  unfold wakeFinish
  extract_lets full
  generalize wakeZero s r = w at h0 ⊢
  exact h0.trans (fences_updRegion w r _ (fun h => h))

theorem fences_wakeAll (l : List Nat) (s : State) : Fences s (wakeAll l s) := by
  induction l generalizing s with
  | nil => exact Fences.refl s
  | cons c t ih =>
    rw [wakeAll]
    refine Fences.trans ?_ (ih _)
    split
    · exact Fences.refl s
    · exact fences_wakeFinish s c

theorem selftestWakes_all (l : List Nat) (s : State) (h : ∀ r ∈ l, (s.region r).fenced = false ∧ (s.region r).pgood = true) :
    (∀ r, (r ∈ l ∨ ((s.region r).waking = true ∧ (s.region r).vp = 0)) →
      ((selftestWakes l s).region r).waking = true ∧ ((selftestWakes l s).region r).vp = 0) ∧
    Touches [.regions] s (selftestWakes l s) := by
  induction l generalizing s with
  | nil => exact ⟨fun r h => by simpa [selftestWakes] using h, Touches.refl _⟩
  | cons a t ih =>
    have e : selftestWake s a = s.updRegion a (fun x => { x with waking := true, vsel := 0, vp := 0, target := 0, trans := some ⟨3, 0, 0, s.now⟩ }) := by
      unfold selftestWake
      obtain ⟨h1, h2⟩ := h a (by simp)
      simp [h1, h2]
    unfold selftestWakes
    rw [e]
    refine ⟨fun r hr => ?_, (State.updRegion_touch s a _).trans (ih _ ?_).2⟩
    · refine (ih _ ?_).1 r ?_
      · intro q hq
        rw [State.region_updRegion]
        split
        · rename_i e; subst e; exact h _ (by simp)
        · exact h q (by simp [hq])
      · rw [State.region_updRegion]
        split
        · exact .inr ⟨rfl, rfl⟩
        · rename_i ne
          rcases hr with hr | hr
          · rcases List.mem_cons.1 hr with x | x
            · exact absurd x.symm ne
            · exact .inl x
          · exact .inr hr
    · intro q hq
      rw [State.region_updRegion]
      split
      · rename_i e; subst e; exact h _ (by simp)
      · exact h q (by simp [hq])

theorem fences_foldl2 {α : Type} {f : State → α → State} (hf : ∀ v a, Fences v (f v a)) (l : List α) (s : State) : Fences s (l.foldl f s) := Fences.foldl hf (Fences.refl s) l

theorem fences_shadow (s : State) (r : Nat) : Fences s (shadowDiscard s r) := by
  unfold shadowDiscard
  dsimp only
  refine (fences_updRegion s r (fun x => { x with shadow := [] }) (fun h => h)).trans ?_
  refine fences_foldl2 (fun v a => ?_) _ _
  split
  · exact Fences.refl _
  · exact Fences.of (mapCount_touch ..) (by decide) (by decide) (by decide)

theorem fences_slots (s : State) (cx : Nat) : Fences s { s with blocks := mmap s.blocks (fun _ b => { b with slots := b.slots.filter (fun p => p.2 != cx) }) } := by
  refine ⟨fun _ h => h, fun c h => ?_, fun _ h => h⟩
  show (mget (mmap s.blocks (fun _ b => { b with slots := b.slots.filter (fun p => p.2 != cx) })) c).fenced = true
  rw [mget_mmap _ _ _ (by rfl)]
  exact h

theorem fences_shadowDrop (s : State) (cx : Nat) : Fences s (shadowDrop s cx) := by
  unfold shadowDrop
  extract_lets n
  have k : Fences s { s with regions := mmap s.regions (fun _ r => { r with shadow := r.shadow.filter (fun q => q.1 != cx) }) } := by
    refine ⟨fun _ h => h, fun _ h => h, fun c h => ?_⟩
    unfold State.region; dsimp only; rw [mget_mmap_keep Region.fenced _ _ (fun _ _ => by rfl)]; exact h
  exact k.trans (Fences.off (mapCount_touch ..) (by decide))

theorem fences_withdraw (s : State) (cx : Nat) : Fences s (ctxWithdraw s cx) := by
  unfold ctxWithdraw
  extract_lets held s1
  refine Fences.trans (u := s1) (fences_shadowDrop s cx) ?_
  refine ⟨fun c h => ?_, fun c h => ?_, fun c h => ?_⟩
  · unfold State.cell; dsimp only; rw [mget_mmap_keep Cell.fenced _ _ (fun _ _ => by rfl)]; exact h
  · unfold State.block; dsimp only; rw [mget_mmap_keep Block.fenced _ _ (fun _ _ => by rfl)]; exact h
  · unfold State.region; dsimp only; rw [mget_mmap_keep Region.fenced _ _ (fun _ _ => by rfl)]; exact h

theorem fences_dropCtx (s : State) (cx : Nat) : Fences s (dropCtx s cx) := by
  unfold dropCtx
  extract_lets s1
  have k : Fences s s1 := by
    refine Fences.trans ?_ (fences_withdraw _ cx)
    exact (Fences.off (releaseAll_touch ..) (by decide)).trans (Fences.off (freeChrysalis_touch ..) (by decide))
  refine k.trans ?_
  generalize s1 = w
  exact ⟨fun _ h => h, (fences_slots w cx).block, fun _ h => h⟩

theorem fences_ctxLose (s : State) (cx : Nat) : Fences s (ctxLose s cx) := by
  unfold ctxLose
  split
  · exact Fences.refl _
  · dsimp only
    split
    · exact (Fences.off (State.updStream_touch ..) (by decide)).trans (fences_dropCtx ..)
    · refine Fences.ite (fences_dropCtx ..) ?_
      exact ((fences_slots s cx).trans (Fences.off (releaseAll_touch ..) (by decide))).trans (Fences.off (State.updCtx_touch ..) (by decide))

theorem fences_ctxsLose (l : List Nat) (s : State) : Fences s (ctxsLose l s) := by
  induction l generalizing s with
  | nil => exact Fences.refl s
  | cons a t ih => exact (fences_ctxLose s a).trans (ih _)

theorem fences_demote (s : State) : Fences s (demoteAsNeeded s) := by
  unfold demoteAsNeeded
  dsimp only
  have h : ∀ v : State, Fences v (if sharedLeft v then v else demoteOne v) := fun v => Fences.ite (Fences.refl v) (fences_demoteOne v)
  exact (h s).trans (h _)

def rgnKey (x : Region) : Bool × Bool × List Nat × Nat × Nat := (x.fenced, x.awake, x.queue, x.held, x.grant)

theorem demote_region (s : State) (r : Nat) : rgnKey ((demoteAsNeeded s).region r) = rgnKey (s.region r) := by
  have one : ∀ v : State, rgnKey ((demoteOne v).region r) = rgnKey (v.region r) := by
    intro v
    unfold demoteOne
    split
    · rfl
    · dsimp only
      rw [Touches.region_eq (raiseAlarm_touch ..) (by decide)]
      unfold State.region
      dsimp only
      rw [mget_mmap_keep rgnKey _ _ (fun _ _ => by rfl) r]
      rfl
  unfold demoteAsNeeded
  dsimp only
  have h : ∀ v : State, rgnKey ((if sharedLeft v then v else demoteOne v).region r) = rgnKey (v.region r) := by
    intro v; split
    · rfl
    · exact one v
  exact (h _).trans (h s)

theorem fences_regionFence (s : State) (r : Nat) : Fences s (regionFence s r) := by
  unfold regionFence
  split
  · exact Fences.refl s
  · dsimp only
    refine Fences.trans ?_ (fences_demote _)
    refine Fences.trans ?_ (Fences.off (alarmIfBare_touch ..) (by decide))
    refine Fences.trans ?_ (Fences.off (raiseAlarm_touch ..) (by decide))
    refine Fences.trans ?_ (fences_updRegion _ _ _ (fun _ => rfl))
    refine Fences.trans ?_ (Fences.off (batchesReturn_touch ..) (by decide))
    refine Fences.trans ?_ (fences_ctxsLose ..)
    refine Fences.trans (fences_shadow s r) ?_
    exact fences_foldl2 (fun v a => fences_blockFlush v a) _ _

theorem regionFence_region (s : State) (r : Nat) (h : (s.region r).fenced = false) : ((regionFence s r).region r).fenced = true ∧
    ((regionFence s r).region r).awake = false ∧ ((regionFence s r).region r).queue = [] ∧ ((regionFence s r).region r).held = 0 ∧ ((regionFence s r).region r).grant = 0 := by
  unfold regionFence
  rw [if_neg (by simp [h])]
  dsimp only
  generalize batchesReturn _ _ = v
  obtain ⟨w, h1⟩ : ∃ w, v.updRegion r (fun x => { x with
      fenced := true, awake := false, waking := false, wakeDeferred := false, trans := none, queue := [], grant := 0,
      held := 0, overdraw := 0 }) = w := ⟨_, rfl⟩
  have hw : rgnKey (w.region r) = (true, false, [], 0, 0) := by rw [← h1, region_upd]; rfl
  rw [h1]
  generalize hy : alarmIfBare (raiseAlarm w (uRg + r) 0x82) _ = y
  have d := demote_region y r
  have yr : y.region r = w.region r := by rw [← hy, Touches.region_eq (alarmIfBare_touch ..) (by decide), Touches.region_eq (raiseAlarm_touch ..) (by decide)]
  rw [yr, hw] at d
  simp only [rgnKey, Prod.mk.injEq] at d
  exact d

theorem fences_batchDrop (s : State) (b : Nat) : Fences s (batchDrop s b) := by
  unfold batchDrop
  split
  · exact Fences.refl s
  · refine ⟨fun _ h => h, fun _ h => h, fun c h => ?_⟩
    unfold State.region
    dsimp only
    rw [mget_mmap_keep Region.fenced _ _ (fun _ _ => by rfl)]
    exact h

theorem fences_batchWithdraw (s : State) (f b : Nat) : Fences s (batchWithdraw s f b) := by
  unfold batchWithdraw
  extract_lets s1
  refine Fences.trans (u := s1) (Fences.off (State.updBatch_touch s b _) (by decide)) ?_
  split
  · exact Fences.refl _
  · exact Fences.ite (Fences.refl _) (fences_batchDrop ..)

theorem fences_discard (s : State) (fid c : Nat) : Fences s (discardFrame s fid c) := by
  unfold discardFrame
  split
  · exact Fences.refl s
  · refine Fences.ite (Fences.refl s) ?_
    extract_lets s1 s2 s3 s4 s5 s6
    refine Fences.trans ?_ (Fences.off (sweepSlots_touch ..) (by decide))
    refine Fences.trans ?_ (Fences.off (freeWork_touch ..) (by decide))
    refine Fences.trans ?_ (Fences.off (freeIngress_touch ..) (by decide))
    refine Fences.trans (u := s4) ?_ ?_
    · refine Fences.trans ?_ (Fences.off (purgeHeld_touch ..) (by decide))
      refine Fences.trans ?_ (Fences.off (frameUnqueue_touch ..) (by decide))
      refine Fences.trans ?_ (Fences.off (ledgerWrite_touch ..) (by decide))
      refine Fences.trans ?_ (Fences.off (State.updFrame_touch ..) (by decide))
      exact Fences.off (markAbsent_touch ..) (by decide)
    · show Fences s4 (match _ with | none => s4 | some b => batchWithdraw s4 fid b)
      split
      · exact Fences.refl _
      · exact fences_batchWithdraw ..

theorem fences_commitPictures (x : Ctx) (l : List (Nat × Nat)) (s : State) : Fences s (commitPictures x l s) := by
  induction l generalizing s with
  | nil => exact Fences.refl s
  | cons a t ih =>
    unfold commitPictures
    dsimp only
    refine Fences.trans ?_ (ih _)
    have ex : ∀ v : State, Fences v (if x.model = 4 then exportSearch v x a else exportOuts v x a) := fun v =>
      Fences.ite (Fences.off (exportSearch_touch ..) (by decide)) (Fences.off (exportOuts_touch ..) (by decide))
    have lw : ∀ (v : State) i f, Fences v (ledgerWrite (v.updFrame i f) i) := fun v i f =>
      (Fences.off (State.updFrame_touch ..) (by decide)).trans (Fences.off (ledgerWrite_touch ..) (by decide))
    refine Fences.ite ((ex s).trans (lw ..)) ?_
    refine (Fences.off (countSkipped_touch s x a) (by decide)).trans ?_
    exact Fences.ite ((Fences.off (exportSearch_touch ..) (by decide)).trans (lw ..)) (fences_discard ..)

theorem fences_settle (s : State) (cx : Nat) : Fences s (ctxSettle s cx) := by
  unfold ctxSettle
  split
  · exact Fences.refl s
  · refine Fences.ite ?_ (Fences.refl s)
    refine Fences.trans ?_ (Fences.off (batchEnd_touch ..) (by decide))
    refine Fences.trans ?_ (show Fences _ (rgnCount _ _ _ _ _ _) from fences_updRegion _ _ _ (fun h => h))
    refine Fences.trans ?_ (Fences.off (setInv_touch ..) (by decide))
    exact (fences_commitPictures ..).trans (fences_dropCtx ..)

theorem fences_semRelease (s : State) (b n : Nat) : Fences s (semRelease s b n) := by
  unfold semRelease
  extract_lets q ready s1 s2
  refine Fences.ite (Fences.refl s) ?_
  refine Fences.trans ?_ (Fences.off (endInherit_touch ..) (by decide))
  exact (fences_updBlock s _ _ (fun h => h)).trans (fences_foldl2 (fun v w => fences_updCell _ _ _ (fun h => h)) _ s1)

theorem fences_semSignal (s : State) (b n k : Nat) : Fences s (semSignal s b n k) := by
  unfold semSignal
  extract_lets q s1 s2
  refine Fences.trans ?_ (fences_semRelease ..)
  exact (fences_updBlock s _ _ (fun h => h)).trans (Fences.ite (Fences.off (raiseLog_touch ..) (by decide)) (Fences.refl s1))

theorem fences_chargeSignal (s : State) (a b p : Nat) : Fences s (chargeSignal s a b p) := by
  unfold chargeSignal
  extract_lets n
  exact Fences.ite (Fences.refl s) (fences_updRegion _ _ _ (fun h => h))

theorem fences_signalHalo (s : State) (cx : Nat) (q : Stripe) : Fences s (signalHalo s cx q) := by
  unfold signalHalo
  extract_lets n
  exact Fences.ite ((Fences.off (State.updCtx_touch ..) (by decide)).trans (fences_semSignal ..)) (Fences.refl s)

theorem fences_releaseBelow (s : State) (cx : Nat) (q : Stripe) : Fences s (releaseBelow s cx q) := by
  unfold releaseBelow
  extract_lets x s1
  refine Fences.ite (Fences.refl s) ?_
  refine Fences.trans (u := s1) (Fences.off (State.updCtx_touch ..) (by decide)) ?_
  split
  · exact Fences.refl _
  · exact Fences.ite ((fences_chargeSignal ..).trans (fences_semSignal ..)) (Fences.refl _)

theorem fences_signalHandoffs (cx : Nat) (q : Stripe) (l : List ((Nat × Nat) × Nat)) (s : State) : Fences s (signalHandoffs cx q l s) := by
  induction l generalizing s with
  | nil => exact Fences.refl s
  | cons a t ih =>
    obtain ⟨h, i⟩ := a
    rw [signalHandoffs]
    have c (v : State) (p : Prop) [Decidable p] (a b d : Nat) : Fences v (if p then chargeSignal v a b d else v) :=
      Fences.ite (fences_chargeSignal ..) (Fences.refl v)
    refine Fences.trans ?_ (ih _)
    refine Fences.trans ?_ (Fences.off (State.updCtx_touch ..) (by decide))
    refine Fences.trans ?_ (fences_semSignal ..)
    refine Fences.trans ?_ (c _ _ _ _ _)
    exact (c s _ _ _ _).trans (fences_semSignal ..)

theorem fences_progress (s : State) (cx v : Nat) : Fences s (entryProgress s cx v) := by
  unfold entryProgress
  split
  · exact Fences.refl s
  · split
    · exact fences_settle ..
    · extract_lets q s1 s2
      refine Fences.trans ?_ (fences_settle ..)
      refine Fences.trans (u := s2) ?_ (Fences.off (spillSettle_touch ..) (by decide))
      refine Fences.trans (u := s1) ?_ (Fences.off (markEntries_touch ..) (by decide))
      exact ((fences_signalHalo ..).trans (fences_releaseBelow ..)).trans (fences_signalHandoffs ..)

theorem fences_reissueGroup (s : State) (b : Nat) (m : CellCmd) : Fences s (reissueGroup s b m) := by
  unfold reissueGroup
  extract_lets w
  split
  · exact Fences.refl s
  · exact (fences_foldl2 (fun v c => fences_updCell _ _ _ (fun h => h)) _ s).trans (Fences.off (updSweep_touch ..) (by decide))

theorem fences_reissueAll (b : Nat) (l : List CellCmd) (s : State) : Fences s (reissueAll b l s) := by
  induction l generalizing s with
  | nil => exact Fences.refl s
  | cons m t ih =>
    rw [reissueAll]
    exact (Fences.ite (fences_reissueGroup s b m) (Fences.refl s)).trans (ih _)

theorem fences_giveUp (s : State) (b : Nat) (m : CellCmd) : Fences s (giveUpTile s b m) := by
  unfold giveUpTile
  extract_lets x s1 s2
  refine Fences.trans (u := s2) ((Fences.off (State.updCtx_touch ..) (by decide)).trans (Fences.off (tileCommitted_touch ..) (by decide))) ?_
  split
  · exact Fences.refl _
  · exact Fences.ite (fences_discard ..) (Fences.refl _)

theorem fences_replay (s : State) (b : Nat) (m : CellCmd) (c : Nat) : Fences s (replayCmd s b m c) := by
  unfold replayCmd
  split
  · exact Fences.refl s
  · extract_lets k n s1 s2
    refine Fences.trans (u := s1) (Fences.off (State.updCtx_touch ..) (by decide)) ?_
    refine Fences.ite (((fences_giveUp ..).trans (fences_reissueAll ..)).trans (fences_progress ..)) ?_
    refine Fences.trans (u := s2) (fences_reissueAll ..) ?_
    split
    · exact Fences.refl _
    · exact (Fences.off (State.updFrame_touch ..) (by decide)).trans (Fences.off (ledgerWrite_touch ..) (by decide))

theorem fences_abort (s : State) (c cause : Nat) : Fences s (abortRunning s c cause) := by
  unfold abortRunning
  extract_lets l n s1 s2 s3
  refine Fences.trans (u := s3) ?_ (fences_foldl2 (fun v a => fences_replay v _ a cause) _ _)
  refine Fences.trans (u := s2) ?_ (fences_foldl2 (fun v a => Fences.off (rangesFree_touch ..) (by decide)) _ _)
  exact (fences_updRegion s _ _ (fun h => h)).trans (fences_updCell s1 _ _ (fun h => h))

theorem fences_queueInv (s : State) (r b m : Nat) : Fences s (queueInv s r b m) := by
  unfold queueInv
  extract_lets s1
  refine Fences.trans (u := s1) ?_ (fences_updRegion s1 _ _ (fun h => h))
  exact (Fences.off (setInv_touch ..) (by decide)).trans (Fences.off (State.updBatch_touch ..) (by decide))

theorem fences_requeue (s : State) (cx : Nat) : Fences s (requeueCtx s cx) := by
  unfold requeueCtx
  split
  · exact Fences.refl s
  · exact Fences.ite (fences_ctxLose ..) (fences_queueInv ..)

theorem fences_placeCtx (cx : Nat) (l : List Nat) (s : State) : Fences s (placeCtx cx l s) := by
  induction l generalizing s with
  | nil => exact Fences.refl s
  | cons b t ih =>
    rw [placeCtx]
    split
    · exact ih s
    · extract_lets s1
      refine Fences.trans (u := s1) (fences_updBlock s _ _ (fun h => h)) ?_
      exact (Fences.off (State.updCtx_touch ..) (by decide)).trans (ih _)

theorem fences_selftestPlace (s : State) (b : Nat) : Fences s (selftestPlace s b) := by
  unfold selftestPlace
  refine Fences.ite (Fences.refl s) (Fences.trans ?_ (fences_placeCtx ..))
  exact Fences.off (selftestCtx_touch ..) (by decide)

theorem fences_regionCheck (s : State) (r : Nat) : Fences s (regionCheck s r) := by
  unfold regionCheck; exact Fences.ite (fences_regionFence ..) (Fences.refl s)

theorem fences_blockFence (s : State) (b : Nat) : Fences s (blockFence s b) ∧ ((blockFence s b).block b).fenced = true := by
  unfold blockFence
  by_cases h : (s.block b).fenced = true
  · rw [if_pos h]; exact ⟨Fences.refl s, h⟩
  · rw [if_neg h]
    extract_lets cs s1 s2 s3
    have k : Fences s2 (regionCheck (raiseAlarm s3 (uRg + regionOfBlock b) 0x81) (regionOfBlock b)) := by
      refine Fences.trans ?_ (fences_regionCheck ..)
      refine Fences.trans ?_ (Fences.off (raiseAlarm_touch ..) (by decide))
      exact fences_foldl2 (fun v a => (fences_ctxLose v a).trans (fences_requeue ..)) _ _
    refine ⟨?_, k.block b ?_⟩
    · refine Fences.trans ?_ k
      exact (fences_blockFlush s b).trans (fences_updBlock s1 _ _ (fun _ => rfl))
    · show ((State.updBlock s1 b _).block b).fenced = true
      rw [block_upd]

theorem fences_cellFence (s : State) (c : Nat) : Fences s (cellFence s c) ∧ ((cellFence s c).cell c).fenced = true := by
  unfold cellFence
  extract_lets x again s1 s2
  have k : Fences s2 (blockCheck (raiseAlarm s2 (uRg + regionOfCell c) 0x80) (blockOfCell c)) := by
    refine Fences.trans (Fences.off (raiseAlarm_touch s2 (uRg + regionOfCell c) 0x80) (by decide)) ?_
    unfold blockCheck
    exact Fences.ite (fences_blockFence ..).1 (Fences.refl _)
  refine ⟨?_, k.cell c ?_⟩
  · refine Fences.trans ?_ k
    exact (fences_cellFlush s c).trans (fences_updCell s1 _ _ (fun _ => rfl))
  · show ((State.updCell s1 c _).cell c).fenced = true
    rw [cell_upd]

/-- A cell that fails is fenced, and nothing that was fenced is taken back. -/
theorem cellFault_fences (s : State) (c : Nat) (h : (s.cell c).fenced = false) :
    Fences s (cellFault s c) ∧ ((cellFault s c).cell c).fenced = true := by
  unfold cellFault
  rw [if_neg (by simp [h])]
  extract_lets queued running s1 s2
  have k := fences_cellFence s2 c
  have p := fences_selftestPlace (cellFence s2 c) (blockOfCell c)
  refine ⟨?_, p.cell c k.2⟩
  refine Fences.trans (u := s2) ?_ (k.1.trans p)
  exact ((fences_abort ..).trans (fences_reissueAll ..)).trans (fences_foldl2 (fun v a => fences_shadowDrop v a) _ s1)

theorem cellsFlush_empty (l : List Nat) (s : State) : (∀ c, (s.cell c).queue = [] ∧ (s.cell c).running = [] ∨ c ∈ l → ((cellsFlush l s).cell c).queue = [] ∧ ((cellsFlush l s).cell c).running = []) := by
  induction l generalizing s with
  | nil => intro c h; rcases h with h | h
           · exact h
           · cases h
  | cons a t ih =>
    intro c h
    unfold cellsFlush
    apply ih
    by_cases e : c = a
    · left
      subst e
      unfold cellFlush
      dsimp only
      rw [cell_upd]
      exact ⟨rfl, rfl⟩
    · rcases h with h | h
      · left
        have : (cellFlush s a).cell c = s.cell c := by
          unfold cellFlush State.updCell State.cell; dsimp only; rw [mget_mupd_ne _ _ (Ne.symm e)]; rfl
        rw [this]; exact h
      · right
        rcases List.mem_cons.1 h with h | h
        · exact absurd h e
        · exact h

theorem cellsFlush_restarts (l : List Nat) (s : State) (i : Nat) : ((cellsFlush l s).region i).restarts = (s.region i).restarts := by
  induction l generalizing s with
  | nil => rfl
  | cons a t ih =>
    unfold cellsFlush
    rw [ih]
    unfold cellFlush
    dsimp only
    rw [Touches.region_eq (State.updCell_touch ..) (by decide)]
    exact region_keep Region.restarts _ _ _ _ (fun _ => rfl)

end Sys2Proof.Machine
end

