-- ==== Sys2Proof/Laws/KeyMoves.lean ====
section
/-! SUPPORT. The key command in progress (`KeepsKey`), and the ends of key commands and attestation requests. -/

set_option Elab.async false
set_option linter.unusedVariables false

namespace Sys2Proof.Machine

theorem keyEnd_facts (s : State) (n r : Nat) : (keyEnd s n r).key = { s.key with state := n, result := r } ∧ (keyEnd s n r).fuses = s.fuses ∧
    wbit ((keyEnd s n r).fn 0 0).irqStatus 21 = true ∧ Touches [.key, .rings] s (keyEnd s n r) := by
  refine ⟨rfl, rfl, ?_, keyEnd_touch ..⟩
  unfold keyEnd raiseIrq irqCommand
  rw [State.fn_updFn_self]; exact wbit_irq _ _ (by decide)

theorem mget_mupd_fuse (m : Map FuseSlot) (k i : Nat) (f : FuseSlot → FuseSlot) (h : i ≠ k) : mget (mupd m k f) i = mget m i := mget_mupd_ne _ _ h.symm

theorem partHash_fuses (n : Nat) (b : Bytes) (s : State) : (partHash n b s).2.fuses = s.fuses ∧ (partHash n b s).2.key = s.key := by
  induction n generalizing b s with
  | zero => exact ⟨rfl, rfl⟩
  | succ n ih => unfold partHash; exact ih _ _

theorem burnBad_facts (s : State) : (burnBad s).key = s.key ∧ (mget (burnBad s).fuses s.key.target).programmed = (mget s.fuses s.key.target).programmed ∧
    (s.key.op ≠ 1 → (mget (burnBad s).fuses s.key.target).hash = (mget s.fuses s.key.target).hash) ∧
    ∀ i, i ≠ s.key.target → mget (burnBad s).fuses i = mget s.fuses i := by
  unfold burnBad
  dsimp only
  obtain ⟨h1, h2⟩ := partHash_fuses 64 s.key.newHash s
  generalize partHash 64 s.key.newHash s = q at *
  by_cases e : s.key.op = 1
  · rw [if_pos e]
    refine ⟨h2, ?_, fun k => absurd e k, fun i hi => ?_⟩
    · simp [h1]
    · simp [mget_mupd_ne _ _ (Ne.symm hi), h1]
  · rw [if_neg e]
    refine ⟨rfl, ?_, fun _ => ?_, fun i hi => ?_⟩
    · simp [freeBits]
    · simp [freeBits]
    · simp [mget_mupd_ne _ _ (Ne.symm hi), freeBits]

theorem hostWrites_touches_out (p f : Nat) (l : List Bytes) (a : Nat) (s : State) : Touches [.out] s (hostWrites p f l a s) := hostWrites_touch ..

theorem attEnd_facts (s : State) (k st c : Nat) : ((attEnd s k st c).fn (k / 4) (k % 4)).att = ⟨st, c⟩ ∧
    wbit ((attEnd s k st c).fn (k / 4) (k % 4)).irqStatus 21 = true ∧ Touches [.fns, .rings] s (attEnd s k st c) ∧ (attEnd s k st c).out = s.out := by
  refine ⟨?_, ?_, attEnd_touch .., rfl⟩
  · simp [attEnd, raiseIrq]
  · unfold attEnd raiseIrq irqCommand
    rw [State.fn_updFn_self]; exact wbit_irq _ _ (by decide)

/-- A key command is in BURNING only if it was already, with the same command. -/
structure KeepsKey (s t : State) : Prop where
  key : t.key.state = 3 → t.key = s.key

theorem KeepsKey.refl (s : State) : KeepsKey s s := ⟨fun _ => rfl⟩

theorem KeepsKey.trans {s u t : State} (h : KeepsKey s u) (k : KeepsKey u t) : KeepsKey s t := ⟨fun e => by
  have := k.key e; rw [this] at e ⊢; exact h.key e⟩

theorem KeepsKey.of {l : List Piece} {s t : State} (h : Touches l s t) (a : Piece.key ∉ l) : KeepsKey s t := ⟨fun _ => h.same .key a⟩

theorem KeepsKey.ite {s a b : State} {c : Prop} [Decidable c] (h : KeepsKey s a) (k : KeepsKey s b) : KeepsKey s (if c then a else b) := by split <;> assumption

theorem KeepsKey.foldl {α : Type} {s u : State} {f : State → α → State} (hf : ∀ v a, KeepsKey v (f v a)) (h : KeepsKey s u) (l : List α) : KeepsKey s (l.foldl f u) := by
  induction l generalizing u with
  | nil => exact h
  | cons a t ih => exact ih (h.trans (hf u a))

theorem KeepsKey.iteNext {s : State} {a b : Host.Outcome State Fault Refusal} {c : Prop} [Decidable c]
    (h : ∃ u, a = .next u ∧ KeepsKey s u) (k : ∃ u, b = .next u ∧ KeepsKey s u) : ∃ u, (if c then a else b) = .next u ∧ KeepsKey s u := by split <;> assumption

theorem KeepsKey.done {s t : State} (h : KeepsKey s t) : ∃ u, done t = .next u ∧ KeepsKey s u := ⟨t, rfl, h⟩

theorem KeepsKey.viaNext {s t : State} {o : Host.Outcome State Fault Refusal} (e : o = .next t) (h : ∃ u, o = .next u ∧ KeepsKey s u) : KeepsKey s t := by
  obtain ⟨u, a, b⟩ := h; rw [e] at a; cases a; exact b

theorem KeepsKey.viaT {l : List Piece} {s t : State} {o : Host.Outcome State Fault Refusal} (e : o = .next t) (h : ∃ u, o = .next u ∧ Touches l s u) (a : Piece.key ∉ l) : KeepsKey s t :=
  KeepsKey.of (Touches.viaNext e h) a

theorem KeepsKey.also (b : Bool) (f : State → Host.Outcome State Fault Refusal) (s : State)
    (hf : ∀ v, ∃ u, f v = .next u ∧ KeepsKey v u) : KeepsKey s (also b f s) := by
  unfold Machine.also
  split
  · obtain ⟨u, e, h⟩ := hf s; rw [e]; exact h
  · exact KeepsKey.refl s

theorem KeepsKey.ex {l : List Piece} {v : State} {o : Host.Outcome State Fault Refusal} (h : ∃ u, o = .next u ∧ Touches l v u) (a : Piece.key ∉ l) : ∃ u, o = .next u ∧ KeepsKey v u := by
  obtain ⟨u, e, k⟩ := h; exact ⟨u, e, KeepsKey.of k a⟩

theorem KeepsKey.ofMk {s u : State}
    {now' : Nat} {por' : Bool} {scu' : Scu} {fuses' : Map FuseSlot} {idSeed' : Bytes} {idKey' : Bytes} {grade' :
    Nat} {stepping' : Nat} {moult' : Moult} {flash' : Flash} {key' : Key} {signer' : Signer} {fns' : Map Fn} {ports'
    : Map HostPort} {nps' : Map NetPort} {streams' : Map Stream} {frames' : Map Frame} {nextFrame' : Nat} {engines'
    : Map Engine} {resamplers' : Map Resampler} {relq' : List Nat} {batches' : Map Batch} {nextBatch' : Nat} {ctxs'
    : Map Ctx} {nextCtx' : Nat} {parts' : Map Part} {regions' : Map Region} {blocks' : Map Block} {cells' : Map
    Cell} {dram' : Dram} {bpm' : Bpm} {store' : CtxStore} {pac' : Pac} {aon' : Aon} {tu' : Tu} {unitsDown' : List
    Nat} {devTuned' : Map Int} {sram' : List Host.Cell} {out' : List Out} {waits' : List Instr} {freeIx' : Nat} {pending' : List Instr}
    (h : KeepsKey s u) (e : key' = u.key) : KeepsKey s (State.mk now' por' scu' fuses' idSeed' idKey' grade' stepping' moult' flash' key' signer' fns' ports' nps' streams' frames' nextFrame' engines' resamplers' relq' batches' nextBatch' ctxs' nextCtx' parts' regions' blocks' cells' dram' bpm' store' pac' aon' tu' unitsDown' devTuned' sram' out' waits' freeIx' pending') := h.trans ⟨fun _ => e⟩

theorem keyAbort_keepsKey (s : State) : KeepsKey s (keyAbort s) := by
  unfold keyAbort
  split
  · exact ⟨fun h => by cases h⟩
  · exact KeepsKey.refl s

theorem execKeyGo_keepsKey (s : State) : ∃ u, execKeyGo s = .next u ∧ KeepsKey s u := by
  unfold execKeyGo
  refine KeepsKey.iteNext (KeepsKey.done (KeepsKey.refl _)) (KeepsKey.iteNext (KeepsKey.done (KeepsKey.of (waitAccess_touch ..) (by decide))) (KeepsKey.iteNext (KeepsKey.done (KeepsKey.refl _)) (KeepsKey.done ?_)))
  refine KeepsKey.trans (u := { s with key := { s.key with state := 1, result := 0 } }) ⟨fun h => by cases h⟩ (KeepsKey.of (hpaRead_touch ..) (by decide))

theorem flrStart_keepsKey (s : State) (port : Nat) (fn : Nat) :
    KeepsKey s (flrStart s port fn) := by
  unfold flrStart
  extract_lets s1 s2 ps s3
  refine KeepsKey.ite (KeepsKey.refl _) ?_
  refine KeepsKey.trans (u := s1) ?_ ?_
  · exact KeepsKey.ite (((KeepsKey.of (moultCut_touch ..) (by decide)).trans (KeepsKey.of (flashReset_touch ..) (by decide))).trans (keyAbort_keepsKey _)) (KeepsKey.refl s)
  refine KeepsKey.trans (u := s2) (KeepsKey.of (attReset_touch ..) (by decide)) ?_
  refine KeepsKey.trans (u := s3) ?_ ?_
  · exact (KeepsKey.foldl (fun v a => KeepsKey.of (partDiscard_touch ..) (by decide)) (KeepsKey.refl s2) ps).trans (KeepsKey.of (State.updFn_touch ..) (by decide))
  refine KeepsKey.trans ?_ (KeepsKey.of (State.updFn_touch ..) (by decide))
  exact KeepsKey.foldl (fun v a => KeepsKey.of (partReset_touch ..) (by decide)) (KeepsKey.of (injDisable_touch ..) (by decide)) ps

theorem portReset_keepsKey (s : State) (port : Nat) (train : Bool) :
    KeepsKey s (portReset s port train) := by
  unfold portReset
  try conv => arg 2; zeta
  refine KeepsKey.foldl (fun v a => flrStart_keepsKey ..) ?_ _
  refine KeepsKey.trans ?_ (KeepsKey.of (portSilence_touch ..) (by decide))
  refine KeepsKey.trans ?_ (KeepsKey.of (State.updPort_touch ..) (by decide))
  exact KeepsKey.ite (KeepsKey.ofMk (KeepsKey.refl _) rfl) (KeepsKey.ofMk (KeepsKey.refl _) rfl)

theorem execPerstAssert_keepsKey (port : Nat) (s : State) :
    ∃ u, execPerstAssert port s = .next u ∧ KeepsKey s u := by
  unfold execPerstAssert
  try conv => enter [1, t, 1, 1]; zeta
  refine KeepsKey.iteNext ?_ ?_
  · refine KeepsKey.done ?_
    exact KeepsKey.refl _
  · refine KeepsKey.iteNext ?_ ?_
    · refine KeepsKey.done ?_
      refine KeepsKey.trans ?_ (KeepsKey.of (inputRise_touch ..) (by decide))
      refine KeepsKey.trans ?_ (KeepsKey.of (State.updPort_touch ..) (by decide))
      exact KeepsKey.refl _
    · refine KeepsKey.done ?_
      refine KeepsKey.trans ?_ (portReset_keepsKey ..)
      refine KeepsKey.trans ?_ (KeepsKey.of (portCount_touch ..) (by decide))
      refine KeepsKey.trans ?_ (KeepsKey.of (inputRise_touch ..) (by decide))
      refine KeepsKey.trans ?_ (KeepsKey.of (State.updPort_touch ..) (by decide))
      exact KeepsKey.refl _

theorem configWrite_keepsKey (s : State) (port : Nat) (fn : Nat) (reg : Nat) (v : Word) :
    KeepsKey s (configWrite s port fn reg v) := by
  unfold configWrite
  try conv => arg 2; zeta
  refine KeepsKey.ite ?_ ?_
  · refine KeepsKey.trans ?_ (KeepsKey.of (intaSync_touch ..) (by decide))
    refine KeepsKey.ite ?_ ?_
    · refine KeepsKey.trans ?_ (KeepsKey.of (fnResume_touch ..) (by decide))
      refine KeepsKey.trans ?_ (KeepsKey.of (State.updFn_touch_fns _ _ _ _ (fun _ => rfl)) (by decide))
      exact KeepsKey.refl _
    · refine KeepsKey.trans ?_ (KeepsKey.of (State.updFn_touch_fns _ _ _ _ (fun _ => rfl)) (by decide))
      exact KeepsKey.refl _
  · refine KeepsKey.ite ?_ ?_
    · refine KeepsKey.trans ?_ (KeepsKey.of (dStateSet_touch ..) (by decide))
      refine KeepsKey.trans ?_ (KeepsKey.of (State.updFn_touch_fns _ _ _ _ (fun _ => rfl)) (by decide))
      exact KeepsKey.refl _
    · refine KeepsKey.ite ?_ ?_
      · refine KeepsKey.ite ?_ ?_
        · refine KeepsKey.trans ?_ (KeepsKey.of (intaSync_touch ..) (by decide))
          refine KeepsKey.trans ?_ (flrStart_keepsKey ..)
          refine KeepsKey.trans ?_ (KeepsKey.of (portCount_touch ..) (by decide))
          refine KeepsKey.ofMk ?_ rfl
          refine KeepsKey.trans ?_ (KeepsKey.of (State.updFn_touch_fns _ _ _ _ (fun _ => rfl)) (by decide))
          exact KeepsKey.refl _
        · refine KeepsKey.trans ?_ (KeepsKey.of (State.updFn_touch_fns _ _ _ _ (fun _ => rfl)) (by decide))
          exact KeepsKey.refl _
      · refine KeepsKey.ite ?_ ?_
        · refine KeepsKey.trans ?_ (KeepsKey.of (State.updFn_touch_fns _ _ _ _ (fun _ => rfl)) (by decide))
          exact KeepsKey.refl _
        · exact KeepsKey.refl _

theorem execConfigRequest_keepsKey (port : Nat) (fn : Nat) (reg : Nat) (write : Option Word) (s : State) :
    ∃ u, execConfigRequest port fn reg write s = .next u ∧ KeepsKey s u := by
  unfold execConfigRequest
  refine KeepsKey.iteNext ?_ ?_
  · refine KeepsKey.done ?_
    exact KeepsKey.refl _
  · refine KeepsKey.iteNext ?_ ?_
    · refine KeepsKey.done ?_
      refine KeepsKey.trans ?_ (KeepsKey.of (emit_touch ..) (by decide))
      exact KeepsKey.refl _
    · refine KeepsKey.iteNext ?_ ?_
      · refine KeepsKey.done ?_
        refine KeepsKey.trans ?_ (KeepsKey.of (unsupported_touch ..) (by decide))
        exact KeepsKey.refl _
      · split
        · refine KeepsKey.done ?_
          refine KeepsKey.trans ?_ (KeepsKey.of (emit_touch ..) (by decide))
          exact KeepsKey.refl _
        · refine KeepsKey.done ?_
          refine KeepsKey.trans ?_ (KeepsKey.of (emit_touch ..) (by decide))
          refine KeepsKey.trans ?_ (configWrite_keepsKey ..)
          exact KeepsKey.refl _

theorem execHotReset_keepsKey (port : Nat) (s : State) :
    ∃ u, execHotReset port s = .next u ∧ KeepsKey s u := by
  unfold execHotReset
  refine KeepsKey.iteNext ?_ ?_
  · refine KeepsKey.done ?_
    refine KeepsKey.trans ?_ (portReset_keepsKey ..)
    refine KeepsKey.trans ?_ (KeepsKey.of (portCount_touch ..) (by decide))
    exact KeepsKey.refl _
  · refine KeepsKey.done ?_
    exact KeepsKey.refl _

theorem execFlr_keepsKey (port : Nat) (fn : Nat) (s : State) :
    ∃ u, execFlr port fn s = .next u ∧ KeepsKey s u := by
  unfold execFlr
  try conv => enter [1, t, 1, 1]; zeta
  refine KeepsKey.iteNext ?_ ?_
  · refine KeepsKey.done ?_
    exact KeepsKey.refl _
  · refine KeepsKey.done ?_
    refine KeepsKey.trans ?_ (KeepsKey.of (intaSync_touch ..) (by decide))
    refine KeepsKey.trans ?_ (flrStart_keepsKey ..)
    refine KeepsKey.trans ?_ (KeepsKey.of (portCount_touch ..) (by decide))
    refine KeepsKey.ofMk ?_ rfl
    exact KeepsKey.refl _

theorem execDlDown_keepsKey (port : Nat) (s : State) :
    ∃ u, execDlDown port s = .next u ∧ KeepsKey s u := by
  unfold execDlDown
  refine KeepsKey.iteNext ?_ ?_
  · refine KeepsKey.done ?_
    refine KeepsKey.trans ?_ (portReset_keepsKey ..)
    refine KeepsKey.trans ?_ (KeepsKey.of (portCount_touch ..) (by decide))
    exact KeepsKey.refl _
  · refine KeepsKey.done ?_
    exact KeepsKey.refl _

theorem bar0Write_keepsKey (s : State) (port : Nat) (fn : Nat) (off : Nat) (v : Word) :
    KeepsKey s (bar0Write s port fn off v) := by
  unfold bar0Write
  refine KeepsKey.ite ?_ ?_
  · refine KeepsKey.trans ?_ (KeepsKey.of (ringWrite_touch ..) (by decide))
    exact KeepsKey.refl _
  · refine KeepsKey.ite ?_ ?_
    · refine KeepsKey.trans ?_ (KeepsKey.also _ _ _ (fun _ => KeepsKey.ex (execRingBind_touch ..) (by decide)))
      refine KeepsKey.trans ?_ (KeepsKey.also _ _ _ (fun _ => KeepsKey.ex (execRingUnbind_touch ..) (by decide)))
      exact KeepsKey.refl _
    · refine KeepsKey.ite ?_ ?_
      · refine KeepsKey.trans ?_ (KeepsKey.of (irqClear_touch ..) (by decide))
        exact KeepsKey.refl _
      · refine KeepsKey.ite ?_ ?_
        · refine KeepsKey.trans ?_ (KeepsKey.of (intaSync_touch ..) (by decide))
          refine KeepsKey.trans ?_ (KeepsKey.of (State.updFn_touch_fns _ _ _ _ (fun _ => rfl)) (by decide))
          exact KeepsKey.refl _
        · refine KeepsKey.ite ?_ ?_
          · refine KeepsKey.trans ?_ (KeepsKey.also _ _ _ (fun _ => KeepsKey.ex (execInjEnable_touch ..) (by decide)))
            refine KeepsKey.trans ?_ (KeepsKey.also _ _ _ (fun _ => KeepsKey.ex (execInjDisable_touch ..) (by decide)))
            exact KeepsKey.refl _
          · refine KeepsKey.ite ?_ ?_
            · refine KeepsKey.trans ?_ (KeepsKey.of (tuneIssue_touch ..) (by decide))
              exact KeepsKey.refl _
            · refine KeepsKey.ite ?_ ?_
              · refine KeepsKey.trans ?_ (KeepsKey.also _ _ _ (fun _ => KeepsKey.ex (execAttGo_touch ..) (by decide)))
                exact KeepsKey.refl _
              · refine KeepsKey.ite ?_ ?_
                · exact KeepsKey.refl _
                · refine KeepsKey.ite ?_ ?_
                  · refine KeepsKey.ite ?_ ?_
                    · refine KeepsKey.trans ?_ (KeepsKey.also _ _ _ (fun _ => KeepsKey.ex (execMoultGo_touch ..) (by decide)))
                      exact KeepsKey.refl _
                    · refine KeepsKey.trans ?_ (KeepsKey.also _ _ _ (fun _ => KeepsKey.ex (execMoultAbort_touch ..) (by decide)))
                      exact KeepsKey.refl _
                  · refine KeepsKey.ite ?_ ?_
                    · refine KeepsKey.trans ?_ (KeepsKey.also _ _ _ (fun _ => KeepsKey.ex (execFlashProgram_touch ..) (by decide)))
                      refine KeepsKey.trans ?_ (KeepsKey.also _ _ _ (fun _ => KeepsKey.ex (execFlashSelect_touch ..) (by decide)))
                      refine KeepsKey.trans ?_ (KeepsKey.of (plainWrite_touch ..) (by decide))
                      exact KeepsKey.refl _
                    · refine KeepsKey.ite ?_ ?_
                      · refine KeepsKey.trans ?_ (KeepsKey.also _ _ _ (fun _ => execKeyGo_keepsKey ..))
                        exact KeepsKey.refl _
                      · refine KeepsKey.trans ?_ (KeepsKey.of (plainWrite_touch ..) (by decide))
                        exact KeepsKey.refl _

theorem barWrite_keepsKey (s : State) (port : Nat) (fn : Nat) (bar : Nat) (off : Nat) (v : Word) :
    KeepsKey s (barWrite s port fn bar off v) := by
  unfold barWrite
  refine KeepsKey.ite ?_ ?_
  · refine KeepsKey.trans ?_ (bar0Write_keepsKey ..)
    exact KeepsKey.refl _
  · refine KeepsKey.ite ?_ ?_
    · refine KeepsKey.trans ?_ (KeepsKey.of (injWriteBytes_touch ..) (by decide))
      exact KeepsKey.refl _
    · split
      · refine KeepsKey.ite ?_ ?_
        · exact KeepsKey.refl _
        · refine KeepsKey.trans ?_ (KeepsKey.of (windowDiscard_touch ..) (by decide))
          exact KeepsKey.refl _
      · refine KeepsKey.trans ?_ (KeepsKey.of (bar4Write_touch ..) (by decide))
        exact KeepsKey.refl _

theorem execRegisterWrite_keepsKey (port : Nat) (fn : Nat) (bar : Nat) (off : Nat) (value : Word) (s : State) :
    ∃ u, execRegisterWrite port fn bar off value s = .next u ∧ KeepsKey s u := by
  unfold execRegisterWrite
  refine KeepsKey.iteNext ?_ ?_
  · refine KeepsKey.done ?_
    exact KeepsKey.refl _
  · refine KeepsKey.iteNext ?_ ?_
    · refine KeepsKey.done ?_
      refine KeepsKey.trans ?_ (KeepsKey.of (misalignedLog_touch ..) (by decide))
      exact KeepsKey.refl _
    · refine KeepsKey.iteNext ?_ ?_
      · refine KeepsKey.done ?_
        refine KeepsKey.trans ?_ (KeepsKey.of (waitAccess_touch ..) (by decide))
        exact KeepsKey.refl _
      · refine KeepsKey.done ?_
        refine KeepsKey.trans ?_ (barWrite_keepsKey ..)
        exact KeepsKey.refl _

theorem performAccess_keepsKey (s : State) (c : Instr) :
    KeepsKey s (performAccess s c) := by
  unfold performAccess
  try conv => arg 2; zeta
  split
  · split
    · rename_i v0 e1
      have hv0 : KeepsKey s v0 := by
        refine KeepsKey.trans ?_ (KeepsKey.viaT e1 (execTuneWrite_touch ..) (by decide))
        exact KeepsKey.refl _
      exact hv0
    · exact KeepsKey.refl _
  · split
    · rename_i v2 e3
      have hv2 : KeepsKey s v2 := by
        refine KeepsKey.trans ?_ (KeepsKey.viaT e3 (execTuneRead_touch ..) (by decide))
        exact KeepsKey.refl _
      exact hv2
    · exact KeepsKey.refl _
  · split
    · rename_i v4 e5
      have hv4 : KeepsKey s v4 := by
        refine KeepsKey.trans ?_ (KeepsKey.viaT e5 (execMoultGo_touch ..) (by decide))
        exact KeepsKey.refl _
      exact hv4
    · exact KeepsKey.refl _
  · split
    · rename_i v6 e7
      have hv6 : KeepsKey s v6 := by
        refine KeepsKey.trans ?_ (KeepsKey.viaT e7 (execMoultAbort_touch ..) (by decide))
        exact KeepsKey.refl _
      exact hv6
    · exact KeepsKey.refl _
  · split
    · rename_i v8 e9
      have hv8 : KeepsKey s v8 := by
        refine KeepsKey.trans ?_ (KeepsKey.viaT e9 (execFlashProgram_touch ..) (by decide))
        exact KeepsKey.refl _
      exact hv8
    · exact KeepsKey.refl _
  · split
    · rename_i v10 e11
      have hv10 : KeepsKey s v10 := by
        refine KeepsKey.trans ?_ (KeepsKey.viaT e11 (execFlashSelect_touch ..) (by decide))
        exact KeepsKey.refl _
      exact hv10
    · exact KeepsKey.refl _
  · split
    · rename_i v12 e13
      have hv12 : KeepsKey s v12 := by
        refine KeepsKey.trans ?_ (KeepsKey.viaNext e13 (execKeyGo_keepsKey ..))
        exact KeepsKey.refl _
      exact hv12
    · exact KeepsKey.refl _
  · split
    · rename_i v14 e15
      have hv14 : KeepsKey s v14 := by
        refine KeepsKey.trans ?_ (KeepsKey.viaT e15 (execAttGo_touch ..) (by decide))
        exact KeepsKey.refl _
      exact hv14
    · exact KeepsKey.refl _
  · split
    · rename_i v16 e17
      have hv16 : KeepsKey s v16 := by
        refine KeepsKey.trans ?_ (KeepsKey.viaNext e17 (execRegisterWrite_keepsKey ..))
        exact KeepsKey.refl _
      exact hv16
    · exact KeepsKey.refl _
  · split
    · rename_i v18 e19
      have hv18 : KeepsKey s v18 := by
        refine KeepsKey.trans ?_ (KeepsKey.viaT e19 (execBarMemoryRead_touch ..) (by decide))
        exact KeepsKey.refl _
      exact hv18
    · exact KeepsKey.refl _
  · split
    · rename_i v20 e21
      have hv20 : KeepsKey s v20 := by
        refine KeepsKey.trans ?_ (KeepsKey.viaT e21 (execCounterLowRead_touch ..) (by decide))
        exact KeepsKey.refl _
      exact hv20
    · exact KeepsKey.refl _
  · exact KeepsKey.refl _

theorem performWaits_keepsKey (s : State) :
    KeepsKey s (performWaits s) := by
  unfold performWaits
  refine KeepsKey.foldl (fun y0 _ => ?_) ?_ _
  · refine KeepsKey.trans ?_ (performAccess_keepsKey ..)
    exact KeepsKey.refl _
  · refine KeepsKey.ofMk ?_ rfl
    exact KeepsKey.refl _

theorem execControllerResume_keepsKey (unit : Nat) (s : State) :
    ∃ u, execControllerResume unit s = .next u ∧ KeepsKey s u := by
  unfold execControllerResume
  try conv => enter [1, t, 1, 1]; zeta
  refine KeepsKey.iteNext ?_ ?_
  · refine KeepsKey.done ?_
    refine KeepsKey.trans ?_ (performWaits_keepsKey ..)
    refine KeepsKey.trans ?_ (KeepsKey.of (pacResume_touch ..) (by decide))
    exact KeepsKey.refl _
  · refine KeepsKey.iteNext ?_ ?_
    · refine KeepsKey.done ?_
      refine KeepsKey.trans ?_ (performWaits_keepsKey ..)
      refine KeepsKey.trans ?_ (KeepsKey.of (moultFinish_touch ..) (by decide))
      refine KeepsKey.ofMk ?_ rfl
      exact KeepsKey.refl _
    · refine KeepsKey.iteNext ?_ ?_
      · refine KeepsKey.done ?_
        refine KeepsKey.trans ?_ (performWaits_keepsKey ..)
        refine KeepsKey.trans ?_ (KeepsKey.of (tuResume_touch ..) (by decide))
        exact KeepsKey.refl _
      · refine KeepsKey.done ?_
        exact KeepsKey.refl _

theorem scuRestart_keepsKey (s : State) :
    KeepsKey s (scuRestart s) := by
  unfold scuRestart
  try conv => arg 2; zeta
  refine KeepsKey.trans ?_ (KeepsKey.of (attScuRestart_touch ..) (by decide))
  refine KeepsKey.trans ?_ (keyAbort_keepsKey ..)
  refine KeepsKey.trans ?_ (KeepsKey.of (flashScuRestart_touch ..) (by decide))
  refine KeepsKey.trans ?_ (KeepsKey.of (moultCut_touch ..) (by decide))
  refine KeepsKey.ofMk ?_ rfl
  exact KeepsKey.refl _

theorem execControllerRestart_keepsKey (unit : Nat) (s : State) :
    ∃ u, execControllerRestart unit s = .next u ∧ KeepsKey s u := by
  unfold execControllerRestart
  refine KeepsKey.iteNext ?_ ?_
  · refine KeepsKey.done ?_
    exact KeepsKey.refl _
  · refine KeepsKey.iteNext ?_ ?_
    · refine KeepsKey.done ?_
      refine KeepsKey.trans ?_ (KeepsKey.of (raiseAlarm_touch ..) (by decide))
      refine KeepsKey.trans ?_ (KeepsKey.of (pacRestart_touch ..) (by decide))
      exact KeepsKey.refl _
    · refine KeepsKey.iteNext ?_ ?_
      · refine KeepsKey.done ?_
        refine KeepsKey.trans ?_ (KeepsKey.of (raiseAlarm_touch ..) (by decide))
        refine KeepsKey.trans ?_ (scuRestart_keepsKey ..)
        exact KeepsKey.refl _
      · refine KeepsKey.iteNext ?_ ?_
        · refine KeepsKey.done ?_
          refine KeepsKey.trans ?_ (KeepsKey.of (raiseAlarm_touch ..) (by decide))
          refine KeepsKey.trans ?_ (KeepsKey.of (tuRestart_touch ..) (by decide))
          exact KeepsKey.refl _
        · refine KeepsKey.done ?_
          exact KeepsKey.refl _

theorem all_keepsKey (c : Instr) (s : State) (h1 : ∀ r, c ≠ .keyReadDone r) : ∃ t, exec c s = .next t ∧ KeepsKey s t := by
  cases c with
  | keyReadDone r => exact absurd rfl (h1 r)
  | keyGo => exact execKeyGo_keepsKey s
  | keyBurnDone ok =>
    simp only [exec_keyBurnDone, execKeyBurnDone]
    refine KeepsKey.iteNext (KeepsKey.done (KeepsKey.refl s)) (KeepsKey.iteNext (KeepsKey.done ⟨fun h => by cases h⟩) (KeepsKey.done ⟨fun h => by cases h⟩))
  | porAssert => exact ⟨_, rfl, ⟨fun h => by cases h⟩⟩
  | registerWrite => exact execRegisterWrite_keepsKey ..
  | configRequest => exact execConfigRequest_keepsKey ..
  | flr => exact execFlr_keepsKey ..
  | hotReset => exact execHotReset_keepsKey ..
  | dlDown => exact execDlDown_keepsKey ..
  | perstAssert => exact execPerstAssert_keepsKey ..
  | controllerRestart => exact execControllerRestart_keepsKey ..
  | controllerResume => exact execControllerResume_keepsKey ..
  | _ => exact KeepsKey.ex (exec_touches _ s) (by simp [reach, reachReport, reachPool, reachSweep, reachDiscard, reachFence, reachIngress])

end Sys2Proof.Machine
end

