-- ==== Sys2Proof/Laws/HostFacts.lean ====
section
/-! SUPPORT. What the operations of the host ports, of a Moult, of the flash and of the restarts leave. -/

set_option Elab.async false
set_option linter.unusedVariables false

namespace Sys2Proof.Machine

theorem portPresent_of_fnTakes {s : State} {port fn : Nat} (h : fnTakes s port fn = true) : portPresent s port = true := by
  unfold fnTakes fnPresent at h
  simp only [Bool.and_eq_true] at h
  exact h.1.1.1.1

theorem portActive_of_fnTakes {s : State} {port fn : Nat} (hp : s.por = false) (h : fnTakes s port fn = true) : portActive s port = true := by
  unfold portActive; rw [portPresent_of_fnTakes h, hp]; rfl

theorem bar0Pair_mem {s : State} {port fn off v : Nat} (h : bar0Pair s port fn off = some v) :
    off ∈ [0x0FD024, 0x0FE004, 0x0FE204, 0x0FE304, 0x0FE404, 0x0FE504, 0x0FE604, 0x0FE704, 0x0FE804, 0x0FE904, 0x0FEA04] := by
  by_contra hn
  simp only [List.mem_cons, List.not_mem_nil, or_false, not_or] at hn
  simp [bar0Pair, hn] at h

theorem tuneCheck_read (s : State) (port fn id : Nat) (v : Int) :
    tuneCheck s port fn 2 id v = 0 ∨ tuneCheck s port fn 2 id v = 1 := by
  unfold tuneCheck tuneUnknown tuneDone
  split
  · exact .inr rfl
  · split
    · exact .inr rfl
    · exact .inl rfl

theorem moultReject_facts (s : State) (c : Nat) : (moultReject s c).moult.state = 7 ∧ (moultReject s c).moult.cause = c ∧ (moultReject s c).moult.next = none ∧
    wbit ((moultReject s c).fn 0 0).irqStatus 19 = true ∧ Touches [.moult, .rings] s (moultReject s c) := by
  refine ⟨rfl, rfl, rfl, ?_, moultReject_touch ..⟩
  unfold moultReject raiseIrq irqMoult
  rw [State.fn_updFn_self]
  exact wbit_irq _ _ (by decide)

theorem streamAdd_moult (s : State) (i q : Nat) : (streamAdd s i q).moult = s.moult := (streamAdd_touch ..).same .moult (by decide)

theorem moultAdd_facts (s t : State) (i q : Nat) (h : moultAdd s i q = some t) :
    t.moult = { s.moult with resv := mdel s.moult.resv i } ∧ t.scu = s.scu := by
  have k : ∃ v, (v = resvRelease s i) ∧ Touches [.rings, .nps, .streams, .parts, .mem, .bpm, .store, .alarms, .tu, .out, .freeIx] v t := by
    unfold moultAdd at h
    extract_lets w at h
    refine ⟨w, rfl, ?_⟩
    clear_value w
    split at h
    · cases h; exact (streamAdd_touch ..).sub (by decide)
    · split at h
      · cases h
      · cases h
        refine Touches.trans ?_ ((streamAdd_touch ..).sub (by decide))
        refine Touches.trans ?_ ((recPut_touch ..).sub (by decide))
        exact (State.updStream_touch ..).sub (by decide)
  obtain ⟨v, e, k⟩ := k
  rw [k.same .moult (by decide), k.same .scu (by decide), e]
  exact ⟨rfl, rfl⟩

theorem moultAdds_facts (q : Nat) (l : List Nat) (s : State) :
    (∃ a r, (moultAdds q l s).moult = { s.moult with adds := a, resv := r }) ∧ (moultAdds q l s).scu = s.scu := by
  induction l generalizing s with
  | nil => exact ⟨⟨s.moult.adds, s.moult.resv, rfl⟩, rfl⟩
  | cons i t ih =>
    rw [moultAdds]
    cases h : moultAdd s i q with
    | none => exact ih s
    | some u =>
      obtain ⟨h1, h2⟩ := moultAdd_facts s u i q h
      simp only []
      obtain ⟨⟨a, r, ha⟩, hs⟩ := ih { u with moult := { u.moult with adds := u.moult.adds.filter (· != i) } }
      exact ⟨⟨a, r, by rw [ha, h1]⟩, hs.trans h2⟩

theorem freeOldCfg_facts (s : State) : (∃ o, (freeOldCfg s).moult = { s.moult with olds := o }) ∧ (freeOldCfg s).scu = s.scu := by
  constructor
  · unfold freeOldCfg
    try split
    all_goals exact ⟨_, rfl⟩
  · unfold freeOldCfg
    try split
    all_goals rfl

theorem moultFinish_facts (s : State) (h : s.moult.state = 5) :
    (moultFinish s).scu.cfg = s.scu.cfg ∧ (moultFinish s).moult.commitAt = s.moult.commitAt ∧
    (moultFinish s).moult.waiting = s.moult.waiting ∧
    ((moultFinish s).moult.state = 5 ∨ ((moultFinish s).moult.state = 6 ∧ (moultFinish s).moult.waiting = [] ∧ (moultFinish s).moult.adds = [] ∧
      (moultFinish s).scu.mCur = digest64 (s.scu.mCur ++ digest64 s.moult.container) ∧ (moultFinish s).scu.moultSeq = (s.scu.moultSeq + 1) % 2 ^ 32)) := by
  unfold moultFinish
  split
  · rename_i e
    simp only [Bool.and_eq_true, List.isEmpty_iff] at e
    dsimp only
    obtain ⟨⟨o, ho⟩, hs⟩ := freeOldCfg_facts (raiseIrq { s with
      scu := { s.scu with moultSeq := (s.scu.moultSeq + 1) % 2 ^ 32, mCur := digest64 (s.scu.mCur ++ digest64 s.moult.container) }
      moult := { s.moult with state := 6, cause := 0, container := [], next := none, plan := [], resv := [] } } 0 0 irqMoult)
    rw [ho, hs]
    exact ⟨rfl, rfl, rfl, .inr ⟨rfl, e.1.1.2, e.1.2, rfl, rfl⟩⟩
  · exact ⟨rfl, rfl, rfl, .inl h⟩

theorem tuneBefore_facts (s : State) (l : List Nat) : (tuneBeforeCommit s l).moult = s.moult ∧ (tuneBeforeCommit s l).scu = s.scu ∧ (tuneBeforeCommit s l).now = s.now :=
  ⟨(tuneBeforeCommit_touch ..).same .moult (by decide), (tuneBeforeCommit_touch ..).same .scu (by decide), (tuneBeforeCommit_touch ..).same .now (by decide)⟩

theorem moultCommit_facts (s : State) (n : Sections) :
    (moultCommit s n).scu.cfg = some n ∧ (moultCommit s n).moult.commitAt = s.now ∧ (moultCommit s n).moult.waiting = affectedSlots s.run n ∧
        ((moultCommit s n).moult.state = 5 ∨ ((moultCommit s n).moult.state = 6 ∧ (moultCommit s n).moult.waiting = [] ∧ (moultCommit s n).moult.adds = [])) := by
  unfold moultCommit
  obtain ⟨h1, h2, h3⟩ := tuneBefore_facts s (mkeys s.fns)
  generalize tuneBeforeCommit s (mkeys s.fns) = u0 at *
  have c : Touches _ u0 (closeBatches u0) := closeBatches_touch ..
  rw [← c.same .moult (by decide)] at h1
  rw [← c.same .scu (by decide)] at h2
  rw [← c.same .now (by decide)] at h3
  generalize closeBatches u0 = u at *
  clear c
  have hrun : u.run = s.run := by unfold State.run; rw [h2]
  dsimp only
  rw [hrun]
  generalize hv : ({ u with
    scu := { u.scu with cfg := some n }
    moult := { u.moult with
      state := 5, cause := 0, next := none, commitAt := u.now, waiting := affectedSlots s.run n, adds := addedSlots s.run n
      olds := mput u.moult.olds u.scu.moultSeq s.run }
    streams := u.streams.map (fun p => if (affectedSlots s.run n).contains p.1 then p else (p.1, { p.2 with cfgSeq := moultSeqNew u })) } : State) = v
  have v1 : v.scu.cfg = some n := by subst hv; rfl
  have v2 : v.moult.state = 5 ∧ v.moult.commitAt = u.now ∧ v.moult.waiting = affectedSlots s.run n := by subst hv; exact ⟨rfl, rfl, rfl⟩
  clear hv
  have a1 : Touches _ v (retune v s.run) := retune_touch ..
  generalize retune v s.run = w at *
  have a2 : Touches _ w (portsFollow w) := portsFollow_touch ..
  generalize portsFollow w = x at *
  have a3 : Touches [.parts, .regions] x ((List.range 8).foldl shadowDiscard x) := Touches.foldl (fun v a => shadowDiscard_touch ..) (Touches.refl x) _
  generalize (List.range 8).foldl shadowDiscard x = y at *
  have a4 : Touches _ y (lowerToMax (List.range 8) y) := lowerToMax_touch ..
  generalize lowerToMax (List.range 8) y = z at *
  obtain ⟨⟨a, r, ha⟩, hs⟩ := moultAdds_facts (moultSeqNew u) z.moult.adds z
  generalize moultAdds (moultSeqNew u) z.moult.adds z = q at *
  have zm : z.moult = v.moult := (a4.same .moult (by decide)).trans ((a3.same .moult (by decide)).trans ((a2.same .moult (by decide)).trans (a1.same .moult (by decide))))
  have zs : z.scu = v.scu := (a4.same .scu (by decide)).trans ((a3.same .scu (by decide)).trans ((a2.same .scu (by decide)).trans (a1.same .scu (by decide))))
  have f := moultFinish_facts q (by rw [ha, zm]; exact v2.1)
  refine ⟨by rw [f.1, hs, zs, v1], by rw [f.2.1, ha, zm]; exact v2.2.1.trans h3, by rw [f.2.2.1, ha, zm]; exact v2.2.2, ?_⟩
  rcases f.2.2.2 with k | k
  · exact .inl k
  · exact .inr ⟨k.1, k.2.1, k.2.2.1⟩

def SameMoult (s t : State) : Prop := (∃ o, t.moult = { s.moult with olds := o }) ∧ t.scu = s.scu

theorem SameMoult.refl (s : State) : SameMoult s s := ⟨⟨s.moult.olds, rfl⟩, rfl⟩

theorem SameMoult.trans {s u t : State} (h : SameMoult s u) (k : SameMoult u t) : SameMoult s t := by
  obtain ⟨⟨a, ha⟩, h⟩ := h
  obtain ⟨⟨b, hb⟩, k⟩ := k
  exact ⟨⟨b, by rw [hb, ha]⟩, k.trans h⟩

theorem SameMoult.of {l : List Piece} {s t : State} (h : Touches l s t) (a : Piece.moult ∉ l) (b : Piece.scu ∉ l) : SameMoult s t :=
  ⟨⟨s.moult.olds, h.same .moult a⟩, h.same .scu b⟩

theorem SameMoult.upd {s u : State} (h : SameMoult s u) (m : Map Stream) : SameMoult s { u with streams := m } := ⟨h.1, h.2⟩

theorem sweepSlot_sameMoult (s : State) (i : Nat) : SameMoult s (sweepSlot s i) := by
  unfold sweepSlot
  have h1 := SameMoult.of (sweepFrames_touch (slotFrames s i) s) (by decide) (by decide)
  generalize sweepFrames (slotFrames s i) s = u at *
  obtain ⟨⟨o, ho⟩, hs⟩ := h1.trans (freeOldCfg_facts u : SameMoult u (freeOldCfg u))
  exact ⟨⟨o, ho⟩, hs⟩

theorem sweepSlots_sameMoult (l : List Nat) (s : State) : SameMoult s (sweepSlots l s) := by
  induction l generalizing s with
  | nil => exact SameMoult.refl s
  | cons a t ih => rw [sweepSlots]; exact (sweepSlot_sameMoult s a).trans (ih _)

theorem discardFrame_sameMoult (s : State) (i c : Nat) : SameMoult s (discardFrame s i c) := by
  unfold discardFrame
  split
  · exact SameMoult.refl _
  · split
    · exact SameMoult.refl _
    · refine SameMoult.trans ?_ (sweepSlots_sameMoult ..)
      refine SameMoult.trans ?_ (SameMoult.of (freeWork_touch ..) (by decide) (by decide))
      refine SameMoult.trans ?_ (SameMoult.of (freeIngress_touch ..) (by decide) (by decide))
      split
      · refine SameMoult.trans ?_ (SameMoult.of (purgeHeld_touch ..) (by decide) (by decide))
        refine SameMoult.trans ?_ (SameMoult.of (frameUnqueue_touch ..) (by decide) (by decide))
        refine SameMoult.trans ?_ (SameMoult.of (ledgerWrite_touch ..) (by decide) (by decide))
        refine SameMoult.trans ?_ (SameMoult.of (State.updFrame_touch ..) (by decide) (by decide))
        exact SameMoult.of (markAbsent_touch ..) (by decide) (by decide)
      · refine SameMoult.trans ?_ (SameMoult.of (batchWithdraw_touch ..) (by decide) (by decide))
        refine SameMoult.trans ?_ (SameMoult.of (purgeHeld_touch ..) (by decide) (by decide))
        refine SameMoult.trans ?_ (SameMoult.of (frameUnqueue_touch ..) (by decide) (by decide))
        refine SameMoult.trans ?_ (SameMoult.of (ledgerWrite_touch ..) (by decide) (by decide))
        refine SameMoult.trans ?_ (SameMoult.of (State.updFrame_touch ..) (by decide) (by decide))
        exact SameMoult.of (markAbsent_touch ..) (by decide) (by decide)

theorem discardFrames_sameMoult (c : Nat) (l : List Nat) (s : State) : SameMoult s (discardFrames c l s) := by
  induction l generalizing s with
  | nil => exact SameMoult.refl s
  | cons a t ih => rw [discardFrames]; exact (discardFrame_sameMoult s a c).trans (ih _)

theorem dropFrames_sameMoult (s : State) (slot c : Nat) : SameMoult s (dropFrames s slot c) := by
  unfold dropFrames
  have h1 := discardFrames_sameMoult c (slotFrames s slot) s
  dsimp only
  generalize discardFrames c (slotFrames s slot) s = u at *
  have h2 : ∀ (l : List Nat) (v : State), SameMoult v (l.foldl (fun s i => if (mfind s.frames i).isSome then freeWork (freeBands s i) i else s) v) := by
    intro l
    induction l with
    | nil => exact fun v => SameMoult.refl v
    | cons a t ih =>
      intro v
      rw [List.foldl_cons]
      refine SameMoult.trans ?_ (ih _)
      split
      · exact (SameMoult.of (freeBands_touch ..) (by decide) (by decide)).trans (SameMoult.of (freeWork_touch ..) (by decide) (by decide))
      · exact SameMoult.refl _
  exact h1.trans (h2 _ { u with frames := _ })

theorem streamRemove_sameMoult (s : State) (slot c : Nat) : SameMoult s (streamRemove s slot c) := by
  unfold streamRemove
  extract_lets part members s1 s2 s3 st s4 cb s5 s6 d s7
  refine SameMoult.trans (u := s1) ((SameMoult.of (leaveGroup_touch ..) (by decide) (by decide)).trans (SameMoult.of (shadowDropStream_touch ..) (by decide) (by decide))) ?_
  refine SameMoult.trans (u := s2) ((dropFrames_sameMoult ..).trans (SameMoult.of (purgeSlot_touch ..) (by decide) (by decide))) ?_
  refine SameMoult.trans (u := s3) (SameMoult.of (dropOpenAu_touch ..) (by decide) (by decide)) ?_
  refine SameMoult.trans (u := s4) (SameMoult.of (releaseAll_touch ..) (by decide) (by decide)) ?_
  refine SameMoult.trans (u := s5) ?_ ?_
  · unfold s5
    split
    · exact SameMoult.of (bpmRelease_touch ..) (by decide) (by decide)
    · exact SameMoult.refl _
  refine SameMoult.trans (u := s6) (SameMoult.of (engineDrop_touch ..) (by decide) (by decide)) ?_
  refine SameMoult.trans (u := s7) (SameMoult.upd (u := s6) (SameMoult.refl s6) _) ?_
  exact (SameMoult.of (engineAssignAll_touch ..) (by decide) (by decide)).trans (SameMoult.of (alignTries_touch ..) (by decide) (by decide))

theorem flashEnter_facts (s : State) (n c : Nat) : (flashEnter s n c).flash = { s.flash with state := n, cause := c } ∧
    wbit ((flashEnter s n c).fn 0 0).irqStatus 20 = true ∧ Touches [.flash, .rings] s (flashEnter s n c) := by
  refine ⟨rfl, ?_, flashEnter_touch ..⟩
  unfold flashEnter raiseIrq irqFlash
  rw [State.fn_updFn_self]; exact wbit_irq _ _ (by decide)

theorem hpaRead_flash (s : State) (a n : Nat) : (hpaRead s a n).flash = s.flash := (hpaRead_touch ..).same .flash (by decide)

theorem raiseIrq_ring (s : State) (p f b k : Nat) : (raiseIrq s p f b).ring p f k = s.ring p f k := by
  unfold raiseIrq State.ring; rw [fn_upd]

theorem dropHeld_ring (p f k : Nat) (l : List HeldUnit) (s : State) (h : (s.ring p f k).bound = false) :
    ((ringDropHeld p f k l s).ring p f k).bound = false ∧ ((ringDropHeld p f k l s).ring p f k).held = (s.ring p f k).held ∧
    ((ringDropHeld p f k l s).ring p f k).error = (s.ring p f k).error := by
  induction l generalizing s with
  | nil => exact ⟨h, rfl, rfl⟩
  | cons a t ih =>
    unfold ringDropHeld
    have e : (heldServed (ringDropUnit s p f k a.data.length) a).ring p f k = { s.ring p f k with drops := satAdd (2 ^ 64 - 1) (s.ring p f k).drops 1 } := by
      rw [Touches.ring_eq (heldServed_touch ..) (by decide)]
      unfold ringDropUnit
      rw [ring_upd]
      simp [h]
    have := ih (heldServed (ringDropUnit s p f k a.data.length) a) (by rw [e]; exact h)
    rw [e] at this
    exact this

theorem ringUnbind_no (s : State) (p f k : Nat) (h : (s.ring p f k).bound = false) : ringUnbind s p f k = s := by
  unfold ringUnbind; rw [if_neg (by simp [h])]

theorem injDisable_reset (s : State) (p f p' f' : Nat) : ((injDisable s p f).fn p' f').resetting = (s.fn p' f').resetting := by
  unfold injDisable
  split
  · unfold injStop State.updInj
    dsimp only
    rw [fn_upd_all]
    have t1 := releaseAll_touch ((partOfFn (streamUnbinds (injSlots s p f) s) p f).getD 8) (((streamUnbinds (injSlots s p f) s).inj p f).backing) (streamUnbinds (injSlots s p f) s)
    have t2 := streamUnbinds_touch (injSlots s p f) s
    have := Touches.resetting_eq (t2.trans (t1.sub (by decide))) (by decide) p' f'
    split <;> exact this
  · rfl

theorem attReset_reset (s : State) (p f p' f' : Nat) : ((attReset s p f).fn p' f').resetting = (s.fn p' f').resetting := by
  unfold attReset
  dsimp only
  split
  · rw [fn_upd_all]; split <;> rfl
  · rfl

theorem flrStart_eq (s : State) (p f : Nat) (h1 : fnPresent s p f = true) (h2 : (s.fn p f).resetting = false) :
    ∃ u : State, flrStart s p f = u.updFn p f fnReset ∧ (u.fn p f).resetting = true ∧ ∀ p' f', (s.fn p' f').resetting = true → (u.fn p' f').resetting = true := by
  unfold flrStart
  rw [h1, h2]
  simp only [Bool.not_true, Bool.or_self, Bool.false_eq_true, if_false]
  obtain ⟨a, ha⟩ : ∃ a, (if (decide (p = 0) && decide (f = 0)) = true then keyAbort (flashReset (moultCut s 0x25)) else s : State) = a := ⟨_, rfl⟩
  rw [ha]
  have r1 : ∀ p' f', (a.fn p' f').resetting = (s.fn p' f').resetting := by
    intro p' f'
    rw [← ha]
    split
    · rw [Touches.resetting_eq (keyAbort_touch ..) (by decide), Touches.resetting_eq (flashReset_touch ..) (by decide), Touches.resetting_eq (moultCut_touch ..) (by decide)]
    · rfl
  obtain ⟨b, hb⟩ : ∃ b, attReset a p f = b := ⟨_, rfl⟩
  rw [hb]
  have r2 : ∀ p' f', (b.fn p' f').resetting = (s.fn p' f').resetting := fun p' f' => by rw [← hb, attReset_reset, r1]
  have r3 : ∀ l : List Nat, ∀ p' f', ((l.foldl partDiscard b).fn p' f').resetting = (s.fn p' f').resetting := fun l p' f' => by
    rw [Touches.resetting_eq (Touches.foldl (fun v a => partDiscard_touch v a) (Touches.refl b) l) (by decide), r2]
  generalize ownPart b p f = ps
  obtain ⟨c, hc⟩ : ∃ c, (ps.foldl partDiscard b).updFn p f (fun f => { f with resetting := true }) = c := ⟨_, rfl⟩
  rw [hc]
  obtain ⟨d, hd⟩ : ∃ d, injDisable c p f = d := ⟨_, rfl⟩
  rw [hd]
  have r4 : ∀ p' f', ((ps.foldl partReset d).fn p' f').resetting = if fnIx p f = fnIx p' f' then true else (s.fn p' f').resetting := by
    intro p' f'
    rw [Touches.resetting_eq (Touches.foldl (fun v a => partReset_touch v a) (Touches.refl d) ps) (by decide), ← hd, injDisable_reset, ← hc, fn_upd_all, ← r3 ps p' f']
    split <;> rfl
  refine ⟨_, rfl, ?_, fun p' f' h => ?_⟩
  · rw [r4]; simp
  · rw [r4, h]; simp

theorem flrStart_mono (s : State) (p f p' f' : Nat) (h : (s.fn p' f').resetting = true) : ((flrStart s p f).fn p' f').resetting = true := by
  by_cases c : fnPresent s p f = true ∧ (s.fn p f).resetting = false
  · obtain ⟨u, hu, _, k⟩ := flrStart_eq s p f c.1 c.2
    rw [hu, fn_upd_all]
    split
    · exact k _ _ h
    · exact k _ _ h
  · have : (!fnPresent s p f || (s.fn p f).resetting) = true := by
      cases h1 : fnPresent s p f <;> cases h2 : (s.fn p f).resetting <;> simp_all
    unfold flrStart; rw [if_pos this]; exact h

theorem flrStart_self (s : State) (p f : Nat) (h : fnPresent s p f = true) : ((flrStart s p f).fn p f).resetting = true := by
  cases c : (s.fn p f).resetting
  · obtain ⟨u, hu, k, _⟩ := flrStart_eq s p f h c
    rw [hu, fn_upd]; exact k
  · exact flrStart_mono _ _ _ _ _ c

theorem flrStarts_resetting (p : Nat) (l : List Nat) (s : State) (f : Nat) (h : fnPresent s p f = true) :
    ((s.fn p f).resetting = true ∨ f ∈ l) → ((l.foldl (fun s f => flrStart s p f) s).fn p f).resetting = true := by
  induction l generalizing s with
  | nil => intro k; exact k.elim id (fun k => absurd k (by simp))
  | cons a t ih =>
    intro k
    simp only [List.foldl_cons]
    refine ih _ ?_ ?_
    · rw [Touches.fnPresent_eq (flrStart_touch ..) (by decide) (by decide)]; exact h
    · rcases k with k | k
      · exact .inl (flrStart_mono _ _ _ _ _ k)
      · rcases List.mem_cons.mp k with k | k
        · subst k; exact .inl (flrStart_self _ _ _ h)
        · exact .inr k

theorem flrStarts_touch (p : Nat) (l : List Nat) (s : State) : Touches [.moult, .flash, .key, .signer, .fns, .rings, .nps, .streams, .frames, .resamplers, .relq, .batches, .ctxs, .parts, .regions, .blocks, .cells, .mem, .bpm, .store, .alarms, .tu, .out, .freeIx] s (l.foldl (fun s f => flrStart s p f) s) := by
  induction l generalizing s with
  | nil => exact Touches.refl _
  | cons a t ih => exact (flrStart_touch s p a).trans (ih _)

theorem portReset_ok (s : State) (p : Nat) (tr : Bool) : ((portReset s p tr).port p).link = 0 ∧ ((portReset s p tr).port p).inta = false ∧
    ((portReset s p tr).port p).training = tr ∧ ((portReset s p tr).port p).perst = (s.port p).perst ∧ ((portReset s p tr).port p).wake = (s.port p).wake ∧
    (∀ f < 4, fnPresent s p f = true → ((portReset s p tr).fn p f).resetting = true) ∧ ∀ w ∈ (portReset s p tr).waits, waitPort w ≠ p := by
  unfold portReset
  dsimp only
  obtain ⟨any, hany⟩ : ∃ x, (List.range 4).any (fnPresent s p) = x := ⟨_, rfl⟩
  rw [hany]
  obtain ⟨a, ha⟩ : ∃ a, (if p = 0 then { s with aon := { s.aon with hpaResets := satAdd 255 s.aon.hpaResets 1 } } else { s with aon := { s.aon with hpbResets := satAdd 255 s.aon.hpbResets 1 } } : State) = a := ⟨_, rfl⟩
  rw [ha]
  obtain ⟨b, hb⟩ : ∃ b, a.updPort p (fun x => { x with link := 0, rate := 0, width := 0, training := tr, inta := false, resetting := x.resetting || any }) = b := ⟨_, rfl⟩
  rw [hb]
  have hp : a.port p = s.port p := by rw [← ha]; split <;> rfl
  have hbp : b.port p = { s.port p with link := 0, rate := 0, width := 0, training := tr, inta := false, resetting := (s.port p).resetting || any } := by rw [← hb, port_upd, hp]
  obtain ⟨c, hc⟩ : ∃ c, portSilence b p = c := ⟨_, rfl⟩
  rw [hc]
  have hcp : c.port p = b.port p := by rw [← hc]; rfl
  have ht := flrStarts_touch p (List.range 4) c
  rw [Touches.port_eq ht (by decide), hcp, hbp]
  refine ⟨rfl, rfl, rfl, rfl, rfl, ?_, ?_⟩
  · intro f hf hpr
    apply flrStarts_resetting
    · rw [← hpr, ← hc, ← hb, ← ha]
      split <;> rfl
    · exact .inr (List.mem_range.mpr hf)
  · rw [show _ = c.waits from ht.same .waits (by decide), ← hc]
    intro w hw
    simpa using (List.mem_filter.mp hw).2

theorem aonReads_len : ∀ n o (s : State), (aonReads .mp n o s).1.length = n := by
  intro n
  induction n with
  | zero => intro o s; rfl
  | succ n ih => intro o s; simp only [aonReads, List.length_cons, ih]

theorem aonReads_ptr : ∀ n o (s : State), (aonReads .mp n o s).2.tu.mpPtr = s.tu.mpPtr := by
  intro n
  induction n with
  | zero => intro o s; rfl
  | succ n ih =>
    intro o s; simp only [aonReads, ih]
    unfold aonRead; split
    · rfl
    · split <;> rfl

theorem engineClear_fenced (s : State) (i g k : Nat) : (mget (mupd s.engines k (fun e => if e.cur = some i then { e with cur := none, run := 0 } else e)) g).fenced = (mget s.engines g).fenced := by
  rw [mget_mupd]
  split
  · rename_i k; subst k; split <;> rfl
  · rfl

theorem engineDrop_fenced (s : State) (i g : Nat) : (mget (engineDrop s i).engines g).fenced = (mget s.engines g).fenced := by
  unfold engineDrop
  dsimp only
  rw [Touches.engines_eq (State.updDec_touch ..) (by decide)]
  cases hb : (s.stream i).dec.stateBuf <;> cases he : (s.stream i).dec.engine
  · rfl
  · exact engineClear_fenced ..
  · dsimp only; rw [Touches.engines_eq (bpmRelease_touch ..) (by decide)]
  · dsimp only; rename_i a b
    have := engineClear_fenced (bpmRelease s 8 a) i g b
    rw [Touches.engines_eq (bpmRelease_touch ..) (by decide)] at this ⊢
    exact this

theorem engineLose_fenced (s : State) (i g : Nat) : (mget (engineLose s i).engines g).fenced = (mget s.engines g).fenced := by
  unfold engineLose
  dsimp only
  rw [Touches.engines_eq (State.updDec_touch ..) (by decide), Touches.engines_eq (rollback_touch ..) (by decide), engineDrop_fenced]
  cases hb : (s.stream i).dec.cur
  · rfl
  · dsimp only; rw [Touches.engines_eq (discardFrame_touch ..) (by decide)]

theorem engineLoses_fenced (l : List Nat) (s : State) (g : Nat) : (mget (engineLoses l s).engines g).fenced = (mget s.engines g).fenced := by
  induction l generalizing s with
  | nil => rfl
  | cons a t ih => exact (ih _).trans (engineLose_fenced _ _ _)

theorem raiseStart_pac (s : State) (r q : Nat) : (raiseStart s r q).pac = s.pac := by
  unfold raiseStart; dsimp only; split
  · exact (regionFence_touch s r).same .pac (by decide)
  · rfl

theorem lowerStart_pac (s : State) (r q : Nat) : (lowerStart s r q).pac.restarting = s.pac.restarting := by
  unfold lowerStart; dsimp only; split
  · rw [show (regionFence s r).pac = s.pac from (regionFence_touch s r).same .pac (by decide)]
  · rfl

theorem followTarget_pac (s : State) (r : Nat) : (followTarget s r).pac.restarting = s.pac.restarting := by
  unfold followTarget; dsimp only; split
  · rfl
  · split
    · rw [raiseStart_pac]
    · exact lowerStart_pac ..

theorem wakeStart_pac (s : State) (r : Nat) : (wakeStart s r).pac.restarting = s.pac.restarting := by
  unfold wakeStart
  dsimp only
  split
  · rfl
  · split
    · rfl
    · split
      · rw [show (regionFence s r).pac = s.pac from (regionFence_touch s r).same .pac (by decide)]
      · rfl

theorem wakeHeld_pac (l : List Nat) (s : State) : (wakeHeld l s).pac.restarting = s.pac.restarting := by
  induction l generalizing s with
  | nil => rfl
  | cons a t ih => unfold wakeHeld; rw [ih]; split <;> [exact wakeStart_pac ..; rfl]

theorem followTargets_pac (l : List Nat) (s : State) : (l.foldl followTarget s).pac.restarting = s.pac.restarting := by
  induction l generalizing s with
  | nil => rfl
  | cons a t ih => exact (ih _).trans (followTarget_pac ..)

theorem resampleAgain_resamplers (s : State) (f : Nat) : (resampleAgain s f).resamplers = s.resamplers := by
  unfold resampleAgain
  show (freeWork s f).resamplers = _
  exact Touches.resamplers_eq (freeWork_touch ..) (by decide)

theorem scuRestart_frame (s : State) : (scuRestart s).scu = { s.scu with restarting := true } ∧
    { (scuRestart s).aon with alarms := [] } = { ({ s.aon with scuRestarts := satAdd 255 s.aon.scuRestarts 1 } : Aon) with alarms := [] } ∧
    (scuRestart s).fuses = s.fuses ∧ (scuRestart s).key.state ≠ 1 := by
  unfold scuRestart
  obtain ⟨a, ha⟩ : ∃ a, ({ s with scu := { s.scu with restarting := true }, aon := { s.aon with scuRestarts := satAdd 255 s.aon.scuRestarts 1 } } : State) = a := ⟨_, rfl⟩
  dsimp only
  rw [ha]
  have t1 := moultCut_touch a 0x26
  have t2 := flashScuRestart_touch (moultCut a 0x26)
  have t3 := keyAbort_touch (flashScuRestart (moultCut a 0x26))
  have t4 := attScuRestart_touch (keyAbort (flashScuRestart (moultCut a 0x26)))
  refine ⟨?_, ?_, ?_, ?_⟩
  · rw [Touches.scu_eq t4 (by decide), Touches.scu_eq t3 (by decide), Touches.scu_eq t2 (by decide), Touches.scu_eq t1 (by decide), ← ha]
  · have g4 := t4.same .aon (by decide)
    have g3 := t3.same .aon (by decide)
    have g2 := t2.same .aon (by decide)
    have g1 := t1.same .aon (by decide)
    refine Eq.trans g4 (Eq.trans g3 (Eq.trans g2 (Eq.trans g1 ?_)))
    rw [← ha]
  · have g4 : _ = _ := t4.same .fuses (by decide)
    have g3 : _ = _ := t3.same .fuses (by decide)
    have g2 : _ = _ := t2.same .fuses (by decide)
    have g1 : _ = _ := t1.same .fuses (by decide)
    rw [g4, g3, g2, g1, ← ha]
  · have g4 : (attScuRestart (keyAbort (flashScuRestart (moultCut a 0x26)))).key = _ := t4.same .key (by decide)
    rw [g4]
    unfold keyAbort
    split
    · unfold keyEnd
      rw [show _ = _ from (raiseIrq_touch _ 0 0 irqCommand).same .key (by decide)]
      show (5 : Nat) ≠ 1
      decide
    · assumption

end Sys2Proof.Machine
end

