-- ==== Sys2Proof/Laws/StreamFacts.lean ====
section
/-! SUPPORT. What the operations of ingest, injection and decoding leave. -/

set_option Elab.async false
set_option linter.unusedVariables false

namespace Sys2Proof.Machine

theorem npCount_ctr_ne (s : State) (np a b : Nat) (h : a ≠ b) (n : Nat) : mget ((npCount s np a n).np np).ctr b = mget (s.np np).ctr b := by
  simp [npCount, bump, mget_mupd_ne _ _ h]

theorem npCount_run (s : State) (np a n : Nat) : (npCount s np a n).run = s.run := rfl

theorem reportGroup_np (s : State) (e : Bytes) (b : Bool) (n : Nat) : ((reportGroup s e b).np n).link = (s.np n).link ∧ ((reportGroup s e b).np n).queries = (s.np n).queries := by
  have : ∀ d, ((useIpId s (seSource e) d).np n).link = (s.np n).link ∧ ((useIpId s (seSource e) d).np n).queries = (s.np n).queries := by
    intro d
    unfold useIpId
    split
    · simp only [State.np, State.updNp, mget_mupd]
      split
      · rename_i h; subst h; exact ⟨rfl, rfl⟩
      · exact ⟨rfl, rfl⟩
    · exact ⟨rfl, rfl⟩
  exact this _

theorem joinReports_np (l : List Nat) (s : State) (n : Nat) : ((joinReports l s).np n).link = (s.np n).link := by
  induction l generalizing s with
  | nil => rfl
  | cons a t ih =>
    rw [joinReports, ih]
    unfold joinReport
    dsimp only
    split
    · exact (reportGroup_np s _ true n).1
    · rfl

theorem aligned_frame (s : State) (i : Nat) (f : Frame) (h : mfind s.frames i = some f) (refs : _) :
    ((frameStage (s.updFrame i (fun f => { f with aligned := true, refs := refs })) i 2).frame i).aligned = true ∧
    2 ≤ ((frameStage (s.updFrame i (fun f => { f with aligned := true, refs := refs })) i 2).frame i).stage := by
  obtain ⟨w, hw⟩ := frameStage_frame (s.updFrame i (fun f => { f with aligned := true, refs := refs })) i 2 _ (by rw [mfind_updFrame, h]; rfl)
  have e : (frameStage (s.updFrame i (fun f => { f with aligned := true, refs := refs })) i 2).frame i = _ := mget_of_mfind hw
  rw [e]
  exact ⟨rfl, Nat.le_max_right ..⟩

theorem alignDecide_frame (s : State) (i : Nat) (f : Frame) (h : mfind s.frames i = some f) :
    ((alignDecide s i).frame i).aligned = true ∧ 2 ≤ ((alignDecide s i).frame i).stage := aligned_frame s i f h _

theorem advance_inj (s : State) (port fn n : Nat) (w : Bool) :
    ((injAdvance s port fn n w).inj port fn).rdOffset = (if w then 0 else ((s.inj port fn).rdOffset + n) % injSize (s.inj port fn)) ∧
    ((injAdvance s port fn n w).inj port fn).seq = ((s.inj port fn).seq + 1) % 2 ^ 32 ∧
    ((injAdvance s port fn n w).inj port fn).desync = (s.inj port fn).desync ∧ ((injAdvance s port fn n w).inj port fn).torn = (s.inj port fn).torn := by
  unfold injAdvance
  obtain ⟨u, hu⟩ : ∃ u, s.updInj port fn (fun i => { i with
    rdOffset := if w then 0 else (i.rdOffset + n) % injSize i
    seq := (i.seq + 1) % 2 ^ 32, sinceWrite := i.sinceWrite + n, writeDue := true
    trailerSince := none, headerSince := none, slowPoll := false, lastNew := s.now }) = u := ⟨_, rfl⟩
  have u1 : (u.inj port fn).rdOffset = (if w then 0 else ((s.inj port fn).rdOffset + n) % injSize (s.inj port fn)) ∧
    (u.inj port fn).seq = ((s.inj port fn).seq + 1) % 2 ^ 32 ∧ (u.inj port fn).desync = (s.inj port fn).desync ∧ (u.inj port fn).torn = (s.inj port fn).torn := by
    rw [← hu, inj_upd]; exact ⟨rfl, rfl, rfl, rfl⟩
  rw [hu]
  dsimp only
  split
  · have : ∃ d x, (injConsumer u port fn).inj port fn = { u.inj port fn with writeDue := d, sinceWrite := x } := by
      unfold injConsumer
      dsimp only
      split
      · refine ⟨false, 0, ?_⟩
        rw [Touches.inj_eq (emit_touch ..) (by decide), inj_upd]
      · exact ⟨_, _, rfl⟩
    obtain ⟨d, x, h⟩ := this
    rw [h]; exact u1
  · exact u1

theorem consume_inj (s : State) (port fn : Nat) (h : Bytes) :
    ((injConsume s port fn h).inj port fn).rdOffset = (if ipType h = 2 then 0 else ((s.inj port fn).rdOffset + ipLength h) % injSize (s.inj port fn)) ∧
    ((injConsume s port fn h).inj port fn).seq = ((s.inj port fn).seq + 1) % 2 ^ 32 ∧ ((injConsume s port fn h).inj port fn).desync = (s.inj port fn).desync := by
  unfold injConsume
  dsimp only
  by_cases e : ipType h = 2
  · rw [if_pos e, if_pos e]
    have := advance_inj s port fn 64 true
    exact ⟨this.1, this.2.1, this.2.2.1⟩
  · rw [if_neg e, if_neg e]
    obtain ⟨u, hu⟩ : ∃ u, (if (injSlots s port fn).contains (ipSlot h) then
        (if (s.stream (ipSlot h)).live then injDeliver s (ipSlot h) h (injBytes (s.inj port fn) ((s.inj port fn).rdOffset + 64) (ipPayLen h)) else s)
      else raiseLogOf s uParser ((partOfFn s port fn).getD 0xFF) 0xFFFF) = u := ⟨_, rfl⟩
    have u1 : u.inj port fn = s.inj port fn := by
      rw [← hu]
      split
      · split
        · exact Touches.inj_eq (injDeliver_touch ..) (by decide) _ _
        · rfl
      · exact Touches.inj_eq (raiseLogOf_touch ..) (by decide) _ _
    rw [hu, ← u1]
    have := advance_inj u port fn (ipLength h) false
    exact ⟨this.1, this.2.1, this.2.2.1⟩

theorem noteReady_id (v : Option Rat) (l : List Nat) (s : State) : ∀ i, i ∉ l → (noteReady v l s).stream i = s.stream i := by
  induction l generalizing s with
  | nil => intro i _; rfl
  | cons a t ih =>
    intro i h
    rw [List.mem_cons, not_or] at h
    unfold noteReady
    rw [ih _ i h.2]
    exact stream_upd_ne _ _ _ _ h.1

theorem leastV_le (s : State) (l : List Nat) (v : Rat) (h : leastV s l = some v) : (∀ i ∈ l, v ≤ (s.stream i).dec.vtime) ∧ ∃ i ∈ l, (s.stream i).dec.vtime = v := by
  induction l generalizing v with
  | nil => simp [leastV] at h
  | cons a t ih =>
    unfold leastV at h
    cases e : leastV s t with
    | none =>
      rw [e] at h
      have : t = [] := by
        cases t with
        | nil => rfl
        | cons b c => unfold leastV at e; cases k : leastV s c <;> rw [k] at e <;> simp at e
      subst this
      simp only [Option.some.injEq] at h
      exact ⟨by simp [← h], a, by simp, h⟩
    | some w =>
      rw [e] at h
      obtain ⟨h1, i, hi, h2⟩ := ih w e
      simp only [Option.some.injEq] at h
      split at h
      · rename_i k
        subst h
        exact ⟨by simpa using fun i hi => le_trans k (h1 i hi), a, by simp, rfl⟩
      · rename_i k
        subst h
        refine ⟨?_, i, by simp [hi], h2⟩
        simpa using ⟨le_of_lt (lt_of_not_ge k), h1⟩

theorem leastSlot_spec (s : State) (l : List Nat) (i : Nat) (h : leastSlot s l = some i) : i ∈ l ∧ ∀ j ∈ l, (s.stream i).dec.vtime ≤ (s.stream j).dec.vtime := by
  unfold leastSlot at h
  cases e : leastV s l with
  | none => rw [e] at h; cases h
  | some v =>
    rw [e] at h
    have m := List.mem_of_find?_eq_some h
    have k := List.find?_some h
    simp only [beq_iff_eq] at k
    exact ⟨m, fun j hj => k ▸ (leastV_le s l v e).1 j hj⟩

theorem leastSlot_some (s : State) (l : List Nat) (h : l ≠ []) : leastSlot s l ≠ none := by
  unfold leastSlot
  cases e : leastV s l with
  | none => cases l with
    | nil => exact absurd rfl h
    | cons b c => unfold leastV at e; cases k : leastV s c <;> rw [k] at e <;> simp at e
  | some v =>
    obtain ⟨-, i, hi, k⟩ := leastV_le s l v e
    intro n
    simp only [List.find?_eq_none] at n
    exact n i hi (by simp [k])

theorem beginPicture_eng (s : State) (slot : Nat) : (beginPicture s slot).engines = s.engines :=
  (beginPicture_touch s slot).same .engines (by decide)

theorem abandon_spec (s : State) (slot : Nat) (c : CurPic) (h : (s.stream slot).dec.cur = some c) (a : c.abandoned = false) :
    ((abandonPicture s slot).stream slot).dec.cur = some { c with abandoned := true } ∧
    ((abandonPicture s slot).stream slot).dec.index = (s.stream slot).dec.index ∧
    ((abandonPicture s slot).stream slot).dec.ctr = bump (s.stream slot).dec.ctr 2 1 ∧
    (∀ i, i ≠ slot → (abandonPicture s slot).stream i = s.stream i) := by
  unfold abandonPicture
  rw [h]
  dsimp only
  rw [if_neg (by simp [a])]
  refine ⟨?_, ?_, ?_, fun i hi => ?_⟩
  · rw [count_dec, dec_upd]
  · rw [count_dec, dec_upd]
  · rw [count_dec, dec_upd]
  · unfold decCount State.updDec; rw [stream_upd_ne _ _ _ _ hi, stream_upd_ne _ _ _ _ hi]

theorem rollback_spec (s : State) (slot : Nat) :
    ((rollback s slot).stream slot).dec.index = [] ∧
    ((rollback s slot).stream slot).dec.ctr = bump (s.stream slot).dec.ctr 7 1 ∧
    ∀ i ∈ (s.stream slot).dec.queue, ((rollback s slot).frame i).hdr = none := by
  unfold rollback
  refine ⟨?_, ?_, fun i hi => ?_⟩
  · rw [count_dec, dec_upd]
  · rw [count_dec, dec_upd]; rfl
  · show (mget (mmap s.frames (fun i f => if (s.stream slot).dec.queue.contains i then { f with hdr := none } else f)) i).hdr = none
    rw [mget_mmap _ _ _ (by split <;> rfl)]
    simp [hi]

theorem serve_spec (s : State) (slot c : Nat) : ((serve s slot c).stream slot).dec.cur = (s.stream slot).dec.cur.map (fun x => { x with cycles := x.cycles + c }) ∧
    ((serve s slot c).stream slot).dec.ctr = bump (s.stream slot).dec.ctr 8 c ∧ ∀ i, i ≠ slot → (serve s slot c).stream i = s.stream i := by
  unfold serve
  refine ⟨?_, ?_, fun i hi => ?_⟩
  · rw [count_dec, dec_upd]
  · rw [count_dec, dec_upd]
  · unfold decCount State.updDec; rw [stream_upd_ne _ _ _ _ hi, stream_upd_ne _ _ _ _ hi]

theorem abandon_touch (s : State) (slot : Nat) : Touches [.streams] s (abandonPicture s slot) := abandonPicture_touch ..

theorem fold_trT (l : List Nat) (s : State) : Touches [.streams, .mem, .store] s (l.foldl trainRefresh s) := by
  induction l generalizing s with
  | nil => exact Touches.refl s
  | cons a t ih => exact (trainRefresh_touch s a).trans (ih _)

end Sys2Proof.Machine
end

