-- ==== Sys2Proof/Laws/FabricFacts.lean ====
section
/-! SUPPORT. What the operations of the fabric and of the Context Store leave. -/

set_option Elab.async false
set_option linter.unusedVariables false

namespace Sys2Proof.Machine

theorem sems_release (s : State) (b n : Nat) : (mget ((semRelease s b n).block b).sems n).count = (mget (s.block b).sems n).count ∧
    (mget ((semRelease s b n).block b).sems n).waiters = (mget (s.block b).sems n).waiters.filter (fun w => (mget (s.block b).sems n).count < w.2) := by
  unfold semRelease
  dsimp only
  have fold : ∀ (l : List (Nat × Nat)) (f : Cell → Cell) (v : State), (l.foldl (fun s w => s.updCell w.1 f) v).blocks = v.blocks := by
    intro l f
    induction l with
    | nil => intro v; rfl
    | cons a t ih => intro v; rw [List.foldl_cons, ih]; rfl
  split
  · rename_i h
    refine ⟨rfl, ?_⟩
    symm
    rw [List.filter_eq_self]
    intro a ha
    have h' := List.isEmpty_iff.1 h
    have := List.filter_eq_nil_iff.1 h' a ha
    simpa using this
  · rw [Touches.block_eq (endInherit_touch ..) (by decide)]
    have fb : ∀ (l : List (Nat × Nat)) (f : Cell → Cell) (v : State) (i : Nat), (l.foldl (fun s w => s.updCell w.1 f) v).block i = v.block i := by
      intro l f v i; unfold State.block; rw [fold]
    rw [fb, block_upd]
    dsimp only
    rw [mget_mupd_self]
    exact ⟨rfl, rfl⟩

theorem countIssue_held (s : State) (c : Nat) (m : CellCmd) (r : Nat) : ((countIssue s c m).region r).held = (s.region r).held := by
  have rc : ∀ (v : State) (q p k vp n : Nat), ((rgnCount v q p k vp n).region r).held = (v.region r).held := by
    intro v q p k vp n
    unfold rgnCount
    by_cases h : r = q
    · subst h; rw [region_upd]
    · rw [region_upd_ne _ _ _ _ h]
  have sh : ∀ (v : State) (q : Nat) (l : _), ((v.updRegion q (fun y => { y with shadow := y.shadow.filter l })).region r).held = (v.region r).held := by
    intro v q l
    by_cases h : r = q
    · subst h; rw [region_upd]
    · rw [region_upd_ne _ _ _ _ h]
  unfold countIssue
  split
  · rfl
  · dsimp only
    split
    · rfl
    rw [sh]
    split <;> split <;> (try split) <;> simp only [Touches.region_eq (mapCount_touch ..) (by decide), rc]

/-- A touched line changes the sets of the cache alone, but for what it writes back to DRAM. -/
theorem cacheTouch_store (s : State) (i : Nat) (d : Bool) :
    ∃ q, (cacheTouch s i d).2.store = { s.store with sets := q } := by
  unfold cacheTouch
  extract_lets set ways l
  split
  · exact ⟨_, rfl⟩
  · refine ⟨_, (writeBack_touch ..).same .store (by decide)⟩

theorem storeRead_recs (s : State) (slot i : Nat) : (storeRead s slot i).store.recs = s.store.recs ∧ (storeRead s slot i).store.corrected = s.store.corrected := by
  obtain ⟨q, k⟩ := cacheTouch_store s i false
  unfold storeRead
  generalize cacheTouch s i false = p at k ⊢
  obtain ⟨hit, u⟩ := p
  dsimp only at k ⊢
  have e : u.store.recs = s.store.recs ∧ u.store.corrected = s.store.corrected := by rw [k]; exact ⟨rfl, rfl⟩
  have c : ∀ (v : State) k n, (ctxCount v slot k n).store = v.store := fun v k n => by unfold ctxCount; split <;> rfl
  cases hit
  · rw [if_neg (by simp), c, c]; exact e
  · rw [if_pos rfl, c]; exact e

theorem padTo_length (n : Nat) (b : Bytes) : (padTo n b).length = n := by
  unfold padTo zeros; simp; omega

theorem recPut_read (s : State) (i : Nat) (b : Bytes) : recRead (recPut s i b) i = padTo 256 b ∧ ∀ j, j ≠ i → recRead (recPut s i b) j = recRead s j := by
  have nd : ∀ (m : Map Bytes) j, j ≠ i → mfind (mdel m i) j = mfind m j := by
    intro m j h
    unfold mdel
    induction m with
    | nil => rfl
    | cons a t ih =>
      obtain ⟨q, v⟩ := a
      by_cases e : q = i
      · subst e
        simp only [List.filter, bne_self_eq_false]
        rw [ih]
        simp [mfind, Ne.symm h]
      · have : (((q, v) : Nat × Bytes).1 != i) = true := by simpa using e
        simp only [List.filter, this]
        by_cases e2 : q = j
        · subst e2; simp [mfind]
        · simp [mfind, e2, ih]
  have md : ∀ (m : Map Bytes), mfind (mdel m i) i = none := by
    intro m
    unfold mdel
    induction m with
    | nil => rfl
    | cons a t ih =>
      obtain ⟨q, v⟩ := a
      by_cases e : q = i
      · subst e; simpa using ih
      · have : (((q, v) : Nat × Bytes).1 != i) = true := by simpa using e
        simp [mfind, e, ih]
  unfold recPut recRead
  dsimp only
  by_cases z : allZero (padTo 256 b) 0 256 = true
  · rw [if_pos z]
    refine ⟨?_, fun j h => by rw [nd _ _ h]⟩
    rw [md]
    have l := padTo_length 256 b
    unfold allZero slice at z
    rw [List.drop_zero, List.take_of_length_le (by omega)] at z
    symm
    show padTo 256 b = zeros 256
    unfold zeros
    rw [List.eq_replicate_iff]
    refine ⟨l, fun x hx => ?_⟩
    have := List.all_eq_true.1 z x hx
    simpa using this
  · rw [if_neg z]
    refine ⟨?_, fun j h => ?_⟩
    · rw [mfind_mput, if_pos rfl]; rfl
    · rw [mfind_mput, if_neg (Ne.symm h)]

theorem placeCtx_ctx (cx : Nat) (l : List Nat) (s : State) (x : Ctx) (h : mfind s.ctxs cx = some x) :
    ∃ sl, mfind (placeCtx cx l s).ctxs cx = some { x with slots := sl } := by
  induction l generalizing s x with
  | nil => exact ⟨x.slots, h⟩
  | cons a t ih =>
    unfold placeCtx
    split
    · exact ih s x h
    · rename_i k _
      have := ih ((s.updBlock a (fun y => { y with slots := mput y.slots k cx })).updCtx cx (fun x => { x with slots := x.slots ++ [(a, k)] })) { x with slots := x.slots ++ [(a, k)] } (by
        rw [mfind_updCtx]; show Option.map _ (mfind s.ctxs cx) = _; rw [h]; rfl)
      obtain ⟨sl, e⟩ := this
      exact ⟨sl, e⟩

theorem cacheTouch_streams (s : State) (i : Nat) (d : Bool) : (cacheTouch s i d).2.streams = s.streams := by
  unfold cacheTouch
  extract_lets set ways l
  split
  · rfl
  · exact (writeBack_touch ..).same .streams (by decide)

/-- Writing a record changes a stream's counters of the context store alone. -/
theorem recSet_stream {β : Type} (g : Stream → β) (hg : ∀ (x : Stream) m, g { x with ctxc := m } = g x) (s : State) (slot ord : Nat) (fs : List (Nat × Bytes)) (i : Nat) :
    g ((recSet s slot ord fs).stream i) = g (s.stream i) := by
  have cc : ∀ (v : State) k n, g ((ctxCount v slot k n).stream i) = g (v.stream i) := by
    intro v k n
    unfold ctxCount
    split
    case isFalse => rfl
    by_cases h : i = slot
    · subst h; rw [State.stream_updStream_self, hg]
    · rw [stream_upd_ne _ _ _ _ h]
  have ct : ∀ (v : State) j d, g ((cacheTouch v j d).2.stream i) = g (v.stream i) := by
    intro v j d; unfold State.stream; rw [cacheTouch_streams]
  have sr : ∀ (v : State) j, g ((storeRead v slot j).stream i) = g (v.stream i) := by
    intro v j
    unfold storeRead
    have k := ct v j false
    generalize cacheTouch v j false = p at k ⊢
    obtain ⟨hit, u⟩ := p
    dsimp only at k ⊢
    cases hit
    · rw [if_neg (by simp), cc, cc, k]
    · rw [if_pos rfl, cc, k]
  unfold recSet
  extract_lets j s1 b
  have k : ∀ v : State, g ((storeWrite v slot j (b.drop 16)).stream i) = g (v.stream i) := by
    intro v
    unfold storeWrite
    have k := ct v j true
    generalize cacheTouch v j true = p at k ⊢
    obtain ⟨hit, u⟩ := p
    dsimp only at k ⊢
    rw [cc]
    exact k
  rw [k]
  exact sr s j

end Sys2Proof.Machine
end

