-- ==== Sys2Proof/Laws/PowerFacts.lean ====
section
/-! SUPPORT. What the operations of the DRAM, of the buffer pools and of the power control leave. -/

set_option Elab.async false
set_option linter.unusedVariables false

namespace Sys2Proof.Machine

theorem countHot_same (l : List Nat) (s : State) : (countHot l s).dram.streak = s.dram.streak ∧ (countHot l s).dram.epoch = s.dram.epoch ∧
    (countHot l s).dram.raisedAt = s.dram.raisedAt ∧ (countHot l s).dram.sinceRaise = s.dram.sinceRaise := by
  induction l generalizing s with
  | nil => exact ⟨rfl, rfl, rfl, rfl⟩
  | cons a t ih => exact ih _

theorem bpmCount_bpm (s : State) (w k i : Nat) : (bpmCount s w k i).bpm = s.bpm := by
  unfold bpmCount; split <;> rfl

theorem poolWarn_bpm (s : State) (k : Nat) : ∃ w, (poolWarn s k).bpm = { s.bpm with warn := w } := by
  unfold poolWarn
  dsimp only
  split
  · split
    · exact ⟨_, rfl⟩
    · exact ⟨s.bpm.warn, rfl⟩
  · split
    · exact ⟨s.bpm.warn ++ [k], Touches.bpm_eq (raiseLog_touch ..) (by decide)⟩
    · exact ⟨s.bpm.warn, rfl⟩

theorem lastOwner_sub (w who : Nat) (h : w = 2 ^ who) : w - (if w / 2 ^ who % 2 = 1 then 2 ^ who else 0) = 0 := by
  have : 2 ^ who / 2 ^ who = 1 := Nat.div_self (Nat.two_pow_pos who)
  rw [h, this]; simp

theorem pacCount_region (s : State) (k r n i : Nat) : (pacCount s k r n).region i = s.region i := rfl

theorem grantRegion_ne (s : State) (r q : Nat) (h : q ≠ r) : (grantRegion s r).region q = s.region q := by
  unfold grantRegion
  dsimp only
  split
  · rfl
  · rw [region_upd_ne _ _ _ _ h]
    split <;> rfl

theorem grantRegion_self (s : State) (r : Nat) (h1 : (s.region r).awake = true) (h2 : (s.region r).fenced = false) :
    ((grantRegion s r).region r).grant = (grantBase s (s.region r)).1 - (s.region r).overdraw ∧ ((grantRegion s r).region r).overdraw = 0 := by
  unfold grantRegion
  simp only [h1, h2, Bool.not_true, Bool.or_self, Bool.false_eq_true, if_false]
  rw [region_upd]
  split <;> exact ⟨rfl, rfl⟩

theorem grantRegion_skip (s : State) (r : Nat) (h1 : (s.region r).awake = false ∨ (s.region r).fenced = true) :
    grantRegion s r = s := by
  unfold grantRegion
  rcases h1 with h | h <;> simp [h]

theorem grantRegion_aon (s : State) (r : Nat) : (grantRegion s r).aon = s.aon := by
  unfold grantRegion
  dsimp only
  split
  · rfl
  · show (if _ then _ else _ : State).aon = _
    split <;> rfl

theorem grantAll_ne (l : List Nat) (s : State) (q : Nat) (h : q ∉ l) : (grantAll l s).region q = s.region q := by
  induction l generalizing s with
  | nil => rfl
  | cons a t ih =>
    simp only [List.mem_cons, not_or] at h
    exact (ih _ h.2).trans (grantRegion_ne _ _ _ h.1)

theorem grantAll_skip (l : List Nat) (s : State) (q : Nat) (h : (s.region q).awake = false ∨ (s.region q).fenced = true) : (grantAll l s).region q = s.region q := by
  induction l generalizing s with
  | nil => rfl
  | cons a t ih =>
    by_cases e : q = a
    · subst e
      unfold grantAll; rw [grantRegion_skip _ _ h]; exact ih _ h
    · have := grantRegion_ne s a q e
      unfold grantAll; rw [ih _ (by rw [this]; exact h), this]

theorem grantAll_self (l : List Nat) (hn : l.Nodup) (s : State) (q : Nat) (h : q ∈ l) (h1 : (s.region q).awake = true) (h2 : (s.region q).fenced = false) :
    ((grantAll l s).region q).grant = (grantBase s (s.region q)).1 - (s.region q).overdraw ∧ ((grantAll l s).region q).overdraw = 0 := by
  induction l generalizing s with
  | nil => cases h
  | cons a t ih =>
    rw [List.nodup_cons] at hn
    unfold grantAll
    by_cases e : q = a
    · subst e
      rw [grantAll_ne _ _ _ hn.1]; exact grantRegion_self s q h1 h2
    · have hr := grantRegion_ne s a q e
      have := ih hn.2 (grantRegion s a) ((List.mem_cons.mp h).resolve_left e) (by rw [hr]; exact h1) (by rw [hr]; exact h2)
      rw [hr] at this
      have hg : grantBase (grantRegion s a) (s.region q) = grantBase s (s.region q) := by
        unfold grantBase pwrbrk inputActive; rw [grantRegion_aon]
      rw [hg] at this; exact this

theorem sampleRegions_region (m : RailSample) (l : List Nat) (hn : l.Nodup) (s : State) (q : Nat) :
    (sampleRegions (l.map (fun i => (i, m.regions.getD i 0))) s).region q = if q ∈ l then { s.region q with
      samples := addSample (m.regions.getD q 0) (s.region q).samples
      railPower := sampleAvg (addSample (m.regions.getD q 0) (s.region q).samples) } else s.region q := by
  induction l generalizing s with
  | nil => rfl
  | cons a t ih =>
    rw [List.nodup_cons] at hn
    simp only [List.map_cons, sampleRegions]
    rw [ih hn.2]
    by_cases e : q = a
    · subst e
      rw [if_neg hn.1, if_pos List.mem_cons_self]
      unfold sampleRegion; rw [region_upd]
    · have : (sampleRegion s a (m.regions.getD a 0)).region q = s.region q := by unfold sampleRegion; exact region_upd_ne _ _ _ _ e
      rw [this]; simp [e]

theorem sampleRegions_pac (l : List (Nat × Nat)) (s : State) : (sampleRegions l s).pac = s.pac := by
  induction l generalizing s with
  | nil => rfl
  | cons a t ih => exact ih _

theorem lowerOverdrawn_none (l : List Nat) (s : State) (h : ∀ r ∈ l, (s.region r).overStreak < 10) : lowerOverdrawn l s = s := by
  induction l with
  | nil => rfl
  | cons a t ih =>
    unfold lowerOverdrawn
    have : decide (10 ≤ (s.region a).overStreak) = false := by
      have := h a List.mem_cons_self
      simp; omega
    simp only [this, Bool.and_false, Bool.false_eq_true, if_false]
    exact ih (fun r hr => h r (List.mem_cons_of_mem _ hr))

theorem vfRaise_ok (scale b : Fl) (P : VfReg → Prop) (hP : ∀ q, P q → P { q with k := q.k + 1 }) (n : Nat) (l : List VfReg)
    (hn : (l.map (·.n)).Nodup) (h : ∀ q ∈ l, q.k ≤ q.hi ∧ P q) : (∀ q ∈ vfRaise scale b n l, q.k ≤ q.hi ∧ P q) ∧
    (vfRaise scale b n l).map (·.n) = l.map (·.n) := by
  induction n generalizing l with
  | zero => exact ⟨h, rfl⟩
  | succ n ih =>
    unfold vfRaise
    split
    · exact ⟨h, rfl⟩
    · rename_i r hr
      have hm := minByNat_mem _ _ _ hr
      simp only [List.mem_filter, decide_eq_true_eq] at hm
      dsimp only
      split
      · exact ⟨h, rfl⟩
      · have hmap : (l.map (fun q => if q.n = r.n then { q with k := q.k + 1 } else q)).map (·.n) = l.map (·.n) := by
          rw [List.map_map]
          apply List.map_congr_left
          intro a _
          dsimp only [Function.comp]
          split <;> rfl
        have := ih (l.map (fun q => if q.n = r.n then { q with k := q.k + 1 } else q)) (by rw [hmap]; exact hn) (by
          intro q hq
          obtain ⟨a, ha, rfl⟩ := List.mem_map.mp hq
          by_cases e : a.n = r.n
          · have hae : a = r := List.inj_on_of_nodup_map hn ha hm.1 e
            subst hae
            simp only [if_true]
            exact ⟨by have := hm.2; show a.k + 1 ≤ a.hi; omega, hP a (h a ha).2⟩
          · simp only [if_neg e]; exact h a ha)
        exact ⟨this.1, this.2.trans hmap⟩

theorem vfChoose_ok (scale b : Fl) (P : Nat → Nat → Prop) (l : List VfReg)
    (hn : (l.map (·.n)).Nodup) (h : ∀ q ∈ l, q.k ≤ q.hi ∧ P q.n q.hi) :
    (∀ c ∈ vfChoose b scale l, ∃ hi, c.2.1 ≤ hi ∧ P c.1 hi) ∧ (vfChoose b scale l).map (·.1) = l.map (·.n) := by
  unfold vfChoose
  split
  · dsimp only
    refine ⟨?_, ?_⟩
    · intro c hc
      obtain ⟨a, ha, rfl⟩ := List.mem_map.mp hc
      exact ⟨a.hi, (h a ha).1, (h a ha).2⟩
    · rw [List.map_map]; rfl
  · have := vfRaise_ok scale b (fun q => P q.n q.hi) (fun q hq => hq) 64 l hn h
    refine ⟨?_, ?_⟩
    · intro c hc
      obtain ⟨a, ha, rfl⟩ := List.mem_map.mp hc
      exact ⟨a.hi, (this.1 a ha).1, (this.1 a ha).2⟩
    · rw [List.map_map]; exact this.2

theorem inputRise_aon (s : State) (i : Nat) : (inputRise s i).aon.inputs = mupd s.aon.inputs i (fun p => if p.active then p else { p with active := true, activeSince := s.now }) := rfl

theorem inputRise_active (s : State) (i : Nat) : (mget (inputRise s i).aon.inputs i).active = true := by
  rw [inputRise_aon, mget_mupd_self]; split <;> simp_all

theorem inputFall_aon (s : State) (i : Nat) : (inputFall s i).aon.inputs = mupd s.aon.inputs i (fun p => { p with active := false, stuck := false, releasedStuck := p.releasedStuck || p.stuck }) := rfl

theorem inputFall_in (s : State) (i : Nat) : (mget (inputFall s i).aon.inputs i).active = false ∧ (mget (inputFall s i).aon.inputs i).stuck = false := by
  rw [inputFall_aon, mget_mupd_self]; exact ⟨rfl, rfl⟩

def railUsable (x : Region) : Prop := x.pgood = true ∨ x.trans.isSome = true

def canLower (x : Region) : Prop := x.fenced = false ∧ (x.awake = true ∨ x.waking = true) ∧ ∀ t, x.trans = some t → t.kind = 1 → 0 < t.dest

theorem lowerStart_ne (s : State) (r q vq : Nat) (h : railUsable (s.region r)) (e : q ≠ r) : (lowerStart s r vq).region q = s.region q := by
  unfold lowerStart
  dsimp only
  split
  · rename_i hc
    simp only [Bool.and_eq_true, Option.isNone_iff_eq_none, Bool.not_eq_true'] at hc
    rcases h with h | h
    · rw [hc.2] at h; cases h
    · rw [hc.1] at h; cases h
  · rw [pacCount_region, region_upd_ne _ _ _ _ e]

theorem lowerStart_self (s : State) (r vq : Nat) (h : railUsable (s.region r)) : (lowerStart s r vq).region r =
    { s.region r with vp := vq, vsel := vq, trans := some ⟨2, (s.region r).vp, vq, s.now⟩ } := by
  unfold lowerStart
  dsimp only
  split
  · rename_i hc
    simp only [Bool.and_eq_true, Option.isNone_iff_eq_none, Bool.not_eq_true'] at hc
    rcases h with h | h
    · rw [hc.2] at h; cases h
    · rw [hc.1] at h; cases h
  · rw [pacCount_region, region_upd]

theorem forceLower_ne (s : State) (r q vq : Nat) (h : railUsable (s.region r)) (e : q ≠ r) : (forceLower s r vq).region q = s.region q := by
  unfold forceLower
  dsimp only
  split
  · rfl
  · split
    · split
      · exact region_upd_ne _ _ _ _ e
      · rfl
    · split
      · rfl
      · have hr : railUsable ((s.updRegion r (fun x => { x with target := min x.target vq })).region r) := by rw [region_upd]; exact h
        have hn := region_upd_ne s r q (fun x => { x with target := min x.target vq }) e
        split
        · split
          · rw [lowerStart_ne _ _ _ _ hr e, hn]
          · exact hn
        · split
          · split
            · rw [lowerStart_ne _ _ _ _ hr e, hn]
            · exact hn
          · split
            · rw [lowerStart_ne _ _ _ _ hr e, hn]
            · exact hn

theorem forceLower_self (s : State) (r : Nat) (h : railUsable (s.region r)) :
    railUsable ((forceLower s r 0).region r) ∧ ((forceLower s r 0).region r).grant = (s.region r).grant ∧
    (canLower (s.region r) → ((forceLower s r 0).region r).vp = 0) ∧ ((s.region r).vp = 0 → ((forceLower s r 0).region r).vp = 0) := by
  unfold forceLower
  dsimp only
  split
  · rename_i hf
    refine ⟨h, rfl, ?_, id⟩
    intro l
    have := l.1
    rw [hf] at this; cases this
  · split
    · split
      · rw [region_upd]; exact ⟨h, rfl, fun _ => rfl, fun _ => rfl⟩
      · exact ⟨h, rfl, fun _ => by omega, id⟩
    · split
      · rename_i h1 h2
        refine ⟨h, rfl, fun l => ?_, id⟩
        rcases l.2.1 with k | k
        · rw [k] at h2; cases h2
        · exact absurd k h1
      · have hr : railUsable ((s.updRegion r (fun x => { x with target := min x.target 0 })).region r) := by rw [region_upd]; exact h
        have hl := lowerStart_self (s.updRegion r (fun x => { x with target := min x.target 0 })) r 0 hr
        have hu := region_upd s r (fun x => { x with target := min x.target 0 })
        split
        · split
          · rw [hl, hu]; exact ⟨.inr rfl, rfl, fun _ => rfl, fun _ => rfl⟩
          · rw [hu]; exact ⟨h, rfl, fun _ => by dsimp only; omega, id⟩
        · rename_i x hx
          split
          · rename_i hk
            split
            · rw [Nat.min_eq_right (Nat.zero_le _), hl, hu]; exact ⟨.inr rfl, rfl, fun _ => rfl, fun _ => rfl⟩
            · rename_i hd
              rw [hu]
              exact ⟨h, rfl, fun l => absurd (l.2.2 x hx hk) hd, id⟩
          · split
            · rw [hl, hu]; exact ⟨.inr rfl, rfl, fun _ => rfl, fun _ => rfl⟩
            · rw [hu]; exact ⟨h, rfl, fun _ => by dsimp only; omega, id⟩

theorem forceAll_low (l : List Nat) (s : State) (h : ∀ r ∈ l, railUsable (s.region r)) (q : Nat) (hq : q ∈ l) :
    ((s.region q).vp = 0 ∨ canLower (s.region q) → ((forceAll 0 l s).region q).vp = 0) ∧ ((forceAll 0 l s).region q).grant = (s.region q).grant := by
  have gen : ∀ (l : List Nat) (s : State), (∀ r ∈ l, railUsable (s.region r)) → 
      ((s.region q).vp = 0 ∨ (canLower (s.region q) ∧ q ∈ l) → ((forceAll 0 l s).region q).vp = 0) ∧ ((forceAll 0 l s).region q).grant = (s.region q).grant := by
    intro l
    induction l with
    | nil => intro s _; exact ⟨fun k => k.elim id (fun k => absurd k.2 (by simp)), rfl⟩
    | cons a t ih =>
      intro s h
      have ha := h a List.mem_cons_self
      have hs := forceLower_self s a ha
      have hn : ∀ r ∈ t, railUsable ((forceLower s a 0).region r) := by
        intro r hr
        by_cases e : r = a
        · rw [e]; exact hs.1
        · rw [forceLower_ne _ _ _ _ ha e]; exact h r (List.mem_cons_of_mem _ hr)
      have := ih (forceLower s a 0) hn
      unfold forceAll
      by_cases e : q = a
      · subst e
        exact ⟨fun k => this.1 (.inl (k.elim hs.2.2.2 (fun k => hs.2.2.1 k.1))), this.2.trans hs.2.1⟩
      · have hne := forceLower_ne s a q 0 ha e
        rw [hne] at this
        exact ⟨fun k => this.1 (k.elim .inl (fun k => .inr ⟨k.1, (List.mem_cons.mp k.2).resolve_left e⟩)), this.2⟩
  have := gen l s h
  exact ⟨fun k => this.1 (k.elim .inl (fun k => .inr ⟨k, hq⟩)), this.2⟩

theorem wakeStart_rise (s : State) (r : Nat) : (wakeStart s r).pac.riseLimit = s.pac.riseLimit := by
  unfold wakeStart
  dsimp only
  split
  · rfl
  · split
    · rfl
    · split
      · rw [show (regionFence s r).pac = s.pac from (regionFence_touch s r).same .pac (by decide)]
      · rfl

theorem wakeDeferred_rise (l : List Nat) (s : State) : (wakeDeferred l s).pac.riseLimit = s.pac.riseLimit := by
  induction l generalizing s with
  | nil => rfl
  | cons a t ih =>
    unfold wakeDeferred
    dsimp only
    rw [ih]
    split
    · rw [wakeStart_rise]; rfl
    · rfl

theorem pwrbrkFall_ok (s : State) : (mget (pwrbrkFall s).aon.inputs 0).active = false ∧
    (mget (pwrbrkFall s).aon.inputs 0).stuck = false ∧ (pwrbrkFall s).pac.riseLimit = true := by
  unfold pwrbrkFall
  rw [Touches.inputs_eq (wakeDeferred_touch ..) (by decide), wakeDeferred_rise]
  exact ⟨(inputFall_in s 0).1, (inputFall_in s 0).2, rfl⟩

theorem thermFall_ok (s : State) : (mget (thermFall s).aon.inputs 1).active = false ∧
    (mget (thermFall s).aon.inputs 1).stuck = false ∧ (thermFall s).pac.riseLimit = true :=
  ⟨(inputFall_in s 1).1, (inputFall_in s 1).2, rfl⟩

theorem chatterOne_inputs (s : State) (i n : Nat) : (chatterOne s i n).aon.inputs = mupd s.aon.inputs i (fun p => { p with chatter := decide (1000 < n) }) := by
  unfold chatterOne
  dsimp only
  split
  · rw [Touches.inputs_eq (raiseAlarm_touch ..) (by decide)]; rfl
  · rfl

theorem chatterAll_inputs (n : List Nat) (l : List Nat) (hn : l.Nodup) (s : State) (i : Nat) :
    mget (chatterAll (l.map (fun i => (i, n.getD i 0))) s).aon.inputs i =
      if i ∈ l then { mget s.aon.inputs i with chatter := decide (1000 < n.getD i 0) } else mget s.aon.inputs i := by
  induction l generalizing s with
  | nil => rfl
  | cons a t ih =>
    rw [List.nodup_cons] at hn
    simp only [List.map_cons, chatterAll]
    rw [ih hn.2, chatterOne_inputs]
    by_cases e : i = a
    · subst e; rw [mget_mupd_self, if_neg hn.1, if_pos List.mem_cons_self]
    · rw [mget_mupd_ne _ _ (Ne.symm e)]; simp [e]

end Sys2Proof.Machine
end

