-- ==== Sys2Proof/Tests/Slice0.lean ====
section
/-! SUPPORT. Tests of the model: an ill-formed term for each check of WellFormed, known answers, a few single steps, and for
every statement of Obligations.lean with hypotheses a state and operands that meet them (`wit_…`), at the ends of the ranges
where a clause has one. -/

set_option Elab.async false

namespace Sys2Proof
open Machine

/-! ### Well-formedness: a term that each check refuses, and one of every command that passes -/

theorem test_wf_refuses1 : ([
    .misalignedAccess (.host 2 0) 0 0 0 true, .misalignedAccess (.host 0 4) 0 0 0 true, .misalignedAccess .mp 1 0 0 true,
    .registerWrite 2 0 0 0 0, .registerWrite 0 4 0 0 0, .registerWrite 0 0 1 0 0, .counterLowRead (.host 2 0) 0 0,
    .counterLowRead (.host 0 4) 0 0, .counterLowRead .mp 1 0, .stoppedWindowAccess 2 0 0 0 true,
    .stoppedWindowAccess 0 4 0 0 true, .stoppedWindowAccess 0 0 8 0 true, .porDeassert true 4, .phaseSelftestEnd [256] [] [],
    .phaseSelftestEnd [] [32] [], .phaseSelftestEnd [] [] [8], .configRequest 2 0 0 none, .configRequest 0 4 0 none,
    .barMemoryRead 2 0 0 0, .barMemoryRead 0 4 0 0, .barMemoryRead 0 0 1 0, .tuneWrite 2 0 true, .tuneWrite 0 4 true,
    .tuneRead 2 0, .tuneRead 0 4, .tuneComplete 2 0, .tuneComplete 0 4, .moultSwitchTimeout 512, .ethLinkUp 2,
    .ethLinkDown 2, .frameReceive 2 [], .queryResponseTimer 2, .unsolicitedReportTimer 2 0, .unsolicitedReportTimer 0 512,
    .controlRateWindow 2, .nextHopTimeout 2 0, .sourceLockTimeout 512, .rtpGapTimeout 512, .rtpJumpTimeout 512,
    .pmtWaitTimeout 512, .injEnable 2 0, .injEnable 0 4, .injEnableDone 2 0, .injEnableDone 0 4, .injDisable 2 0] : List Instr).all (fun c => !c.wf) = true := by decide +kernel

theorem test_wf_refuses2 : ([
    .injDisable 0 4, .injPoll 2 0, .injPoll 0 4, .injTrailerTimeout 2 0, .injTrailerTimeout 0 4, .injHeaderTimeout 2 0,
    .injHeaderTimeout 0 4, .injConsumerWrite 2 0, .injConsumerWrite 0 4, .alignmentTimeout 512 0, .parseAhead 512 default,
    .decodeSwitch 8 0 0 true, .blockCycleLimit 8 0, .pictureBudgetExceeded 8 0 true, .pictureDecoded 8 0 default,
    .resamplePicture 4, .resampleDone 4, .batchAdmit 8, .invocationRunnable 0 5, .invocationResident 8 0 0,
    .invocationResident 0 0 5, .stripeClaim 0 32, .semaphoreSignal 32 0 0, .semaphoreWait 32 0 0 0, .semaphoreWait 0 0 256 0,
    .semaphoreReset 32 0, .waitRetry 32 0 0 0, .waitRetry 0 0 256 0, .commandWrite 256 default,
    .commandWrite 0 ({ (default : CellCmd) with unit := 3 }), .commandWrite 0 ({ (default : CellCmd) with picture := 8 }),
    .commandWrite 0 ({ (default : CellCmd) with cycles := 385 }), .commandIssue 256 0, .commandIssue 0 3,
    .commandComplete 256 0, .commandComplete 0 3, .cellEccError 256 .clean, .residueMismatch 256,
    .cellSelftestReturn 256 true, .mapperWatchdog 32, .blockRestart 32, .regionFault 8 0,
    .contextRecordAccess 2097152 .read .clean, .trackPicture 512, .chrysalisRestore 0 32 true] : List Instr).all (fun c => !c.wf) = true := by decide +kernel

theorem test_wf_refuses3 : ([
    .eviction 32, .residencyWaitTimeout 32, .adapterStepStart 512, .adapterStepCommit 512, .searchStart 512,
    .searchCommit 512, .codebookUpdate 512, .recordEncode 512, .recordEmit 512, .ringConsumerRead 2 0 0 (.failed .timedOut),
    .ringConsumerRead 0 4 0 (.failed .timedOut), .ringConsumerRead 0 0 16 (.failed .timedOut), .ringHoldTimeout 2 0 0, .ringHoldTimeout 0 4 0,
    .ringHoldTimeout 0 0 16, .ringIrqDelay 2 0 0, .ringIrqDelay 0 4 0, .ringIrqDelay 0 0 16, .ringBind 2 0, .ringBind 0 4,
    .ringUnbind 2 0, .ringUnbind 0 4, .irqStatusClear 2 0 0 0, .irqStatusClear 0 4 0 0, .intaChange 2, .counterPush 8,
    .dramRequest ({ (default : DramReq) with router := 16 }) .clean,
    .dramRequest ({ (default : DramReq) with part := 9 }) .clean,
    .dramRequest ({ (default : DramReq) with data := zeros 33 }) .clean,
    .dramRequest ({ (default : DramReq) with salt := 65536 }) .clean, .refreshDue 64 0, .refreshDue 0 48,
    .bankIdleTimeout 64 0, .bankIdleTimeout 0 48, .patrolRead 64 .clean, .bpmAllocate 9 0, .bpmAllocate 0 16, .bpmFree 9 0,
    .bpmShare 9 0 0, .bpmShare 0 0 512, .bpmZeroIdle 16, .powerSample ⟨List.replicate 7 0, 0⟩, .vfTransitionEnd 8,
    .pgoodTimeout 8, .pgoodLow 8] : List Instr).all (fun c => !c.wf) = true := by decide +kernel

theorem test_wf_refuses4 : ([
    .regionPark 8, .regionWake 8, .wakeComplete 8, .parkHoldWrite 2 0, .tempSensorRead 8 0 0,
    .chatterWindow [0, 0, 0, 0, 0, 0], .inputStuck 5, .inputStuckRelease 5, .flr 2 0, .flr 0 4, .flrComplete 2 0,
    .flrComplete 0 4, .hotReset 2, .dlDown 2, .perstAssert 2, .perstDeassert 2, .pcieLinkUp 2 1 1, .pcieLinkUp 0 0 1,
    .pcieLinkUp 0 1 0, .pcieLinkUp 0 1 9, .dStateChange 2 0 0, .dStateChange 0 4 0, .dStateChange 0 0 4, .pmeTurnOff 2,
    .pmeSignal 2 0, .pmeSignal 0 4, .pmeRepeat 2 0, .pmeRepeat 0 4, .unitFault 24 0, .controllerRestart 24,
    .controllerResume 24, .eventStage ⟨256, 0, 1, 0, 0, 0⟩, .eventStage ⟨0, 256, 1, 0, 0, 0⟩, .eventStage ⟨0, 0, 0, 0, 0, 0⟩,
    .eventStage ⟨0, 0, 6, 0, 0, 0⟩, .traceExponentTick 10, .mpSetPointer 4294967296 true, .mpRemoveEvents 256 true,
    .attGo 2 0, .attGo 0 4, .barMemoryWrite 2 0 0 [] true, .barMemoryWrite 0 4 0 [] true, .arrayCreditRefill 8 [], .arrayCreditRefill 0 [8], .regionStoreEccError 8 0] : List Instr).all (fun c => !c.wf) = true := by decide +kernel

theorem test_wf_refuses5 : ([
    .nocLinkCrcError 16, .blockRestartDone 32, .unitRestartDone 24] : List Instr).all (fun c => !c.wf) = true := by decide +kernel

theorem test_wf_refuses_long_frame : Instr.wf (.frameReceive 0 (List.replicate 16385 0)) = false := by
  show (wfNp 0 && wfFrame (List.replicate 16385 0)) = false
  rw [show wfFrame (List.replicate 16385 0) = false by unfold wfFrame; rw [List.length_replicate]; rfl]
  rfl

theorem test_wf_accepts1 : ([
    .misalignedAccess .mp 0 0 0 true, .registerWrite 0 0 0 0 0, .counterLowRead .mp 0 0, .stoppedWindowAccess 0 0 0 0 true,
    .porAssert, .porDeassert true 0, .phaseFuseEnd, .phaseDramEnd true true, .phaseFlashEnd, .phaseVerifyEnd, .phaseCheckEnd,
    .phaseLoadEnd, .phaseSelftestEnd [] [] [], .phasePortsEnd, .phaseTimeout, .configRequest 0 0 0 none,
    .barMemoryRead 0 0 0 0, .tuneWrite 0 0 true, .tuneRead 0 0, .tuneComplete 0 0, .moultGo true, .moultAbort,
    .moultFetchEnd (.failed .timedOut), .moultVerifyEnd, .moultCheckEnd, .moultStageEnd, .moultSwitchTimeout 0, .flashProgram,
    .flashSelect, .flashEraseDone, .flashHostReadDone (.failed .timedOut), .flashPageProgramDone true, .flashReadbackDone,
    .flashOpTimeout, .xspiDqsTimeout, .ethLinkUp 0, .ethLinkDown 0, .frameReceive 0 [], .queryResponseTimer 0,
    .unsolicitedReportTimer 0 0, .controlRateWindow 0, .nextHopTimeout 0 0, .bucketRefill, .sourceLockTimeout 0,
    .rtpGapTimeout 0, .rtpJumpTimeout 0, .pmtWaitTimeout 0, .injEnable 0 0, .injEnableDone 0 0, .injDisable 0 0,
    .injPoll 0 0, .injTrailerTimeout 0 0, .injHeaderTimeout 0 0, .injConsumerWrite 0 0, .alignmentTimeout 0 0,
    .parseAhead 0 default, .decodeSwitch 0 0 0 true, .blockCycleLimit 0 0, .pictureBudgetExceeded 0 0 true,
    .pictureDecoded 0 0 default, .resamplePicture 0, .resampleDone 0, .batchTimeout 0, .batchAdmit 0,
    .invocationRunnable 0 0, .invocationResident 0 0 0, .stripeClaim 0 0, .semaphoreSignal 0 0 0, .semaphoreWait 0 0 0 0,
    .semaphoreReset 0 0, .waitRetry 0 0 0 0, .commandWrite 0 default, .commandIssue 0 0, .commandComplete 0 0,
    .cellEccError 0 .clean, .residueMismatch 0, .cellSelftestReturn 0 true, .mapperWatchdog 0, .blockRestart 0,
    .regionFault 0 0, .weightPrefetch 0 0, .spillWaveStart 0 0, .contextRecordAccess 0 .read .clean, .trackPicture 0,
    .chrysalisCapture 0, .chrysalisRestore 0 0 true, .eviction 0, .residencyWaitTimeout 0, .adapterStepStart 0,
    .adapterStepCommit 0] : List Instr).all Instr.wf = true := by decide +kernel

theorem test_wf_accepts2 : ([
    .searchStart 0, .searchCommit 0, .codebookUpdate 0, .recordEncode 0, .recordEmit 0, .ringConsumerRead 0 0 0 (.failed .timedOut),
    .ringHoldTimeout 0 0 0, .ringIrqDelay 0 0 0, .ringBind 0 0, .ringUnbind 0 0, .irqStatusClear 0 0 0 0, .intaChange 0,
    .regulatorUpdate, .counterPush 0, .dramRequest default .clean, .poisonedDataReceive (.context 0), .refreshDue 0 0,
    .bankIdleTimeout 0 0, .patrolRead 0 .clean, .imbalanceWindow, .bpmAllocate 0 0, .bpmFree 0 0, .bpmShare 0 0 0,
    .bpmZeroIdle 0, .tokenGrant, .powerSample ⟨List.replicate 8 0, 0⟩, .vfChoice, .vfTransitionEnd 0, .pgoodTimeout 0,
    .pgoodLow 0, .regionPark 0, .regionWake 0, .wakeComplete 0, .parkHoldWrite 0 0, .pwrbrkAssert, .pwrbrkRelease,
    .thermInAssert, .thermInRelease, .tempSensorRead 0 0 0, .chatterWindow [], .inputStuck 0, .inputStuckRelease 0, .flr 0 0,
    .flrComplete 0 0, .hotReset 0, .dlDown 0, .perstAssert 0, .perstDeassert 0, .pcieLinkUp 0 1 1, .dStateChange 0 0 0,
    .pmeTurnOff 0, .pmeSignal 0 0, .pmeRepeat 0 0, .unitFault 0 0, .controllerRestart 0, .controllerResume 0,
    .eventStage ⟨0, 0, 1, 0, 0, 0⟩, .traceExponentTick 0, .telemetryPacketSend, .summaryTimer, .mpIdentify,
    .mpSetPointer 0 true, .mpReadRegisters, .mpReadEvents, .mpRemoveEvents 0 true, .mpAlertResponse, .smbusClockTimeout,
    .keyGo, .keyBurnDone true, .attGo 0 0, .attSignStart, .attSignDone, .barMemoryWrite 0 0 0 [] true,
    .arrayCreditRefill 0 [], .keyReadDone (.failed .timedOut), .regionStoreEccError 0 0, .nocLinkCrcError 0, .blockRestartDone 0,
    .unitRestartDone 0] : List Instr).all Instr.wf = true := by decide +kernel

/-! ### States for the witnesses -/

/-- `n` bytes, zero but for the strings listed with their offsets. -/
def wBytes (n : Nat) (l : List (Nat × Bytes)) : Bytes := (List.range n).map (fun i =>
  match l.find? (fun p => decide (p.1 ≤ i) && decide (i < p.1 + p.2.length)) with
  | some p => p.2.getD (i - p.1) 0
  | none => 0)

/-- Stream slot 0: partition 0, NP0, codec 2, RTP over transport stream, 64 × 64, to 239.0.0.1 port 5004. -/
def wStream : Bytes := wBytes 128 [(3, [0, 2, 8, 2]), (8, toLe 2 64 ++ toLe 2 64 ++ toLe 2 480), (0x10, toLe 4 1000 ++ toLe 4 100000 ++
  toLe 4 100000 ++ toLe 4 16), (0x32, [0xFF, 0xFF, 239, 0, 0, 1] ++ toLe 2 5004), (0x3D, [1]), (0x53, [0])]
def wPart0 : Bytes := wBytes 64 [(0x14, toLe 4 4096 ++ toLe 4 16 ++ toLe 4 16)]
/-- Partition 1: function 1 of HPA, batch class, pinned to region 0. -/
def wPart1 : Bytes := wBytes 64 [(0, [1, 0, 1, 1, 1, 1]), (0x14, toLe 4 4096 ++ toLe 4 16 ++ toLe 4 16)]
/-- Pools of 4 KiB and of 1 MiB, 16 buffers each. -/
def wPool : Bytes := wBytes 16 [(0, [12]), (4, toLe 4 16 ++ toLe 4 2)]
def wPool1 : Bytes := wBytes 16 [(0, [20]), (4, toLe 4 16 ++ toLe 4 2)]
def wNet : Bytes := wBytes 128 [(0, [1]), (2, toLe 2 1500), (7, [1, 2, 0, 0, 0, 0, 1]), (0x10, [10, 0, 0, 1, 24])]
def wPac : Bytes := wBytes 64 [(0, toLe 2 400), (8, [7, 7, 7, 7, 7, 7, 7, 7]), (0x18, [0xFF])]
def wTele : Bytes := wBytes 64 [(0, [7, 0, 0, 0]), (4, toLe 2 100 ++ toLe 2 6000), (0x12, [0xFF, 0xFF, 10, 0, 0, 9]), (0x18, toLe 4 0xFFFFFFFF ++ toLe 4 0xFFFFFFFF)]
/-- Parameter 1 (the power cap): device scope, 0 to 1,000. -/
def wTune : Bytes := wBytes 32 [(0, toLe 2 1), (0xC, toLe 4 1000)]
/-- Parameter 0x0012 (adapter training) of partition 0: 0 or 1. -/
def wTunePart : Bytes := wBytes 32 [(0, toLe 2 0x12 ++ [1]), (0xC, toLe 4 1)]
/-- A teacher of one layer: ReLU of its 8-bit picture input; one Instar of 64 × 64, and an adaptation head of interval 1. -/
def wGraph : Bytes := wBytes 0x110 [(7, [1]), (8, toLe 2 2 ++ toLe 2 1), (0xE, [1]), (0x18, toLe 4 0x40 ++ toLe 4 0x80), (0x24, toLe 4 0xC0),
  (0x30, toLe 4 0xD0), (0x43, [2, 3]), (0x48, [1, 0, 1, 0, 1, 0, 1]), (0x62, [1, 2, 3]), (0x68, [1, 0, 1, 0, 1, 0, 1]),
  (0x80, [8, 0, 0xFF, 0xFF, 0, 0, 0xFF, 0xFF, 0xFF, 0xFF, 0xFF, 0xFF, 1]), (0xC2, [64, 0, 64]), (0xEC, [1])]
def wCfg : Sections := ⟨[wStream], [], [wPart0, wPart1], [wPool, wPool1], [wNet], wPac, wTele, [wTune, wTunePart], [(0, wGraph)], [], [], []⟩

/-- POR_N inactive, a start-up phase. -/
def wPhase (p : Nat) : State := { State.reset with por := false, scu := { State.reset.scu with phase := p } }
/-- Imago with the configuration `wCfg`; functions 0 and 1 of HPA take accesses. -/
def wImago : State := { State.reset with
  por := false, scu := { State.reset.scu with phase := 9, cfg := some wCfg }
  fns := [(0, { (default : Fn) with memEnable := true, bme := true }), (1, { (default : Fn) with memEnable := true })]
  ports := [(0, { (default : HostPort) with link := 1 })]
  regions := (List.range 8).map (fun r => (r, { (default : Region) with awake := true, pgood := true })) }
/-- Held. -/
def wHeld : State := { wImago with scu := { State.reset.scu with phase := 0xE, cause := 5, bootTime := 7 } }

theorem wit_states : legalPhase (wPhase 1) ∧ legalPhase wImago ∧ legalPhase wHeld ∧ wImago.imago = true ∧ wHeld.held = true := by
  unfold legalPhase; decide +kernel

/-! ### Known answers: published check values, and worked examples of the spec -/

theorem test_shake256 : (digest64 []).take 8 = [0x46, 0xB9, 0xDD, 0x2B, 0x0B, 0xA8, 0x8D, 0x13] := by decide +kernel

/-- The check values of the two CRCs, over the nine digits. -/
theorem test_crcs : crc32 ([0x31, 0x32, 0x33, 0x34, 0x35, 0x36, 0x37, 0x38, 0x39] : Bytes) = 0xCBF43926 ∧
    crc32c ([0x31, 0x32, 0x33, 0x34, 0x35, 0x36, 0x37, 0x38, 0x39] : Bytes) = 0xE3069283 := by decide +kernel

/-- R167: 0.3 in each 8-bit and 16-bit float format; 500 saturates E4M3 and not E5M2. -/
theorem test_convert : (convTo 6 (f32 0x3E99999A)).code = 0x2A ∧ (convTo 7 (f32 0x3E99999A)).code = 0x35 ∧
    (convTo 9 (f32 0x3E99999A)).code = 0x3E9A ∧ (convTo 8 (f32 0x3E99999A)).code = 0x34CD ∧
    ((convTo 6 (flInt 500)).code, (convTo 6 (flInt 500)).sat) = (0x7E, true) ∧
    ((convTo 7 (flInt 500)).code, (convTo 7 (flInt 500)).sat) = (0x60, false) := by decide +kernel

/-- R169: the unit products in groups of their own are lost to rounding, and those in the first group are not. -/
theorem test_reduce :
    let row (l : List Nat) : List Fl := (List.range 96).map (fun k => if k = 0 then flInt 16777216 else if l.contains k then flOne else flZero)
    f32Code (fpReduce flZero (row [32, 64])) = 0x4B800000 ∧ f32Code (fpReduce flZero (row [1, 2])) = 0x4B800001 := by decide +kernel

/-- Cell 77 belongs to block 9, which belongs to RG2. -/
theorem test_cell : blockOfCell 77 = 9 ∧ regionOfBlock 9 = 2 ∧ blocksOfRegion 2 = [8, 9, 10, 11] := by decide +kernel

/-- R118: 65,536 burst bytes are a bucket of 52,428,800 units. -/
theorem test_bucket : bucketDepth (wBytes 0x80 [(0x14, toLe 4 65536)]) = 52428800 := by decide +kernel

/-- R361: 97 W for eight regions bring three of them to VP7 and five to VP6. -/
theorem test_vfChoose : (vfChoose (flInt 97) flOne ((List.range 8).map (fun r => ⟨r, 0, 7, 0⟩))).map (·.2.1) = [7, 7, 7, 6, 6, 6, 6, 6] := by
  decide +kernel

/-! ### Single steps -/

/-- The command at the front runs, the rest of the queue waits. -/
theorem test_step_front : ∃ t, step { wPhase 1 with pending := [.phaseFuseEnd, .bucketRefill] } = .next t ∧ t.scu.phase = 2 ∧
    t.pending = [.bucketRefill] := ⟨_, rfl, by decide +kernel, by decide +kernel⟩

/-- R41: with nothing to run, AON_TIME counts. -/
theorem test_step_idle : ∃ t, step (wPhase 1) = .next t ∧ t.now = 1 := ⟨_, rfl, by decide +kernel⟩

/-- The opcode table gives no bits, so no word spells a command. -/
theorem test_no_bits : decodeTableWord 32 0 = none ∧ (State.reset.withFetchWord 32 0) = State.reset := by decide +kernel

/-! ### Every command -/

theorem wit_IdleStep : State.reset.pending = [] ∧ wImago.pending = [] ∧ State.reset.por = true ∧ wImago.por = false := by decide +kernel

theorem wit_StepKeepsMemories : State.reset.memWf ∧ ∃ t, step State.reset = .next t := ⟨by unfold State.memWf; decide +kernel, _, rfl⟩

theorem wit_StepKeepsLegalPhase : legalPhase wImago ∧ ∃ t, step wImago = .next t := ⟨by unfold legalPhase; decide +kernel, _, rfl⟩

theorem wit_CommandChangesOnlyItsReach : ∃ t, exec .porAssert wImago = .next t := ⟨_, rfl⟩

theorem wit_CommandKeepsIdentity : boots .bucketRefill = false ∧ burns .bucketRefill = false ∧
    ∃ t, exec .bucketRefill wImago = .next t := ⟨rfl, rfl, _, rfl⟩

theorem wit_HeldIsLeftOnlyThroughPor : legalPhase wHeld ∧ wHeld.held = true ∧ (∃ t, step wHeld = .next t) ∧
    wHeld.pending.head? ≠ some .porAssert := ⟨by unfold legalPhase; decide +kernel, by decide +kernel, ⟨_, rfl⟩, by decide +kernel⟩

/-- R449: both straps, at the highest SMBus address that they select. -/
theorem wit_StrapsSampledOnce : State.reset.por = true ∧ (3 : Nat) < 4 ∧ wImago.por = false ∧
    Instr.bucketRefill ≠ .porAssert ∧ ∃ t, exec .bucketRefill wImago = .next t :=
  ⟨rfl, by decide, rfl, by decide, _, rfl⟩

/-! ### Start-up -/

/-- POR_N with nothing under way, in the erase of a header sector, and in a burn. -/
theorem wit_Por : wImago.flash.state ≠ 1 ∧ wImago.key.state ≠ 3 ∧
    ({ wImago with flash := { wImago.flash with state := 1 } } : State).flash.state = 1 ∧ State.reset.por = true := by decide +kernel

theorem wit_FuseDram : (wPhase 1).scu.phase = 1 ∧ (wPhase 2).scu.phase = 2 ∧ 1 ≤ (wPhase 1).scu.phase ∧ (wPhase 8).scu.phase ≤ 8 := by
  decide +kernel

/-- Bank A holds a header of an empty image whose digest is right, bank B nothing. -/
def wBank : State := { wPhase 3 with flash := { State.reset.flash with
  cells := cellWriteBytes 0xFF [] 0 (bankHeaderBytes 1 0 (digest64 [])) } }
/-- The same with a digest that is not the image's. -/
def wBankBad : State := { wPhase 3 with flash := { State.reset.flash with
  cells := cellWriteBytes 0xFF [] 0 (bankHeaderBytes 1 0 (zeros 64)) } }

theorem wit_FlashPhase_none : (wPhase 3).scu.phase = 3 ∧ bankHeaderOk (bankHeader (wPhase 3) 0) = false ∧
    bankHeaderOk (bankHeader (wPhase 3) 1) = false := by decide +kernel

theorem wit_FlashPhase_good : wBank.scu.phase = 3 ∧ bankHeaderOk (bankHeader wBank 0) = true ∧
    bankHeaderOk (bankHeader wBank 1) = false ∧
    digest64 (cellReadBytes flashErased wBank.flash.cells (bankImage 0) (bhLength (bankHeader wBank 0))) = bhDigest (bankHeader wBank 0) := by
  decide +kernel

theorem wit_FlashPhase_digest : wBankBad.scu.phase = 3 ∧ bankHeaderOk (bankHeader wBankBad 0) = true ∧
    bankHeaderOk (bankHeader wBankBad 1) = false ∧
    digest64 (cellReadBytes flashErased wBankBad.flash.cells (bankImage 0) (bhLength (bankHeader wBankBad 0))) ≠
      bhDigest (bankHeader wBankBad 0) := by
  decide +kernel

/-- Two valid headers: the higher generation, and bank A of two equal ones. -/
theorem wit_FlashPhase_two :
    let s (a b : Nat) : State := { wPhase 3 with flash := { State.reset.flash with
      cells := cellWriteBytes 0xFF (cellWriteBytes 0xFF [] 0 (bankHeaderBytes a 0 (zeros 64))) 0x04000000 (bankHeaderBytes b 0 (zeros 64)) } }
    (bankHeaderOk (bankHeader (s 1 2) 0) = true ∧ bankHeaderOk (bankHeader (s 1 2) 1) = true ∧
      bhGeneration (bankHeader (s 1 2) 0) < bhGeneration (bankHeader (s 1 2) 1)) ∧
    bankHeaderOk (bankHeader (s 2 2) 0) = true ∧ bankHeaderOk (bankHeader (s 2 2) 1) = true ∧
      bhGeneration (bankHeader (s 2 2) 1) = bhGeneration (bankHeader (s 2 2) 0) := by decide +kernel

theorem wit_Verify : (wPhase 4).scu.phase = 4 ∧ imageVerifyCause (wPhase 4) ((wPhase 4).scu.staging.getD []) = 0x07 := by decide +kernel

theorem wit_Check : (wPhase 5).scu.phase = 5 ∧ imageCheckCause (wPhase 5) ((wPhase 5).scu.staging.getD []) = 0x0C := by decide +kernel

/-- Phase LOAD and phase SELFTEST's boundary cells, blocks and regions. -/
theorem wit_LoadSelftestPorts : { wImago with scu := (wPhase 6).scu }.scu.phase = 6 ∧
    (∀ r < 8, ({ wImago with scu := (wPhase 6).scu }.region r).fenced = false ∧
      ({ wImago with scu := (wPhase 6).scu }.region r).pgood = true) ∧
    (wPhase 7).scu.phase = 7 ∧ (0 ∈ [0, 255] ∧ 255 ∈ [0, 255] ∧ 255 < 256) ∧ (31 ∈ [31] ∧ 31 < 32) ∧ (7 ∈ [7] ∧ 7 < 8) ∧
    (wPhase 8).scu.phase = 8 := by decide +kernel

/-! ### Registers -/

/-- Every selector of BAR0 is in the list, at function 0 and function 1 of HPA. -/
theorem wit_Selector : wImago.por = false ∧ fnTakes wImago 0 0 = true ∧ fnTakes wImago 0 1 = true ∧
    ((0x0FD000, 0xF) ∈ selectors) ∧ ((0x0FEA00, 0x000F000F) ∈ selectors) := by decide +kernel

theorem wit_CounterLow : wImago.por = false ∧ fnTakes wImago 0 0 = true ∧
    ∀ off ∈ [0x0FD024, 0x0FE004, 0x0FE204, 0x0FE304, 0x0FE404, 0x0FE504, 0x0FE604, 0x0FE704, 0x0FE804, 0x0FE904, 0x0FEA04],
      (bar0Pair wImago 0 0 off).isSome = true := by decide +kernel

theorem wit_CounterLow_value : wImago.por = false ∧ fnTakes wImago 0 0 = true ∧ bar0Pair wImago 0 0 0x0FD024 = some 0 := by decide +kernel

/-- A misaligned offset, and an aligned one of the wrong size, of BAR0 and BAR4. -/
theorem wit_Misaligned : wImago.por = false ∧ fnTakes wImago 0 0 = true ∧ barExists wImago 0 0 = true ∧ barExists wImago 0 4 = true ∧
    ¬((4 : Nat) = 4 ∧ 2 % 4 = 0) ∧ ¬((2 : Nat) = 4 ∧ 0 % 4 = 0) := by decide +kernel

theorem wit_StoppedWindow : fnTakes (wImago.updRegion 3 (fun x => { x with awake := false })) 0 0 = true ∧
    ((wImago.updRegion 3 (fun x => { x with awake := false })).region 3).awake = false := by decide +kernel

/-- A ring of 1 MiB, enabled. -/
def wInj : State := wImago.updInj 0 0 (fun i => { i with enabled := true, log2 := 20, seq := 5, gen := 1 })

theorem wit_InjectionWindow : wInj.por = false ∧ wInj.imago = true ∧ fnTakes wInj 0 0 = true ∧ (wInj.inj 0 0).enabled = true ∧ wInj.memWf := by
  unfold State.memWf; decide +kernel

theorem wit_Configuration : wImago.por = false ∧ wImago.imago = true ∧ configReady wImago 0 0 = true ∧ configReady wImago 0 1 = true ∧
    (wImago.fn 0 0).dstate = 0 ∧ linkUp (wImago.port 0) = true ∧ fnTakes wImago 0 0 = true := by decide +kernel

/-! ### Tunables and Moult -/

theorem wit_Tunable_issue : (fnTakes wImago 0 0 = true ∧ wImago.scu.restarting = false ∧ wImago.held = false ∧
    (wImago.fn 0 0).tuneCmd = none) ∧ fnTakes wHeld 0 0 = true ∧ wHeld.scu.restarting = false ∧ wHeld.held = true ∧
    (wHeld.fn 0 0).tuneCmd = none := by decide +kernel

/-- A write of parameter 1 with 400 in progress: a command of its own outcome 0x00. -/
def wTuning : State := wImago.updFn 0 0 (fun f => { f with tuneCmd := some ⟨1, 1, 400, 0⟩ })

theorem wit_Tunable_busy : fnTakes wTuning 0 0 = true ∧ wTuning.scu.restarting = false ∧ (wTuning.fn 0 0).tuneCmd ≠ none := by
  decide +kernel

/-- A write and a read of the device's parameter, and a write with readback of the partition's. -/
theorem wit_Tunable_complete : (wTuning.scu.restarting = false ∧ (wTuning.fn 0 0).tuneCmd = some ⟨1, 1, 400, 0⟩ ∧
      tuneDecl wTuning 0 0 1 = some wTune ∧ tuScope wTune = 0) ∧
    ((wImago.updFn 0 0 (fun f => { f with tuneCmd := some ⟨2, 1, 0, 0⟩ })).fn 0 0).tuneCmd = some ⟨2, 1, 0, 0⟩ ∧
    ((wImago.updFn 0 0 (fun f => { f with tuneCmd := some ⟨3, 0x12, 1, 0⟩ })).fn 0 0).tuneCmd = some ⟨3, 0x12, 1, 0⟩ ∧
      tuneDecl (wImago.updFn 0 0 (fun f => { f with tuneCmd := some ⟨3, 0x12, 1, 0⟩ })) 0 0 0x12 = some wTunePart ∧
      tuScope wTunePart ≠ 0 ∧ planSlots wImago (tuPart wTunePart) = [0] := by decide +kernel

/-- A command whose outcome is 0x02 changes the function alone. -/
theorem wit_Tunable_refused : (wImago.updFn 0 0 (fun f => { f with tuneCmd := some ⟨1, 1, 4000, 2⟩ })).scu.restarting = false ∧
    ((wImago.updFn 0 0 (fun f => { f with tuneCmd := some ⟨1, 1, 4000, 2⟩ })).fn 0 0).tuneCmd = some ⟨1, 1, 4000, 2⟩ ∧ (2 : Nat) ≠ 0 := by
  decide +kernel

/-- R44: the greatest value that the declaration allows is taken, the next one refused with 0x04, one from another function than
PF0 of HPA with 0x02, and an undeclared parameter with 0x01. -/
theorem test_tune_range : tuneCheck wImago 0 0 1 1 1000 = 0 ∧ tuneCheck wImago 0 0 1 1 1001 = 4 ∧
    tuneCheck wImago 0 1 1 1 1000 = 2 ∧ tuneCheck wImago 0 0 1 7 0 = 1 := by
  decide +kernel

/-- A container of exactly 64 MiB, and one of 64 MiB and 16 bytes. -/
def wMoultLen (n : Word) : State := wImago.updFn 0 0 (fun f => { f with regs := mput f.regs offMoultLen n })

theorem wit_Moult_go : fnTakes (wMoultLen 0x4000000) 0 0 = true ∧ (wMoultLen 0x4000000).held = false ∧
    (wMoultLen 0x4000000).scu.restarting = false ∧ moultBusy (wMoultLen 0x4000000) = false ∧
    moultLen (wMoultLen 0x4000000) = 64 * 2 ^ 20 ∧ fnTakes (wMoultLen 0x4000010) 0 0 = true ∧ (wMoultLen 0x4000010).held = false ∧
    (wMoultLen 0x4000010).scu.restarting = false ∧ moultBusy (wMoultLen 0x4000010) = false ∧
    64 * 2 ^ 20 < moultLen (wMoultLen 0x4000010) := by decide +kernel

/-- A Moult in a state, with a container. -/
def wMoult (st : Nat) (b : Bytes) : State := { wImago with moult := { wImago.moult with state := st, container := b } }

theorem wit_Moult_early : ∀ st ∈ [1, 4], fnTakes (wMoult st []) 0 0 = true ∧ (wMoult st []).held = false ∧
    (wMoult st []).scu.restarting = false ∧ moultEarly (wMoult st []) = true := by decide +kernel

theorem wit_Moult_fetch : (wMoult 1 []).moult.state = 1 ∧ hpaData (wMoult 1 []) (.failed .timedOut) (moultLen (wMoult 1 [])) = none ∧
    hpaData (wMoult 1 []) (.data []) (moultLen (wMoult 1 [])) = some [] := by decide +kernel

theorem wit_Moult_verify : (wMoult 2 []).moult.state = 2 ∧ moultVerifyCause (wMoult 2 []) (wMoult 2 []).moult.container = 0x07 := by
  decide +kernel

theorem wit_Moult_check : (wMoult 3 []).moult.state = 3 ∧ moultCheckCause (wMoult 3 []) (wMoult 3 []).moult.container ≠ 0 := by
  decide +kernel

/-- A Moult in STAGE that brings graph 0 anew, with both stacks in service and with none. -/
def wStage (up : Bool) : State := { wMoult 4 [] with
  scu := { wImago.scu with stack0 := up, stack1 := up }, moult := { (wMoult 4 []).moult with next := some wCfg } }

theorem wit_Moult_stage : ∀ up ∈ [true, false], (wStage up).moult.state = 4 ∧ (wStage up).moult.next = some wCfg ∧
    (stagePlaces (wStage up) (newGraphs wCfg) (placedRanges (wStage up))).isSome = up := by decide +kernel

/-- A Moult in SWITCH from `wCfg` to a configuration without slot 0, with another quota of frames for it, or with it in another
partition; slot 511 is in neither. -/
def wSwitch (l : List Bytes) : State := { wMoult 5 [] with
  scu := { wImago.scu with cfg := some { wCfg with streams := l } }
  moult := { (wMoult 5 []).moult with waiting := [0, 511], olds := [(0, wCfg)] } }
def wStreamSoft : Bytes := wStream.set 0x18 1
def wStreamPart : Bytes := wStream.set 2 1

theorem wit_Moult_switch : (∀ l ∈ [[], [wStreamSoft], [wStreamPart]], (wSwitch l).moult.state = 5 ∧ 0 ∈ (wSwitch l).moult.waiting ∧
      511 ∈ (wSwitch l).moult.waiting) ∧
    switchKind ((wSwitch []).cfgAt 0) (wSwitch []).run 0 = .removed ∧
    switchKind ((wSwitch [wStreamSoft]).cfgAt 0) (wSwitch [wStreamSoft]).run 0 = .continues ∧
    switchKind ((wSwitch [wStreamPart]).cfgAt 0) (wSwitch [wStreamPart]).run 0 = .readded := by decide +kernel

/-! ### Flash -/

def wFlashLen (n : Word) : State := wImago.updFn 0 0 (fun f => { f with regs := mput f.regs offFlashLen n })

theorem wit_Flash_program : fnTakes (wFlashLen 0x03FFF000) 0 0 = true ∧ (wFlashLen 0x03FFF000).scu.restarting = false ∧
    flashBusy (wFlashLen 0x03FFF000) = false ∧ flashLen (wFlashLen 0x03FFF000) = 0x03FFF000 ∧
    fnTakes (wFlashLen 0x03FFF001) 0 0 = true ∧ (wFlashLen 0x03FFF001).scu.restarting = false ∧
    flashBusy (wFlashLen 0x03FFF001) = false ∧ 0x03FFF000 < flashLen (wFlashLen 0x03FFF001) := by decide +kernel

/-- The flash in a state of the operation, on bank B, with an image. -/
def wFlash (st : Nat) (b : Option Bytes) : State := { wImago with flash := { wImago.flash with state := st, target := 1, image := b } }

theorem wit_Flash_erase : (wFlash 1 none).flash.state = 1 ∧ (wFlash 1 none).memWf := by unfold State.memWf; decide +kernel

theorem wit_Flash_read : (wFlash 2 none).flash.state = 2 ∧ (wFlash 2 none).flash.image = none ∧
    hpaData (wFlash 2 none) (.failed .timedOut) (flashLen (wFlash 2 none)) = none ∧
    hpaData (wFlash 2 none) (.data []) (flashLen (wFlash 2 none)) = some [] := by decide +kernel

/-- A last page of one byte. -/
theorem wit_Flash_page : (wFlash 2 (some [7])).flash.state = 2 ∧ (wFlash 2 (some [7])).flash.image = some [7] ∧ (wFlash 2 (some [7])).memWf := by
  unfold State.memWf; decide +kernel

/-- The read-back of a byte that was not programmed, and that of an empty image, which fails the first check. -/
theorem wit_Flash_readback :
    ((wFlash 3 (some [7])).flash.state = 3 ∧ (wFlash 3 (some [7])).flash.image = some [7] ∧
      digest64 (cellReadBytes 0xFF (wFlash 3 (some [7])).flash.cells (bankImage (wFlash 3 (some [7])).flash.target) 1) ≠ digest64 [7]) ∧
    (wFlash 3 (some [])).flash.image = some [] ∧ precheckCause (wFlash 3 (some [])) [] = 0x07 := by decide +kernel

theorem wit_Flash_select : fnTakes (wFlash 5 (some [])) 0 0 = true ∧ (wFlash 5 (some [])).scu.restarting = false ∧
    (wFlash 5 (some [])).flash.state = 5 ∧ (wFlash 5 (some [])).flash.image = some [] ∧ (wFlash 5 (some [])).memWf := by
  unfold State.memWf; decide +kernel

theorem wit_Flash_timeout : (wFlash 1 none).flash.state = 1 ∧ (wFlash 2 none).flash.state = 2 := by decide +kernel

/-- R54: a bank header is 128 bytes and passes R30's checks as written. -/
theorem test_bank_header : (bankHeaderBytes 3 4096 (zeros 64)).length = 128 ∧ bankHeaderOk (bankHeaderBytes 3 4096 (zeros 64)) = true ∧
    bhGeneration (bankHeaderBytes 3 4096 (zeros 64)) = 3 ∧ bhLength (bankHeaderBytes 3 4096 (zeros 64)) = 4096 := by decide +kernel

/-! ### Keys and attestation -/

def wKey (st op target : Nat) : State := { wImago with key := { wImago.key with state := st, op := op, target := target } }

theorem wit_Key_go : fnTakes wImago 0 0 = true ∧ wImago.scu.restarting = false ∧ keyBusy wImago = false := by decide +kernel

/-- A command file read that fails, and one whose fields are refused. -/
theorem wit_Key_read : (wKey 1 0 0).key.state = 1 ∧ hpaData (wKey 1 0 0) (.failed .timedOut) 30048 = none ∧
    keyCause (wKey 1 0 0) (zeros 16) = 0x01 := by decide +kernel

theorem wit_Key_burn : ∀ op ∈ [1, 2], ∀ k ∈ [0, 3], (wKey 3 op k).key.state = 3 ∧ (wKey 3 op k).scu.restarting = false := by decide +kernel

theorem wit_Key_fuses : ∃ t, exec (.keyBurnDone true) (wKey 3 1 0) = .next t ∧ t.fuses ≠ (wKey 3 1 0).fuses :=
  ⟨_, rfl, by decide +kernel⟩

theorem wit_Att_go : fnTakes wImago 0 1 = true ∧ wImago.scu.restarting = false ∧ attBusy (wImago.fn 0 1).att = false ∧
    fnTakes (wImago.updFn 0 1 (fun f => { f with att := ⟨3, 0⟩ })) 0 1 = true ∧
    attBusy ((wImago.updFn 0 1 (fun f => { f with att := ⟨3, 0⟩ })).fn 0 1).att = true := by decide +kernel

theorem wit_Att_start : ({ wImago with signer := ⟨[1, 7], none, []⟩ } : State).signer.signing = none ∧
    ({ wImago with signer := ⟨[1, 7], none, []⟩ } : State).signer.queue = 1 :: [7] ∧ wImago.scu.restarting = false := by decide +kernel

/-- Function 0 may issue requests, function 1 not. -/
theorem wit_Att_done : ({ wImago with signer := ⟨[], some 1, []⟩ } : State).signer.signing = some 1 ∧
    canIssue (wImago.fn (0 / 4) (0 % 4)) = true ∧ canIssue (wImago.fn (1 / 4) (1 % 4)) = false := by decide +kernel

/-! ### Network ingest -/

/-- The link of NP0 is up and slot 0 is live. -/
def wLive : State := { wImago with
  nps := [(0, { (default : NetPort) with link := true })], streams := [(0, { (default : Stream) with live := true })] }

/-- An Ethernet frame from 02:00:00:00:00:02 with its FCS. -/
def wFrame (type : Bytes) (body : Bytes) : Bytes :=
  let b := [2, 0, 0, 0, 0, 1, 2, 0, 0, 0, 0, 2] ++ type ++ body
  b ++ toLe 4 (crc32 b)
/-- An ARP request for 10.0.0.1 from 10.0.0.2. -/
def wArp : Bytes := [0, 1, 8, 0, 6, 4, 0, 1, 2, 0, 0, 0, 0, 2, 10, 0, 0, 2, 0, 0, 0, 0, 0, 0, 10, 0, 0, 1]
/-- An IPv4 datagram of four bytes from 10.0.0.2 port 5000 to 239.0.0.1 port 5004; both checksums worked out by hand. -/
def wUdp (port : Byte) (check : Bytes) : Bytes :=
  [0x45, 0, 0, 32, 0, 0, 0, 0, 16, 17, 0xB1, 0xCA, 10, 0, 0, 2, 239, 0, 0, 1, 0x13, 0x88, 0x13, port, 0, 12] ++ check ++ [1, 2, 3, 4]

theorem wit_Frame_state : wLive.imago = true ∧ (wLive.np 0).link = true ∧ unitDown wLive uIngress = false ∧ (wLive.np 0).responses < 1000 ∧
    ({ wLive with nps := [(0, { (wLive.np 0) with responses := 999 })] }.np 0).responses < 1000 := by decide +kernel

theorem wit_Frame_drop : rxFrame (cfgNet wLive.run 0) (wFrame [8, 7] (zeros 46)) = .drop 10 ∧
    rxFrame (cfgNet wLive.run 0) (wFrame [0x81, 0] ([0, 5] ++ zeros 50)) = .drop 3 ∧ (zeros 17).length < 18 ∧
    crc32 ((zeros 64).take 60) ≠ le32 (zeros 64) 60 := by decide +kernel

theorem wit_Frame_arp : rxFrame (cfgNet wLive.run 0) (wFrame [8, 6] wArp) = .arp wArp ∧ 28 ≤ wArp.length ∧ beAt wArp 0 2 = 1 ∧
    beAt wArp 2 2 = 0x0800 ∧ beAt wArp 6 2 = 1 ∧ beAt wArp 24 4 = neAddr4 (cfgNet wLive.run 0) := by decide +kernel

/-- A datagram that a stream matches, one for its RTCP port, one that none matches, and one whose checksum is wrong. -/
theorem wit_Frame_udp :
    rxFrame (cfgNet wLive.run 0) (wFrame [8, 0] (wUdp 0x8C [0xDB, 0xB8])) =
      .udp (v4mapped 0x0A000002) (v4mapped 0xEF000001) 5000 5004 [1, 2, 3, 4] ∧
    streamMatches wLive 0 (v4mapped 0xEF000001) 5004 0 = some false ∧ streamMatches wLive 0 (v4mapped 0xEF000001) 5005 0 = some true ∧
    rxFrame (cfgNet wLive.run 0) (wFrame [8, 0] (wUdp 0x8E [0, 0])) =
      .udp (v4mapped 0x0A000002) (v4mapped 0xEF000001) 5000 5006 [1, 2, 3, 4] ∧
    streamMatches wLive 0 (v4mapped 0xEF000001) 5006 0 = none ∧
    rxFrame (cfgNet wLive.run 0) (wFrame [8, 0] (wUdp 0x8C [0xDB, 0xB9])) = .drop 6 := by decide +kernel

/-- A port that joins nothing, and one whose stream joins a group. -/
theorem wit_EthUp : (wImago.imago = true ∧ neEnabled (cfgNet wImago.run 0) = true ∧ (wImago.np 0).link = false ∧
      joinedSlots wImago 0 0 = []) ∧
    ({ wLive with nps := [] } : State).imago = true ∧ (({ wLive with nps := [] } : State).np 0).link = false ∧
    joinedSlots { wLive with nps := [] } 0 0 = [0] ∧ (({ wLive with nps := [] } : State).stream 0).live = true ∧
    seNet (({ wLive with nps := [] } : State).se 0) = true ∧ seJoin (({ wLive with nps := [] } : State).se 0) ≠ 0 := by decide +kernel

/-- A general query, and a group-and-source query of a source that the stream takes; its entry says join 2. -/
def wQuery (l : List Nat) : State := { wLive with
  scu := { wLive.scu with cfg := some { wCfg with streams := [wStream.set 0x3D 2] } }
  nps := [(0, { (wLive.np 0) with queries := [(v4mapped 0xEF000001, l)] })] }

theorem wit_Query : ∀ l ∈ [[], [0]], ((wQuery l).np 0).queries = (v4mapped 0xEF000001, l) :: [] ∧
    joinedSlots (wQuery l) 0 (v4mapped 0xEF000001) = [0] ∧ seSource ((wQuery l).se 0) = 0 ∧
    mcastOld (wQuery l) 0 (v4mapped 0xEF000001) = false ∧ seJoin ((wQuery l).se 0) = 2 := by decide +kernel

theorem wit_Unsolicited : ((wLive.updIng 0 (fun g => { g with report2 := true })).stream 0).ing.report2 = true ∧
    ((wLive.updIng 0 (fun g => { g with report2 := true })).stream 0).live = true ∧
    ((wLive.updIng 0 (fun g => { g with report2 := true })).np (seSource (wLive.se 0))).link = true := by decide +kernel

/-- A packet of the side stream of slot 0, and one of telemetry. -/
theorem wit_NextHop : ∀ k ∈ [0, 0 + 1], mget ({ wLive with nps := [(0, { (wLive.np 0) with
    waiting := [(9, [(k, Out.echoReply 0 0 [])])] })] }.np 0).waiting 9 = [(k, Out.echoReply 0 0 [])] := by decide +kernel

/-! ### Timers of ingest -/

def wIng (f : Ingest → Ingest) : State := wLive.updIng 0 f

theorem wit_SourceLock : ((wIng (fun g => { g with locked := true })).stream 0).live = true ∧
    ((wIng (fun g => { g with locked := true })).stream 0).ing.locked = true ∧
    ((wIng (fun g => { g with ssrc := some 0 })).stream 0).ing.ssrc.isSome = true := by decide +kernel

theorem wit_RtpTimers : ((wIng (fun g => { g with jumper := some default })).stream 0).ing.jumper ≠ none ∧
    ((wIng (fun g => { g with rtpHeld := [default], rtpNext := some 0 })).stream 0).ing.rtpHeld = default :: [] ∧
    ((wIng (fun g => { g with rtpHeld := [default], rtpNext := some 0 })).stream 0).ing.rtpNext = some 0 := by decide +kernel

theorem wit_Pmt : ((wLive.stream 0).live = true ∧ seTransport (wLive.se 0) = 2 ∧ (wLive.stream 0).ing.ts.videoPid = none ∧
    (wLive.stream 0).ing.ts.pmtLogged = false) ∧
    ((wIng (fun g => { g with ts := { g.ts with pmtLogged := true } })).stream 0).ing.ts.pmtLogged = true := by decide +kernel

/-- Frame 5 of slot 0, access unit 3. -/
def wFr : Frame := { (default : Frame) with au := 3 }
def wFr1 (f : Frame) : State := { wLive with frames := [(5, f)] }

theorem wit_Alignment : (wFr1 wFr).frames.find? (fun p => p.2.slot == 0 && p.2.au == 3) = some (5, wFr) ∧
    mfind (wFr1 wFr).frames 5 = some wFr ∧ wFr.aligned = false ∧ frameEnded wFr = false ∧
    cfgGroup (frameCfg (wFr1 wFr) wFr) wFr.slot = none := by decide +kernel

/-- A fusion group of slot 0 alone, which emits or does not. -/
def wGroup (n : Byte) : Bytes := wBytes 16 [(1, [1]), (0xC, [n])]

theorem wit_Alignment_group :
    let f : Frame := { wFr with ref := some 77 }
    let s : State := { wFr1 f with scu := { wLive.scu with cfg := some { wCfg with groups := [wGroup 1] } } }
    s.frames.find? (fun p => p.2.slot == 0 && p.2.au == 3) = some (5, f) ∧ mfind s.frames 5 = some f ∧ f.aligned = false ∧
    frameEnded f = false ∧ cfgGroup (frameCfg s f) f.slot = some (wGroup 1) ∧ f.ref = some 77 ∧
    cfgEmits (frameCfg s f) f.slot = true ∧ pcrDiffers s (wGroup 1) = false := by decide +kernel

/-! ### Host injection -/

/-- RING_SIZE 20, a consumer address, and no ring yet. -/
def wInjOff (log2 : Word) : State := wImago.updFn 0 0 (fun f => { f with regs := [(0x0FE100, log2), (0x0FE108, 0x10000)] })

theorem wit_InjEnable : (wInjOff 20).imago = true ∧ fnTakes (wInjOff 20) 0 0 = true ∧ ((wInjOff 20).inj 0 0).enabled = false ∧
    ((wInjOff 20).inj 0 0).zeroing = false ∧ 20 ≤ wbits (freg ((wInjOff 20).fn 0 0) 0x0FE100) 4 0 ∧
    wbits (freg ((wInjOff 20).fn 0 0) 0x0FE100) 4 0 ≤ 28 ∧
    wbits (freg ((wInjOff 20).fn 0 0) 0x0FE108) 31 4 * 16 + (freg ((wInjOff 20).fn 0 0) 0x0FE10C).toNat * 2 ^ 32 ≠ 0 ∧
    injPool (wInjOff 20).run (2 ^ wbits (freg ((wInjOff 20).fn 0 0) 0x0FE100) 4 0) = some 1 ∧ partOfFn (wInjOff 20) 0 0 = some 0 ∧
    (allocMany 0 1 (2 ^ wbits (freg ((wInjOff 20).fn 0 0) 0x0FE100) 4 0 / poSize (cfgPool (wInjOff 20).run 1)) (wInjOff 20)).1.length =
      2 ^ wbits (freg ((wInjOff 20).fn 0 0) 0x0FE100) 4 0 / poSize (cfgPool (wInjOff 20).run 1) := by decide +kernel

/-- Sizes on either side of the range. -/
theorem wit_InjRefuse19 : (wInjOff 19).imago = true ∧ fnTakes (wInjOff 19) 0 0 = true ∧
    ((wInjOff 19).inj 0 0).enabled = false ∧ ((wInjOff 19).inj 0 0).zeroing = false ∧
    (wbits (freg ((wInjOff 19).fn 0 0) 0x0FE100) 4 0 < 20 ∨ 28 < wbits (freg ((wInjOff 19).fn 0 0) 0x0FE100) 4 0) := by decide +kernel

theorem wit_InjRefuse29 : (wInjOff 29).imago = true ∧ fnTakes (wInjOff 29) 0 0 = true ∧
    ((wInjOff 29).inj 0 0).enabled = false ∧ ((wInjOff 29).inj 0 0).zeroing = false ∧
    (wbits (freg ((wInjOff 29).fn 0 0) 0x0FE100) 4 0 < 20 ∨ 28 < wbits (freg ((wInjOff 29).fn 0 0) 0x0FE100) 4 0) := by decide +kernel

theorem wit_InjDone : ((wImago.updInj 0 0 (fun i => { i with zeroing := true })).inj 0 0).zeroing = true ∧
    fnTakes wInj 0 0 = true ∧ (wInj.inj 0 0).enabled = true := by decide +kernel

/-- A packet header with sequence number 5. -/
def wHead (type len pay : Nat) : Bytes :=
  let h := toLe 4 0x5049584A ++ toLe 4 5 ++ toLe 4 len ++ toLe 4 type ++ toLe 4 pay ++ zeros 40
  h ++ toLe 4 (crc32c h)
/-- The ring of `wInj` holding bytes at its start. -/
def wRing (b : Bytes) : State := wInj.updInj 0 0 (fun i => { i with bytes := cellWriteBytes 0 [] 0 b })
def wData : Bytes := wHead 1 128 8 ++ [1, 2, 3, 4, 5, 6, 7, 8] ++ zeros 40 ++ toLe 4 5 ++ toLe 4 0x4C494154 ++
  toLe 4 (crc32c [1, 2, 3, 4, 5, 6, 7, 8]) ++ zeros 4

theorem wit_InjPoll : ∀ b ∈ [[], wHead 2 64 0, wHead 3 64 0, wData], ((wRing b).inj 0 0).enabled = true ∧
    ((wRing b).inj 0 0).desync = false ∧ unitDown (wRing b) uParser = false := by decide +kernel

/-- No packet; a pad packet; a header whose type is not one of the two; a whole data packet. -/
theorem wit_InjPoll_clauses :
    le32 (injBytes ((wRing []).inj 0 0) 0 64) 0 ≠ 0x5049584A ∧
    (∀ b ∈ [wHead 2 64 0, wHead 3 64 0, wData], le32 (injBytes ((wRing b).inj 0 0) 0 64) 0 = 0x5049584A ∧
      le32 (injBytes ((wRing b).inj 0 0) 0 64) 4 = ((wRing b).inj 0 0).seq ∧
      le32 (injBytes ((wRing b).inj 0 0) 0 64) 0x3C = crc32c ((injBytes ((wRing b).inj 0 0) 0 64).take 0x3C)) ∧
    (injHeaderOk ((wRing (wHead 2 64 0)).inj 0 0) (wHead 2 64 0) = true ∧ ipType (wHead 2 64 0) = 2) ∧
    injHeaderOk ((wRing (wHead 3 64 0)).inj 0 0) (wHead 3 64 0) = false ∧
    injHeaderOk ((wRing wData).inj 0 0) (injBytes ((wRing wData).inj 0 0) 0 64) = true ∧
    ipType (injBytes ((wRing wData).inj 0 0) 0 64) = 1 ∧
    injTrailerOk ((wRing wData).inj 0 0) (injBytes ((wRing wData).inj 0 0) 0 64) = true := by decide +kernel

/-- A data packet without its trailer, waiting since 9; a header whose CRC is wrong, waiting since 9. -/
theorem wit_InjTimeouts :
    let s := (wRing (wHead 1 128 8)).updInj 0 0 (fun i => { i with trailerSince := some 9 })
    let t := (wRing (toLe 4 0x5049584A ++ toLe 4 5)).updInj 0 0 (fun i => { i with headerSince := some 9 })
    ((s.inj 0 0).enabled = true ∧ (s.inj 0 0).desync = false ∧ (s.inj 0 0).trailerSince = some 9 ∧
      le32 (injBytes (s.inj 0 0) 0 64) 0 = 0x5049584A ∧ le32 (injBytes (s.inj 0 0) 0 64) 4 = (s.inj 0 0).seq ∧
      le32 (injBytes (s.inj 0 0) 0 64) 0x3C = crc32c ((injBytes (s.inj 0 0) 0 64).take 0x3C) ∧
      injHeaderOk (s.inj 0 0) (injBytes (s.inj 0 0) 0 64) = true ∧ injTrailerOk (s.inj 0 0) (injBytes (s.inj 0 0) 0 64) = false) ∧
    (t.inj 0 0).enabled = true ∧ (t.inj 0 0).desync = false ∧ (t.inj 0 0).headerSince = some 9 ∧
      le32 (injBytes (t.inj 0 0) 0 64) 0 = 0x5049584A ∧ le32 (injBytes (t.inj 0 0) 0 64) 4 = (t.inj 0 0).seq ∧
      le32 (injBytes (t.inj 0 0) 0 64) 0x3C ≠ crc32c ((injBytes (t.inj 0 0) 0 64).take 0x3C) := by decide +kernel

theorem wit_InjConsumer : ((wInj.updInj 0 0 (fun i => { i with writeDue := true })).inj 0 0).writeDue = true ∧
    canIssue ((wInj.updInj 0 0 (fun i => { i with writeDue := true })).fn 0 0) = true := by decide +kernel

/-! ### Decode, resampling and batches -/

/-- A random access point of H.264, 64 × 64, whose index is `n` bytes; its profile is `p`. -/
def wHdr (n p : Nat) : PicHdr := ⟨true, p, 40, false, 1, 8, 64, 64, 64, 64, true, false, false, n⟩
/-- Slot 0 on engine 2 with frame 5 closed and waiting for decode. -/
def wDec (f : Decode → Decode) : State :=
  (wFr1 { wFr with stage := 2 }).updDec 0 (fun d => f { d with engine := some 2, queue := [5], waitingRap := true })

theorem wit_ParseAhead : ∀ n ∈ [4096, 4097], ((wDec id).stream 0).dec.limbo = [] ∧ ((wDec id).stream 0).dec.queue = 5 :: [] ∧
    parseNext (wDec id) 0 = some 5 ∧ mfind (wDec id).frames 5 = some { wFr with stage := 2 } ∧
    hdrPasses ((wDec id).se 0) (wHdr n 1) = true ∧ ((wDec id).stream 0).dec.refusedAu = none ∧ (wHdr n 1).leading = false ∧
    (wHdr n 1).rap = true := by decide +kernel

theorem wit_ParseAhead_more : parseNext (wDec (fun d => { d with segParsed := 1 })) 0 = some 5 ∧
    ((wDec (fun d => { d with segParsed := 1 })).stream 0).dec.segParsed = ({ wFr with stage := 2 } : Frame).segment + 1 ∧
    ((wDec (fun d => { d with segParsed := 1 })).stream 0).dec.resumeRap = false := by decide +kernel

/-- A profile that R134 does not list. -/
theorem wit_ParseAhead_refused : ((wDec id).stream 0).dec.limbo = [] ∧ ((wDec id).stream 0).dec.queue = 5 :: [] ∧
    parseNext (wDec id) 0 = some 5 ∧ (wHdr 0 0).hasSeq = true ∧ hdrPasses ((wDec id).se 0) (wHdr 0 0) = false := by decide +kernel

/-- Four indexed pictures, behind a head whose header is not known or passes. -/
theorem wit_ParseAhead_full :
    let s := wDec (fun d => { d with index := [1, 2, 3, 4] })
    (s.stream 0).dec.limbo = [] ∧ 4 ≤ (s.stream 0).dec.index.length ∧ headVerdict s 0 = none ∧
    headVerdict (s.updFrame 5 (fun f => { f with hdr := some (wHdr 0 1) })) 0 = some (5, .pass) := by decide +kernel

/-- An access unit past the queue limit where the queue has its last place, and where it has none. -/
theorem wit_ParseAhead_limit :
    let s (n : Nat) := (wFr1 wFr).updDec 0 (fun d => { d with limbo := [5], queue := List.range n })
    ((s 15).stream 0).dec.limbo = 5 :: [] ∧ ((s 15).stream 0).dec.queue.length < 16 ∧ ((s 16).stream 0).dec.limbo = 5 :: [] ∧
    16 ≤ ((s 16).stream 0).dec.queue.length ∧ (wHdr 0 1).rap = true ∧ ({ wHdr 0 1 with rap := false } : PicHdr).rap = false := by decide +kernel

/-- A frame that has been indexed is ready; without it no stream is. -/
def wReady : State := (wDec (fun d => { d with index := [5], segParsed := 1, waitingRap := false })).updFrame 5
  (fun f => { f with hdr := some (wHdr 0 1), aligned := true })

/-- An engine at a switch point with a ready stream, one in the middle of a picture, and a fenced one. -/
theorem wit_DecodeSwitch : (mget wReady.engines 2).fenced = false ∧ atSwitchPoint (engineRun wReady 2 0 0 false) 2 = true ∧
    engineSlots (engineRun wReady 2 0 0 false) 2 = [0] ∧
    ((engineNote (engineRun wReady 2 0 0 false) 2).stream 0).dec.ready = true ∧
    atSwitchPoint (engineRun { wReady.updDec 0 (fun d => { d with cur := some ⟨5, 79, 100, false, false⟩ }) with
      engines := [(2, ⟨false, some 0, 0⟩)] } 2 20 0 false) 2 = false ∧
    (mget ({ wReady with engines := [(2, ⟨true, none, 0⟩)] } : State).engines 2).fenced = true := by decide +kernel

/-- Slot 0 in reconstruction on engine 2: 79 of a budget of 100 cycles used. -/
def wCur : CurPic := ⟨5, 79, 100, false, false⟩
def wCurS : State := { wDec (fun d => { d with index := [5], cur := some wCur }) with engines := [(2, ⟨false, some 0, 0⟩)] }

theorem wit_Budget : engineCur wCurS 2 = some 0 ∧ (wCurS.stream 0).dec.cur = some wCur ∧ wCur.abandoned = false ∧
    wCur.budget ≤ wCur.cycles + 21 ∧ 5 * wCur.budget ≤ 4 * (wCur.cycles + 46) ∧ ¬5 * wCur.budget ≤ 4 * (wCur.cycles + 45) ∧
    wCur.cycles + 20 < wCur.budget ∧ 4 * (wCur.cycles + 20) < 5 * wCur.budget := by decide +kernel

/-- A picture of 64 coded lines has one band. -/
theorem wit_PictureDecoded : engineCur (wCurS.updFrame 5 (fun f => { f with hdr := some (wHdr 0 1), bands := [0] })) 2 = some 0 ∧
    ((wCurS.updFrame 5 (fun f => { f with hdr := some (wHdr 0 1), bands := [0] })).stream 0).dec.cur = some wCur ∧ wCur.poisoned = false ∧
    bandCount ((((wCurS.updFrame 5 (fun f => { f with hdr := some (wHdr 0 1), bands := [0] })).frame wCur.frame).hdr.getD default).codedH) ≤
      ((wCurS.updFrame 5 (fun f => { f with hdr := some (wHdr 0 1), bands := [0] })).frame wCur.frame).bands.length := by decide +kernel

/-- A decoded picture of 16 × 16 samples of 128. -/
def wPic : PicData := ⟨16, 16, 16, 16, 8, true, true, 2, 0, false, List.replicate 256 128, [], []⟩
def wRel : State := { wFr1 { wFr with stage := 3, picture := some 0, pic := some wPic } with relq := [5] }
/-- Slot 0 is a member of a group that does not emit. -/
def wRefOnly : State := { wRel with scu := { wRel.scu with cfg := some { wCfg with groups := [wGroup 0] } } }

theorem wit_Resample_ref : (mget wRefOnly.resamplers 3).fenced = false ∧ (mget wRefOnly.resamplers 3).cur = none ∧
    nextRelease wRefOnly = some 5 ∧ refOnly wRefOnly (wRefOnly.frame 5) = true := by decide +kernel

theorem wit_Resample : (mget wRel.resamplers 3).fenced = false ∧ (mget wRel.resamplers 3).cur = none ∧ nextRelease wRel = some 5 ∧
    mfind wRel.frames 5 = some { wFr with stage := 3, picture := some 0, pic := some wPic } ∧ refOnly wRel (wRel.frame 5) = false ∧
    smallestPool wRel.run (workBytes (workFmt (frameTeacher wRel (wRel.frame 5)))
      (workOf (frameTeacher wRel (wRel.frame 5)) (frameSe wRel (wRel.frame 5)) wPic).1.1
      (workOf (frameTeacher wRel (wRel.frame 5)) (frameSe wRel (wRel.frame 5)) wPic).1.2.1) = some 0 ∧
    (bpmAlloc wRel (frameBpmPart wRel (wRel.frame 5)) 0).1.isSome = true := by decide +kernel

/-- The frame of `wRel` in resampler 3, with no batch open for it or with one of `n` members. -/
def wResam (n : Nat) : State :=
  let s : State := { wRel with resamplers := [(3, ⟨false, some 5⟩)] }
  let k := batchKey s (s.frame 5)
  if n = 0 then s else { s with batches := [(9, { (default : Batch) with
    part := k.1, models := k.2.1, instar := k.2.2.1, cfgSeq := k.2.2.2, members := List.replicate n none })] }

theorem wit_ResampleDone : (∀ n ∈ [0, 6, 7], (mget (wResam n).resamplers 3).cur = some 5 ∧
      mfind (wResam n).frames 5 = some { wFr with stage := 3, picture := some 0, pic := some wPic } ∧
      refOnly (wResam n) { wFr with stage := 3, picture := some 0, pic := some wPic } = false ∧
      openBatch (wResam n) (batchKey (wResam n) { wFr with stage := 3, picture := some 0, pic := some wPic }) =
        if n = 0 then none else some 9) ∧
    (∀ n ∈ [6, 7], ((mfind (wResam n).batches 9).map (fun x => x.members.length)) = some n ∧
      (mget (wResam n).batches 9).closed = false ∧ (∀ m ∈ (mget (wResam n).batches 9).members, m = none)) ∧
    refOnly wRefOnly (wRefOnly.frame 5) = true := by decide +kernel

/-- Batch 9 of partition 0: one picture, teacher graph 0 and no other model. -/
def wBat : Batch := ⟨0, 0, [0, 0xFF, 0xFF, 0xFF, 0xFF], 0, 0, [some 5], 0, false, 0, none, 0, [0, 0, 0, 0, 0], false, []⟩
def wBatS (x : Batch) : State := { wFr1 { wFr with stage := 4, picture := some 0, batch := some 9 } with batches := [(9, x)] }

theorem wit_BatchTimeout : mfind (wBatS wBat).batches 9 = some wBat ∧ wBat.closed = false ∧ batchHasFrame wBat = true := by decide +kernel

/-! ### Scheduling, semaphores and cell queues -/

/-- The batch closed and at the head of partition 0's queue. -/
def wClosed : Batch := { wBat with closed := true }
def wAdmit : State := (wBatS wClosed).updPart 0 (fun p => { p with queue := [9] })

theorem wit_Admit_shared : (wAdmit.part 0).queue = 9 :: [] ∧ mfind wAdmit.batches 9 = some wClosed ∧ wAdmit.pac.restarting = false ∧
    peClass (wAdmit.pe 0) = 0 ∧ pinnedRegions wAdmit 0 = [] ∧ chooseRegion wAdmit wClosed = some 1 ∧ backlog wAdmit 1 ≤ 50000 * 166320 := by
  decide +kernel

/-- The same batch in partition 1, which is pinned to region 0 and best-effort. -/
theorem wit_Admit_pinned : (({ wBatS { wClosed with part := 1 } with parts := [(1, { (default : Part) with queue := [9] })] } : State).part 1).queue = 9 :: [] ∧
    mfind ({ wBatS { wClosed with part := 1 } with parts := [(1, { (default : Part) with queue := [9] })] } : State).batches 9 =
      some { wClosed with part := 1 } ∧ anyWarn wImago = false ∧
    pinnedRegions ({ wBatS { wClosed with part := 1 } with parts := [(1, { (default : Part) with queue := [9] })] } : State) 1 = 0 :: [] := by
  decide +kernel

/-- Admitted to region 1. -/
def wAdm : Batch := { wClosed with region := some 1 }

theorem wit_Runnable : mfind (wBatS wAdm).batches 9 = some wAdm ∧ wAdm.region = some 1 ∧ invOf wAdm 0 = 0 ∧ invOf wAdm 4 = 0 ∧
    wAdm.models.getD 4 0xFF = 0xFF ∧ wAdm.models.getD 0 0xFF ≠ 0xFF ∧ invReady (wBatS wAdm) 9 0 wAdm = true ∧
    invReady (wBatS { wAdm with models := [0, 0, 0, 0, 0] }) 9 4 { wAdm with models := [0, 0, 0, 0, 0] } = false := by decide +kernel

def wRun : Batch := { wAdm with inv := [1, 4, 4, 4, 4] }
def wRunQ : State := (wBatS wRun).updRegion 1 (fun r => { r with queue := [72] })

theorem wit_Resident : mfind wRunQ.batches 9 = some wRun ∧ queueHead wRunQ 1 = some (9 * 8 + 0) ∧
    earlierStarted wRunQ 9 wRun = true ∧ pinnedNow wRunQ 0 = false ∧ invCtx wRunQ 9 0 = none ∧
    (placementBlocks wRunQ wRun).take (blocksTaken (batchPlan wRunQ wRun 0)
      (placementBlocks wRunQ wRun).length) = [4, 5, 6, 7] ∧
    (∀ q ∈ [4, 5, 6, 7].zipIdx, blockTakes wRunQ (batchPlan wRunQ wRun 0) [4, 5, 6, 7].length q.2 q.1 = true) := by decide +kernel

/-- Context 6 of the batch, on block 4 in region 1, with a work list of eight entries. -/
def wCtx : Ctx := { (default : Ctx) with kind := 1, batch := 9, region := 1, slots := [(4, 0)], begun := true, phases := 1, stripes := 1 }
def wCtxS (x : Ctx) : State := { wBatS wAdm with ctxs := [(6, x)] }

/-- The last entry of the list, and a list that has run out. -/
theorem wit_Claim : (∀ w ∈ [7, 8], mfind (wCtxS { wCtx with work := w }).ctxs 6 = some { wCtx with work := w } ∧
      wCtx.kind = 1 ∧ 4 ∈ ctxBlocks wCtx ∧ blockUsable (wCtxS { wCtx with work := w }) 4 = true ∧
      mayClaim (wCtxS { wCtx with work := w }) { wCtx with work := w } 4 w = true ∧ wCtx.begun = true) ∧
    7 < entryCount { wCtx with work := 7 } ∧ entryCount { wCtx with work := 8 } ≤ 8 := by decide +kernel

/-- A context that has not begun, free to, and one that waits for the figures of the picture before. -/
theorem wit_Claim_begin :
    let x : Ctx := { wCtx with begun := false }
    let h : State := { wCtxS x with frames := [(5, { wFr with stage := 4, picture := some 1, batch := some 9 }),
      (6, { wFr with stage := 4, picture := some 0 })] }
    mfind (wCtxS x).ctxs 6 = some x ∧ 4 ∈ ctxBlocks x ∧ mayClaim (wCtxS x) x 4 x.work = true ∧ x.begun = false ∧
      holdKind (wCtxS x) x = 0 ∧
    mfind h.ctxs 6 = some x ∧ mayClaim h x 4 x.work = true ∧ holdKind h x = 1 := by decide +kernel

/-- Semaphore 3 of block 4 at 5, with `n` waiters. -/
def wSem (n : Nat) : State := wImago.updBlock 4 (fun b => { b with sems := [(3, ⟨5, (List.range n).map (fun i => (32 + i, 9))⟩)] })

theorem wit_Wait : 5 ≤ (mget ((wSem 0).block 4).sems 3).count ∧ (mget ((wSem 7).block 4).sems 3).count < 6 ∧
    (mget ((wSem 7).block 4).sems 3).waiters.length < 8 ∧ (39, 6) ∉ (mget ((wSem 7).block 4).sems 3).waiters ∧
    8 ≤ (mget ((wSem 8).block 4).sems 3).waiters.length := by decide +kernel

/-- A vector command of the context's layer 0 on the first row, for cell 32 of block 4. -/
def wCmd : CellCmd := ⟨1, 6, 0, 0, 0, 0, 3, 0, 1, 0, 64, 100, (1, 1), [⟨0x1000, 16⟩], [], false, true⟩
def wQ : QCmd := ⟨wCmd, false, 0, [], 0⟩
/-- Context 6 whose picture has a working picture of 64 × 64; cell 32 with a queue. -/
def wFab (q : List QCmd) (run : Map QCmd) : State := { wCtxS wCtx with
  scu := { wImago.scu with stack0 := true, stack1 := true }
  frames := [(5, { wFr with stage := 4, picture := some 0, batch := some 9, work := some (64, 64, []) })]
  cells := [(32, { (default : Cell) with queue := q, running := run })] }

/-- Graphs of two layers in two stacks, of which the first reads a picture of `c` channels: with few, both run at once; with
65,535, each needs a group of its own, and one block is too few. -/
def wGraph2 (c : Nat) : Bytes := wBytes 0x160 [(8, toLe 2 3 ++ toLe 2 2 ++ [2]), (0xE, [1]), (0x18, toLe 4 0x40 ++ toLe 4 0xA0), (0x20, toLe 4 0x140),
  (0x24, toLe 4 0x120), (0x43, [3] ++ toLe 2 c), (0x48, [1, 0, 1, 0, 1, 0, 1]), (0x62, [5, 3, 3]), (0x68, [1, 0, 1, 0, 1, 0, 1]),
  (0x82, [1, 3, 3]), (0x88, [1, 0, 1, 0, 1, 0, 1]), (0xA0, [8, 0, 0, 0, 0, 0, 0xFF, 0xFF, 0xFF, 0xFF, 0xFF, 0xFF, 1]),
  (0xE0, [8, 0, 1, 0, 0, 0, 1, 0, 0xFF, 0xFF, 0xFF, 0xFF, 2]), (0x122, [64, 0, 64]), (0x152, [1, 0, 1])]
/-- Context 6 with that graph, and its first entry claimed. -/
def wOpen : Ctx := { wCtx with work := 1, blocks := 1, claims := [{ (default : Claim) with block := 4 }] }
def wMap (c : Nat) (x : Ctx) (f : Bool) : State := { wFab [] [] with
  scu := { (wFab [] []).scu with cfg := some { wCfg with graphs := [(0, wGraph2 c)] } }, ctxs := [(6, x)]
  cells := [(32, { (default : Cell) with fenced := f })] }
/-- The first tile of the first row group: 32 channels of row 0, in cell 32. -/
def wTile : CellCmd := ⟨1, 6, 0, 0, 0, 0, 32, 0, 1, 0, 64, 64, (0, 0), [], [], false, true⟩

theorem wit_CommandWrite : ∀ k ∈ [1, 2, 3],
    let s := wMap 3 { wOpen with kind := k } (k == 3)
    mfind s.ctxs wTile.ctx = some { wOpen with kind := k } ∧ blockOfCell 32 ∈ ctxBlocks { wOpen with kind := k } ∧
    (s.cell 32).queue.length < 16 ∧ bestQueued s 32 < 12 ∧ cmdBounded wTile = true ∧
    cmdRangesOk s { wOpen with kind := k } 32 wTile = true ∧ servedFirst s wTile.ctx (blockOfCell 32) = false ∧
    (s.cell 32).fenced = (k == 3) ∧ blockUsable s (blockOfCell 32) = true := by decide +kernel

theorem wit_CommandWrite_next :
    let s := wMap 3 wOpen false
    let u := passSkipped 6 4 65536 (noteStalls 6 4 wOpen.claims s)
    (mfind u.ctxs 6).isSome = true ∧ (ctxTurn u 6 4).bind (fun k => k.next u 6 4) = some (32, cmdShape wTile) := by decide +kernel

theorem wit_CommandIssue : mfind ((wFab [wQ] []).cell 32).running 1 = none ∧ nextIssue (wFab [wQ] []) 32 1 = some wQ ∧
    ∀ r ∈ wQ.cmd.reads ++ wQ.cmd.writes, rangeFails (startCmd (wFab [wQ] []) 32 wQ) r = false := by decide +kernel

theorem wit_CommandRuns : mfind ((wFab [] [(1, wQ)]).cell 32).running 1 = some wQ := by decide +kernel

theorem wit_Credit : regionOwned wImago 1 = false ∧ (wImago.region 1).awake = true ∧ regionOwned wImago 0 = true := by decide +kernel

/-- Layer 0 runs in cell 32; the layer after it in record order is 0 again. -/
theorem wit_Prefetch : mfind (wFab [] [(1, wQ)]).ctxs 6 = some wCtx ∧ wCtx.slots ≠ [] ∧ prefetchNext (wFab [] [(1, wQ)]) 6 0 wCtx = true := by
  decide +kernel

/-- The first of the two waves of the phase. -/
theorem wit_Spill :
    let s := wMap 65535 wOpen false
    ∃ q, (openStripes s wOpen).find? (fun q => q.spills && q.pic == 0) = some q ∧ q.wavesBegun wOpen < ceilDiv q.groups.length (max q.n 1) ∧
      (∀ i ∈ phaseLayers q.p.g q.ph, q.waveOf (q.layerGroup i) + 1 = q.wavesBegun wOpen → q.layerOver wOpen i = true) ∧
      (spillTake q.p 6 (q.waveOuts (q.wavesBegun wOpen)) (handoffReset (spillStore q 6 s) wOpen q)).isSome = true :=
  ⟨_, rfl, by decide +kernel, by decide +kernel, by decide +kernel⟩

/-! ### Faults of the fabric -/

theorem wit_CellErrors : midGroup (wImago.updCell 255 (fun c => { c with fenced := true })) (blockOfCell 255) = false ∧ (wImago.cell 255).fenced = false ∧ ((wImago.updCell 255 (fun c => { c with fenced := true })).cell 255).fenced = true ∧
    ((wImago.updCell 255 (fun c => { c with fenced := true })).cell 255).stuck = false ∧ (wImago.block (blockOfCell 255)).fenced = false ∧
    ((wImago.updCell 255 (fun c => { c with fenced := true, stuck := true })).cell 255).stuck = true := by decide +kernel

/-- Three faults, each 10 ms after the one before, and the next 10 ms after them or one cycle later. -/
def wFaults (n : Nat) : State := { wImago.updBlock 4 (fun b => { b with faults := [3000000, 2000000, 1000000] }) with now := n }

theorem wit_BlockFaults : ((wFaults 4000000).block 4).fenced = false ∧ blockEscalates (wFaults 4000000) 4 = true ∧
    ((wFaults 4000001).block 4).fenced = false ∧ blockEscalates (wFaults 4000001) 4 = false ∧
    (((wFaults 4000001).region (regionOfBlock 4)).restarts.filter (fun t => (wFaults 4000001).now - t ≤ 100000000)).length < 7 := by decide +kernel

/-- A claim open in block 4, whose core last wrote at 0: at 600 MHz, 65,536 region cycles are 10,922 cycles of the AON clock. -/
def wPend (n : Nat) : State := { wCtxS { wCtx with claims := [{ (default : Claim) with block := 4 }] } with
  blocks := [(4, { (default : Block) with slots := [(0, 6)], lastWrite := 1 })], now := n }

theorem wit_Watchdog : blockPending (wPend 10922) 4 = true ∧ ((wPend 10922).block 4).lastWrite - 1 + watchCycles (wPend 10922) 4 ≤ (wPend 10922).now ∧
    (wPend 10921).now < ((wPend 10921).block 4).lastWrite - 1 + watchCycles (wPend 10921) 4 := by decide +kernel

theorem wit_RestartDone : ((wImago.updBlock 4 (fun b => { b with restarting := true })).block 4).restarting = true ∧
    (wImago.region 7).fenced = false := by decide +kernel

/-! ### Context records, Chrysalises and adaptation -/

/-- Record 4 of generation 7. -/
def wRec : State := { wImago with store := { wImago.store with recs := [(4, padTo 256 (zeros 4 ++ toLe 2 7))] } }

theorem wit_Record : 7 % 2 ^ 16 = rhGen (recRead wRec 4) ∧ 6 % 2 ^ 16 ≠ rhGen (recRead wRec 4) := by decide +kernel

theorem wit_Capture : mfind (wCtxS wCtx).ctxs 6 = some wCtx ∧ wCtx.slots ≠ [] ∧ wCtx.kind ≠ 3 ∧ ctxPinned (wCtxS wCtx) wCtx = false ∧
    ctxRunning (wCtxS wCtx) 6 = false ∧ (freeExec (wCtxS wCtx)).isSome = true ∧
    smallestPool (wCtxS wCtx).run (largestBody (wCtxS wCtx).run) = some 1 ∧
    (chrysalisBody (wCtxS wCtx) wCtx).length ≤ poSize (cfgPool (wCtxS wCtx).run 1) ∧ (bpmAlloc (wCtxS wCtx) 8 1).1.isSome = true := by
  decide +kernel

/-- A section's header and padding, and the 368 bits of the worked example of R255 (R251). -/
theorem test_body_section : bodySection 4 3 8 8 [1, 2] =
    [4, 0, 3, 0, 2, 0, 0, 0, 8, 0, 0, 0, 8, 0, 0, 0, 1, 2, 0, 0, 0, 0, 0, 0, 0, 0, 0, 0, 0, 0, 0, 0] ∧
    (bitsBytes (List.replicate 224 true ++ List.replicate 144 false)).length = 48 ∧
    byteAt (bitsBytes (List.replicate 224 true ++ List.replicate 144 false)) 27 = 255 ∧
    byteAt (bitsBytes (List.replicate 224 true ++ List.replicate 144 false)) 28 = 0 := by decide +kernel

def wOut : Ctx := { wCtx with slots := [], chrysalis := some (65536, 0, 16) }

theorem wit_Restore : mfind (wCtxS wOut).ctxs 6 = some wOut ∧ wOut.chrysalis = some (65536, 0, 16) ∧ restoreTarget (wCtxS wOut) wOut 4 = true ∧
    wOut.capBlocks.length ≤ (restoreBlocks (wCtxS wOut) wOut 4).length ∧
    (∀ q ∈ (restoreBlocks (wCtxS wOut) wOut 4).zipIdx, blockRoom (wCtxS wOut) q.1 (ctxNeeds (wCtxS wOut) wOut q.2) = true) := by decide +kernel

/-- A context of the best-effort partition 2 in block 4, where one of partition 0 has waited for 10 µs. -/
def wEvict : State := { wCtxS wOut with
  ctxs := [(6, wOut), (7, { wCtx with part := 2, cls := 1 })], blocks := [(4, { (default : Block) with slots := [(0, 7)] })], now := 1000 }

theorem wit_Evict : residencyWaits wEvict 4 ≠ [] ∧ classEvicts wEvict 4 = true ∧ victimOf wEvict 4 = some 7 := by decide +kernel

/-- The inferred picture 0 of a stream whose teacher alone runs. -/
def wInf : Frame := { wFr with stage := 5, picture := some 0, models := 31 }

theorem wit_Track : firstPicture (wFr1 wInf) 0 awaitsTracker = some 5 ∧ mfind (wFr1 wInf).frames 5 = some wInf ∧ wInf.stage = 5 ∧
    framInferred (frameSe (wFr1 wInf) wInf) wInf = true ∧ firstPicture (wFr1 { wInf with models := 0 }) 0 awaitsTracker = some 5 ∧
    framInferred (frameSe (wFr1 wInf) wInf) { wInf with models := 0 } = false := by decide +kernel

/-- An open step of one picture. -/
def wStep (run : Bool) : State := (wFr1 { wInf with work := some (64, 64, []) }).updStream 0 (fun s => { s with adp := some ⟨[5], run⟩, train := true })

theorem wit_StepStart : ((wStep false).stream 0).adp = some ⟨[5], false⟩ ∧ ((wStep false).stream 0).train = true ∧
    adpInterval (wStep false) 0 = 1 ∧ adpInterval (wStep false) 0 ≤ [5].length ∧
    stepBlock (wStep false) (stepDemands (([5].take (adpInterval (wStep false) 0)).map
      (fun q => teacherPlan (wStep false) 0 ((wStep false).frame q)))) = some 4 ∧ freeSlot (wStep false) 4 = some 0 ∧
    ((wFr1 wInf).stream 0).adp = none := by decide +kernel

theorem wit_StepCommit : ((wStep true).stream 0).adp = some ⟨[5], true⟩ ∧ genInUse (wStep true) 0 (1 - headGet (wStep true) 0 hdGen 1) = false ∧
    genInUse ((wStep true).updFrame 5 (fun f => { f with models := 0 })) 0
      (headGet ((wStep true).updFrame 5 (fun f => { f with models := 0 })) 0 hdGen 1) = true := by decide +kernel

/-! ### Search and records -/

def wTracked : Frame := { wFr with stage := 6, picture := some 0, tracked := true, models := 15 }

theorem wit_SearchStart : firstPicture (wFr1 wTracked) 0 (fun f => f.stage = 6 && !f.searching && !frameEnded f) = some 5 ∧
    mfind (wFr1 wTracked).frames 5 = some wTracked ∧ prevSearched (wFr1 wTracked) wTracked = true ∧
    ((oldCodebook ((wFr1 wTracked).stream 0) wTracked.cfgSeq).isNone && cbHeld (wFr1 wTracked) 0 (wTracked.picture.getD 0)) = false ∧
    (∀ r ∈ wTracked.refs, refWaits (wFr1 wTracked) r = false) := by decide +kernel

/-- Picture 0 before picture 1 is not searched; an update applies from picture 0. -/
theorem wit_SearchStart_waits :
    prevSearched { wFr1 wTracked with frames := [(5, wTracked), (6, { wTracked with picture := some 1 })] } { wTracked with picture := some 1 } = false ∧
    prevSearched ((wFr1 wTracked).updStream 0 (fun s => { s with cbPending := [⟨0, 0, 0, none⟩] })) wTracked = true ∧
    ((oldCodebook (((wFr1 wTracked).updStream 0 (fun s => { s with cbPending := [⟨0, 0, 0, none⟩] })).stream 0) wTracked.cfgSeq).isNone &&
      cbHeld ((wFr1 wTracked).updStream 0 (fun s => { s with cbPending := [⟨0, 0, 0, none⟩] })) 0 0) = true := by decide +kernel

theorem wit_SearchCommit : ∀ m ∈ [15, 31], firstPicture (wFr1 { wTracked with searching := true, models := m }) 0
    (fun f => f.searching && !f.searched && !frameEnded f) = some 5 ∧
    ((wFr1 { wTracked with searching := true, models := m }).frame 5).models / 16 % 2 = m / 16 := by decide +kernel

theorem wit_SearchCommit_bands : (searchBands (wFr1 { wTracked with searching := true, models := 31 }) 0 5).1 = true := by decide +kernel

def wUpd (c : Option (List Bytes)) (f : Frame) : State :=
  (wFr1 f).updStream 0 (fun s => { s with cbPending := [⟨0, 0, 40, c⟩], train := true })

theorem wit_CodebookUpdate : ((wUpd none wTracked).stream 0).cbPending = ⟨0, 0, 40, none⟩ :: [] ∧ searchesLeft (wUpd none wTracked) 0 0 = true ∧
    searchesLeft (wUpd none { wTracked with searched := true }) 0 0 = false ∧
    searchesLeft (wUpd (some []) { wTracked with searched := true }) 0 0 = false ∧
    ((wUpd (some []) { wTracked with searched := true }).stream 0).train = true ∧
    copyInUse (wUpd (some []) { wTracked with searched := true }) 0 = false := by decide +kernel

theorem wit_RecordEncode : firstPicture (wFr1 { wTracked with stage := 7 }) 0 unsent = some 5 ∧
    mfind (wFr1 { wTracked with stage := 7 }).frames 5 = some { wTracked with stage := 7 } ∧
    unitDown (wFr1 { wTracked with stage := 7 }) uDx = false ∧
    firstPicture (wFr1 { wTracked with stage := 8, unit := some [1] }) 0 unsent = some 5 ∧
    ((wFr1 { wTracked with stage := 8, unit := some [1] }).frame 5).unit = some [1] := by decide +kernel

/-! ### Record rings, interrupts and counters -/

/-- Ring 0 of function 0 with the given configuration: 16 MiB-aligned base, a consumer address, and its size exponent. -/
def wRingCfg (n : Word) : State := wImago.updRing 0 0 0 (fun r => { r with baseLo := 0x10000000, consLo := 0x8, cfg := n })

/-! The least and the greatest size of a ring, and one beyond. -/

theorem wit_RingBind12 : fnTakes (wRingCfg 12) 0 0 = true ∧ ringSel ((wRingCfg 12).fn 0 0) = 0 ∧
    ((wRingCfg 12).ring 0 0 0).bound = false ∧ ringBindOk ((wRingCfg 12).fn 0 0) 0 ((wRingCfg 12).ring 0 0 0) = true := by decide +kernel

theorem wit_RingBind20 : fnTakes (wRingCfg 20) 0 0 = true ∧ ringSel ((wRingCfg 20).fn 0 0) = 0 ∧
    ((wRingCfg 20).ring 0 0 0).bound = false ∧ ringBindOk ((wRingCfg 20).fn 0 0) 0 ((wRingCfg 20).ring 0 0 0) = true := by decide +kernel

theorem wit_RingBind21 : fnTakes (wRingCfg 21) 0 0 = true ∧ ringSel ((wRingCfg 21).fn 0 0) = 0 ∧
    ((wRingCfg 21).ring 0 0 0).bound = false ∧ ringBindOk ((wRingCfg 21).fn 0 0) 0 ((wRingCfg 21).ring 0 0 0) = false := by decide +kernel

/-- Ring 0 bound, with 4,096 records, of which 10 are written. -/
def wBoundRing : Ring := { (default : Ring) with bound := true, log2 := 12, gen := 3, prod := 10, backoff := 1, irqFirst := 4, irqRecords := 2 }
def wBound (f : Ring → Ring) : State := wImago.updRing 0 0 0 (fun _ => f wBoundRing)

theorem wit_RingUnbind : fnTakes (wBound id) 0 0 = true ∧ ringSel ((wBound id).fn 0 0) = 0 ∧ ((wBound id).ring 0 0 0).bound = true := by
  decide +kernel

theorem wit_RingHold : ((wBound (fun r => { r with held := [default, default] })).ring 0 0 0).held = default :: [default] ∧
    ((wBound (fun r => { r with held := [default, default] })).ring 0 0 0).bound = true := by decide +kernel

/-- Another generation; a count beyond what was written; a count that frees records; one that frees none; no need of a read. -/
theorem wit_RingConsumer : ((wBound id).ring 0 0 0).bound = true ∧ ((wBound id).ring 0 0 0).backoff ≠ 0 ∧ canIssue ((wBound id).fn 0 0) = true ∧
    (toLe 4 7 ++ toLe 4 3 : Bytes).length = 8 ∧ byteAt (toLe 4 7 ++ toLe 4 2) 4 ≠ ((wBound id).ring 0 0 0).gen ∧
    byteAt (toLe 4 7 ++ toLe 4 3) 4 = ((wBound id).ring 0 0 0).gen ∧
    2 ^ ((wBound id).ring 0 0 0).log2 < (10 % 2 ^ 32 + 2 ^ 32 - le32 (toLe 4 11 ++ toLe 4 3) 0) % 2 ^ 32 ∧
    (10 % 2 ^ 32 + 2 ^ 32 - le32 (toLe 4 7 ++ toLe 4 3) 0) % 2 ^ 32 = 3 ∧ ((wBound id).ring 0 0 0).consumed < ((wBound id).ring 0 0 0).prod - 3 ∧
    (10 % 2 ^ 32 + 2 ^ 32 - le32 (toLe 4 0 ++ toLe 4 3) 0) % 2 ^ 32 = 10 ∧ ((wBound id).ring 0 0 0).prod - 10 ≤ ((wBound id).ring 0 0 0).consumed ∧
    ((wBound (fun r => { r with backoff := 0 })).ring 0 0 0).backoff = 0 := by
  decide +kernel

theorem wit_RingDelay : ((wBound id).ring 0 0 0).bound = true ∧ ((wBound id).ring 0 0 0).irqFirst ≠ 0 := by decide +kernel

/-- A pending cause that is not yet on the wire. -/
theorem wit_Interrupts : fnTakes wImago 0 0 = true ∧ linkUp (wImago.port 0) = true ∧ portPending wImago 0 = (wImago.port 0).inta ∧
    portPending (wImago.updFn 0 1 (fun f => { f with irqStatus := 1, irqMask := 1 })) 0 = true := by decide +kernel

theorem wit_Periodic : wImago.pac.restarting = false ∧ (wImago.region 7).awake = true ∧
    ((wImago.updRegion 7 (fun r => { r with counts := [(3 * 128 + 127, 5)] })).region 7).counts = [(3 * 128 + 127, 5)] ∧ 127 < 128 ∧
    (State.reset.region 7).awake = false := by decide +kernel

/-! ### DRAM and buffer pools -/

def wUp : State := { wImago with scu := { wImago.scu with stack0 := true } }
def wReq (addr : Nat) (w : Bool) : DramReq := ⟨4, addr, 0, w, List.replicate 32 1, List.range 32, false, 0, none, false⟩

/-- The last byte of one stack, and the one after it. -/
theorem wit_DramRange : dramBytes wUp ≤ (wReq 0x600000000 false).addr ∧ (wReq 0x5FFFFFFFF false).addr < dramBytes wUp := by decide +kernel

/-- The state with a write of the burst queued. -/
def wQueued (r : DramReq) (n : Nat) : State := wUp.updPc (reqPc wUp r) (fun p => { p with queue := List.replicate n (mkEntry wUp (wReq r.addr true) .clean) })

/-- Three entries of the router leave a credit and four leave none; a read finds the queued write of its burst. -/
theorem wit_DramQueue :
    let q := (profileReq wUp (wReq 64 false)).1
    hasCredit ((wQueued q 4).pc (reqPc wUp q)) q = false ∧ hasCredit ((wQueued q 3).pc (reqPc wUp q)) q = true ∧
    ((wQueued q 3).pc (reqPc wUp q)).waiting = [] ∧ q.write = false ∧ (reqMask q).length = 32 ∧
    (queuedWrite ((wQueued q 3).pc (reqPc wUp q)) (mkEntry wUp q .clean).burst).isSome = true ∧
    hasCredit (wUp.pc (reqPc wUp q)) q = true ∧ queuedWrite (wUp.pc (reqPc wUp q)) (mkEntry wUp q .clean).burst = none := by decide +kernel

/-- The 64th window in a row with a hot pseudo-channel, the 63rd, and one without. -/
theorem wit_Imbalance :
    let hot : State := wUp.updPc 5 (fun p => { p with served := 640, busy := 5000 })
    (∀ pc ∈ pcsUp wUp, pcHot { wUp with dram := { wUp.dram with pcs := [(0, { (default : Pc) with served := 1 })] } } pc = false) ∧
    (5 ∈ pcsUp hot ∧ pcHot hot 5 = true) ∧ 64 ≤ ({ hot with dram := { hot.dram with streak := 63 } } : State).dram.streak + 1 ∧
    ({ hot with dram := { hot.dram with streak := 62 } } : State).dram.streak + 1 < 64 ∧ hot.dram.raisedAt = 0 := by decide +kernel

/-- A partition takes its sixteenth buffer, and is refused a seventeenth. -/
def wTaken (n : Nat) : State := { wImago with bpm := { wImago.bpm with charged := (List.range n).map (fun i => (poolBase wCfg 0 + 4096 * i, 0)) } }

theorem wit_Allocate : allocWithin (wTaken 15) 0 0 = true ∧ chooseBuffer (wTaken 15) 0 0 = some (poolBase wCfg 0, false) ∧
    allocWithin (wTaken 16) 0 0 = false := by decide +kernel

/-- A buffer of pool 0 that partitions 0, or 0 and 1, own. -/
def wOwned (st owners : Nat) : State := { wImago with bpm := { wImago.bpm with desc := [(poolBase wCfg 0, descWord st owners 15 0)] } }

theorem wit_Free : bufferStart (wOwned 1 1) (poolBase wCfg 0) = some 0 ∧ dState (descOf (wOwned 1 1) (poolBase wCfg 0)) ≠ 0 ∧
    dOwners (descOf (wOwned 1 1) (poolBase wCfg 0)) = 2 ^ 0 ∧ poolBase wCfg 0 ∉ (wOwned 1 1).bpm.pendingQuar ∧
    bufferStart (wOwned 2 3) (poolBase wCfg 0) = some 0 ∧ dOwners (descOf (wOwned 2 3) (poolBase wCfg 0)) / 2 ^ 2 % 2 = 0 ∧
    dState (descOf (wOwned 2 3) (poolBase wCfg 0)) ≠ 0 ∧ dOwners (descOf (wOwned 2 3) (poolBase wCfg 0)) / 2 ^ 1 % 2 = 1 := by decide +kernel

theorem wit_ZeroIdle : poolUnzeroed { wOwned 0 0 with bpm := { wImago.bpm with desc := [(poolBase wCfg 0, descWord 0 0 3 0)], freed := [(0, [poolBase wCfg 0])] } } 0 =
    poolBase wCfg 0 :: [] ∧ poolUnzeroed wImago 0 = [] := by decide +kernel

theorem wit_Poisoned : (wCurS.stream 0).dec.cur = some wCur ∧
    ((wIng (fun g => { g with au := some default })).stream 0).ing.au = some default ∧
    stagedOf (wFr1 { wTracked with stage := 8 }) 0 = some 5 := by decide +kernel

/-! ### Power -/

theorem wit_Grant : wImago.pac.restarting = false ∧ (wImago.region 7).awake = true ∧ (wImago.region 7).fenced = false ∧
    (wImago.region 8).awake = false ∧ (∀ r < 8, (wImago.region r).overStreak < 10) ∧ regionBusy wImago 7 = false := by decide +kernel

/-- A raise of region 3 whose VSEL changed at 0. -/
def wTrans (kind : Nat) (good : Bool) (n : Nat) : State :=
  { wImago.updRegion 3 (fun r => { r with trans := some ⟨kind, 0, 1, 0⟩, pgood := good }) with now := n }

theorem wit_Transition : ((wTrans 1 true 299).region 3).trans = some ⟨1, 0, 1, 0⟩ ∧ (wTrans 1 true 299).now < 0 + 300 ∧
    ((wTrans 1 true 300).region 3).trans = some ⟨1, 0, 1, 0⟩ ∧ 0 + 300 ≤ (wTrans 1 true 300).now ∧
    ((wTrans 1 false 2000).region 3).trans = some ⟨1, 0, 1, 0⟩ ∧ ((wTrans 1 false 2000).region 3).pgood = false ∧ 0 + 2000 ≤ (wTrans 1 false 2000).now ∧
    ((wTrans 2 false 2000).region 3).trans = some ⟨2, 0, 1, 0⟩ ∧ ((wTrans 2 false 2000).region 3).pgood = false := by decide +kernel

theorem wit_Pgood : (wImago.region 3).awake = true ∧ (wImago.region 3).trans = none ∧ ((wTrans 1 true 0).region 3).trans.isSome = true := by decide +kernel

/-- Region 1 may park; region 0 is owned by a pinned partition. -/
theorem wit_Park : parkAllowed wImago 1 = true ∧ parkAllowed wImago 0 = false := by decide +kernel

/-- A parked region whose hold bit HPA has set, without and with PWRBRK_N. -/
def wParked (brk : Bool) : State := { wImago.updRegion 2 (fun r => { r with awake := false }) with
  ports := [(0, { (default : HostPort) with link := 1, hold := 4 })]
  aon := { wImago.aon with inputs := [(0, { (default : InputPin) with active := brk })] } }

theorem wit_Wake : ∀ b ∈ [true, false], (wParked b).pac.restarting = false ∧ (holdBit (wParked b) 2 || wakeForBatch (wParked b) 2) = true ∧
    ((wParked b).region 2).awake = false ∧ ((wParked b).region 2).waking = false ∧ ((wParked b).region 2).fenced = false ∧
    ((wParked b).region 2).pgood = true ∧ pwrbrk (wParked b) = b := by decide +kernel

/-- A region that wakes, its transition over. -/
def wWaking : State := { wImago.updRegion 2 (fun r => { r with awake := false, waking := true, trans := some ⟨3, 0, 0, 0⟩ }) with now := 300 }

theorem wit_WakeComplete : (wWaking.region 2).waking = true ∧
    (∀ x, (wWaking.region 2).trans = some x → (wWaking.region 2).pgood = true ∧ x.vselAt + 300 ≤ wWaking.now) := by
  refine ⟨by decide +kernel, fun x h => ?_⟩
  have e : (wWaking.region 2).trans = some ⟨3, 0, 0, 0⟩ := by decide +kernel
  rw [e] at h; cases h; decide +kernel

theorem wit_BoardInputs : (∀ r < 8, (wImago.region r).pgood = true ∨ (wImago.region r).trans.isSome = true) ∧
    (∀ r < 8, (wImago.region r).fenced = false ∧ (wImago.region r).awake = true ∧ (wImago.region r).trans = none) ∧
    pwrbrk (wParked true) = true ∧
    therm { wImago with aon := { wImago.aon with inputs := [(1, { (default : InputPin) with active := true })] } } = true := by decide +kernel

/-- R2 and R366: 100 °C and 1/16 °C above it, 95 °C, and between the two. -/
theorem wit_Temperature : wImago.pac.restarting = false ∧ tjLimit wImago < 1601 ∧ (wImago.region 3).tempHold = false ∧
    (1520 : Int) ≤ tjLimit wImago - 80 ∧ (1600 : Int) ≤ tjLimit wImago ∧ tjLimit wImago - 80 < 1600 := by decide +kernel

/-- Input 3 active, or stuck: the last that the clauses name. -/
def wPin (stuck : Bool) : State := { wImago with aon := { wImago.aon with inputs := [(3, { (default : InputPin) with active := true, stuck := stuck })] } }

theorem wit_Stuck : (mget (wPin false).aon.inputs 3).active = true ∧ (mget (wPin false).aon.inputs 3).stuck = false ∧
    (mget (wPin true).aon.inputs 3).stuck = true ∧ 3 < 4 ∧ 2 ≤ 3 := by decide +kernel

/-! ### Resets, power states, restarts, telemetry and the management port -/

theorem wit_Flr : fnPresent wImago 0 1 = true ∧ (wImago.fn 0 1).resetting = false ∧
    ((wImago.updFn 0 1 (fun f => { f with resetting := true })).fn 0 1).resetting = true ∧
    (∀ g < 4, g ≠ 1 → ((wImago.updFn 0 1 (fun f => { f with resetting := true })).fn 0 g).resetting = false) := by decide +kernel

/-- HPA in L0, and with PERSTA_N active, training, or in L2/L3 Ready. -/
def wPort (f : HostPort → HostPort) : State := wImago.updPort 0 f

theorem wit_PortResets : portActive wImago 0 = true ∧ (wImago.port 0).perst = false ∧ (0 : Nat) < 2 ∧
    ((wPort (fun p => { p with perst := true })).port 0).perst = true ∧
    portActive (wPort (fun p => { p with training := true, link := 0 })) 0 = true ∧
    ((wPort (fun p => { p with training := true, link := 0 })).port 0).training = true ∧
    ((wPort (fun p => { p with training := true, link := 0 })).port 0).perst = false ∧
    ((wPort (fun p => { p with training := true, link := 0 })).port 0).link ≠ 3 ∧ linkUp (wImago.port 0) = true := by decide +kernel

/-- Function 1 in D3hot with a pending cause, its PME enabled. -/
def wPme (link : Nat) (sent : Bool) : State := (wPort (fun p => { p with link := link })).updFn 0 1
  (fun f => { f with dstate := 3, pmeEn := true, pmeStatus := sent, irqStatus := 1, irqMask := 1 })

theorem wit_Pme : ∀ l ∈ [1, 2, 3], fnPresent (wPme l false) 0 1 = true ∧ ((wPme l false).fn 0 1).dstate = 3 ∧
    ((wPme l false).fn 0 1).pmeEn = true ∧ ((wPme l false).fn 0 1).pmeStatus = false ∧ irqCause ((wPme l false).fn 0 1) = true ∧
    fnPresent (wPme l true) 0 1 = true ∧ ((wPme l true).fn 0 1).pmeStatus = true ∧
    linkUp ((wPme l true).port 0) = decide (l ≠ 3) ∧ ((wPme l true).port 0).link = l := by decide +kernel

theorem wit_UnitFaults : (mget ({ wImago with engines := [(7, ⟨true, none, 0⟩)] } : State).engines 7).fenced = true ∧ (mget wImago.engines 7).fenced = false ∧ (mget wImago.resamplers 3).fenced = false ∧ (mget wImago.resamplers 3).cur = none ∧
    (∀ n ∈ [uIngress, uParser, uCtx, uDx, uBpm], restartable n = true) ∧ (31 ≠ uDe ∧ 31 ≠ uRs ∧ restartable 31 = false) := by decide +kernel

theorem wit_Controllers : wImago.por = false ∧ ({ wImago with pac := { wImago.pac with restarting := true } } : State).pac.restarting = true ∧
    ({ wImago with scu := { wImago.scu with restarting := true } } : State).scu.restarting = true ∧
    ({ wImago with tu := { wImago.tu with restarting := true } } : State).tu.restarting = true := by decide +kernel

/-- The Ethernet path with `n` events. -/
def wTu (n : Nat) : State := wImago.updPath 0 (fun p => { p with staged := List.replicate n ⟨⟨1, 2, 2, 0xFF, 0xFFFF, 0⟩, 2, 1, 0, 0⟩ })

/-- A quarter of the path's 4,096 events, and one less. -/
theorem wit_Telemetry : (wImago.hasCfg = true ∧ evSelected wImago ⟨1, 2, 2, 0xFF, 0xFFFF, 0⟩ = true) ∧ wImago.tu.restarting = false ∧
    pathCap 0 ≤ 4 * ((wTu 1024).path 0).staged.length ∧ 4 * ((wTu 1023).path 0).staged.length < pathCap 0 ∧
    pathEnabled (wTu 39) 0 = true ∧ (wTu 39).tu.restarting = false ∧ ((wTu 39).path 0).staged ≠ [] ∧ wImago.imago = true := by decide +kernel

/-- MP answers in Imago and from phase DRAM on, and not in phase FUSE. -/
theorem wit_ManagementPort : mpAnswers (wPhase 1) = false ∧ mpAnswers (wPhase 2) = true ∧ mpAnswers wImago = true ∧
    0xBFC % 4 = 0 ∧ 0xBFC < 0xC00 ∧ 0xC00 ≤ 0xC00 ∧ 0xBFE % 4 ≠ 0 ∧ (0 < 7 ∧ 7 ≤ 7) ∧ 7 < 8 ∧
    mpAnswers { wImago with tu := { wImago.tu with mpAlert := true } } = true := by decide +kernel

end Sys2Proof
end

section
/-! PROOFS. Phase FLASH: the choice of the active bank (R31), what the end of the phase does with it (R33), and O14. -/

namespace Sys2Proof.Machine

/-! ### The active bank (R31) -/

/-- The condition of R31 under which `b` is the active bank: its header is valid, and the other bank's header is not,
or has the lower generation, or has the same one where `b` is bank A. -/
def BankWins (s : State) (b : Nat) : Prop :=
  bankHeaderOk (bankHeader s b) = true ∧
    (bankHeaderOk (bankHeader s (1 - b)) = false ∨ bhGeneration (bankHeader s (1 - b)) < bhGeneration (bankHeader s b) ∨
      (bhGeneration (bankHeader s (1 - b)) = bhGeneration (bankHeader s b) ∧ b = 0))

theorem activeBank_of_noneValid {s : State} (hA : bankHeaderOk (bankHeader s 0) = false)
    (hB : bankHeaderOk (bankHeader s 1) = false) : activeBank s = none := by
  simp [activeBank, hA, hB]

theorem activeBank_of_onlyA {s : State} (hA : bankHeaderOk (bankHeader s 0) = true)
    (hB : bankHeaderOk (bankHeader s 1) = false) : activeBank s = some 0 := by
  simp [activeBank, hA, hB]

theorem activeBank_of_onlyB {s : State} (hA : bankHeaderOk (bankHeader s 0) = false)
    (hB : bankHeaderOk (bankHeader s 1) = true) : activeBank s = some 1 := by
  simp [activeBank, hA, hB]

theorem activeBank_of_bothValid {s : State} (hA : bankHeaderOk (bankHeader s 0) = true)
    (hB : bankHeaderOk (bankHeader s 1) = true) :
    activeBank s = some (if bhGeneration (bankHeader s 0) < bhGeneration (bankHeader s 1) then 1 else 0) := by
  simp [activeBank, hA, hB]

theorem activeBank_of_bankA_wins {s : State} (h : BankWins s 0) : activeBank s = some 0 := by
  obtain ⟨hA, hwin⟩ := h
  cases hB : bankHeaderOk (bankHeader s 1) with
  | false => exact activeBank_of_onlyA hA hB
  | true =>
    have hgen : ¬ bhGeneration (bankHeader s 0) < bhGeneration (bankHeader s 1) := by
      simp only [Nat.sub_zero, hB, Bool.true_eq_false, false_or, and_true] at hwin
      omega
    rw [activeBank_of_bothValid hA hB, if_neg hgen]

theorem activeBank_of_bankB_wins {s : State} (h : BankWins s 1) : activeBank s = some 1 := by
  obtain ⟨hB, hwin⟩ := h
  cases hA : bankHeaderOk (bankHeader s 0) with
  | false => exact activeBank_of_onlyB hA hB
  | true =>
    have hgen : bhGeneration (bankHeader s 0) < bhGeneration (bankHeader s 1) := by
      simpa [hA] using hwin
    rw [activeBank_of_bothValid hA hB, if_pos hgen]

theorem activeBank_of_bankWins {s : State} {b : Nat} (hb : b < 2) (h : BankWins s b) : activeBank s = some b := by
  obtain rfl | rfl : b = 0 ∨ b = 1 := by omega
  · exact activeBank_of_bankA_wins h
  · exact activeBank_of_bankB_wins h

/-! ### The end of phase FLASH (R33) -/

theorem phaseEnd_pass (s : State) (next : Nat) : phaseEnd s 0 next = { s with scu := { s.scu with phase := next } } :=
  if_pos rfl

theorem phaseEnd_fail (s : State) {cause : Nat} (next : Nat) (h : cause ≠ 0) : phaseEnd s cause next = heldEntry s cause :=
  if_neg h

/-- The copy of a bank's container, of the length that the bank's header gives. -/
def bankCopy (s : State) (b : Nat) : Bytes :=
  cellReadBytes flashErased s.flash.cells (bankImage b) (bhLength (bankHeader s b))

/-- The state with the copy of a bank's container in the staging area. -/
def stageBank (s : State) (b : Nat) : State :=
  { s with scu := { s.scu with bank := b, staging := some (bankCopy s b), stagingDigest := digest64 (bankCopy s b) } }

theorem exec_phaseFlashEnd_of_noBank {s : State} (hp : s.scu.phase = 3) (h : activeBank s = none) :
    exec .phaseFlashEnd s = .next (heldEntry s 0x03) := by
  rw [exec_phaseFlashEnd, execPhaseFlashEnd, if_neg (not_not.2 hp), h]

theorem exec_phaseFlashEnd_of_bank {s : State} {b : Nat} (hp : s.scu.phase = 3) (h : activeBank s = some b) :
    exec .phaseFlashEnd s =
      .next (phaseEnd (stageBank s b) (if digest64 (bankCopy s b) == bhDigest (bankHeader s b) then 0 else 0x06) 4) := by
  rw [exec_phaseFlashEnd, execPhaseFlashEnd, if_neg (not_not.2 hp), h]
  rfl

theorem exec_phaseFlashEnd_of_digest_eq {s : State} {b : Nat} (hp : s.scu.phase = 3) (h : activeBank s = some b)
    (hd : digest64 (bankCopy s b) = bhDigest (bankHeader s b)) :
    exec .phaseFlashEnd s = .next { stageBank s b with scu := { (stageBank s b).scu with phase := 4 } } := by
  rw [exec_phaseFlashEnd_of_bank hp h, if_pos (beq_iff_eq.2 hd), phaseEnd_pass]

theorem exec_phaseFlashEnd_of_digest_ne {s : State} {b : Nat} (hp : s.scu.phase = 3) (h : activeBank s = some b)
    (hd : digest64 (bankCopy s b) ≠ bhDigest (bankHeader s b)) :
    exec .phaseFlashEnd s = .next (heldEntry (stageBank s b) 0x06) := by
  rw [exec_phaseFlashEnd_of_bank hp h, if_neg (mt beq_iff_eq.1 hd), phaseEnd_fail _ _ (by decide)]

theorem exec_xspiDqsTimeout_of_phaseFlash {s : State} (hp : s.scu.phase = 3) :
    exec .xspiDqsTimeout s = .next (heldEntry s 0x04) := by
  rw [exec_xspiDqsTimeout, execXspiDqsTimeout, if_pos hp]

theorem phaseFlashEnd_takes_activeBank {s t : State} {b : Nat} (hp : s.scu.phase = 3) (h : activeBank s = some b)
    (e : exec .phaseFlashEnd s = .next t) :
    t.scu.bank = b ∧
      (digest64 (bankCopy s b) = bhDigest (bankHeader s b) → t.scu.phase = 4 ∧ t.scu.staging = some (bankCopy s b)) ∧
      (digest64 (bankCopy s b) ≠ bhDigest (bankHeader s b) → entersHeld 0x06 s t) := by
  by_cases hd : digest64 (bankCopy s b) = bhDigest (bankHeader s b)
  · obtain rfl := Host.Outcome.next.inj ((exec_phaseFlashEnd_of_digest_eq hp h hd).symm.trans e)
    exact ⟨rfl, fun _ => ⟨rfl, rfl⟩, fun hne => absurd hd hne⟩
  · obtain rfl := Host.Outcome.next.inj ((exec_phaseFlashEnd_of_digest_ne hp h hd).symm.trans e)
    exact ⟨rfl, fun heq => absurd heq hd, fun _ => entersHeld_heldEntry s _ _ rfl⟩

theorem phaseFlashEnd_held_of_noBank {s t : State} (hp : s.scu.phase = 3) (h : activeBank s = none)
    (e : exec .phaseFlashEnd s = .next t) : entersHeld 0x03 s t := by
  obtain rfl := Host.Outcome.next.inj ((exec_phaseFlashEnd_of_noBank hp h).symm.trans e)
  exact entersHeld_heldEntry s s _ rfl

/-- Settles O14: R31's conditions determine `activeBank`, and the digest decides between phase VERIFY and Held. -/
theorem flashPhaseEnds : Obligations.FlashPhaseEnds := by
  unfold Obligations.FlashPhaseEnds
  refine ⟨fun s hp => ?_, fun s hp => ⟨_, exec_xspiDqsTimeout_of_phaseFlash hp, entersHeld_heldEntry s s _ rfl⟩⟩
  obtain ⟨t, e, -⟩ := reach_phaseFlashEnd s
  refine ⟨t, e, fun hA hB => ?_, fun b hb hok hwin => ?_⟩
  · exact phaseFlashEnd_held_of_noBank hp (activeBank_of_noneValid hA hB) e
  · exact phaseFlashEnd_takes_activeBank hp (activeBank_of_bankWins hb ⟨hok, hwin⟩) e

end Sys2Proof.Machine
end

section
/-! PROOFS. The sampling of the straps at the deassertion of POR_N (R449), and O11. -/

namespace Sys2Proof.Machine

theorem execPorDeassert_samples_straps {s : State} (hpSplit : Bool) (smbAddr : Nat) (hp : s.por = true) :
    ∃ t, execPorDeassert hpSplit smbAddr s = .next t ∧ t.aon.split = hpSplit ∧ t.aon.smbAddr = smbAddr % 4 := by
  unfold execPorDeassert
  rw [hp]
  exact ⟨_, rfl, rfl, rfl⟩

/-- Settles O11: the deassertion takes both straps from its operands, and every other command but the assertion is a
`BootMove`, which keeps them. -/
theorem strapsSampledOnce : Obligations.StrapsSampledOnce := by
  unfold Obligations.StrapsSampledOnce
  refine ⟨fun split addr s hp haddr => ?_, fun c s t hp hc e => (any_move c s t hc e).straps hp⟩
  obtain ⟨t, e, hsplit, hsmb⟩ := execPorDeassert_samples_straps split addr hp
  exact ⟨t, (exec_porDeassert split addr s).trans e, hsplit, hsmb.trans (Nat.mod_eq_of_lt haddr)⟩

end Sys2Proof.Machine
end

section
/-! PROOFS. Every command and every step: completion, frames, the canonical memories and the start-up phase
(O1 to O10). -/

namespace Sys2Proof.Machine

open Sys2Proof (Instr)

/-! ### One step -/

/-- Settles O1. -/
theorem stepRunsFrontCommand : Obligations.StepRunsFrontCommand := fun _ _ => rfl

theorem step_of_idle {s : State} (h : s.pending = []) : step s = .next (clockTick s) := by
  unfold step
  rw [h]

/-- A step runs the front command on the rest of the queue, or ticks the clock. -/
theorem step_cases {s t : State} (e : step s = .next t) :
    (s.pending = [] ∧ t = clockTick s) ∨
      ∃ c rest, s.pending = c :: rest ∧ exec c { s with pending := rest } = .next t := by
  unfold step at e
  split at e
  · next h => exact .inl ⟨h, (Host.Outcome.next.inj e).symm⟩
  · next c rest h => exact .inr ⟨c, rest, h, e⟩

theorem clockTick_of_por {s : State} (h : s.por = true) : clockTick s = s := if_pos h

theorem clockTick_now {s : State} (h : s.por = false) : (clockTick s).now = s.now + 1 := by
  have hpor : ¬ s.por = true := by simp [h]
  rw [clockTick, if_neg hpor, (dramTick_keeps ..).now, (refillBuckets_keeps ..).now, (tickWaits_keeps ..).now,
    (tickInput_keeps ..).now, (tickInput_keeps ..).now]

/-- Settles O2: what a cycle touches, its effect on AON_TIME, and POR_N, which stops it. -/
theorem idleStepCountsAonTime : Obligations.IdleStepCountsAonTime := by
  unfold Obligations.IdleStepCountsAonTime
  intro s hidle
  refine ⟨_, step_of_idle hidle, (clockTick_orderly s).1.trans hidle, ?_⟩
  cases hp : s.por with
  | true => exact clockTick_of_por hp
  | false => exact ⟨clockTick_now hp, (clockTick_touch s).sub (by decide)⟩

/-! ### Every command -/

/-- Settles O3. -/
theorem everyCommandCompletes : Obligations.EveryCommandCompletes := fun c s => by
  obtain ⟨t, e, hpending, -⟩ := exec_orderly c s
  exact ⟨t, e, hpending⟩

/-- Settles O6. -/
theorem commandChangesOnlyItsReach : Obligations.CommandChangesOnlyItsReach := fun c s _ e =>
  Touches.viaNext e (exec_touches c s)

/-- Settles O7: `exec_keepsButFlash`, and `exec_keeps` where the command does not program. -/
theorem commandKeepsIdentityAndStartup : Obligations.CommandKeepsIdentityAndStartup := by
  unfold Obligations.CommandKeepsIdentityAndStartup
  intro c s t hboots hburns e
  refine ⟨?_, fun hprograms => (Keeps.viaNext e (exec_keeps c s hboots hburns hprograms)).flash⟩
  obtain ⟨u, eu, hu⟩ := exec_keepsButFlash c s hboots hburns
  obtain rfl := Host.Outcome.next.inj (e.symm.trans eu)
  exact hu

/-! ### Invariants of every step -/

/-- Settles O4: every command and every cycle of the clock is `Orderly`. -/
theorem stepKeepsMemoriesCanonical : Obligations.StepKeepsMemoriesCanonical := fun s t hwf e => by
  obtain ⟨u, eu, -, hmem⟩ := step_orderly s
  obtain rfl := Host.Outcome.next.inj (e.symm.trans eu)
  exact hmem hwf

/-- Settles O5. -/
theorem resetMemoriesCanonical : Obligations.ResetMemoriesCanonical :=
  ⟨rfl, rfl, fun _ hq => absurd hq List.not_mem_nil, rfl⟩

/-- Settles O9. -/
theorem resetPhaseLegal : Obligations.ResetPhaseLegal := rfl

/-- Every step but the assertion of POR_N moves the start-up phase as `BootMove` says. -/
theorem step_move {s t : State} (e : step s = .next t) (hc : s.pending.head? ≠ some .porAssert) : BootMove s t := by
  obtain ⟨-, rfl⟩ | ⟨c, rest, hq, ec⟩ := step_cases e
  · exact tick_move s
  · have hne : c ≠ .porAssert := fun h => hc (by rw [hq, h]; rfl)
    have hmove := any_move c _ t hne ec
    exact ⟨hmove.legal, hmove.held, hmove.straps⟩

theorem porReset_phase_legal (s : State) : legalPhase (porReset s) := rfl

/-- Settles O8: the assertion of POR_N leaves phase 0, and every other step is a `BootMove`. -/
theorem stepKeepsLegalPhase : Obligations.StepKeepsLegalPhase := by
  unfold Obligations.StepKeepsLegalPhase
  intro s t hlegal e
  by_cases hpor : s.pending.head? = some .porAssert
  · obtain ⟨hidle, -⟩ | ⟨c, rest, hq, ec⟩ := step_cases e
    · rw [hidle] at hpor
      cases hpor
    · rw [hq] at hpor
      obtain rfl := Option.some.inj hpor
      obtain rfl := Host.Outcome.next.inj ec
      exact porReset_phase_legal _
  · exact (step_move e hpor).legal hlegal

theorem por_of_legal_held {s : State} (hlegal : legalPhase s) (hheld : s.held = true) : s.por = false := by
  unfold legalPhase at hlegal
  cases hp : s.por with
  | false => rfl
  | true =>
    rw [hp, if_pos rfl] at hlegal
    simp [State.held, phaseHeld, hlegal] at hheld

/-- Settles O10: in Held POR_N is deasserted, and every step but its assertion is a `BootMove`. -/
theorem heldIsLeftOnlyThroughPor : Obligations.HeldIsLeftOnlyThroughPor := fun _ _ hlegal hheld e hc =>
  (step_move e hc).held (por_of_legal_held hlegal hheld) hheld

end Sys2Proof.Machine
end

section
/-! PROOFS. Which commands bring a key command to BURNING, and which change a fuse (R419, R420): O28. -/

namespace Sys2Proof.Machine

open Sys2Proof (Instr)

/-- The commands whose reach takes in the fuses. -/
theorem fuses_mem_reach {c : Instr} (h : Piece.fuses ∈ reach c) : c = .porAssert ∨ ∃ ok, c = .keyBurnDone ok := by
  cases c with
  | porAssert => exact .inl rfl
  | keyBurnDone ok => exact .inr ⟨ok, rfl⟩
  | _ => exact absurd h (by simp [reach, reachReport, reachPool, reachSweep, reachDiscard, reachFence, reachIngress, reachReset])

theorem keyBurnDone_of_notBurning {s : State} (ok : Bool) (h : s.key.state ≠ 3) :
    exec (.keyBurnDone ok) s = .next s := by
  rw [exec_keyBurnDone, execKeyBurnDone, if_pos (by simp [h])]

theorem porReset_fuses (s : State) : (porReset s).fuses = (burnLost s).fuses := rfl

/-- A fuse changes only while a burn is in progress, by the end of the burn or by POR_N. -/
theorem fuses_change {c : Instr} {s t : State} (e : exec c s = .next t) (h : t.fuses ≠ s.fuses) :
    s.key.state = 3 ∧ ((∃ ok, c = .keyBurnDone ok) ∨ c = .porAssert) := by
  have htouch : Touches (reach c) s t := commandChangesOnlyItsReach c s t e
  have hreach : Piece.fuses ∈ reach c := not_not.1 fun hn => h (htouch.same .fuses hn)
  obtain rfl | ⟨ok, rfl⟩ := fuses_mem_reach hreach
  · obtain rfl := Host.Outcome.next.inj e
    refine ⟨not_not.1 fun hn => h ?_, .inr rfl⟩
    rw [porReset_fuses, burnLost_idle s hn]
  · refine ⟨not_not.1 fun hn => h ?_, .inl ⟨ok, rfl⟩⟩
    obtain rfl := Host.Outcome.next.inj ((keyBurnDone_of_notBurning ok hn).symm.trans e)
    rfl

/-- What the end of the read of a key command does: nothing where none is read, a refusal, or the start of the burn of
the command that passed every check. -/
theorem execKeyReadDone_cases (r : HostRead) (s : State) :
    (s.key.state ≠ 1 ∧ execKeyReadDone r s = .next s) ∨
    (s.key.state = 1 ∧ hpaData s r keyBytes = none ∧ execKeyReadDone r s = .next (keyEnd (readCount s 0 0 r) 5 0x08)) ∨
    ∃ b, s.key.state = 1 ∧ hpaData s r keyBytes = some b ∧
      ((keyCause s b = 0 ∧ execKeyReadDone r s =
          .next { s with key := { s.key with state := 3, target := kcTarget b, op := kcOp b, newHash := kcHash b } }) ∨
        (keyCause s b ≠ 0 ∧ execKeyReadDone r s = .next (keyEnd s 5 (keyCause s b)))) := by
  unfold execKeyReadDone
  by_cases h1 : s.key.state ≠ 1
  · exact .inl ⟨h1, if_pos h1⟩
  rw [if_neg h1]
  cases hd : hpaData s r keyBytes with
  | none => exact .inr (.inl ⟨not_not.1 h1, rfl, rfl⟩)
  | some b =>
    refine .inr (.inr ⟨b, not_not.1 h1, rfl, ?_⟩)
    dsimp only
    by_cases hc : keyCause s b = 0
    · exact .inl ⟨hc, if_pos hc⟩
    · exact .inr ⟨hc, if_neg hc⟩

theorem keyEnd_key_state (s : State) (st result : Nat) : (keyEnd s st result).key.state = st := rfl

/-- A key command in BURNING was there before, or is the one that has just passed every check. -/
theorem keyBurning_origin {c : Instr} {s t : State} (e : exec c s = .next t) (h : t.key.state = 3) :
    (s.key.state = 3 ∧ (t.key.target, t.key.op, t.key.newHash) = (s.key.target, s.key.op, s.key.newHash)) ∨
      ∃ r b, c = .keyReadDone r ∧ hpaData s r 30048 = some b ∧ keyCause s b = 0 ∧
        (t.key.target, t.key.op, t.key.newHash) = (kcTarget b, kcOp b, kcHash b) := by
  by_cases hread : ∃ r, c = .keyReadDone r
  · obtain ⟨r, rfl⟩ := hread
    rw [exec_keyReadDone] at e
    obtain ⟨-, hs⟩ | ⟨-, -, hs⟩ | ⟨b, -, hb, ⟨hc, hs⟩ | ⟨-, hs⟩⟩ := execKeyReadDone_cases r s <;>
      obtain rfl := Host.Outcome.next.inj (hs.symm.trans e)
    · exact .inl ⟨h, rfl⟩
    · exact absurd (h.symm.trans (keyEnd_key_state ..)) (by decide)
    · exact .inr ⟨r, b, rfl, hb, hc, rfl⟩
    · exact absurd (h.symm.trans (keyEnd_key_state ..)) (by decide)
  · have hkeeps : KeepsKey s t := KeepsKey.viaNext e (all_keepsKey c s fun r hr => hread ⟨r, hr⟩)
    have hkey := hkeeps.key h
    exact .inl ⟨hkey ▸ h, by rw [hkey]⟩

/-- Settles O28. -/
theorem fusesChangeOnlyByCheckedCommand : Obligations.FusesChangeOnlyByCheckedCommand :=
  fun _ _ _ e => ⟨keyBurning_origin e, fuses_change e⟩

end Sys2Proof.Machine
end

section
/-! PROOFS. POR_N, and the ends of the phases of the start-up sequence: O12, O13, O15 and O16. -/

namespace Sys2Proof.Machine

/-! ### A burn cut short (R420) -/

theorem partHash_draws (n : Nat) (b : Bytes) (s : State) : ∃ k, (partHash n b s).2 = { s with freeIx := k } := by
  induction n generalizing b s with
  | zero => exact ⟨s.freeIx, rfl⟩
  | succ n ih =>
    obtain ⟨k, hk⟩ := ih (b.drop 1) (freeBits 8 s).2
    exact ⟨k, hk⟩

theorem burnBad_eq (s : State) : ∃ f n, burnBad s = { s with fuses := f, freeIx := n } := by
  unfold burnBad
  obtain ⟨k, hk⟩ := partHash_draws 64 s.key.newHash s
  by_cases hop : s.key.op = 1
  · simp only [if_pos hop, hk]
    exact ⟨_, _, rfl⟩
  · simp only [if_neg hop]
    exact ⟨_, _, rfl⟩

/-- A burn cut short changes the fuses and draws free values, and nothing else. -/
theorem burnLost_eq (s : State) : ∃ f n, burnLost s = { s with fuses := f, freeIx := n } := by
  unfold burnLost
  split
  · exact ⟨s.fuses, s.freeIx, rfl⟩
  · dsimp only
    split
    · obtain ⟨f, n, h⟩ := burnBad_eq (freeBits 1 s).2
      exact ⟨f, n, h⟩
    · exact ⟨_, _, rfl⟩

/-- A burn cut short changes the fuses of its target slot alone. -/
theorem burnLost_fuses_ne (s : State) {i : Nat} (h : i ≠ s.key.target) :
    mget (burnLost s).fuses i = mget s.fuses i := by
  unfold burnLost
  split
  · rfl
  · dsimp only
    split
    · exact (burnBad_facts (freeBits 1 s).2).2.2.2 i h
    · rw [mget_mupd_ne _ _ (Ne.symm h)]
      rfl

/-! ### The assertion of POR_N (R449, R457) -/

theorem porReset_eq (s : State) : porReset s = { State.reset with
    now := s.now, fuses := (porReset s).fuses, idSeed := s.idSeed, grade := s.grade, stepping := s.stepping
    flash := { (default : Flash) with cells := (porReset s).flash.cells }, ports := (porReset s).ports
    aon := { s.aon with split := false, smbAddr := 0, thermTrip := false }
    out := s.out, freeIx := (porReset s).freeIx, pending := s.pending } := by
  obtain ⟨f, n, h⟩ := burnLost_eq s
  unfold porReset
  rw [h]
  rfl

theorem porReset_port (s : State) (p : Nat) :
    (porReset s).port p = { (default : HostPort) with perst := (s.port p).perst } := by
  obtain ⟨f, n, h⟩ := burnLost_eq s
  unfold porReset
  rw [h]
  exact mget_mmap s.ports (fun _ q => { (default : HostPort) with perst := q.perst }) p rfl

theorem porReset_flash (s : State) : (porReset s).flash = flashCut s.flash := by
  obtain ⟨f, n, h⟩ := burnLost_eq s
  unfold porReset
  rw [h]

theorem flashCut_cells_idle {f : Flash} (h : f.state ≠ 1) : (flashCut f).cells = f.cells := if_neg h

theorem flashCut_cells_erasing {f : Flash} (h : f.state = 1) (a : Nat) : cellRead 0xFF (flashCut f).cells a =
    if bankBase f.target ≤ a ∧ a < bankBase f.target + 4096 then 0xFF else cellRead 0xFF f.cells a := by
  have hcells : (flashCut f).cells = cellClear f.cells (bankBase f.target) 0x1000 := if_pos h
  rw [hcells, cellRead_clear]

/-! ### The deassertion of POR_N (R25, R41, R449) -/

theorem railsUp_region {r : Nat} (h : r < 8) : mget railsUp r = { (default : Region) with pgood := true } := by
  unfold railsUp
  exact mget_pairs _ 8 r h

/-- Settles O12. -/
theorem porAssertResetsAndDeassertStarts : Obligations.PorAssertResetsAndDeassertStarts := by
  unfold Obligations.PorAssertResetsAndDeassertStarts
  refine ⟨fun s => ⟨porReset s, rfl, porReset_eq s, porReset_port s, fun hidle => ?_, fun herase a => ?_, fun hkey => ?_,
    fun i hi => ?_⟩, fun split addr s hpor => ?_⟩
  · rw [porReset_flash, flashCut_cells_idle hidle]
  · rw [porReset_flash, flashCut_cells_erasing herase]
  · rw [porReset_fuses, burnLost_idle s hkey]
  · rw [porReset_fuses, burnLost_fuses_ne s hi]
  · rw [exec_porDeassert, execPorDeassert, hpor]
    exact ⟨_, rfl, rfl, fun r hr => railsUp_region hr⟩

/-! ### Phases FUSE and DRAM, and the bound of a phase (R25, R26, R28) -/

theorem aonInit_input (a : Aon) (i : Nat) :
    mget (aonInit a).inputs i = { (default : InputPin) with active := (mget a.inputs i).active } := by
  unfold aonInit
  rw [mget_mmap _ _ _ rfl]

/-- Settles O13. -/
theorem fuseDramPhasesEndAndTimeouts : Obligations.FuseDramPhasesEndAndTimeouts := by
  unfold Obligations.FuseDramPhasesEndAndTimeouts
  refine ⟨fun s hp => ?_, fun a b s hp => ?_, fun s hlo hhi => ?_⟩
  · rw [exec_phaseFuseEnd, execPhaseFuseEnd, if_neg (not_not.2 hp)]
    exact ⟨_, rfl, rfl, aonInit_input s.aon, fun p hlt => mget_pairs _ 2 p hlt⟩
  · rw [exec_phaseDramEnd, execPhaseDramEnd, if_neg (not_not.2 hp)]
    by_cases hstack : a = true ∨ b = true
    · have hcause : (if a || b then 0 else 0x01) = 0 := if_pos (by simpa using hstack)
      refine ⟨_, rfl, ?_⟩
      rw [hcause, phaseEnd_pass]
      exact ⟨rfl, rfl, rfl, fun _ => rfl, fun ha hb => by simp [ha, hb] at hstack⟩
    · obtain ⟨rfl, rfl⟩ : a = false ∧ b = false := by simpa using hstack
      refine ⟨_, rfl, ?_⟩
      rw [phaseEnd_fail _ _ (by decide)]
      exact ⟨rfl, rfl, rfl, fun h => by simp at h, fun _ _ => entersHeld_heldEntry s _ _ rfl⟩
  · rw [exec_phaseTimeout, execPhaseTimeout, if_pos (by simp [hlo, hhi])]
    exact ⟨_, rfl, entersHeld_heldEntry s s _ rfl⟩

/-! ### Phases VERIFY, CHECK and LOAD (R34 to R37) -/

theorem phaseVerifyEnd_outcome {s : State} (hp : s.scu.phase = 4) :
    ∃ t, exec .phaseVerifyEnd s = .next t ∧
      (imageVerifyCause s (s.scu.staging.getD []) = 0 →
        t.scu.phase = 5 ∧ t.scu.m0 = s.scu.stagingDigest ∧ t.scu.mCur = s.scu.stagingDigest ∧ t.scu.moultSeq = 0) ∧
      (imageVerifyCause s (s.scu.staging.getD []) ≠ 0 →
        entersHeld (imageVerifyCause s (s.scu.staging.getD [])) s t) := by
  rw [exec_phaseVerifyEnd, execPhaseVerifyEnd, if_neg (not_not.2 hp)]
  extract_lets b c scu u uscu v
  have hdigest : u.scu.stagingDigest = s.scu.stagingDigest := by
    simp only [u, scu]
    split <;> rfl
  have hnow : v.now = s.now := by
    simp only [v, u, uscu, scu]
    split <;> split <;> rfl
  refine ⟨_, rfl, fun hc => ?_, fun hc => ?_⟩
  · have hv : v = { u with scu := { u.scu with
        m0 := u.scu.stagingDigest, mCur := u.scu.stagingDigest, moultSeq := 0 } } := if_pos hc
    rw [show c = 0 from hc, phaseEnd_pass, hv]
    exact ⟨rfl, hdigest, hdigest, rfl⟩
  · rw [phaseEnd_fail _ _ hc]
    exact entersHeld_heldEntry s v c hnow

theorem phaseCheckEnd_outcome {s : State} (hp : s.scu.phase = 5) :
    ∃ t, exec .phaseCheckEnd s = .next t ∧
      (imageCheckCause s (s.scu.staging.getD []) = 0 → t = { s with scu := { s.scu with phase := 6 } }) ∧
      (imageCheckCause s (s.scu.staging.getD []) ≠ 0 →
        entersHeld (imageCheckCause s (s.scu.staging.getD [])) s t) := by
  rw [exec_phaseCheckEnd, execPhaseCheckEnd, if_neg (not_not.2 hp)]
  refine ⟨_, rfl, fun hc => ?_, fun hc => ?_⟩
  · rw [hc, phaseEnd_pass]
  · rw [phaseEnd_fail _ _ hc]
    exact entersHeld_heldEntry s s _ rfl

/-- The state that LOAD leaves before the self-test begins: the image loaded, the records zero and the pools empty. -/
def loadedState (s : State) : State :=
  { loadImage s with
    scu := { (loadImage s).scu with phase := 7 }, store := default, bpm := default, parts := [], devTuned := [] }

theorem exec_phaseLoadEnd_of_load {s : State} (hp : s.scu.phase = 6) : exec .phaseLoadEnd s =
    .next ((List.range 32).foldl selftestPlace (selftestWakes (List.range 8) (loadedState s))) := by
  rw [exec_phaseLoadEnd, execPhaseLoadEnd, if_neg (not_not.2 hp)]
  rfl

theorem loadImage_scu (s : State) : (loadImage s).scu =
    { s.scu with
      cfg := some (storedConfig (resultOf (s.scu.staging.getD []) none)
        (imagePlaces (graphsStart (resultOf (s.scu.staging.getD []) none)) (resultOf (s.scu.staging.getD []) none).graphs))
      staging := none, stagingDigest := [] } :=
  (placeGraphs_touch ..).same .scu (by decide)

theorem loadedState_region (s : State) (r : Nat) : (loadedState s).region r = s.region r :=
  (loadImage_touch s).region (by decide) r

theorem selftestPlaces_touch (l : List Nat) (s : State) : Touches [.ctxs, .blocks] s (l.foldl selftestPlace s) :=
  Touches.foldl selftestPlace_touch (Touches.refl s) l

/-- Settles O15. -/
theorem verifyCheckLoadPhasesEnd : Obligations.VerifyCheckLoadPhasesEnd := by
  unfold Obligations.VerifyCheckLoadPhasesEnd
  refine ⟨fun s hp => phaseVerifyEnd_outcome hp, fun s hp => phaseCheckEnd_outcome hp, fun s hp hrails => ?_⟩
  have hready : ∀ r ∈ List.range 8, ((loadedState s).region r).fenced = false ∧ ((loadedState s).region r).pgood = true := by
    intro r hr
    rw [loadedState_region]
    exact hrails r (List.mem_range.1 hr)
  obtain ⟨hwakes, htouchWakes⟩ := selftestWakes_all _ (loadedState s) hready
  have hplaces := selftestPlaces_touch (List.range 32) (selftestWakes (List.range 8) (loadedState s))
  have htouch : Touches [.regions, .ctxs, .blocks] (loadedState s)
      ((List.range 32).foldl selftestPlace (selftestWakes (List.range 8) (loadedState s))) :=
    htouchWakes.seq hplaces (by decide) (by decide)
  have hscu : ((List.range 32).foldl selftestPlace (selftestWakes (List.range 8) (loadedState s))).scu =
      { (loadImage s).scu with phase := 7 } := htouch.same .scu (by decide)
  refine ⟨_, exec_phaseLoadEnd_of_load hp, ?_, ?_, htouch.same .mem (by decide), ?_, htouch.same .store (by decide),
    htouch.same .bpm (by decide), htouch.same .parts (by decide), htouch.same .devTuned (by decide), fun r hr => ?_⟩
  · rw [hscu]
  · rw [hscu, loadImage_scu]
  · rw [hscu, loadImage_scu]
  · rw [hplaces.region (by decide)]
    exact hwakes r (.inl (List.mem_range.2 hr))

/-! ### Phases SELFTEST and PORTS (R27, R29) -/

/-- What phase SELFTEST fences: the cells, line stores and region stores that failed. -/
def selftestFences (cells lines stores : List Nat) (s : State) : State :=
  selftestRegions stores (List.range 8) (selftestBlocks lines (List.range 32) (selftestCells cells s))

theorem fences_selftestFences (cells lines stores : List Nat) (s : State) :
    Fences s (selftestFences cells lines stores s) :=
  ((fences_selftestCells ..).trans (fences_selftestBlocks ..)).trans (fences_selftestRegions ..)

theorem selftestFences_cell {cells : List Nat} (lines stores : List Nat) (s : State) {c : Nat} (h : c ∈ cells)
    (hc : c < 256) : ((selftestFences cells lines stores s).cell c).fenced = true :=
  ((fences_selftestBlocks ..).trans (fences_selftestRegions ..)).cell c (selftestCells_fence _ _ _ h hc)

theorem selftestFences_block (cells : List Nat) {lines : List Nat} (stores : List Nat) (s : State) {b : Nat}
    (h : b ∈ lines) (hb : b < 32) : ((selftestFences cells lines stores s).block b).fenced = true :=
  (fences_selftestRegions ..).block b (selftestBlocks_fence _ _ _ _ (List.mem_range.2 hb) h)

theorem selftestFences_region (cells lines : List Nat) {stores : List Nat} (s : State) {r : Nat} (h : r ∈ stores)
    (hr : r < 8) : ((selftestFences cells lines stores s).region r).fenced = true :=
  selftestRegions_fence _ _ _ _ (List.mem_range.2 hr) h

theorem fences_alarmsIfBare (l : List Nat) (s : State) :
    Fences s (l.foldl (fun s p => if pinnedNow s p then alarmIfBare s [p] else s) s) :=
  fences_foldl2 (fun v p => Fences.ite (Fences.off (alarmIfBare_touch v [p]) (by decide)) (Fences.refl v)) l s

/-- Past the fences of the self-test, the end of phase SELFTEST takes nothing back. -/
theorem phaseSelftestEnd_fences (cells lines stores : List Nat) {s : State} (hp : s.scu.phase = 7) :
    ∃ t, exec (.phaseSelftestEnd cells lines stores) s = .next t ∧ t.scu.phase = 8 ∧
      Fences (selftestFences cells lines stores s) t := by
  rw [exec_phaseSelftestEnd, execPhaseSelftestEnd, if_neg (not_not.2 hp)]
  extract_lets a b c d e
  have hb : Fences a b := (fences_demoteAtStart a).trans (fences_demoteAtStart _)
  have hc : Fences b c := fences_alarmsIfBare ..
  have hd : Fences c d := fences_wakeAll ..
  have he : Fences d e := fences_foldl2 fences_dropCtx _ d
  have hall : Fences (selftestFences cells lines stores s) e := ((hb.trans hc).trans hd).trans he
  clear_value e
  exact ⟨_, rfl, rfl, ⟨hall.cell, hall.block, hall.region⟩⟩

/-- The state in which Imago begins, before its streams are added (R27, R41, R438). -/
def imagoStart (s : State) : State :=
  { s with
    scu := { s.scu with phase := phaseImago, bootTime := s.now }
    pac := { s.pac with ctr := [] }
    regions := mmap s.regions (fun _ r => { r with counts := [], busyAt := s.now })
    parts := mmap s.parts (fun _ p => { p with sch := [], map := [], mapNew := [], ctxc := [], bpm := [] })
    dram := { s.dram with pcs := mmap s.dram.pcs (fun _ p => { p with ctr := [] }) }
    tu := { s.tu with paths := (List.range 10).map (fun p => (p, { s.path p with k := teKMin s.run.telemetry, ctr := [] })) } }

theorem imagoEntry_eq (s : State) : imagoEntry s = addStreams 0 (planOrder (imagoStart s).run) (imagoStart s) := by
  unfold imagoEntry
  rfl

theorem mfind_mmap {α : Type} (m : Map α) (f : Nat → α → α) (k : Nat) : mfind (mmap m f) k = (mfind m k).map (f k) := by
  induction m with
  | nil => rfl
  | cons a t ih =>
    obtain ⟨q, v⟩ := a
    by_cases e : q = k
    · subst e
      simp [mmap, mfind]
    · simpa [mmap, mfind, e] using ih

theorem imagoStart_busyAt {s : State} {r : Nat} (h : mfind s.regions r ≠ none) :
    ((imagoStart s).region r).busyAt = s.now := by
  obtain ⟨x, hx⟩ := Option.ne_none_iff_exists'.1 h
  have hfind := mfind_mmap s.regions (fun _ r => { r with counts := [], busyAt := s.now }) r
  rw [hx] at hfind
  exact congrArg Region.busyAt (mget_of_mfind hfind)

/-- Settles O16. -/
theorem selftestAndPortsPhasesEnd : Obligations.SelftestAndPortsPhasesEnd := by
  unfold Obligations.SelftestAndPortsPhasesEnd
  refine ⟨fun cells lines stores s hp => ?_, fun s hp => ?_⟩
  · obtain ⟨t, e, hphase, hfences⟩ := phaseSelftestEnd_fences cells lines stores hp
    have hkept := fences_selftestFences cells lines stores s
    refine ⟨t, e, hphase, fun c hc => hfences.cell c ?_, fun b hb => hfences.block b ?_, fun r hr => hfences.region r ?_⟩
    · exact hc.elim (fun h => selftestFences_cell _ _ s h.1 h.2) (hkept.cell c)
    · exact hb.elim (fun h => selftestFences_block _ _ s h.1 h.2) (hkept.block b)
    · exact hr.elim (fun h => selftestFences_region _ _ s h.1 h.2) (hkept.region r)
  · have hadds := addStreams_touch 0 (planOrder (imagoStart s).run) (imagoStart s)
    rw [exec_phasePortsEnd, execPhasePortsEnd, if_neg (not_not.2 hp), imagoEntry_eq]
    have hscu : (addStreams 0 (planOrder (imagoStart s).run) (imagoStart s)).scu =
        { s.scu with phase := phaseImago, bootTime := s.now } := hadds.same .scu (by decide)
    refine ⟨_, rfl, ?_, ?_, ?_, ?_, ?_, hadds.same .pac (by decide), fun r hr => ?_⟩
    · rw [State.imago, hscu]; rfl
    · rw [State.held, hscu]; rfl
    · rw [hscu]
    · rw [hscu]
    · rw [hscu]
    · rw [hadds.region (by decide)]
      exact imagoStart_busyAt hr

end Sys2Proof.Machine
end

section
/-! PROOFS. The registers of BAR0 and BAR4, the injection window, configuration requests and the hold bits: O17 to
O21. -/

namespace Sys2Proof.Machine

open Sys2Proof (Instr Word Bytes Byte)

/-! ### Accesses that reach a function -/

/-- BAR0 exists for every function, and no selector of it waits for a controller. -/
theorem barExists_zero (s : State) (fn : Nat) : barExists s fn 0 = true := rfl

theorem mustWait_bar0 (s : State) {off : Nat} (h : scuOffset off = false) : mustWait s 0 off = false := by
  simp [mustWait, h]

theorem exec_registerWrite_bar0 {s : State} {port fn off : Nat} (v : Word) (hpor : s.por = false)
    (htakes : fnTakes s port fn = true) (halign : off % 4 = 0) (hscu : scuOffset off = false) :
    exec (.registerWrite port fn 0 off v) s = .next (bar0Write s port fn off v) := by
  have hactive := portActive_of_fnTakes hpor htakes
  rw [exec_registerWrite, execRegisterWrite, if_neg (by simp [hactive, htakes, barExists_zero]), if_neg (not_not.2 halign),
    if_neg (by simp [mustWait_bar0 s hscu])]
  rfl

theorem exec_barMemoryRead_bar0 {s : State} {port fn off : Nat} (hpor : s.por = false)
    (htakes : fnTakes s port fn = true) (halign : off % 4 = 0) (hscu : scuOffset off = false) :
    exec (.barMemoryRead port fn 0 off) s = .next (barRead s port fn 0 off) := by
  have hactive := portActive_of_fnTakes hpor htakes
  rw [exec_barMemoryRead, execBarMemoryRead, if_neg (by simp [hactive]), if_neg (by simp [htakes, barExists_zero]),
    if_neg (by simp [halign]), if_neg (by simp [mustWait_bar0 s hscu])]

theorem exec_counterLowRead_bar0 {s : State} {port fn off : Nat} (hpor : s.por = false)
    (htakes : fnTakes s port fn = true) (halign : off % 4 = 0) (hscu : scuOffset off = false) :
    exec (.counterLowRead (.host port fn) 0 off) s = .next (barRead s port fn 0 off) := by
  have hactive := portActive_of_fnTakes hpor htakes
  rw [exec_counterLowRead, execCounterLowRead]
  simp [hactive, htakes, barExists_zero, halign, mustWait_bar0 s hscu]

/-- A read of BAR0 sends the word out that the register gives. -/
theorem barRead_bar0 (s : State) (port fn off : Nat) : barRead s port fn 0 off =
    emit (.readData (.host port fn) 0 off (pairRead s (.host port fn) 0 off (bar0Pair s port fn) (bar0Value s port fn)).1)
      (pairRead s (.host port fn) 0 off (bar0Pair s port fn) (bar0Value s port fn)).2 := rfl

theorem pairRead_low {s : State} {acc : Acc} {bar off v : Nat} {pair : Nat → Option Nat} (value : Nat → Word)
    (h : pair off = some v) : pairRead s acc bar off pair value = (loWord v, holdWord s acc bar (off + 4) (hiWord v)) := by
  rw [pairRead, h]

theorem pairRead_high {s : State} {acc : Acc} {bar off v : Nat} {pair : Nat → Option Nat} (value : Nat → Word)
    (hnone : pair (off + 4) = none) (h : pair off = some v) :
    pairRead s acc bar (off + 4) pair value = (heldWord s acc bar (off + 4), s) := by
  simp [pairRead, hnone, h]

theorem pairRead_plain {s : State} {acc : Acc} {bar off : Nat} {pair : Nat → Option Nat} (value : Nat → Word)
    (h : pair off = none) (hlow : pair (off - 4) = none) : pairRead s acc bar off pair value = (value off, s) := by
  simp [pairRead, h, hlow]

/-! ### Selectors of BAR0 -/

theorem selector_offset {q : Nat × Word} (h : q ∈ selectors) :
    q.1 % 4 = 0 ∧ scuOffset q.1 = false ∧ rwMask q.1 = q.2 ∧ q.2 ≠ 0 := by
  revert q
  decide

theorem bar0Write_selector {q : Nat × Word} (s : State) (port fn : Nat) (v : Word) (h : q ∈ selectors) :
    bar0Write s port fn q.1 v = plainWrite s port fn q.1 v := by
  fin_cases h <;> rfl

theorem bar0Pair_selector {q : Nat × Word} (s : State) (port fn : Nat) (h : q ∈ selectors) :
    bar0Pair s port fn q.1 = none ∧ bar0Pair s port fn (q.1 - 4) = none := by
  fin_cases h <;> exact ⟨rfl, rfl⟩

theorem bar0Value_selector {q : Nat × Word} (s : State) (port fn : Nat) (h : q ∈ selectors) :
    bar0Value s port fn q.1 = freg (s.fn port fn) q.1 := by
  fin_cases h <;> rfl

theorem plainWrite_selector {q : Nat × Word} (s : State) (port fn : Nat) (v : Word) (h : q ∈ selectors) :
    plainWrite s port fn q.1 v =
      s.updFn port fn (fun f => { f with regs := mput f.regs q.1 ((freg f q.1 &&& ~~~q.2) ||| (v &&& q.2)) }) := by
  obtain ⟨-, -, hmask, hne⟩ := selector_offset h
  have hignored : writeIgnored s port fn q.1 = false := by fin_cases h <;> rfl
  have hledger : ledgerMask (s.fn port fn) q.1 = 0xFFFFFFFF := by fin_cases h <;> rfl
  have hfull : rwMask q.1 &&& ledgerMask (s.fn port fn) q.1 = q.2 := by
    rw [hmask, hledger]
    exact BitVec.and_allOnes
  simp only [plainWrite, hignored, hfull, hne, Bool.false_eq_true, decide_false, Bool.or_self, if_false]

/-- Settles O17. -/
theorem selectorWriteAndRead : Obligations.SelectorWriteAndRead := by
  unfold Obligations.SelectorWriteAndRead
  intro port fn q v s hpor htakes hq
  obtain ⟨halign, hscu, -, -⟩ := selector_offset hq
  refine ⟨⟨_, exec_registerWrite_bar0 v hpor htakes halign hscu, ?_⟩, _, exec_barMemoryRead_bar0 hpor htakes halign hscu, ?_⟩
  · rw [bar0Write_selector s port fn v hq, plainWrite_selector s port fn v hq]
    refine ⟨?_, fun off hoff => ?_, fun port' fn' hne => State.fn_updFn_ne _ _ _ _ _ _ (Ne.symm hne),
      State.updFn_touch_fns _ _ _ _ (fun _ => rfl)⟩
    · rw [State.fn_updFn_self]
      exact mget_mput_self ..
    · rw [State.fn_updFn_self]
      exact mget_mput_ne _ _ (Ne.symm hoff)
  · obtain ⟨hnone, hlow⟩ := bar0Pair_selector s port fn hq
    rw [barRead_bar0, pairRead_plain _ hnone hlow, bar0Value_selector s port fn hq]
    rfl

/-! ### 64-bit counters of BAR0 (R10) -/

theorem bar0Pair_offset {s : State} {port fn off v : Nat} (h : bar0Pair s port fn off = some v) :
    off % 4 = 0 ∧ scuOffset off = false ∧ scuOffset (off + 4) = false ∧ bar0Pair s port fn (off + 4) = none := by
  have hmem := bar0Pair_mem h
  fin_cases hmem <;> exact ⟨rfl, rfl, rfl, rfl⟩

theorem heldWord_holdWord_self (s : State) (acc : Acc) (bar off : Nat) (w : Word) :
    heldWord (holdWord s acc bar off w) acc bar off = w := by
  cases acc <;> simp [heldWord, holdWord]

theorem heldWord_holdWord_ne (s : State) {port fn bar off port' fn' bar' off' : Nat} (w : Word)
    (h : (fnIx port' fn', holdKey bar' off') ≠ (fnIx port fn, holdKey bar off)) :
    heldWord (holdWord s (.host port fn) bar off w) (.host port' fn') bar' off' = heldWord s (.host port' fn') bar' off' := by
  simp only [heldWord, holdWord, fn_upd_all]
  by_cases hfn : fnIx port fn = fnIx port' fn'
  · rw [if_pos hfn]
    exact mget_mput_ne _ _ fun hkey => h (by rw [hfn, hkey])
  · rw [if_neg hfn]

/-- Settles O18. -/
theorem counterLowReadLatchesHigh : Obligations.CounterLowReadLatchesHigh := by
  unfold Obligations.CounterLowReadLatchesHigh
  refine ⟨fun port fn off v s hpor htakes hpair => ?_, fun port fn off v s hpor htakes hpair => ?_⟩
  · obtain ⟨halign, hscu, -, -⟩ := bar0Pair_offset hpair
    refine ⟨_, exec_counterLowRead_bar0 hpor htakes halign hscu, ?_⟩
    rw [barRead_bar0, pairRead_low _ hpair]
    refine ⟨rfl, heldWord_holdWord_self s (.host port fn) 0 (off + 4) (hiWord v), fun _ _ _ _ h => heldWord_holdWord_ne s _ h, ?_⟩
    have hhold : Touches [.fns] s (holdWord s (.host port fn) 0 (off + 4) (hiWord v)) :=
      State.updFn_touch_fns _ _ _ _ (fun _ => rfl)
    exact hhold.seq (touches_out _ _) (by decide) (by decide)
  · obtain ⟨halign, -, hscu, hnone⟩ := bar0Pair_offset hpair
    refine ⟨_, exec_barMemoryRead_bar0 hpor htakes (by omega) hscu, ?_⟩
    rw [barRead_bar0, pairRead_high _ hnone hpair]
    rfl

/-! ### Misaligned accesses, and accesses into a stopped region (R5, R353) -/

theorem hpCount_ctr (s : State) (p k n : Nat) :
    mget ((hpCount s p k n).port p).ctr k = satAdd (2 ^ 64 - 1) (mget (s.port p).ctr k) n := by
  rw [hpCount, State.port_updPort_self]
  exact mget_mupd_self (s.port p).ctr k (fun v => satAdd (2 ^ 64 - 1) v n)

/-- Settles O19. -/
theorem misalignedAndStoppedAccesses : Obligations.MisalignedAndStoppedAccesses := by
  unfold Obligations.MisalignedAndStoppedAccesses
  refine ⟨fun port fn bar off size write s hpor htakes hbar h2 hmis => ?_, fun port region off write s htakes hstop => ?_⟩
  · have hactive := portActive_of_fnTakes hpor htakes
    have hmis' : (decide (size = 4) && decide (off % 4 = 0)) = false := by simpa using hmis
    have hlog (v : State) : Touches reachReport v (raiseLog v (uHp + port)) := (raiseLog_touch ..).sub (by decide)
    rw [exec_misalignedAccess, execMisalignedAccess, if_neg (by simp [hactive, h2, hmis']), if_neg (by simp [htakes, hbar])]
    cases write with
    | true => exact ⟨_, rfl, hlog s, rfl⟩
    | false => exact ⟨_, rfl, (touches_out s _).seq (hlog _) (by decide) (by decide), rfl⟩
  · rw [exec_stoppedWindowAccess, execStoppedWindowAccess, if_neg (by simp [htakes, hstop])]
    refine ⟨_, rfl, (windowDiscard_touch ..).sub (by decide), rfl, ?_⟩
    rw [windowDiscard, (raiseLog_touch ..).port (by decide), hpCount_ctr]

/-! ### The injection window (R125) -/

theorem inj_wf {s : State} (h : s.memWf) (port fn : Nat) : cellsWf 0 (s.inj port fn).bytes = true :=
  mget_of_all (fun f => cellsWf 0 f.inj.bytes = true) s.fns (fnIx port fn) h.2.2.1 rfl

/-- Bytes beyond the ring are cut off, so a byte of the ring reads as written where the write reaches it. -/
theorem injWriteBytes_read {s : State} {port fn off : Nat} {data : Bytes} (hwf : s.memWf)
    (hon : (s.inj port fn).enabled = true) (a : Nat) :
    cellRead 0 ((injWriteBytes s port fn off data).inj port fn).bytes a =
      if off ≤ a ∧ a < off + data.length ∧ a < injSize (s.inj port fn) then data.getD (a - off) 0
      else cellRead 0 (s.inj port fn).bytes a := by
  rw [injWriteBytes, if_pos hon, inj_upd, cellRead_writeBytes _ _ _ _ _ (inj_wf hwf port fn), List.length_take]
  by_cases hin : off ≤ a ∧ a < off + data.length ∧ a < injSize (s.inj port fn)
  · have hlt : a - off < injSize (s.inj port fn) - off := by omega
    rw [if_pos hin, if_pos (by omega), List.getD_eq_getElem?_getD, List.getElem?_take, if_pos hlt,
      List.getD_eq_getElem?_getD]
  · rw [if_neg hin, if_neg (by omega)]

/-- Settles O20. -/
theorem injectionWindowWrite : Obligations.InjectionWindowWrite := by
  unfold Obligations.InjectionWindowWrite
  intro port fn off data s hpor himago htakes hon hwf
  have hactive := portActive_of_fnTakes hpor htakes
  have hreach (poisoned : Bool) : exec (.barMemoryWrite port fn off data poisoned) s =
      .next (if poisoned then hpCount s port 5 1 else injWriteBytes s port fn off data) := by
    rw [exec_barMemoryWrite, execBarMemoryWrite, if_neg (by simp [hactive, htakes, barExists, himago])]
    cases poisoned <;> rfl
  refine ⟨⟨_, hreach false, fun a => injWriteBytes_read hwf hon a, ?_⟩, _, hreach true, rfl⟩
  rw [if_neg (by simp), injWriteBytes, if_pos hon]
  exact State.updInj_touch ..

/-! ### Configuration requests, D-states and the hold bits (R354, R371, R384) -/

theorem fnPresent_of_configReady {s : State} {port fn : Nat} (h : configReady s port fn = true) :
    fnPresent s port fn = true := by
  unfold configReady at h
  simp only [Bool.and_eq_true] at h
  exact h.1.1

theorem portPresent_of_fnPresent {s : State} {port fn : Nat} (h : fnPresent s port fn = true) :
    portPresent s port = true := by
  unfold fnPresent at h
  simp only [Bool.and_eq_true] at h
  exact h.1

/-- A configuration request that reaches its function is a read or a write of the register. -/
theorem exec_configRequest_of_ready {s : State} {port fn : Nat} (reg : Nat) (write : Option Word) (hpor : s.por = false)
    (himago : s.imago = true) (hready : configReady s port fn = true) :
    exec (.configRequest port fn reg write) s = .next (match write with
      | none => emit (.configData port fn reg (configRead s port fn reg)) s
      | some v => emit (.writeDone port fn) (configWrite s port fn reg v)) := by
  have hpresent := fnPresent_of_configReady hready
  have hactive : portActive s port = true := by simp [portActive, portPresent_of_fnPresent hpresent, hpor]
  have hphase : s.scu.phase = 9 := by simpa [State.imago, phaseImago] using himago
  have hreleased : portReleased s = true := by simp [portReleased, hphase]
  rw [exec_configRequest]
  unfold execConfigRequest
  rw [if_neg (by simp [hactive, hreleased]), if_neg (by simp [himago, hready]), if_neg (by simp [hpresent])]
  cases write <;> rfl

/-- The link of a port follows the D-states of its functions, and nothing else changes. -/
theorem dStateSet_D3 {s : State} {port fn : Nat} (h : (s.fn port fn).dstate = 0) :
    dStateSet s port fn 3 = linkFollow (s.updFn port fn (fun f => { f with dstate := 3 })) port := by
  simp [dStateSet, h]

theorem linkFollow_link {s : State} {port : Nat} (h : linkUp (s.port port) = true) :
    ((linkFollow s port).port port).link = if allD3 (linkFollow s port) port then 2 else 1 := by
  rw [linkFollow, if_pos h, State.port_updPort_self]
  rfl

theorem linkFollow_fn (s : State) (port port' fn' : Nat) : (linkFollow s port).fn port' fn' = s.fn port' fn' := by
  unfold linkFollow
  split <;> rfl

theorem holdWrite_port (s : State) (port : Nat) (v : Word) (p : Nat) :
    (holdWrite s port v).port p = (s.updPort port (fun x => { x with hold := wbits v 7 0 })).port p := by
  unfold holdWrite
  dsimp only
  split
  · rfl
  · exact (wakeHeld_touch ..).port (by decide) p

/-- Settles O21. -/
theorem configurationAndHolds : Obligations.ConfigurationAndHolds := by
  unfold Obligations.ConfigurationAndHolds
  refine ⟨fun port fn reg s hpor himago hready => ?_, fun port fn v s hpor himago hready => ?_,
    fun port fn s hready hd0 => ?_, fun port v s htakes => ?_⟩
  · exact ⟨_, exec_configRequest_of_ready reg none hpor himago hready, rfl⟩
  · have hkeep : configWrite s port fn 0x3C v = s.updFn port fn (fun f => { f with config := mput f.config 0x3C v }) := rfl
    refine ⟨_, exec_configRequest_of_ready 0x3C (some v) hpor himago hready, ?_⟩
    dsimp only
    rw [hkeep]
    have hfns : Touches [.fns] s (s.updFn port fn (fun f => { f with config := mput f.config 0x3C v })) :=
      State.updFn_touch_fns _ _ _ _ (fun _ => rfl)
    refine ⟨?_, rfl, hfns.seq (touches_out _ _) (by decide) (by decide)⟩
    rw [State.fn_emit, State.fn_updFn_self]
    exact mget_mput_self ..
  · rw [exec_dStateChange, execDStateChange, if_pos hready, dStateSet_D3 hd0]
    have hfns : Touches [.fns] s (s.updFn port fn (fun f => { f with dstate := 3 })) :=
      State.updFn_touch_fns _ _ _ _ (fun _ => rfl)
    refine ⟨_, rfl, ?_, hfns.seq (linkFollow_touch ..) (by decide) (by decide), fun hup => linkFollow_link hup⟩
    rw [linkFollow_fn, State.fn_updFn_self]
  · rw [exec_parkHoldWrite, execParkHoldWrite, if_pos htakes]
    refine ⟨_, rfl, ?_, fun p hp => ?_⟩
    · rw [holdWrite_port, State.port_updPort_self]
    · rw [holdWrite_port, State.port_updPort_ne _ _ (Ne.symm hp)]

end Sys2Proof.Machine
end

section
/-! PROOFS. Tunable commands (R42 to R45): O22. -/

namespace Sys2Proof.Machine

open Sys2Proof (Instr Word Bytes Byte)

/-! ### Issue of a command -/

theorem tuneIssue_idle {s : State} {port fn kind : Nat} (hkind : kind ≠ 0) (hidle : (s.fn port fn).tuneCmd = none)
    (hheld : s.held = false) : tuneIssue s port fn kind = s.updFn port fn (fun f => { f with
      tuneCmd := some ⟨kind, wbits (freg (s.fn port fn) offTuneSel) 15 0, freg (s.fn port fn) offTuneVal,
        tuneCheck s port fn kind (wbits (freg (s.fn port fn) offTuneSel) 15 0)
          (toSigned 32 (freg (s.fn port fn) offTuneVal).toNat)⟩ }) := by
  simp [tuneIssue, hkind, hidle, hheld]

theorem tuneIssue_held {s : State} {port fn kind : Nat} (hkind : kind ≠ 0) (hidle : (s.fn port fn).tuneCmd = none)
    (hheld : s.held = true) : tuneIssue s port fn kind = s.updFn port fn (fun f => { f with tuneResult := 0x01 }) := by
  simp [tuneIssue, hkind, hidle, hheld, tuneUnknown]

theorem tuneIssue_busy {s : State} {port fn kind : Nat} (hkind : kind ≠ 0) (hbusy : (s.fn port fn).tuneCmd ≠ none) :
    tuneIssue s port fn kind = s.updFn port fn (fun f => { f with tuneResult := 0x05 }) := by
  simp [tuneIssue, hkind, Option.isSome_iff_ne_none, hbusy, tuneBusy]

theorem tuneIssue_fn_ne (s : State) (port fn kind : Nat) {p f : Nat} (h : fnIx p f ≠ fnIx port fn) :
    (tuneIssue s port fn kind).fn p f = s.fn p f := by
  have hupd (g : Fn → Fn) : (s.updFn port fn g).fn p f = s.fn p f := State.fn_updFn_ne _ _ _ _ _ _ (Ne.symm h)
  unfold tuneIssue
  dsimp only
  split
  · rfl
  · split
    · exact hupd _
    · split <;> exact hupd _

/-- The three commands of R44 are issues of their kinds. -/
theorem exec_tuneIssue {port fn kind : Nat} {i : Instr} {s : State}
    (h : (kind, i) ∈ [(1, Instr.tuneWrite port fn false), (3, Instr.tuneWrite port fn true), (2, Instr.tuneRead port fn)])
    (htakes : fnTakes s port fn = true) (hup : s.scu.restarting = false) :
    kind ≠ 0 ∧ exec i s = .next (tuneIssue s port fn kind) := by
  simp only [List.mem_cons, Prod.mk.injEq, List.not_mem_nil, or_false] at h
  obtain ⟨rfl, rfl⟩ | ⟨rfl, rfl⟩ | ⟨rfl, rfl⟩ := h
  · exact ⟨by decide, by simp [execTuneWrite, htakes, hup]⟩
  · exact ⟨by decide, by simp [execTuneWrite, htakes, hup]⟩
  · exact ⟨by decide, by simp [execTuneRead, htakes, hup]⟩

/-! ### Completion of a command -/

theorem exec_tuneComplete_of_cmd {s : State} {port fn : Nat} {c : TuneCmd} (hup : s.scu.restarting = false)
    (hcmd : (s.fn port fn).tuneCmd = some c) : exec (.tuneComplete port fn) s =
      .next ((tuneCarry s port fn c).updFn port fn (fun f => { f with tuneCmd := none, tuneResult := c.result })) := by
  rw [exec_tuneComplete, execTuneComplete, if_neg (by simp [hup]), tuneFinish, hcmd]

theorem tuneDecl_tuId {s : State} {port fn id : Nat} {d : Bytes} (h : tuneDecl s port fn id = some d) : tuId d = id := by
  unfold tuneDecl at h
  split at h
  · cases h
  · have hfound := List.find?_some h
    simp only [Bool.and_eq_true, beq_iff_eq] at hfound
    exact hfound.1

theorem tuneDecl_of_scu {s t : State} (h : t.scu = s.scu) (port fn id : Nat) : tuneDecl t port fn id = tuneDecl s port fn id := by
  unfold tuneDecl partOfFn State.run
  rw [h]

theorem toSigned_code (v : Word) : BitVec.ofNat 32 (ofSigned 32 (toSigned 32 v.toNat)) = v := by
  have hv : v.toNat < 2 ^ 32 := v.isLt
  apply BitVec.eq_of_toNat_eq
  rw [BitVec.toNat_ofNat]
  unfold ofSigned toSigned
  split <;> omega

/-- Writing a partition's parameter at a list of streams sets it there. -/
theorem tuneStreams_tun (id : Nat) (v : Int) (l : List Nat) (s : State) {i : Nat}
    (h : i ∈ l ∨ mfind (s.stream i).tun id = some v) : mfind ((tuneStreams id v l s).stream i).tun id = some v := by
  induction l generalizing s with
  | nil => simpa [tuneStreams] using h
  | cons a t ih =>
    refine ih _ ?_
    rw [State.stream_updStream]
    by_cases ha : a = i
    · rw [if_pos ha]
      exact .inr (mfind_mput_self ..)
    · rw [if_neg ha]
      exact h.imp_left fun hi => (List.mem_cons.1 hi).resolve_left (Ne.symm ha)

/-- What a write of a declared parameter does: the device's value, or the partition's and that of every stream of its
plan (R43). -/
theorem tuneWriteValue_device {s : State} {port fn id : Nat} {d : Bytes} (v : Int) (hd : tuneDecl s port fn id = some d)
    (h : tuScope d = 0) : tuneWriteValue s port fn id v = { s with devTuned := mput s.devTuned id v } := by
  rw [tuneWriteValue, hd]
  exact if_pos h

theorem tuneWriteValue_part {s : State} {port fn id : Nat} {d : Bytes} (v : Int) (hd : tuneDecl s port fn id = some d)
    (h : tuScope d ≠ 0) : tuneWriteValue s port fn id v = tuneStreams id v (planSlots s (tuPart d))
      (s.updPart (tuPart d) (fun x => { x with tuned := mput x.tuned id v })) := by
  rw [tuneWriteValue, hd]
  exact if_neg h

theorem tuneWriteValue_part_facts {s : State} {port fn id : Nat} {d : Bytes} (v : Int)
    (hd : tuneDecl s port fn id = some d) (h : tuScope d ≠ 0) :
    mfind ((tuneWriteValue s port fn id v).part (tuPart d)).tuned id = some v ∧
      (∀ i ∈ planSlots s (tuPart d), mfind ((tuneWriteValue s port fn id v).stream i).tun id = some v) ∧
      (∀ p, p ≠ tuPart d → (tuneWriteValue s port fn id v).part p = s.part p) ∧
      Touches [.streams, .parts] s (tuneWriteValue s port fn id v) := by
  rw [tuneWriteValue_part v hd h]
  have hstreams := tuneStreams_touch id v (planSlots s (tuPart d))
    (s.updPart (tuPart d) (fun x => { x with tuned := mput x.tuned id v }))
  refine ⟨?_, fun i hi => tuneStreams_tun _ _ _ _ (.inl hi), fun p hp => ?_, ?_⟩
  · rw [hstreams.part (by decide), State.part_updPart_self]
    exact mfind_mput_self ..
  · rw [hstreams.part (by decide), State.part_updPart_ne _ _ (Ne.symm hp)]
  · exact (State.updPart_touch ..).seq hstreams (by decide) (by decide)

/-- A read after a write returns what was written (R44). -/
theorem tuneReadValue_written {s : State} {port fn id : Nat} {d : Bytes} (v : Int) (hd : tuneDecl s port fn id = some d) :
    tuneReadValue (tuneWriteValue s port fn id v) d = v := by
  unfold tuneReadValue
  rw [tuneDecl_tuId hd]
  by_cases hscope : tuScope d = 0
  · rw [if_pos hscope, tuneWriteValue_device v hd hscope]
    simp [mfind_mput_self]
  · rw [if_neg hscope, (tuneWriteValue_part_facts v hd hscope).1]

/-- The three kinds of a command that passed its check. -/
theorem tuneCarry_write {s : State} {port fn : Nat} {c : TuneCmd} (hr : c.result = 0) (hk : c.kind = 1) :
    tuneCarry s port fn c = tuneWriteValue s port fn c.param (toSigned 32 c.value.toNat) := by
  simp [tuneCarry, hr, hk, tuneDone]

theorem tuneCarry_read {s : State} {port fn : Nat} {c : TuneCmd} {d : Bytes} (hr : c.result = 0) (hk : c.kind = 2)
    (hd : tuneDecl s port fn c.param = some d) : tuneCarry s port fn c = s.updFn port fn (fun f => { f with
      regs := mput f.regs offTuneVal (BitVec.ofNat 32 (ofSigned 32 (tuneReadValue s d))) }) := by
  simp [tuneCarry, hr, hk, tuneDone, hd]

theorem tuneCarry_both {s : State} {port fn : Nat} {c : TuneCmd} {d : Bytes} (hr : c.result = 0) (hk : c.kind = 3)
    (hd : tuneDecl s port fn c.param = some d) : tuneCarry s port fn c =
      (tuneWriteValue s port fn c.param (toSigned 32 c.value.toNat)).updFn port fn (fun f => { f with
        regs := mput f.regs offTuneVal c.value }) := by
  have hd' : tuneDecl (tuneWriteValue s port fn c.param (toSigned 32 c.value.toNat)) port fn c.param = some d := by
    rw [tuneDecl_of_scu ((tuneWriteValue_touch ..).same .scu (by decide)), hd]
  simp [tuneCarry, hr, hk, tuneDone, hd', tuneReadValue_written _ hd, toSigned_code]

/-- A write command, whether it reads back or not, leaves what the write of the value leaves, but for the functions. -/
theorem tuneCarry_writes {s : State} {port fn : Nat} {c : TuneCmd} {d : Bytes} (hr : c.result = 0)
    (hk : c.kind = 1 ∨ c.kind = 3) (hd : tuneDecl s port fn c.param = some d) :
    Touches [.fns] (tuneWriteValue s port fn c.param (toSigned 32 c.value.toNat)) (tuneCarry s port fn c) := by
  obtain hk | hk := hk
  · rw [tuneCarry_write hr hk]
    exact Touches.refl _
  · rw [tuneCarry_both hr hk hd]
    exact State.updFn_touch_fns _ _ _ _ (fun _ => rfl)

/-- A completed command that passed its check has its effect (R43, R44). -/
theorem tuneDone_effect {s t : State} {port fn : Nat} {c : TuneCmd} {d : Bytes} (hr : c.result = 0)
    (hd : tuneDecl s port fn c.param = some d)
    (ht : t = (tuneCarry s port fn c).updFn port fn (fun f => { f with tuneCmd := none, tuneResult := c.result })) :
    (c.kind = 1 ∨ c.kind = 3 →
      (tuScope d = 0 → mfind t.devTuned c.param = some (toSigned 32 c.value.toNat) ∧ Touches [.fns, .devTuned] s t) ∧
      (tuScope d ≠ 0 → mfind (t.part (tuPart d)).tuned c.param = some (toSigned 32 c.value.toNat) ∧
        (∀ i ∈ planSlots s (tuPart d), mfind (t.stream i).tun c.param = some (toSigned 32 c.value.toNat)) ∧
        (∀ p, p ≠ tuPart d → t.part p = s.part p) ∧ Touches [.fns, .streams, .parts] s t)) ∧
    (c.kind = 2 → freg (t.fn port fn) offTuneVal = BitVec.ofNat 32 (ofSigned 32 (tuneReadValue s d)) ∧ Touches [.fns] s t) ∧
    (c.kind = 3 → freg (t.fn port fn) offTuneVal = c.value) := by
  have hlast : Touches [.fns] (tuneCarry s port fn c) t := by
    rw [ht]
    exact State.updFn_touch_fns _ _ _ _ (fun _ => rfl)
  have hregs : freg (t.fn port fn) offTuneVal = freg ((tuneCarry s port fn c).fn port fn) offTuneVal := by
    rw [ht, State.fn_updFn_self]
    rfl
  refine ⟨fun hk => ?_, fun hk => ⟨?_, ?_⟩, fun hk => ?_⟩
  · have hfns := (tuneCarry_writes hr hk hd).trans hlast
    refine ⟨fun hscope => ?_, fun hscope => ?_⟩
    · have hdev := tuneWriteValue_device (toSigned 32 c.value.toNat) hd hscope
      have htouch : Touches [.devTuned] s (tuneWriteValue s port fn c.param (toSigned 32 c.value.toNat)) := by
        rw [hdev]
        exact Touches.ofMk (Touches.refl s) kp kp kp kp kp kp kp kp kp kp kp kp kp kp kp kp kp kp kp kp kp kp kp kp kp
          kp kp kp kp kp kp kp kp ch kp kp kp kp kp
      refine ⟨?_, htouch.seq hfns (by decide) (by decide)⟩
      rw [show t.devTuned = _ from hfns.same .devTuned (by decide), hdev]
      exact mfind_mput_self ..
    · obtain ⟨hpart, hstream, hother, htouch⟩ := tuneWriteValue_part_facts (toSigned 32 c.value.toNat) hd hscope
      refine ⟨?_, fun i hi => ?_, fun p hp => ?_, htouch.seq hfns (by decide) (by decide)⟩
      · rw [hfns.part (by decide), hpart]
      · rw [hfns.stream (by decide), hstream i hi]
      · rw [hfns.part (by decide), hother p hp]
  · rw [hregs, tuneCarry_read hr hk hd, State.fn_updFn_self]
    exact mget_mput_self ..
  · rw [tuneCarry_read hr hk hd] at hlast
    refine Touches.trans ?_ hlast
    exact State.updFn_touch_fns _ _ _ _ (fun _ => rfl)
  · rw [hregs, tuneCarry_both hr hk hd, State.fn_updFn_self]
    exact mget_mput_self ..

/-- Settles O22. -/
theorem tunableCommands : Obligations.TunableCommands := by
  unfold Obligations.TunableCommands
  refine ⟨fun port fn kind i s hi htakes hup => ?_, fun port fn c s hup hcmd => ?_⟩
  · obtain ⟨hkind, he⟩ := exec_tuneIssue hi htakes hup
    refine ⟨_, he, tuneIssue_touch .., fun p f h => tuneIssue_fn_ne s port fn kind h, fun hidle hheld => ?_,
      fun hidle hheld => ?_, fun hbusy => ?_⟩
    · rw [tuneIssue_idle hkind hidle hheld, State.fn_updFn_self]
    · rw [tuneIssue_held hkind hidle hheld, State.fn_updFn_self]
    · rw [tuneIssue_busy hkind hbusy, State.fn_updFn_self]
  · refine ⟨_, exec_tuneComplete_of_cmd hup hcmd, ?_, ?_, ?_, fun hr => ?_, fun d hr hd => tuneDone_effect hr hd rfl⟩
    · refine (tuneCarry_touch s port fn c).trans (Touches.sub (l := [.fns]) ?_ (by decide))
      exact State.updFn_touch_fns _ _ _ _ (fun _ => rfl)
    · rw [State.fn_updFn_self]
    · rw [State.fn_updFn_self]
    · rw [tuneCarry, if_pos (show c.result ≠ tuneDone from hr)]

end Sys2Proof.Machine
end

section
/-! PROOFS. A Moult up to the end of CHECK, and its abort (R47, R50, R52): O23. -/

namespace Sys2Proof.Machine

open Sys2Proof (Instr Word Bytes Byte)

theorem touches_moult (s : State) (m : Moult) : Touches [.moult] s { s with moult := m } :=
  Touches.ofMk (Touches.refl s) kp kp kp kp kp ch kp kp kp kp kp kp kp kp kp kp kp kp kp kp kp kp kp kp kp kp kp kp kp kp kp
    kp kp kp kp kp kp kp kp

theorem moultStart_tooLong {s : State} (hidle : moultBusy s = false) (h : 64 * 2 ^ 20 < moultLen s) :
    moultStart s = moultReject s 0x05 := by
  rw [moultStart, if_neg (by simp [hidle]), if_pos (show maxMoult < moultLen s from h)]

theorem moultStart_fetches {s : State} (hidle : moultBusy s = false) (h : moultLen s ≤ 64 * 2 ^ 20) :
    (moultStart s).moult.state = 1 ∧ (moultStart s).moult.cause = 0 ∧ Touches [.moult, .out] s (moultStart s) := by
  have hstart : moultStart s = hpaRead { s with moult := { s.moult with state := 1, cause := 0 } }
      (hostAddr (s.fn 0 0) offMoultLo offMoultHi) (moultLen s) := by
    rw [moultStart, if_neg (by simp [hidle]), if_neg (show ¬ maxMoult < moultLen s from Nat.not_lt.2 h)]
    rfl
  have hread := hpaRead_touch { s with moult := { s.moult with state := 1, cause := 0 } }
    (hostAddr (s.fn 0 0) offMoultLo offMoultHi) (moultLen s)
  have hmoult : (moultStart s).moult = { s.moult with state := 1, cause := 0 } := by
    rw [hstart]
    exact hread.same .moult (by decide)
  rw [hmoult]
  refine ⟨rfl, rfl, ?_⟩
  rw [hstart]
  exact (touches_moult s _).seq hread (by decide) (by decide)

/-- Settles O23. -/
theorem moultProgress : Obligations.MoultProgress := by
  unfold Obligations.MoultProgress
  refine ⟨fun s htakes hheld hup hidle => ?_, fun s htakes hheld hup hearly => ?_, fun r s hst => ?_, fun s hst => ?_,
    fun s hst => ?_⟩
  · rw [exec_moultGo, execMoultGo, if_neg (by simp [htakes, hheld]), if_neg (by simp [hup])]
    refine ⟨_, rfl, moultStart_touch s, fun h => moultStart_fetches hidle h, fun h => ?_⟩
    obtain ⟨hstate, hcause, -, hirq, -⟩ := moultReject_facts s 0x05
    rw [if_neg Bool.false_ne_true, moultStart_tooLong hidle h]
    exact ⟨hstate, hcause, hirq⟩
  · obtain ⟨hstate, hcause, hnext, hirq, htouch⟩ := moultReject_facts s 0x25
    rw [exec_moultAbort, execMoultAbort, if_neg (by simp [htakes, hheld]), if_neg (by simp [hup]), moultCut, if_pos hearly]
    exact ⟨_, rfl, hstate, hcause, hnext, hirq, htouch⟩
  · rw [exec_moultFetchEnd, execMoultFetchEnd, if_neg (not_not.2 hst)]
    cases hdata : hpaData s r (moultLen s) with
    | none =>
      obtain ⟨hstate, hcause, -, hirq, htouch⟩ := moultReject_facts (readCount s 0 0 r) 0x22
      exact ⟨_, rfl, hstate, hcause, hirq, htouch.same .ports (by decide),
        (readCount_touch ..).seq htouch (by decide) (by decide)⟩
    | some b => exact ⟨_, rfl, touches_moult s _, rfl, rfl, rfl⟩
  · rw [exec_moultVerifyEnd, execMoultVerifyEnd, if_neg (not_not.2 hst)]
    dsimp only
    by_cases hc : moultVerifyCause s s.moult.container = 0
    · rw [if_pos hc]
      exact ⟨_, rfl, (touches_moult s _).sub (by decide), fun _ => rfl, fun hne => absurd hc hne⟩
    · obtain ⟨hstate, hcause, -, hirq, htouch⟩ := moultReject_facts s (moultVerifyCause s s.moult.container)
      rw [if_neg hc]
      exact ⟨_, rfl, htouch, fun heq => absurd heq hc, fun _ => ⟨hstate, hcause, hirq⟩⟩
  · rw [exec_moultCheckEnd, execMoultCheckEnd, if_neg (not_not.2 hst)]
    dsimp only
    by_cases hc : moultCheckCause s s.moult.container = 0
    · rw [if_pos hc]
      exact ⟨_, rfl, (touches_moult s _).sub (by decide), fun _ => ⟨rfl, rfl⟩, fun hne => absurd hc hne⟩
    · obtain ⟨hstate, hcause, -, -, htouch⟩ := moultReject_facts s (moultCheckCause s s.moult.container)
      rw [if_neg hc]
      exact ⟨_, rfl, htouch, fun heq => absurd heq hc, fun _ => ⟨hstate, hcause⟩⟩

end Sys2Proof.Machine
end

section
/-! PROOFS. Programming, read-back and select of an image (R38, R54, R56, R453): O25, O26. -/

namespace Sys2Proof.Machine

open Sys2Proof (Instr Word Bytes Byte)

/-- A failed flash operation: state 7 with its cause, the cells kept, and the cause bit of PF0 of HPA. -/
theorem flashFail_facts (s : State) (cause : Nat) : (flashFail s cause).flash = { s.flash with state := 7, cause := cause } ∧
    wbit ((flashFail s cause).fn 0 0).irqStatus 20 = true ∧ Touches [.flash, .rings] s (flashFail s cause) :=
  flashEnter_facts s 7 cause

theorem readCount_flash (s : State) (port fn : Nat) (r : HostRead) : (readCount s port fn r).flash = s.flash :=
  (readCount_touch s port fn r).same .flash (by decide)

theorem flashNext_flash {s : State} {b : Bytes} (h : s.flash.image = some b) :
    (flashNext s).flash.state = (if b.length ≤ s.flash.done then 3 else s.flash.state) ∧
    (flashNext s).flash.cells = s.flash.cells ∧ (flashNext s).flash.done = s.flash.done ∧
    (flashNext s).flash.image = s.flash.image := by
  rw [show flashNext s = if b.length ≤ s.flash.done then { s with flash := { s.flash with state := 3, progress := 0 } } else s by
    unfold flashNext
    rw [h]]
  split <;> exact ⟨rfl, rfl, rfl, rfl⟩

/-- Bytes programmed over erased cells: the range holds them, and every other cell what it held. -/
theorem cellRead_programmed {m : List Host.Cell} (hwf : cellsWf 0xFF m = true) (a n : Nat) {b : Bytes} (hlen : b.length = n)
    (i : Nat) : cellRead 0xFF (cellWriteBytes 0xFF (cellClear m a n) a b) i =
      if a ≤ i ∧ i < a + n then b.getD (i - a) 0 else cellRead 0xFF m i := by
  rw [cellRead_writeBytes _ _ _ _ _ (cellClear_wf _ _ _ _ hwf), hlen]
  split
  · rfl
  · rw [cellRead_clear, if_neg ‹_›]

theorem flash_wf {s : State} (h : s.memWf) : cellsWf 0xFF s.flash.cells = true := h.1

theorem flashProgram_short {s : State} (hidle : flashBusy s = false) (h : flashLen s ≤ 0x03FFF000) :
    flashProgram s = { s with flash := { s.flash with
      state := 1, cause := 0, progress := 0, target := flashTarget s, image := none, done := 0 } } := by
  rw [flashProgram, if_neg (by simp [hidle]), if_neg (show ¬ maxImage < flashLen s from Nat.not_lt.2 h)]

theorem flashProgram_tooLong {s : State} (hidle : flashBusy s = false) (h : 0x03FFF000 < flashLen s) :
    flashProgram s = flashFail s 0x05 := by
  rw [flashProgram, if_neg (by simp [hidle]), if_pos (show maxImage < flashLen s from h)]

/-- Settles O25. -/
theorem flashProgramming : Obligations.FlashProgramming := by
  unfold Obligations.FlashProgramming
  refine ⟨fun s htakes hup hidle => ?_, fun s hst hwf => ?_, fun r s hst himg => ?_, fun b s hst himg hwf => ⟨?_, ?_⟩⟩
  · rw [exec_flashProgram, execFlashProgram, if_neg (by simp [htakes]), if_neg (by simp [hup])]
    refine ⟨_, rfl, ?_, fun h => ?_, fun h => ?_⟩
    · obtain h | h := Nat.lt_or_ge 0x03FFF000 (flashLen s)
      · rw [flashProgram_tooLong hidle h, (flashFail_facts s 0x05).1]
      · rw [flashProgram_short hidle h]
    · rw [flashProgram_short hidle h]
      exact ⟨rfl, rfl, rfl, rfl⟩
    · rw [flashProgram_tooLong hidle h, (flashFail_facts s 0x05).1]
      exact ⟨rfl, rfl⟩
  · have htouch := execFlashEraseDone_touch s
    rw [exec_flashEraseDone]
    rw [execFlashEraseDone, if_neg (not_not.2 hst)] at htouch ⊢
    refine ⟨_, rfl, ?_, Touches.viaNext rfl htouch, fun a => ?_⟩
    · rw [hpaRead_flash]
    · rw [hpaRead_flash]
      exact cellRead_clear ..
  · rw [exec_flashHostReadDone, execFlashHostReadDone, if_neg (by simp [hst, himg])]
    cases hdata : hpaData s r (flashLen s) with
    | none =>
      refine ⟨_, rfl, ?_⟩
      rw [(flashFail_facts _ 0x22).1, readCount_flash]
      exact ⟨rfl, rfl, rfl⟩
    | some b =>
      obtain ⟨hstate, hcells, hdone, himage⟩ := flashNext_flash (s := { s with flash := { s.flash with image := some b, done := 0 } }) rfl
      refine ⟨_, rfl, hcells, himage, hdone, hstate.trans ?_⟩
      have hnil : b.length ≤ 0 ↔ b = [] := by rw [Nat.le_zero, List.length_eq_zero_iff]
      simp only [hnil, hst]
  · have hexec : exec (.flashPageProgramDone false) s = .next (flashNext (flashPage s b)) := by
      rw [exec_flashPageProgramDone, execFlashPageProgramDone, himg]
      exact if_neg (not_not.2 hst)
    obtain ⟨hstate, hcells, hdone, -⟩ := flashNext_flash (s := flashPage s b) himg
    refine ⟨_, hexec, (flashPage_touch s b).trans (flashNext_touch _), hdone, hstate.trans ?_, fun a => ?_⟩
    · rw [hdone, show (flashPage s b).flash.state = 2 from hst]
    · rw [hcells, hdone]
      refine (cellRead_programmed (flash_wf hwf) _ _ rfl a).trans ?_
      rw [Nat.add_assoc]
      rfl
  · have hexec : exec (.flashPageProgramDone true) s = .next (flashFail s 0x30) := by
      rw [exec_flashPageProgramDone, execFlashPageProgramDone, himg]
      exact if_neg (not_not.2 hst)
    obtain ⟨hflash, hirq, -⟩ := flashFail_facts s 0x30
    refine ⟨_, hexec, ?_, ?_, ?_, hirq⟩ <;> rw [hflash]

theorem toLe_length (n v : Nat) : (toLe n v).length = n := by
  induction n generalizing v with
  | zero => rfl
  | succ n ih => rw [toLe, List.length_cons, ih]

/-- A bank header is 128 bytes long (R30). -/
theorem bankHeaderBytes_length (gen len : Nat) (digest : Bytes) : (bankHeaderBytes gen len digest).length = 128 := by
  simp only [bankHeaderBytes, zeros, List.length_append, List.length_replicate, toLe_length, padTo_length]

/-- The bytes read back from the target bank for an image `b`. -/
def flashReadback (s : State) (b : Bytes) : Bytes :=
  cellReadBytes 0xFF s.flash.cells (bankImage s.flash.target) b.length

theorem flashReadback_exec {s : State} {b : Bytes} (hst : s.flash.state = 3) (himg : s.flash.image = some b) :
    exec .flashReadbackDone s = .next (
      if digest64 (flashReadback s b) != digest64 b then flashFail { s with flash := { s.flash with progress := 255 } } 0x31
      else if precheckCause { s with flash := { s.flash with progress := 255 } } (flashReadback s b) ≠ 0 then
        flashFail { s with flash := { s.flash with progress := 255 } }
          (precheckCause { s with flash := { s.flash with progress := 255 } } (flashReadback s b))
      else flashEnter { s with flash := { s.flash with progress := 255 } } 5 0) := by
  rw [exec_flashReadbackDone, execFlashReadbackDone, himg]
  refine (if_neg (not_not.2 hst)).trans ?_
  simp only [done, apply_ite Host.Outcome.next]
  rfl

/-- The flash with the header of a select in the target bank. -/
def selectedCells (s : State) (b : Bytes) : List Host.Cell :=
  cellWriteBytes 0xFF (cellClear s.flash.cells (bankBase s.flash.target) 128) (bankBase s.flash.target)
    (bankHeaderBytes (nextGeneration s) b.length (digest64 b))

theorem flashSelect_facts {s : State} {b : Bytes} (hst : s.flash.state = 5) (himg : s.flash.image = some b) :
    (flashSelect s).flash.state = 6 ∧ (flashSelect s).flash.cause = 0 ∧
    (flashSelect s).flash.cells = selectedCells s b ∧ wbit ((flashSelect s).fn 0 0).irqStatus 20 = true := by
  have hselect : flashSelect s = flashEnter { s with flash := { s.flash with cells := selectedCells s b } } 6 0 := by
    unfold flashSelect selectedCells
    split
    · next h => cases h.symm.trans himg
    · next b' h =>
      cases h.symm.trans himg
      rw [if_neg (not_not.2 hst), flashErased]
  obtain ⟨hflash, hirq, -⟩ := flashEnter_facts { s with flash := { s.flash with cells := selectedCells s b } } 6 0
  rw [hselect]
  simp only [hflash, hirq, and_self]

/-- Settles O26. -/
theorem flashReadbackAndSelect : Obligations.FlashReadbackAndSelect := by
  unfold Obligations.FlashReadbackAndSelect
  refine ⟨fun b s hst himg => ?_, fun b s htakes hup hst himg hwf => ?_, fun s hst => ?_⟩
  · have hexec := flashReadback_exec hst himg
    have hprogress := touches_flash s { s.flash with progress := 255 }
    have hcheck : precheckCause { s with flash := { s.flash with progress := 255 } }
        (flashReadback s b) = precheckCause s (flashReadback s b) := rfl
    by_cases hdigest : digest64 (flashReadback s b) = digest64 b
    · by_cases hpass : precheckCause s (flashReadback s b) = 0
      · obtain ⟨hflash, hirq, htouch⟩ := flashEnter_facts { s with flash := { s.flash with progress := 255 } } 5 0
        rw [if_neg (by simp [hdigest]), if_neg (by rw [hcheck]; exact not_not.2 hpass)] at hexec
        refine ⟨_, hexec, hprogress.seq htouch (by decide) (by decide), by rw [hflash], hirq, fun h => absurd hdigest h,
          fun _ h => absurd hpass h, fun _ _ => ?_⟩
        rw [hflash]
        exact ⟨rfl, rfl⟩
      · obtain ⟨hflash, hirq, htouch⟩ := flashFail_facts { s with flash := { s.flash with progress := 255 } }
          (precheckCause s (flashReadback s b))
        rw [if_neg (by simp [hdigest]), if_pos (by rw [hcheck]; exact hpass), hcheck] at hexec
        refine ⟨_, hexec, hprogress.seq htouch (by decide) (by decide), by rw [hflash], hirq, fun h => absurd hdigest h,
          fun _ _ => ?_, fun _ h => absurd h hpass⟩
        rw [hflash]
        exact ⟨rfl, rfl⟩
    · obtain ⟨hflash, hirq, htouch⟩ := flashFail_facts { s with flash := { s.flash with progress := 255 } } 0x31
      rw [if_pos (by simpa using hdigest)] at hexec
      refine ⟨_, hexec, hprogress.seq htouch (by decide) (by decide), by rw [hflash], hirq, fun _ => ?_,
        fun h => absurd h hdigest, fun h => absurd h hdigest⟩
      rw [hflash]
      exact ⟨rfl, rfl⟩
  · have hexec : exec .flashSelect s = .next (flashSelect s) := by
      rw [exec_flashSelect, execFlashSelect, if_neg (by simp [htakes]), if_neg (by simp [hup]), done]
    obtain ⟨hstate, hcause, hcells, hirq⟩ := flashSelect_facts hst himg
    refine ⟨_, hexec, hstate, hcause, hirq, flashSelect_touch s, fun a => ?_⟩
    rw [hcells]
    exact cellRead_programmed (flash_wf hwf) _ _ (bankHeaderBytes_length ..) a
  · obtain ⟨hflash, hirq, htouch⟩ := flashFail_facts s 0x30
    rw [exec_flashOpTimeout, execFlashOpTimeout, if_pos (by simpa using hst)]
    refine ⟨_, rfl, ?_, ?_, ?_, hirq, htouch⟩ <;> rw [hflash]

end Sys2Proof.Machine
end

section
/-! PROOFS. Key commands (R419, R420, R422) and attestation requests (R424, R427): O27, O29. -/

namespace Sys2Proof.Machine

open Sys2Proof (Instr Word Bytes Byte)

theorem hpaRead_out (s : State) (addr len : Nat) :
    (hpaRead s addr len).out = (if canIssue (s.fn 0 0) then [.hostRead 0 0 addr len] else []) ++ s.out := by
  unfold hpaRead
  split <;> rfl

/-- Only a read that failed is counted. -/
theorem readCount_of_hpaData {s : State} {r : HostRead} {n : Nat} {b : Bytes} (h : hpaData s r n = some b) (port fn : Nat) :
    readCount s port fn r = s := by
  cases r with
  | data => rfl
  | failed => cases h

theorem keyBurnOk_fuses (s : State) :
    mget (mupd s.fuses s.key.target (burnOk s.key)) s.key.target = (if s.key.op = 1 then
      { mget s.fuses s.key.target with hash := s.key.newHash, programmed := 0xFF }
      else { mget s.fuses s.key.target with revoked := 0xFF }) :=
  mget_mupd_self ..

/-- Settles O27. -/
theorem keyCommands : Obligations.KeyCommands := by
  unfold Obligations.KeyCommands
  refine ⟨fun s htakes hup hidle => ?_, fun r s hst => ?_, fun s hst hup => ⟨?_, ?_⟩⟩
  · rw [exec_keyGo, execKeyGo, if_neg (by simp [htakes]), if_neg (by simp [hup]), if_neg (by simp [hidle])]
    have hread := hpaRead_touch { s with key := { s.key with state := 1, result := 0 } }
      (hostAddr (s.fn 0 0) offKeyLo offKeyHi) keyBytes
    have hkey := hread.same .key (by decide)
    exact ⟨_, rfl, congrArg Key.state hkey, congrArg Key.result hkey,
      (touches_key s _).seq hread (by decide) (by decide), hpaRead_out ..⟩
  · obtain ⟨hne, -⟩ | ⟨-, hdata, hexec⟩ | ⟨b, -, hdata, hcases⟩ := execKeyReadDone_cases r s
    · exact absurd hst hne
    · obtain ⟨hkey, -, hirq, htouch⟩ := keyEnd_facts (readCount s 0 0 r) 5 0x08
      refine ⟨_, hexec, htouch.same .ports (by decide), (readCount_touch ..).seq htouch (by decide) (by decide), ?_⟩
      rw [show hpaData s r 30048 = none from hdata, hkey]
      exact ⟨rfl, rfl, hirq⟩
    · rw [readCount_of_hpaData hdata, show hpaData s r 30048 = some b from hdata]
      obtain ⟨hcause, hexec⟩ | ⟨hcause, hexec⟩ := hcases
      · exact ⟨_, hexec, rfl, (touches_key s _).sub (by decide), fun _ => ⟨rfl, rfl, rfl, rfl⟩, fun h => absurd hcause h⟩
      · obtain ⟨hkey, -, hirq, htouch⟩ := keyEnd_facts s 5 (keyCause s b)
        refine ⟨_, hexec, htouch.same .ports (by decide), htouch.sub (by decide), fun h => absurd h hcause, fun _ => ?_⟩
        rw [hkey]
        exact ⟨rfl, rfl, hirq⟩
  · obtain ⟨hkey, hfuses, hirq, htouch⟩ := keyEnd_facts { s with fuses := mupd s.fuses s.key.target (burnOk s.key) } 4 0
    rw [exec_keyBurnDone, execKeyBurnDone, if_neg (by simp [hst, hup]), if_pos rfl]
    refine ⟨_, rfl, ?_, ?_, hirq, (touches_fuses s _).seq htouch (by decide) (by decide), ?_, fun i hi => ?_⟩
    · rw [hkey]
    · rw [hkey]
    · rw [hfuses]
      exact keyBurnOk_fuses s
    · rw [hfuses]
      exact mget_mupd_fuse _ _ _ _ hi
  · obtain ⟨-, hmarker, hhash, hother⟩ := burnBad_facts s
    obtain ⟨hkey, hfuses, hirq, -⟩ := keyEnd_facts (burnBad s) 5 0x09
    rw [exec_keyBurnDone, execKeyBurnDone, if_neg (by simp [hst, hup]), if_neg Bool.false_ne_true]
    refine ⟨_, rfl, ?_, ?_, hirq, ?_⟩
    · rw [hkey]
    · rw [hkey]
    · rw [hfuses]
      exact ⟨hmarker, hhash, hother⟩

theorem fn_withSigner (s : State) (g : Signer) (port fn : Nat) : { s with signer := g }.fn port fn = s.fn port fn := rfl

/-- What a sequence of host writes sends depends on the state only through what has been sent before. -/
theorem hostWrites_out_congr (port fn : Nat) (l : List Bytes) (a : Nat) {s t : State} (h : s.out = t.out) :
    (hostWrites port fn l a s).out = (hostWrites port fn l a t).out := by
  induction l generalizing a s t with
  | nil => exact h
  | cons b l ih => exact ih _ (by rw [emit_out, emit_out, h])

theorem exec_attGo_of_takes {port fn : Nat} {s : State} (htakes : fnTakes s port fn = true) (hup : s.scu.restarting = false) :
    exec (.attGo port fn) s = .next (
      if attBusy (s.fn port fn).att then s.updFn port fn (fun f => { f with att := { f.att with cause := 4 } })
      else { s.updFn port fn (fun f => { f with att := { f.att with state := 1, cause := 0 } }) with
        signer := { s.signer with queue := s.signer.queue ++ [fnIx port fn] } }) := by
  rw [exec_attGo, execAttGo, if_neg (by simp [htakes]), if_neg (by simp [hup])]
  exact (apply_ite Host.Outcome.next _ _ _).symm

/-- The state once the signing of the report of function `k` is done: the signer idle, and the report written where the
function may issue requests (R427). -/
def attSigned (s : State) (k : Nat) : State :=
  if canIssue (s.fn (k / 4) (k % 4)) then
    hostWrites (k / 4) (k % 4) (blocksOf (maxPayload (s.fn (k / 4) (k % 4)))
      (ceilDiv 50368 (maxPayload (s.fn (k / 4) (k % 4)))) (attReport s s.signer.body))
      (hostAddr (s.fn (k / 4) (k % 4)) offAttLo offAttHi) { s with signer := { s.signer with signing := none, body := [] } }
  else { s with signer := { s.signer with signing := none, body := [] } }

theorem exec_attSignDone_of_signing {s : State} {k : Nat} (h : s.signer.signing = some k) :
    exec .attSignDone s = .next (attEnd (attSigned s k) k (if canIssue (s.fn (k / 4) (k % 4)) then 4 else 5)
      (if canIssue (s.fn (k / 4) (k % 4)) then 0 else 1)) := by
  rw [exec_attSignDone, execAttSignDone, h]
  unfold attSigned
  by_cases hc : canIssue (s.fn (k / 4) (k % 4)) = true
  · simp only [if_pos hc, done]
  · simp only [if_neg hc, done]

theorem attSigned_touch (s : State) (k : Nat) : Touches [.signer, .out] s (attSigned s k) := by
  unfold attSigned
  refine Touches.trans (Touches.sub (touches_signer s _) (by decide)) (Touches.ite ?_ (Touches.refl _))
  exact (hostWrites_touch ..).sub (by decide)

theorem attSigned_signer (s : State) (k : Nat) :
    (attSigned s k).signer = { s.signer with signing := none, body := [] } := by
  unfold attSigned
  split
  · exact (hostWrites_touch ..).same .signer (by decide)
  · rfl

theorem attSigned_out (s : State) (k : Nat) : (attSigned s k).out = if canIssue (s.fn (k / 4) (k % 4)) then
    (hostWrites (k / 4) (k % 4) (blocksOf (maxPayload (s.fn (k / 4) (k % 4)))
      (ceilDiv 50368 (maxPayload (s.fn (k / 4) (k % 4)))) (attReport s s.signer.body))
      (hostAddr (s.fn (k / 4) (k % 4)) offAttLo offAttHi) s).out else s.out := by
  unfold attSigned
  by_cases hc : canIssue (s.fn (k / 4) (k % 4)) = true
  · rw [if_pos hc, if_pos hc]
    exact hostWrites_out_congr _ _ _ _ rfl
  · rw [if_neg hc, if_neg hc]

/-- Settles O29. -/
theorem attestationRequests : Obligations.AttestationRequests := by
  unfold Obligations.AttestationRequests
  refine ⟨fun port fn s htakes hup => ?_, fun k l s hidle hqueue hup => ?_, fun k s hsigning => ?_⟩
  · refine ⟨_, exec_attGo_of_takes htakes hup, ?_, fun hidle => ?_, fun hbusy => ?_⟩
    · split
      · exact Touches.sub (l := [.fns]) (State.updFn_touch_fns _ _ _ _ (fun _ => rfl)) (by decide)
      · have hfn : Touches [.fns] s (s.updFn port fn (fun f => { f with att := { f.att with state := 1, cause := 0 } })) :=
          State.updFn_touch_fns _ _ _ _ (fun _ => rfl)
        exact hfn.seq (touches_signer _ _) (by decide) (by decide)
    · rw [if_neg (by simp [hidle])]
      exact ⟨congrArg Fn.att ((fn_withSigner ..).trans (State.fn_updFn_self ..)), rfl⟩
    · rw [if_pos hbusy]
      exact ⟨congrArg Fn.att (State.fn_updFn_self s port fn _), rfl⟩
  · have hexec : exec .attSignStart s = .next { s.updFn (k / 4) (k % 4) (fun f => { f with att := { f.att with state := 2 } })
        with signer := ⟨l, some k, attBody s (k / 4) (k % 4)⟩ } := by
      rw [exec_attSignStart, execAttSignStart, hidle, hqueue]
      exact if_neg (by simp [hup])
    have hfn : Touches [.fns] s (s.updFn (k / 4) (k % 4) (fun f => { f with att := { f.att with state := 2 } })) :=
      State.updFn_touch_fns _ _ _ _ (fun _ => rfl)
    exact ⟨_, hexec, hfn.seq (touches_signer _ _) (by decide) (by decide), rfl,
      congrArg (fun f : Fn => f.att.state) ((fn_withSigner ..).trans (State.fn_updFn_self ..))⟩
  · obtain ⟨hatt, hirq, htouch, hout⟩ := attEnd_facts (attSigned s k) k (if canIssue (s.fn (k / 4) (k % 4)) then 4 else 5)
      (if canIssue (s.fn (k / 4) (k % 4)) then 0 else 1)
    have hsigner := (htouch.same .signer (by decide)).trans (attSigned_signer s k)
    refine ⟨_, exec_attSignDone_of_signing hsigning, by rw [hsigner], by rw [hsigner], hirq,
      (attSigned_touch s k).seq htouch (by decide) (by decide), hatt.trans ?_, hout.trans (attSigned_out s k)⟩
    split <;> rfl
end Sys2Proof.Machine
end

section
/-! PROOFS. Received frames, the Ethernet link, membership reports and next hops (R112 to R118): O30, O31, O32. -/

namespace Sys2Proof.Machine

open Sys2Proof (Instr Word Bytes Byte)

theorem exec_frameReceive_of_link {np : Nat} {frame : Bytes} {s : State} (himago : s.imago = true)
    (hlink : (s.np np).link = true) (hup : unitDown s uIngress = false) :
    exec (.frameReceive np frame) s = .next (
      match rxFrame (cfgNet s.run np) frame with
      | .drop k => npCount (npCount s np 0 1) np k 1
      | .arp b => rxArp (npCount s np 0 1) np b
      | .control p => rxControl (npCount s np 0 1) np p
      | .udp src dst sport dport b => rxUdp (npCount s np 0 1) np src dst sport dport b) := by
  rw [exec_frameReceive, execFrameReceive, if_neg (by simp [himago, hlink, hup])]
  dsimp only
  rw [npCount_run]
  cases rxFrame (cfgNet s.run np) frame <;> rfl

theorem rxFrame_bad {n frame : Bytes}
    (h : frame.length < 18 ∨ crc32 (frame.take (frame.length - 4)) ≠ le32 frame (frame.length - 4)) :
    rxFrame n frame = .drop 1 := by
  unfold rxFrame
  exact if_pos (by simpa using h)

/-- An ARP request for the port's address is answered while the control limit allows (R116). -/
theorem rxArp_request {s : State} {np : Nat} {b : Bytes} (hlen : 28 ≤ b.length) (hhw : beAt b 0 2 = 1)
    (hproto : beAt b 2 2 = 0x0800) (hop : beAt b 6 2 = 1) (haddr : beAt b 24 4 = neAddr4 (cfgNet s.run np))
    (hlimit : (s.np np).responses < 1000) : rxArp s np b = emit (.neighborReply np (v4mapped (beAt b 14 4)))
      (npCount (s.updNp np (fun p => { p with responses := p.responses + 1 })) np 8 1) := by
  unfold rxArp
  rw [if_neg (by simp [hhw, hproto, Nat.not_lt.2 hlen]), if_pos (by simp [hop, haddr]), controlAnswer,
    if_pos (show (s.np np).responses < controlLimit from hlimit)]

theorem npCount_responses (s : State) (np k n : Nat) : ((npCount s np k n).np np).responses = (s.np np).responses := by
  rw [npCount, State.np_updNp_self]

/-- Settles O30. -/
theorem frameReceiveChecks : Obligations.FrameReceiveChecks := by
  unfold Obligations.FrameReceiveChecks
  refine fun np frame s himago hlink hup => ⟨_, exec_frameReceive_of_link himago hlink hup, fun k hrx => ?_, fun hbad => ?_,
    fun b hrx hlen hhw hproto hop haddr hlimit => ?_, fun src dst sport dport b hrx => ?_⟩
  · rw [hrx]
  · rw [rxFrame_bad hbad]
  · rw [hrx]
    have hcount := npCount_touch s np 0 1
    have hanswer := rxArp_request (s := npCount s np 0 1) hlen hhw hproto hop haddr (by rw [npCount_responses]; exact hlimit)
    refine ⟨?_, ?_, (hcount.seq (rxArp_touch ..) (by decide) (by decide))⟩
    · dsimp only
      rw [hanswer, emit_out]
      rfl
    · dsimp only
      rw [hanswer, show ∀ o u, (emit o u).np np = u.np np from fun _ _ => rfl, npCount_responses, State.np_updNp_self,
        npCount_responses]
  · rw [hrx]
    rfl

/-! ### Membership reports -/

/-- The report of the group that the stream with entry `e` joins. -/
def groupReport (s : State) (e : Bytes) (change : Bool) : Out :=
  .membership (seSource e) (seAddr e) (seJoin e = 2 && !mcastOld s (seSource e) (seAddr e))
    (if mcastOld s (seSource e) (seAddr e) then [] else joinSources e) (mcastVersion s (seSource e) (seAddr e)) change

theorem useIpId_out (s : State) (np dst : Nat) : (useIpId s np dst).out = s.out :=
  (useIpId_touch s np dst).same .out (by decide)

theorem useIpId_queries (s : State) (np dst n : Nat) : ((useIpId s np dst).np n).queries = (s.np n).queries := by
  unfold useIpId
  split
  · rw [State.np_updNp]
    split
    · next h => rw [h]
    · rfl
  · rfl

theorem reportGroup_out (s : State) (e : Bytes) (change : Bool) :
    (reportGroup s e change).out = groupReport s e change :: s.out :=
  congrArg (List.cons _) (useIpId_out ..)

/-- Which protocol version a port uses for a group is decided by its querier timers alone. -/
theorem mcastOld_updNp (s : State) (np : Nat) {f : NetPort → NetPort} (h4 : ∀ p, (f p).oldUntil4 = p.oldUntil4)
    (h6 : ∀ p, (f p).oldUntil6 = p.oldUntil6) (n g : Nat) : mcastOld (s.updNp np f) n g = mcastOld s n g := by
  unfold mcastOld
  rw [State.np_updNp, State.updNp_now]
  by_cases h : np = n
  · rw [if_pos h, h4, h6, h]
  · rw [if_neg h]

theorem mcastVersion_congr {s t : State} {n g : Nat} (h : mcastOld t n g = mcastOld s n g) :
    mcastVersion t n g = mcastVersion s n g := by
  unfold mcastVersion
  rw [h]

theorem groupReport_congr {s t : State} (h : ∀ n g, mcastOld t n g = mcastOld s n g) (e : Bytes) (change : Bool) :
    groupReport t e change = groupReport s e change := by
  unfold groupReport
  rw [h, mcastVersion_congr (h _ _)]

theorem joinReport_of_join {s : State} {i : Nat} (hlive : (s.stream i).live = true) (hnet : seNet (s.se i) = true)
    (hjoin : seJoin (s.se i) ≠ 0) (hlink : (s.np (seSource (s.se i))).link = true) :
    joinReport s i = (reportGroup s (s.se i) true).updIng i (fun g => { g with report2 := true }) := by
  unfold joinReport
  exact if_pos (by simp [hlive, hnet, hjoin, hlink])

theorem exec_ethLinkUp_of_enabled {np : Nat} {s : State} (himago : s.imago = true)
    (hon : neEnabled (cfgNet s.run np) = true) (hdown : (s.np np).link = false) :
    exec (.ethLinkUp np) s =
      .next (joinReports (joinedSlots s np 0) (s.updNp np (fun p => { p with link := true }))) := by
  rw [exec_ethLinkUp, execEthLinkUp, if_pos (by simp [himago, hon, hdown]), done]

theorem reportSources_join2_out {s : State} {np group i : Nat} (sources : List Nat) (hjoin : seJoin (s.se i) = 2) :
    (reportSources s np group sources [i]).out = (if sources.filter (· == seSsm (s.se i)) = [] then [] else
      [.membership np group true (sources.filter (· == seSsm (s.se i))) (mcastVersion s np group) false]) ++ s.out := by
  have hsources : sources.filter (fun a => ([i].any fun i => seJoin (s.se i) == 1) || [i].any fun i => seSsm (s.se i) == a) =
      sources.filter (· == seSsm (s.se i)) := by
    refine List.filter_congr fun a _ => ?_
    simp [hjoin, Bool.beq_comm]
  unfold reportSources
  dsimp only
  rw [hsources]
  by_cases hnone : sources.filter (· == seSsm (s.se i)) = []
  · rw [if_pos hnone, if_pos (by simp [hnone]), List.nil_append]
  · rw [if_neg hnone, if_neg (by simpa using hnone), emit_out, useIpId_out]
    rfl

theorem reportSources_queries (s : State) (np group : Nat) (sources slots : List Nat) (n : Nat) :
    ((reportSources s np group sources slots).np n).queries = (s.np n).queries := by
  unfold reportSources
  dsimp only
  split
  · rfl
  · exact useIpId_queries ..

theorem exec_queryResponseTimer_of_query {np g : Nat} {srcs : List Nat} {l : List (Nat × List Nat)} {s : State}
    (h : (s.np np).queries = (g, srcs) :: l) : exec (.queryResponseTimer np) s = .next (
      if srcs.isEmpty || mcastOld (s.updNp np (fun p => { p with queries := l })) np g then
        reportSlots false (joinedSlots (s.updNp np (fun p => { p with queries := l })) np g) []
          (s.updNp np (fun p => { p with queries := l }))
      else reportSources (s.updNp np (fun p => { p with queries := l })) np g srcs
        (joinedSlots (s.updNp np (fun p => { p with queries := l })) np g)) := by
  rw [exec_queryResponseTimer, execQueryResponseTimer, h]
  exact (apply_ite Host.Outcome.next _ _ _).symm

theorem exec_unsolicitedReportTimer_of_report {slot : Nat} {s : State} (hreport : (s.stream slot).ing.report2 = true)
    (hlive : (s.stream slot).live = true) (hlink : (s.np (seSource (s.se slot))).link = true) :
    exec (.unsolicitedReportTimer (seSource (s.se slot)) slot) s =
      .next (reportGroup (s.updIng slot (fun g => { g with report2 := false })) (s.se slot) true) := by
  rw [exec_unsolicitedReportTimer, execUnsolicitedReportTimer]
  exact if_pos (by simp [hreport, hlive, hlink])

/-- Settles O31. -/
theorem ethernetLinkAndReports : Obligations.EthernetLinkAndReports := by
  unfold Obligations.EthernetLinkAndReports
  refine ⟨fun np s himago hon hdown => ?_, fun np s => ?_, fun np g i srcs l s hqueries hslots hport => ?_,
    fun slot s hreport hlive hlink => ?_, fun np s => ?_⟩
  · have hexec := exec_ethLinkUp_of_enabled himago hon hdown
    refine ⟨_, hexec, ?_, Touches.viaNext hexec (execEthLinkUp_touch np s), fun hnone => ?_,
      fun i hslots hlive hnet hjoin hport => ?_⟩
    · rw [joinReports_np, State.np_updNp_self]
    · rw [hnone]
      exact ⟨rfl, rfl⟩
    · have hold := mcastOld_updNp s np (f := fun p => { p with link := true }) (fun _ => rfl) (fun _ => rfl)
      have hup : ((s.updNp np (fun p => { p with link := true })).np (seSource (s.se i))).link = true := by
        rw [hport, State.np_updNp_self]
      have hreport := joinReport_of_join (s := s.updNp np (fun p => { p with link := true })) hlive hnet hjoin hup
      rw [hslots, joinReports, joinReports, hreport]
      refine ⟨?_, ?_⟩
      · exact (reportGroup_out ..).trans (congrArg (· :: s.out) (groupReport_congr hold _ _))
      · rw [ing_upd]
  · rw [exec_ethLinkDown]
    exact ⟨_, rfl, State.np_updNp_self .., fun p hp => State.np_updNp_ne _ _ (Ne.symm hp), State.updNp_touch ..⟩
  · have hexec := exec_queryResponseTimer_of_query hqueries
    have hold := mcastOld_updNp s np (f := fun p => { p with queries := l }) (fun _ => rfl) (fun _ => rfl)
    rw [show joinedSlots (s.updNp np (fun p => { p with queries := l })) np g = [i] from hslots] at hexec
    refine ⟨_, hexec, ?_, Touches.viaNext hexec (execQueryResponseTimer_touch np s), fun hgeneral => ?_,
      fun hsrcs hnew hjoin => ?_⟩
    · split
      · exact (reportGroup_np ..).2.trans (congrArg NetPort.queries (State.np_updNp_self ..))
      · exact (reportSources_queries ..).trans (congrArg NetPort.queries (State.np_updNp_self ..))
    · rw [if_pos (by simpa [hold] using hgeneral)]
      exact (reportGroup_out ..).trans (congrArg (· :: s.out) (groupReport_congr hold _ _))
    · rw [if_neg (by simp [hold, hsrcs, hnew])]
      refine (reportSources_join2_out (s := s.updNp np (fun p => { p with queries := l })) srcs hjoin).trans ?_
      rw [mcastVersion_congr (hold np g)]
      rfl
  · have hexec := exec_unsolicitedReportTimer_of_report hreport hlive hlink
    refine ⟨_, hexec, ?_, Touches.viaNext hexec (execUnsolicitedReportTimer_touch _ slot s), reportGroup_out ..⟩
    rw [(reportGroup_touch ..).stream (by decide), ing_upd]
  · rw [exec_controlRateWindow]
    exact ⟨_, rfl, State.np_updNp_self .., fun p hp => State.np_updNp_ne _ _ (Ne.symm hp), State.updNp_touch ..⟩

/-! ### Next hops and token buckets -/

theorem mget_bump_self (m : Map Nat) (k n : Nat) : mget (bump m k n) k = satAdd (2 ^ 64 - 1) (mget m k) n :=
  mget_mupd_self ..

theorem bucketRefill_stream (s : State) (i : Nat) : (mget (mmap s.streams (fun i x =>
    if x.live then { x with ing := { x.ing with tokens := min (bucketDepth (s.se i)) (x.ing.tokens + seBitrate (s.se i)) } }
    else x)) i) = if (s.stream i).live then { s.stream i with ing := { (s.stream i).ing with
        tokens := min (bucketDepth (s.se i)) ((s.stream i).ing.tokens + seBitrate (s.se i)) } } else s.stream i :=
  mget_mmap _ _ _ rfl

/-- Settles O32. -/
theorem nextHopAndBuckets : Obligations.NextHopAndBuckets := by
  unfold Obligations.NextHopAndBuckets
  refine ⟨fun np hop s => ?_, fun s => ?_⟩
  · have hwaiting := (hopDropped_touch (mget (s.np np).waiting hop) (s.updNp np (fun p => { p with waiting := mdel p.waiting hop })))
    rw [exec_nextHopTimeout, execNextHopTimeout]
    refine ⟨_, rfl, ?_, hwaiting.same .out (by decide), fun slot o hw => ?_, fun o hw => ?_⟩
    · rw [hwaiting.np (by decide), State.np_updNp_self]
      exact mget_mdel ..
    · rw [hw, hopDropped, hopDropped, if_neg (Nat.succ_ne_zero slot), Nat.add_sub_cancel]
      refine ⟨?_, fun i hi => ?_, (State.updNp_touch s np _).seq (State.updStream_touch _ _ _) (by decide) (by decide)⟩
      · rw [State.stream_updStream_self]
        exact mget_bump_self ..
      · rw [State.stream_updStream_ne _ _ (Ne.symm hi)]
        rfl
    · rw [hw, hopDropped, hopDropped, if_pos rfl]
  · rw [exec_bucketRefill, execBucketRefill]
    exact ⟨_, rfl, touches_streams s _, bucketRefill_stream s⟩

end Sys2Proof.Machine
end

section
/-! PROOFS. Timers of ingest (R111, R117, R119 to R131): O33. -/

namespace Sys2Proof.Machine

open Sys2Proof (Instr Word Bytes Byte)

/-- The entry of a slot depends on its stream through the configuration number alone. -/
theorem se_updStream (s : State) (slot : Nat) {f : Stream → Stream} (hf : ∀ x, (f x).cfgSeq = x.cfgSeq) (i : Nat) :
    (s.updStream slot f).se i = s.se i := by
  have hseq : ((s.updStream slot f).stream i).cfgSeq = (s.stream i).cfgSeq := by
    rw [State.stream_updStream]
    split
    · next h => rw [hf, h]
    · rfl
  have hcfg : (s.updStream slot f).cfgAt i = s.cfgAt i := congrArg s.cfgOf hseq
  rw [State.se, hcfg, State.se]

theorem se_updIng (s : State) (slot : Nat) (f : Ingest → Ingest) (i : Nat) : (s.updIng slot f).se i = s.se i :=
  se_updStream s slot (f := fun x => { x with ing := f x.ing }) (fun _ => rfl) i

theorem slotPart_updIng (s : State) (slot : Nat) (f : Ingest → Ingest) (i : Nat) :
    slotPart (s.updIng slot f) i = slotPart s i := congrArg sePart (se_updIng ..)

theorem stream_updIng_ne (s : State) {slot i : Nat} (f : Ingest → Ingest) (h : i ≠ slot) :
    (s.updIng slot f).stream i = s.stream i := State.stream_updStream_ne _ _ (Ne.symm h)

theorem exec_sourceLockTimeout_of_lock {slot : Nat} {s : State} (hlive : (s.stream slot).live = true)
    (hlock : (s.stream slot).ing.locked = true ∨ (s.stream slot).ing.ssrc.isSome = true) :
    exec (.sourceLockTimeout slot) s = .next (alignGroup (raiseLogOf (s.updIng slot (fun g =>
      { g with locked := false, ssrc := none, silent := true, relock := true })) uIngress (slotPart s slot) slot) slot) := by
  rw [exec_sourceLockTimeout, execSourceLockTimeout]
  refine (if_pos (by simpa [hlive] using hlock)).trans ?_
  dsimp only
  rw [slotPart_updIng, done]

theorem exec_pmtWaitTimeout_of_wait {slot : Nat} {s : State} (hlive : (s.stream slot).live = true)
    (hts : seTransport (s.se slot) = 2 ∨ seTransport (s.se slot) = 3) (hpid : (s.stream slot).ing.ts.videoPid = none) :
    exec (.pmtWaitTimeout slot) s = .next (if (s.stream slot).ing.ts.pmtLogged then s else
      raiseLogOf (s.updIng slot (fun g => { g with ts := { g.ts with pmtLogged := true } })) uParser (slotPart s slot) slot) := by
  rw [exec_pmtWaitTimeout, execPmtWaitTimeout]
  dsimp only
  by_cases hlogged : (s.stream slot).ing.ts.pmtLogged = true
  · rw [if_pos hlogged, if_neg (by simp [hlogged]), done]
  · rw [if_neg hlogged, if_pos (by simpa [hlive, hpid, hlogged] using hts), done]

theorem exec_alignmentTimeout_of_open {slot au fid : Nat} {f : Frame} {s : State}
    (hfind : s.frames.find? (fun p => p.2.slot == slot && p.2.au == au) = some (fid, f)) (hopen : f.aligned = false)
    (hlasts : frameEnded f = false) : exec (.alignmentTimeout slot au) s = .next (alignDecide s fid) := by
  rw [exec_alignmentTimeout, execAlignmentTimeout, hfind]
  exact if_neg (by simp [hopen, hlasts])

/-- References that the alignment of a frame settles on (R124). -/
def decidedRefs (s : State) (f : Frame) : List (Nat × Nat) :=
  match cfgGroup (frameCfg s f) f.slot, f.ref with
  | some g, some T => if cfgEmits (frameCfg s f) f.slot && !pcrDiffers s g then alignRefs s g f.slot T else []
  | _, _ => []

theorem alignDecide_refs {s : State} {fid : Nat} {f : Frame} (h : mfind s.frames fid = some f) :
    ((alignDecide s fid).frame fid).refs = decidedRefs s f := by
  have hdecide : alignDecide s fid =
      frameStage (s.updFrame fid (fun f' => { f' with aligned := true, refs := decidedRefs s f })) fid 2 := by
    rw [alignDecide, show s.frame fid = f from mget_of_mfind h]
    rfl
  obtain ⟨w, hw⟩ := frameStage_frame (s.updFrame fid (fun f' => { f' with aligned := true, refs := decidedRefs s f })) fid 2
    { f with aligned := true, refs := decidedRefs s f } (by rw [mfind_updFrame, h]; rfl)
  rw [hdecide]
  exact congrArg Frame.refs (mget_of_mfind hw)

/-- Settles O33. -/
theorem ingestTimers : Obligations.IngestTimers := by
  unfold Obligations.IngestTimers
  refine ⟨fun slot s hlive hlock => ?_, fun slot s hjump => ?_, fun slot s hlive hts hpid => ?_,
    fun slot k l n s hheld hnext => ?_, fun slot au fid f s hfind hf hopen hlasts => ?_⟩
  · have hstreams : (alignGroup (raiseLogOf (s.updIng slot (fun g =>
        { g with locked := false, ssrc := none, silent := true, relock := true })) uIngress (slotPart s slot) slot) slot).streams =
        (s.updIng slot (fun g => { g with locked := false, ssrc := none, silent := true, relock := true })).streams :=
      ((raiseLogOf_touch ..).seq (L := [.rings, .frames, .alarms, .tu, .out, .freeIx]) (alignGroup_touch ..) (by decide)
        (by decide)).same .streams (by decide)
    refine ⟨_, exec_sourceLockTimeout_of_lock hlive hlock, ?_, fun i hi => ?_, ?_⟩
    · rw [State.stream, hstreams]
      exact ing_upd ..
    · rw [State.stream, hstreams]
      exact stream_updIng_ne s _ hi
    · rw [hstreams]
      rfl
  · rw [exec_rtpJumpTimeout, execRtpJumpTimeout, if_pos (Option.isSome_iff_ne_none.2 hjump)]
    refine ⟨_, rfl, ?_, ?_, fun i hi => ?_, ?_⟩
    · rw [ingCount, ing_upd, ing_upd]
    · rw [ingCount, ing_upd, ing_upd]
      exact mget_bump_self ..
    · rw [ingCount, stream_updIng_ne _ _ hi, stream_updIng_ne _ _ hi]
    · exact (State.updStream_touch ..).trans (State.updStream_touch ..)
  · refine ⟨_, exec_pmtWaitTimeout_of_wait hlive hts hpid, fun hlogged => if_pos hlogged, fun hnew => ?_⟩
    rw [if_neg (by simp [hnew])]
    have hstreams := (raiseLogOf_touch (s.updIng slot (fun g => { g with ts := { g.ts with pmtLogged := true } })) uParser
      (slotPart s slot) slot).same .streams (by decide)
    refine ⟨?_, ?_, fun i hi => ?_⟩
    · rw [show _ = _ from hstreams]
      rfl
    · rw [State.stream, show _ = _ from hstreams]
      exact congrArg Ingest.ts (ing_upd ..)
    · rw [State.stream, show _ = _ from hstreams]
      exact stream_updIng_ne s _ hi
  · refine ⟨_, rfl, ?_⟩
    rw [rtpSkip, hheld, hnext]
    rfl
  · have hexec := exec_alignmentTimeout_of_open hfind hopen hlasts
    obtain ⟨haligned, hstage⟩ := alignDecide_frame s fid f hf
    refine ⟨_, hexec, haligned, hstage, fun hgroup => ?_, fun g T hgroup href hemits hpcr => ?_,
      Touches.viaNext hexec (execAlignmentTimeout_touch slot au s)⟩
    · rw [alignDecide_refs hf, decidedRefs, hgroup]
    · rw [alignDecide_refs hf, decidedRefs, hgroup, href]
      exact if_pos (by simp [hemits, hpcr])

end Sys2Proof.Machine
end

section
/-! PROOFS. Injection rings (R125 to R129): O34, O35. -/

namespace Sys2Proof.Machine

open Sys2Proof (Instr Word Bytes Byte)

theorem touches_updInj (s : State) (port fn : Nat) (f : Inj → Inj) : Touches [.fns] s (s.updInj port fn f) :=
  State.updFn_touch_fns _ _ _ _ fun _ => rfl

/-- An update of a ring writes the value that it gives to the ring found. -/
theorem updInj_const (s : State) (port fn : Nat) (f : Inj → Inj) :
    s.updInj port fn f = s.updInj port fn (fun _ => f (s.inj port fn)) := rfl

theorem inj_updInj_ne (s : State) {port fn port' fn' : Nat} (f : Inj → Inj) (h : fnIx port' fn' ≠ fnIx port fn) :
    (s.updInj port fn f).inj port' fn' = s.inj port' fn' := by
  rw [State.inj, State.updInj, fn_upd_all, if_neg (Ne.symm h)]
  rfl

theorem injDisable_idle {s : State} {port fn : Nat} (he : (s.inj port fn).enabled = false)
    (hz : (s.inj port fn).zeroing = false) : injDisable s port fn = s := if_neg (by simp [he, hz])

theorem injEnable_badSize {s : State} {port fn : Nat} (he : (s.inj port fn).enabled = false)
    (hz : (s.inj port fn).zeroing = false)
    (h : wbits (freg (s.fn port fn) 0x0FE100) 4 0 < 20 ∨ 28 < wbits (freg (s.fn port fn) 0x0FE100) 4 0) :
    injEnable s port fn = injRefuse s port fn := by
  unfold injEnable
  rw [injDisable_idle he hz]
  refine if_pos ?_
  rw [Bool.or_eq_true, Bool.or_eq_true, decide_eq_true_eq, decide_eq_true_eq]
  exact .inl h

/-- The ring that an accepted enable starts to zero (R125). -/
def injZeroed (f : Fn) (backing : List Nat) (gen : Nat) : Inj :=
  { (default : Inj) with
    zeroing := true
    backing := backing
    log2 := wbits (freg f offInjCfg) 4 0
    cons := wbits (freg f offInjConsLo) 31 4 * 16 + (freg f offInjConsHi).toNat * 2 ^ 32
    gen := (gen + 1) % 2 ^ 32
    seq := (freg f offInjStart).toNat }

theorem injEnable_backed {port fn k p : Nat} {s u : State} {got : List Nat} (he : (s.inj port fn).enabled = false)
    (hz : (s.inj port fn).zeroing = false) (hlo : 20 ≤ wbits (freg (s.fn port fn) offInjCfg) 4 0)
    (hhi : wbits (freg (s.fn port fn) offInjCfg) 4 0 ≤ 28)
    (hcons : wbits (freg (s.fn port fn) offInjConsLo) 31 4 * 16 + (freg (s.fn port fn) offInjConsHi).toNat * 2 ^ 32 ≠ 0)
    (hpool : injPool s.run (2 ^ wbits (freg (s.fn port fn) offInjCfg) 4 0) = some k) (hpart : partOfFn s port fn = some p)
    (halloc : allocMany p k (2 ^ wbits (freg (s.fn port fn) offInjCfg) 4 0 / poSize (cfgPool s.run k)) s = (got, u))
    (hgot : got.length = 2 ^ wbits (freg (s.fn port fn) offInjCfg) 4 0 / poSize (cfgPool s.run k)) :
    injEnable s port fn = u.updInj port fn (fun i => injZeroed (s.fn port fn) got i.gen) := by
  unfold injEnable
  rw [injDisable_idle he hz]
  refine (if_neg ?_).trans ?_
  · simp only [Nat.not_lt.2 hlo, Nat.not_lt.2 hhi, hcons, decide_false, Bool.or_self, Bool.false_eq_true, not_false_eq_true]
  rw [hpool, hpart]
  dsimp only
  rw [halloc]
  exact if_pos hgot

/-- Settles O34. -/
theorem injectionEnableAndDisable : Obligations.InjectionEnableAndDisable := by
  unfold Obligations.InjectionEnableAndDisable
  refine ⟨fun port fn k p s u got himago htakes he hz hlo hhi hcons hpool hpart halloc hgot => ?_,
    fun port fn s himago htakes he hz hsize => ?_, fun port fn s hz => ?_, fun port fn s htakes he => ?_⟩
  · rw [exec_injEnable, execInjEnable, if_pos (by simp [himago, htakes])]
    refine ⟨_, rfl, ?_⟩
    rw [injEnable_backed he hz hlo hhi hcons hpool hpart halloc hgot, inj_upd]
    exact ⟨rfl, rfl, rfl, rfl, rfl, rfl⟩
  · rw [exec_injEnable, execInjEnable, if_pos (by simp [himago, htakes])]
    refine ⟨_, rfl, ?_⟩
    rw [injEnable_badSize he hz hsize]
    exact ⟨inj_upd .., touches_updInj ..⟩
  · rw [exec_injEnableDone, execInjEnableDone, if_pos hz]
    refine ⟨_, rfl, ?_⟩
    rw [(streamsGoLive_touch ..).inj_eq (by decide), inj_upd]
    exact ⟨rfl, rfl, rfl, rfl⟩
  · have hdisable : injDisable s port fn = injStop (streamUnbinds (injSlots s port fn) s) port fn := if_pos (by simp [he])
    have hunbind := streamUnbinds_touch (injSlots s port fn) s
    have hrelease := releaseAll_touch ((partOfFn (streamUnbinds (injSlots s port fn) s) port fn).getD 8)
      ((streamUnbinds (injSlots s port fn) s).inj port fn).backing (streamUnbinds (injSlots s port fn) s)
    rw [exec_injDisable, execInjDisable, if_pos htakes, hdisable]
    refine ⟨_, rfl, ?_, ⟨_, rfl, ?_⟩, fun port' fn' hne => ?_⟩
    · rw [injStop, inj_upd, hrelease.inj_eq (by decide), hunbind.inj_eq (by decide)]
    · rw [← hunbind.inj_eq (by decide) port fn, injStop, inj_upd]
      exact updInj_const ..
    · rw [injStop, inj_updInj_ne _ _ hne, hrelease.inj_eq (by decide), hunbind.inj_eq (by decide)]

/-! ### Packets -/

theorem injExpected_iff {i : Inj} {h : Bytes} : injExpected i h = true ↔ le32 h 0 = 0x5049584A ∧ le32 h 4 = i.seq := by
  rw [injExpected, Bool.and_eq_true, decide_eq_true_eq, decide_eq_true_eq, ipMagic]

theorem injDesync_facts (s : State) (port fn : Nat) : ((injDesync s port fn).inj port fn).desync = true ∧
    ((injDesync s port fn).inj port fn).rdOffset = (s.inj port fn).rdOffset := by
  rw [injDesync, (raiseLogOf_touch ..).inj_eq (by decide), inj_upd]
  exact ⟨rfl, rfl⟩

/-- A poll of a ring that runs. -/
theorem exec_injPoll_of_running {port fn : Nat} {s : State} (he : (s.inj port fn).enabled = true)
    (hd : (s.inj port fn).desync = false) (hup : unitDown s uParser = false) {h : Bytes}
    (hh : h = injBytes (s.inj port fn) (s.inj port fn).rdOffset 64) :
    exec (.injPoll port fn) s = .next (
      if !injExpected (s.inj port fn) h then s.updInj port fn (fun i => { i with
        slowPoll := decide (10000 ≤ s.now - i.lastNew), headerSince := none, trailerSince := none })
      else if le32 h 0x3C ≠ crc32c (h.take 0x3C) then s.updInj port fn (fun i => { i with
        slowPoll := false, lastNew := s.now, headerSince := some (i.headerSince.getD s.now), trailerSince := none })
      else if !injHeaderOk (s.inj port fn) h then injDesync s port fn
      else if ipType h = 2 || injTrailerOk (s.inj port fn) h then injConsume s port fn h
      else s.updInj port fn (fun i => { i with
        slowPoll := false, lastNew := s.now, headerSince := none, trailerSince := some (i.trailerSince.getD s.now) })) := by
  rw [exec_injPoll, execInjPoll, if_neg (by simp [he, hd, hup]), hh]
  simp only [done, apply_ite Host.Outcome.next]

theorem exec_injTrailerTimeout_of_torn {port fn : Nat} {s : State} (he : (s.inj port fn).enabled = true)
    (hd : (s.inj port fn).desync = false) {since : Nat} (hsince : (s.inj port fn).trailerSince = some since) {h : Bytes}
    (hh : h = injBytes (s.inj port fn) (s.inj port fn).rdOffset 64) (hexp : injExpected (s.inj port fn) h = true)
    (hcrc : le32 h 0x3C = crc32c (h.take 0x3C)) (hok : injHeaderOk (s.inj port fn) h = true)
    (htrailer : injTrailerOk (s.inj port fn) h = false) :
    exec (.injTrailerTimeout port fn) s = .next (raiseLogOf (injAdvance
      ((if (injSlots s port fn).contains (ipSlot h) then auDamage s (ipSlot h) else s).updInj port fn
        (fun i => { i with torn := satAdd (2 ^ 32 - 1) i.torn 1 })) port fn (ipLength h) false) uParser
      ((partOfFn (if (injSlots s port fn).contains (ipSlot h) then auDamage s (ipSlot h) else s) port fn).getD 0xFF) 0xFFFF) := by
  subst hh
  rw [exec_injTrailerTimeout, execInjTrailerTimeout]
  dsimp only
  rw [if_neg (by simp [he, hd, hsince]), if_neg (by simp [hexp, hcrc, hok]), if_neg (by simp [htrailer]), done]
  rfl

theorem exec_injHeaderTimeout_of_bad {port fn : Nat} {s : State} (he : (s.inj port fn).enabled = true)
    (hd : (s.inj port fn).desync = false) {since : Nat} (hsince : (s.inj port fn).headerSince = some since) {h : Bytes}
    (hh : h = injBytes (s.inj port fn) (s.inj port fn).rdOffset 64) (hexp : injExpected (s.inj port fn) h = true)
    (hcrc : le32 h 0x3C ≠ crc32c (h.take 0x3C)) : exec (.injHeaderTimeout port fn) s = .next (injDesync s port fn) := by
  subst hh
  rw [exec_injHeaderTimeout, execInjHeaderTimeout]
  rw [if_neg (by simp [he, hd, hsince]), if_neg (by simp [hexp, hcrc]), done]

/-- A packet whose trailer never came is skipped and counted (R127). -/
theorem injTorn_facts (s : State) (port fn n : Nat) (slots : Bool) (slot : Nat) (t : State)
    (ht : t = injAdvance ((if slots then auDamage s slot else s).updInj port fn
        (fun i => { i with torn := satAdd (2 ^ 32 - 1) i.torn 1 })) port fn n false) :
    (t.inj port fn).torn = satAdd (2 ^ 32 - 1) (s.inj port fn).torn 1 ∧
    (t.inj port fn).rdOffset = ((s.inj port fn).rdOffset + n) % injSize (s.inj port fn) ∧
    (t.inj port fn).seq = ((s.inj port fn).seq + 1) % 2 ^ 32 := by
  have hdamage : (if slots then auDamage s slot else s).inj port fn = s.inj port fn := by
    split
    · exact (auDamage_touch s slot).inj_eq (by decide) ..
    · rfl
  obtain ⟨hoff, hseq, -, htorn⟩ := advance_inj ((if slots then auDamage s slot else s).updInj port fn
        (fun i => { i with torn := satAdd (2 ^ 32 - 1) i.torn 1 })) port fn n false
  rw [inj_upd, hdamage] at hoff hseq htorn
  rw [ht, hoff, hseq, htorn]
  exact ⟨rfl, rfl, rfl⟩

theorem injConsumer_due {s : State} {port fn : Nat} (hdue : (s.inj port fn).writeDue = true)
    (hissue : canIssue (s.fn port fn) = true) : injConsumer s port fn =
      emit (.hostWrite port fn (s.inj port fn).cons (toLe 4 (s.inj port fn).rdOffset ++ toLe 4 (s.inj port fn).seq ++
        toLe 4 (s.inj port fn).torn ++ toLe 4 (s.inj port fn).gen))
      (s.updInj port fn (fun i => { i with writeDue := false, sinceWrite := 0 })) :=
  if_pos (by simp [hdue, hissue])

/-- Settles O35. -/
theorem injectionPackets : Obligations.InjectionPackets := by
  unfold Obligations.InjectionPackets
  refine ⟨fun port fn s he hd hup => ?_, fun port fn since s he hd => ?_, fun port fn since s he hd => ?_,
    fun port fn s hdue hissue => ?_⟩
  · obtain ⟨h, hh⟩ : ∃ h, h = injBytes (s.inj port fn) (s.inj port fn).rdOffset 64 := ⟨_, rfl⟩
    dsimp only
    rw [← hh]
    refine ⟨_, exec_injPoll_of_running he hd hup hh, fun hother => ?_, fun hmagic hseq => ?_⟩
    · have hexp : injExpected (s.inj port fn) h = false := by
        rw [Bool.eq_false_iff, ne_eq, injExpected_iff]
        exact not_and_or.2 hother
      rw [if_pos (by simp [hexp]), inj_upd]
      exact ⟨rfl, rfl, hd, touches_updInj ..⟩
    have hexp := injExpected_iff.2 ⟨hmagic, hseq⟩
    rw [if_neg (by simp [hexp])]
    refine ⟨fun hcrc => ?_, fun hcrc => ?_⟩
    · rw [if_pos hcrc, inj_upd]
    rw [if_neg (not_not.2 hcrc)]
    refine ⟨fun hbad => ?_, fun hok htype => ?_, fun hok htype htrailer => ?_, fun hok htype htrailer => ?_⟩
    · rw [if_pos (by simp [hbad])]
      exact injDesync_facts ..
    · obtain ⟨hoff, hnext, -⟩ := consume_inj s port fn h
      rw [if_neg (by simp [hok]), if_pos (by simp [htype]), hoff, if_pos htype]
      exact ⟨rfl, hnext⟩
    · obtain ⟨hoff, hnext, hsync⟩ := consume_inj s port fn h
      rw [if_neg (by simp [hok]), if_pos (by simp [htrailer]), hoff, if_neg (by simp [htype])]
      exact ⟨rfl, hnext, hsync.trans hd⟩
    · rw [if_neg (by simp [hok]), if_neg (by simp [htype, htrailer]), inj_upd]
  · obtain ⟨h, hh⟩ : ∃ h, h = injBytes (s.inj port fn) (s.inj port fn).rdOffset 64 := ⟨_, rfl⟩
    dsimp only
    rw [← hh]
    intro hsince hmagic hseq hcrc hok htrailer
    refine ⟨_, exec_injTrailerTimeout_of_torn he hd hsince hh (injExpected_iff.2 ⟨hmagic, hseq⟩) hcrc hok htrailer, ?_⟩
    rw [(raiseLogOf_touch ..).inj_eq (by decide)]
    exact injTorn_facts s port fn (ipLength h) _ (ipSlot h) _ rfl
  · obtain ⟨h, hh⟩ : ∃ h, h = injBytes (s.inj port fn) (s.inj port fn).rdOffset 64 := ⟨_, rfl⟩
    dsimp only
    rw [← hh]
    intro hsince hmagic hseq hcrc
    have hexec := exec_injHeaderTimeout_of_bad he hd hsince hh (injExpected_iff.2 ⟨hmagic, hseq⟩) hcrc
    obtain ⟨hdesync, hoff⟩ := injDesync_facts s port fn
    exact ⟨_, hexec, hdesync, hoff, (injDesync_touch ..).sub (by decide)⟩
  · refine ⟨_, rfl, ?_, injConsumer_touch .., ?_⟩
    · rw [injConsumer_due hdue hissue, (emit_touch ..).inj_eq (by decide), inj_upd]
    · rw [injConsumer_due hdue hissue, emit_out]
      rfl

end Sys2Proof.Machine
end

section
/-! PROOFS. Parse-ahead, the switch point of an engine, and the budget of a picture (R135 to R143): O36, O37. -/

namespace Sys2Proof.Machine

open Sys2Proof (Instr Word Bytes Byte)

theorem se_updDec (s : State) (slot : Nat) (f : Decode → Decode) (i : Nat) : (s.updDec slot f).se i = s.se i :=
  se_updStream s slot (f := fun x => { x with dec := f x.dec }) (fun _ => rfl) i

theorem stream_updDec (s : State) (slot : Nat) (f : Decode → Decode) :
    (s.updDec slot f).stream slot = { s.stream slot with dec := f (s.stream slot).dec } := State.stream_updStream_self ..

theorem stream_updDec_ne (s : State) {slot i : Nat} (f : Decode → Decode) (h : i ≠ slot) :
    (s.updDec slot f).stream i = s.stream i := State.stream_updStream_ne _ _ (Ne.symm h)

/-! ### The checks of the head of the queue -/

theorem parseVerdict_refuse {e : Bytes} {d : Decode} {f : Frame} {h : PicHdr} (hseq : h.hasSeq = true)
    (hbad : hdrPasses e h = false) : parseVerdict e d f h = .refuse := if_pos (by simp [hseq, hbad])

theorem parseVerdict_pass {e : Bytes} {d : Decode} {f : Frame} {h : PicHdr} (hok : hdrPasses e h = true)
    (hseq : d.refusedAu = none) (hlead : h.leading = false)
    (hrap : h.rap = true ∨ (d.segParsed = f.segment + 1 ∧ d.resumeRap = false)) : parseVerdict e d f h = .pass := by
  unfold parseVerdict
  rw [if_neg (by simp [hok]), if_neg (by simp [hseq]), if_neg (by obtain h | ⟨h, -⟩ := hrap <;> simp [h]),
    if_neg (by obtain h | ⟨-, h⟩ := hrap <;> simp [h]), if_neg (by simp [hlead])]

theorem headVerdict_of_queue {s : State} {slot fid : Nat} {rest : List Nat} {h : PicHdr}
    (hqueue : (s.stream slot).dec.queue = fid :: rest) (hhdr : (s.frame fid).hdr = some h) :
    headVerdict s slot = some (fid, parseVerdict (s.se slot) (s.stream slot).dec (s.frame fid) h) := by
  rw [headVerdict, hqueue]
  dsimp only
  rw [hhdr]

theorem parseSettle_settled {s : State} {slot : Nat}
    (h : headVerdict s slot = none ∨ ∃ fid, headVerdict s slot = some (fid, .pass)) (n : Nat) : parseSettle slot n s = s := by
  cases n with
  | zero => rfl
  | succ n =>
    obtain h | ⟨fid, h⟩ := h <;> rw [parseSettle, h]

theorem parseSettle_refuse {s : State} {slot fid : Nat} (h : headVerdict s slot = some (fid, .refuse)) (n : Nat) :
    parseSettle slot (n + 1) s = parseSettle slot n (parseApply s slot fid .refuse) := by
  rw [parseSettle, h]

/-- The state once parse-ahead has indexed an access unit, before the checks. -/
def parseIndexed (s : State) (slot fid : Nat) (hdr : PicHdr) : State :=
  (s.updFrame fid (fun f => { f with hdr := some hdr })).updDec slot (fun d =>
    { d with index := if indexLimit < hdr.indexBytes then d.index else d.index ++ [fid] })

theorem parseIndexed_frame {s : State} (slot : Nat) {fid : Nat} (hdr : PicHdr) {f : Frame} (h : mfind s.frames fid = some f) :
    (parseIndexed s slot fid hdr).frame fid = { f with hdr := some hdr } := by
  have hfind := mfind_updFrame s fid (fun f => { f with hdr := some hdr })
  rw [h] at hfind
  exact mget_of_mfind hfind

theorem parseIndexed_stream (s : State) (slot fid : Nat) (hdr : PicHdr) :
    (parseIndexed s slot fid hdr).stream slot = { s.stream slot with dec := { (s.stream slot).dec with
      index := (s.stream slot).dec.index ++ (if 4096 < hdr.indexBytes then [] else [fid]) } } := by
  rw [parseIndexed, stream_updDec]
  by_cases h : indexLimit < hdr.indexBytes
  · rw [if_pos h, if_pos (show 4096 < hdr.indexBytes from h), List.append_nil]
    rfl
  · rw [if_neg h, if_neg (show ¬ 4096 < hdr.indexBytes from h)]
    rfl

theorem parseIndexed_touch (s : State) (slot fid : Nat) (hdr : PicHdr) :
    Touches [.streams, .frames] s (parseIndexed s slot fid hdr) :=
  (State.updFrame_touch s fid _).seq (State.updDec_touch _ slot _) (by decide) (by decide)

theorem parseIndexed_se (s : State) (slot fid : Nat) (hdr : PicHdr) : (parseIndexed s slot fid hdr).se slot = s.se slot :=
  se_updDec ..

theorem parseIndexed_verdict {s : State} {slot fid : Nat} {rest : List Nat} {f : Frame} (hdr : PicHdr)
    (hqueue : (s.stream slot).dec.queue = fid :: rest) (hf : mfind s.frames fid = some f) :
    headVerdict (parseIndexed s slot fid hdr) slot = some (fid, parseVerdict (s.se slot)
      ((parseIndexed s slot fid hdr).stream slot).dec { f with hdr := some hdr } hdr) := by
  have hframe := parseIndexed_frame slot hdr hf
  rw [headVerdict_of_queue (rest := rest) (h := hdr), hframe, parseIndexed_se]
  · rw [parseIndexed_stream]
    exact hqueue
  · rw [hframe]

theorem exec_parseAhead_index {s : State} {slot fid : Nat} (hdr : PicHdr) (hlimbo : (s.stream slot).dec.limbo = [])
    (hnext : parseNext s slot = some fid) :
    exec (.parseAhead slot hdr) s = .next (parseSettle slot 16 (parseIndexed s slot fid hdr)) := by
  rw [exec_parseAhead, execParseAhead, hnext]
  exact if_neg (by simp [hlimbo])

theorem parseNext_full {s : State} {slot : Nat} (hlimbo : (s.stream slot).dec.limbo = [])
    (hfull : 4 ≤ (s.stream slot).dec.index.length) : parseNext s slot = none := by
  unfold parseNext
  dsimp only
  rw [hlimbo]
  exact if_pos hfull

theorem exec_parseAhead_limbo {s : State} {slot fid : Nat} {l : List Nat} (hdr : PicHdr)
    (hlimbo : (s.stream slot).dec.limbo = fid :: l) :
    exec (.parseAhead slot hdr) s = .next (parseSettle slot 16 (limboParse s slot fid hdr)) := by
  have hnext : parseNext s slot = some fid := by rw [parseNext, hlimbo]
  rw [exec_parseAhead, execParseAhead, hnext]
  exact if_pos (by simp [hlimbo])

/-! ### The switch point -/

theorem begun_engines (s : State) (slot : Nat) (c : Prop) [Decidable c] :
    (if c then beginPicture s slot else s).engines = s.engines := by
  split
  · exact beginPicture_eng ..
  · rfl

/-- The stream that an engine serves from a switch point on: the ready one of least virtual time (R143). -/
theorem switchIn_cur (s : State) (g : Nat) : (mget (switchIn s g).engines g).cur =
    leastSlot (engineNote s g) ((engineSlots s g).filter (fun i => ((engineNote s g).stream i).dec.ready)) := by
  unfold switchIn
  dsimp only
  cases leastSlot (engineNote s g) ((engineSlots s g).filter (fun i => ((engineNote s g).stream i).dec.ready)) with
  | none =>
    dsimp only
    rw [mget_mupd_self]
  | some slot =>
    rw [begun_engines, mget_mupd_self]

/-- Settles O36. -/
theorem parseAheadAndSwitch : Obligations.ParseAheadAndSwitch := by
  unfold Obligations.ParseAheadAndSwitch
  refine ⟨fun slot fid rest hdr f s hlimbo hqueue hnext hf => ?_, fun slot hdr s hlimbo hfull hhead => ?_,
    fun slot fid l hdr s hlimbo => ?_, fun engine cycles bands damage s => ?_⟩
  · have hverdict := parseIndexed_verdict hdr hqueue hf
    refine ⟨_, exec_parseAhead_index hdr hlimbo hnext, fun hok hseq hlead hrap => ?_, fun hseq hbad => ?_⟩
    · have hstream := parseIndexed_stream s slot fid hdr
      rw [parseVerdict_pass hok (by rw [hstream]; exact hseq) hlead (by rw [hstream]; exact hrap)] at hverdict
      rw [parseSettle_settled (.inr ⟨fid, hverdict⟩)]
      exact ⟨parseIndexed_frame slot hdr hf, hstream, fun i hi => stream_updDec_ne _ _ hi, parseIndexed_touch ..⟩
    · rw [parseVerdict_refuse hseq hbad] at hverdict
      rw [parseSettle_refuse hverdict]
      have hframe := parseIndexed_frame slot hdr hf
      refine ⟨(parseIndexed s slot fid hdr).updDec slot (fun d =>
        { d with refusedAu := some ((parseIndexed s slot fid hdr).frame fid).au }), ?_, hframe, ?_, rfl⟩
      · exact (parseIndexed_touch ..).seq (State.updDec_touch _ slot _) (by decide) (by decide)
      · rw [dec_upd, hframe]
  · rw [exec_parseAhead, execParseAhead, parseNext_full hlimbo hfull]
    exact congrArg Host.Outcome.next (parseSettle_settled hhead _)
  · refine ⟨_, _, exec_parseAhead_limbo hdr hlimbo, rfl, fun hrap hroom => ?_, fun hno => ?_⟩
    · rw [limboParse, hlimbo]
      exact if_pos (by rw [hrap, Bool.true_and]; exact decide_eq_true hroom)
    · refine if_neg fun h => ?_
      rw [Bool.and_eq_true, decide_eq_true_eq] at h
      obtain hrap | hfull := hno
      · exact absurd (h.1.symm.trans hrap) (by decide)
      · exact absurd h.2 (Nat.not_lt.2 hfull)
  · rw [exec_decodeSwitch, execDecodeSwitch]
    by_cases hfenced : (mget s.engines engine).fenced = true
    · rw [if_pos hfenced]
      exact ⟨s, rfl, fun _ => rfl, fun h => absurd (hfenced.symm.trans h) (by decide)⟩
    rw [if_neg hfenced]
    refine ⟨_, rfl, fun h => absurd h hfenced, fun _ u hu => ⟨fun hserves => ?_, fun hswitches n hn => ⟨?_, ?_⟩⟩⟩
    · rw [← hu, if_neg (by simp [hserves])]
    · rintro ⟨i, hi, hready⟩
      rw [← hu, if_pos hswitches, switchIn_cur, ← hn]
      exact leastSlot_some _ _ (List.ne_nil_of_mem (List.mem_filter.2 ⟨hi, hready⟩))
    · intro slot hcur
      rw [← hu, if_pos hswitches, switchIn_cur, ← hn] at hcur
      obtain ⟨hmem, hleast⟩ := leastSlot_spec _ _ _ hcur
      obtain ⟨hslot, hready⟩ := List.mem_filter.1 hmem
      exact ⟨hslot, hready, fun i hi hr => hleast i (List.mem_filter.2 ⟨hi, hr⟩)⟩

/-! ### The budget of a picture, and its end -/

/-- Taking note of which streams are ready changes their readiness and virtual time alone. -/
theorem noteReady_stream (v : Option Rat) (l : List Nat) (s : State) (i : Nat) : ∃ r vt,
    (noteReady v l s).stream i = { s.stream i with dec := { (s.stream i).dec with ready := r, vtime := vt } } := by
  induction l generalizing s with
  | nil => exact ⟨_, _, rfl⟩
  | cons a t ih =>
    obtain ⟨f, hf, hnote⟩ : ∃ f : Decode → Decode, (∀ d, ∃ r vt, f d = { d with ready := r, vtime := vt }) ∧
        noteReady v (a :: t) s = noteReady v t (s.updDec a f) := ⟨_, fun d => ⟨_, _, rfl⟩, rfl⟩
    obtain ⟨r, vt, h⟩ := ih (s.updDec a f)
    rw [hnote, h]
    by_cases hi : i = a
    · obtain ⟨r', vt', hd⟩ := hf (s.stream i).dec
      rw [← hi, stream_updDec, hd]
      exact ⟨r, vt, rfl⟩
    · rw [stream_updDec_ne _ _ hi]
      exact ⟨r, vt, rfl⟩

theorem engineNote_stream (s : State) (g i : Nat) : ∃ r vt,
    (engineNote s g).stream i = { s.stream i with dec := { (s.stream i).dec with ready := r, vtime := vt } } :=
  noteReady_stream ..

/-- Serving a stream adds the cycles to its picture and to counter 8. -/
theorem engineServe_facts {s : State} {slot : Nat} {c : CurPic} (hcur : (s.stream slot).dec.cur = some c) (g cycles : Nat) :
    ((engineServe s g slot cycles).stream slot).dec.cur = some { c with cycles := c.cycles + cycles } ∧
    ((engineServe s g slot cycles).stream slot).dec.index = (s.stream slot).dec.index ∧
    ((engineServe s g slot cycles).stream slot).dec.ctr = bump (s.stream slot).dec.ctr 8 cycles ∧
    ∀ i, i ≠ slot → ∃ r vt, (engineServe s g slot cycles).stream i =
      { s.stream i with dec := { (s.stream i).dec with ready := r, vtime := vt } } := by
  obtain ⟨r, vt, hnote⟩ := engineNote_stream s g slot
  obtain ⟨hpic, hctr, hother⟩ := serve_spec (engineNote s g) slot cycles
  rw [hnote] at hpic hctr
  refine ⟨hpic.trans ?_, ?_, hctr, fun i hi => ?_⟩
  · rw [hcur]
    rfl
  · show ((serve (engineNote s g) slot cycles).stream slot).dec.index = _
    rw [serve, count_dec, dec_upd, hnote]
  · obtain ⟨r, vt, h⟩ := engineNote_stream s g i
    exact ⟨r, vt, (hother i hi).trans h⟩

theorem mget_bump_ne (m : Map Nat) {j k : Nat} (n : Nat) (h : k ≠ j) : mget (bump m k n) j = mget m j := mget_mupd_ne _ _ h

/-- A picture that is abandoned after serving it (R144). -/
theorem abandonServed_facts {s : State} {slot : Nat} {c : CurPic} (hcur : (s.stream slot).dec.cur = some c)
    (hgoes : c.abandoned = false) (g cycles : Nat) (t : State) (ht : t = abandonPicture (engineServe s g slot cycles) slot) :
    (t.stream slot).dec.cur = some { c with cycles := c.cycles + cycles, abandoned := true } ∧
    (t.stream slot).dec.index = (s.stream slot).dec.index ∧
    mget (t.stream slot).dec.ctr 2 = satAdd (2 ^ 64 - 1) (mget (s.stream slot).dec.ctr 2) 1 ∧
    mget (t.stream slot).dec.ctr 8 = satAdd (2 ^ 64 - 1) (mget (s.stream slot).dec.ctr 8) cycles ∧
    (∀ i, i ≠ slot → ∃ r v, t.stream i = { s.stream i with dec := { (s.stream i).dec with ready := r, vtime := v } }) ∧
    Touches [.streams, .engines] s t := by
  subst ht
  obtain ⟨hpic, hindex, hctr, hother⟩ := engineServe_facts hcur g cycles
  obtain ⟨hcur', hindex', hctr', hother'⟩ := abandon_spec _ slot _ hpic hgoes
  refine ⟨hcur', hindex'.trans hindex, ?_, ?_, fun i hi => ?_, ?_⟩
  · rw [hctr', mget_bump_self, hctr, mget_bump_ne _ _ (by decide)]
  · rw [hctr', mget_bump_ne _ _ (by decide), hctr, mget_bump_self]
  · rw [hother' i hi]
    exact hother i hi
  · exact (engineServe_touch ..).seq (abandon_touch ..) (by decide) (by decide)

theorem exec_pictureBudgetExceeded_of_cur {s : State} {engine slot : Nat} {c : CurPic} (cycles : Nat) (atSlice : Bool)
    (heng : engineCur s engine = some slot) (hcur : (s.stream slot).dec.cur = some c) :
    exec (.pictureBudgetExceeded engine cycles atSlice) s = .next (
      if budgetStops { c with cycles := c.cycles + cycles } atSlice then
        abandonPicture (engineServe s engine slot cycles) slot
      else engineServe s engine slot cycles) := by
  rw [exec_pictureBudgetExceeded, execPictureBudgetExceeded, heng]
  dsimp only
  rw [(engineServe_facts hcur engine cycles).1]
  exact (apply_ite Host.Outcome.next _ _ _).symm

theorem engineServe_frame (s : State) (g slot cycles fid : Nat) : (engineServe s g slot cycles).frame fid = s.frame fid := by
  rw [State.frame, (engineServe_touch ..).frames_eq (by decide), State.frame]

theorem exec_pictureDecoded_of_bands {s : State} {engine slot : Nat} {c : CurPic} (cycles : Nat) (out : PicOut)
    (heng : engineCur s engine = some slot) (hcur : (s.stream slot).dec.cur = some c)
    (hbands : bandCount (((s.frame c.frame).hdr.getD default).codedH) ≤ (s.frame c.frame).bands.length) :
    exec (.pictureDecoded engine cycles out) s = .next (commitPicture (engineServe s engine slot cycles) slot c.frame
      (c.cycles + cycles) (endOut ((s.frame c.frame).damaged || c.poisoned) c.abandoned out)) := by
  rw [exec_pictureDecoded, execPictureDecoded, heng]
  dsimp only
  rw [(engineServe_facts hcur engine cycles).1]
  dsimp only
  rw [engineServe_frame, Nat.sub_eq_zero_of_le hbands]
  rfl

/-- Settles O37. -/
theorem pictureBudgetAndEnd : Obligations.PictureBudgetAndEnd := by
  unfold Obligations.PictureBudgetAndEnd
  refine ⟨fun engine cycles slot atSlice c s heng hcur hgoes => ⟨?_, ?_⟩, fun engine cycles slot out c s heng hcur hbands => ?_⟩
  · have hexec : exec (.blockCycleLimit engine cycles) s = .next (abandonPicture (engineServe s engine slot cycles) slot) := by
      rw [exec_blockCycleLimit, execBlockCycleLimit, heng, done]
    exact ⟨_, hexec, abandonServed_facts hcur hgoes engine cycles _ rfl⟩
  · refine ⟨_, exec_pictureBudgetExceeded_of_cur cycles atSlice heng hcur, fun hover => ?_, fun hin hunder => ?_⟩
    · rw [if_pos (by simpa [budgetStops] using hover)]
      exact abandonServed_facts hcur hgoes engine cycles _ rfl
    · rw [if_neg]
      · exact ⟨rfl, (engineServe_facts hcur engine cycles).1⟩
      · rw [budgetStops, Bool.or_eq_true, Bool.and_eq_true, decide_eq_true_eq, decide_eq_true_eq]
        rintro (⟨hslice, hbudget⟩ | hbudget)
        · obtain h | h := hin
          · exact absurd (hslice.symm.trans h) (by decide)
          · exact absurd h (Nat.not_lt.2 hbudget)
        · exact absurd hunder (Nat.not_lt.2 hbudget)
  · exact ⟨_, _, exec_pictureDecoded_of_bands cycles out heng hcur hbands, rfl, rfl⟩

end Sys2Proof.Machine
end

section
/-! PROOFS. Resampling, the batch that a picture joins, and the close of a batch (R147 to R152): O38. -/

namespace Sys2Proof.Machine

open Sys2Proof (Instr Word Bytes Byte)

/-! ### Frames after an update of one of them -/

theorem mfind_mapUpd_ne {α : Type} (m : Map α) {i j : Nat} (f : α → α) (h : i ≠ j) :
    mfind (m.map (fun p => if p.1 = i then (p.1, f p.2) else p)) j = mfind m j := by
  induction m with
  | nil => rfl
  | cons a m ih =>
    obtain ⟨q, v⟩ := a
    by_cases hq : q = i
    · subst hq
      simpa [mfind, h] using ih
    · by_cases hj : q = j
      · subst hj
        simp [mfind, hq]
      · simpa [mfind, hq, hj] using ih

theorem frame_updFrame_ne (s : State) {i j : Nat} (f : Frame → Frame) (h : i ≠ j) : (s.updFrame i f).frame j = s.frame j :=
  congrArg (Option.getD · default) (mfind_mapUpd_ne _ _ h)

theorem mfind_updFrame_some {s : State} {i : Nat} {f : Frame} (g : Frame → Frame) (h : mfind s.frames i = some f) :
    mfind (s.updFrame i g).frames i = some (g f) := by
  rw [mfind_updFrame, h]
  rfl

theorem ledgerWrite_frame_ne (s : State) {i j : Nat} (h : i ≠ j) : (ledgerWrite s i).frame j = s.frame j := by
  unfold ledgerWrite
  dsimp only
  split
  · rfl
  · split
    · rfl
    · split
      · rw [show ∀ o (u : State), (emit o u).frame j = u.frame j from fun _ _ => rfl, frame_updFrame_ne _ _ h]
      · rfl

theorem frameStage_frame_ne (s : State) {i j : Nat} (st : Nat) (h : i ≠ j) : (frameStage s i st).frame j = s.frame j :=
  (ledgerWrite_frame_ne _ h).trans (frame_updFrame_ne _ _ h)

/-! ### What a batch key depends on -/

theorem cfgOf_congr {s t : State} (hm : t.moult = s.moult) (hs : t.scu = s.scu) (q : Nat) : t.cfgOf q = s.cfgOf q := by
  unfold State.cfgOf State.run
  rw [hm, hs]

theorem refOnly_congr {s t : State} (hm : t.moult = s.moult) (hs : t.scu = s.scu) {f g : Frame}
    (hslot : g.slot = f.slot) (hseq : g.cfgSeq = f.cfgSeq) : refOnly t g = refOnly s f := by
  unfold refOnly frameCfg
  rw [cfgOf_congr hm hs, hslot, hseq]

theorem batchKey_congr {s t : State} (hm : t.moult = s.moult) (hs : t.scu = s.scu) {f g : Frame}
    (hslot : g.slot = f.slot) (hseq : g.cfgSeq = f.cfgSeq) (hwork : g.work = f.work) : batchKey t g = batchKey s f := by
  unfold batchKey frameTeacher frameSe frameCfg workSize
  rw [cfgOf_congr hm hs, hslot, hseq, hwork]

/-! ### The close of a batch -/

theorem mfind_updBatch_some {s : State} {b : Nat} {x : Batch} (g : Batch → Batch) (h : mfind s.batches b = some x) :
    mfind (s.updBatch b g).batches b = some (g x) := by
  rw [mfind_updBatch, h]
  rfl

/-- The state that a batch has closed in, before its pictures are told. -/
def batchClosed (s : State) (b : Nat) (x : Batch) : State :=
  (s.updBatch b (fun y => { y with
    closed := true, closedAt := s.now, members := padMembers y.members, seq := (s.part x.part).batchSeq })).updPart x.part
    (fun p => { p with batchSeq := ((s.part x.part).batchSeq + 1) % 2 ^ 32, queue := p.queue ++ [b] })

theorem batchClose_eq {s : State} {b : Nat} {x : Batch} (hx : mfind s.batches b = some x) (hopen : x.closed = false)
    (hframe : batchHasFrame x = true) : batchClose s b =
      stageMembers (padMembers x.members) ((partSlots (batchClosed s b x) x.part).foldl trainRefresh (batchClosed s b x)) := by
  rw [batchClose, hx]
  dsimp only
  rw [if_neg (by simp [hopen]), if_neg (by simp [hframe])]
  rfl

theorem batchClose_rest (l : List (Option Nat)) (slots : List Nat) (s : State) :
    Touches [.streams, .frames, .mem, .store, .out] s (stageMembers l (slots.foldl trainRefresh s)) :=
  (fold_trT slots s).seq (stageMembers_touch l _) (by decide) (by decide)

theorem batchClose_batch {s : State} {b : Nat} {x : Batch} (hx : mfind s.batches b = some x) (hopen : x.closed = false)
    (hframe : batchHasFrame x = true) : mfind (batchClose s b).batches b = some { x with
      closed := true, closedAt := s.now, members := padMembers x.members, seq := (s.part x.part).batchSeq } := by
  rw [batchClose_eq hx hopen hframe, (batchClose_rest ..).batches_eq (by decide)]
  exact mfind_updBatch_some (fun y => { y with
    closed := true, closedAt := s.now, members := padMembers y.members, seq := (s.part x.part).batchSeq }) hx

theorem batchClose_part {s : State} {b : Nat} {x : Batch} (hx : mfind s.batches b = some x) (hopen : x.closed = false)
    (hframe : batchHasFrame x = true) : (batchClose s b).part x.part = { s.part x.part with
      batchSeq := ((s.part x.part).batchSeq + 1) % 2 ^ 32, queue := (s.part x.part).queue ++ [b] } := by
  rw [batchClose_eq hx hopen hframe, (batchClose_rest ..).part (by decide)]
  exact part_upd ..

/-! ### Taking a picture -/

theorem exec_resamplePicture_of_free {rs fid : Nat} {s : State} (hrs : rs < 4) (hwell : (mget s.resamplers rs).fenced = false)
    (hfree : (mget s.resamplers rs).cur = none) (hnext : nextRelease s = some fid) :
    exec (.resamplePicture rs) s = .next (if refOnly s (s.frame fid) then
      resampTake (s.updFrame fid (fun f => { f with released := false })) rs fid else resampWork s rs fid) := by
  rw [exec_resamplePicture, execResamplePicture, if_neg (by simp [hwell, hfree, Nat.not_le.2 hrs]), hnext]
  exact (apply_ite Host.Outcome.next _ _ _).symm

theorem resampTake_cur (s : State) (rs fid : Nat) : (mget (resampTake s rs fid).resamplers rs).cur = some fid :=
  congrArg Resampler.cur (mget_mupd_self s.resamplers rs (fun r => { r with cur := some fid }))

/-- The working picture that an emitting picture is given (R147, R148). -/
theorem resampWork_eq {s u : State} {fid k a : Nat} {f : Frame} {p : PicData} {wk : Nat × Nat × List Nat}
    {down : Option (Nat × Nat × List Nat)} {crop : Bool} (hf : mfind s.frames fid = some f) (hpic : f.pic = some p)
    (hwork : workOf (frameTeacher s f) (frameSe s f) p = (wk, down, crop))
    (hpool : smallestPool s.run (workBytes (workFmt (frameTeacher s f)) wk.1 wk.2.1) = some k)
    (halloc : bpmAlloc s (frameBpmPart s f) k = (some a, u)) (rs : Nat) : resampWork s rs fid =
      resampTake (resampleLogs (u.updFrame fid (fun f =>
        { f with work := some wk, down := down, workBuf := some a, released := false })) f.slot p.hdr crop) rs fid := by
  rw [resampWork, show s.frame fid = f from mget_of_mfind hf, hpic]
  dsimp only [Option.getD_some]
  rw [hwork]
  dsimp only
  rw [hpool]
  dsimp only
  rw [halloc]

/-! ### The end of the work -/

/-- The resampler is free. -/
def resamplerFreed (s : State) (rs : Nat) : State :=
  { s with resamplers := mupd s.resamplers rs (fun r => { r with cur := none }) }

theorem resamplerFreed_touch (s : State) (rs : Nat) : Touches [.resamplers] s (resamplerFreed s rs) :=
  Touches.ofMk (Touches.refl s) kp kp kp kp kp kp kp kp kp kp kp kp kp kp kp kp ch kp kp kp kp kp kp kp kp kp kp kp kp kp kp kp kp
    kp kp kp kp kp kp

/-- The state in which a resampled picture meets the batches. -/
def resampled (s : State) (rs fid : Nat) : State :=
  frameStage ((resamplerFreed s rs).updFrame fid (fun f =>
    { f with resampled := true, tileCount := tileTotal (baseSize (s.frame fid)).1 (baseSize (s.frame fid)).2 })) fid 4

theorem resampled_touch (s : State) (rs fid : Nat) : Touches [.frames, .resamplers, .out] s (resampled s rs fid) := by
  refine Touches.trans ((resamplerFreed_touch s rs).sub (by decide)) (Touches.trans ?_ (Touches.sub (frameStage_touch ..) (by decide)))
  exact (State.updFrame_touch ..).sub (by decide)

theorem resampled_resamplers (s : State) (rs fid : Nat) :
    (resampled s rs fid).resamplers = mupd s.resamplers rs (fun r => { r with cur := none }) :=
  (frameStage_touch ..).resamplers_eq (by decide)

/-- A resampled picture keeps its slot, its configuration and its working picture. -/
theorem resampled_frame {s : State} {fid : Nat} {f : Frame} (hf : mfind s.frames fid = some f) (rs : Nat) :
    ((resampled s rs fid).frame fid).slot = f.slot ∧ ((resampled s rs fid).frame fid).cfgSeq = f.cfgSeq ∧
    ((resampled s rs fid).frame fid).work = f.work := by
  obtain ⟨w, hw⟩ := frameStage_frame _ fid 4 _ (mfind_updFrame_some (s := resamplerFreed s rs) (fun f =>
    { f with resampled := true, tileCount := tileTotal (baseSize (s.frame fid)).1 (baseSize (s.frame fid)).2 }) hf)
  rw [show (resampled s rs fid).frame fid = _ from mget_of_mfind hw]
  exact ⟨rfl, rfl, rfl⟩

theorem resampled_slot {s : State} {fid : Nat} {f : Frame} (hf : mfind s.frames fid = some f) (rs i : Nat) :
    ((resampled s rs fid).frame i).slot = (s.frame i).slot := by
  by_cases hi : fid = i
  · rw [← hi, (resampled_frame hf rs).1, show s.frame fid = f from mget_of_mfind hf]
  · rw [resampled, frameStage_frame_ne _ _ hi, frame_updFrame_ne _ _ hi]
    rfl

theorem exec_resampleDone_of_cur {s : State} {rs fid : Nat} {f : Frame} (hcur : (mget s.resamplers rs).cur = some fid)
    (hf : mfind s.frames fid = some f) : exec (.resampleDone rs) s = .next (sweepSlots
      (groupSlots (if refOnly s f then resampled s rs fid else batchJoin (resampled s rs fid) fid) f.slot)
      (if refOnly s f then resampled s rs fid else batchJoin (resampled s rs fid) fid)) := by
  have hframe : s.frame fid = f := mget_of_mfind hf
  have href : refOnly (resampled s rs fid) f = refOnly s f := refOnly_congr ((resampled_touch ..).same .moult (by decide))
    ((resampled_touch ..).same .scu (by decide)) rfl rfl
  rw [exec_resampleDone, execResampleDone, hcur, ← href, ← hframe]
  rfl

theorem batchJoin_fresh {s : State} {fid : Nat} (h : openBatch s (batchKey s (s.frame fid)) = none) : batchJoin s fid =
    (batchOpen s (batchKey s (s.frame fid)) fid).updFrame fid (fun f => { f with batch := some s.nextBatch }) := by
  unfold batchJoin
  dsimp only
  rw [h]

theorem batchJoin_open {s : State} {fid b : Nat} {x : Batch} (h : openBatch s (batchKey s (s.frame fid)) = some b)
    (hx : mfind s.batches b = some x) (hslot : batchHasSlot s x (s.frame fid).slot = false) : batchJoin s fid =
      if 8 ≤ x.members.length + 1 then
        batchClose ((s.updBatch b (fun x => { x with members := x.members ++ [some fid] })).updFrame fid
          (fun f => { f with batch := some b })) b
      else (s.updBatch b (fun x => { x with members := x.members ++ [some fid] })).updFrame fid
        (fun f => { f with batch := some b }) := by
  unfold batchJoin
  dsimp only
  rw [h]
  dsimp only
  rw [hx]
  exact if_neg (by simp [hslot])

theorem openBatch_congr {s t : State} (h : t.batches = s.batches) (k : Nat × List Nat × Nat × Nat) :
    openBatch t k = openBatch s k := by
  unfold openBatch
  rw [h]

theorem resampled_batches (s : State) (rs fid : Nat) : (resampled s rs fid).batches = s.batches :=
  (resampled_touch s rs fid).batches_eq (by decide)

theorem resampled_open {s : State} {fid : Nat} {f : Frame} (hf : mfind s.frames fid = some f) (rs : Nat) :
    openBatch (resampled s rs fid) (batchKey (resampled s rs fid) ((resampled s rs fid).frame fid)) =
      openBatch s (batchKey s f) := by
  obtain ⟨hslot, hseq, hwork⟩ := resampled_frame hf rs
  rw [openBatch_congr (resampled_batches s rs fid), batchKey_congr ((resampled_touch s rs fid).same .moult (by decide))
    ((resampled_touch s rs fid).same .scu (by decide)) hslot hseq hwork]

theorem batchOpen_batch (s : State) (k : Nat × List Nat × Nat × Nat) (fid : Nat) :
    mfind (batchOpen s k fid).batches s.nextBatch = some { (default : Batch) with
      part := k.1, models := k.2.1, instar := k.2.2.1, cfgSeq := k.2.2.2, members := [some fid], since := s.now,
      inv := [0, 0, 0, 0, 0] } := mfind_mput_self ..

/-- A resampled picture opens a batch where none of its key is open. -/
theorem resampled_fresh {s : State} {fid : Nat} {f : Frame} (hf : mfind s.frames fid = some f) (rs : Nat)
    (hnone : openBatch s (batchKey s f) = none) : mfind (batchJoin (resampled s rs fid) fid).batches s.nextBatch =
      some { (default : Batch) with
        part := (batchKey s f).1, models := (batchKey s f).2.1, instar := (batchKey s f).2.2.1, cfgSeq := f.cfgSeq
        members := [some fid], since := s.now, inv := [0, 0, 0, 0, 0] } := by
  obtain ⟨hslot, hseq, hwork⟩ := resampled_frame hf rs
  have hkey := batchKey_congr ((resampled_touch s rs fid).same .moult (by decide))
    ((resampled_touch s rs fid).same .scu (by decide)) hslot hseq hwork
  have hnext : (resampled s rs fid).nextBatch = s.nextBatch :=
    congrArg Prod.snd ((resampled_touch s rs fid).same .batches (by decide))
  have hnow : (resampled s rs fid).now = s.now := (resampled_touch s rs fid).same .now (by decide)
  have hopened := batchOpen_batch (resampled s rs fid) (batchKey s f) fid
  rw [hnext, hnow] at hopened
  rw [batchJoin_fresh ((resampled_open hf rs).trans hnone), hkey]
  exact hopened

theorem batchHasSlot_false {s : State} {x : Batch} {slot : Nat} (h : ∀ i, some i ∈ x.members → (s.frame i).slot ≠ slot) :
    batchHasSlot s x slot = false := by
  unfold batchHasSlot
  rw [List.any_eq_false]
  rintro (_ | i) hm
  · exact Bool.false_ne_true
  · simpa using h i hm

/-- A resampled picture joins the open batch of its key, and closes it as its eighth member. -/
theorem resampled_joins {s : State} {fid b : Nat} {f : Frame} {x : Batch} (hf : mfind s.frames fid = some f) (rs : Nat)
    (hopen : openBatch s (batchKey s f) = some b) (hx : mfind s.batches b = some x)
    (hslots : ∀ i, some i ∈ x.members → (s.frame i).slot ≠ f.slot) :
    (x.members.length < 7 → mfind (batchJoin (resampled s rs fid) fid).batches b =
      some { x with members := x.members ++ [some fid] }) ∧
    (x.members.length = 7 → x.closed = false → mfind (batchJoin (resampled s rs fid) fid).batches b = some { x with
      members := x.members ++ [some fid], closed := true, closedAt := s.now, seq := (s.part x.part).batchSeq }) := by
  have hfree : batchHasSlot (resampled s rs fid) x ((resampled s rs fid).frame fid).slot = false := by
    rw [(resampled_frame hf rs).1]
    exact batchHasSlot_false fun i hi => by rw [resampled_slot hf]; exact hslots i hi
  have hjoin := batchJoin_open ((resampled_open hf rs).trans hopen) (by rw [resampled_batches]; exact hx) hfree
  have hmember := mfind_updBatch_some (s := resampled s rs fid) (fun x => { x with members := x.members ++ [some fid] })
    (by rw [resampled_batches]; exact hx)
  refine ⟨fun hlen => ?_, fun hlen hnew => ?_⟩
  · rw [hjoin, if_neg (by omega)]
    exact hmember
  · rw [hjoin, if_pos (by omega)]
    have hclose := batchClose_batch (s := ((resampled s rs fid).updBatch b
      (fun x => { x with members := x.members ++ [some fid] })).updFrame fid (fun f => { f with batch := some b })) hmember hnew
      (by simp [batchHasFrame])
    have hpad : padMembers (x.members ++ [some fid]) = x.members ++ [some fid] := by
      simp [padMembers, batchSize, hlen]
    have hnow : (resampled s rs fid).now = s.now := (resampled_touch s rs fid).same .now (by decide)
    have hpart : (resampled s rs fid).part x.part = s.part x.part := (resampled_touch s rs fid).part (by decide) _
    refine hclose.trans ?_
    dsimp only
    rw [hpad]
    exact congrArg₂ (fun n q => some { x with
      members := x.members ++ [some fid], closed := true, closedAt := n, seq := q }) hnow (congrArg Part.batchSeq hpart)

/-- Settles O38. -/
theorem resampleAndBatch : Obligations.ResampleAndBatch := by
  unfold Obligations.ResampleAndBatch
  refine ⟨fun rs fid s hrs hwell hfree hnext href => ?_,
    fun rs fid k a f p wk down crop s u hrs hwell hfree hnext hf href hpic hwork hpool halloc => ?_,
    fun rs fid f s hcur hf => ?_, fun b x s hx hopen hframe => ?_⟩
  · rw [exec_resamplePicture_of_free hrs hwell hfree hnext, if_pos href]
    exact ⟨_, rfl, resampTake_cur .., rfl, (State.updFrame_touch ..).seq (resampTake_touch ..) (by decide) (by decide)⟩
  · have hframe : s.frame fid = f := mget_of_mfind hf
    rw [exec_resamplePicture_of_free hrs hwell hfree hnext, if_neg (by simp [hframe, href]),
      resampWork_eq hf hpic hwork hpool halloc]
    have hu : Touches [.rings, .parts, .mem, .bpm, .alarms, .tu, .out, .freeIx] s u := by
      have := bpmAlloc_touch s (frameBpmPart s f) k
      rwa [halloc] at this
    have hwritten := mfind_updFrame_some (s := u) (fun f => { f with work := some wk, down := down, workBuf := some a, released := false })
      (by rw [hu.frames_eq (by decide)]; exact hf)
    have hlogs := resampleLogs_touch (u.updFrame fid (fun f =>
      { f with work := some wk, down := down, workBuf := some a, released := false })) f.slot p.hdr crop
    refine ⟨_, rfl, resampTake_cur .., ?_, ?_⟩
    · refine congrArg (List.filter (· != fid)) ?_
      exact (hlogs.same .relq (by decide)).trans (hu.same .relq (by decide))
    · rw [← hlogs.frames_eq (by decide)] at hwritten
      have htaken := mget_of_mfind hwritten
      exact ⟨congrArg Frame.work htaken, congrArg Frame.down htaken, congrArg Frame.workBuf htaken⟩
  · have hexec := exec_resampleDone_of_cur hcur hf
    have hafter : Touches [.streams, .frames, .batches, .parts, .mem, .store, .out] (resampled s rs fid)
        (if refOnly s f then resampled s rs fid else batchJoin (resampled s rs fid) fid) :=
      Touches.ite (Touches.refl _) (batchJoin_touch ..)
    have hsweep := sweepSlots_touch (groupSlots (if refOnly s f then resampled s rs fid
      else batchJoin (resampled s rs fid) fid) f.slot) (if refOnly s f then resampled s rs fid
      else batchJoin (resampled s rs fid) fid)
    have hresamplers := (hsweep.resamplers_eq (by decide)).trans ((hafter.resamplers_eq (by decide)).trans
      (resampled_resamplers s rs fid))
    refine ⟨_, hexec, ?_, fun r hr => ?_, ?_, fun href => ?_, fun href hnone => ?_, fun b x href hopen hx hslots => ?_⟩
    · rw [hresamplers, mget_mupd_self]
    · rw [hresamplers, mget_mupd_ne _ _ (Ne.symm hr)]
    · exact (hsweep.same .relq (by decide)).trans ((hafter.same .relq (by decide)).trans
        ((resampled_touch s rs fid).same .relq (by decide)))
    · rw [hsweep.batches_eq (by decide), if_pos href, resampled_batches]
    · rw [hsweep.batches_eq (by decide), if_neg (by simp [href])]
      exact resampled_fresh hf rs hnone
    · rw [hsweep.batches_eq (by decide), if_neg (by simp [href])]
      exact resampled_joins hf rs hopen hx hslots
  · have hexec : exec (.batchTimeout b) s = .next (batchClose s b) := rfl
    have hpart := batchClose_part hx hopen hframe
    exact ⟨_, hexec, batchClose_batch hx hopen hframe, congrArg Part.queue hpart, congrArg Part.batchSeq hpart,
      batchClose_touch s b⟩

end Sys2Proof.Machine
end

section
/-! PROOFS. Admission, readiness, residency and claims (R173, R222, R308 to R311): O39. -/

namespace Sys2Proof.Machine

open Sys2Proof (Instr Word Bytes Byte)

/-! ### Admission -/

theorem admitNext_eq {s : State} {part b r : Nat} {l rs : List Nat} {x : Batch} (hqueue : (s.part part).queue = b :: l)
    (hx : mfind s.batches b = some x) (hup : s.pac.restarting = false)
    (hquiet : peClass (s.pe part) = 0 ∨ anyWarn s = false)
    (hregion : pinnedRegions s part = r :: rs ∨
      (pinnedRegions s part = [] ∧ chooseRegion s x = some r ∧ backlog s r ≤ 50000 * 166320)) :
    admitNext s part = admitTo s b r x := by
  unfold admitNext
  rw [hqueue]
  dsimp only
  rw [hx]
  dsimp only
  rw [if_neg (by obtain h | h := hquiet <;> simp [hup, h])]
  obtain hpin | ⟨hshared, hchoose, hlow⟩ := hregion
  · rw [hpin]
  · rw [hshared]
    dsimp only
    rw [hchoose]
    dsimp only
    rw [if_neg (show ¬ backlogMs < backlog s r from Nat.not_lt.2 hlow)]

theorem admitTo_batch {s : State} {b : Nat} {x : Batch} (hx : mfind s.batches b = some x) (r : Nat) :
    mfind (admitTo s b r x).batches b = some { x with region := some r, order := s.pac.order } :=
  mfind_updBatch_some (fun x => { x with region := some r, order := s.pac.order }) hx

theorem admitTo_queue (s : State) (b r : Nat) (x : Batch) :
    ((admitTo s b r x).part x.part).queue = (s.part x.part).queue.filter (· != b) :=
  congrArg Part.queue (part_upd _ x.part _)

/-! ### Readiness and residency -/

theorem makeRunnable_eq {s : State} {b m r : Nat} {x : Batch} (hx : mfind s.batches b = some x) (hr : x.region = some r)
    (hinv : invOf x m = 0) (hm : m < 5) : makeRunnable s b m =
      if x.models.getD m 0xFF = 0xFF then batchEnd (setInv s b m 4) b
      else if invReady s b m x then queueInv s r b m else s := by
  unfold makeRunnable
  rw [hx]
  dsimp only
  rw [hr]
  exact if_neg (by simp [hinv, Nat.not_le.2 hm])

theorem setInv_batch {s : State} {b : Nat} {x : Batch} (hx : mfind s.batches b = some x) (m v : Nat) :
    mfind (setInv s b m v).batches b = some { x with inv := x.inv.zipIdx.map (fun p => if p.2 = m then v else p.1) } :=
  mfind_updBatch_some (fun x => { x with inv := x.inv.zipIdx.map (fun p => if p.2 = m then v else p.1) }) hx

theorem queueInv_batch {s : State} {b : Nat} {x : Batch} (hx : mfind s.batches b = some x) (r m : Nat) :
    mfind (queueInv s r b m).batches b = some { x with
      inv := x.inv.zipIdx.map (fun p => if p.2 = m then 1 else p.1), runAt := mput x.runAt m s.now } :=
  mfind_updBatch_some (fun x => { x with runAt := mput x.runAt m s.now }) (setInv_batch hx m 1)

theorem queueInv_queue (s : State) (r b m : Nat) :
    ((queueInv s r b m).region r).queue = (s.region r).queue.filter (· != b * 8 + m) ++ [b * 8 + m] :=
  congrArg Region.queue (region_upd _ r _)

theorem makeResident_new {s : State} {r b m : Nat} {x : Batch} (hx : mfind s.batches b = some x) (hr : x.region = some r)
    (hhead : queueHead s r = some (b * 8 + m)) (hfirst : earlierStarted s b x = true) (hpin : pinnedNow s x.part = false)
    (hnew : invCtx s b m = none)
    (hbl : (placementBlocks s x).take (blocksTaken (batchPlan s x m) (placementBlocks s x).length) ≠ [])
    (hroom : ∀ q ∈ ((placementBlocks s x).take (blocksTaken (batchPlan s x m) (placementBlocks s x).length)).zipIdx,
      blockTakes s (batchPlan s x m)
        ((placementBlocks s x).take (blocksTaken (batchPlan s x m) (placementBlocks s x).length)).length q.2 q.1 = true) :
    makeResident s r b m = settleIn (newCtx s b m x r).2 r b m s.nextCtx
      ((placementBlocks s x).take (blocksTaken (batchPlan s x m) (placementBlocks s x).length)) (batchPlan s x m) := by
  unfold makeResident
  rw [hx]
  dsimp only
  have hempty := Bool.eq_false_iff.2 (mt List.isEmpty_iff.1 hbl)
  rw [if_pos, hnew]
  · rfl
  · rw [hpin, hfirst, hempty, List.all_eq_true.2 hroom]
    simp [hr, hhead]

theorem placeCtx_batches (cx : Nat) (bl : List Nat) (s : State) : (placeCtx cx bl s).batches = s.batches :=
  (placeCtx_touch cx bl s).batches_eq (by decide)

theorem settleIn_batch {s : State} {b : Nat} {x : Batch} (hx : mfind s.batches b = some x) (r m cx : Nat) (bl : List Nat)
    (p : Plan) : mfind (settleIn s r b m cx bl p).batches b = some { x with
      started := true, inv := x.inv.zipIdx.map (fun p => if p.2 = m then 2 else p.1) } := by
  have hplaced : mfind (placeCtx cx bl s).batches b = some x := by rw [placeCtx_batches, hx]
  have hset := setInv_batch (s := (placeCtx cx bl s).updBatch b (fun x => { x with started := true }))
    (mfind_updBatch_some (fun x => { x with started := true }) hplaced) m 2
  unfold settleIn
  dsimp only
  split <;> exact hset

theorem settleIn_queue (s : State) (r b m cx : Nat) (bl : List Nat) (p : Plan) :
    b * 8 + m ∉ ((settleIn s r b m cx bl p).region r).queue := by
  unfold settleIn
  dsimp only
  split <;> simp

/-! ### Claims -/

theorem mfind_updCtx_some {s : State} {c : Nat} {x : Ctx} (g : Ctx → Ctx) (h : mfind s.ctxs c = some x) :
    mfind (s.updCtx c g).ctxs c = some (g x) := by
  rw [mfind_updCtx, h]
  rfl

/-- The semaphore that a claim records is one of the eight of its slot. -/
theorem claimSem_bounds (s : State) (x : Ctx) (b v : Nat) :
    8 * slotIn x b ≤ claimSem s x b v ∧ claimSem s x b v < 8 * slotIn x b + 8 := by
  unfold claimSem
  dsimp only
  generalize hfind : List.find? _ _ = found
  cases found with
  | none => exact ⟨Nat.le_refl _, by simp⟩
  | some n =>
    obtain ⟨i, hi, rfl⟩ := List.mem_map.1 (List.mem_of_find?_eq_some hfind)
    rw [List.mem_range] at hi
    rw [Option.getD_some]
    omega

theorem semReset_count_self (s : State) (b n : Nat) : (mget ((semReset s b n).block b).sems n).count = 0 := by
  rw [semReset, State.block_updBlock_self, mget_mupd_self]

/-- A reset leaves a count that was 0 as it is. -/
theorem semReset_count_zero {s : State} {b n : Nat} (h : (mget (s.block b).sems n).count = 0) (b' n' : Nat) :
    (mget ((semReset s b' n').block b).sems n).count = 0 := by
  by_cases hb : b' = b
  · rw [hb, semReset, State.block_updBlock_self, mget_mupd]
    split
    · rfl
    · exact h
  · rw [semReset, State.block_updBlock_ne _ _ hb, h]

theorem handoffReset_count_zero {s : State} {b n : Nat} (h : (mget (s.block b).sems n).count = 0) (x : Ctx) (q : Stripe) :
    (mget ((handoffReset s x q).block b).sems n).count = 0 := by
  unfold handoffReset
  generalize q.handoffs.zipIdx = l
  induction l generalizing s with
  | nil => exact h
  | cons a l ih => exact ih (semReset_count_zero (semReset_count_zero h _ _) _ _)

/-- A claim recorded by block `b`: the entry in the claim table, with a semaphore of the slot that is 0. -/
theorem claimRecord_facts {s : State} {cx : Nat} {x : Ctx} (hx : mfind s.ctxs cx = some x) (b v : Nat) :
    (∃ d, mfind (claimRecord s cx b v x).ctxs cx = some { x with
      claims := x.claims.filter (fun c => c.entry != v) ++
        [{ (default : Claim) with entry := v, block := b, sem := claimSem s x b v }], duplicates := d }) ∧
    (mget ((claimRecord s cx b v x).block b).sems (claimSem s x b v)).count = 0 := by
  unfold claimRecord
  dsimp only
  refine ⟨⟨x.duplicates + (if !x.noCheck && (x.claims.any (fun c => c.entry == v) || decide (v < x.prior)) then 1 else 0), ?_⟩,
    handoffReset_count_zero (semReset_count_self ..) _ _⟩
  rw [(handoffReset_touch ..).ctxs_eq (by decide), (semReset_touch ..).ctxs_eq (by decide)]
  exact mfind_updCtx_some (fun y => { y with
    claims := y.claims.filter (fun c => c.entry != v) ++
      [{ (default : Claim) with entry := v, block := b, sem := claimSem s x b v }]
    duplicates := y.duplicates +
      (if !x.noCheck && (x.claims.any (fun c => c.entry == v) || decide (v < x.prior)) then 1 else 0) }) hx

/-- Past the claim table, checking stops; nothing else of the context changes. -/
theorem claimLimit_ctx {s : State} {cx : Nat} {x : Ctx} (hx : mfind s.ctxs cx = some x) (v : Nat) (y : Ctx) :
    ∃ c, mfind (claimLimit s cx v y).ctxs cx = some { x with noCheck := c } := by
  unfold claimLimit
  split
  · refine ⟨true, ?_⟩
    rw [(raiseLogOf_touch ..).ctxs_eq (by decide)]
    exact mfind_updCtx_some (fun x => { x with noCheck := true }) hx
  · exact ⟨x.noCheck, hx⟩

/-- The context once its work counter has moved past an entry. -/
theorem claimCounted_ctx {s : State} {cx : Nat} {x : Ctx} (hx : mfind s.ctxs cx = some x) : ∃ c,
    mfind (claimLimit (s.updCtx cx (fun y => { y with work := (x.work + 1) % 2 ^ 32 })) cx x.work x).ctxs cx =
      some { x with work := (x.work + 1) % 2 ^ 32, noCheck := c } :=
  claimLimit_ctx (mfind_updCtx_some (fun y => { y with work := (x.work + 1) % 2 ^ 32 }) hx) _ _

theorem claimNext_facts {s : State} {cx : Nat} {x : Ctx} (hx : mfind s.ctxs cx = some x) (b : Nat) :
    (mget (claimNext s cx b x).ctxs cx).work = (x.work + 1) % 2 ^ 32 ∧
    (entryCount x ≤ x.work → (mget (claimNext s cx b x).ctxs cx).claims = x.claims) ∧
    (x.work < entryCount x → ∃ sem, 8 * slotIn x b ≤ sem ∧ sem < 8 * slotIn x b + 8 ∧
      (mget (claimNext s cx b x).ctxs cx).claims = x.claims.filter (fun c => c.entry != x.work) ++
        [{ (default : Claim) with entry := x.work, block := b, sem := sem }] ∧
      (mget ((claimNext s cx b x).block b).sems sem).count = 0) := by
  obtain ⟨c, hcounted⟩ := claimCounted_ctx hx
  by_cases hend : entryCount x ≤ x.work
  · have hnext : claimNext s cx b x =
        claimLimit (s.updCtx cx (fun y => { y with work := (x.work + 1) % 2 ^ 32 })) cx x.work x := if_pos hend
    rw [hnext, mget_of_mfind hcounted]
    exact ⟨rfl, fun _ => rfl, fun h => absurd hend (Nat.not_le.2 h)⟩
  · have hnext : claimNext s cx b x = claimRecord
        (claimLimit (s.updCtx cx (fun y => { y with work := (x.work + 1) % 2 ^ 32 })) cx x.work x) cx b x.work
        { x with work := (x.work + 1) % 2 ^ 32, noCheck := c } := by
      rw [claimNext, ← mget_of_mfind hcounted]
      exact if_neg hend
    obtain ⟨⟨d, hrecord⟩, hzero⟩ := claimRecord_facts hcounted b x.work
    rw [hnext, mget_of_mfind hrecord]
    refine ⟨rfl, fun h => absurd h hend, fun _ => ⟨_, ?_, ?_, rfl, hzero⟩⟩
    · exact (claimSem_bounds _ { x with work := (x.work + 1) % 2 ^ 32, noCheck := c } b x.work).1
    · exact (claimSem_bounds _ { x with work := (x.work + 1) % 2 ^ 32, noCheck := c } b x.work).2

theorem claimNext_touch_inTable {s : State} {cx b : Nat} {x : Ctx} (h : x.work < 4096) :
    Touches [.ctxs, .parts, .blocks] s (claimNext s cx b x) := by
  have hlimit : ∀ u, claimLimit u cx x.work x = u := fun u => if_neg (by simp [Nat.not_le.2 h])
  unfold claimNext
  dsimp only
  rw [hlimit]
  refine Touches.ite ?_ (Touches.trans ?_ (claimRecord_touch ..)) <;> exact (State.updCtx_touch ..).sub (by decide)

theorem exec_stripeClaim_of_may {cx block : Nat} {x : Ctx} {s : State} (hx : mfind s.ctxs cx = some x) (hkind : x.kind = 1)
    (hblock : block ∈ ctxBlocks x) (husable : blockUsable s block = true) (hmay : mayClaim s x block x.work = true) :
    exec (.stripeClaim cx block) s = .next (
      if (if x.begun then 0 else holdKind s x) ≠ 0 then noteHold s cx x (if x.begun then 0 else holdKind s x)
      else entryProgress (claimNext (beginCtx (if x.begun then s else countSpills s x) cx x) cx block
        (mget (beginCtx (if x.begun then s else countSpills s x) cx x).ctxs cx)) cx x.work) := by
  rw [exec_stripeClaim, execStripeClaim, hx]
  refine (if_pos (by simp [hkind, hblock, husable, hmay])).trans ?_
  exact (apply_ite Host.Outcome.next _ _ _).symm

/-- Settles O39. -/
theorem admissionAndClaims : Obligations.AdmissionAndClaims := by
  unfold Obligations.AdmissionAndClaims
  refine ⟨fun part b r l rs x s hqueue hx hup hquiet hregion => ?_, fun b m r x s hx hr hinv hm => ?_,
    fun r b m x s hx hr hhead hfirst hpin hnew => ?_, fun cx block x s hx hkind hblock husable hmay => ?_⟩
  · rw [exec_batchAdmit, execBatchAdmit, admitNext_eq hqueue hx hup hquiet hregion]
    exact ⟨_, rfl, admitTo_batch hx r, fun hpart => hpart ▸ admitTo_queue s b r x, rfl, admitTo_touch ..⟩
  · rw [exec_invocationRunnable, execInvocationRunnable, makeRunnable_eq hx hr hinv hm]
    refine ⟨_, rfl, fun habsent => if_pos habsent, fun hgraph hwait => ?_, fun hgraph hready => ?_⟩
    · rw [if_neg hgraph, if_neg (by simp [hwait])]
    · rw [if_neg hgraph, if_pos hready]
      exact ⟨queueInv_queue .., queueInv_batch hx r m, queueInv_touch ..⟩
  · intro p bl hbl hroom
    have heq := makeResident_new hx hr hhead hfirst hpin hnew hbl hroom
    rw [exec_invocationResident, execInvocationResident, heq]
    refine ⟨_, rfl, settleIn_queue (newCtx s b m x r).2 r b m s.nextCtx _ _,
      settleIn_batch (s := (newCtx s b m x r).2) hx r m s.nextCtx _ _, rfl, ?_⟩
    exact (newCtx_touch ..).seq (settleIn_touch ..) (by decide) (by decide)
  · have hexec := exec_stripeClaim_of_may hx hkind hblock husable hmay
    refine ⟨fun hbegun => ?_, fun hnew hfree v hv => ?_, fun hnew hhold => ?_⟩
    · have hstart : beginCtx s cx x = s := if_pos hbegun
      rw [if_pos hbegun, if_neg (not_not.2 rfl), if_pos hbegun, hstart, mget_of_mfind hx] at hexec
      obtain ⟨hwork, hend, hclaim⟩ := claimNext_facts hx block
      exact ⟨_, _, hexec, rfl, hwork, hend, hclaim, claimNext_touch_inTable⟩
    · rw [hnew, if_neg Bool.false_ne_true, if_neg (not_not.2 hfree), if_neg Bool.false_ne_true, ← hv] at hexec
      exact hexec
    · rw [hnew, if_neg Bool.false_ne_true, if_pos hhold] at hexec
      exact hexec

end Sys2Proof.Machine
end

section
/-! PROOFS. Halo semaphores and the command queues of the cells (R172, R173, R222, R312, R313): O40. -/

namespace Sys2Proof.Machine

open Sys2Proof (Instr Word Bytes Byte)

/-! ### Semaphores -/

theorem semSignal_facts (s : State) (b n k : Nat) :
    (mget ((semSignal s b n k).block b).sems n).count = min 0xFFFF ((mget (s.block b).sems n).count + k) ∧
    (mget ((semSignal s b n k).block b).sems n).waiters =
      (mget (s.block b).sems n).waiters.filter (fun w => min 0xFFFF ((mget (s.block b).sems n).count + k) < w.2) := by
  obtain ⟨u, hu, hsignal⟩ : ∃ u, mget (u.block b).sems n = { mget (s.block b).sems n with
      count := min 0xFFFF ((mget (s.block b).sems n).count + k) } ∧ semSignal s b n k = semRelease u b n := by
    refine ⟨_, ?_, rfl⟩
    dsimp only
    split
    · rw [(raiseLog_touch ..).block (by decide), State.block_updBlock_self, mget_mupd_self]
    · rw [State.block_updBlock_self, mget_mupd_self]
  obtain ⟨hcount, hwaiters⟩ := sems_release u b n
  rw [hsignal, hcount, hwaiters, hu]
  exact ⟨rfl, rfl⟩

theorem semReset_waiters (s : State) (b n : Nat) :
    (mget ((semReset s b n).block b).sems n).waiters = (mget (s.block b).sems n).waiters := by
  rw [semReset, State.block_updBlock_self, mget_mupd_self]

theorem semWait_there {s : State} {b n th : Nat} (h : th ≤ (mget (s.block b).sems n).count) (c : Nat) : semWait s b n c th =
    s.updCell c (fun x => { x with queue := x.queue.map (releaseCell b n (mget (s.block b).sems n).count) }) := if_pos h

/-- The waiters of a semaphore once a cell has asked for a count that is not there. -/
def waitersAfter (q : Sem) (c th : Nat) : List (Nat × Nat) :=
  if q.waiters.length < semWaiters && !q.waiters.contains (c, th) then q.waiters ++ [(c, th)] else q.waiters

theorem semWait_blocked {s : State} {b n th : Nat} (h : (mget (s.block b).sems n).count < th) (c : Nat) :
    (semWait s b n c th).cells = s.cells ∧
    mget ((semWait s b n c th).block b).sems n =
      { mget (s.block b).sems n with waiters := waitersAfter (mget (s.block b).sems n) c th } ∧
    ∀ b' n', (mget ((semWait s b n c th).block b').sems n').count = (mget (s.block b').sems n').count := by
  have hinherit := inherit_touch s b n c
  have hblock : ∀ b', (inherit s b n c).block b' = s.block b' := fun b' => hinherit.block (by decide) b'
  have hcells : (inherit s b n c).cells = s.cells := hinherit.same .cells (by decide)
  unfold semWait waitersAfter
  dsimp only
  rw [if_neg (Nat.not_le.2 h)]
  split
  · refine ⟨hcells, ?_, fun b' n' => ?_⟩
    · rw [State.block_updBlock_self, mget_mupd_self, hblock]
    · rw [State.block_updBlock, hblock, hblock]
      split
      · next hb =>
        rw [mget_mupd, ← hb]
        split
        · next hn => rw [hn]
        · rfl
      · rfl
  · exact ⟨hcells, by rw [hblock], fun b' n' => by rw [hblock]⟩

/-! ### A command that enters a queue -/

/-- The WAITs of a command that are still open join their semaphores, and change no cell. -/
theorem semWaits_open (c : Nat) (ws : List SemRef) (s : State)
    (h : ∀ w ∈ ws, (mget (s.block w.block).sems w.sem).count < w.n) :
    (ws.foldl (fun s w => semWait s w.block w.sem c w.n) s).cells = s.cells := by
  induction ws generalizing s with
  | nil => rfl
  | cons w ws ih =>
    obtain ⟨hcells, -, hcount⟩ := semWait_blocked (h w List.mem_cons_self) c
    rw [List.foldl_cons, ih _ fun v hv => by rw [hcount]; exact h v (List.mem_cons_of_mem _ hv), hcells]

theorem sem_updBlock_lastWrite (s : State) (b b' n : Nat) (v : Nat) :
    mget ((s.updBlock b (fun x => { x with lastWrite := v })).block b').sems n = mget (s.block b').sems n := by
  rw [State.block_updBlock]
  split
  · next h => rw [h]
  · rfl

theorem queuePut_queue (s : State) (c : Nat) (m : CellCmd) : ((queuePut s c m).cell c).queue = (s.cell c).queue ++
    [⟨m, false, (s.cell c).seq, openWaits s (cmdWaits s (mget s.ctxs m.ctx) m), 0⟩] := by
  unfold queuePut
  dsimp only
  rw [State.cell, semWaits_open]
  · rw [State.updBlock_cells]
    exact congrArg Cell.queue (cell_upd ..)
  · intro w hw
    rw [sem_updBlock_lastWrite]
    exact of_decide_eq_true (List.mem_filter.1 hw).2

/-- A command in the queue of a cell that had room for it. -/
def Enters (c : Nat) (m : CellCmd) (v t : State) : Prop :=
  (t.cell c).queue = (v.cell c).queue ++ [⟨m, false, (v.cell c).seq, openWaits v (cmdWaits v (mget v.ctxs m.ctx) m), 0⟩] ∧
  Touches [.ctxs, .regions, .blocks, .cells] v t

theorem queuePut_enters (v : State) (c : Nat) (m : CellCmd) : Enters c m v (queuePut v c m) :=
  ⟨queuePut_queue v c m, queuePut_touch ..⟩

theorem queueWrite_eq {c : Nat} {m : CellCmd} {x : Ctx} {s : State} (hx : mfind s.ctxs m.ctx = some x)
    (hblock : blockOfCell c ∈ ctxBlocks x) (hlen : (s.cell c).queue.length < 16)
    (hroom : cmdCritical s c m = true ∨ bestQueued s c < 12) (hbound : cmdBounded m = true)
    (hranges : cmdRangesOk s x c m = true) (hfirst : servedFirst s m.ctx (blockOfCell c) = false) : queueWrite s c m =
      if x.kind = 3 then (if (s.cell c).fenced || s.scu.phase = 7 then queuePut s c m else s)
      else if (s.cell c).fenced || !blockUsable s (blockOfCell c) then s
      else if x.kind = 1 then writeNext s m.ctx c m else queuePut s c m := by
  have hqueue : queueRoom s c m = true := by
    rw [queueRoom, Bool.and_eq_true, Bool.or_eq_true, decide_eq_true_eq, decide_eq_true_eq]
    exact ⟨hlen, hroom⟩
  unfold queueWrite
  rw [hx]
  exact if_pos (by simp [hblock, hqueue, hbound, hranges, hfirst])

/-- The command that the mapping gives next enters the queue of its cell, after the bookkeeping of its sweep. -/
theorem writeNext_enters {s u : State} {cx c : Nat} {m : CellCmd} {x : Ctx} {k : Turn}
    (hx : mfind s.ctxs cx = some x) (hu : u = passSkipped cx (blockOfCell c) 65536 (noteStalls cx (blockOfCell c) x.claims s))
    (hlive : (mfind u.ctxs cx).isSome = true) (hturn : ctxTurn u cx (blockOfCell c) = some k)
    (hnext : k.next u cx (blockOfCell c) = some (c, cmdShape m)) :
    ∃ v, v.cells = u.cells ∧ Enters c m v (writeNext s cx c m) := by
  obtain ⟨y, hy⟩ := Option.isSome_iff_exists.1 hlive
  have hclaims : (mget s.ctxs cx).claims = x.claims := by rw [mget_of_mfind hx]
  unfold writeNext
  dsimp only
  rw [hclaims, show passFuel = 65536 from rfl, ← hu, hy]
  dsimp only
  rw [hturn]
  dsimp only
  rw [if_pos hnext]
  refine ⟨_, ?_, queuePut_enters ..⟩
  have hslice : ∀ (p : Prop) [Decidable p], (if p then sliceEnd u cx else u).cells = u.cells := fun p _ => by
    split
    · exact (sliceEnd_touch ..).same .cells (by decide)
    · rfl
  refine Eq.trans ((updSweep_touch ..).same .cells (by decide)) ?_
  split
  · exact Eq.trans ((mapCount_touch ..).same .cells (by decide)) (hslice _)
  · exact hslice _

/-- Settles O40. -/
theorem semaphoresAndCommandQueues : Obligations.SemaphoresAndCommandQueues := by
  unfold Obligations.SemaphoresAndCommandQueues
  refine ⟨fun b n k s => ?_, fun b n c th i s hi => ?_, fun b n s => ?_,
    fun c m x s hx hblock hlen hroom hbound hranges hfirst => ?_⟩
  · obtain ⟨hcount, hwaiters⟩ := semSignal_facts s b n k
    exact ⟨_, rfl, hcount, hwaiters⟩
  · have hexec : exec i s = .next (semWait s b n c th) := by
      obtain rfl | rfl := hi <;> rfl
    refine ⟨_, hexec, fun hthere => semWait_there hthere c, fun hless => ?_, fun hless hroom hnew => ?_, fun hless hfull => ?_⟩
    · obtain ⟨hcells, hsem, -⟩ := semWait_blocked hless c
      exact ⟨by rw [hsem], hcells⟩
    · rw [(semWait_blocked hless c).2.1]
      exact if_pos (by simp [hroom, hnew, semWaiters])
    · rw [(semWait_blocked hless c).2.1]
      exact if_neg (by simp [Nat.not_lt.2 hfull, semWaiters])
  · exact ⟨_, rfl, semReset_count_self .., semReset_waiters .., semReset_touch ..⟩
  · have hwrite := queueWrite_eq hx hblock hlen hroom hbound hranges hfirst
    refine ⟨_, rfl, fun hkind hwell husable => ?_, fun hkind htest => ?_, fun hkind hwell husable u k hu hlive hturn hnext => ?_⟩
    · rw [hwrite, if_neg (by simp [hkind]), if_neg (by simp [hwell, husable]), if_neg (by simp [hkind])]
      exact queuePut_enters ..
    · rw [hwrite, if_pos hkind, if_pos (by simpa using htest)]
      exact queuePut_enters ..
    · rw [hwrite, if_neg (by simp [hkind]), if_neg (by simp [hwell, husable]), if_pos hkind]
      exact writeNext_enters hx hu hlive hturn hnext

end Sys2Proof.Machine
end

section
/-! PROOFS. Issue and completion of a command (R161, R313, R315, R316, R359): O41. -/

namespace Sys2Proof.Machine

open Sys2Proof (Instr Word Bytes Byte)

theorem rgnCount_held (s : State) (r p k vp n i : Nat) : ((rgnCount s r p k vp n).region i).held = (s.region i).held :=
  region_keep Region.held s r i _ fun _ => rfl

theorem rgnCounts_held (l : List Nat) (g : State → Nat → State) (hg : ∀ u a i, ((g u a).region i).held = (u.region i).held)
    (s : State) (i : Nat) : ((l.foldl g s).region i).held = (s.region i).held := by
  induction l generalizing s with
  | nil => rfl
  | cons a l ih => rw [List.foldl_cons, ih, hg]

theorem takeToken_held (s : State) (c : Nat) (m : CellCmd) : ((takeToken s c m).region (regionOfCell c)).held =
    (s.region (regionOfCell c)).held + (if needsToken m then 1 else 0) := by
  unfold takeToken
  by_cases h : needsToken m = true
  · rw [if_pos h, if_pos h]
    dsimp only
    split <;> rw [region_upd]
  · rw [if_neg h, if_neg h, Nat.add_zero]

theorem planesStart_cell (s : State) (c : Nat) (m : CellCmd) :
    ((planesStart s c m).cell c).running = (s.cell c).running ∧ ((planesStart s c m).cell c).queue = (s.cell c).queue := by
  unfold planesStart
  split
  · exact ⟨rfl, rfl⟩
  · rw [cell_upd]
    exact ⟨rfl, rfl⟩

/-- The state in which a command has taken its unit and its token, before its issue is counted. -/
def unitTaken (s : State) (c : Nat) (q : QCmd) : State :=
  let s := (passedOver s c q).foldl (fun s cx => rgnCount s (regionOfCell c) (mget s.ctxs cx).part 7 0 1) s
  let s := if dispatchBound < q.waited then rgnCount s (regionOfCell c) (mget s.ctxs q.cmd.ctx).part 13 0 1 else s
  (takeToken s c q.cmd).updCell c (fun x => { x with
    queue := x.queue.filter (fun o => o.seq != q.seq)
    running := mput x.running q.cmd.unit { q with token := needsToken q.cmd } })

theorem startCmd_eq (s : State) (c : Nat) (q : QCmd) : startCmd s c q =
    countIssue (if q.cmd.unit = 0 then planesStart (unitTaken s c q) c q.cmd else unitTaken s c q) c q.cmd := rfl

theorem unitTaken_held (s : State) (c : Nat) (q : QCmd) : ((unitTaken s c q).region (regionOfCell c)).held =
    (s.region (regionOfCell c)).held + (if needsToken q.cmd then 1 else 0) := by
  have hpassed := rgnCounts_held (passedOver s c q) (fun s cx => rgnCount s (regionOfCell c) (mget s.ctxs cx).part 7 0 1)
    (fun _ _ _ => rgnCount_held ..) s (regionOfCell c)
  unfold unitTaken
  dsimp only
  rw [State.region_updCell_other, takeToken_held, ← hpassed]
  split
  · rw [rgnCount_held]
  · rfl

theorem unitTaken_cell (s : State) (c : Nat) (q : QCmd) :
    (unitTaken s c q).cell c = { s.cell c with
      queue := (s.cell c).queue.filter (fun o => o.seq != q.seq)
      running := mput (s.cell c).running q.cmd.unit { q with token := needsToken q.cmd } } := by
  have hpassed : Touches [.regions] s ((passedOver s c q).foldl (fun s cx =>
      rgnCount s (regionOfCell c) (mget s.ctxs cx).part 7 0 1) s) :=
    Touches.foldl (fun _ _ => rgnCount_touch ..) (Touches.refl s) _
  have hbound := Touches.ite (c := dispatchBound < q.waited) (rgnCount_touch ((passedOver s c q).foldl (fun s cx =>
      rgnCount s (regionOfCell c) (mget s.ctxs cx).part 7 0 1) s) (regionOfCell c)
      (mget ((passedOver s c q).foldl (fun s cx => rgnCount s (regionOfCell c) (mget s.ctxs cx).part 7 0 1) s).ctxs q.cmd.ctx).part
      13 0 1) (Touches.refl _)
  have hcell := (hpassed.trans (hbound.trans (takeToken_touch _ c q.cmd))).cell (by decide) c
  unfold unitTaken
  dsimp only
  rw [cell_upd, hcell]

/-- A started command: its unit holds it with its token, the queue has lost it, and the region has given the token. -/
theorem startCmd_facts (s : State) (c : Nat) (q : QCmd) :
    mfind ((startCmd s c q).cell c).running q.cmd.unit = some { q with token := needsToken q.cmd } ∧
    ((startCmd s c q).cell c).queue = (s.cell c).queue.filter (fun o => o.seq != q.seq) ∧
    ((startCmd s c q).region (regionOfCell c)).held =
      (s.region (regionOfCell c)).held + (if needsToken q.cmd then 1 else 0) := by
  obtain ⟨hrunning, hqueue⟩ := planesStart_cell (unitTaken s c q) c q.cmd
  rw [startCmd_eq, (countIssue_touch ..).cell (by decide), countIssue_held]
  split
  · rw [hrunning, hqueue, unitTaken_cell, (planesStart_touch ..).region (by decide), unitTaken_held]
    exact ⟨mfind_mput_self .., rfl, rfl⟩
  · rw [unitTaken_cell, unitTaken_held]
    exact ⟨mfind_mput_self .., rfl, rfl⟩

theorem nextIssue_unit {s : State} {c u : Nat} {q : QCmd} (h : nextIssue s c u = some q) : q.cmd.unit = u := by
  have hmem : q ∈ (s.cell c).queue.filter (fun q => q.cmd.unit == u && eligible s c q) := by
    unfold nextIssue at h
    dsimp only at h
    split at h
    · next hfind =>
      cases h
      exact List.mem_of_find?_eq_some hfind
    · exact List.mem_of_mem_head? h
  have hunit := (List.mem_filter.1 hmem).2
  rw [Bool.and_eq_true, beq_iff_eq] at hunit
  exact hunit.1

theorem exec_commandIssue_of_next {cell unit : Nat} {q : QCmd} {s : State} (hfree : mfind (s.cell cell).running unit = none)
    (hnext : nextIssue s cell unit = some q)
    (hranges : ∀ r ∈ q.cmd.reads ++ q.cmd.writes, rangeFails (startCmd s cell q) r = false) :
    exec (.commandIssue cell unit) s = .next (startCmd s cell q) := by
  rw [exec_commandIssue, execCommandIssue, if_neg (by simp [hfree]), hnext]
  dsimp only
  rw [if_neg (Bool.eq_false_iff.1 (List.any_eq_false.2 fun r hr => Bool.eq_false_iff.1 (hranges r hr))), done]

theorem endRunning_facts (s : State) (c u : Nat) (q : QCmd) :
    mfind ((endRunning s c u q).cell c).running u = none ∧ ((endRunning s c u q).cell c).queue = (s.cell c).queue ∧
    ((endRunning s c u q).region (regionOfCell c)).held =
      (s.region (regionOfCell c)).held - (if q.token then 1 else 0) := by
  unfold endRunning
  dsimp only
  by_cases h : q.token = true
  · rw [if_pos h, if_pos h, State.cell_updRegion_other, cell_upd, region_upd]
    exact ⟨mfind_mdel_self .., rfl, rfl⟩
  · rw [if_neg h, if_neg h, cell_upd]
    exact ⟨mfind_mdel_self .., rfl, rfl⟩

/-- Settles O41. -/
theorem commandIssueAndCompletion : Obligations.CommandIssueAndCompletion := by
  unfold Obligations.CommandIssueAndCompletion
  refine ⟨fun cell unit q s hfree hnext hranges => ?_, fun cell unit q s hrunning => ?_, fun cell unit q s hrunning => ?_⟩
  · have hunit := nextIssue_unit hnext
    obtain ⟨hstarted, hqueue, hheld⟩ := startCmd_facts s cell q
    rw [hunit] at hstarted
    exact ⟨_, exec_commandIssue_of_next hfree hnext hranges, hunit, hstarted, hqueue, hheld, startCmd_touch ..⟩
  · rw [exec_commandIssue, execCommandIssue, if_pos (by simp [hrunning]), done]
  · have hexec : exec (.commandComplete cell unit) s = .next (finishCmd (endRunning s cell unit q) cell q.cmd) := by
      rw [exec_commandComplete, execCommandComplete, hrunning, done]
    obtain ⟨hended, hqueue, hheld⟩ := endRunning_facts s cell unit q
    exact ⟨_, _, hexec, rfl, endRunning_touch .., hended, hqueue, hheld⟩

end Sys2Proof.Machine
end

section
/-! PROOFS. Array credit, weight prefetch and spill waves (R257, R320, R321): O42. -/

namespace Sys2Proof.Machine

open Sys2Proof (Instr Word Bytes Byte)

/-! ### Array credit -/

/-- A credit within the bound of R321. -/
def creditBounded (v : Int) : Prop := -(67108864 * 1024 : Int) ≤ v ∧ v ≤ 67108864 * 1024

theorem clampInt_creditBounded (v : Int) : creditBounded (clampInt (-creditMax) creditMax v) := by
  unfold creditBounded clampInt creditMax
  omega

theorem creditStep_bounded (s : State) (l : List Nat) (m : Map Int) (p : Bytes) (k : Nat)
    (h : k = peId p ∨ creditBounded (mget m k)) : creditBounded (mget (creditStep s l m p) k) := by
  unfold creditStep
  by_cases hk : k = peId p
  · rw [hk, mget_mput_self]
    exact clampInt_creditBounded _
  · rw [mget_mput_ne _ _ (Ne.symm hk)]
    exact h.resolve_left hk

theorem creditSteps_bounded (s : State) (l : List Nat) (k : Nat) (ps : List Bytes) (m : Map Int)
    (h : (∃ p ∈ ps, k = peId p) ∨ creditBounded (mget m k)) :
    creditBounded (mget (ps.foldl (creditStep s l) m) k) := by
  induction ps generalizing m with
  | nil => exact h.resolve_left fun ⟨_, hp, _⟩ => List.not_mem_nil hp
  | cons q ps ih =>
    refine ih _ ?_
    rcases h with ⟨p, hp, hk⟩ | hb
    · rcases List.mem_cons.1 hp with rfl | hp
      · exact .inr (creditStep_bounded s l m p k (.inl hk))
      · exact .inl ⟨p, hp, hk⟩
    · exact .inr (creditStep_bounded s l m q k (.inr hb))

/-- The state with the credit of region `r` refilled. -/
def creditRefilled (s : State) (r : Nat) : State :=
  s.updRegion r (fun x => { x with credit := s.run.partitions.foldl (creditStep s (issuingParts s r)) x.credit })

theorem exec_arrayCreditRefill_of_shared (r : Nat) (l : List Nat) (s : State) (ho : regionOwned s r = false)
    (ha : (s.region r).awake = true) : exec (.arrayCreditRefill r l) s = .next (creditRefilled s r) := by
  rw [exec_arrayCreditRefill, execArrayCreditRefill, if_neg (by simp [ho, ha])]
  rfl

theorem exec_arrayCreditRefill_of_owned (r : Nat) (l : List Nat) (s : State) (ho : regionOwned s r = true) :
    exec (.arrayCreditRefill r l) s = .next s := by
  rw [exec_arrayCreditRefill, execArrayCreditRefill, if_pos (by simp [ho])]

theorem creditRefilled_credit (s : State) (r : Nat) : ((creditRefilled s r).region r).credit =
    s.run.partitions.foldl (creditStep s (issuingParts s r)) (s.region r).credit := by
  unfold creditRefilled
  rw [region_upd]

/-! ### Weight prefetch -/

/-- The shadow of a region in which `ctx` has prefetched `layer` and nothing else. -/
def shadowWith (m : List (Nat × Nat)) (ctx layer : Nat) : List (Nat × Nat) :=
  m.filter (fun q => q.1 != ctx) ++ [(ctx, layer)]

theorem mem_shadowWith_self (m : List (Nat × Nat)) (ctx layer l : Nat) : (ctx, l) ∈ shadowWith m ctx layer ↔ l = layer := by
  simp [shadowWith]

theorem mem_shadowWith_ne (m : List (Nat × Nat)) (ctx layer c l : Nat) (h : c ≠ ctx) :
    (c, l) ∈ shadowWith m ctx layer ↔ (c, l) ∈ m := by
  simp [shadowWith, h]

/-- The state in which the planes of `layer` stand in the weight shadow of the region of context `x`. -/
def prefetched (s : State) (ctx layer : Nat) (x : Ctx) : State :=
  let old := (s.region x.region).shadow.filter (fun q => q.1 == ctx && q.2 != layer)
  let u := mapCount s x.part 5 old.length
  (shadowFill u x.region (layerPlanes u x layer)).updRegion x.region (fun r => { r with shadow := shadowWith r.shadow ctx layer })

theorem exec_weightPrefetch_of_next (ctx layer : Nat) (x : Ctx) (s : State) (hx : mfind s.ctxs ctx = some x)
    (hs : x.slots ≠ []) (hn : prefetchNext s ctx layer x = true) :
    exec (.weightPrefetch ctx layer) s = .next (prefetched s ctx layer x) := by
  rw [exec_weightPrefetch, execWeightPrefetch, hx]
  dsimp only
  rw [if_neg (by simp [hs, hn])]
  rfl

theorem prefetched_shadow (s : State) (ctx layer : Nat) (x : Ctx) :
    ((prefetched s ctx layer x).region x.region).shadow = shadowWith (s.region x.region).shadow ctx layer := by
  unfold prefetched
  dsimp only
  rw [region_upd, Touches.region_eq (shadowFill_touch ..) (by decide), Touches.region_eq (mapCount_touch ..) (by decide)]

/-! ### Spill waves -/

theorem exec_spillWaveStart_of_taken (ctx picture : Nat) (x : Ctx) (q : Stripe) (s u : State) (hx : mfind s.ctxs ctx = some x)
    (hq : (openStripes s x).find? (fun q => q.spills && q.pic == picture) = some q)
    (hk : q.wavesBegun x < ceilDiv q.groups.length (max q.n 1))
    (hover : ∀ i ∈ phaseLayers q.p.g q.ph, q.waveOf (q.layerGroup i) + 1 = q.wavesBegun x → q.layerOver x i = true)
    (htake : spillTake q.p ctx (q.waveOuts (q.wavesBegun x)) (handoffReset (spillStore q ctx s) x q) = some u) :
    exec (.spillWaveStart ctx picture) s =
      .next (u.updCtx ctx (fun y => { y with wave := q.claim.entry * 4096 + q.wavesBegun x + 1 })) := by
  have hall : ((phaseLayers q.p.g q.ph).filter (fun i => q.waveOf (q.layerGroup i) + 1 == q.wavesBegun x)).all (q.layerOver x) = true := by
    rw [List.all_eq_true]
    intro i hi
    obtain ⟨hmem, hwave⟩ := List.mem_filter.1 hi
    exact hover i hmem (beq_iff_eq.1 hwave)
  rw [exec_spillWaveStart, execSpillWaveStart, hx]
  dsimp only
  rw [hq]
  dsimp only
  rw [if_pos (by rw [hall, decide_eq_true hk]; rfl), htake]

/-- Settles O42. -/
theorem creditPrefetchAndSpill : Obligations.CreditPrefetchAndSpill := by
  unfold Obligations.CreditPrefetchAndSpill
  refine ⟨?_, exec_arrayCreditRefill_of_owned, ?_, ?_⟩
  · intro r l s ho ha
    have hexec := exec_arrayCreditRefill_of_shared r l s ho ha
    refine ⟨_, hexec, creditRefilled_credit s r, fun p hp => ?_, Touches.viaNext hexec (execArrayCreditRefill_touch r l s)⟩
    rw [creditRefilled_credit]
    exact creditSteps_bounded s _ (peId p) _ _ (.inl ⟨p, hp, rfl⟩)
  · intro ctx layer x s hx hs hn
    have hexec := exec_weightPrefetch_of_next ctx layer x s hx hs hn
    refine ⟨_, hexec, fun l => ?_, fun c l hc => ?_, Touches.viaNext hexec (execWeightPrefetch_touch ctx layer s)⟩
    · rw [prefetched_shadow]
      exact mem_shadowWith_self ..
    · rw [prefetched_shadow]
      exact mem_shadowWith_ne _ _ _ _ _ hc
  · intro ctx picture x q s u hx hq hk hover htake
    exact ⟨_, exec_spillWaveStart_of_taken ctx picture x q s u hx hq hk hover htake, rfl⟩

end Sys2Proof.Machine
end

section
/-! PROOFS. Errors of cells, blocks and regions (R395 to R400): O43, O44. -/

namespace Sys2Proof.Machine

open Sys2Proof (Instr Word Bytes Byte)

/-! ### Cells -/

/-- The cell `c` with one corrected error more. -/
def cellCorrected (s : State) (c : Nat) : State := s.updCell c (fun x => { x with corrected := x.corrected + 1 })

theorem exec_cellEccError_corrected (c : Nat) (s : State) : exec (.cellEccError c .corrected) s = .next (cellCorrected s c) := rfl

theorem cell_updCell_ne (s : State) (c d : Nat) (f : Cell → Cell) (h : d ≠ c) : (s.updCell c f).cell d = s.cell d := by
  unfold State.updCell State.cell
  dsimp only
  rw [mget_mupd_ne _ _ (Ne.symm h)]

/-- The two errors that fence a cell are one fault of it. -/
theorem exec_of_cellFault (c : Nat) (i : Instr) (s : State) (hi : i = .cellEccError c .uncorrectable ∨ i = .residueMismatch c) :
    exec i s = .next (cellFault s c) := by
  rcases hi with rfl | rfl <;> rfl

/-- The cell `c` taken out of its fence. -/
def cellReturned (s : State) (c : Nat) : State := s.updCell c (fun x => { x with fenced := false })

theorem exec_cellSelftestReturn_of_passed (c : Nat) (s : State) (hf : (s.cell c).fenced = true) (hs : (s.cell c).stuck = false)
    (hb : (s.block (blockOfCell c)).fenced = false) (hm : midGroup s (blockOfCell c) = false) :
    exec (.cellSelftestReturn c true) s = .next (selftestEnds (blockOfCell c) (cellReturned s c)) := by
  rw [exec_cellSelftestReturn, execCellSelftestReturn]
  rw [if_pos (by simp [hf, hs, hb, hm])]
  rfl

theorem exec_cellSelftestReturn_of_stuck (c : Nat) (s : State) (hs : (s.cell c).stuck = true) :
    exec (.cellSelftestReturn c true) s = .next s := by
  rw [exec_cellSelftestReturn, execCellSelftestReturn]
  rw [if_neg (by simp [hs]), if_neg (by decide)]

/-- Settles O43. -/
theorem cellErrors : Obligations.CellErrors := by
  unfold Obligations.CellErrors
  refine ⟨fun _ _ => rfl, fun c s => ?_, fun c i s hi hf => ?_, fun c s hf hs hb hm => ?_,
    exec_cellSelftestReturn_of_stuck, fun _ _ => rfl⟩
  · exact ⟨_, exec_cellEccError_corrected c s, cell_upd .., fun d hd => cell_updCell_ne s c d _ hd,
      State.updCell_touch ..⟩
  · obtain ⟨hfences, hfenced⟩ := cellFault_fences s c hf
    exact ⟨_, exec_of_cellFault c i s hi, hfenced, hfences.cell, hfences.block⟩
  · refine ⟨_, cellReturned s c, exec_cellSelftestReturn_of_passed c s hf hs hb hm, State.updCell_touch .., cell_upd ..,
      fun d hd => cell_updCell_ne s c d _ hd, fun hany => ?_, fun hany => ?_⟩
    · rw [selftestEnds, if_pos hany]
    · rw [selftestEnds, if_neg (by rw [hany]; decide)]

/-! ### The restart of a block -/

/-- The block emptied for its restart: its cells, its semaphores, its line store and the weights prefetched for it. -/
def blockEmptied (s : State) (b : Nat) : State :=
  shadowDiscard (sramZero (blockFlush s b) (lineStore b) 0x400000) (regionOfBlock b)

/-- The emptied block restarting, with its fault in the history of the block and of its region. -/
def restartMarked (s : State) (b : Nat) : State :=
  let u := blockEmptied s b
  (u.updBlock b (fun x => { x with restarting := true, faults := (u.now :: x.faults).take 4 })).updRegion (regionOfBlock b)
    (fun r => { r with restarts := (u.now :: r.restarts.filter (fun t => u.now - t ≤ second)).take 8 })

theorem restartBlock_flags (s : State) (b : Nat) : Touches [.frames, .out] (restartMarked s b) (restartBlock s b) := by
  show Touches _ _ ((blockCtxs s b).foldl (fun s c => flagFrames s (mget s.ctxs c) 4) (restartMarked s b))
  exact Touches.foldl (fun v c => flagFrames_touch v (mget v.ctxs c) 4) (Touches.refl _) _

theorem blockFlush_block (s : State) (b : Nat) : (blockFlush s b).block b = { s.block b with sems := [] } := by
  unfold blockFlush
  rw [Touches.block_eq (cellsFlush_touch ..) (by decide), block_upd]

theorem blockFlush_cells (s : State) (b c : Nat) (h : c ∈ cellsOfBlock b) :
    ((blockFlush s b).cell c).queue = [] ∧ ((blockFlush s b).cell c).running = [] :=
  cellsFlush_empty _ _ c (.inr h)

theorem blockFlush_restarts (s : State) (b i : Nat) : ((blockFlush s b).region i).restarts = (s.region i).restarts :=
  cellsFlush_restarts _ _ i

theorem shadowDiscard_restarts (s : State) (r i : Nat) : ((shadowDiscard s r).region i).restarts = (s.region i).restarts := by
  unfold shadowDiscard
  dsimp only
  refine (congrArg Region.restarts (Touches.region_eq (l := [.parts]) (Touches.foldl (fun v q => ?_) (Touches.refl _) _) (by decide) i)).trans ?_
  · split
    · exact Touches.refl _
    · exact mapCount_touch ..
  · exact region_keep Region.restarts _ _ _ _ fun _ => rfl

theorem blockEmptied_block (s : State) (b : Nat) : (blockEmptied s b).block b = { s.block b with sems := [] } := by
  unfold blockEmptied
  rw [Touches.block_eq (shadowDiscard_touch ..) (by decide), Touches.block_eq (sramZero_touch ..) (by decide), blockFlush_block]

theorem blockEmptied_cells (s : State) (b c : Nat) (h : c ∈ cellsOfBlock b) :
    ((blockEmptied s b).cell c).queue = [] ∧ ((blockEmptied s b).cell c).running = [] := by
  unfold blockEmptied
  rw [Touches.cell_eq (shadowDiscard_touch ..) (by decide), Touches.cell_eq (sramZero_touch ..) (by decide)]
  exact blockFlush_cells s b c h

theorem blockEmptied_restarts (s : State) (b i : Nat) : ((blockEmptied s b).region i).restarts = (s.region i).restarts := by
  unfold blockEmptied
  rw [shadowDiscard_restarts, Touches.region_eq (sramZero_touch ..) (by decide), blockFlush_restarts]

theorem restartBlock_block (s : State) (b : Nat) : (restartBlock s b).block b =
    { s.block b with sems := [], restarting := true, faults := ((blockEmptied s b).now :: (s.block b).faults).take 4 } := by
  rw [Touches.block_eq (restartBlock_flags s b) (by decide)]
  unfold restartMarked
  dsimp only
  rw [Touches.block_eq (State.updRegion_touch ..) (by decide), block_upd, blockEmptied_block]

theorem restartBlock_cells (s : State) (b c : Nat) (h : c ∈ cellsOfBlock b) :
    ((restartBlock s b).cell c).queue = [] ∧ ((restartBlock s b).cell c).running = [] := by
  rw [Touches.cell_eq (restartBlock_flags s b) (by decide)]
  unfold restartMarked
  dsimp only
  rw [Touches.cell_eq (State.updRegion_touch ..) (by decide), Touches.cell_eq (State.updBlock_touch ..) (by decide)]
  exact blockEmptied_cells s b c h

theorem restartBlock_now (s : State) (b : Nat) : (restartBlock s b).now = s.now := (restartBlock_touch s b).same .now (by decide)

theorem blockEmptied_now (s : State) (b : Nat) : (blockEmptied s b).now = s.now := by
  have hempty : Touches [.parts, .regions, .blocks, .cells, .sram] s (blockEmptied s b) :=
    ((blockFlush_touch s b).sub (by decide)).trans
      (((sramZero_touch _ _ _).sub (by decide)).trans ((shadowDiscard_touch _ _).sub (by decide)))
  exact hempty.same .now (by decide)

theorem restartBlock_restarts (s : State) (b : Nat) : ((restartBlock s b).region (regionOfBlock b)).restarts =
    (s.now :: (s.region (regionOfBlock b)).restarts.filter (fun t => s.now - t ≤ second)).take 8 := by
  rw [Touches.region_eq (restartBlock_flags s b) (by decide)]
  unfold restartMarked
  dsimp only
  rw [region_upd, Touches.region_eq (State.updBlock_touch ..) (by decide), blockEmptied_restarts, blockEmptied_now]

/-- A region with fewer than seven restarts of the last second has fewer than eight after one more. -/
theorem restartBlock_spares (s : State) (b : Nat)
    (h : ((s.region (regionOfBlock b)).restarts.filter (fun t => s.now - t ≤ 100000000)).length < 7) :
    (((restartBlock s b).region (regionOfBlock b)).restarts.filter (fun t => (restartBlock s b).now - t ≤ second)).length < 8 := by
  rw [restartBlock_restarts, restartBlock_now]
  calc _ ≤ ((s.now :: (s.region (regionOfBlock b)).restarts.filter (fun t => s.now - t ≤ second)).take 8).length :=
        List.length_filter_le ..
    _ ≤ (s.now :: (s.region (regionOfBlock b)).restarts.filter (fun t => s.now - t ≤ second)).length := List.length_take_le' ..
    _ < 8 := by rw [List.length_cons]; exact Nat.succ_lt_succ h

theorem blockFault_of_restart (s : State) (b : Nat) (hf : (s.block b).fenced = false) (he : blockEscalates s b = false)
    (hr : ((s.region (regionOfBlock b)).restarts.filter (fun t => s.now - t ≤ 100000000)).length < 7) :
    blockFault s b = restartBlock s b := by
  have hspares := restartBlock_spares s b hr
  rw [blockFault, if_neg (by simp [hf]), if_neg (by simp [he])]
  dsimp only
  rw [if_neg (by omega)]

theorem blockFault_of_escalation (s : State) (b : Nat) (hf : (s.block b).fenced = false) (he : blockEscalates s b = true) :
    blockFault s b = blockFence s b := by
  rw [blockFault, if_neg (by simp [hf]), if_pos he]

/-! ### Watchdog, end of restart, regions -/

theorem exec_mapperWatchdog_of_late (b : Nat) (s : State) (hp : blockPending s b = true)
    (ht : (s.block b).lastWrite - 1 + watchCycles s b ≤ s.now) : exec (.mapperWatchdog b) s = exec (.blockRestart b) s := by
  rw [exec_mapperWatchdog, execMapperWatchdog, if_pos (by rw [hp, decide_eq_true ht]; rfl)]
  rfl

theorem exec_mapperWatchdog_of_idle (b : Nat) (s : State)
    (h : blockPending s b = false ∨ s.now < (s.block b).lastWrite - 1 + watchCycles s b) : exec (.mapperWatchdog b) s = .next s := by
  rw [exec_mapperWatchdog, execMapperWatchdog, if_neg]
  rw [Bool.and_eq_true, decide_eq_true_eq]
  rintro ⟨hp, ht⟩
  rcases h with h | h
  · rw [h] at hp
    cases hp
  · omega

/-- The block `b` in service again. -/
def blockBack (s : State) (b : Nat) : State := s.updBlock b (fun x => { x with restarting := false, lastWrite := s.now + 1 })

theorem exec_blockRestartDone_of_restarting (b : Nat) (s : State) (h : (s.block b).restarting = true) :
    exec (.blockRestartDone b) s = .next ((blockCtxs s b).foldl (fun v c => reclaim v b c) (blockBack s b)) := by
  rw [exec_blockRestartDone, execBlockRestartDone, if_pos h]
  rfl

/-- The commands that run in the cells `l` and read the bad word at `addr` aborted and replayed. -/
theorem replay_of_none (reads : Nat × QCmd → Bool) (addr : Nat) (l : List Nat) (s : State)
    (h : ∀ c ∈ l, ∀ q ∈ (s.cell c).running, reads q = false) :
    l.foldl (fun s c => ((s.cell c).running.filter reads).foldl (fun s q =>
      replayCmd (abortCmd s c q.1 q.2) (blockOfCell c) q.2.cmd (addr + 256)) s) s = s := by
  refine foldl_id _ l s fun c hc => ?_
  have hnone : (s.cell c).running.filter reads = [] :=
    List.filter_eq_nil_iff.2 fun q hq => by rw [h c hc q hq]; decide
  rw [hnone, List.foldl_nil]

/-- Settles O44. -/
theorem blockAndRegionFaults : Obligations.BlockAndRegionFaults := by
  unfold Obligations.BlockAndRegionFaults
  refine ⟨fun b s hf he hr => ?_, fun b s hf he => ?_, fun b s hp ht => ?_, exec_mapperWatchdog_of_idle,
    fun b s h => ?_, fun r cause s hf => ?_, fun r addr s => ?_⟩
  · have hexec : exec (.blockRestart b) s = .next (restartBlock s b) := by
      rw [← blockFault_of_restart s b hf he hr]
      rfl
    have hblock := restartBlock_block s b
    exact ⟨_, hexec, by rw [hblock], by rw [hblock]; exact hf, by rw [hblock], by rw [hblock],
      restartBlock_cells s b, restartBlock_touch s b⟩
  · have hexec : exec (.blockRestart b) s = .next (blockFence s b) := by
      rw [← blockFault_of_escalation s b hf he]
      rfl
    exact ⟨_, hexec, (fences_blockFence s b).2⟩
  · have hexec := exec_mapperWatchdog_of_late b s hp ht
    exact ⟨hexec, _, hexec.trans rfl⟩
  · have hexec := exec_blockRestartDone_of_restarting b s h
    exact ⟨_, blockBack s b, hexec, block_upd .., State.updBlock_touch .., rfl,
      Touches.viaNext hexec (execBlockRestartDone_touch b s)⟩
  · obtain ⟨hfenced, hawake, hqueue, hheld, hgrant⟩ := regionFence_region s r hf
    exact ⟨_, rfl, hfenced, hawake, hqueue, hheld, hgrant, (fences_regionFence s r).region⟩
  · intro reads cells
    exact ⟨_, rfl, rfl, replay_of_none reads addr cells s⟩

end Sys2Proof.Machine
end

section
/-! PROOFS. Context records (R230 to R240): O45. -/

namespace Sys2Proof.Machine

open Sys2Proof (Instr Word Bytes Byte)

/-! ### Counters of the Context Store -/

theorem ctxCount_self (s : State) (slot k n : Nat) (h : slot < 512) :
    mget ((ctxCount s slot k n).stream slot).ctxc k = satAdd (2 ^ 64 - 1) (mget (s.stream slot).ctxc k) n := by
  rw [ctxCount, if_pos h, State.stream_updStream_self]
  exact mget_bump_self ..

theorem ctxCount_ne (s : State) (slot j k n : Nat) (h : k ≠ j) :
    mget ((ctxCount s slot k n).stream slot).ctxc j = mget (s.stream slot).ctxc j := by
  rw [ctxCount]
  split
  · rw [State.stream_updStream_self]
    exact mget_bump_ne _ _ h
  · rfl

theorem ctxCount_store (s : State) (slot k n : Nat) : (ctxCount s slot k n).store = s.store :=
  (ctxCount_touch s slot k n).same .store (by decide)

theorem cacheTouch_stream (s : State) (i slot : Nat) (d : Bool) : (cacheTouch s i d).2.stream slot = s.stream slot := by
  unfold State.stream
  rw [cacheTouch_streams]

theorem storeRead_reads (s : State) (slot i : Nat) (h : slot < 512) :
    mget ((storeRead s slot i).stream slot).ctxc 0 = satAdd (2 ^ 64 - 1) (mget (s.stream slot).ctxc 0) 1 := by
  have htouch := cacheTouch_stream s i slot false
  unfold storeRead
  generalize cacheTouch s i false = p at htouch ⊢
  obtain ⟨hit, u⟩ := p
  dsimp only at htouch ⊢
  split
  · rw [ctxCount_self _ _ _ _ h, htouch]
  · rw [ctxCount_ne _ _ _ _ _ (by decide), ctxCount_self _ _ _ _ h, htouch]

/-! ### Records -/

theorem cacheTouch_recs (s : State) (i : Nat) (d : Bool) : (cacheTouch s i d).2.store.recs = s.store.recs := by
  obtain ⟨sets, hstore⟩ := cacheTouch_store s i d
  rw [hstore]

theorem recRead_congr {s t : State} (h : t.store.recs = s.store.recs) (i : Nat) : recRead t i = recRead s i := by
  unfold recRead
  rw [h]

theorem storeWrite_read (s : State) (slot i : Nat) (payload : Bytes) :
    recRead (storeWrite s slot i payload) i = padTo 256 (recStamp (recRead s i) payload) ∧
      ∀ j, j ≠ i → recRead (storeWrite s slot i payload) j = recRead s j := by
  have hrecs := cacheTouch_recs s i true
  unfold storeWrite
  generalize cacheTouch s i true = p at hrecs ⊢
  obtain ⟨hit, u⟩ := p
  dsimp only at hrecs ⊢
  have hread := recRead_congr hrecs
  have hcount : ∀ (v : State) j, recRead (ctxCount v slot 1 1) j = recRead v j := fun v j =>
    recRead_congr (congrArg CtxStore.recs (ctxCount_store v slot 1 1)) j
  obtain ⟨hself, hother⟩ := recPut_read u i (recStamp (recRead u i) payload)
  exact ⟨by rw [hcount, hself, hread], fun j hj => by rw [hcount, hother j hj, hread]⟩

/-- A record read with a corrected error: the error is counted. -/
def readCorrected (s : State) (i : Nat) : State :=
  let u := storeRead s (rhSlot (recRead s i)) i
  { u with store := { u.store with corrected := u.store.corrected + 1 } }

theorem exec_contextRecordAccess_corrected (i : Nat) (s : State) :
    exec (.contextRecordAccess i .read .corrected) s = .next (readCorrected s i) := rfl

theorem readCorrected_touch (s : State) (i : Nat) : Touches [.streams, .mem, .store] s (readCorrected s i) :=
  (storeRead_touch ..).trans ((touches_store _ _).sub (by decide))

/-- A write refused for its gen: it is counted for the stream and the partition of the record. -/
def writeRefused (s : State) (i : Nat) : State :=
  ctxPartCount (ctxCount s (rhSlot (recRead s i)) 9 1) (rhPart (recRead s i)) 9 1

theorem exec_contextRecordAccess_of_stale (i gen : Nat) (data : Bytes) (ecc : Ecc) (s : State)
    (h : gen % 2 ^ 16 ≠ rhGen (recRead s i)) : exec (.contextRecordAccess i (.write gen data) ecc) s = .next (writeRefused s i) := by
  rw [exec_contextRecordAccess, execContextRecordAccess]
  rw [if_pos h]
  rfl

theorem exec_contextRecordAccess_of_current (i gen : Nat) (data : Bytes) (ecc : Ecc) (s : State)
    (h : gen % 2 ^ 16 = rhGen (recRead s i)) : exec (.contextRecordAccess i (.write gen data) ecc) s =
      .next (storeWrite s (rhSlot (recRead s i)) i (padTo 240 data)) := by
  rw [exec_contextRecordAccess, execContextRecordAccess]
  rw [if_neg (not_not_intro h)]

theorem writeRefused_count (s : State) (i : Nat) : mget ((writeRefused s i).part (rhPart (recRead s i))).ctxc 9 =
    satAdd (2 ^ 64 - 1) (mget (s.part (rhPart (recRead s i))).ctxc 9) 1 := by
  unfold writeRefused ctxPartCount
  rw [part_upd, mget_bump_self, Touches.part_eq (ctxCount_touch ..) (by decide)]

theorem writeRefused_store (s : State) (i : Nat) : (writeRefused s i).store = s.store := ctxCount_store ..

theorem writeRefused_touch (s : State) (i : Nat) : Touches [.streams, .parts] s (writeRefused s i) :=
  ((ctxCount_touch ..).sub (by decide)).trans ((ctxPartCount_touch ..).sub (by decide))

/-- Settles O45. -/
theorem contextRecordAccesses : Obligations.ContextRecordAccesses := by
  unfold Obligations.ContextRecordAccesses
  refine ⟨fun i s => ?_, fun i s => ?_, fun _ _ => ⟨_, rfl, rfl⟩, fun i gen data ecc s h => ?_, fun i gen data ecc s h => ?_⟩
  · obtain ⟨hrecs, hcorrected⟩ := storeRead_recs s (rhSlot (recRead s i)) i
    exact ⟨_, rfl, hrecs, hcorrected, storeRead_touch .., storeRead_reads s _ i⟩
  · obtain ⟨hrecs, hcorrected⟩ := storeRead_recs s (rhSlot (recRead s i)) i
    exact ⟨_, exec_contextRecordAccess_corrected i s, hrecs, congrArg (· + 1) hcorrected, readCorrected_touch s i⟩
  · exact ⟨_, exec_contextRecordAccess_of_stale i gen data ecc s h, writeRefused_store s i, writeRefused_count s i,
      writeRefused_touch s i⟩
  · obtain ⟨hself, hother⟩ := storeWrite_read s (rhSlot (recRead s i)) i (padTo 240 data)
    exact ⟨_, exec_contextRecordAccess_of_current i gen data ecc s h, storeWrite_touch .., hother, hself⟩

end Sys2Proof.Machine
end

section
/-! PROOFS. Capture, restore and eviction of a context (R249 to R255, R318): O46. -/

namespace Sys2Proof.Machine

open Sys2Proof (Instr Word Bytes Byte)

/-! ### Capture -/

/-- The body of context `x` in its buffer at `a`, and none of its commands queued. -/
def bodyPlaced (u : State) (cx a : Nat) (x : Ctx) (body : Bytes) : State :=
  withdrawQueued (chargeBody (dramWrite (stageBody x.region (body.length / 0x100000 + 1) body u) a (saltOf u a) body)
    x.region x.part 11 body.length) cx

/-- The body of context `x` and its execution record written, in the state `u` that has the buffer. -/
def bodySaved (s u : State) (cx ri a : Nat) (x : Ctx) : State :=
  let body := chrysalisBody s x
  let u := bodyPlaced u cx a x body
  storeNew u ri (recHeader 7 0xFFFF 0 0 1 x.part ++ execPayload u x a body.length (crc32c body))

/-- The state with execution record `ri` in use. -/
def execTaken (s : State) (ri : Nat) : State := { s with store := { s.store with exec := s.store.exec ++ [ri] } }

/-- The cells of the first block of a context that are not fenced. -/
def firstCells (s : State) (x : Ctx) : Nat :=
  match ctxBlocks x with
  | [] => 0
  | b :: _ => goodCells s b

/-- A context that has left its blocks for the Chrysalis at `a`. -/
def savedCtx (ri a len cells now : Nat) (x : Ctx) : Ctx :=
  { x with slots := [], chrysalis := some (ri, a, len), captures := x.captures + 1, capCells := cells
           capBlocks := ctxBlocks x, waitSince := now }

/-- The context out of its blocks, its Chrysalis recorded. -/
def captured (s u : State) (cx ri a : Nat) (x : Ctx) : State :=
  let len := (chrysalisBody s x).length
  let v := execTaken (bodySaved s u cx ri a x) ri
  let w := leaveBlocks v cx
  ctxPartCount (ctxPartCount (w.updCtx cx (savedCtx ri a len (firstCells v x) w.now)) x.part 0 1) x.part 2 len

theorem captureCtx_of_room (cx ri k a : Nat) (x : Ctx) (s u : State) (hx : mfind s.ctxs cx = some x) (hslots : x.slots ≠ [])
    (hkind : x.kind ≠ 3) (hpin : ctxPinned s x = false) (hrun : ctxRunning s cx = false) (hri : freeExec s = some ri)
    (hk : smallestPool s.run (largestBody s.run) = some k) (hlen : (chrysalisBody s x).length ≤ poSize (cfgPool s.run k))
    (halloc : bpmAlloc s 8 k = (some a, u)) : captureCtx s cx = captured s u cx ri a x := by
  unfold captureCtx
  rw [hx]
  dsimp only
  rw [if_neg (by simp [hslots, hkind, hpin, hrun]), hri, hk]
  dsimp only
  rw [decide_eq_true hlen, halloc]
  rfl

theorem bodyPlaced_touch (u : State) (cx a : Nat) (x : Ctx) (body : Bytes) :
    Touches [.regions, .cells, .mem, .sram] u (bodyPlaced u cx a x body) := by
  unfold bodyPlaced
  have hstage : Touches [.regions, .cells, .mem, .sram] u (stageBody x.region (body.length / 0x100000 + 1) body u) :=
    (stageBody_touch ..).sub (by decide)
  refine Touches.trans ?_ ((withdrawQueued_touch ..).sub (by decide))
  refine Touches.trans ?_ ((chargeBody_touch ..).sub (by decide))
  exact hstage.trans ((dramWrite_touch ..).sub (by decide))

theorem bodySaved_touch (s u : State) (cx ri a : Nat) (x : Ctx) :
    Touches [.regions, .cells, .mem, .store, .sram] u (bodySaved s u cx ri a x) :=
  ((bodyPlaced_touch u cx a x (chrysalisBody s x)).sub (by decide)).trans ((storeNew_touch ..).sub (by decide))

theorem bodySaved_ctxs (s u : State) (cx ri a : Nat) (x : Ctx) (k : Nat) (halloc : bpmAlloc s 8 k = (some a, u)) :
    (bodySaved s u cx ri a x).ctxs = s.ctxs := by
  have hu : u = (bpmAlloc s 8 k).2 := by rw [halloc]
  rw [Touches.ctxs_eq (bodySaved_touch ..) (by decide), hu, Touches.ctxs_eq (bpmAlloc_touch ..) (by decide)]

theorem leaveBlocks_ctxs (s : State) (cx : Nat) : (leaveBlocks s cx).ctxs = s.ctxs := rfl

theorem execTaken_ctxs (s : State) (ri : Nat) : (execTaken s ri).ctxs = s.ctxs := rfl

theorem captured_ctx (cx ri k a : Nat) (x : Ctx) (s u : State) (hx : mfind s.ctxs cx = some x) (halloc : bpmAlloc s 8 k = (some a, u)) :
    ∃ cells now, mget (captured s u cx ri a x).ctxs cx = savedCtx ri a (chrysalisBody s x).length cells now x := by
  have hfind : mfind (leaveBlocks (execTaken (bodySaved s u cx ri a x) ri) cx).ctxs cx = some x := by
    rw [leaveBlocks_ctxs, execTaken_ctxs, bodySaved_ctxs s u cx ri a x k halloc, hx]
  exact ⟨_, _, mget_of_mfind (mfind_updCtx_some _ hfind)⟩

theorem captured_exec (s u : State) (cx ri a : Nat) (x : Ctx) : ri ∈ (captured s u cx ri a x).store.exec :=
  List.mem_append_right _ (List.mem_singleton_self ri)

/-! ### Eviction -/

theorem evictFrom_touch_capture (s : State) (block cx : Nat) (hv : victimOf s block = some cx) :
    evictFrom s block = captureCtx s cx ∨ ∃ r p, evictFrom s block = rgnCount (captureCtx s cx) r p 8 0 1 := by
  unfold evictFrom
  rw [hv]
  dsimp only
  split
  · exact .inr ⟨_, _, rfl⟩
  · exact .inl rfl

theorem exec_of_eviction (block : Nat) (i : Instr) (s : State)
    (h : (i = .eviction block ∧ residencyWaits s block ≠ [] ∧ (allBlocked s block = true ∨ classEvicts s block = true)) ∨
      (i = .residencyWaitTimeout block ∧ classEvicts s block = true)) : exec i s = .next (evictFrom s block) := by
  rcases h with ⟨rfl, hwaits, hevicts⟩ | ⟨rfl, hevicts⟩
  · rw [exec_eviction, execEviction, if_pos (by simp [hwaits, hevicts])]
  · rw [exec_residencyWaitTimeout, execResidencyWaitTimeout, if_pos hevicts]

/-! ### Restore -/

/-- What a restore keeps of a context once its Chrysalis is freed. -/
def placeKey (s : State) (cx : Nat) : Option (Nat × Nat × Nat) × Nat × Nat :=
  let x := mget s.ctxs cx
  (x.chrysalis, x.region, x.work)

theorem placeKey_congr {s t : State} (h : t.ctxs = s.ctxs) (cx : Nat) : placeKey t cx = placeKey s cx := by
  unfold placeKey
  rw [h]

theorem placeKey_updCtx (s : State) (c cx : Nat) (f : Ctx → Ctx)
    (hf : ∀ x, ((f x).chrysalis, (f x).region, (f x).work) = (x.chrysalis, x.region, x.work)) :
    placeKey (s.updCtx c f) cx = placeKey s cx := by
  by_cases hc : c = cx
  · subst hc
    cases hfind : mfind s.ctxs c with
    | none =>
      have hupd : mfind (s.updCtx c f).ctxs c = none := by rw [mfind_updCtx, hfind]; rfl
      unfold placeKey mget
      rw [hupd, hfind]
    | some x =>
      unfold placeKey
      rw [mget_of_mfind (mfind_updCtx_some f hfind), mget_of_mfind hfind]
      exact hf x
  · unfold placeKey mget State.updCtx
    dsimp only
    rw [mfind_mapUpd_ne _ _ hc]

theorem placeKey_updBlock (s : State) (b cx : Nat) (f : Block → Block) : placeKey (s.updBlock b f) cx = placeKey s cx := rfl

/-- A fold of steps that keep what a restore keeps. -/
theorem placeKey_foldl {α : Type} (cx : Nat) (f : State → α → State) (hf : ∀ v a, placeKey (f v a) cx = placeKey v cx)
    (l : List α) (s : State) : placeKey (l.foldl f s) cx = placeKey s cx := by
  induction l generalizing s with
  | nil => rfl
  | cons a l ih => rw [List.foldl_cons, ih, hf]

theorem placeKey_placeCtx (cx : Nat) (l : List Nat) (s : State) : placeKey (placeCtx cx l s) cx = placeKey s cx := by
  induction l generalizing s with
  | nil => rfl
  | cons b l ih =>
    unfold placeCtx
    split
    · exact ih s
    · rw [ih, placeKey_updCtx]
      · rfl
      · exact fun _ => rfl

theorem placeKey_semRecreate (cx : Nat) (l : List Claim) (s : State) : placeKey (semRecreate cx l s) cx = placeKey s cx := by
  induction l generalizing s with
  | nil => rfl
  | cons c l ih =>
    unfold semRecreate
    dsimp only
    rw [ih]
    rw [placeKey_updBlock, placeKey_updCtx]
    exact fun _ => rfl

theorem placeKey_resumeLayer (s : State) (cx : Nat) (q : Stripe) (li : Nat) (sec : Nat × Nat × Nat) :
    placeKey (resumeLayer s cx q li sec) cx = placeKey s cx := by
  unfold resumeLayer
  dsimp only
  rw [placeKey_congr (Touches.ctxs_eq (ctxPartCount_touch ..) (by decide))]
  refine placeKey_updCtx _ _ _ _ ?_
  exact fun _ => rfl

theorem placeKey_resumeLayers (cx : Nat) (old : Ctx) (body : Bytes) (qs : List (Stripe × Stripe)) (l : List Nat) (s : State) :
    placeKey (resumeLayers cx old body qs l s) cx = placeKey s cx := by
  induction l generalizing s with
  | nil => rfl
  | cons li l ih =>
    unfold resumeLayers
    dsimp only
    rw [ih]
    refine placeKey_foldl cx _ ?_ _ s
    exact fun v q => placeKey_resumeLayer v cx q.1.2 li q.2

theorem placeKey_handoffRecreate (s : State) (cx : Nat) (q : Stripe) : placeKey (handoffRecreate s cx q) cx = placeKey s cx :=
  placeKey_congr (Touches.ctxs_eq (handoffRecreate_touch ..) (by decide)) cx

theorem placeKey_resumeStripes (s : State) (cx : Nat) (old : Ctx) (bl : List Nat) (body : Bytes) :
    placeKey (resumeStripes s cx old bl body) cx = placeKey s cx := by
  unfold resumeStripes
  dsimp only
  refine (placeKey_foldl cx _ ?_ _ _).trans ?_
  · exact fun v q => placeKey_handoffRecreate v cx q.2
  · rw [placeKey_resumeLayers, placeKey_semRecreate, placeKey_updCtx]
    exact fun _ => rfl

/-- The context with its Chrysalis freed and its region set, before it is placed. -/
def chrysalisFreed (s : State) (cx b : Nat) (body : Bytes) : State :=
  (freeChrysalis (stageBody (regionOfBlock b) (body.length / 0x100000 + 1) body s) cx).updCtx cx
    (fun y => { y with chrysalis := none, region := regionOfBlock b })

/-- The context placed in the blocks `bl`, its stripes standing again there. -/
def stripesPlaced (s : State) (cx : Nat) (x : Ctx) (bl : List Nat) (body : Bytes) : State :=
  let u := placeCtx cx bl (chrysalisFreed s cx (bl.headD 0) body)
  if x.kind = 1 then resumeStripes u cx x bl body else u

theorem restoreInto_counts (s : State) (cx : Nat) (x : Ctx) (bl : List Nat) (body : Bytes) :
    Touches [.parts, .regions] (stripesPlaced s cx x bl body) (restoreInto s cx x bl body) := by
  show Touches _ _ (ctxPartCount (ctxPartCount (ctxPartCount (chargeBody (stripesPlaced s cx x bl body) _ _ _ _) _ _ _) _ _ _) _ _ _)
  exact ((chargeBody_touch ..).sub (by decide)).trans <| ((ctxPartCount_touch ..).sub (by decide)).trans <|
    ((ctxPartCount_touch ..).sub (by decide)).trans ((ctxPartCount_touch ..).sub (by decide))

theorem stripesPlaced_key (s : State) (cx : Nat) (x : Ctx) (bl : List Nat) (body : Bytes) :
    placeKey (stripesPlaced s cx x bl body) cx = placeKey (chrysalisFreed s cx (bl.headD 0) body) cx := by
  unfold stripesPlaced
  dsimp only
  split
  · rw [placeKey_resumeStripes, placeKey_placeCtx]
  · rw [placeKey_placeCtx]

theorem stripesPlaced_touch (s : State) (cx : Nat) (x : Ctx) (bl : List Nat) (body : Bytes) :
    Touches [.ctxs, .parts, .blocks] (chrysalisFreed s cx (bl.headD 0) body) (stripesPlaced s cx x bl body) := by
  have hplace : Touches [.ctxs, .parts, .blocks] (chrysalisFreed s cx (bl.headD 0) body)
      (placeCtx cx bl (chrysalisFreed s cx (bl.headD 0) body)) := (placeCtx_touch ..).sub (by decide)
  exact Touches.ite (hplace.trans (resumeStripes_touch ..)) hplace

theorem chrysalisFreed_key (s : State) (cx b : Nat) (body : Bytes) (x : Ctx) (hx : mfind s.ctxs cx = some x) :
    placeKey (chrysalisFreed s cx b body) cx = (none, regionOfBlock b, x.work) := by
  have hfind : mfind (freeChrysalis (stageBody (regionOfBlock b) (body.length / 0x100000 + 1) body s) cx).ctxs cx = some x := by
    rw [Touches.ctxs_eq (freeChrysalis_touch ..) (by decide), Touches.ctxs_eq (stageBody_touch ..) (by decide)]
    exact hx
  unfold placeKey chrysalisFreed
  rw [mget_of_mfind (mfind_updCtx_some _ hfind)]

theorem freeChrysalis_exec (s : State) (cx ri a len : Nat) (x : Ctx) (hx : mfind s.ctxs cx = some x)
    (hc : x.chrysalis = some (ri, a, len)) : ri ∉ (freeChrysalis s cx).store.exec := by
  unfold freeChrysalis
  rw [mget_of_mfind hx, hc]
  dsimp only
  simp [List.mem_filter]

theorem chrysalisFreed_exec (s : State) (cx b ri a len : Nat) (body : Bytes) (x : Ctx) (hx : mfind s.ctxs cx = some x)
    (hc : x.chrysalis = some (ri, a, len)) : ri ∉ (chrysalisFreed s cx b body).store.exec :=
  freeChrysalis_exec _ cx ri a len x ((congrArg (mfind · cx) (Touches.ctxs_eq (stageBody_touch ..) (by decide))).trans hx) hc

theorem restoreBlocks_head (s : State) (x : Ctx) (b : Nat) : (restoreBlocks s x b).headD 0 = b := by
  unfold restoreBlocks
  split <;> rfl

theorem exec_chrysalisRestore_of_room (cx ri a len block : Nat) (x : Ctx) (s : State) (hx : mfind s.ctxs cx = some x)
    (hc : x.chrysalis = some (ri, a, len)) (ht : restoreTarget s x block = true)
    (hlen : x.capBlocks.length ≤ (restoreBlocks s x block).length)
    (hroom : ∀ q ∈ (restoreBlocks s x block).zipIdx, blockRoom s q.1 (ctxNeeds s x q.2) = true) :
    exec (.chrysalisRestore cx block true) s = .next (restoreInto (storeRead s 512 ri) cx x (restoreBlocks s x block)
      (dramRead (storeRead s 512 ri) a (saltOf (storeRead s 512 ri) a) len)) := by
  rw [exec_chrysalisRestore, execChrysalisRestore, hx]
  dsimp only
  rw [hc]
  dsimp only
  rw [if_neg (by decide), if_pos ht, if_neg (by omega), if_pos (List.all_eq_true.2 hroom)]

theorem exec_chrysalisRestore_of_bad (cx ri a len block : Nat) (x : Ctx) (s : State) (hx : mfind s.ctxs cx = some x)
    (hc : x.chrysalis = some (ri, a, len)) :
    exec (.chrysalisRestore cx block false) s = .next (discardChrysalis (storeRead s 512 ri) cx) := by
  rw [exec_chrysalisRestore, execChrysalisRestore, hx]
  dsimp only
  rw [hc]
  rfl

theorem restoreInto_facts (s : State) (cx ri a len block : Nat) (x : Ctx) (bl : List Nat) (body : Bytes)
    (hx : mfind s.ctxs cx = some x) (hc : x.chrysalis = some (ri, a, len)) (hb : bl.headD 0 = block) :
    placeKey (restoreInto s cx x bl body) cx = (none, regionOfBlock block, x.work) ∧
      ri ∉ (restoreInto s cx x bl body).store.exec := by
  have hcounts := restoreInto_counts s cx x bl body
  constructor
  · rw [placeKey_congr (Touches.ctxs_eq hcounts (by decide)), stripesPlaced_key, hb]
    exact chrysalisFreed_key s cx block body x hx
  · rw [hcounts.same .store (by decide), (stripesPlaced_touch s cx x bl body).same .store (by decide)]
    exact chrysalisFreed_exec s cx _ ri a len body x hx hc

/-- Settles O46. -/
theorem chrysalisesAndEviction : Obligations.ChrysalisesAndEviction := by
  unfold Obligations.ChrysalisesAndEviction
  refine ⟨?_, ?_, exec_chrysalisRestore_of_bad, ?_⟩
  · intro cx ri k a x s u hx hslots hkind hpin hrun hri hk hlen halloc
    have hcap := captureCtx_of_room cx ri k a x s u hx hslots hkind hpin hrun hri hk hlen halloc
    have hexec : exec (.chrysalisCapture cx) s = .next (captured s u cx ri a x) := by
      rw [← hcap]
      rfl
    obtain ⟨cells, now, hctx⟩ := captured_ctx cx ri k a x s u hx halloc
    exact ⟨_, hexec, by rw [hctx]; rfl, by rw [hctx]; rfl, by rw [hctx]; rfl, by rw [hctx]; rfl, by rw [hctx]; rfl,
      by rw [hctx]; rfl, captured_exec s u cx ri a x⟩
  · intro cx ri a len block x s hx hc ht hlen hroom
    have hfind : mfind (storeRead s 512 ri).ctxs cx = some x := by
      rw [Touches.ctxs_eq (storeRead_touch ..) (by decide)]
      exact hx
    obtain ⟨hkey, hexec⟩ := restoreInto_facts (storeRead s 512 ri) cx ri a len block x (restoreBlocks s x block)
      (dramRead (storeRead s 512 ri) a (saltOf (storeRead s 512 ri) a) len) hfind hc (restoreBlocks_head s x block)
    rw [placeKey, Prod.mk.injEq, Prod.mk.injEq] at hkey
    obtain ⟨hchrysalis, hregion, hwork⟩ := hkey
    exact ⟨_, exec_chrysalisRestore_of_room cx ri a len block x s hx hc ht hlen hroom, hchrysalis, hregion, hwork, hexec⟩
  · intro block cx i s hi hv
    refine ⟨_, _, exec_of_eviction block i s hi, rfl, ?_⟩
    rcases evictFrom_touch_capture s block cx hv with hevict | ⟨r, p, hevict⟩
    · rw [hevict]
      exact ⟨rfl, rfl, rfl, rfl⟩
    · rw [hevict]
      exact ⟨rfl, rfl, rfl, rfl⟩

end Sys2Proof.Machine
end

section
/-! PROOFS. Tracking of a picture, and adapter steps (R245 to R248, R271, R272): O47. -/

namespace Sys2Proof.Machine

open Sys2Proof (Instr Word Bytes Byte)

/-! ### Tracking -/

/-- The records of the tracks of a slot brought up to picture `f`, before its frame is marked. -/
def tracksRun (s : State) (slot : Nat) (f : Frame) : State :=
  let n := f.picture.getD 0
  let u := storeReads s slot (recIx s slot 0 :: (liveTracks s slot).map (trackIx s slot))
  recSet (runTracker u slot n f.dets) slot 0 [(srLastPicture, toLe 4 n), (srSegment, toLe 2 f.segment), (srFlags, toLe 4 1)]

/-- The entries of the tracks that picture `f` leaves live. -/
def liveEntries (s : State) (slot : Nat) (f : Frame) : Bytes :=
  let u := runTracker (storeReads s slot (recIx s slot 0 :: (liveTracks s slot).map (trackIx s slot))) slot (f.picture.getD 0) f.dets
  (liveTracks u slot).flatMap (fun i => trackEntry (trackAt u slot i) (baseSize f).1 (baseSize f).2 (workSize f).1 (workSize f).2)

/-- Picture `fid` marked as tracked. -/
def pictureTracked (s : State) (slot fid : Nat) (f : Frame) : State :=
  frameStage ((tracksRun s slot f).updFrame fid (fun x => { x with tracked := true, trackEntries := liveEntries s slot f })) fid 6

theorem trackNext_of_inferred (s : State) (slot fid : Nat) (f : Frame) (hp : firstPicture s slot awaitsTracker = some fid)
    (hf : s.frame fid = f) (hstage : f.stage = 5) (hinf : framInferred (frameSe s f) f = true) :
    trackNext s slot = (some fid, pictureTracked s slot fid f) := by
  unfold trackNext
  rw [hp]
  dsimp only
  rw [hf, if_pos (by simp [hstage, hinf])]
  rfl

theorem trackNext_of_waiting (s : State) (slot fid : Nat) (f : Frame) (hp : firstPicture s slot awaitsTracker = some fid)
    (hf : s.frame fid = f) (h : f.stage ≠ 5 ∨ framInferred (frameSe s f) f = false) : trackNext s slot = (none, s) := by
  unfold trackNext
  rw [hp]
  dsimp only
  rw [hf, if_neg]
  rw [Bool.and_eq_true, decide_eq_true_eq]
  rintro ⟨hstage, hinf⟩
  rcases h with h | h
  · exact h hstage
  · rw [h] at hinf
    cases hinf

theorem tracksRun_touch (s : State) (slot : Nat) (f : Frame) : Touches [.streams, .mem, .store] s (tracksRun s slot f) := by
  unfold tracksRun
  dsimp only
  exact (storeReads_touch ..).trans ((runTracker_touch ..).trans (recSet_touch ..))

theorem pictureTracked_frame (s : State) (slot fid : Nat) (f : Frame) (hf : mfind s.frames fid = some f) (hstage : f.stage = 5) :
    ((pictureTracked s slot fid f).frame fid).tracked = true ∧ ((pictureTracked s slot fid f).frame fid).stage = 6 := by
  have hrun : mfind (tracksRun s slot f).frames fid = some f := by
    rw [Touches.frames_eq (tracksRun_touch ..) (by decide)]
    exact hf
  obtain ⟨w, hfind⟩ := frameStage_frame _ fid 6 _ (mfind_updFrame_some
    (fun x => { x with tracked := true, trackEntries := liveEntries s slot f }) hrun)
  have hframe := mget_of_mfind hfind
  unfold pictureTracked State.frame
  rw [hframe]
  exact ⟨rfl, by rw [hstage]; rfl⟩

theorem exec_trackPicture_of_inferred (s : State) (slot fid : Nat) (f : Frame) (hp : firstPicture s slot awaitsTracker = some fid)
    (hf : s.frame fid = f) (hstage : f.stage = 5) (hinf : framInferred (frameSe s f) f = true) :
    exec (.trackPicture slot) s = .next (adpGather (pictureTracked s slot fid f) fid) := by
  rw [exec_trackPicture, execTrackPicture, trackNext_of_inferred s slot fid f hp hf hstage hinf]

theorem exec_trackPicture_of_waiting (s : State) (slot fid : Nat) (f : Frame) (hp : firstPicture s slot awaitsTracker = some fid)
    (hf : s.frame fid = f) (h : f.stage ≠ 5 ∨ framInferred (frameSe s f) f = false) : exec (.trackPicture slot) s = .next s := by
  rw [exec_trackPicture, execTrackPicture, trackNext_of_waiting s slot fid f hp hf h]

/-! ### The start of an adapter step -/

/-- The context of an adapter step in block `b` over `n` line-store bytes. -/
def stepCtx (s : State) (slot b n : Nat) (a : AdpStep) : Ctx :=
  let f := s.frame (a.pictures.headD 0)
  let p := teacherPlan s slot f
  let wk := frameWork f
  let late := s.ctxs.any (fun c => c.2.kind == 1 && c.2.model == 0 && c.2.held.contains 2 && c.2.cls == 0 &&
    (batchFrames s c.2.batch).any (fun pf => (s.frame pf.2).slot == slot && heldByStep s (s.frame pf.2)))
  { (default : Ctx) with
    kind := 2, cls := 1, part := slotPart s slot, graph := seModel (s.se slot) 0, slot := slot
    instar := instarFor p.g wk.2.1 wk.1, cfgSeq := (s.stream slot).cfgSeq, region := regionOfBlock b, phases := 1, stripes := 1
    demand := n, inherited := late }

/-- The adapter's records read for a step. -/
def adapterRead (s : State) (slot : Nat) : State := storeReads s slot (adapterRecordsOf s slot (headGet s slot hdGen 1))

/-- The state `u` with context `x` as its newest. -/
def ctxOpened (u : State) (x : Ctx) : State := { u with ctxs := mput u.ctxs u.nextCtx x, nextCtx := u.nextCtx + 1 }

/-- The job of an open step started in block `b`. -/
def stepStarted (s : State) (slot b n : Nat) (a : AdpStep) : State :=
  (placeCtx (adapterRead s slot).nextCtx [b] (ctxOpened (adapterRead s slot) (stepCtx s slot b n a))).updStream slot
    (fun x => { x with adp := some { a with running := true } })

theorem stepStart_of_room (s : State) (slot b n : Nat) (a : AdpStep) (ha : (s.stream slot).adp = some a) (hr : a.running = false)
    (ht : (s.stream slot).train = true) (h0 : adpInterval s slot ≠ 0) (hlen : adpInterval s slot ≤ a.pictures.length)
    (hn : n = stepDemands ((a.pictures.take (adpInterval s slot)).map (fun q => teacherPlan s slot (s.frame q))))
    (hb : stepBlock s n = some b) : stepStart s slot = stepStarted s slot b n a := by
  unfold stepStart
  rw [ha]
  dsimp only
  rw [if_neg (by simp [hr, ht, h0, hlen]), ← hn, hb]
  rfl

theorem stepBlock_free (s : State) (n b : Nat) (h : stepBlock s n = some b) : ∃ k, freeSlot s b = some k := by
  unfold stepBlock at h
  split at h
  · cases h
  · have hfound := List.find?_some h
    rw [Bool.and_eq_true] at hfound
    exact Option.isSome_iff_exists.1 hfound.1

theorem freeSlot_congr {s t : State} (h : t.blocks = s.blocks) (b : Nat) : freeSlot t b = freeSlot s b := by
  unfold freeSlot State.block
  rw [h]

/-- A context placed in one block that has a free slot. -/
theorem placeCtx_one (cx b k : Nat) (s : State) (x : Ctx) (hx : mfind s.ctxs cx = some x) (hk : freeSlot s b = some k) :
    mfind (placeCtx cx [b] s).ctxs cx = some { x with slots := x.slots ++ [(b, k)] } := by
  unfold placeCtx
  rw [hk]
  exact mfind_updCtx_some (s := s.updBlock b _) _ hx

theorem adapterRead_touch (s : State) (slot : Nat) : Touches [.streams, .mem, .store] s (adapterRead s slot) := storeReads_touch ..

theorem adapterRead_nextCtx (s : State) (slot : Nat) : (adapterRead s slot).nextCtx = s.nextCtx :=
  congrArg Prod.snd ((adapterRead_touch s slot).same .ctxs (by decide))

theorem stepStarted_ctx (s : State) (slot b n k : Nat) (a : AdpStep) (hk : freeSlot s b = some k) :
    mget (stepStarted s slot b n a).ctxs s.nextCtx = { stepCtx s slot b n a with slots := [(b, k)] } := by
  refine mget_of_mfind ?_
  show mfind (placeCtx (adapterRead s slot).nextCtx [b] _).ctxs s.nextCtx = _
  rw [adapterRead_nextCtx]
  refine placeCtx_one _ b k _ (stepCtx s slot b n a) ?_ ?_
  · show mfind (mput _ (adapterRead s slot).nextCtx _) _ = _
    rw [adapterRead_nextCtx, mfind_mput_self]
  · rw [← hk]
    exact freeSlot_congr ((adapterRead_touch s slot).same .blocks (by decide)) b

theorem placeCtx_nextCtx (cx : Nat) (l : List Nat) (s : State) : (placeCtx cx l s).nextCtx = s.nextCtx := by
  induction l generalizing s with
  | nil => rfl
  | cons b l ih =>
    unfold placeCtx
    split
    · exact ih s
    · rw [ih]
      rfl

theorem stepStarted_nextCtx (s : State) (slot b n : Nat) (a : AdpStep) : (stepStarted s slot b n a).nextCtx = s.nextCtx + 1 := by
  show (placeCtx _ [b] _).nextCtx = _
  rw [placeCtx_nextCtx, ← adapterRead_nextCtx s slot]
  rfl

/-! ### The commit of an adapter step -/

theorem exec_adapterStepCommit_of_running (slot : Nat) (a : AdpStep) (s : State) (ha : (s.stream slot).adp = some a)
    (hr : a.running = true) : exec (.adapterStepCommit slot) s =
      .next (if genInUse s slot (1 - headGet s slot hdGen 1) = true then s else stepCommit s slot a) := by
  rw [exec_adapterStepCommit, execAdapterStepCommit, ha]
  dsimp only
  rw [if_neg (by simp [hr])]
  exact (apply_ite Host.Outcome.next _ _ _).symm

theorem exec_adapterStepCommit_of_discarded (slot : Nat) (s : State) (ha : (s.stream slot).adp = none) :
    exec (.adapterStepCommit slot) s = .next (stepCtxEnd s slot) := by
  rw [exec_adapterStepCommit, execAdapterStepCommit, ha]

/-- Settles O47. -/
theorem trackingAndAdapterSteps : Obligations.TrackingAndAdapterSteps := by
  unfold Obligations.TrackingAndAdapterSteps
  refine ⟨?_, ?_, ?_, exec_adapterStepCommit_of_discarded⟩
  · intro slot fid f s hp hf
    have hframe : s.frame fid = f := mget_of_mfind hf
    by_cases h : f.stage = 5 ∧ framInferred (frameSe s f) f = true
    · obtain ⟨hstage, hinf⟩ := h
      have hexec := exec_trackPicture_of_inferred s slot fid f hp hframe hstage hinf
      refine ⟨_, hexec, fun _ _ => ?_, fun hwaits => ?_⟩
      · have hgather : (adpGather (pictureTracked s slot fid f) fid).frame fid = (pictureTracked s slot fid f).frame fid := by
          unfold State.frame
          rw [Touches.frames_eq (adpGather_touch ..) (by decide)]
        rw [hgather]
        obtain ⟨htracked, hsix⟩ := pictureTracked_frame s slot fid f hf hstage
        exact ⟨htracked, hsix, Touches.viaNext hexec (execTrackPicture_touch slot s)⟩
      · rcases hwaits with hwaits | hwaits
        · exact absurd hstage hwaits
        · rw [hinf] at hwaits
          cases hwaits
    · have hwaits : f.stage ≠ 5 ∨ framInferred (frameSe s f) f = false := by
        rw [← Bool.not_eq_true]
        exact not_and_or.1 h
      exact ⟨s, exec_trackPicture_of_waiting s slot fid f hp hframe hwaits, fun hstage hinf => absurd ⟨hstage, hinf⟩ h,
        fun _ => rfl⟩
  · intro slot b n a s ha hr ht h0 hlen hn hb
    have hexec : exec (.adapterStepStart slot) s = .next (stepStarted s slot b n a) := by
      rw [← stepStart_of_room s slot b n a ha hr ht h0 hlen hn hb]
      rfl
    obtain ⟨k, hk⟩ := stepBlock_free s n b hb
    have hctx := stepStarted_ctx s slot b n k a hk
    refine ⟨_, hexec, ?_, stepStarted_nextCtx s slot b n a, by rw [hctx]; rfl, by rw [hctx]; rfl, by rw [hctx]; rfl,
      by rw [hctx]; rfl, fun k' hk' => ?_, Touches.viaNext hexec (execAdapterStepStart_touch slot s)⟩
    · unfold stepStarted
      rw [State.stream_updStream_self]
    · rw [hctx, Option.some.inj (hk.symm.trans hk')]
  · intro slot a s ha hr
    refine ⟨_, exec_adapterStepCommit_of_running slot a s ha hr, fun h => if_pos h, fun h => if_neg ?_⟩
    rw [h]
    decide

end Sys2Proof.Machine
end

section
/-! PROOFS. Search, codebook updates and records (R279 to R300): O48. -/

namespace Sys2Proof.Machine

open Sys2Proof (Instr Word Bytes Byte)

/-! ### The start of a search -/

/-- The picture that a slot searches next. -/
def searchTarget (s : State) (slot : Nat) : Option Nat :=
  firstPicture s slot (fun f => f.stage = 6 && !f.searching && !frameEnded f)

/-- An update of the codebook that the picture `f` would use is still due. -/
def awaitsCodebook (s : State) (slot : Nat) (f : Frame) : Bool :=
  (oldCodebook (s.stream slot) f.cfgSeq).isNone && cbHeld s slot (f.picture.getD 0)

/-- The search of picture `f` started under the codebook that it uses, with the references that it has. -/
def searchStarted (s : State) (slot fid : Nat) (f : Frame) : State :=
  let u := decCount s slot 11 (countIf f.refs (fun r => (refState s f r).1 && !(refState s f r).2))
  u.updFrame fid (fun x => { x with
    searching := true, cbGen := (cbUseOf s f).1, cbCopy := (cbUseOf s f).2,
    refs := x.refs.filter (fun r => (refState u x r).1 && (refState u x r).2) })

/-- The search of picture `fid` held for the one before it, and counted as held. -/
def searchHeldBack (s : State) (slot fid : Nat) : State :=
  (s.updFrame fid (fun x => { x with searchHeld := true })).updStream slot (fun x => { x with tds := bump x.tds 10 1 })

theorem exec_searchStart_of_ready (s : State) (slot fid : Nat) (f : Frame) (hp : searchTarget s slot = some fid)
    (hf : s.frame fid = f) (hprev : prevSearched s f = true) (hheld : awaitsCodebook s slot f = false)
    (hrefs : ∀ r ∈ f.refs, refWaits s r = false) : exec (.searchStart slot) s = .next (searchStarted s slot fid f) := by
  have hwaits : f.refs.any (refWaits s) = false := by
    rw [List.any_eq_false]
    intro r hr
    rw [hrefs r hr]
    decide
  unfold searchTarget at hp
  unfold awaitsCodebook at hheld
  rw [exec_searchStart, execSearchStart, hp]
  dsimp only
  rw [hf, if_neg (by simp [hprev]), hheld, hwaits, if_neg (by decide)]
  rfl

theorem exec_searchStart_of_waiting (s : State) (slot fid : Nat) (f : Frame) (hp : searchTarget s slot = some fid)
    (hf : s.frame fid = f) (hprev : prevSearched s f = true)
    (h : awaitsCodebook s slot f = true ∨ ∃ r ∈ f.refs, refWaits s r = true) : exec (.searchStart slot) s = .next s := by
  unfold searchTarget at hp
  unfold awaitsCodebook at h
  rw [exec_searchStart, execSearchStart, hp]
  dsimp only
  rw [hf, if_neg (by simp [hprev]), if_pos (by rw [Bool.or_eq_true, List.any_eq_true]; exact h)]

theorem exec_searchStart_of_unsearched (s : State) (slot fid : Nat) (f : Frame) (hp : searchTarget s slot = some fid)
    (hf : s.frame fid = f) (hprev : prevSearched s f = false) :
    exec (.searchStart slot) s = .next (if f.searchHeld = true then s else searchHeldBack s slot fid) := by
  unfold searchTarget at hp
  rw [exec_searchStart, execSearchStart, hp]
  dsimp only
  rw [hf, if_pos (by simp [hprev])]
  exact (apply_ite Host.Outcome.next _ _ _).symm

theorem frame_updFrame_self (s : State) (fid : Nat) (f : Frame) (g : Frame → Frame) (hf : mfind s.frames fid = some f) :
    (s.updFrame fid g).frame fid = g f := mget_of_mfind (mfind_updFrame_some g hf)

theorem searchStarted_frame (s : State) (slot fid : Nat) (f : Frame) (hf : mfind s.frames fid = some f) :
    ((searchStarted s slot fid f).frame fid).searching = true ∧
      (((searchStarted s slot fid f).frame fid).cbGen, ((searchStarted s slot fid f).frame fid).cbCopy) = cbUseOf s f := by
  have hcount (n : Nat) : mfind (decCount s slot 11 n).frames fid = some f := by
    rw [Touches.frames_eq (decCount_touch ..) (by decide)]
    exact hf
  unfold searchStarted
  dsimp only
  rw [frame_updFrame_self _ fid f _ (hcount _)]
  exact ⟨rfl, rfl⟩

theorem searchHeldBack_facts (s : State) (slot fid : Nat) (f : Frame) (hf : mfind s.frames fid = some f) :
    ((searchHeldBack s slot fid).frame fid).searching = f.searching ∧ ((searchHeldBack s slot fid).frame fid).searchHeld = true ∧
      mget ((searchHeldBack s slot fid).stream slot).tds 10 = satAdd (2 ^ 64 - 1) (mget (s.stream slot).tds 10) 1 := by
  have hframe : (searchHeldBack s slot fid).frame fid = { f with searchHeld := true } :=
    frame_updFrame_self s fid f (fun x => { x with searchHeld := true }) hf
  refine ⟨by rw [hframe], by rw [hframe], ?_⟩
  unfold searchHeldBack
  rw [State.stream_updStream_self]
  exact mget_bump_self ..

/-- The three outcomes of a search's start, by the state of the picture before it. -/
theorem searchStart_facts (s : State) (slot fid : Nat) (f : Frame) (hp : searchTarget s slot = some fid) (hf : mfind s.frames fid = some f) :
    ∃ t, exec (.searchStart slot) s = .next t ∧
      (prevSearched s f = true → awaitsCodebook s slot f = false → (∀ r ∈ f.refs, refWaits s r = false) →
        (t.frame fid).searching = true ∧ ((t.frame fid).cbGen, (t.frame fid).cbCopy) = cbUseOf s f ∧
        Touches [.streams, .frames] s t) ∧
      (prevSearched s f = true → awaitsCodebook s slot f = true ∨ (∃ r ∈ f.refs, refWaits s r = true) → t = s) ∧
      (prevSearched s f = false → (t.frame fid).searching = f.searching ∧ (t.frame fid).searchHeld = true ∧
        mget (t.stream slot).tds 10 = (if f.searchHeld then mget (s.stream slot).tds 10
          else satAdd (2 ^ 64 - 1) (mget (s.stream slot).tds 10) 1)) := by
  have hframe : s.frame fid = f := mget_of_mfind hf
  cases hprev : prevSearched s f with
  | false =>
    refine ⟨_, exec_searchStart_of_unsearched s slot fid f hp hframe hprev, nofun, nofun, fun _ => ?_⟩
    by_cases hheld : f.searchHeld = true
    · rw [if_pos hheld, if_pos hheld, hframe]
      exact ⟨rfl, hheld, rfl⟩
    · rw [if_neg hheld, if_neg hheld]
      exact searchHeldBack_facts s slot fid f hf
  | true =>
    by_cases hwaits : awaitsCodebook s slot f = true ∨ ∃ r ∈ f.refs, refWaits s r = true
    · refine ⟨s, exec_searchStart_of_waiting s slot fid f hp hframe hprev hwaits, fun _ hheld hrefs => ?_, fun _ _ => rfl, nofun⟩
      rcases hwaits with hcb | ⟨r, hr, hwait⟩
      · rw [hheld] at hcb
        cases hcb
      · rw [hrefs r hr] at hwait
        cases hwait
    · obtain ⟨hcb, href⟩ := not_or.1 hwaits
      have hrefs : ∀ r ∈ f.refs, refWaits s r = false := fun r hr => Bool.eq_false_iff.2 fun h => href ⟨r, hr, h⟩
      have hexec := exec_searchStart_of_ready s slot fid f hp hframe hprev (Bool.eq_false_iff.2 hcb) hrefs
      obtain ⟨hsearching, huse⟩ := searchStarted_frame s slot fid f hf
      exact ⟨_, hexec, fun _ _ _ => ⟨hsearching, huse, Touches.viaNext hexec (execSearchStart_touch slot s)⟩,
        fun _ h => absurd h hwaits, nofun⟩

/-! ### The commit of a search -/

/-- The state after the search of picture `fid` has taken its bands, and committed where it has them all. -/
def searchCommitted (s : State) (slot fid : Nat) : State :=
  if (searchBands s slot fid).1 = true then searchDone (searchBands s slot fid).2 slot fid else (searchBands s slot fid).2

theorem exec_searchCommit_of_searching (s : State) (slot fid : Nat)
    (hp : firstPicture s slot (fun f => f.searching && !f.searched && !frameEnded f) = some fid) :
    exec (.searchCommit slot) s = .next (if (s.frame fid).models / 16 % 2 = 0 then s else searchCommitted s slot fid) := by
  rw [exec_searchCommit, execSearchCommit, hp]
  dsimp only
  rw [apply_ite Host.Outcome.next, searchCommitted, apply_ite Host.Outcome.next]

theorem searchCommit_facts (s : State) (slot fid : Nat)
    (hp : firstPicture s slot (fun f => f.searching && !f.searched && !frameEnded f) = some fid) :
    ∃ t, exec (.searchCommit slot) s = .next t ∧ ((s.frame fid).models / 16 % 2 = 0 → t = s) ∧
      ((s.frame fid).models / 16 % 2 = 1 → ∀ b u, searchBands s slot fid = (b, u) → t = if b then searchDone u slot fid else u) := by
  refine ⟨_, exec_searchCommit_of_searching s slot fid hp, fun h => if_pos h, fun h b u hbands => ?_⟩
  rw [if_neg (by omega), searchCommitted, hbands]

/-! ### Codebook updates -/

/-- The oldest pending update given up, and counted. -/
def updateMissed (s : State) (slot : Nat) : State := cbDrop (s.updStream slot (fun x => { x with tds := bump x.tds 7 1 })) slot

theorem exec_codebookUpdate_of_searches (s : State) (slot : Nat) (u : CbPending) (l : List CbPending)
    (hu : (s.stream slot).cbPending = u :: l) (h : searchesLeft s slot u.last = true) :
    exec (.codebookUpdate slot) s = .next s := by
  rw [exec_codebookUpdate, execCodebookUpdate, hu]
  dsimp only
  rw [if_pos h]

theorem exec_codebookUpdate_of_missed (s : State) (slot : Nat) (u : CbPending) (l : List CbPending)
    (hu : (s.stream slot).cbPending = u :: l) (hleft : searchesLeft s slot u.last = false)
    (h : (s.stream slot).train = false ∨ u.cands = none) : exec (.codebookUpdate slot) s = .next (updateMissed s slot) := by
  rw [exec_codebookUpdate, execCodebookUpdate, hu]
  dsimp only
  rw [if_neg (by simp [hleft])]
  by_cases ht : (s.stream slot).train = true
  · have hcands : u.cands = none := h.resolve_left (by rw [ht]; decide)
    rw [if_neg (by simp [ht]), hcands]
    rfl
  · rw [if_pos (by simp [ht])]
    rfl

theorem exec_codebookUpdate_of_formed (s : State) (slot : Nat) (u : CbPending) (l : List CbPending) (cs : List Bytes)
    (hu : (s.stream slot).cbPending = u :: l) (hleft : searchesLeft s slot u.last = false)
    (ht : (s.stream slot).train = true) (hcands : u.cands = some cs) :
    exec (.codebookUpdate slot) s = .next (if copyInUse s slot = true then s else cbDrop (cbForm s slot u cs) slot) := by
  rw [exec_codebookUpdate, execCodebookUpdate, hu]
  dsimp only
  rw [if_neg (by simp [hleft]), if_neg (by simp [ht]), hcands]
  exact (apply_ite Host.Outcome.next _ _ _).symm

/-- What the writing of a record leaves of the codebook's state. -/
theorem cbDrop_pending (s : State) (slot : Nat) : ((cbDrop s slot).stream slot).cbPending = (s.stream slot).cbPending.tail := by
  unfold cbDrop
  dsimp only
  rw [recSet_stream Stream.cbPending fun _ _ => rfl, State.stream_updStream_self]

theorem cbDrop_stream {β : Type} (g : Stream → β) (hctr : ∀ (x : Stream) m, g { x with ctxc := m } = g x)
    (hpend : ∀ (x : Stream) l, g { x with cbPending := l } = g x) (s : State) (slot : Nat) :
    g ((cbDrop s slot).stream slot) = g (s.stream slot) := by
  unfold cbDrop
  dsimp only
  rw [recSet_stream g hctr, State.stream_updStream_self, hpend]

theorem updateMissed_facts (s : State) (slot : Nat) (u : CbPending) (l : List CbPending)
    (hu : (s.stream slot).cbPending = u :: l) : ((updateMissed s slot).stream slot).cbPending = l ∧
      ((updateMissed s slot).stream slot).partialDue = (s.stream slot).partialDue := by
  unfold updateMissed
  rw [cbDrop_pending, cbDrop_stream Stream.partialDue (fun _ _ => rfl) (fun _ _ => rfl), State.stream_updStream_self, hu]
  exact ⟨rfl, rfl⟩

theorem cbForm_facts (s : State) (slot : Nat) (u : CbPending) (cs : List Bytes) :
    ((cbForm s slot u cs).stream slot).cbPending = (s.stream slot).cbPending ∧
      ((cbForm s slot u cs).stream slot).cbFormed = true ∧ ((cbForm s slot u cs).stream slot).uses = [] := by
  unfold cbForm
  dsimp only
  rw [State.stream_updStream_self]
  exact ⟨recSet_stream Stream.cbPending (fun _ _ => rfl) .., rfl, rfl⟩

theorem cbFormed_facts (s : State) (slot : Nat) (u : CbPending) (l : List CbPending) (cs : List Bytes)
    (hu : (s.stream slot).cbPending = u :: l) : ((cbDrop (cbForm s slot u cs) slot).stream slot).cbPending = l ∧
      ((cbDrop (cbForm s slot u cs) slot).stream slot).cbFormed = true ∧
      ((cbDrop (cbForm s slot u cs) slot).stream slot).uses = [] := by
  obtain ⟨hpending, hformed, huses⟩ := cbForm_facts s slot u cs
  rw [cbDrop_pending, cbDrop_stream Stream.cbFormed (fun _ _ => rfl) (fun _ _ => rfl),
    cbDrop_stream Stream.uses (fun _ _ => rfl) (fun _ _ => rfl), hpending, hu]
  exact ⟨rfl, hformed, huses⟩

theorem codebookUpdate_facts (s : State) (slot : Nat) (u : CbPending) (l : List CbPending)
    (hu : (s.stream slot).cbPending = u :: l) : ∃ t, exec (.codebookUpdate slot) s = .next t ∧
      (searchesLeft s slot u.last = true → t = s) ∧
      (searchesLeft s slot u.last = false → (s.stream slot).train = false ∨ u.cands = none →
        (t.stream slot).cbPending = l ∧ (t.stream slot).partialDue = (s.stream slot).partialDue ∧
        Touches [.streams, .mem, .store] s t) ∧
      ∀ cs, searchesLeft s slot u.last = false → (s.stream slot).train = true → u.cands = some cs →
        copyInUse s slot = false → (t.stream slot).cbPending = l ∧ (t.stream slot).cbFormed = true ∧
          (t.stream slot).uses = [] ∧ t = cbDrop (cbForm s slot u cs) slot ∧ Touches [.streams, .mem, .store] s t := by
  cases hleft : searchesLeft s slot u.last with
  | true => exact ⟨s, exec_codebookUpdate_of_searches s slot u l hu hleft, fun _ => rfl, nofun, nofun⟩
  | false =>
    by_cases hmiss : (s.stream slot).train = false ∨ u.cands = none
    · have hexec := exec_codebookUpdate_of_missed s slot u l hu hleft hmiss
      obtain ⟨hpending, hpartial⟩ := updateMissed_facts s slot u l hu
      refine ⟨_, hexec, nofun, fun _ _ => ⟨hpending, hpartial, Touches.viaNext hexec (execCodebookUpdate_touch slot s)⟩, ?_⟩
      intro cs _ ht hcands
      rw [ht, hcands] at hmiss
      rcases hmiss with hmiss | hmiss <;> cases hmiss
    · obtain ⟨htrain, hsome⟩ := not_or.1 hmiss
      obtain ⟨cs, hcands⟩ := Option.ne_none_iff_exists'.1 hsome
      have hexec := exec_codebookUpdate_of_formed s slot u l cs hu hleft (Bool.not_eq_false _ ▸ htrain) hcands
      refine ⟨_, hexec, nofun, fun _ h => absurd h hmiss, fun cs' _ _ hcands' hcopy => ?_⟩
      rw [hcopy, if_neg (by decide)] at hexec ⊢
      obtain rfl : cs = cs' := Option.some.inj (hcands.symm.trans hcands')
      obtain ⟨hpending, hformed, huses⟩ := cbFormed_facts s slot u l cs hu
      exact ⟨hpending, hformed, huses, rfl, Touches.viaNext hexec (execCodebookUpdate_touch slot s)⟩

/-! ### Records -/

/-- The body of the record of picture `f`. -/
def codedBody (s : State) (slot : Nat) (f : Frame) : Bytes :=
  (recordBody (frameSe s f) (cbStream (s.stream slot) f.cfgSeq).probs f).1

/-- Picture `fid` with its record coded. -/
def recordCoded (s : State) (slot fid : Nat) (f : Frame) : State :=
  let seq := (srGet s slot srUnitSeq 2 + (codebookDue s f).1.length) % 2 ^ 16
  frameStage (s.updFrame fid (fun x => { x with unit := some (codedBody s slot f), unitSeq := seq })) fid 8

theorem exec_recordEncode_of_searched (s : State) (slot fid : Nat) (f : Frame) (hp : firstPicture s slot unsent = some fid)
    (hf : s.frame fid = f) (hstage : f.stage = 7) (hup : unitDown s uDx = false) :
    exec (.recordEncode slot) s = .next (recordCoded s slot fid f) := by
  rw [exec_recordEncode, execRecordEncode, hp]
  dsimp only
  rw [hf, if_neg (by simp [hstage, hup])]
  rfl

theorem recordCoded_frame (s : State) (slot fid : Nat) (f : Frame) (hf : mfind s.frames fid = some f) (hstage : f.stage = 7) :
    ((recordCoded s slot fid f).frame fid).stage = 8 ∧ ((recordCoded s slot fid f).frame fid).unit = some (codedBody s slot f) := by
  obtain ⟨w, hfind⟩ := frameStage_frame _ fid 8 _ (mfind_updFrame_some (fun x => { x with
    unit := some (codedBody s slot f), unitSeq := (srGet s slot srUnitSeq 2 + (codebookDue s f).1.length) % 2 ^ 16 }) hf)
  have hframe := mget_of_mfind hfind
  unfold recordCoded State.frame
  dsimp only
  rw [hframe]
  exact ⟨by rw [hstage]; rfl, rfl⟩

theorem exec_recordEmit_of_coded (s : State) (slot fid : Nat) (body : Bytes) (hp : firstPicture s slot unsent = some fid)
    (hunit : (s.frame fid).unit = some body) (hup : unitDown s uDx = false) :
    exec (.recordEmit slot) s = .next (sweepSlots (groupSlots s slot) (emitRecord s slot fid body)) := by
  rw [exec_recordEmit, execRecordEmit, hp]
  dsimp only
  rw [hunit]
  dsimp only
  rw [if_neg (by simp [hup])]

/-- Settles O48. -/
theorem searchAndRecords : Obligations.SearchAndRecords := by
  unfold Obligations.SearchAndRecords
  refine ⟨fun slot fid f s hp hf => searchStart_facts s slot fid f hp hf, fun slot fid s hp => searchCommit_facts s slot fid hp,
    fun slot u l s hu => codebookUpdate_facts s slot u l hu, fun slot fid f s hp hf hstage hup => ?_,
    fun slot fid body s hp hunit hup => ⟨_, exec_recordEmit_of_coded s slot fid body hp hunit hup, rfl⟩⟩
  have hexec := exec_recordEncode_of_searched s slot fid f hp (mget_of_mfind hf) hstage hup
  obtain ⟨height, hunit⟩ := recordCoded_frame s slot fid f hf hstage
  exact ⟨_, hexec, height, hunit, Touches.viaNext hexec (execRecordEncode_touch slot s)⟩

end Sys2Proof.Machine
end

section
/-! PROOFS. Record rings (R376 to R381): O49, O50. -/

namespace Sys2Proof.Machine

open Sys2Proof (Instr Word Bytes Byte)

theorem updRing_irqStatus (s : State) (p f k : Nat) (g : Ring → Ring) : ((s.updRing p f k g).fn p f).irqStatus = (s.fn p f).irqStatus := by
  unfold State.updRing
  rw [fn_upd]

theorem raiseIrq_irqStatus (s : State) (p f b : Nat) : ((raiseIrq s p f b).fn p f).irqStatus = (s.fn p f).irqStatus ||| wflag true b := by
  unfold raiseIrq
  rw [fn_upd]

/-! ### Bind -/

/-- A ring that runs empty under its next generation. -/
def ringRun (r : Ring) : Ring :=
  { r with
    base := rgBase r, cons := rgCons r, log2 := rgLog2 r, irqCount := wbits r.cfg 19 8, irqDelay := wbits r.cfg 31 20
    events := rgEvents r, bound := true, error := false, cause := 0, gen := (r.gen + 1) % 256, prod := 0, consumed := 0
    backoff := 0, lostUnits := 0, lostBytes := 0, held := [], irqRecords := 0, irqFirst := 0 }

/-- A ring whose bind was refused, and the error of its function. -/
def bindRefused (s : State) (p f k : Nat) : State :=
  raiseIrq (s.updRing p f k (fun r => { r with error := true, cause := 1 })) p f irqRingError

theorem exec_ringBind_of_ok (s : State) (p f k : Nat) (ht : fnTakes s p f = true) (hk : ringSel (s.fn p f) = k)
    (hb : (s.ring p f k).bound = false) (hok : ringBindOk (s.fn p f) k (s.ring p f k) = true) :
    exec (.ringBind p f) s = .next (pumpEvents (s.updRing p f k ringRun) p f) := by
  rw [exec_ringBind, execRingBind, if_pos ht, hk, ringBind, ringUnbind_no s p f k hb]
  dsimp only
  rw [if_pos hok]
  rfl

theorem exec_ringBind_of_bad (s : State) (p f k : Nat) (ht : fnTakes s p f = true) (hk : ringSel (s.fn p f) = k)
    (hb : (s.ring p f k).bound = false) (hok : ringBindOk (s.fn p f) k (s.ring p f k) = false) :
    exec (.ringBind p f) s = .next (bindRefused s p f k) := by
  rw [exec_ringBind, execRingBind, if_pos ht, hk, ringBind, ringUnbind_no s p f k hb]
  dsimp only
  rw [if_neg (by simp [hok])]
  rfl

theorem bindRefused_ring (s : State) (p f k : Nat) :
    (bindRefused s p f k).ring p f k = { s.ring p f k with error := true, cause := 1 } := by
  unfold bindRefused
  rw [raiseIrq_ring, ring_upd]

theorem bindRefused_irq (s : State) (p f k : Nat) :
    ((bindRefused s p f k).fn p f).irqStatus = (s.fn p f).irqStatus ||| wflag true 18 := by
  unfold bindRefused
  rw [raiseIrq_irqStatus, updRing_irqStatus]
  rfl

theorem bindRefused_touch (s : State) (p f k : Nat) : Touches [.rings] s (bindRefused s p f k) :=
  (State.updRing_touch ..).trans (raiseIrq_touch ..)

/-! ### Unbind and the hold timeout -/

theorem exec_ringUnbind_of_takes (s : State) (p f k : Nat) (ht : fnTakes s p f = true) (hk : ringSel (s.fn p f) = k) :
    exec (.ringUnbind p f) s = .next (ringUnbind s p f k) := by
  rw [exec_ringUnbind, execRingUnbind, if_pos ht, hk]

theorem ringUnbind_of_bound (s : State) (p f k : Nat) (h : (s.ring p f k).bound = true) :
    ringUnbind s p f k = sweepAll (ringStop s p f k false 0) := by
  rw [ringUnbind, if_pos h]

theorem ringStop_ring (s : State) (p f k cause : Nat) (error : Bool) :
    ((ringStop s p f k error cause).ring p f k).bound = false ∧ ((ringStop s p f k error cause).ring p f k).held = [] ∧
      ((ringStop s p f k error cause).ring p f k).error = error := by
  unfold ringStop
  dsimp only
  obtain ⟨hbound, hheld, herror⟩ := dropHeld_ring p f k (s.ring p f k).held (s.updRing p f k (fun r =>
    { r with bound := false, error := error, cause := cause, held := [], backoff := 0, irqRecords := 0, irqFirst := 0,
             lostUnits := 0, lostBytes := 0 })) (by rw [ring_upd])
  refine ⟨hbound, hheld.trans ?_, herror.trans ?_⟩ <;> rw [ring_upd]

theorem ringDropOldest_ring (s : State) (p f k : Nat) (h : HeldUnit) (l : List HeldUnit) (hh : (s.ring p f k).held = h :: l)
    (hb : (s.ring p f k).bound = true) : (ringDropOldest s p f k).ring p f k = { s.ring p f k with
      held := l, drops := satAdd (2 ^ 64 - 1) (s.ring p f k).drops 1, lostUnits := (s.ring p f k).lostUnits + 1,
      lostBytes := (s.ring p f k).lostBytes + h.data.length } := by
  unfold ringDropOldest ringDropUnit
  rw [hh]
  dsimp only
  rw [Touches.ring_eq (heldServed_touch ..) (by decide), ring_upd, ring_upd]
  dsimp only
  rw [if_pos hb, if_pos hb]

/-- Settles O49. -/
theorem ringBindAndUnbind : Obligations.RingBindAndUnbind := by
  unfold Obligations.RingBindAndUnbind
  refine ⟨fun p f k s ht hk hb => ?_, fun p f k s ht hk => ?_, fun p f k h l s hh hb => ?_⟩
  · cases hok : ringBindOk (s.fn p f) k (s.ring p f k) with
    | true =>
      have hring : (s.updRing p f k ringRun).ring p f k = ringRun (s.ring p f k) := ring_upd ..
      refine ⟨_, s.updRing p f k ringRun, exec_ringBind_of_ok s p f k ht hk hb hok, State.updRing_touch .., fun _ => ?_, nofun⟩
      rw [hring]
      exact ⟨rfl, rfl, rfl, rfl, rfl, rfl, rfl, rfl⟩
    | false =>
      refine ⟨_, _, exec_ringBind_of_bad s p f k ht hk hb hok, bindRefused_touch s p f k, nofun, fun _ => ⟨rfl, ?_⟩⟩
      rw [bindRefused_ring, bindRefused_irq]
      exact ⟨hb, rfl, rfl, rfl⟩
  · obtain ⟨hbound, hheld, herror⟩ := ringStop_ring s p f k 0 false
    exact ⟨_, ringStop s p f k false 0, exec_ringUnbind_of_takes s p f k ht hk, ringUnbind_no s p f k, fun hb =>
      ⟨ringUnbind_of_bound s p f k hb, hbound, hheld, herror, ringStop_touch ..⟩⟩
  · have hring := ringDropOldest_ring s p f k h l hh hb
    refine ⟨_, ringDropOldest s p f k, rfl, ?_, by rw [hring], by rw [hring], by rw [hring], by rw [hring]⟩
    rw [hring]

/-! ### Consumer records and the interrupt delay -/

theorem padTo_of_length (n : Nat) (b : Bytes) (h : b.length = n) : padTo n b = b := by
  subst h
  simp [padTo, zeros]

theorem exec_ringConsumerRead_of_data (p f k : Nat) (b : Bytes) (s : State) (hb : (s.ring p f k).bound = true)
    (h0 : (s.ring p f k).backoff ≠ 0) (hi : canIssue (s.fn p f) = true) (hlen : b.length = 8) :
    exec (.ringConsumerRead p f k (.data b)) s =
      .next (ringConsumer (emit (.hostRead p f (s.ring p f k).cons 8) s) p f k b) := by
  rw [exec_ringConsumerRead, execRingConsumerRead, if_neg (by simp [hb, h0, hi])]
  dsimp only
  rw [padTo_of_length 8 b hlen]

theorem exec_ringConsumerRead_of_failed (p f k : Nat) (why : ReadFail) (s : State) (hb : (s.ring p f k).bound = true)
    (h0 : (s.ring p f k).backoff ≠ 0) (hi : canIssue (s.fn p f) = true) :
    exec (.ringConsumerRead p f k (.failed why)) s =
      .next (ringFail (readCount (emit (.hostRead p f (s.ring p f k).cons 8) s) p f (.failed why)) p f k 2) := by
  rw [exec_ringConsumerRead, execRingConsumerRead, if_neg (by simp [hb, h0, hi])]

theorem exec_ringConsumerRead_of_idle (p f k : Nat) (r : HostRead) (s : State)
    (h : (s.ring p f k).bound = false ∨ (s.ring p f k).backoff = 0 ∨ canIssue (s.fn p f) = false) :
    exec (.ringConsumerRead p f k r) s = .next s := by
  rw [exec_ringConsumerRead, execRingConsumerRead, if_pos (by simpa [or_assoc] using h)]

/-- The four answers to a consumer record, by its generation and the records it leaves behind. -/
theorem ringConsumer_facts (s : State) (p f k : Nat) (b : Bytes) (r : Ring) (behind : Nat) (hr : s.ring p f k = r)
    (hbehind : behind = (r.prod % 2 ^ 32 + 2 ^ 32 - le32 b 0) % 2 ^ 32) :
    (byteAt b 4 ≠ r.gen → ringConsumer s p f k b = s.updRing p f k ringBackoff) ∧
    (byteAt b 4 = r.gen → 2 ^ r.log2 < behind → ringConsumer s p f k b = ringFail s p f k 3) ∧
    (byteAt b 4 = r.gen → behind ≤ 2 ^ r.log2 → r.prod - behind ≤ r.consumed →
      ringConsumer s p f k b = s.updRing p f k ringBackoff) ∧
    (byteAt b 4 = r.gen → behind ≤ 2 ^ r.log2 → r.consumed < r.prod - behind →
      ringConsumer s p f k b = ringServe (s.updRing p f k (fun x => { x with consumed := r.prod - behind })) p f k) := by
  unfold ringConsumer ringSize
  rw [hr]
  dsimp only
  rw [← hbehind]
  refine ⟨fun hg => if_pos hg, fun hg hover => ?_, fun hg hfits hnone => ?_, fun hg hfits hsome => ?_⟩
  · rw [if_neg (not_not_intro hg), if_pos hover]
  · rw [if_neg (not_not_intro hg), if_neg (Nat.not_lt.2 hfits), if_neg (Nat.not_lt.2 hnone)]
  · rw [if_neg (not_not_intro hg), if_neg (Nat.not_lt.2 hfits), if_pos hsome]

/-- The cause bit of ring `k` set, and its records counted anew. -/
def ringSignalled (s : State) (p f k : Nat) : State :=
  raiseIrq (s.updRing p f k (fun r => { r with irqRecords := 0, irqFirst := 0 })) p f k

theorem exec_ringIrqDelay_of_pending (p f k : Nat) (s : State) (hb : (s.ring p f k).bound = true) (hi : (s.ring p f k).irqFirst ≠ 0) :
    exec (.ringIrqDelay p f k) s = .next (ringSignalled s p f k) := by
  rw [exec_ringIrqDelay, execRingIrqDelay, if_pos (by simp [hb, hi])]
  rfl

theorem ringSignalled_facts (s : State) (p f k : Nat) :
    ((ringSignalled s p f k).fn p f).irqStatus = (s.fn p f).irqStatus ||| wflag true k ∧
      ((ringSignalled s p f k).ring p f k).irqRecords = 0 ∧ ((ringSignalled s p f k).ring p f k).irqFirst = 0 := by
  unfold ringSignalled
  rw [raiseIrq_irqStatus, updRing_irqStatus, raiseIrq_ring, ring_upd]
  exact ⟨rfl, rfl, rfl⟩

/-- Settles O50. -/
theorem ringConsumerAndDelay : Obligations.RingConsumerAndDelay := by
  unfold Obligations.RingConsumerAndDelay
  refine ⟨fun p f k s hb h0 hi => ⟨fun why => ?_, fun b hlen => ?_⟩, exec_ringConsumerRead_of_idle, fun p f k s hb hi => ?_⟩
  · exact exec_ringConsumerRead_of_failed p f k why s hb h0 hi
  · exact ⟨_, exec_ringConsumerRead_of_data p f k b s hb h0 hi hlen, ringConsumer_facts _ p f k b _ _ rfl rfl⟩
  · have hexec := exec_ringIrqDelay_of_pending p f k s hb hi
    obtain ⟨hirq, hrecords, hfirst⟩ := ringSignalled_facts s p f k
    exact ⟨_, hexec, hirq, hrecords, hfirst, Touches.viaNext hexec (execRingIrqDelay_touch p f k s)⟩

end Sys2Proof.Machine
end

section
/-! PROOFS. Interrupt status, the INTA wire, the regulator and pushed counts (R9, R320, R374 to R376): O51. -/

namespace Sys2Proof.Machine

open Sys2Proof (Instr Word Bytes Byte)

/-! ### Interrupts -/

/-- The interrupt status of a function with `value` cleared and `sets` set. -/
def irqWritten (s : State) (p f : Nat) (value sets : Word) : State :=
  s.updFn p f (fun x => { x with irqStatus := (x.irqStatus &&& ~~~value) ||| (sets &&& irqBits p f) })

theorem exec_irqStatusClear_of_takes (s : State) (p f : Nat) (value sets : Word) (h : fnTakes s p f = true) :
    exec (.irqStatusClear p f value sets) s = .next (intaSync (irqWritten s p f value sets) p) := by
  have hpresent : fnPresent s p f = true := by
    unfold fnTakes at h
    rw [Bool.and_eq_true, Bool.and_eq_true, Bool.and_eq_true] at h
    obtain ⟨⟨⟨hpresent, _⟩, _⟩, _⟩ := h
    exact hpresent
  rw [exec_irqStatusClear, execIrqStatusClear, if_pos h, if_pos hpresent]
  rfl

theorem intaSync_status (s : State) (p f : Nat) : ((intaSync s p).fn p f).irqStatus = (s.fn p f).irqStatus :=
  Touches.irqStatus_eq (intaSync_touch s p) (by decide) p f

theorem hpCount_inta (s : State) (p k n : Nat) : ((hpCount s p k n).port p).inta = (s.port p).inta := by
  unfold hpCount
  rw [port_upd]

theorem intaSync_inta (s : State) (p : Nat) (h : linkUp (s.port p) = true) : ((intaSync s p).port p).inta = portPending s p := by
  unfold intaSync
  dsimp only
  by_cases hsame : portPending s p = (s.port p).inta
  · rw [if_pos (by simp [hsame]), hsame]
  · have hnew : ((emit (.inta p (portPending s p)) (s.updPort p (fun q => { q with inta := portPending s p }))).port p).inta =
        portPending s p := by
      rw [Touches.port_eq (emit_touch ..) (by decide), port_upd]
    rw [if_neg (by simp [hsame, h])]
    split
    · rw [portCount, hpCount_inta, hnew]
    · exact hnew

theorem intaSync_of_same (s : State) (p : Nat) (h : portPending s p = (s.port p).inta) : intaSync s p = s := by
  rw [intaSync, if_pos (by simp [h])]

/-! ### The regulator -/

/-- The bytes that the regulator has used forgotten. -/
def requestsForgotten (s : State) : State := { s with regions := mmap s.regions (fun _ x => { x with dramReq := [], nocReq := [] }) }

theorem exec_regulatorUpdate_of_up (s : State) (h : s.pac.restarting = false) :
    exec .regulatorUpdate s = .next (requestsForgotten ((partIds s).foldl regulatePart s)) := by
  rw [exec_regulatorUpdate, execRegulatorUpdate, if_neg (by simp [h])]
  rfl

theorem requestsForgotten_region (s : State) (r : Nat) :
    (requestsForgotten s).region r = { s.region r with dramReq := [], nocReq := [] } :=
  mget_mmap s.regions (fun _ x => { x with dramReq := [], nocReq := [] }) r rfl

/-! ### Pushed counts -/

theorem exec_counterPush_of_awake (s : State) (r : Nat) (h : (s.region r).awake = true) :
    exec (.counterPush r) s = .next (pushCounts s r) := by
  rw [exec_counterPush, execCounterPush, if_pos h]

theorem exec_counterPush_of_asleep (s : State) (r : Nat) (h : (s.region r).awake = false) : exec (.counterPush r) s = .next s := by
  rw [exec_counterPush, execCounterPush, if_neg (by simp [h])]

theorem pushCounts_counts (s : State) (r : Nat) : ((pushCounts s r).region r).counts = [] := by
  unfold pushCounts
  dsimp only
  rw [region_upd]

theorem pushCounts_one (s : State) (r p k n : Nat) (h : (s.region r).counts = [(p * 128 + k, n)]) (hk : k < 128) :
    mget ((pushCounts s r).part p).sch k = satAdd (2 ^ 64 - 1) (mget (s.part p).sch k) n := by
  have hpart : (p * 128 + k) / 128 = p := by omega
  have hkey : (p * 128 + k) % 128 = k := by omega
  unfold pushCounts
  rw [h, List.foldl_cons, List.foldl_nil]
  dsimp only
  rw [Touches.part_eq (State.updRegion_touch ..) (by decide), hpart, hkey, part_upd]
  exact mget_bump_self ..

/-- Settles O51. -/
theorem interruptsAndPeriodicCounts : Obligations.InterruptsAndPeriodicCounts := by
  unfold Obligations.InterruptsAndPeriodicCounts
  refine ⟨fun p f value sets s h => ?_, fun p s h => ?_, fun s h => ?_, fun r s h => ?_, fun r s => exec_counterPush_of_asleep s r⟩
  · have hexec := exec_irqStatusClear_of_takes s p f value sets h
    refine ⟨_, hexec, ?_, Touches.viaNext hexec (execIrqStatusClear_touch p f value sets s)⟩
    rw [intaSync_status, irqWritten, fn_upd]
  · exact ⟨_, rfl, intaSync_inta s p h, intaSync_touch s p, intaSync_of_same s p⟩
  · have hexec := exec_regulatorUpdate_of_up s h
    refine ⟨_, hexec, Touches.viaNext hexec (execRegulatorUpdate_touch s), fun r => ?_, fun r => ?_⟩
    · rw [requestsForgotten_region]
      exact ⟨rfl, rfl⟩
    · rw [requestsForgotten_region]
  · have hexec := exec_counterPush_of_awake s r h
    exact ⟨_, hexec, pushCounts_counts s r, Touches.viaNext hexec (execCounterPush_touch r s), fun p k n hone hk =>
      pushCounts_one s r p k n hone hk⟩

end Sys2Proof.Machine
end

section
/-! PROOFS. Requests, refresh, patrol and the imbalance monitor of the DRAM (R328 to R337): O52. -/

namespace Sys2Proof.Machine

open Sys2Proof (Instr Word Bytes Byte)

theorem pc_enqueue (s : State) (i : Nat) (e : QReq) : (enqueue s i e).pc i = { s.pc i with queue := (s.pc i).queue ++ [e] } :=
  pc_upd s i (fun p => { p with queue := p.queue ++ [e] })

theorem pc_pcCount (s : State) (i k n : Nat) : (pcCount s i k n).pc i = { s.pc i with ctr := bump (s.pc i).ctr k n } := pc_upd ..

theorem raiseLog_dram (s : State) (u : Nat) : (raiseLog s u).dram = s.dram :=
  Touches.dram_eq (raiseLog_touch ..) (by decide) (by decide)

theorem alarmIf_dram (c : Prop) [Decidable c] (s : State) (u n : Nat) : (if c then raiseAlarm s u n else s).dram = s.dram := by
  split
  · exact Touches.dram_eq (raiseAlarm_touch ..) (by decide) (by decide)
  · rfl

/-! ### Requests -/

/-- A request beyond the stacks in service answered with an error, and recorded. -/
def beyondStacks (s : State) (r : DramReq) : State := raiseLog (respond s r [] true) (dmcUnit (32 * (stacksUp s).headD 0))

theorem exec_dramRequest_of_beyond (s : State) (r : DramReq) (ecc : Ecc) (h : dramBytes s ≤ r.addr) :
    exec (.dramRequest r ecc) s = .next (beyondStacks s r) := by
  rw [exec_dramRequest, execDramRequest, if_pos h]
  rfl

theorem beyondStacks_dram (s : State) (r : DramReq) :
    mget (beyondStacks s r).dram.resp r.router = ⟨r.addr, [], true⟩ ∧ (beyondStacks s r).dram.mem = s.dram.mem := by
  unfold beyondStacks
  rw [raiseLog_dram]
  exact ⟨mget_mput_self .., rfl⟩

/-- Request `q` waits for credit at its pseudo-channel. -/
def awaitsCredit (u : State) (q : DramReq) (ecc : Ecc) : State :=
  u.updPc (reqPc u q) (fun p => { p with waiting := p.waiting ++ [(q, ecc)] })

theorem exec_dramRequest_of_within (s u : State) (r q : DramReq) (ecc : Ecc) (h : r.addr < dramBytes s)
    (hq : profileReq s r = (q, u)) : exec (.dramRequest r ecc) s =
      .next (if hasCredit (u.pc (reqPc u q)) q = true ∧ (u.pc (reqPc u q)).waiting = [] then acceptReq u q ecc
        else awaitsCredit u q ecc) := by
  rw [exec_dramRequest, execDramRequest, if_neg (by omega), hq, apply_ite Host.Outcome.next]
  simp only [Bool.and_eq_true, List.isEmpty_iff]
  rfl

theorem acceptReq_of_read (u : State) (q : DramReq) (ecc : Ecc) (w : QReq)
    (hw : queuedWrite (u.pc (reqPc u q)) (mkEntry u q ecc).burst = some w) (hread : q.write = false) :
    acceptReq u q ecc = respond (pcCount u (reqPc u q) 6 1) q w.req.data false := by
  unfold acceptReq
  dsimp only
  rw [hw]
  dsimp only
  rw [if_pos (by rw [hread]; rfl)]

theorem acceptReq_of_whole (u : State) (q : DramReq) (ecc : Ecc) (hwhole : q.write = false ∨ (reqMask q).length = 32)
    (hqueued : queuedWrite (u.pc (reqPc u q)) (mkEntry u q ecc).burst = none ∨ q.write = true) :
    acceptReq u q ecc = enqueue u (reqPc u q) (mkEntry u q ecc) := by
  have hpartial : (q.write && decide ((reqMask q).length < 32)) = false := by
    rcases hwhole with h | h
    · rw [h, Bool.false_and]
    · rw [h]
      exact Bool.and_false _
  unfold acceptReq
  dsimp only
  cases hw : queuedWrite (u.pc (reqPc u q)) (mkEntry u q ecc).burst with
  | none =>
    dsimp only
    rw [if_neg (by rw [hpartial]; decide)]
  | some w =>
    have hwrite : q.write = true := hqueued.resolve_left (by rw [hw]; nofun)
    have hlen : (reqMask q).length = 32 := hwhole.resolve_left (by rw [hwrite]; decide)
    dsimp only
    rw [if_neg (by rw [hwrite]; decide), if_neg (by omega)]

/-- What a request within the stacks does, by its credit and by the writes that its queue holds. -/
theorem dramRequest_facts (s u : State) (r q : DramReq) (ecc : Ecc) (h : r.addr < dramBytes s) (hq : profileReq s r = (q, u)) :
    ∃ t, exec (.dramRequest r ecc) s = .next t ∧
      (hasCredit (u.pc (reqPc u q)) q = false ∨ (u.pc (reqPc u q)).waiting ≠ [] →
        (t.pc (reqPc u q)).waiting = (u.pc (reqPc u q)).waiting ++ [(q, ecc)] ∧
        (t.pc (reqPc u q)).queue = (u.pc (reqPc u q)).queue) ∧
      (hasCredit (u.pc (reqPc u q)) q = true → (u.pc (reqPc u q)).waiting = [] → ∀ w,
        queuedWrite (u.pc (reqPc u q)) (mkEntry u q ecc).burst = some w → q.write = false →
        mget t.dram.resp q.router = ⟨q.addr, w.req.data, false⟩ ∧ (t.pc (reqPc u q)).queue = (u.pc (reqPc u q)).queue) ∧
      (hasCredit (u.pc (reqPc u q)) q = true → (u.pc (reqPc u q)).waiting = [] →
        (q.write = false ∨ (reqMask q).length = 32) →
        (queuedWrite (u.pc (reqPc u q)) (mkEntry u q ecc).burst = none ∨ q.write = true) → (reqMask q).length ≤ 32 →
        (t.pc (reqPc u q)).queue = (u.pc (reqPc u q)).queue ++ [mkEntry u q ecc]) := by
  refine ⟨_, exec_dramRequest_of_within s u r q ecc h hq, fun hwaits => ?_, fun hcredit hnone w hw hread => ?_,
    fun hcredit hnone hwhole hqueued _ => ?_⟩
  · have hnot : ¬(hasCredit (u.pc (reqPc u q)) q = true ∧ (u.pc (reqPc u q)).waiting = []) := by
      rintro ⟨hcredit, hnone⟩
      rcases hwaits with hc | hw
      · rw [hcredit] at hc
        cases hc
      · exact hw hnone
    rw [if_neg hnot, awaitsCredit, pc_upd]
    exact ⟨rfl, rfl⟩
  · rw [if_pos ⟨hcredit, hnone⟩, acceptReq_of_read u q ecc w hw hread]
    refine ⟨mget_mput_self .., ?_⟩
    show ((pcCount u (reqPc u q) 6 1).pc (reqPc u q)).queue = _
    rw [pc_pcCount]
  · rw [if_pos ⟨hcredit, hnone⟩, acceptReq_of_whole u q ecc hwhole hqueued, pc_enqueue]

/-! ### Refresh, idle rows and patrol -/

/-- A refresh has closed the row of a bank, and is counted. -/
def bankRefreshed (s : State) (i bank : Nat) : State :=
  pcCount (s.updPc i (fun p => { p with banks := mupd p.banks bank (fun b => { b with openRow := 0 }) })) i 9 1

theorem bankRefreshed_pc (s : State) (i bank : Nat) : (mget ((bankRefreshed s i bank).pc i).banks bank).openRow = 0 ∧
    mget ((bankRefreshed s i bank).pc i).ctr 9 = satAdd (2 ^ 64 - 1) (mget (s.pc i).ctr 9) 1 := by
  unfold bankRefreshed
  rw [pc_pcCount, pc_upd]
  dsimp only
  rw [mget_mupd_self]
  exact ⟨rfl, mget_bump_self ..⟩

/-- A bank whose open row, if it has one, its idle timer closes at `now`. -/
def rowClosed (now : Nat) (b : Bank) : Bank :=
  if b.openRow = 0 then b else { b with openRow := 0, closedRow := b.openRow, closedAt := now }

theorem rowClosed_facts (now : Nat) (b : Bank) : (rowClosed now b).openRow = 0 ∧ (rowClosed now b).tb = b.tb := by
  unfold rowClosed
  split
  · rename_i h
    exact ⟨h, rfl⟩
  · exact ⟨rfl, rfl⟩

/-- The idle timer has closed the row of a bank. -/
def bankIdle (s : State) (i bank : Nat) : State :=
  s.updPc i (fun p => { p with banks := mupd p.banks bank (rowClosed s.now) })

theorem exec_bankIdleTimeout_eq (s : State) (i bank : Nat) : exec (.bankIdleTimeout i bank) s = .next (bankIdle s i bank) := rfl

theorem bankIdle_pc (s : State) (i bank : Nat) : (mget ((bankIdle s i bank).pc i).banks bank).openRow = 0 ∧
    (mget ((bankIdle s i bank).pc i).banks bank).tb = (mget (s.pc i).banks bank).tb ∧
    ((bankIdle s i bank).pc i).queue = (s.pc i).queue := by
  obtain ⟨hopen, htb⟩ := rowClosed_facts s.now (mget (s.pc i).banks bank)
  unfold bankIdle
  rw [pc_upd]
  dsimp only
  rw [mget_mupd_self]
  exact ⟨hopen, htb, rfl⟩

/-- A patrol read has moved on to the next burst, and is counted. -/
def patrolled (s : State) (i : Nat) : State :=
  pcCount (s.updPc i (fun p => { p with patrolNext := (p.patrolNext + 1) % patrolBursts })) i 7 1

theorem patrolled_pc (s : State) (i : Nat) : ((patrolled s i).pc i).patrolNext = ((s.pc i).patrolNext + 1) % 25165824 ∧
    mget ((patrolled s i).pc i).ctr 7 = satAdd (2 ^ 64 - 1) (mget (s.pc i).ctr 7) 1 := by
  unfold patrolled
  rw [pc_pcCount, pc_upd]
  exact ⟨rfl, mget_bump_self ..⟩

theorem patrolled_touch (s : State) (i : Nat) : Touches [.dram] s (patrolled s i) :=
  (State.updPc_touch s i (fun p => { p with patrolNext := (p.patrolNext + 1) % patrolBursts })).trans (pcCount_touch ..)

theorem eccUncorrectable_ueAddr (s : State) (i a : Nat) : (eccUncorrectable s i a).dram.ueAddr = a := by
  unfold eccUncorrectable
  dsimp only
  rw [alarmIf_dram, raiseLog_dram]

/-- A patrol read has found an error that cannot be corrected. -/
def patrolFailed (s : State) (i : Nat) : State := eccUncorrectable (patrolled s i) i (patrolAddr s i (s.pc i).patrolNext)

theorem exec_patrolRead_uncorrectable (s : State) (i : Nat) : exec (.patrolRead i .uncorrectable) s = .next (patrolFailed s i) ∨
    ∃ b, exec (.patrolRead i .uncorrectable) s = .next (quarantine (patrolFailed s i) b) := by
  rw [exec_patrolRead]
  unfold execPatrolRead
  extract_lets a u v w
  have hw : w = patrolFailed s i := rfl
  rw [← hw]
  clear_value w
  dsimp only
  split
  · exact .inl rfl
  · exact .inr ⟨_, rfl⟩

theorem patrolRead_bad (s : State) (i : Nat) : ∃ t, exec (.patrolRead i .uncorrectable) s = .next t ∧
    t.dram.ueAddr = patrolAddr s i (s.pc i).patrolNext := by
  have hue : (patrolFailed s i).dram.ueAddr = _ := eccUncorrectable_ueAddr ..
  rcases exec_patrolRead_uncorrectable s i with hexec | ⟨b, hexec⟩
  · exact ⟨_, hexec, hue⟩
  · refine ⟨_, hexec, ?_⟩
    rw [Touches.dram_eq (quarantine_touch ..) (by decide) (by decide), hue]

/-! ### The imbalance monitor -/

/-- The window counted: its hot pseudo-channels, the streak, and the counts of the next window at 0. -/
def windowCounted (s : State) (hot : List Nat) : State :=
  let s := countHot hot s
  { s with dram := { s.dram with
    streak := if hot.isEmpty then 0 else min 255 (s.dram.streak + 1), hotPc := hot.headD s.dram.hotPc
    sinceRaise := s.dram.sinceRaise + 1, pcs := mmap s.dram.pcs (fun _ p => { p with served := 0, busy := 0 }) } }

/-- The streak and the time since the last epoch raise it. -/
def epochDue (s : State) : Bool := 64 ≤ s.dram.streak && (s.dram.raisedAt == 0 || 1000 ≤ s.dram.sinceRaise)

theorem exec_imbalanceWindow_eq (s : State) : exec .imbalanceWindow s =
    .next (if epochDue (windowCounted s ((pcsUp s).filter (pcHot s))) = true
      then raiseEpoch (windowCounted s ((pcsUp s).filter (pcHot s))) else windowCounted s ((pcsUp s).filter (pcHot s))) := by
  rw [exec_imbalanceWindow, execImbalanceWindow, apply_ite Host.Outcome.next]
  rfl

theorem windowCounted_pc (s : State) (hot : List Nat) (i : Nat) :
    ((windowCounted s hot).pc i).served = 0 ∧ ((windowCounted s hot).pc i).busy = 0 := by
  have hpc : (windowCounted s hot).pc i = { (countHot hot s).pc i with served := 0, busy := 0 } :=
    mget_mmap (countHot hot s).dram.pcs (fun _ p => { p with served := 0, busy := 0 }) i rfl
  rw [hpc]
  exact ⟨rfl, rfl⟩

theorem windowCounted_dram (s : State) (hot : List Nat) :
    (windowCounted s hot).dram.streak = (if hot.isEmpty then 0 else min 255 (s.dram.streak + 1)) ∧
      (windowCounted s hot).dram.epoch = s.dram.epoch ∧ (windowCounted s hot).dram.raisedAt = s.dram.raisedAt ∧
      (windowCounted s hot).dram.sinceRaise = s.dram.sinceRaise + 1 := by
  obtain ⟨hstreak, hepoch, hraised, hsince⟩ := countHot_same hot s
  unfold windowCounted
  dsimp only
  rw [hstreak, hepoch, hraised, hsince]
  exact ⟨rfl, rfl, rfl, rfl⟩

theorem raiseEpoch_dram (s : State) : (raiseEpoch s).dram.streak = 0 ∧ (raiseEpoch s).dram.epoch = (s.dram.epoch + 1) % 2 ^ 16 ∧
    (raiseEpoch s).dram.pcs = s.dram.pcs := by
  unfold raiseEpoch
  dsimp only
  rw [alarmIf_dram, raiseLog_dram]
  exact ⟨rfl, rfl, rfl⟩

theorem hot_isEmpty_iff (s : State) : ((pcsUp s).filter (pcHot s)).isEmpty = true ↔ ∀ pc ∈ pcsUp s, pcHot s pc = false := by
  rw [List.isEmpty_iff, List.filter_eq_nil_iff]
  exact forall₂_congr fun _ _ => by rw [Bool.not_eq_true]

theorem epochDue_iff (s : State) : epochDue s = true ↔ 64 ≤ s.dram.streak ∧ (s.dram.raisedAt = 0 ∨ 1000 ≤ s.dram.sinceRaise) := by
  unfold epochDue
  rw [Bool.and_eq_true, Bool.or_eq_true, decide_eq_true_eq, decide_eq_true_eq, beq_iff_eq]

theorem imbalanceWindow_facts (s : State) : ∃ t, exec .imbalanceWindow s = .next t ∧
    (∀ pc, (t.pc pc).served = 0 ∧ (t.pc pc).busy = 0) ∧
    ((∀ pc ∈ pcsUp s, pcHot s pc = false) → t.dram.streak = 0 ∧ t.dram.epoch = s.dram.epoch) ∧
    ((∃ pc ∈ pcsUp s, pcHot s pc = true) →
      (s.dram.streak + 1 < 64 → t.dram.streak = s.dram.streak + 1 ∧ t.dram.epoch = s.dram.epoch) ∧
      (64 ≤ s.dram.streak + 1 → s.dram.raisedAt = 0 ∨ 1000 ≤ s.dram.sinceRaise + 1 →
        t.dram.streak = 0 ∧ t.dram.epoch = (s.dram.epoch + 1) % 2 ^ 16)) := by
  have hempty := hot_isEmpty_iff s
  have hexec := exec_imbalanceWindow_eq s
  generalize (pcsUp s).filter (pcHot s) = hot at hempty hexec
  obtain ⟨hstreak, hepoch, hraised, hsince⟩ := windowCounted_dram s hot
  have hdue := epochDue_iff (windowCounted s hot)
  rw [hraised, hsince] at hdue
  obtain ⟨hstreak', hepoch', hpcs'⟩ := raiseEpoch_dram (windowCounted s hot)
  rw [hepoch] at hepoch'
  refine ⟨_, hexec, fun pc => ?_, fun hnone => ?_, fun hsome => ?_⟩
  · split
    · unfold State.pc
      rw [hpcs']
      exact windowCounted_pc s hot pc
    · exact windowCounted_pc s hot pc
  · rw [if_pos (hempty.2 hnone)] at hstreak
    rw [if_neg (by rw [hdue]; omega)]
    exact ⟨hstreak, hepoch⟩
  · have hhot : ¬hot.isEmpty = true := by
      rw [hempty]
      obtain ⟨pc, hmem, hpc⟩ := hsome
      intro hnone
      rw [hnone pc hmem] at hpc
      cases hpc
    rw [if_neg hhot] at hstreak
    refine ⟨fun hlt => ?_, fun hge htime => ?_⟩
    · rw [if_neg (by rw [hdue]; omega)]
      exact ⟨by omega, hepoch⟩
    · rw [if_pos (hdue.2 ⟨by omega, htime⟩)]
      exact ⟨hstreak', hepoch'⟩

/-- Settles O52. -/
theorem dramControllerCommands : Obligations.DramControllerCommands := by
  unfold Obligations.DramControllerCommands
  refine ⟨fun r ecc s h => ⟨_, exec_dramRequest_of_beyond s r ecc h, beyondStacks_dram s r⟩,
    fun r q ecc s u h hq => dramRequest_facts s u r q ecc h hq, fun pc bank s => ?_, fun pc bank s => ?_, fun pc s => ?_,
    fun pc s => ?_, imbalanceWindow_facts⟩
  · obtain ⟨hopen, hcount⟩ := bankRefreshed_pc s pc bank
    exact ⟨bankRefreshed s pc bank, rfl, hopen, hcount, (State.updPc_touch ..).trans (pcCount_touch ..)⟩
  · obtain ⟨hopen, htb, hqueue⟩ := bankIdle_pc s pc bank
    exact ⟨_, exec_bankIdleTimeout_eq s pc bank, hopen, htb, hqueue, State.updPc_touch ..⟩
  · obtain ⟨hnext, hcount⟩ := patrolled_pc s pc
    exact ⟨patrolled s pc, rfl, hnext, hcount, patrolled_touch s pc⟩
  · obtain ⟨t, hexec, hue⟩ := patrolRead_bad s pc
    exact ⟨t, hexec, hue, Touches.mem_eq (Touches.viaNext hexec (execPatrolRead_touch pc .uncorrectable s)) (by decide)⟩

end Sys2Proof.Machine
end

section
/-! PROOFS. Allocation, free, share and idle zeroing of buffers (R341 to R346): O53. -/

namespace Sys2Proof.Machine

open Sys2Proof (Instr Word Bytes Byte)

theorem descOf_congr {s t : State} (hb : t.bpm = s.bpm) (hs : t.scu = s.scu) (a : Nat) : descOf t a = descOf s a := by
  unfold descOf groupSaltOf groupOf nLog2
  rw [hb, hs]

/-! ### Allocation -/

/-- The salt of the group of buffer `a` drawn, and the buffer zeroed where it must be. -/
def bufferSalted (s : State) (who k a : Nat) (zero : Bool) : State :=
  let salt := (saltGroup s (groupOf s a)).1
  let u := (saltGroup s (groupOf s a)).2
  if zero || salt != groupSaltOf s (groupOf s a) then bpmCount (dramZero u a salt (poSize (cfgPool u.run k) / 256)) who k 6 else u

/-- Buffer `a` of pool `k` taken for `who`. -/
def bufferTaken (s : State) (who k a salt : Nat) : State :=
  let i := (a - poolBase s.run k) / poSize (cfgPool s.run k)
  let s := setDesc s a (descWord 1 (2 ^ who) (dLast (descOf s a)) salt)
  { s with bpm := { s.bpm with
    charged := mput s.bpm.charged a who
    freed := mupd s.bpm.freed k (·.filter (· != a))
    zeroed := s.bpm.zeroed.filter (· != a)
    fresh := mupd s.bpm.fresh k (fun n => if n ≤ i && (mget s.bpm.freed k).all (· != a) then i + 1 else n)
    answer := some (a, salt) } }

theorem bpmAlloc_of_chosen (s : State) (who k a : Nat) (zero : Bool) (hw : allocWithin s who k = true)
    (hc : chooseBuffer s who k = some (a, zero)) : bpmAlloc s who k = (some a, poolWarn (bpmCount
      (bufferTaken (bufferSalted s who k a zero) who k a (saltGroup s (groupOf s a)).1) who k 0) k) := by
  unfold bpmAlloc
  rw [if_neg (by simp [hw]), hc]
  rfl

theorem bpmAlloc_of_refused (s : State) (who k : Nat) (hw : allocWithin s who k = false) :
    bpmAlloc s who k = (none, allocRefuse s who k 2) := by
  rw [bpmAlloc, if_pos (by simp [hw])]

theorem bufferSalted_touch (s : State) (who k a : Nat) (zero : Bool) :
    Touches [.parts, .mem] (saltGroup s (groupOf s a)).2 (bufferSalted s who k a zero) := by
  unfold bufferSalted
  dsimp only
  generalize (saltGroup s (groupOf s a)).2 = u
  refine Touches.ite ?_ (Touches.refl _)
  exact ((dramZero_touch ..).sub (by decide)).trans ((bpmCount_touch ..).sub (by decide))

theorem bufferSalted_desc (s : State) (who k a : Nat) (zero : Bool) :
    descOf (bufferSalted s who k a zero) a = descOf (saltGroup s (groupOf s a)).2 a :=
  descOf_congr (Touches.bpm_eq (bufferSalted_touch ..) (by decide)) (Touches.scu_eq (bufferSalted_touch ..) (by decide)) a

/-- The pool's state with a warning aside. -/
theorem poolWarn_count_bpm (s : State) (who i k : Nat) : ∃ w, (poolWarn (bpmCount s who k i) k).bpm = { s.bpm with warn := w } := by
  obtain ⟨w, hw⟩ := poolWarn_bpm (bpmCount s who k i) k
  exact ⟨w, by rw [hw, bpmCount_bpm]⟩

theorem bufferTaken_bpm (s : State) (who k a salt : Nat) : (bufferTaken s who k a salt).bpm.answer = some (a, salt) ∧
    mget (bufferTaken s who k a salt).bpm.charged a = who ∧
    mfind (bufferTaken s who k a salt).bpm.desc a = some (descWord 1 (2 ^ who) (dLast (descOf s a)) salt) ∧
    a ∉ mget (bufferTaken s who k a salt).bpm.freed k ∧ a ∉ (bufferTaken s who k a salt).bpm.zeroed := by
  refine ⟨rfl, mget_mput_self .., mfind_mput_self .., ?_, ?_⟩
  · show a ∉ mget (mupd s.bpm.freed k (·.filter (· != a))) k
    rw [mget_mupd_self]
    simp [List.mem_filter]
  · show a ∉ s.bpm.zeroed.filter (· != a)
    simp [List.mem_filter]

/-! ### Free and share -/

theorem bpmRelease_of_last (s : State) (who a k : Nat) (hk : bufferStart s a = some k) (hst : dState (descOf s a) ≠ 0)
    (ho : dOwners (descOf s a) = 2 ^ who) : bpmRelease s who a = clearOwner s who a k := by
  have hone : dOwners (descOf s a) / 2 ^ who % 2 ≠ 0 := by
    rw [ho, Nat.div_self (Nat.two_pow_pos who)]
    decide
  unfold bpmRelease
  rw [hk]
  dsimp only
  rw [if_neg hst, if_neg hone]

/-- Buffer `a` back in pool `k`, with no owner. -/
def bufferReturned (s : State) (who a k : Nat) : State :=
  let u := setDesc { s with bpm := { s.bpm with charged := mdel s.bpm.charged a } } a (descWord 0 0 who (dSalt (descOf s a)))
  { u with bpm := { u.bpm with freed := mupd u.bpm.freed k (a :: ·) } }

theorem clearOwner_of_last (s : State) (who a k : Nat) (ho : dOwners (descOf s a) = 2 ^ who) (hq : a ∉ s.bpm.pendingQuar) :
    clearOwner s who a k = poolWarn (bpmCount (bufferReturned s who a k) who k 1) k := by
  unfold clearOwner
  dsimp only
  rw [lastOwner_sub _ who ho, if_neg (not_not_intro rfl), if_neg (by rw [List.contains_iff_mem]; exact hq)]
  rfl

theorem bufferReturned_bpm (s : State) (who a k : Nat) :
    mfind (bufferReturned s who a k).bpm.desc a = some (descWord 0 0 who (dSalt (descOf s a))) ∧
    mget (bufferReturned s who a k).bpm.freed k = a :: mget s.bpm.freed k ∧
    mfind (bufferReturned s who a k).bpm.charged a = none :=
  ⟨mfind_mput_self .., mget_mupd_self .., mfind_mdel_self ..⟩

theorem bpmRelease_of_other (s : State) (who a k : Nat) (hk : bufferStart s a = some k)
    (ho : dOwners (descOf s a) / 2 ^ who % 2 = 0) : (bpmRelease s who a).bpm = s.bpm := by
  unfold bpmRelease
  rw [hk]
  dsimp only
  split
  · rw [Touches.bpm_eq (raiseLogOf_touch ..) (by decide), bpmCount_bpm]
  · rw [Touches.bpm_eq (raiseLogOf_touch ..) (by decide), bpmCount_bpm]

theorem bpmShareOp_of_owner (s : State) (who a k owners : Nat) (hk : bufferStart s a = some k) (hst : dState (descOf s a) ≠ 0)
    (ho : dOwners (descOf s a) / 2 ^ who % 2 = 1) : bpmShareOp s who a owners =
      setDesc s a (descWord 2 ((dOwners (descOf s a) ||| owners) % 512) (dLast (descOf s a)) (dSalt (descOf s a))) := by
  unfold bpmShareOp
  rw [hk]
  dsimp only
  rw [if_neg (by simp [ho, hst])]

/-! ### Idle zeroing -/

/-- Buffer `a` of pool `k` zeroed while it is free. -/
def bufferZeroed (s : State) (k a : Nat) : State :=
  let u := dramZero s a (dSalt (descOf s a)) (poSize (cfgPool s.run k) / 256)
  { u with bpm := { u.bpm with zeroed := u.bpm.zeroed ++ [a] } }

theorem exec_bpmZeroIdle_of_unzeroed (s : State) (k a : Nat) (l : List Nat) (h : poolUnzeroed s k = a :: l) :
    exec (.bpmZeroIdle k) s = .next (bufferZeroed s k a) := by
  rw [exec_bpmZeroIdle, execBpmZeroIdle, h]
  rfl

theorem exec_bpmZeroIdle_of_none (k : Nat) (s : State) (h : poolUnzeroed s k = []) : exec (.bpmZeroIdle k) s = .next s := by
  rw [exec_bpmZeroIdle, execBpmZeroIdle, h]

theorem bufferZeroed_bpm (s : State) (k a : Nat) : (bufferZeroed s k a).bpm = { s.bpm with zeroed := s.bpm.zeroed ++ [a] } := by
  unfold bufferZeroed
  dsimp only
  rw [Touches.bpm_eq (dramZero_touch ..) (by decide)]

/-- Settles O53. -/
theorem bufferPoolCommands : Obligations.BufferPoolCommands := by
  unfold Obligations.BufferPoolCommands
  refine ⟨?_, ?_, ?_, ?_, ?_, ?_, exec_bpmZeroIdle_of_none⟩
  · intro who k a zero s hw hc
    have hexec : exec (.bpmAllocate who k) s = .next (bpmAlloc s who k).2 := rfl
    rw [bpmAlloc_of_chosen s who k a zero hw hc] at hexec
    obtain ⟨w, hbpm⟩ := poolWarn_count_bpm
      (bufferTaken (bufferSalted s who k a zero) who k a (saltGroup s (groupOf s a)).1) who 0 k
    refine ⟨_, (saltGroup s (groupOf s a)).1, hexec, ?_⟩
    dsimp only
    rw [hbpm, ← bufferSalted_desc s who k a zero]
    exact bufferTaken_bpm ..
  · intro who k s hw
    have hexec : exec (.bpmAllocate who k) s = .next (bpmAlloc s who k).2 := rfl
    rw [bpmAlloc_of_refused s who k hw] at hexec
    exact ⟨_, hexec, bpmCount_bpm .., allocRefuse_touch ..⟩
  · intro who a k s hk hst ho hq
    obtain ⟨w, hbpm⟩ := poolWarn_count_bpm (bufferReturned s who a k) who 1 k
    refine ⟨_, bpmRelease s who a, rfl, rfl, ?_⟩
    rw [bpmRelease_of_last s who a k hk hst ho, clearOwner_of_last s who a k ho hq, hbpm]
    exact bufferReturned_bpm s who a k
  · intro who a k s hk ho
    exact ⟨_, bpmRelease s who a, rfl, rfl, bpmRelease_of_other s who a k hk ho⟩
  · intro who a k owners s hk hst ho
    have hexec : exec (.bpmShare who a owners) s = .next (bpmShareOp s who a owners) := rfl
    rw [bpmShareOp_of_owner s who a k owners hk hst ho] at hexec
    exact ⟨_, hexec, setDesc_touch .., mfind_mput_self ..⟩
  · intro k a l s h
    have hexec := exec_bpmZeroIdle_of_unzeroed s k a l h
    exact ⟨_, hexec, bufferZeroed_bpm s k a, Touches.viaNext hexec (execBpmZeroIdle_touch k s)⟩

end Sys2Proof.Machine
end

section
/-! PROOFS. Poisoned data, by its receiver (R401): O54. -/

namespace Sys2Proof.Machine

open Sys2Proof (Instr Word Bytes Byte)

/-- The picture in decoding in a slot marked as poisoned by a reference. -/
def referencePoisoned (s : State) (slot : Nat) : State :=
  s.updDec slot (fun d => { d with cur := d.cur.map (fun c => { c with poisoned := true }) })

theorem exec_poisonedReference (s : State) (slot : Nat) :
    exec (.poisonedDataReceive (.reference slot)) s = .next (referencePoisoned s slot) := rfl

theorem exec_poisonedStaging_of_staged (s : State) (slot fid : Nat) (h : stagedOf s slot = some fid) :
    exec (.poisonedDataReceive (.staging slot)) s = .next (raiseLogOf (discardFrame s fid 6) uDx (slotPart s slot) slot) := by
  rw [exec_poisonedDataReceive, execPoisonedDataReceive]
  rw [h]

theorem referencePoisoned_cur (s : State) (slot : Nat) : ((referencePoisoned s slot).stream slot).dec.cur =
    (s.stream slot).dec.cur.map (fun c => { c with poisoned := true }) := by
  unfold referencePoisoned
  rw [stream_updDec]

theorem auDamage_au (s : State) (slot : Nat) (a : OpenAu) (h : (s.stream slot).ing.au = some a) :
    ((auDamage s slot).stream slot).ing.au = some { a with damaged := true } := by
  unfold auDamage
  rw [ing_upd, h]

/-- Settles O54. -/
theorem poisonedData : Obligations.PoisonedData := by
  unfold Obligations.PoisonedData
  refine fun s => ⟨fun _ => rfl, fun _ _ => rfl, fun slot c hc => ?_, fun slot a ha => ?_, fun _ => rfl,
    exec_poisonedStaging_of_staged s, fun _ _ => rfl⟩
  · refine ⟨_, exec_poisonedReference s slot, ?_, fun i hi => stream_updDec_ne s _ hi, State.updDec_touch ..⟩
    rw [referencePoisoned_cur, hc]
    rfl
  · exact ⟨_, rfl, auDamage_au s slot a ha, auDamage_touch s slot⟩

end Sys2Proof.Machine
end

section
/-! PROOFS. Grants, samples, choices, transitions, parking and waking of regions (R353 to R362, R443): O55. -/

namespace Sys2Proof.Machine

open Sys2Proof (Instr Word Bytes Byte)

/-! ### Grants and samples -/

theorem exec_tokenGrant_of_up (s : State) (h : s.pac.restarting = false) :
    exec .tokenGrant s = .next (grantAll (List.range 8) s) := by
  rw [exec_tokenGrant, execTokenGrant, if_neg (by simp [h])]

theorem grantAll_region (s : State) (r : Nat) :
    ((s.region r).awake = true → (s.region r).fenced = false → r < 8 →
      ((grantAll (List.range 8) s).region r).grant = (grantBase s (s.region r)).1 - (s.region r).overdraw ∧
        ((grantAll (List.range 8) s).region r).overdraw = 0) ∧
    ((s.region r).awake = false ∨ (s.region r).fenced = true ∨ 8 ≤ r → (grantAll (List.range 8) s).region r = s.region r) := by
  refine ⟨fun ha hf hr => grantAll_self _ List.nodup_range s r (List.mem_range.2 hr) ha hf, fun h => ?_⟩
  rcases h with h | h | h
  · exact grantAll_skip _ s r (.inl h)
  · exact grantAll_skip _ s r (.inr h)
  · exact grantAll_ne _ s r fun hmem => absurd (List.mem_range.1 hmem) (by omega)

/-- The samples `dev` and `unc` of the device entered, with their averages. -/
def deviceSampled (u : State) (dev unc : List Nat) : State :=
  let v := (freeBits 16 u).2
  { v with pac := { v.pac with
    samples := dev, uncoreSamples := unc, power := sampleAvg dev, uncore := sampleAvg unc, scale := (freeBits 16 u).1 } }

theorem deviceSampled_region (u : State) (dev unc : List Nat) (r : Nat) : (deviceSampled u dev unc).region r = u.region r := rfl

/-- The samples of a millisecond entered, for the regions and for the device. -/
def samplesEntered (m : RailSample) (s : State) : State :=
  let u := sampleRegions ((List.range 8).map (fun i => (i, m.regions.getD i 0))) s
  deviceSampled u (addSample (sumNat (m.regions.take 8) + m.other) u.pac.samples) (addSample m.other u.pac.uncoreSamples)

theorem exec_powerSample_of_up (m : RailSample) (s : State) (h : s.pac.restarting = false) :
    exec (.powerSample m) s = .next (lowerOverdrawn (List.range 8) (samplesEntered m s)) := by
  rw [exec_powerSample, execPowerSample, if_neg (by simp [h])]
  rfl

theorem samplesEntered_region (m : RailSample) (s : State) (r : Nat) (hr : r < 8) : (samplesEntered m s).region r =
    { s.region r with
      samples := addSample (m.regions.getD r 0) (s.region r).samples
      railPower := sampleAvg (addSample (m.regions.getD r 0) (s.region r).samples) } := by
  unfold samplesEntered
  dsimp only
  rw [deviceSampled_region, sampleRegions_region m _ List.nodup_range, if_pos (List.mem_range.2 hr)]

theorem samplesEntered_pac (m : RailSample) (s : State) :
    (samplesEntered m s).pac.power = sampleAvg (addSample (sumNat (m.regions.take 8) + m.other) s.pac.samples) ∧
      (samplesEntered m s).pac.uncore = sampleAvg (addSample m.other s.pac.uncoreSamples) := by
  unfold samplesEntered deviceSampled
  dsimp only
  rw [sampleRegions_pac]
  exact ⟨rfl, rfl⟩

theorem powerSample_facts (m : RailSample) (s : State) (h : s.pac.restarting = false) :
    ∃ u, exec (.powerSample m) s = .next (lowerOverdrawn (List.range 8) u) ∧
      (∀ r < 8, (u.region r).railPower = sampleAvg (addSample (m.regions.getD r 0) (s.region r).samples)) ∧
      u.pac.power = sampleAvg (addSample (sumNat (m.regions.take 8) + m.other) s.pac.samples) ∧
      u.pac.uncore = sampleAvg (addSample m.other s.pac.uncoreSamples) ∧
      ((∀ r < 8, (s.region r).overStreak < 10) → lowerOverdrawn (List.range 8) u = u) := by
  obtain ⟨hpower, huncore⟩ := samplesEntered_pac m s
  refine ⟨_, exec_powerSample_of_up m s h, fun r hr => ?_, hpower, huncore, fun hstreak => ?_⟩
  · rw [samplesEntered_region m s r hr]
  · refine lowerOverdrawn_none _ _ fun r hr => ?_
    have hr8 := List.mem_range.1 hr
    rw [samplesEntered_region m s r hr8]
    exact hstreak r hr8

/-! ### The choice of points -/

/-- The regions that are awake and in service. -/
def regionsUp (s : State) : List Nat := (List.range 8).filter (fun r => (s.region r).awake && !(s.region r).fenced)

/-- What the choice of points knows of a region with work. -/
def vfReg (s : State) (r : Nat) : VfReg := ⟨r, min (vpMin s r) (vpMax s r), vpMax s r, min (vpMin s r) (vpMax s r)⟩

/-- The points chosen: by the budget for the regions with work, and the least one for the others. -/
def vfChosen (s : State) : List (Nat × Nat × Nat) :=
  let work := (regionsUp s).filter (regionBusy s)
  let idle := (regionsUp s).filter (fun r => !regionBusy s r)
  let parked := countIf (List.range 8) (fun r => !(s.region r).awake && !(s.region r).waking)
  let scale : Fl := mulX (flInt s.pac.scale) (flPow2 (-12))
  vfChoose (vfBudget s scale idle parked) scale (work.map (vfReg s)) ++ idle.map (fun r => (r, min (vpMin s r) (vpMax s r), 1000))

/-- The points `chosen` applied, and whether the limit of the rise holds on. -/
def vfApplied (s : State) (chosen : List (Nat × Nat × Nat)) (limit : Bool) : State :=
  { vfApplyAll chosen s with pac := { (vfApplyAll chosen s).pac with riseLimit := limit } }

theorem exec_vfChoice_of_up (s : State) (h : s.pac.restarting = false) : exec .vfChoice s =
    .next (vfApplied s (vfChosen s) (s.pac.riseLimit && (vfChosen s).any (fun q => decide ((s.region q.1).vp + 1 < q.2.1)))) := by
  rw [exec_vfChoice, execVfChoice, if_neg (by simp [h])]
  rfl

theorem mem_regionsUp (s : State) (r : Nat) :
    r ∈ regionsUp s ↔ r < 8 ∧ (s.region r).awake = true ∧ (s.region r).fenced = false := by
  simp [regionsUp, List.mem_filter]

theorem vfReg_names (s : State) (l : List Nat) : (l.map (vfReg s)).map (·.n) = l := by
  rw [List.map_map]
  exact List.map_id l

/-- The budget's choice covers the regions of `l` and keeps each within its vp_max. -/
theorem vfChoose_vfReg (s : State) (b scale : Fl) (l : List Nat) (hl : l.Nodup) :
    (∀ q ∈ vfChoose b scale (l.map (vfReg s)), q.1 ∈ l ∧ q.2.1 ≤ vpMax s q.1) ∧
      (vfChoose b scale (l.map (vfReg s))).map (·.1) = l := by
  have hnames := vfReg_names s l
  have hregs : ∀ q ∈ l.map (vfReg s), q.k ≤ q.hi ∧ q.hi = vpMax s q.n := by
    intro q hq
    obtain ⟨r, _, rfl⟩ := List.mem_map.1 hq
    exact ⟨Nat.min_le_right _ _, rfl⟩
  obtain ⟨hbound, hcover⟩ := vfChoose_ok scale b (fun n hi => hi = vpMax s n) (l.map (vfReg s)) (by rw [hnames]; exact hl) hregs
  rw [hnames] at hcover
  refine ⟨fun q hq => ⟨?_, ?_⟩, hcover⟩
  · rw [← hcover]
    exact List.mem_map_of_mem hq
  · obtain ⟨hi, hle, rfl⟩ := hbound q hq
    exact hle

theorem vfChosen_bounds (s : State) (q : Nat × Nat × Nat) (h : q ∈ vfChosen s) : q.1 ∈ regionsUp s ∧ q.2.1 ≤ vpMax s q.1 := by
  have hnodup : (regionsUp s).Nodup := List.nodup_range.filter _
  rcases List.mem_append.1 h with h | h
  · obtain ⟨hmem, hle⟩ := (vfChoose_vfReg s _ _ ((regionsUp s).filter (regionBusy s)) (hnodup.filter _)).1 q h
    exact ⟨List.mem_of_mem_filter hmem, hle⟩
  · obtain ⟨r, hr, rfl⟩ := List.mem_map.1 h
    exact ⟨List.mem_of_mem_filter hr, Nat.min_le_right _ _⟩

theorem vfChosen_idle (s : State) (r : Nat) (hr : r ∈ regionsUp s) (hidle : regionBusy s r = false) :
    (r, min (vpMin s r) (vpMax s r), 1000) ∈ vfChosen s :=
  List.mem_append_right _ (List.mem_map.2 ⟨r, List.mem_filter.2 ⟨hr, by simp [hidle]⟩, rfl⟩)

theorem vfChosen_covers (s : State) (r : Nat) (hr : r ∈ regionsUp s) : ∃ q ∈ vfChosen s, q.1 = r := by
  by_cases hbusy : regionBusy s r = true
  · have hnodup : (regionsUp s).Nodup := List.nodup_range.filter _
    have hwork : r ∈ (regionsUp s).filter (regionBusy s) := List.mem_filter.2 ⟨hr, hbusy⟩
    rw [← (vfChoose_vfReg s (vfBudget s (mulX (flInt s.pac.scale) (flPow2 (-12))) ((regionsUp s).filter (fun r => !regionBusy s r))
      (countIf (List.range 8) (fun r => !(s.region r).awake && !(s.region r).waking))) (mulX (flInt s.pac.scale) (flPow2 (-12)))
      ((regionsUp s).filter (regionBusy s)) (hnodup.filter _)).2] at hwork
    obtain ⟨q, hq, rfl⟩ := List.mem_map.1 hwork
    exact ⟨q, List.mem_append_left _ hq, rfl⟩
  · exact ⟨_, vfChosen_idle s r hr (Bool.eq_false_iff.2 hbusy), rfl⟩

/-! ### Transitions -/

theorem exec_vfTransitionEnd_of_early (r : Nat) (x : Trans) (s : State) (hx : (s.region r).trans = some x)
    (h : s.now < x.vselAt + 300) : exec (.vfTransitionEnd r) s = .next s := by
  rw [exec_vfTransitionEnd, execVfTransitionEnd, hx]
  dsimp only
  rw [if_pos (show s.now < x.vselAt + transLeast from h)]

/-- The transition `x` of region `r` ended with its PGOOD high. -/
def transEnded (s : State) (r : Nat) (x : Trans) : State := transEnd (s.updRegion r (fun y => { y with pgood := true })) r x

theorem transEnded_touch (s : State) (r : Nat) (x : Trans) : Touches [.regions, .pac] s (transEnded s r x) :=
  ((State.updRegion_touch s r (fun y => { y with pgood := true })).sub (by decide)).trans (transEnd_touch ..)

theorem transEnded_region (s : State) (r : Nat) (x : Trans) : (transEnded s r x).region r =
    { s.region r with pgood := true, trans := none, vp := if x.kind = 1 then x.dest else (s.region r).vp } := by
  unfold transEnded transEnd
  dsimp only
  split
  · rw [pacCount_region, region_upd, region_upd]
  · rw [region_upd, region_upd]

theorem transEnded_restarting (s : State) (r : Nat) (x : Trans) : (transEnded s r x).pac.restarting = s.pac.restarting := by
  unfold transEnded transEnd
  dsimp only
  split <;> rfl

theorem exec_vfTransitionEnd_of_due (r : Nat) (x : Trans) (s : State) (hx : (s.region r).trans = some x)
    (h : x.vselAt + 300 ≤ s.now) : exec (.vfTransitionEnd r) s =
      .next (if s.pac.restarting then transEnded s r x else followTarget (transEnded s r x) r) := by
  rw [exec_vfTransitionEnd, execVfTransitionEnd, hx]
  dsimp only
  rw [if_neg (show ¬s.now < x.vselAt + transLeast from Nat.not_lt.2 h), ← transEnded_restarting s r x]
  rfl

/-- A raise abandoned: the region goes back to the point that it has. -/
def raiseAbandoned (s : State) (r : Nat) : State :=
  let x := s.region r
  raiseLog (s.updRegion r (fun y => { y with vsel := x.vp, target := x.vp, trans := some ⟨2, x.vp, x.vp, s.now⟩ })) (uRg + r)

theorem raiseAbandoned_region (s : State) (r : Nat) : (raiseAbandoned s r).region r = { s.region r with
    vsel := (s.region r).vp, target := (s.region r).vp, trans := some ⟨2, (s.region r).vp, (s.region r).vp, s.now⟩ } := by
  unfold raiseAbandoned
  dsimp only
  rw [Touches.region_eq (raiseLog_touch ..) (by decide), region_upd]

theorem exec_pgoodTimeout_of_due (r : Nat) (x : Trans) (s : State) (hx : (s.region r).trans = some x)
    (hp : (s.region r).pgood = false) (h : x.vselAt + 2000 ≤ s.now) : exec (.pgoodTimeout r) s =
      .next (if x.kind = 1 then raiseAbandoned s r else regionFence s r) := by
  rw [exec_pgoodTimeout, execPgoodTimeout]
  rw [hx]
  dsimp only
  have hdue : ¬s.now < x.vselAt + transBound := Nat.not_lt.2 h
  rw [if_neg (by simp [hp, hdue]), apply_ite Host.Outcome.next]
  rfl

/-- The filtered PGOOD of region `r` low. -/
def pgoodLost (s : State) (r : Nat) : State := s.updRegion r (fun x => { x with pgood := false })

theorem exec_pgoodLow_of_powered (r : Nat) (s : State) (h : (s.region r).awake = true ∨ (s.region r).waking = true) :
    exec (.pgoodLow r) s = .next (if (s.region r).trans.isSome then pgoodLost s r else regionFence (pgoodLost s r) r) := by
  have hpowered : ¬(!(s.region r).awake && !(s.region r).waking) = true := by
    rcases h with h | h <;> simp [h]
  rw [exec_pgoodLow, execPgoodLow]
  dsimp only
  rw [if_neg hpowered, apply_ite Host.Outcome.next]
  rfl

/-! ### Parking -/

/-- Region `r` with its counts pushed and its prefetched weights discarded. -/
def regionEmptied (s : State) (r : Nat) : State := shadowDiscard (pushCounts s r) r

/-- Region `r` parked. -/
def regionParked (s : State) (r : Nat) : State :=
  pacCount ((regionEmptied s r).updRegion r (fun x => { x with
    awake := false, trans := none, grant := 0, held := 0, overdraw := 0, overStreak := 0 })) 2 r 1

theorem exec_regionPark_of_allowed (r : Nat) (s : State) (h : parkAllowed s r = true) :
    exec (.regionPark r) s = .next (regionParked s r) := by
  rw [exec_regionPark, execRegionPark, if_pos h]
  rfl

theorem shadowDiscard_region (s : State) (r : Nat) : (shadowDiscard s r).region r = { s.region r with shadow := [] } := by
  unfold shadowDiscard
  dsimp only
  refine (Touches.region_eq (l := [.parts]) (Touches.foldl (fun v q => ?_) (Touches.refl _) _) (by decide) r).trans (region_upd ..)
  split
  · exact Touches.refl _
  · exact mapCount_touch ..

theorem regionEmptied_region (s : State) (r : Nat) :
    ((regionEmptied s r).region r).shadow = [] ∧ ((regionEmptied s r).region r).counts = [] := by
  unfold regionEmptied
  rw [shadowDiscard_region]
  exact ⟨rfl, pushCounts_counts s r⟩

theorem regionParked_region (s : State) (r : Nat) : (regionParked s r).region r = { (regionEmptied s r).region r with
    awake := false, trans := none, grant := 0, held := 0, overdraw := 0, overStreak := 0 } := by
  unfold regionParked
  rw [pacCount_region, region_upd]

/-! ### Waking -/

/-- A wake begun at the least point of region `r`. -/
def wakeBegun (s : State) (r : Nat) : State :=
  let v := vpMin s r
  pacCount (s.updRegion r (fun x => { x with
    waking := true, wakeDeferred := false, vsel := v, vp := v, target := v, trans := some ⟨3, v, v, s.now⟩ })) 1 r 1

/-- A wake put off for PWRBRK_N. -/
def wakePutOff (s : State) (r : Nat) : State := s.updRegion r (fun x => { x with wakeDeferred := true })

theorem wakeStart_of_parked (s : State) (r : Nat) (ha : (s.region r).awake = false) (hw : (s.region r).waking = false)
    (hf : (s.region r).fenced = false) (hp : (s.region r).pgood = true) :
    wakeStart s r = if pwrbrk s then wakePutOff s r else wakeBegun s r := by
  unfold wakeStart
  dsimp only
  rw [if_neg (by simp [ha, hw, hf])]
  by_cases hbrk : pwrbrk s = true
  · rw [if_pos hbrk, if_pos hbrk]
    rfl
  · rw [if_neg hbrk, if_neg hbrk, if_neg (by simp [hp])]
    rfl

theorem exec_regionWake_of_asked (s : State) (r : Nat) (h : s.pac.restarting = false) (hask : (holdBit s r || wakeForBatch s r) = true) :
    exec (.regionWake r) s = .next (wakeStart s r) := by
  rw [exec_regionWake, execRegionWake, if_pos (by rw [h, hask]; rfl)]

theorem wakePutOff_region (s : State) (r : Nat) : (wakePutOff s r).region r = { s.region r with wakeDeferred := true } := region_upd ..

theorem wakeBegun_region (s : State) (r : Nat) : ((wakeBegun s r).region r).waking = true ∧ ((wakeBegun s r).region r).vp = vpMin s r ∧
    ((wakeBegun s r).region r).trans = some ⟨3, vpMin s r, vpMin s r, s.now⟩ := by
  unfold wakeBegun
  dsimp only
  rw [pacCount_region, region_upd]
  exact ⟨rfl, rfl, rfl⟩

theorem wakeBegun_touch (s : State) (r : Nat) : Touches [.regions, .pac] s (wakeBegun s r) := by
  unfold wakeBegun
  dsimp only
  exact ((State.updRegion_touch ..).sub (by decide)).trans ((pacCount_touch ..).sub (by decide))

theorem exec_wakeComplete_of_ended (r : Nat) (s : State) (hw : (s.region r).waking = true)
    (h : ∀ x, (s.region r).trans = some x → (s.region r).pgood = true ∧ x.vselAt + 300 ≤ s.now) :
    exec (.wakeComplete r) s = .next (wakeFinish s r) := by
  rw [exec_wakeComplete, execWakeComplete]
  rw [hw, if_pos]
  cases hx : (s.region r).trans with
  | none => rfl
  | some x =>
    obtain ⟨hp, hdue⟩ := h x hx
    rw [hp]
    exact decide_eq_true hdue

theorem wakeFinish_region (s : State) (r : Nat) : ((wakeFinish s r).region r).awake = true ∧ ((wakeFinish s r).region r).waking = false ∧
    ((wakeFinish s r).region r).trans = none ∧ ((wakeFinish s r).region r).tokWait = 0 ∧
    ∀ p < 8, mget ((wakeFinish s r).region r).dramTok p = bucketFull ∧ mget ((wakeFinish s r).region r).nocTok p = bucketFull := by
  unfold wakeFinish
  dsimp only
  rw [region_upd]
  refine ⟨rfl, rfl, rfl, rfl, fun p hp => ?_⟩
  have hfull := mget_pairs (fun _ => bucketFull) 8 p hp
  exact ⟨hfull, hfull⟩

/-- Settles O55. -/
theorem regionPowerCommands : Obligations.RegionPowerCommands := by
  unfold Obligations.RegionPowerCommands
  refine ⟨fun s h => ?_, powerSample_facts, fun s h => ?_, exec_vfTransitionEnd_of_early, fun r x s hx h => ?_,
    fun r x s hx hp h => ?_, fun r s h => ?_, fun r s h => ?_, fun r s h hask ha hw hf hp => ?_, fun r s hw h => ?_⟩
  · exact ⟨_, exec_tokenGrant_of_up s h, grantAll_touch _ s, grantAll_region s⟩
  · refine ⟨vfChosen s, _, _, exec_vfChoice_of_up s h, rfl, fun q hq => ?_, fun r hr ha hf => ?_⟩
    · obtain ⟨hup, hle⟩ := vfChosen_bounds s q hq
      obtain ⟨hr, ha, hf⟩ := (mem_regionsUp s q.1).1 hup
      exact ⟨hr, ha, hf, hle⟩
    · have hup := (mem_regionsUp s r).2 ⟨hr, ha, hf⟩
      exact ⟨vfChosen_idle s r hup, vfChosen_covers s r hup⟩
  · exact ⟨_, exec_vfTransitionEnd_of_due r x s hx h, transEnded_touch s r x, transEnded_region s r x⟩
  · have hexec := exec_pgoodTimeout_of_due r x s hx hp h
    refine ⟨fun hk => ?_, fun hk => ?_⟩
    · rw [if_pos hk] at hexec
      exact ⟨_, hexec, raiseAbandoned_region s r⟩
    · rw [if_neg hk] at hexec
      exact hexec
  · have hexec := exec_pgoodLow_of_powered r s h
    refine ⟨pgoodLost s r, rfl, fun hx => ?_, fun hx => ?_⟩
    · rw [if_pos hx] at hexec
      exact hexec
    · rw [if_neg (by rw [hx]; decide)] at hexec
      exact hexec
  · obtain ⟨hshadow, hcounts⟩ := regionEmptied_region s r
    have hregion := regionParked_region s r
    exact ⟨_, exec_regionPark_of_allowed r s h, by rw [hregion], by rw [hregion], by rw [hregion], by rw [hregion],
      by rw [hregion]; exact hshadow, by rw [hregion]; exact hcounts⟩
  · have hexec := exec_regionWake_of_asked s r h hask
    rw [wakeStart_of_parked s r ha hw hf hp] at hexec
    cases hbrk : pwrbrk s with
    | true =>
      rw [hbrk] at hexec
      exact ⟨_, hexec, (State.updRegion_touch ..).sub (by decide), fun _ => wakePutOff_region s r, nofun⟩
    | false =>
      rw [hbrk] at hexec
      exact ⟨_, hexec, wakeBegun_touch s r, nofun, fun _ => wakeBegun_region s r⟩
  · have hexec := exec_wakeComplete_of_ended r s hw h
    exact ⟨_, hexec, Touches.viaNext hexec (execWakeComplete_touch r s), wakeFinish_region s r⟩

end Sys2Proof.Machine
end

section
/-! PROOFS. Board inputs and temperatures (R363 to R368): O56. -/

namespace Sys2Proof.Machine

open Sys2Proof (Instr Word Bytes Byte)

/-! ### PWRBRK_N and THERM_IN_N -/

/-- The grant that an awake region has while PWRBRK_N is asserted. -/
def reserveGrant (x : Region) : Region := if x.awake && !x.fenced then { x with grant := 2 } else x

/-- PWRBRK_N asserted, with every awake region at the reserve's grant. -/
def pwrbrkRisen (s : State) : State := { inputRise s 0 with regions := mmap s.regions (fun _ x => reserveGrant x) }

theorem exec_pwrbrkAssert_eq (s : State) : exec .pwrbrkAssert s = .next (forceAll 0 (List.range 8) (pwrbrkRisen s)) := rfl

theorem exec_thermInAssert_eq (s : State) : exec .thermInAssert s = .next (forceAll 0 (List.range 8) (inputRise s 1)) := rfl

theorem pwrbrkRisen_region (s : State) (r : Nat) : (pwrbrkRisen s).region r = reserveGrant (s.region r) :=
  mget_mmap s.regions (fun _ x => reserveGrant x) r rfl

theorem reserveGrant_grant (x : Region) (ha : x.awake = true) (hf : x.fenced = false) : (reserveGrant x).grant = 2 := by
  rw [reserveGrant, if_pos (by simp [ha, hf])]

theorem reserveGrant_usable (x : Region) (h : railUsable x) : railUsable (reserveGrant x) := by
  unfold reserveGrant
  split <;> exact h

theorem reserveGrant_lowers (x : Region) (h : canLower x) : canLower (reserveGrant x) := by
  unfold reserveGrant
  split <;> exact h

theorem forceAll_inputs (vq : Nat) (l : List Nat) (s : State) : (forceAll vq l s).aon.inputs = s.aon.inputs :=
  Touches.inputs_eq (forceAll_touch ..) (by decide)

theorem pwrbrkAssert_facts (s : State) (h : ∀ r < 8, railUsable (s.region r)) :
    ∃ t, exec .pwrbrkAssert s = .next t ∧ (mget t.aon.inputs 0).active = true ∧
      ∀ r < 8, canLower (s.region r) → (t.region r).vp = 0 ∧ ((s.region r).awake = true → (t.region r).grant = 2) := by
  refine ⟨_, exec_pwrbrkAssert_eq s, ?_, fun r hr hlow => ?_⟩
  · rw [forceAll_inputs]
    exact inputRise_active s 0
  · have husable : ∀ q ∈ List.range 8, railUsable ((pwrbrkRisen s).region q) := by
      intro q hq
      rw [pwrbrkRisen_region]
      exact reserveGrant_usable _ (h q (List.mem_range.1 hq))
    obtain ⟨hvp, hgrant⟩ := forceAll_low (List.range 8) (pwrbrkRisen s) husable r (List.mem_range.2 hr)
    rw [pwrbrkRisen_region] at hvp hgrant
    refine ⟨hvp (.inr (reserveGrant_lowers _ hlow)), fun ha => ?_⟩
    rw [hgrant]
    exact reserveGrant_grant _ ha hlow.1

theorem thermInAssert_facts (s : State) (h : ∀ r < 8, railUsable (s.region r)) :
    ∃ t, exec .thermInAssert s = .next t ∧ (mget t.aon.inputs 1).active = true ∧
      ∀ r < 8, canLower (s.region r) → (t.region r).vp = 0 := by
  refine ⟨_, exec_thermInAssert_eq s, ?_, fun r hr hlow => ?_⟩
  · rw [forceAll_inputs]
    exact inputRise_active s 1
  · have hvp := (forceAll_low (List.range 8) (inputRise s 1) (fun q hq => h q (List.mem_range.1 hq)) r (List.mem_range.2 hr)).1
    exact hvp (.inr hlow)

theorem exec_pwrbrkRelease_of_active (s : State) (h : pwrbrk s = true) : exec .pwrbrkRelease s = .next (pwrbrkFall s) := by
  rw [exec_pwrbrkRelease, execPwrbrkRelease, if_pos h]

theorem exec_thermInRelease_of_active (s : State) (h : therm s = true) : exec .thermInRelease s = .next (thermFall s) := by
  rw [exec_thermInRelease, execThermInRelease, if_pos h]

/-! ### Temperatures -/

/-- The reading of a sensor recorded, and the trip asserted at 125 °C. -/
def tempRecorded (r : Nat) (tj unc : Int) (s : State) : State :=
  let u := s.updRegion r (fun x => { x with tj := tj })
  if 16 * 125 ≤ tj || 16 * 125 ≤ unc then { u with aon := { u.aon with thermTrip := true } } else u

/-- The region held at VP3 for its temperature, and counted. -/
def tempHeld (s : State) (r : Nat) : State := pacCount (s.updRegion r (fun x => { x with tempHold := true })) 8 r 1

/-- The region let go from VP3. -/
def tempCooled (s : State) (r : Nat) : State := s.updRegion r (fun x => { x with tempHold := false })

theorem tempRecorded_region (r : Nat) (tj unc : Int) (s : State) : (tempRecorded r tj unc s).region r = { s.region r with tj := tj } := by
  have hupd := region_upd s r (fun x => { x with tj := tj })
  unfold tempRecorded
  dsimp only
  split
  · exact hupd
  · exact hupd

theorem tempRecorded_trip (r : Nat) (tj unc : Int) (s : State) :
    (tempRecorded r tj unc s).aon.thermTrip = true ↔ s.aon.thermTrip = true ∨ 2000 ≤ tj ∨ 2000 ≤ unc := by
  unfold tempRecorded
  dsimp only
  split
  · rename_i h
    rw [Bool.or_eq_true, decide_eq_true_eq, decide_eq_true_eq] at h
    exact ⟨fun _ => .inr h, fun _ => rfl⟩
  · rename_i h
    rw [Bool.or_eq_true, decide_eq_true_eq, decide_eq_true_eq] at h
    exact ⟨.inl, fun k => k.resolve_right h⟩

theorem tempRecorded_pac (r : Nat) (tj unc : Int) (s : State) :
    (tempRecorded r tj unc s).pac = s.pac ∧ tjLimit (tempRecorded r tj unc s) = tjLimit s := by
  unfold tempRecorded tjLimit
  dsimp only
  split <;> exact ⟨rfl, rfl⟩

theorem exec_tempSensorRead_eq (r : Nat) (tj unc : Int) (s : State) : exec (.tempSensorRead r tj unc) s =
    .next (if s.pac.restarting then tempRecorded r tj unc s
      else if tjLimit s < tj && !(s.region r).tempHold then
        forceLower (raiseAlarm (tempHeld (tempRecorded r tj unc s) r) (uRg + r) 0x83) r 3
      else if tj ≤ tjLimit s - 80 then tempCooled (tempRecorded r tj unc s) r else tempRecorded r tj unc s) := by
  obtain ⟨hpac, hlimit⟩ := tempRecorded_pac r tj unc s
  rw [← hpac, ← hlimit]
  simp only [apply_ite Host.Outcome.next]
  rfl

theorem tempHeld_region (s : State) (r : Nat) : (tempHeld s r).region r = { s.region r with tempHold := true } := by
  unfold tempHeld
  rw [pacCount_region, region_upd]

theorem tempCooled_region (s : State) (r : Nat) : (tempCooled s r).region r = { s.region r with tempHold := false } := region_upd ..

/-- What a sensor's reading does, by the limit and by the hold that the region has. -/
theorem tempSensorRead_facts (r : Nat) (tj unc : Int) (s : State) : ∃ u, (u.region r).tj = tj ∧
    (u.aon.thermTrip = true ↔ s.aon.thermTrip = true ∨ 2000 ≤ tj ∨ 2000 ≤ unc) ∧
    (s.pac.restarting = false → tjLimit s < tj → (s.region r).tempHold = false → (u.region r).tempHold = true ∧
      exec (.tempSensorRead r tj unc) s = .next (forceLower (raiseAlarm u (uRg + r) 0x83) r 3)) ∧
    (s.pac.restarting = false → tj ≤ tjLimit s - 80 → (u.region r).tempHold = false ∧
      exec (.tempSensorRead r tj unc) s = .next u) ∧
    (s.pac.restarting = true ∨ (tj ≤ tjLimit s ∨ (s.region r).tempHold = true) ∧ tjLimit s - 80 < tj →
      (u.region r).tempHold = (s.region r).tempHold ∧ exec (.tempSensorRead r tj unc) s = .next u) := by
  have hexec := exec_tempSensorRead_eq r tj unc s
  have hregion := tempRecorded_region r tj unc s
  have htrip := tempRecorded_trip r tj unc s
  by_cases hhot : s.pac.restarting = false ∧ tjLimit s < tj ∧ (s.region r).tempHold = false
  · obtain ⟨hup, hlt, hhold⟩ := hhot
    have hheld := tempHeld_region (tempRecorded r tj unc s) r
    rw [if_neg (by simp [hup]), if_pos (by simp [hlt, hhold])] at hexec
    refine ⟨tempHeld (tempRecorded r tj unc s) r, by rw [hheld, hregion], htrip, fun _ _ _ => ⟨by rw [hheld], hexec⟩,
      fun _ hle => by omega, fun h => ?_⟩
    rw [hup, hhold] at h
    exact absurd h (by simp; omega)
  · by_cases hcool : s.pac.restarting = false ∧ tj ≤ tjLimit s - 80
    · obtain ⟨hup, hle⟩ := hcool
      have hcooled := tempCooled_region (tempRecorded r tj unc s) r
      have hnot : ¬(decide (tjLimit s < tj) && !(s.region r).tempHold) = true := by
        rw [Bool.and_eq_true, decide_eq_true_eq]
        omega
      rw [if_neg (by simp [hup]), if_neg hnot, if_pos hle] at hexec
      refine ⟨tempCooled (tempRecorded r tj unc s) r, by rw [hcooled, hregion], htrip, fun _ _ _ => by omega,
        fun _ _ => ⟨by rw [hcooled], hexec⟩, fun h => ?_⟩
      rw [hup] at h
      rcases h with h | ⟨_, h⟩
      · cases h
      · omega
    · refine ⟨tempRecorded r tj unc s, by rw [hregion], htrip, fun hup hlt hhold => absurd ⟨hup, hlt, hhold⟩ hhot,
        fun hup hle => absurd ⟨hup, hle⟩ hcool, fun h => ⟨by rw [hregion], ?_⟩⟩
      by_cases hup : s.pac.restarting = true
      · rw [if_pos hup] at hexec
        exact hexec
      · obtain ⟨hwarm, hle⟩ := h.resolve_left hup
        have hnot : ¬(decide (tjLimit s < tj) && !(s.region r).tempHold) = true := by
          rw [Bool.and_eq_true, decide_eq_true_eq, Bool.not_eq_true']
          rintro ⟨hlt, hhold⟩
          exact hhot ⟨Bool.eq_false_iff.2 hup, hlt, hhold⟩
        rw [if_neg hup, if_neg hnot, if_neg (by omega)] at hexec
        exact hexec

/-! ### Chatter and stuck inputs -/

theorem exec_chatterWindow_eq (n : List Nat) (s : State) : exec (.chatterWindow n) s =
    .next (chatterAll ((List.range 5).map (fun i => (i, n.getD i 0))) s) := rfl

theorem chatterWindow_facts (n : List Nat) (s : State) : ∃ t, exec (.chatterWindow n) s = .next t ∧
    ∀ i < 5, (mget t.aon.inputs i).chatter = decide (1000 < n.getD i 0) ∧
      (mget t.aon.inputs i).active = (mget s.aon.inputs i).active := by
  refine ⟨_, exec_chatterWindow_eq n s, fun i hi => ?_⟩
  rw [chatterAll_inputs n _ List.nodup_range, if_pos (List.mem_range.2 hi)]
  exact ⟨rfl, rfl⟩

theorem updInput_input (s : State) (i : Nat) (f : InputPin → InputPin) :
    mget (s.updInput i f).aon.inputs i = f (mget s.aon.inputs i) := mget_mupd_self ..

/-- Input `i` marked as stuck, with its alarm. -/
def inputStuckMarked (s : State) (i : Nat) : State := raiseAlarm (s.updInput i (fun p => { p with stuck := true })) uAon (stuckAlarm i)

theorem exec_inputStuck_of_active (s : State) (i : Nat) (ha : (mget s.aon.inputs i).active = true)
    (hs : (mget s.aon.inputs i).stuck = false) (hi : i < 4) : exec (.inputStuck i) s = .next (inputStuckMarked s i) := by
  rw [exec_inputStuck, execInputStuck]
  rw [if_pos (by simp [ha, hs, hi])]
  rfl

theorem inputStuckMarked_stuck (s : State) (i : Nat) : (mget (inputStuckMarked s i).aon.inputs i).stuck = true := by
  unfold inputStuckMarked
  rw [Touches.inputs_eq (raiseAlarm_touch ..) (by decide)]
  rw [updInput_input]

theorem exec_inputStuckRelease_of_stuck (s : State) (i : Nat) (h : (mget s.aon.inputs i).stuck = true) :
    exec (.inputStuckRelease i) s =
      .next (if i = 0 then pwrbrkFall s else if i = 1 then thermFall s else perstFall s (i - 2)) := by
  rw [exec_inputStuckRelease, execInputStuckRelease, if_neg (by simp [h])]
  simp only [apply_ite Host.Outcome.next]

theorem perstFall_facts (s : State) (p : Nat) : (mget (perstFall s p).aon.inputs (2 + p)).active = false ∧
    (mget (perstFall s p).aon.inputs (2 + p)).stuck = false ∧ ((perstFall s p).port p).perst = false := by
  obtain ⟨hactive, hstuck⟩ := inputFall_in (s.updPort p (fun q => { q with perst := false, training := portActive s p && portReleased s })) (2 + p)
  refine ⟨hactive, hstuck, ?_⟩
  unfold perstFall
  dsimp only
  rw [Touches.port_eq (inputFall_touch ..) (by decide), port_upd]

theorem inputStuckRelease_facts (i : Nat) (s : State) (h : (mget s.aon.inputs i).stuck = true) (hi : i < 4) :
    ∃ t, exec (.inputStuckRelease i) s = .next t ∧ (mget t.aon.inputs i).active = false ∧ (mget t.aon.inputs i).stuck = false ∧
      (2 ≤ i → (t.port (i - 2)).perst = false) ∧ (i < 2 → t.pac.riseLimit = true) := by
  have hexec := exec_inputStuckRelease_of_stuck s i h
  by_cases h0 : i = 0
  · subst h0
    obtain ⟨hactive, hstuck, hrise⟩ := pwrbrkFall_ok s
    rw [if_pos rfl] at hexec
    exact ⟨_, hexec, hactive, hstuck, by omega, fun _ => hrise⟩
  · by_cases h1 : i = 1
    · subst h1
      obtain ⟨hactive, hstuck, hrise⟩ := thermFall_ok s
      rw [if_neg h0, if_pos rfl] at hexec
      exact ⟨_, hexec, hactive, hstuck, by omega, fun _ => hrise⟩
    · obtain ⟨p, rfl⟩ : ∃ p, i = 2 + p := ⟨i - 2, by omega⟩
      obtain ⟨hactive, hstuck, hperst⟩ := perstFall_facts s p
      rw [if_neg h0, if_neg h1, Nat.add_sub_cancel_left] at hexec
      exact ⟨_, hexec, hactive, hstuck, fun _ => by rw [Nat.add_sub_cancel_left]; exact hperst, by omega⟩

/-- Settles O56. -/
theorem boardInputCommands : Obligations.BoardInputCommands := by
  unfold Obligations.BoardInputCommands
  refine ⟨fun s h => ?_, fun s h => ?_, fun s h => ⟨_, exec_pwrbrkRelease_of_active s h, pwrbrkFall_ok s⟩, fun s h => ?_,
    tempSensorRead_facts, chatterWindow_facts,
    fun i s ha hs hi => ⟨_, exec_inputStuck_of_active s i ha hs hi, inputStuckMarked_stuck s i⟩, inputStuckRelease_facts⟩
  · obtain ⟨t, hexec, hactive, hlow⟩ := pwrbrkAssert_facts s h
    exact ⟨t, hexec, hactive, fun r hr hf hp hx => hlow r hr ⟨hf, hp, hx⟩⟩
  · obtain ⟨t, hexec, hactive, hlow⟩ := thermInAssert_facts s h
    exact ⟨t, hexec, hactive, fun r hr hf hp hx => hlow r hr ⟨hf, hp, hx⟩⟩
  · obtain ⟨hactive, hstuck, hrise⟩ := thermFall_ok s
    exact ⟨_, exec_thermInRelease_of_active s h, hactive, hstuck, hrise, thermFall_touch s⟩

end Sys2Proof.Machine
end

section
/-! PROOFS. Resets, links and power management of the host ports (R26, R384 to R390): O57. -/

namespace Sys2Proof.Machine

open Sys2Proof (Instr Word Bytes Byte)

/-! ### Function-level reset -/

theorem intaSync_fns (s : State) (p : Nat) : (intaSync s p).fns = s.fns := by
  unfold intaSync
  dsimp only
  split
  · rfl
  · split <;> rfl

theorem intaSync_fn (s : State) (p q f : Nat) : (intaSync s p).fn q f = s.fn q f := by
  unfold State.fn
  rw [intaSync_fns]

/-- An FLR counted, by the always-on block and by its port. -/
def flrCounted (s : State) (p : Nat) : State := portCount { s with aon := { s.aon with flrs := satAdd 255 s.aon.flrs 1 } } p 3

theorem exec_flr_of_present (p f : Nat) (s : State) (hp : fnPresent s p f = true) (hr : (s.fn p f).resetting = false) :
    exec (.flr p f) s = .next (intaSync (flrStart (flrCounted s p) p f) p) := by
  rw [exec_flr, execFlr, if_neg (by simp [hp, hr])]
  rfl

theorem exec_flr_of_absent (p f : Nat) (s : State) (h : fnPresent s p f = false ∨ (s.fn p f).resetting = true) :
    exec (.flr p f) s = .next s := by
  rw [exec_flr, execFlr, if_pos (by simpa using h)]

theorem flrStart_fn (s : State) (p f : Nat) (hp : fnPresent s p f = true) (hr : (s.fn p f).resetting = false) :
    ∃ x : Fn, x.resetting = true ∧ (flrStart s p f).fn p f = fnReset x := by
  obtain ⟨u, hstart, hresetting, _⟩ := flrStart_eq s p f hp hr
  exact ⟨u.fn p f, hresetting, by rw [hstart, fn_upd]⟩

theorem flr_facts (p f : Nat) (s : State) (hp : fnPresent s p f = true) (hr : (s.fn p f).resetting = false) :
    ∃ t, exec (.flr p f) s = .next t ∧ t.aon.flrs = satAdd 255 s.aon.flrs 1 ∧ (t.fn p f).resetting = true ∧
      (t.fn p f).rings = [] ∧ (t.fn p f).bme = false ∧ (t.fn p f).irqMask = 0 ∧ (t.fn p f).dstate = 0 := by
  obtain ⟨x, hx, hfn⟩ := flrStart_fn (flrCounted s p) p f hp hr
  refine ⟨_, exec_flr_of_present p f s hp hr, ?_, ?_⟩
  · rw [Touches.flrs_eq (intaSync_touch ..) (by decide), Touches.flrs_eq (flrStart_touch ..) (by decide)]
    rfl
  · rw [intaSync_fn, hfn]
    exact ⟨hx, rfl, rfl, rfl, rfl⟩

/-- Function `f` out of its reset, with the streams that it had paused. -/
def fnReleased (s : State) (p f : Nat) : State :=
  let u := s.updFn p f (fun x => { x with resetting := false })
  ((ownPart u p f).flatMap (ownSlots u)).foldl streamResume u

/-- The reset of function `f` completed, and that of its port with its last one. -/
def flrCompleted (s : State) (p f : Nat) : State :=
  let u := fnReleased s p f
  u.updPort p (fun x => { x with resetting := x.resetting && (List.range 4).any (fun g => (u.fn p g).resetting) })

theorem exec_flrComplete_of_resetting (p f : Nat) (s : State) (h : (s.fn p f).resetting = true) :
    exec (.flrComplete p f) s = .next (flrCompleted s p f) := by
  rw [exec_flrComplete, execFlrComplete, if_neg (by simp [h])]
  rfl

theorem fnReleased_resetting (s : State) (p f g : Nat) :
    ((fnReleased s p f).fn p g).resetting = if fnIx p f = fnIx p g then false else (s.fn p g).resetting := by
  unfold fnReleased
  dsimp only
  rw [Touches.resetting_eq (Touches.foldl (fun v i => streamResume_touch v i) (Touches.refl _) _) (by decide), fn_upd_all]
  split <;> rfl

theorem flrCompleted_facts (s : State) (p f : Nat) : ((flrCompleted s p f).fn p f).resetting = false ∧
    ((∀ g < 4, g ≠ f → (s.fn p g).resetting = false) → ((flrCompleted s p f).port p).resetting = false) := by
  refine ⟨?_, fun hothers => ?_⟩
  · show ((fnReleased s p f).fn p f).resetting = false
    rw [fnReleased_resetting, if_pos rfl]
  · have hnone : (List.range 4).any (fun g => ((fnReleased s p f).fn p g).resetting) = false := by
      rw [List.any_eq_false]
      intro g hg
      rw [fnReleased_resetting]
      split
      · decide
      · rename_i hne
        rw [hothers g (List.mem_range.1 hg) fun h => hne (by rw [h])]
        decide
    unfold flrCompleted
    dsimp only
    rw [port_upd, hnone]
    exact Bool.and_false _

/-! ### Resets of a port -/

/-- PERST of port `p` asserted, with its WAKE_N released. -/
def perstRisen (s : State) (p : Nat) : State := inputRise (s.updPort p (fun x => { x with perst := true, wake := false })) (2 + p)

theorem exec_hotReset_of_active (p : Nat) (s : State) (h : portActive s p = true) :
    exec (.hotReset p) s = .next (portReset (portCount s p 1) p (portReleased s)) := by
  rw [exec_hotReset, execHotReset, if_pos h]

theorem exec_dlDown_of_active (p : Nat) (s : State) (h : portActive s p = true) :
    exec (.dlDown p) s = .next (portReset (portCount s p 0) p (portReleased s)) := by
  rw [exec_dlDown, execDlDown, if_pos h]

theorem exec_perstAssert_of_active (p : Nat) (s : State) (h : portActive s p = true) (hp : p < 2) (hw : (s.port p).perst = false) :
    exec (.perstAssert p) s = .next (portReset (portCount (perstRisen s p) p 2) p false) := by
  have hactive : portActive (perstRisen s p) p = true := h
  have hnot : ¬(false || !portActive (perstRisen s p) p) = true := by
    rw [hactive]
    decide
  rw [exec_perstAssert, execPerstAssert, if_neg (by omega)]
  dsimp only
  rw [hw]
  exact if_neg hnot

theorem portCount_port (s : State) (p k : Nat) : ((portCount s p k).port p).perst = (s.port p).perst ∧
    ((portCount s p k).port p).wake = (s.port p).wake := by
  unfold portCount hpCount
  rw [port_upd]
  exact ⟨rfl, rfl⟩

theorem perstRisen_port (s : State) (p : Nat) : (perstRisen s p).port p = { s.port p with perst := true, wake := false } :=
  port_upd s p (fun x => { x with perst := true, wake := false })

/-- What every reset of a port leaves, from a state `u` with the functions of `s`. -/
theorem portReset_facts (s u : State) (p k : Nat) (tr : Bool) (hu : ∀ f, fnPresent u p f = fnPresent s p f) :
    ((portReset (portCount u p k) p tr).port p).link = 0 ∧ ((portReset (portCount u p k) p tr).port p).inta = false ∧
      ((portReset (portCount u p k) p tr).port p).training = tr ∧
      ((portReset (portCount u p k) p tr).port p).perst = (u.port p).perst ∧
      ((portReset (portCount u p k) p tr).port p).wake = (u.port p).wake ∧
      (∀ f < 4, fnPresent s p f = true → ((portReset (portCount u p k) p tr).fn p f).resetting = true) ∧
      ∀ w ∈ (portReset (portCount u p k) p tr).waits, waitPort w ≠ p := by
  obtain ⟨hlink, hinta, htrain, hperst, hwake, hfns, hwaits⟩ := portReset_ok (portCount u p k) p tr
  obtain ⟨hperst', hwake'⟩ := portCount_port u p k
  exact ⟨hlink, hinta, htrain, hperst.trans hperst', hwake.trans hwake', fun f hf h => hfns f hf ((hu f).trans h), hwaits⟩

theorem portResets_facts (p : Nat) (s : State) (c : Instr) (h : portActive s p = true)
    (hc : c = .hotReset p ∨ c = .dlDown p ∨ (c = .perstAssert p ∧ p < 2 ∧ (s.port p).perst = false)) :
    ∃ t, exec c s = .next t ∧ (t.port p).link = 0 ∧ (t.port p).inta = false ∧
      (∀ f < 4, fnPresent s p f = true → (t.fn p f).resetting = true) ∧ (∀ w ∈ t.waits, waitPort w ≠ p) ∧
      (c = .perstAssert p → (t.port p).perst = true ∧ (t.port p).wake = false ∧ (t.port p).training = false) ∧
      (c ≠ .perstAssert p → (t.port p).training = portReleased s) := by
  rcases hc with rfl | rfl | ⟨rfl, hp, hw⟩
  · obtain ⟨hlink, hinta, htrain, _, _, hfns, hwaits⟩ := portReset_facts s s p 1 (portReleased s) fun _ => rfl
    exact ⟨_, exec_hotReset_of_active p s h, hlink, hinta, hfns, hwaits, nofun, fun _ => htrain⟩
  · obtain ⟨hlink, hinta, htrain, _, _, hfns, hwaits⟩ := portReset_facts s s p 0 (portReleased s) fun _ => rfl
    exact ⟨_, exec_dlDown_of_active p s h, hlink, hinta, hfns, hwaits, nofun, fun _ => htrain⟩
  · obtain ⟨hlink, hinta, htrain, hperst, hwake, hfns, hwaits⟩ := portReset_facts s (perstRisen s p) p 2 false fun _ => rfl
    rw [perstRisen_port] at hperst hwake
    exact ⟨_, exec_perstAssert_of_active p s h hp hw, hlink, hinta, hfns, hwaits, fun _ => ⟨hperst, hwake, htrain⟩,
      fun hne => absurd rfl hne⟩

/-! ### The link -/

theorem exec_perstDeassert_of_asserted (p : Nat) (s : State) (hp : p < 2) (hw : (s.port p).perst = true) :
    exec (.perstDeassert p) s = .next (perstFall s p) := by
  rw [exec_perstDeassert, execPerstDeassert, if_neg (by simp [hw, hp])]

theorem perstFall_training (s : State) (p : Nat) : ((perstFall s p).port p).training = (portActive s p && portReleased s) := by
  unfold perstFall
  dsimp only
  rw [Touches.port_eq (inputFall_touch ..) (by decide), port_upd]

/-- The message of INTA changes its level and a counter of the port alone. -/
theorem intaSync_port {β : Type} (g : HostPort → β) (hinta : ∀ x b, g { x with inta := b } = g x)
    (hctr : ∀ x m, g { x with ctr := m } = g x) (s : State) (p : Nat) : g ((intaSync s p).port p) = g (s.port p) := by
  have hemit : g ((emit (.inta p (portPending s p)) (s.updPort p (fun x => { x with inta := portPending s p }))).port p) = g (s.port p) := by
    rw [Touches.port_eq (emit_touch ..) (by decide), port_upd, hinta]
  unfold intaSync
  dsimp only
  split
  · rfl
  · split
    · rw [portCount, hpCount, port_upd, hctr, hemit]
    · exact hemit

/-- The link of port `p` up in L0. -/
def linkTrained (s : State) (p rate width : Nat) : State := s.updPort p (fun x => { x with link := 1, rate := rate, width := width })

theorem exec_pcieLinkUp_of_training (p rate width : Nat) (s : State) (h : portActive s p = true) (ht : (s.port p).training = true)
    (hw : (s.port p).perst = false) (hl : (s.port p).link ≠ 3) :
    exec (.pcieLinkUp p rate width) s = .next (intaSync (linkTrained s p rate width) p) := by
  rw [exec_pcieLinkUp, execPcieLinkUp, if_pos (by simp [h, ht, hw, hl])]
  rfl

theorem pcieLinkUp_port (s : State) (p rate width : Nat) : ((intaSync (linkTrained s p rate width) p).port p).link = 1 ∧
    ((intaSync (linkTrained s p rate width) p).port p).rate = rate ∧
    ((intaSync (linkTrained s p rate width) p).port p).width = width := by
  have hport : (linkTrained s p rate width).port p = { s.port p with link := 1, rate := rate, width := width } := port_upd ..
  refine ⟨?_, ?_, ?_⟩
  · rw [intaSync_port HostPort.link (fun _ _ => rfl) fun _ _ => rfl, hport]
  · rw [intaSync_port HostPort.rate (fun _ _ => rfl) fun _ _ => rfl, hport]
  · rw [intaSync_port HostPort.width (fun _ _ => rfl) fun _ _ => rfl, hport]

/-! ### Power management -/

/-- PME_Turn_Off acknowledged, with the link in L2/L3 Ready where every function is in D3hot. -/
def turnedOff (s : State) (p : Nat) : State :=
  if allD3 s p then (emit (.pmeToAck p) s).updPort p (fun x => { x with link := 3 }) else emit (.pmeToAck p) s

theorem exec_pmeTurnOff_of_up (p : Nat) (s : State) (h : portActive s p = true) (hl : linkUp (s.port p) = true) :
    exec (.pmeTurnOff p) s = .next (turnedOff s p) := by
  rw [exec_pmeTurnOff, execPmeTurnOff, if_pos (by rw [h, hl]; rfl)]
  rfl

theorem turnedOff_facts (s : State) (p : Nat) : (turnedOff s p).out = .pmeToAck p :: s.out ∧
    (turnedOff s p).port p = { s.port p with link := if allD3 s p then 3 else (s.port p).link } ∧
    Touches [.ports, .out] s (turnedOff s p) := by
  have hemit : Touches [.ports, .out] s (emit (.pmeToAck p) s) := (emit_touch ..).sub (by decide)
  unfold turnedOff
  split
  · refine ⟨rfl, ?_, hemit.trans ((State.updPort_touch ..).sub (by decide))⟩
    rw [port_upd]
    rfl
  · exact ⟨rfl, rfl, hemit⟩

theorem pmeSend_of_up (s : State) (p f : Nat) (h : linkUp (s.port p) = true) :
    (pmeSend s p f).out = .pmPme p f :: s.out ∧ ((pmeSend s p f).port p).link = 1 := by
  unfold pmeSend
  rw [if_pos h]
  refine ⟨rfl, ?_⟩
  rw [portCount, hpCount, port_upd]
  dsimp only
  rw [Touches.port_eq (emit_touch ..) (by decide), port_upd]

theorem pmeSend_of_ready (s : State) (p f : Nat) (h : (s.port p).link = 3) :
    (pmeSend s p f).out = s.out ∧ ((pmeSend s p f).port p).wake = true := by
  unfold pmeSend
  rw [if_neg (by simp [linkUp, h]), if_pos h, port_upd]
  exact ⟨rfl, rfl⟩

/-- PME_Status of function `f` set. -/
def pmeSet (s : State) (p f : Nat) : State := s.updFn p f (fun x => { x with pmeStatus := true })

theorem exec_pmeSignal_of_cause (p f : Nat) (s : State) (hp : fnPresent s p f = true) (hd : (s.fn p f).dstate = 3)
    (he : (s.fn p f).pmeEn = true) (hs : (s.fn p f).pmeStatus = false) (hc : irqCause (s.fn p f) = true) :
    exec (.pmeSignal p f) s = .next (pmeSend (pmeSet s p f) p f) := by
  rw [exec_pmeSignal, execPmeSignal]
  rw [if_pos (by simp [hp, hd, he, hs, hc])]
  rfl

theorem exec_pmeRepeat_of_status (p f : Nat) (s : State) (hp : fnPresent s p f = true) (hs : (s.fn p f).pmeStatus = true) :
    exec (.pmeRepeat p f) s = .next (pmeSend s p f) := by
  rw [exec_pmeRepeat, execPmeRepeat, if_pos (by rw [hp, hs]; rfl)]

theorem pmeSend_fns (s : State) (p f : Nat) : (pmeSend s p f).fns = s.fns := by
  unfold pmeSend
  split
  · rfl
  · split <;> rfl

theorem pmeSignal_status (s : State) (p f : Nat) : ((pmeSend (pmeSet s p f) p f).fn p f).pmeStatus = true := by
  unfold State.fn
  rw [pmeSend_fns]
  show ((pmeSet s p f).fn p f).pmeStatus = true
  rw [pmeSet, fn_upd]

/-- Settles O57. -/
theorem portResetsAndPowerManagement : Obligations.PortResetsAndPowerManagement := by
  unfold Obligations.PortResetsAndPowerManagement
  refine ⟨flr_facts, exec_flr_of_absent,
    fun p f s h => ⟨_, exec_flrComplete_of_resetting p f s h, flrCompleted_facts s p f⟩, portResets_facts,
    fun p s hp hw => ?_, fun p rate width s h ht hw hl => ?_, fun p s h hl => ⟨_, exec_pmeTurnOff_of_up p s h hl, turnedOff_facts s p⟩,
    fun p f s hp hd he hs hc => ?_, fun p f s hp hs => ?_⟩
  · obtain ⟨hactive, _, hperst⟩ := perstFall_facts s p
    exact ⟨_, exec_perstDeassert_of_asserted p s hp hw, hperst, perstFall_training s p, hactive, perstFall_touch s p⟩
  · obtain ⟨hlink, hrate, hwidth⟩ := pcieLinkUp_port s p rate width
    exact ⟨_, exec_pcieLinkUp_of_training p rate width s h ht hw hl, hlink, hrate, hwidth,
      ((State.updPort_touch ..).sub (by decide)).trans (intaSync_touch ..)⟩
  · have hexec := exec_pmeSignal_of_cause p f s hp hd he hs hc
    exact ⟨_, hexec, pmeSignal_status s p f, Touches.viaNext hexec (execPmeSignal_touch p f s), pmeSend_of_up (pmeSet s p f) p f,
      pmeSend_of_ready (pmeSet s p f) p f⟩
  · exact ⟨_, exec_pmeRepeat_of_status p f s hp hs, pmeSend_touch s p f, pmeSend_of_up s p f, pmeSend_of_ready s p f⟩

end Sys2Proof.Machine
end

section
/-! PROOFS. Faults of units and restarts of controllers (R397, R399, R400): O58. -/

namespace Sys2Proof.Machine

open Sys2Proof (Instr Word Bytes Byte)

/-! ### Engines and resamplers -/

/-- Engine `g` fenced, and its streams placed on the others. -/
def engineFenced (s : State) (g : Nat) : State :=
  engineAssignAll (mkeys s.streams) (engineReassign (engineSlots s g) (engineLoses (engineSlots s g)
    { s with engines := mupd s.engines g (fun e => { e with fenced := true }) }))

theorem exec_unitFault_engine (g : Nat) (s : State) (hg : g < 8) (hf : (mget s.engines g).fenced = false) :
    exec (.unitFault uDe g) s = .next (raiseAlarm (engineFenced s g) uDe 0x80) := by
  rw [exec_unitFault, execUnitFault, if_pos rfl, engineFence, if_neg (by simp [hf, hg])]
  rfl

theorem exec_unitFault_engine_of_out (g : Nat) (s : State) (h : 8 ≤ g ∨ (mget s.engines g).fenced = true) :
    exec (.unitFault uDe g) s = .next s := by
  rw [exec_unitFault, execUnitFault, if_pos rfl, engineFence, if_pos (by simpa [or_comm] using h)]

theorem engineFenced_fenced (s : State) (g : Nat) : (mget (engineFenced s g).engines g).fenced = true := by
  unfold engineFenced
  rw [Touches.engines_eq (engineAssignAll_touch ..) (by decide), Touches.engines_eq (engineReassign_touch ..) (by decide),
    engineLoses_fenced]
  dsimp only
  rw [mget_mupd_self]

/-- Resampler `r` out of service. -/
def resamplerOut (s : State) (r : Nat) : State :=
  { s with resamplers := mupd s.resamplers r (fun x => { x with fenced := true, cur := none }) }

theorem resamplerOut_touch (s : State) (r : Nat) : Touches [.resamplers] s (resamplerOut s r) :=
  Touches.ofMk (Touches.refl s) kp kp kp kp kp kp kp kp kp kp kp kp kp kp kp kp ch kp kp kp kp kp kp kp kp kp kp kp kp kp kp kp kp kp kp kp kp kp kp

theorem resamplerOut_resampler (s : State) (r : Nat) :
    mget (resamplerOut s r).resamplers r = { mget s.resamplers r with fenced := true, cur := none } :=
  mget_mupd_self s.resamplers r (fun x => { x with fenced := true, cur := none })

theorem exec_unitFault_resampler_of_out (r : Nat) (s : State) (h : 4 ≤ r ∨ (mget s.resamplers r).fenced = true) :
    exec (.unitFault uRs r) s = .next s := by
  rw [exec_unitFault, execUnitFault, if_neg (by decide), if_pos rfl, resamplerFence]
  dsimp only
  rw [if_pos (by simpa [or_comm] using h)]

/-- A fault of a resampler: idle, it goes out of service; at work, its picture is taken again as well. -/
theorem exec_unitFault_resampler (r : Nat) (s : State) (hr : r < 4) (hf : (mget s.resamplers r).fenced = false) :
    ((mget s.resamplers r).cur = none → exec (.unitFault uRs r) s = .next (raiseAlarm (resamplerOut s r) uRs 0x80)) ∧
    ∀ f, (mget s.resamplers r).cur = some f →
      exec (.unitFault uRs r) s = .next (raiseAlarm (resampleAgain (resamplerOut s r) f) uRs 0x80) := by
  rw [exec_unitFault, execUnitFault, if_neg (by decide), if_pos rfl, resamplerFence]
  dsimp only
  rw [if_neg (by simp [hf, hr])]
  constructor
  · intro hcur
    rw [hcur]
    rfl
  · intro f hcur
    rw [hcur]
    rfl

theorem unitFault_resampler_facts (r : Nat) (s : State) (hr : r < 4) (hf : (mget s.resamplers r).fenced = false) : ∃ u,
    exec (.unitFault uRs r) s = .next (raiseAlarm u uRs 0x80) ∧ (mget u.resamplers r).fenced = true ∧
    (mget u.resamplers r).cur = none ∧ ((mget s.resamplers r).cur = none → Touches [.resamplers] s u) := by
  obtain ⟨hidle, hwork⟩ := exec_unitFault_resampler r s hr hf
  cases hcur : (mget s.resamplers r).cur with
  | none =>
    refine ⟨_, hidle hcur, ?_, ?_, fun _ => resamplerOut_touch s r⟩ <;> rw [resamplerOut_resampler]
  | some f =>
    refine ⟨_, hwork f hcur, ?_, ?_, nofun⟩ <;> rw [resampleAgain_resamplers, resamplerOut_resampler]

/-! ### Units restarted in place -/

/-- Unit `n` down for its restart, with what it had in flight discarded. -/
def unitOut (s : State) (n : Nat) : State :=
  let u := unitDiscard s n
  { u with
    unitsDown := if u.unitsDown.contains n then u.unitsDown else u.unitsDown ++ [n]
    aon := { u.aon with unitRestarts := satAdd 255 u.aon.unitRestarts 1 } }

theorem exec_unitFault_of_restartable (n i : Nat) (s : State) (h : restartable n = true) :
    exec (.unitFault n i) s = .next (raiseAlarm (unitOut s n) n (if n = uCtx then 0x81 else 0x80)) := by
  have hde : n ≠ uDe := by rintro rfl; exact absurd h (by decide)
  have hrs : n ≠ uRs := by rintro rfl; exact absurd h (by decide)
  rw [exec_unitFault, execUnitFault, if_neg hde, if_neg hrs, if_pos h]
  rfl

theorem exec_unitFault_of_other (n i : Nat) (s : State) (hde : n ≠ uDe) (hrs : n ≠ uRs) (h : restartable n = false) :
    exec (.unitFault n i) s = .next s := by
  rw [exec_unitFault, execUnitFault, if_neg hde, if_neg hrs, if_neg (by simp [h])]

theorem mem_unitOut (s : State) (n : Nat) : n ∈ (unitOut s n).unitsDown := by
  show n ∈ if (unitDiscard s n).unitsDown.contains n then _ else _
  split
  · rename_i h
    exact List.contains_iff_mem.1 h
  · exact List.mem_append_right _ (List.mem_singleton_self n)

theorem unitDiscard_restarts (s : State) (n : Nat) : (unitDiscard s n).aon.unitRestarts = s.aon.unitRestarts := by
  simpa using congrArg Aon.unitRestarts (Touches.aon_eq (unitDiscard_touch s n) (by decide))

theorem raiseAlarm_unitRestarts (s : State) (u n : Nat) : (raiseAlarm s u n).aon.unitRestarts = s.aon.unitRestarts := by
  simpa using congrArg Aon.unitRestarts (Touches.aon_eq (raiseAlarm_touch s u n) (by decide))

theorem unitFault_restart_facts (n i : Nat) (s : State) (h : restartable n = true) : ∃ t, exec (.unitFault n i) s = .next t ∧
    n ∈ t.unitsDown ∧ t.aon.unitRestarts = satAdd 255 s.aon.unitRestarts 1 ∧ (n = uCtx → t.store.sets = []) ∧
    (n = uBpm → t.bpm.answer = none) := by
  refine ⟨_, exec_unitFault_of_restartable n i s h, ?_, ?_, ?_, ?_⟩
  · rw [(raiseAlarm_touch (unitOut s n) n _).same .unitsDown (by decide)]
    exact mem_unitOut s n
  · rw [raiseAlarm_unitRestarts]
    show satAdd 255 (unitDiscard s n).aon.unitRestarts 1 = _
    rw [unitDiscard_restarts]
  · rintro rfl
    rw [(raiseAlarm_touch (unitOut s uCtx) uCtx _).same .store (by decide)]
    rfl
  · rintro rfl
    rw [Touches.bpm_eq (raiseAlarm_touch (unitOut s uBpm) uBpm _) (by decide)]
    rfl

/-- Unit `n` back in service. -/
def unitBack (s : State) (n : Nat) : State := { s with unitsDown := s.unitsDown.filter (· != n) }

theorem unitBack_touch (s : State) (n : Nat) : Touches [.unitsDown] s (unitBack s n) :=
  Touches.ofMk (Touches.refl s) kp kp kp kp kp kp kp kp kp kp kp kp kp kp kp kp kp kp kp kp kp kp kp kp kp kp kp kp kp kp kp kp ch kp kp kp kp kp kp

theorem mem_unitBack (s : State) (n m : Nat) : m ∈ (unitBack s n).unitsDown ↔ m ∈ s.unitsDown ∧ m ≠ n := by
  show m ∈ s.unitsDown.filter (· != n) ↔ _
  rw [List.mem_filter, bne_iff_ne]

/-! ### Restarts of controllers -/

theorem exec_controllerRestart_pac (s : State) (h : s.por = false) :
    exec (.controllerRestart uPac) s = .next (raiseAlarm (pacRestart s) uPac 0x80) := by
  rw [exec_controllerRestart, execControllerRestart, if_neg (by simp [h]), if_pos rfl]

theorem exec_controllerRestart_scu (s : State) (h : s.por = false) :
    exec (.controllerRestart uScu) s = .next (raiseAlarm (scuRestart s) uScu 0x80) := by
  rw [exec_controllerRestart, execControllerRestart, if_neg (by simp [h]), if_neg (by decide), if_pos rfl]

theorem exec_controllerRestart_tu (s : State) (h : s.por = false) :
    exec (.controllerRestart uTu) s = .next (raiseAlarm (tuRestart s) uTu 0x80) := by
  rw [exec_controllerRestart, execControllerRestart, if_neg (by simp [h]), if_neg (by decide), if_neg (by decide), if_pos rfl]

theorem pacRestart_region (s : State) (r : Nat) : (pacRestart s).region r = { s.region r with samples := [] } :=
  mget_mmap s.regions (fun _ x => { x with samples := [] }) r rfl

theorem scuRestart_restarts (s : State) : (scuRestart s).aon.scuRestarts = satAdd 255 s.aon.scuRestarts 1 := by
  obtain ⟨_, haon, _, _⟩ := scuRestart_frame s
  exact congrArg Aon.scuRestarts haon

theorem pathLose_staged (q : Path) : (pathLose q).staged = q.staged.filter isAlarmEv := by
  unfold pathLose
  dsimp only
  split <;> split <;> rfl

theorem tuRestart_path (s : State) (p : Nat) : ((tuRestart s).path p).staged = (s.path p).staged.filter isAlarmEv := by
  have hpath : (tuRestart s).path p = pathLose (s.path p) := mget_mmap s.tu.paths (fun _ q => pathLose q) p rfl
  rw [hpath, pathLose_staged]

/-! ### What follows a restart -/

theorem pacResume_restarting (s : State) : (pacResume s).pac.restarting = false := by
  unfold pacResume
  dsimp only
  rw [wakeHeld_pac, followTargets_pac]

theorem exec_controllerResume_pac (s : State) (h : s.pac.restarting = true) :
    exec (.controllerResume uPac) s = .next (performWaits (pacResume s)) := by
  rw [exec_controllerResume, execControllerResume, if_pos (by rw [h]; decide)]

/-- The SCU in service again. -/
def scuBack (s : State) : State := { s with scu := { s.scu with restarting := false } }

theorem exec_controllerResume_scu (s : State) (h : s.scu.restarting = true) :
    exec (.controllerResume uScu) s = .next (performWaits (moultFinish (scuBack s))) := by
  have hpac : ¬(decide (uScu = uPac) && s.pac.restarting) = true := by
    rw [Bool.and_eq_true]
    exact fun hand => absurd hand.1 (by decide)
  rw [exec_controllerResume, execControllerResume, if_neg hpac, if_pos (by rw [h]; decide)]
  rfl

/-- The TU in service again, with the alarms of every path sent again. -/
def tuBack (s : State) : State := { s with tu := { s.tu with restarting := false, paths := mmap s.tu.paths (fun p q => pathResend s p q) } }

/-- The alert of MP raised where its path holds an alarm. -/
def alertDue (s : State) : State :=
  if (s.path 1).staged.any isAlarmEv then { s with tu := { s.tu with mpAlert := true } } else s

theorem exec_controllerResume_tu (s : State) (h : s.tu.restarting = true) : exec (.controllerResume uTu) s =
    .next (performWaits ((List.range 8).foldl (fun s k => pumpEvents s (k / 4) (k % 4)) (alertDue (tuBack s)))) := by
  have hpac : ¬(decide (uTu = uPac) && s.pac.restarting) = true := by
    rw [Bool.and_eq_true]
    exact fun hand => absurd hand.1 (by decide)
  have hscu : ¬(decide (uTu = uScu) && s.scu.restarting) = true := by
    rw [Bool.and_eq_true]
    exact fun hand => absurd hand.1 (by decide)
  rw [exec_controllerResume, execControllerResume, if_neg hpac, if_neg hscu, if_pos (by rw [h]; decide)]
  rfl

theorem tuBack_path (s : State) (p : Nat) : (tuBack s).path p = pathResend s p (s.path p) :=
  mget_mmap s.tu.paths (fun p q => pathResend s p q) p rfl

theorem alertDue_facts (s : State) : (∀ p, (alertDue s).path p = s.path p) ∧ (alertDue s).tu.restarting = s.tu.restarting ∧
    (((alertDue s).path 1).staged.any isAlarmEv = true → (alertDue s).tu.mpAlert = true) := by
  unfold alertDue
  split
  · exact ⟨fun _ => rfl, rfl, fun _ => rfl⟩
  · rename_i h
    exact ⟨fun _ => rfl, rfl, fun k => absurd k h⟩

theorem controllerRestart_facts (s : State) (h : s.por = false) :
    (∃ u, exec (.controllerRestart uPac) s = .next (raiseAlarm u uPac 0x80) ∧ u.pac.restarting = true ∧ u.pac.samples = [] ∧
      (∀ r, (u.region r).samples = [] ∧ (u.region r).vp = (s.region r).vp ∧ (u.region r).grant = (s.region r).grant) ∧
      u.aon.pacRestarts = satAdd 255 s.aon.pacRestarts 1) ∧
    (∃ u, exec (.controllerRestart uScu) s = .next (raiseAlarm u uScu 0x80) ∧ u.scu.restarting = true ∧
      u.aon.scuRestarts = satAdd 255 s.aon.scuRestarts 1 ∧ u.fuses = s.fuses ∧ u.key.state ≠ 1) ∧
    (∃ u, exec (.controllerRestart uTu) s = .next (raiseAlarm u uTu 0x80) ∧ u.tu.restarting = true ∧
      (∀ p, (u.path p).staged = (s.path p).staged.filter isAlarmEv) ∧ u.aon.tuRestarts = satAdd 255 s.aon.tuRestarts 1) := by
  obtain ⟨hscu, _, hfuses, hkey⟩ := scuRestart_frame s
  refine ⟨⟨_, exec_controllerRestart_pac s h, rfl, rfl, fun r => ?_, rfl⟩,
    ⟨_, exec_controllerRestart_scu s h, by rw [hscu], scuRestart_restarts s, hfuses, hkey⟩,
    ⟨_, exec_controllerRestart_tu s h, rfl, tuRestart_path s, rfl⟩⟩
  rw [pacRestart_region]
  exact ⟨rfl, rfl, rfl⟩

theorem controllerResume_facts (s : State) :
    (s.pac.restarting = true → ∃ u, exec (.controllerResume uPac) s = .next (performWaits u) ∧ u.pac.restarting = false) ∧
    (s.scu.restarting = true → ∃ u, exec (.controllerResume uScu) s = .next (performWaits (moultFinish u)) ∧
      u = { s with scu := { s.scu with restarting := false } }) ∧
    (s.tu.restarting = true → ∃ u, exec (.controllerResume uTu) s =
        .next (performWaits ((List.range 8).foldl (fun s k => pumpEvents s (k / 4) (k % 4)) u)) ∧ u.tu.restarting = false ∧
      (∀ p, u.path p = pathResend s p (s.path p)) ∧ ((u.path 1).staged.any isAlarmEv = true → u.tu.mpAlert = true)) := by
  obtain ⟨hpath, hrestarting, halert⟩ := alertDue_facts (tuBack s)
  exact ⟨fun h => ⟨_, exec_controllerResume_pac s h, pacResume_restarting s⟩,
    fun h => ⟨_, exec_controllerResume_scu s h, rfl⟩,
    fun h => ⟨_, exec_controllerResume_tu s h, hrestarting, fun p => (hpath p).trans (tuBack_path s p), halert⟩⟩

/-- Settles O58. -/
theorem unitAndControllerRestarts : Obligations.UnitAndControllerRestarts := by
  unfold Obligations.UnitAndControllerRestarts
  exact ⟨fun g s hg hf => ⟨_, exec_unitFault_engine g s hg hf, engineFenced_fenced s g⟩, exec_unitFault_engine_of_out,
    exec_unitFault_resampler_of_out, unitFault_resampler_facts, unitFault_restart_facts, exec_unitFault_of_other,
    fun n s => ⟨unitBack s n, rfl, mem_unitBack s n, unitBack_touch s n⟩, controllerRestart_facts, controllerResume_facts⟩

end Sys2Proof.Machine
end

section
/-! PROOFS. Events: staging, trace exponents, packets and summaries (R420 to R428): O59. -/

namespace Sys2Proof.Machine

open Sys2Proof (Instr Word Bytes Byte)

/-! ### Staging -/

theorem raiseEv_alarms (s : State) (e : EvSpec) : (raiseEv s e).aon.alarms =
    if e.cls = 1 then tableAlarm s.aon.alarms (evKind e) s.now else s.aon.alarms := by
  unfold raiseEv
  dsimp only
  rw [Touches.alarms_eq (l := [.rings, .tu, .out]) (Touches.ite (stageOnAll_touch ..) (Touches.refl _)) (by decide)]
  split
  · exact Touches.alarms_eq (alarmIrqs_touch ..) (by decide)
  · rfl

theorem raiseEv_of_not_alarm (s : State) (e : EvSpec) (h : e.cls ≠ 1) : raiseEv s e =
    if s.hasCfg && evSelected s e then stageOnAll ⟨e, e.cls, 1, s.now, s.now⟩ (evPaths s e.cls e.part) s else s := by
  unfold raiseEv
  rw [if_neg h]

theorem path_stageOn_of_low (s : State) (e : Ev) (p q : Nat) (hp : p < 2) (hr : s.tu.restarting = false) :
    (stageOn s e p).path q = if p = q then pathStage (pathCap p) (s.path q) e else s.path q := by
  have hpump : (decide (2 ≤ p) && !s.tu.restarting) = false := by simp; omega
  unfold stageOn
  simp only [hr, Bool.false_eq_true, if_false]
  rw [← path_upd_all s p q (fun q => pathStage (pathCap p) q e)]
  rw [if_neg (by simp; omega)]
  split <;> rfl

/-! ### The exponent of a path -/

theorem traceTick_staged (cap kmin : Nat) (q : Path) : (traceTick cap kmin q).staged = q.staged := by
  unfold traceTick
  split
  · rfl
  · split <;> rfl

theorem traceTick_of_quarter_full (cap kmin : Nat) (q : Path) (h : cap ≤ 4 * q.staged.length) :
    (traceTick cap kmin q).k = max kmin (min 15 (q.k + 1)) := by
  rw [traceTick, if_pos h]

theorem traceTick_of_low (cap kmin : Nat) (q : Path) (h : 4 * q.staged.length < cap) (hl : q.msLow < 9) :
    traceTick cap kmin q = { q with k := max kmin q.k, msLow := q.msLow + 1 } := by
  rw [traceTick, if_neg (by omega), if_neg (by omega)]

theorem traceTick_of_low_ten (cap kmin : Nat) (q : Path) (h : 4 * q.staged.length < cap) (hl : 9 ≤ q.msLow) :
    traceTick cap kmin q = { q with k := max kmin (q.k - 1), msLow := 0 } := by
  rw [traceTick, if_neg (by omega), if_pos (by omega)]

theorem exec_traceExponentTick_path (p : Nat) (s : State) :
    ∃ t, exec (.traceExponentTick p) s = .next t ∧ Touches [.tu] s t ∧
      t.path p = traceTick (pathCap p) (traceKMin s) (s.path p) :=
  ⟨_, rfl, Touches.viaNext rfl (execTraceExponentTick_touch p s), (path_upd_all ..).trans (if_pos rfl)⟩

/-! ### Telemetry packets -/

/-- The events of a packet gone from the Ethernet path, counted, under the next sequence number. -/
def telemetryTaken (s : State) : State :=
  let u := s.updPath 0 (fun q => pathCount (pathCount { q with staged := q.staged.drop 38, lost := 0 } 1
    ((s.path 0).staged.take 38).length) 8 1)
  { u with tu := { u.tu with ethSeq := (s.tu.ethSeq + 1) % 2 ^ 32 } }

theorem telemetryTaken_touch (s : State) : Touches [.tu] s (telemetryTaken s) := by
  unfold telemetryTaken
  exact Touches.ofMk (Touches.refl s) kp kp kp kp kp kp kp kp kp kp kp kp kp kp kp kp kp kp kp kp kp kp kp kp kp kp kp kp kp kp
    kp ch kp kp kp kp kp kp kp

theorem telemetryTaken_path (s : State) (p : Nat) : (telemetryTaken s).path p =
    if 0 = p then pathCount (pathCount { s.path p with staged := (s.path p).staged.drop 38, lost := 0 } 1
      ((s.path 0).staged.take 38).length) 8 1 else s.path p :=
  path_upd_all s 0 p (fun q => pathCount (pathCount { q with staged := q.staged.drop 38, lost := 0 } 1
    ((s.path 0).staged.take 38).length) 8 1)

theorem path_of_tu_eq {s t : State} (h : t.tu = s.tu) (p : Nat) : t.path p = s.path p := by
  rw [State.path, h, State.path]

theorem exec_telemetryPacketSend_of_staged (s : State) (he : pathEnabled s 0 = true) (hr : s.tu.restarting = false)
    (hs : (s.path 0).staged ≠ []) :
    exec .telemetryPacketSend s = .next (sendUdp (telemetryTaken s) (teEthPort s.run.telemetry) (teCollector s.run.telemetry) 0
      (.udp (teEthPort s.run.telemetry) (teCollector s.run.telemetry) (teUdpPort s.run.telemetry) (teUdpPort s.run.telemetry)
        Config.telemetryHop.toNat (teDscp s.run.telemetry) 0 false 0 0
        (telemetryPayload ((s.tu.ethSeq + 1) % 2 ^ 32) (s.path 0).lost ((s.path 0).staged.take 38)))) := by
  rw [exec_telemetryPacketSend, execTelemetryPacketSend, if_neg (by simp [he, hr, hs])]
  rfl

/-! ### Summaries -/

theorem exec_summaryTimer_of_imago (s : State) (hi : s.imago = true) (hr : s.tu.restarting = false) :
    ∃ t, exec .summaryTimer s = .next t ∧ t.tu = (summaryPaths ((List.range 10).filter (pathEnabled s)) s).tu ∧
      ∀ i, mget t.aon.inputs i = { mget s.aon.inputs i with releasedStuck := false } := by
  rw [exec_summaryTimer, execSummaryTimer, if_neg (by simp [hi, hr])]
  refine ⟨_, rfl, rfl, fun i => ?_⟩
  rw [← Touches.inputs_eq (summaryPaths_touch ((List.range 10).filter (pathEnabled s)) s) (by decide)]
  exact mget_mmap (summaryPaths ((List.range 10).filter (pathEnabled s)) s).aon.inputs (fun _ p => { p with releasedStuck := false }) i rfl

/-- Settles O59. -/
theorem telemetryEvents : Obligations.TelemetryEvents := by
  unfold Obligations.TelemetryEvents
  refine ⟨?stage, ?on, ?tick, ?packet, ?summary⟩
  case stage =>
    intro e s
    exact ⟨_, rfl, Touches.viaNext rfl (execEventStage_touch e s), raiseEv_alarms s e, raiseEv_of_not_alarm s e⟩
  case on =>
    intro e p s hp hr
    refine ⟨?_, fun q hq => ?_⟩
    · rw [path_stageOn_of_low s e p p hp hr, if_pos rfl]
    · rw [path_stageOn_of_low s e p q hp hr, if_neg (Ne.symm hq)]
  case tick =>
    intro p s
    obtain ⟨t, hexec, htouch, hpath⟩ := exec_traceExponentTick_path p s
    refine ⟨t, hexec, htouch, ?_, fun h => ?_, fun h => ⟨fun hl => ?_, fun hl => ?_⟩⟩ <;> rw [hpath]
    · exact traceTick_staged ..
    · exact traceTick_of_quarter_full _ _ _ h
    · rw [traceTick_of_low _ _ _ h hl]
      exact ⟨rfl, rfl⟩
    · rw [traceTick_of_low_ten _ _ _ h hl]
      exact ⟨rfl, rfl⟩
  case packet =>
    intro s he hr hs
    have hexec := exec_telemetryPacketSend_of_staged s he hr hs
    refine ⟨_, telemetryTaken s, hexec, telemetryTaken_touch s, rfl, ?_⟩
    have htu := Touches.tu_eq (sendUdp_touch (telemetryTaken s) (teEthPort s.run.telemetry) (teCollector s.run.telemetry) 0
      (.udp (teEthPort s.run.telemetry) (teCollector s.run.telemetry) (teUdpPort s.run.telemetry) (teUdpPort s.run.telemetry)
        Config.telemetryHop.toNat (teDscp s.run.telemetry) 0 false 0 0
        (telemetryPayload ((s.tu.ethSeq + 1) % 2 ^ 32) (s.path 0).lost ((s.path 0).staged.take 38)))) (by decide)
    refine ⟨?_, ?_, by rw [htu]; rfl, fun p hp => ?_, Touches.viaNext hexec (execTelemetryPacketSend_touch s)⟩
    · rw [path_of_tu_eq htu, telemetryTaken_path, if_pos rfl]
      rfl
    · rw [path_of_tu_eq htu, telemetryTaken_path, if_pos rfl]
      rfl
    · rw [path_of_tu_eq htu, telemetryTaken_path, if_neg (Ne.symm hp)]
  case summary =>
    intro s hi hr
    obtain ⟨t, hexec, htu, hin⟩ := exec_summaryTimer_of_imago s hi hr
    exact ⟨t, hexec, htu, hin, Touches.viaNext hexec (execSummaryTimer_touch s)⟩

end Sys2Proof.Machine
end

section
/-! PROOFS. The SMBus management port MP (R429 to R433): O60. -/

namespace Sys2Proof.Machine

open Sys2Proof (Instr Word Bytes Byte)

theorem mpTakes_of_answers (s : State) (f : State → State) (h : mpAnswers s = true) : mpTakes s f = .next (f s) :=
  if_pos h

theorem mpTakes_of_silent (s : State) (f : State → State) (h : mpAnswers s = false) :
    mpTakes s f = .next { s with out := .smbAck false :: s.out } :=
  if_neg (by simp [h])

theorem mpRefuse_eq (s : State) : mpRefuse s = raiseLog { s with out := .smbAck false :: s.out } uMp := rfl

/-- Before the end of phase FUSE, MP does not acknowledge its address. -/
theorem exec_mp_of_silent (c : Instr) (v : Nat) (ok : Bool) (s : State) (h : mpAnswers s = false)
    (hc : c = .mpIdentify ∨ c = .mpSetPointer v ok ∨ c = .mpReadRegisters ∨ c = .mpReadEvents ∨ c = .mpRemoveEvents v ok) :
    exec c s = .next { s with out := .smbAck false :: s.out } := by
  obtain rfl | rfl | rfl | rfl | rfl := hc
  · rw [exec_mpIdentify, execMpIdentify, mpTakes_of_silent _ _ h]
  · rw [exec_mpSetPointer, execMpSetPointer, mpTakes_of_silent _ _ h]
  · rw [exec_mpReadRegisters, execMpReadRegisters, mpTakes_of_silent _ _ h]
  · rw [exec_mpReadEvents, execMpReadEvents, mpTakes_of_silent _ _ h]
  · rw [exec_mpRemoveEvents, execMpRemoveEvents, mpTakes_of_silent _ _ h]

theorem exec_mpIdentify_of_answers (s : State) (h : mpAnswers s = true) : exec .mpIdentify s = .next
    { s with out := .smbBlock (toLe 4 (aonId s).toNat ++ toLe 1 s.run.partitions.length ++ toLe 1 s.scu.keySlot ++ zeros 2) ::
      s.out } := by
  rw [exec_mpIdentify, execMpIdentify, mpTakes_of_answers _ _ h, emit]

/-! ### The register pointer -/

theorem exec_mpSetPointer_of_good (v : Nat) (s : State) (h : mpAnswers s = true) (hal : v % 4 = 0) (hlt : v < 0xC00) :
    exec (.mpSetPointer v true) s = .next { s with tu := { s.tu with mpPtr := v }, out := .smbAck true :: s.out } := by
  rw [exec_mpSetPointer, execMpSetPointer, mpTakes_of_answers _ _ h, if_neg (by simp [hal]; omega)]
  rfl

theorem exec_mpSetPointer_of_bad (v : Nat) (ok : Bool) (s : State) (h : mpAnswers s = true)
    (hbad : ok = false ∨ v % 4 ≠ 0 ∨ 0xC00 ≤ v) :
    exec (.mpSetPointer v ok) s = .next (raiseLog { s with out := .smbAck false :: s.out } uMp) := by
  have hcond : (!ok || v % 4 != 0 || 0xC00 ≤ v) = true := by
    obtain rfl | hal | hge := hbad
    · simp
    · simp [hal]
    · simp [hge]
  rw [exec_mpSetPointer, execMpSetPointer, mpTakes_of_answers _ _ h, if_pos hcond, mpRefuse_eq]

theorem exec_mpReadRegisters_of_answers (s : State) (h : mpAnswers s = true) :
    ∃ t, exec .mpReadRegisters s = .next t ∧ t.tu.mpPtr = (s.tu.mpPtr + 32) % 0xC00 ∧
      ∃ l, t.out = .smbBlock ((aonReads .mp 8 s.tu.mpPtr s).1.flatMap (fun w => toLe 4 w.toNat)) :: l := by
  rw [exec_mpReadRegisters, execMpReadRegisters, mpTakes_of_answers _ _ h]
  have hptr := aonReads_ptr 8 s.tu.mpPtr s
  cases hread : aonReads .mp 8 s.tu.mpPtr s with
  | mk ws u =>
    rw [hread] at hptr
    rw [← hptr]
    exact ⟨_, rfl, rfl, _, rfl⟩

/-! ### Events -/

theorem exec_mpReadEvents_of_answers (s : State) (h : mpAnswers s = true) : exec .mpReadEvents s = .next
    { s with
      tu := { s.tu with mpLast := min 7 (s.path 1).staged.length }
      out := .smbBlock (toLe 1 (min 7 (s.path 1).staged.length) ++ toLe 1 (min 255 ((s.path 1).staged.length / 2)) ++
        ((s.path 1).staged.take 7).flatMap evBytes) :: s.out } := by
  rw [exec_mpReadEvents, execMpReadEvents, mpTakes_of_answers _ _ h]
  simp only [List.length_take]
  rfl

/-- The oldest `n` events of MP's path removed, and the alert with the last alarm. -/
def mpRemoved (s : State) (n : Nat) : State :=
  let u := s.updPath 1 (fun q => pathCount { q with staged := (s.path 1).staged.drop n } 1 n)
  { u with
    tu := { u.tu with
      mpLast := s.tu.mpLast - n
      mpAlert := s.tu.mpAlert && ((s.path 1).staged.drop n).any isAlarmEv }
    out := .smbAck true :: s.out }

theorem mpRemoved_touch (s : State) (n : Nat) : Touches [.tu, .out] s (mpRemoved s n) := by
  unfold mpRemoved
  exact Touches.ofMk (Touches.refl s) kp kp kp kp kp kp kp kp kp kp kp kp kp kp kp kp kp kp kp kp kp kp kp kp kp kp kp kp kp kp
    kp ch kp kp kp ch kp kp kp

theorem mpRemoved_staged (s : State) (n : Nat) : ((mpRemoved s n).path 1).staged = (s.path 1).staged.drop n := by
  have hpath : (mpRemoved s n).path 1 = (s.updPath 1 (fun q => pathCount { q with staged := (s.path 1).staged.drop n } 1 n)).path 1 :=
    rfl
  rw [hpath, path_upd_all, if_pos rfl]
  rfl

theorem exec_mpRemoveEvents_of_good (m : Nat) (s : State) (h : mpAnswers s = true) (hpos : 0 < m) (hle : m ≤ 7) :
    exec (.mpRemoveEvents m true) s = .next (mpRemoved s (min m s.tu.mpLast)) := by
  rw [exec_mpRemoveEvents, execMpRemoveEvents, mpTakes_of_answers _ _ h, if_neg (by simp; omega)]
  rfl

theorem exec_mpRemoveEvents_of_bad (m : Nat) (ok : Bool) (s : State) (h : mpAnswers s = true)
    (hbad : ok = false ∨ m = 0 ∨ 7 < m) :
    exec (.mpRemoveEvents m ok) s = .next (raiseLog { s with out := .smbAck false :: s.out } uMp) := by
  have hcond : (!ok || m = 0 || 7 < m) = true := by
    obtain rfl | hzero | hgt := hbad
    · simp
    · simp [hzero]
    · simp [hgt]
  rw [exec_mpRemoveEvents, execMpRemoveEvents, mpTakes_of_answers _ _ h, if_pos hcond, mpRefuse_eq]

theorem exec_mpAlertResponse_of_alert (s : State) (h : mpAnswers s = true) (ha : s.tu.mpAlert = true) :
    exec .mpAlertResponse s =
      .next { s with tu := { s.tu with mpAlert := false }, out := .smbAlertAddress (0x58 + s.aon.smbAddr) :: s.out } := by
  rw [exec_mpAlertResponse, execMpAlertResponse, if_pos (by simp [h, ha])]
  rfl

/-- Settles O60. -/
theorem managementPortCommands : Obligations.ManagementPortCommands := by
  unfold Obligations.ManagementPortCommands
  refine ⟨exec_mp_of_silent, exec_mpIdentify_of_answers, exec_mpSetPointer_of_good, exec_mpSetPointer_of_bad, ?read, ?events,
    ?remove, exec_mpRemoveEvents_of_bad, exec_mpAlertResponse_of_alert, fun _ => rfl⟩
  case read =>
    intro s h
    obtain ⟨t, hexec, hptr, hout⟩ := exec_mpReadRegisters_of_answers s h
    exact ⟨_, t, hexec, aonReads_len 8 _ s, hout, hptr, Touches.viaNext hexec (execMpReadRegisters_touch s)⟩
  case events =>
    intro s h
    have hexec := exec_mpReadEvents_of_answers s h
    exact ⟨_, hexec, rfl, rfl, Touches.viaNext hexec (execMpReadEvents_touch s)⟩
  case remove =>
    intro m s h hpos hle
    exact ⟨_, exec_mpRemoveEvents_of_good m s h hpos hle, mpRemoved_staged s _, rfl, rfl, mpRemoved_touch s _⟩

end Sys2Proof.Machine
end
